-- ==== Sys2Proof/Word.lean ====
section
/-! DEFINITION. The word types of the G4 and the sparse maps that State is made of. -/

namespace Sys2Proof

/-- A 32-bit register value (R28). -/
abbrev Word := BitVec 32

/-- A 64-bit value: an aligned pair, an address, a Mordant scalar (R33, R216). -/
abbrev DWord := BitVec 64

/-- One byte of memory. -/
abbrev Byte := BitVec 8

/-- A register field of an instruction word (R64): 0 to 1,023, of which 0 to 767 name registers. -/
abbrev Reg := BitVec 10

/-- The five sticky floating-point flags in the bit order of R43: NX, UF, OF, DZ, NV. -/
abbrev FFlags := BitVec 5

/-- A sparse map: the listed keys with their values; every other key holds the default. -/
abbrev FMap (α : Type) := List (Nat × α)

/-- The value at key `n`; the default `d` where `n` is not listed. -/
def FMap.get {α : Type} (d : α) : FMap α → Nat → α
  | [], _ => d
  | (k, v) :: m, n => if k = n then v else FMap.get d m n

/-- Remove every entry of key `n`. -/
def FMap.erase {α : Type} (m : FMap α) (n : Nat) : FMap α :=
  m.filter (fun p => p.1 != n)

/-- Insert an entry in ascending key order. -/
def FMap.insert {α : Type} (n : Nat) (v : α) : FMap α → FMap α
  | [] => [(n, v)]
  | (k, w) :: m => if n < k then (n, v) :: (k, w) :: m else (k, w) :: FMap.insert n v m

/-- Write `v` at key `n`, keeping keys ascending and no entry equal to the default. -/
def FMap.set {α : Type} [DecidableEq α] (d : α) (m : FMap α) (n : Nat) (v : α) : FMap α :=
  if v = d then FMap.erase m n else FMap.insert n v (FMap.erase m n)

/-- The keys of a map rise strictly from `lo` on. -/
def FMap.ascending {α : Type} : Nat → FMap α → Bool
  | _, [] => true
  | lo, (k, _) :: m => decide (lo ≤ k) && FMap.ascending (k + 1) m

/-- The canonical form: keys strictly rising, no entry equal to the default. -/
def FMap.wf {α : Type} [DecidableEq α] (d : α) (m : FMap α) : Bool :=
  FMap.ascending 0 m && m.all (fun p => !decide (p.2 = d))

end Sys2Proof
end

