-- ==== Sys2Proof/Config.lean ====
section
/-! DEFINITION. What the spec leaves open: constants of the device and free values, each a constant with no body. -/

namespace Sys2Proof.Config

/-- A value that the spec leaves undefined, one for each count of the state's free counter. -/
opaque freeWord : Nat → DWord

/-- The number of this package on the panel, 0 to 63 (R402). -/
opaque packageNumber : BitVec 6

/-- The Vendor ID that the device reports (R365). -/
opaque vendorId : Nat

/-- The hash of a source function, a target and a class that spreads packets over the ports (R395), named and not given by the
spec. -/
opaque portHash : Nat → Nat → Nat → Nat

/-- The firmware image as manufactured (R387). -/
opaque factoryImage : List Byte

/-- The vendor's public key, whose digest is fused (R388). -/
opaque vendorKey : Nat × Nat

/-- The bytes of an image that its signature covers, and the signature r, s that it carries (R388): the spec gives no format. -/
opaque signedPart : List Byte → List Byte
opaque imageSignature : List Byte → Nat × Nat

/-- The image version that an image carries (R388). -/
opaque imageVersion : List Byte → Nat

/-- The minimum version in the fuses (R388). -/
opaque fusedMinimum : Nat

/-- The device identity key, a private key of P-256, fused at manufacture (R10). -/
opaque identityKey : Nat

/-- The bytes by which a log entry names the part that failed at bring-up (R387): clusters are 0 to 127, ports 128 to 143, and
144 stands for the training of HBM4 and the zeroing of its pages. -/
opaque partName : Nat → BitVec 128

end Sys2Proof.Config
end

