-- ==== Sys2Proof/Syntax.lean ====
section
/-! DEFINITION. The instructions and events of the G4: one constructor per row of the opcode table, in its order. -/

namespace Sys2Proof

/-- A source register field with its empty policy (R64): `trap` false is park, true is trap (`!`). -/
structure Src where
  r : Reg
  trap : Bool
  deriving DecidableEq, Repr, Inhabited

/-- The type codes 0x0 to 0xA of R71. -/
inductive Ty
  | s32 | n32 | s8 | n8 | s16 | n16 | s64 | n64 | f32 | f16 | bf16
  deriving DecidableEq, Repr, Inhabited

/-- The float types of FTYPE (R71), scalar spelling. -/
inductive FTy
  | f32 | f16 | bf16
  deriving DecidableEq, Repr, Inhabited

/-- Rounding modes (R50, R71). -/
inductive RM
  | rne | rz | ru | rd
  deriving DecidableEq, Repr, Inhabited

/-- Scopes (R71, R302). -/
inductive Scope
  | th | grp | team | cl | dev | sys | fab
  deriving DecidableEq, Repr, Inhabited

/-- Memory widths (R71). -/
inductive Width
  | w8 | w16 | w32 | w64 | w128
  deriving DecidableEq, Repr, Inhabited

/-- Wait classes (R71, R137). -/
inductive Cls
  | ld | st | md | mx | fab
  deriving DecidableEq, Repr, Inhabited

/-- Integer conditions (R95). -/
inductive Cond
  | eq | ne | lt | le | gt | ge
  deriving DecidableEq, Repr, Inhabited

/-- Floating-point conditions (R107). -/
inductive FCond
  | eq | ne | lt | le | gt | ge | un | or
  deriving DecidableEq, Repr, Inhabited

/-- The FA modifier of a rounding instruction (R72): type, rounding mode and `.ftz`. -/
structure FMod where
  ty : FTy
  rm : RM
  ftz : Bool
  deriving DecidableEq, Repr, Inhabited

/-- The operations of a P-form half (R79). -/
inductive PairOp
  | add | sub | and | or | xor | andn | shl | shr | sar | min | max | mul | mov
  | fadd | fsub | fmul | fmin | fmax | hadd2 | hsub2 | hmul2
  deriving DecidableEq, Repr, Inhabited

/-- One half of a P-form word (R65): `d := d op s` with the three modifier bits of the P map. -/
structure Half where
  op : PairOp
  d : Reg
  s : Src
  m : BitVec 3
  deriving DecidableEq, Repr, Inhabited

/-- Atomic operations (R133). -/
inductive AOp
  | add | min | max | and | or | xor | exch | inc | dec
  deriving DecidableEq, Repr, Inhabited

/-- Fence kinds (R136). -/
inductive FenceKind
  | ar | acq | rel
  deriving DecidableEq, Repr, Inhabited

/-- Shuffle modes (R185). -/
inductive ShflMode
  | idx | up | down | xor
  deriving DecidableEq, Repr, Inhabited

/-- Vote modes (R186). -/
inductive VoteMode
  | every | some | same | count
  deriving DecidableEq, Repr, Inhabited

/-- Reduction operations of `redux` and `gscan` (R180). -/
inductive RedOp
  | add | min | max | and | or | xor
  deriving DecidableEq, Repr, Inhabited

/-- The kinds of `tlbinv` (R357). -/
inductive TlbKind
  | va | ipa | fn | all
  deriving DecidableEq, Repr, Inhabited

/-- The core that a Mordant barrier instruction names (R224, R249). -/
inductive CoreSel
  | home | c0 | c1 | c2 | c3
  deriving DecidableEq, Repr, Inhabited

/-- The arrival counts of a Mordant `cbarr` (R249). -/
inductive ArrKind
  | cnt | bytes | items
  deriving DecidableEq, Repr, Inhabited

/-- The descriptor fields that `tdset` writes (R242). -/
inductive DescField
  | base | ebase | hdr | ext | str | off
  deriving DecidableEq, Repr, Inhabited

/-- The operations and types of `fxred` (R258). -/
inductive FxOp
  | add | min | max
  deriving DecidableEq, Repr, Inhabited
inductive FxTy
  | f32 | bf16 | s32
  deriving DecidableEq, Repr, Inhabited

/-- Packet classes (R402). -/
inductive PktClass
  | write | read | atomic | reduction
  deriving DecidableEq, Repr, Inhabited

/-- Answer codes (R404). -/
inductive Answer
  | ok | denied | unreach | expired | moved | poison | timeout
  deriving DecidableEq, Repr, Inhabited

/-- An answer to a packet: its code and, where the packet went to a group, the member that sent it, as package × 64 + function
(R407). -/
structure MemberAnswer where
  member : Nat
  code : Answer
  deriving DecidableEq, Repr, Inhabited

/-- What Ochre has for the power cap: the mean package power, in the units of WATTS, and how far it raises every LEVEL while the
cap is exceeded (R392). -/
structure PowerReading where
  power : Nat
  raise : BitVec 4
  deriving DecidableEq, Repr, Inhabited

/-- What a packet asks its target to do (R399, R400): the offset names bytes of the target's memory. -/
inductive PktOp
  | read (n : Nat)
  | write (bytes : List Byte)
  | atomic (op : AOp) (ty : Ty) (x : DWord)
  | cas (ty : Ty) (cmp : DWord) (swap : DWord)
  /-- elements of a member's contribution to a fabric reduction of `n` elements, from element `first` on (R409) -/
  | reduce (group epoch : Nat) (op : FxOp) (ty : FxTy) (n first : Nat) (elems : List Nat)
  deriving DecidableEq, Repr, Inhabited

/-- What a participant on another package gives a reduction context of the panel (R409). -/
structure FxPart where
  pkg : Nat
  fn : Nat
  op : FxOp
  ty : FxTy
  elems : List Nat
  deriving DecidableEq, Repr, Inhabited

/-- The completion of a fabric reduction of a program; `remote` is what a reduction context of the panel has of the participants
on other packages (R409). -/
structure FxCompletion where
  prog : Nat
  remote : List FxPart
  deriving DecidableEq, Repr, Inhabited

/-- A packet with its identity (R402). -/
structure Packet where
  srcPkg : Nat
  srcFn : Nat
  dstPkg : Nat
  dstFn : Nat
  cls : PktClass
  seq : Nat
  /-- target of the original identity, which forwarding and resending keep (R406): a package, or 64 + g for group g -/
  idPkg : Nat
  offset : Nat
  op : PktOp
  forwarded : Bool
  resent : Bool
  deriving DecidableEq, Repr, Inhabited

/-- One lane's sample (R396): corrected error rate above 10^-8; eye margin below 20 %. -/
structure LaneSample where
  ber : Bool
  eye : Bool
  deriving DecidableEq, Repr, Inhabited

/-- A register as the host names it: an offset of the function control page, or a number of R360. -/
inductive HostReg
  | page (off : Nat)
  | csr (n : Nat)
  deriving DecidableEq, Repr, Inhabited

/-- The configuration fields whose values R365 states. -/
inductive CfgField
  | vendorId | deviceId | totalVfs | initialVfs | firstVfOffset | vfStride | systemPageSizes | vfMigrationCapable | vfEnable
  deriving DecidableEq, Repr, Inhabited

/-- A Helhild Link access (R301, R366): to a physical address, to a notify page through BAR0 of a function, or to the
control page through BAR2 of the physical function. -/
inductive HostOp
  /-- a read of a field of a function's configuration space (R365) -/
  | configRead (fn : Nat) (field : CfgField)
  /-- an access of physical memory that belongs to a function (R372) -/
  | memRead (fn pa n : Nat)
  | memWrite (fn pa : Nat) (bytes : List Byte)
  | bar0Read (fn off n : Nat)
  | bar0Write (fn off n : Nat) (v : DWord)
  | bar2Read (off n : Nat)
  /-- a read of a package register of R360 by the physical function (R346, R356) -/
  | csrRead (n : Nat)
  /-- a write of VF Enable in the SR-IOV capability (R365, R370) -/
  | vfEnable (on : Bool)
  deriving DecidableEq, Repr, Inhabited

/-- The instruction set: thread instructions, Mordant instructions, then the device's events. -/
inductive Instr
  -- thread: integer, logic and address arithmetic (05)
  | add (t : Ty) (d : Reg) (a b : Src)
  | sub (t : Ty) (d : Reg) (a b : Src)
  | addc (t : Ty) (d : Reg) (a b c : Src)
  | subb (t : Ty) (d : Reg) (a b c : Src)
  | mul (t : Ty) (d : Reg) (a b : Src)
  | mulh (t : Ty) (d : Reg) (a b : Src)
  | mad (t : Ty) (d : Reg) (a b c : Src)
  | div (t : Ty) (d : Reg) (a b : Src)
  | rem (t : Ty) (d : Reg) (a b : Src)
  | min (t : Ty) (d : Reg) (a b : Src)
  | max (t : Ty) (d : Reg) (a b : Src)
  | abs (t : Ty) (d : Reg) (a : Src)
  | neg (t : Ty) (d : Reg) (a : Src)
  | and (d : Reg) (a b : Src)
  | or (d : Reg) (a b : Src)
  | xor (d : Reg) (a b : Src)
  | not (d : Reg) (a : Src)
  | andn (d : Reg) (a b : Src)
  | orn (d : Reg) (a b : Src)
  | shl (d : Reg) (a b : Src)
  | shr (d : Reg) (a b : Src)
  | sar (d : Reg) (a b : Src)
  | rot (d : Reg) (a b : Src)
  | clz (d : Reg) (a : Src)
  | ctz (d : Reg) (a : Src)
  | popc (d : Reg) (a : Src)
  | brev (d : Reg) (a : Src)
  | bfe (t : Ty) (d : Reg) (a b : Src)
  | bfi (d : Reg) (a b c : Src)
  | bperm (d : Reg) (a b c : Src)
  | sel (d : Reg) (a b c : Src)
  | cmp (cc : Cond) (t : Ty) (d : Reg) (a b : Src)
  | add64 (d : Reg) (a b : Src)
  | sub64 (d : Reg) (a b : Src)
  | mul64 (d : Reg) (a b : Src)
  | shl64 (d : Reg) (a b : Src)
  | shr64 (t : Ty) (d : Reg) (a b : Src)
  | cmp64 (cc : Cond) (t : Ty) (d : Reg) (a b : Src)
  | lea (nat : Bool) (sc : BitVec 3) (d : Reg) (a b : Src)
  | mov (d : Reg) (a : Src)
  | movi (d : Reg) (imm : Word)
  | movp (d : Reg) (imm : DWord)
  | idp4 (t : Ty) (d : Reg) (a b c : Src)
  | addImm (t : Ty) (d : Reg) (a : Src) (imm : BitVec 24)
  | mulImm (t : Ty) (d : Reg) (a : Src) (imm : BitVec 24)
  | andImm (d : Reg) (a : Src) (imm : BitVec 24)
  | orImm (d : Reg) (a : Src) (imm : BitVec 24)
  | xorImm (d : Reg) (a : Src) (imm : BitVec 24)
  | shlImm (d : Reg) (a : Src) (imm : BitVec 24)
  | shrImm (d : Reg) (a : Src) (imm : BitVec 24)
  | sarImm (d : Reg) (a : Src) (imm : BitVec 24)
  | minImm (t : Ty) (d : Reg) (a : Src) (imm : BitVec 24)
  | maxImm (t : Ty) (d : Reg) (a : Src) (imm : BitVec 24)
  | cmpImm (cc : Cond) (t : Ty) (d : Reg) (a : Src) (imm : BitVec 24)
  | pairWord (ha hb : Half)
  -- thread: floating point, packed half and conversion (06)
  | fadd (m : FMod) (d : Reg) (a b : Src)
  | fsub (m : FMod) (d : Reg) (a b : Src)
  | fmul (m : FMod) (d : Reg) (a b : Src)
  | ffma (m : FMod) (d : Reg) (a b c : Src)
  | fmin (t : FTy) (ftz : Bool) (d : Reg) (a b : Src)
  | fmax (t : FTy) (ftz : Bool) (d : Reg) (a b : Src)
  | fabs (t : FTy) (d : Reg) (a : Src)
  | fneg (t : FTy) (d : Reg) (a : Src)
  | fcmp (cc : FCond) (t : FTy) (ftz : Bool) (d : Reg) (a b : Src)
  | fclass (t : FTy) (d : Reg) (a : Src)
  | frcp (m : FMod) (d : Reg) (a : Src)
  | frsq (m : FMod) (d : Reg) (a : Src)
  | fsqrt (m : FMod) (d : Reg) (a : Src)
  | fdiv (m : FMod) (d : Reg) (a b : Src)
  | fexp2 (m : FMod) (d : Reg) (a : Src)
  | flog2 (m : FMod) (d : Reg) (a : Src)
  | fldexp (m : FMod) (d : Reg) (a b : Src)
  | fgetexp (t : FTy) (ftz : Bool) (d : Reg) (a : Src)
  | frnd (m : FMod) (d : Reg) (a : Src)
  | hadd2 (m : FMod) (d : Reg) (a b : Src)
  | hsub2 (m : FMod) (d : Reg) (a b : Src)
  | hmul2 (m : FMod) (d : Reg) (a b : Src)
  | hfma2 (m : FMod) (d : Reg) (a b c : Src)
  | hmin2 (t : FTy) (ftz : Bool) (d : Reg) (a b : Src)
  | hmax2 (t : FTy) (ftz : Bool) (d : Reg) (a b : Src)
  | hcmp2 (cc : FCond) (t : FTy) (ftz : Bool) (d : Reg) (a b : Src)
  | fdp2 (m : FMod) (d : Reg) (a b c : Src)
  | cvt (dt st : Ty) (ftz : Bool) (d : Reg) (a : Src)
  | cvtRz (dt st : Ty) (ftz : Bool) (d : Reg) (a : Src)
  | cvtRu (dt st : Ty) (ftz : Bool) (d : Reg) (a : Src)
  | cvtRd (dt st : Ty) (ftz : Bool) (d : Reg) (a : Src)
  | bqenc (bw : BitVec 3) (d : Reg) (a b : Src)
  | bqdec (bw : BitVec 3) (d : Reg) (a b : Src)
  -- thread: control flow, memory, atomics and ordering (07)
  | br (off : BitVec 24)
  | brc (z : Bool) (c : Src) (off : BitVec 24)
  | call (d : Reg) (off : BitVec 24)
  | brx (a : Src)
  | calli (d : Reg) (a : Src)
  | ret (a : Src)
  | exit
  | trap (dbg : Bool) (n : Byte)
  | tret
  | nop (cut : Bool)
  | ld (w : Width) (sc : Scope) (sx nt : Bool) (d : Reg) (base : Src) (imm : BitVec 24)
  | st (w : Width) (sc : Scope) (nt : Bool) (v : Src) (base : Src) (imm : BitVec 24)
  | lds (w : Width) (sc : Scope) (sx : Bool) (d : Reg) (base : Src) (imm : BitVec 24)
  | sts (w : Width) (sc : Scope) (v : Src) (base : Src) (imm : BitVec 24)
  | ldc (w : Width) (sx : Bool) (d : Reg) (base : Src) (imm : BitVec 24)
  | pf (nt : Bool) (base : Src) (imm : BitVec 24)
  | atom (op : AOp) (t : Ty) (sc : Scope) (d : Reg) (a b : Src)
  | cas (t : Ty) (sc : Scope) (d : Reg) (a b c : Src)
  | atoms (op : AOp) (t : Ty) (sc : Scope) (d : Reg) (a b : Src)
  | cass (t : Ty) (sc : Scope) (d : Reg) (a b c : Src)
  | fence (k : FenceKind) (sc : Scope)
  | ifence
  | wcnt (cls : Cls) (n : BitVec 6)
  | vmark (win : Bool) (k : BitVec 6) (d : Reg) (a : Src)
  | vtest (d a : Reg)
  -- thread: core instructions (10)
  | shfl (m : ShflMode) (d : Reg) (a b : Src)
  | vote (m : VoteMode) (d : Reg) (a : Src)
  | ballot (b64 : Bool) (d : Reg) (a : Src)
  | redux (op : RedOp) (t : Ty) (d : Reg) (a : Src)
  | gscan (op : RedOp) (t : Ty) (ex : Bool) (d : Reg) (a : Src)
  | bqmax (d : Reg) (a : Src)
  | bar (sc : Scope)
  | phase
  | cbinit (a b : Src)
  | cbarr (sc : Scope) (a b : Src)
  | cbwait (a b : Src)
  | cbtest (d : Reg) (a : Src)
  | dqpush (d : Reg) (a b : Src)
  | dqpop (d : Reg)
  | dqsteal (d : Reg)
  | dqidle (d : Reg)
  | spawn (d : Reg) (a b : Src)
  | sid (k : BitVec 4) (d : Reg)
  | rdclk (d : Reg)
  | yield
  | sleep (d : Reg) (a b c : Src)
  -- thread: matrix unit, Mordant control, bound cells, multicast (13)
  | mxbeg (lit : DWord)
  | mxend (ch : BitVec 2)
  | mma (kb : Bool) (ch : BitVec 2) (tile : BitVec 5)
  | mxscale (kb : Bool) (ch : BitVec 2) (tile : BitVec 5)
  | mxdist (kb : Bool) (ch : BitVec 2) (tile : BitVec 5)
  | mxzero (tile : BitVec 5)
  | mxst (k : BitVec 2) (tile : BitVec 5) (a b : Src)
  | mxld (fl : Bool) (k : BitVec 2) (tile : BitVec 5) (d : Reg) (b : Src)
  | mxtopk (mx s32 : Bool) (tile : BitVec 5) (d : Reg) (b : Src)
  | mdgo (d : Reg) (a b : Src)
  | mdkill (a : Src)
  | mdstat (d : Reg) (a : Src)
  | bndmin (n : BitVec 3) (a : Src)
  | bndrd (n : BitVec 3) (d : Reg)
  | stmc (w : Width) (mask : BitVec 4) (a b : Src)
  -- thread: privileged and control-register instructions (18)
  | csrr (n : BitVec 9) (d : Reg)
  | csrw (n : BitVec 9) (a : Src)
  | csrs (n : BitVec 9) (d : Reg) (a : Src)
  | eret (a : Src)
  | tlbinv (k : TlbKind) (a b c : Src)
  | hcall (n : Byte) (d : Reg) (a : Src)
  -- Mordant instructions (12)
  | mAdd (d a b : BitVec 5)
  | mSub (d a b : BitVec 5)
  | mMul (d a b : BitVec 5)
  | mAnd (d a b : BitVec 5)
  | mOr (d a b : BitVec 5)
  | mXor (d a b : BitVec 5)
  | mShl (d a b : BitVec 5)
  | mShr (d a b : BitVec 5)
  | mCmp (cc : Cond) (nat : Bool) (d a b : BitVec 5)
  | mSel (d a b c : BitVec 5)
  | mMov (d a : BitVec 5)
  | mAddImm (d a : BitVec 5) (imm : BitVec 24)
  | mMulImm (d a : BitVec 5) (imm : BitVec 24)
  | mAndImm (d a : BitVec 5) (imm : BitVec 24)
  | mOrImm (d a : BitVec 5) (imm : BitVec 24)
  | mXorImm (d a : BitVec 5) (imm : BitVec 24)
  | mShlImm (d a : BitVec 5) (imm : BitVec 24)
  | mShrImm (d a : BitVec 5) (imm : BitVec 24)
  | mCmpImm (cc : Cond) (nat : Bool) (d a : BitVec 5) (imm : BitVec 24)
  | li (d : BitVec 5) (imm : Word)
  | liLit (d : BitVec 5) (imm : DWord)
  | mBr (off : BitVec 24)
  | mBrc (z : Bool) (c : BitVec 5) (off : BitVec 24)
  | loop (c : BitVec 5) (off : BitVec 24)
  | ldx (w : Width) (sx : Bool) (d base : BitVec 5) (imm : BitVec 24)
  | stx (w : Width) (v base : BitVec 5) (imm : BitVec 24)
  | tdld (d : BitVec 3) (base : BitVec 5) (imm : BitVec 24)
  | tdset (f : DescField) (k : BitVec 4) (d : BitVec 3) (a : BitVec 5)
  | tdsetLit (f : DescField) (k : BitVec 4) (d : BitVec 3) (v : DWord)
  | tcopy (d a : BitVec 3)
  | tgather (d a b : BitVec 3)
  | tscatter (d a b : BitVec 3)
  | qput (e : Bool) (s : BitVec 4) (a : BitVec 3)
  | mCbarr (k : ArrKind) (c : CoreSel) (a b : BitVec 5)
  | mCbwait (c : CoreSel) (a b : BitVec 5)
  | regfill (a b c : BitVec 5)
  | mfence
  | mdone (a : BitVec 5)
  | mexit
  | fxred (op : FxOp) (t : FxTy) (d a : BitVec 3) (b : BitVec 5)
  | dharv (d a : BitVec 5)
  -- events
  | rowSelection (core : Nat)
  | producerFill (req : Nat)
  | teamTeardown (team : Nat)
  | watchdogExpiry (team : Nat)
  | trapModeWindowExpiry (team : Nat)
  | teamAdmission (core : Nat)
  | admissionReservation (core : Nat)
  | phaseBoundary (team : Nat)
  | sliceEnd (core : Nat)
  | phaseDiscard (team : Nat)
  | teamSave (team : Nat)
  | teamRestore (saved cluster : Nat)
  | storePerform (req : Nat)
  | atomicPerform (req : Nat)
  | sleepTimeout (team tix : Nat)
  | yieldExpiry (team tix : Nat)
  | generationCheckedWrite (req : Nat)
  | quiescenceRound (launch die : Nat)
  | passStart (cluster : Nat)
  | passPerform (cluster : Nat)
  | requestPromotion (cluster idx : Nat)
  | mxtopkResult (team tix : Nat)
  | boundPropagation (launch cell : Nat)
  | mordantDispatch (cluster : Nat)
  | launchQueueNotify (fn q : Nat) (x : DWord)
  | launchQueueConfig (fn q : Nat) (x : DWord)
  | launchRead (fn q : Nat)
  | dependenceRecheck (launch : Nat)
  | launchPriorityAging (launch : Nat)
  | clusterTeamPlacement (die : Nat)
  | areaStallTimeout (token : Nat)
  | hvAnswer (x : DWord)
  | hvEventWrite
  | tlbWalk (die : Nat)
  | tlbinvRelease (team tix : Nat)
  | pinSet (x : DWord)
  | pinSetDone
  | hashApply
  | hashApplyDone
  | functionLevelReset (fn : Nat)
  | functionReset (fn : Nat)
  | functionResetDone (fn : Nat)
  | functionEnable (fn : Nat) (x : DWord)
  | clusterMaskWrite (fn : Nat) (hi : Bool) (x : DWord)
  | stop (fn : Nat)
  | quiesceDone (fn : Nat)
  | saveDone (fn : Nat)
  | commit (fn : Nat)
  | abort (fn : Nat)
  | restore (fn : Nat)
  | restoreDone (fn : Nat)
  | restoreStallTimeout (token : Nat)
  | saveAreaStallTimeout (token : Nat)
  | pageFree (x : DWord)
  | pageAlloc
  | pageScrubDone
  | systemMordantStart (die : Nat) (x : DWord)
  | powerGood
  | stageAReached
  | stageBReached (trained : Bool) (failedClusters : BitVec 128) (failedPorts : BitVec 16)
  | firmwareUpdate
  | updateResult (readFailed : Bool)
  | attestation
  | attestationDone
  | powerCapWrite (x : DWord)
  | logRingBaseWrite (x : DWord)
  | sensorRefresh (temps : List (Nat × BitVec 16)) (rails : List (Nat × DWord))
  | skipLevelUpdate (levels : List (BitVec 4)) (cap : PowerReading)
  | thermalShutdown (die point : Nat)
  | laneSample (port : Nat) (lanes : List LaneSample)
  | laneSignalLoss (port lane : Nat)
  | portTrainStart (port : Nat)
  | portTrainDone (port : Nat) (failed : BitVec 9)
  | laneSwap (port : Nat)
  | swapAgreementTimeout (port : Nat)
  | portDrainDone (port : Nat)
  | flitReplay (port : Nat)
  | packetSend (id : Nat)
  | packetReceive (p : Packet)
  | answerReceive (id : Nat) (answer : MemberAnswer) (data : List Byte)
  | packetRetransmit (id : Nat)
  | packetTimeout (id : Nat)
  | movedResend (id : Nat)
  | atomicResultExpiry (srcPkg : Nat)
  | forwardingWindowEnd (fn : Nat)
  | fabricMmuStallTimeout (token : Nat)
  | vdnInvalidate (fn : Nat)
  | multicastRewrite (x : DWord)
  | multicastRewriteDone
  | fxredComplete (x : FxCompletion)
  | txtailWrite (port q : Nat) (fn : Nat) (x : Word)
  | frameTransmit (port q : Nat)
  | frameReceive (port : Nat) (frame : List Byte) (fcs : Word)
  | hostAccess (op : HostOp)
  | registerWrite (r : HostReg) (x : DWord)
  | powerLoss
  deriving DecidableEq, Repr

end Sys2Proof
end

