-- ==== Sys2Proof/Machine/Flags.lean ====
section
/-! DEFINITION. Floating point and block floating point: exact values, Round, and the flags every result sets (file 03,
R103 to R117). A finite value is ± m × 2^e with m a natural number. -/

namespace Sys2Proof.Machine

/-! ## Flags (R43, R56) -/

def fNX : FFlags := 0b00001
def fUF : FFlags := 0b00010
def fOF : FFlags := 0b00100
def fDZ : FFlags := 0b01000
def fNV : FFlags := 0b10000

/-! ## Formats (R47) -/

/-- Precision, bias and exponent width. -/
structure Fmt where
  p : Nat
  bias : Nat
  ew : Nat
  deriving DecidableEq, Repr

def fp32 : Fmt := ⟨24, 127, 8⟩
def fp16 : Fmt := ⟨11, 15, 5⟩
def bf16 : Fmt := ⟨8, 127, 8⟩

def fmtOf : FTy → Fmt
  | .f32 => fp32
  | .f16 => fp16
  | .bf16 => bf16

def Fmt.signBit (f : Fmt) : Nat := 2 ^ (f.p - 1 + f.ew)
def Fmt.infBits (f : Fmt) : Nat := (2 ^ f.ew - 1) * 2 ^ (f.p - 1)
def Fmt.maxBits (f : Fmt) : Nat := f.infBits - 1
/-- The canonical NaN (R48). -/
def Fmt.nanBits (f : Fmt) : Nat := f.infBits + 2 ^ (f.p - 2)
def Fmt.emin (f : Fmt) : Int := 1 - (f.bias : Int)
def Fmt.emax (f : Fmt) : Int := f.bias

/-- A value read from an encoding. -/
inductive FVal
  | nan (signalling : Bool)
  | inf (neg : Bool)
  | fin (neg : Bool) (m : Nat) (e : Int)
  deriving DecidableEq, Repr

/-- Value of R47: the low bits of `b` as an encoding of the format. -/
def unpack (f : Fmt) (b : Nat) : FVal :=
  let neg := b / f.signBit % 2 == 1
  let ex := b / 2 ^ (f.p - 1) % 2 ^ f.ew
  let fr := b % 2 ^ (f.p - 1)
  if ex = 2 ^ f.ew - 1 then
    if fr = 0 then .inf neg else .nan (decide (fr < 2 ^ (f.p - 2)))
  else if ex = 0 then .fin neg fr (f.emin - (f.p - 1 : Nat))
  else .fin neg (2 ^ (f.p - 1) + fr) ((ex : Int) - f.bias - (f.p - 1 : Nat))

/-- A subnormal encoding. -/
def isSub (f : Fmt) (b : Nat) : Bool := b / 2 ^ (f.p - 1) % 2 ^ f.ew == 0 && b % 2 ^ (f.p - 1) != 0

/-- Value after the source flush of R53. -/
def unpackZ (f : Fmt) (ftz : Bool) (b : Nat) : FVal :=
  if ftz && isSub f b then .fin (b / f.signBit % 2 == 1) 0 0 else unpack f b

def withSign (f : Fmt) (neg : Bool) (b : Nat) : Nat := if neg then f.signBit + b else b

def FVal.isNan : FVal → Bool
  | .nan _ => true
  | .inf _ | .fin _ _ _ => false

def FVal.isSnan : FVal → Bool
  | .nan s => s
  | .inf _ | .fin _ _ _ => false

/-- NV where any of the values is a signalling NaN (R54). -/
def nvOf (l : List FVal) : FFlags := if l.any FVal.isSnan then fNV else 0

/-! ## Round (R50, R51) -/

/-- The overflow table of R51. -/
def overflowBits (f : Fmt) (md : RM) (neg : Bool) : Nat :=
  withSign f neg (match md with
    | .rne => f.infBits
    | .rz => f.maxBits
    | .ru => if neg then f.maxBits else f.infBits
    | .rd => if neg then f.infBits else f.maxBits)

/-- Divide by 2^sh: the quotient and how the remainder compares with half: 0 none, 1 below, 2 tie, 3 above. A shift far
above the operand's length is not carried out. -/
def shiftOut (m sh : Nat) : Nat × Nat :=
  if sh = 0 then (m, 0)
  else if Nat.log2 m + 1 < sh then (0, if m = 0 then 0 else 1)
  else
    let r := m % 2 ^ sh
    (m / 2 ^ sh, if r = 0 then 0 else if r < 2 ^ (sh - 1) then 1 else if r = 2 ^ (sh - 1) then 2 else 3)

/-- Whether a mode steps the quotient away from zero. -/
def roundsUp (md : RM) (neg : Bool) (i k : Nat) : Bool :=
  match md with
  | .rne => k == 3 || (k == 2 && i % 2 == 1)
  | .rz => false
  | .ru => !neg && k != 0
  | .rd => neg && k != 0

/-- Round(± m × 2^e) for m > 0: the encoding and the flags. -/
def roundTo (f : Fmt) (md : RM) (neg : Bool) (m : Nat) (e : Int) : Nat × FFlags :=
  let l : Int := (Nat.log2 m : Int) + e
  if f.emax < l then (overflowBits f md neg, fOF ||| fNX)
  else
    let ex := if l < f.emin then f.emin else l
    let qe := ex - (f.p - 1 : Nat)
    let (i, k) := if qe ≤ e then (m * 2 ^ (e - qe).toNat, 0) else shiftOut m (qe - e).toNat
    let i := if roundsUp md neg i k then i + 1 else i
    let b := (ex + f.bias - 1).toNat * 2 ^ (f.p - 1) + i
    if f.infBits ≤ b then (overflowBits f md neg, fOF ||| fNX)
    else (withSign f neg b, (if k = 0 then 0 else fNX) ||| (if k ≠ 0 ∧ l < f.emin then fUF else 0))

/-- Round with the zero case: `neg` is the sign a zero result takes. -/
def roundVal (f : Fmt) (md : RM) (neg : Bool) (m : Nat) (e : Int) : Nat × FFlags :=
  if m = 0 then (withSign f neg 0, 0) else roundTo f md neg m e

/-- The result flush of R53. -/
def flush (f : Fmt) (ftz : Bool) (r : Nat × FFlags) : Nat × FFlags :=
  if ftz && isSub f r.1 then (withSign f (r.1 / f.signBit % 2 == 1) 0, r.2 ||| fUF ||| fNX) else r

/-! ## Arithmetic (R105, R106, R107) -/

/-- Exact sum of two finite values, with the sign rule of R51 for a zero. -/
def exactAdd (md : RM) (n1 : Bool) (m1 : Nat) (e1 : Int) (n2 : Bool) (m2 : Nat) (e2 : Int) : Bool × Nat × Int :=
  let e := if e1 < e2 then e1 else e2
  let a : Int := (if n1 then -1 else 1) * (m1 * 2 ^ (e1 - e).toNat : Nat)
  let b : Int := (if n2 then -1 else 1) * (m2 * 2 ^ (e2 - e).toNat : Nat)
  let s := a + b
  if s = 0 then ((if n1 == n2 then n1 else md == .rd), 0, e) else (decide (s < 0), s.natAbs, e)

/-- The exact product, or why there is none. -/
def mulVal : FVal → FVal → FVal
  | .nan _, _ | _, .nan _ => .nan false
  | .inf s, .inf t => .inf (xor s t)
  | .inf s, .fin t m _ | .fin t m _, .inf s => if m = 0 then .nan true else .inf (xor s t)
  | .fin s m e, .fin t n g => .fin (xor s t) (m * n) (e + g)

/-- Round a sum of an exact term and a value; `bad` says that the term itself is an invalid 0 × ∞. -/
def addRound (f : Fmt) (md : RM) (ftz : Bool) (x y : FVal) : Nat × FFlags :=
  match x, y with
  | .nan _, _ | _, .nan _ => (f.nanBits, 0)
  | .inf s, .inf t => if s == t then (withSign f s f.infBits, 0) else (f.nanBits, fNV)
  | .inf s, .fin _ _ _ | .fin _ _ _, .inf s => (withSign f s f.infBits, 0)
  | .fin s m e, .fin t n g =>
    let r := exactAdd md s m e t n g
    flush f ftz (roundVal f md r.1 r.2.1 r.2.2)

def FVal.negate : FVal → FVal
  | .nan s => .nan s
  | .inf s => .inf (!s)
  | .fin s m e => .fin (!s) m e

/-- `fadd` and `fsub` on values. -/
def addVals (f : Fmt) (md : RM) (ftz : Bool) (x y : FVal) : Nat × FFlags :=
  let r := addRound f md ftz x y
  (r.1, r.2 ||| nvOf [x, y])

/-- `fmul` on values. -/
def mulVals (f : Fmt) (md : RM) (ftz : Bool) (x y : FVal) : Nat × FFlags :=
  let r : Nat × FFlags := match mulVal x y with
    | .nan bad => (f.nanBits, if bad then fNV else 0)
    | .inf s => (withSign f s f.infBits, 0)
    | .fin s m e => flush f ftz (roundVal f md s m e)
  (r.1, r.2 ||| nvOf [x, y])

/-- `ffma` on values: 0 × ∞ sets NV even where z is a NaN. -/
def fmaVals (f : Fmt) (md : RM) (ftz : Bool) (x y z : FVal) : Nat × FFlags :=
  let r : Nat × FFlags := match mulVal x y with
    | .nan bad => (f.nanBits, if bad then fNV else 0)
    | t => addRound f md ftz t z
  (r.1, r.2 ||| nvOf [x, y, z])

/-- The order of R55 on finite and infinite values: −0 below +0. -/
def valueLt : FVal → FVal → Bool
  | .inf true, .inf true => false
  | .inf true, _ => true
  | _, .inf true => false
  | .inf false, _ => false
  | _, .inf false => true
  | .fin s m e, .fin t n g =>
    let r := exactAdd .rne s m e (!t) n g
    r.2.1 != 0 && r.1
  | _, _ => false

def FVal.isZero : FVal → Bool
  | .fin _ m _ => m == 0
  | .nan _ | .inf _ => false

def FVal.sign : FVal → Bool
  | .fin s _ _ | .inf s => s
  | .nan _ => false

/-- R55: below, with −0 below +0. -/
def minLt (x y : FVal) : Bool := if x.isZero && y.isZero then x.sign && !y.sign else valueLt x y

/-- `fmin` (`mx` false) and `fmax` on encodings. -/
def minMax (f : Fmt) (ftz mx : Bool) (a b : Nat) : Nat × FFlags :=
  let x := unpackZ f ftz a
  let y := unpackZ f ftz b
  let show1 (v : Nat) : Nat := if ftz && isSub f v then withSign f (v / f.signBit % 2 == 1) 0 else v % (2 * f.signBit)
  let r := if x.isNan then (if y.isNan then f.nanBits else show1 b)
    else if y.isNan then show1 a
    else if mx then (if minLt x y then show1 b else show1 a)
    else (if minLt y x then show1 b else show1 a)
  (r, nvOf [x, y])

/-- A floating-point condition and its NV (R107). -/
def fcondHolds (c : FCond) (x y : FVal) : Bool :=
  let un := x.isNan || y.isNan
  let lt := valueLt x y
  let gt := valueLt y x
  match c with
  | .eq => !un && !lt && !gt
  | .ne => un || lt || gt
  | .lt => !un && lt
  | .le => !un && !gt
  | .gt => !un && gt
  | .ge => !un && !lt
  | .un => un
  | .or => !un

def fcondFlags (c : FCond) (x y : FVal) : FFlags :=
  match c with
  | .eq | .ne | .un | .or => nvOf [x, y]
  | .lt | .le | .gt | .ge => if x.isNan || y.isNan then fNV else 0

/-- `fclass` (R108). -/
def classOf (f : Fmt) (b : Nat) : Nat :=
  match unpack f b with
  | .nan s => if s then 2 ^ 8 else 2 ^ 9
  | .inf s => if s then 1 else 2 ^ 7
  | .fin s m _ =>
    if m = 0 then (if s then 2 ^ 3 else 2 ^ 4)
    else if isSub f b then (if s then 2 ^ 2 else 2 ^ 5)
    else if s then 2 ^ 1 else 2 ^ 6

/-! ## Correctly rounded functions (R109)

A value known only to lie strictly between q × 2^e and (q + 1) × 2^e rounds as (2q + 1) × 2^(e−1), because every rounding
boundary is a multiple of 2^e at the lengths used. -/

/-- Fold a strictly larger remainder into a quotient. -/
def sticky (q : Nat) (e : Int) (exact : Bool) : Nat × Int := if exact then (q, e) else (2 * q + 1, e - 1)

/-- |x ÷ y| of finite non-zero magnitudes. -/
def divMag (m : Nat) (e : Int) (n : Nat) (g : Int) : Nat × Int :=
  let k := Nat.log2 n + 40
  sticky (m * 2 ^ k / n) (e - g - k) (m * 2 ^ k % n == 0)

/-- Integer square root, one bit at a time from bit `b` − 1 down. -/
def sqrtFrom (n : Nat) : Nat → Nat → Nat
  | 0, r => r
  | b + 1, r => sqrtFrom n b (if (r + 2 ^ b) * (r + 2 ^ b) ≤ n then r + 2 ^ b else r)

def isqrt (n : Nat) : Nat := sqrtFrom n (Nat.log2 n / 2 + 1) 0

/-- An even exponent. -/
def evenExp (m : Nat) (e : Int) : Nat × Int := if e % 2 = 0 then (m, e) else (2 * m, e - 1)

def sqrtMag (m : Nat) (e : Int) : Nat × Int :=
  let (m, e) := evenExp m e
  let n := m * 2 ^ 64
  let r := isqrt n
  sticky r (e / 2 - 32) (r * r == n)

def rsqrtMag (m : Nat) (e : Int) : Nat × Int :=
  let (m, e) := evenExp m e
  let k := Nat.log2 m + 50
  let r := isqrt (2 ^ (2 * k) / m)
  sticky r (-(k : Int) - e / 2) (r * r * m == 2 ^ (2 * k))

/-- Working precision of `fexp2` in bits. -/
def expP : Nat := 320

/-- ln 2 × 2^P from below: the sum of 1 ÷ (k × 2^k). -/
def ln2Sum : Nat → Nat
  | 0 => 0
  | k + 1 => ln2Sum k + 2 ^ expP / ((k + 1) * 2 ^ (k + 1))

/-- The terms y^k ÷ k! in fixed point, from below. -/
def expTerms (y : Nat) : Nat → Nat → Nat → Nat
  | 0, _, _ => 0
  | n + 1, k, t => t + expTerms y n (k + 1) (t * y / (2 ^ expP * (k + 1)))

/-- 2^f × 2^P from below, for f = a ÷ 2^P with 0 < f < 1. -/
def exp2Frac (a : Nat) : Nat := expTerms (a * ln2Sum 330 / 2 ^ expP) 80 0 (2 ^ expP)

/-- 2^x for finite non-zero x: the magnitude with its exponent. -/
def exp2Mag (neg : Bool) (m : Nat) (e : Int) : Nat × Int :=
  if 12 < (Nat.log2 m : Int) + e then (1, if neg then -5000 else 5000)
  else
    let x : Int := (if neg then -1 else 1) *
      (if 0 ≤ e then (m * 2 ^ (e.toNat + expP) : Nat) else (m * 2 ^ expP / 2 ^ (-e).toNat : Nat))
    let i := x / (2 ^ expP : Nat)
    let a := (x - i * (2 ^ expP : Nat)).toNat
    if a = 0 then (1, i) else sticky (exp2Frac a) (i - expP) false

/-- Binary digits of log2 of z ÷ 2^P, 1 ≤ z ÷ 2^P < 2, by squaring. -/
def log2Digits : Nat → Nat → Nat → Nat
  | 0, _, acc => acc
  | n + 1, z, acc =>
    let w := z * z / 2 ^ expP
    if 2 ^ (expP + 1) ≤ w then log2Digits n (w / 2) (2 * acc + 1) else log2Digits n w (2 * acc)

/-- log2 of a finite positive value: sign, magnitude, exponent. -/
def log2Mag (m : Nat) (e : Int) : Bool × Nat × Int :=
  let l := Nat.log2 m
  let i : Int := (l : Int) + e
  if m = 2 ^ l then (decide (i < 0), i.natAbs, 0)
  else
    let d := log2Digits 160 (m * 2 ^ expP / 2 ^ l) 0
    let n : Int := 2 * (i * (2 ^ 160 : Nat) + d) + 1
    (decide (n < 0), n.natAbs, -161)

/-- The one-operand functions of R109. -/
inductive Fun1
  | rcp | rsq | sqrt | exp2 | log2
  deriving DecidableEq, Repr

def one (f : Fmt) : Nat := f.bias * 2 ^ (f.p - 1)

/-- R109's table and Round. -/
def fun1 (fn : Fun1) (f : Fmt) (md : RM) (ftz : Bool) (b : Nat) : Nat × FFlags :=
  let inf (s : Bool) := withSign f s f.infBits
  let bad : Nat × FFlags := (f.nanBits, fNV)
  match fn, unpackZ f ftz b with
  | _, .nan s => (f.nanBits, if s then fNV else 0)
  | .rcp, .inf s => (withSign f s 0, 0)
  | .rsq, .inf s => if s then bad else (0, 0)
  | .sqrt, .inf s => if s then bad else (inf false, 0)
  | .exp2, .inf s => if s then (0, 0) else (inf false, 0)
  | .log2, .inf s => if s then bad else (inf false, 0)
  | .rcp, .fin s m e => if m = 0 then (inf s, fDZ) else let r := divMag 1 0 m e; flush f ftz (roundTo f md s r.1 r.2)
  | .rsq, .fin s m e =>
    if m = 0 then (inf s, fDZ) else if s then bad else let r := rsqrtMag m e; flush f ftz (roundTo f md false r.1 r.2)
  | .sqrt, .fin s m e =>
    if m = 0 then (withSign f s 0, 0) else if s then bad
    else let r := sqrtMag m e; flush f ftz (roundTo f md false r.1 r.2)
  | .exp2, .fin s m e =>
    if m = 0 then (one f, 0) else let r := exp2Mag s m e; flush f ftz (roundTo f md false r.1 r.2)
  | .log2, .fin s m e =>
    if m = 0 then (inf true, fDZ) else if s then bad
    else let r := log2Mag m e; flush f ftz (roundVal f md r.1 r.2.1 r.2.2)

/-- `fdiv` (R109). -/
def divVals (f : Fmt) (md : RM) (ftz : Bool) (x y : FVal) : Nat × FFlags :=
  match x, y with
  | .nan _, _ | _, .nan _ => (f.nanBits, nvOf [x, y])
  | .inf _, .inf _ => (f.nanBits, fNV)
  | .inf s, .fin t _ _ => (withSign f (xor s t) f.infBits, 0)
  | .fin s _ _, .inf t => (withSign f (xor s t) 0, 0)
  | .fin s m e, .fin t n g =>
    if n = 0 then (if m = 0 then (f.nanBits, fNV) else (withSign f (xor s t) f.infBits, fDZ))
    else if m = 0 then (withSign f (xor s t) 0, 0)
    else let r := divMag m e n g; flush f ftz (roundTo f md (xor s t) r.1 r.2)

/-- `fldexp` (R111). -/
def ldexpVal (f : Fmt) (md : RM) (ftz : Bool) (b : Nat) (n : Int) : Nat × FFlags :=
  match unpackZ f ftz b with
  | .nan s => (f.nanBits, if s then fNV else 0)
  | .inf s => (withSign f s f.infBits, 0)
  | .fin s m e => flush f ftz (roundVal f md s m (e + n))

/-- `fgetexp` (R111): an `.s32` integer. -/
def getexpVal (f : Fmt) (ftz : Bool) (b : Nat) : Int × FFlags :=
  match unpackZ f ftz b with
  | .nan _ => (0, fNV)
  | .inf _ => (0x7FFFFFFF, fNV)
  | .fin _ m e => if m = 0 then (-0x80000000, fNV) else ((Nat.log2 m : Int) + e, 0)

/-- Round a magnitude to an integer (R52, R112): the integer, and whether it is inexact. -/
def toIntMag (md : RM) (neg : Bool) (m : Nat) (e : Int) : Nat × Bool :=
  if 0 ≤ e then (m * 2 ^ e.toNat, false)
  else
    let (i, k) := shiftOut m (-e).toNat
    (if roundsUp md neg i k then i + 1 else i, k != 0)

/-- `frnd` (R112). -/
def rndVal (f : Fmt) (md : RM) (ftz : Bool) (b : Nat) : Nat × FFlags :=
  match unpackZ f ftz b with
  | .nan s => (f.nanBits, if s then fNV else 0)
  | .inf s => (withSign f s f.infBits, 0)
  | .fin s m e =>
    if 0 ≤ e then (roundVal f md s m e)
    else
      let r := toIntMag md s m e
      ((roundVal f md s r.1 0).1, if r.2 then fNX else 0)

/-! ## Dot products (R60, R114, R274) -/

/-- One term of the FP loop of R60: acc (FP32) plus a × b. -/
def dotStep (md : RM) (ftz : Bool) (acc : Nat) (x y : FVal) : Nat × FFlags :=
  let z := unpackZ fp32 ftz acc
  let nv := nvOf [z, x, y]
  if z.isNan || x.isNan || y.isNan then (fp32.nanBits, nv)
  else
    match mulVal x y with
    | .nan _ => (fp32.nanBits, fNV)
    | t => addRound fp32 md ftz z t

/-- One term of `mxdist` in `.f16` and `.bf16` (R274). -/
def distStep (acc : Nat) (x y : FVal) : Nat × FFlags :=
  let z := unpack fp32 acc
  let nv := nvOf [z, x, y]
  if z.isNan || x.isNan || y.isNan then (fp32.nanBits, nv)
  else
    match x, y.negate with
    | .inf s, .inf t => if s == t then addRound fp32 .rne false z (.inf false) else (fp32.nanBits, fNV)
    | .inf _, _ | _, .inf _ => addRound fp32 .rne false z (.inf false)
    | .fin s m e, .fin t n g =>
      let d := exactAdd .rne s m e t n g
      addRound fp32 .rne false z (.fin false (d.2.1 * d.2.1) (d.2.2 + d.2.2))
    | _, _ => (fp32.nanBits, 0)

/-- The block step of R60: acc plus p × 2^(EA + EB − 252 − wA − wB). A term of 0 has no sign in the spec; it is taken as +0
(DESIGN CHOICE, log 97). -/
def blockStep (acc : Nat) (p : Int) (ea eb wa wb : Nat) : Nat × FFlags :=
  let z := unpack fp32 acc
  let nv := nvOf [z]
  if ea = 255 ∨ eb = 255 then (fp32.nanBits, nv ||| fNV)
  else if z.isNan then (fp32.nanBits, nv)
  else
    addRound fp32 .rne false z
      (.fin (decide (p < 0)) p.natAbs ((ea : Int) + eb - 252 - wa - wb))

/-! ## Block floating point (R57 to R59) -/

/-- BqEncode of R59: the w-bit mantissa as a natural number, and the flags. -/
def bqEncode (x e w : Nat) : Nat × FFlags :=
  match unpack fp32 x with
  | .nan _ => (0, fNV)
  | .inf s => if e = 255 then (0, fNV) else ((if s then 2 ^ (w - 1) else 2 ^ (w - 1) - 1), fOF ||| fNX)
  | .fin s m g =>
    if e = 255 then (0, fNV)
    else
      let r := toIntMag .rne s m (g + (w - 1 : Nat) - ((e : Int) - 127))
      let big := if s then decide (2 ^ (w - 1) < r.1) else decide (2 ^ (w - 1) - 1 < r.1)
      let v := if big then (if s then 2 ^ (w - 1) else 2 ^ (w - 1) - 1) else r.1
      ((if s then (2 ^ w - v) % 2 ^ w else v),
        (if r.2 then fNX else 0) ||| (if big then fOF ||| fNX else 0))

/-- A w-bit mantissa as an integer. -/
def mantissa (b w : Nat) : Int := if b % 2 ^ w < 2 ^ (w - 1) then b % 2 ^ w else (b % 2 ^ w : Int) - 2 ^ w

/-- `bqdec` (R57, R116): the exact FP32 value. -/
def bqDecode (b e w : Nat) : Nat × FFlags :=
  if e = 255 then (fp32.nanBits, fNV)
  else
    let v := mantissa b w
    ((roundVal fp32 .rne (decide (v < 0)) v.natAbs ((e : Int) - 127 - (w - 1 : Nat))).1, 0)

end Sys2Proof.Machine
end

