-- ==== Sys2Proof/WellFormed.lean ====
section
/-! DEFINITION. Which instruction terms an encoding (or, for an event, the device) admits. -/

namespace Sys2Proof

/-- The type set W of R82. -/
def Ty.inW : Ty → Bool
  | .s32 | .n32 | .s8 | .n8 | .s16 | .n16 => true
  | .s64 | .n64 | .f32 | .f16 | .bf16 => false

/-- The type set S of R82. -/
def Ty.inS : Ty → Bool
  | .s32 | .s8 | .s16 => true
  | .n32 | .n8 | .n16 | .s64 | .n64 | .f32 | .f16 | .bf16 => false

/-- The type set X of R82. -/
def Ty.inX : Ty → Bool
  | .s32 | .n32 => true
  | .s8 | .n8 | .s16 | .n16 | .s64 | .n64 | .f32 | .f16 | .bf16 => false

/-- The type set Q of R82. -/
def Ty.inQ : Ty → Bool
  | .s64 | .n64 => true
  | .s32 | .n32 | .s8 | .n8 | .s16 | .n16 | .f32 | .f16 | .bf16 => false

/-- The byte types of `idp4` (R99). -/
def Ty.inB : Ty → Bool
  | .s8 | .n8 => true
  | .s32 | .n32 | .s16 | .n16 | .s64 | .n64 | .f32 | .f16 | .bf16 => false

/-- The floating-point types. -/
def Ty.isFloat : Ty → Bool
  | .f32 | .f16 | .bf16 => true
  | .s32 | .n32 | .s8 | .n8 | .s16 | .n16 | .s64 | .n64 => false

/-- The packed element types (R103). -/
def FTy.packed : FTy → Bool
  | .f32 => false
  | .f16 | .bf16 => true

/-- The scopes of scratchpad accesses (R129, R133, R180). -/
def Scope.inCore : Scope → Bool
  | .th | .grp | .team | .cl => true
  | .dev | .sys | .fab => false

/-- The scopes of `bar` (R180). -/
def Scope.inBar : Scope → Bool
  | .th | .team | .cl | .dev => true
  | .grp | .sys | .fab => false

/-- The widths that may be sign-extended (R73). -/
def Width.narrow : Width → Bool
  | .w8 | .w16 => true
  | .w32 | .w64 | .w128 => false

/-- `.inc` and `.dec` are legal only with natural types (R133). -/
def AOp.legal (op : AOp) (t : Ty) : Bool :=
  match op with
  | .inc | .dec => t == .n32 || t == .n64
  | .add | .min | .max | .and | .or | .xor | .exch => t.inX || t.inQ

/-- The types and operations of `redux` and `gscan` (R180). -/
def RedOp.legal (op : RedOp) (t : Ty) : Bool :=
  match op with
  | .and | .or | .xor => t.inX
  | .add | .min | .max => t.inX || t == .f32

/-- The control-register numbers of R360. -/
def csrLegal (n : BitVec 9) : Bool :=
  let k := n.toNat
  decide (k ≤ 0x005) || (decide (0x040 ≤ k) && decide (k ≤ 0x042)) || decide (k = 0x080) ||
  (decide (0x100 ≤ k) && decide (k ≤ 0x107)) || (decide (0x110 ≤ k) && decide (k ≤ 0x112)) ||
  (decide (0x118 ≤ k) && decide (k ≤ 0x11C)) || (decide (0x140 ≤ k) && decide (k ≤ 0x17F))

/-- The bank of a register: v mod 4 (R66). -/
def Reg.bank (r : Reg) : Nat := r.toNat % 4

/-- The modifier bits of a half that the P map allows (R79). -/
def Half.modLegal (h : Half) : Bool :=
  match h.op with
  | .add | .sub | .and | .or | .xor | .andn | .shl | .shr | .sar | .mul | .mov => h.m == 0
  | .min | .max => decide (h.m.toNat ≤ 1)
  | .fadd | .fsub | .fmul | .hadd2 | .hsub2 | .hmul2 => true
  | .fmin | .fmax => decide (h.m.toNat % 4 = 0)

/-- The bank rule of R66: half A in banks 0 and 1, half B in banks 2 and 3. -/
def bankRule (ha hb : Half) : Bool :=
  decide (Reg.bank ha.d < 2) && decide (Reg.bank ha.s.r < 2) &&
  decide (2 ≤ Reg.bank hb.d) && decide (2 ≤ Reg.bank hb.s.r)

/-- A register field that its instruction reserves: zero, with its policy bit zero (R69). -/
def Src.none : Src := ⟨0, false⟩

/-- `cvt` admits every ordered pair of distinct types; `.ftz` needs a floating-point side (R115). -/
def cvtLegal (dt st : Ty) (ftz : Bool) : Bool :=
  decide (dt ≠ st) && (!ftz || dt.isFloat || st.isFloat)

/-- The field of `tdset` whose dimension bits are used (R242). -/
def DescField.hasDim : DescField → Bool
  | .base | .ebase | .hdr => false
  | .ext | .str | .off => true

/-- Well-formed instructions: the encodings of R71 to R73 and the instruction entries; for events, the ranges of R2,
R319, R396 and R410. -/
def Instr.wf : Instr → Bool
  | .add t _ _ _ | .sub t _ _ _ | .mul t _ _ _ | .mad t _ _ _ _ | .min t _ _ _ | .max t _ _ _ => t.inW
  | .addc t _ _ _ _ | .subb t _ _ _ _ | .mulh t _ _ _ | .bfe t _ _ _ => t.inX
  | .div t _ _ _ | .rem t _ _ _ => t.inW || t.inQ
  | .abs t _ _ | .neg t _ _ => t.inS
  | .and _ _ _ | .or _ _ _ | .xor _ _ _ | .not _ _ | .andn _ _ _ | .orn _ _ _ => true
  | .shl _ _ _ | .shr _ _ _ | .sar _ _ _ | .rot _ _ _ => true
  | .clz _ _ | .ctz _ _ | .popc _ _ | .brev _ _ => true
  | .bfi _ _ _ _ | .bperm _ _ _ _ | .sel _ _ _ _ => true
  | .cmp _ t _ _ _ => t.inW
  | .add64 _ _ _ | .sub64 _ _ _ | .mul64 _ _ _ | .shl64 _ _ _ => true
  | .shr64 t _ _ _ | .cmp64 _ t _ _ _ => t.inQ
  | .lea _ sc _ _ _ => decide (sc.toNat ≤ 4)
  | .mov _ _ | .movi _ _ | .movp _ _ => true
  | .idp4 t _ _ _ _ => t.inB
  | .addImm t _ _ _ | .mulImm t _ _ _ | .minImm t _ _ _ | .maxImm t _ _ _ | .cmpImm _ t _ _ _ => t.inW
  | .andImm _ _ _ | .orImm _ _ _ | .xorImm _ _ _ | .shlImm _ _ _ | .shrImm _ _ _ | .sarImm _ _ _ => true
  | .pairWord ha hb => bankRule ha hb && ha.modLegal && hb.modLegal
  | .fadd _ _ _ _ | .fsub _ _ _ _ | .fmul _ _ _ _ | .ffma _ _ _ _ _ => true
  | .fmin _ _ _ _ _ | .fmax _ _ _ _ _ | .fabs _ _ _ | .fneg _ _ _ | .fcmp _ _ _ _ _ _ | .fclass _ _ _ => true
  | .frcp _ _ _ | .frsq _ _ _ | .fsqrt _ _ _ | .fdiv _ _ _ _ | .fexp2 _ _ _ | .flog2 _ _ _ => true
  | .fldexp _ _ _ _ | .fgetexp _ _ _ _ | .frnd _ _ _ => true
  | .hadd2 m _ _ _ | .hsub2 m _ _ _ | .hmul2 m _ _ _ | .hfma2 m _ _ _ _ | .fdp2 m _ _ _ _ => m.ty.packed
  | .hmin2 t _ _ _ _ | .hmax2 t _ _ _ _ | .hcmp2 _ t _ _ _ _ => t.packed
  | .cvt dt sr z _ _ | .cvtRz dt sr z _ _ => cvtLegal dt sr z
  | .cvtRu dt sr z _ _ | .cvtRd dt sr z _ _ => cvtLegal dt sr z
  | .bqenc bw _ _ _ | .bqdec bw _ _ _ => decide (bw.toNat ≤ 6)
  | .br _ | .brc _ _ _ | .call _ _ | .brx _ | .calli _ _ | .ret _ | .exit | .trap _ _ | .tret | .nop _ => true
  | .ld w _ sx _ _ _ _ => !sx || w.narrow
  | .st _ _ _ _ _ _ => true
  | .lds w sc sx _ _ _ => sc.inCore && (!sx || w.narrow)
  | .sts _ sc _ _ _ => sc.inCore
  | .ldc w sx _ _ _ => !sx || w.narrow
  | .pf _ _ _ => true
  | .atom op t _ _ _ _ => op.legal t
  | .cas t _ _ _ _ _ => t.inX || t.inQ
  | .atoms op t sc _ _ _ => op.legal t && sc.inCore
  | .cass t sc _ _ _ _ => (t.inX || t.inQ) && sc.inCore
  | .fence _ _ | .ifence | .wcnt _ _ => true
  | .vmark win _ _ a => !win || decide (a = Src.none)
  | .vtest _ _ => true
  | .shfl _ _ _ _ | .vote _ _ _ | .ballot _ _ _ | .bqmax _ _ => true
  | .redux op t _ _ | .gscan op t _ _ _ => op.legal t
  | .bar sc => sc.inBar
  | .phase | .cbinit _ _ | .cbwait _ _ | .cbtest _ _ => true
  | .cbarr sc _ _ => sc.inCore
  | .dqpush _ _ _ | .dqpop _ | .dqsteal _ | .dqidle _ | .spawn _ _ _ => true
  | .sid k _ => decide (k.toNat ≤ 13)
  | .rdclk _ | .yield | .sleep _ _ _ _ => true
  | .mxbeg _ | .mxend _ | .mma _ _ _ | .mxscale _ _ _ | .mxdist _ _ _ | .mxzero _ | .mxst _ _ _ _ => true
  | .mxld fl k _ _ b => !fl || (decide (k = 0) && decide (b = Src.none))
  | .mxtopk _ _ _ _ _ | .mdgo _ _ _ | .mdkill _ | .mdstat _ _ | .bndmin _ _ | .bndrd _ _ => true
  | .stmc w mask _ _ => decide (w ≠ .w128) && decide (mask ≠ 0)
  | .csrr n _ | .csrw n _ | .csrs n _ _ => csrLegal n
  | .eret _ | .tlbinv _ _ _ _ | .hcall _ _ _ => true
  | .mAdd _ _ _ | .mSub _ _ _ | .mMul _ _ _ | .mAnd _ _ _ | .mOr _ _ _ | .mXor _ _ _ | .mShl _ _ _ | .mShr _ _ _ => true
  | .mCmp _ _ _ _ _ | .mSel _ _ _ _ | .mMov _ _ => true
  | .mAddImm _ _ _ | .mMulImm _ _ _ | .mAndImm _ _ _ | .mOrImm _ _ _ | .mXorImm _ _ _ => true
  | .mShlImm _ _ _ | .mShrImm _ _ _ | .mCmpImm _ _ _ _ _ | .li _ _ | .liLit _ _ => true
  | .mBr _ | .mBrc _ _ _ | .loop _ _ => true
  | .ldx w sx _ _ _ => decide (w ≠ .w128) && (!sx || w.narrow)
  | .stx w _ _ _ => decide (w ≠ .w128)
  | .tdld _ _ _ => true
  | .tdset f k _ _ | .tdsetLit f k _ _ => f.hasDim || decide (k = 0)
  | .tcopy _ _ | .tgather _ _ _ | .tscatter _ _ _ | .qput _ _ _ => true
  | .mCbarr k _ _ b => decide (k = .cnt) || decide (b = 0)
  | .mCbwait _ _ _ | .regfill _ _ _ | .mfence | .mdone _ | .mexit | .fxred _ _ _ _ _ | .dharv _ _ => true
  | .rowSelection c | .teamAdmission c | .admissionReservation c | .sliceEnd c => decide (c < 512)
  | .producerFill _ | .teamTeardown _ | .watchdogExpiry _ | .trapModeWindowExpiry _ | .phaseBoundary _ => true
  | .phaseDiscard _ | .teamSave _ | .storePerform _ | .atomicPerform _ | .generationCheckedWrite _ => true
  | .teamRestore _ cl => decide (cl < 128)
  | .sleepTimeout _ x | .yieldExpiry _ x | .mxtopkResult _ x | .tlbinvRelease _ x => decide (x < 1024)
  | .quiescenceRound _ d | .clusterTeamPlacement d | .tlbWalk d | .systemMordantStart d _ => decide (d < 4)
  | .passStart c | .passPerform c | .mordantDispatch c => decide (c < 128)
  | .skipLevelUpdate l _ => decide (l.length = 128)
  | .requestPromotion c i => decide (c < 128) && decide (i < 32)
  | .boundPropagation _ c => decide (c < 8)
  | .launchQueueNotify f q _ | .launchQueueConfig f q _ | .launchRead f q => decide (f < 64) && decide (q < 32)
  | .dependenceRecheck _ | .launchPriorityAging _ | .areaStallTimeout _ | .hvAnswer _ | .hvEventWrite => true
  | .pinSet _ | .pinSetDone | .hashApply | .hashApplyDone => true
  | .functionLevelReset f | .functionReset f | .functionResetDone f | .functionEnable f _ => decide (f < 64)
  | .clusterMaskWrite f _ _ | .stop f | .quiesceDone f | .saveDone f | .commit f | .abort f => decide (f < 64)
  | .restore f | .restoreDone f | .forwardingWindowEnd f | .vdnInvalidate f => decide (f < 64)
  | .restoreStallTimeout _ | .saveAreaStallTimeout _ | .fabricMmuStallTimeout _ => true
  | .pageFree _ | .pageAlloc | .pageScrubDone => true
  | .powerGood | .stageAReached | .stageBReached _ _ _ | .firmwareUpdate | .updateResult _ => true
  | .attestation | .attestationDone | .powerCapWrite _ | .logRingBaseWrite _ | .powerLoss => true
  | .sensorRefresh ts rs => ts.all (fun p => decide (p.1 < 256)) && rs.all (fun p => decide (p.1 < 32))
  | .thermalShutdown d i => decide (d < 4) && decide (i < 64)
  | .laneSample p l => decide (p < 16) && decide (l.length = 9)
  | .laneSignalLoss p l => decide (p < 16) && decide (l < 9)
  | .portTrainStart p | .portTrainDone p _ | .laneSwap p | .swapAgreementTimeout p => decide (p < 16)
  | .portDrainDone p | .flitReplay p => decide (p < 16)
  | .packetSend _ | .packetReceive _ | .answerReceive _ _ _ | .packetRetransmit _ | .packetTimeout _ => true
  | .movedResend _ | .fxredComplete _ => true
  | .atomicResultExpiry p => decide (p < 64)
  | .multicastRewrite _ | .multicastRewriteDone | .hostAccess _ | .registerWrite _ _ => true
  | .txtailWrite e k f _ => decide (e < 2) && decide (k < 16) && decide (f < 64)
  | .frameTransmit e k => decide (e < 2) && decide (k < 16)
  | .frameReceive e _ _ => decide (e < 2)

end Sys2Proof
end

