-- ==== Sys2Proof/Decode.lean ====
section
/-! DEFINITION. Instruction words: the decoders of the thread map and of the Mordant map (R63 to R80, R232 to R234),
total on any bytes and rejecting by name, and after them the encoder written from the same tables. -/

namespace Sys2Proof

/-- Why a word is illegal (R74): unassigned opcode (step 1), reserved bit or field not zero or a branch offset not
sign-copied (step 3), a modifier or field code its entry does not list (step 4), the bank rule (step 5); or the bytes end
inside the instruction. -/
inductive DecodeErr
  | unassigned | reserved | modifier | bank | truncated
  deriving DecidableEq, Repr

/-! ### Code tables (R71) -/

def Ty.code : Ty → Nat
  | .s32 => 0 | .n32 => 1 | .s8 => 2 | .n8 => 3 | .s16 => 4 | .n16 => 5 | .s64 => 6 | .n64 => 7
  | .f32 => 8 | .f16 => 9 | .bf16 => 10

def Ty.ofCode : Nat → Option Ty
  | 0 => some .s32 | 1 => some .n32 | 2 => some .s8 | 3 => some .n8 | 4 => some .s16 | 5 => some .n16
  | 6 => some .s64 | 7 => some .n64 | 8 => some .f32 | 9 => some .f16 | 10 => some .bf16 | _ => none

def FTy.code : FTy → Nat
  | .f32 => 0 | .f16 => 1 | .bf16 => 2

def FTy.ofCode : Nat → Option FTy
  | 0 => some .f32 | 1 => some .f16 | 2 => some .bf16 | _ => none

/-- The packed spelling of FTYPE: code 0 is `.f16`, code 1 is `.bf16`. -/
def FTy.pcode : FTy → Nat
  | .f32 => 2 | .f16 => 0 | .bf16 => 1

def FTy.ofPCode : Nat → Option FTy
  | 0 => some .f16 | 1 => some .bf16 | _ => none

def RM.code : RM → Nat
  | .rne => 0 | .rz => 1 | .ru => 2 | .rd => 3

def RM.ofCode : Nat → Option RM
  | 0 => some .rne | 1 => some .rz | 2 => some .ru | 3 => some .rd | _ => none

def Scope.code : Scope → Nat
  | .th => 0 | .grp => 1 | .team => 2 | .cl => 3 | .dev => 4 | .sys => 5 | .fab => 6

def Scope.ofCode : Nat → Option Scope
  | 0 => some .th | 1 => some .grp | 2 => some .team | 3 => some .cl | 4 => some .dev | 5 => some .sys
  | 6 => some .fab | _ => none

def Width.code : Width → Nat
  | .w8 => 0 | .w16 => 1 | .w32 => 2 | .w64 => 3 | .w128 => 4

def Width.ofCode : Nat → Option Width
  | 0 => some .w8 | 1 => some .w16 | 2 => some .w32 | 3 => some .w64 | 4 => some .w128 | _ => none

/-- The width code of `stmc` (R291): 0 `.32`, 1 `.64`, 2 `.8`, 3 `.16`. -/
def Width.mcCode : Width → Nat
  | .w8 => 2 | .w16 => 3 | .w32 => 0 | .w64 => 1 | .w128 => 4

def Width.ofMcCode : Nat → Option Width
  | 0 => some .w32 | 1 => some .w64 | 2 => some .w8 | 3 => some .w16 | _ => none

def Cls.code : Cls → Nat
  | .ld => 0 | .st => 1 | .md => 2 | .mx => 3 | .fab => 4

def Cls.ofCode : Nat → Option Cls
  | 0 => some .ld | 1 => some .st | 2 => some .md | 3 => some .mx | 4 => some .fab | _ => none

def Cond.code : Cond → Nat
  | .eq => 0 | .ne => 1 | .lt => 2 | .le => 3 | .gt => 4 | .ge => 5

def Cond.ofCode : Nat → Option Cond
  | 0 => some .eq | 1 => some .ne | 2 => some .lt | 3 => some .le | 4 => some .gt | 5 => some .ge | _ => none

def FCond.code : FCond → Nat
  | .eq => 0 | .ne => 1 | .lt => 2 | .le => 3 | .gt => 4 | .ge => 5 | .un => 6 | .or => 7

def FCond.ofCode : Nat → Option FCond
  | 0 => some .eq | 1 => some .ne | 2 => some .lt | 3 => some .le | 4 => some .gt | 5 => some .ge | 6 => some .un
  | 7 => some .or | _ => none

def AOp.code : AOp → Nat
  | .add => 0 | .min => 1 | .max => 2 | .and => 3 | .or => 4 | .xor => 5 | .exch => 6 | .inc => 7 | .dec => 8

def AOp.ofCode : Nat → Option AOp
  | 0 => some .add | 1 => some .min | 2 => some .max | 3 => some .and | 4 => some .or | 5 => some .xor
  | 6 => some .exch | 7 => some .inc | 8 => some .dec | _ => none

/-- The TY codes of atomics (R133). -/
def Ty.atCode : Ty → Nat
  | .s32 => 0 | .n32 => 1 | .s64 => 2 | .n64 => 3 | .s8 | .n8 | .s16 | .n16 | .f32 | .f16 | .bf16 => 4

def Ty.ofAtCode : Nat → Option Ty
  | 0 => some .s32 | 1 => some .n32 | 2 => some .s64 | 3 => some .n64 | _ => none

def FenceKind.code : FenceKind → Nat
  | .ar => 0 | .acq => 1 | .rel => 2

def FenceKind.ofCode : Nat → Option FenceKind
  | 0 => some .ar | 1 => some .acq | 2 => some .rel | _ => none

def ShflMode.code : ShflMode → Nat
  | .idx => 0 | .up => 1 | .down => 2 | .xor => 3

def ShflMode.ofCode : Nat → Option ShflMode
  | 0 => some .idx | 1 => some .up | 2 => some .down | 3 => some .xor | _ => none

def VoteMode.code : VoteMode → Nat
  | .every => 0 | .some => 1 | .same => 2 | .count => 3

def VoteMode.ofCode : Nat → Option VoteMode
  | 0 => Option.some .every | 1 => Option.some .some | 2 => Option.some .same | 3 => Option.some .count
  | _ => Option.none

def RedOp.code : RedOp → Nat
  | .add => 0 | .min => 1 | .max => 2 | .and => 3 | .or => 4 | .xor => 5

def RedOp.ofCode : Nat → Option RedOp
  | 0 => some .add | 1 => some .min | 2 => some .max | 3 => some .and | 4 => some .or | 5 => some .xor | _ => none

def TlbKind.code : TlbKind → Nat
  | .va => 0 | .ipa => 1 | .fn => 2 | .all => 3

def TlbKind.ofCode : Nat → Option TlbKind
  | 0 => some .va | 1 => some .ipa | 2 => some .fn | 3 => some .all | _ => none

/-- The CORE codes of R224. -/
def CoreSel.code : CoreSel → Nat
  | .home => 0 | .c0 => 4 | .c1 => 5 | .c2 => 6 | .c3 => 7

def CoreSel.ofCode : Nat → Option CoreSel
  | 0 => some .home | 4 => some .c0 | 5 => some .c1 | 6 => some .c2 | 7 => some .c3 | _ => none

def ArrKind.code : ArrKind → Nat
  | .cnt => 0 | .bytes => 1 | .items => 2

def ArrKind.ofCode : Nat → Option ArrKind
  | 0 => some .cnt | 1 => some .bytes | 2 => some .items | _ => none

def DescField.code : DescField → Nat
  | .base => 0 | .ebase => 1 | .hdr => 2 | .ext => 3 | .str => 4 | .off => 5

def DescField.ofCode : Nat → Option DescField
  | 0 => some .base | 1 => some .ebase | 2 => some .hdr | 3 => some .ext | 4 => some .str | 5 => some .off | _ => none

def FxOp.code : FxOp → Nat
  | .add => 0 | .min => 1 | .max => 2

def FxOp.ofCode : Nat → Option FxOp
  | 0 => some .add | 1 => some .min | 2 => some .max | _ => none

def FxTy.code : FxTy → Nat
  | .f32 => 0 | .bf16 => 1 | .s32 => 2

def FxTy.ofCode : Nat → Option FxTy
  | 0 => some .f32 | 1 => some .bf16 | 2 => some .s32 | _ => none

/-- The opcodes of the P map (R79). -/
def PairOp.code : PairOp → Nat
  | .add => 0x00 | .sub => 0x01 | .and => 0x02 | .or => 0x03 | .xor => 0x04 | .andn => 0x05 | .shl => 0x06
  | .shr => 0x07 | .sar => 0x08 | .min => 0x09 | .max => 0x0A | .mul => 0x0B | .mov => 0x0C
  | .fadd => 0x10 | .fsub => 0x11 | .fmul => 0x12 | .fmin => 0x13 | .fmax => 0x14
  | .hadd2 => 0x18 | .hsub2 => 0x19 | .hmul2 => 0x1A

def PairOp.ofCode : Nat → Option PairOp
  | 0x00 => some .add | 0x01 => some .sub | 0x02 => some .and | 0x03 => some .or | 0x04 => some .xor
  | 0x05 => some .andn | 0x06 => some .shl | 0x07 => some .shr | 0x08 => some .sar | 0x09 => some .min
  | 0x0A => some .max | 0x0B => some .mul | 0x0C => some .mov | 0x10 => some .fadd | 0x11 => some .fsub
  | 0x12 => some .fmul | 0x13 => some .fmin | 0x14 => some .fmax | 0x18 => some .hadd2 | 0x19 => some .hsub2
  | 0x1A => some .hmul2 | _ => none

def bit (b : Bool) : Nat := if b then 1 else 0

/-! ### Field layouts (R64, R65, R67, R68) -/

/-- The fields of an F-form word (R64). -/
structure FFields where
  opc : BitVec 10
  d : Reg
  a : Reg
  b : Reg
  c : Reg
  pa : Bool
  pb : Bool
  pc : Bool
  md : BitVec 9
  deriving DecidableEq, Repr

/-- The fields of an IM-layout word (R67). -/
structure IMFields where
  opc : BitVec 8
  ds : Reg
  base : Reg
  imm : BitVec 24
  pds : Bool
  pbase : Bool
  md : Byte
  deriving DecidableEq, Repr

/-- The fields of an IL-layout word (R67). -/
structure ILFields where
  opc : BitVec 8
  ds : Reg
  imm : Word
  pds : Bool
  rsv : BitVec 3
  md : Byte
  deriving DecidableEq, Repr

/-- The fields of the first word of an X-form instruction (R68). -/
structure XFields where
  opc : BitVec 8
  d : Reg
  rsv : BitVec 36
  md : Byte
  deriving DecidableEq, Repr

/-- The fields of one 31-bit half of a P-form word (R65). -/
structure HFields where
  opc : BitVec 7
  d : Reg
  s : Reg
  ps : Bool
  md : BitVec 3
  deriving DecidableEq, Repr

/-- The field of `w` that is `n` bits wide from bit `lo` on. -/
def fieldAt (w : DWord) (lo n : Nat) : BitVec n := BitVec.ofNat n (w.toNat / 2 ^ lo)

def flagAt (w : DWord) (lo : Nat) : Bool := w.toNat / 2 ^ lo % 2 == 1

def unpackF (w : DWord) : FFields :=
  { opc := fieldAt w 52 10, d := fieldAt w 42 10, a := fieldAt w 32 10, b := fieldAt w 22 10, c := fieldAt w 12 10,
    pa := flagAt w 11, pb := flagAt w 10, pc := flagAt w 9, md := fieldAt w 0 9 }

def packF (f : FFields) : DWord :=
  BitVec.ofNat 64 (f.opc.toNat * 2 ^ 52 + f.d.toNat * 2 ^ 42 + f.a.toNat * 2 ^ 32 + f.b.toNat * 2 ^ 22 +
    f.c.toNat * 2 ^ 12 + bit f.pa * 2 ^ 11 + bit f.pb * 2 ^ 10 + bit f.pc * 2 ^ 9 + f.md.toNat)

def unpackIM (w : DWord) : IMFields :=
  { opc := fieldAt w 54 8, ds := fieldAt w 44 10, base := fieldAt w 34 10, imm := fieldAt w 10 24,
    pds := flagAt w 9, pbase := flagAt w 8, md := fieldAt w 0 8 }

def packIM (f : IMFields) : DWord :=
  BitVec.ofNat 64 (2 * 2 ^ 62 + f.opc.toNat * 2 ^ 54 + f.ds.toNat * 2 ^ 44 + f.base.toNat * 2 ^ 34 +
    f.imm.toNat * 2 ^ 10 + bit f.pds * 2 ^ 9 + bit f.pbase * 2 ^ 8 + f.md.toNat)

def unpackIL (w : DWord) : ILFields :=
  { opc := fieldAt w 54 8, ds := fieldAt w 44 10, imm := fieldAt w 12 32, pds := flagAt w 11, rsv := fieldAt w 8 3,
    md := fieldAt w 0 8 }

def packIL (f : ILFields) : DWord :=
  BitVec.ofNat 64 (2 * 2 ^ 62 + f.opc.toNat * 2 ^ 54 + f.ds.toNat * 2 ^ 44 + f.imm.toNat * 2 ^ 12 +
    bit f.pds * 2 ^ 11 + f.rsv.toNat * 2 ^ 8 + f.md.toNat)

def unpackX (w : DWord) : XFields :=
  { opc := fieldAt w 54 8, d := fieldAt w 44 10, rsv := fieldAt w 8 36, md := fieldAt w 0 8 }

def packX (f : XFields) : DWord :=
  BitVec.ofNat 64 (3 * 2 ^ 62 + f.opc.toNat * 2 ^ 54 + f.d.toNat * 2 ^ 44 + f.rsv.toNat * 2 ^ 8 + f.md.toNat)

/-- The half whose bit 0 is bit `lo` of the word. -/
def unpackH (w : DWord) (lo : Nat) : HFields :=
  { opc := fieldAt w (lo + 24) 7, d := fieldAt w (lo + 14) 10, s := fieldAt w (lo + 4) 10, ps := flagAt w (lo + 3),
    md := fieldAt w lo 3 }

def HFields.nat (h : HFields) : Nat :=
  h.opc.toNat * 2 ^ 24 + h.d.toNat * 2 ^ 14 + h.s.toNat * 2 ^ 4 + bit h.ps * 2 ^ 3 + h.md.toNat

def packP (a b : HFields) : DWord := BitVec.ofNat 64 (1 * 2 ^ 62 + a.nat * 2 ^ 31 + b.nat)

/-! ### Helpers of the decoders -/

def FFields.sa (f : FFields) : Src := ⟨f.a, f.pa⟩
def FFields.sb (f : FFields) : Src := ⟨f.b, f.pb⟩
def FFields.sc (f : FFields) : Src := ⟨f.c, f.pc⟩
/-- A reserved field, or a reserved field with its policy bit, is zero (R69). -/
def FFields.noD (f : FFields) : Bool := f.d == 0
def FFields.noA (f : FFields) : Bool := f.a == 0 && !f.pa
def FFields.noB (f : FFields) : Bool := f.b == 0 && !f.pb
def FFields.noC (f : FFields) : Bool := f.c == 0 && !f.pc
def FFields.noBC (f : FFields) : Bool := f.noB && f.noC
def FFields.noABC (f : FFields) : Bool := f.noA && f.noB && f.noC
def FFields.none (f : FFields) : Bool := f.noD && f.noA && f.noB && f.noC
/-- MOD as a number and its parts: `mh n` is MOD shifted right by n, `ml n` its n low bits. -/
def FFields.m (f : FFields) : Nat := f.md.toNat
def FFields.mh (f : FFields) (n : Nat) : Nat := f.md.toNat / 2 ^ n
def FFields.ml (f : FFields) (n : Nat) : Nat := f.md.toNat % 2 ^ n
def FFields.mr (f : FFields) (lo n : Nat) : Nat := f.md.toNat / 2 ^ lo % 2 ^ n
/-- The IA type field, the FA type, mode and `.ftz` fields (R72). -/
def FFields.ty (f : FFields) : Option Ty := Ty.ofCode (f.mh 5)
def FFields.fty (f : FFields) : Option FTy := FTy.ofCode (f.mh 7)
def FFields.pty (f : FFields) : Option FTy := FTy.ofPCode (f.mh 7)
def FFields.ftz (f : FFields) : Bool := f.mr 4 1 == 1
def FFields.fmod (f : FFields) : Option FMod :=
  f.fty.bind fun t => (RM.ofCode (f.mr 5 2)).map fun r => ⟨t, r, f.ftz⟩
def FFields.pmod (f : FFields) : Option FMod :=
  f.pty.bind fun t => (RM.ofCode (f.mr 5 2)).map fun r => ⟨t, r, f.ftz⟩

/-- Steps 3 and 4 of R74 in order: reserved bits, then modifier codes. -/
def decoded (reservedZero : Bool) (i : Option Instr) : Except DecodeErr Instr :=
  if reservedZero then
    match i with
    | none => .error .modifier
    | some i => if i.wf then .ok i else .error .modifier
  else .error .reserved

/-! ### The thread map (R78, R79) -/

/-- F form, IA class (R82). -/
def decodeIA (f : FFields) : Except DecodeErr Instr :=
  let z5 := f.ml 5 == 0
  let z9 := f.md == 0
  match f.opc.toNat with
  | 0x000 => decoded (f.noC && z5) (f.ty.map fun t => .add t f.d f.sa f.sb)
  | 0x001 => decoded (f.noC && z5) (f.ty.map fun t => .sub t f.d f.sa f.sb)
  | 0x002 => decoded z5 (f.ty.map fun t => .addc t f.d f.sa f.sb f.sc)
  | 0x003 => decoded z5 (f.ty.map fun t => .subb t f.d f.sa f.sb f.sc)
  | 0x004 => decoded (f.noC && z5) (f.ty.map fun t => .mul t f.d f.sa f.sb)
  | 0x005 => decoded (f.noC && z5) (f.ty.map fun t => .mulh t f.d f.sa f.sb)
  | 0x006 => decoded z5 (f.ty.map fun t => .mad t f.d f.sa f.sb f.sc)
  | 0x007 => decoded (f.noC && z5) (f.ty.map fun t => .div t f.d f.sa f.sb)
  | 0x008 => decoded (f.noC && z5) (f.ty.map fun t => .rem t f.d f.sa f.sb)
  | 0x009 => decoded (f.noC && z5) (f.ty.map fun t => .min t f.d f.sa f.sb)
  | 0x00A => decoded (f.noC && z5) (f.ty.map fun t => .max t f.d f.sa f.sb)
  | 0x00B => decoded (f.noBC && z5) (f.ty.map fun t => .abs t f.d f.sa)
  | 0x00C => decoded (f.noBC && z5) (f.ty.map fun t => .neg t f.d f.sa)
  | 0x00D => decoded (f.noC && z9) (some (.and f.d f.sa f.sb))
  | 0x00E => decoded (f.noC && z9) (some (.or f.d f.sa f.sb))
  | 0x00F => decoded (f.noC && z9) (some (.xor f.d f.sa f.sb))
  | 0x010 => decoded (f.noBC && z9) (some (.not f.d f.sa))
  | 0x011 => decoded (f.noC && z9) (some (.andn f.d f.sa f.sb))
  | 0x012 => decoded (f.noC && z9) (some (.orn f.d f.sa f.sb))
  | 0x013 => decoded (f.noC && z9) (some (.shl f.d f.sa f.sb))
  | 0x014 => decoded (f.noC && z9) (some (.shr f.d f.sa f.sb))
  | 0x015 => decoded (f.noC && z9) (some (.sar f.d f.sa f.sb))
  | 0x016 => decoded (f.noC && z9) (some (.rot f.d f.sa f.sb))
  | 0x017 => decoded (f.noBC && z9) (some (.clz f.d f.sa))
  | 0x018 => decoded (f.noBC && z9) (some (.ctz f.d f.sa))
  | 0x019 => decoded (f.noBC && z9) (some (.popc f.d f.sa))
  | 0x01A => decoded (f.noBC && z9) (some (.brev f.d f.sa))
  | 0x01B => decoded (f.noC && z5) (f.ty.map fun t => .bfe t f.d f.sa f.sb)
  | 0x01C => decoded z9 (some (.bfi f.d f.sa f.sb f.sc))
  | 0x01D => decoded z9 (some (.bperm f.d f.sa f.sb f.sc))
  | 0x01E => decoded z9 (some (.sel f.d f.sa f.sb f.sc))
  | 0x01F => decoded (f.noC && f.mr 4 1 == 0)
      (f.ty.bind fun t => (Cond.ofCode (f.ml 4)).map fun c => .cmp c t f.d f.sa f.sb)
  | 0x020 => decoded (f.noC && z9) (some (.add64 f.d f.sa f.sb))
  | 0x021 => decoded (f.noC && z9) (some (.sub64 f.d f.sa f.sb))
  | 0x022 => decoded (f.noC && z9) (some (.mul64 f.d f.sa f.sb))
  | 0x023 => decoded (f.noC && z9) (some (.shl64 f.d f.sa f.sb))
  | 0x024 => decoded (f.noC && z5) (f.ty.map fun t => .shr64 t f.d f.sa f.sb)
  | 0x025 => decoded (f.noC && f.mr 4 1 == 0)
      (f.ty.bind fun t => (Cond.ofCode (f.ml 4)).map fun c => .cmp64 c t f.d f.sa f.sb)
  | 0x026 => decoded (f.noC && f.mh 4 == 0)
      (some (.lea (f.mr 3 1 == 1) (BitVec.ofNat 3 (f.ml 3)) f.d f.sa f.sb))
  | 0x027 => decoded (f.noBC && z9) (some (.mov f.d f.sa))
  | 0x028 => decoded z5 (f.ty.map fun t => .idp4 t f.d f.sa f.sb f.sc)
  | _ => .error .unassigned

/-- F form, FA, BQ and CV classes (R103, R115, R116). -/
def decodeFA (f : FFields) : Except DecodeErr Instr :=
  let z4 := f.ml 4 == 0
  let zrm := f.mr 5 2 == 0
  let zz := f.mr 4 1 == 0
  let cv := fun (k : Ty → Ty → Bool → Reg → Src → Instr) =>
    decoded f.noBC ((Ty.ofCode (f.mh 5)).bind fun dt => (Ty.ofCode (f.mr 1 4)).map fun sr =>
      k dt sr (f.ml 1 == 1) f.d f.sa)
  match f.opc.toNat with
  | 0x040 => decoded (f.noC && z4) (f.fmod.map fun m => .fadd m f.d f.sa f.sb)
  | 0x041 => decoded (f.noC && z4) (f.fmod.map fun m => .fsub m f.d f.sa f.sb)
  | 0x042 => decoded (f.noC && z4) (f.fmod.map fun m => .fmul m f.d f.sa f.sb)
  | 0x043 => decoded z4 (f.fmod.map fun m => .ffma m f.d f.sa f.sb f.sc)
  | 0x044 => decoded (f.noC && z4 && zrm) (f.fty.map fun t => .fmin t f.ftz f.d f.sa f.sb)
  | 0x045 => decoded (f.noC && z4 && zrm) (f.fty.map fun t => .fmax t f.ftz f.d f.sa f.sb)
  | 0x046 => decoded (f.noBC && z4 && zrm && zz) (f.fty.map fun t => .fabs t f.d f.sa)
  | 0x047 => decoded (f.noBC && z4 && zrm && zz) (f.fty.map fun t => .fneg t f.d f.sa)
  | 0x048 => decoded (f.noC && zrm)
      (f.fty.bind fun t => (FCond.ofCode (f.ml 4)).map fun c => .fcmp c t f.ftz f.d f.sa f.sb)
  | 0x049 => decoded (f.noBC && z4 && zrm && zz) (f.fty.map fun t => .fclass t f.d f.sa)
  | 0x04A => decoded (f.noBC && z4) (f.fmod.map fun m => .frcp m f.d f.sa)
  | 0x04B => decoded (f.noBC && z4) (f.fmod.map fun m => .frsq m f.d f.sa)
  | 0x04C => decoded (f.noBC && z4) (f.fmod.map fun m => .fsqrt m f.d f.sa)
  | 0x04D => decoded (f.noC && z4) (f.fmod.map fun m => .fdiv m f.d f.sa f.sb)
  | 0x04E => decoded (f.noBC && z4) (f.fmod.map fun m => .fexp2 m f.d f.sa)
  | 0x04F => decoded (f.noBC && z4) (f.fmod.map fun m => .flog2 m f.d f.sa)
  | 0x050 => decoded (f.noC && z4) (f.fmod.map fun m => .fldexp m f.d f.sa f.sb)
  | 0x051 => decoded (f.noBC && z4 && zrm) (f.fty.map fun t => .fgetexp t f.ftz f.d f.sa)
  | 0x052 => decoded (f.noBC && z4) (f.fmod.map fun m => .frnd m f.d f.sa)
  | 0x053 => decoded (f.noC && z4) (f.pmod.map fun m => .hadd2 m f.d f.sa f.sb)
  | 0x054 => decoded (f.noC && z4) (f.pmod.map fun m => .hsub2 m f.d f.sa f.sb)
  | 0x055 => decoded (f.noC && z4) (f.pmod.map fun m => .hmul2 m f.d f.sa f.sb)
  | 0x056 => decoded z4 (f.pmod.map fun m => .hfma2 m f.d f.sa f.sb f.sc)
  | 0x057 => decoded (f.noC && z4 && zrm) (f.pty.map fun t => .hmin2 t f.ftz f.d f.sa f.sb)
  | 0x058 => decoded (f.noC && z4 && zrm) (f.pty.map fun t => .hmax2 t f.ftz f.d f.sa f.sb)
  | 0x059 => decoded (f.noC && zrm)
      (f.pty.bind fun t => (FCond.ofCode (f.ml 4)).map fun c => .hcmp2 c t f.ftz f.d f.sa f.sb)
  | 0x05A => decoded z4 (f.pmod.map fun m => .fdp2 m f.d f.sa f.sb f.sc)
  | 0x05B => decoded (f.noC && f.ml 6 == 0) (some (.bqenc (BitVec.ofNat 3 (f.mh 6)) f.d f.sa f.sb))
  | 0x05C => decoded (f.noC && f.ml 6 == 0) (some (.bqdec (BitVec.ofNat 3 (f.mh 6)) f.d f.sa f.sb))
  | 0x060 => cv .cvt
  | 0x061 => cv .cvtRz
  | 0x062 => cv .cvtRu
  | 0x063 => cv .cvtRd
  | _ => .error .unassigned

/-- F form, control, memory and marking (R119, R133, R136 to R141). -/
def decodeCtl (f : FFields) : Except DecodeErr Instr :=
  let z9 := f.md == 0
  let sco := Scope.ofCode (f.mh 6)
  match f.opc.toNat with
  | 0x080 => decoded (f.noD && f.noBC && z9) (some (.brx f.sa))
  | 0x081 => decoded (f.noBC && z9) (some (.calli f.d f.sa))
  | 0x082 => decoded (f.noD && f.noBC && z9) (some (.ret f.sa))
  | 0x083 => decoded (f.none && z9) (some .exit)
  | 0x084 => decoded f.none (some (.trap (f.mh 8 == 1) (BitVec.ofNat 8 (f.ml 8))))
  | 0x085 => decoded (f.none && z9) (some .tret)
  | 0x086 => decoded (f.none && f.mh 1 == 0) (some (.nop (f.ml 1 == 1)))
  | 0x087 => decoded f.noC (sco.bind fun s => (AOp.ofCode (f.mr 2 4)).bind fun o =>
      (Ty.ofAtCode (f.ml 2)).map fun t => .atom o t s f.d f.sa f.sb)
  | 0x088 => decoded (f.mr 2 4 == 0) (sco.bind fun s => (Ty.ofAtCode (f.ml 2)).map fun t => .cas t s f.d f.sa f.sb f.sc)
  | 0x089 => decoded f.noC (sco.bind fun s => (AOp.ofCode (f.mr 2 4)).bind fun o =>
      (Ty.ofAtCode (f.ml 2)).map fun t => .atoms o t s f.d f.sa f.sb)
  | 0x08A => decoded (f.mr 2 4 == 0) (sco.bind fun s => (Ty.ofAtCode (f.ml 2)).map fun t => .cass t s f.d f.sa f.sb f.sc)
  | 0x08B => decoded (f.none && f.mr 2 4 == 0)
      (sco.bind fun s => (FenceKind.ofCode (f.ml 2)).map fun k => .fence k s)
  | 0x08C => decoded (f.none && z9) (some .ifence)
  | 0x08D => decoded f.none ((Cls.ofCode (f.mh 6)).map fun c => .wcnt c (BitVec.ofNat 6 (f.ml 6)))
  | 0x08E => decoded (f.noBC && f.mh 7 == 0 && (f.ml 1 == 0 || f.noA))
      (some (.vmark (f.ml 1 == 1) (BitVec.ofNat 6 (f.mr 1 6)) f.d f.sa))
  | 0x08F => decoded (f.noBC && !f.pa && z9) (some (.vtest f.d f.a))
  | _ => .error .unassigned

/-- F form, core instructions (R180). -/
def decodeCore (f : FFields) : Except DecodeErr Instr :=
  let z9 := f.md == 0
  match f.opc.toNat with
  | 0x100 => decoded (f.noC && f.mh 2 == 0) ((ShflMode.ofCode (f.ml 2)).map fun m => .shfl m f.d f.sa f.sb)
  | 0x101 => decoded (f.noBC && f.mh 2 == 0) ((VoteMode.ofCode (f.ml 2)).map fun m => .vote m f.d f.sa)
  | 0x102 => decoded (f.noBC && f.mh 1 == 0) (some (.ballot (f.ml 1 == 1) f.d f.sa))
  | 0x103 => decoded (f.noBC && f.mh 8 == 0)
      ((Ty.ofCode (f.mr 4 4)).bind fun t => (RedOp.ofCode (f.ml 4)).map fun o => .redux o t f.d f.sa)
  | 0x104 => decoded f.noBC
      ((Ty.ofCode (f.mr 4 4)).bind fun t => (RedOp.ofCode (f.ml 4)).map fun o => .gscan o t (f.mh 8 == 1) f.d f.sa)
  | 0x105 => decoded (f.noBC && z9) (some (.bqmax f.d f.sa))
  | 0x106 => decoded (f.none && f.ml 6 == 0) ((Scope.ofCode (f.mh 6)).map fun s => .bar s)
  | 0x107 => decoded (f.none && z9) (some .phase)
  | 0x108 => decoded (f.noD && f.noC && z9) (some (.cbinit f.sa f.sb))
  | 0x109 => decoded (f.noD && f.noC && f.ml 6 == 0) ((Scope.ofCode (f.mh 6)).map fun s => .cbarr s f.sa f.sb)
  | 0x10A => decoded (f.noD && f.noC && z9) (some (.cbwait f.sa f.sb))
  | 0x10B => decoded (f.noBC && z9) (some (.cbtest f.d f.sa))
  | 0x10C => decoded (f.noC && z9) (some (.dqpush f.d f.sa f.sb))
  | 0x10D => decoded (f.noABC && z9) (some (.dqpop f.d))
  | 0x10E => decoded (f.noABC && z9) (some (.dqsteal f.d))
  | 0x10F => decoded (f.noABC && z9) (some (.dqidle f.d))
  | 0x110 => decoded (f.noC && z9) (some (.spawn f.d f.sa f.sb))
  | 0x111 => decoded (f.noABC && f.mh 4 == 0) (some (.sid (BitVec.ofNat 4 (f.ml 4)) f.d))
  | 0x112 => decoded (f.noABC && z9) (some (.rdclk f.d))
  | 0x113 => decoded (f.none && z9) (some .yield)
  | 0x114 => decoded z9 (some (.sleep f.d f.sa f.sb f.sc))
  | _ => .error .unassigned

/-- F form, cluster instructions (R281, R285 to R291). -/
def decodeCluster (f : FFields) : Except DecodeErr Instr :=
  let z9 := f.md == 0
  let kb := f.mr 7 1 == 1
  let ch : BitVec 2 := BitVec.ofNat 2 (f.ml 2)
  let tile : BitVec 5 := BitVec.ofNat 5 (f.mr 2 5)
  let k : BitVec 2 := BitVec.ofNat 2 (f.mh 7)
  match f.opc.toNat with
  | 0x140 => decoded (f.noC && z9) (some (.mdgo f.d f.sa f.sb))
  | 0x141 => decoded (f.noD && f.noBC && z9) (some (.mdkill f.sa))
  | 0x142 => decoded (f.noBC && z9) (some (.mdstat f.d f.sa))
  | 0x143 => decoded (f.none && f.mh 2 == 0) (some (.mxend ch))
  | 0x144 => decoded (f.none && f.mh 8 == 0) (some (.mma kb ch tile))
  | 0x145 => decoded (f.none && f.mh 8 == 0) (some (.mxdist kb ch tile))
  | 0x146 => decoded (f.noA && f.noC && f.ml 2 == 0) (some (.mxtopk kb (f.mh 8 == 1) tile f.d f.sb))
  | 0x147 => decoded (f.none && f.mh 8 == 0) (some (.mxscale kb ch tile))
  | 0x148 => decoded (f.none && f.mh 7 == 0 && f.ml 2 == 0) (some (.mxzero tile))
  | 0x149 => decoded (f.noA && f.noC && f.mr 1 1 == 0) (some (.mxld (f.ml 1 == 1) k tile f.d f.sb))
  | 0x14A => decoded (f.noD && f.noC && f.ml 2 == 0) (some (.mxst k tile f.sa f.sb))
  | 0x14B => decoded (f.noD && f.noBC && f.mh 3 == 0) (some (.bndmin (BitVec.ofNat 3 (f.ml 3)) f.sa))
  | 0x14C => decoded (f.noABC && f.mh 3 == 0) (some (.bndrd (BitVec.ofNat 3 (f.ml 3)) f.d))
  | 0x14D => decoded (f.noD && f.noC && f.mh 6 == 0)
      ((Width.ofMcCode (f.mr 4 2)).map fun w => .stmc w (BitVec.ofNat 4 (f.ml 4)) f.sa f.sb)
  | _ => .error .unassigned

/-- F form, privileged and control-register instructions (R359, R360). -/
def decodeSys (f : FFields) : Except DecodeErr Instr :=
  let z9 := f.md == 0
  match f.opc.toNat with
  | 0x3C0 => decoded f.noABC (some (.csrr f.md f.d))
  | 0x3C1 => decoded (f.noD && f.noBC) (some (.csrw f.md f.sa))
  | 0x3C2 => decoded f.noBC (some (.csrs f.md f.d f.sa))
  | 0x3C3 => decoded (f.noD && f.noBC && z9) (some (.eret f.sa))
  | 0x3C4 => decoded (f.noD && f.mh 2 == 0) ((TlbKind.ofCode (f.ml 2)).map fun k => .tlbinv k f.sa f.sb f.sc)
  | 0x3C5 => decoded (f.noBC && f.mh 8 == 0) (some (.hcall (BitVec.ofNat 8 (f.ml 8)) f.d f.sa))
  | _ => .error .unassigned

/-- The F map (R78): its ranges. -/
def decodeF (f : FFields) : Except DecodeErr Instr :=
  let o := f.opc.toNat
  if o < 0x040 then decodeIA f
  else if o < 0x080 then decodeFA f
  else if o < 0x100 then decodeCtl f
  else if o < 0x140 then decodeCore f
  else if o < 0x3C0 then decodeCluster f
  else decodeSys f

/-- IM layout of the thread map (R79, R73, R100). -/
def decodeIM (f : IMFields) : Except DecodeErr Instr :=
  let s : Src := ⟨f.base, f.pbase⟩
  let v : Src := ⟨f.ds, f.pds⟩
  let md := f.md.toNat
  let sco := Scope.ofCode (md / 32)
  let wd := Width.ofCode (md / 4 % 8)
  let sx := md / 2 % 2 == 1
  let nt := md % 2 == 1
  let ty := Ty.ofCode (md / 16)
  let z := md % 16 == 0
  let zz := md == 0
  match f.opc.toNat with
  | 0x00 => decoded (!f.pds) (sco.bind fun c => wd.map fun w => .ld w c sx nt f.ds s f.imm)
  | 0x01 => decoded (!sx) (sco.bind fun c => wd.map fun w => .st w c nt v s f.imm)
  | 0x02 => decoded (!f.pds && !nt) (sco.bind fun c => wd.map fun w => .lds w c sx f.ds s f.imm)
  | 0x03 => decoded (!sx && !nt) (sco.bind fun c => wd.map fun w => .sts w c v s f.imm)
  | 0x04 => decoded (!f.pds && !nt && decide (md / 32 = 0)) (wd.map fun w => .ldc w sx f.ds s f.imm)
  | 0x05 => decoded (!f.pds && f.ds == 0 && decide (md / 2 = 0)) (some (.pf nt s f.imm))
  | 0x10 => decoded (!f.pds && z) (ty.map fun t => .addImm t f.ds s f.imm)
  | 0x11 => decoded (!f.pds && z) (ty.map fun t => .mulImm t f.ds s f.imm)
  | 0x12 => decoded (!f.pds && zz) (some (.andImm f.ds s f.imm))
  | 0x13 => decoded (!f.pds && zz) (some (.orImm f.ds s f.imm))
  | 0x14 => decoded (!f.pds && zz) (some (.xorImm f.ds s f.imm))
  | 0x15 => decoded (!f.pds && zz) (some (.shlImm f.ds s f.imm))
  | 0x16 => decoded (!f.pds && zz) (some (.shrImm f.ds s f.imm))
  | 0x17 => decoded (!f.pds && zz) (some (.sarImm f.ds s f.imm))
  | 0x18 => decoded (!f.pds && z) (ty.map fun t => .minImm t f.ds s f.imm)
  | 0x19 => decoded (!f.pds && z) (ty.map fun t => .maxImm t f.ds s f.imm)
  | 0x1A => decoded (!f.pds) (ty.bind fun t => (Cond.ofCode (md % 16)).map fun c => .cmpImm c t f.ds s f.imm)
  | _ => .error .unassigned

/-- A branch offset is sign-copied: bits 43:36 of the word equal bit 35 (R70). -/
def offsetOk (imm : Word) : Bool := imm.toNat / 2 ^ 23 == 0 || imm.toNat / 2 ^ 23 == 511

/-- The 24 significant bits of a branch offset (R70). -/
def offsetOf (imm : Word) : BitVec 24 := BitVec.ofNat 24 imm.toNat

/-- IL layout of the thread map (R79, R119, R98). -/
def decodeIL (f : ILFields) : Except DecodeErr Instr :=
  let z := f.rsv == 0
  let md := f.md.toNat
  match f.opc.toNat with
  | 0x40 => decoded (z && !f.pds && decide (md = 0)) (some (.movi f.ds f.imm))
  | 0x41 => decoded (z && !f.pds && decide (md = 0) && f.ds == 0 && offsetOk f.imm) (some (.br (offsetOf f.imm)))
  | 0x42 => decoded (z && decide (md / 2 = 0) && offsetOk f.imm)
      (some (.brc (md % 2 == 1) ⟨f.ds, f.pds⟩ (offsetOf f.imm)))
  | 0x43 => decoded (z && !f.pds && decide (md = 0) && offsetOk f.imm) (some (.call f.ds (offsetOf f.imm)))
  | _ => .error .unassigned

/-- The X map (R79). -/
def decodeX (f : XFields) (lit : DWord) : Except DecodeErr Instr :=
  match f.opc.toNat with
  | 0x00 => decoded (f.rsv == 0 && f.md == 0) (some (.movp f.d lit))
  | 0x01 => decoded (f.rsv == 0 && f.md == 0 && f.d == 0) (some (.mxbeg lit))
  | _ => .error .unassigned

/-- A P-form word (R65, R66): opcodes, then modifiers, then the bank rule. -/
def decodeP (a b : HFields) : Except DecodeErr Instr :=
  match PairOp.ofCode a.opc.toNat, PairOp.ofCode b.opc.toNat with
  | some oa, some ob =>
    let ha : Half := ⟨oa, a.d, ⟨a.s, a.ps⟩, a.md⟩
    let hb : Half := ⟨ob, b.d, ⟨b.s, b.ps⟩, b.md⟩
    if ha.modLegal && hb.modLegal then
      if bankRule ha hb then .ok (.pairWord ha hb) else .error .bank
    else .error .modifier
  | _, _ => .error .unassigned

/-- One thread instruction from its first word and the word that follows it (R63, R74). -/
def decodeThread (w lit : DWord) : Except DecodeErr Instr :=
  match w.toNat / 2 ^ 62 with
  | 0 => decodeF (unpackF w)
  | 1 => decodeP (unpackH w 31) (unpackH w 0)
  | 2 => if w.toNat / 2 ^ 54 % 256 < 0x40 then decodeIM (unpackIM w) else decodeIL (unpackIL w)
  | _ => decodeX (unpackX w) lit

/-- Whether a word is the first word of an X-form instruction (R68). -/
def isXForm (w : DWord) : Bool := w.toNat / 2 ^ 62 == 3

/-! ### The Mordant map (R232, R233) -/

/-- A register field that names m0 to m31, a descriptor or a stream (R232, R234). -/
def mreg (r : Reg) : Option (BitVec 5) := if r.toNat < 32 then some (BitVec.ofNat 5 r.toNat) else none
def dreg (r : Reg) : Option (BitVec 3) := if r.toNat < 8 then some (BitVec.ofNat 3 r.toNat) else none
def sreg (r : Reg) : Option (BitVec 4) := if r.toNat < 16 then some (BitVec.ofNat 4 r.toNat) else none

/-- Every policy bit of a Mordant word is reserved (R232). -/
def FFields.noPol (f : FFields) : Bool := !f.pa && !f.pb && !f.pc

/-- Scalar operations with two sources (R235). -/
def decodeM3 (f : FFields) (k : BitVec 5 → BitVec 5 → BitVec 5 → Instr) : Except DecodeErr Instr :=
  decoded (f.noPol && f.c == 0 && f.md == 0)
    ((mreg f.d).bind fun d => (mreg f.a).bind fun a => (mreg f.b).map fun b => k d a b)

/-- F form of the Mordant map. -/
def decodeMF (f : FFields) : Except DecodeErr Instr :=
  let z9 := f.md == 0
  let zb := f.b == 0
  let zc := f.c == 0
  let zd := f.d == 0
  let za := f.a == 0
  let np := f.noPol
  match f.opc.toNat with
  | 0x000 => decodeM3 f .mAdd
  | 0x001 => decodeM3 f .mSub
  | 0x002 => decodeM3 f .mMul
  | 0x003 => decodeM3 f .mAnd
  | 0x004 => decodeM3 f .mOr
  | 0x005 => decodeM3 f .mXor
  | 0x006 => decodeM3 f .mShl
  | 0x007 => decodeM3 f .mShr
  | 0x008 => decoded (np && zc && f.mh 5 == 0)
      ((mreg f.d).bind fun d => (mreg f.a).bind fun a => (mreg f.b).bind fun b =>
        (Cond.ofCode (f.ml 4)).map fun c => .mCmp c (f.mr 4 1 == 1) d a b)
  | 0x009 => decoded (np && z9)
      ((mreg f.d).bind fun d => (mreg f.a).bind fun a => (mreg f.b).bind fun b => (mreg f.c).map fun c => .mSel d a b c)
  | 0x00A => decoded (np && zb && zc && z9) ((mreg f.d).bind fun d => (mreg f.a).map fun a => .mMov d a)
  | 0x040 => decoded (np && zb && zc && z9) ((dreg f.d).bind fun d => (dreg f.a).map fun a => .tcopy d a)
  | 0x041 => decoded (np && zc && z9)
      ((dreg f.d).bind fun d => (dreg f.a).bind fun a => (dreg f.b).map fun b => .tgather d a b)
  | 0x042 => decoded (np && zc && z9)
      ((dreg f.d).bind fun d => (dreg f.a).bind fun a => (dreg f.b).map fun b => .tscatter d a b)
  | 0x043 => decoded (np && zb && zc && f.mh 1 == 0)
      ((sreg f.d).bind fun s => (dreg f.a).map fun a => .qput (f.ml 1 == 1) s a)
  | 0x044 => decoded (np && zd && zc && f.mh 5 == 0)
      ((mreg f.a).bind fun a => (mreg f.b).bind fun b => (ArrKind.ofCode (f.ml 2)).bind fun k =>
        (CoreSel.ofCode (f.mr 2 3)).map fun c => .mCbarr k c a b)
  | 0x045 => decoded (np && zd && zc && f.mh 5 == 0 && f.ml 2 == 0)
      ((mreg f.a).bind fun a => (mreg f.b).bind fun b => (CoreSel.ofCode (f.mr 2 3)).map fun c => .mCbwait c a b)
  | 0x046 => decoded (np && zd && z9)
      ((mreg f.a).bind fun a => (mreg f.b).bind fun b => (mreg f.c).map fun c => .regfill a b c)
  | 0x047 => decoded (np && zd && za && zb && zc && z9) (some .mfence)
  | 0x048 => decoded (np && zd && zb && zc && z9) ((mreg f.a).map fun a => .mdone a)
  | 0x049 => decoded (np && zd && za && zb && zc && z9) (some .mexit)
  | 0x04A => decoded (np && zc && f.mh 4 == 0)
      ((dreg f.d).bind fun d => (dreg f.a).bind fun a => (mreg f.b).bind fun b => (FxOp.ofCode (f.ml 2)).bind fun o =>
        (FxTy.ofCode (f.mr 2 2)).map fun t => .fxred o t d a b)
  | 0x04B => decoded (np && zb && zc && z9) ((mreg f.d).bind fun d => (mreg f.a).map fun a => .dharv d a)
  | 0x04C => decoded (np && zb && zc && f.mh 8 == 0 && f.mr 4 1 == 0)
      ((dreg f.d).bind fun d => (mreg f.a).bind fun a => (DescField.ofCode (f.mr 5 3)).map fun k =>
        .tdset k (BitVec.ofNat 4 (f.ml 4)) d a)
  | _ => .error .unassigned

/-- IM layout of the Mordant map (R232, R235, R237, R241). -/
def decodeMIM (f : IMFields) : Except DecodeErr Instr :=
  let np := !f.pds && !f.pbase
  let md := f.md.toNat
  let wd := Width.ofCode (md / 4 % 8)
  let sx := md / 2 % 2 == 1
  let zs := decide (md / 32 = 0) && md % 2 == 0
  let im := fun (k : BitVec 5 → BitVec 5 → BitVec 24 → Instr) =>
    decoded (np && decide (md = 0)) ((mreg f.ds).bind fun d => (mreg f.base).map fun a => k d a f.imm)
  match f.opc.toNat with
  | 0x00 => decoded (np && zs) ((mreg f.ds).bind fun d => (mreg f.base).bind fun a => wd.map fun w => .ldx w sx d a f.imm)
  | 0x01 => decoded (np && zs && !sx) ((mreg f.ds).bind fun d => (mreg f.base).bind fun a => wd.map fun w => .stx w d a f.imm)
  | 0x02 => decoded (np && decide (md = 0)) ((dreg f.ds).bind fun d => (mreg f.base).map fun a => .tdld d a f.imm)
  | 0x10 => im .mAddImm
  | 0x11 => im .mMulImm
  | 0x12 => im .mAndImm
  | 0x13 => im .mOrImm
  | 0x14 => im .mXorImm
  | 0x15 => im .mShlImm
  | 0x16 => im .mShrImm
  | 0x17 => decoded (np && decide (md / 32 = 0))
      ((mreg f.ds).bind fun d => (mreg f.base).bind fun a => (Cond.ofCode (md % 16)).map fun c =>
        .mCmpImm c (md / 16 % 2 == 1) d a f.imm)
  | _ => .error .unassigned

/-- IL layout of the Mordant map (R235, R236). -/
def decodeMIL (f : ILFields) : Except DecodeErr Instr :=
  let z := f.rsv == 0 && !f.pds
  let md := f.md.toNat
  match f.opc.toNat with
  | 0x40 => decoded (z && decide (md = 0)) ((mreg f.ds).map fun d => .li d f.imm)
  | 0x41 => decoded (z && decide (md = 0) && f.ds == 0 && offsetOk f.imm) (some (.mBr (offsetOf f.imm)))
  | 0x42 => decoded (z && decide (md / 2 = 0) && offsetOk f.imm)
      ((mreg f.ds).map fun d => .mBrc (md % 2 == 1) d (offsetOf f.imm))
  | 0x43 => decoded (z && decide (md = 0) && offsetOk f.imm) ((mreg f.ds).map fun d => .loop d (offsetOf f.imm))
  | _ => .error .unassigned

/-- X form of the Mordant map (R233, R242). -/
def decodeMX (f : XFields) (lit : DWord) : Except DecodeErr Instr :=
  let md := f.md.toNat
  match f.opc.toNat with
  | 0x00 => decoded (f.rsv == 0 && f.md == 0) ((mreg f.d).map fun d => .liLit d lit)
  | 0x01 => decoded (f.rsv == 0 && md / 16 % 2 == 0)
      ((dreg f.d).bind fun d => (DescField.ofCode (md / 32)).map fun k => .tdsetLit k (BitVec.ofNat 4 (md % 16)) d lit)
  | _ => .error .unassigned

/-- One Mordant instruction from its first word and the word that follows it; the P form is unassigned (R232). -/
def decodeMordant (w lit : DWord) : Except DecodeErr Instr :=
  match w.toNat / 2 ^ 62 with
  | 0 => decodeMF (unpackF w)
  | 1 => .error .unassigned
  | 2 => if w.toNat / 2 ^ 54 % 256 < 0x40 then decodeMIM (unpackIM w) else decodeMIL (unpackIL w)
  | _ => decodeMX (unpackX w) lit

/-! ### Bytes (R11: little-endian) -/

/-- The number whose little-endian bytes are given. -/
def leNat : List Byte → Nat
  | [] => 0
  | b :: bs => b.toNat + 256 * leNat bs

/-- The `n` little-endian bytes of a number. -/
def leBytes : Nat → Nat → List Byte
  | 0, _ => []
  | n + 1, x => BitVec.ofNat 8 x :: leBytes n (x / 256)

/-- Decode one instruction from code bytes with the given map; answer it with the bytes after it. -/
def decodeWith (dec : DWord → DWord → Except DecodeErr Instr) (bs : List Byte) : Except DecodeErr (Instr × List Byte) :=
  if bs.length < 8 then .error .truncated
  else
    let w : DWord := BitVec.ofNat 64 (leNat (bs.take 8))
    let rest := bs.drop 8
    if isXForm w then
      if rest.length < 8 then .error .truncated
      else (dec w (BitVec.ofNat 64 (leNat (rest.take 8)))).map fun i => (i, rest.drop 8)
    else (dec w 0).map fun i => (i, rest)

/-- Decode one thread instruction from code bytes. -/
def decodeBytes (bs : List Byte) : Except DecodeErr (Instr × List Byte) := decodeWith decodeThread bs

/-- Decode one Mordant instruction from code bytes. -/
def decodeMordantBytes (bs : List Byte) : Except DecodeErr (Instr × List Byte) := decodeWith decodeMordant bs

/-- The host's question: the instruction the decoder reads from bits `w`, the first word lowest. The words are those of a
thread: a Mordant word is read under the Mordant map only by an engine (R79). -/
def decodeTableWord (nbits w : Nat) : Option Instr :=
  match decodeBytes (leBytes 16 (w % 2 ^ nbits)) with
  | .ok (i, _) => some i
  | .error _ => none

/-! ### Introduction dates (R80) -/

/-- Whether a thread instruction's code point was introduced at 4.0 or later: under major 3 it faults F_ILLEGAL. The form
`ballot.64` is reserved under major 3 too (R180). -/
def Instr.since4 : Instr → Bool
  | .bqenc .. | .bqdec .. | .wcnt .. | .vmark .. | .vtest .. | .bqmax .. | .phase | .cbinit .. | .cbarr .. | .cbwait ..
  | .cbtest .. | .dqpush .. | .dqpop .. | .dqsteal .. | .dqidle .. | .spawn .. | .mdgo .. | .mdkill .. | .mdstat ..
  | .mxend .. | .mma .. | .mxscale .. | .mxzero .. | .mxld .. | .mxst .. | .bndmin .. | .bndrd .. | .stmc ..
  | .mxbeg .. | .mxdist .. | .mxtopk .. => true
  | .ballot b64 _ _ => b64
  | _ => false

/-- The length in bytes of a thread or Mordant instruction: 16 for the X form, else 8 (R68). -/
def Instr.len : Instr → Nat
  | .movp .. | .mxbeg .. | .liLit .. | .tdsetLit .. => 16
  | _ => 8

/-! ### The encoder -/

/-- An F-form word from an opcode, a destination field, three source fields and MOD. -/
def encF (opc : Nat) (d : Reg) (a b c : Src) (md : Nat) : List DWord :=
  [packF ⟨BitVec.ofNat 10 opc, d, a.r, b.r, c.r, a.trap, b.trap, c.trap, BitVec.ofNat 9 md⟩]

/-- An IM-layout word. -/
def encIM (opc : Nat) (ds : Src) (base : Src) (imm : BitVec 24) (md : Nat) : List DWord :=
  [packIM ⟨BitVec.ofNat 8 opc, ds.r, base.r, imm, ds.trap, base.trap, BitVec.ofNat 8 md⟩]

/-- An IL-layout word. -/
def encIL (opc : Nat) (ds : Src) (imm : Word) (md : Nat) : List DWord :=
  [packIL ⟨BitVec.ofNat 8 opc, ds.r, imm, ds.trap, 0, BitVec.ofNat 8 md⟩]

/-- An X-form instruction: its word and its literal. -/
def encX (opc : Nat) (d : Reg) (md : Nat) (lit : DWord) : List DWord :=
  [packX ⟨BitVec.ofNat 8 opc, d, 0, BitVec.ofNat 8 md⟩, lit]

/-- A field without policy. -/
def Src.of (r : Reg) : Src := ⟨r, false⟩

/-- A Mordant register, descriptor or stream as a field. -/
def fld {n : Nat} (x : BitVec n) : Src := ⟨BitVec.ofNat 10 x.toNat, false⟩

/-- FA modifiers. -/
def FMod.md (m : FMod) : Nat := m.ty.code * 128 + m.rm.code * 32 + bit m.ftz * 16
def FMod.pmd (m : FMod) : Nat := m.ty.pcode * 128 + m.rm.code * 32 + bit m.ftz * 16

def Half.fields (h : Half) : HFields := ⟨BitVec.ofNat 7 h.op.code, h.d, h.s.r, h.s.trap, h.m⟩

/-- The MOD of a memory word (R73). -/
def memMd (sc : Scope) (w : Width) (sx nt : Bool) : Nat := sc.code * 32 + w.code * 4 + bit sx * 2 + bit nt

/-- The words of an instruction; an event has none. -/
def encode : Instr → List DWord
  | .add t d a b => encF 0x000 d a b .none (t.code * 32)
  | .sub t d a b => encF 0x001 d a b .none (t.code * 32)
  | .addc t d a b c => encF 0x002 d a b c (t.code * 32)
  | .subb t d a b c => encF 0x003 d a b c (t.code * 32)
  | .mul t d a b => encF 0x004 d a b .none (t.code * 32)
  | .mulh t d a b => encF 0x005 d a b .none (t.code * 32)
  | .mad t d a b c => encF 0x006 d a b c (t.code * 32)
  | .div t d a b => encF 0x007 d a b .none (t.code * 32)
  | .rem t d a b => encF 0x008 d a b .none (t.code * 32)
  | .min t d a b => encF 0x009 d a b .none (t.code * 32)
  | .max t d a b => encF 0x00A d a b .none (t.code * 32)
  | .abs t d a => encF 0x00B d a .none .none (t.code * 32)
  | .neg t d a => encF 0x00C d a .none .none (t.code * 32)
  | .and d a b => encF 0x00D d a b .none 0
  | .or d a b => encF 0x00E d a b .none 0
  | .xor d a b => encF 0x00F d a b .none 0
  | .not d a => encF 0x010 d a .none .none 0
  | .andn d a b => encF 0x011 d a b .none 0
  | .orn d a b => encF 0x012 d a b .none 0
  | .shl d a b => encF 0x013 d a b .none 0
  | .shr d a b => encF 0x014 d a b .none 0
  | .sar d a b => encF 0x015 d a b .none 0
  | .rot d a b => encF 0x016 d a b .none 0
  | .clz d a => encF 0x017 d a .none .none 0
  | .ctz d a => encF 0x018 d a .none .none 0
  | .popc d a => encF 0x019 d a .none .none 0
  | .brev d a => encF 0x01A d a .none .none 0
  | .bfe t d a b => encF 0x01B d a b .none (t.code * 32)
  | .bfi d a b c => encF 0x01C d a b c 0
  | .bperm d a b c => encF 0x01D d a b c 0
  | .sel d a b c => encF 0x01E d a b c 0
  | .cmp cc t d a b => encF 0x01F d a b .none (t.code * 32 + cc.code)
  | .add64 d a b => encF 0x020 d a b .none 0
  | .sub64 d a b => encF 0x021 d a b .none 0
  | .mul64 d a b => encF 0x022 d a b .none 0
  | .shl64 d a b => encF 0x023 d a b .none 0
  | .shr64 t d a b => encF 0x024 d a b .none (t.code * 32)
  | .cmp64 cc t d a b => encF 0x025 d a b .none (t.code * 32 + cc.code)
  | .lea nat s d a b => encF 0x026 d a b .none (bit nat * 8 + s.toNat)
  | .mov d a => encF 0x027 d a .none .none 0
  | .movi d imm => encIL 0x40 (.of d) imm 0
  | .movp d imm => encX 0x00 d 0 imm
  | .idp4 t d a b c => encF 0x028 d a b c (t.code * 32)
  | .addImm t d a imm => encIM 0x10 (.of d) a imm (t.code * 16)
  | .mulImm t d a imm => encIM 0x11 (.of d) a imm (t.code * 16)
  | .andImm d a imm => encIM 0x12 (.of d) a imm 0
  | .orImm d a imm => encIM 0x13 (.of d) a imm 0
  | .xorImm d a imm => encIM 0x14 (.of d) a imm 0
  | .shlImm d a imm => encIM 0x15 (.of d) a imm 0
  | .shrImm d a imm => encIM 0x16 (.of d) a imm 0
  | .sarImm d a imm => encIM 0x17 (.of d) a imm 0
  | .minImm t d a imm => encIM 0x18 (.of d) a imm (t.code * 16)
  | .maxImm t d a imm => encIM 0x19 (.of d) a imm (t.code * 16)
  | .cmpImm cc t d a imm => encIM 0x1A (.of d) a imm (t.code * 16 + cc.code)
  | .pairWord ha hb => [packP ha.fields hb.fields]
  | .fadd m d a b => encF 0x040 d a b .none m.md
  | .fsub m d a b => encF 0x041 d a b .none m.md
  | .fmul m d a b => encF 0x042 d a b .none m.md
  | .ffma m d a b c => encF 0x043 d a b c m.md
  | .fmin t z d a b => encF 0x044 d a b .none (t.code * 128 + bit z * 16)
  | .fmax t z d a b => encF 0x045 d a b .none (t.code * 128 + bit z * 16)
  | .fabs t d a => encF 0x046 d a .none .none (t.code * 128)
  | .fneg t d a => encF 0x047 d a .none .none (t.code * 128)
  | .fcmp cc t z d a b => encF 0x048 d a b .none (t.code * 128 + bit z * 16 + cc.code)
  | .fclass t d a => encF 0x049 d a .none .none (t.code * 128)
  | .frcp m d a => encF 0x04A d a .none .none m.md
  | .frsq m d a => encF 0x04B d a .none .none m.md
  | .fsqrt m d a => encF 0x04C d a .none .none m.md
  | .fdiv m d a b => encF 0x04D d a b .none m.md
  | .fexp2 m d a => encF 0x04E d a .none .none m.md
  | .flog2 m d a => encF 0x04F d a .none .none m.md
  | .fldexp m d a b => encF 0x050 d a b .none m.md
  | .fgetexp t z d a => encF 0x051 d a .none .none (t.code * 128 + bit z * 16)
  | .frnd m d a => encF 0x052 d a .none .none m.md
  | .hadd2 m d a b => encF 0x053 d a b .none m.pmd
  | .hsub2 m d a b => encF 0x054 d a b .none m.pmd
  | .hmul2 m d a b => encF 0x055 d a b .none m.pmd
  | .hfma2 m d a b c => encF 0x056 d a b c m.pmd
  | .hmin2 t z d a b => encF 0x057 d a b .none (t.pcode * 128 + bit z * 16)
  | .hmax2 t z d a b => encF 0x058 d a b .none (t.pcode * 128 + bit z * 16)
  | .hcmp2 cc t z d a b => encF 0x059 d a b .none (t.pcode * 128 + bit z * 16 + cc.code)
  | .fdp2 m d a b c => encF 0x05A d a b c m.pmd
  | .cvt dt sr z d a => encF 0x060 d a .none .none (dt.code * 32 + sr.code * 2 + bit z)
  | .cvtRz dt sr z d a => encF 0x061 d a .none .none (dt.code * 32 + sr.code * 2 + bit z)
  | .cvtRu dt sr z d a => encF 0x062 d a .none .none (dt.code * 32 + sr.code * 2 + bit z)
  | .cvtRd dt sr z d a => encF 0x063 d a .none .none (dt.code * 32 + sr.code * 2 + bit z)
  | .bqenc w d a b => encF 0x05B d a b .none (w.toNat * 64)
  | .bqdec w d a b => encF 0x05C d a b .none (w.toNat * 64)
  | .br off => encIL 0x41 .none (off.signExtend 32) 0
  | .brc z c off => encIL 0x42 c (off.signExtend 32) (bit z)
  | .call d off => encIL 0x43 (.of d) (off.signExtend 32) 0
  | .brx a => encF 0x080 0 a .none .none 0
  | .calli d a => encF 0x081 d a .none .none 0
  | .ret a => encF 0x082 0 a .none .none 0
  | .exit => encF 0x083 0 .none .none .none 0
  | .trap g n => encF 0x084 0 .none .none .none (bit g * 256 + n.toNat)
  | .tret => encF 0x085 0 .none .none .none 0
  | .nop c => encF 0x086 0 .none .none .none (bit c)
  | .ld w sc sx nt d base imm => encIM 0x00 (.of d) base imm (memMd sc w sx nt)
  | .st w sc nt v base imm => encIM 0x01 v base imm (memMd sc w false nt)
  | .lds w sc sx d base imm => encIM 0x02 (.of d) base imm (memMd sc w sx false)
  | .sts w sc v base imm => encIM 0x03 v base imm (memMd sc w false false)
  | .ldc w sx d base imm => encIM 0x04 (.of d) base imm (memMd .th w sx false)
  | .pf nt base imm => encIM 0x05 .none base imm (bit nt)
  | .atom op t sc d a b => encF 0x087 d a b .none (sc.code * 64 + op.code * 4 + t.atCode)
  | .cas t sc d a b c => encF 0x088 d a b c (sc.code * 64 + t.atCode)
  | .atoms op t sc d a b => encF 0x089 d a b .none (sc.code * 64 + op.code * 4 + t.atCode)
  | .cass t sc d a b c => encF 0x08A d a b c (sc.code * 64 + t.atCode)
  | .fence k sc => encF 0x08B 0 .none .none .none (sc.code * 64 + k.code)
  | .ifence => encF 0x08C 0 .none .none .none 0
  | .wcnt c n => encF 0x08D 0 .none .none .none (c.code * 64 + n.toNat)
  | .vmark win k d a => encF 0x08E d a .none .none (k.toNat * 2 + bit win)
  | .vtest d a => encF 0x08F d (.of a) .none .none 0
  | .shfl m d a b => encF 0x100 d a b .none m.code
  | .vote m d a => encF 0x101 d a .none .none m.code
  | .ballot b64 d a => encF 0x102 d a .none .none (bit b64)
  | .redux op t d a => encF 0x103 d a .none .none (t.code * 16 + op.code)
  | .gscan op t ex d a => encF 0x104 d a .none .none (bit ex * 256 + t.code * 16 + op.code)
  | .bqmax d a => encF 0x105 d a .none .none 0
  | .bar sc => encF 0x106 0 .none .none .none (sc.code * 64)
  | .phase => encF 0x107 0 .none .none .none 0
  | .cbinit a b => encF 0x108 0 a b .none 0
  | .cbarr sc a b => encF 0x109 0 a b .none (sc.code * 64)
  | .cbwait a b => encF 0x10A 0 a b .none 0
  | .cbtest d a => encF 0x10B d a .none .none 0
  | .dqpush d a b => encF 0x10C d a b .none 0
  | .dqpop d => encF 0x10D d .none .none .none 0
  | .dqsteal d => encF 0x10E d .none .none .none 0
  | .dqidle d => encF 0x10F d .none .none .none 0
  | .spawn d a b => encF 0x110 d a b .none 0
  | .sid k d => encF 0x111 d .none .none .none k.toNat
  | .rdclk d => encF 0x112 d .none .none .none 0
  | .yield => encF 0x113 0 .none .none .none 0
  | .sleep d a b c => encF 0x114 d a b c 0
  | .mxbeg lit => encX 0x01 0 0 lit
  | .mxend ch => encF 0x143 0 .none .none .none ch.toNat
  | .mma kb ch t => encF 0x144 0 .none .none .none (bit kb * 128 + t.toNat * 4 + ch.toNat)
  | .mxscale kb ch t => encF 0x147 0 .none .none .none (bit kb * 128 + t.toNat * 4 + ch.toNat)
  | .mxdist kb ch t => encF 0x145 0 .none .none .none (bit kb * 128 + t.toNat * 4 + ch.toNat)
  | .mxzero t => encF 0x148 0 .none .none .none (t.toNat * 4)
  | .mxst k t a b => encF 0x14A 0 a b .none (k.toNat * 128 + t.toNat * 4)
  | .mxld fl k t d b => encF 0x149 d .none b .none (k.toNat * 128 + t.toNat * 4 + bit fl)
  | .mxtopk mx s32 t d b => encF 0x146 d .none b .none (bit s32 * 256 + bit mx * 128 + t.toNat * 4)
  | .mdgo d a b => encF 0x140 d a b .none 0
  | .mdkill a => encF 0x141 0 a .none .none 0
  | .mdstat d a => encF 0x142 d a .none .none 0
  | .bndmin n a => encF 0x14B 0 a .none .none n.toNat
  | .bndrd n d => encF 0x14C d .none .none .none n.toNat
  | .stmc w m a b => encF 0x14D 0 a b .none (w.mcCode * 16 + m.toNat)
  | .csrr n d => encF 0x3C0 d .none .none .none n.toNat
  | .csrw n a => encF 0x3C1 0 a .none .none n.toNat
  | .csrs n d a => encF 0x3C2 d a .none .none n.toNat
  | .eret a => encF 0x3C3 0 a .none .none 0
  | .tlbinv k a b c => encF 0x3C4 0 a b c k.code
  | .hcall n d a => encF 0x3C5 d a .none .none n.toNat
  | .mAdd d a b => encF 0x000 (fld d).r (fld a) (fld b) .none 0
  | .mSub d a b => encF 0x001 (fld d).r (fld a) (fld b) .none 0
  | .mMul d a b => encF 0x002 (fld d).r (fld a) (fld b) .none 0
  | .mAnd d a b => encF 0x003 (fld d).r (fld a) (fld b) .none 0
  | .mOr d a b => encF 0x004 (fld d).r (fld a) (fld b) .none 0
  | .mXor d a b => encF 0x005 (fld d).r (fld a) (fld b) .none 0
  | .mShl d a b => encF 0x006 (fld d).r (fld a) (fld b) .none 0
  | .mShr d a b => encF 0x007 (fld d).r (fld a) (fld b) .none 0
  | .mCmp cc n d a b => encF 0x008 (fld d).r (fld a) (fld b) .none (bit n * 16 + cc.code)
  | .mSel d a b c => encF 0x009 (fld d).r (fld a) (fld b) (fld c) 0
  | .mMov d a => encF 0x00A (fld d).r (fld a) .none .none 0
  | .mAddImm d a imm => encIM 0x10 (fld d) (fld a) imm 0
  | .mMulImm d a imm => encIM 0x11 (fld d) (fld a) imm 0
  | .mAndImm d a imm => encIM 0x12 (fld d) (fld a) imm 0
  | .mOrImm d a imm => encIM 0x13 (fld d) (fld a) imm 0
  | .mXorImm d a imm => encIM 0x14 (fld d) (fld a) imm 0
  | .mShlImm d a imm => encIM 0x15 (fld d) (fld a) imm 0
  | .mShrImm d a imm => encIM 0x16 (fld d) (fld a) imm 0
  | .mCmpImm cc n d a imm => encIM 0x17 (fld d) (fld a) imm (bit n * 16 + cc.code)
  | .li d imm => encIL 0x40 (fld d) imm 0
  | .liLit d imm => encX 0x00 (fld d).r 0 imm
  | .mBr off => encIL 0x41 .none (off.signExtend 32) 0
  | .mBrc z c off => encIL 0x42 (fld c) (off.signExtend 32) (bit z)
  | .loop c off => encIL 0x43 (fld c) (off.signExtend 32) 0
  | .ldx w sx d base imm => encIM 0x00 (fld d) (fld base) imm (memMd .th w sx false)
  | .stx w v base imm => encIM 0x01 (fld v) (fld base) imm (memMd .th w false false)
  | .tdld d base imm => encIM 0x02 (fld d) (fld base) imm 0
  | .tdset f k d a => encF 0x04C (fld d).r (fld a) .none .none (f.code * 32 + k.toNat)
  | .tdsetLit f k d v => encX 0x01 (fld d).r (f.code * 32 + k.toNat) v
  | .tcopy d a => encF 0x040 (fld d).r (fld a) .none .none 0
  | .tgather d a b => encF 0x041 (fld d).r (fld a) (fld b) .none 0
  | .tscatter d a b => encF 0x042 (fld d).r (fld a) (fld b) .none 0
  | .qput e s a => encF 0x043 (fld s).r (fld a) .none .none (bit e)
  | .mCbarr k c a b => encF 0x044 0 (fld a) (fld b) .none (c.code * 4 + k.code)
  | .mCbwait c a b => encF 0x045 0 (fld a) (fld b) .none (c.code * 4)
  | .regfill a b c => encF 0x046 0 (fld a) (fld b) (fld c) 0
  | .mfence => encF 0x047 0 .none .none .none 0
  | .mdone a => encF 0x048 0 (fld a) .none .none 0
  | .mexit => encF 0x049 0 .none .none .none 0
  | .fxred op t d a b => encF 0x04A (fld d).r (fld a) (fld b) .none (t.code * 4 + op.code)
  | .dharv d a => encF 0x04B (fld d).r (fld a) .none .none 0
  | _ => []

/-- The code bytes of an instruction. -/
def encodeBytes (i : Instr) : List Byte := (encode i).flatMap fun w => leBytes 8 w.toNat

/-- Whether an instruction is a word of a thread. -/
def Instr.isEvent (i : Instr) : Bool := (encode i).isEmpty

end Sys2Proof
end

