-- ==== Sys2Proof/Machine/State.lean ====
section
/-! DEFINITION. The state of the G4 as plain data, its reset value, and the reasons a step can stop. -/

namespace Sys2Proof.Machine

/-! ## Tables of entities -/

/-- A table of entities by identifier; keys rise. -/
abbrev Tab (α : Type) := List (Nat × α)

/-- The entity named `n`, if there is one. -/
def Tab.find {α : Type} : Tab α → Nat → Option α
  | [], _ => none
  | (k, v) :: m, n => if k = n then some v else Tab.find m n

/-- Put an entity under the name `n`. -/
def Tab.put {α : Type} (m : Tab α) (n : Nat) (v : α) : Tab α :=
  FMap.insert n v (FMap.erase m n)

/-- Remove the entity named `n`. -/
def Tab.del {α : Type} (m : Tab α) (n : Nat) : Tab α := FMap.erase m n

/-- Change the entity named `n`, if there is one. -/
def Tab.upd {α : Type} (m : Tab α) (n : Nat) (f : α → α) : Tab α :=
  m.map fun p => if p.1 = n then (p.1, f p.2) else p

/-! ## Threads -/

/-- Who executes: nobody, a thread (by team and TIX), or a Mordant program. -/
inductive Agent
  | none
  | thread (team tix : Nat)
  | program (uid : Nat)
  /-- nobody any more: what a discarded phase of a team has left in flight (R177) -/
  | left (team : Nat)
  deriving DecidableEq, Repr, Inhabited

/-- A register with its F and P bits (R28, R34 to R39): full; poisoned, whose value is undefined and never read; or
empty under a producer tag. -/
inductive RegVal
  | full (w : Word)
  | poisoned
  | empty (tag : Word)
  deriving DecidableEq, Repr, Inhabited

/-- The trap and fault codes of R143. -/
inductive Code
  | tEmpty | tSoft | tDebug | tFpx | tDiv0
  | illegal | reg | align | lease | perm | fetch | lost | mordant | save | watchdog | ecc | fabric
  deriving DecidableEq, Repr, Inhabited

/-- What a parked thread waits for (R38 and the rules named). -/
inductive Park
  /-- one of these registers becoming full (R37 orders 4 and 5) -/
  | regs (rs : List Nat)
  /-- the fills of the producers of R109 while a trap enable is set; `trap` is the address of the word whose fill has set an
  enabled flag, which then traps (R110) -/
  | fpu (trap : Option DWord)
  /-- every older producer of R109 (R110, `csrr` of TH_FFLAGS) -/
  | fpuAll
  /-- the ld and st counts at zero, and fab where the flag says so (R127, R136) -/
  | release (fab : Bool)
  /-- every older acquire complete (R127) -/
  | acquire
  /-- every older load and atomic complete (R136); `acq` for the acquire that then follows -/
  | loads (acq : Option Scope)
  /-- these requests performed (R128) -/
  | after (reqs : List Nat)
  /-- the st count at zero (R139) -/
  | stores
  /-- a count at or below `n` (R137, R138) -/
  | count (c : Cls) (n : Nat)
  /-- chain `ch` of the thread's sub-slot opening (R271) -/
  | chainOpen (ch : Nat)
  /-- chain `ch` of the thread's sub-slot closing (R270) -/
  | chainClose (ch : Nat)
  /-- a free chain context (R269) -/
  | context
  /-- a free reservation entry (R271) -/
  | tableSlot
  /-- the phase store buffer without entries of the team, whose phase has been demoted (R174) -/
  | drained
  deriving DecidableEq, Repr, Inhabited

/-- How a thread is held (R155). -/
inductive Hold
  /-- at a meeting point, with the captured sources (R181) -/
  | meet (i : Instr) (vals : List Word)
  /-- at a `phase` whose meeting has completed (R168) -/
  | boundary
  /-- at a `dqidle` whose meeting has completed (R207) -/
  | idle (d : Reg)
  /-- in `cbwait` on the barrier at an offset, for PH to differ from the bit (R200) -/
  | cbwait (off : Nat) (ph : Bool)
  /-- in `yield` until a time (R211) -/
  | yield (due : Nat)
  /-- in `sleep` on a physical word, with the time-out if one is set (R212) -/
  | sleep (pa : Nat) (d : Reg) (due : Option Nat)
  /-- in `mxtopk` (R284) -/
  | mxtopk
  /-- in `tlbinv`, waiting for these accesses and rows (R357) -/
  | tlbinv (reqs rows : List Nat)
  /-- stopped at an instruction boundary for a save (R327), with the BORN of the entry it stood in -/
  | save (born : Nat)
  deriving DecidableEq, Repr, Inhabited

/-- Where a thread is (R155). `table` is an entry or a record of the overflow ring. -/
inductive Place
  | table
  | row
  | parked (p : Park)
  | stalled (token : Nat)
  | held (h : Hold)
  /-- ended by `exit` (R121) -/
  | exited
  /-- stopped by the end of its team (R150) -/
  | stopped
  deriving DecidableEq, Repr, Inhabited

/-- An unanswered `hcall` (R363). -/
structure HCall where
  arg : DWord
  n : Byte
  d : Reg
  token : Nat
  deriving DecidableEq, Repr, Inhabited

/-- One thread (R28). -/
structure Thread where
  team : Nat
  tix : Nat
  core : Nat
  slot : Nat
  pc : DWord
  regs : FMap RegVal
  gmap : List Nat
  fpctl : Word
  fflags : Word
  trapvec : DWord
  trappc : DWord
  trapcause : Word
  priv : Bool
  place : Place
  hcall : Option HCall
  deriving DecidableEq, Repr, Inhabited

/-! ## Requests in flight -/

/-- Where a checked access goes (R301, R351). -/
inductive Loc
  /-- HBM4 or host memory, by physical address -/
  | mem (pa : Nat)
  /-- peer memory, by virtual device number and offset -/
  | peer (vdn off : Nat)
  /-- a notify page register -/
  | notify (fn q off : Nat)
  /-- a register of an Ethernet window: port and window offset (R410) -/
  | eth (port off : Nat)
  /-- the scratchpad of a team on its own core -/
  | scratch (team off : Nat)
  /-- a register window (R253) -/
  | window (team slot v : Nat)
  deriving DecidableEq, Repr, Inhabited

/-- Which producer tags a fill or a poisoning takes (R39, R252, R253). -/
inductive TagKind
  /-- class 0x5 -/
  | window
  /-- class 0x4 of the program with this sequence number -/
  | program (seq : BitVec 48)
  /-- either of these: what `regfill` of the program fills -/
  | programOrWindow (seq : BitVec 48)
  | any
  deriving DecidableEq, Repr, Inhabited

/-- What a request does when it is performed or filled. -/
inductive Act
  /-- a store that enters the phase store buffer once what its release waits for has come about (R127, R132) -/
  | buffer (loc : Loc) (bytes : List Byte)
  /-- a load of `n` bytes into the registers from `d` on; `l1` says that it may read and fill the L1 -/
  | load (loc : Loc) (n : Nat) (sx : Bool) (d : Nat) (l1 : Bool)
  /-- a load through the constant cache (R130) -/
  | loadConst (pa : Nat) (n : Nat) (sx : Bool) (d : Nat)
  | store (loc : Loc) (bytes : List Byte)
  | atomic (loc : Loc) (op : AOp) (ty : Ty) (x : DWord) (d : Nat)
  | cas (loc : Loc) (ty : Ty) (cmp swap : DWord) (d : Nat)
  /-- results decided at issue, written with their flags at the fill (R35); `fp` for a producer of R109 -/
  | value (d : Nat) (ws : List Word) (fl : FFlags) (fp : Bool)
  /-- a write that carries a generation (R195) -/
  | genWrite (core gen off : Nat) (bytes : List Byte) (fn : Nat)
  /-- an arrival of a thread on a counted barrier (R199) -/
  | arrive (team off n : Nat)
  /-- a `cbtest` (R201) -/
  | cbTest (team off d : Nat)
  /-- an `mxld` (R283): tile, row, first column, count (0 for `.fl`), first register -/
  | mxLoad (tile row col k d : Nat)
  | mxStore (tile row col : Nat) (ws : List Word)
  | mxZero (tile row : Nat)
  | mxTopk (tile row k n : Nat) (mx s32 : Bool) (d : Nat)
  /-- an `mma`, `mxscale` or `mxdist` whose entry stands in the reservation table (R277) -/
  | mxPass
  /-- an `mxend` of a chain, until the chain closes (R270) -/
  | mxEnd (sub ch : Nat)
  /-- a Mordant program started by `mdgo` (R285) -/
  | mdRun (prog : Nat)
  /-- elements of a fabric reduction for a member on another package: package, function, and what the packet says (R409) -/
  | reduce (vdn pkg fn : Nat) (op : PktOp)
  /-- an instruction that completes at issue -/
  | nothing
  deriving DecidableEq, Repr, Inhabited

/-- One request in flight, from issue to credit (R137). Identifiers rise in issue order. -/
structure Req where
  owner : Agent
  cls : Option Cls
  act : Act
  /-- older requests that must have taken effect first (R128, R127, R239) -/
  after : List Nat
  /-- older requests that must have completed first: those that a release waits for (R127, R134) -/
  behind : List Nat
  /-- it has been performed: an atomic has its old value, a load its data -/
  performed : Bool
  /-- it has completed -/
  complete : Bool
  /-- the bytes an atomic or an L1 hit has read -/
  data : Option (List Byte)
  /-- what a withdrawn `mxld` gives its destinations back (R41) -/
  undo : List RegVal
  /-- bytes of it, by offset, that the phase store buffer held at issue (R173) -/
  psb : Tab Byte
  /-- of an `ldc`: the request of its row that it shares an access with (R130) -/
  mate : Option Nat
  /-- of a `.128` load: the offset of the half that has been read, and its bytes (R128) -/
  half : Option (Nat × List Byte)
  /-- it is a store or atomic that has been sent while the L1 of its core held a sector of its bytes (R300) -/
  shown : Bool
  /-- its thread had PRIV when it issued (R368) -/
  priv : Bool
  /-- the scope of the acquire it makes at completion (R127) -/
  acq : Option Scope
  /-- it is a release and has not been sent (R127) -/
  unsent : Bool
  /-- address of the instruction (R194) -/
  pc : DWord
  /-- its fill must not allocate in the L1 (R300) -/
  noFill : Bool
  /-- its translation has been invalidated before it was sent, so that it translates again (R357) -/
  stale : Bool
  /-- function, virtual and intermediate address it was translated from (R357) -/
  fn : Nat
  va : DWord
  ipa : Nat
  /-- its results are dropped: its thread has exited or its team has ended (R121, R150) -/
  dead : Bool
  /-- die of the agent that issued it (R414) -/
  die : Nat
  /-- cycle of issue -/
  born : Nat
  deriving DecidableEq, Repr, Inhabited

/-! ## Translation -/

/-- A combined translation's output (R351). -/
inductive Out
  | hbm (pa : Nat)
  | host (pa : Nat)
  | fabric (vdn off : Nat)
  | notify (pa : Nat)
  deriving DecidableEq, Repr, Inhabited

/-- A TLB entry (R352): `log` is the page size in address bits; addresses are those of the page's first byte. -/
structure Xlat where
  fn : Nat
  va : Nat
  log : Nat
  ipa : Nat
  out : Out
  r : Bool
  w : Bool
  x : Bool
  pin : Bool
  deriving DecidableEq, Repr, Inhabited

/-! ## The core -/

/-- A waiting-address table entry (R154); `slots` is MAP, ascending. -/
structure Entry where
  addr : DWord
  tm : Bool
  slots : List Nat
  skip : Nat
  born : Nat
  deriving DecidableEq, Repr, Inhabited

/-- A record of the overflow ring (R153, R156). -/
structure RingRec where
  slot : Nat
  addr : DWord
  tm : Bool
  deriving DecidableEq, Repr, Inhabited

/-- A row in flight (R153, R160): the word it issues at `next`, to which slots it has still to be issued, and which slots
go on to the next word, and the translations that it has fetched through (R357, R358). -/
structure Row where
  uid : Nat
  next : DWord
  issued : Nat
  pending : List Nat
  done : List Nat
  xlats : List Xlat
  deriving DecidableEq, Repr, Inhabited

/-- A deque entry (R203). -/
structure DqEntry where
  ea : DWord
  args : List Word
  deriving DecidableEq, Repr, Inhabited

/-- A phase store buffer entry (R173): the owning team, the sector, the masked bytes, the offsets of those that a thread
with PRIV stored last (R368), the TIX of the threads whose stores it holds (R219), and the virtual and the intermediate
address of its first byte, `stale` once that translation has been invalidated (R357). -/
structure PsbEntry where
  team : Nat
  sector : Nat
  bytes : Tab Byte
  priv : List Nat
  tixs : List Nat
  va : Nat
  ipa : Nat
  stale : Bool
  deriving DecidableEq, Repr, Inhabited

/-- A slice of a function on a core (R327). -/
structure Slice where
  fn : Nat
  start : Nat
  length : Nat
  deriving DecidableEq, Repr, Inhabited

/-- A request of the admission queue (R167): a cluster team's member or a readmission, and when it arrived. -/
structure Admit where
  team : Nat
  since : Nat
  reserved : Bool
  deriving DecidableEq, Repr, Inhabited

/-- One core (R153, R173, R202, R300). -/
structure Core where
  table : List Entry
  ring : List RingRec
  rows : Tab Row
  rotate : Nat
  admission : List Admit
  genCtr : BitVec 8
  psb : List PsbEntry
  /-- L1 data cache: valid sectors by physical sector number -/
  l1 : Tab (List Byte)
  /-- constant cache: valid sectors -/
  cc : Tab (List Byte)
  /-- instruction cache: valid words by physical word number -/
  ic : Tab DWord
  vtlb : List Xlat
  itlb : List Xlat
  dqOwner : Option Nat
  deque : List DqEntry
  spill : List DWord
  /-- CO_SPDROP, CO_PSBDEM, CO_WINDROP: per function, and the core's count under key 64 (R369) -/
  spdrop : FMap Word
  psbdem : FMap Word
  windrop : FMap Word
  bound : FMap DWord
  slices : List Slice
  deriving DecidableEq, Repr, Inhabited

def Core.empty : Core :=
  { table := [], ring := [], rows := [], rotate := 0, admission := [], genCtr := 0, psb := [], l1 := [], cc := [],
    ic := [], vtlb := [], itlb := [], dqOwner := none, deque := [], spill := [], spdrop := [], psbdem := [],
    windrop := [], bound := [], slices := [] }

/-! ## The cluster -/

/-- A reservation table entry (R277) with the request that holds it. -/
structure Resv where
  req : Nat
  team : Nat
  tix : Nat
  ctx : Nat
  oct : Nat
  /-- 0 `mma`, 1 `mxscale`, 2 `mxdist` -/
  kind : Nat
  tile : Nat
  kb : Bool
  bpri : Nat
  number : Nat
  /-- cycle of its issue, or of the restore that gave it WAIT 0 (R292), and the levels it has risen since -/
  issued : Nat
  promoted : Nat
  /-- the levels it had risen before a restore -/
  risen : Nat
  deriving DecidableEq, Repr, Inhabited

/-- A chain (R266 to R273). -/
structure Chain where
  sub : Nat
  ch : Nat
  ctx : Nat
  lit : DWord
  q : List Nat
  exited : List Bool
  pend : List (Option Nat)
  closing : Bool
  /-- passes performed -/
  passes : Nat
  deriving DecidableEq, Repr, Inhabited

/-- The pass that runs (R278): its context and number, and the working cycles that it has still to run. -/
structure Pass where
  team : Nat
  ctx : Nat
  number : Nat
  left : Nat
  deriving DecidableEq, Repr, Inhabited

/-- A bound cell (R288). -/
structure Cell where
  value : DWord
  owner : Option Nat
  deriving DecidableEq, Repr, Inhabited

/-- One cluster. -/
structure Cluster where
  /-- the Mordant queue, oldest first (R215) -/
  queue : List Nat
  mtlb : List Xlat
  resv : List Resv
  pass : Option Pass
  cells : FMap Cell
  /-- the engines' instruction caches (R215): words under the key word number × 4 + engine -/
  mic : Tab DWord
  /-- the skip level in force, and LEVEL as Ochre set it, which takes effect in the next window (R392) -/
  skip : Nat
  level : Nat
  deriving DecidableEq, Repr, Inhabited

def Cell.free : Cell := ⟨0, none⟩

def Cluster.empty : Cluster := { queue := [], mtlb := [], resv := [], pass := none, cells := [], mic := [], skip := 0, level := 0 }

/-! ## Mordant programs -/

/-- How a program ends (R220, R256): STATUS (0 for `mexit`), SUB, USER. -/
structure Ending where
  status : Nat
  sub : Nat
  user : Nat
  /-- the address of a fault -/
  addr : Nat
  deriving DecidableEq, Repr, Inhabited

/-- A Mordant program (R216): `engine` none while queued; engines of the die-level system engine have `system` set. -/
structure Program where
  team : Nat
  cluster : Nat
  engine : Option Nat
  /-- the die of a system engine (R376) -/
  system : Option Nat
  starter : Nat
  pc : DWord
  m : FMap DWord
  d : FMap (BitVec 2304)
  seq : BitVec 48
  prog : BitVec 48
  bcnt : DWord
  icnt : DWord
  btot : DWord
  mflags : FFlags
  wait : Bool
  /-- what a `cbwait` that holds it waits for (R250): the team and offset of the barrier, and the bit that PH must not equal -/
  barrier : Option (Nat × Nat × Bool)
  /-- that has come about, and the program has still to go on -/
  passed : Bool
  /-- the slice that a `tgather` or `tscatter` is in, and the index that it has read for it (R245) -/
  index : Option (Nat × Nat)
  stalled : Option Nat
  pri : Nat
  since : Nat
  /-- the request of its `mdgo`, which its end credits (R137) and whose older stores it waits for (R219) -/
  req : Option Nat
  /-- older stores of its starter stand in the phase store buffer, which it waits to be drained (R219) -/
  buffered : Bool
  /-- the generation of each core of its cluster team when it started (R229) -/
  gens : List (Nat × BitVec 8)
  /-- bytes that its `stx` to a peer has sent, whose answer the instruction waits for (R239); 0 for none -/
  posted : Nat
  /-- its `regfill` waits for the phase record in which the register stands (R171, R252) -/
  filling : Bool
  /-- it has ended but for writes still to be performed, for its record, or for registers to be poisoned (R220) -/
  ending : Option Ending
  /-- its record is written, and its registers in a phase record are being poisoned (R39, R220) -/
  recorded : Bool
  deriving DecidableEq, Repr, Inhabited

/-! ## Teams and launches -/

/-- A team's stage of life. -/
inductive Stage
  /-- chosen for a core and waiting for admission (R167) -/
  | waiting
  | resident
  /-- its threads are stopped and wait for what a save waits for (R327, R380) -/
  | stopping
  /-- spilled at a phase boundary, waiting for readmission (R168) -/
  | spilled
  /-- its phase was discarded, waiting for readmission (R177) -/
  | discarded
  /-- faulted, until its teardown is done (R150) -/
  | ending
  /-- saved whole; only its record remains (R327) -/
  | saved
  | ended
  deriving DecidableEq, Repr, Inhabited

/-- One team. -/
structure Team where
  launch : Nat
  num : Nat
  core : Nat
  nthr : Nat
  w : Nat
  narrow : Bool
  stage : Stage
  /-- lane and sub-slot of each group's first thread, in increasing GIX -/
  groups : List (Nat × Nat)
  phase : Nat
  nreg : Nat
  idem : Bool
  demoted : Bool
  /-- address of the current phase's first instruction -/
  phaddr : DWord
  scrSize : Nat
  scratch : FMap Byte
  gen : BitVec 8
  /-- core and generation of each member of its cluster team -/
  gens : List (Nat × BitVec 8)
  nacc : Nat
  /-- word (tile, row, column) under key (tile × 64 + row) × 256 + column -/
  tiles : FMap Word
  /-- row flags under key tile × 64 + row -/
  tflags : FMap FFlags
  streams : List (List Byte)
  chains : List Chain
  /-- watchdog count when last stopped, and the time it runs from (R330) -/
  wdCount : Nat
  wdSince : Option Nat
  /-- completion records written -/
  ncompl : Nat
  /-- time at which its pre-emption was asked for (R148) -/
  preempt : Option Nat
  /-- token of an area access it waits for, and the answer (R417) -/
  area : Option Nat
  /-- the team's save image, when `stage` is `saved` -/
  image : List Byte
  /-- the spilled blocks that the image refers to (R332) -/
  blocks : List DWord
  /-- threads of a saved team whose PRIV `eret` had cleared, which its record does not hold (R336, R362) -/
  erets : List Nat
  deriving DecidableEq, Repr, Inhabited

/-- The states of a launch (R321). -/
inductive LStage
  | gated
  | checked
  | running
  | ended
  deriving DecidableEq, Repr, Inhabited

/-- A quiescence sample (R333). -/
structure Sample where
  idle : Bool
  empty : Bool
  sent : Nat
  recv : Nat
  deriving DecidableEq, Repr, Inhabited

/-- A launch that has been read (R311 to R334). -/
structure Launch where
  fn : Nat
  queue : Nat
  seq : BitVec 48
  record : List Byte
  /-- the kernel header word, once read (R20) -/
  header : DWord
  /-- the placement table, as read when the launch was checked (R317) -/
  places : List (List Byte)
  stage : LStage
  priv : Bool
  since : Nat
  pri : Nat
  nextTeam : Nat
  ndone : Nat
  nflt : Nat
  nrec : Nat
  dqleft : Nat
  /-- the status of a launch that is to end before its teams are all placed, or 0 (R354, R367, R386) -/
  refused : Nat
  quiescent : Bool
  sent : FMap Nat
  recv : FMap Nat
  samples : Tab Sample
  last : Option Sample
  kept : FMap DWord
  /-- dependence sectors to be read again after a write (R321) -/
  recheck : Bool
  token : Option Nat
  deriving DecidableEq, Repr, Inhabited

/-- A launch queue's registers (R319), and the stall it waits on. -/
structure LQ where
  base : DWord
  en : Bool
  log : Nat
  tail : Word
  head : Word
  badt : Bool
  rdf : Bool
  stalled : Option Nat
  deriving DecidableEq, Repr, Inhabited

def LQ.reset : LQ := ⟨0, false, 0, 0, 0, false, false, none⟩

/-! ## Die, function and package registers -/

/-- A last-level cache line (R295). -/
structure Line where
  way : Nat
  valid : BitVec 8
  dirty : BitVec 8
  stamp : Nat
  deriving DecidableEq, Repr, Inhabited

/-- A cached entry of a function's virtual-device table (R398). -/
structure Vdn where
  fn : Nat
  vdn : Nat
  entry : Nat
  deriving DecidableEq, Repr, Inhabited

/-- One die. -/
structure Die where
  frSeq : BitVec 48
  laSeq : BitVec 48
  mdSeq : BitVec 48
  tlb : List Xlat
  /-- occupied slot-cycles of each function (R323, R373), and the queue served last -/
  slotCycles : FMap Nat
  lastQueue : Nat
  /-- prefetch walks in flight: cluster, function and virtual address (R352, R353) -/
  walks : List (Nat × Nat × Nat)
  ce : Word
  ue : BitVec 16
  vdns : List Vdn
  smEntry : DWord
  smArg : DWord
  smRing : DWord
  smStat : DWord
  /-- records written by the die's system programs -/
  smCount : Nat
  deriving DecidableEq, Repr, Inhabited

def Die.reset : Die :=
  { frSeq := 0, laSeq := 0, mdSeq := 0, tlb := [], slotCycles := [], lastQueue := 0, walks := [], ce := 0, ue := 0, vdns := [], smEntry := 0,
    smArg := 0, smRing := 0, smStat := 0, smCount := 0 }

/-- How far a stop, restore, commit or abort of a function has come (R380 to R386). -/
inductive Mig
  | none
  | stopping
  | saving
  | stopped
  | committing
  | aborting
  | restoring
  /-- the save area has been loaded, and its launches and teams are being brought back (R384) -/
  | placing
  deriving DecidableEq, Repr, Inhabited

/-- The registers of one function (R319, R360, R370, R398 to R400, R406, R409, R412). -/
structure Fn where
  en : Bool
  rst : Bool
  /-- 0 idle, 1 active, 2 stopped, 3 context-lost -/
  state : BitVec 2
  err : Bool
  wgt : Byte
  ways : BitVec 16
  clu0 : DWord
  clu1 : DWord
  save : DWord
  savesz : Word
  ctl : BitVec 4
  qcyc : Word
  qdone : Bool
  sdone : Bool
  aborted : Bool
  qlate : Bool
  sfault : Bool
  mig : Mig
  migSince : Nat
  /-- the token of the save-area stall that a save or restore waits for, and when the first of this save began -/
  migToken : Option Nat
  /-- a function-level reset is pending or running (R367) -/
  resetAsked : Bool
  s1root : DWord
  s2root : DWord
  vdnbase : DWord
  fmroot : DWord
  fmacl : DWord
  fwd : DWord
  fwdSince : Nat
  /-- the function's old home is here: it has been committed away (R413) -/
  moved : Bool
  /-- the forwarding window that its COMMIT opened is running (R406) -/
  fwdOn : Bool
  rctx : DWord
  ferr : DWord
  vdninv : DWord
  deriving DecidableEq, Repr, Inhabited

/-- A virtual function at reset (R370). -/
def Fn.reset : Fn :=
  { en := false, rst := false, state := 0, err := false, wgt := 1, ways := 0, clu0 := 0, clu1 := 0, save := 0,
    savesz := 0, ctl := 0, qcyc := 0, qdone := false, sdone := false, aborted := false, qlate := false,
    sfault := false, mig := .none, migSince := 0, migToken := none, resetAsked := false, s1root := 0, s2root := 0,
    vdnbase := 0, fmroot := 0, fmacl := 0, fwd := 0, fwdSince := 0, moved := false, fwdOn := false, rctx := 0, ferr := 0, vdninv := 0 }

/-- The physical function at reset (R370). -/
def Fn.physical : Fn :=
  { Fn.reset with en := true, state := 1, ways := 0xFFFF#16, clu0 := BitVec.allOnes 64, clu1 := BitVec.allOnes 64 }

/-- An event for the hypervisor ring (R356). -/
structure HvEvent where
  type : Nat
  fn : Nat
  addr : DWord
  time : Nat
  token : Nat
  info : Nat
  deriving DecidableEq, Repr, Inhabited

/-- Who waits for an answer (R356). -/
inductive Waiter
  | thread (team tix : Nat)
  | program (uid : Nat)
  | lease (launch : Nat)
  | queue (fn q : Nat)
  | gate (launch : Nat)
  | hcall (team tix : Nat)
  | save (fn : Nat)
  | teamSave (team : Nat)
  | fabric (pkt : Nat)
  /-- the team's buffered stores, one of which translates again and misses stage 2 (R357) -/
  | drain (team : Nat)
  /-- a request that translates again and misses stage 2 (R357) -/
  | req (req : Nat)
  /-- an area access (R417): launch, the write's virtual address and bytes (empty for a read); `team` for an access whose
  failure ends a team, 0 for none; `lq` for one whose failure sets RDF -/
  | area (launch : Nat) (va : DWord) (bytes : List Byte) (team : Nat) (lq : Bool) (sig : Bool)
  /-- a fill, or a poisoning, of a register that stands in a phase record (R171): team, TIX, register, value, tags -/
  | fill (team tix v : Nat) (x : RegVal) (k : TagKind)
  /-- the completion record of a program that has ended (R220), at an address -/
  | record (prog : Nat) (va : DWord)
  deriving DecidableEq, Repr, Inhabited

/-- A pending wait: when it began and the refused or resolved answer once given. -/
structure Wait where
  who : Waiter
  since : Nat
  va : DWord
  /-- TYPE of the event -/
  type : Nat
  deriving DecidableEq, Repr, Inhabited

/-- Package registers (R344, R346, R356, R360, R374, R365). -/
structure Pkg where
  hash : FMap DWord
  hashP : DWord
  inForce : FMap DWord
  inForceP : DWord
  /-- the masks that the APPLY under way has checked -/
  checked : FMap DWord
  checkedP : DWord
  apply : Bool
  hashErr : Bool
  pcsel : BitVec 4
  pccnt : FMap (BitVec 48)
  /-- pinned groups -/
  pins : FMap Bool
  /-- GROUP, and the group of the mode change under way -/
  pinGroup : BitVec 17
  pinTarget : BitVec 17
  pinMode : Bool
  pinErr : Bool
  pinGo : Bool
  fnsel : BitVec 6
  hvrBase : DWord
  hvrEn : Bool
  hvrLog : Nat
  hvrTail : Word
  hvrHead : Word
  hvEvents : List HvEvent
  hvSeq : BitVec 48
  /-- PK_HVANS.VALUE as last written -/
  hvValue : Word
  waits : Tab Wait
  tokens : Nat
  /-- pages taken from the clean pool, and pages waiting for scrub, by 2 MiB page number -/
  taken : FMap Bool
  queued : List Nat
  freeErr : Bool
  /-- reads of PK_SCRALLOC that are held (R375) -/
  allocHeld : Nat
  vfEnable : Bool
  /-- the bytes that the last read over the Helhild Link returned; none while a read of PK_SCRALLOC is held -/
  readback : List Byte
  deriving DecidableEq, Repr, Inhabited

def Pkg.reset : Pkg :=
  { hash := (List.range 5).map fun i => (i, BitVec.ofNat 64 (0x00100100 * 2 ^ i)), hashP := 0x02080000,
    inForce := (List.range 5).map fun i => (i, BitVec.ofNat 64 (0x00100100 * 2 ^ i)), inForceP := 0x02080000,
    checked := [], checkedP := 0, apply := false, hashErr := false, pcsel := 0, pccnt := [], pins := [], pinGroup := 0, pinTarget := 0, pinMode := false,
    pinErr := false, pinGo := false, fnsel := 0, hvrBase := 0, hvrEn := false, hvrLog := 7, hvrTail := 0, hvrHead := 0,
    hvEvents := [], hvSeq := 0, hvValue := 0, waits := [], tokens := 0, taken := [], queued := [], freeErr := false,
    allocHeld := 0, vfEnable := false, readback := [] }

/-! ## Ochre (file 20) -/

/-- A log entry (R390); `data` is its 16 DATA bytes. -/
structure LogEntry where
  seq : Nat
  cls : Nat
  src : Nat
  time : Nat
  data : Nat
  deriving DecidableEq, Repr, Inhabited

/-- Ochre's registers and memory (R387 to R393). -/
structure Ochre where
  /-- power is on -/
  on : Bool
  stage : Nat
  bfail : Bool
  /-- clusters that failed self-test (R387) -/
  failed : BitVec 128
  /-- the image that runs, and the one stored for the next power-good (PEND); none stands for the image as manufactured -/
  image : Option (List Byte)
  nextImage : Option (List Byte)
  /-- the stored image verifies -/
  intact : Bool
  logBase : Nat
  logLog : Nat
  logSeq : Nat
  lost : Word
  held : List LogEntry
  upd : DWord
  updLen : DWord
  updBusy : Bool
  updErr : Bool
  updResult : Nat
  att : DWord
  attBusy : Bool
  attErr : Bool
  pcap : Nat
  /-- TEMP under key 64 × die + point -/
  sens : FMap (BitVec 16)
  rail : FMap DWord
  skipped : FMap (BitVec 48)
  deriving DecidableEq, Repr, Inhabited

/-! ## Fabric (file 21) -/

/-- What leaves by a scale-up port: a packet, or the answer to an inbound one. -/
inductive Flight
  | packet (p : Packet)
  | answer (p : Packet) (code : Answer) (data : List Byte)
  deriving DecidableEq, Repr

/-- The virtual channels of a port (R401). -/
inductive Channel
  | request
  | answer
  | forward
  deriving DecidableEq, Repr, Inhabited

/-- A scale-up port (R395 to R397, R401). -/
structure Port where
  /-- 0 down, 1 train, 2 up, 3 swap, 4 spared, 5 drain -/
  state : Nat
  spared : Nat
  replay : Nat
  swaps : Nat
  /-- the lane proposed in state 3, and since when -/
  weak : Nat
  timer : Nat
  /-- per lane, of the last sample: bit 0 error rate, bit 1 eye margin; bit 2: the lane is weak -/
  bad : FMap Nat
  /-- what waits to be carried, oldest first, by virtual channel -/
  queue : List (Channel × Flight)
  deriving DecidableEq, Repr, Inhabited

def Port.reset : Port := ⟨0, 0xF, 0, 0, 0, 0, [], []⟩

/-- An Ethernet queue pair (R410, R411). -/
structure Eq where
  tx : DWord
  rx : DWord
  cfg : DWord
  drop : DWord
  txtail : Word
  txhead : Word
  rxtail : Word
  rxhead : Word
  deriving DecidableEq, Repr, Inhabited

def Eq.reset : Eq := ⟨0, 0, 0, 0, 0, 0, 0, 0⟩

/-- The packet of a peer access of this package that has no answer yet (R401, R402, R406, R407). -/
structure Sent where
  pkt : Packet
  /-- the virtual device number it was addressed by, and the die that looked it up -/
  vdn : Nat
  die : Nat
  /-- packages at which it occupies a receive slot -/
  targets : List Nat
  /-- it has been sent; otherwise it waits for a receive slot -/
  sent : Bool
  since : Nat
  last : Nat
  tries : Nat
  /-- who has still to answer, as package × 64 + function, and the worst answer so far -/
  silent : List Nat
  worst : Answer
  /-- its access has ended with TIMEOUT; it still holds the receive slots whose answers have not come (R401) -/
  lapsed : Bool
  /-- when it was answered MOVED by a target that its entry still names -/
  movedAt : Option Nat
  deriving DecidableEq, Repr, Inhabited

/-- An inbound packet held at this package (R382, R400). -/
structure Inbound where
  pkt : Packet
  token : Option Nat
  since : Nat
  deriving DecidableEq, Repr, Inhabited

/-- An identity that this package has performed, with its answer, and the result of a read or of an atomic (R402, R403). -/
structure Performed where
  srcPkg : Nat
  srcFn : Nat
  idPkg : Nat
  cls : PktClass
  seq : Nat
  answer : Answer
  result : List Byte
  since : Nat
  /-- the function that performed it: each replica of a multicast has its own (R407) -/
  dstFn : Nat
  deriving DecidableEq, Repr, Inhabited

/-- A fabric reduction in progress (R408, R409). -/
structure Fxr where
  prog : Nat
  fn : Nat
  group : Nat
  epoch : Nat
  op : FxOp
  ty : FxTy
  /-- the elements that the program contributes -/
  elems : List Nat
  /-- the result, once it has been computed for the group and epoch -/
  result : Option (List Nat)
  done : Bool
  /-- the function whose reduction context performs it; none where the participants do (R409) -/
  context : Option Nat
  /-- the members of the group when it started, in ascending VDN: VDN, package and function (R409) -/
  members : List (Nat × Nat × Nat)
  deriving DecidableEq, Repr, Inhabited

/-- Elements that a participant on another package has sent for a reduction (R409). -/
structure FxPiece where
  srcPkg : Nat
  srcFn : Nat
  dstFn : Nat
  group : Nat
  epoch : Nat
  op : FxOp
  ty : FxTy
  n : Nat
  first : Nat
  elems : List Nat
  /-- the members of the group when the reduction started (R409) -/
  members : List (Nat × Nat × Nat)
  deriving DecidableEq, Repr, Inhabited

/-- Fabric state. -/
structure Fabric where
  ports : FMap Port
  eqs : FMap Eq
  mcw : DWord
  mcList : DWord
  mcPend : Bool
  mcGroups : Tab (List Nat)
  seqs : FMap Nat
  sent : Tab Sent
  inbound : Tab Inbound
  performed : List Performed
  /-- the port that the packets of a source function, target and class leave by (R395) -/
  flows : FMap Nat
  /-- what found no port up, oldest first -/
  waiting : List (Channel × Flight)
  /-- what has left by the scale-up ports, oldest first: packets, and answers to inbound packets, each with its port -/
  packetsOut : List (Nat × Packet)
  answersOut : List (Nat × Packet × Answer × List Byte)
  /-- frames sent by each Ethernet port, oldest first -/
  frames : Tab (List (List Byte))
  fxrs : List Fxr
  pieces : List FxPiece
  deriving DecidableEq, Repr, Inhabited

/-! ## The whole machine -/

/-- Whose turn it is: the order of the agents, and what the physical world does, as plain data. -/
inductive Turn
  /-- a row stream of a core issues its next word for its next lane -/
  | issue (core stream : Nat)
  /-- a Mordant program executes its next instruction -/
  | program (uid : Nat)
  | event (i : Instr)
  /-- cycles pass -/
  | tick (n : Nat)
  | dropL1 (core sector : Nat)
  | dropConst (core sector : Nat)
  | dropInstr (core word : Nat)
  | dropMordant (cluster key : Nat)
  | dropLine (line : Nat)
  | dropTlb (die n : Nat)
  /-- a scale-up port carries the oldest packet or answer of a virtual channel, which holds its credits (R401) -/
  | carry (port : Nat) (ch : Channel)
  /-- a soft error in a sector: corrected or not (R299) -/
  | eccError (sector : Nat) (uncorrectable : Bool)
  deriving DecidableEq, Repr, Inhabited

/-- The state of the G4. -/
structure State where
  now : Nat
  cur : Agent
  agenda : List Turn
  uid : Nat
  freeCtr : Nat
  mem : FMap Byte
  dirty : FMap Bool
  poison : FMap Bool
  llc : Tab Line
  /-- threads under the key team × 1024 + TIX -/
  threads : Tab Thread
  teams : Tab Team
  launches : Tab Launch
  programs : Tab Program
  reqs : Tab Req
  cores : FMap Core
  clusters : FMap Cluster
  dies : FMap Die
  queues : FMap LQ
  fns : FMap Fn
  pkg : Pkg
  och : Ochre
  fab : Fabric
  deriving DecidableEq, Repr, Inhabited

/-- Why the model itself stops. Every fault the spec describes is a next state, not one of these. -/
inductive Fault
  /-- raised by a thread instruction executed while no thread is current; safe: the hardware has no such step -/
  | noThread
  /-- raised by a Mordant instruction executed while no program is current; safe: the hardware has no such step -/
  | noProgram
  /-- raised by HOST_ACCESS at a physical address that R341 says does not exist; safe: the spec gives no answer -/
  | noSuchAddress
  deriving DecidableEq, Repr, Inhabited

/-- Why an instruction has no meaning. -/
inductive Refusal
  /-- raised by the dispatcher for an instruction that has no meaning yet; safe -/
  | notModelled (mnemonic : String)
  deriving DecidableEq, Repr, Inhabited

/-- The functions at reset: the physical function active, the others idle (R370). -/
def Fn.default (n : Nat) : Fn := if n = 0 then Fn.physical else Fn.reset

def Ochre.reset : Ochre :=
  { on := true, stage := 0, bfail := false, failed := 0, image := none, nextImage := none, intact := true, logBase := 0,
    logLog := 6, logSeq := 0, lost := 0, held := [], upd := 0, updLen := 0, updBusy := false, updErr := false, updResult := 0,
    att := 0, attBusy := false, attErr := false, pcap := 2700, sens := [], rail := [], skipped := [] }

def Fabric.reset : Fabric :=
  { ports := [], eqs := [], mcw := 0, mcList := 0, mcPend := false, mcGroups := [], seqs := [], sent := [],
    inbound := [], performed := [], flows := [], waiting := [], packetsOut := [], answersOut := [], frames := [], fxrs := [],
    pieces := [] }

/-- The machine at power-good (R387, STAGE 0): every register at its reset value, nothing resident. -/
def State.reset : State :=
  { now := 0, cur := .none, agenda := [], uid := 1, freeCtr := 0, mem := [], dirty := [], poison := [], llc := [],
    threads := [], teams := [], launches := [], programs := [], reqs := [], cores := [], clusters := [], dies := [],
    queues := [], fns := [], pkg := Pkg.reset, och := Ochre.reset, fab := Fabric.reset }

end Sys2Proof.Machine
end

