-- ==== Sys2Proof/Machine/Mem.lean ====
section
/-! DEFINITION. Physical memory: the address map, HBM4 stacks and counters, the last-level cache, bytes, dirty bits and
poison marks. -/

namespace Sys2Proof.Machine

/-! ## Access to the parts of the state -/

def tkey (team tix : Nat) : Nat := team * 1024 + tix

def State.thread? (s : State) (team tix : Nat) : Option Thread := Tab.find s.threads (tkey team tix)

def State.setThread (s : State) (t : Thread) : State :=
  { s with threads := Tab.put s.threads (tkey t.team t.tix) t }

def State.updThread (s : State) (team tix : Nat) (f : Thread → Thread) : State :=
  { s with threads := Tab.upd s.threads (tkey team tix) f }

def State.team? (s : State) (u : Nat) : Option Team := Tab.find s.teams u

def State.setTeam (s : State) (u : Nat) (m : Team) : State := { s with teams := Tab.put s.teams u m }

def State.updTeam (s : State) (u : Nat) (f : Team → Team) : State := { s with teams := Tab.upd s.teams u f }

def State.launch? (s : State) (u : Nat) : Option Launch := Tab.find s.launches u

def State.updLaunch (s : State) (u : Nat) (f : Launch → Launch) : State :=
  { s with launches := Tab.upd s.launches u f }

def State.program? (s : State) (u : Nat) : Option Program := Tab.find s.programs u

def State.updProgram (s : State) (u : Nat) (f : Program → Program) : State :=
  { s with programs := Tab.upd s.programs u f }

def State.updReq (s : State) (u : Nat) (f : Req → Req) : State := { s with reqs := Tab.upd s.reqs u f }

def State.core (s : State) (c : Nat) : Core := FMap.get Core.empty s.cores c

def State.setCore (s : State) (c : Nat) (x : Core) : State := { s with cores := FMap.set Core.empty s.cores c x }

def State.cluster (s : State) (c : Nat) : Cluster := FMap.get Cluster.empty s.clusters c

def State.setCluster (s : State) (c : Nat) (x : Cluster) : State :=
  { s with clusters := FMap.set Cluster.empty s.clusters c x }

def State.die (s : State) (d : Nat) : Die := FMap.get Die.reset s.dies d

def State.setDie (s : State) (d : Nat) (x : Die) : State := { s with dies := FMap.set Die.reset s.dies d x }

def State.fn (s : State) (f : Nat) : Fn := FMap.get (Fn.default f) s.fns f

def State.setFn (s : State) (f : Nat) (x : Fn) : State := { s with fns := FMap.set (Fn.default f) s.fns f x }

def State.lq (s : State) (f q : Nat) : LQ := FMap.get LQ.reset s.queues (f * 32 + q)

def State.setLq (s : State) (f q : Nat) (x : LQ) : State :=
  { s with queues := FMap.set LQ.reset s.queues (f * 32 + q) x }

/-- A fresh name for an object of the model. -/
def State.fresh (s : State) : Nat × State := (s.uid, { s with uid := s.uid + 1 })

/-- The cluster (0 to 127) and the die (0 to 3) of a core (R2). -/
def clusterOf (core : Nat) : Nat := core / 4
def dieOf (core : Nat) : Nat := core / 128

/-- The control page but for Ochre's part, the notify pages and virtual functions are open in stage 2 (R387). -/
def booted (s : State) : Bool := s.och.stage == 2

/-- What a write over the Helhild Link makes of a state, where stage 2 is reached; before, it is ignored. -/
def inFull (s s' : State) : State := if booted s then s' else s

/-! ## The physical address map (R341) -/

/-- What a physical address names. -/
inductive Phys
  | hbm (die : Nat)
  | host
  | notify (fn q off : Nat)
  | nowhere
  deriving DecidableEq, Repr

/-- Bytes of HBM4 per die: 108 GiB (R341). -/
def dieBytes : Nat := 0x1B00000000

def physOf (pa : Nat) : Phys :=
  if pa < 0x8000000000 then
    if pa % 0x2000000000 < dieBytes then .hbm (pa / 0x2000000000) else .nowhere
  else if 0x1000000000000 ≤ pa ∧ pa < 0x2000000000000 then .host
  else if 0x2000000000000 ≤ pa ∧ pa < 0x2000000000000 + 64 * 0x20000 then
    let o := pa - 0x2000000000000
    .notify (o / 0x20000) (o / 0x1000 % 32) (o % 0x1000)
  else .nowhere

def isHbm (pa : Nat) : Bool := match physOf pa with | .hbm _ => true | _ => false
def isHost (pa : Nat) : Bool := match physOf pa with | .host => true | _ => false

/-- The pin-map group of an HBM4 address (R342, R344). -/
def groupOf (pa : Nat) : Nat := pa / 0x2000000000 * 18432 + pa % 0x2000000000 / (6 * 2 ^ 20)

/-- The stack of the package and the stack address of an HBM4 address (R342). -/
def stackOf (pa : Nat) (pin : Bool) : Nat × Nat :=
  let o := pa % 0x2000000000
  let g := o / (6 * 2 ^ 20)
  let k := o % (6 * 2 ^ 20) / 256
  let d := pa / 0x2000000000
  if pin then (3 * d + k / 8192, g * 2 ^ 21 + k % 8192 * 256 + o % 256)
  else (3 * d + k % 3, g * 2 ^ 21 + k / 3 * 256 + o % 256)

/-- Parity of the bits of a 64-bit value (R345). -/
def parity (x : DWord) : Bool := (List.range 64).foldl (fun p i => xor p (x.getLsbD i)) false

def Pkg.maskInForce (p : Pkg) (i : Nat) : DWord := FMap.get 0 p.inForce i

/-- The counter 2c + p of an HBM4 line at stack address `a` (R345, R346). -/
def counterOf (p : Pkg) (a : Nat) : Nat :=
  let x := BitVec.ofNat 64 a
  let c := (List.range 5).foldl (fun n i => if parity (x &&& p.maskInForce i) then n + 2 ^ i else n) 0
  2 * c + (if parity (x &&& p.inForceP) then 1 else 0)

/-- Count `n` accesses of the HBM4 controller to the line of `pa` (R348). -/
def countAccess (s : State) (pa n : Nat) : State :=
  let (k, a) := stackOf pa (FMap.get false s.pkg.pins (groupOf pa))
  if k = s.pkg.pcsel.toNat then
    let i := counterOf s.pkg a
    let pc := FMap.set 0 s.pkg.pccnt i (FMap.get 0 s.pkg.pccnt i + BitVec.ofNat 48 n)
    { s with pkg := { s.pkg with pccnt := pc } }
  else s

/-! ## Pages that wait for a scrub, and the bitmap range (R375, R378) -/

/-- An HBM4 address waits to be zeroed: its page for its scrub, its group for the end of a mode change, or all of HBM4 for the end
of an APPLY (R344, R347, R375). Whoever reaches it waits, and finds zeros. -/
def pageQueued (s : State) (pa : Nat) : Bool :=
  isHbm pa && (s.pkg.queued.contains (pa / 2 ^ 21) || (s.pkg.pinGo && groupOf pa == s.pkg.pinTarget.toNat) || s.pkg.apply)

/-- The range of a die's region that holds the dirty bitmap. -/
def inBitmap (pa : Nat) : Bool := isHbm pa && decide (0x1AFFC00000 ≤ pa % 0x2000000000)

/-! ## The last-level cache (R295 to R297, R372) -/

/-- The set of a line: die, slice and set (R296). -/
def lineSet (l : Nat) : Nat × Nat × Nat := (l * 256 / 0x2000000000, l % 40, l / 40 % 1024)

/-- The sectors of line `l` that `n` bytes at `pa` touch, and those that they cover whole. -/
def sectorsTouched (l pa n : Nat) : BitVec 8 :=
  (List.range 8).foldl (fun b i =>
    let a := l * 256 + i * 32
    if pa < a + 32 ∧ a < pa + n then b ||| BitVec.ofNat 8 (2 ^ i) else b) 0
def sectorsCovered (l pa n : Nat) : BitVec 8 :=
  (List.range 8).foldl (fun b i =>
    let a := l * 256 + i * 32
    if pa ≤ a ∧ a + 32 ≤ pa + n then b ||| BitVec.ofNat 8 (2 ^ i) else b) 0

/-- Write back and drop a line (R297). -/
def evictLine (s : State) (l : Nat) : State :=
  match Tab.find s.llc l with
  | none => s
  | some x =>
    let s := { s with llc := Tab.del s.llc l }
    if x.dirty = 0 then s else countAccess s (l * 256) 1

/-- The line to replace among the allowed ways of a set whose ways are all taken: the least recently used (R297). -/
def lruLine : List (Nat × Line) → Option (Nat × Line)
  | [] => none
  | x :: xs => match lruLine xs with
    | none => some x
    | some y => if y.2.stamp < x.2.stamp then some y else some x

/-- Allocate line `l` in a way that `ways` allows, evicting the least recently used where none is free. -/
def allocLine (s : State) (ways : BitVec 16) (l : Nat) : State :=
  let same := s.llc.filter fun p => lineSet p.1 == lineSet l
  let allowed := (List.range 16).filter fun w => ways.getLsbD w
  match allowed.find? fun w => !(same.any fun p => p.2.way == w) with
  | some w => { s with llc := Tab.put s.llc l ⟨w, 0, 0, s.uid⟩ }
  | none =>
    match lruLine (same.filter fun p => ways.getLsbD p.2.way) with
    | none => s
    | some (k, x) =>
      let s := evictLine s k
      { s with llc := Tab.put s.llc l ⟨x.way, 0, 0, s.uid⟩ }

/-- The cache's part in a read of `n` bytes of one line (R297, R348, R372). -/
def llcReadLine (s : State) (ways : BitVec 16) (l pa n : Nat) : State :=
  let want := sectorsTouched l pa n
  let s := { s with uid := s.uid + 1 }
  match Tab.find s.llc l with
  | some x =>
    let s' := { s with llc := Tab.put s.llc l { x with stamp := s.uid } }
    if want &&& ~~~x.valid = 0 then s'
    else
      let s' := countAccess s' (l * 256) 1
      if ways = 0 then s' else { s' with llc := Tab.put s.llc l { x with valid := x.valid ||| want, stamp := s.uid } }
  | none =>
    let s := countAccess s (l * 256) 1
    if ways = 0 then s
    else
      let s := allocLine s ways l
      { s with llc := Tab.upd s.llc l fun x => { x with valid := want } }

/-- The cache's part in a write of `n` bytes of one line (R297, R348, R372). -/
def llcWriteLine (s : State) (ways : BitVec 16) (l pa n : Nat) : State :=
  let want := sectorsTouched l pa n
  let partly := want &&& ~~~(sectorsCovered l pa n)
  let s := { s with uid := s.uid + 1 }
  match Tab.find s.llc l with
  | some x =>
    let s := if partly &&& ~~~x.valid = 0 then s else countAccess s (l * 256) 1
    let x := { x with valid := x.valid ||| want, dirty := x.dirty ||| want, stamp := s.uid }
    { s with llc := Tab.put s.llc l x }
  | none =>
    if ways = 0 then countAccess s (l * 256) (if partly = 0 then 1 else 2)
    else
      let s := if partly = 0 then s else countAccess s (l * 256) 1
      let s := allocLine s ways l
      { s with llc := Tab.upd s.llc l fun x => { x with valid := want, dirty := want } }

/-- The lines that `n` bytes at `pa` touch. -/
def linesOf (pa n : Nat) : List Nat :=
  (List.range ((pa + n + 255) / 256 - pa / 256)).map fun i => pa / 256 + i

def llcRead (s : State) (fn pa n : Nat) : State :=
  if isHbm pa then (linesOf pa n).foldl (fun s l => llcReadLine s (s.fn fn).ways l pa n) s else s

def llcWrite (s : State) (fn pa n : Nat) : State :=
  if isHbm pa then (linesOf pa n).foldl (fun s l => llcWriteLine s (s.fn fn).ways l pa n) s else s

/-! ## Bytes -/

/-- The canonical form of memory: addresses rise strictly and no listed byte is zero, which is what an unlisted one
reads as. -/
def Memory.wf (m : FMap Byte) : Bool := FMap.wf 0 m

/-- What a read of a physical address returns. -/
def readByte (s : State) (pa : Nat) : Byte := if pageQueued s pa || inBitmap pa then 0 else FMap.get 0 s.mem pa

def readBytes (s : State) (pa n : Nat) : List Byte := (List.range n).map fun i => readByte s (pa + i)

/-- Store bytes from `pa` on. -/
def putBytes (m : FMap Byte) (pa : Nat) : List Byte → FMap Byte
  | [] => m
  | b :: bs => putBytes (FMap.set 0 m pa b) (pa + 1) bs

/-- The entries of consecutive bytes from `pa` on. -/
def runEntries : Nat → List Byte → FMap Byte
  | _, [] => []
  | pa, b :: bs => if b = 0 then runEntries (pa + 1) bs else (pa, b) :: runEntries (pa + 1) bs

/-- Put a run of bytes in place of what is there. -/
def replaceRun (m : FMap Byte) (pa : Nat) (bs : List Byte) : FMap Byte :=
  m.filter (fun p => decide (p.1 < pa)) ++ runEntries pa bs ++ m.filter (fun p => decide (pa + bs.length ≤ p.1))

/-- The granules and the sectors that `n` bytes at `pa` touch. -/
def granulesOf (pa n : Nat) : List Nat :=
  if n = 0 then [] else (List.range ((pa + n - 1) / 4096 - pa / 4096 + 1)).map fun i => pa / 4096 + i
def sectorsOf (pa n : Nat) : List Nat :=
  if n = 0 then [] else (List.range ((pa + n - 1) / 32 - pa / 32 + 1)).map fun i => pa / 32 + i

/-- Whether a read of `n` bytes at `pa` meets an uncorrectable error (R299). -/
def poisonedAt (s : State) (pa n : Nat) : Bool :=
  !pageQueued s pa && !inBitmap pa && (sectorsOf pa n).any fun k => FMap.get false s.poison k

/-- Write zero to every byte of a range, with no dirty bit set (R344, R347, R375). -/
def zeroRange (m : FMap Byte) (lo hi : Nat) : FMap Byte := m.filter fun p => !(decide (lo ≤ p.1) && decide (p.1 < hi))

/-- Drop the keys from `lo` to below `hi`. -/
def dropKeys {α : Type} (m : List (Nat × α)) (lo hi : Nat) : List (Nat × α) :=
  m.filter fun p => !(decide (lo ≤ p.1) && decide (p.1 < hi))

/-- Drop what the caches of the package hold of the physical range [lo, hi), without write-back. -/
def dropCaches (s : State) (lo hi : Nat) : State :=
  { s with
    llc := dropKeys s.llc (lo / 256) (hi / 256)
    cores := s.cores.map fun p =>
      (p.1, { p.2 with
        l1 := dropKeys p.2.l1 (lo / 32) (hi / 32)
        cc := dropKeys p.2.cc (lo / 32) (hi / 32)
        ic := dropKeys p.2.ic (lo / 8) (hi / 8) })
    clusters := s.clusters.map fun p => (p.1, { p.2 with mic := dropKeys p.2.mic (lo / 8 * 4) (hi / 8 * 4) }) }

/-- Zero a range with its poison marks and dirty bits, and drop it from the caches. -/
def wipe (s : State) (lo hi : Nat) : State :=
  let s := dropCaches s lo hi
  { s with
    mem := zeroRange s.mem lo hi
    poison := dropKeys s.poison (lo / 32) (hi / 32)
    dirty := dropKeys s.dirty (lo / 4096) (hi / 4096) }

/-- Scrub one 2 MiB page: 8,192 lines are written, each counted once (R348, R375). -/
def scrubPage (s : State) (page : Nat) : State :=
  let lo := page * 2 ^ 21
  let s := wipe s lo (lo + 2 ^ 21)
  let s := (List.range 8192).foldl (fun s i => countAccess s (lo + 256 * i) 1) s
  { s with pkg := { s.pkg with queued := s.pkg.queued.filter (· != page) } }

/-- First byte of a package group. -/
def groupBase (g : Nat) : Nat := g / 18432 * 0x2000000000 + g % 18432 * (6 * 2 ^ 20)

/-- The end of a mode change (R344): the group leaves the caches, takes its mode and is zeroed. -/
def finishPin (s : State) : State :=
  let p := s.pkg
  let g := p.pinTarget.toNat
  let s := wipe s (groupBase g) (groupBase g + 6 * 2 ^ 20)
  { s with pkg := { p with pins := FMap.set false p.pins g p.pinMode, pinGo := false } }

/-- Every byte of HBM4 is zero, clean and not poisoned; every cache is empty. -/
def wipeAll (s : State) : State :=
  let s := [0, 1, 2, 3].foldl (fun s d => wipe s (d * 0x2000000000) (d * 0x2000000000 + dieBytes)) s
  { s with
    llc := []
    cores := s.cores.map fun p => (p.1, { p.2 with l1 := [], cc := [], ic := [] })
    clusters := s.clusters.map fun p => (p.1, { p.2 with mic := [] }) }

/-- The end of an APPLY (R347): the masks that it has checked are in force, and HBM4 is zeroed. -/
def finishApply (s : State) : State :=
  let p := s.pkg
  { wipeAll s with pkg := { p with inForce := p.checked, inForceP := p.checkedP, apply := false } }

/-- The scrubs that an access to a queued page of HBM4 waits for: of that page, and of those before it. -/
def scrubTo (s : State) (pa : Nat) : State :=
  if s.pkg.queued.contains (pa / 2 ^ 21) then
    ((s.pkg.queued.takeWhile (· != pa / 2 ^ 21) ++ [pa / 2 ^ 21]).filter fun k => isHbm (k * 2 ^ 21)).foldl scrubPage s
  else s

/-- An access that reaches an address that waits to be zeroed waits until that is done: that is then done first, in its own step
(DESIGN CHOICE, log 109). -/
def awaitPage (s : State) (pa : Nat) : State :=
  if pageQueued s pa then
    let s := if s.pkg.apply then finishApply s else s
    let s := if s.pkg.pinGo && groupOf pa == s.pkg.pinTarget.toNat then finishPin s else s
    scrubTo s pa
  else s

/-- The first of `n` bytes at `pa` in each 2 MiB page. -/
def pageStarts (pa n : Nat) : List Nat :=
  pa :: (List.range ((pa + n - 1) / 2 ^ 21 - pa / 2 ^ 21)).map fun i => (pa / 2 ^ 21 + i + 1) * 2 ^ 21

/-- An access of `n` bytes waits for every page that it reaches (R344, R347, R375). -/
def awaitRun (s : State) (pa n : Nat) : State := (pageStarts pa n).foldl awaitPage s

/-- Read `n` bytes at their coherence point for an agent of function `fn`. -/
def readMem (s : State) (fn pa n : Nat) : State × List Byte :=
  let s := llcRead (awaitRun s pa n) fn pa n
  (s, readBytes s pa n)

/-- Set the dirty bits of granules; those of the bitmap's own range stay clear (R378). -/
def markDirty (d : FMap Bool) (gs : List Nat) : FMap Bool :=
  gs.foldl (fun d g => if inBitmap (g * 4096) then d else FMap.set false d g true) d

/-- Perform a write at its coherence point: the bytes, the dirty bits of its granules, the poison marks it clears, the
cache line (R297 to R299, R301). Host memory has no dirty bit, no mark and no line. -/
def storeBytes (s : State) (fn pa : Nat) (bs : List Byte) : State :=
  let n := bs.length
  if inBitmap pa then s else
  let s := llcWrite (awaitRun s pa n) fn pa n
  let s := { s with mem := putBytes s.mem pa bs }
  if isHbm pa then
    { s with
      dirty := markDirty s.dirty (granulesOf pa n)
      poison := (sectorsOf pa n).foldl (fun d k =>
        if pa ≤ k * 32 ∧ k * 32 + 32 ≤ pa + n then FMap.set false d k false else d) s.poison }
  else s

/-- Merge the masked bytes `t`, by offset, of the 32-byte sector at `pa` in one write (R175, R297, R348). -/
def storeMasked (s : State) (fn pa : Nat) (t : Tab Byte) : State :=
  match t with
  | [] => s
  | p :: _ =>
    if inBitmap pa then s else
    let s := llcWrite (awaitPage s pa) fn (pa + p.1) (if t.length = 32 then 32 else 1)
    let s := { s with mem := t.foldl (fun m q => FMap.set 0 m (pa + q.1) q.2) s.mem }
    if isHbm pa then
      { s with
        dirty := markDirty s.dirty (granulesOf pa 32)
        poison := if t.length = 32 then FMap.set false s.poison (pa / 32) false else s.poison }
    else s

end Sys2Proof.Machine
end

