-- ==== Sys2Proof/Machine/Xlate.lean ====
section
/-! DEFINITION. Launch records, leases, two-stage translation and the TLBs (files 16 and 18). -/

namespace Sys2Proof.Machine

/-! ## Fields of the launch record (R311 to R318) -/

def sliceNat (r : List Byte) (off n : Nat) : Nat := leNat ((r.drop off).take n)

def Launch.hdraddr (l : Launch) : Nat := sliceNat l.record 0x000 8
def Launch.ctl (l : Launch) : Nat := sliceNat l.record 0x008 4
def Launch.nteam (l : Launch) : Nat := sliceNat l.record 0x00C 4
def Launch.tsize (l : Launch) : Nat := sliceNat l.record 0x010 2
def Launch.scr (l : Launch) : Nat := sliceNat l.record 0x012 2
def Launch.acc (l : Launch) : Nat := sliceNat l.record 0x014 1
def Launch.str (l : Launch) : Nat := sliceNat l.record 0x015 1
def Launch.nph (l : Launch) : Nat := sliceNat l.record 0x016 1
def Launch.frlog (l : Launch) : Nat := sliceNat l.record 0x017 1
def Launch.crlog (l : Launch) : Nat := sliceNat l.record 0x018 1
def Launch.nplace (l : Launch) : Nat := sliceNat l.record 0x019 1
def Launch.dqsize (l : Launch) : Nat := sliceNat l.record 0x01C 4
def Launch.trapvec (l : Launch) : Nat := sliceNat l.record 0x020 8
def Launch.frbase (l : Launch) : Nat := sliceNat l.record 0x028 8
def Launch.crbase (l : Launch) : Nat := sliceNat l.record 0x030 8
def Launch.phbase (l : Launch) : Nat := sliceNat l.record 0x038 8
def Launch.winbase (l : Launch) : Nat := sliceNat l.record 0x040 8
def Launch.dqbase (l : Launch) : Nat := sliceNat l.record 0x048 8
def Launch.lcaddr (l : Launch) : Nat := sliceNat l.record 0x050 8
def Launch.placeaddr (l : Launch) : Nat := sliceNat l.record 0x058 8
def Launch.depAddr (l : Launch) (i : Nat) : Nat := sliceNat l.record (0x060 + 16 * i) 8
def Launch.depTarget (l : Launch) (i : Nat) : Nat := sliceNat l.record (0x068 + 16 * i) 4
def Launch.sigaddr (l : Launch) : Nat := sliceNat l.record 0x090 8
def Launch.argaddr (l : Launch) : Nat := sliceNat l.record 0x098 8
def Launch.bndinit (l : Launch) (i : Nat) : Nat := sliceNat l.record (0x0A0 + 8 * i) 8
def Launch.lvl (l : Launch) (i : Nat) : Nat := sliceNat l.record (0x0E0 + 4 * i) 4
def Launch.ph (l : Launch) (i : Nat) : Nat := sliceNat l.record (0x100 + 8 * i) 8
def Launch.lease (l : Launch) (i : Nat) : Nat := sliceNat l.record (0x180 + 8 * i) 8

/-- Fields of CTL (R312). -/
def Launch.ctlPri (l : Launch) : Nat := l.ctl % 4
def Launch.isOpen (l : Launch) : Bool := l.ctl / 4 % 2 == 1
def Launch.dq (l : Launch) : Bool := l.ctl / 8 % 2 == 1
def Launch.nlvl (l : Launch) : Nat := l.ctl / 16 % 16
def Launch.bndDecl (l : Launch) (i : Nat) : Bool := l.ctl / 2 ^ (8 + i) % 2 == 1
def Launch.bndSign (l : Launch) (i : Nat) : Bool := l.ctl / 2 ^ (16 + i) % 2 == 1
def Launch.ndep (l : Launch) : Nat := l.ctl / 2 ^ 24 % 4

/-- Fields of the kernel header word (R20). -/
def hdrMagic (h : DWord) : Nat := h.toNat / 2 ^ 48
def hdrMajor (h : DWord) : Nat := h.toNat / 2 ^ 40 % 256
def hdrMinor (h : DWord) : Nat := h.toNat / 2 ^ 32 % 256
def hdrNw (h : DWord) : Bool := h.toNat / 2 ^ 31 % 2 == 1
def hdrGw (h : DWord) : Nat := h.toNat / 2 ^ 28 % 8
def hdrNreg (h : DWord) : Nat := h.toNat / 2 ^ 18 % 1024
def hdrNph (h : DWord) : Nat := h.toNat / 2 ^ 14 % 16
def hdrLow (h : DWord) : Nat := h.toNat % 2 ^ 14

/-- Fields of a phase entry (R314). -/
def phNreg (p : Nat) : Nat := p % 1024
def phIdem (p : Nat) : Bool := p / 2 ^ 10 % 2 == 1
def phC1base (p : Nat) : Nat := p / 2 ^ 12 % 1024
def phC1cnt (p : Nat) : Nat := p / 2 ^ 22 % 1024
def phC2base (p : Nat) : Nat := p / 2 ^ 32 % 1024
def phC2cnt (p : Nat) : Nat := p / 2 ^ 42 % 1024

/-- The carry set of a phase entry, ascending. -/
def phCarry (p : Nat) : List Nat :=
  let r1 := (List.range (phC1cnt p)).map fun i => phC1base p + i
  let r2 := (List.range (phC2cnt p)).map fun i => phC2base p + i
  if phC2base p < phC1base p then r2 ++ r1 else r1 ++ r2

/-- The first address, the byte length and the rights code of a lease entry (R315). -/
def leaseBase (e : Nat) : Nat := ((BitVec.ofNat 56 (e % 2 ^ 40 * 65536)).signExtend 64).toNat
def leaseSize (e : Nat) : Nat := e / 2 ^ 40 % 2 ^ 22 * 65536
def leaseRights (e : Nat) : Nat := e / 2 ^ 62 % 4

/-- An address whose bits 63:56 are copies of bit 55 (R125). -/
def canonical (va : DWord) : Bool := (BitVec.ofNat 56 va.toNat).signExtend 64 == va

/-- The lease entry whose range holds all `n` bytes at `va`. -/
def Launch.leaseOf (l : Launch) (va n : Nat) : Option Nat :=
  if !(canonical (BitVec.ofNat 64 va)) then none
  else ((List.range 16).map l.lease).find? fun e =>
    leaseRights e != 0 && decide (leaseBase e ≤ va) && decide (va + n ≤ leaseBase e + leaseSize e)

/-- The window offset of an access of `n` bytes at `va` that lies in the window of team number `num` (R253, R318). -/
def Launch.windowOf (l : Launch) (num va n : Nat) : Option Nat :=
  let b := l.winbase + num * 2 ^ 22
  if l.winbase ≠ 0 ∧ b ≤ va ∧ va + n ≤ b + 2 ^ 22 then some (va - b) else none

/-- Areas of a team (R318). -/
def Launch.phSize (l : Launch) : Nat :=
  let cmax := ((List.range 16).map fun i => (phCarry (l.ph i)).length).foldl Nat.max 0
  (192 + l.tsize * cmax * 8 + 255) / 256 * 256
def Launch.phRecord (l : Launch) (num : Nat) : Nat := l.phbase + num * l.phSize
def Launch.crRing (l : Launch) (num : Nat) : Nat := l.crbase + num * 32 * 2 ^ l.crlog
def Launch.dqArea (l : Launch) (num : Nat) : Nat := l.dqbase + num * l.dqsize

/-! ## Descriptors (R349, R350) -/

/-- A descriptor read at one level of a stage. -/
inductive Desc
  | bad
  | table (next : Nat)
  | leaf (log : Nat) (d : Nat)
  deriving DecidableEq, Repr

/-- Page size of a leaf at a level, in address bits. -/
def leafLog (lv : Nat) : Nat := if lv = 1 then 30 else if lv = 2 then 21 else 16

/-- Index of an address at a level; the level-0 widths of the two stages differ. -/
def levelIndex (top lv a : Nat) : Nat :=
  if lv = 0 then a / 2 ^ 39 % top else if lv = 3 then a / 2 ^ 16 % 32 else a / 2 ^ leafLog lv % 512

/-- A table descriptor's check, the same in both stages. -/
def tableDesc (lv d : Nat) : Desc :=
  let next := d % 2 ^ 52 / 256 * 256
  if lv = 3 ∨ d / 4 % 64 ≠ 0 ∨ d / 2 ^ 52 ≠ 0 then .bad
  else if lv < 2 ∧ next % 4096 ≠ 0 then .bad
  else .table next

def desc1 (lv d : Nat) : Desc :=
  if d % 2 = 0 then .bad
  else if d / 2 % 2 = 1 then tableDesc lv d
  else if lv = 0 ∨ d / 32 % 2 ^ 11 ≠ 0 ∨ d / 2 ^ 52 ≠ 0 then .bad
  else if d / 2 ^ 16 * 2 ^ 16 % 2 ^ leafLog lv ≠ 0 then .bad
  else .leaf (leafLog lv) d

/-- TYPE and output of a stage-2 leaf (R350). -/
def leaf2Type (d : Nat) : Nat := d / 32 % 4
def leaf2Pin (d : Nat) : Bool := d / 128 % 2 == 1
def leaf2Pa (d : Nat) : Nat := d % 2 ^ 52 / 2 ^ 16 * 2 ^ 16
def leaf2Off (d : Nat) : Nat := d % 2 ^ 48 / 2 ^ 16 * 2 ^ 16
def leaf2Vdn (d : Nat) : Nat := d / 2 ^ 48 % 2 ^ 16

/-- The output range of a stage-2 leaf lies where R341 puts its type. -/
def leaf2InRange (log d : Nat) : Bool :=
  let a := leaf2Pa d
  let z := a + 2 ^ log - 1
  match leaf2Type d with
  | 0 => isHbm a && physOf a == physOf z
  | 1 => isHost a && isHost z
  | 3 => decide (0x2000000000000 ≤ a) && decide (z < 0x2000000000000 + 64 * 0x20000)
  | _ => true

/-- PIN equals the mode of every group in which the output lies (R343, R344). -/
def leaf2PinOk (pins : FMap Bool) (log d : Nat) : Bool :=
  if leaf2Type d = 0 then
    let g := groupOf (leaf2Pa d)
    (List.range (groupOf (leaf2Pa d + 2 ^ log - 1) - g + 1)).all fun i =>
      FMap.get false pins (g + i) == leaf2Pin d
  else !(leaf2Pin d)

def desc2 (pins : FMap Bool) (lv d : Nat) : Desc :=
  if d % 2 = 0 then .bad
  else if d / 2 % 2 = 1 then tableDesc lv d
  else if lv = 0 ∨ d / 256 % 256 ≠ 0 then .bad
  else
    let a := if leaf2Type d = 2 then leaf2Off d else leaf2Pa d
    if (leaf2Type d ≠ 2 ∧ d / 2 ^ 52 ≠ 0) ∨ a % 2 ^ leafLog lv ≠ 0 then .bad
    else if leaf2InRange (leafLog lv) d && leaf2PinOk pins (leafLog lv) d then .leaf (leafLog lv) d
    else .bad

/-! ## The walk -/

/-- Read an 8-byte descriptor where memory exists. -/
def readDesc (s : State) (pa : Nat) : Option Nat :=
  if isHbm pa || isHost pa then some (leNat (readBytes s pa 8)) else none

/-- Walk stage 2 from a level's table down. The second part lists the descriptors read. -/
def walk2 (s : State) (ipa : Nat) : List Nat → Nat → List Nat → Option (Nat × Nat) × List Nat
  | [], _, rs => (none, rs)
  | lv :: rest, tbl, rs =>
    let a := tbl + levelIndex 8192 lv ipa * 8
    match readDesc s a with
    | none => (none, rs)
    | some d =>
      match desc2 s.pkg.pins lv d with
      | .bad => (none, rs ++ [a])
      | .table n => walk2 s ipa rest n (rs ++ [a])
      | .leaf log d => (some (log, d), rs ++ [a])

/-- Stage 2 of function `fn` at an intermediate address. -/
@[irreducible] def stage2 (s : State) (fn ipa : Nat) : Option (Nat × Nat) × List Nat :=
  walk2 s ipa [0, 1, 2, 3] ((s.fn fn).s2root.toNat % 2 ^ 52 / 65536 * 65536) []

/-- The output of a stage-2 leaf for one intermediate address. -/
def leaf2Out (log d ipa : Nat) : Out :=
  let o := ipa % 2 ^ log
  match leaf2Type d with
  | 0 => .hbm (leaf2Pa d + o)
  | 1 => .host (leaf2Pa d + o)
  | 2 => .fabric (leaf2Vdn d) (leaf2Off d + o)
  | _ => .notify (leaf2Pa d + o)

/-- What a walk of both stages finds. -/
inductive WalkRes
  /-- page size, stage-1 leaf and stage-2 leaf descriptors, intermediate address -/
  | ok (log d1 d2 ipa log2 : Nat)
  | bad1
  /-- stage 2 misses at an intermediate address; `walk` for a stage-1 table address -/
  | miss2 (ipa : Nat) (walk : Bool)
  deriving DecidableEq, Repr

/-- Walk stage 1, each table address through stage 2 (R349). -/
def walk1 (s : State) (fn va : Nat) : List Nat → Nat → List Nat → WalkRes × List Nat
  | [], _, rs => (.bad1, rs)
  | lv :: rest, tbl, rs =>
    let a := tbl + levelIndex 131072 lv va * 8
    match stage2 s fn a with
    | (none, r2) => (.miss2 a true, rs ++ r2)
    | (some (log, d2), r2) =>
      match leaf2Out log d2 a with
      | .fabric _ _ | .notify _ => (.miss2 a true, rs ++ r2)
      | .hbm pa | .host pa =>
        if d2 / 4 % 2 = 0 then (.miss2 a true, rs ++ r2)
        else match readDesc s pa with
        | none => (.bad1, rs ++ r2)
        | some d =>
          match desc1 lv d with
          | .bad => (.bad1, rs ++ r2 ++ [pa])
          | .table n => walk1 s fn va rest n (rs ++ r2 ++ [pa])
          | .leaf log1 d1 =>
            let ipa := d1 % 2 ^ 52 / 2 ^ 16 * 2 ^ 16 + va % 2 ^ log1
            match stage2 s fn ipa with
            | (none, r3) => (.miss2 ipa false, rs ++ r2 ++ [pa] ++ r3)
            | (some (log2, e2), r3) => (.ok (Nat.min log1 log2) d1 e2 ipa log2, rs ++ r2 ++ [pa] ++ r3)

@[irreducible] def walk (s : State) (fn va : Nat) : WalkRes × List Nat :=
  walk1 s fn va [0, 1, 2, 3] ((s.fn fn).s1root.toNat % 2 ^ 52 / 2 ^ 20 * 2 ^ 20) []

/-- The combined entry of a walk (R352), as of the first byte of its page. -/
def xlatOf (fn va : Nat) (log d1 d2 ipa log2 : Nat) : Xlat :=
  let p := ipa / 2 ^ log * 2 ^ log
  { fn := fn, va := va / 2 ^ log * 2 ^ log, log := log, ipa := p, out := leaf2Out log2 d2 p,
    r := d1 / 4 % 2 == 1 && d2 / 4 % 2 == 1, w := d1 / 8 % 2 == 1 && d2 / 8 % 2 == 1,
    x := d1 / 16 % 2 == 1 && d2 / 16 % 2 == 1, pin := leaf2Pin d2 }

/-! ## TLBs (R352) -/

/-- A right of an access. -/
inductive Right
  | r | w | x
  deriving DecidableEq, Repr

def Xlat.grants (e : Xlat) : Right → Bool
  | .r => e.r
  | .w => e.w
  | .x => e.x

def Right.bitOf : Right → Nat
  | .r => 4
  | .w => 8
  | .x => 16

def Xlat.covers (e : Xlat) (fn va : Nat) : Bool := e.fn == fn && e.va == va / 2 ^ e.log * 2 ^ e.log

/-- The output for an address of the entry's page. -/
def Xlat.outAt (e : Xlat) (va : Nat) : Out :=
  let o := va % 2 ^ e.log
  match e.out with
  | .hbm p => .hbm (p + o)
  | .host p => .host (p + o)
  | .fabric v p => .fabric v (p + o)
  | .notify p => .notify (p + o)

/-- Which TLB a translation goes through before the die's. -/
inductive TlbSel
  | vector (core : Nat)
  | fetch (core : Nat)
  | mordant (cluster : Nat)
  /-- the die's TLB alone: lease walks and area accesses -/
  | dieOnly (die : Nat)
  deriving DecidableEq, Repr

def TlbSel.die : TlbSel → Nat
  | .vector c | .fetch c => dieOf c
  | .mordant k => k / 32
  | .dieOnly d => d

def State.tlb (s : State) : TlbSel → List Xlat
  | .vector c => (s.core c).vtlb
  | .fetch c => (s.core c).itlb
  | .mordant k => (s.cluster k).mtlb
  | .dieOnly d => (s.die d).tlb

/-- The set of the die's TLB that holds a translation: the low nine bits of its 64 KiB page number (DESIGN CHOICE, log 101). -/
def Xlat.set (e : Xlat) : Nat := e.va / 65536 % 512

/-- Keep the first `n` entries of a set. -/
def keepWays (k : Nat) : Nat → List Xlat → List Xlat
  | _, [] => []
  | 0, x :: xs => if x.set = k then keepWays k 0 xs else x :: keepWays k 0 xs
  | n + 1, x :: xs => if x.set = k then x :: keepWays k n xs else x :: keepWays k (n + 1) xs

/-- The die's TLB after its first entry has been used: 16 ways in 512 sets, least recently used out first. -/
def trimSet (l : List Xlat) : List Xlat :=
  match l with
  | [] => []
  | e :: _ => keepWays e.set 16 l

def State.setTlb (s : State) (sel : TlbSel) (l : List Xlat) : State :=
  match sel with
  | .vector c => s.setCore c { s.core c with vtlb := l.take 64 }
  | .fetch c => s.setCore c { s.core c with itlb := l.take 32 }
  | .mordant k => s.setCluster k { s.cluster k with mtlb := l.take 256 }
  | .dieOnly d => s.setDie d { s.die d with tlb := trimSet l }

/-- Use an entry: the vector, Mordant and die classes keep the most recently used first; the fetch class is first in,
first out and does not move it. -/
def State.useTlb (s : State) (sel : TlbSel) (e : Xlat) : State :=
  let l := s.tlb sel
  match sel with
  | .fetch _ => if l.contains e then s else s.setTlb sel (e :: l)
  | _ => s.setTlb sel (e :: l.filter fun x => x != e)

/-- The outcome of a translation for one right (R351). -/
inductive XRes
  | ok (e : Xlat)
  /-- stage 1 invalid, or its right missing -/
  | stage1
  | stage2 (ipa : Nat) (walk : Bool)
  deriving DecidableEq, Repr

/-- Translate through the class TLB, the die TLB and the walker, filling both TLBs. -/
def translate (s : State) (sel : TlbSel) (fn va : Nat) (right : Right) : State × XRes :=
  match (s.tlb sel).find? fun e => e.covers fn va && e.grants right with
  | some e => (s.useTlb sel e, .ok e)
  | none =>
    match (s.tlb (.dieOnly sel.die)).find? fun e => e.covers fn va && e.grants right with
    | some e => ((s.useTlb (.dieOnly sel.die) e).useTlb sel e, .ok e)
    | none =>
      let (res, reads) := walk s fn va
      let s := reads.foldl (fun s a => llcRead s fn a 8) s
      match res with
      | .bad1 => (s, .stage1)
      | .miss2 ipa wk => (s, .stage2 ipa wk)
      | .ok log d1 d2 ipa log2 =>
        if d1 / right.bitOf % 2 = 0 then (s, .stage1)
        else if d2 / right.bitOf % 2 = 0 then (s, .stage2 ipa false)
        else
          let e := xlatOf fn va log d1 d2 ipa log2
          ((s.useTlb (.dieOnly sel.die) e).useTlb sel e, .ok e)

/-- The intermediate address of `va` under an entry. -/
def Xlat.ipaAt (e : Xlat) (va : Nat) : Nat := e.ipa + va % 2 ^ e.log

/-- An access at an intermediate address of function `fn`, through stage 2 alone: queue slots, save areas, system
Mordant programs (R320, R377, R386). -/
def ipaAccess (s : State) (fn ipa : Nat) (right : Right) : State × Option Out :=
  let (r, reads) := stage2 s fn ipa
  let s := reads.foldl (fun s a => llcRead s fn a 8) s
  match r with
  | some (log, d) => if d / right.bitOf % 2 = 1 then (s, some (leaf2Out log d ipa)) else (s, none)
  | none => (s, none)

/-- The physical address of an access in HBM4 or host memory. -/
def Out.phys : Out → Option Nat
  | .hbm pa | .host pa => some pa
  | .fabric _ _ | .notify _ => none

end Sys2Proof.Machine
end

