-- ==== Sys2Proof/Machine/Ops.lean ====
section
/-! DEFINITION. The shared operations: registers, the waiting-address table, performed writes, area accesses, fault
records, ending a team, taking a trap and returning from it, counts, parks and wakes. -/

namespace Sys2Proof.Machine

/-! ## Registers (R28, R33) -/

def Thread.reg (t : Thread) (v : Nat) : RegVal := FMap.get (.full 0) t.regs v

def Thread.setReg (t : Thread) (v : Nat) (x : RegVal) : Thread := { t with regs := FMap.set (.full 0) t.regs v x }

/-- The value of a full register. The gate of R37 has passed before a meaning reads one, so the other cases do not
reach it. -/
def Thread.word (t : Thread) (v : Nat) : Word :=
  match t.reg v with
  | .full w => w
  | .poisoned | .empty _ => 0

def Thread.pair (t : Thread) (v : Nat) : DWord := t.word (v + 1) ++ t.word v

/-- WriteReg: full, without poison (R13). -/
def Thread.write (t : Thread) (v : Nat) (w : Word) : Thread := t.setReg v (.full w)

def lowWord (x : DWord) : Word := BitVec.ofNat 32 x.toNat
def highWord (x : DWord) : Word := BitVec.ofNat 32 (x.toNat / 2 ^ 32)

def Thread.writePair (t : Thread) (v : Nat) (x : DWord) : Thread := (t.write v (lowWord x)).write (v + 1) (highWord x)

/-- Write consecutive registers from `v` on. -/
def Thread.writeList (t : Thread) (v : Nat) : List Word → Thread
  | [] => t
  | w :: ws => (t.write v w).writeList (v + 1) ws

/-- MarkEmpty on `k` consecutive registers (R13, R35). -/
def Thread.markEmpty (t : Thread) (v : Nat) (tag : Word) : Nat → Thread
  | 0 => t
  | k + 1 => (t.setReg v (.empty tag)).markEmpty (v + 1) tag k

/-- The producer tag of class 0x1, 0x2 or 0x3 at an address (R36): IDENT is PC[30:3]. -/
def producerTag (cls : Nat) (pc : DWord) : Word := BitVec.ofNat 32 (cls * 2 ^ 28 + pc.toNat / 8 % 2 ^ 28)

def isEmptyReg : RegVal → Bool
  | .empty _ => true
  | _ => false

/-! ## Trap mode, liveness, groups -/

/-- TH_TRAPCAUSE.MODE (R44). -/
def Thread.mode (t : Thread) : Bool := t.trapcause.getLsbD 0

/-- The thread neither has exited nor has been stopped. -/
def Thread.live (t : Thread) : Bool :=
  match t.place with
  | .exited | .stopped => false
  | .table | .row | .parked _ | .stalled _ | .held _ => true

/-- Whether a team's threads still issue: it is resident and no fault has ended it. -/
def Team.runs (m : Team) : Bool := m.stage == .resident

/-- Whether what its parked and held threads wait for releases them: neither a save that waits for a team nor a fault that is
ending it stops the fills and the wakes (R38, R41, R150). -/
def Team.wakes (m : Team) : Bool := m.stage == .resident || m.stage == .stopping || m.stage == .ending

/-- Whether a team holds scratchpad, tiles, streams and cells on its core and cluster (R168, R331). -/
def Team.holds (m : Team) : Bool :=
  match m.stage with
  | .resident | .stopping | .spilled | .ending => true
  | .waiting | .discarded | .saved | .ended => false

/-- Lane, sub-slot and group indices (R29, R30). -/
def Thread.lane (t : Thread) : Nat := t.slot % 64
def Thread.sub (t : Thread) : Nat := t.slot / 64
def Team.gixOf (m : Team) (tix : Nat) : Nat := tix / m.w

/-- The threads of a team, in TIX order. -/
def State.teamThreads (s : State) (u : Nat) : List Thread := (s.threads.filter fun p => p.2.team == u).map (·.2)

/-- The live thread in a slot of a core. -/
def State.threadAt (s : State) (core slot : Nat) : Option Thread :=
  (s.threads.find? fun p => p.2.core == core && p.2.slot == slot && p.2.live).map (·.2)

/-! ## Arrival at the waiting-address table (R156, R157) -/

/-- Insert into an ascending list without repeats. -/
def insertNat (n : Nat) : List Nat → List Nat
  | [] => [n]
  | k :: ks => if n < k then n :: k :: ks else if n = k then k :: ks else k :: insertNat n ks

/-- Join a matching entry, or take a free one. -/
def joinTable (l : List Entry) (slot : Nat) (addr : DWord) (tm : Bool) (now : Nat) : Option (List Entry) :=
  if l.any fun e => e.addr == addr && e.tm == tm then
    some (l.map fun e => if e.addr = addr ∧ e.tm = tm then { e with slots := insertNat slot e.slots } else e)
  else if l.length < 256 then some (l ++ [⟨addr, tm, [slot], 0, now % 2 ^ 32⟩])
  else none

def Core.arrive (c : Core) (slot : Nat) (addr : DWord) (tm : Bool) (now : Nat) : Core :=
  if c.table.any fun e => e.addr == addr && e.tm == tm then
    match joinTable c.table slot addr tm now with
    | some l => { c with table := l }
    | none => c
  else
    match c.ring, joinTable c.table slot addr tm now with
    | [], some l => { c with table := l }
    | _, _ => { c with ring := c.ring ++ [⟨slot, addr, tm⟩] }

/-- TABLE_ARRIVAL: the thread stands at `pc` in the table of its core, in its mode. -/
def arrive (s : State) (t : Thread) (pc : DWord) : State :=
  let s := s.setThread { t with pc := pc, place := .table }
  s.setCore t.core ((s.core t.core).arrive t.slot pc t.mode s.now)

/-- Take a thread out of the table and the ring of its core. -/
def Core.leave (c : Core) (slot : Nat) : Core :=
  { c with
    table := (c.table.map fun e => { e with slots := e.slots.filter (· != slot) }).filter fun e => !e.slots.isEmpty
    ring := c.ring.filter fun r => r.slot != slot
    rows := c.rows.map fun p =>
      (p.1, { p.2 with pending := p.2.pending.filter (· != slot), done := p.2.done.filter (· != slot) }) }

/-- The thread parks where it stands (R37, R38). -/
def park (s : State) (t : Thread) (p : Park) : State := s.setThread { t with place := .parked p }

/-- The thread is held at its instruction (R155). -/
def hold (s : State) (t : Thread) (h : Hold) : State := s.setThread { t with place := .held h }

/-! ## Retirement (R330) -/

/-- The watchdog count of a team. -/
def Team.wd (m : Team) (now : Nat) : Nat := m.wdCount + (match m.wdSince with | some t => now - t | none => 0)

/-- The programs and passes of a team go on: it is resident, or spilled at a phase boundary (R168, R171). -/
def Team.drives (m : Team) : Bool := m.stage == .resident || m.stage == .spilled

/-- The counter of a team runs while it is resident, waiting for its save too. -/
def Team.counts (m : Team) : Bool := m.stage == .resident || m.stage == .stopping

/-- A retirement: the count starts again from 0; one that stands still stays so. -/
def retire (s : State) (u : Nat) : State :=
  s.updTeam u fun m => { m with wdCount := 0, wdSince := m.wdSince.map fun _ => s.now }

/-! ## The hypervisor's events and waits (R356) -/

/-- The token of the next waiter: 32 bits, counted up past those that are pending. -/
def nextToken (p : Pkg) : Nat :=
  let ks := (List.range (p.waits.length + 1)).map fun i => (p.tokens + 1 + i) % 2 ^ 32
  (ks.find? fun k => (Tab.find p.waits k).isNone).getD 0

def raiseEvent (s : State) (type fn : Nat) (addr : DWord) (info : Nat) (who : Waiter) (va : DWord) : Nat × State :=
  let k := nextToken s.pkg
  let e : HvEvent := ⟨type, fn, addr, s.now, k, info⟩
  let p := { s.pkg with tokens := k, hvEvents := s.pkg.hvEvents ++ [e], waits := Tab.put s.pkg.waits k ⟨who, s.now, va, type⟩ }
  (k, { s with pkg := p })

/-- Withdraw a pending wait: its token matches no more and its event, if still queued, is not written. -/
def dropWait (s : State) (k : Nat) : State :=
  { s with pkg := { s.pkg with waits := Tab.del s.pkg.waits k, hvEvents := s.pkg.hvEvents.filter fun e => e.token != k } }

/-- A stage-2 stall of a thread (R149): TYPE 0x01 for data, 0x02 for a fetch. -/
def stallThread (s : State) (t : Thread) (fn : Nat) (ipa : Nat) (va : DWord) (info : Nat) (fetch : Bool) : State :=
  let (k, s) := raiseEvent s (if fetch then 2 else 1) fn (BitVec.ofNat 64 ipa) info (.thread t.team t.tix) va
  s.setThread { t with place := .stalled k }

/-! ## Writes performed at a home slice -/

/-- The thread of a request, while it is there. -/
def State.ownerOf (s : State) (r : Req) : Option Thread :=
  match r.owner with
  | .thread u x => s.thread? u x
  | .none | .program _ | .left _ => none

/-- The row of an `ldc` is still issuing it to its threads. -/
def rowIssuing (s : State) (r : Req) : Bool :=
  match s.ownerOf r with
  | some t => (s.core t.core).rows.any fun p => p.2.next == r.pc && p.2.done.contains t.slot && !p.2.pending.isEmpty
  | none => false

/-- An acquire at a scope empties the constant cache (R130). -/
def clearsConst : Scope → Bool
  | .dev | .sys | .fab => true
  | .th | .grp | .team | .cl => false

/-- The bytes that an `ldc` has had from the constant cache are not those of the access that it shares with threads of its row
which have still to issue it, once an acquire has emptied that cache: the access reads anew (R130). -/
def forgetConst (s : State) (r : Req) : Req :=
  match r.act with
  | .loadConst _ _ _ _ => if !r.complete && rowIssuing s r then { r with data := none, performed := false } else r
  | _ => r

/-- A request of the core that an acquire at a scope meets in flight: its fill allocates nothing. -/
def acquiredOver (s : State) (core : Nat) (sc : Scope) (r : Req) : Req :=
  if ((s.ownerOf r).map fun t => t.core == core).getD false then
    let r := if clearsConst sc then forgetConst s r else r
    { r with noFill := true }
  else r

/-- What an acquire at a scope does to the caches of its core (R127, R130, R136, R300). -/
def acquireCore (s : State) (core : Nat) (sc : Scope) : State :=
  let c := s.core core
  match sc with
  | .th | .grp | .team => s
  | .cl | .dev | .sys | .fab =>
    let s := s.setCore core { c with l1 := [], cc := if clearsConst sc then [] else c.cc }
    { s with reqs := s.reqs.map fun p => (p.1, acquiredOver s core sc p.2) }

/-- Whether an act is a load or an atomic (R136). -/
def Act.reads : Act → Bool
  | .load _ _ _ _ _ | .loadConst _ _ _ _ | .atomic _ _ _ _ _ | .cas _ _ _ _ _ => true
  | _ => false

/-- Whether an act is a store or an atomic. -/
def Act.writes : Act → Bool
  | .store _ _ | .atomic _ _ _ _ _ | .cas _ _ _ _ _ => true
  | _ => false

def ownReq (team tix : Nat) (r : Req) : Bool := r.owner == .thread team tix

/-- Loads and atomics of a thread that have not completed. -/
def loadsPending (s : State) (team tix : Nat) : Bool :=
  s.reqs.any fun p => ownReq team tix p.2 && p.2.act.reads && !p.2.complete

/-- Release a held thread to the next address. -/
def releaseHeld (s : State) (t : Thread) (len : Nat) : State := arrive s t (t.pc + BitVec.ofNat 64 len)

/-- Release a held thread with the acquire of `fence.acq` at a scope: its older loads and atomics complete, then the caches
are invalidated, and then the thread reaches the next address (R136). -/
def releaseAcq (s : State) (t : Thread) (sc : Scope) (len : Nat) : State :=
  if sc ≠ .th ∧ loadsPending s t.team t.tix then
    s.setThread { t with pc := t.pc + BitVec.ofNat 64 len, place := .parked (.loads (some sc)) }
  else releaseHeld (acquireCore s t.core sc) t len

/-- SLEEP_WAKE: a write to a sector wakes the threads that sleep on it (R212). -/
def wakeSleepers (s : State) (pa n : Nat) : State :=
  s.threads.foldl (fun s p =>
    match p.2.place with
    | .held (.sleep a d _) =>
      if (sectorsOf pa n).contains (a / 32) && ((s.team? p.2.team).map Team.wakes).getD false then
        releaseAcq s (p.2.write d.toNat 1) .dev 8
      else s
    | _ => s) s

/-- Mark the gated launches to read their dependence entries again (R321). -/
def noteWrite (s : State) (ls : Tab Launch) : State := { s with launches := ls }

/-- What follows a write of `n` bytes at `pa` that has been performed: sleepers wake, gates are read again. -/
def afterWrite (s : State) (pa n : Nat) : State :=
  if isHbm pa then
    let s := wakeSleepers s pa n
    noteWrite s (s.launches.map fun p => if p.2.stage = .gated then (p.1, { p.2 with recheck := true }) else p)
  else s

/-- A write performed at its coherence point by any agent of function `fn`'s memory: bytes, marks, sleepers, gates. -/
def performWrite (s : State) (fn pa : Nat) (bs : List Byte) : State := afterWrite (storeBytes s fn pa bs) pa bs.length

/-- The masked bytes of a sector performed in one write. -/
def performMerge (s : State) (fn pa : Nat) (t : Tab Byte) : State := afterWrite (storeMasked s fn pa t) pa 32

/-! ## Area accesses (R417) -/

/-- The outcome of an area access: done, failed, or stalled at an intermediate address, with the INFO of its event (R356). -/
inductive AreaRes
  | done
  | failed
  | stalled (ipa info : Nat)
  deriving DecidableEq, Repr

/-- INFO of a stall event: the right that missed, and whether a stage-1 table address did (R349, R356). -/
def stallInfo (right : Right) (walk : Bool) : Nat :=
  (match right with | .r => 0 | .w => 1 | .x => 2) + if walk then 4 else 0

/-- Split `n` bytes at `va` at 64 KiB boundaries. -/
def pieces (va n : Nat) : List (Nat × Nat) :=
  (List.range ((va + n) / 65536 + (if (va + n) % 65536 = 0 then 0 else 1) - va / 65536)).map fun i =>
    let lo := Nat.max va ((va / 65536 + i) * 65536)
    let hi := Nat.min (va + n) ((va / 65536 + i + 1) * 65536)
    (lo, hi - lo)

/-- Translate every piece of an area access, an address that is not canonical never (R349); the physical runs, or the reason it is
not done. -/
def areaRuns (fn die : Nat) (right : Right) : List (Nat × Nat) → State → List (Nat × Nat) →
    State × AreaRes × List (Nat × Nat)
  | [], s, acc => (s, .done, acc)
  | (va, n) :: rest, s, acc =>
    if !canonical (BitVec.ofNat 64 va) then (s, .failed, [])
    else
      match translate s (.dieOnly die) fn va right with
      | (s, .stage1) => (s, .failed, [])
      | (s, .stage2 ipa wk) => (s, .stalled ipa (stallInfo right wk), [])
      | (s, .ok e) =>
        match e.outAt va with
        | .hbm pa | .host pa => areaRuns fn die right rest s (acc ++ [(pa, n)])
        | .fabric _ _ | .notify _ => (s, .stalled (e.ipaAt va) (stallInfo right false), [])

/-- Write the bytes over the runs, in order. -/
def writeRuns (fn : Nat) : List (Nat × Nat) → List Byte → State → State
  | [], _, s => s
  | (pa, n) :: rest, bs, s => writeRuns fn rest (bs.drop n) (performWrite s fn pa (bs.take n))

def areaWrite (s : State) (fn die va : Nat) (bs : List Byte) : State × AreaRes :=
  match areaRuns fn die .w (pieces va bs.length) s [] with
  | (s, .done, rs) => (writeRuns fn rs bs s, .done)
  | (s, r, _) => (s, r)

/-- Read through the launch's translation; an uncorrectable error is reported as a failure. -/
def areaRead (s : State) (fn die va n : Nat) : State × AreaRes × List Byte :=
  match areaRuns fn die .r (pieces va n) s [] with
  | (s, .done, rs) =>
    if rs.any fun p => poisonedAt s p.1 p.2 then (s, .failed, [])
    else
      let s := rs.foldl (fun s p => (readMem s fn p.1 p.2).1) s
      (s, .done, rs.flatMap fun p => readBytes s p.1 p.2)
  | (s, r, _) => (s, r, [])

/-- Increment the word at an aligned address as one step, which needs the right to write alone (R351). -/
def areaIncrement (s : State) (fn die va : Nat) : State × AreaRes :=
  match areaRuns fn die .w [(va, 4)] s [] with
  | (s, .done, rs) =>
    if rs.any fun p => poisonedAt s p.1 p.2 then (s, .failed)
    else
      let (s, old) := readMem s fn ((rs.map (·.1)).headD 0) 4
      (writeRuns fn rs (leBytes 4 (leNat old + 1)) s, .done)
  | (s, r, _) => (s, r)

/-- Write a record over its runs.  The 32 bytes of a completion record go in two steps: bytes 31:8, then bytes 7:0 (R257). -/
def writeRecord (fn : Nat) (rs : List (Nat × Nat)) (bs : List Byte) (s : State) : State :=
  match rs with
  | [(pa, _)] =>
    if bs.length = 32 then performWrite (performWrite s fn (pa + 8) (bs.drop 8)) fn pa (bs.take 8) else performWrite s fn pa bs
  | _ => writeRuns fn rs bs s

def areaRecord (s : State) (fn die va : Nat) (bs : List Byte) : State × AreaRes :=
  match areaRuns fn die .w (pieces va bs.length) s [] with
  | (s, .done, rs) => (writeRecord fn rs bs s, .done)
  | (s, r, _) => (s, r)

/-- The write of a record whose agent does not wait: done, dropped on failure (`lq` sets RDF of the launch's queue), or left
waiting under a token with an event of TYPE 0x0A. -/
def areaPost (s : State) (u : Nat) (l : Launch) (die : Nat) (va : DWord) (bs : List Byte) (lq : Bool) : State :=
  match areaRecord s l.fn die va.toNat bs with
  | (s, .done) => s
  | (s, .failed) => if lq then s.setLq l.fn l.queue { s.lq l.fn l.queue with rdf := true } else s
  | (s, .stalled ipa info) => (raiseEvent s 0x0A l.fn (BitVec.ofNat 64 ipa) info (.area u va bs 0 lq false) va).2

/-! ## Fault records and the end of a team (R150, R151) -/

/-- What a fault reports besides its code. -/
structure FaultInfo where
  addr : Nat := 0
  reg : Nat := 0
  nest : Bool := false
  unh : Bool := false
  deriving DecidableEq, Repr, Inhabited

/-- The codes of R143. -/
def Code.num : Code → Nat
  | .tEmpty => 0x01 | .tSoft => 0x02 | .tDebug => 0x03 | .tFpx => 0x04 | .tDiv0 => 0x05
  | .illegal => 0x10 | .reg => 0x11 | .align => 0x12 | .lease => 0x13 | .perm => 0x14 | .fetch => 0x15
  | .lost => 0x16 | .mordant => 0x17 | .save => 0x18 | .watchdog => 0x19 | .ecc => 0x1A | .fabric => 0x1B

/-- The 64 bytes of a fault record (R151). -/
def faultRecord (seq : BitVec 48) (code flags : Nat) (time : Nat) (pc : DWord) (addr teamNo slot loc fn engine reg
    launch detail : Nat) : List Byte :=
  leBytes 6 seq.toNat ++ leBytes 1 code ++ leBytes 1 flags ++ leBytes 8 time ++ leBytes 8 pc.toNat ++ leBytes 8 addr ++
  leBytes 4 teamNo ++ leBytes 2 slot ++ leBytes 2 loc ++ leBytes 1 fn ++ leBytes 1 engine ++ leBytes 2 reg ++
  leBytes 4 launch ++ leBytes 16 detail

/-- Write a fault record to the next entry of the launch's ring. -/
def postFault (s : State) (u : Nat) (m : Team) (code : Code) (pc : DWord) (slot engine detail : Nat) (mord : Bool)
    (i : FaultInfo) : State :=
  match s.launch? m.launch with
  | none => s
  | some l =>
    let d := dieOf m.core
    let dd := s.die d
    let flags := (if m.stage == .ending then 0 else 1) + (if i.nest then 2 else 0) + (if i.unh then 4 else 0) +
      (if mord then 8 else 0)
    let bs := faultRecord dd.frSeq code.num flags s.now pc i.addr m.num slot m.core l.fn engine i.reg
      (l.seq.toNat % 2 ^ 32) detail
    let s := s.setDie d { dd with frSeq := dd.frSeq + 1 }
    let s := s.updLaunch m.launch fun l => { l with nrec := l.nrec + 1 }
    let s := s.updTeam u fun m => { m with stage := .ending }
    areaPost s m.launch l d (BitVec.ofNat 64 (l.frbase + 64 * (l.nrec % 2 ^ l.frlog))) bs false

/-- A fault of team `u` that no thread and no program raised: the spec states no PC and no SLOT for its record, and both are
free values. -/
def postTeamFault (s : State) (u : Nat) (m : Team) (code : Code) (i : FaultInfo) : State :=
  postFault { s with freeCtr := s.freeCtr + 2 } u m code (Config.freeWord s.freeCtr)
    ((Config.freeWord (s.freeCtr + 1)).toNat % 1024) 0xFF 0 false i

/-- A fault of a thread: the instruction has no effect, the record is written, the thread stops, the team is ending
(R75, R150). TEAM_TEARDOWN does the rest. -/
def threadFault (s : State) (t : Thread) (code : Code) (i : FaultInfo) : State :=
  match s.team? t.team with
  | none => s
  | some m =>
    let s := s.setThread { t with place := .stopped }
    postFault s t.team m code t.pc t.slot 0xFF 0 false i

/-! ## Taking a trap and returning from one (R144 to R146) -/

/-- TH_TRAPCAUSE after entry. -/
def causeOf (c : Code) (reg : Nat) : Word := BitVec.ofNat 32 (1 + c.num * 256 + reg % 1024 * 65536)

/-- HANDLER_ENTRY: raise trap `c` for the thread, to resume at `epc`. A nested trap and a thread without a handler end
the team instead. -/
def takeTrap (s : State) (t : Thread) (c : Code) (epc : DWord) (reg : Nat) : State :=
  let r := if c == .tEmpty then reg else 0
  if t.mode then threadFault s t .illegal { nest := true, reg := r }
  else if t.trapvec.toNat / 8 = 0 then threadFault s t c { unh := true, reg := r }
  else
    let t := { t with trappc := BitVec.ofNat 64 (epc.toNat / 8 * 8), trapcause := causeOf c r }
    arrive s t (BitVec.ofNat 64 (t.trapvec.toNat / 8 * 8))

/-- The state of a thread that leaves trap mode (R146): MODE is cleared, CODE and REG keep their values. -/
def Thread.leaveTrap (t : Thread) : Thread := { t with trapcause := t.trapcause &&& ~~~(1 : Word) }

/-- RETURN: the thread arrives at TH_TRAPPC in ordinary mode. -/
def returnFromTrap (s : State) (t : Thread) : State := arrive s t.leaveTrap t.trappc

/-! ## Counts, credits and wakes (R137, R138, R38) -/

/-- The count of a class: instructions issued and not yet credited. -/
def countOf (s : State) (team tix : Nat) (c : Cls) : Nat :=
  (s.reqs.filter fun p => ownReq team tix p.2 && p.2.cls == some c).length

/-- COUNT_CREDIT: drop every completed request whose older requests of its class have completed. -/
def dropCredited (blocked : List (Agent × Option Cls)) : Tab Req → Tab Req
  | [] => []
  | (k, r) :: rest =>
    if r.complete && (r.cls.isNone || !blocked.contains (r.owner, r.cls)) then dropCredited blocked rest
    else (k, r) :: dropCredited (if r.complete then blocked else (r.owner, r.cls) :: blocked) rest

def credit (s : State) : State := { s with reqs := dropCredited [] s.reqs }

def Act.isFp : Act → Bool
  | .value _ _ _ fp => fp
  | _ => false

def acqPending (s : State) (team tix : Nat) : Bool :=
  s.reqs.any fun p => ownReq team tix p.2 && p.2.acq.isSome && !p.2.complete

/-- The open chain `ch` of a sub-slot of a team. -/
def Team.chain? (m : Team) (sub ch : Nat) : Option Chain := m.chains.find? fun c => c.sub == sub && c.ch == ch

/-- Chain contexts in use on a cluster: those of the chains of its resident teams. -/
def contextsUsed (s : State) (cluster : Nat) : List Nat :=
  s.teams.flatMap fun p => if clusterOf p.2.core == cluster then p.2.chains.map (·.ctx) else []

/-- A producer of R109 of the thread is in flight. -/
def fpPending (s : State) (team tix : Nat) : Bool :=
  s.reqs.any fun p => ownReq team tix p.2 && p.2.act.isFp && !p.2.complete

/-- The phase store buffer holds stores of a team. -/
def drainLeft (s : State) (core u : Nat) : Bool := (s.core core).psb.any fun e => e.team == u

/-- Whether what a parked thread waits for has come about. -/
def parkOver (s : State) (t : Thread) : Park → Bool
  | .regs rs => rs.any fun v => !isEmptyReg (t.reg v)
  | .fpu _ | .fpuAll => !fpPending s t.team t.tix
  | .release fab => countOf s t.team t.tix .ld == 0 && countOf s t.team t.tix .st == 0 &&
      (!fab || countOf s t.team t.tix .fab == 0)
  | .acquire => !acqPending s t.team t.tix
  | .loads _ => !loadsPending s t.team t.tix
  | .after ks => ks.all fun k => match Tab.find s.reqs k with | none => true | some r => r.performed || r.complete
  | .stores => countOf s t.team t.tix .st == 0
  | .count c n => decide (countOf s t.team t.tix c ≤ n)
  | .chainOpen ch => match s.team? t.team with | none => false | some m => (m.chain? t.sub ch).isSome
  | .chainClose ch => match s.team? t.team with | none => false | some m => (m.chain? t.sub ch).isNone
  | .context => decide ((contextsUsed s (clusterOf t.core)).length < 16)
  | .tableSlot => decide ((s.cluster (clusterOf t.core)).resv.length < 32)
  | .drained => !drainLeft s t.core t.team

/-- The trap enables of TH_FPCTL against the flags set (R42, R43). -/
def enabled (t : Thread) (fl : FFlags) : Bool := (fl &&& BitVec.ofNat 5 t.fpctl.toNat) != 0

/-- The acquire that a thread which leaves a park then performs (R136). -/
def acquireAtWake (s : State) (t : Thread) : Park → State
  | .loads (some sc) => acquireCore s t.core sc
  | _ => s

/-- A thread that leaves a park arrives at its instruction, or takes the T_FPX that a fill has raised (R38, R110). -/
def leavePark (s : State) (t : Thread) : Park → State
  | .fpu (some pc) => takeTrap s { t with pc := pc } .tFpx t.pc 0
  | p => arrive (acquireAtWake s t p) t t.pc

/-- A parked thread for which what it waits for has come about leaves its park. -/
def wakeOne (s : State) (key : Nat) : State :=
  match Tab.find s.threads key with
  | none => s
  | some t =>
    match t.place with
    | .parked p => if parkOver s t p && ((s.team? t.team).map Team.wakes).getD false then leavePark s t p else s
    | _ => s

/-- PARK_WAKE over every thread. -/
def wake (s : State) : State := s.threads.foldl (fun s p => wakeOne s p.1) s

/-- Credit, then wake. -/
def creditWake (s : State) : State := wake (credit s)

/-- The current cycle is one that the cluster skips (R392). -/
def skippedNow (s : State) (k : Nat) : Bool :=
  let l := (s.cluster k).skip
  let j := s.now % 16
  decide (j * l / 16 < (j + 1) * l / 16)

/-! ## What a team leaves in flight (R121, R150, R322) -/

/-- An access of a thread that its team's end waits for: a load, a store, an atomic, a write of another core's scratchpad, an
operation on a counted barrier. -/
def Act.lingers : Act → Bool
  | .buffer _ _ | .load _ _ _ _ _ | .loadConst _ _ _ _ | .store _ _ | .atomic _ _ _ _ _ | .cas _ _ _ _ _ | .genWrite _ _ _ _ _
  | .arrive _ _ _ | .cbTest _ _ _ => true
  | .value _ _ _ _ | .mxLoad _ _ _ _ _ | .mxStore _ _ _ _ | .mxZero _ _ | .mxTopk _ _ _ _ _ _ _ | .mxPass | .mxEnd _ _ | .mdRun _
  | .reduce _ _ _ _ | .nothing => false

/-- The request is one of a team's threads, or what a discarded phase of it has left. -/
def Req.ofTeam (u : Nat) (r : Req) : Bool :=
  match r.owner with
  | .thread a _ | .left a => a == u
  | .none | .program _ => false

/-- Accesses of the team's threads have still to be performed. -/
def teamBusy (s : State) (u : Nat) : Bool := s.reqs.any fun p => p.2.ofTeam u && p.2.act.lingers && !p.2.complete

/-- Buffered stores of the team have still to enter the phase store buffer. -/
def bufferBusy (s : State) (u : Nat) : Bool :=
  s.reqs.any fun p => p.2.ofTeam u && !p.2.complete && (match p.2.act with | .buffer _ _ => true | _ => false)

/-! ## The end of an instruction -/

/-- Block ends (R76). -/
def endsBlock : Instr → Bool
  | .br _ | .brc _ _ _ | .brx _ | .call _ _ | .calli _ _ | .ret _ | .exit | .trap _ _ | .tret | .eret _ | .hcall _ _ _
  | .phase | .bar _ | .cbwait _ _ | .dqidle _ | .sleep _ _ _ _ | .yield
  | .shfl _ _ _ _ | .vote _ _ _ | .ballot _ _ _ | .redux _ _ _ _ | .gscan _ _ _ _ _ | .bqmax _ _ => true
  | .nop cut => cut
  | _ => false

/-- The address after an instruction. -/
def nextPc (t : Thread) (i : Instr) : DWord := t.pc + BitVec.ofNat 64 i.len

/-- The instruction has executed: its flags are set, it retires, an enabled flag traps (R43), and the thread goes on at
`pc`, in its row or through the table. -/
def finishAt (s : State) (t : Thread) (i : Instr) (fl : FFlags) (pc : DWord) : State :=
  let s := retire s t.team
  let t := { t with fflags := t.fflags ||| BitVec.ofNat 32 fl.toNat }
  if enabled t fl && !t.mode then takeTrap s t .tFpx pc 0
  else if endsBlock i then arrive s t pc
  else s.setThread { t with pc := pc }

def finish (s : State) (t : Thread) (i : Instr) (fl : FFlags) : State := finishAt s t i fl (nextPc t i)

/-- While a trap enable is set, a thread with producers of R109 in flight issues nothing after them (R110): it is parked at
the instruction that follows. -/
def holdForFp (s : State) (team tix : Nat) : State :=
  match s.thread? team tix with
  | none => s
  | some t =>
    if t.fpctl.toNat % 32 ≠ 0 ∧ fpPending s team tix ∧ t.live then park s t (.fpu none) else s

/-- Add a request in flight; identifiers rise in issue order. -/
def addReq (s : State) (r : Req) : Nat × State :=
  let (k, s) := s.fresh
  (k, { s with reqs := s.reqs ++ [(k, r)] })

/-- A request of a thread with nothing else said. -/
def Thread.req (t : Thread) (now : Nat) (cls : Option Cls) (act : Act) : Req :=
  { owner := .thread t.team t.tix, cls := cls, act := act, after := [], behind := [], performed := false, complete := false,
    data := none, undo := [], psb := [], mate := none, half := none, shown := false, priv := t.priv, acq := none, unsent := false,
    pc := t.pc, noFill := false, stale := false, fn := 0, va := 0, ipa := 0, dead := false, die := dieOf t.core,
    born := now }

/-- Counts of 255 park an instruction of the class until the oldest is credited (R137). -/
def countFull (s : State) (t : Thread) (c : Cls) : Bool := decide (255 ≤ countOf s t.team t.tix c)

end Sys2Proof.Machine
end

