-- ==== Sys2Proof/Machine/Operands.lean ====
section
/-! DEFINITION. The register fields of an instruction and the checks that come before its effect (R31, R37, R74). -/

namespace Sys2Proof.Machine

/-- How a field is used: a source under its empty policy, a destination, or named only (R31 alone applies). -/
inductive Use
  | src (trap : Bool)
  | dst
  | named
  deriving DecidableEq, Repr

/-- A register field: the first register, how many it names, the alignment it needs, its use. -/
structure RF where
  r : Nat
  cnt : Nat
  align : Nat
  use : Use
  deriving DecidableEq, Repr

def RF.last (f : RF) : Nat := f.r + f.cnt - 1

/-- The registers of a field. -/
def RF.regs (f : RF) : List Nat := (List.range f.cnt).map fun i => f.r + i

/-- Single registers, pairs and groups as sources and destinations. -/
def src1 (a : Src) : RF := ⟨a.r.toNat, 1, 1, .src a.trap⟩
def src2 (a : Src) : RF := ⟨a.r.toNat, 2, 2, .src a.trap⟩
def srcN (a : Src) (k al : Nat) : RF := ⟨a.r.toNat, k, al, .src a.trap⟩
def dst1 (d : Reg) : RF := ⟨d.toNat, 1, 1, .dst⟩
def dst2 (d : Reg) : RF := ⟨d.toNat, 2, 2, .dst⟩
def dstN (d : Reg) (k al : Nat) : RF := ⟨d.toNat, k, al, .dst⟩
def named1 (a : Reg) : RF := ⟨a.toNat, 1, 1, .named⟩

/-- Steps 1 and 2 of R31: the field is illegal whatever the allocation. -/
def RF.illegal (narrow : Bool) (f : RF) : Bool :=
  decide (768 ≤ f.last) || decide (768 ≤ f.r) || (narrow && decide (256 ≤ f.last)) || decide (f.r % f.align ≠ 0)

/-- Step 3 of R31: the field names a register at or above `n`. -/
def RF.beyond (n : Nat) (f : RF) : Bool := decide (n ≤ f.last)

/-- The register that F_REG reports: the lowest of the field's registers at or above `n`. -/
def RF.firstBeyond (n : Nat) (f : RF) : Nat := Nat.max f.r n

/-- The outcome of the checks of R74 steps 2, 6 and 7 and of R37 orders 2 to 5. -/
inductive Gate
  | go
  | illegal
  | beyond (r : Nat)
  | perm
  | lost (r : Nat)
  | empty (r : Nat)
  | park (rs : List Nat)
  deriving DecidableEq, Repr

/-- The source registers of the fields, each with its policy. -/
def sources (fs : List RF) : List (Nat × Bool) :=
  fs.flatMap fun f => match f.use with
    | .src p => f.regs.map fun r => (r, p)
    | .dst | .named => []

/-- The destination registers of the fields. -/
def destinations (fs : List RF) : List Nat :=
  fs.flatMap fun f => match f.use with
    | .dst => f.regs
    | .src _ | .named => []

def isPoisoned : RegVal → Bool
  | .poisoned => true
  | _ => false

/-- Orders 2 to 5 of R37. -/
def readyGate (t : Thread) (fs : List RF) : Gate :=
  let ss := sources fs
  match ss.find? fun p => isPoisoned (t.reg p.1) with
  | some p => .lost p.1
  | none =>
    match ss.find? fun p => isEmptyReg (t.reg p.1) && p.2 with
    | some p => .empty p.1
    | none =>
      match (ss.filter fun p => isEmptyReg (t.reg p.1)).map (·.1) with
      | r :: rs => .park (r :: rs)
      | [] =>
        match (destinations fs).filter fun r => isEmptyReg (t.reg r) with
        | r :: rs => .park (r :: rs)
        | [] => .go

/-- All the checks in order: R74 step 2, step 6 (R31), step 7, then R37. -/
def gateOf (m : Team) (t : Thread) (i : Instr) (privileged : Bool) (fs : List RF) : Gate :=
  if m.narrow && i.since4 then .illegal
  else if fs.any fun f => f.illegal m.narrow then .illegal
  else match fs.find? fun f => f.beyond m.nreg with
  | some f => .beyond (f.firstBeyond m.nreg)
  | none => if privileged && !t.priv then .perm else readyGate t fs

/-- What a failed check does to the thread. -/
def gateStop (s : State) (t : Thread) : Gate → State
  | .go => s
  | .illegal => threadFault s t .illegal {}
  | .beyond r => threadFault s t .reg { reg := r }
  | .perm => threadFault s t .perm {}
  | .lost r => threadFault s t .lost { reg := r }
  | .empty r => takeTrap s t .tEmpty t.pc r
  | .park rs => park s t (.regs rs)

/-- The effect `k` where the checks pass; otherwise what the failed check does. -/
def gated (s : State) (m : Team) (t : Thread) (i : Instr) (privileged : Bool) (fs : List RF) (k : State) : State :=
  match gateOf m t i privileged fs with
  | .go => k
  | g => gateStop s t g

/-- A thread instruction: the current thread passes the checks of its fields and has the effect `k`. -/
def issueWith (s : State) (i : Instr) (privileged : Bool) (fs : List RF) (k : Team → Thread → State) :
    Host.Outcome State Fault Refusal :=
  match s.cur with
  | .thread a x =>
    match s.team? a, s.thread? a x with
    | some m, some t => .next (gated s m t i privileged fs (k m t))
    | _, _ => .fault .noThread
  | .none | .program _ | .left _ => .fault .noThread

def issue (s : State) (i : Instr) (fs : List RF) (k : Team → Thread → State) : Host.Outcome State Fault Refusal :=
  issueWith s i false fs k

/-- An instruction whose effect is to write one register with a value of its sources. -/
def write1 (s : State) (i : Instr) (d : Reg) (fs : List RF) (f : Thread → Word) : Host.Outcome State Fault Refusal :=
  issue s i (fs ++ [dst1 d]) fun _ t => finish s (t.write d.toNat (f t)) i 0

/-- The same for a pair. -/
def write2 (s : State) (i : Instr) (d : Reg) (fs : List RF) (f : Thread → DWord) : Host.Outcome State Fault Refusal :=
  issue s i (fs ++ [dst2 d]) fun _ t => finish s (t.writePair d.toNat (f t)) i 0

/-- One register and flags. -/
def writeFl (s : State) (i : Instr) (d : Reg) (fs : List RF) (f : Thread → Word × FFlags) :
    Host.Outcome State Fault Refusal :=
  issue s i (fs ++ [dst1 d]) fun _ t => finish s (t.write d.toNat (f t).1) i (f t).2

/-- A long-latency producer whose result is decided at issue (R35): its destinations are marked empty under a tag of
class `tag`, and PRODUCER_FILL writes them. -/
def produce (s : State) (t : Thread) (i : Instr) (d k : Nat) (tag : Nat) (r : Req) : State :=
  let (_, s) := addReq s r
  finish s (t.markEmpty d (producerTag tag t.pc) k) i 0

end Sys2Proof.Machine
end

