-- ==== Sys2Proof/Machine/Integer.lean ====
section
/-! DEFINITION. Thread instructions of file 05: integer, logic, shifts, bit fields, comparison, pairs, moves, `idp4`,
immediates. -/

namespace Sys2Proof.Machine

/-! ## Values and results (R46, R83) -/

def tyBits : Ty → Nat
  | .s8 | .n8 => 8
  | .s16 | .n16 | .f16 | .bf16 => 16
  | .s32 | .n32 | .f32 => 32
  | .s64 | .n64 => 64

def tySigned : Ty → Bool
  | .s8 | .s16 | .s32 | .s64 => true
  | .n8 | .n16 | .n32 | .n64 | .f32 | .f16 | .bf16 => false

/-- The low `k` bits of a natural number as a signed or natural integer. -/
def intOf (signed : Bool) (k n : Nat) : Int :=
  let m := n % 2 ^ k
  if signed ∧ 2 ^ (k - 1) ≤ m then (m : Int) - (2 ^ k : Nat) else m

/-- A source read under a type (R46). -/
def tyVal (t : Ty) (n : Nat) : Int := intOf (tySigned t) (tyBits t) n

/-- A result wrapped to the type's width and extended to a word (R46). -/
def tyRes (t : Ty) (v : Int) : Word := BitVec.ofInt 32 (intOf (tySigned t) (tyBits t) (v % (2 ^ tyBits t : Nat)).toNat)

/-! ## Pure results -/

def addOf (t : Ty) (a b : Word) : Word := tyRes t (tyVal t a.toNat + tyVal t b.toNat)
def subOf (t : Ty) (a b : Word) : Word := tyRes t (tyVal t a.toNat - tyVal t b.toNat)
def mulOf (t : Ty) (a b : Word) : Word := tyRes t (tyVal t a.toNat * tyVal t b.toNat)
def madOf (t : Ty) (a b c : Word) : Word := tyRes t (tyVal t a.toNat * tyVal t b.toNat + tyVal t c.toNat)
/-- R85: the high word of the product. -/
def mulhOf (t : Ty) (a b : Word) : Word := BitVec.ofInt 32 ((tyVal t a.toNat * tyVal t b.toNat) / 2 ^ 32)
def minOf (t : Ty) (a b : Word) : Word :=
  tyRes t (if tyVal t a.toNat ≤ tyVal t b.toNat then tyVal t a.toNat else tyVal t b.toNat)
def maxOf (t : Ty) (a b : Word) : Word :=
  tyRes t (if tyVal t b.toNat ≤ tyVal t a.toNat then tyVal t a.toNat else tyVal t b.toNat)
def absOf (t : Ty) (a : Word) : Word := tyRes t (tyVal t a.toNat).natAbs
def negOf (t : Ty) (a : Word) : Word := tyRes t (-(tyVal t a.toNat))

/-- R86: sum word and carry out; difference word and borrow out. -/
def addcOf (a b c : Word) : DWord := BitVec.ofNat 64 (a.toNat + b.toNat + c.toNat % 2)
def subbOf (a b c : Word) : DWord :=
  let s : Int := (a.toNat : Int) - b.toNat - (c.toNat % 2 : Nat)
  (if s < 0 then (1 : Word) else 0) ++ BitVec.ofInt 32 s

/-- R87: quotient and remainder. -/
def divInt (a b : Int) : Int := if b = 0 then -1 else (if (a < 0) = (b < 0) then 1 else -1) * (a.natAbs / b.natAbs : Nat)
def remInt (a b : Int) : Int := if b = 0 then a else a - divInt a b * b

/-- R90. The amount is the whole second operand. -/
def shlOf (a : Word) (n : Nat) : Word := if n < 32 then BitVec.ofNat 32 (a.toNat * 2 ^ n) else 0
def shrOf (a : Word) (n : Nat) : Word := if n < 32 then BitVec.ofNat 32 (a.toNat / 2 ^ n) else 0
def sarOf (a : Word) (n : Nat) : Word :=
  if n < 32 then BitVec.ofInt 32 (a.toInt / (2 ^ n : Nat)) else if a.getLsbD 31 then BitVec.allOnes 32 else 0
def rotOf (a : Word) (n : Nat) : Word :=
  let k := n % 32
  BitVec.ofNat 32 (a.toNat * 2 ^ k % 2 ^ 32 + a.toNat / 2 ^ (32 - k))

/-- R91. -/
def clzOf (a : Word) : Nat := if a = 0 then 32 else 31 - Nat.log2 a.toNat
def ctzFrom (a : Word) : Nat → Nat → Nat
  | 0, i => i
  | k + 1, i => if a.getLsbD i then i else ctzFrom a k (i + 1)
def ctzOf (a : Word) : Nat := ctzFrom a 32 0
def popcOf (a : Word) : Nat := ((List.range 32).filter fun i => a.getLsbD i).length
def brevOf (a : Word) : Word :=
  (List.range 32).foldl (fun r i => if a.getLsbD (31 - i) then r ||| BitVec.ofNat 32 (2 ^ i) else r) 0

/-- R92: position and length of the field that B names, clamped. -/
def fieldPos (b : Word) : Nat := Nat.min (b.toNat % 256) 32
def fieldLen (b : Word) : Nat := Nat.min (b.toNat / 256 % 256) (32 - fieldPos b)
def bfeOf (t : Ty) (a b : Word) : Word :=
  let l := fieldLen b
  let f := a.toNat / 2 ^ fieldPos b % 2 ^ l
  if l = 0 then 0 else BitVec.ofInt 32 (intOf (t == .s32) l f)
def bfiOf (a b c : Word) : Word :=
  let m := BitVec.ofNat 32 ((2 ^ fieldLen b - 1) * 2 ^ fieldPos b)
  (c &&& ~~~m) ||| (BitVec.ofNat 32 (a.toNat * 2 ^ fieldPos b) &&& m)

/-- R93: one result byte. -/
def bpermByte (a b : Word) (s : Nat) : Nat :=
  let i := s % 4
  let src := s / 4 % 4
  let x := if src = 0 then a.toNat / 2 ^ (8 * i) % 256 else if src = 1 then b.toNat / 2 ^ (8 * i) % 256
    else if src = 2 then 0 else 255
  if s / 16 % 2 = 1 ∧ src ≤ 1 then (if 128 ≤ x then 255 else 0) else x
def bpermOf (a b c : Word) : Word :=
  BitVec.ofNat 32 ((List.range 4).foldl (fun r j => r + bpermByte a b (c.toNat / 2 ^ (8 * j) % 256) * 2 ^ (8 * j)) 0)

/-- R95. -/
def condHolds (c : Cond) (a b : Int) : Bool :=
  match c with
  | .eq => decide (a = b)
  | .ne => decide (a ≠ b)
  | .lt => decide (a < b)
  | .le => decide (a ≤ b)
  | .gt => decide (b < a)
  | .ge => decide (b ≤ a)

def boolWord (b : Bool) : Word := if b then 1 else 0

def cmpOf (c : Cond) (t : Ty) (a b : Word) : Word := boolWord (condHolds c (tyVal t a.toNat) (tyVal t b.toNat))

/-- R96. -/
def shl64Of (a : DWord) (n : Nat) : DWord := if n < 64 then BitVec.ofNat 64 (a.toNat * 2 ^ n) else 0
def shr64Of (t : Ty) (a : DWord) (n : Nat) : DWord :=
  if t = .s64 then
    (if n < 64 then BitVec.ofInt 64 (a.toInt / (2 ^ n : Nat)) else if a.getLsbD 63 then BitVec.allOnes 64 else 0)
  else if n < 64 then BitVec.ofNat 64 (a.toNat / 2 ^ n) else 0

/-- R97. -/
def leaOf (nat : Bool) (sc : Nat) (a : DWord) (b : Word) : DWord :=
  BitVec.ofInt 64 ((a.toNat : Int) + (if nat then (b.toNat : Int) else b.toInt) * (2 ^ sc : Nat))

/-- R99. -/
def idp4Of (t : Ty) (a b c : Word) : Word :=
  BitVec.ofInt 32 ((List.range 4).foldl (fun (acc : Int) k =>
    acc + tyVal t (a.toNat / 2 ^ (8 * k)) * tyVal t (b.toNat / 2 ^ (8 * k))) c.toInt)

/-- The second operand of an immediate form (R67, R100). -/
def immWord (imm : BitVec 24) : Word := imm.signExtend 32

/-! ## Meanings -/

def rw (t : Thread) (a : Src) : Word := t.word a.r.toNat
def rp (t : Thread) (a : Src) : DWord := t.pair a.r.toNat

def execAdd (t : Ty) (d : Reg) (a b : Src) (s : State) : Host.Outcome State Fault Refusal :=
  write1 s (.add t d a b) d [src1 a, src1 b] fun x => addOf t (rw x a) (rw x b)

def execSub (t : Ty) (d : Reg) (a b : Src) (s : State) : Host.Outcome State Fault Refusal :=
  write1 s (.sub t d a b) d [src1 a, src1 b] fun x => subOf t (rw x a) (rw x b)

def execAddc (t : Ty) (d : Reg) (a b c : Src) (s : State) : Host.Outcome State Fault Refusal :=
  write2 s (.addc t d a b c) d [src1 a, src1 b, src1 c] fun x => addcOf (rw x a) (rw x b) (rw x c)

def execSubb (t : Ty) (d : Reg) (a b c : Src) (s : State) : Host.Outcome State Fault Refusal :=
  write2 s (.subb t d a b c) d [src1 a, src1 b, src1 c] fun x => subbOf (rw x a) (rw x b) (rw x c)

def execMul (t : Ty) (d : Reg) (a b : Src) (s : State) : Host.Outcome State Fault Refusal :=
  write1 s (.mul t d a b) d [src1 a, src1 b] fun x => mulOf t (rw x a) (rw x b)

def execMulh (t : Ty) (d : Reg) (a b : Src) (s : State) : Host.Outcome State Fault Refusal :=
  write1 s (.mulh t d a b) d [src1 a, src1 b] fun x => mulhOf t (rw x a) (rw x b)

def execMad (t : Ty) (d : Reg) (a b c : Src) (s : State) : Host.Outcome State Fault Refusal :=
  write1 s (.mad t d a b c) d [src1 a, src1 b, src1 c] fun x => madOf t (rw x a) (rw x b) (rw x c)

/-- `div` and `rem` (R87): T_DIV0 where EID is set outside trap mode (R145); otherwise a producer of class 0x2. -/
def divide (s : State) (i : Instr) (t : Ty) (d : Reg) (a b : Src) (f : Int → Int → Int) :
    Host.Outcome State Fault Refusal :=
  let q := t.inQ
  issue s i (if q then [src2 a, src2 b, dst2 d] else [src1 a, src1 b, dst1 d]) fun _ x =>
    let av := tyVal t (if q then (rp x a).toNat else (rw x a).toNat)
    let bv := tyVal t (if q then (rp x b).toNat else (rw x b).toNat)
    if bv = 0 ∧ x.fpctl.getLsbD 5 ∧ !x.mode then takeTrap s x .tDiv0 x.pc 0
    else
      let v := f av bv
      let ws := if q then [lowWord (BitVec.ofInt 64 v), highWord (BitVec.ofInt 64 v)] else [tyRes t v]
      produce s x i d.toNat ws.length 2 (x.req s.now none (.value d.toNat ws 0 false))

def execDiv (t : Ty) (d : Reg) (a b : Src) (s : State) : Host.Outcome State Fault Refusal :=
  divide s (.div t d a b) t d a b divInt

def execRem (t : Ty) (d : Reg) (a b : Src) (s : State) : Host.Outcome State Fault Refusal :=
  divide s (.rem t d a b) t d a b remInt

def execMin (t : Ty) (d : Reg) (a b : Src) (s : State) : Host.Outcome State Fault Refusal :=
  write1 s (.min t d a b) d [src1 a, src1 b] fun x => minOf t (rw x a) (rw x b)

def execMax (t : Ty) (d : Reg) (a b : Src) (s : State) : Host.Outcome State Fault Refusal :=
  write1 s (.max t d a b) d [src1 a, src1 b] fun x => maxOf t (rw x a) (rw x b)

def execAbs (t : Ty) (d : Reg) (a : Src) (s : State) : Host.Outcome State Fault Refusal :=
  write1 s (.abs t d a) d [src1 a] fun x => absOf t (rw x a)

def execNeg (t : Ty) (d : Reg) (a : Src) (s : State) : Host.Outcome State Fault Refusal :=
  write1 s (.neg t d a) d [src1 a] fun x => negOf t (rw x a)

def execAnd (d : Reg) (a b : Src) (s : State) : Host.Outcome State Fault Refusal :=
  write1 s (.and d a b) d [src1 a, src1 b] fun x => rw x a &&& rw x b

def execOr (d : Reg) (a b : Src) (s : State) : Host.Outcome State Fault Refusal :=
  write1 s (.or d a b) d [src1 a, src1 b] fun x => rw x a ||| rw x b

def execXor (d : Reg) (a b : Src) (s : State) : Host.Outcome State Fault Refusal :=
  write1 s (.xor d a b) d [src1 a, src1 b] fun x => rw x a ^^^ rw x b

def execNot (d : Reg) (a : Src) (s : State) : Host.Outcome State Fault Refusal :=
  write1 s (.not d a) d [src1 a] fun x => ~~~(rw x a)

def execAndn (d : Reg) (a b : Src) (s : State) : Host.Outcome State Fault Refusal :=
  write1 s (.andn d a b) d [src1 a, src1 b] fun x => rw x a &&& ~~~(rw x b)

def execOrn (d : Reg) (a b : Src) (s : State) : Host.Outcome State Fault Refusal :=
  write1 s (.orn d a b) d [src1 a, src1 b] fun x => rw x a ||| ~~~(rw x b)

def execShl (d : Reg) (a b : Src) (s : State) : Host.Outcome State Fault Refusal :=
  write1 s (.shl d a b) d [src1 a, src1 b] fun x => shlOf (rw x a) (rw x b).toNat

def execShr (d : Reg) (a b : Src) (s : State) : Host.Outcome State Fault Refusal :=
  write1 s (.shr d a b) d [src1 a, src1 b] fun x => shrOf (rw x a) (rw x b).toNat

def execSar (d : Reg) (a b : Src) (s : State) : Host.Outcome State Fault Refusal :=
  write1 s (.sar d a b) d [src1 a, src1 b] fun x => sarOf (rw x a) (rw x b).toNat

def execRot (d : Reg) (a b : Src) (s : State) : Host.Outcome State Fault Refusal :=
  write1 s (.rot d a b) d [src1 a, src1 b] fun x => rotOf (rw x a) (rw x b).toNat

def execClz (d : Reg) (a : Src) (s : State) : Host.Outcome State Fault Refusal :=
  write1 s (.clz d a) d [src1 a] fun x => BitVec.ofNat 32 (clzOf (rw x a))

def execCtz (d : Reg) (a : Src) (s : State) : Host.Outcome State Fault Refusal :=
  write1 s (.ctz d a) d [src1 a] fun x => BitVec.ofNat 32 (ctzOf (rw x a))

def execPopc (d : Reg) (a : Src) (s : State) : Host.Outcome State Fault Refusal :=
  write1 s (.popc d a) d [src1 a] fun x => BitVec.ofNat 32 (popcOf (rw x a))

def execBrev (d : Reg) (a : Src) (s : State) : Host.Outcome State Fault Refusal :=
  write1 s (.brev d a) d [src1 a] fun x => brevOf (rw x a)

def execBfe (t : Ty) (d : Reg) (a b : Src) (s : State) : Host.Outcome State Fault Refusal :=
  write1 s (.bfe t d a b) d [src1 a, src1 b] fun x => bfeOf t (rw x a) (rw x b)

def execBfi (d : Reg) (a b c : Src) (s : State) : Host.Outcome State Fault Refusal :=
  write1 s (.bfi d a b c) d [src1 a, src1 b, src1 c] fun x => bfiOf (rw x a) (rw x b) (rw x c)

def execBperm (d : Reg) (a b c : Src) (s : State) : Host.Outcome State Fault Refusal :=
  write1 s (.bperm d a b c) d [src1 a, src1 b, src1 c] fun x => bpermOf (rw x a) (rw x b) (rw x c)

def execSel (d : Reg) (a b c : Src) (s : State) : Host.Outcome State Fault Refusal :=
  write1 s (.sel d a b c) d [src1 a, src1 b, src1 c] fun x => if rw x c = 0 then rw x b else rw x a

def execCmp (cc : Cond) (t : Ty) (d : Reg) (a b : Src) (s : State) : Host.Outcome State Fault Refusal :=
  write1 s (.cmp cc t d a b) d [src1 a, src1 b] fun x => cmpOf cc t (rw x a) (rw x b)

def execAdd64 (d : Reg) (a b : Src) (s : State) : Host.Outcome State Fault Refusal :=
  write2 s (.add64 d a b) d [src2 a, src2 b] fun x => rp x a + rp x b

def execSub64 (d : Reg) (a b : Src) (s : State) : Host.Outcome State Fault Refusal :=
  write2 s (.sub64 d a b) d [src2 a, src2 b] fun x => rp x a - rp x b

def execMul64 (d : Reg) (a b : Src) (s : State) : Host.Outcome State Fault Refusal :=
  write2 s (.mul64 d a b) d [src2 a, src2 b] fun x => rp x a * rp x b

def execShl64 (d : Reg) (a b : Src) (s : State) : Host.Outcome State Fault Refusal :=
  write2 s (.shl64 d a b) d [src2 a, src1 b] fun x => shl64Of (rp x a) (rw x b).toNat

def execShr64 (t : Ty) (d : Reg) (a b : Src) (s : State) : Host.Outcome State Fault Refusal :=
  write2 s (.shr64 t d a b) d [src2 a, src1 b] fun x => shr64Of t (rp x a) (rw x b).toNat

def execCmp64 (cc : Cond) (t : Ty) (d : Reg) (a b : Src) (s : State) : Host.Outcome State Fault Refusal :=
  write1 s (.cmp64 cc t d a b) d [src2 a, src2 b] fun x =>
    boolWord (condHolds cc (tyVal t (rp x a).toNat) (tyVal t (rp x b).toNat))

def execLea (nat : Bool) (sc : BitVec 3) (d : Reg) (a b : Src) (s : State) : Host.Outcome State Fault Refusal :=
  write2 s (.lea nat sc d a b) d [src2 a, src1 b] fun x => leaOf nat sc.toNat (rp x a) (rw x b)

def execMov (d : Reg) (a : Src) (s : State) : Host.Outcome State Fault Refusal :=
  write1 s (.mov d a) d [src1 a] fun x => rw x a

def execMovi (d : Reg) (imm : Word) (s : State) : Host.Outcome State Fault Refusal :=
  write1 s (.movi d imm) d [] fun _ => imm

def execMovp (d : Reg) (imm : DWord) (s : State) : Host.Outcome State Fault Refusal :=
  write2 s (.movp d imm) d [] fun _ => imm

def execIdp4 (t : Ty) (d : Reg) (a b c : Src) (s : State) : Host.Outcome State Fault Refusal :=
  write1 s (.idp4 t d a b c) d [src1 a, src1 b, src1 c] fun x => idp4Of t (rw x a) (rw x b) (rw x c)

def execAddImm (t : Ty) (d : Reg) (a : Src) (imm : BitVec 24) (s : State) : Host.Outcome State Fault Refusal :=
  write1 s (.addImm t d a imm) d [src1 a] fun x => addOf t (rw x a) (immWord imm)

def execMulImm (t : Ty) (d : Reg) (a : Src) (imm : BitVec 24) (s : State) : Host.Outcome State Fault Refusal :=
  write1 s (.mulImm t d a imm) d [src1 a] fun x => mulOf t (rw x a) (immWord imm)

def execAndImm (d : Reg) (a : Src) (imm : BitVec 24) (s : State) : Host.Outcome State Fault Refusal :=
  write1 s (.andImm d a imm) d [src1 a] fun x => rw x a &&& immWord imm

def execOrImm (d : Reg) (a : Src) (imm : BitVec 24) (s : State) : Host.Outcome State Fault Refusal :=
  write1 s (.orImm d a imm) d [src1 a] fun x => rw x a ||| immWord imm

def execXorImm (d : Reg) (a : Src) (imm : BitVec 24) (s : State) : Host.Outcome State Fault Refusal :=
  write1 s (.xorImm d a imm) d [src1 a] fun x => rw x a ^^^ immWord imm

def execShlImm (d : Reg) (a : Src) (imm : BitVec 24) (s : State) : Host.Outcome State Fault Refusal :=
  write1 s (.shlImm d a imm) d [src1 a] fun x => shlOf (rw x a) (immWord imm).toNat

def execShrImm (d : Reg) (a : Src) (imm : BitVec 24) (s : State) : Host.Outcome State Fault Refusal :=
  write1 s (.shrImm d a imm) d [src1 a] fun x => shrOf (rw x a) (immWord imm).toNat

def execSarImm (d : Reg) (a : Src) (imm : BitVec 24) (s : State) : Host.Outcome State Fault Refusal :=
  write1 s (.sarImm d a imm) d [src1 a] fun x => sarOf (rw x a) (immWord imm).toNat

def execMinImm (t : Ty) (d : Reg) (a : Src) (imm : BitVec 24) (s : State) : Host.Outcome State Fault Refusal :=
  write1 s (.minImm t d a imm) d [src1 a] fun x => minOf t (rw x a) (immWord imm)

def execMaxImm (t : Ty) (d : Reg) (a : Src) (imm : BitVec 24) (s : State) : Host.Outcome State Fault Refusal :=
  write1 s (.maxImm t d a imm) d [src1 a] fun x => maxOf t (rw x a) (immWord imm)

def execCmpImm (cc : Cond) (t : Ty) (d : Reg) (a : Src) (imm : BitVec 24) (s : State) :
    Host.Outcome State Fault Refusal :=
  write1 s (.cmpImm cc t d a imm) d [src1 a] fun x => cmpOf cc t (rw x a) (immWord imm)

end Sys2Proof.Machine
end

