-- ==== Sys2Proof/Machine/Float.lean ====
section
/-! DEFINITION. Thread instructions of file 06: floating point, packed half, conversion, block floating point, and the
P-form word. -/

namespace Sys2Proof.Machine

/-! ## Pure results -/

/-- A scalar source's encoding: its low bits (R49). -/
def scal (f : Fmt) (w : Word) : Nat := w.toNat % (2 * f.signBit)

def res32 (r : Nat × FFlags) : Word × FFlags := (BitVec.ofNat 32 r.1, r.2)

/-- Element `k` of a packed register (R49). -/
def elem (w : Word) (k : Nat) : Nat := w.toNat / 2 ^ (16 * k) % 2 ^ 16

/-- A packed result with the union of the flags. -/
def packed2 (f : Nat → Nat × FFlags) : Word × FFlags :=
  (BitVec.ofNat 32 ((f 0).1 % 2 ^ 16 + (f 1).1 % 2 ^ 16 * 2 ^ 16), (f 0).2 ||| (f 1).2)

def faddOf (f : Fmt) (m : FMod) (a b : Nat) : Nat × FFlags := addVals f m.rm m.ftz (unpackZ f m.ftz a) (unpackZ f m.ftz b)
def fsubOf (f : Fmt) (m : FMod) (a b : Nat) : Nat × FFlags :=
  addVals f m.rm m.ftz (unpackZ f m.ftz a) (unpackZ f m.ftz b).negate
def fmulOf (f : Fmt) (m : FMod) (a b : Nat) : Nat × FFlags := mulVals f m.rm m.ftz (unpackZ f m.ftz a) (unpackZ f m.ftz b)
def ffmaOf (f : Fmt) (m : FMod) (a b c : Nat) : Nat × FFlags :=
  fmaVals f m.rm m.ftz (unpackZ f m.ftz a) (unpackZ f m.ftz b) (unpackZ f m.ftz c)
def fdivOf (f : Fmt) (m : FMod) (a b : Nat) : Nat × FFlags := divVals f m.rm m.ftz (unpackZ f m.ftz a) (unpackZ f m.ftz b)

/-- `fdp2` (R114). -/
def fdp2Of (m : FMod) (a b c : Word) : Word × FFlags :=
  let f := fmtOf m.ty
  let v (w : Word) (k : Nat) := unpackZ f m.ftz (elem w k)
  let r0 := dotStep m.rm m.ftz c.toNat (v a 0) (v b 0)
  let r1 := dotStep m.rm m.ftz r0.1 (v a 1) (v b 1)
  let nv := nvOf [unpackZ fp32 m.ftz c.toNat, v a 0, v b 0, v a 1, v b 1]
  (BitVec.ofNat 32 r1.1, r0.2 ||| r1.2 ||| nv)

/-- The format of a floating-point type. -/
def tyFmt : Ty → Fmt
  | .f16 => fp16
  | .bf16 => bf16
  | .f32 | .s32 | .n32 | .s8 | .n8 | .s16 | .n16 | .s64 | .n64 => fp32

/-- The range of an integer type (R45). -/
def tyMin (t : Ty) : Int := if tySigned t then -(2 ^ (tyBits t - 1) : Nat) else 0
def tyMax (t : Ty) : Int := if tySigned t then (2 ^ (tyBits t - 1) : Nat) - 1 else (2 ^ tyBits t : Nat) - 1

/-- An integer result as a 64-bit pattern, extended by R46 for the narrow types. -/
def intRes (t : Ty) (v : Int) : DWord :=
  if t.inQ then BitVec.ofInt 64 v else (0 : Word) ++ tyRes t v

/-- `cvt` (R115): the source as a 64-bit pattern, the result as a 64-bit pattern. -/
def cvtOf (dt st : Ty) (md : RM) (ftz : Bool) (x : DWord) : DWord × FFlags :=
  if st.isFloat then
    let f := tyFmt st
    let v := unpackZ f ftz (x.toNat % (2 * f.signBit))
    if dt.isFloat then
      let g := tyFmt dt
      let r : Nat × FFlags := match v with
        | .nan sn => (g.nanBits, if sn then fNV else 0)
        | .inf n => (withSign g n g.infBits, 0)
        | .fin n m e => flush g ftz (roundVal g md n m e)
      (BitVec.ofNat 64 r.1, r.2)
    else
      match v with
      | .nan _ => (0, fNV)
      | .inf n => (intRes dt (if n then tyMin dt else tyMax dt), fNV)
      | .fin n m e =>
        let r := toIntMag md n m e
        let i : Int := if n then -(r.1 : Int) else r.1
        if i < tyMin dt then (intRes dt (tyMin dt), fNV)
        else if tyMax dt < i then (intRes dt (tyMax dt), fNV)
        else (intRes dt i, if r.2 then fNX else 0)
  else
    let i := tyVal st x.toNat
    if dt.isFloat then
      let g := tyFmt dt
      let r := roundVal g md (decide (i < 0)) i.natAbs 0
      (BitVec.ofNat 64 r.1, r.2)
    else (intRes dt i, 0)

/-! ## Meanings -/

/-- Two scalar sources. -/
def float2 (s : State) (i : Instr) (t : FTy) (d : Reg) (a b : Src) (f : Nat → Nat → Nat × FFlags) :
    Host.Outcome State Fault Refusal :=
  writeFl s i d [src1 a, src1 b] fun x => res32 (f (scal (fmtOf t) (rw x a)) (scal (fmtOf t) (rw x b)))

def float1 (s : State) (i : Instr) (t : FTy) (d : Reg) (a : Src) (f : Nat → Nat × FFlags) :
    Host.Outcome State Fault Refusal :=
  writeFl s i d [src1 a] fun x => res32 (f (scal (fmtOf t) (rw x a)))

def execFadd (m : FMod) (d : Reg) (a b : Src) (s : State) : Host.Outcome State Fault Refusal :=
  float2 s (.fadd m d a b) m.ty d a b (faddOf (fmtOf m.ty) m)

def execFsub (m : FMod) (d : Reg) (a b : Src) (s : State) : Host.Outcome State Fault Refusal :=
  float2 s (.fsub m d a b) m.ty d a b (fsubOf (fmtOf m.ty) m)

def execFmul (m : FMod) (d : Reg) (a b : Src) (s : State) : Host.Outcome State Fault Refusal :=
  float2 s (.fmul m d a b) m.ty d a b (fmulOf (fmtOf m.ty) m)

def execFfma (m : FMod) (d : Reg) (a b c : Src) (s : State) : Host.Outcome State Fault Refusal :=
  writeFl s (.ffma m d a b c) d [src1 a, src1 b, src1 c] fun x =>
    let f := fmtOf m.ty
    res32 (ffmaOf f m (scal f (rw x a)) (scal f (rw x b)) (scal f (rw x c)))

def execFmin (t : FTy) (ftz : Bool) (d : Reg) (a b : Src) (s : State) : Host.Outcome State Fault Refusal :=
  float2 s (.fmin t ftz d a b) t d a b (minMax (fmtOf t) ftz false)

def execFmax (t : FTy) (ftz : Bool) (d : Reg) (a b : Src) (s : State) : Host.Outcome State Fault Refusal :=
  float2 s (.fmax t ftz d a b) t d a b (minMax (fmtOf t) ftz true)

def execFabs (t : FTy) (d : Reg) (a : Src) (s : State) : Host.Outcome State Fault Refusal :=
  float1 s (.fabs t d a) t d a fun v => (v % (fmtOf t).signBit, 0)

def execFneg (t : FTy) (d : Reg) (a : Src) (s : State) : Host.Outcome State Fault Refusal :=
  float1 s (.fneg t d a) t d a fun v => ((v + (fmtOf t).signBit) % (2 * (fmtOf t).signBit), 0)

def execFcmp (cc : FCond) (t : FTy) (ftz : Bool) (d : Reg) (a b : Src) (s : State) :
    Host.Outcome State Fault Refusal :=
  float2 s (.fcmp cc t ftz d a b) t d a b fun v w =>
    let x := unpackZ (fmtOf t) ftz v
    let y := unpackZ (fmtOf t) ftz w
    (if fcondHolds cc x y then 1 else 0, fcondFlags cc x y)

def execFclass (t : FTy) (d : Reg) (a : Src) (s : State) : Host.Outcome State Fault Refusal :=
  float1 s (.fclass t d a) t d a fun v => (classOf (fmtOf t) v, 0)

/-- A producer of R109: flags come with the fill, and while a trap enable is set the thread waits for it (R110). -/
def produceFp (s : State) (t : Thread) (i : Instr) (d : Reg) (r : Nat × FFlags) : State :=
  let (_, s) := addReq s (t.req s.now none (.value d.toNat [BitVec.ofNat 32 r.1] r.2 true))
  let t' := t.markEmpty d.toNat (producerTag 2 t.pc) 1
  let s := finish s t' i 0
  if t.fpctl.toNat % 32 = 0 then s
  else s.updThread t.team t.tix fun x => { x with place := .parked (.fpu none) }

def function1 (s : State) (i : Instr) (fn : Fun1) (m : FMod) (d : Reg) (a : Src) : Host.Outcome State Fault Refusal :=
  issue s i [src1 a, dst1 d] fun _ x =>
    produceFp s x i d (fun1 fn (fmtOf m.ty) m.rm m.ftz (scal (fmtOf m.ty) (rw x a)))

def execFrcp (m : FMod) (d : Reg) (a : Src) (s : State) : Host.Outcome State Fault Refusal :=
  function1 s (.frcp m d a) .rcp m d a

def execFrsq (m : FMod) (d : Reg) (a : Src) (s : State) : Host.Outcome State Fault Refusal :=
  function1 s (.frsq m d a) .rsq m d a

def execFsqrt (m : FMod) (d : Reg) (a : Src) (s : State) : Host.Outcome State Fault Refusal :=
  function1 s (.fsqrt m d a) .sqrt m d a

def execFdiv (m : FMod) (d : Reg) (a b : Src) (s : State) : Host.Outcome State Fault Refusal :=
  issue s (.fdiv m d a b) [src1 a, src1 b, dst1 d] fun _ x =>
    produceFp s x (.fdiv m d a b) d
      (fdivOf (fmtOf m.ty) m (scal (fmtOf m.ty) (rw x a)) (scal (fmtOf m.ty) (rw x b)))

def execFexp2 (m : FMod) (d : Reg) (a : Src) (s : State) : Host.Outcome State Fault Refusal :=
  function1 s (.fexp2 m d a) .exp2 m d a

def execFlog2 (m : FMod) (d : Reg) (a : Src) (s : State) : Host.Outcome State Fault Refusal :=
  function1 s (.flog2 m d a) .log2 m d a

def execFldexp (m : FMod) (d : Reg) (a b : Src) (s : State) : Host.Outcome State Fault Refusal :=
  writeFl s (.fldexp m d a b) d [src1 a, src1 b] fun x =>
    res32 (ldexpVal (fmtOf m.ty) m.rm m.ftz (scal (fmtOf m.ty) (rw x a)) (rw x b).toInt)

def execFgetexp (t : FTy) (ftz : Bool) (d : Reg) (a : Src) (s : State) : Host.Outcome State Fault Refusal :=
  writeFl s (.fgetexp t ftz d a) d [src1 a] fun x =>
    let r := getexpVal (fmtOf t) ftz (scal (fmtOf t) (rw x a))
    (BitVec.ofInt 32 r.1, r.2)

def execFrnd (m : FMod) (d : Reg) (a : Src) (s : State) : Host.Outcome State Fault Refusal :=
  float1 s (.frnd m d a) m.ty d a (rndVal (fmtOf m.ty) m.rm m.ftz)

/-- Packed instructions: the scalar rule on each element (R113). -/
def execHadd2 (m : FMod) (d : Reg) (a b : Src) (s : State) : Host.Outcome State Fault Refusal :=
  writeFl s (.hadd2 m d a b) d [src1 a, src1 b] fun x =>
    packed2 fun k => faddOf (fmtOf m.ty) m (elem (rw x a) k) (elem (rw x b) k)

def execHsub2 (m : FMod) (d : Reg) (a b : Src) (s : State) : Host.Outcome State Fault Refusal :=
  writeFl s (.hsub2 m d a b) d [src1 a, src1 b] fun x =>
    packed2 fun k => fsubOf (fmtOf m.ty) m (elem (rw x a) k) (elem (rw x b) k)

def execHmul2 (m : FMod) (d : Reg) (a b : Src) (s : State) : Host.Outcome State Fault Refusal :=
  writeFl s (.hmul2 m d a b) d [src1 a, src1 b] fun x =>
    packed2 fun k => fmulOf (fmtOf m.ty) m (elem (rw x a) k) (elem (rw x b) k)

def execHfma2 (m : FMod) (d : Reg) (a b c : Src) (s : State) : Host.Outcome State Fault Refusal :=
  writeFl s (.hfma2 m d a b c) d [src1 a, src1 b, src1 c] fun x =>
    packed2 fun k => ffmaOf (fmtOf m.ty) m (elem (rw x a) k) (elem (rw x b) k) (elem (rw x c) k)

def execHmin2 (t : FTy) (ftz : Bool) (d : Reg) (a b : Src) (s : State) : Host.Outcome State Fault Refusal :=
  writeFl s (.hmin2 t ftz d a b) d [src1 a, src1 b] fun x =>
    packed2 fun k => minMax (fmtOf t) ftz false (elem (rw x a) k) (elem (rw x b) k)

def execHmax2 (t : FTy) (ftz : Bool) (d : Reg) (a b : Src) (s : State) : Host.Outcome State Fault Refusal :=
  writeFl s (.hmax2 t ftz d a b) d [src1 a, src1 b] fun x =>
    packed2 fun k => minMax (fmtOf t) ftz true (elem (rw x a) k) (elem (rw x b) k)

def execHcmp2 (cc : FCond) (t : FTy) (ftz : Bool) (d : Reg) (a b : Src) (s : State) :
    Host.Outcome State Fault Refusal :=
  writeFl s (.hcmp2 cc t ftz d a b) d [src1 a, src1 b] fun x =>
    packed2 fun k =>
      let v := unpackZ (fmtOf t) ftz (elem (rw x a) k)
      let w := unpackZ (fmtOf t) ftz (elem (rw x b) k)
      (if fcondHolds cc v w then 0xFFFF else 0, fcondFlags cc v w)

def execFdp2 (m : FMod) (d : Reg) (a b c : Src) (s : State) : Host.Outcome State Fault Refusal :=
  writeFl s (.fdp2 m d a b c) d [src1 a, src1 b, src1 c] fun x => fdp2Of m (rw x a) (rw x b) (rw x c)

/-- The conversions: a 64-bit integer type makes its side a pair (R115). -/
def convert (s : State) (i : Instr) (dt st : Ty) (md : RM) (ftz : Bool) (d : Reg) (a : Src) :
    Host.Outcome State Fault Refusal :=
  issue s i [if st.inQ then src2 a else src1 a, if dt.inQ then dst2 d else dst1 d] fun _ x =>
    let v : DWord := if st.inQ then rp x a else (0 : Word) ++ rw x a
    let r := cvtOf dt st md ftz v
    finish s (if dt.inQ then x.writePair d.toNat r.1 else x.write d.toNat (lowWord r.1)) i r.2

def execCvt (dt st : Ty) (ftz : Bool) (d : Reg) (a : Src) (s : State) : Host.Outcome State Fault Refusal :=
  convert s (.cvt dt st ftz d a) dt st .rne ftz d a

def execCvtRz (dt st : Ty) (ftz : Bool) (d : Reg) (a : Src) (s : State) : Host.Outcome State Fault Refusal :=
  convert s (.cvtRz dt st ftz d a) dt st .rz ftz d a

def execCvtRu (dt st : Ty) (ftz : Bool) (d : Reg) (a : Src) (s : State) : Host.Outcome State Fault Refusal :=
  convert s (.cvtRu dt st ftz d a) dt st .ru ftz d a

def execCvtRd (dt st : Ty) (ftz : Bool) (d : Reg) (a : Src) (s : State) : Host.Outcome State Fault Refusal :=
  convert s (.cvtRd dt st ftz d a) dt st .rd ftz d a

/-- `bqenc` and `bqdec` (R116): w = BW + 2, the exponent is B[7:0]. -/
def execBqenc (bw : BitVec 3) (d : Reg) (a b : Src) (s : State) : Host.Outcome State Fault Refusal :=
  writeFl s (.bqenc bw d a b) d [src1 a, src1 b] fun x =>
    res32 (bqEncode (rw x a).toNat ((rw x b).toNat % 256) (bw.toNat + 2))

def execBqdec (bw : BitVec 3) (d : Reg) (a b : Src) (s : State) : Host.Outcome State Fault Refusal :=
  writeFl s (.bqdec bw d a b) d [src1 a, src1 b] fun x =>
    res32 (bqDecode (rw x a).toNat ((rw x b).toNat % 256) (bw.toNat + 2))

/-! ## P-form words (R65, R66, R79, R101, R117) -/

def rmOf (k : Nat) : RM := if k = 0 then .rne else if k = 1 then .rz else if k = 2 then .ru else .rd

/-- The result of a half on D and S. -/
def halfOf (h : Half) (d x : Word) : Word × FFlags :=
  let mm (t : Ty) (mx : Bool) : Word := if mx then maxOf t d x else minOf t d x
  let ty : Ty := if h.m.toNat % 2 = 1 then .n32 else .s32
  let fm : FMod := ⟨.f32, rmOf (h.m.toNat % 4), decide (4 ≤ h.m.toNat)⟩
  let hf : FMod := ⟨if 4 ≤ h.m.toNat then .bf16 else .f16, rmOf (h.m.toNat % 4), false⟩
  let hx := fmtOf hf.ty
  match h.op with
  | .add => (addOf .s32 d x, 0)
  | .sub => (subOf .s32 d x, 0)
  | .and => (d &&& x, 0)
  | .or => (d ||| x, 0)
  | .xor => (d ^^^ x, 0)
  | .andn => (d &&& ~~~x, 0)
  | .shl => (shlOf d x.toNat, 0)
  | .shr => (shrOf d x.toNat, 0)
  | .sar => (sarOf d x.toNat, 0)
  | .min => (mm ty false, 0)
  | .max => (mm ty true, 0)
  | .mul => (mulOf .s32 d x, 0)
  | .mov => (x, 0)
  | .fadd => res32 (faddOf fp32 fm d.toNat x.toNat)
  | .fsub => res32 (fsubOf fp32 fm d.toNat x.toNat)
  | .fmul => res32 (fmulOf fp32 fm d.toNat x.toNat)
  | .fmin => res32 (minMax fp32 fm.ftz false d.toNat x.toNat)
  | .fmax => res32 (minMax fp32 fm.ftz true d.toNat x.toNat)
  | .hadd2 => packed2 fun k => faddOf hx hf (elem d k) (elem x k)
  | .hsub2 => packed2 fun k => fsubOf hx hf (elem d k) (elem x k)
  | .hmul2 => packed2 fun k => fmulOf hx hf (elem d k) (elem x k)

/-- The fields of a half, S then D; D is read under the park policy. -/
def halfFields (h : Half) : List RF := [src1 h.s, src1 ⟨h.d, false⟩]

def execPairWord (ha hb : Half) (s : State) : Host.Outcome State Fault Refusal :=
  issue s (.pairWord ha hb) (halfFields ha ++ halfFields hb ++ [dst1 ha.d, dst1 hb.d]) fun _ t =>
    let ra := halfOf ha (t.word ha.d.toNat) (t.word ha.s.r.toNat)
    let rb := halfOf hb (t.word hb.d.toNat) (t.word hb.s.r.toNat)
    finish s ((t.write ha.d.toNat ra.1).write hb.d.toNat rb.1) (.pairWord ha hb) (ra.2 ||| rb.2)

end Sys2Proof.Machine
end

