-- ==== Sys2Proof/Machine/Peer.lean ====
section
/-! DEFINITION. Registers that accesses reach: the virtual-device table (R398, R399), the Ethernet windows (R410) and the
notify pages (R319, R320, R368). -/

namespace Sys2Proof.Machine

/-! ## The virtual-device table (R398) -/

/-- What an entry names. -/
inductive VdnKind
  | none
  | unicast (pkg fn : Nat)
  | group (g : Nat)
  | eth (port : Nat)
  deriving DecidableEq, Repr

/-- An entry with KIND 0 or a reserved bit set names nothing. -/
def vdnKind (e : Nat) : VdnKind :=
  if e % 4 = 1 ∧ e / 2 ^ 14 = 0 then .unicast (e / 4 % 64) (e / 2 ^ 8 % 64)
  else if e % 4 = 2 ∧ e / 2 ^ 14 = 0 then .group (e / 4 % 4096)
  else if e % 4 = 3 ∧ e / 8 = 0 then .eth (e / 4 % 2)
  else .none

/-- FB_VDNBASE: EN and BASE. -/
def Fn.vdnEn (f : Fn) : Bool := f.vdnbase.getLsbD 0
def Fn.vdnBase (f : Fn) : Nat := f.vdnbase.toNat % 2 ^ 52 / 2 ^ 18 * 2 ^ 18

/-- Read an entry from the table, past the cache. -/
def readVdn (s : State) (fn v : Nat) : State × Nat :=
  let r := readMem s fn ((s.fn fn).vdnBase + 4 * v) 4
  (r.1, leNat r.2)

/-- What a VDN of a function names, through the die's cache; with EN 0, nothing. -/
def lookupVdn (s : State) (die fn v : Nat) : State × VdnKind :=
  if !(s.fn fn).vdnEn then (s, .none)
  else
    match (s.die die).vdns.find? fun x => x.fn == fn && x.vdn == v with
    | some x => (s, vdnKind x.entry)
    | none =>
      let (s, e) := readVdn s fn v
      let d := s.die die
      (s.setDie die { d with vdns := d.vdns ++ [⟨fn, v, e⟩] }, vdnKind e)

/-! ## Ethernet windows (R410) -/

def State.eq (s : State) (port k : Nat) : Eq := FMap.get Eq.reset s.fab.eqs (16 * port + k)

def State.setEq (s : State) (port k : Nat) (x : Eq) : State :=
  { s with fab := { s.fab with eqs := FMap.set Eq.reset s.fab.eqs (16 * port + k) x } }

/-- FB_EQCFG. -/
def Eq.owner (q : Eq) : Nat := q.cfg.toNat % 64
def Eq.en (q : Eq) : Bool := q.cfg.getLsbD 6
def Eq.txlog (q : Eq) : Nat := q.cfg.toNat / 2 ^ 8 % 16
def Eq.rxlog (q : Eq) : Nat := q.cfg.toNat / 2 ^ 12 % 16
def Eq.udpport (q : Eq) : Nat := q.cfg.toNat / 2 ^ 16 % 2 ^ 16

/-- A read of a window register by function `fn`. -/
def ethRead (s : State) (fn port off : Nat) : DWord :=
  let q := s.eq port (off / 4096)
  if 16 ≤ off / 4096 ∨ q.owner ≠ fn then 0
  else
    match off % 4096 with
    | 0x00 => BitVec.ofNat 64 q.txtail.toNat
    | 0x08 => BitVec.ofNat 64 q.rxtail.toNat
    | 0x10 => BitVec.ofNat 64 q.txhead.toNat
    | 0x18 => BitVec.ofNat 64 q.rxhead.toNat
    | _ => 0

/-- A write of a window register by function `fn`. -/
def ethWrite (s : State) (fn port off : Nat) (x : DWord) : State :=
  let q := s.eq port (off / 4096)
  if 16 ≤ off / 4096 ∨ q.owner ≠ fn then s
  else
    match off % 4096 with
    | 0x00 => s.setEq port (off / 4096) { q with txtail := lowWord x }
    | 0x08 => s.setEq port (off / 4096) { q with rxtail := lowWord x }
    | _ => s

/-! ## Notify pages (R319, R320) -/

/-- A write of TAIL is accepted where it runs at most 2^LOG ahead of HEAD. -/
def tailOk (q : LQ) (x : Word) : Bool := decide ((x - q.head).toNat ≤ 2 ^ q.log)

/-- A write of DI_LQTAIL; queue 31 of the physical function takes it from trusted writers alone (R368). -/
def writeTail (s : State) (f q : Nat) (x : Word) (trusted : Bool) : State :=
  let l := s.lq f q
  if (f = 0 ∧ q = 31 ∧ !trusted) ∨ !tailOk l x then s.setLq f q { l with badt := true }
  else s.setLq f q { l with tail := x }

/-- A write of DI_LQCFG: while EN is 1, LOG is kept; enabling resets HEAD and TAIL. -/
def writeQueueCfg (s : State) (f q : Nat) (x : DWord) : State :=
  let l := s.lq f q
  let en := x.getLsbD 0
  let log := Nat.min (x.toNat / 2 ^ 8 % 16) 10
  if l.en then s.setLq f q { l with en := en }
  else if en then s.setLq f q { l with en := true, log := log, head := 0, tail := 0 }
  else s.setLq f q { l with log := log }

def notifyRead (s : State) (f q off : Nat) : DWord :=
  let l := s.lq f q
  match off with
  | 0x00 => l.base
  | 0x08 => BitVec.ofNat 64 ((if l.en then 1 else 0) + l.log * 256)
  | 0x10 => BitVec.ofNat 64 l.tail.toNat
  | 0x18 => BitVec.ofNat 64 l.head.toNat
  | 0x20 => BitVec.ofNat 64 ((if l.badt then 1 else 0) + (if l.rdf then 2 else 0))
  | _ => 0

def notifyWrite (s : State) (f q off : Nat) (x : DWord) (trusted : Bool) : State :=
  let l := s.lq f q
  match off with
  | 0x00 => if l.en then s else s.setLq f q { l with base := BitVec.ofNat 64 (x.toNat / 4096 * 4096) }
  | 0x08 => writeQueueCfg s f q x
  | 0x10 => writeTail s f q (lowWord x) trusted
  | 0x20 => s.setLq f q { l with badt := l.badt && !x.getLsbD 0, rdf := l.rdf && !x.getLsbD 1 }
  | _ => s

end Sys2Proof.Machine
end

