-- ==== Sys2Proof/Machine/Access.lean ====
section
/-! DEFINITION. Memory accesses of threads: the checks of R125 and R129, the order of a thread's requests (R127, R128), the
L1 (R300) and the phase store buffer (R173 to R175). -/

namespace Sys2Proof.Machine

def widthBytes : Width → Nat
  | .w8 => 1 | .w16 => 2 | .w32 => 4 | .w64 => 8 | .w128 => 16

/-- Registers that a width names: one, a pair or a quad (R126). -/
def widthRegs (w : Width) : Nat :=
  match w with
  | .w8 | .w16 | .w32 => 1
  | .w64 => 2
  | .w128 => 4

def srcW (w : Width) (a : Src) : RF := srcN a (widthRegs w) (widthRegs w)
def dstW (w : Width) (d : Reg) : RF := dstN d (widthRegs w) (widthRegs w)

/-- The result of an access check. -/
inductive Chk
  | ok (loc : Loc) (fn ipa : Nat)
  | fault (c : Code)
  | stall (ipa info : Nat)
  deriving DecidableEq, Repr

/-- Whether a lease's rights allow a right. -/
def leaseAllows (e : Nat) : Right → Bool
  | .r => true
  | .w => leaseRights e == 2
  | .x => leaseRights e == 3

/-- What an access does. -/
inductive Acc
  | load
  | store
  | atomic
  deriving DecidableEq, Repr

/-- The right that an access needs (R351). -/
def Acc.right : Acc → Right
  | .load => .r
  | .store | .atomic => .w

/-- The offset of a queue register of an Ethernet window (R410). -/
def queueRegister (o : Nat) : Bool := decide (o / 4096 < 16) && [0x00, 0x08, 0x10, 0x18].contains (o % 4096)

/-- The target of a fabric output and the operations it takes (R399). -/
def checkPeer (s : State) (die fn v o n ipa : Nat) (k : Acc) : State × Chk :=
  match lookupVdn s die fn v with
  | (s, .none) | (s, .unicast _ _) => (s, .ok (.peer v o) fn ipa)
  | (s, .group _) => if k = .store then (s, .ok (.peer v o) fn ipa) else (s, .fault .perm)
  | (s, .eth p) => if k ≠ .atomic ∧ n = 8 ∧ queueRegister o then (s, .ok (.eth p o) fn ipa) else (s, .fault .perm)

/-- R125 after alignment: lease, rights and translation of `n` bytes at `ea`; R351 for the output's type. -/
def checkGlobal (s : State) (u : Nat) (m : Team) (core : Nat) (ea : DWord) (n : Nat) (k : Acc) : State × Chk :=
  let right := k.right
  match s.launch? m.launch with
  | none => (s, .fault .lease)
  | some l =>
    match l.windowOf m.num ea.toNat n with
    | some o => (s, .ok (.window u (o / 4096) (o % 4096 / 4)) l.fn 0)
    | none =>
      match l.leaseOf ea.toNat n with
      | none => (s, .fault .lease)
      | some e =>
        if !leaseAllows e right then (s, .fault .perm)
        else
          match translate s (.vector core) l.fn ea.toNat right with
          | (s, .stage1) => (s, .fault .perm)
          | (s, .stage2 ipa wk) =>
            (s, .stall ipa (stallInfo right wk))
          | (s, .ok x) =>
            match x.outAt ea.toNat with
            | .hbm pa | .host pa => (s, .ok (.mem pa) l.fn (x.ipaAt ea.toNat))
            | .fabric v o => checkPeer s (dieOf core) l.fn v o n (x.ipaAt ea.toNat) k
            | .notify pa =>
              match physOf pa with
              | .notify f q o => (s, .ok (.notify f q o) l.fn (x.ipaAt ea.toNat))
              | _ => (s, .fault .perm)

/-- R125 in order, with alignment first. -/
def checkAccess (s : State) (u : Nat) (m : Team) (core : Nat) (ea : DWord) (n : Nat) (k : Acc) : State × Chk :=
  if ea.toNat % n ≠ 0 then (s, .fault .align) else checkGlobal s u m core ea n k

/-- What a failed check does to the thread. -/
def failAccess (s : State) (t : Thread) (fn : Nat) (ea : DWord) : Chk → State
  | .ok _ _ _ => s
  | .fault c => threadFault s t c { addr := ea.toNat }
  | .stall ipa info => stallThread s t fn ipa ea info false

/-- R129: alignment and range of a scratchpad offset. -/
def checkScratch (m : Team) (off : Int) (n : Nat) : Option Code :=
  if off % (n : Int) ≠ 0 then some .align
  else if off < 0 ∨ (m.scrSize : Int) < off + n then some .perm
  else none

/-- Base plus signed 24-bit offset (R125). -/
def effAddr (base : DWord) (imm : BitVec 24) : DWord := base + imm.signExtend 64

/-! ## Overlap and order of one thread's requests (R127, R128, R303) -/

/-- The location and length that an act reads or writes. -/
def Act.span : Act → Option (Loc × Nat)
  | .load l n _ _ _ => some (l, n)
  | .loadConst pa n _ _ => some (.mem pa, n)
  | .store l b | .buffer l b => some (l, b.length)
  | .atomic l _ ty _ _ => some (l, tyBits ty / 8)
  | .cas l ty _ _ _ => some (l, tyBits ty / 8)
  | .arrive u off _ | .cbTest u off _ => some (.scratch u off, 16)
  | _ => none

/-- Two spans share a byte. -/
def overlaps (a : Loc) (n : Nat) (b : Loc) (k : Nat) : Bool :=
  match a, b with
  | .mem x, .mem y => decide (x < y + k) && decide (y < x + n)
  | .peer v x, .peer w y => v == w && decide (x < y + k) && decide (y < x + n)
  | .scratch u x, .scratch v y => u == v && decide (x < y + k) && decide (y < x + n)
  | .notify f q x, .notify g r y => f == g && q == r && x == y
  | .eth p x, .eth q y => p == q && x == y
  | .window u x v, .window w y z => u == w && x == y && v == z
  | _, _ => false

def Req.touches (r : Req) (l : Loc) (n : Nat) : Bool :=
  match r.act.span with
  | some (k, c) => overlaps k c l n
  | none =>
    match r.owner, r.act with
    | .thread a _, .genWrite _ _ off bs _ => overlaps (.scratch a off) bs.length l n
    | _, _ => false

/-- Older requests of the thread that touch the same bytes and have not been performed. -/
def sameBytes (s : State) (t : Thread) (l : Loc) (n : Nat) : List Nat :=
  (s.reqs.filter fun p => ownReq t.team t.tix p.2 && !p.2.performed && !p.2.complete && p.2.touches l n).map (·.1)

/-- Older requests that a release at a scope waits for: classes ld and st, and fab at `.fab`. -/
def releaseAfter (s : State) (t : Thread) (sc : Scope) : List Nat :=
  if sc = .th then []
  else (s.reqs.filter fun p => ownReq t.team t.tix p.2 && !p.2.complete &&
    (p.2.cls == some .ld || p.2.cls == some .st || (sc == .fab && p.2.cls == some .fab))).map (·.1)

/-- Requests that other threads of the same row have made at the same word. -/
def rowMates (s : State) (t : Thread) : Tab Req :=
  let mates := (s.core t.core).rows.flatMap fun p =>
    if p.2.pending.contains t.slot || p.2.done.contains t.slot then p.2.done else []
  s.reqs.filter fun p => !p.2.complete && p.2.pc == t.pc &&
    (match p.2.owner with
     | .thread a x => match s.thread? a x with
       | some o => o.core == t.core && mates.contains o.slot && o.slot != t.slot
       | none => false
     | _ => false)

/-- Those from lower lanes on the same scratchpad bytes, which take effect first (R194). -/
def rowBefore (s : State) (t : Thread) (l : Loc) (n : Nat) : List Nat :=
  ((rowMates s t).filter fun p => !p.2.performed && p.2.touches l n).map (·.1)

/-! ## The L1 (R300) -/

/-- The bytes of the L1 for a run, where every sector is valid. -/
def l1Read (c : Core) (pa n : Nat) : Option (List Byte) :=
  if (sectorsOf pa n).all fun k => (Tab.find c.l1 k).isSome then
    some ((List.range n).map fun i =>
      match Tab.find c.l1 ((pa + i) / 32) with
      | some b => b.getD ((pa + i) % 32) 0
      | none => 0)
  else none

/-- The L1 holds a sector of a run. -/
def l1Holds (c : Core) (pa n : Nat) : Bool := (sectorsOf pa n).any fun k => (Tab.find c.l1 k).isSome

/-- Allocate a sector: only where it is invalid; a ninth line of a set takes the place of the set's first (DESIGN CHOICE,
log 21: the set of a line is its number mod 64, and which line a full set drops). -/
def l1Fill (c : Core) (k : Nat) (b : List Byte) : Core :=
  if (Tab.find c.l1 k).isSome then c
  else
    let line := k / 8
    let others := ((c.l1.map fun p => p.1 / 8).filter fun l => l % 64 == line % 64 && l != line).eraseDups
    let l1 := if 8 ≤ others.length then c.l1.filter fun p => p.1 / 8 != others.headD 0 else c.l1
    { c with l1 := Tab.put l1 k b }

/-- A store as it is sent updates the valid sectors that it covers in its own core's L1. -/
def l1Store (c : Core) (pa : Nat) (bs : List Byte) : Core :=
  { c with l1 := c.l1.map fun p =>
      (p.1, (List.range 32).map fun i =>
        let a := p.1 * 32 + i
        if pa ≤ a ∧ a < pa + bs.length then bs.getD (a - pa) 0 else p.2.getD i 0) }

def l1Drop (c : Core) (pa n : Nat) : Core := { c with l1 := c.l1.filter fun p => !((sectorsOf pa n).contains p.1) }

/-- Drop the sectors that hold other bytes than a read at the coherence point has just returned (R303). -/
def l1Agree (c : Core) (pa : Nat) (bs : List Byte) : Core :=
  { c with l1 := c.l1.filter fun p => (List.range 32).all fun i =>
      let a := p.1 * 32 + i
      !(decide (pa ≤ a) && decide (a < pa + bs.length)) || p.2.getD i 0 == bs.getD (a - pa) 0 }

/-- The request is a store or an atomic that a thread of the core has sent and that has not been performed. -/
def sentFrom (s : State) (core : Nat) (r : Req) : Bool :=
  !r.performed && !r.complete && !r.unsent && r.act.writes &&
    match r.owner with
    | .thread u x => match s.thread? u x with | some o => o.core == core | none => false
    | .left u => match s.team? u with | some m => m.core == core | none => false
    | .none | .program _ => false

/-- Sent stores on these bytes that the L1 of the core has shown to its threads. -/
def shownOver (s : State) (core pa n : Nat) : Tab Req :=
  s.reqs.filter fun p => p.2.shown && sentFrom s core p.2 && p.2.touches (.mem pa) n

/-- A fill may allocate a sector: no store or atomic that the core has sent to it is still to be performed. -/
def mayFill (s : State) (core k : Nat) : Bool := !(s.reqs.any fun p => sentFrom s core p.2 && p.2.touches (.mem (k * 32)) 32)

/-- A store or atomic of the core keeps the fills in flight of its sectors from allocating. -/
def forbidFills (s : State) (core pa n : Nat) : State :=
  let ks := sectorsOf pa n
  { s with reqs := s.reqs.map fun p =>
      match p.2.act, p.2.owner with
      | .load (.mem a) k _ _ _, .thread u x =>
        match s.thread? u x with
        | some o => if o.core == core && (sectorsOf a k).any ks.contains then (p.1, { p.2 with noFill := true }) else p
        | none => p
      | _, _ => p }

/-- A store to HBM4 is sent from a core. Where the L1 shows a store of another thread that is still to be performed, and
whose place in the coherence order is open, the sector is dropped instead of updated (DEDUCED, log 89). The bitmap range
takes no bytes (R378). -/
def sendStore (s : State) (core : Nat) (own : Agent) (pa : Nat) (bs : List Byte) : State :=
  if inBitmap pa then s
  else
    let c := s.core core
    let c := if (shownOver s core pa bs.length).all fun p => p.2.owner == own then l1Store c pa bs else l1Drop c pa bs.length
    forbidFills (s.setCore core c) core pa bs.length

/-- An atomic to HBM4 is sent from a core. -/
def sendAtomic (s : State) (core pa n : Nat) : State := forbidFills (s.setCore core (l1Drop (s.core core) pa n)) core pa n

/-! ## The phase store buffer (R173 to R175) -/

/-- The physical address under which the buffer holds a store: memory, and the registers of the notify pages. -/
def bufferAddr : Loc → Option Nat
  | .mem pa => some pa
  | .notify f q off => some (0x2000000000000 + f * 0x20000 + q * 0x1000 + off)
  | .peer _ _ | .eth _ _ | .scratch _ _ | .window _ _ _ => none

/-- The bytes of an entry's sector that a store covers. -/
def coveredIn (sector pa n : Nat) : List Nat :=
  (List.range 32).filter fun i => decide (pa ≤ sector * 32 + i) && decide (sector * 32 + i < pa + n)

/-- What a buffered store is: its thread, whether that had PRIV, the physical, virtual and intermediate address, the bytes. -/
structure Buffered where
  team : Nat
  tix : Nat
  priv : Bool
  pa : Nat
  va : Nat
  ipa : Nat
  bytes : List Byte
  deriving DecidableEq, Repr

/-- A store of a thread as the buffer takes it. -/
def Thread.buffered (t : Thread) (pa : Nat) (ea : DWord) (ipa : Nat) (bs : List Byte) : Buffered :=
  ⟨t.team, t.tix, t.priv, pa, ea.toNat, ipa, bs⟩

/-- Bytes of a store that fall in a sector, under the translation of that store. -/
def psbMerge (e : PsbEntry) (b : Buffered) : PsbEntry :=
  let is := coveredIn e.sector b.pa b.bytes.length
  { e with
    bytes := is.foldl (fun t i => Tab.put t i (b.bytes.getD (e.sector * 32 + i - b.pa) 0)) e.bytes
    priv := (e.priv.filter fun i => !is.contains i) ++ if b.priv then is else []
    tixs := insertNat b.tix e.tixs
    va := b.va / 32 * 32
    ipa := b.ipa / 32 * 32
    stale := false }

/-- A store enters the buffer, unless an entry of its sector and a free one are both lacking. A store lies in one
sector, being aligned and at most 16 bytes long. The bitmap range takes no bytes (R378). -/
def psbStore (c : Core) (b : Buffered) : Option Core :=
  let k := b.pa / 32
  if inBitmap b.pa then some c
  else if c.psb.any fun e => e.team == b.team && e.sector == k then
    some { c with psb := c.psb.map fun e => if e.team = b.team ∧ e.sector = k then psbMerge e b else e }
  else if c.psb.length < 512 then some { c with psb := c.psb ++ [psbMerge ⟨b.team, k, [], [], [], 0, 0, false⟩ b] }
  else none

/-- The buffered bytes of a run, by offset. -/
def psbBytes (c : Core) (team pa n : Nat) : Tab Byte :=
  (List.range n).filterMap fun i =>
    match c.psb.find? fun e => e.team == team && e.sector == (pa + i) / 32 with
    | some e => (Tab.find e.bytes ((pa + i) % 32)).map fun b => (i, b)
    | none => none

/-- Bytes with some of them replaced, by offset. -/
def overlay (bs : List Byte) (o : Tab Byte) : List Byte :=
  (List.range bs.length).map fun i => (Tab.find o i).getD (bs.getD i 0)

/-- Whether stores of the team are buffered. -/
def Team.buffers (m : Team) : Bool := m.idem && !m.demoted

/-- The team's entries in the phase store buffer are to be freed unperformed: a fault or a discard ends its phase, which has not
been demoted (R150, R175, R177). -/
def Team.frees (m : Team) : Bool := m.buffers && (m.stage == .ending || m.stage == .stopping)

/-- Free a team's entries unperformed. -/
def freeEntries (s : State) (core u : Nat) : State :=
  let c := s.core core
  s.setCore core { c with psb := c.psb.filter fun e => e.team != u }

/-- A buffered store that cannot be performed ends its team with F_PERM, unless that is ending already. -/
def drainFault (s : State) (u : Nat) (m : Team) (va : Nat) : State :=
  if m.stage = .ending then s else postTeamFault s u m .perm { addr := va }

/-- The registers of a notify page that an entry holds are written, each whole. -/
def drainNotify (s : State) (f q off : Nat) (e : PsbEntry) : State :=
  [0, 8, 16, 24].foldl (fun s i =>
    if (Tab.find e.bytes i).isSome then
      let bs := (List.range 8).map fun j => (Tab.find e.bytes (i + j)).getD 0
      notifyWrite s f q (off + i) (BitVec.ofNat 64 (leNat bs)) (e.priv.contains i)
    else s) s

/-- The masked bytes of an entry, and those alone, are merged at the coherence point in one write (R175, R297), both halves of a
`.128` store among them (DESIGN CHOICE, log 37). -/
def drainEntry (fn core : Nat) (s : State) (e : PsbEntry) : State :=
  match physOf (e.sector * 32) with
  | .notify f q off => drainNotify s f q off e
  | .hbm _ | .host | .nowhere =>
    let s := e.bytes.foldl (fun s p =>
      if isHbm (e.sector * 32) then sendStore s core .none (e.sector * 32 + p.1) [p.2] else s) s
    performMerge s fn (e.sector * 32) e.bytes

/-- A drained entry misses stage 2, having to translate again: it stays in the buffer, and one event of TYPE 0x01 for the
team waits for an answer. -/
def drainStall (s : State) (u core fn ipa : Nat) (wk : Bool) (e : PsbEntry) : State :=
  let c := s.core core
  let s := s.setCore core { c with psb := c.psb ++ [e] }
  if s.pkg.waits.any fun p => p.2.who == .drain u then s
  else (raiseEvent s 1 fn (BitVec.ofNat 64 ipa) (1 + if wk then 4 else 0) (.drain u) (BitVec.ofNat 64 e.va)).2

/-- An entry whose translation was invalidated before it was performed translates again (R357; DEDUCED, log 94): a missing
stage-1 right ends the team with F_PERM, as R351 has it for data. -/
def drainStale (fn u core : Nat) (m : Team) (s : State) (e : PsbEntry) : State :=
  match translate s (.vector core) fn e.va .w with
  | (s, .stage1) => drainFault s u m e.va
  | (s, .stage2 ipa wk) => drainStall s u core fn ipa wk e
  | (s, .ok x) =>
    match x.outAt e.va with
    | .hbm pa | .host pa | .notify pa => drainEntry fn core s { e with sector := pa / 32 }
    | .fabric _ _ => drainFault s u m e.va

/-- PHASE_STORE_BUFFER_DRAIN: perform and free each of the team's entries; the programs that wait for them go on (R219). -/
def drain (s : State) (u : Nat) (m : Team) : State :=
  let fn := match s.launch? m.launch with | some l => l.fn | none => 0
  let c := s.core m.core
  let mine := c.psb.filter fun e => e.team == u
  let s := mine.foldl (fun s e => if e.stale then drainStale fn u m.core m s e else drainEntry fn m.core s e) (freeEntries s m.core u)
  if drainLeft s m.core u then s
  else { s with programs := s.programs.map fun p => if p.2.team = u then (p.1, { p.2 with buffered := false }) else p }

/-- Count an event of a core for a function and in the core's total (R369). -/
def bump (f : FMap Word) (fn : Nat) : FMap Word :=
  let f := FMap.set 0 f fn (FMap.get 0 f fn + 1)
  FMap.set 0 f 64 (FMap.get 0 f 64 + 1)

/-- PHASE_DEMOTION (R174). -/
def demote (s : State) (u : Nat) (m : Team) : State :=
  let fn := match s.launch? m.launch with | some l => l.fn | none => 0
  let s := drain s u m
  let c := s.core m.core
  let s := s.setCore m.core { c with psbdem := bump c.psbdem fn }
  s.updTeam u fun m => { m with demoted := true }

/-- The bytes of a load of a thread's team that the buffer holds for it, by offset (R132, R173). -/
def bufferedFor (s : State) (core team : Nat) (l : Loc) (n : Nat) : Tab Byte :=
  match bufferAddr l with
  | some pa => psbBytes (s.core core) team pa n
  | none => []

/-! ## Issuing a request -/

/-- Add a request and go on, with `k` registers from `d` marked empty under a class 0x1 tag. -/
def issueReq (s : State) (t : Thread) (i : Instr) (d k : Nat) (r : Req) : State :=
  let (_, s) := addReq s r
  finish s (t.markEmpty d (producerTag 1 t.pc) k) i 0

/-- The acquire that a scope makes of a load or atomic. -/
def acqOf (sc : Scope) : Option Scope := if sc = .th then none else some sc

/-- The class of an access: fab for peer memory, else the one given. -/
def clsOf (loc : Loc) (c : Cls) : Cls :=
  match loc with
  | .peer _ _ | .eth _ _ => .fab
  | _ => c

end Sys2Proof.Machine
end

