-- ==== Sys2Proof/Machine/Memory.lean ====
section
/-! DEFINITION. Memory accesses, atomics, fences, counts, marks (R125 to R141). -/

namespace Sys2Proof.Machine

/-- The words that `n` loaded bytes fill: one, extended; a pair; or a quad (R126). -/
def loadWords (bs : List Byte) (sx : Bool) : List Word :=
  let n := bs.length
  if n < 4 then [BitVec.ofInt 32 (intOf sx (8 * n) (leNat bs))]
  else (List.range (n / 4)).map fun i => BitVec.ofNat 32 (leNat ((bs.drop (4 * i)).take 4))

/-- The bytes that a store of a width writes from a source register on (R126). -/
def storeBytesOf (t : Thread) (v : Nat) (w : Width) : List Byte :=
  match w with
  | .w8 => leBytes 1 (t.word v).toNat
  | .w16 => leBytes 2 (t.word v).toNat
  | .w32 => leBytes 4 (t.word v).toNat
  | .w64 => leBytes 8 (t.pair v).toNat
  | .w128 => (List.range 4).flatMap fun i => leBytes 4 (t.word (v + i)).toNat

/-- A class at 255 parks the thread (R137); otherwise the effect `k`. -/
def withRoom (s : State) (t : Thread) (c : Cls) (k : State) : State :=
  if countFull s t c then park s t (.count c 254) else k

/-- Park on a condition that has not come about; otherwise the effect `k`. -/
def awaiting (s : State) (t : Thread) (p : Park) (k : State) : State := if parkOver s t p then k else park s t p

/-- A younger memory access waits for an outstanding acquire (R127). -/
def afterAcquire (s : State) (t : Thread) (k : State) : State :=
  if acqPending s t.team t.tix then park s t .acquire else k

/-- A checked global access goes on at its location; a failed one does what the check says. -/
def withAccess (s : State) (m : Team) (t : Thread) (ea : DWord) (n : Nat) (acc : Acc)
    (k : State → Loc → Nat → Nat → State) : State :=
  let fn := match s.launch? m.launch with | some l => l.fn | none => 0
  match checkAccess s t.team m t.core ea n acc with
  | (s, .ok loc f ipa) => k s loc f ipa
  | (s, c) => failAccess s t fn ea c

def permFault (s : State) (t : Thread) (ea : DWord) : State := threadFault s t .perm { addr := ea.toNat }

/-- Load data captured from the L1 at issue: every sector valid, and no older own request to these bytes that has still
to take effect, other than a store that has been sent (R300, R303). -/
def captureL1 (s : State) (t : Thread) (pa n : Nat) : Option (List Byte) :=
  let blocked := s.reqs.any fun p => ownReq t.team t.tix p.2 && !p.2.performed && !p.2.complete &&
    p.2.touches (.mem pa) n && (match p.2.act with | .store _ _ => p.2.unsent | _ => true)
  if isHbm pa && !blocked && !pageQueued s pa then l1Read (s.core t.core) pa n else none

/-- What an access of memory past the L1 waits for: own older requests on its bytes (R128), and stores of others that the
L1 of the core has shown, so that no thread goes back behind one that it may have read (R303). -/
def homeAfter (s : State) (t : Thread) (loc : Loc) (n : Nat) : List Nat :=
  sameBytes s t loc n ++ match loc with
    | .mem pa => (shownOver s t.core pa n).map (·.1)
    | _ => []

/-- Issue a load at a location; `alloc` says that its fill may allocate in the L1. -/
def issueLoad (s : State) (t : Thread) (i : Instr) (ea : DWord) (loc : Loc) (fn ipa n k d : Nat)
    (sx alloc : Bool) (acq : Option Scope) : State :=
  let r := t.req s.now (some (clsOf loc .ld)) (.load loc n sx d alloc)
  let r := { r with acq := acq, fn := fn, va := ea, ipa := ipa, psb := bufferedFor s t.core t.team loc n }
  let r := match loc with
    | .mem pa =>
      match captureL1 s t pa n with
      | some bs => { r with data := some bs, performed := true }
      | none => { r with after := homeAfter s t loc n }
    | _ => { r with after := homeAfter s t loc n }
  issueReq s t i d k r

def execLd (w : Width) (sc : Scope) (sx nt : Bool) (d : Reg) (base : Src) (imm : BitVec 24) (s : State) :
    Host.Outcome State Fault Refusal :=
  let i := Instr.ld w sc sx nt d base imm
  issue s i [src2 base, dstW w d] fun m t =>
    let ea := effAddr (rp t base) imm
    afterAcquire s t <| withAccess s m t ea (widthBytes w) .load fun s loc fn ipa =>
      match loc with
      | .window _ _ _ => permFault s t ea
      | .notify _ _ _ => if w ≠ .w64 then permFault s t ea else
        withRoom s t .ld (issueLoad s t i ea loc fn ipa 8 2 d.toNat sx false (acqOf sc))
      | .peer _ _ | .eth _ _ => if m.idem then permFault s t ea else
        withRoom s t .fab (issueLoad s t i ea loc fn ipa (widthBytes w) (widthRegs w) d.toNat sx false (acqOf sc))
      | .mem pa => withRoom s t .ld
        (issueLoad s t i ea loc fn ipa (widthBytes w) (widthRegs w) d.toNat sx (isHbm pa && !nt) (acqOf sc))
      | .scratch _ _ => s

/-- A store or atomic is not sent at issue: it is a release (R127), or it follows an own one on its bytes that has not been
sent either (R128). -/
def heldBack (s : State) (t : Thread) (sc : Scope) (loc : Loc) (n : Nat) : Bool :=
  sc != .th || s.reqs.any fun p => ownReq t.team t.tix p.2 && !p.2.complete && p.2.unsent && p.2.touches loc n

/-- Issue a store at a location, outside the phase store buffer. -/
def issueStore (s : State) (t : Thread) (i : Instr) (ea : DWord) (loc : Loc) (fn ipa : Nat) (sc : Scope)
    (bs : List Byte) : State :=
  let r := t.req s.now (some (clsOf loc .st)) (.store loc bs)
  let after := sameBytes s t loc bs.length
  let behind := releaseAfter s t sc
  let held := heldBack s t sc loc bs.length
  let s := match loc with
    | .mem pa => if !held && isHbm pa then sendStore s t.core (.thread t.team t.tix) pa bs else s
    | _ => s
  let shown := match loc with
    | .mem pa => !held && isHbm pa && l1Holds (s.core t.core) pa bs.length
    | _ => false
  issueReq s t i 0 0 { r with
    after := after, behind := behind, fn := fn, va := ea, ipa := ipa, unsent := held, shown := shown }

/-- Issue an instruction of a class that is complete at once; it stays counted while an older one of its class is not
(R137). -/
def issueDone (s : State) (t : Thread) (i : Instr) (c : Cls) : State :=
  let r := t.req s.now (some c) .nothing
  let (_, s) := addReq s { r with performed := true, complete := true }
  finish (credit s) t i 0

/-- An instruction that demotes an idempotent phase executes once the buffered stores of its team have been performed, as does
what follows it (R174). Where a fault has ended the team those stores are to be freed, so it does not execute (R150, R175). -/
def afterDemotion (s : State) (m : Team) (t : Thread) (k : State → State) : State :=
  let s := if m.buffers && !(m.frees && drainLeft s t.core t.team) then demote s t.team m else s
  awaiting s t .drained (k s)

/-- A global store of an idempotent phase enters the phase store buffer (R132, R173): at once, or, as a request, once what
its release and the thread's older accesses of its bytes need has come about. Where the buffer takes no entry, the phase is
demoted first (R174), and the store waits until that has drained. -/
def bufferStore (s : State) (m : Team) (t : Thread) (i : Instr) (ea : DWord) (loc : Loc) (pa fn ipa : Nat) (sc : Scope)
    (bs : List Byte) : State :=
  if sc = .th ∧ (sameBytes s t loc bs.length).isEmpty then
    match psbStore (s.core t.core) (t.buffered pa ea ipa bs) with
    | some c => withRoom s t .st (issueDone (s.setCore t.core c) t i .st)
    | none => withRoom s t .st (afterDemotion s m t fun s => issueStore s t i ea loc fn ipa sc bs)
  else
    let r := t.req s.now (some .st) (.buffer loc bs)
    withRoom s t .st (issueReq s t i 0 0 { r with
      after := sameBytes s t loc bs.length, behind := releaseAfter s t sc, fn := fn, va := ea, ipa := ipa, unsent := true })

/-- A global store of a team, buffered or not. -/
def globalStore (s : State) (m : Team) (t : Thread) (i : Instr) (ea : DWord) (loc : Loc) (fn ipa : Nat) (sc : Scope)
    (bs : List Byte) : State :=
  match m.buffers, bufferAddr loc with
  | true, some pa => bufferStore s m t i ea loc pa fn ipa sc bs
  | _, _ => withRoom s t .st (awaiting s t .drained (issueStore s t i ea loc fn ipa sc bs))

def execSt (w : Width) (sc : Scope) (nt : Bool) (v base : Src) (imm : BitVec 24) (s : State) :
    Host.Outcome State Fault Refusal :=
  let i := Instr.st w sc nt v base imm
  issue s i [srcW w v, src2 base] fun m t =>
    let ea := effAddr (rp t base) imm
    let bs := storeBytesOf t v.r.toNat w
    afterAcquire s t <| withAccess s m t ea (widthBytes w) .store fun s loc fn ipa =>
      match loc with
      | .window _ _ _ => if w ≠ .w32 then permFault s t ea else
        withRoom s t .st (issueStore s t i ea loc fn ipa sc bs)
      | .notify _ _ _ => if w ≠ .w64 then permFault s t ea else globalStore s m t i ea loc fn ipa sc bs
      | .peer _ _ | .eth _ _ => if m.idem then permFault s t ea else
        withRoom s t .fab (issueStore s t i ea loc fn ipa sc bs)
      | .mem _ => globalStore s m t i ea loc fn ipa sc bs
      | .scratch _ _ => s

/-- The scratchpad offset of an IM form (R129). -/
def scrOffset (t : Thread) (base : Src) (imm : BitVec 24) : Int := ((rw t base).toNat : Int) + imm.toInt

def execLds (w : Width) (sc : Scope) (sx : Bool) (d : Reg) (base : Src) (imm : BitVec 24) (s : State) :
    Host.Outcome State Fault Refusal :=
  let i := Instr.lds w sc sx d base imm
  issue s i [src1 base, dstW w d] fun m t =>
    let off := scrOffset t base imm
    afterAcquire s t <|
      match checkScratch m off (widthBytes w) with
      | some c => threadFault s t c {}
      | none =>
        let loc := Loc.scratch t.team off.toNat
        let r := t.req s.now (some .ld) (.load loc (widthBytes w) sx d.toNat false)
        withRoom s t .ld (issueReq s t i d.toNat (widthRegs w)
          { r with acq := acqOf sc, after := sameBytes s t loc (widthBytes w) ++ rowBefore s t loc (widthBytes w) })

def execSts (w : Width) (sc : Scope) (v base : Src) (imm : BitVec 24) (s : State) :
    Host.Outcome State Fault Refusal :=
  let i := Instr.sts w sc v base imm
  issue s i [srcW w v, src1 base] fun m t =>
    let off := scrOffset t base imm
    afterAcquire s t <|
      match checkScratch m off (widthBytes w) with
      | some c => threadFault s t c {}
      | none =>
        let loc := Loc.scratch t.team off.toNat
        let r := t.req s.now (some .st) (.store loc (storeBytesOf t v.r.toNat w))
        let after := sameBytes s t loc (widthBytes w) ++ rowBefore s t loc (widthBytes w)
        withRoom s t .st (issueReq s t i 0 0 { r with after := after, behind := releaseAfter s t sc, unsent := sc != .th })

/-- The aligned 16 bytes of an `ldc`: those of a thread of its row that names them too, or of a valid sector of the constant
cache; otherwise they are read at the fill (R130). Bytes of the cache may be older than what the thread has read or stored before:
the latitude of R130 comes before R303 and R307 there (DESIGN CHOICE, log 111). -/
def shareConst (s : State) (t : Thread) (pa : Nat) (r : Req) : Req :=
  let same (q : Req) : Bool := match q.act with | .loadConst a _ _ _ => a / 16 == pa / 16 | _ => false
  match (rowMates s t).find? fun p => same p.2 with
  | some (k, q) => { r with mate := some (q.mate.getD k), data := q.data, performed := q.performed }
  | none =>
    match (if pageQueued s pa then none else Tab.find (s.core t.core).cc (pa / 32)) with
    | some b => { r with data := some ((b.drop (pa % 32 / 16 * 16)).take 16), performed := true }
    | none => r

/-- Issue an `ldc`: sectors of the L1 that hold other bytes than those that it already has are dropped, so that no later load goes
back behind it (R303). -/
def issueLdc (s : State) (t : Thread) (i : Instr) (pa d : Nat) (w : Width) (r : Req) : State :=
  let s := match r.data with
    | some unit => s.setCore t.core (l1Agree (s.core t.core) (pa / 16 * 16) unit)
    | none => s
  issueReq s t i d (widthRegs w) r

def execLdc (w : Width) (sx : Bool) (d : Reg) (base : Src) (imm : BitVec 24) (s : State) :
    Host.Outcome State Fault Refusal :=
  let i := Instr.ldc w sx d base imm
  issue s i [src2 base, dstW w d] fun m t =>
    let ea := effAddr (rp t base) imm
    afterAcquire s t <| withAccess s m t ea (widthBytes w) .load fun s loc fn ipa =>
      match loc with
      | .window _ _ _ => permFault s t ea
      | .notify _ _ _ => if w ≠ .w64 then permFault s t ea else
        withRoom s t .ld (issueLoad s t i ea loc fn ipa 8 2 d.toNat sx false none)
      | .peer _ _ | .eth _ _ => if m.idem then permFault s t ea else
        withRoom s t .fab (issueLoad s t i ea loc fn ipa (widthBytes w) (widthRegs w) d.toNat sx false none)
      | .mem pa =>
        let r := t.req s.now (some .ld) (.loadConst pa (widthBytes w) sx d.toNat)
        let r := { r with
          after := homeAfter s t loc (widthBytes w), fn := fn, va := ea, ipa := ipa,
          psb := bufferedFor s t.core t.team loc (widthBytes w) }
        withRoom s t .ld (issueLdc s t i pa d.toNat w (shareConst s t pa r))
      | .scratch _ _ => s

/-- `pf` (R131): never faults, stalls or counts; a line in HBM4 is brought into the last-level cache, and into the L1
without `.nt`. It arrives at once, in this step (DESIGN CHOICE, log 90). -/
def execPf (nt : Bool) (base : Src) (imm : BitVec 24) (s : State) : Host.Outcome State Fault Refusal :=
  let i := Instr.pf nt base imm
  issue s i [src2 base] fun m t =>
    match checkAccess s t.team m t.core (effAddr (rp t base) imm) 1 .load with
    | (s, .ok (.mem pa) fn _) =>
      if isHbm pa then
        let s := (readMem s fn (pa / 256 * 256) 256).1
        let fill (c : Core) (k : Nat) : Core :=
          if FMap.get false s.poison k || !mayFill s t.core k then c else l1Fill c k (readBytes s (k * 32) 32)
        let s' := if nt then s else s.setCore t.core ((sectorsOf (pa / 256 * 256) 256).foldl fill (s.core t.core))
        finish s' t i 0
      else finish s t i 0
    | (s, _) => finish s t i 0

/-! ## Atomics (R133 to R135) -/

/-- Operand fields of an atomic type. -/
def srcA (t : Ty) (a : Src) : RF := if t.inQ then src2 a else src1 a
def dstA (t : Ty) (d : Reg) : RF := if t.inQ then dst2 d else dst1 d
def valA (x : Thread) (t : Ty) (a : Src) : DWord := if t.inQ then rp x a else (0 : Word) ++ rw x a

/-- The new value of R134 from the old one and the operand, as natural numbers of the type's width. -/
def atomicNew (op : AOp) (t : Ty) (old x : Nat) : Nat :=
  let w := tyBits t
  match op with
  | .add => (old + x) % 2 ^ w
  | .min => if tyVal t old ≤ tyVal t x then old else x
  | .max => if tyVal t x ≤ tyVal t old then old else x
  | .and => old &&& x
  | .or => old ||| x
  | .xor => old ^^^ x
  | .exch => x
  | .inc => if x = 0 then (old + 1) % 2 ^ w else (old + 1) % x
  | .dec => if x = 0 then (old + 2 ^ w - 1) % 2 ^ w else (old % x + x - 1) % x

def casNew (old cmp swap : Nat) : Nat := if old = cmp then swap else old

/-- The requests of lower lanes of the row that an atomic follows: on scratchpad words alone (R194). Two atomics of a row on
one global word are performed in either order (R135; DEDUCED, log 91). -/
def laneOrder (s : State) (t : Thread) (loc : Loc) (n : Nat) : List Nat :=
  match loc with
  | .scratch _ _ => rowBefore s t loc n
  | .mem _ | .peer _ _ | .notify _ _ _ | .eth _ _ | .window _ _ _ => []

/-- Issue an atomic at a location. -/
def issueAtomic (s : State) (t : Thread) (i : Instr) (ea : DWord) (loc : Loc) (fn ipa n d : Nat) (sc : Scope)
    (act : Act) : State :=
  let r := t.req s.now (some (clsOf loc .ld)) act
  let after := homeAfter s t loc n ++ laneOrder s t loc n
  let held := heldBack s t sc loc n
  let r := { r with
    acq := acqOf sc, after := after, behind := releaseAfter s t sc, fn := fn, va := ea, ipa := ipa, unsent := held }
  let s := match loc with
    | .mem pa => if !held && isHbm pa then sendAtomic s t.core pa n else s
    | _ => s
  issueReq s t i d (n / 4) r

/-- `atom` and `cas`: R125 with rights rw, then R132, R253 and R351. -/
def globalAtomic (s : State) (i : Instr) (ty : Ty) (sc : Scope) (d : Reg) (a : Src) (fs : List RF)
    (act : Thread → Loc → Act) : Host.Outcome State Fault Refusal :=
  issue s i fs fun m t =>
    let ea := rp t a
    let n := tyBits ty / 8
    afterAcquire s t <| withAccess s m t ea n .atomic fun s loc fn ipa =>
      match loc with
      | .window _ _ _ | .notify _ _ _ | .scratch _ _ => permFault s t ea
      | .peer _ _ | .eth _ _ => if m.idem then permFault s t ea else
        withRoom s t .fab (issueAtomic s t i ea loc fn ipa n d.toNat sc (act t loc))
      | .mem _ => if m.idem then permFault s t ea else
        withRoom s t .ld (issueAtomic s t i ea loc fn ipa n d.toNat sc (act t loc))

def execAtom (op : AOp) (ty : Ty) (sc : Scope) (d : Reg) (a b : Src) (s : State) : Host.Outcome State Fault Refusal :=
  globalAtomic s (.atom op ty sc d a b) ty sc d a [src2 a, srcA ty b, dstA ty d] fun t loc =>
    .atomic loc op ty (valA t ty b) d.toNat

def execCas (ty : Ty) (sc : Scope) (d : Reg) (a b c : Src) (s : State) : Host.Outcome State Fault Refusal :=
  globalAtomic s (.cas ty sc d a b c) ty sc d a [src2 a, srcA ty b, srcA ty c, dstA ty d] fun t loc =>
    .cas loc ty (valA t ty b) (valA t ty c) d.toNat

/-- `atoms` and `cass`: R129. -/
def scratchAtomic (s : State) (i : Instr) (ty : Ty) (sc : Scope) (d : Reg) (a : Src) (fs : List RF)
    (act : Thread → Loc → Act) : Host.Outcome State Fault Refusal :=
  issue s i fs fun m t =>
    let n := tyBits ty / 8
    let off : Int := (rw t a).toNat
    afterAcquire s t <|
      match checkScratch m off n with
      | some c => threadFault s t c {}
      | none =>
        let loc := Loc.scratch t.team off.toNat
        withRoom s t .ld (issueAtomic s t i 0 loc 0 0 n d.toNat sc (act t loc))

def execAtoms (op : AOp) (ty : Ty) (sc : Scope) (d : Reg) (a b : Src) (s : State) :
    Host.Outcome State Fault Refusal :=
  scratchAtomic s (.atoms op ty sc d a b) ty sc d a [src1 a, srcA ty b, dstA ty d] fun t loc =>
    .atomic loc op ty (valA t ty b) d.toNat

def execCass (ty : Ty) (sc : Scope) (d : Reg) (a b c : Src) (s : State) : Host.Outcome State Fault Refusal :=
  scratchAtomic s (.cass ty sc d a b c) ty sc d a [src1 a, srcA ty b, srcA ty c, dstA ty d] fun t loc =>
    .cas loc ty (valA t ty b) (valA t ty c) d.toNat

/-! ## Fences, counts, marks (R136 to R141) -/

/-- `fence` (R136). The whole thread waits at the fence, whatever its younger instructions are (DESIGN CHOICE, log 93). -/
def execFence (k : FenceKind) (sc : Scope) (s : State) : Host.Outcome State Fault Refusal :=
  let i := Instr.fence k sc
  issue s i [] fun _ t =>
    if sc = .th then finish s t i 0
    else
      match k with
      | .rel => awaiting s t (.release (sc == .fab)) (finish s t i 0)
      | .acq => awaiting s t (.loads none) (finish (acquireCore s t.core sc) t i 0)
      | .ar => awaiting s t (.release (sc == .fab)) (awaiting s t (.loads none) (finish (acquireCore s t.core sc) t i 0))

/-- `ifence` (R139). Words after it in the row are fetched anew, so only the new bytes run (DESIGN CHOICE, log 92). -/
def execIfence (s : State) : Host.Outcome State Fault Refusal :=
  issue s .ifence [] fun _ t =>
    awaiting s t .stores (finish (s.setCore t.core { s.core t.core with ic := [], itlb := [] }) t .ifence 0)

def execWcnt (cls : Cls) (n : BitVec 6) (s : State) : Host.Outcome State Fault Refusal :=
  issue s (.wcnt cls n) [] fun _ t => awaiting s t (.count cls n.toNat) (finish s t (.wcnt cls n) 0)

/-- A running or queued program of a team whose sequence number has these low 28 bits. -/
def handleProgram (s : State) (team h : Nat) : Option (Nat × Program) :=
  s.programs.find? fun p => p.2.team == team && p.2.system.isNone && p.2.seq.toNat % 2 ^ 28 == h

/-- Set `k` consecutive registers to one state. -/
def Thread.fillWith (t : Thread) (v : Nat) (x : RegVal) : Nat → Thread
  | 0 => t
  | k + 1 => (t.setReg v x).fillWith (v + 1) x k

def execVmark (win : Bool) (k : BitVec 6) (d : Reg) (a : Src) (s : State) : Host.Outcome State Fault Refusal :=
  let i := Instr.vmark win k d a
  issue s i ((if win then [] else [src1 a]) ++ [dstN d (k.toNat + 1) 1]) fun _ t =>
    let h := (rw t a).toNat % 2 ^ 28
    let x : RegVal :=
      if win then .empty (BitVec.ofNat 32 (5 * 2 ^ 28))
      else if (handleProgram s t.team h).isSome then .empty (BitVec.ofNat 32 (4 * 2 ^ 28 + h))
      else .poisoned
    finish s (t.fillWith d.toNat x (k.toNat + 1)) i 0

/-- `vtest` (R141): the state of A under R31 alone. -/
def testWord : RegVal → Word
  | .full _ => 0
  | .poisoned => 1
  | .empty tag => tag

def execVtest (d a : Reg) (s : State) : Host.Outcome State Fault Refusal :=
  write1 s (.vtest d a) d [named1 a] fun t => testWord (t.reg a.toNat)

end Sys2Proof.Machine
end

