-- ==== Sys2Proof/Machine/Meeting.lean ====
section
/-! DEFINITION. Meeting points and their results (R181 to R192), `dqidle` releases (R207), chains that close (R270, R272), the
end of a thread, a team and a launch (R121, R322, R331). -/

namespace Sys2Proof.Machine

/-! ## Results of group meetings (R185 to R189) -/

/-- A present member: its group lane and its captured sources. -/
abbrev Member := Nat × List Word

def Member.a (x : Member) : Word := x.2.headD 0
def Member.b (x : Member) : Word := (x.2.drop 1).headD 0

def valueAt (g : List Member) (j : Int) : Option Word :=
  (g.find? fun x => (x.1 : Int) == j).map Member.a

/-- `shfl` for one member (R185). -/
def shflOf (m : ShflMode) (g : List Member) (x : Member) : Word :=
  let b := x.b.toNat % 64
  let j : Int := match m with
    | .idx => b
    | .up => (x.1 : Int) - b
    | .down => (x.1 : Int) + b
    | .xor => (x.1 ^^^ b : Nat)
  (valueAt g j).getD x.a

/-- The predicate of group lane `j` (R186); absent lanes are false. -/
def predAt (g : List Member) (j : Nat) : Bool :=
  match valueAt g j with
  | some w => w != 0
  | none => false

def voteOf (m : VoteMode) (w : Nat) (g : List Member) : Word :=
  let n := ((List.range w).filter (predAt g)).length
  match m with
  | .every => boolWord (n == w)
  | .some => boolWord (decide (0 < n))
  | .same => boolWord (n == 0 || n == w)
  | .count => BitVec.ofNat 32 n

def ballotMask (w : Nat) (g : List Member) : DWord :=
  (List.range (Nat.min w 64)).foldl (fun r j => if predAt g j then r ||| BitVec.ofNat 64 (2 ^ j) else r) 0

/-- One combination of R187. -/
def combine (op : RedOp) (t : Ty) (r x : Word) : Word × FFlags :=
  match op with
  | .add => if t = .f32 then res32 (addVals fp32 .rne false (unpack fp32 r.toNat) (unpack fp32 x.toNat)) else (r + x, 0)
  | .min => if t = .f32 then res32 (minMax fp32 false false r.toNat x.toNat) else (minOf t r x, 0)
  | .max => if t = .f32 then res32 (minMax fp32 false true r.toNat x.toNat) else (maxOf t r x, 0)
  | .and => (r &&& x, 0)
  | .or => (r ||| x, 0)
  | .xor => (r ^^^ x, 0)

def redIdentity (op : RedOp) (t : Ty) : Word :=
  match op with
  | .add | .or | .xor => 0
  | .and => BitVec.allOnes 32
  | .min => if t = .f32 then BitVec.ofNat 32 fp32.infBits else BitVec.ofInt 32 (tyMax t)
  | .max => if t = .f32 then BitVec.ofNat 32 (withSign fp32 true fp32.infBits) else BitVec.ofInt 32 (tyMin t)

/-- The first term of a list: a NaN is the canonical one, as in every result (R54; DEDUCED, log 113). -/
def reduceFirst (t : Ty) (w : Word) : Word × FFlags :=
  let v := unpack fp32 w.toNat
  if t = .f32 ∧ v.isNan then (BitVec.ofNat 32 fp32.nanBits, nvOf [v]) else (w, 0)

def reduceList (op : RedOp) (t : Ty) : List Word → Word × FFlags
  | [] => (redIdentity op t, 0)
  | w :: ws => ws.foldl (fun acc x => let r := combine op t acc.1 x; (r.1, acc.2 ||| r.2)) (reduceFirst t w)

def gscanOf (op : RedOp) (t : Ty) (ex : Bool) (g : List Member) (x : Member) : Word × FFlags :=
  reduceList op t ((g.filter fun y => if ex then decide (y.1 < x.1) else decide (y.1 ≤ x.1)).map Member.a)

/-- The block exponent of a segment (R189). -/
def bqmaxOf (seg : List Word) : Nat :=
  let vs := seg.map fun w => unpack fp32 w.toNat
  if vs.any fun v => match v with | .fin _ _ _ => false | .nan _ | .inf _ => true then 255
  else
    let top := vs.foldl (fun (best : Option Int) v => match v with
      | .fin _ m e =>
        if m = 0 then best
        else
          let l : Int := (Nat.log2 m : Int) + e
          match best with
          | none => some l
          | some k => some (if k < l then l else k)
      | .nan _ | .inf _ => best) none
    match top with
    | none => 0
    | some l => (if l + 128 < 0 then 0 else if 254 < l + 128 then 254 else l + 128).toNat

/-- The words written to a member's D, and its flags, when a group meeting at `i` completes. -/
def meetResult (i : Instr) (w : Nat) (g : List Member) (x : Member) : List Word × FFlags :=
  match i with
  | .shfl m _ _ _ => ([shflOf m g x], 0)
  | .vote m _ _ => ([voteOf m w g], 0)
  | .ballot b64 _ _ =>
    let k := ballotMask w g
    (if b64 then [lowWord k, highWord k] else [lowWord k], 0)
  | .redux op t _ _ => let r := reduceList op t (g.map Member.a); ([r.1], r.2)
  | .gscan op t ex _ _ => let r := gscanOf op t ex g x; ([r.1], r.2)
  | .bqmax _ _ => ([BitVec.ofNat 32 (bqmaxOf ((g.filter fun y => y.1 / 32 == x.1 / 32).map Member.a))], 0)
  | _ => ([], 0)

/-- The destination of a meeting-point word. -/
def meetDest : Instr → Nat
  | .shfl _ d _ _ | .vote _ d _ | .ballot _ d _ | .redux _ _ d _ | .gscan _ _ _ d _ | .bqmax d _ | .dqidle d => d.toNat
  | _ => 0

/-- Team meeting points (R181). -/
def teamMeeting : Instr → Bool
  | .bar _ | .phase => true
  | _ => false

/-! ## `dqidle` (R207, R330) -/

def dequeHolds (s : State) (u : Nat) : Bool :=
  s.cores.any fun p => p.2.dqOwner == some u && (!p.2.deque.isEmpty || !p.2.spill.isEmpty)

/-- The watchdog counter of a team stops while every live thread is held at `dqidle`, and resumes after. -/
def noteIdle (s : State) (u : Nat) : State :=
  let live := (s.teamThreads u).filter Thread.live
  let idle := !live.isEmpty && live.all fun t => match t.place with | .held (.idle _) => true | _ => false
  s.updTeam u fun m =>
    if idle then { m with wdCount := m.wd s.now, wdSince := none }
    else if m.wdSince.isNone ∧ m.counts then { m with wdSince := some s.now } else m

/-- DQIDLE_RELEASE: a launch's groups held at `dqidle` get 0 once quiescence is reported, 1 while any of its deques holds
work. -/
def releaseIdle (s : State) (u : Nat) : State :=
  match s.launch? u with
  | none => s
  | some l =>
    if l.quiescent || dequeHolds s u then
      let v : Word := if l.quiescent then 0 else 1
      let go (s : State) (p : Nat × Thread) : State :=
        match p.2.place with
        | .held (.idle d) =>
          match s.team? p.2.team with
          | some m => if m.launch = u ∧ m.wakes then noteIdle (releaseHeld s (p.2.write d.toNat v) 8) p.2.team else s
          | none => s
        | _ => s
      s.threads.foldl go s
    else s

/-! ## Completing meetings -/

/-- A member leaves a completed group meeting with its result; an enabled flag traps (R188). -/
def leaveMeeting (s : State) (t : Thread) (d : Nat) (ws : List Word) (fl : FFlags) : State :=
  let t := t.writeList d ws
  let t := { t with fflags := t.fflags ||| BitVec.ofNat 32 fl.toNat }
  let pc := t.pc + 8
  if enabled t fl && !t.mode then takeTrap s t .tFpx pc 0 else arrive s t pc

def heldAt (t : Thread) : Option (Instr × List Word) :=
  match t.place with
  | .held (.meet i vs) => some (i, vs)
  | _ => none

/-- MEETING_COMPLETION of a group whose live members are all held at one word. -/
def completeGroup (s : State) (m : Team) (i : Instr) (ts : List Thread) : State :=
  match i with
  | .dqidle d =>
    let s := ts.foldl (fun s t => hold s t (.idle d)) s
    let s := match ts with | t :: _ => noteIdle s t.team | [] => s
    releaseIdle s m.launch
  | _ =>
    let g : List Member := ts.map fun t => (t.tix % m.w, match heldAt t with | some p => p.2 | none => [])
    ts.foldl (fun s t =>
      let x : Member := (t.tix % m.w, match heldAt t with | some p => p.2 | none => [])
      let r := meetResult i m.w g x
      leaveMeeting s t (meetDest i) r.1 r.2) s

/-- MEETING_COMPLETION of a team meeting: `bar` acquires and goes on; `phase` holds its threads for the boundary. -/
def completeTeam (s : State) (i : Instr) (ts : List Thread) : State :=
  match i with
  | .bar sc => ts.foldl (fun s t => releaseAcq s t sc 8) s
  | _ => ts.foldl (fun s t => hold s t .boundary) s

/-- Test one set of live members: all held at meeting points. Different addresses end the team with F_ILLEGAL (R182);
which member the record names is a free choice. -/
def testSet (s : State) (m : Team) (whole : Bool) (ts : List Thread) : State :=
  match ts with
  | [] => s
  | t :: _ =>
    if ts.all fun x => (heldAt x).isSome then
      if ts.all fun x => x.pc == t.pc then
        match heldAt t with
        | some (i, _) =>
          if teamMeeting i = whole then (if whole then completeTeam s i ts else completeGroup s m i ts) else s
        | none => s
      else
        threadFault { s with freeCtr := s.freeCtr + 1 } (ts.getD ((Config.freeWord s.freeCtr).toNat % ts.length) t) .illegal {}
    else s

def liveOf (s : State) (u : Nat) : List Thread := (s.teamThreads u).filter Thread.live

/-- Test every group of a team, then the team. -/
def testMeetings (s : State) (u : Nat) : State :=
  match s.team? u with
  | none => s
  | some m =>
    if !m.runs then s
    else
      let s := (List.range (m.nthr / m.w)).foldl (fun s g =>
        match s.team? u with
        | some m' => if m'.runs then testSet s m' false ((liveOf s u).filter fun t => t.tix / m.w == g) else s
        | none => s) s
      match s.team? u with
      | some m' => if m'.runs then testSet s m' true (liveOf s u) else s
      | none => s

/-- Issue a meeting-point word: outside trap mode, the thread is held with its sources captured, and the meeting is
tested (R145, R181). -/
def meet (s : State) (t : Thread) (i : Instr) (vals : List Word) : State :=
  if t.mode then threadFault s t .illegal {}
  else testMeetings (hold (retire s t.team) t (.meet i vals)) t.team

/-! ## Chains (R270, R272) -/

def chainMask (c : Chain) (j : Nat) : Bool := c.lit.getLsbD j

/-- Octets of the mask that have not exited. -/
def liveOctets (c : Chain) : List Nat := (List.range 8).filter fun j => chainMask c j && !(c.exited.getD j false)

def octQ (c : Chain) (j : Nat) : Nat := c.q.getD j 0

/-- Passes that the requests form, once every live octet has the same Q. -/
def formedPasses (c : Chain) : Nat :=
  match liveOctets c with
  | j :: _ => octQ c j
  | [] => ((List.range 8).map (octQ c)).foldl Nat.max 0

/-- A closing chain closes: every live octet has the same Q and every formed pass has been performed. -/
def chainCloses (c : Chain) : Bool :=
  c.closing && (liveOctets c).all (fun j => octQ c j == formedPasses c) && decide (formedPasses c ≤ c.passes)

/-- The live octets of a chain all have a request past pass `p`, and some octet has one (R272, R273). -/
def passFormed (c : Chain) (p : Nat) : Bool :=
  (liveOctets c).all (fun j => decide (p < octQ c j)) && (List.range 8).any fun j => decide (p < octQ c j)

/-- The table entries of a pass. -/
def passEntries (cl : Cluster) (u : Nat) (c : Chain) (p : Nat) : List Resv :=
  cl.resv.filter fun r => r.team == u && r.ctx == c.ctx && r.number == p

/-- The entry of a formed pass of unequal kinds that came last: where the exit of a leader completes the pass, too, that entry is
the one that the record names (DESIGN CHOICE, log 114). -/
def unequalKinds (cl : Cluster) (u : Nat) (c : Chain) : Option Resv :=
  (List.range ((List.range 8).map (octQ c) |>.foldl Nat.max 0)).findSome? fun p =>
    let es := passEntries cl u c p
    if c.passes ≤ p ∧ passFormed c p ∧ es.any fun r => r.kind != (es.map (·.kind)).headD 0 then es.getLast? else none

/-- A pass formed from unequal kinds, by a request or by the exit of a leader, ends the team; the record names the request
that completed the pass (R273). -/
def checkKinds (s : State) (u : Nat) : State :=
  match s.team? u with
  | none => s
  | some m =>
    if m.stage == .ending || !m.wakes then s
    else
      match m.chains.findSome? (unequalKinds (s.cluster (clusterOf m.core)) u) with
      | none => s
      | some r =>
        match s.thread? u r.tix with
        | some t => threadFault s { t with pc := (match Tab.find s.reqs r.req with | some q => q.pc | none => t.pc) } .illegal {}
        | none => s

/-- Complete a request, dropping it when its older ones have been credited. -/
def completeReq (s : State) (k : Nat) : State := s.updReq k fun r => { r with performed := true, complete := true }

/-- CHAIN_CLOSE: free the context and what reservation entries remain, and credit the `mxend`. -/
def closeChains (s : State) (u : Nat) : State :=
  match s.team? u with
  | none => s
  | some m =>
    let gone := m.chains.filter chainCloses
    if gone.isEmpty then s
    else
      let k := clusterOf m.core
      let cl := s.cluster k
      let stays (r : Resv) : Bool := !(r.team == u && gone.any fun c => c.ctx == r.ctx)
      let freed := (cl.resv.filter fun r => !stays r).map (·.req)
      let s := s.setCluster k { cl with resv := cl.resv.filter stays }
      let s := s.updTeam u fun m => { m with chains := m.chains.filter fun c => !chainCloses c }
      let ends (r : Req) : Bool := match r.owner, r.act with
        | .thread a _, .mxEnd sub ch => a == u && gone.any fun c => c.sub == sub && c.ch == ch
        | _, _ => false
      let s := (((s.reqs.filter fun p => ends p.2).map (·.1)) ++ freed).foldl completeReq s
      creditWake s

/-- The octet that a thread leads counts as exited in every open chain whose mask holds it. -/
def exitOctet (m : Team) (t : Thread) : Team :=
  if t.slot % 8 ≠ 0 then m
  else
    let j := t.lane / 8
    { m with chains := m.chains.map fun c =>
        if c.sub = t.sub ∧ chainMask c j then { c with exited := c.exited.set j true } else c }

/-! ## The end of a launch (R322) -/

def launchRecord (s : State) (l : Launch) (status : Nat) (dqleft : Nat) : List Byte :=
  leBytes 6 l.seq.toNat ++ leBytes 1 status ++ leBytes 1 0 ++ leBytes 8 s.now ++ leBytes 4 l.nflt ++ leBytes 4 l.ndone ++
  leBytes 2 (Nat.min dqleft 0xFFFF) ++ leBytes 1 l.fn ++ leBytes 1 l.queue ++ leBytes 4 0

/-- Increment the word at SIGADDR as one step; a stall is that of a write (R417). -/
def signal (s : State) (u : Nat) (l : Launch) : State :=
  let va : DWord := BitVec.ofNat 64 l.sigaddr
  match areaIncrement s l.fn (l.queue % 4) l.sigaddr with
  | (s, .done) => s
  | (s, .failed) => s.setLq l.fn l.queue { s.lq l.fn l.queue with rdf := true }
  | (s, .stalled ipa info) => (raiseEvent s 0x0A l.fn (BitVec.ofNat 64 ipa) info (.area u va [] 0 true true) va).2

/-- The increment that follows the record, where the launch names a counter. -/
def signalAfter (s : State) (u : Nat) (l : Launch) : State :=
  if l.sigaddr = 0 ∨ l.sigaddr % 4 ≠ 0 ∨ !canonical (BitVec.ofNat 64 l.sigaddr) then s else signal s u l

/-- Write the completion record, and then the SIGADDR increment: a stalled record holds it back, a dropped one does not. -/
def postLaunchRecord (s : State) (u : Nat) (l : Launch) (bs : List Byte) : State :=
  let va : DWord := BitVec.ofNat 64 l.lcaddr
  match areaRecord s l.fn (l.queue % 4) l.lcaddr bs with
  | (s, .done) => signalAfter s u l
  | (s, .failed) => signalAfter (s.setLq l.fn l.queue { s.lq l.fn l.queue with rdf := true }) u l
  | (s, .stalled ipa info) => (raiseEvent s 0x0A l.fn (BitVec.ofNat 64 ipa) info (.area u va bs 0 true false) va).2

/-- LAUNCH_COMPLETION with a status: discard and count what the deques hold, write the record, signal. -/
def endLaunch (s : State) (u : Nat) (status : Nat) : State :=
  match s.launch? u with
  | none => s
  | some l =>
    if l.stage = .ended then s
    else
      let mine := s.cores.filter fun p => p.2.dqOwner == some u
      let left := mine.foldl (fun n p => n + p.2.deque.length + 32 * p.2.spill.length) 0
      let s := mine.foldl (fun s p => s.setCore p.1 { s.core p.1 with dqOwner := none, deque := [], spill := [] }) s
      let s := s.updLaunch u fun l => { l with stage := .ended, dqleft := left }
      postLaunchRecord s u l (launchRecord s l status left)

/-- A team of a launch that has not ended. -/
def hasLiveTeam (s : State) (u : Nat) : Bool := s.teams.any fun p => p.2.launch == u && p.2.stage != .ended

/-- A running launch whose teams have all ended, and which is quiescent where it is open-ended, ends; one that is refused
after its check ends once no team of it is left (R322, R354). -/
def checkLaunchEnd (s : State) (u : Nat) : State :=
  match s.launch? u with
  | none => s
  | some l =>
    if l.refused ≠ 0 then (if hasLiveTeam s u then s else endLaunch s u l.refused)
    else if l.stage = .running ∧ l.nteam ≤ l.ndone ∧ (!l.isOpen || l.quiescent) then
      endLaunch s u (if l.nflt ≠ 0 then 2 else if l.isOpen then 3 else 1)
    else s

/-! ## Bound cells (R288, R289) -/

/-- The lower of two values in the type of a launch's cell. -/
def lowerBound (l : Launch) (i : Nat) (a b : DWord) : DWord :=
  if (if l.bndSign i then decide (b.toInt < a.toInt) else decide (b.toNat < a.toNat)) then b else a

def Core.copyOf (c : Core) (i : Nat) : DWord := FMap.get 0 c.bound i

/-- Lower a core's read copy. -/
def lowerCopy (l : Launch) (i : Nat) (v : DWord) (s : State) (core : Nat) : State :=
  let c := s.core core
  s.setCore core { c with bound := FMap.set 0 c.bound i (lowerBound l i (c.copyOf i) v) }

def coresOf (cluster : Nat) : List Nat := (List.range 4).map fun i => cluster * 4 + i

/-- Lower a cell. -/
def lowerCell (l : Launch) (cluster i : Nat) (v : DWord) (s : State) : State :=
  let cl := s.cluster cluster
  let c := FMap.get Cell.free cl.cells i
  s.setCluster cluster { cl with cells := FMap.set Cell.free cl.cells i { c with value := lowerBound l i c.value v } }

/-- Lower a cell and its four copies. -/
def lowerAll (l : Launch) (cluster i : Nat) (v : DWord) (s : State) : State :=
  (coresOf cluster).foldl (lowerCopy l i v) (lowerCell l cluster i v s)

/-! ## The end of a thread and of a team -/

/-- The value that the distributor keeps for a cell of a launch (R288). -/
def Launch.keptOf (l : Launch) (i : Nat) : DWord := (Tab.find l.kept i).getD (BitVec.ofNat 64 (l.bndinit i))

/-- Free the bound cells of a launch whose last team has left a cluster; the four copies follow the cell (R289), and the kept value
falls to the cell's (R288). -/
def freeCells (s : State) (u : Nat) (l : Launch) (cluster : Nat) : State :=
  let here := s.teams.any fun p => p.2.launch == u && clusterOf p.2.core == cluster && p.2.holds
  if here then s
  else
    (List.range 8).foldl (fun s i =>
      let cl := s.cluster cluster
      let c := FMap.get Cell.free cl.cells i
      if c.owner = some u then
        let s := s.setCluster cluster { cl with cells := FMap.set Cell.free cl.cells i { c with owner := none } }
        let s := (coresOf cluster).foldl (lowerCopy l i c.value) s
        s.updLaunch u fun l => { l with kept := Tab.put l.kept i (lowerBound l i (l.keptOf i) c.value) }
      else s) s

/-- Withdraw the waits of a team's buffered stores, of its requests and of fills of its registers (R171, R357). -/
def dropStoreWaits (s : State) (u : Nat) : State :=
  let mine (w : Waiter) : Bool := match w with
    | .drain a | .fill a _ _ _ _ => a == u
    | .req k => match Tab.find s.reqs k with | some r => r.ofTeam u | none => true
    | _ => false
  ((s.pkg.waits.filter fun p => mine p.2.who).map (·.1)).foldl dropWait s

/-- A launch holds a core's deque until it is empty and the launch's last team has left the core (R326, R332). -/
def leaveDeque (s : State) (core : Nat) : State :=
  let c := s.core core
  let held (u : Nat) : Bool := s.teams.any fun p => p.2.launch == u && p.2.core == core && p.2.holds
  match c.dqOwner with
  | some u => if !held u && c.deque.isEmpty && c.spill.isEmpty then s.setCore core { c with dqOwner := none } else s
  | none => s

/-- Release what a team holds on its core and cluster (R331): its threads, tiles, streams, chains, buffered sectors,
reservation entries; the deque when it was the launch's last team there and nothing is left in it. -/
def releaseTeam (s : State) (u : Nat) (stage : Stage) : State :=
  match s.team? u with
  | none => s
  | some m =>
    let s := dropStoreWaits s u
    let k := clusterOf m.core
    let cl := s.cluster k
    let freed := (cl.resv.filter fun r => r.team == u).map (·.req)
    let pass := match cl.pass with | some p => if p.team = u then none else some p | none => none
    let s := s.setCluster k { cl with pass := pass, resv := cl.resv.filter fun r => r.team != u }
    let s := freed.foldl completeReq s
    let slots := (s.teamThreads u).map (·.slot)
    let c := slots.foldl Core.leave (s.core m.core)
    let s := s.setCore m.core { c with psb := c.psb.filter fun e => e.team != u }
    let kill (p : Nat × Req) : Nat × Req := if p.2.ofTeam u then (p.1, { p.2 with dead := true }) else p
    let s : State := { s with threads := s.threads.filter (fun p => p.2.team != u), reqs := s.reqs.map kill }
    let s := s.updTeam u fun m => { m with
      stage := stage, chains := [], tiles := [], tflags := [], streams := [], scratch := [], wdCount := m.wd s.now,
      wdSince := none, area := none }
    match s.launch? m.launch with
    | none => s
    | some l => leaveDeque (freeCells s m.launch l k) m.core

/-- Whether a team still owns a Mordant program. -/
def hasPrograms (s : State) (u : Nat) : Bool := s.programs.any fun p => p.2.team == u && p.2.system.isNone

/-- The last thread of a resident team has exited, and no store of it has still to enter the phase store buffer. -/
def allExited (s : State) (u : Nat) (m : Team) : Bool := m.runs && (liveOf s u).isEmpty && !bufferBusy s u

/-- Nothing of a team is left to be done: its programs have ended, its accesses are performed, its buffered stores drained. -/
def teamDone (s : State) (u : Nat) (m : Team) : Bool := !hasPrograms s u && !teamBusy s u && !drainLeft s m.core u

/-- At the exit of a team's last thread its buffered stores drain (R175); it ends once its programs have ended and its accesses
have been performed (R121, R322). -/
def checkTeamEnd (s : State) (u : Nat) : State :=
  match s.team? u with
  | none => s
  | some m =>
    if allExited s u m then
      let s := drain s u m
      if ((s.team? u).map Team.runs).getD false && teamDone s u m then
        let s := releaseTeam s u .ended
        let s := s.updLaunch m.launch fun l => { l with ndone := l.ndone + 1 }
        checkLaunchEnd s m.launch
      else s
    else s

/-- Test every team for its end. -/
def endTeams (s : State) : State := (s.teams.map (·.1)).foldl checkTeamEnd s

/-- Credit, wake, and end the teams for which all has come about. -/
def settle (s : State) : State := endTeams (creditWake s)

/-- `exit` (R121): the thread ends; its loads' results are dropped; passes, chains, meetings, the watchdog's stop and the team
are tested again. -/
def exitThread (s : State) (t : Thread) : State :=
  let s := s.setThread { t with place := .exited, trapcause := t.leaveTrap.trapcause }
  let kill (p : Nat × Req) : Nat × Req := if ownReq t.team t.tix p.2 then (p.1, { p.2 with dead := true }) else p
  let s := { s with reqs := s.reqs.map kill }
  let s := match t.hcall with | some h => dropWait s h.token | none => s
  let s := s.updTeam t.team fun m => exitOctet m t
  let s := closeChains (checkKinds s t.team) t.team
  let s := noteIdle (testMeetings s t.team) t.team
  checkTeamEnd s t.team

end Sys2Proof.Machine
end

