-- ==== Sys2Proof/Machine/CoreInstr.lean ====
section
/-! DEFINITION. Core instructions (file 10) but `spawn`: collectives, barriers, counted barriers, the deque, identity, time
and waiting. -/

namespace Sys2Proof.Machine

/-! ## Collectives and barriers -/

def execShfl (m : ShflMode) (d : Reg) (a b : Src) (s : State) : Host.Outcome State Fault Refusal :=
  let i := Instr.shfl m d a b
  issue s i [src1 a, src1 b, dst1 d] fun _ t => meet s t i [rw t a, rw t b]

def execVote (m : VoteMode) (d : Reg) (a : Src) (s : State) : Host.Outcome State Fault Refusal :=
  let i := Instr.vote m d a
  issue s i [src1 a, dst1 d] fun _ t => meet s t i [rw t a]

def execBallot (b64 : Bool) (d : Reg) (a : Src) (s : State) : Host.Outcome State Fault Refusal :=
  let i := Instr.ballot b64 d a
  issue s i [src1 a, if b64 then dst2 d else dst1 d] fun _ t => meet s t i [rw t a]

def execRedux (op : RedOp) (ty : Ty) (d : Reg) (a : Src) (s : State) : Host.Outcome State Fault Refusal :=
  let i := Instr.redux op ty d a
  issue s i [src1 a, dst1 d] fun _ t => meet s t i [rw t a]

def execGscan (op : RedOp) (ty : Ty) (ex : Bool) (d : Reg) (a : Src) (s : State) : Host.Outcome State Fault Refusal :=
  let i := Instr.gscan op ty ex d a
  issue s i [src1 a, dst1 d] fun _ t => meet s t i [rw t a]

/-- `bqmax` needs a group of 32 or 64 (R189). -/
def execBqmax (d : Reg) (a : Src) (s : State) : Host.Outcome State Fault Refusal :=
  let i := Instr.bqmax d a
  issue s i [src1 a, dst1 d] fun m t =>
    if m.w < 32 then threadFault s t .illegal {} else meet s t i [rw t a]

/-- `bar` (R191): the release waits at a scope other than `.th`, then the meeting. -/
def execBar (sc : Scope) (s : State) : Host.Outcome State Fault Refusal :=
  let i := Instr.bar sc
  issue s i [] fun _ t =>
    if t.mode then threadFault s t .illegal {}
    else if sc = .th then meet s t i []
    else awaiting s t (.release false) (meet s t i [])

/-- `phase` (R192): F_ILLEGAL in the last phase and under major 3; it orders memory as `bar.team`. -/
def execPhase (s : State) : Host.Outcome State Fault Refusal :=
  issue s .phase [] fun m t =>
    let nph := match s.launch? m.launch with | some l => l.nph | none => 0
    if t.mode || m.narrow || decide (nph ≤ m.phase + 1) then threadFault s t .illegal {}
    else awaiting s t (.release false) (meet s t .phase [])

/-! ## Counted barriers (R197 to R201) -/

/-- The scratchpad bytes of a team. -/
def Team.scr (m : Team) (off n : Nat) : List Byte := (List.range n).map fun i => FMap.get 0 m.scratch (off + i)

def Team.putScr (m : Team) (off : Nat) (bs : List Byte) : Team := { m with scratch := putBytes m.scratch off bs }

/-- The 16 bytes of a barrier. -/
def barrierBytes (exp arr : Nat) (ph : Bool) (tag : BitVec 8) (cnt : Nat) : List Byte :=
  leBytes 4 exp ++ leBytes 4 arr ++ leBytes 1 (if ph then 1 else 0) ++ [tag] ++ leBytes 2 0 ++ leBytes 4 cnt

/-- An arrival of count `n` (R198): completions, each flipping PH. With EXP = 0 every arrival completes once. -/
def arrival (b : List Byte) (n : Nat) : List Byte :=
  let exp := sliceNat b 0 4
  let arr := sliceNat b 4 4 + n
  let k := if exp = 0 then 1 else arr / exp
  let left := if exp = 0 then 0 else arr % exp
  let ph := sliceNat b 8 1 % 2
  b.take 4 ++ leBytes 4 left ++ leBytes 1 (sliceNat b 8 1 / 2 * 2 + (ph + k) % 2) ++ (b.drop 9).take 3 ++
    leBytes 4 (sliceNat b 12 4 + k)

def barrierPh (m : Team) (off : Nat) : Bool := FMap.get 0 m.scratch (off + 8) |>.getLsbD 0

/-- A program held in `cbwait` on a barrier of team `u` whose PH now differs goes on (R250). -/
def passBarrier (u : Nat) (m : Team) (p : Program) : Program :=
  match p.barrier with
  | some (a, off, ph) => if a = u ∧ barrierPh m off ≠ ph then { p with wait := false, barrier := none, passed := true } else p
  | none => p

/-- CBWAIT_RELEASE: after a change of a team's scratchpad, threads in `cbwait` whose PH now differs go on with the
acquire of `fence.acq.cl`; programs held in their `cbwait` resume (R200, R250). -/
def releaseCbwait (s : State) (u : Nat) : State :=
  match s.team? u with
  | none => s
  | some m =>
    let s : State := { s with programs := s.programs.map fun p => (p.1, passBarrier u m p.2) }
    if !m.wakes then s
    else
      (s.teamThreads u).foldl (fun s t =>
        match t.place with
        | .held (.cbwait off ph) => if barrierPh m off != ph then releaseAcq s t .cl 8 else s
        | _ => s) s

/-- Write scratchpad bytes of a team, and test its barriers' waits. -/
def writeScratch (s : State) (u off : Nat) (bs : List Byte) : State :=
  releaseCbwait (s.updTeam u fun m => m.putScr off bs) u

/-- Perform an arrival at a barrier of a team. -/
def arriveAt (s : State) (u off n : Nat) : State :=
  match s.team? u with
  | none => s
  | some m => writeScratch s u off (arrival (m.scr off 16) n)

/-- The check of a barrier offset; an outstanding acquire and older requests of the thread on the barrier's bytes come first
(R127, R128). -/
def withBarrier (s : State) (m : Team) (t : Thread) (off : Nat) (k : State) : State :=
  afterAcquire s t <| match checkScratch m off 16 with
  | some c => threadFault s t c {}
  | none => if (sameBytes s t (.scratch t.team off) 16).isEmpty then k else awaiting s t (.release false) k

def execCbinit (a b : Src) (s : State) : Host.Outcome State Fault Refusal :=
  let i := Instr.cbinit a b
  issue s i [src1 a, src1 b] fun m t =>
    let off := (rw t a).toNat
    withBarrier s m t off
      (finish (writeScratch s t.team off (barrierBytes (rw t b).toNat 0 false m.gen 0)) t i 0)

/-- `cbarr` (R199): the waits of `fence.rel` at its scope, then an arrival that counts in class st until performed. -/
def execCbarr (sc : Scope) (a b : Src) (s : State) : Host.Outcome State Fault Refusal :=
  let i := Instr.cbarr sc a b
  issue s i [src1 a, src1 b] fun m t =>
    let off := (rw t a).toNat
    afterAcquire s t <| match checkScratch m off 16 with
    | some c => threadFault s t c {}
    | none =>
      let r := t.req s.now (some .st) (.arrive t.team off (rw t b).toNat)
      let go := withRoom s t .st (issueReq s t i 0 0 { r with after := sameBytes s t (.scratch t.team off) 16 })
      if sc = .th then go else awaiting s t (.release false) go

/-- An instruction that ends its row and acquires: the older loads complete first (R136). -/
def finishAcq (s : State) (t : Thread) (i : Instr) (sc : Scope) : State :=
  releaseAcq (retire s t.team) t sc i.len

def execCbwait (a b : Src) (s : State) : Host.Outcome State Fault Refusal :=
  let i := Instr.cbwait a b
  issue s i [src1 a, src1 b] fun m t =>
    let off := (rw t a).toNat
    let ph := (rw t b).getLsbD 0
    withBarrier s m t off
      (if barrierPh m off != ph then finishAcq s t i .cl else hold (retire s t.team) t (.cbwait off ph))

def execCbtest (d : Reg) (a : Src) (s : State) : Host.Outcome State Fault Refusal :=
  let i := Instr.cbtest d a
  issue s i [src1 a, dst1 d] fun m t =>
    let off := (rw t a).toNat
    afterAcquire s t <| match checkScratch m off 16 with
    | some c => threadFault s t c {}
    | none =>
      let r := t.req s.now (some .ld) (.cbTest t.team off d.toNat)
      withRoom s t .ld (issueReq s t i d.toNat 1 { r with after := sameBytes s t (.scratch t.team off) 16 })

/-! ## The hardware deque (R202 to R207) -/

def entryBytes (e : DqEntry) : List Byte := leBytes 8 e.ea.toNat ++ e.args.flatMap fun w => leBytes 4 w.toNat

def entryOf (b : List Byte) : DqEntry :=
  ⟨BitVec.ofNat 64 (sliceNat b 0 8), (List.range 6).map fun i => BitVec.ofNat 32 (sliceNat b (8 + 4 * i) 4)⟩

/-- The blocks that the spill stacks of a launch refer to: those of its cores, and those in the records of its saved teams
(R332, R335). -/
def usedBlocks (s : State) (u : Nat) : List Nat :=
  (s.cores.flatMap fun p => if p.2.dqOwner = some u then p.2.spill.map BitVec.toNat else []) ++
    s.teams.flatMap fun p => if p.2.launch = u then p.2.blocks.map BitVec.toNat else []

/-- The free block of lowest address in a team's area (R332). -/
def freeBlock (s : State) (u : Nat) (l : Launch) (num : Nat) : Option Nat :=
  let used := usedBlocks s u
  ((List.range (l.dqsize / 1024)).map fun i => l.dqArea num + 1024 * i).find? fun a => !used.contains a

/-- What a deque operation that needs its overflow area came to. -/
inductive DqRes
  | ok (s : State)
  | full (s : State)
  | stalled (s : State) (ipa : Nat) (va : Nat) (info : Nat)
  | failed (s : State) (va : Nat)

/-- DEQUE_SPILL: make room for a push (R203). -/
def spillFor (s : State) (u : Nat) (l : Launch) (num core : Nat) : DqRes :=
  let c := s.core core
  if c.deque.length < 64 then .ok s
  else
    match freeBlock s u l num with
    | none => .full s
    | some a =>
      if 64 ≤ c.spill.length then .full s
      else
        match areaWrite s l.fn (dieOf core) a ((c.deque.take 32).flatMap entryBytes) with
        | (s, .done) =>
          let c := s.core core
          .ok (s.setCore core { c with deque := c.deque.drop 32, spill := c.spill ++ [BitVec.ofNat 64 a] })
        | (s, .failed) => .failed s a
        | (s, .stalled ipa info) => .stalled s ipa a info

/-- DEQUE_REFILL: bring the latest spilled block back to an empty deque (R203). -/
def refill (s : State) (l : Launch) (core : Nat) : DqRes :=
  let c := s.core core
  match c.deque, c.spill.reverse with
  | [], a :: _ =>
    match areaRead s l.fn (dieOf core) a.toNat 1024 with
    | (s, .done, bs) =>
      let es := (List.range 32).map fun i => entryOf ((bs.drop (32 * i)).take 32)
      let c := s.core core
      .ok (s.setCore core { c with deque := es, spill := c.spill.dropLast })
    | (s, .failed, _) => .failed s a.toNat
    | (s, .stalled ipa info, _) => .stalled s ipa a.toNat info
  | _, _ => .ok s

/-- An area stall of a thread: an event of TYPE 0x0A; it issues the instruction again when resolved (R417). -/
def stallArea (s : State) (t : Thread) (fn ipa va info : Nat) : State :=
  let (k, s) := raiseEvent s 0x0A fn (BitVec.ofNat 64 ipa) info (.thread t.team t.tix) (BitVec.ofNat 64 va)
  s.setThread { t with place := .stalled k }

/-- Deque instructions fault F_PERM without declared use; the first three demote an idempotent phase (R202, R174). -/
def withDeque (s : State) (m : Team) (t : Thread) (k : State → Launch → State) : State :=
  match s.launch? m.launch with
  | none => s
  | some l =>
    if !l.dq then threadFault s t .perm {}
    else afterDemotion s m t fun s => k s l

def addCount (f : FMap Nat) (d : Nat) : FMap Nat := FMap.set 0 f d (FMap.get 0 f d + 1)

/-- `dqpush` (R204); ADDR of its F_ALIGN is 0 (DESIGN CHOICE, log 121). -/
def execDqpush (d : Reg) (a b : Src) (s : State) : Host.Outcome State Fault Refusal :=
  let i := Instr.dqpush d a b
  issue s i [src2 a, srcN b 6 1, dst1 d] fun m t =>
    let ea := rp t a
    let e : DqEntry := ⟨ea, (List.range 6).map fun j => t.word (b.r.toNat + j)⟩
    match s.launch? m.launch with
    | none => s
    | some l =>
      if !l.dq then threadFault s t .perm {}
      else if ea.toNat % 8 ≠ 0 then threadFault s t .align {}
      else awaiting s t (.release false) <| withDeque s m t fun s l =>
        if ea = 0 then finish s (t.write d.toNat 0) i 0
        else
          match spillFor s m.launch l m.num t.core with
          | .full s => finish s (t.write d.toNat 0) i 0
          | .failed s va => threadFault s t .save { addr := va }
          | .stalled s ipa va info => stallArea s t l.fn ipa va info
          | .ok s =>
            let c := s.core t.core
            let s := s.setCore t.core { c with deque := c.deque ++ [e] }
            let s := s.updLaunch m.launch fun l => { l with sent := addCount l.sent (dieOf t.core) }
            releaseIdle (finish s (t.write d.toNat 1) i 0) m.launch

/-- Fill D to D + 7 with an entry, or with zeros, as a producer of class 0x1 counted in ld (R205). -/
def produceEntry (s : State) (t : Thread) (i : Instr) (d : Reg) (launch : Nat) (e : Option DqEntry) : State :=
  let ws : List Word := match e with
    | some e => [lowWord e.ea, highWord e.ea] ++ e.args
    | none => List.replicate 8 0
  let s := if e.isSome then s.updLaunch launch fun l => { l with recv := addCount l.recv (dieOf t.core) } else s
  let r := t.req s.now (some .ld) (.value d.toNat ws 0 false)
  issueReq s t i d.toNat 8 { r with acq := if e.isSome then some .dev else none }

def execDqpop (d : Reg) (s : State) : Host.Outcome State Fault Refusal :=
  let i := Instr.dqpop d
  issue s i [dstN d 8 8] fun m t =>
    withDeque s m t fun s l => withRoom s t .ld <|
      match refill s l t.core with
      | .full s => s
      | .failed s va => threadFault s t .save { addr := va }
      | .stalled s ipa va info => stallArea s t l.fn ipa va info
      | .ok s =>
        let c := s.core t.core
        produceEntry (s.setCore t.core { c with deque := c.deque.dropLast }) t i d m.launch c.deque.getLast?

/-- The other cores in the order of R205. Within another cluster the cores, and within another die the clusters, come in ascending
order from 0 (DESIGN CHOICE, log 112). -/
def stealOrder (core : Nat) : List Nat :=
  let die := dieOf core
  let cl := clusterOf core
  let own := (List.range 3).map fun i => cl * 4 + (core + 1 + i) % 4
  let inDie := (List.range 31).flatMap fun i => let k := die * 32 + (cl + 1 + i) % 32; (List.range 4).map fun j => k * 4 + j
  let dies := (List.range 3).flatMap fun i => let d := (die + 1 + i) % 4; (List.range 128).map fun j => d * 128 + j
  own ++ inDie ++ dies

def execDqsteal (d : Reg) (s : State) : Host.Outcome State Fault Refusal :=
  let i := Instr.dqsteal d
  issue s i [dstN d 8 8] fun m t =>
    withDeque s m t fun s l => withRoom s t .ld <|
      let has (c : Nat) : Bool :=
        let x := s.core c
        x.dqOwner == some m.launch && (!x.deque.isEmpty || !x.spill.isEmpty)
      match (stealOrder t.core).find? has with
      | none => produceEntry s t i d m.launch none
      | some v =>
        match refill s l v with
        | .full s => s
        | .failed s va => threadFault s t .save { addr := va }
        | .stalled s ipa va info => stallArea s t l.fn ipa va info
        | .ok s =>
          let c := s.core v
          produceEntry (leaveDeque (s.setCore v { c with deque := c.deque.drop 1 }) v) t i d m.launch c.deque.head?

/-- `dqidle` (R207): in trap mode without declared deque use, the fault of the missing declaration comes first (DESIGN CHOICE,
log 95). -/
def execDqidle (d : Reg) (s : State) : Host.Outcome State Fault Refusal :=
  let i := Instr.dqidle d
  issue s i [dst1 d] fun m t =>
    match s.launch? m.launch with
    | none => s
    | some l => if !l.dq then threadFault s t .perm {} else meet s t i []

/-! ## Identity, time and waiting (R209 to R212) -/

/-- The value of a `sid` selector. -/
def sidOf (s : State) (m : Team) (t : Thread) (k : Nat) : Nat :=
  let arg := match s.launch? m.launch with | some l => l.argaddr | none => 0
  match k with
  | 0 => t.lane
  | 1 => t.slot
  | 2 => t.tix
  | 3 => t.tix / m.w
  | 4 => t.tix % m.w
  | 5 => m.num
  | 6 => t.core % 4
  | 7 => t.core / 4 % 32
  | 8 => t.core / 128
  | 9 => m.w
  | 10 => m.nthr
  | 11 => m.phase
  | 12 => arg % 2 ^ 32
  | _ => arg / 2 ^ 32

def execSid (k : BitVec 4) (d : Reg) (s : State) : Host.Outcome State Fault Refusal :=
  let i := Instr.sid k d
  issue s i [dst1 d] fun m t => finish s (t.write d.toNat (BitVec.ofNat 32 (sidOf s m t k.toNat))) i 0

def execRdclk (d : Reg) (s : State) : Host.Outcome State Fault Refusal :=
  write2 s (.rdclk d) d [] fun _ => BitVec.ofNat 64 s.now

def execYield (s : State) : Host.Outcome State Fault Refusal :=
  issue s .yield [] fun _ t => hold (retire s t.team) t (.yield (s.now + 64))

/-- `sleep` (R212): the word is read at its home slice, after the thread's own older accesses of its bytes (R128); a difference
from C writes 0 and goes on. -/
def execSleep (d : Reg) (a b c : Src) (s : State) : Host.Outcome State Fault Refusal :=
  let i := Instr.sleep d a b c
  issue s i [src2 a, src1 b, src1 c, dst1 d] fun m t =>
    let ea := rp t a
    afterAcquire s t <| withAccess s m t ea 4 .load fun s loc fn _ =>
      match loc with
      | .mem pa =>
        if !isHbm pa then permFault s t ea
        else if poisonedAt s pa 4 then threadFault s t .ecc { addr := ea.toNat }
        else awaiting s t (.after (homeAfter s t loc 4)) <|
          let (s, word) := readMem s fn pa 4
          if leNat word ≠ (rw t c).toNat then finishAcq s (t.write d.toNat 0) i .dev
          else
            let n := (rw t b).toNat
            hold (retire s t.team) t (.sleep pa d (if n = 0 then none else some (s.now + n)))
      | .peer _ _ | .eth _ _ | .notify _ _ _ | .window _ _ _ | .scratch _ _ => permFault s t ea

end Sys2Proof.Machine
end

