-- ==== Sys2Proof/Machine/Matrix.lean ====
section
/-! DEFINITION. The matrix unit: chains, requests, passes and their effects, tile rows; bound cells; multicast stores
(R263 to R291). -/

namespace Sys2Proof.Machine

/-! ## The literal of a chain (R268) -/

def litField (lit : DWord) (lo n : Nat) : Nat := lit.toNat / 2 ^ lo % 2 ^ n
def litSa (l : DWord) : Nat := litField l 8 4
def litSb (l : DWord) : Nat := litField l 12 4
def litSea (l : DWord) : Nat := litField l 16 4
def litSeb (l : DWord) : Nat := litField l 20 4
def litNcol (l : DWord) : Nat := 8 * (litField l 24 5 + 1)
def litFa (l : DWord) : Nat := litField l 29 4
def litFb (l : DWord) : Nat := litField l 33 4
def litCh (l : DWord) : Nat := litField l 37 2
/-- The octets of the mask, ascending. -/
def litOctets (l : DWord) : List Nat := (List.range 8).filter fun j => l.getLsbD j

/-- A BQ format code, and its mantissa width. -/
def isBqCode (c : Nat) : Bool := decide (4 ≤ c) && decide (c ≤ 10)
def bqWidth (c : Nat) : Nat := c - 2
def litBq (l : DWord) : Bool := isBqCode (litFa l)

/-- Check 1 of R269. -/
def litLegal (l : DWord) : Bool :=
  let fa := litFa l
  let fb := litFb l
  litField l 39 25 == 0 && litField l 0 8 != 0 &&
    ((isBqCode fa && isBqCode fb) || (decide (fa < 4) && fa == fb && litSea l == 0 && litSeb l == 0))

/-- The streams that a chain uses. -/
def litStreams (l : DWord) : List Nat :=
  if litBq l then [litSa l, litSb l, litSea l, litSeb l] else [litSa l, litSb l]

def noRepeat : List Nat → Bool
  | [] => true
  | x :: xs => !xs.contains x && noRepeat xs

/-- The lowest context number of a cluster that no open chain uses. -/
def freeContext (s : State) (cluster : Nat) : Option Nat :=
  (List.range 16).find? fun c => !(contextsUsed s cluster).contains c

/-- A live thread of the team in a slot. -/
def leaderLive (s : State) (u slot : Nat) : Bool := (s.teamThreads u).any fun t => t.slot == slot && t.live

/-- Open the chain (R269). -/
def openChain (s : State) (u : Nat) (t : Thread) (lit : DWord) (ctx : Nat) : State :=
  let gone (j : Nat) : Bool := lit.getLsbD j && !leaderLive s u (8 * j + 64 * t.sub)
  let c : Chain :=
    { sub := t.sub, ch := litCh lit, ctx := ctx, lit := lit, q := List.replicate 8 0,
      exited := (List.range 8).map gone, pend := List.replicate 8 none, closing := false, passes := 0 }
  s.updTeam u fun m => { m with chains := m.chains ++ [c] }

def execMxbeg (lit : DWord) (s : State) : Host.Outcome State Fault Refusal :=
  let i := Instr.mxbeg lit
  issue s i [] fun m t =>
    match litOctets lit with
    | [] => threadFault s t .illegal {}
    | j0 :: _ =>
      if t.slot ≠ 8 * j0 + 64 * t.sub then finish s t i 0
      else if !litLegal lit then threadFault s t .illegal {}
      else if (litStreams lit).any fun k => decide (m.streams.length ≤ k) then threadFault s t .perm {}
      else if !noRepeat (litStreams lit) || (m.chains.flatMap fun c => litStreams c.lit).any (litStreams lit).contains ||
          (m.chain? t.sub (litCh lit)).isSome then threadFault s t .illegal {}
      else
        match freeContext s (clusterOf t.core) with
        | none => park s t .context
        | some ctx => wake (finish (openChain s t.team t lit ctx) t i 0)

/-! ## Requests (R271) -/

/-- The tile of an octet's latest request: still in the table, or the pending partial tile. -/
def lastTile (cl : Cluster) (u : Nat) (c : Chain) (j : Nat) : Option Nat :=
  match cl.resv.find? fun r => r.team == u && r.ctx == c.ctx && r.oct == j && r.number + 1 == octQ c j with
  | some r => some r.tile
  | none => c.pend.getD j none

/-- The table of R271 from the open chain on: a fault, or nothing. -/
def requestFault (m : Team) (cl : Cluster) (u : Nat) (c : Chain) (j kind tile : Nat) : Option Code :=
  let bq := litBq c.lit
  if !chainMask c j then some .illegal
  else if m.nacc ≤ tile then some .perm
  else if (kind = 1 ∧ !bq) ∨ (kind = 2 ∧ (bq ∨ litFa c.lit = 2)) then some .illegal
  else if bq ∧ octQ c j % 2 ≠ kind then some .illegal
  else if kind = 1 ∧ lastTile cl u c j = some tile then some .illegal
  else none

/-- A closing chain takes no request that would raise an octet above the highest Q (R270). -/
def overQ (c : Chain) (j : Nat) : Bool := c.closing && decide (((List.range 8).map (octQ c)).foldl Nat.max 0 ≤ octQ c j)

/-- Raise Q of an octet of the chain in a context. -/
def raiseQ (m : Team) (ctx j : Nat) : Team :=
  { m with chains := m.chains.map fun c => if c.ctx = ctx then { c with q := c.q.set j (octQ c j + 1) } else c }


/-- `mma`, `mxscale` and `mxdist` (R267, R271). What R271 faults comes before the park of a closing chain (DESIGN CHOICE, log
120). -/
def matrixRequest (s : State) (i : Instr) (kind : Nat) (kb : Bool) (ch tile : Nat) : Host.Outcome State Fault Refusal :=
  issue s i [] fun m t =>
    if t.slot % 8 ≠ 0 then finish s t i 0
    else
      match m.chain? t.sub ch with
      | none => park s t (.chainOpen ch)
      | some c =>
        let k := clusterOf t.core
        let j := t.lane / 8
        match requestFault m (s.cluster k) t.team c j kind tile with
        | some f => threadFault s t f {}
        | none =>
          if overQ c j then park s t (.chainClose ch)
          else if 32 ≤ (s.cluster k).resv.length then park s t .tableSlot
          else withRoom s t .mx
            (let (id, s) := addReq s (t.req s.now (some .mx) .mxPass)
             let pri := match s.launch? m.launch with | some l => l.ctlPri | none => 0
             let r : Resv :=
              { req := id, team := t.team, tix := t.tix, ctx := c.ctx, oct := j, kind := kind, tile := tile, kb := kb,
                bpri := pri, number := octQ c j, issued := s.now, promoted := 0, risen := 0 }
             let cl := s.cluster k
             let s := s.setCluster k { cl with resv := cl.resv ++ [r] }
             let s := s.updTeam t.team fun m => raiseQ m c.ctx j
             checkKinds (finish s t i 0) t.team)

def execMma (kb : Bool) (ch : BitVec 2) (tile : BitVec 5) (s : State) : Host.Outcome State Fault Refusal :=
  matrixRequest s (.mma kb ch tile) 0 kb ch.toNat tile.toNat

def execMxscale (kb : Bool) (ch : BitVec 2) (tile : BitVec 5) (s : State) : Host.Outcome State Fault Refusal :=
  matrixRequest s (.mxscale kb ch tile) 1 kb ch.toNat tile.toNat

def execMxdist (kb : Bool) (ch : BitVec 2) (tile : BitVec 5) (s : State) : Host.Outcome State Fault Refusal :=
  matrixRequest s (.mxdist kb ch tile) 2 kb ch.toNat tile.toNat

/-- `mxend` (R270): the leader of the lowest octet marks the chain closing. -/
def execMxend (ch : BitVec 2) (s : State) : Host.Outcome State Fault Refusal :=
  let i := Instr.mxend ch
  issue s i [] fun m t =>
    match m.chain? t.sub ch.toNat with
    | none => finish s t i 0
    | some c =>
      if t.slot ≠ 8 * (litOctets c.lit).headD 0 + 64 * t.sub then finish s t i 0
      else withRoom s t .mx
        (let (_, s) := addReq s (t.req s.now (some .mx) (.mxEnd t.sub ch.toNat))
         let s := s.updTeam t.team fun m =>
          { m with chains := m.chains.map fun d => if d.ctx = c.ctx then { d with closing := true } else d }
         closeChains (finish s t i 0) t.team)

/-! ## Tile rows (R279 to R284) -/

def tileKey (tile row col : Nat) : Nat := (tile * 64 + row) * 256 + col

def Team.tileWord (m : Team) (tile row col : Nat) : Word := FMap.get 0 m.tiles (tileKey tile row col)

def Team.setTile (m : Team) (tile row col : Nat) (w : Word) : Team :=
  { m with tiles := FMap.set 0 m.tiles (tileKey tile row col) w }

def Team.rowFlags (m : Team) (tile row : Nat) : FFlags := FMap.get 0 m.tflags (tile * 64 + row)

def Team.setRowFlags (m : Team) (tile row : Nat) (f : FFlags) : Team :=
  { m with tflags := FMap.set 0 m.tflags (tile * 64 + row) f }

def Team.setTiles (m : Team) (tile row col : Nat) : List Word → Team
  | [] => m
  | w :: ws => (m.setTile tile row col w).setTiles tile row (col + 1) ws

def Team.zeroRow (m : Team) (tile row : Nat) : Team :=
  { m with
    tiles := m.tiles.filter fun p => p.1 / 256 != tile * 64 + row
    tflags := FMap.set 0 m.tflags (tile * 64 + row) 0 }

/-- The rank of a word under `mxtopk` (R284); under `.max` every NaN is lowest. -/
def rankOf (mx s32 : Bool) (w : Word) : Int :=
  if s32 then w.toInt
  else
    let a : Nat := w.toNat % 2 ^ 31
    if 0x7F800000 < a then (if mx then -(2 ^ 40 : Int) else (2 ^ 40 : Int))
    else if w.toNat / 2 ^ 31 = 1 then -(a : Int) - 1 else a

/-- Insert a column after every one that ranks before or equal to it. -/
def insertRank (mx : Bool) (x : Int × Nat × Word) : List (Int × Nat × Word) → List (Int × Nat × Word)
  | [] => [x]
  | y :: ys =>
    if (if mx then decide (y.1 < x.1) else decide (x.1 < y.1)) then x :: y :: ys else y :: insertRank mx x ys

/-- The k pairs of word and column that `mxtopk` writes. -/
def topkWords (mx s32 : Bool) (row : List Word) (k : Nat) : List Word :=
  let l := (List.range row.length).foldl (fun l i =>
    let w := row.getD i 0
    insertRank mx (rankOf mx s32 w, i, w) l) []
  let pad : Word := if s32 then (if mx then 0x80000000 else 0x7FFFFFFF) else 0x7FC00000
  (List.range k).flatMap fun j =>
    match l[j]? with
    | some x => [x.2.2, BitVec.ofNat 32 x.2.1]
    | none => [pad, 0xFFFFFFFF]

/-- The tile and row of a row access. -/
def Act.tileRow : Act → Option (Nat × Nat)
  | .mxLoad t r _ _ _ | .mxStore t r _ _ | .mxZero t r | .mxTopk t r _ _ _ _ _ => some (t, r)
  | _ => none

/-- A pass that still has to write this row of the team's tile was issued before request `k` (R280). -/
def rowWaits (cl : Cluster) (u tile row k : Nat) : Bool :=
  cl.resv.any fun r => r.team == u && r.tile == tile && r.oct == row / 8 && decide (r.req < k)

/-- Carry out one row access. -/
def rowAccess (s : State) (u k : Nat) (r : Req) : State :=
  let bytes (ws : List Word) : List Byte := ws.flatMap fun w => leBytes 4 w.toNat
  match s.team? u with
  | none => s
  | some m =>
    match r.act with
    | .mxZero t row => completeReq (s.updTeam u fun m => m.zeroRow t row) k
    | .mxStore t row c ws => completeReq (s.updTeam u fun m => m.setTiles t row c ws) k
    | .mxLoad t row c n _ =>
      let ws := if n = 0 then [BitVec.ofNat 32 (m.rowFlags t row).toNat] else (List.range n).map fun j => m.tileWord t row (c + j)
      s.updReq k fun r => { r with performed := true, data := some (bytes ws) }
    | .mxTopk t row kk n mx s32 _ =>
      let ws := topkWords mx s32 ((List.range n).map fun j => m.tileWord t row j) kk
      s.updReq k fun r => { r with performed := true, data := some (bytes ws), born := s.now }
    | _ => s

/-- Carry out, in issue order, the row accesses of a team that no older pass holds back. -/
def drainRows (s : State) (u : Nat) : State :=
  match s.team? u with
  | none => s
  | some m =>
    let k := clusterOf m.core
    s.reqs.foldl (fun s p =>
      match p.2.owner, p.2.act.tileRow with
      | .thread a _, some (t, row) =>
        if a = u ∧ !p.2.performed ∧ !rowWaits (s.cluster k) u t row p.1 then rowAccess s u p.1 p.2 else s
      | _, _ => s) s

/-- Issue a row access. -/
def issueRow (s : State) (t : Thread) (i : Instr) (d k : Nat) (act : Act) : State :=
  withRoom s t .mx
    (let (_, s) := addReq s { t.req s.now (some .mx) act with undo := (List.range k).map fun j => t.reg (d + j) }
     settle (drainRows (finish s (t.markEmpty d (producerTag 3 t.pc) k) i 0) t.team))

def execMxzero (tile : BitVec 5) (s : State) : Host.Outcome State Fault Refusal :=
  let i := Instr.mxzero tile
  issue s i [] fun m t =>
    if m.nacc ≤ tile.toNat then threadFault s t .perm {} else issueRow s t i 0 0 (.mxZero tile.toNat t.lane)

def execMxst (k : BitVec 2) (tile : BitVec 5) (a b : Src) (s : State) : Host.Outcome State Fault Refusal :=
  let i := Instr.mxst k tile a b
  let n := 2 ^ k.toNat
  issue s i [srcN a n n, src1 b] fun m t =>
    let c := (rw t b).toNat % 256
    if m.nacc ≤ tile.toNat then threadFault s t .perm {}
    else if c % n ≠ 0 then threadFault s t .align {}
    else issueRow s t i 0 0 (.mxStore tile.toNat t.lane c ((List.range n).map fun j => t.word (a.r.toNat + j)))

def execMxld (fl : Bool) (k : BitVec 2) (tile : BitVec 5) (d : Reg) (b : Src) (s : State) :
    Host.Outcome State Fault Refusal :=
  let i := Instr.mxld fl k tile d b
  let n := 2 ^ k.toNat
  issue s i ((if fl then [] else [src1 b]) ++ [dstN d n n]) fun m t =>
    let c := if fl then 0 else (rw t b).toNat % 256
    if m.nacc ≤ tile.toNat then threadFault s t .perm {}
    else if c % n ≠ 0 then threadFault s t .align {}
    else issueRow s t i d.toNat n (.mxLoad tile.toNat t.lane c (if fl then 0 else n) d.toNat)

/-- `mxtopk` (R284): the thread leaves its row and is held. -/
def execMxtopk (mx s32 : Bool) (tile : BitVec 5) (d : Reg) (b : Src) (s : State) : Host.Outcome State Fault Refusal :=
  let i := Instr.mxtopk mx s32 tile d b
  issue s i [src1 b, dstN d 1 2] fun m t =>
    let k := (rw t b).toNat % 32
    let n := (rw t b).toNat / 256 % 512
    if m.nacc ≤ tile.toNat then threadFault s t .perm {}
    else if 16 < k ∨ n = 0 ∨ 256 < n then threadFault s t .illegal {}
    else
      let f : RF := ⟨d.toNat, 2 * k, 2, .dst⟩
      if k ≠ 0 ∧ f.beyond m.nreg then threadFault s t .reg { reg := f.firstBeyond m.nreg }
      else
        match f.regs.filter fun r => isEmptyReg (t.reg r) with
        | r :: rs => park s t (.regs (r :: rs))
        | [] => withRoom s t .mx
          (let (_, s) := addReq s (t.req s.now (some .mx) (.mxTopk tile.toNat t.lane k n mx s32 d.toNat))
           drainRows (hold (retire s t.team) t .mxtopk) t.team)

/-- MXTOPK_RESULT: 16 + ceil(n ÷ 8) cycles after the row access the registers are written, the count is credited and
the thread goes on. -/
def execMxtopkResult (team tix : Nat) (s : State) : Host.Outcome State Fault Refusal :=
  .next (match s.thread? team tix with
  | none => s
  | some t =>
    match (if ((s.team? team).map Team.wakes).getD false then t.place else .stopped) with
    | .held .mxtopk =>
      match s.reqs.find? fun p => ownReq team tix p.2 && p.2.performed && !p.2.complete &&
          (match p.2.act with | .mxTopk _ _ _ _ _ _ _ => true | _ => false) with
      | some (k, r) =>
        match r.act, r.data with
        | .mxTopk _ _ _ n _ _ d, some bs =>
          if s.now < r.born + 16 + (n + 7) / 8 then s
          else
            let ws := (List.range (bs.length / 4)).map fun j => BitVec.ofNat 32 (sliceNat bs (4 * j) 4)
            settle (completeReq (releaseHeld s (t.writeList d ws) 8) k)
        | _, _ => s
      | none => s
    | _ => s)

/-! ## Passes (R265, R273, R274, R278, R280) -/

/-- Bytes of 32 elements of a format. -/
def stepBytes (code : Nat) : Nat :=
  if isBqCode code then 4 * bqWidth code else if code = 2 then 128 else if code = 3 then 32 else 64

/-- The records that a pass of a kind consumes: stream, bytes, and whether `.kb` keeps it. -/
def passRecords (c : Chain) (kind : Nat) : (Nat × Nat) × (Nat × Nat) :=
  let rows := 8 * (litOctets c.lit).length
  if kind = 1 then ((litSea c.lit, rows), (litSeb c.lit, litNcol c.lit))
  else ((litSa c.lit, rows * stepBytes (litFa c.lit)), (litSb c.lit, litNcol c.lit * stepBytes (litFb c.lit)))

def streamOf (m : Team) (k : Nat) : List Byte := m.streams.getD k []

/-- A pass is ready: formed, its records whole, and no older pass on its rows still to be performed. -/
def passReady (m : Team) (cl : Cluster) (u : Nat) (c : Chain) : Bool :=
  let es := passEntries cl u c c.passes
  let rec2 := passRecords c ((es.map (·.kind)).headD 0)
  passFormed c c.passes && !es.isEmpty && decide (rec2.1.2 ≤ (streamOf m rec2.1.1).length) &&
    decide (rec2.2.2 ≤ (streamOf m rec2.2.1).length) && es.all fun r => !rowWaits cl u r.tile (8 * r.oct) r.req

/-- The effective priority of an entry (R278). -/
def Resv.epri (r : Resv) : Nat := Nat.min 3 (r.bpri + r.risen + r.promoted)

/-- The oldest entry of a pass. -/
def oldest : List Resv → Option Resv
  | [] => none
  | r :: rs => match oldest rs with
    | none => some r
    | some q => if q.req < r.req then some q else some r

/-- Candidate `a` comes before candidate `b`: priority, issue cycle, context. -/
def passBefore (a b : Resv) : Bool :=
  if a.epri ≠ b.epri then decide (b.epri < a.epri)
  else if a.issued ≠ b.issued then decide (a.issued < b.issued)
  else decide (a.ctx < b.ctx)

def choosePass : List Resv → Option Resv
  | [] => none
  | r :: rs => match choosePass rs with
    | none => some r
    | some q => if passBefore r q then some r else some q

/-- The cycles of a pass (R280). -/
def passCycles (c : Chain) (kind : Nat) : Nat :=
  if kind = 1 then 2
  else if isBqCode (litFa c.lit) then bqWidth (litFa c.lit)
  else if litFa c.lit = 3 then 8
  else if litFa c.lit = 2 then 128
  else 32

/-- PASS_START: where no pass runs, the chosen ready pass starts. -/
def execPassStart (cluster : Nat) (s : State) : Host.Outcome State Fault Refusal :=
  let cl := s.cluster cluster
  .next (match cl.pass with
  | some _ => s
  | none =>
    let cands := s.teams.flatMap fun p =>
      if clusterOf p.2.core = cluster ∧ p.2.drives then
        p.2.chains.filterMap fun c => if passReady p.2 cl p.1 c then oldest (passEntries cl p.1 c c.passes) else none
      else []
    match choosePass cands with
    | none => s
    | some r =>
      match (s.team? r.team).bind fun m => m.chains.find? fun c => c.ctx == r.ctx with
      | none => s
      | some c =>
        let kind := r.kind
        s.setCluster cluster { cl with pass := some ⟨r.team, r.ctx, c.passes, passCycles c kind⟩ })

/-- The 32 elements at an index of a record, as integers (`.s8`, BQ) and as values (floating point). -/
def elemInts (code : Nat) (rec2 : List Byte) (idx : Nat) : List Int :=
  if isBqCode code then
    let w := bqWidth code
    let n := sliceNat rec2 (idx * 4 * w) (4 * w)
    (List.range 32).map fun k => mantissa (n / 2 ^ (k * w)) w
  else (List.range 32).map fun k => mantissa (sliceNat rec2 (idx * 32 + k) 1) 8

def elemVals (code : Nat) (rec2 : List Byte) (idx : Nat) : List FVal :=
  let f := if code = 0 then bf16 else if code = 1 then fp16 else fp32
  let sz := if code = 2 then 4 else 2
  (List.range 32).map fun k => unpack f (sliceNat rec2 ((idx * 32 + k) * sz) sz)

/-- The effect of R274 on one word. -/
def passWord (c : Chain) (kind : Nat) (a b : List Byte) (rho n : Nat) (t p : Word) : Word × FFlags :=
  let fa := litFa c.lit
  let fb := litFb c.lit
  if kind = 1 then
    let r := blockStep t.toNat p.toInt (sliceNat a rho 1) (sliceNat b n 1) (bqWidth fa) (bqWidth fb)
    (BitVec.ofNat 32 r.1, r.2)
  else if isBqCode fa ∨ fa = 3 then
    let xs := elemInts fa a rho
    let ys := elemInts fb b n
    let sum := (xs.zip ys).foldl (fun acc p => acc + (if kind = 2 then (p.1 - p.2) * (p.1 - p.2) else p.1 * p.2)) 0
    (BitVec.ofInt 32 (if isBqCode fa then sum else t.toInt + sum), 0)
  else
    let r := ((elemVals fa a rho).zip (elemVals fb b n)).foldl (fun (acc : Nat × FFlags) p =>
      let r := if kind = 2 then distStep acc.1 p.1 p.2 else dotStep .rne false acc.1 p.1 p.2
      (r.1, acc.2 ||| r.2)) (t.toNat, 0)
    (BitVec.ofNat 32 r.1, r.2)

/-- Write one row of a pass. -/
def passRow (c : Chain) (kind : Nat) (a b : List Byte) (rho row tile : Nat) (ptile : Nat) (m : Team) : Team :=
  let r := (List.range (litNcol c.lit)).foldl (fun (acc : Team × FFlags) n =>
    let w := passWord c kind a b rho n (acc.1.tileWord tile row n) (acc.1.tileWord ptile row n)
    (acc.1.setTile tile row n w.1, acc.2 ||| w.2)) (m, 0)
  r.1.setRowFlags tile row (r.1.rowFlags tile row ||| r.2)

/-- Position of an octet in the mask. -/
def octPos (c : Chain) (j : Nat) : Nat := ((litOctets c.lit).filter fun k => decide (k < j)).length

/-- Write the rows of one entry's octet. -/
def passOctet (c : Chain) (kind : Nat) (a b : List Byte) (m : Team) (r : Resv) : Team :=
  let p := (c.pend.getD r.oct none).getD 0
  (List.range 8).foldl (fun m i => passRow c kind a b (8 * octPos c r.oct + i) (8 * r.oct + i) r.tile p m) m

/-- The chain after a pass: pending partial tiles, and one more pass performed. -/
def chainAfter (c : Chain) (kind : Nat) (es : List Resv) : Chain :=
  { c with
    passes := c.passes + 1
    pend := es.foldl (fun l r => l.set r.oct (if kind = 0 ∧ litBq c.lit then some r.tile else none)) c.pend }

/-- PASS_PERFORM: the running pass ends, writes its rows, consumes its records and frees its entries; row accesses that
it held back follow, and a closing chain may close. The B record is kept where every entry has `.kb`; the implied request of an
exited octet does not count (DESIGN CHOICE, log 119). -/
def execPassPerform (cluster : Nat) (s : State) : Host.Outcome State Fault Refusal :=
  let cl := s.cluster cluster
  .next (match cl.pass with
  | none => s
  | some p =>
    if p.left ≠ 0 then s
    else
      let s := s.setCluster cluster { cl with pass := none }
      match (s.team? p.team).bind fun m => (m.chains.find? fun c => c.ctx == p.ctx && c.passes == p.number).map fun c => (m, c) with
      | none => s
      | some (m, c) =>
        let es := passEntries cl p.team c p.number
        let kind := (es.map (·.kind)).headD 0
        let kb := es.all (·.kb)
        let rec2 := passRecords c kind
        let a := (streamOf m rec2.1.1).take rec2.1.2
        let b := (streamOf m rec2.2.1).take rec2.2.2
        let m := es.foldl (passOctet c kind a b) m
        let st := m.streams.set rec2.1.1 ((streamOf m rec2.1.1).drop rec2.1.2)
        let st := if kb then st else st.set rec2.2.1 ((streamOf m rec2.2.1).drop rec2.2.2)
        let m : Team :=
          { m with streams := st, chains := m.chains.map fun d => if d.ctx = c.ctx then chainAfter c kind es else d }
        let s := s.setTeam p.team m
        let cl := s.cluster cluster
        let s := s.setCluster cluster
          { cl with resv := cl.resv.filter fun r => !(r.team == p.team && r.ctx == p.ctx && r.number == p.number) }
        let s := (es.map (·.req)).foldl completeReq s
        settle (closeChains (checkKinds (drainRows s p.team) p.team) p.team))

/-- REQUEST_PROMOTION: an entry rises one level for each 1,024 cycles it has waited (R278). -/
def execRequestPromotion (cluster idx : Nat) (s : State) : Host.Outcome State Fault Refusal :=
  let cl := s.cluster cluster
  .next (match cl.resv[idx]? with
  | none => s
  | some r =>
    if r.epri < 3 ∧ r.issued + 1024 * (r.promoted + 1) ≤ s.now then
      s.setCluster cluster { cl with resv := cl.resv.set idx { r with promoted := r.promoted + 1 } }
    else s)

/-! ## Bound cells (R288 to R290) -/

/-- Every ten cycles the copies of a cluster take the values of its cells (R289). -/
def syncCopies (s : State) (cluster : Nat) : State :=
  (s.cluster cluster).cells.foldl (fun s p =>
    match p.2.owner.bind s.launch? with
    | some l => (coresOf cluster).foldl (lowerCopy l p.1 p.2.value) s
    | none => s) s

/-- A launch that declares the cell goes on; any other faults F_PERM. -/
def withCell (s : State) (m : Team) (t : Thread) (i : Nat) (k : Launch → State) : State :=
  match s.launch? m.launch with
  | none => s
  | some l => if l.bndDecl i then k l else threadFault s t .perm {}

/-- `bndmin` (R289): the cell and the copy of the thread's own core are lowered now, the other copies of the cluster within ten
cycles, as cycles pass. -/
def execBndmin (n : BitVec 3) (a : Src) (s : State) : Host.Outcome State Fault Refusal :=
  let i := Instr.bndmin n a
  issue s i [src2 a] fun m t =>
    withCell s m t n.toNat fun l =>
      finish (lowerCopy l n.toNat (rp t a) (lowerCell l (clusterOf t.core) n.toNat (rp t a) s) t.core) t i 0

def execBndrd (n : BitVec 3) (d : Reg) (s : State) : Host.Outcome State Fault Refusal :=
  let i := Instr.bndrd n d
  issue s i [dst2 d] fun m t =>
    withCell s m t n.toNat fun _ => finish s (t.writePair d.toNat ((s.core t.core).copyOf n.toNat)) i 0

/-- The clusters whose cell `i` belongs to a launch. -/
def cellClusters (s : State) (u i : Nat) : List Nat :=
  (List.range 128).filter fun k => decide ((FMap.get Cell.free (s.cluster k).cells i).owner = some u)

/-- BOUND_PROPAGATION: every cell and copy of one number takes the launch's minimum (R289). -/
def execBoundPropagation (launch cell : Nat) (s : State) : Host.Outcome State Fault Refusal :=
  .next (match s.launch? launch with
  | none => s
  | some l =>
    let ks := cellClusters s launch cell
    let vs := ks.flatMap fun k =>
      (FMap.get Cell.free (s.cluster k).cells cell).value :: (coresOf k).map fun c => (s.core c).copyOf cell
    match vs with
    | [] => s
    | v :: rest =>
      let low := rest.foldl (lowerBound l cell) v
      ks.foldl (fun s k => lowerAll l k cell low s) s)

/-! ## Cluster multicast (R291, R195) -/

/-- A join completes once every request it waits for has. -/
def completeJoins (s : State) : State :=
  { s with reqs := s.reqs.map fun p =>
      match p.2.act with
      | .nothing =>
        if p.2.after.all fun k => match Tab.find s.reqs k with | none => true | some r => r.complete then
          (p.1, { p.2 with performed := true, complete := true })
        else p
      | _ => p }

/-- Issue one write of generation `g` to a core of the cluster; its identifier. -/
def addGenWrite (s : State) (r : Req) (core g off fn : Nat) (bs : List Byte) : Nat × State :=
  addReq s { r with cls := none, act := .genWrite core g off bs fn }

def addGenWrites (r : Req) (off fn : Nat) (bs : List Byte) : List (Nat × BitVec 8) → State → List Nat × State
  | [], s => ([], s)
  | (c, g) :: rest, s =>
    let (k, s) := addGenWrite s r c g.toNat off fn bs
    let (ks, s) := addGenWrites r off fn bs rest s
    (k :: ks, s)

def storeWord (t : Thread) (b : Src) (w : Width) : List Byte := storeBytesOf t b.r.toNat w

/-- `stmc` (R291): one write for each named core of the cluster team, joined in class st. A core of the mask that holds
no member of the cluster team counts a dropped write. -/
def execStmc (w : Width) (mask : BitVec 4) (a b : Src) (s : State) : Host.Outcome State Fault Refusal :=
  let i := Instr.stmc w mask a b
  issue s i [src1 a, srcW w b] fun m t =>
    let off : Int := (rw t a).toNat
    let fn := match s.launch? m.launch with | some l => l.fn | none => 0
    afterAcquire s t <|
      match checkScratch m off (widthBytes w) with
      | some c => threadFault s t c {}
      | none => withRoom s t .st
        (let k := clusterOf t.core
         let named := (coresOf k).filter fun c => mask.getLsbD (c % 4)
         let targets := named.map fun c => (c, ((m.gens.find? fun p => p.1 == c).map (·.2)).getD 0)
         let absent := named.filter fun c => !(m.gens.any fun p => p.1 == c)
         let s := absent.foldl (fun s c => let x := s.core c; s.setCore c { x with spdrop := bump x.spdrop fn }) s
         let r := { t.req s.now none .nothing with after := sameBytes s t (.scratch t.team off.toNat) (widthBytes w) }
         let (ks, s) := addGenWrites r off.toNat fn (storeWord t b w) (targets.filter fun p => !absent.contains p.1) s
         let (_, s) := addReq s { r with cls := some .st, after := ks }
         settle (completeJoins (finish s t i 0)))

/-- GENERATION_CHECKED_WRITE: the write arrives. It is performed where the allocation of its generation still stands on
the core; otherwise it is dropped whole and counted (R195). -/
def performGenWrite (s : State) (core g off fn : Nat) (bs : List Byte) : State :=
  match s.teams.find? fun p => p.2.core == core && p.2.holds && p.2.gen.toNat == g && decide (off + bs.length ≤ p.2.scrSize) with
  | some (u, _) => writeScratch s u off bs
  | none => let x := s.core core; s.setCore core { x with spdrop := bump x.spdrop fn }

/-- The requests that must come first have been performed or are gone, and those that a release waits for have completed. -/
def ready (s : State) (r : Req) : Bool :=
  (r.after.all fun k => match Tab.find s.reqs k with | none => true | some q => q.performed || q.complete) &&
    r.behind.all fun k => match Tab.find s.reqs k with | none => true | some q => q.complete

def execGenerationCheckedWrite (req : Nat) (s : State) : Host.Outcome State Fault Refusal :=
  .next (match Tab.find s.reqs req with
  | none => s
  | some r =>
    match r.act with
    | .genWrite core g off bs fn =>
      if ready s r && !r.complete then settle (completeJoins (completeReq (performGenWrite s core g off fn bs) req)) else s
    | _ => s)

end Sys2Proof.Machine
end

