-- ==== Sys2Proof/Machine/Rows.lean ====
section
/-! DEFINITION. Rows: the drain of the overflow ring, the choice of an entry, the fetch of a row's word for one thread, and
what a word that has issued does to its row (R76, R156 to R160, R351). -/

namespace Sys2Proof.Machine

/-! ## Selection (R157 to R159) -/

/-- Drain up to `n` records of the overflow ring, in arrival order. -/
def drainRing (now : Nat) : Nat → Core → Core
  | 0, c => c
  | n + 1, c =>
    match c.ring with
    | [] => c
    | r :: rest =>
      match joinTable c.table r.slot r.addr r.tm now with
      | some l => drainRing now n { c with table := l, ring := rest }
      | none => c

/-- The group of a slot: its team and GIX. -/
def groupOfSlot (s : State) (core slot : Nat) : Option (Nat × Nat) :=
  (s.threadAt core slot).bind fun t => (s.team? t.team).map fun m => (t.team, t.tix / m.w)

/-- `Held` of R158. -/
def entryHeld (s : State) (core : Nat) (e : Entry) : Bool :=
  let mine := e.slots.map (groupOfSlot s core)
  (s.core core).rows.any fun p =>
    decide (p.2.next.toNat < e.addr.toNat) &&
      (p.2.pending ++ p.2.done).any fun k => (groupOfSlot s core k).isSome && mine.contains (groupOfSlot s core k)

/-- The entry that comes first under an order. -/
def firstBy (before : Entry → Entry → Bool) : List Entry → Option Entry
  | [] => none
  | e :: es => match firstBy before es with
    | none => some e
    | some x => if before x e then some x else some e

/-- The cycles that an entry has waited: BORN holds 32 bits of the clock and compares as elapsed age (R158). -/
def Entry.age (now : Nat) (e : Entry) : Nat := (now % 2 ^ 32 + 2 ^ 32 - e.born) % 2 ^ 32

def bornBefore (now : Nat) (a b : Entry) : Bool :=
  if a.age now ≠ b.age now then decide (b.age now < a.age now) else decide (a.addr.toNat < b.addr.toNat)

def addrBefore (a b : Entry) : Bool := decide (a.addr.toNat < b.addr.toNat)

/-- `Select` of R158. -/
def selectEntry (s : State) (core : Nat) : Option Entry :=
  let all := (s.core core).table
  let c := if all.any (·.tm) then all.filter (·.tm) else all
  match c.filter fun e => e.skip == 64 with
  | [] => firstBy addrBefore (c.filter fun e => e.tm || !entryHeld s core e)
  | a => firstBy (bornBefore s.now) a

/-- The lowest slot of an entry on each lane, in lane order. -/
def rowSlots (e : Entry) : List Nat :=
  (List.range 64).filterMap fun lane => ((List.range 16).map fun k => lane + 64 * k).find? e.slots.contains

def sameEntry (a b : Entry) : Bool := a.addr == b.addr && a.tm == b.tm

/-- The table after an entry gave up a row: SKIP of the others rises. -/
def tableAfter (ch : Entry) (row : List Nat) (l : List Entry) : List Entry :=
  (l.map fun e =>
    if sameEntry e ch then { e with skip := 0, slots := e.slots.filter fun k => !row.contains k }
    else { e with skip := Nat.min (e.skip + 1) 64 }).filter fun e => !e.slots.isEmpty

/-- ROW_SELECTION: drain the ring, then, while fewer than four rows are in flight, form a row of the chosen entry. -/
def selectRow (s : State) (core : Nat) : State :=
  let s := s.setCore core (drainRing s.now 4 (s.core core))
  match (List.range 4).find? fun k => (Tab.find (s.core core).rows k).isNone with
  | none => s
  | some k =>
    match selectEntry s core with
    | none => s
    | some e =>
      let row := rowSlots e
      let c := s.core core
      let s := s.setCore core
        { c with table := tableAfter e row c.table, rows := Tab.put c.rows k ⟨s.uid, e.addr, 0, row, [], []⟩ }
      let s := { s with uid := s.uid + 1 }
      row.foldl (fun s slot => match s.threadAt core slot with
        | some t => s.setThread { t with place := .row }
        | none => s) s

def execRowSelection (core : Nat) (s : State) : Host.Outcome State Fault Refusal := .next (selectRow s core)

/-! ## Fetch (R125, R149, R351) -/

/-- What the fetch of one word comes to. -/
inductive Fetched
  | word (w : DWord)
  | fault (c : Code)
  | stall (ipa info : Nat)
  deriving DecidableEq, Repr

/-- Put a word into an instruction cache that holds `n`: where it is full, the word of the lowest key goes (R4, R215; DESIGN
CHOICE, log 21). -/
def codeFill (n : Nat) (m : Tab DWord) (k : Nat) (w : DWord) : Tab DWord :=
  Tab.put (if n ≤ (Tab.del m k).length then m.drop 1 else m) k w

/-- Read a code word of HBM4 or host memory through the instruction cache of a core, which holds 64 KiB. -/
def fetchPhys (s : State) (core fn pa : Nat) : State × Fetched :=
  match (if pageQueued s pa then none else Tab.find (s.core core).ic (pa / 8)) with
  | some w => (s, .word w)
  | none =>
    if poisonedAt s pa 8 then (s, .fault .ecc)
    else
      let (s, bs) := readMem s fn pa 8
      let w : DWord := BitVec.ofNat 64 (leNat bs)
      let c := s.core core
      (s.setCore core { c with ic := codeFill 8192 c.ic (pa / 8) w }, .word w)

/-- The translation of a page through which the row of a slot has fetched already. -/
def rowXlat (s : State) (core slot fn va : Nat) : Option Xlat :=
  (s.core core).rows.findSome? fun p => if p.2.pending.contains slot then p.2.xlats.find? fun e => e.covers fn va else none

/-- The row of a slot keeps a translation that it has fetched through: it finishes its block under it (R358). -/
def keepXlat (s : State) (core slot : Nat) (e : Xlat) : State :=
  let c := s.core core
  s.setCore core { c with rows := c.rows.map fun p =>
      if p.2.pending.contains slot then (p.1, { p.2 with xlats := e :: p.2.xlats }) else p }

/-- Translate for a fetch: as the row has done before, or through the TLBs. -/
def fetchXlat (s : State) (core slot fn va : Nat) : State × XRes :=
  match rowXlat s core slot fn va with
  | some e => (s, .ok e)
  | none =>
    match translate s (.fetch core) fn va .x with
    | (s, .ok e) => (keepXlat s core slot e, .ok e)
    | r => r

/-- Fetch the word at an address for a thread. -/
def fetchWord (s : State) (m : Team) (core slot : Nat) (a : DWord) : State × Fetched :=
  match s.launch? m.launch with
  | none => (s, .fault .lease)
  | some l =>
    if (l.windowOf m.num a.toNat 8).isSome then (s, .fault .fetch)
    else
      match l.leaseOf a.toNat 8 with
      | none => (s, .fault .lease)
      | some e =>
        if leaseRights e ≠ 3 then (s, .fault .fetch)
        else
          match fetchXlat s core slot l.fn a.toNat with
          | (s, .stage1) => (s, .fault .fetch)
          | (s, .stage2 ipa wk) => (s, .stall ipa (2 + if wk then 4 else 0))
          | (s, .ok x) =>
            match (x.outAt a.toNat).phys with
            | some pa => fetchPhys s core l.fn pa
            | none => (s, .fault .fetch)

/-- The instruction that a thread is to issue, or what becomes of the thread instead. -/
inductive Issue
  | exec (i : Instr)
  | stop (s : State)
  /-- the row ends before an X-form word that would be its 64th -/
  | cut

/-- A word that cannot be had. -/
def fetchStop (s : State) (t : Thread) (fn : Nat) (a : DWord) : Fetched → State
  | .word _ => s
  | .fault c => threadFault s t c { addr := a.toNat }
  | .stall ipa info => stallThread s t fn ipa a info true

/-- Fetch and decode at the thread's pc; a word that does not decode faults F_ILLEGAL (R74 steps 1 to 5). The literal of an
X-form word is fetched before those checks, so a literal that cannot be had stalls or faults first (DESIGN CHOICE, log 98). -/
def fetchInstr (s : State) (m : Team) (t : Thread) (issued : Nat) : State × Issue :=
  let fn := match s.launch? m.launch with | some l => l.fn | none => 0
  match fetchWord s m t.core t.slot t.pc with
  | (s, .word w) =>
    if isXForm w then
      if 63 ≤ issued then (s, .cut)
      else
        match fetchWord s m t.core t.slot (t.pc + 8) with
        | (s, .word lit) =>
          match decodeBytes (leBytes 8 w.toNat ++ leBytes 8 lit.toNat) with
          | .ok (i, _) => (s, .exec i)
          | .error _ => (s, .stop (threadFault s t .illegal {}))
        | (s, f) => (s, .stop (fetchStop s t fn (t.pc + 8) f))
    else
      match decodeBytes (leBytes 8 w.toNat) with
      | .ok (i, _) => (s, .exec i)
      | .error _ => (s, .stop (threadFault s t .illegal {}))
  | (s, f) => (s, .stop (fetchStop s t fn t.pc f))

/-! ## The row after a word (R76, R160) -/

def State.setRow (s : State) (core stream : Nat) (r : Row) : State :=
  let c := s.core core
  s.setCore core { c with rows := Tab.put c.rows stream r }

def State.endRow (s : State) (core stream : Nat) : State :=
  let c := s.core core
  s.setCore core { c with rows := Tab.del c.rows stream }

/-- The threads of a row arrive at their next addresses. -/
def arriveSlots (s : State) (core : Nat) (slots : List Nat) : State :=
  slots.foldl (fun s k => match s.threadAt core k with
    | some t => arrive s t t.pc
    | none => s) s

/-- The row ends: every thread still in it arrives at the table. -/
def finishRow (s : State) (core stream : Nat) : State :=
  match Tab.find (s.core core).rows stream with
  | none => s
  | some r => arriveSlots (s.endRow core stream) core (r.done ++ r.pending)

/-- The threads of the row have all issued its word: go on to the next word, or end the row at 64 words. Threads that do
not stand at the row's next address arrive at the table. -/
def advanceRow (s : State) (core stream : Nat) (r : Row) : State :=
  match r.done with
  | [] => s.endRow core stream
  | k :: _ =>
    match s.threadAt core k with
    | none => s.endRow core stream
    | some t =>
      let issued := r.issued + (t.pc - r.next).toNat / 8
      if 64 ≤ issued then finishRow (s.setRow core stream { r with pending := [] }) core stream
      else
        let here (j : Nat) : Bool := match s.threadAt core j with | some x => x.pc == t.pc | none => false
        let s := s.setRow core stream { r with next := t.pc, issued := issued, pending := r.done.filter here, done := [] }
        arriveSlots s core (r.done.filter fun j => !here j)

/-- After the thread in `slot` has issued the row's word: a thread still in the row goes on with it. -/
def settleRow (s : State) (core stream slot : Nat) : State :=
  match Tab.find (s.core core).rows stream with
  | none => s
  | some r =>
    let stays : Bool := match s.threadAt core slot with | some t => t.place == .row | none => false
    let r := { r with pending := r.pending.filter (· != slot), done := if stays then r.done ++ [slot] else r.done }
    if r.pending.isEmpty then advanceRow s core stream r else s.setRow core stream r

/-- The thread that a row stream issues for next. -/
def nextThread (s : State) (core stream : Nat) : Option Thread :=
  (Tab.find (s.core core).rows stream).bind fun r => r.pending.head?.bind (s.threadAt core)

end Sys2Proof.Machine
end

