-- ==== Sys2Proof/Machine/Requests.lean ====
section
/-! DEFINITION. Requests that take effect: fills, performed stores and atomics, register fills from outside, and the ends of
`sleep` and `yield` (R35, R110, R127, R134, R211, R212, R252, R253, R301). -/

namespace Sys2Proof.Machine

/-! ## Registers in a phase record (R170, R171) -/

/-- The 8 bytes of a register in a phase record. -/
def recordEntry : RegVal → List Byte
  | .full w => leBytes 4 w.toNat ++ leBytes 4 1
  | .poisoned => leBytes 4 0 ++ leBytes 4 3
  | .empty tag => leBytes 4 tag.toNat ++ leBytes 4 0

/-- A register from its 8 bytes in a phase record. -/
def recordReg (b : List Byte) : RegVal :=
  let fl := sliceNat b 4 1
  if fl % 2 = 0 then .empty (BitVec.ofNat 32 (sliceNat b 0 4))
  else if fl / 2 % 2 = 1 then .poisoned
  else .full (BitVec.ofNat 32 (sliceNat b 0 4))

/-- Position in an ascending list. -/
def indexIn (l : List Nat) (v : Nat) : Option Nat :=
  if l.contains v then some (l.filter fun x => decide (x < v)).length else none

/-- Where a carried register of a spilled team stands in its phase record. -/
def recordSlot (l : Launch) (m : Team) (tix v : Nat) : Option Nat :=
  let carry := phCarry (l.ph (m.phase - 1))
  (indexIn carry v).map fun i => l.phRecord m.num + 192 + (tix * carry.length + i) * 8

/-- The registers of a team stand in its phase record: it is spilled, or was when it faulted, and holds no granule. -/
def inRecord (s : State) (u : Nat) (m : Team) : Bool :=
  m.stage == .spilled || (m.stage == .ending && !(s.teamThreads u).isEmpty && (s.teamThreads u).all fun t => t.gmap.isEmpty)

/-! ## Register fills from programs and the window (R39, R252, R253) -/

/-- A tag of class 0x4 that names the program of a sequence number. -/
def programTag (seq : BitVec 48) (tag : Word) : Bool :=
  tag.toNat / 2 ^ 28 == 4 && tag.toNat % 2 ^ 28 == seq.toNat % 2 ^ 28

def windowTag (tag : Word) : Bool := tag.toNat / 2 ^ 28 == 5

def TagKind.takes (k : TagKind) (tag : Word) : Bool :=
  match k with
  | .window => windowTag tag
  | .program seq => programTag seq tag
  | .programOrWindow seq => programTag seq tag || windowTag tag
  | .any => true

def countWindrop (s : State) (core fn : Nat) : State :=
  let c := s.core core
  s.setCore core { c with windrop := bump c.windrop fn }

/-- What a register's tag does not take: a value is discarded and counted, a poisoning comes to nothing. -/
def dropFill (s : State) (m : Team) (x : RegVal) : State :=
  match x with
  | .full _ => countWindrop s m.core (match s.launch? m.launch with | some l => l.fn | none => 0)
  | .poisoned | .empty _ => s

/-- Fill or poison a register that stands in a phase record (R171): its entry is read, and written where its tag takes the
value. Address and INFO for a stall of either access; a failure ends the team with F_SAVE (R417). -/
def fillRecord (s : State) (u : Nat) (m : Team) (l : Launch) (a : Nat) (x : RegVal) (k : TagKind) :
    State × Option (Nat × Nat) :=
  match areaRead s l.fn (dieOf m.core) a 8 with
  | (s, .failed, _) => (postTeamFault s u m .save { addr := a }, none)
  | (s, .stalled ipa info, _) => (s, some (ipa, info))
  | (s, .done, bs) =>
    match recordReg bs with
    | .empty tag =>
      if k.takes tag then
        match areaWrite s l.fn (dieOf m.core) a (recordEntry x) with
        | (s, .done) => (s, none)
        | (s, .failed) => (postTeamFault s u m .save { addr := a }, none)
        | (s, .stalled ipa info) => (s, some (ipa, info))
      else (dropFill s m x, none)
    | .full _ | .poisoned => (dropFill s m x, none)

/-- Fill or poison register `v` of a thread wherever it stands; in a phase record the address and INFO of a stall. -/
def tryFill (s : State) (u tix v : Nat) (x : RegVal) (k : TagKind) :
    State × Option (Nat × Nat) :=
  match s.team? u, s.thread? u tix with
  | some m, some t =>
    if inRecord s u m then
      match (s.launch? m.launch).bind fun l => (recordSlot l m tix v).map fun a => (l, a) with
      | some (l, a) => fillRecord s u m l a x k
      | none => (dropFill s m x, none)
    else
      match t.reg v with
      | .empty tag => if k.takes tag then (wake (s.setThread (t.setReg v x)), none) else (dropFill s m x, none)
      | .full _ | .poisoned => (dropFill s m x, none)
  | _, _ => (s, none)

/-- The waits of fills of one register, oldest first. -/
def fillWaits (s : State) (u tix v : Nat) : List (Nat × RegVal × TagKind) :=
  s.pkg.waits.filterMap fun p => match p.2.who with
    | .fill a b c x k => if a = u ∧ b = tix ∧ c = v then some (p.1, x, k) else none
    | _ => none

/-- A fill of a team's registers that a kind names waits for an answer. -/
def fillStands (s : State) (u : Nat) (k : TagKind) : Bool :=
  s.pkg.waits.any fun p => match p.2.who with | .fill a _ _ _ c => a == u && c == k | _ => false

/-- A fill of a team's registers waits for an answer, or its program for the end of one. -/
def fillsPending (s : State) (u : Nat) : Bool :=
  (s.pkg.waits.any fun p => match p.2.who with | .fill a _ _ _ _ => a == u | _ => false) ||
    s.programs.any fun p => p.2.team == u && p.2.filling && p.2.ending.isNone

/-- Make the waiting fills of a register that can now be made, oldest first. -/
def retryFills (s : State) (u tix v : Nat) : State :=
  (fillWaits s u tix v).foldl (fun s w =>
    match tryFill s u tix v w.2.1 w.2.2 with
    | (s, none) => dropWait s w.1
    | (s, some _) => s) s

/-- Fill or poison a register after the fills of it that wait; a stall raises an event of TYPE 0x0A (R171, R417). -/
def putFill (s : State) (u tix v : Nat) (x : RegVal) (k : TagKind) : State :=
  match tryFill (retryFills s u tix v) u tix v x k with
  | (s, none) => s
  | (s, some (ipa, info)) =>
    match s.team? u with
    | some m => match s.launch? m.launch with
      | some l =>
        let va : DWord := BitVec.ofNat 64 ((recordSlot l m tix v).getD 0)
        (raiseEvent s 0x0A l.fn (BitVec.ofNat 64 ipa) info (.fill u tix v x k) va).2
      | none => s
    | none => s

/-- Offer a value to register `v` of the thread of team `u` in a slot. It is taken where the register is empty under a tag
that `k` accepts; otherwise it is discarded and counted. -/
def offerFill (s : State) (u slot v : Nat) (x : Word) (k : TagKind) : State :=
  match s.team? u with
  | none => s
  | some m =>
    match (liveOf s u).find? fun t => t.slot == slot with
    | some t => if m.nreg ≤ v then dropFill s m (.full x) else putFill s u t.tix v (.full x) k
    | none => dropFill s m (.full x)

/-- The registers of a thread that may be empty: those of its phase record, or of the Lake. -/
def emptyRegs (s : State) (u : Nat) (m : Team) (t : Thread) : List Nat :=
  match inRecord s u m, s.launch? m.launch with
  | true, some l => phCarry (l.ph (m.phase - 1))
  | _, _ => (t.regs.filter fun p => isEmptyReg p.2).map (·.1)

/-- Poison every register of a team that is empty under a tag that `k` takes (R39). -/
def poisonRegs (s : State) (u : Nat) (k : TagKind) : State :=
  match s.team? u with
  | none => s
  | some m =>
    (s.teamThreads u).foldl (fun s t => (emptyRegs s u m t).foldl (fun s v => putFill s u t.tix v .poisoned k) s) s

/-! ## Fills (R35, R110, R127) -/

/-- An enabled flag that a producer of R109 sets traps a thread that waits for its producers, once all have filled (R110);
the trap's record names the word at `pc`. -/
def noteFlags (t : Thread) (pc : DWord) (fl : FFlags) : Thread :=
  if t.place == .parked (.fpu none) && enabled t fl && !t.mode then { t with place := .parked (.fpu (some pc)) } else t

/-- A producer of a thread fills its destinations: the words are written, the flags set, the acquire performed. -/
def fillWords (s : State) (k : Nat) (r : Req) (d : Nat) (ws : List Word) (fl : FFlags) : State :=
  match r.owner with
  | .thread u x =>
    match s.thread? u x with
    | some t =>
      if r.dead then settle (completeReq s k)
      else
        let t := t.writeList d ws
        let t := noteFlags { t with fflags := t.fflags ||| BitVec.ofNat 32 fl.toNat } r.pc fl
        let s := completeReq (s.setThread t) k
        let s := match r.acq with | some sc => acquireCore s t.core sc | none => s
        settle s
    | none => settle (completeReq s k)
  | .none | .program _ | .left _ => completeReq s k

/-- A thread still raises faults: its team's end has not stopped it, nor found it exited (R150). -/
def raises (s : State) (t : Thread) : Bool :=
  match t.place with
  | .stopped => false
  | .exited => ((s.team? t.team).map fun m => m.stage != .ending).getD false
  | .table | .row | .parked _ | .stalled _ | .held _ => true

/-- A request completes with a fault of its thread: one that has exited, too, ends its team by what it had issued (R121, R150). -/
def failReq (s : State) (k : Nat) (r : Req) (c : Code) : State :=
  match s.ownerOf r with
  | some t =>
    let s := completeReq s k
    settle (if raises s t then threadFault s { t with pc := r.pc } c { addr := r.va.toNat } else s)
  | none => completeReq s k

/-- Fault F_ECC on what a request of a thread read (R299); what an exited thread loads is discarded (R121). -/
def eccFault (s : State) (k : Nat) (r : Req) : State :=
  if r.dead && !r.act.writes then settle (completeReq s k) else failReq s k r .ecc

/-- The bytes of a team's scratchpad, while it has one. -/
def scratchBytes (s : State) (u off n : Nat) : List Byte :=
  match s.team? u with
  | some m => m.scr off n
  | none => List.replicate n 0

/-- What a read of `n` bytes at a location returns now; nothing for peer memory, whose answer brings the data, and an
uncorrectable error as such. -/
inductive Sampled
  | bytes (s : State) (bs : List Byte)
  | ecc
  | later

def sample (s : State) (fn : Nat) (loc : Loc) (n : Nat) : Sampled :=
  match loc with
  | .mem pa => if poisonedAt s pa n then .ecc else (let r := readMem s fn pa n; .bytes r.1 r.2)
  | .scratch u off => .bytes s (scratchBytes s u off n)
  | .notify f q off => .bytes s (leBytes n (notifyRead s f q off).toNat)
  | .eth p off => .bytes s (leBytes n (ethRead s fn p off).toNat)
  | .peer _ _ | .window _ _ _ => .later

/-- Bytes read at the coherence point for a thread of a core: sectors of its L1 that hold others are dropped (R303), and, where
the load allocates, its sectors come into the L1 (R300). -/
def fillL1 (s : State) (r : Req) (pa : Nat) (bs : List Byte) (alloc : Bool) : State :=
  match s.ownerOf r with
  | some t =>
    let c := l1Agree (s.core t.core) pa bs
    let c := if alloc && !r.noFill then
        (sectorsOf pa bs.length).foldl (fun c k => if mayFill s t.core k then l1Fill c k (readBytes s (k * 32) 32) else c) c
      else c
    s.setCore t.core c
  | none => s

/-- A constant cache of 32 KiB takes a sector: the 129th line takes the place of the first (R4; DESIGN CHOICE, log 21). -/
def ccFill (c : Core) (k : Nat) (b : List Byte) : Core :=
  let others := ((c.cc.map fun p => p.1 / 8).filter fun l => l != k / 8).eraseDups
  let cc := if 128 ≤ others.length then c.cc.filter fun p => p.1 / 8 != others.headD 0 else c.cc
  { c with cc := Tab.put cc k b }

/-- A sector comes into the constant cache of the thread's core (R130). -/
def fillConst (s : State) (r : Req) (pa : Nat) : State :=
  match s.ownerOf r with
  | some t => if r.noFill then s else s.setCore t.core (ccFill (s.core t.core) (pa / 32) (readBytes s (pa / 32 * 32) 32))
  | none => s

/-- The bytes that a load returns: what it read, under what the phase store buffer held for its team at issue and holds now
(R132, R173). -/
def loaded (s : State) (r : Req) (loc : Loc) (bs : List Byte) : List Byte :=
  let now := match s.ownerOf r with
    | some t => bufferedFor s t.core t.team loc bs.length
    | none => []
  overlay (overlay bs r.psb) now

/-- A location `n` bytes on. -/
def Loc.plus (l : Loc) (n : Nat) : Loc :=
  match l with
  | .mem pa => .mem (pa + n)
  | .scratch u off => .scratch u (off + n)
  | .peer v off => .peer v (off + n)
  | .notify f q off => .notify f q (off + n)
  | .eth p off => .eth p (off + n)
  | .window u k v => .window u k v

/-- An access of 16 bytes of memory or of a scratchpad is made in two halves of 8 bytes (R128). -/
def inHalves (loc : Loc) (n : Nat) : Bool :=
  n == 16 && match loc with
    | .mem _ | .scratch _ _ => true
    | .peer _ _ | .notify _ _ _ | .eth _ _ | .window _ _ _ => false

/-- Which half comes first: a free value. -/
def freeHalf (s : State) : Nat × State := ((Config.freeWord s.freeCtr).toNat % 2 * 8, { s with freeCtr := s.freeCtr + 1 })

/-- The first half of a `.128` load is read; the second fill event reads the other. -/
def readHalf (s : State) (k : Nat) (r : Req) (loc : Loc) : State :=
  let (h, s) := freeHalf s
  match sample s r.fn (loc.plus h) 8 with
  | .later => s
  | .ecc => eccFault s k r
  | .bytes s bs =>
    let s := match loc with | .mem pa => fillL1 s r (pa + h) bs false | _ => s
    s.updReq k fun r => { r with half := some (h, bs) }

/-- The bytes at a location are read, with the half of a `.128` load that has been read before, and the load fills. -/
def readWhole (s : State) (k : Nat) (r : Req) (loc : Loc) (n d : Nat) (sx alloc : Bool) : State :=
  match sample s r.fn loc n with
  | .later => s
  | .ecc => eccFault s k r
  | .bytes s bs =>
    let s := match loc with | .mem pa => fillL1 s r pa bs alloc | _ => s
    let bs := match r.half with
      | some (h, b) => if h = 0 then b ++ bs.drop 8 else bs.take 8 ++ b
      | none => bs
    fillWords s k r d (loadWords (loaded s r loc bs) sx) 0

/-- A load fills its destinations. -/
def fillLoad (s : State) (k : Nat) (r : Req) (loc : Loc) (n d : Nat) (sx alloc : Bool) : State :=
  match r.data with
  | some bs => fillWords s k r d (loadWords (overlay bs r.psb) sx) 0
  | none => if inHalves loc n && r.half.isNone then readHalf s k r loc else readWhole s k r loc n d sx alloc

/-- The 16 bytes read for an `ldc` are those of every thread of its row that shares its access (R130). -/
def shareRead (s : State) (lead : Nat) (unit : List Byte) : State :=
  { s with reqs := s.reqs.map fun p =>
      if (p.1 = lead ∨ p.2.mate = some lead) ∧ p.2.data.isNone ∧ !p.2.complete then
        (p.1, { p.2 with data := some unit, performed := true })
      else p }

/-- Whatever the threads of a row that share an `ldc` wait for before it has come about (R128, R130). -/
def sharersReady (s : State) (lead : Nat) : Bool :=
  s.reqs.all fun p => !(p.1 == lead || p.2.mate == some lead) || p.2.complete || p.2.data.isSome || ready s p.2

/-- A load through the constant cache fills its destinations from its 16 bytes, once its row has issued it. On a miss both halves
are read in this one step, at every width (DESIGN CHOICE, log 22). -/
def fillLdc (s : State) (k : Nat) (r : Req) (pa n d : Nat) (sx : Bool) : State :=
  let fill (s : State) (unit : List Byte) : State :=
    fillWords s k r d (loadWords (loaded s r (.mem pa) ((unit.drop (pa % 16)).take n)) sx) 0
  if rowIssuing s r then s
  else
    match r.data with
    | some unit => fill s unit
    | none =>
      let lead := r.mate.getD k
      if !sharersReady s lead then s
      else
        match sample s r.fn (.mem (pa / 16 * 16)) 16 with
        | .later => s
        | .ecc => eccFault s k r
        | .bytes s unit => fill (shareRead (fillConst (fillL1 s r (pa / 16 * 16) unit false) r pa) lead unit) unit

/-- Words of captured bytes. -/
def wordsOf (bs : List Byte) : List Word := (List.range (bs.length / 4)).map fun j => BitVec.ofNat 32 (sliceNat bs (4 * j) 4)

/-! ## Requests that translate again (R357) -/

/-- The act at another location. -/
def Act.at (a : Act) (l : Loc) : Act :=
  match a with
  | .store _ bs => .store l bs
  | .buffer _ bs => .buffer l bs
  | .atomic _ op ty x d => .atomic l op ty x d
  | .cas _ ty cmp swap d => .cas l ty cmp swap d
  | _ => a

/-- What a request asks for when it is checked. -/
def Act.access : Act → Acc
  | .atomic _ _ _ _ _ | .cas _ _ _ _ _ => .atomic
  | .store _ _ | .buffer _ _ => .store
  | _ => .load

/-- A stall of a request that translates again: one event of TYPE 0x01 waits for an answer. -/
def stallReq (s : State) (k : Nat) (r : Req) (ipa info : Nat) : State :=
  if s.pkg.waits.any fun p => p.2.who == .req k then s
  else (raiseEvent s 1 r.fn (BitVec.ofNat 64 ipa) info (.req k) r.va).2

/-- A store or an atomic whose translation was invalidated before it was sent translates again (DEDUCED, log 94): it goes on
at its location, faults its thread, or stalls. -/
def refresh (s : State) (k : Nat) (r : Req) : State × Option Req :=
  match (if r.stale && r.unsent then s.ownerOf r else none), r.act.span with
  | some t, some (_, n) =>
    match s.team? t.team with
    | some m =>
      match checkGlobal s t.team m t.core r.va n r.act.access with
      | (s, .ok loc _ ipa) =>
        let q := { r with act := r.act.at loc, stale := false, ipa := ipa }
        (s.updReq k fun _ => q, some q)
      | (s, .fault c) => (failReq s k r c, none)
      | (s, .stall ipa info) => (stallReq s k r ipa info, none)
    | none => (s, some r)
  | _, _ => (s, some r)

/-- PRODUCER_FILL of one request. -/
def fillReq (s : State) (k : Nat) (r : Req) : State :=
  if r.complete || !ready s r then s
  else
    match r.act with
    | .value d ws fl _ => fillWords s k r d ws fl
    | .load loc n sx d l1 => fillLoad s k r loc n d sx l1
    | .loadConst pa n sx d => fillLdc s k r pa n d sx
    | .atomic _ _ _ _ d | .cas _ _ _ _ d | .mxLoad _ _ _ _ d =>
      match r.data with
      | some bs => fillWords s k r d (wordsOf bs) 0
      | none => s
    | .cbTest u off d =>
      let b := scratchBytes s u off 16
      fillWords s k r d [BitVec.ofNat 32 (sliceNat b 12 4 % 2 ^ 31 * 2 + sliceNat b 8 1 % 2)] 0
    | .store _ _ | .buffer _ _ | .genWrite _ _ _ _ _ | .arrive _ _ _ | .mxStore _ _ _ _ | .mxZero _ _ | .mxTopk _ _ _ _ _ _ _
    | .mxPass | .mxEnd _ _ | .mdRun _ | .reduce _ _ _ _ | .nothing => s

def execProducerFill (req : Nat) (s : State) : Host.Outcome State Fault Refusal :=
  .next (match Tab.find s.reqs req with
  | some r => fillReq s req r
  | none => s)

/-! ## Atomics (R134, R135) -/

/-- The new value of a request that updates memory. -/
def updated (act : Act) (old : Nat) : Nat :=
  match act with
  | .atomic _ op ty x _ => atomicNew op ty old x.toNat
  | .cas _ ty cmp swap _ => casNew old (cmp.toNat % 2 ^ tyBits ty) (swap.toNat % 2 ^ tyBits ty)
  | _ => old

/-- Read, modify and write at the coherence point; the old bytes are kept for the fill. -/
def performUpdate (s : State) (k : Nat) (r : Req) (loc : Loc) (n : Nat) : State :=
  let keep (s : State) (bs : List Byte) : State := s.updReq k fun r => { r with performed := true, data := some bs }
  match loc with
  | .mem pa =>
    if poisonedAt s pa n then eccFault s k r
    else
      let s := match (s.ownerOf r).map (·.core) with
        | some c => if r.unsent && isHbm pa then sendAtomic s c pa n else s
        | none => s
      let (s, bs) := readMem s r.fn pa n
      keep (performWrite s r.fn pa (leBytes n (updated r.act (leNat bs)))) bs
  | .scratch u off =>
    let bs := scratchBytes s u off n
    keep (writeScratch s u off (leBytes n (updated r.act (leNat bs)))) bs
  | .peer _ _ | .notify _ _ _ | .eth _ _ | .window _ _ _ => s

def performAtomic (s : State) (k : Nat) (r : Req) : State :=
  if r.performed || r.complete || !ready s r then s
  else
    match refresh s k r with
    | (s, none) => s
    | (s, some r) =>
      match r.act with
      | .atomic loc _ ty _ _ | .cas loc ty _ _ _ => performUpdate s k r loc (tyBits ty / 8)
      | _ => s

def execAtomicPerform (req : Nat) (s : State) : Host.Outcome State Fault Refusal :=
  .next (match Tab.find s.reqs req with
  | some r => performAtomic s req r
  | none => s)

/-! ## Stores -/

/-- The write of a store at its location; a notify page sees the PRIV that its thread had at issue (R368). -/
def writeLoc (s : State) (r : Req) (loc : Loc) (bs : List Byte) : State :=
  match loc with
  | .mem pa =>
    let s := match s.ownerOf r with
      | some t => if r.unsent && isHbm pa then sendStore s t.core r.owner pa bs else s
      | none => s
    performWrite s r.fn pa bs
  | .scratch u off => if ((s.team? u).map Team.holds).getD false then writeScratch s u off bs else s
  | .notify f q off => notifyWrite s f q off (BitVec.ofNat 64 (leNat bs)) r.priv
  | .eth p off => ethWrite s r.fn p off (BitVec.ofNat 64 (leNat bs))
  | .window u slot v => offerFill s u slot v (BitVec.ofNat 32 (leNat bs)) .window
  | .peer _ _ => s

/-- A half of a thread's `.128` store is performed; the other is left for the next event (R128). -/
def storeHalf (s : State) (k : Nat) (r : Req) (loc : Loc) (bs : List Byte) : State :=
  let (h, s) := freeHalf s
  let rest := if h = 0 then Act.store (loc.plus 8) (bs.drop 8) else .store loc (bs.take 8)
  (writeLoc s r (loc.plus h) ((bs.drop h).take 8)).updReq k fun r => { r with act := rest }

/-- A store of an idempotent phase that is to enter the buffer is performed instead, once the entries of the demoted phase are
(R174); it waits while some are left. -/
def performDemoted (s : State) (k : Nat) (r : Req) (core u : Nat) (loc : Loc) (bs : List Byte) : State :=
  if drainLeft s core u then s else settle (completeReq (writeLoc s r loc bs) k)

/-- A store of an idempotent phase enters the buffer, or is performed where the phase has been demoted (R132, R174); where a store
finds no entry, it demotes the phase, unless its entries are to be freed. -/
def enterBuffer (s : State) (k : Nat) (r : Req) (loc : Loc) (bs : List Byte) : State :=
  match s.ownerOf r, bufferAddr loc with
  | some t, some pa =>
    match s.team? t.team with
    | some m =>
      if !m.buffers then performDemoted s k r t.core t.team loc bs
      else
        match psbStore (s.core t.core) { t.buffered pa r.va r.ipa bs with priv := r.priv } with
        | some c => settle (completeReq (s.setCore t.core c) k)
        | none =>
          if m.frees then settle (completeReq s k) else performDemoted (demote s t.team m) k r t.core t.team loc bs
    | none => settle (completeReq s k)
  | _, _ => settle (completeReq s k)

/-- STORE_PERFORM of one request: a store or an arrival. -/
def performStore (s : State) (k : Nat) (r : Req) : State :=
  if r.complete || !ready s r then s
  else
    match refresh s k r with
    | (s, none) => s
    | (s, some r) =>
      match r.act with
      | .store (.peer _ _) _ => s
      | .store loc bs =>
        if inHalves loc bs.length && (s.ownerOf r).isSome then storeHalf s k r loc bs
        else settle (completeReq (writeLoc s r loc bs) k)
      | .buffer loc bs => enterBuffer s k r loc bs
      | .arrive u off n => settle (completeReq (arriveAt s u off n) k)
      | _ => s

def execStorePerform (req : Nat) (s : State) : Host.Outcome State Fault Refusal :=
  .next (match Tab.find s.reqs req with
  | some r => performStore s req r
  | none => s)

/-! ## Time-outs (R211, R212) -/

/-- A thread of a team whose waits end. -/
def wakingThread (s : State) (team tix : Nat) : Option Thread :=
  if ((s.team? team).map Team.wakes).getD false then s.thread? team tix else none

def execSleepTimeout (team tix : Nat) (s : State) : Host.Outcome State Fault Refusal :=
  .next (match wakingThread s team tix with
  | some t =>
    match t.place with
    | .held (.sleep _ d (some due)) => if due ≤ s.now then releaseAcq s (t.write d.toNat 2) .dev 8 else s
    | _ => s
  | none => s)

def execYieldExpiry (team tix : Nat) (s : State) : Host.Outcome State Fault Refusal :=
  .next (match wakingThread s team tix with
  | some t =>
    match t.place with
    | .held (.yield due) => if due ≤ s.now then releaseHeld s t 8 else s
    | _ => s
  | none => s)

end Sys2Proof.Machine
end

