-- ==== Sys2Proof/Machine/Launches.lean ====
section
/-! DEFINITION. Launch queues, launch records, the dependence gate, the checks of R321, refusals and `spawn` (R208, R316 to
R323). -/

namespace Sys2Proof.Machine

/-! ## Queues (R319, R320) -/

/-- The intermediate address of the slot of an index. -/
def LQ.slotAddr (l : LQ) (i : Word) : Nat := l.base.toNat + 512 * (i.toNat % 2 ^ l.log)

/-- LAUNCH_QUEUE_NOTIFY: a write of TAIL from the host, which is trusted (R368). -/
def execLaunchQueueNotify (fn q : Nat) (x : DWord) (s : State) : Host.Outcome State Fault Refusal :=
  .next (inFull s (writeTail s fn q (lowWord x) true))

def execLaunchQueueConfig (fn q : Nat) (x : DWord) (s : State) : Host.Outcome State Fault Refusal :=
  .next (inFull s (writeQueueCfg s fn q x))

/-- Skip a slot that could not be read (R320). -/
def skipSlot (s : State) (fn q : Nat) : State :=
  let l := s.lq fn q
  s.setLq fn q { l with head := l.head + 1, rdf := true, stalled := none }

/-- A launch just read from a queue. -/
def newLaunch (s : State) (fn q : Nat) (seq : BitVec 48) (bs : List Byte) : Launch :=
  { fn := fn, queue := q, seq := seq, record := bs, header := 0, places := [], stage := .gated, priv := decide (fn = 0 ∧ q = 31),
    since := s.now, pri := 0, nextTeam := 0, ndone := 0, nflt := 0, nrec := 0, dqleft := 0, refused := 0, quiescent := false,
    sent := [], recv := [], samples := [], last := none, kept := [], recheck := false, token := none }

/-! ## Refusal and end (R321, R322) -/

def setRdf (s : State) (fn q : Nat) : State :=
  let l := s.lq fn q
  s.setLq fn q { l with rdf := true }

/-- The launch ends refused, no team of it having been admitted. -/
def refuseLaunch (s : State) (u : Nat) (status : Nat) : State :=
  match s.launch? u with
  | none => s
  | some l =>
    let s := s.updLaunch u fun l => { l with stage := .ended, token := none }
    if l.lcaddr % 32 = 0 ∧ canonical (BitVec.ofNat 64 l.lcaddr) then postLaunchRecord s u l (launchRecord s l status 0)
    else signalAfter (setRdf s l.fn l.queue) u l

/-! ## The checks (R321) -/

def allZero (bs : List Byte) : Bool := bs.all (· == 0)

/-- Check 1: reserved fields, and entries beyond their counts. -/
def reservedOk (l : Launch) : Bool :=
  sliceNat l.record 0x01A 2 == 0 && l.ctl / 2 ^ 26 == 0 &&
  (List.range 8).all (fun k => if k < l.nlvl then l.lvl k / 64 % 4 == 0 else l.lvl k == 0) &&
  (List.range 16).all (fun i => if i < l.nph then l.ph i / 2 ^ 11 % 2 == 0 && l.ph i / 2 ^ 52 == 0 else l.ph i == 0) &&
  (List.range 3).all (fun i =>
    if i < l.ndep then sliceNat l.record (0x06C + 16 * i) 4 == 0 else allZero ((l.record.drop (0x060 + 16 * i)).take 16)) &&
  (List.range 16).all fun i => leaseRights (l.lease i) != 0 || l.lease i == 0

/-- R1: the versions that the G4 runs. -/
def versionOk (major minor : Nat) : Bool := (major == 4 && decide (minor ≤ 1)) || (major == 3 && decide (minor ≤ 5))

/-- Check 2: R21. -/
def headerOk (h : DWord) : Bool :=
  let nw := hdrNw h
  hdrMagic h == 0x474C && versionOk (hdrMajor h) (hdrMinor h) && nw == (hdrMajor h == 3) && decide (hdrGw h < 4) &&
  (!nw || hdrGw h == 1) && decide (1 ≤ hdrNreg h) && decide (hdrNreg h ≤ 768) && (!nw || decide (hdrNreg h ≤ 256)) &&
  (!nw || hdrNph h == 0) && hdrLow h == 0

/-- Group width of a header. -/
def hdrW (h : DWord) : Nat := 8 * 2 ^ hdrGw h

/-- The ranges of a phase entry do not overlap and hold registers below `lim` (R169, R314). -/
def carryOk (p lim : Nat) : Bool :=
  let c := phCarry p
  noRepeat c && c.all (fun v => decide (v < lim)) && (phC1cnt p != 0 || phC1base p == 0) && (phC2cnt p != 0 || phC2base p == 0)

/-- Check 3. -/
def phasesOk (l : Launch) (h : DWord) : Bool :=
  l.nph == hdrNph h + 1 && phNreg (l.ph 0) == hdrNreg h && (!hdrNw h || l.nph == 1) &&
  (List.range l.nph).all fun i =>
    let n := phNreg (l.ph i)
    decide (1 ≤ n) && decide (n ≤ 768) &&
      carryOk (l.ph i) (if i + 1 < l.nph then Nat.min n (phNreg (l.ph (i + 1))) else 0)

/-- Fields of a level entry (R313). -/
def lvDomain (x : Nat) : Nat := x % 8
def lvScope (x : Nat) : Nat := x / 8 % 8
def lvExt (x : Nat) : Nat := x / 256

/-- The level entries in use. -/
def Launch.levels (l : Launch) : List Nat := (List.range l.nlvl).map l.lvl

/-- P of a domain; `d` where no level has it. -/
def extentOf (ls : List Nat) (dom d : Nat) : Nat :=
  let mine := ls.filter fun x => lvDomain x == dom
  if mine.isEmpty then d else mine.foldl (fun p x => p * lvExt x) 1

/-- C, the teams of a cluster team. -/
def Launch.perCluster (l : Launch) : Nat := extentOf l.levels 2 1

def nondecreasing : List Nat → Bool
  | a :: b :: rest => decide (a ≤ b) && nondecreasing (b :: rest)
  | _ => true

/-- Check 4 but for the placement table. Without a level of domain group the quotient TSIZE ÷ W is its default, and the rule on
it holds. -/
def levelsOk (l : Launch) (w : Nat) : Bool :=
  let ls := l.levels
  let c := l.perCluster
  let pc := extentOf ls 3 1
  let pd := extentOf ls 4 (l.nteam / (c * pc))
  decide (l.nlvl ≤ 8) &&
  ls.all (fun x => decide (lvDomain x ≤ 4) && decide (lvScope x ≤ 6) && decide (lvDomain x ≤ lvScope x) &&
    decide (1 ≤ lvExt x)) &&
  nondecreasing (ls.map lvDomain) && extentOf ls 0 w == w &&
  (ls.all (fun x => lvDomain x != 1) || w * extentOf ls 1 0 == l.tsize) &&
  (c == 1 || c == 2 || c == 4) && c * pc * pd == l.nteam

/-- A placement LEVEL names a level of domain team, cluster or device (R317). -/
def placeLevelOk (l : Launch) (p : List Byte) : Bool :=
  let k := sliceNat p 0 1
  decide (k < l.nlvl) && decide (2 ≤ lvDomain (l.lvl k))

/-- Check 5. The bound cells are 0 to 7 by the width of BNDDECL. -/
def resourcesOk (l : Launch) (w : Nat) : Bool :=
  decide (1 ≤ l.nteam) && decide (w ≤ l.tsize) && decide (l.tsize ≤ 1024) && l.tsize % w == 0 && decide (l.scr ≤ 1024) &&
  decide (l.acc ≤ 32) && decide (l.str ≤ 16) && decide (l.frlog ≤ 16) && decide (l.crlog ≤ 16) && decide (l.nplace ≤ 8) &&
  (!l.isOpen || l.dq) && (!l.dq || (decide (1024 ≤ l.dqsize) && l.dqsize % 1024 == 0))

/-- The lease entries in use. -/
def Launch.leases (l : Launch) : List Nat := ((List.range 16).map l.lease).filter fun e => leaseRights e != 0

/-- A lease range is not empty and does not cross bit 55. -/
def leaseRangeOk (e : Nat) : Bool :=
  let b := leaseBase e
  decide (0 < leaseSize e) && b / 2 ^ 55 == (b + leaseSize e - 1) / 2 ^ 55

def leasesApart : List Nat → Bool
  | [] => true
  | e :: es =>
    es.all (fun f => decide (leaseBase e + leaseSize e ≤ leaseBase f) || decide (leaseBase f + leaseSize f ≤ leaseBase e)) &&
      leasesApart es

/-- An area is aligned and lies in one lease of the rights code. -/
def areaOk (l : Launch) (va n align rights : Nat) : Bool :=
  va % align == 0 && match l.leaseOf va n with
    | some e => leaseRights e == rights
    | none => false

/-- The phase record area is in use: a boundary may write a record, or the first phase has one (R170, R179). -/
def Launch.usesRecords (l : Launch) : Bool := decide (1 < l.nph) || phIdem (l.ph 0)

/-- Check 6. The fault and completion rings are always in use; the other areas where the launch may come to use them (DEDUCED,
log 99, with the alignment of PLACEADDR and ARGADDR). -/
def leasesOk (l : Launch) : Bool :=
  l.leases.all leaseRangeOk && leasesApart l.leases && areaOk l l.hdraddr 8 8 3 && areaOk l l.lcaddr 32 32 2 &&
  areaOk l l.frbase (64 * 2 ^ l.frlog) 64 2 && areaOk l l.crbase (l.nteam * 32 * 2 ^ l.crlog) 32 2 &&
  (!l.usesRecords || areaOk l l.phbase (l.nteam * l.phSize) 256 2) &&
  (!l.dq || areaOk l l.dqbase (l.nteam * l.dqsize) 1024 2) && (l.sigaddr == 0 || areaOk l l.sigaddr 4 4 2) &&
  l.winbase % 2 ^ 22 == 0 && (l.nplace == 0 || l.placeaddr % 32 == 0) && l.argaddr % 8 == 0

/-- Checks 2 to 4 but for the placement table. -/
def earlyStatus (l : Launch) (h : DWord) : Option Nat :=
  if !headerOk h then some 0x10
  else if !phasesOk l h then some 0x11
  else if !levelsOk l (hdrW h) then some 0x12
  else none

/-- The placement table's part of check 4 (its reserved bytes give the status of check 1), and checks 5 and 6. -/
def lateStatus (l : Launch) (h : DWord) (places : Option (List (List Byte))) : Option Nat :=
  match places with
  | none => some 0x12
  | some ps =>
    if !(ps.all fun p => allZero ((p.drop 1).take 7)) then some 0x13
    else if !ps.all (placeLevelOk l) then some 0x12
    else if !resourcesOk l (hdrW h) then some 0x13
    else if !leasesOk l then some 0x14
    else none

/-- The checks end: the launch is refused, or waits for placement, with the placement table as read now (R317). -/
def finishCheck (s : State) (u : Nat) (l : Launch) (h : DWord) (places : Option (List (List Byte))) : State :=
  match lateStatus l h places with
  | some st => refuseLaunch s u st
  | none => s.updLaunch u fun l =>
    { l with stage := .checked, header := h, places := places.getD [], since := s.now, pri := l.ctlPri, token := none }

/-- A stall of the check or the gate: an event of TYPE 0x06. -/
def stallLaunch (s : State) (u : Nat) (l : Launch) (ipa info va : Nat) : State :=
  let (k, s) := raiseEvent s 0x06 l.fn (BitVec.ofNat 64 ipa) info (.gate u) (BitVec.ofNat 64 va)
  s.updLaunch u fun l => { l with token := some k }

/-- The placement entries of a launch. -/
def placeBytes (n : Nat) (bs : List Byte) : List (List Byte) := (List.range n).map fun j => (bs.drop (32 * j)).take 32

/-- The placement table is read and the checks go on from it. -/
def checkPlaces (s : State) (u : Nat) (l : Launch) (h : DWord) : State :=
  let np := Nat.min l.nplace 8
  if np = 0 then finishCheck s u l h (some [])
  else
    match areaRead s l.fn (l.queue % 4) l.placeaddr (32 * np) with
    | (s, .stalled ipa info, _) => stallLaunch s u l ipa info l.placeaddr
    | (s, .failed, _) => finishCheck s u l h none
    | (s, .done, bs) => finishCheck s u l h (some (placeBytes np bs))

/-- LAUNCH_CHECK: the checks in order; the header and the placement table are read when their turn comes. An HDRADDR with one of
bits 2:0 set gets the status of the header's check, as a header that cannot be read does (DESIGN CHOICE, log 99). -/
def checkLaunch (s : State) (u : Nat) (l : Launch) : State :=
  if !reservedOk l then refuseLaunch s u 0x13
  else
    match (if l.hdraddr % 8 = 0 then areaRead s l.fn (l.queue % 4) l.hdraddr 8 else (s, .failed, [])) with
    | (s, .stalled ipa info, _) => stallLaunch s u l ipa info l.hdraddr
    | (s, .failed, _) => refuseLaunch s u 0x10
    | (s, .done, hb) =>
      let h : DWord := BitVec.ofNat 64 (leNat hb)
      match earlyStatus l h with
      | some st => refuseLaunch s u st
      | none => checkPlaces s u l h

/-! ## The gate (R316, R321 check 7) -/

/-- What reading one dependence entry comes to. -/
inductive DepRes
  | met
  | waits
  | refused
  | stalled (ipa info : Nat)
  deriving DecidableEq, Repr

/-- Read the word of a dependence entry; in a poisoned sector its value is open. -/
def readDep (s : State) (fn pa target : Nat) : State × DepRes :=
  let (s, bs) := readMem s fn pa 4
  let (v, s) := if poisonedAt s pa 4 then ((Config.freeWord s.freeCtr).toNat % 2 ^ 32, { s with freeCtr := s.freeCtr + 1 })
    else (leNat bs, s)
  (s, if target ≤ v then .met else .waits)

def depStep (s : State) (l : Launch) (i : Nat) : State × DepRes :=
  let va := l.depAddr i
  if va % 4 ≠ 0 ∨ !canonical (BitVec.ofNat 64 va) then (s, .refused)
  else
    match translate s (.dieOnly (l.queue % 4)) l.fn va .r with
    | (s, .stage1) => (s, .refused)
    | (s, .stage2 ipa wk) => (s, .stalled ipa (stallInfo .r wk))
    | (s, .ok e) =>
      match e.outAt va with
      | .hbm pa => readDep s l.fn pa (l.depTarget i)
      | .host _ | .fabric _ _ | .notify _ => (s, .refused)

/-- Test the dependence entries in order. -/
def depAll (l : Launch) : List Nat → State → Bool → State × DepRes × Nat
  | [], s, ok => (s, if ok then .met else .waits, 0)
  | i :: rest, s, ok =>
    match depStep s l i with
    | (s, .met) => depAll l rest s ok
    | (s, .waits) => depAll l rest s false
    | (s, r) => (s, r, l.depAddr i)

/-- The gate: check the launch once every entry is met. -/
def gateStep (s : State) (u : Nat) : State :=
  match s.launch? u with
  | none => s
  | some l =>
    if l.stage ≠ .gated ∨ l.token.isSome then s
    else
      let s := s.updLaunch u fun l => { l with recheck := false }
      match depAll l (List.range l.ndep) s true with
      | (s, .met, _) => checkLaunch s u l
      | (s, .waits, _) => s
      | (s, .refused, _) => refuseLaunch s u 0x15
      | (s, .stalled ipa info, va) => stallLaunch s u l ipa info va

/-- DEPENDENCE_RECHECK. -/
def execDependenceRecheck (launch : Nat) (s : State) : Host.Outcome State Fault Refusal :=
  .next (match s.launch? launch with
  | none => s
  | some l => if (s.fn l.fn).mig = .none then gateStep s launch else s)

/-! ## Reading a slot -/

/-- Queues of a function are read while it is enabled and active, or context-lost, and no stop is in progress. -/
def mayRead (f : Fn) : Bool := f.en && (f.state == 1 || f.state == 3) && f.mig == .none

/-- A launch of the queue stands at the gate. -/
def queueGated (s : State) (fn q : Nat) : Bool :=
  s.launches.any fun p => p.2.fn == fn && p.2.queue == q && p.2.stage == .gated

/-- The record has been copied: HEAD advances, the launch takes its number and comes to the gate. A context-lost function
ends it at once (R386). -/
def takeRecord (s : State) (fn q : Nat) (bs : List Byte) : State :=
  let l := s.lq fn q
  let s := s.setLq fn q { l with head := l.head + 1, stalled := none }
  let d := s.die (q % 4)
  let (u, s) := (s.setDie (q % 4) { d with laSeq := d.laSeq + 1 }).fresh
  let s : State := { s with launches := s.launches ++ [(u, newLaunch s fn q d.laSeq bs)] }
  if (s.fn fn).state = 3 then refuseLaunch s u 0x17 else gateStep s u

/-- LAUNCH_READ: read the slot at HEAD of an enabled queue. -/
def readSlot (s : State) (fn q : Nat) : State :=
  let l := s.lq fn q
  if !mayRead (s.fn fn) || !l.en || l.head == l.tail || l.stalled.isSome || queueGated s fn q then s
  else
    let a := l.slotAddr l.head
    match ipaAccess s fn a .r with
    | (s, some (.hbm pa)) | (s, some (.host pa)) =>
      if poisonedAt s pa 512 then skipSlot s fn q
      else (let r := readMem s fn pa 512; takeRecord r.1 fn q r.2)
    | (s, some (.fabric _ _)) | (s, some (.notify _)) | (s, none) =>
      let (k, s) := raiseEvent s 0x06 fn (BitVec.ofNat 64 a) 0 (.queue fn q) 0
      s.setLq fn q { s.lq fn q with stalled := some k }

def execLaunchRead (fn q : Nat) (s : State) : Host.Outcome State Fault Refusal := .next (readSlot s fn q)

/-- LAUNCH_PRIORITY_AGING: a launch that waits for placement rises one level for each 2^24 cycles (R323). -/
def execLaunchPriorityAging (launch : Nat) (s : State) : Host.Outcome State Fault Refusal :=
  .next (match s.launch? launch with
  | none => s
  | some l =>
    if (l.stage = .checked ∨ l.stage = .running) ∧ l.nextTeam < l.nteam ∧ l.pri < 3 ∧
        l.since + 2 ^ 24 * (l.pri - l.ctlPri + 1) ≤ s.now then
      s.updLaunch launch fun l => { l with pri := l.pri + 1 }
    else s)

/-! ## `spawn` (R208) -/

/-- Put a record into the slot of TAIL; a slot that stage 2 does not give is a stall. -/
def enqueue (s : State) (fn q : Nat) (bs : List Byte) : State × Option Nat × Word :=
  let l := s.lq fn q
  if !l.en then (s, none, 2)
  else if (l.tail - l.head).toNat = 2 ^ l.log then (s, none, 0)
  else
    let a := l.slotAddr l.tail
    match ipaAccess s fn a .w with
    | (s, some (.hbm pa)) | (s, some (.host pa)) =>
      let s := performWrite s fn pa bs
      (s.setLq fn q { s.lq fn q with tail := l.tail + 1 }, none, 1)
    | (s, some (.fabric _ _)) | (s, some (.notify _)) | (s, none) => (s, some a, 0)

/-- `spawn` completes with a status, as a producer of class 0x1. -/
def spawnStatus (s : State) (t : Thread) (i : Instr) (d : Reg) (st : Word) : State :=
  issueReq s t i d.toNat 1 (t.req s.now (some .ld) (.value d.toNat [st] 0 false))

/-- Read the record, as a load reads at the coherence point, and enqueue it; an idempotent phase is demoted first (R174, R208). -/
def spawnRecord (s : State) (m : Team) (t : Thread) (i : Instr) (d : Reg) (ea : DWord) (q : Nat) : State :=
  let fn := match s.launch? m.launch with | some l => l.fn | none => 0
  withAccess s m t ea 512 .load fun s loc _ _ =>
    match loc with
    | .mem pa => afterDemotion s m t fun s =>
      awaiting s t (.after (homeAfter s t loc 512)) <|
        if poisonedAt s pa 512 then threadFault s t .ecc { addr := ea.toNat }
        else
          let r := readMem s fn pa 512
          match enqueue (r.1.setCore t.core (l1Agree (r.1.core t.core) pa r.2)) fn q r.2 with
          | (s, none, st) => spawnStatus s t i d st
          | (s, some ipa, _) => stallThread s t fn ipa ea 1 false
    | .peer _ _ | .eth _ _ | .notify _ _ _ | .window _ _ _ | .scratch _ _ => permFault s t ea

def execSpawn (d : Reg) (a b : Src) (s : State) : Host.Outcome State Fault Refusal :=
  let i := Instr.spawn d a b
  issue s i [src2 a, src1 b, dst1 d] fun m t =>
    let q := (rw t b).toNat % 32
    let fn := match s.launch? m.launch with | some l => l.fn | none => 0
    afterAcquire s t <| awaiting s t (.release false) <|
      if fn = 0 ∧ q = 31 ∧ !t.priv then withRoom s t .ld (afterDemotion s m t fun s => spawnStatus s t i d 3)
      else withRoom s t .ld (spawnRecord s m t i d (rp t a) q)

end Sys2Proof.Machine
end

