-- ==== Sys2Proof/Machine/Admission.lean ====
section
/-! DEFINITION. The Lake, placement of cluster teams, the lease walk, admission, slices, phase boundaries and readmission
(R164 to R173, R178, R179, R323 to R327, R354). -/

namespace Sys2Proof.Machine

/-! ## The Lake (R164 to R166) -/

/-- The threads that hold a slot of a core. -/
def State.slotHolders (s : State) (core : Nat) : List Thread := (s.threads.filter fun p => p.2.core == core).map (·.2)

/-- Free granules of each lane of a core. -/
def freeGranules (s : State) (core : Nat) : List Nat :=
  let ts := s.slotHolders core
  (List.range 64).map fun lane => 16 - ((ts.filter fun t => t.lane == lane).map fun t => t.gmap.length).foldl (· + ·) 0

/-- The lowest `k` granules of a lane that no thread holds. -/
def takeGranules (s : State) (core lane k : Nat) : List Nat :=
  let used := ((s.slotHolders core).filter fun t => t.lane == lane).flatMap (·.gmap)
  ((List.range 16).filter fun g => !used.contains g).take k

/-- g of R166. -/
def granulesFor (nreg : Nat) : Nat := (nreg + 63) / 64

def lanesFrom (lo n : Nat) : List Nat := (List.range n).map fun i => lo + i

/-- The free placement of `n` lanes with the lowest sub-slot and then the lowest first lane, at multiples of `step`, among spans of
`step` lanes that nothing takes: a lone last group in narrow-wave mode leaves half of its span unused (R164). -/
def findPlace (free taken : List Nat) (g step n : Nat) : Option (Nat × Nat) :=
  ((List.range 16).flatMap fun sub => (List.range (64 / step)).map fun i => (i * step, sub)).find? fun p =>
    ((lanesFrom p.1 step).all fun lane => !taken.contains (lane + 64 * p.2)) &&
      (lanesFrom p.1 n).all fun lane => decide (g ≤ free.getD lane 0)

/-- Granules left after `n` lanes from `lo` take `g` each. -/
def lessGranules (free : List Nat) (lo n g : Nat) : List Nat :=
  (List.range free.length).map fun i => if lo ≤ i ∧ i < lo + n then free.getD i 0 - g else free.getD i 0

/-- Place groups in increasing GIX: lane and sub-slot of each. In narrow-wave mode the groups go in pairs. -/
def placeGroups (narrow : Bool) (w g : Nat) : Nat → Nat → List Nat → List Nat → Option (List (Nat × Nat))
  | 0, _, _, _ => some []
  | fuel + 1, left, free, taken =>
    if left = 0 then some []
    else
      let n := if narrow then Nat.min left 2 else 1
      match findPlace free taken g (if narrow then 2 * w else w) (n * w) with
      | none => none
      | some (lo, sub) =>
        let slots := (lanesFrom lo (n * w)).map fun lane => lane + 64 * sub
        (placeGroups narrow w g fuel (left - n) (lessGranules free lo (n * w) g) (taken ++ slots)).map fun rest =>
          ((List.range n).map fun i => (lo + i * w, sub)) ++ rest

/-- The slots of a core that lone last groups in narrow-wave mode keep: the 32 lanes of their pair (R164). -/
def loneSpans (s : State) (core : Nat) : List Nat :=
  s.teams.flatMap fun p =>
    if p.2.core = core ∧ p.2.narrow ∧ p.2.groups.length % 2 = 1 ∧ (s.threads.any fun t => t.2.team == p.1) then
      match p.2.groups.getLast? with
      | some (lane, sub) => (lanesFrom lane (2 * p.2.w)).map fun x => x + 64 * sub
      | none => []
    else []

/-- The slots of a core that a new group may not take. -/
def takenSlots (s : State) (core : Nat) : List Nat := (s.slotHolders core).map (·.slot) ++ loneSpans s core

/-! ## Clusters of a function (R370, R371) -/

/-- The function holds a cluster: its mask names it, and the cluster passed self-test. -/
def ownsCluster (s : State) (f k : Nat) : Bool :=
  let x := s.fn f
  (if k < 64 then x.clu0.getLsbD k else x.clu1.getLsbD (k - 64)) && !s.och.failed.getLsbD k

/-- A cell of the cluster belongs to another launch that conflicts with this one (R326). -/
def cellConflict (s : State) (u : Nat) (l : Launch) (k : Nat) : Bool :=
  (List.range 8).any fun i => l.bndDecl i && (match (FMap.get Cell.free (s.cluster k).cells i).owner with
    | some o => o != u
    | none => false)

/-! ## The order of waiting launches (R323) -/

/-- The share of a die's slot-cycles that a function has had, to compare with another's. -/
def shareBefore (s : State) (die f g : Nat) : Bool :=
  let d := s.die die
  decide (FMap.get 0 d.slotCycles f * (s.fn g).wgt.toNat < FMap.get 0 d.slotCycles g * (s.fn f).wgt.toNat)

/-- A launch that is restored or placed comes before another on a distributor. -/
def launchBefore (s : State) (die : Nat) (a b : Launch) : Bool :=
  let rot (q : Nat) : Nat := (q + 63 - (s.die die).lastQueue) % 32
  if a.pri ≠ b.pri then decide (b.pri < a.pri)
  else if shareBefore s die a.fn b.fn then true
  else if shareBefore s die b.fn a.fn then false
  else if rot a.queue ≠ rot b.queue then decide (rot a.queue < rot b.queue)
  else decide (a.seq.toNat < b.seq.toNat)

/-- Insertion into an ordered list. -/
def insertLaunch (s : State) (die : Nat) (x : Nat × Launch) : List (Nat × Launch) → List (Nat × Launch)
  | [] => [x]
  | y :: ys => if launchBefore s die x.2 y.2 then x :: y :: ys else y :: insertLaunch s die x ys

/-- A member of the launch waits for admission. -/
def hasWaiting (s : State) (u : Nat) : Bool := s.teams.any fun p => p.2.launch == u && p.2.stage == .waiting

/-- The launches of a die that may place their next cluster team, in order. -/
def placeable (s : State) (die : Nat) : List (Nat × Launch) :=
  (s.launches.filter fun p => p.2.queue % 4 == die && (p.2.stage == .checked || p.2.stage == .running) &&
    decide (p.2.nextTeam < p.2.nteam) && p.2.refused == 0 && p.2.token.isNone && !hasWaiting s p.1 &&
    (s.fn p.2.fn).mig == .none).foldl (fun l x => insertLaunch s die x l) []

/-! ## The choice of a die and a cluster (R317, R324) -/

/-- One placement entry as read: divisor and extent of its level, base, step, span. -/
structure PlaceEntry where
  div : Nat
  ext : Nat
  base : Nat
  stride : Int
  span : Nat
  deriving DecidableEq, Repr

/-- The digit of a level is `t / div % ext`: the lowest-numbered level is fastest (R313). -/
def placeEntry (l : Launch) (p : List Byte) : PlaceEntry :=
  let k := sliceNat p 0 1
  let below := (l.levels.take k).filter fun x => decide (2 ≤ lvDomain x)
  { div := below.foldl (fun d x => d * lvExt x) 1, ext := lvExt (l.lvl k), base := sliceNat p 8 8,
    stride := (BitVec.ofNat 64 (sliceNat p 16 8)).toInt, span := sliceNat p 24 8 }

/-- The sampled addresses of an entry for a team. -/
def samplesOf (e : PlaceEntry) (t : Nat) : List Nat :=
  let lo : Int := (e.base : Int) + e.stride * ((t / e.div % e.ext : Nat) : Int)
  (List.range (Nat.min 64 ((e.span + 2 ^ 21 - 1) / 2 ^ 21))).map fun i => (BitVec.ofInt 64 (lo + (2 ^ 21 * i : Nat))).toNat

/-- The die that a sample counts for. -/
def sampleDie (s : State) (fn va : Nat) : State × Option Nat :=
  if !canonical (BitVec.ofNat 64 va) then (s, none)
  else
    let (r, reads) := walk s fn va
    let s := reads.foldl (fun s a => llcRead s fn a 8) s
    match r with
    | .ok _ _ d2 ipa log2 => match leaf2Out log2 d2 ipa with
      | .hbm pa => (s, some (pa / 0x2000000000))
      | .host _ | .fabric _ _ | .notify _ => (s, none)
    | .bad1 | .miss2 _ _ => (s, none)

/-- The die with the most samples among the candidates; the lower on ties; none where no sample counts. -/
def mostSampled (counts : List (Nat × Nat)) : Option Nat :=
  match counts.foldl (fun (best : Nat × Nat) p => if best.2 < p.2 then p else best) (0, 0) with
  | (_, 0) => none
  | (d, _) => some d

/-- Sample every placement entry. -/
def sampleAll (s : State) (fn t : Nat) (es : List PlaceEntry) : State × List Nat :=
  (es.flatMap fun e => samplesOf e t).foldl (fun acc va =>
    let r := sampleDie acc.1 fn va
    (r.1, match r.2 with | some d => acc.2 ++ [d] | none => acc.2)) (s, [])

/-- The four cores of a cluster, most free granules first, lower first on ties. -/
def coresByRoom (s : State) (k : Nat) : List (Nat × Nat) :=
  let room (c : Nat) : Nat := (freeGranules s c).foldl (· + ·) 0
  let ins (x : Nat × Nat) (l : List (Nat × Nat)) : List (Nat × Nat) :=
    (l.takeWhile fun y => decide (x.2 ≤ y.2)) ++ [x] ++ (l.dropWhile fun y => decide (x.2 ≤ y.2))
  (coresOf k).foldl (fun l c => ins (c, room c) l) []

/-- The cluster of the die that offers the most granules on `c` cores, with those cores ascending. -/
def chooseCluster (s : State) (u : Nat) (l : Launch) (die c : Nat) : Option (List Nat) :=
  let ks := ((List.range 32).map fun i => die * 32 + i).filter fun k => ownsCluster s l.fn k && !cellConflict s u l k
  let best := ks.foldl (fun (b : Option (Nat × List Nat)) k =>
    let cs := (coresByRoom s k).take c
    let n := (cs.map (·.2)).foldl (· + ·) 0
    match b with
    | none => some (n, cs.map (·.1))
    | some x => if x.1 < n then some (n, cs.map (·.1)) else b) none
  best.map fun b => b.2.foldl (fun l x => insertNat x l) []

/-! ## The lease walk (R325, R354) -/

/-- The rights that a lease's walk asks for. -/
def leaseAsks (e : Nat) : List Right :=
  match leaseRights e with
  | 1 => [.r]
  | 2 => [.r, .w]
  | _ => [.r, .x]

/-- What the walk of a launch's leases comes to. -/
inductive WalkEnd
  | done
  | short
  | missing (ipa va info : Nat)
  deriving DecidableEq, Repr

/-- Walk both stages at one address, whatever the TLBs hold, and cache the result in the die TLB. -/
def walkRights (die fn va : Nat) (rs : List Right) (s : State) : State × WalkEnd :=
  let (res, reads) := walk s fn va
  let s := reads.foldl (fun s a => llcRead s fn a 8) s
  match res with
  | .bad1 => (s, .short)
  | .miss2 ipa wk => (s, .missing ipa va (stallInfo (rs.headD .r) wk))
  | .ok log d1 d2 ipa log2 =>
    if rs.any fun a => d1 / a.bitOf % 2 == 0 then (s, .short)
    else
      match rs.find? fun a => d2 / a.bitOf % 2 == 0 with
      | some a => (s, .missing ipa va (stallInfo a false))
      | none => (s.useTlb (.dieOnly die) (xlatOf fn va log d1 d2 ipa log2), .done)

def walkAll (die fn : Nat) : List (Nat × List Right) → State → State × WalkEnd
  | [], s => (s, .done)
  | (va, rs) :: rest, s =>
    match walkRights die fn va rs s with
    | (s, .done) => walkAll die fn rest s
    | r => r

/-- Every 64 KiB of every lease, with the rights asked for. -/
def leaseSteps (l : Launch) : List (Nat × List Right) :=
  l.leases.flatMap fun e => (List.range (leaseSize e / 65536)).map fun i => (leaseBase e + 65536 * i, leaseAsks e)

/-! ## Placement -/

/-- A member of a cluster team, before admission. -/
def newTeam (u num core : Nat) (l : Launch) : Team :=
  { launch := u, num := num, core := core, nthr := l.tsize, w := hdrW l.header, narrow := hdrNw l.header, stage := .waiting,
    groups := [], phase := 0, nreg := phNreg (l.ph 0), idem := phIdem (l.ph 0), demoted := false,
    phaddr := BitVec.ofNat 64 (l.hdraddr + 8), scrSize := 256 * l.scr, scratch := [], gen := 0, gens := [], nacc := l.acc,
    tiles := [], tflags := [], streams := [], chains := [], wdCount := 0, wdSince := none, ncompl := 0, preempt := none,
    area := none, image := [], blocks := [], erets := [] }

/-- A request joins the admission queue of a core. -/
def requestAdmission (s : State) (core team : Nat) : State :=
  let c := s.core core
  s.setCore core { c with admission := c.admission ++ [⟨team, s.now, false⟩] }

/-- The members join the queues of their cores. -/
def placeMembers (u : Nat) (l : Launch) : List (Nat × Nat) → State → State
  | [], s => s
  | (num, core) :: rest, s =>
    let (t, s) := s.fresh
    let s : State := { s with teams := s.teams ++ [(t, newTeam u num core l)] }
    placeMembers u l rest (requestAdmission s core t)

/-- End the launch with a status, its teams not yet admitted cancelled (R354). -/
def cancelLaunch (s : State) (u status : Nat) : State :=
  let gone := (s.teams.filter fun p => p.2.launch == u && p.2.stage == .waiting).map (·.1)
  let s : State := { s with
    teams := s.teams.filter (fun p => !gone.contains p.1)
    cores := s.cores.map fun p => (p.1, { p.2 with admission := p.2.admission.filter fun a => !gone.contains a.team }) }
  checkLaunchEnd (s.updLaunch u fun l => { l with refused := status, token := none }) u

/-- The dies on which a function holds clusters that satisfy `ok`. -/
def diesOf (s : State) (fn : Nat) (ok : Nat → Bool) : List Nat :=
  (List.range 4).filter fun d => (List.range 32).any fun i => ownsCluster s fn (d * 32 + i) && ok (d * 32 + i)

/-- The die of a cluster team among some: the most samples, else its number in rotation. -/
def chooseDie (s : State) (l : Launch) (team : Nat) (dies : List Nat) : State × Option Nat :=
  let (s, hits) := sampleAll s l.fn team (l.places.map (placeEntry l))
  match mostSampled (dies.map fun d => (d, (hits.filter (· == d)).length)) with
  | some d => (s, some d)
  | none => (s, dies[(team / l.perCluster) % Nat.max dies.length 1]?)

/-- The die and the cores of a cluster team (R324): where every cluster of the die is kept from it by a bound cell, the die is
chosen again among those with a cluster that is free of the conflict (R326). -/
def chooseCores (s : State) (u : Nat) (l : Launch) (team : Nat) : State × Option (Nat × List Nat) :=
  match chooseDie s l team (diesOf s l.fn fun _ => true) with
  | (s, none) => (s, none)
  | (s, some d) =>
    match chooseCluster s u l d l.perCluster with
    | some cores => (s, some (d, cores))
    | none =>
      match chooseDie s l team (diesOf s l.fn fun k => !cellConflict s u l k) with
      | (s, none) => (s, none)
      | (s, some d) => (s, (chooseCluster s u l d l.perCluster).map fun cores => (d, cores))

/-- Try to place the next cluster team of a launch; whether it was placed, or its leases ended or held it. -/
def tryPlace (s : State) (die u : Nat) (l : Launch) : State × Bool :=
  match chooseCores s u l l.nextTeam with
  | (s, none) => (s, false)
  | (s, some (d, cores)) =>
      match walkAll d l.fn (leaseSteps l) s with
      | (s, .short) => (cancelLaunch s u 0x14, true)
      | (s, .missing ipa va info) =>
        let (k, s) := raiseEvent s 0x04 l.fn (BitVec.ofNat 64 ipa) info (.lease u) (BitVec.ofNat 64 va)
        (s.updLaunch u fun l => { l with token := some k }, true)
      | (s, .done) =>
        let x := s.die die
        let s := s.setDie die { x with lastQueue := l.queue }
        let s := placeMembers u l ((List.range cores.length).map fun i => (l.nextTeam + i, cores.getD i 0)) s
        (s.updLaunch u fun l => { l with stage := .running, nextTeam := l.nextTeam + cores.length }, true)

/-- The first launch in order whose next cluster team finds a cluster. -/
def placeFirst (die : Nat) : List (Nat × Launch) → State → State
  | [], s => s
  | (u, l) :: rest, s =>
    match tryPlace s die u l with
    | (s, true) => s
    | (s, false) => placeFirst die rest s


/-! ## Admission (R166, R167, R325) -/

/-- Teams that hold resources of a core, and of a cluster. -/
def holdersOn (s : State) (core : Nat) : List Team := (s.teams.filter fun p => p.2.core == core && p.2.holds).map (·.2)
def holdersIn (s : State) (k : Nat) : List Team := (s.teams.filter fun p => clusterOf p.2.core == k && p.2.holds).map (·.2)

/-- The members of a team's cluster team that wait with it. -/
def membersOf (s : State) (m : Team) : List (Nat × Team) :=
  match s.launch? m.launch with
  | none => []
  | some l =>
    let c := Nat.max l.perCluster 1
    s.teams.filter fun p => p.2.launch == m.launch && p.2.stage == .waiting && p.2.num / c == m.num / c

/-- The placements of a team on its core. -/
def groupsFor (s : State) (m : Team) : Option (List (Nat × Nat)) :=
  let n := m.nthr / m.w
  placeGroups m.narrow m.w (granulesFor m.nreg) n n (freeGranules s m.core) (takenSlots s m.core)

/-- Scratchpad and deque of a core have room for a team. -/
def coreRoom (s : State) (m : Team) (dq : Bool) : Bool :=
  let used := ((holdersOn s m.core).map (·.scrSize)).foldl (· + ·) 0
  decide (used + m.scrSize ≤ 2 ^ 18) &&
    (!dq || match (s.core m.core).dqOwner with | some o => o == m.launch | none => true)

/-- Tiles, streams and cells of a cluster have room for `n` teams of a launch. -/
def clusterRoom (s : State) (u : Nat) (l : Launch) (k n : Nat) : Bool :=
  let ts := holdersIn s k
  decide (((ts.map (·.nacc)).foldl (· + ·) 0) + n * l.acc ≤ 32) &&
    decide (((ts.map fun t => t.streams.length).foldl (· + ·) 0) + n * l.str ≤ 16) && !cellConflict s u l k

/-- Take the cells that a launch declares and a cluster's first team of it brings (R288). -/
def takeCells (s : State) (u : Nat) (l : Launch) (k : Nat) : State :=
  (List.range 8).foldl (fun s i =>
    let cl := s.cluster k
    if l.bndDecl i && (FMap.get Cell.free cl.cells i).owner.isNone then
      let v := l.keptOf i
      let s := s.setCluster k { cl with cells := FMap.set Cell.free cl.cells i ⟨v, some u⟩ }
      (coresOf k).foldl (fun s c => let x := s.core c; s.setCore c { x with bound := FMap.set 0 x.bound i v }) s
    else s) s

/-- A generation of a core that a write in flight carries, or that an allocation of another team has (R195). -/
def genBusy (s : State) (core u g : Nat) : Bool :=
  (s.reqs.any fun p => match p.2.act with
    | .genWrite k h _ _ _ => k == core && h == g && !p.2.complete
    | _ => false) ||
  s.teams.any fun p => p.1 != u && p.2.core == core && p.2.holds && p.2.gen.toNat == g

/-- The next generation of a core that may be issued, from its allocation counter on; where all are taken, none (R195). -/
def nextGen (s : State) (core u : Nat) : Option (BitVec 8) :=
  (((List.range 256).map fun i => ((s.core core).genCtr.toNat + i) % 256).find? fun g => !genBusy s core u g).map (BitVec.ofNat 8)

/-- Assign a scratchpad generation, where there is one. -/
def assignGen (s : State) (u : Nat) (m : Team) : State :=
  match nextGen s m.core u with
  | some g => (s.setCore m.core { s.core m.core with genCtr := g + 1 }).updTeam u fun m => { m with gen := g }
  | none => s

/-- A function's slice starts on a core where none of its slices runs (R327). -/
def startSlice (s : State) (core fn : Nat) : State :=
  let c := s.core core
  if c.slices.any fun x => x.fn == fn then s
  else s.setCore core { c with slices := c.slices ++ [⟨fn, s.now, (s.fn fn).wgt.toNat * 65536⟩] }

/-- Before a team's first fetch, the core drops its code lines and fetch entries; the admission acquires at `.dev`
(R139, R305). -/
def freshCaches (s : State) (core fn : Nat) : State :=
  let s := acquireCore s core .dev
  let c := s.core core
  s.setCore core { c with ic := [], itlb := c.itlb.filter fun e => e.fn != fn }

/-- The threads of a team on its placements. -/
def makeThreads (s : State) (u : Nat) (m : Team) (l : Launch) (groups : List (Nat × Nat)) : State :=
  (List.range m.nthr).foldl (fun s x =>
    let g := groups.getD (x / m.w) (0, 0)
    let slot := g.1 + x % m.w + 64 * g.2
    let t : Thread :=
      { team := u, tix := x, core := m.core, slot := slot, pc := m.phaddr, regs := [],
        gmap := takeGranules s m.core (slot % 64) (granulesFor m.nreg), fpctl := 0, fflags := 0,
        trapvec := BitVec.ofNat 64 (l.trapvec / 8 * 8), trappc := 0, trapcause := 0, priv := l.priv, place := .table, hcall := none }
    arrive { s with threads := Tab.put s.threads (tkey u x) t } t m.phaddr) s

/-- The phase record of R170: header, LIVE and body. -/
def phaseRecord (m : Team) (phase flags : Nat) (carry : List Nat) (live : Nat → Bool) (reg : Nat → Nat → RegVal) : List Byte :=
  leBytes 4 m.num ++ leBytes 2 phase ++ leBytes 2 m.nthr ++ leBytes 2 carry.length ++ leBytes 1 flags ++ leBytes 53 0 ++
  leBytes 128 ((List.range m.nthr).foldl (fun n t => if live t then n + 2 ^ t else n) 0) ++
  (List.range m.nthr).flatMap fun t => carry.flatMap fun v => recordEntry (reg t v)

/-- One member becomes resident on its placements. -/
def admitMember (s : State) (u : Nat) (l : Launch) (groups : List (Nat × Nat)) : State :=
  match s.team? u with
  | none => s
  | some m =>
    let s := s.updTeam u fun m =>
      { m with stage := .resident, groups := groups, streams := List.replicate l.str [], wdSince := some s.now }
    let s := assignGen s u m
    let s := freshCaches s m.core l.fn
    let s := if l.dq then s.setCore m.core { s.core m.core with dqOwner := some m.launch } else s
    let s := startSlice s m.core l.fn
    makeThreads s u m l groups

/-- Remove a team's request from a core's queue. -/
def leaveQueue (s : State) (core team : Nat) : State :=
  let c := s.core core
  s.setCore core { c with admission := c.admission.filter fun a => a.team != team }

/-- The members know each other's generations (R195). -/
def shareGens (s : State) (us : List Nat) : State :=
  let gs := us.filterMap fun u => (s.team? u).map fun m => (m.core, m.gen)
  us.foldl (fun s u => s.updTeam u fun m => { m with gens := gs }) s

/-- A reservation on the core stands for a team other than these (R167). -/
def reservedAgainst (s : State) (core : Nat) (us : List Nat) : Bool :=
  (s.core core).admission.any fun a => a.reserved && !us.contains a.team

/-- A team waits for its phase record: an event of TYPE 0x0A, and later another attempt, or the end of the team with F_SAVE
(R417). -/
def stallRecord (s : State) (u : Nat) (m : Team) (l : Launch) (ipa info : Nat) : State :=
  let va : DWord := BitVec.ofNat 64 (l.phRecord m.num)
  let (k, s) := raiseEvent s 0x0A l.fn (BitVec.ofNat 64 ipa) info (.area m.launch va [] u false false) va
  s.updTeam u fun m => { m with area := some k }

/-- The record of an idempotent first phase: nothing is carried, and every thread is live (R179). -/
def firstRecord (m : Team) : List Byte := phaseRecord m 0 1 [] (fun x => decide (x < m.nthr)) (fun _ _ => .full 0)

/-- Write the records of the members' first phase where it is idempotent, before they are admitted; whether all stand. -/
def writeFirst (l : Launch) : List (Nat × Team) → State → State × Bool
  | [], s => (s, true)
  | (u, m) :: rest, s =>
    if !m.idem then writeFirst l rest s
    else
      match areaWrite s l.fn (dieOf m.core) (l.phRecord m.num) (firstRecord m) with
      | (s, .done) => writeFirst l rest s
      | (s, .failed) => (postTeamFault s u m .save { addr := l.phRecord m.num }, false)
      | (s, .stalled ipa info) => (stallRecord s u m l ipa info, false)

/-- The members of a cluster team whose cluster its function holds no more are placed again (DESIGN CHOICE, log 100). -/
def placeAgain (s : State) (m : Team) (l : Launch) (ms : List (Nat × Team)) : State :=
  match chooseCores s m.launch l (m.num / l.perCluster * l.perCluster) with
  | (s, none) => s
  | (s, some (_, cores)) =>
    (List.range ms.length).foldl (fun s i =>
      match ms[i]?, cores[i]? with
      | some (u, x), some c => requestAdmission ((leaveQueue s x.core u).updTeam u fun m => { m with core := c }) c u
      | _, _ => s) s

/-- Every member of a cluster team fits on its core and cluster, and none waits for an answer. -/
def membersFit (s : State) (m : Team) (l : Launch) (ms : List (Nat × Team)) : Bool :=
  let us := ms.map (·.1)
  (ms.all fun p => p.2.area.isNone && (groupsFor s p.2).isSome && coreRoom s p.2 l.dq && (nextGen s p.2.core p.1).isSome &&
    !reservedAgainst s p.2.core us) && clusterRoom s m.launch l (clusterOf m.core) ms.length

/-- Admit a cluster team, all members in one cycle, where every member fits. -/
def admitNew (s : State) (m : Team) : State :=
  match s.launch? m.launch with
  | none => s
  | some l =>
    let ms := membersOf s m
    if (s.fn l.fn).mig ≠ .none then s
    else if !ownsCluster s l.fn (clusterOf m.core) then placeAgain s m l ms
    else if !membersFit s m l ms then s
    else
      match writeFirst l ms s with
      | (s, false) => s
      | (s, true) =>
        let s := takeCells s m.launch l (clusterOf m.core)
        let s := ms.foldl (fun s p => admitMember (leaveQueue s p.2.core p.1) p.1 l ((groupsFor s p.2).getD [])) s
        shareGens s (ms.map (·.1))

/-! ## Readmission (R168 step 5, R178) -/

/-- The granules of a readmitted team fit on its lanes. -/
def granulesFit (s : State) (ts : List Thread) (core g : Nat) : Bool :=
  let free := freeGranules s core
  (List.range 64).all fun lane => decide (((ts.filter fun t => t.lane == lane).length) * g ≤ free.getD lane 0)

/-- Give a thread its granules. -/
def giveGranules (s : State) (t : Thread) (g : Nat) : State :=
  s.setThread { t with gmap := t.gmap ++ takeGranules s t.core t.lane (g - t.gmap.length) }

/-- The registers that a team's phase record carries: none in that of a first phase (R170, R179). -/
def recordCarry (m : Team) (l : Launch) : List Nat := if m.phase = 0 then [] else phCarry (l.ph (m.phase - 1))

/-- The record that a readmission takes (R168, R178, R179). -/
def readRecord (s : State) (m : Team) (l : Launch) : State × AreaRes × List Byte :=
  areaRead s l.fn (dieOf m.core) (l.phRecord m.num) (192 + m.nthr * (recordCarry m l).length * 8)

/-- A thread resumes from its record at the phase's first instruction; one whose LIVE bit is clear stays exited. -/
def resumeThread (m : Team) (carry : List Nat) (bs : List Byte) (s : State) (t : Thread) : State :=
  if leNat ((bs.drop 64).take 128) / 2 ^ t.tix % 2 = 0 then s.setThread { t with place := .exited, regs := [] }
  else
    let regs := (List.range carry.length).foldl (fun (r : FMap RegVal) i =>
      FMap.set (.full 0) r (carry.getD i 0) (recordReg ((bs.drop (192 + (t.tix * carry.length + i) * 8)).take 8))) []
    arrive s { t with regs := regs } m.phaddr

/-- The team resumes: granules, registers from the record, arrival at the phase's first instruction. -/
def resumeTeam (s : State) (u : Nat) (m : Team) (l : Launch) (bs : List Byte) : State :=
  let carry := recordCarry m l
  let g := granulesFor m.nreg
  let s := (s.teamThreads u).foldl (fun s t => giveGranules s t g) s
  let s := s.updTeam u fun m => { m with stage := .resident, wdSince := some s.now, area := none }
  let s := startSlice s m.core l.fn
  (s.teamThreads u).foldl (resumeThread m carry bs) s


/-- The other members of a team's cluster team that hold a scratchpad. -/
def matesOf (s : State) (u : Nat) (m : Team) (l : Launch) : List Nat :=
  let c := Nat.max l.perCluster 1
  (s.teams.filter fun p => p.1 != u && p.2.launch == m.launch && p.2.num / c == m.num / c && p.2.holds).map (·.1)

/-- What a discarded team takes again besides granules (R177, R178); its caches are those of an admission (R130, R139, R305). -/
def retake (s : State) (u : Nat) (m : Team) (l : Launch) : State :=
  let s := freshCaches (takeCells s m.launch l (clusterOf m.core)) m.core l.fn
  let s := s.updTeam u fun m => { m with streams := List.replicate l.str [] }
  let s := assignGen s u m
  let s := if l.dq then s.setCore m.core { s.core m.core with dqOwner := some m.launch } else s
  shareGens s (u :: matesOf s u m l)

/-- A spilled or a discarded team may be readmitted: it waits for no answer, and what it needs fits. -/
def mayReadmit (s : State) (u : Nat) (m : Team) (l : Launch) : Bool :=
  m.area.isNone && !fillsPending s u && !reservedAgainst s m.core [u] && (s.fn l.fn).mig == .none &&
    granulesFit s (s.teamThreads u) m.core (granulesFor m.nreg) &&
    (m.stage != .discarded || (ownsCluster s l.fn (clusterOf m.core) && coreRoom s m l.dq &&
      clusterRoom s m.launch l (clusterOf m.core) 1 && (nextGen s m.core u).isSome))

/-- Readmit a spilled or a discarded team where it fits. -/
def readmit (s : State) (u : Nat) (m : Team) : State :=
  match s.launch? m.launch with
  | none => s
  | some l =>
    let again := m.stage == .discarded
    if !mayReadmit s u m l then s
    else
      match readRecord s m l with
      | (s, .stalled ipa info, _) => stallRecord s u m l ipa info
      | (s, .failed, _) => postTeamFault s u m .save { addr := l.phRecord m.num }
      | (s, .done, bs) =>
        let s := leaveQueue s m.core u
        let s := if again then retake s u m l else s
        resumeTeam s u m l bs

/-- Attempt one request. -/
def tryAdmit (s : State) (u : Nat) : State :=
  match s.team? u with
  | none => s
  | some m =>
    match m.stage with
    | .waiting => admitNew s m
    | .spilled | .discarded => readmit s u m
    | .resident | .stopping | .ending | .saved | .ended => s

/-- TEAM_ADMISSION: attempt the requests of a core, oldest first. -/
def execTeamAdmission (core : Nat) (s : State) : Host.Outcome State Fault Refusal :=
  .next (((s.core core).admission.map (·.team)).foldl tryAdmit s)

/-- Mark requests of these teams reserved wherever they stand. -/
def reserve (s : State) (us : List Nat) : State :=
  { s with cores := s.cores.map fun p =>
      (p.1, { p.2 with admission := p.2.admission.map fun a => if us.contains a.team then { a with reserved := true } else a }) }

/-- ADMISSION_RESERVATION: the oldest request of a core has waited 65,536 cycles. -/
def execAdmissionReservation (core : Nat) (s : State) : Host.Outcome State Fault Refusal :=
  .next (match (s.core core).admission with
  | [] => s
  | a :: _ =>
    if a.since + 65536 ≤ s.now then
      match s.team? a.team with
      | none => s
      | some m => reserve s (if m.stage = .waiting then (membersOf s m).map (·.1) else [a.team])
    else s)

/-! ## Slices (R327) -/

/-- A cluster team of another function waits for the core with at least this priority; a saved one waits for any core of
its function. -/
def contender (s : State) (core fn pri : Nat) : Bool :=
  let waits (u : Nat) : Bool := match s.team? u with
    | none => false
    | some m => match s.launch? m.launch with
      | none => false
      | some l => l.fn != fn && decide (pri ≤ l.pri)
  (s.core core).admission.any (fun a => waits a.team) ||
    s.teams.any fun p => p.2.stage == .saved && waits p.1 && (match s.launch? p.2.launch with
      | none => false
      | some l => ownsCluster s l.fn (clusterOf core) && (s.fn l.fn).state == 1)

/-- The launch priority of a function's resident teams on a core: the highest, where they differ (DESIGN CHOICE, log 115). -/
def residentPri (s : State) (core fn : Nat) : Option Nat :=
  s.teams.foldl (fun b p =>
    match s.launch? p.2.launch with
    | none => b
    | some l => if p.2.core = core ∧ p.2.runs ∧ l.fn = fn then some (Nat.max (b.getD 0) l.ctlPri) else b) none

/-- Pre-emption of the resident teams of a function on a core is asked for. -/
def askPreempt (s : State) (core fn : Nat) : State :=
  { s with teams := s.teams.map fun p =>
      match s.launch? p.2.launch with
      | none => p
      | some l => if p.2.core = core ∧ p.2.runs ∧ l.fn = fn ∧ p.2.preempt.isNone then (p.1, { p.2 with preempt := some s.now }) else p }

/-- One slice that has run its length ends, or starts again. -/
def endSlice (s : State) (core : Nat) (x : Slice) : State :=
  let c := s.core core
  let others := c.slices.filter fun y => y.fn != x.fn
  match residentPri s core x.fn with
  | none => s.setCore core { c with slices := others }
  | some pri =>
    if contender s core x.fn pri then askPreempt (s.setCore core { c with slices := others }) core x.fn
    else s.setCore core { c with slices := others ++ [{ x with start := s.now, length := (s.fn x.fn).wgt.toNat * 65536 }] }

/-- SLICE_END: every slice of the core whose length has passed. -/
def execSliceEnd (core : Nat) (s : State) : Host.Outcome State Fault Refusal :=
  .next (((s.core core).slices.filter fun x => decide (x.start + x.length ≤ s.now)).foldl (fun s x => endSlice s core x) s)

/-! ## The phase boundary (R168) -/

/-- The thread still waits for a producer of its own (R34). -/
def producing (t : Thread) : Bool :=
  t.regs.any fun p => match p.2 with
    | .empty tag => decide (1 ≤ tag.toNat / 2 ^ 28) && decide (tag.toNat / 2 ^ 28 ≤ 3)
    | .full _ | .poisoned => false

/-- Registers that are carried keep their state; the others are released. -/
def keepRegs (carry : List Nat) (t : Thread) : Thread := { t with regs := t.regs.filter fun p => carry.contains p.1 }

/-- The team enters its next phase. -/
def enterPhase (l : Launch) (m : Team) (addr : DWord) : Team :=
  let p := l.ph (m.phase + 1)
  { m with phase := m.phase + 1, nreg := phNreg p, idem := phIdem p, demoted := false, phaddr := addr, area := none }

/-- Every live thread goes on at the next phase's first instruction, with the acquire of `bar.team`. -/
def releasePhase (s : State) (u : Nat) : State := (liveOf s u).foldl (fun s t => releaseAcq s t .team 8) s

/-- Steps 3 to 5, the record having been written where it must. -/
def passBoundary (s : State) (u : Nat) (m : Team) (l : Launch) (carry : List Nat) (inPlace : Bool) (g0 g1 : Nat) (addr : DWord) :
    State :=
  let s := (s.teamThreads u).foldl (fun s t => s.setThread (keepRegs carry t)) s
  let s := s.updTeam u fun m => enterPhase l m addr
  if inPlace then
    let s := (s.teamThreads u).foldl (fun s t =>
      if g1 ≤ g0 then s.setThread { t with gmap := t.gmap.take g1 } else if t.live then giveGranules s t g1 else s) s
    releasePhase s u
  else
    let s := (s.teamThreads u).foldl (fun s t => s.setThread { t with gmap := [], regs := [] }) s
    let s := s.updTeam u fun m => { m with stage := .spilled, wdCount := m.wd s.now, wdSince := none }
    requestAdmission s m.core u

/-- The team goes on in place: it needs no more granules, or what it needs is free and kept for no other (R167, R168). -/
def growsInPlace (s : State) (u : Nat) (m : Team) (live : List Thread) (g0 g1 : Nat) : Bool :=
  let free := freeGranules s m.core
  decide (g1 ≤ g0) || (!reservedAgainst s m.core [u] && (List.range 64).all fun lane =>
    decide ((g1 - g0) * (live.filter fun t => t.lane == lane).length ≤ free.getD lane 0))

/-- Steps 2 to 5 of PHASE_BOUNDARY, the buffered stores having been drained. -/
def crossBoundary (s : State) (u : Nat) (m : Team) (l : Launch) (addr : DWord) : State :=
  let carry := phCarry (l.ph m.phase)
  let next := l.ph (m.phase + 1)
  let live := liveOf s u
  if phIdem next && live.any fun t => carry.any fun v => isEmptyReg (t.reg v) then s
  else
    let g0 := granulesFor m.nreg
    let g1 := granulesFor (phNreg next)
    let inPlace := growsInPlace s u m live g0 g1
    if !phIdem next && inPlace then passBoundary s u m l carry true g0 g1 addr
    else
      let flags := (if phIdem next then 1 else 0) + (if inPlace then 0 else 2)
      let reg (x v : Nat) : RegVal := match s.thread? u x with | some t => t.reg v | none => .full 0
      let alive (x : Nat) : Bool := match s.thread? u x with | some t => t.live | none => false
      match areaWrite s l.fn (dieOf m.core) (l.phRecord m.num) (phaseRecord m (m.phase + 1) flags carry alive reg) with
      | (s, .done) => passBoundary s u m l carry inPlace g0 g1 addr
      | (s, .failed) => postTeamFault s u m .save { addr := l.phRecord m.num }
      | (s, .stalled ipa info) => stallRecord s u m l ipa info

/-- PHASE_BOUNDARY of a team whose live threads are all held at the boundary: they wait for their producers (R34), the buffered
stores drain, and then the rest. -/
def phaseBoundary (s : State) (u : Nat) (m : Team) (l : Launch) (t0 : Thread) : State :=
  if (liveOf s u).any producing || bufferBusy s u then s
  else
    let s := drain s u m
    if !(((s.team? u).map Team.runs).getD false) || drainLeft s m.core u then s else crossBoundary s u m l (t0.pc + 8)

def atBoundary (t : Thread) : Bool := t.place == .held .boundary

def execPhaseBoundary (team : Nat) (s : State) : Host.Outcome State Fault Refusal :=
  .next (match s.team? team with
  | none => s
  | some m =>
    match s.launch? m.launch, liveOf s team with
    | some l, t0 :: rest =>
      if m.runs && m.area.isNone && (t0 :: rest).all atBoundary then phaseBoundary s team m l t0 else s
    | _, _ => s)

end Sys2Proof.Machine
end

