-- ==== Sys2Proof/Machine/Control.lean ====
section
/-! DEFINITION. Control flow (R119 to R124). -/

namespace Sys2Proof.Machine

/-- BranchTarget (R70): the offset counts words from the transfer. -/
def branchTarget (pc : DWord) (off : BitVec 24) : DWord := pc + off.signExtend 64 * 8

def execBr (off : BitVec 24) (s : State) : Host.Outcome State Fault Refusal :=
  issue s (.br off) [] fun _ t => finishAt s t (.br off) 0 (branchTarget t.pc off)

def execBrc (z : Bool) (c : Src) (off : BitVec 24) (s : State) : Host.Outcome State Fault Refusal :=
  issue s (.brc z c off) [src1 c] fun _ t =>
    let take := if z then rw t c == 0 else rw t c != 0
    finishAt s t (.brc z c off) 0 (if take then branchTarget t.pc off else t.pc + 8)

def execCall (d : Reg) (off : BitVec 24) (s : State) : Host.Outcome State Fault Refusal :=
  issue s (.call d off) [dst2 d] fun _ t =>
    finishAt s (t.writePair d.toNat (t.pc + 8)) (.call d off) 0 (branchTarget t.pc off)

/-- A transfer to a register target, with an alignment check (R120). ADDR of its F_ALIGN is 0 (DESIGN CHOICE, log 96). -/
def jumpTo (s : State) (t : Thread) (i : Instr) (target : DWord) (t' : Thread) : State :=
  if target.toNat % 8 ≠ 0 then threadFault s t .align {} else finishAt s t' i 0 target

def execBrx (a : Src) (s : State) : Host.Outcome State Fault Refusal :=
  issue s (.brx a) [src2 a] fun _ t => jumpTo s t (.brx a) (rp t a) t

def execCalli (d : Reg) (a : Src) (s : State) : Host.Outcome State Fault Refusal :=
  issue s (.calli d a) [src2 a, dst2 d] fun _ t => jumpTo s t (.calli d a) (rp t a) (t.writePair d.toNat (t.pc + 8))

def execRet (a : Src) (s : State) : Host.Outcome State Fault Refusal :=
  issue s (.ret a) [src2 a] fun _ t => jumpTo s t (.ret a) (rp t a) t

def execExit (s : State) : Host.Outcome State Fault Refusal :=
  issue s .exit [] fun _ t => exitThread (retire s t.team) t

/-- T_SOFT or T_DEBUG, to resume after the `trap` (R122). -/
def execTrap (dbg : Bool) (n : Byte) (s : State) : Host.Outcome State Fault Refusal :=
  issue s (.trap dbg n) [] fun _ t => takeTrap s t (if dbg then .tDebug else .tSoft) (t.pc + 8) 0

/-- `tret` outside trap mode faults F_ILLEGAL (R123). -/
def execTret (s : State) : Host.Outcome State Fault Refusal :=
  issue s .tret [] fun _ t =>
    if t.mode then returnFromTrap (retire s t.team) t else threadFault s t .illegal {}

def execNop (cut : Bool) (s : State) : Host.Outcome State Fault Refusal :=
  issue s (.nop cut) [] fun _ t => finish s t (.nop cut) 0

end Sys2Proof.Machine
end

