-- ==== Sys2Proof/Machine/Programs.lean ====
section
/-! DEFINITION. Mordant programs: their accesses, fetches, records, ends and faults (R215 to R240, R248, R255 to R261, R376,
R377). -/

namespace Sys2Proof.Machine

/-! ## Registers and identity (R216) -/

def Program.mreg (p : Program) (n : BitVec 5) : DWord := FMap.get 0 p.m n.toNat

def Program.setM (p : Program) (n : BitVec 5) (x : DWord) : Program := { p with m := FMap.set 0 p.m n.toNat x }

/-- The 288 bytes of a descriptor register. -/
def Program.desc (p : Program) (n : BitVec 3) : List Byte := leBytes 288 (FMap.get 0 p.d n.toNat).toNat

def Program.setDesc (p : Program) (n : BitVec 3) (bs : List Byte) : Program :=
  { p with d := FMap.set 0 p.d n.toNat (BitVec.ofNat 2304 (leNat bs)) }

/-- The counts of R248. -/
def Program.count (p : Program) (bytes items : Nat) : Program :=
  let b := BitVec.ofNat 64 bytes
  { p with bcnt := p.bcnt + b, icnt := p.icnt + BitVec.ofNat 64 items, btot := p.btot + b }

/-- The die of a program. -/
def Program.die (p : Program) : Nat :=
  match p.system with
  | some d => d
  | none => p.cluster / 32

/-- The function in whose context a program runs: function 0 for a system program. -/
def programFn (s : State) (p : Program) : Nat :=
  match p.system with
  | some _ => 0
  | none => (((s.team? p.team).bind fun m => s.launch? m.launch).map (·.fn)).getD 0

/-- The subcodes of R261. -/
inductive MSub
  | illegal | align | lease | perm | fetch | desc | shape | conv | index | scratch | refused | ecc | fabric
  deriving DecidableEq, Repr

def MSub.num : MSub → Nat
  | .illegal => 1 | .align => 2 | .lease => 3 | .perm => 4 | .fetch => 5 | .desc => 6 | .shape => 7 | .conv => 8
  | .index => 9 | .scratch => 0xA | .refused => 0xB | .ecc => 0xC | .fabric => 0xD

/-! ## A program's requests (R239) -/

def ownedBy (u : Nat) (r : Req) : Bool := r.owner == .program u

/-- Own writes that have not been performed, oldest first. -/
def pendingOf (s : State) (u : Nat) : Tab Req := s.reqs.filter fun p => ownedBy u p.2 && !p.2.performed && !p.2.complete

/-- Whether a request is a write to a peer. -/
def Act.peerStore : Act → Bool
  | .store (.peer _ _) _ => true
  | _ => false

def peersPending (s : State) (u : Nat) : Bool := (pendingOf s u).any fun p => p.2.act.peerStore

/-- A pending write of the program to scratchpad bytes of a core. -/
def touchesCore (core off n : Nat) (r : Req) : Bool :=
  match r.act with
  | .genWrite c _ o bs _ => c == core && decide (o < off + n) && decide (off < o + bs.length)
  | _ => false

/-- Perform one own write that does not go to a peer. -/
def performOwn (s : State) (k : Nat) : State :=
  match Tab.find s.reqs k with
  | none => s
  | some r =>
    match r.act with
    | .genWrite core g off bs fn =>
      if ready s r && !r.complete then settle (completeJoins (completeReq (performGenWrite s core g off fn bs) k)) else s
    | _ => performStore s k r

/-- The pending writes that a test names, and those that they come after in program order (R239). -/
def flushList (l : Tab Req) (sel : Req → Bool) : List Nat :=
  l.foldr (fun p need => if sel p.2 || need.contains p.1 then p.1 :: p.2.after ++ need else need) []

/-- Perform those of the program's pending writes that a test names, oldest first, and what they come after. -/
def flushOwn (s : State) (u : Nat) (sel : Req → Bool) : State :=
  let need := flushList (pendingOf s u) sel
  (((pendingOf s u).map (·.1)).filter need.contains).foldl performOwn s

def flushAll (s : State) (u : Nat) : State := flushOwn s u fun _ => true

/-- A request of a program. -/
def Program.req' (p : Program) (u now fn va ipa : Nat) (act : Act) (after : List Nat) : Req :=
  { owner := .program u, cls := none, act := act, after := after, behind := [], performed := false, complete := false, data := none,
    undo := [], psb := [], mate := none, half := none, shown := false, priv := false, acq := none, unsent := false, pc := p.pc,
    noFill := false, stale := false, fn := fn, va := BitVec.ofNat 64 va, ipa := ipa, dead := false, die := p.die,
    born := now }

/-! ## Completion records (R256, R257) -/

/-- The 32 bytes of a completion record from an engine. -/
def completionRecord (p : Program) (e : Ending) (engine loc now : Nat) : List Byte :=
  leBytes 6 p.seq.toNat ++ leBytes 1 e.status ++ leBytes 1 (if e.status = 3 then e.sub else 0) ++ leBytes 8 p.btot.toNat ++
  leBytes 4 (if e.status = 1 then e.user else 0) ++ leBytes 1 p.mflags.toNat ++ leBytes 1 engine ++
  leBytes 2 loc ++ leBytes 8 now

/-- Write to an intermediate address of function 0 where stage 2 gives it; otherwise nothing. -/
def writeIpa0 (s : State) (ipa : Nat) (bs : List Byte) : State :=
  match ipaAccess s 0 ipa .w with
  | (s, some (.hbm pa)) | (s, some (.host pa)) => performWrite s 0 pa bs
  | (s, some (.fabric _ _)) | (s, some (.notify _)) | (s, none) => s

/-- The record of a system program goes to the die's ring; none while BASE is 0.  The spec numbers no system engine and
gives it no cluster: ENGINE is a free value of 0 to 3, and so are CORE and CLUSTER of LOC. -/
def postSystemRecord (s : State) (p : Program) (d : Nat) (e : Ending) : State :=
  let x := s.die d
  let base := x.smRing.toNat / 4096 * 4096
  let a := base + 32 * (x.smCount % 2 ^ (x.smRing.toNat % 16))
  let s := s.setDie d { x with smCount := x.smCount + 1 }
  if base = 0 then s
  else
    let bs := completionRecord p e ((Config.freeWord s.freeCtr).toNat % 4)
      (d * 128 + (Config.freeWord (s.freeCtr + 1)).toNat % 128) s.now
    let s : State := { s with freeCtr := s.freeCtr + 2 }
    writeIpa0 (writeIpa0 s (a + 8) (bs.drop 8)) a (bs.take 8)

/-- The bytes of a team program's record, as it stands when the write is made. -/
def teamRecord (s : State) (p : Program) (m : Team) (e : Ending) : List Byte :=
  completionRecord p e (p.engine.getD 0xFF) m.core s.now

/-- The record of a team's program goes to the team's ring; false where its write is stalled, and the end of the program waits
with it (R220, R417). A failed write is dropped. -/
def postTeamRecord (s : State) (u : Nat) (p : Program) (e : Ending) : State × Bool :=
  match s.team? p.team with
  | none => (s, true)
  | some m =>
    match s.launch? m.launch with
    | none => (s, true)
    | some l =>
      let a := l.crRing m.num + 32 * (m.ncompl % 2 ^ l.crlog)
      let s := s.updTeam p.team fun m => { m with ncompl := m.ncompl + 1 }
      match areaRecord s l.fn (dieOf m.core) a (teamRecord s p m e) with
      | (s, .stalled ipa info) =>
        let va : DWord := BitVec.ofNat 64 a
        let (k, s) := raiseEvent s 0x0A l.fn (BitVec.ofNat 64 ipa) info (.record u va) va
        (s.updProgram u fun p => { p with ending := some e, stalled := some k, wait := false }, false)
      | (s, _) => (s, true)

def postCompletion (s : State) (u : Nat) (p : Program) (e : Ending) : State × Bool :=
  if e.status = 0 then (s, true)
  else match p.system with
    | some d => (postSystemRecord s p d e, true)
    | none => postTeamRecord s u p e

/-! ## Going on -/

/-- A peer read of the elements that are done: it holds no byte at which a next one stands. -/
def usedRead (u : Nat) (next : List Nat) (r : Req) : Bool :=
  ownedBy u r && r.act.reads && !(match r.act with
    | .load _ n _ _ _ => next.any fun va => decide (r.va.toNat ≤ va) && decide (va < r.va.toNat + n)
    | _ => false)

/-- Keep what an element has done to the program, and forget its peer reads; `next` is where the next elements stand. -/
def keepProgram (s : State) (u : Nat) (p : Program) (next : List Nat) : State :=
  { s with programs := Tab.put s.programs u p, reqs := s.reqs.filter fun q => !usedRead u next q.2 }

def retireProgram (s : State) (p : Program) : State := if p.system.isSome then s else retire s p.team

/-- The instruction is complete and the program goes on at `pc`. -/
def mGoto (s : State) (u : Nat) (p : Program) (pc : DWord) : State :=
  retireProgram (keepProgram s u { p with pc := pc, prog := 0, wait := false, barrier := none, passed := false, index := none } [])
    p

def mNext (s : State) (u : Nat) (p : Program) (i : Instr) : State := mGoto s u p (p.pc + BitVec.ofNat 64 i.len)

/-- An `stx` or `regfill` of `n` bytes, each a word of 8 bytes, completes after its own turn. -/
def laterDone (s : State) (u : Nat) (p : Program) (n : Nat) : State := mGoto s u (p.count n 1) (p.pc + 8)

/-! ## The end of a program (R220, R260) -/

/-- The team of a faulted program ends with F_MORDANT. -/
def mordantFault (s : State) (p : Program) (e : Ending) : State :=
  if e.status ≠ 3 ∨ p.system.isSome then s
  else match s.team? p.team with
    | none => s
    | some m => postFault s p.team m .mordant p.pc 0xFFFF (p.engine.getD 0xFF) e.sub true { addr := e.addr }

/-- A reduction is over: every local member has contributed, and each contribution is served or its program has ended. -/
def Fxr.over (l : List Fxr) (x : Fxr) : Bool :=
  let own := l.filter fun y => y.group == x.group && y.epoch == x.epoch
  own.all (·.done) && x.members.all fun m => m.2.1 != Config.packageNumber.toNat || own.any fun y => y.fn == m.2.2

/-- Forget the reductions that are over. -/
def sweepFxrs (l : List Fxr) : List Fxr := l.filter fun x => !x.over l

/-- A queued program that ends leaves the queue (R218). -/
def leaveMordantQueue (s : State) (u : Nat) (p : Program) : State :=
  if p.system.isSome then s
  else
    let cl := s.cluster p.cluster
    s.setCluster p.cluster { cl with queue := cl.queue.filter (· != u) }

/-- Remove a program from its engine or queue, with its reads; its reductions stand as contributed. -/
def removeProgram (s : State) (u : Nat) (p : Program) : State :=
  let s := leaveMordantQueue s u p
  { s with
    programs := Tab.del s.programs u
    reqs := s.reqs.filter (fun q => !ownedBy u q.2)
    fab := { s.fab with fxrs := sweepFxrs (s.fab.fxrs.map fun x => if x.prog = u then { x with done := true } else x) } }

/-- The last of R220: the program leaves its engine, its `mdgo` is credited, and a fault of its own ends its team (R260). -/
def leaveProgram (s : State) (u : Nat) (p : Program) (e : Ending) : State :=
  let s := removeProgram s u p
  let s := match p.req with
    | some k => settle (completeReq s k)
    | none => s
  if p.system.isSome then s else checkTeamEnd (mordantFault s p e) p.team

/-- A register tagged with the program's SEQ is still to be poisoned, in a phase record. -/
def poisonStands (s : State) (p : Program) : Bool := p.system.isNone && fillStands s p.team (.program p.seq)

/-- What follows the completion record of a program (R220): the registers that its tags name are poisoned, which may wait for a
phase record (R171), and then it leaves. -/
def closeProgram (s : State) (u : Nat) (p : Program) (e : Ending) : State :=
  let s := if p.system.isSome then s else poisonRegs s p.team (.program p.seq)
  if poisonStands s p then
    s.updProgram u fun p => { p with ending := some e, stalled := none, wait := false, recorded := true }
  else leaveProgram s u p e

/-- A program whose record is written leaves once its registers are poisoned. -/
def closeRecorded (s : State) (u : Nat) (p : Program) (e : Ending) : State :=
  if poisonStands s p then s else leaveProgram s u p e

/-- The end of a program whose writes have all been performed, in the order of R220. -/
def finishProgram (s : State) (u : Nat) (p : Program) (e : Ending) : State :=
  match postCompletion s u p e with
  | (s, true) => closeProgram s u p e
  | (s, false) => s

/-- Own writes that a program's end waits for. -/
def writesPending (s : State) (u : Nat) : Bool := (pendingOf s u).any fun p => !p.2.act.reads

/-- A fault on a write that was outstanding at the end of a program is the fault of that program (R260, R404), unless it ended
as by `mdkill` (R255). -/
def worseEnding (old new : Ending) : Ending := if new.status = 3 ∧ old.status < 2 then new else old

/-- A program ends: its writes are performed first; where some go to peers, their answers are waited for. -/
def endProgram (s : State) (u : Nat) (e : Ending) : State :=
  let s := flushAll s u
  match s.program? u with
  | none => s
  | some p =>
    match p.ending with
    | some old =>
      if p.recorded then closeRecorded s u p old
      else if p.stalled.isSome then s
      else s.updProgram u fun p => { p with ending := some (worseEnding old e) }
    | none =>
      let s := leaveMordantQueue s u p
      if writesPending s u then s.updProgram u fun p => { p with ending := some e, wait := false, stalled := none }
      else finishProgram s u p e

/-- A program that ends only waits for its writes: go on when the last has been performed. -/
def resumeEnding (s : State) (u : Nat) : State :=
  match s.program? u with
  | none => s
  | some p =>
    match p.ending with
    | some e =>
      if p.recorded then closeRecorded s u p e
      else if writesPending (flushAll s u) u || p.stalled.isSome then flushAll s u
      else finishProgram (flushAll s u) u p e
    | none => s

/-- What ends without an instruction of its own: a program that ends, or its `regfill` once the fill stands in no wait (R252). -/
def resumeProgram (s : State) (u : Nat) : State :=
  match s.program? u with
  | none => s
  | some p =>
    if p.ending.isSome then resumeEnding s u
    else if p.filling && !fillStands s p.team (.programOrWindow p.seq) then laterDone s u { p with filling := false } 4
    else s

/-- The answer to the stall of a program's completion record: the record is written where it now can be, waits again, or is
dropped (R417); then the end goes on. -/
def resumeRecord (s : State) (u : Nat) (va : DWord) (resolved : Bool) : State :=
  match s.program? u with
  | none => s
  | some p =>
    match p.ending, s.team? p.team with
    | some e, some m =>
      match s.launch? m.launch with
      | none => s
      | some l =>
        match (if resolved then areaRecord s l.fn (dieOf m.core) va.toNat (teamRecord s p m e) else (s, .failed)) with
        | (s, .stalled ipa info) =>
          let (k, s) := raiseEvent s 0x0A l.fn (BitVec.ofNat 64 ipa) info (.record u va) va
          s.updProgram u fun p => { p with stalled := some k }
        | (s, _) => closeProgram s u p e
    | _, _ => s

/-- Withdraw the wait of a stalled program; one whose end waits for its record keeps it. -/
def dropStall (s : State) (p : Program) : State :=
  match p.stalled, p.ending with
  | some k, none => dropWait s k
  | _, _ => s

/-- As by `mdkill` (R286). -/
def killProgram (s : State) (u : Nat) : State :=
  match s.program? u with
  | none => s
  | some p => endProgram (dropStall s p) u ⟨2, 0, 0, 0⟩

/-- The programs of a team. -/
def programsOf (s : State) (t : Nat) : List Nat := (s.programs.filter fun p => p.2.team == t && p.2.system.isNone).map (·.1)

/-- A fault of a program. -/
def mFault (s : State) (u : Nat) (sub : MSub) (addr : Nat) : State := endProgram s u ⟨3, sub.num, 0, addr⟩

/-! ## Accesses (R229, R237, R238, R351, R253) -/

/-- The outcome of a part of an instruction: a value, or the state in which the instruction has stopped at this element:
faulted, stalled or waiting. -/
inductive MR (α : Type)
  | ok (s : State) (a : α)
  | stop (s : State)

def MR.bind {α β : Type} (x : MR α) (f : State → α → MR β) : MR β :=
  match x with
  | .ok s a => f s a
  | .stop s => .stop s

def MR.run {α : Type} (x : MR α) (f : State → α → State) : State :=
  match x with
  | .ok s a => f s a
  | .stop s => s

/-- A stage-2 stall of a program: an event of TYPE 0x03. -/
def mStall (s : State) (u fn ipa va info : Nat) : State :=
  let (k, s) := raiseEvent s 3 fn (BitVec.ofNat 64 ipa) info (.program u) (BitVec.ofNat 64 va)
  s.updProgram u fun p => { p with stalled := some k }

/-- The location of an output (R351, R399); code lies in HBM4 or host memory. -/
def mOut (s : State) (u : Nat) (p : Program) (va n : Nat) (right : Right) : Out → MR Loc
  | .hbm pa | .host pa => .ok s (.mem pa)
  | .fabric v o =>
    if right = .x then .stop (mFault s u .fetch va) else
    match checkPeer s p.die (programFn s p) v o n 0 (if right = .w then .store else .load) with
    | (s, .ok loc _ _) => .ok s loc
    | (s, .fault _) | (s, .stall _ _) => .stop (mFault s u .perm va)
  | .notify pa =>
    if right = .x then .stop (mFault s u .fetch va) else
    match physOf pa with
    | .notify f q o => if n = 8 ∧ va % 8 = 0 then .ok s (.notify f q o) else .stop (mFault s u .perm va)
    | .hbm _ | .host | .nowhere => .stop (mFault s u .perm va)


/-- A part of an access: where it is made, its length, and its intermediate address. -/
structure Part where
  loc : Loc
  n : Nat
  ipa : Nat
  deriving DecidableEq, Repr

/-- Translate one piece, which lies in one 64 KiB page. -/
def mPiece (s : State) (u : Nat) (p : Program) (va n : Nat) (right : Right) : MR Part :=
  match p.system with
  | some _ =>
    match ipaAccess s 0 va right with
    | (s, some o) => (mOut s u p va n right o).bind fun s l => .ok s ⟨l, n, va⟩
    | (s, none) => .stop (mFault s u .perm va)
  | none =>
    let fn := programFn s p
    match translate s (.mordant p.cluster) fn va right with
    | (s, .stage1) => .stop (mFault s u (if right = .x then .fetch else .perm) va)
    | (s, .stage2 ipa wk) => .stop (mStall s u fn ipa va (stallInfo right wk))
    | (s, .ok x) => (mOut s u p va n right (x.outAt va)).bind fun s l => .ok s ⟨l, n, x.ipaAt va⟩

/-- Accesses to a peer travel in packets that do not cross 4 KiB of its offset (R394). -/
def splitPeer (x : Part) : List Part :=
  match x.loc with
  | .peer v o =>
    (List.range ((o + x.n + 4095) / 4096 - o / 4096)).map fun i =>
      let lo := Nat.max o ((o / 4096 + i) * 4096)
      let hi := Nat.min (o + x.n) ((o / 4096 + i + 1) * 4096)
      ⟨.peer v lo, hi - lo, x.ipa + (lo - o)⟩
  | _ => [x]

/-- Translate every piece. -/
def mPieces (u : Nat) (p : Program) (right : Right) : List (Nat × Nat) → State → List Part → MR (List Part)
  | [], s, acc => .ok s acc
  | (va, n) :: rest, s, acc => (mPiece s u p va n right).bind fun s x => mPieces u p right rest s (acc ++ splitPeer x)

/-- The checks of R238 after alignment, and the parts of `n` bytes at `va`. `win` is an aligned `.32` `stx`. -/
def mResolve (s : State) (u : Nat) (p : Program) (va n : Nat) (right : Right) (win : Bool) : MR (List Part) :=
  match p.system with
  | some _ => mPieces u p right (pieces va n) s []
  | none =>
    match (s.team? p.team).bind fun m => (s.launch? m.launch).map fun l => (m, l) with
    | none => .stop s
    | some (m, l) =>
      match l.windowOf m.num va n with
      | some o =>
        if win then .ok s [⟨.window p.team (o / 4096) (o % 4096 / 4), n, 0⟩]
        else .stop (mFault s u (if right = .x then .fetch else .perm) va)
      | none =>
        match l.leaseOf va n with
        | none => .stop (mFault s u .lease va)
        | some e =>
          if leaseAllows e right then mPieces u p right (pieces va n) s [] else .stop (mFault s u .perm va)

/-- A read of peer memory that the program has issued and that holds `n` bytes at an offset: where they stand in it, and its
data once it has been answered. -/
def ownRead (s : State) (u v o n : Nat) : Option (Nat × Option (List Byte)) :=
  s.reqs.findSome? fun p =>
    match p.2.act with
    | .load (.peer v' o') n' _ _ _ =>
      if ownedBy u p.2 ∧ v' = v ∧ o' ≤ o ∧ o + n ≤ o' + n' then some (o - o', p.2.data) else none
    | _ => none

/-- Bytes of a peer packet: those asked for and up to `ahead` more, within 4 KiB of the offset (R394). -/
def gatherRead (o n ahead : Nat) : Nat := Nat.max n (Nat.min (n + ahead) (4096 - o % 4096))

/-- Sample the located bytes of a read, after the program's own older writes to them; a read of peer memory is issued, with
`ahead` bytes that the instruction reads next, and waited for. -/
def mSample (u : Nat) (p : Program) (va ahead : Nat) : List Part → State → List Byte → MR (List Byte)
  | [], s, acc => .ok s acc
  | ⟨loc, n, ipa⟩ :: rest, s, acc =>
    match loc with
    | .peer v o =>
      match ownRead s u v o n with
      | some (at', some bs) => mSample u p (va + n) ahead rest s (acc ++ (bs.drop at').take n)
      | some (_, none) => .stop s
      | none =>
        let k := gatherRead o n (if rest.isEmpty then ahead else 0)
        let before := ((pendingOf s u).filter fun q => q.2.touches loc k).map (·.1)
        .stop (addReq s (p.req' u s.now (programFn s p) va ipa (.load loc k false 0 false) before)).2
    | _ =>
      let s := flushOwn s u fun r => r.touches loc n
      match sample s (programFn s p) loc n with
      | .bytes s bs => mSample u p (va + n) ahead rest s (acc ++ bs)
      | .ecc => .stop (mFault s u .ecc va)
      | .later => .stop s

/-- Read `n` bytes of global memory, of which the instruction reads `ahead` more next. -/
def mLoad (s : State) (u : Nat) (p : Program) (va n ahead : Nat) : MR (List Byte) :=
  (mResolve s u p va n .r false).bind fun s ls => mSample u p va ahead ls s []

/-- A write, checked and not yet made. -/
inductive MWrite
  | at (va ipa : Nat) (loc : Loc) (bs : List Byte)
  /-- to a scratchpad, with the generation that the program knows -/
  | gen (core : Nat) (g : BitVec 8) (off : Nat) (bs : List Byte)
  /-- dropped: the program knows no generation for the core -/
  | drop (core : Nat)
  deriving DecidableEq, Repr

/-- The bytes over their locations. -/
def splitWrite (va : Nat) : List Part → List Byte → List MWrite
  | [], _ => []
  | x :: rest, bs => .at va x.ipa x.loc (bs.take x.n) :: splitWrite (va + x.n) rest (bs.drop x.n)

def mPlan (s : State) (u : Nat) (p : Program) (va : Nat) (bs : List Byte) (win : Bool) : MR (List MWrite) :=
  (mResolve s u p va bs.length .w win).bind fun s ls => .ok s (splitWrite va ls bs)

/-- The core that CORE names (R224). -/
def coreNamed (p : Program) (home code : Nat) : Nat := if code = 0 then home else p.cluster * 4 + (code - 4)

/-- The member of the program's cluster team whose allocation stands on a core. -/
def memberOn (s : State) (p : Program) (core : Nat) : Option (Nat × Team) :=
  match s.team? p.team with
  | none => none
  | some m =>
    let c := match s.launch? m.launch with | some l => Nat.max l.perCluster 1 | none => 1
    s.teams.find? fun q => q.2.launch == m.launch && q.2.num / c == m.num / c && q.2.core == core && q.2.holds

def genKnown (p : Program) (core : Nat) : Option (BitVec 8) := (p.gens.find? fun g => g.1 == core).map (·.2)

/-- The home core of a program's team. -/
def homeCore (s : State) (p : Program) : Nat := ((s.team? p.team).map (·.core)).getD 0

/-- Read `n` scratchpad bytes of a core (R229). ADDR of a SCRATCH fault is the offset (DESIGN CHOICE, log 117). -/
def mScrLoad (s : State) (u : Nat) (p : Program) (core : Nat) (off : Int) (n : Nat) : MR (List Byte) :=
  let bad := MR.stop (mFault s u .scratch (BitVec.ofInt 64 off).toNat)
  match memberOn s p core with
  | none => bad
  | some (t, m) =>
    if off < 0 ∨ (m.scrSize : Int) < off + n then bad
    else
      let s := flushOwn s u (touchesCore core off.toNat n)
      .ok s (scratchBytes s t off.toNat n)

/-- Check a scratchpad write (R229): beyond a live allocation it faults; a stale one is dropped when it arrives.
ADDR of the fault is the offset (DESIGN CHOICE, log 117). -/
def mScrPlan (s : State) (u : Nat) (p : Program) (core : Nat) (off : Int) (bs : List Byte) : MR (List MWrite) :=
  match genKnown p core with
  | none => .ok s [.drop core]
  | some g =>
    match memberOn s p core with
    | none => .ok s [.gen core g off.toNat bs]
    | some (_, m) =>
      if m.gen = g ∧ (off < 0 ∨ (m.scrSize : Int) < off + bs.length) then
        .stop (mFault s u .scratch (BitVec.ofInt 64 off).toNat)
      else .ok s [.gen core g off.toNat bs]

/-- Count a dropped write on a core (R195). -/
def countDrop (s : State) (core fn : Nat) : State :=
  let x := s.core core
  s.setCore core { x with spdrop := bump x.spdrop fn }

/-- The youngest pending write of a program whose packet has not been sent and takes bytes at a peer's offset behind its own: up to
4 KiB, within 4 KiB of the offset and within one 64 KiB page, with no younger write to these bytes (R394). -/
def gathers (s : State) (u va v o n : Nat) : Option (Nat × Loc × List Byte) :=
  let l := pendingOf s u
  l.reverse.findSome? fun p =>
    match p.2.act with
    | .store (.peer v' o') bs =>
      if v' = v ∧ o' + bs.length = o ∧ o' / 4096 = (o + n - 1) / 4096 ∧ p.2.va.toNat / 65536 = va / 65536 ∧
          (Tab.find s.fab.sent p.1).isNone ∧ !p.2.stale ∧ !(l.any fun q => decide (p.1 < q.1) && q.2.touches (.peer v o) n) then
        some (p.1, .peer v' o', bs)
      else none
    | _ => none

/-- Issue a write of bytes at a location, after the program's older ones to the same bytes; peer writes are gathered. -/
def issueAt (u : Nat) (p : Program) (s : State) (va ipa : Nat) (loc : Loc) (bs : List Byte) : State :=
  let before := ((pendingOf s u).filter fun q => q.2.touches loc bs.length).map (·.1)
  let fresh := (addReq s (p.req' u s.now (programFn s p) va ipa (.store loc bs) before)).2
  match loc with
  | .peer v o =>
    match gathers s u va v o bs.length with
    | some (k, l, b) =>
      s.updReq k fun r => { r with act := .store l (b ++ bs), after := r.after ++ before.filter (· != k) }
    | none => fresh
  | _ => fresh

/-- Issue one write: it is performed later, after the program's older ones to the same bytes. -/
def mIssue (u : Nat) (p : Program) (s : State) (w : MWrite) : State :=
  let fn := programFn s p
  match w with
  | .at va ipa loc bs => issueAt u p s va ipa loc bs
  | .gen core g off bs =>
    let before := ((pendingOf s u).filter fun q => touchesCore core off bs.length q.2).map (·.1)
    (addReq s (p.req' u s.now fn 0 0 (.genWrite core g.toNat off bs fn) before)).2
  | .drop core => countDrop s core fn

def mCommit (s : State) (u : Nat) (p : Program) (ws : List MWrite) : State := ws.foldl (mIssue u p) s

/-- The pending writes of a program that a new write follows on the same bytes, or that are the write itself. -/
def MWrite.meets (w : MWrite) (r : Req) : Bool :=
  match w with
  | .at _ _ loc bs => r.touches loc bs.length
  | .gen core _ off bs => touchesCore core off bs.length r
  | .drop _ => false

/-- The program stays at its instruction with WAIT set (R246, R250). -/
def mWait (s : State) (u : Nat) : State := s.updProgram u fun p => { p with wait := true }

/-- A Mordant instruction of the current program. -/
def mordant (s : State) (k : Nat → Program → State) : Host.Outcome State Fault Refusal :=
  match s.cur with
  | .program u =>
    match s.program? u with
    | some p => .next (k u p)
    | none => .fault .noProgram
  | .none | .thread _ _ | .left _ => .fault .noProgram

/-! ## Fetch (R219, R234, R236) -/

/-- A program may execute its next instruction. -/
def mayRun (s : State) (p : Program) : Bool :=
  p.stalled.isNone && p.ending.isNone && !p.buffered && p.barrier.isNone && p.posted == 0 && !p.filling &&
    (p.system.isSome || (p.engine.isSome && ((s.team? p.team).map Team.drives).getD false)) &&
    match p.req.bind (Tab.find s.reqs) with
    | some r => ready s r
    | none => true

/-- An engine's instruction cache of 16 KiB takes a word: where it holds 2,048, that of its lowest key goes (R215; DESIGN CHOICE,
log 21). -/
def micFill (m : Tab DWord) (e k : Nat) (w : DWord) : Tab DWord :=
  let own := (Tab.del m k).filter fun p => p.1 % 4 == e
  Tab.put (if 2048 ≤ own.length then Tab.del m (own.headD (0, 0)).1 else m) k w

/-- Read a code word of HBM4 or host memory, through the engine's instruction cache. -/
def mCode (s : State) (u : Nat) (p : Program) (va pa : Nat) : MR DWord :=
  let key := pa / 8 * 4 + p.engine.getD 0
  let hit := if p.system.isSome ∨ pageQueued s pa then none else Tab.find (s.cluster p.cluster).mic key
  match hit with
  | some w => .ok s w
  | none =>
    if poisonedAt s pa 8 then .stop (mFault s u .ecc va)
    else
      let (s, bs) := readMem s (programFn s p) pa 8
      let w : DWord := BitVec.ofNat 64 (leNat bs)
      let cl := s.cluster p.cluster
      .ok (if p.system.isSome then s else s.setCluster p.cluster { cl with mic := micFill cl.mic (p.engine.getD 0) key w }) w

/-- Fetch one word. -/
def mFetch (s : State) (u : Nat) (p : Program) (a : DWord) : MR DWord :=
  (mResolve s u p a.toNat 8 .x false).bind fun s ls =>
    match ls with
    | [⟨.mem pa, _, _⟩] => mCode s u p a.toNat pa
    | _ => .stop (mFault s u .fetch a.toNat)

/-- Fetch and decode the instruction at the program's pc; a literal is fetched before the word is checked (DESIGN CHOICE, log
98). -/
def mInstr (s : State) (u : Nat) (p : Program) : MR Instr :=
  (mFetch s u p p.pc).bind fun s w =>
    let dec (s : State) (bs : List Byte) : MR Instr :=
      match decodeMordantBytes bs with
      | .ok (i, _) => .ok s i
      | .error _ => .stop (mFault s u .illegal 0)
    if isXForm w then
      (mFetch s u p (p.pc + 8)).bind fun s lit => dec s (leBytes 8 w.toNat ++ leBytes 8 lit.toNat)
    else dec s (leBytes 8 w.toNat)

/-- The instruction that a program is to execute, or the state where it executes none. -/
def prepareProgram (s : State) (u : Nat) : Except State (Instr × State) :=
  match s.program? u with
  | none => .error s
  | some p =>
    if mayRun s p then
      match mInstr s u p with
      | .ok s i => .ok (i, { s with cur := .program u })
      | .stop s => .error s
    else .error (resumeProgram s u)

end Sys2Proof.Machine
end

