-- ==== Sys2Proof/Machine/Mordant.lean ====
section
/-! DEFINITION. Mordant instructions but for the tensor movements, the thread instructions that start, end and read programs,
and the Mordant queue (R218, R235 to R242, R249 to R259, R285 to R287). -/

namespace Sys2Proof.Machine

/-! ## Scalar instructions (R235) -/

/-- An instruction whose effect is to write one m register. -/
def mScalar (s : State) (i : Instr) (d : BitVec 5) (f : Program → DWord) : Host.Outcome State Fault Refusal :=
  mordant s fun u p => mNext s u (p.setM d (f p)) i

def mShlOf (a n : DWord) : DWord := if n.toNat < 64 then BitVec.ofNat 64 (a.toNat * 2 ^ n.toNat) else 0
def mShrOf (a n : DWord) : DWord := if n.toNat < 64 then BitVec.ofNat 64 (a.toNat / 2 ^ n.toNat) else 0

def mCmpOf (cc : Cond) (nat : Bool) (a b : DWord) : DWord :=
  if (if nat then condHolds cc a.toNat b.toNat else condHolds cc a.toInt b.toInt) then 1 else 0

/-- The immediate of the IM forms. -/
def mImm (imm : BitVec 24) : DWord := imm.signExtend 64

def execMAdd (d a b : BitVec 5) (s : State) : Host.Outcome State Fault Refusal :=
  mScalar s (.mAdd d a b) d fun p => p.mreg a + p.mreg b

def execMSub (d a b : BitVec 5) (s : State) : Host.Outcome State Fault Refusal :=
  mScalar s (.mSub d a b) d fun p => p.mreg a - p.mreg b

def execMMul (d a b : BitVec 5) (s : State) : Host.Outcome State Fault Refusal :=
  mScalar s (.mMul d a b) d fun p => p.mreg a * p.mreg b

def execMAnd (d a b : BitVec 5) (s : State) : Host.Outcome State Fault Refusal :=
  mScalar s (.mAnd d a b) d fun p => p.mreg a &&& p.mreg b

def execMOr (d a b : BitVec 5) (s : State) : Host.Outcome State Fault Refusal :=
  mScalar s (.mOr d a b) d fun p => p.mreg a ||| p.mreg b

def execMXor (d a b : BitVec 5) (s : State) : Host.Outcome State Fault Refusal :=
  mScalar s (.mXor d a b) d fun p => p.mreg a ^^^ p.mreg b

def execMShl (d a b : BitVec 5) (s : State) : Host.Outcome State Fault Refusal :=
  mScalar s (.mShl d a b) d fun p => mShlOf (p.mreg a) (p.mreg b)

def execMShr (d a b : BitVec 5) (s : State) : Host.Outcome State Fault Refusal :=
  mScalar s (.mShr d a b) d fun p => mShrOf (p.mreg a) (p.mreg b)

def execMCmp (cc : Cond) (nat : Bool) (d a b : BitVec 5) (s : State) : Host.Outcome State Fault Refusal :=
  mScalar s (.mCmp cc nat d a b) d fun p => mCmpOf cc nat (p.mreg a) (p.mreg b)

def execMSel (d a b c : BitVec 5) (s : State) : Host.Outcome State Fault Refusal :=
  mScalar s (.mSel d a b c) d fun p => if p.mreg c ≠ 0 then p.mreg a else p.mreg b

def execMMov (d a : BitVec 5) (s : State) : Host.Outcome State Fault Refusal :=
  mScalar s (.mMov d a) d fun p => p.mreg a

def execMAddImm (d a : BitVec 5) (imm : BitVec 24) (s : State) : Host.Outcome State Fault Refusal :=
  mScalar s (.mAddImm d a imm) d fun p => p.mreg a + mImm imm

def execMMulImm (d a : BitVec 5) (imm : BitVec 24) (s : State) : Host.Outcome State Fault Refusal :=
  mScalar s (.mMulImm d a imm) d fun p => p.mreg a * mImm imm

def execMAndImm (d a : BitVec 5) (imm : BitVec 24) (s : State) : Host.Outcome State Fault Refusal :=
  mScalar s (.mAndImm d a imm) d fun p => p.mreg a &&& mImm imm

def execMOrImm (d a : BitVec 5) (imm : BitVec 24) (s : State) : Host.Outcome State Fault Refusal :=
  mScalar s (.mOrImm d a imm) d fun p => p.mreg a ||| mImm imm

def execMXorImm (d a : BitVec 5) (imm : BitVec 24) (s : State) : Host.Outcome State Fault Refusal :=
  mScalar s (.mXorImm d a imm) d fun p => p.mreg a ^^^ mImm imm

def execMShlImm (d a : BitVec 5) (imm : BitVec 24) (s : State) : Host.Outcome State Fault Refusal :=
  mScalar s (.mShlImm d a imm) d fun p => mShlOf (p.mreg a) (mImm imm)

def execMShrImm (d a : BitVec 5) (imm : BitVec 24) (s : State) : Host.Outcome State Fault Refusal :=
  mScalar s (.mShrImm d a imm) d fun p => mShrOf (p.mreg a) (mImm imm)

def execMCmpImm (cc : Cond) (nat : Bool) (d a : BitVec 5) (imm : BitVec 24) (s : State) :
    Host.Outcome State Fault Refusal :=
  mScalar s (.mCmpImm cc nat d a imm) d fun p => mCmpOf cc nat (p.mreg a) (mImm imm)

def execLi (d : BitVec 5) (imm : Word) (s : State) : Host.Outcome State Fault Refusal :=
  mScalar s (.li d imm) d fun _ => imm.signExtend 64

def execLiLit (d : BitVec 5) (imm : DWord) (s : State) : Host.Outcome State Fault Refusal :=
  mScalar s (.liLit d imm) d fun _ => imm

/-! ## Branches (R236) -/

/-- R70. -/
def mTarget (p : Program) (off : BitVec 24) : DWord := p.pc + off.signExtend 64 * 8

def execMBr (off : BitVec 24) (s : State) : Host.Outcome State Fault Refusal :=
  mordant s fun u p => mGoto s u p (mTarget p off)

def execMBrc (z : Bool) (c : BitVec 5) (off : BitVec 24) (s : State) : Host.Outcome State Fault Refusal :=
  mordant s fun u p =>
    if (if z then p.mreg c == 0 else p.mreg c != 0) then mGoto s u p (mTarget p off) else mNext s u p (.mBrc z c off)

def execLoop (c : BitVec 5) (off : BitVec 24) (s : State) : Host.Outcome State Fault Refusal :=
  mordant s fun u p =>
    let v := p.mreg c - 1
    let q := p.setM c v
    if v ≠ 0 then mGoto s u q (mTarget p off) else mNext s u q (.loop c off)

/-! ## Scalar memory access (R237) and descriptors (R241, R242) -/

/-- The value of loaded bytes, extended to 64 bits. -/
def mExtend (bs : List Byte) (sx : Bool) : DWord := BitVec.ofInt 64 (intOf sx (8 * bs.length) (leNat bs))

def execLdx (w : Width) (sx : Bool) (d base : BitVec 5) (imm : BitVec 24) (s : State) : Host.Outcome State Fault Refusal :=
  mordant s fun u p =>
    let ea := effAddr (p.mreg base) imm
    if ea.toNat % widthBytes w ≠ 0 then mFault s u .align ea.toNat
    else (mLoad s u p ea.toNat (widthBytes w) 0).run fun s bs => mNext s u (p.setM d (mExtend bs sx)) (.ldx w sx d base imm)

/-- Writes that complete with their instruction: they are performed with the older ones to the same bytes; those to peers
are waited for. -/
def mCommitNow (s : State) (u : Nat) (p : Program) (ws : List MWrite) : State :=
  let s := mCommit s u p ws
  flushOwn s u fun r => ws.any fun w => w.meets r

def MWrite.peer : MWrite → Bool
  | .at _ _ (.peer _ _) _ => true
  | .at _ _ _ _ | .gen _ _ _ _ | .drop _ => false

/-- `stx`; one to a peer stays at its instruction until the answer has come (R239). -/
def execStx (w : Width) (v base : BitVec 5) (imm : BitVec 24) (s : State) : Host.Outcome State Fault Refusal :=
  mordant s fun u p =>
    let ea := effAddr (p.mreg base) imm
    let n := widthBytes w
    if ea.toNat % n ≠ 0 then mFault s u .align ea.toNat
    else
      (mPlan s u p ea.toNat (leBytes n (p.mreg v).toNat) (decide (w = .w32))).run fun s ws =>
        let s := mCommitNow s u p ws
        if ws.any MWrite.peer then s.updProgram u fun p => { p with posted := n }
        else mNext s u (p.count n 1) (.stx w v base imm)

def execTdld (d : BitVec 3) (base : BitVec 5) (imm : BitVec 24) (s : State) : Host.Outcome State Fault Refusal :=
  mordant s fun u p =>
    let ea := effAddr (p.mreg base) imm
    if ea.toNat % 32 ≠ 0 then mFault s u .align ea.toNat
    else (mLoad s u p ea.toNat 288 0).run fun s bs => mNext s u (p.setDesc d bs) (.tdld d base imm)

/-- Offset and length of a descriptor field (R223). -/
def fieldPlace (f : DescField) (k : Nat) : Nat × Nat :=
  match f with
  | .base => (0, 8)
  | .ebase => (8, 8)
  | .hdr => (16, 4)
  | .ext => (32 + 16 * k, 4)
  | .str => (40 + 16 * k, 6)
  | .off => (36 + 16 * k, 4)

/-- The values that a field takes (R242). -/
def fieldTakes (f : DescField) (v : DWord) : Bool :=
  match f with
  | .base | .ebase => true
  | .hdr | .ext => v.toNat / 2 ^ 32 == 0
  | .str => v == (BitVec.ofNat 48 v.toNat).signExtend 64
  | .off => v == (BitVec.ofNat 32 v.toNat).signExtend 64

/-- Replace bytes of a list. -/
def spliceBytes (bs : List Byte) (off : Nat) (new : List Byte) : List Byte :=
  bs.take off ++ new ++ bs.drop (off + new.length)

/-- `tdset` with its value. -/
def setField (s : State) (u : Nat) (p : Program) (i : Instr) (f : DescField) (k : Nat) (d : BitVec 3) (v : DWord) : State :=
  if fieldTakes f v then
    let pl := fieldPlace f k
    mNext s u (p.setDesc d (spliceBytes (p.desc d) pl.1 (leBytes pl.2 v.toNat))) i
  else mFault s u .desc 0

def execTdset (f : DescField) (k : BitVec 4) (d : BitVec 3) (a : BitVec 5) (s : State) : Host.Outcome State Fault Refusal :=
  mordant s fun u p => setField s u p (.tdset f k d a) f k.toNat d (p.mreg a)

def execTdsetLit (f : DescField) (k : BitVec 4) (d : BitVec 3) (v : DWord) (s : State) :
    Host.Outcome State Fault Refusal :=
  mordant s fun u p => setField s u p (.tdsetLit f k d v) f k.toNat d v

/-! ## Counted barriers, fences, fills (R249 to R253) -/

/-- CORE of a barrier instruction. -/
def selCore (s : State) (p : Program) (c : CoreSel) : Nat :=
  let home := homeCore s p
  match c with
  | .home => home
  | .c0 => coreNamed p home 4
  | .c1 => coreNamed p home 5
  | .c2 => coreNamed p home 6
  | .c3 => coreNamed p home 7

/-- Every earlier write performed: the local ones now; peers are waited for. -/
def afterWrites (s : State) (u : Nat) (k : State → State) : State :=
  let s := flushAll s u
  if peersPending s u then s else k s

/-- An arrival (R198) at a barrier of a core with the generation that the program knows (R195). -/
def mArrive (s : State) (p : Program) (core off n : Nat) : State :=
  match memberOn s p core, genKnown p core with
  | some (t, m), some g => if m.gen = g then arriveAt s t off n else countDrop s core (programFn s p)
  | _, _ => countDrop s core (programFn s p)

/-- Whether a barrier offset lies beyond a live allocation that the program knows. -/
def barrierBeyond (s : State) (p : Program) (core off : Nat) : Bool :=
  match memberOn s p core with
  | some (_, m) => genKnown p core == some m.gen && decide (m.scrSize < off + 16)
  | none => false

/-- `cbarr` of a program: ADDR of its faults is the offset (DESIGN CHOICE, log 117). -/
def execMCbarr (k : ArrKind) (c : CoreSel) (a b : BitVec 5) (s : State) : Host.Outcome State Fault Refusal :=
  mordant s fun u p =>
    let off := (p.mreg a).toNat
    let core := selCore s p c
    if p.system.isSome then mFault s u .perm 0
    else if off % 16 ≠ 0 then mFault s u .align off
    else if barrierBeyond s p core off then mFault s u .scratch off
    else
      let n := match k with
        | .cnt => (p.mreg b).toNat % 2 ^ 32
        | .bytes => p.bcnt.toNat % 2 ^ 32
        | .items => p.icnt.toNat % 2 ^ 32
      afterWrites s u fun s => mNext (mArrive s p core off n) u { p with bcnt := 0, icnt := 0 } (.mCbarr k c a b)

/-- Hold a program until PH of the barrier at an offset on a core differs from a bit (R250). -/
def mHold (s : State) (u : Nat) (p : Program) (core off : Nat) (ph : Bool) : State :=
  s.updProgram u fun q => { q with wait := true, barrier := (memberOn s p core).map fun x => (x.1, off, ph) }

/-- A program that its barrier has released goes on; any other reads PH. ADDR of its faults is the offset (DESIGN CHOICE, log
117). -/
def execMCbwait (c : CoreSel) (a b : BitVec 5) (s : State) : Host.Outcome State Fault Refusal :=
  mordant s fun u p =>
    let off := (p.mreg a).toNat
    let core := selCore s p c
    if p.passed then mNext s u p (.mCbwait c a b)
    else if p.system.isSome then mFault s u .perm 0
    else if off % 16 ≠ 0 then mFault s u .align off
    else
      (mScrLoad s u p core off 16).run fun s bs =>
        if sliceNat bs 8 1 % 2 ≠ (p.mreg b).toNat % 2 then mNext s u p (.mCbwait c a b)
        else mHold s u p core off ((p.mreg b).getLsbD 0)

/-- `regfill`; one whose register stands in a phase record stays at its instruction while the record stalls (R171, R252). -/
def execRegfill (a b c : BitVec 5) (s : State) : Host.Outcome State Fault Refusal :=
  mordant s fun u p =>
    if p.system.isSome then mFault s u .perm 0
    else
      let s := offerFill s p.team ((p.mreg a).toNat % 1024) ((p.mreg b).toNat % 1024) (lowWord (p.mreg c))
        (.programOrWindow p.seq)
      if fillStands s p.team (.programOrWindow p.seq) then s.updProgram u fun p => { p with filling := true }
      else mNext s u (p.count 4 1) (.regfill a b c)

def execMfence (s : State) : Host.Outcome State Fault Refusal :=
  mordant s fun u p => afterWrites s u fun s => mNext s u p .mfence

/-! ## Ends (R255) and the harvest (R259) -/

def execMdone (a : BitVec 5) (s : State) : Host.Outcome State Fault Refusal :=
  mordant s fun u p => endProgram (retireProgram s p) u ⟨1, 0, (p.mreg a).toNat % 2 ^ 32, 0⟩

def execMexit (s : State) : Host.Outcome State Fault Refusal :=
  mordant s fun u p => endProgram (retireProgram s p) u ⟨0, 0, 0, 0⟩

/-- The dirty bits of 64 granules. -/
def dirtyBits (s : State) (g : Nat) : Nat :=
  (List.range 64).foldl (fun n i => if FMap.get false s.dirty (g + i) then n + 2 ^ i else n) 0

/-- `dharv`: privileged, on a system engine alone. ADDR of its faults on a granule is its number (DESIGN CHOICE, log 117). -/
def execDharv (d a : BitVec 5) (s : State) : Host.Outcome State Fault Refusal :=
  mordant s fun u p =>
    let g := (p.mreg a).toNat
    if p.system.isNone then mFault s u .perm 0
    else if g % 64 ≠ 0 then mFault s u .align g
    else if !(isHbm (g * 4096) && isHbm ((g + 63) * 4096)) then mFault s u .perm g
    else
      let v : DWord := BitVec.ofNat 64 (dirtyBits s g)
      mNext { s with dirty := dropKeys s.dirty g (g + 64) } u (p.setM d v) (.dharv d a)

/-! ## Starting, ending and reading programs (R218, R285 to R287) -/

/-- The programs on the engines of a cluster. -/
def engineBusy (s : State) (k e : Nat) : Bool :=
  s.programs.any fun p => p.2.cluster == k && p.2.system.isNone && p.2.engine == some e

def freeEngine (s : State) (k : Nat) : Option Nat := (List.range 4).find? fun e => !engineBusy s k e

/-- What a program waits for of its starter (R219): stores, of every kind, and atomics. -/
def Act.orders : Act → Bool
  | .buffer _ _ | .store _ _ | .atomic _ _ _ _ _ | .cas _ _ _ _ _ | .genWrite _ _ _ _ _ | .arrive _ _ _ => true
  | _ => false

/-- Stores of a thread stand in the phase store buffer, or wait to enter it. -/
def holdsBuffered (s : State) (m : Team) (t : Thread) : Bool :=
  m.buffers && (((s.core t.core).psb.any fun e => e.team == t.team && e.tixs.contains t.tix) ||
    s.reqs.any fun p => ownReq t.team t.tix p.2 && !p.2.complete && (match p.2.act with | .buffer _ _ => true | _ => false))

/-- A program at its entry (R217). -/
def newProgram (team cluster : Nat) (engine : Option Nat) (tix : Nat) (entry : DWord) (seq : BitVec 48) (args : List DWord)
    (pri now : Nat) (req : Option Nat) (gens : List (Nat × BitVec 8)) : Program :=
  let m := (List.range args.length).foldl (fun m i => FMap.set 0 m (i + 1) (args.getD i 0))
    (FMap.set 0 [] 0 (BitVec.ofNat 64 seq.toNat))
  { team := team, cluster := cluster, engine := engine, system := none, starter := tix, pc := entry, m := m, d := [],
    seq := seq, prog := 0, bcnt := 0, icnt := 0, btot := 0, mflags := 0, wait := false, barrier := none, passed := false,
    index := none, stalled := none, pri := pri, since := now, req := req, buffered := false, gens := gens, posted := 0,
    filling := false, ending := none, recorded := false }

/-- The handle of a sequence number. -/
def handleOf (seq : BitVec 48) : Word := BitVec.ofNat 32 (2 ^ 31 + seq.toNat % 2 ^ 28)

/-- Start or queue a program of a thread; it counts in class md and waits for the thread's older stores and atomics, those in
the phase store buffer until it is drained. -/
def startProgram (s : State) (m : Team) (t : Thread) (engine : Option Nat) (entry : DWord) (args : List DWord) :
    BitVec 48 × State :=
  let k := clusterOf t.core
  let d := s.die (dieOf t.core)
  let seq := d.mdSeq
  let s := s.setDie (dieOf t.core) { d with mdSeq := seq + 1 }
  let (u, s) := s.fresh
  let older := (s.reqs.filter fun p => ownReq t.team t.tix p.2 && p.2.act.orders && !p.2.performed && !p.2.complete).map (·.1)
  let (r, s) := addReq s { t.req s.now (some .md) (.mdRun u) with after := older }
  let pri := match s.launch? m.launch with | some l => l.ctlPri | none => 0
  let p := { newProgram t.team k engine t.tix entry seq args pri s.now (some r) m.gens with buffered := holdsBuffered s m t }
  let s : State := { s with programs := Tab.put s.programs u p }
  let cl := s.cluster k
  (seq, if engine.isNone then s.setCluster k { cl with queue := cl.queue ++ [u] } else s)

/-- The entry that the queue hands out (R218): one that has waited 65,536 cycles, oldest first; else the highest launch
priority, oldest first. -/
def chooseQueued (s : State) (q : List Nat) : Option Nat :=
  let ps := q.filterMap fun u => (s.program? u).map fun p => (u, p)
  match ps.find? fun p => decide (p.2.since + 65536 ≤ s.now) with
  | some p => some p.1
  | none =>
    let top := (ps.map fun p => p.2.pri).foldl Nat.max 0
    (ps.find? fun p => p.2.pri == top).map (·.1)

/-- A free engine takes an entry of the queue. -/
def dispatchOne (s : State) (cluster : Nat) : State :=
  match freeEngine s cluster, chooseQueued s (s.cluster cluster).queue with
  | some e, some u =>
    let cl := s.cluster cluster
    let s := s.setCluster cluster { cl with queue := cl.queue.filter (· != u) }
    s.updProgram u fun p => { p with engine := some e }
  | _, _ => s

/-- The free engines take entries of the queue, which come before a new program (R218). -/
def dispatchQueued (s : State) (cluster : Nat) : State := (List.range 4).foldl (fun s _ => dispatchOne s cluster) s

def execMdgo (d : Reg) (a b : Src) (s : State) : Host.Outcome State Fault Refusal :=
  let i := Instr.mdgo d a b
  issue s i [src2 a, srcN b 14 2, dst1 d] fun m t =>
    let entry := rp t a
    let k := clusterOf t.core
    let args := (List.range 7).map fun j => t.pair (b.r.toNat + 2 * j)
    afterAcquire s t <|
      if entry.toNat % 8 ≠ 0 then threadFault s t .align { addr := entry.toNat }
      else
        let s := dispatchQueued s k
        match freeEngine s k with
        | some e => withRoom s t .md
          (let r := startProgram s m t (some e) entry args
           finish r.2 (t.write d.toNat (handleOf r.1)) i 0)
        | none =>
          if 16 ≤ (s.cluster k).queue.length then finish s (t.write d.toNat 0) i 0
          else withRoom s t .md
            (let r := startProgram s m t none entry args
             finish r.2 (t.write d.toNat (handleOf r.1)) i 0)

/-- `mdkill`: the program that the handle names ends with STATUS 0x02. -/
def execMdkill (a : Src) (s : State) : Host.Outcome State Fault Refusal :=
  let i := Instr.mdkill a
  issue s i [src1 a] fun _ t =>
    let s := finish s t i 0
    match handleProgram s t.team ((rw t a).toNat % 2 ^ 28) with
    | some (u, _) => killProgram s u
    | none => s

/-- The state word of R287. -/
def stateWord : Option (Nat × Program) → Word
  | none => 0
  | some (_, p) =>
    match p.engine with
    | none => 1
    | some e => BitVec.ofNat 32 ((if p.wait then 3 else 2) + 4 * e)

def execMdstat (d : Reg) (a : Src) (s : State) : Host.Outcome State Fault Refusal :=
  let i := Instr.mdstat d a
  issue s i [src1 a, dst1 d] fun _ t =>
    finish s (t.write d.toNat (stateWord (handleProgram s t.team ((rw t a).toNat % 2 ^ 28)))) i 0

def execMordantDispatch (cluster : Nat) (s : State) : Host.Outcome State Fault Refusal := .next (dispatchOne s cluster)

end Sys2Proof.Machine
end

