-- ==== Sys2Proof/Machine/Tensor.lean ====
section
/-! DEFINITION. Tensor descriptors and tensor movement of the Mordant engines, and the fabric reduction (R223 to R231, R243 to
R248, R258, R264, R408, R409). -/

namespace Sys2Proof.Machine

/-! ## Descriptors (R223 to R228) -/

/-- A checked descriptor; `w` is the mantissa width of a BQ format, 0 for the others. -/
structure Tensor where
  base : Nat
  ebase : Nat
  fmt : Nat
  space : Nat
  core : Nat
  ext : List Nat
  off : List Int
  str : List Int
  w : Nat
  deriving DecidableEq, Repr

/-- Element size of a format (R225); 0 for a reserved one. -/
def fmtSize (f : Nat) : Nat :=
  match f with
  | 1 => 1 | 2 => 2 | 3 => 4 | 4 => 8 | 5 => 2 | 6 => 2 | 7 => 4
  | _ => 0

/-- w of a BQ format. -/
def fmtBq (f : Nat) : Nat := if 0x12 ≤ f ∧ f ≤ 0x18 then f - 0x10 else 0

def product (l : List Nat) : Nat := l.foldl (· * ·) 1

/-- N of a tensor. -/
def Tensor.n (t : Tensor) : Nat := product t.ext

/-- Bytes of an element, or of a block of mantissas. -/
def Tensor.size (t : Tensor) : Nat := if t.w = 0 then fmtSize t.fmt else 4 * t.w

/-- A descriptor as it stands, dimensions below RANK alone. -/
def rawTensor (b : List Byte) : Tensor :=
  let hdr := sliceNat b 16 4
  let r := hdr / 2 ^ 8 % 32
  { base := sliceNat b 0 8, ebase := sliceNat b 8 8, fmt := hdr % 256, space := hdr / 2 ^ 16 % 4, core := hdr / 2 ^ 18 % 8,
    ext := (List.range r).map fun k => sliceNat b (32 + 16 * k) 4,
    off := (List.range r).map fun k => (BitVec.ofNat 32 (sliceNat b (36 + 16 * k) 4)).toInt,
    str := (List.range r).map fun k => (BitVec.ofNat 48 (sliceNat b (40 + 16 * k) 6)).toInt, w := fmtBq (hdr % 256) }

/-- Reserved fields of a descriptor of rank `r` are zero. -/
def descReserved (b : List Byte) (r : Nat) : Bool :=
  let hdr := sliceNat b 16 4
  hdr / 2 ^ 13 % 8 == 0 && hdr / 2 ^ 21 == 0 && allZero ((b.drop 20).take 12) &&
    (List.range 16).all fun k =>
      if k < r then sliceNat b (46 + 16 * k) 2 == 0 else allZero ((b.drop (32 + 16 * k)).take 16)

/-- The rule of a BQ format. -/
def bqDescOk (t : Tensor) : Bool :=
  t.space == 0 && t.str.getLastD 0 == 0 && t.off.getLastD 0 % 32 == 0 && t.str.dropLast.all fun s => s % (4 * t.w : Nat) == 0

/-- The check of R226. -/
def readTensor (b : List Byte) : Option Tensor :=
  let t := rawTensor b
  let r := t.ext.length
  if 1 ≤ r ∧ r ≤ 16 ∧ (fmtSize t.fmt ≠ 0 ∨ t.w ≠ 0) ∧ t.space ≤ 1 ∧ (t.core = 0 ∨ (t.space = 1 ∧ 4 ≤ t.core)) ∧
      descReserved b r ∧ (t.ebase = 0 ∨ t.w ≠ 0) ∧ t.n < 2 ^ 48 ∧ (t.w = 0 ∨ bqDescOk t) then some t
  else none

/-- The indices of element `e`, the last dimension fastest. -/
def indicesOf (e : Nat) : List Nat → List Nat
  | [] => []
  | x :: xs => (e / product xs % x) :: indicesOf (e % product xs) xs

/-- The sum of R227 over some dimensions. -/
def addrSum : List Nat → List Int → List Int → Int
  | i :: is, o :: os, s :: ss => (o + i) * s + addrSum is os ss
  | _, _, _ => 0

/-- The address or offset of element `e` of a non-BQ tensor. -/
def Tensor.elemAddr (t : Tensor) (e : Nat) : Int := (t.base : Int) + addrSum (indicesOf e t.ext) t.off t.str

/-- The block of element `e` of a BQ tensor: address of its mantissas, of its exponent, and the element's bit position. -/
def Tensor.block (t : Tensor) (e : Nat) : Nat × Nat × Nat :=
  let is := indicesOf e t.ext
  let o := addrSum is.dropLast t.off.dropLast t.str.dropLast
  let j : Int := t.off.getLastD 0 + (is.getLastD 0 : Nat)
  let rel : Int := o + j / 32 * (4 * t.w : Nat)
  ((BitVec.ofInt 64 ((t.base : Int) + rel)).toNat, (BitVec.ofInt 64 ((t.ebase : Int) + rel / (4 * t.w : Nat))).toNat,
    (j % 32).toNat * t.w)

/-- Elements from `e` to the end of its block in its row. -/
def Tensor.left (t : Tensor) (e : Nat) : Nat :=
  let x := t.ext.getLastD 1
  let i := e % x
  Nat.min ((i / 32 + 1) * 32) x - i

/-! ## Elements (R229, R244) and the translations prefetched for them (R247, R352) -/

/-- The address from which a walk of stride `st` through `a` leaves the 64 KiB page of `a`. -/
def nextAlong (st : Int) (a : Nat) : Option DWord :=
  let o := a % 65536
  let k := st.natAbs
  if k = 0 then none
  else if 0 < st then some (BitVec.ofNat 64 (a + (65535 - o + k) / k * k))
  else some (BitVec.ofInt 64 ((a : Int) - ((o / k + 1) * k : Nat)))

/-- Prefetch the next translation along dimension RANK − 1 (DESIGN CHOICE, log 102): a walk joins those of the die, unless the
cluster's TLB holds the page or a walk of it is there. -/
def prefetch (s : State) (p : Program) (st : Int) (a : Nat) : State :=
  match p.system, (nextAlong st a).filter canonical with
  | none, some va =>
    let fn := programFn s p
    let page := va.toNat / 65536 * 65536
    let d := s.die p.die
    if ((s.cluster p.cluster).mtlb.any fun e => e.covers fn page) || d.walks.contains (p.cluster, fn, page) then s
    else s.setDie p.die { d with walks := d.walks ++ [(p.cluster, fn, page)] }
  | _, _ => s

/-- Bytes from one element, or block of mantissas, to the next along dimension RANK − 1. -/
def Tensor.step (t : Tensor) : Int := if t.w = 0 then t.str.getLastD 0 else (t.size : Nat)

def sizeFault (s : State) (u : Nat) (a : Int) : State := mFault s u .align (BitVec.ofInt 64 a).toNat

/-- A program may read a range, in one 64 KiB page. -/
def rangeReadable (s : State) (p : Program) (va n : Nat) : Bool :=
  decide (va % 65536 + n ≤ 65536) && (p.system.isSome ||
    match (s.team? p.team).bind fun m => s.launch? m.launch with
    | some l => ((l.leaseOf va n).map fun e => leaseAllows e .r).getD false
    | none => false)

/-- Bytes that stand behind element `e` at `va` and that the instruction reads next, `more` elements at most: those of its row,
where they are consecutive and in its page. -/
def aheadOf (s : State) (p : Program) (t : Tensor) (e va more : Nat) : Nat :=
  if t.step ≠ (t.size : Nat) then 0
  else
    let x := t.ext.getLastD 1
    let n := Nat.min (Nat.min more (x - e % x - 1)) ((65536 - va % 65536) / t.size - 1)
    if rangeReadable s p va ((n + 1) * t.size) then n * t.size else 0

/-- Read element `e` of a tensor that is not BQ, at its address or offset; `more` elements are read next. -/
def readAt (s : State) (u : Nat) (p : Program) (t : Tensor) (a : Int) (e more : Nat) : MR (List Byte) :=
  let va := (BitVec.ofInt 64 a).toNat
  if t.space = 1 then mScrLoad s u p (coreNamed p (homeCore s p) t.core) a t.size
  else (mLoad s u p va t.size (aheadOf s p t e va more)).bind fun s bs => .ok (prefetch s p t.step va) bs

/-- Check a write to a tensor's space. -/
def planAt (s : State) (u : Nat) (p : Program) (t : Tensor) (a : Int) (bs : List Byte) : MR (List MWrite) :=
  if t.space = 1 then mScrPlan s u p (coreNamed p (homeCore s p) t.core) a bs
  else (mPlan s u p (BitVec.ofInt 64 a).toNat bs false).bind fun s ws => .ok (prefetch s p t.step (BitVec.ofInt 64 a).toNat) ws

/-- Blocks of its row that follow the block of element `e` and hold some of the `more` elements read after it. -/
def Tensor.blocksAhead (t : Tensor) (e more : Nat) : Nat :=
  let x := t.ext.getLastD 1
  Nat.min (e % x + more) (x - 1) / 32 - e % x / 32

/-- Bytes of a plane behind a block at `a`, the blocks `st` bytes apart, of which `k` are read next: those in its page. -/
def planeAhead (s : State) (p : Program) (st a k : Nat) : Nat :=
  let n := Nat.min k ((65536 - a % 65536) / st - 1)
  if rangeReadable s p a ((n + 1) * st) then n * st else 0

/-- Read a block of a plane of a BQ tensor, whose blocks lie `st` bytes apart; `k` blocks are read next. -/
def readPlane (s : State) (u : Nat) (p : Program) (st a k : Nat) : MR (List Byte) :=
  (mLoad s u p a st (planeAhead s p st a k)).bind fun s bs => .ok (prefetch s p st a) bs

/-- Check a write to a plane of a BQ tensor. -/
def planPlane (s : State) (u : Nat) (p : Program) (st a : Nat) (bs : List Byte) : MR (List MWrite) :=
  (mPlan s u p a bs false).bind fun s ws => .ok (prefetch s p st a) ws

/-- Element `e`: its bits, or its mantissa, and the exponent of its block. `planes` says what of a BQ block is read:
1 the mantissas, 2 the exponent, 3 both; `more` elements are read after it. -/
def readElem (s : State) (u : Nat) (p : Program) (t : Tensor) (e planes more : Nat) : MR (Nat × Nat) :=
  if t.w = 0 then
    let a := t.elemAddr e
    if a % (t.size : Nat) ≠ 0 then .stop (sizeFault s u a)
    else (readAt s u p t a e more).bind fun s bs => .ok s (leNat bs, 0)
  else
    let b := t.block e
    let k := t.blocksAhead e more
    (if planes % 2 = 1 then readPlane s u p (4 * t.w) b.1 k else .ok s []).bind fun s bs =>
      (if 2 ≤ planes then readPlane s u p 1 b.2.1 k else .ok s []).bind fun s ex =>
        .ok s (leNat bs / 2 ^ b.2.2 % 2 ^ t.w, leNat ex)

/-- Elements `e` to `e + n − 1`; `more` are read after them. -/
def readElems (u : Nat) (p : Program) (t : Tensor) (planes more : Nat) :
    Nat → Nat → State → List (Nat × Nat) → MR (List (Nat × Nat))
  | 0, _, s, acc => .ok s acc
  | n + 1, e, s, acc =>
    (readElem s u p t e planes (n + more)).bind fun s x => readElems u p t planes more n (e + 1) s (acc ++ [x])

/-! ## Conversion (R230) -/

/-- The floating-point type of a format. -/
def fmtTy (f : Nat) : Option Ty := if f = 5 then some .f16 else if f = 6 then some .bf16 else if f = 7 then some .f32 else none

def pairAllowed (a d : Tensor) : Bool :=
  a.fmt == d.fmt || ((fmtTy a.fmt).isSome && (fmtTy d.fmt).isSome) || (a.fmt == 7 && d.w != 0) || (a.w != 0 && d.fmt == 7)

/-- One element to a non-BQ format. -/
def convertElem (a d : Tensor) (v ex : Nat) : Nat × FFlags :=
  if a.w ≠ 0 then bqDecode v ex a.w
  else if a.fmt = d.fmt then (v, 0)
  else
    match fmtTy a.fmt, fmtTy d.fmt with
    | some x, some y => let r := cvtOf y x .rne false (BitVec.ofNat 64 v); (r.1.toNat, r.2)
    | _, _ => (v, 0)

/-- The mantissas, the exponent and the flags of a block of a BQ destination. -/
def encodeBlock (a : Tensor) (w : Nat) (xs : List (Nat × Nat)) : List Nat × Nat × FFlags :=
  let ex0 := (xs.headD (0, 0)).2
  if a.w ≠ 0 ∧ xs.all fun x => x.2 == ex0 then (xs.map (·.1), ex0, 0)
  else
    let vs := xs.map fun x => if a.w ≠ 0 then bqDecode x.1 x.2 a.w else (x.1, 0)
    let ex := bqmaxOf (vs.map fun v => BitVec.ofNat 32 v.1)
    let ms := vs.map fun v => bqEncode v.1 ex w
    (ms.map (·.1), ex, (vs ++ ms).foldl (fun f v => f ||| v.2) 0)

/-- Mantissas packed from a bit position on. -/
def packBlock (pos w : Nat) (ms : List Nat) : Nat :=
  (List.range ms.length).foldl (fun n i => n + ms.getD i 0 * 2 ^ (pos + i * w)) 0

/-! ## One run of elements -/

/-- Where element `e` of a tensor stands in memory; of a BQ tensor, the mantissas and the exponent of its block. -/
def Tensor.placeOf (t : Tensor) (e : Nat) : List Nat :=
  if t.space ≠ 0 then []
  else if t.w = 0 then [(BitVec.ofInt 64 (t.elemAddr e)).toNat]
  else [(t.block e).1, (t.block e).2.1]

/-- The program after `n` elements more, of `bytes` bytes performed; every 4 KiB retires (R222). `next` is where the next elements
that it reads stand. -/
def mAdvance (s : State) (u : Nat) (p : Program) (n bytes items : Nat) (fl : FFlags) (next : List Nat) : State :=
  let q := { (p.count bytes items) with prog := BitVec.ofNat 48 (p.prog.toNat + n), mflags := p.mflags ||| fl, wait := false }
  let s := keepProgram s u q next
  if p.btot.toNat / 4096 = q.btot.toNat / 4096 then s else retireProgram s p

/-- Move `n` elements from `e` of A to `f` of D: one element, or what a destination block takes; `more` follow. -/
def moveRun (s : State) (u : Nat) (p : Program) (a d : Tensor) (e f n more : Nat) : State :=
  (readElems u p a 3 more n e s []).run fun s xs =>
    if d.w = 0 then
      let r := convertElem a d (xs.headD (0, 0)).1 (xs.headD (0, 0)).2
      let t := d.elemAddr f
      if t % (d.size : Nat) ≠ 0 then sizeFault s u t
      else (planAt s u p d t (leBytes d.size r.1)).run fun s ws => mAdvance (mCommit s u p ws) u p 1 d.size 1 r.2 (a.placeOf (e + 1))
    else
      let b := d.block f
      let r := encodeBlock a d.w xs
      (planPlane s u p (4 * d.w) b.1 (leBytes (4 * d.w) (packBlock b.2.2 d.w r.1))).run fun s ws =>
        (planPlane s u p 1 b.2.1 (leBytes 1 r.2.1)).run fun s vs =>
          mAdvance (mCommit s u p (ws ++ vs)) u p n (4 * d.w + 1) n r.2.2 (a.placeOf (e + n))

/-- Go on element by element for `k` elements, as long as each is performed. -/
def moveEach (u : Nat) (a d : Tensor) : Nat → Nat → Nat → State → State
  | 0, _, _, s => s
  | k + 1, e, f, s =>
    match s.program? u with
    | none => s
    | some p =>
      let t := moveRun s u p a d e f 1 k
      if ((t.program? u).map (·.prog)) = some (p.prog + 1) then moveEach u a d k (e + 1) (f + 1) t else t

/-- One run within `room` elements of the slice: one element, or what a block of either side takes (R221, R228). -/
def moveBlock (s : State) (u : Nat) (p : Program) (a d : Tensor) (e f room : Nat) : State :=
  let n := if d.w ≠ 0 then Nat.min room (d.left f) else if a.w ≠ 0 then Nat.min room (a.left e) else 1
  if d.w = 0 ∧ a.w ≠ 0 then moveEach u a d n e f s else moveRun s u p a d e f n (room - n)

/-- What a run of elements leaves: the instruction ends, and PROG is cleared, with the last (R243). -/
def endMove (s : State) (u : Nat) (p : Program) (i : Instr) (n : Nat) : State :=
  match s.program? u with
  | some q => if q.pc = p.pc ∧ n ≤ q.prog.toNat then mNext s u q i else s
  | none => s

/-- A tensor instruction of `n` elements: the run `k`, or, where nothing is left, its end. -/
def stepMove (s : State) (u : Nat) (p : Program) (i : Instr) (n : Nat) (k : State) : State :=
  if n ≤ p.prog.toNat then mNext s u p i else endMove k u p i n

/-! ## Movement (R243 to R246) -/

/-- A system program has no scratchpad: its scratchpad descriptors fault (R377). -/
def barred (p : Program) (ts : List Tensor) : Bool := p.system.isSome && ts.any fun t => t.space == 1

def execTcopy (d a : BitVec 3) (s : State) : Host.Outcome State Fault Refusal :=
  mordant s fun u p =>
    match readTensor (p.desc a), readTensor (p.desc d) with
    | some ta, some td =>
      if barred p [ta, td] then mFault s u .perm 0
      else if !pairAllowed ta td then mFault s u .conv 0
      else if ta.n ≠ td.n then mFault s u .shape 0
      else
        let e := p.prog.toNat
        stepMove s u p (.tcopy d a) ta.n (moveBlock s u p ta td e e (ta.n - e))
    | _, _ => mFault s u .desc 0

/-- The checks of `tgather` and `tscatter`: A, D, the index tensor, and the elements of a slice. -/
def sliceCheck (p : Program) (d a b : BitVec 3) (gather : Bool) : Except MSub (Tensor × Tensor × Tensor × Nat) :=
  match readTensor (p.desc a), readTensor (p.desc d), readTensor (p.desc b) with
  | some ta, some td, some tb =>
    if barred p [ta, td, tb] then .error .perm
    else if (tb.fmt ≠ 3 ∧ tb.fmt ≠ 4) ∨ tb.ext.length ≠ 1 then .error .desc
    else if !pairAllowed ta td then .error .conv
    else
      let fixed := if gather then td else ta
      let k := product (ta.ext.drop 1)
      if fixed.ext.headD 0 ≠ tb.ext.headD 0 ∨ k ≠ product (td.ext.drop 1) then .error .shape
      else .ok (ta, td, tb, k)
  | _, _, _ => .error .desc

/-- The index x[j], below the extent `lim`; ADDR of an INDEX fault is that of the element (DESIGN CHOICE, log 118). -/
def readIndex (s : State) (u : Nat) (p : Program) (b : Tensor) (j lim : Nat) : MR Nat :=
  (readElem s u p b j 3 0).bind fun s x =>
    if x.1 < lim then .ok s x.1 else .stop (mFault s u .index (BitVec.ofInt 64 (b.elemAddr j)).toNat)

/-- The index of slice j: that read when the program came to the slice (DESIGN CHOICE, log 103), or x[j] read now. -/
def indexOf (s : State) (u : Nat) (p : Program) (b : Tensor) (j lim : Nat) : MR Nat :=
  match p.index with
  | some (i, x) => if i = j then .ok s x else readIndex s u p b j lim
  | none => readIndex s u p b j lim

/-- Slices of no elements: the index of each is read and checked in turn. -/
def emptySlices (s : State) (u : Nat) (p : Program) (i : Instr) (b : Tensor) (lim : Nat) : State :=
  let j := match p.index with | some (j, _) => j + 1 | none => 0
  if b.n ≤ j then mNext s u p i
  else (readIndex s u p b j lim).run fun s x => keepProgram s u { p with index := some (j, x), wait := false } []

/-- One run of a gather or scatter. -/
def stepSlices (s : State) (u : Nat) (p : Program) (i : Instr) (d a b : BitVec 3) (gather : Bool) : State :=
  match sliceCheck p d a b gather with
  | .error e => mFault s u e 0
  | .ok (ta, td, tb, k) =>
    let n := (if gather then td else ta).n
    let e := p.prog.toNat
    let lim := (if gather then ta else td).ext.headD 0
    if k = 0 then emptySlices s u p i tb lim
    else
      stepMove s u p i n
        ((indexOf s u p tb (e / k) lim).run fun s x =>
          let p := { p with index := some (e / k, x) }
          let s := s.updProgram u fun q => { q with index := p.index }
          let far := x * k + e % k
          let f := if gather then e else far
          moveBlock s u p ta td (if gather then far else e) f (k - e % k))

def execTgather (d a b : BitVec 3) (s : State) : Host.Outcome State Fault Refusal :=
  mordant s fun u p => stepSlices s u p (.tgather d a b) d a b true

def execTscatter (d a b : BitVec 3) (s : State) : Host.Outcome State Fault Refusal :=
  mordant s fun u p => stepSlices s u p (.tscatter d a b) d a b false

/-- Append to a stream of a team, where it has room for the bytes. -/
def appendStream (m : Team) (k : Nat) (bs : List Byte) : Option Team :=
  let st := m.streams.getD k []
  if st.length + bs.length ≤ 65536 then some { m with streams := m.streams.set k (st ++ bs) } else none

/-- `qput` appends one element, one block of mantissas or one exponent; without room the program is held. -/
def putRun (s : State) (u : Nat) (p : Program) (t : Tensor) (k : Nat) (e : Bool) : State :=
  let x := p.prog.toNat
  let n := if t.w = 0 then 1 else t.left x
  (readElems u p t (if e then 2 else 1) (t.n - x - n) n x s []).run fun s xs =>
    let bs :=
      if t.w = 0 then leBytes t.size (xs.headD (0, 0)).1
      else if e then leBytes 1 (xs.headD (0, 0)).2
      else leBytes (4 * t.w) (packBlock (t.block x).2.2 t.w (xs.map (·.1)))
    match (s.team? p.team).bind fun m => appendStream m k bs with
    | none => mWait s u
    | some m => mAdvance (s.setTeam p.team m) u p n bs.length (if e then 1 else n) 0 (t.placeOf (x + n))

def execQput (e : Bool) (k : BitVec 4) (a : BitVec 3) (s : State) : Host.Outcome State Fault Refusal :=
  mordant s fun u p =>
    match readTensor (p.desc a) with
    | none => mFault s u .desc 0
    | some t =>
      if e && t.w == 0 then mFault s u .desc 0
      else if p.system.isSome || decide ((((s.team? p.team).map fun m => m.streams.length).getD 0) ≤ k.toNat) then mFault s u .perm 0
      else stepMove s u p (.qput e k a) t.n (putRun s u p t k.toNat e)

/-! ## Fabric reduction (R258, R408, R409) -/

/-- The members of a group whose V is set: VDN, package and function, in ascending VDN. -/
def groupMembers (s : State) (g : Nat) : List (Nat × Nat × Nat) :=
  let es := ((Tab.find s.fab.mcGroups g).getD []).filter fun e => e / 2 ^ 31 % 2 == 1
  let ms := es.map fun e => (e % 2 ^ 16, e / 2 ^ 16 % 64, e / 2 ^ 22 % 64)
  ms.foldl (fun l x => (l.takeWhile fun y => decide (y.1 ≤ x.1)) ++ [x] ++ (l.dropWhile fun y => decide (y.1 ≤ x.1))) []

/-- The format of the elements of a type. -/
def fxFmt : FxTy → Nat
  | .f32 => 7
  | .bf16 => 6
  | .s32 => 3

/-- The floating-point format of a type. -/
def fxFloat : FxTy → Option Fmt
  | .f32 => some fp32
  | .bf16 => some bf16
  | .s32 => none

/-- One term of a reduction: rounded to nearest even, or wrapping. -/
def fxCombine (op : FxOp) (ty : FxTy) (x y : Nat) : Nat :=
  match fxFloat ty with
  | none =>
    let a := BitVec.ofNat 32 x
    let b := BitVec.ofNat 32 y
    match op with
    | .add => (a + b).toNat
    | .min => (minOf .s32 a b).toNat
    | .max => (maxOf .s32 a b).toNat
  | some f =>
    match op with
    | .add => (addVals f .rne false (unpack f x) (unpack f y)).1
    | .min => (minMax f false false x y).1
    | .max => (minMax f false true x y).1

/-- The first term: a NaN is the canonical one, as in every result (R54). -/
def fxFirst (ty : FxTy) (x : Nat) : Nat :=
  match fxFloat ty with
  | none => x
  | some f => if (unpack f x).isNan then f.nanBits else x

/-- The elements of every member combined, in order. -/
def reduceAll (op : FxOp) (ty : FxTy) : List (List Nat) → List Nat
  | [] => []
  | es :: rest =>
    rest.foldl (fun r es => (List.range r.length).map fun i => fxCombine op ty (r.getD i 0) (es.getD i 0)) (es.map (fxFirst ty))

/-- Local contributions to a group and epoch. -/
def contributions (s : State) (g e : Nat) : List Fxr := s.fab.fxrs.filter fun x => x.group == g && x.epoch == e

/-- What other packages have sent for a group and epoch. -/
def piecesOf (s : State) (g e : Nat) : List FxPiece := s.fab.pieces.filter fun x => x.group == g && x.epoch == e

/-- The participants: the members when the reduction started, with the first contribution from here or from another package, and
the group's now where it has not (R409). -/
def fxMembers (s : State) (g e : Nat) : List (Nat × Nat × Nat) :=
  match contributions s g e, piecesOf s g e with
  | x :: _, _ => x.members
  | [], y :: _ => y.members
  | [], [] => groupMembers s g

/-- The group that a handle names for a function, where the function is a member. -/
def fxGroup (s : State) (p : Program) (h : DWord) : State × Option Nat :=
  let fn := programFn s p
  if h.toNat / 2 ^ 48 ≠ 0 then (s, none)
  else
    match lookupVdn s p.die fn (h.toNat % 2 ^ 16) with
    | (s, .group g) =>
      let ms := fxMembers s g (h.toNat / 2 ^ 16 % 2 ^ 32)
      (s, if ms.any fun m => m.2.1 == Config.packageNumber.toNat && m.2.2 == fn then some g else none)
    | (s, .none) | (s, .unicast _ _) | (s, .eth _) => (s, none)

/-- Where the reduction of a first contribution by a function runs: in a context of the function, where one is free, or among the
participants (R409; DESIGN CHOICE, log 104). -/
def chooseContext (s : State) (g e fn : Nat) : Option Nat :=
  match contributions s g e with
  | x :: _ => x.context
  | [] =>
    let used := (((s.fab.fxrs.filter fun x => x.context == some fn).map fun x => (x.group, x.epoch)).eraseDups).length
    if (piecesOf s g e).isEmpty ∧ used < (s.fn fn).rctx.toNat % 16 then some fn else none

/-- Every local participant that waits faults with SHAPE. -/
def faultAll (s : State) (g e : Nat) : State :=
  (((contributions s g e).filter fun x => !x.done).map (·.prog)).foldl (fun s u => mFault s u .shape 0) s

/-- Participants agree in op, type and N. -/
def fxAgree (s : State) (x : Fxr) : Bool :=
  ((contributions s x.group x.epoch).all fun y => y.op == x.op && y.ty == x.ty && y.elems.length == x.elems.length) &&
    (piecesOf s x.group x.epoch).all fun y => y.op == x.op && y.ty == x.ty && y.n == x.elems.length

/-- Elements of a type that one packet holds. -/
def fxPerPacket (ty : FxTy) : Nat := if ty = .bf16 then 2048 else 1024

/-- The packets that carry a contribution to a member on another package; one for no elements. -/
def fxParts (x : Fxr) : List PktOp :=
  let k := fxPerPacket x.ty
  (List.range (Nat.max 1 ((x.elems.length + k - 1) / k))).map fun i =>
    .reduce x.group x.epoch x.op x.ty x.elems.length (i * k) ((x.elems.drop (i * k)).take k)

/-- Without a context, a program sends its tensor to every participant on another package (R409). -/
def sendParts (s : State) (u : Nat) (p : Program) (x : Fxr) : State :=
  if x.context.isSome then s
  else
    (x.members.filter fun m => m.2.1 != Config.packageNumber.toNat).foldl (fun s m =>
      (fxParts x).foldl (fun s o => (addReq s (p.req' u s.now x.fn 0 0 (.reduce m.1 m.2.1 m.2.2 o) [])).2) s) s

/-- Put a contribution with the others; a program that has been restored takes up its own again (R408, R409). -/
def joinFxr (s : State) (x : Fxr) : State :=
  let own (y : Fxr) : Bool := y.group == x.group && y.epoch == x.epoch && y.fn == x.fn && y.prog == 0 && !y.done
  let l := s.fab.fxrs
  { s with fab := { s.fab with
      fxrs := if l.any own then l.map fun y => if own y then { y with prog := x.prog } else y else l ++ [x] } }

/-- Contribute the elements of A and wait (R409). Participants that differ all fault, each having sent its own. -/
def contribute (s : State) (u : Nat) (p : Program) (g epoch : Nat) (op : FxOp) (ty : FxTy) (t : Tensor) : State :=
  (readElems u p t 3 0 t.n 0 s []).run fun s xs =>
    let fn := programFn s p
    let mine : Fxr :=
      { prog := u, fn := fn, group := g, epoch := epoch, op := op, ty := ty, elems := xs.map (·.1), result := none, done := false,
        context := chooseContext s g epoch fn, members := fxMembers s g epoch }
    let agree := fxAgree s mine
    let s := joinFxr { s with reqs := s.reqs.filter fun q => !usedRead u [] q.2 } mine
    let s := sendParts s u p mine
    if agree then mWait s u else faultAll s g epoch

/-- `fxred`: a descriptor that fails, then CONV, then SHAPE, and then PERM (DESIGN CHOICE, log 116). -/
def execFxred (op : FxOp) (ty : FxTy) (d a : BitVec 3) (b : BitVec 5) (s : State) : Host.Outcome State Fault Refusal :=
  mordant s fun u p =>
    if p.system.isSome then mFault s u .perm 0
    else
      match readTensor (p.desc a), readTensor (p.desc d) with
      | some ta, some td =>
        if ta.fmt ≠ fxFmt ty ∨ td.fmt ≠ fxFmt ty then mFault s u .conv 0
        else if ta.n ≠ td.n ∨ 2 ^ 20 < ta.n then mFault s u .shape 0
        else
          match fxGroup s p (p.mreg b) with
          | (s, none) => mFault s u .perm 0
          | (s, some g) =>
            if s.fab.fxrs.any fun x => x.prog == u && !x.done then mWait s u
            else contribute s u p g ((p.mreg b).toNat / 2 ^ 16 % 2 ^ 32) op ty ta
      | _, _ => mFault s u .desc 0

/-- The elements that the participants of another package's function have sent, once all are there. -/
def assembled (l : List FxPiece) (n : Nat) : Option (List Nat) :=
  (List.range n).mapM fun i => (l.find? fun y => decide (y.first ≤ i) && decide (i < y.first + y.elems.length)).bind fun y =>
    y.elems[i - y.first]?

/-- What a member contributes, where it has arrived: a local program's elements, what a function of another package has sent,
or, under a reduction context of the panel, what the panel has of it. -/
def partOf (s : State) (x : Fxr) (remote : List FxPart) (m : Nat × Nat × Nat) : Option (FxOp × FxTy × List Nat) :=
  if m.2.1 = Config.packageNumber.toNat then
    ((contributions s x.group x.epoch).find? fun y => y.fn == m.2.2).map fun y => (y.op, y.ty, y.elems)
  else if x.context.isSome then
    (remote.find? fun y => y.pkg == m.2.1 && y.fn == m.2.2).map fun y => (y.op, y.ty, y.elems)
  else
    let l := (piecesOf s x.group x.epoch).filter fun y => y.srcPkg == m.2.1 && y.srcFn == m.2.2 && y.dstFn == x.fn
    match l with
    | y :: _ => (assembled l y.n).map fun es => (y.op, y.ty, es)
    | [] => none

/-- Every contribution has arrived: the program that waits for them is not stopped any more (R221, R409). -/
def fxGathered (s : State) (x : Fxr) : Bool := x.result.isSome || x.members.all fun m => (partOf s x [] m).isSome

/-- The program waits in a reduction whose contributions have all arrived. -/
def reducing (s : State) (u : Nat) : Bool := s.fab.fxrs.any fun x => x.prog == u && !x.done && fxGathered s x

/-- The outcome of a reduction. -/
inductive FxResult
  | waits
  | differ
  | is (rs : List Nat)
  deriving DecidableEq, Repr

/-- The result for a contribution, with what the panel gives of other packages. -/
def fxResult (s : State) (x : Fxr) (remote : List FxPart) : FxResult :=
  match x.result with
  | some rs => .is rs
  | none =>
    match x.members.mapM (partOf s x remote) with
    | none => .waits
    | some ps =>
      if ps.all fun p => p.1 == x.op && p.2.1 == x.ty && p.2.2.length == x.elems.length then
        .is (reduceAll x.op x.ty (ps.map fun p => p.2.2))
      else .differ

/-- Keep the result for every contribution to the group and epoch. -/
def keepResult (s : State) (x : Fxr) (rs : List Nat) : State :=
  { s with fab := { s.fab with fxrs := s.fab.fxrs.map fun y =>
      if y.group = x.group ∧ y.epoch = x.epoch then { y with result := some rs } else y } }

/-- Write the result from element PROG on. -/
def writeResult (u : Nat) (i : Instr) (t : Tensor) (rs : List Nat) : Nat → State → State
  | 0, s => match s.program? u with
    | some p => mNext s u p i
    | none => s
  | n + 1, s =>
    match s.program? u with
    | none => s
    | some p =>
      let e := p.prog.toNat
      let a := t.elemAddr e
      if a % (t.size : Nat) ≠ 0 then sizeFault s u a
      else
        match planAt s u p t a (leBytes t.size (rs.getD e 0)) with
        | .stop s => s
        | .ok s ws => writeResult u i t rs n (mAdvance (mCommit s u p ws) u p 1 t.size 1 0 [])

/-- A contribution's program is served; what other packages sent it is forgotten, and the reduction too once it is over. -/
def serve (s : State) (x : Fxr) : State :=
  let l := s.fab.fxrs.map fun y => if y.prog = x.prog then { y with done := true } else y
  let mine (y : FxPiece) : Bool := y.group == x.group && y.epoch == x.epoch && y.dstFn == x.fn
  { s with fab := { s.fab with fxrs := sweepFxrs l, pieces := s.fab.pieces.filter fun y => !mine y } }

/-- The words of a waiting program's `fxred`, read again at its pc. -/
def fxWord (s : State) (u : Nat) (p : Program) : Option (Instr × State) :=
  match mInstr s u p with
  | .ok s (.fxred op ty d a b) => some (.fxred op ty d a b, s)
  | _ => none

/-- A program that waits in `fxred` may be served: a stop of its team does not hold it (R221), a skipped cycle does (R392). -/
def mayServe (s : State) (p : Program) : Bool :=
  p.wait && p.stalled.isNone && p.ending.isNone && !skippedNow s p.cluster &&
    ((s.team? p.team).map fun m => m.drives || m.stage == .stopping).getD false

/-- The result of a reduction is written to the D of a waiting program. -/
def serveProgram (s : State) (u : Nat) (p : Program) (x : Fxr) (rs : List Nat) : State :=
  match fxWord s u p with
  | some (.fxred op ty d a b, s) =>
    match readTensor (p.desc d) with
    | some t =>
      let s := writeResult u (.fxred op ty d a b) t rs (t.n - p.prog.toNat) (keepResult s x rs)
      match s.program? u with
      | some q => if q.pc = p.pc ∧ q.stalled.isSome then s else serve s x
      | none => s
    | none => s
  | _ => s

/-- FXRED_COMPLETE: every contribution has arrived, and the result is written to the program's D. -/
def execFxredComplete (c : FxCompletion) (s : State) : Host.Outcome State Fault Refusal :=
  .next (match s.program? c.prog, s.fab.fxrs.find? fun x => x.prog == c.prog && !x.done with
  | some p, some x =>
    if mayServe s p then
      match fxResult s x c.remote with
      | .waits => s
      | .differ => faultAll s x.group x.epoch
      | .is rs => serveProgram s c.prog p x rs
    else s
  | _, _ => s)

end Sys2Proof.Machine
end

