-- ==== Sys2Proof/Machine/Fabric.lean ====
section
/-! DEFINITION. The fabric: ports and lanes, packets and answers at the source and at the target, forwarding, multicast
groups, and the Ethernet ports (R394 to R414). -/

namespace Sys2Proof.Machine

/-! ## Ports (R396, R397) -/

def State.port (s : State) (p : Nat) : Port := FMap.get Port.reset s.fab.ports p

def State.setPort (s : State) (p : Nat) (x : Port) : State :=
  { s with fab := { s.fab with ports := FMap.set Port.reset s.fab.ports p x } }

/-- A port in STATE 2 or 4. -/
def Port.up (p : Port) : Bool := p.state == 2 || p.state == 4

/-- The ports that are up. -/
def upPorts (s : State) : List Nat := (List.range 16).filter fun p => (s.port p).up

def anyPortUp (s : State) : Bool := !(upPorts s).isEmpty

/-- A port that carries flits: it is up, swaps a lane, or drains. -/
def Port.carries (p : Port) : Bool := decide (2 ≤ p.state)

/-- Something can reach this package from the panel: a port in STATE 0 or 1 carries nothing (R396). -/
def anyPortCarries (s : State) : Bool := (List.range 16).any fun p => (s.port p).carries

def laneBits (x : LaneSample) : Nat := (if x.ber then 1 else 0) + (if x.eye then 2 else 0)

/-- A lane's record after a sample: a condition that holds in two consecutive samples makes it weak. -/
def laneRecord (old new : Nat) : Nat :=
  new + (if old / 4 % 2 = 1 ∨ (old % 2 = 1 ∧ new % 2 = 1) ∨ (old / 2 % 2 = 1 ∧ new / 2 % 2 = 1) then 4 else 0)

def Port.isWeak (p : Port) (lane : Nat) : Bool := FMap.get 0 p.bad lane / 4 % 2 == 1

/-- The lanes that carry flits; lane 8 is the spare. -/
def Port.lanes (p : Port) : List Nat := if p.spared < 8 then (List.range 9).filter (· != p.spared) else List.range 8

/-- UP leaves to SWAP, and SPARED to DRAIN, when a lane that carries flits is weak. -/
def Port.react (p : Port) (now : Nat) : Port :=
  match p.lanes.find? p.isWeak with
  | none => p
  | some k =>
    if p.state = 2 then { p with state := 3, weak := k, timer := now }
    else if p.state = 4 then { p with state := 5 } else p

/-- Change a port that exists. -/
def onPort (s : State) (port : Nat) (f : Port → Port) : State := if port < 16 then s.setPort port (f (s.port port)) else s

def execLaneSample (port : Nat) (lanes : List LaneSample) (s : State) : Host.Outcome State Fault Refusal :=
  .next (onPort s port fun p =>
    let bad := (List.range 9).foldl (fun b k =>
      match lanes[k]? with
      | some x => FMap.set 0 b k (laneRecord (FMap.get 0 p.bad k) (laneBits x))
      | none => b) p.bad
    { p with bad := bad }.react s.now)

/-- A lane that loses signal is weak at once. -/
def execLaneSignalLoss (port lane : Nat) (s : State) : Host.Outcome State Fault Refusal :=
  .next (onPort s port fun p =>
    { p with bad := FMap.set 0 p.bad lane (FMap.get 0 p.bad lane % 4 + 4) }.react s.now)

def execPortTrainStart (port : Nat) (s : State) : Host.Outcome State Fault Refusal :=
  .next (onPort s port fun p => if p.state = 0 then { p with state := 1 } else p)

/-- The end of training: DOWN if two of the nine lanes fail. -/
def Port.trained (p : Port) (failed : BitVec 9) : Port :=
  let n := ((List.range 9).filter fun i => failed.getLsbD i).length
  { p with state := if 2 ≤ n then 0 else 2, spared := 0xF, bad := [] }

/-! ### The port of a packet (R395) -/

def classNum : PktClass → Nat
  | .write => 0 | .read => 1 | .atomic => 2 | .reduction => 3

/-- The flow of a flight: its source function, its target package (group g counts as 64 + g), and its class. -/
def Flight.flow : Flight → Nat × Nat × Nat
  | .packet p => (p.srcFn, p.dstPkg, classNum p.cls)
  | .answer p _ _ => (p.dstFn, p.srcPkg, classNum p.cls)

/-- The key of a flow. -/
def flowKey (x : Nat × Nat × Nat) : Nat := (x.1 * 8192 + x.2.1) * 4 + x.2.2

/-- The port that a flow leaves by: the one it has left by while that is up, else one of those that are up, by the hash (R395;
DESIGN CHOICE, log 108). -/
def choosePort (s : State) (x : Nat × Nat × Nat) : Option Nat :=
  match FMap.get 0 s.fab.flows (flowKey x) with
  | k + 1 => if (s.port k).up then some k else (upPorts s)[Config.portHash x.1 x.2.1 x.2.2 % (upPorts s).length]?
  | 0 => (upPorts s)[Config.portHash x.1 x.2.1 x.2.2 % (upPorts s).length]?

/-- A flight joins the queue of the port of its flow; with no port up, it waits for one. -/
def depart (s : State) (ch : Channel) (x : Flight) : State :=
  match choosePort s x.flow with
  | some k =>
    let s := s.setPort k { s.port k with queue := (s.port k).queue ++ [(ch, x)] }
    { s with fab := { s.fab with flows := FMap.set 0 s.fab.flows (flowKey x.flow) (k + 1) } }
  | none => { s with fab := { s.fab with waiting := s.fab.waiting ++ [(ch, x)] } }

/-- What waits for a port goes on, in order, once one is up. -/
def departWaiting (s : State) : State :=
  if anyPortUp s then
    s.fab.waiting.foldl (fun s x => depart s x.1 x.2) { s with fab := { s.fab with waiting := [] } }
  else s

/-- The first of a virtual channel, and the queue without it. -/
def takeFirst (ch : Channel) : List (Channel × Flight) → Option (Flight × List (Channel × Flight))
  | [] => none
  | (c, x) :: rest => if c = ch then some (x, rest) else (takeFirst ch rest).map fun r => (r.1, (c, x) :: r.2)

/-- A port carries the oldest flight of a virtual channel: it has left this package (R401). -/
def carry (s : State) (port : Nat) (ch : Channel) : State :=
  if !(s.port port).carries then s
  else
    match takeFirst ch (s.port port).queue with
    | none => s
    | some (x, rest) =>
      let s := s.setPort port { s.port port with queue := rest }
      match x with
      | .packet p => { s with fab := { s.fab with packetsOut := s.fab.packetsOut ++ [(port, p)] } }
      | .answer p code data => { s with fab := { s.fab with answersOut := s.fab.answersOut ++ [(port, p, code, data)] } }

def execPortTrainDone (port : Nat) (failed : BitVec 9) (s : State) : Host.Outcome State Fault Refusal :=
  .next (departWaiting (onPort s port fun p => if p.state = 1 then p.trained failed else p))

/-- The swap at flit index F: the spare carries the proposed lane. -/
def execLaneSwap (port : Nat) (s : State) : Host.Outcome State Fault Refusal :=
  .next (departWaiting (onPort s port fun p =>
    if p.state = 3 then { p with state := 4, spared := p.weak, swaps := Nat.min (p.swaps + 1) 255 } else p))

/-- No agreement within 100 µs. -/
def execSwapAgreementTimeout (port : Nat) (s : State) : Host.Outcome State Fault Refusal :=
  .next (departWaiting (onPort s port fun p =>
    if p.state = 3 ∧ p.timer + 120000 ≤ s.now then { p with state := 2 } else p))

/-- PORT_DRAIN_DONE: what the port had queued is carried. -/
def execPortDrainDone (port : Nat) (s : State) : Host.Outcome State Fault Refusal :=
  .next (onPort s port fun p => if p.state = 5 ∧ p.queue = [] then { p with state := 0, spared := 0xF } else p)

/-- A flit received with an error is sent again. -/
def execFlitReplay (port : Nat) (s : State) : Host.Outcome State Fault Refusal :=
  .next (onPort s port fun p => if 2 ≤ p.state then { p with replay := Nat.min (p.replay + 1) (2 ^ 24 - 1) } else p)

/-! ## Packets at the source (R394, R398, R401, R402) -/

def ownPackage : Nat := Config.packageNumber.toNat

/-- The virtual device number and offset that an act addresses. -/
def Act.peer : Act → Option (Nat × Nat)
  | .load (.peer v o) _ _ _ _ | .store (.peer v o) _ | .atomic (.peer v o) _ _ _ _ | .cas (.peer v o) _ _ _ _ => some (v, o)
  | _ => none

/-- The class of an act's packet and what it asks for. -/
def Act.packet : Act → Option (PktClass × PktOp)
  | .load _ n _ _ _ => some (.read, .read n)
  | .store _ bs => some (.write, .write bs)
  | .atomic _ op ty x _ => some (.atomic, .atomic op ty x)
  | .cas _ ty cmp swap _ => some (.atomic, .cas ty cmp swap)
  | .reduce _ _ _ op => some (.reduction, op)
  | _ => none

/-- The entries of a group whose V is set (R407). -/
def groupEntries (s : State) (g : Nat) : List Nat :=
  ((Tab.find s.fab.mcGroups g).getD []).filter fun e => e / 2 ^ 31 % 2 == 1

/-- Target package and function of an entry; group g counts as package 64 + g. -/
def VdnKind.target : VdnKind → Option (Nat × Nat)
  | .unicast p f => some (p, f)
  | .group g => some (64 + g, 0)
  | .none | .eth _ => Option.none

/-- Who answers a packet to a target, as package × 64 + function: the members of a group, each. -/
def answerers (s : State) (dst : Nat × Nat) : List Nat :=
  if dst.1 < 64 then [dst.1 * 64 + dst.2]
  else (groupEntries s (dst.1 - 64)).map fun e => e / 2 ^ 16 % 64 * 64 + e / 2 ^ 22 % 64

/-- The packages at which a packet takes a receive slot: one, or for a group one at each package of a member (DESIGN CHOICE,
log 124). -/
def targetsOf (s : State) (dst : Nat × Nat) : List Nat := ((answerers s dst).map (· / 64)).eraseDups

/-- Receive slots in use at a package: each until the answers of its packet from there have come (R401). -/
def slotsUsed (s : State) (pkg : Nat) : Nat :=
  (s.fab.sent.filter fun p => p.2.sent && p.2.silent.any fun x => x / 64 == pkg).length

/-- A packet finds its slots, and none before it waits for one at the same package. -/
def slotsFree (s : State) (id : Nat) (pkgs : List Nat) : Bool :=
  pkgs.all (fun k => decide (slotsUsed s k < 32)) &&
    !s.fab.sent.any fun p => decide (p.1 < id) && !p.2.sent && p.2.targets.any pkgs.contains

def setSent (s : State) (id : Nat) (x : Sent) : State := { s with fab := { s.fab with sent := Tab.put s.fab.sent id x } }

def dropSent (s : State) (id : Nat) : State := { s with fab := { s.fab with sent := Tab.del s.fab.sent id } }

/-- A packet leaves by the port of its flow: a request, or one that this package forwards. -/
def emit (s : State) (p : Packet) : State := depart s (if p.forwarded then .forward else .request) (.packet p)

/-- An act whose answer brings no data. -/
def Act.isWrite : Act → Bool
  | .store _ _ | .reduce _ _ _ _ => true
  | _ => false

/-- Whether a kind takes the act: a group takes stores alone (R399). -/
def VdnKind.takes (k : VdnKind) (a : Act) : Bool :=
  match k with
  | .unicast _ _ => true
  | .group _ => a.isWrite
  | .none | .eth _ => false

/-! ## How an access ends (R404) -/

def answerNum : Answer → Nat
  | .ok => 0 | .denied => 1 | .unreach => 2 | .expired => 3 | .moved => 4 | .poison => 5 | .timeout => 6

/-- FB_FERR of the source function. -/
def recordFerr (s : State) (fn vdn : Nat) (code : Answer) : State :=
  s.setFn fn { s.fn fn with ferr := BitVec.ofNat 64 (answerNum code + vdn % 2 ^ 16 * 2 ^ 8) }

/-- The `stx` that a program stays at completes once its peers have answered (R239). -/
def finishPosted (s : State) (u : Nat) : State :=
  match s.program? u with
  | none => s
  | some p =>
    if p.posted = 0 ∨ peersPending s u then s
    else if p.ending.isSome then s.updProgram u fun p => { (p.count p.posted 1) with posted := 0 }
    else laterDone s u { p with posted := 0 } p.posted

/-- The access of a request completes with the answer's data. -/
def okAccess (s : State) (id : Nat) (r : Req) (data : List Byte) : State :=
  match r.owner with
  | .program u =>
    if r.act.isWrite then resumeEnding (finishPosted (settle (completeReq s id)) u) u
    else s.updReq id fun r => { r with performed := true, data := some data }
  | .thread _ _ | .none | .left _ =>
    if r.act.isWrite then settle (completeReq s id)
    else
      let r := { r with performed := true, data := some data }
      fillReq (s.updReq id fun _ => r) id r

/-- The access of a request faults: a thread that has exited, too, ends its team by what it had sent (R121, R404, R416). -/
def failAccessReq (s : State) (id : Nat) (r : Req) (c : Code) (sub : MSub) : State :=
  match r.owner with
  | .thread _ _ => if r.dead && !r.act.writes then settle (completeReq s id) else failReq s id r c
  | .program u =>
    let s := (completeReq s id).updProgram u fun p => { p with posted := 0 }
    resumeEnding (mFault s u sub r.va.toNat) u
  | .none | .left _ => settle (completeReq s id)

/-- The access of a request ends with an answer other than MOVED; what bears a fault is recorded for the source function, whatever
has become of the request. -/
def endRequest (s : State) (id fn vdn : Nat) (code : Answer) (data : List Byte) : State :=
  let s := if code = .ok then s else recordFerr s fn vdn code
  match Tab.find s.reqs id with
  | none => s
  | some r =>
    match code with
    | .ok => okAccess s id r data
    | .poison => failAccessReq s id r .ecc .ecc
    | .denied | .unreach | .expired | .moved | .timeout => failAccessReq s id r .fabric .fabric

/-- The access ends, and nothing of its packet is left. -/
def endAccess (s : State) (id fn vdn : Nat) (code : Answer) (data : List Byte) : State :=
  endRequest (dropSent s id) id fn vdn code data

/-- Send a packet that is named and addressed, or leave it waiting for its slots. A group without members has nothing to
answer. -/
def dispatch (s : State) (id : Nat) (x : Sent) : State :=
  let dst := (x.pkt.dstPkg, x.pkt.dstFn)
  let pkgs := targetsOf s dst
  let x := { x with targets := pkgs, movedAt := none }
  if pkgs.isEmpty then endAccess s id x.pkt.srcFn x.vdn .ok []
  else if slotsFree s id pkgs then
    emit (setSent s id { x with sent := true, last := s.now, silent := answerers s dst, worst := .ok }) x.pkt
  else setSent s id { x with sent := false, silent := [] }

def seqKey (fn dst : Nat) (c : PktClass) : Nat := flowKey (fn, dst, classNum c)

/-- The packet of a request to a target, with the next sequence number of the source's counter. -/
def nameAndSend (s : State) (id : Nat) (r : Req) (v off : Nat) (dst : Nat × Nat) (c : PktClass) (op : PktOp) : State :=
  let key := seqKey r.fn dst.1 c
  let seq := FMap.get 0 s.fab.seqs key
  let pkt : Packet :=
    { srcPkg := ownPackage, srcFn := r.fn, dstPkg := dst.1, dstFn := dst.2, cls := c, seq := seq, idPkg := dst.1, offset := off,
      op := op, forwarded := false, resent := false }
  let x : Sent :=
    { pkt := pkt, vdn := v, die := r.die, targets := [], sent := false, since := s.now, last := s.now, tries := 0,
      silent := [], worst := .ok, lapsed := false, movedAt := none }
  let pkgs := targetsOf s dst
  if pkgs.isEmpty ∨ slotsFree s id pkgs then
    dispatch { s with fab := { s.fab with seqs := FMap.set 0 s.fab.seqs key ((seq + 1) % 2 ^ 48) } } id x
  else setSent s id { x with targets := pkgs }

/-- The first sending of a peer access: UNREACH at the source where the entry names nothing that takes it (DEDUCED, log 122), or no
port is up. -/
def firstSend (s : State) (id : Nat) (r : Req) : State :=
  match r.act.packet with
  | none => s
  | some (c, op) =>
    match r.act.peer, r.act with
    | some (v, off), _ =>
      let (s, k) := lookupVdn s r.die r.fn v
      match (if k.takes r.act && anyPortUp s then k.target else none) with
      | some dst => nameAndSend (dropSent s id) id r v off dst c op
      | none => endAccess s id r.fn v .unreach []
    | none, .reduce v pkg fn _ =>
      if anyPortUp s then nameAndSend (dropSent s id) id r v 0 (pkg, fn) c op else endAccess s id r.fn v .unreach []
    | none, _ => s

/-- The first sending of an access whose translation still stands, or that has translated again (R357). -/
def freshSend (s : State) (id : Nat) (r : Req) : State :=
  match refresh s id r with
  | (s, some r) => firstSend s id r
  | (s, none) => s

/-- PACKET_SEND: the packet of a peer access that has not been sent, or that waits for a slot. -/
def sendPacket (s : State) (id : Nat) : State :=
  match Tab.find s.reqs id, Tab.find s.fab.sent id with
  | some r, none => if r.complete || !ready s r || r.data.isSome then s else freshSend s id r
  | some r, some x =>
    if x.sent then s
    else if x.pkt.resent then dispatch s id x
    else if r.complete then dropSent s id else freshSend s id r
  | none, some x => if x.sent then s else dropSent s id
  | none, none => s

def execPacketSend (id : Nat) (s : State) : Host.Outcome State Fault Refusal := .next (sendPacket s id)

/-! ## Answers at the source (R402, R404, R406, R407, R414) -/

/-- How bad an answer is among those of a group's members. -/
def answerRank : Answer → Nat
  | .ok => 0 | .moved => 1 | .unreach => 2 | .timeout => 3 | .denied => 4 | .expired => 5 | .poison => 6

def worseAnswer (a b : Answer) : Answer := if answerRank a ≤ answerRank b then b else a

/-- Read the entry past the cache; the value replaces the die's copy. -/
def rereadVdn (s : State) (die fn v : Nat) : State × VdnKind :=
  if !(s.fn fn).vdnEn then (s, .none)
  else
    let (s, e) := readVdn s fn v
    let d := s.die die
    (s.setDie die { d with vdns := (d.vdns.filter fun x => !(x.fn == fn && x.vdn == v)) ++ [⟨fn, v, e⟩] }, vdnKind e)

/-- Resend a packet under its identity. -/
def resend (s : State) (id : Nat) (x : Sent) (dst : Nat × Nat) : State :=
  let pkt := { x.pkt with dstPkg := dst.1, dstFn := dst.2, resent := true }
  dispatch (setSent s id { x with sent := true, targets := [], silent := [] }) id { x with pkt := pkt }

/-- A packet answered MOVED: resent at once to another target; kept for 10 µs where the entry still names the old one;
UNREACH where it names none that a resend may go to. -/
def movedAnswer (s : State) (id : Nat) (x : Sent) : State :=
  let (s, k) := rereadVdn s x.die x.pkt.srcFn x.vdn
  match k with
  | .none | .eth _ => endAccess s id x.pkt.srcFn x.vdn .unreach []
  | .group g =>
    if x.pkt.dstPkg < 64 then endAccess s id x.pkt.srcFn x.vdn .unreach []
    else if x.pkt.dstPkg = 64 + g then setSent s id { x with movedAt := some s.now, targets := [], silent := [] }
    else resend s id x (64 + g, 0)
  | .unicast p f =>
    if x.pkt.dstPkg = p ∧ x.pkt.dstFn = f then setSent s id { x with movedAt := some s.now, targets := [], silent := [] }
    else resend s id x (p, f)

/-- The last answer of a packet is in. -/
def concludeAnswer (s : State) (id : Nat) (x : Sent) (code : Answer) (data : List Byte) : State :=
  if code = .moved then movedAnswer s id x else endAccess s id x.pkt.srcFn x.vdn code data

/-- Whom an answer is from, among those still silent: the answer to a unicast packet is its target's, whoever performed it, and
may come while the packet waits to be resent. -/
def Sent.from? (x : Sent) (member : Nat) (code : Answer) : Option Nat :=
  if 64 ≤ x.pkt.dstPkg then x.silent.find? (· == member)
  else if x.movedAt.isSome && code != .moved then some member
  else x.silent.head?

/-- An answer has come: a second one of the same member comes to nothing. -/
def takeAnswer (s : State) (id member : Nat) (code : Answer) (data : List Byte) : State :=
  match Tab.find s.fab.sent id with
  | none => s
  | some x =>
    match x.from? member code with
    | none => s
    | some who =>
      let w := worseAnswer x.worst code
      match x.silent.erase who with
      | [] => if x.lapsed then dropSent s id else concludeAnswer s id x w data
      | rest => setSent s id { x with silent := rest, worst := w }

/-- ANSWER_RECEIVE: an answer to a packet of this package. -/
def execAnswerReceive (id : Nat) (a : MemberAnswer) (data : List Byte) (s : State) : Host.Outcome State Fault Refusal :=
  .next (if anyPortCarries s then takeAnswer s id a.member a.code data else s)

/-- PACKET_RETRANSMIT: a packet without an answer is sent again every 24,000 cycles. -/
def execPacketRetransmit (id : Nat) (s : State) : Host.Outcome State Fault Refusal :=
  .next (match Tab.find s.fab.sent id with
  | none => s
  | some x =>
    if x.sent && x.movedAt.isNone && !x.lapsed && decide (x.last + 24000 ≤ s.now) then
      emit (setSent s id { x with last := s.now, tries := x.tries + 1 }) x.pkt
    else s)

/-- The access of a packet without an answer ends; the receive slots whose answers have not come stay taken (R401). -/
def timeOut (s : State) (id : Nat) (x : Sent) : State :=
  let s := if x.silent = [] then dropSent s id else setSent s id { x with lapsed := true }
  endRequest s id x.pkt.srcFn x.vdn (worseAnswer x.worst .timeout) []

/-- PACKET_TIMEOUT: no answer 1,200,000 cycles after the first sending. A group's members that are silent count as
TIMEOUT. -/
def execPacketTimeout (id : Nat) (s : State) : Host.Outcome State Fault Refusal :=
  .next (match Tab.find s.fab.sent id with
  | none => s
  | some x => if (x.sent || x.pkt.resent) && !x.lapsed && decide (x.since + 1200000 ≤ s.now) then timeOut s id x else s)

/-- MOVED_RESEND: 12,000 cycles after MOVED from the target that the entry still names. -/
def execMovedResend (id : Nat) (s : State) : Host.Outcome State Fault Refusal :=
  .next (match Tab.find s.fab.sent id with
  | none => s
  | some x =>
    match x.movedAt with
    | some t => if t + 12000 ≤ s.now then resend s id x (x.pkt.dstPkg, x.pkt.dstFn) else s
    | none => s)

/-- VDN_INVALIDATE: the cached entries of a function are dropped on every die, and GO reads 0. -/
def execVdnInvalidate (fn : Nat) (s : State) : Host.Outcome State Fault Refusal :=
  .next (if (s.fn fn).vdninv.getLsbD 0 then
    let s := [0, 1, 2, 3].foldl (fun s d => s.setDie d { s.die d with vdns := (s.die d).vdns.filter fun x => x.fn != fn }) s
    s.setFn fn { s.fn fn with vdninv := 0 }
  else s)

/-! ## Packets at the target (R400, R402, R403, R406, R413) -/

/-- Answer a packet. -/
def reply (s : State) (p : Packet) (code : Answer) (data : List Byte) : State := depart s .answer (.answer p code data)

/-- Two packets with one identity: of a multicast, the replicas for one member (R407). -/
def sameIdentity (p q : Packet) : Bool :=
  p.srcPkg == q.srcPkg && p.srcFn == q.srcFn && p.idPkg == q.idPkg && p.cls == q.cls && p.seq == q.seq &&
    (decide (p.idPkg < 64) || p.dstFn == q.dstFn)

def Performed.isOf (e : Performed) (p : Packet) : Bool :=
  e.srcPkg == p.srcPkg && e.srcFn == p.srcFn && e.idPkg == p.idPkg && e.cls == p.cls && e.seq == p.seq &&
    (decide (p.idPkg < 64) || e.dstFn == p.dstFn)

/-- The result of an atomic is kept for 1 ms, or until 256 more recent atomics of its source package (R403). -/
def expired (e : Performed) (later : List Performed) (now : Nat) : Bool :=
  e.cls == .atomic && (decide (e.since + 1200000 ≤ now) ||
    decide (256 ≤ (later.filter fun x => x.cls == .atomic && x.srcPkg == e.srcPkg).length))

/-- The answer to a duplicate of a performed packet. -/
def duplicateAnswer (p : Packet) (now : Nat) : List Performed → Option (Answer × List Byte)
  | [] => none
  | e :: later =>
    if e.isOf p then some (if expired e later now then (.expired, []) else (e.answer, e.result)) else duplicateAnswer p now later

/-- Forget the results that have expired. -/
def forgetResults (src now : Nat) : List Performed → List Performed
  | [] => []
  | e :: later =>
    (if e.srcPkg = src ∧ expired e later now then { e with result := [] } else e) :: forgetResults src now later

def execAtomicResultExpiry (srcPkg : Nat) (s : State) : Host.Outcome State Fault Refusal :=
  .next { s with fab := { s.fab with performed := forgetResults srcPkg s.now s.fab.performed } }

/-- From step 1 of a stop of the function to its COMMIT or ABORT. -/
def Fn.stopInProgress (f : Fn) : Bool :=
  match f.mig with
  | .stopping | .saving | .stopped | .committing | .aborting => true
  | .none | .restoring | .placing => false

def opBytes : PktOp → Nat
  | .read n => n
  | .write bs => bs.length
  | .atomic _ ty _ | .cas ty _ _ => tyBits ty / 8
  | .reduce _ _ _ ty _ _ elems => elems.length * (if ty = .bf16 then 2 else 4)

def opReads : PktOp → Bool
  | .read _ => true
  | .write _ | .atomic _ _ _ | .cas _ _ _ | .reduce _ _ _ _ _ _ _ => false

/-- The admit matrices. -/
def admitted (s : State) (p : Packet) : Bool :=
  let base := (s.fn p.dstFn).fmacl.toNat % 2 ^ 52 / 1024 * 1024
  let e := leNat (readBytes s (base + (if opReads p.op then 0 else 512) + 8 * p.srcPkg) 8)
  e / 2 ^ p.srcFn % 2 == 1

/-- The fabric MMU: the walk of FMROOT at {0x0, offset}, where only leaves of TYPE 0 are valid. -/
def fmTranslate (s : State) (p : Packet) : State × Option Nat :=
  let root := (s.fn p.dstFn).fmroot.toNat % 2 ^ 52 / 65536 * 65536
  let (r, reads) := walk2 s p.offset [0, 1, 2, 3] root []
  let s := reads.foldl (fun s a => llcRead s p.dstFn a 8) s
  match r with
  | some (log, d) =>
    if leaf2Type d = 0 ∧ d / (if opReads p.op then 4 else 8) % 2 = 1 then (s, some (leaf2Pa d + p.offset % 2 ^ log))
    else (s, none)
  | none => (s, none)

/-- Keep the identity with its answer and result. -/
def recordPerformed (s : State) (p : Packet) (code : Answer) (result : List Byte) : State :=
  let e : Performed := ⟨p.srcPkg, p.srcFn, p.idPkg, p.cls, p.seq, code, result, s.now, p.dstFn⟩
  { s with fab := { s.fab with performed := s.fab.performed ++ [e] } }

/-- The new value that an atomic leaves. -/
def opUpdated (o : PktOp) (old : Nat) : Nat :=
  match o with
  | .atomic op ty x => atomicNew op ty old x.toNat
  | .cas ty cmp swap => casNew old (cmp.toNat % 2 ^ tyBits ty) (swap.toNat % 2 ^ tyBits ty)
  | .read _ | .write _ | .reduce _ _ _ _ _ _ _ => old

/-- The packet has been performed: its answer is kept under its identity, and sent. -/
def conclude (s : State) (p : Packet) (code : Answer) (result : List Byte) : State :=
  reply (recordPerformed s p code result) p code result

/-- Elements for a reduction of the target function are kept until its contribution is served; participants that differ in op,
type or N all fault (R408, R409). -/
def takePiece (s : State) (x : FxPiece) : State :=
  let s : State := { s with fab := { s.fab with pieces := s.fab.pieces ++ [x] } }
  if (contributions s x.group x.epoch).all fun y => y.op == x.op && y.ty == x.ty && y.elems.length == x.n then s
  else faultAll s x.group x.epoch

/-- Perform a packet at its home slice, and answer it. -/
def performPacket (s : State) (p : Packet) (pa : Nat) : State :=
  let n := opBytes p.op
  match p.op with
  | .write bs => conclude (performWrite s p.dstFn pa bs) p .ok []
  | .reduce g e op ty k i xs => conclude (takePiece s ⟨p.srcPkg, p.srcFn, p.dstFn, g, e, op, ty, k, i, xs, fxMembers s g e⟩) p .ok []
  | .read _ | .atomic _ _ _ | .cas _ _ _ =>
    if poisonedAt s pa n then conclude s p .poison []
    else
      let (s, old) := readMem s p.dstFn pa n
      let s := if opReads p.op then s else performWrite s p.dstFn pa (leBytes n (opUpdated p.op (leNat old)))
      conclude s p .ok old

/-- Hold a packet in its slot. -/
def holdPacket (s : State) (p : Packet) : State :=
  let (k, s) := s.fresh
  { s with fab := { s.fab with inbound := s.fab.inbound ++ [(k, ⟨p, none, s.now⟩)] } }

/-- Hold a packet for a fabric MMU stall: an event of TYPE 0x08. -/
def stallPacket (s : State) (p : Packet) : State :=
  let (k, s) := s.fresh
  let (tok, s) := raiseEvent s 8 p.dstFn (BitVec.ofNat 64 p.offset) (if opReads p.op then 0 else 1) (.fabric k) 0
  { s with fab := { s.fab with inbound := s.fab.inbound ++ [(k, ⟨p, some tok, s.now⟩)] } }

/-- The old home forwards a packet in the window that a COMMIT with ARM opened, and answers MOVED otherwise. -/
def forwardOrMoved (s : State) (p : Packet) : State :=
  let w := (s.fn p.dstFn).fwd.toNat
  if (s.fn p.dstFn).fwdOn then emit s { p with dstPkg := w % 64, dstFn := w / 64 % 64, forwarded := true }
  else reply s p .moved []

/-- The packet carries elements of a reduction, which no memory is accessed for. -/
def opReduces : PktOp → Bool
  | .reduce _ _ _ _ _ _ _ => true
  | .read _ | .write _ | .atomic _ _ _ | .cas _ _ _ => false

/-- R400. The admit matrices and the translation are for reads, writes and atomics; elements of a reduction pass the check of the
function's state and of FB_FMROOT.EN (DESIGN CHOICE, log 104). -/
def processPacket (s : State) (p : Packet) : State :=
  let f := s.fn p.dstFn
  if f.stopInProgress then holdPacket s p
  else if f.state = 0 ∧ f.moved then forwardOrMoved s p
  else if f.state ≠ 1 ∨ !f.fmroot.getLsbD 0 then reply s p .denied []
  else if opReduces p.op then performPacket s p 0
  else if !admitted s p then reply s p .denied []
  else
    match fmTranslate s p with
    | (s, some pa) => performPacket s p pa
    | (s, none) => stallPacket s p

/-- A packet addressed to this package that a source may send: up to 4 KiB, within 4 KiB of the offset. -/
def packetOk (p : Packet) : Bool :=
  p.dstPkg == ownPackage && decide (p.dstFn < 64) && decide (p.srcFn < 64) && decide (p.srcPkg < 64) &&
    decide (p.offset < 2 ^ 48) && decide (p.offset % 4096 + opBytes p.op ≤ 4096)

/-- PACKET_RECEIVE: a duplicate of a held packet is dropped, one of a performed packet is answered again, any other packet is
checked and performed. -/
def receivePacket (s : State) (p : Packet) : State :=
  if !packetOk p || s.fab.inbound.any fun x => sameIdentity x.2.pkt p then s
  else
    match duplicateAnswer p s.now s.fab.performed with
    | some (code, data) => reply s p code data
    | none => processPacket s p

def execPacketReceive (p : Packet) (s : State) : Host.Outcome State Fault Refusal :=
  .next (if anyPortCarries s then receivePacket s p else s)

/-- Take a held packet out of its slot. -/
def takeInbound (s : State) (k : Nat) : State :=
  let s := match (Tab.find s.fab.inbound k).bind (·.token) with
    | some tok => dropWait s tok
    | none => s
  { s with fab := { s.fab with inbound := Tab.del s.fab.inbound k } }

/-- The answer to a fabric MMU stall: resolved, the packet is processed again, or stays held in its place while the function is
stopped (R382); refused, it is answered DENIED. -/
def answerInbound (s : State) (k : Nat) (resolved : Bool) : State :=
  match Tab.find s.fab.inbound k with
  | none => s
  | some x =>
    if resolved && (s.fn x.pkt.dstFn).stopInProgress then
      { s with fab := { s.fab with inbound := Tab.put s.fab.inbound k { x with token := none } } }
    else
      let s := takeInbound s k
      if resolved then processPacket s x.pkt else reply s x.pkt .denied []

/-- FABRIC_MMU_STALL_TIMEOUT: no answer within 120,000 cycles. -/
def execFabricMmuStallTimeout (token : Nat) (s : State) : Host.Outcome State Fault Refusal :=
  .next (match Tab.find s.pkg.waits token with
  | some ⟨.fabric k, since, _, _⟩ => if since + 120000 ≤ s.now then answerInbound s k false else s
  | _ => s)

/-- The packets held for a function go on, in the order they arrived: after an ABORT they are performed, after a COMMIT
forwarded or answered MOVED (R382, R406). -/
def releaseInbound (s : State) (f : Nat) : State :=
  (s.fab.inbound.filter fun x => x.2.pkt.dstFn == f).foldl (fun s x => processPacket (takeInbound s x.1) x.2.pkt) s

/-- FORWARDING_WINDOW_END: ARM is cleared 600,000 cycles after the COMMIT. -/
def execForwardingWindowEnd (fn : Nat) (s : State) : Host.Outcome State Fault Refusal :=
  .next (let f := s.fn fn
  if f.fwdOn && decide (f.fwdSince + 600000 ≤ s.now) then
    s.setFn fn { f with fwdOn := false, fwd := BitVec.ofNat 64 (f.fwd.toNat % 2 ^ 63) }
  else s)

/-! ## Multicast groups (R407) -/

/-- The 64 entries of a member list; a poisoned sector gives open values. -/
def readMembers (s : State) (pa : Nat) : State × List Nat :=
  let one (acc : State × List Nat) (i : Nat) : State × List Nat :=
    let (s, l) := acc
    if poisonedAt s (pa + 4 * i) 4 then
      ({ s with freeCtr := s.freeCtr + 1 }, l ++ [(Config.freeWord s.freeCtr).toNat % 2 ^ 32])
    else (s, l ++ [leNat (readBytes s (pa + 4 * i) 4)])
  (List.range 64).foldl one (s, [])

/-- MULTICAST_REWRITE: a write of FB_MCW. While GO is 1, another is refused with ERR. -/
def execMulticastRewrite (x : DWord) (s : State) : Host.Outcome State Fault Refusal :=
  .next (inFull s <|
    let w := s.fab.mcw.toNat
    let err := if x.getLsbD 13 then 0 else w / 2 ^ 13 % 2
    let set (s : State) (g go e : Nat) : State :=
      { s with fab := { s.fab with mcw := BitVec.ofNat 64 (g + go * 2 ^ 12 + e * 2 ^ 13) } }
    if w / 2 ^ 12 % 2 = 1 then set s (w % 4096) 1 (if x.getLsbD 12 then 1 else err)
    else if x.getLsbD 12 then
      let (s, l) := readMembers s (s.fab.mcList.toNat % 2 ^ 52 / 256 * 256)
      let s : State := { s with fab := { s.fab with mcGroups := Tab.put s.fab.mcGroups (x.toNat % 4096) l } }
      set s (x.toNat % 4096) 1 err
    else set s (x.toNat % 4096) 0 err)

/-- MULTICAST_REWRITE_DONE: the old list's replicas have drained. -/
def execMulticastRewriteDone (s : State) : Host.Outcome State Fault Refusal :=
  .next { s with fab := { s.fab with mcw := s.fab.mcw &&& ~~~(0x1000 : DWord) } }

/-! ## Ethernet (R410, R411) -/

/-- TXTAIL_WRITE by a function through its window. -/
def execTxtailWrite (port q : Nat) (fn : Nat) (x : Word) (s : State) : Host.Outcome State Fault Refusal :=
  .next (ethWrite s fn port (4096 * q) (BitVec.ofNat 64 x.toNat))

/-- Read and write through the owner's two stages, without leases. -/
def ethLoad (s : State) (fn va n : Nat) : State × Option (List Byte) :=
  match areaRead s fn 0 va n with
  | (s, .done, bs) => (s, some bs)
  | (s, .failed, _) | (s, .stalled _ _, _) => (s, none)

def ethStore (s : State) (fn va : Nat) (bs : List Byte) : State × Bool :=
  match areaWrite s fn 0 va bs with
  | (s, .done) => (s, true)
  | (s, .failed) | (s, .stalled _ _) => (s, false)

/-- Address of descriptor `i` of a ring. -/
def ringAddr (base : DWord) (log : Nat) (i : Word) : Nat := base.toNat / 4096 * 4096 + 16 * (i.toNat % 2 ^ log)

/-- One bit of the division of IEEE 802.3's CRC-32, least significant bit first. -/
def crcBit (c : Word) : Word := (c >>> 1) ^^^ (if c.getLsbD 0 then 0xEDB88320 else 0)

/-- The frame check sequence of a frame's bytes: IEEE 802.3's CRC-32, in its order of transmission (PRESUMED, log 67). -/
def frameCheck (bs : List Byte) : List Byte :=
  let c := bs.foldl (fun (c : Word) b => (List.range 8).foldl (fun c _ => crcBit c) (c ^^^ b.setWidth 32)) (BitVec.allOnes 32)
  leBytes 4 (~~~c).toNat

/-- Send the frame that a descriptor names, with its check sequence; its STATUS. -/
def sendFrame (s : State) (fn port addr len : Nat) : State × Nat :=
  if len < 60 ∨ 9212 < len then (s, 2)
  else
    match ethLoad s fn addr len with
    | (s, none) => (s, 2)
    | (s, some bs) =>
      let sent := (Tab.find s.fab.frames port).getD []
      ({ s with fab := { s.fab with frames := Tab.put s.fab.frames port (sent ++ [bs ++ frameCheck bs]) } }, 1)

/-- FRAME_TRANSMIT: the next supplied transmit descriptor of a queue. -/
def execFrameTransmit (port q : Nat) (s : State) : Host.Outcome State Fault Refusal :=
  .next (
    let x := s.eq port q
    if port < 2 ∧ q < 16 ∧ x.en ∧ x.txhead ≠ x.txtail then
      let a := ringAddr x.tx x.txlog x.txhead
      let s := match ethLoad s x.owner a 16 with
        | (s, none) => s
        | (s, some d) =>
          let (s, st) := sendFrame s x.owner port (sliceNat d 0 8) (sliceNat d 8 2)
          (ethStore s x.owner (a + 10) [BitVec.ofNat 8 st]).1
      s.setEq port q { s.eq port q with txhead := x.txhead + 1 }
    else s)

/-- A big-endian half of a frame. -/
def frameHalf (f : List Byte) (i : Nat) : Nat := (f.getD i 0).toNat * 256 + (f.getD (i + 1) 0).toNat

/-- The UDP destination port of an untagged IPv4 or IPv6 frame. -/
def udpPort (f : List Byte) : Option Nat :=
  if frameHalf f 12 = 0x0800 then
    let ihl := (f.getD 14 0).toNat % 16
    if (f.getD 14 0).toNat / 16 = 4 ∧ 5 ≤ ihl ∧ f.getD 23 0 = 17 ∧ frameHalf f 20 % 2 ^ 13 = 0 then
      some (frameHalf f (14 + 4 * ihl + 2))
    else none
  else if frameHalf f 12 = 0x86DD then
    if (f.getD 14 0).toNat / 16 = 6 ∧ f.getD 20 0 = 17 then some (frameHalf f 56) else none
  else none

/-- A dropped frame counts in FB_EQDROP of queue 0 of the port. -/
def dropFrame (s : State) (port : Nat) : State :=
  let x := s.eq port 0
  s.setEq port 0 { x with drop := BitVec.ofNat 64 ((x.drop.toNat + 1) % 2 ^ 32) }

/-- The lowest enabled queue that a frame is steered to. -/
def steered (s : State) (port : Nat) (f : List Byte) : Option Nat :=
  (udpPort f).bind fun p => (List.range 16).find? fun k => (s.eq port k).en && (s.eq port k).udpport == p

/-- Write a frame to the next receive buffer of a queue. -/
def writeFrame (s : State) (port k : Nat) (f : List Byte) : State :=
  let x := s.eq port k
  if x.rxhead = x.rxtail then dropFrame s port
  else
    let a := ringAddr x.rx x.rxlog x.rxhead
    match ethLoad s x.owner a 8 with
    | (s, none) => dropFrame s port
    | (s, some d) =>
      match ethStore s x.owner (leNat d) f with
      | (s, false) => dropFrame s port
      | (s, true) =>
        match ethStore s x.owner (a + 8) (leBytes 2 f.length ++ leBytes 6 1) with
        | (s, false) => dropFrame s port
        | (s, true) => s.setEq port k { s.eq port k with rxhead := x.rxhead + 1 }

/-- FRAME_RECEIVE: a frame of 64 to 9,216 bytes with its check sequence, which is checked and taken off. -/
def execFrameReceive (port : Nat) (frame : List Byte) (fcs : Word) (s : State) : Host.Outcome State Fault Refusal :=
  .next (
    if 2 ≤ port then s
    else if frame.length < 60 ∨ 9212 < frame.length ∨ leBytes 4 fcs.toNat ≠ frameCheck frame then dropFrame s port
    else match steered s port frame with
      | none => dropFrame s port
      | some k => writeFrame s port k frame)

end Sys2Proof.Machine
end

