-- ==== Sys2Proof/Machine/Teardown.lean ====
section
/-! DEFINITION. The end of a faulted team, the watchdog, the trap-mode window, the discard of a phase and the quiescence
detector (R148, R150, R177, R330, R333). -/

namespace Sys2Proof.Machine

/-! ## Teardown (R150, R331) -/

def stopThread (t : Thread) : Thread := if t.live then { t with place := .stopped } else t

/-- The results of what a team's threads have in flight are dropped. -/
def dropResults (s : State) (u : Nat) : State :=
  { s with reqs := s.reqs.map fun p => if p.2.ofTeam u then (p.1, { p.2 with dead := true }) else p }

/-- Stop every thread of a team and take it out of its core's table, ring and rows; what it has in flight fills nothing more. -/
def stopThreads (s : State) (u : Nat) (m : Team) : State :=
  let slots := ((s.teamThreads u).filter Thread.live).map (·.slot)
  let s := (s.teamThreads u).foldl (fun s t => s.setThread (stopThread t)) s
  dropResults (s.setCore m.core (slots.foldl Core.leave (s.core m.core))) u

/-- Every empty register of a stopped team is poisoned, wherever it stands (R39, R150); once, where fills wait for an answer. -/
def poisonTeam (s : State) (u : Nat) : State := if fillsPending s u then s else poisonRegs s u .any

def killPrograms (s : State) (u : Nat) : State := (programsOf s u).foldl killProgram s

/-- Release the team and count it in its launch. -/
def endFaulted (s : State) (u : Nat) (m : Team) : State :=
  let s := leaveQueue (releaseTeam s u .ended) m.core u
  checkLaunchEnd (s.updLaunch m.launch fun l => { l with ndone := l.ndone + 1, nflt := l.nflt + 1 }) m.launch

/-- Steps 2 to 4 of a team's end are done: its programs have ended, its accesses are performed, as are the buffered stores of a
phase that has been demoted, and its registers are poisoned. -/
def tornDown (s : State) (u : Nat) (m : Team) : Bool :=
  !hasPrograms s u && !teamBusy s u && !fillsPending s u && (m.frees || !drainLeft s m.core u)

/-- Withdraw the unanswered `hcall`s of a team. -/
def dropCalls (s : State) (u : Nat) : State :=
  (s.teamThreads u).foldl (fun s t => match t.hcall with | some h => dropWait s h.token | none => s) s

/-- TEAM_TEARDOWN: threads and programs stop, unanswered `hcall`s are withdrawn (R363), what is in flight is waited for, the empty
registers are poisoned, and then the team's resources are released. -/
def execTeamTeardown (team : Nat) (s : State) : Host.Outcome State Fault Refusal :=
  .next (match s.team? team with
  | none => s
  | some m =>
    if m.stage = .ending then
      let s := poisonTeam (killPrograms (stopThreads (dropCalls s team) team m) team) team
      if tornDown s team m then endFaulted s team m else s
    else s)

/-! ## Watchdogs (R148, R330) -/

/-- End a team with a fault that no instruction raised. -/
def teamFault (s : State) (u : Nat) (m : Team) (c : Code) : State := postTeamFault s u m c {}

/-- WATCHDOG_EXPIRY: a resident team has not retired for 2^24 cycles. -/
def execWatchdogExpiry (team : Nat) (s : State) : Host.Outcome State Fault Refusal :=
  .next (match s.team? team with
  | none => s
  | some m => if m.counts && decide (2 ^ 24 ≤ m.wd s.now) then teamFault s team m .watchdog else s)

/-- A live thread of the team is in trap mode. -/
def inTrap (s : State) (u : Nat) : Bool := (liveOf s u).any Thread.mode

/-- TRAP_MODE_WINDOW_EXPIRY: 65,536 cycles after pre-emption was asked for, a thread is still in trap mode. -/
def execTrapModeWindowExpiry (team : Nat) (s : State) : Host.Outcome State Fault Refusal :=
  .next (match s.team? team with
  | none => s
  | some m =>
    match m.preempt with
    | some t => if m.runs && inTrap s team && decide (t + 65536 ≤ s.now) then teamFault s team m .watchdog else s
    | none => s)

/-! ## Discard (R177) -/

/-- A thread of a discarded team keeps its lane and sub-slot alone. -/
def stripThread (t : Thread) : Thread :=
  { t with regs := [], gmap := [], hcall := none, place := if t.place = .exited then .exited else .stopped }

/-- What a discarded phase has issued beyond its own core's state: it still takes effect. -/
def Act.outlives : Act → Bool
  | .store (.scratch _ _) _ | .store (.window _ _ _) _ => false
  | .store _ _ | .genWrite _ _ _ _ _ => true
  | _ => false

/-- The requests of a discarded phase: those that outlive it are no thread's any more, the others are dropped (R177, R178). -/
def dropRun (s : State) (u : Nat) : State :=
  { s with reqs := s.reqs.filterMap fun p =>
      if !p.2.ofTeam u then some p else if p.2.act.outlives then some (p.1, { p.2 with owner := .left u }) else none }

/-- The team's phase is discarded: buffered stores are freed unperformed, resources are released, and the team asks for
readmission on its binding. -/
def discardTeam (s : State) (u : Nat) (m : Team) : State :=
  let s := s.updTeam u fun m => { m with stage := if m.stage = .spilled then .spilled else .stopping }
  let s := killPrograms (stopThreads s u m) u
  if hasPrograms s u then s
  else
    let s := dropRun (dropCalls s u) u
    let ts := (s.teamThreads u).map stripThread
    let s := releaseTeam s u .discarded
    let s := ts.foldl State.setThread s
    requestAdmission (leaveQueue (s.updTeam u fun m => { m with preempt := none }) m.core u) m.core u

/-- A pre-empted team that a discard takes, with no thread in trap mode; a stop takes one spilled before its phase too. -/
def discardable (s : State) (u : Nat) (m : Team) : Bool :=
  m.preempt.isSome && (m.runs || m.stage == .stopping || m.stage == .spilled) && m.buffers && !inTrap s u

/-- PHASE_DISCARD. -/
def execPhaseDiscard (team : Nat) (s : State) : Host.Outcome State Fault Refusal :=
  .next (match s.team? team with
  | none => s
  | some m => if discardable s team m then discardTeam s team m else s)

/-! ## Quiescence (R333, R334) -/

/-- The teams of a launch. -/
def launchTeams (s : State) (u : Nat) : Tab Team := s.teams.filter fun p => p.2.launch == u

/-- IDLE of a die. -/
def idleOn (s : State) (u : Nat) (l : Launch) (die : Nat) : Bool :=
  decide (l.nteam ≤ l.nextTeam) &&
  (launchTeams s u).all fun p =>
    match p.2.stage with
    | .ended => true
    | .saved => false
    | .waiting | .spilled | .discarded | .stopping | .ending => dieOf p.2.core != die
    | .resident =>
      dieOf p.2.core != die || (!hasPrograms s p.1 &&
        (liveOf s p.1).all fun t => match t.place with | .held (.idle _) => true | _ => false)

/-- EMPTY of a die. -/
def emptyOn (s : State) (u die : Nat) : Bool :=
  s.cores.all fun p => dieOf p.1 != die || p.2.dqOwner != some u || (p.2.deque.isEmpty && p.2.spill.isEmpty)

def sampleOn (s : State) (u : Nat) (l : Launch) (die : Nat) : Sample :=
  ⟨idleOn s u l die, emptyOn s u die, FMap.get 0 l.sent die, FMap.get 0 l.recv die⟩

/-- The device sample of four die samples. -/
def combineSamples (l : List Sample) : Sample :=
  ⟨l.all (·.idle), l.all (·.empty), (l.map (·.sent)).foldl (· + ·) 0, (l.map (·.recv)).foldl (· + ·) 0⟩

def Sample.clean (x : Sample) : Bool := x.idle && x.empty && x.sent == x.recv

/-- Two clean rounds with the same sums. -/
def quiet (a b : Sample) : Bool := a.clean && b.clean && a.sent == b.sent && a.recv == b.recv

/-- End a round of samples. -/
def endRound (s : State) (u : Nat) (l : Launch) (x : Sample) : State :=
  let q := match l.last with | some y => quiet y x | none => false
  let s := s.updLaunch u fun l => { l with samples := [], last := some x, quiescent := l.quiescent || q }
  if q then checkLaunchEnd (releaseIdle s u) u else s

/-- QUIESCENCE_ROUND: a die samples an open-ended launch; the fourth sample ends the round. -/
def execQuiescenceRound (launch die : Nat) (s : State) : Host.Outcome State Fault Refusal :=
  .next (match s.launch? launch with
  | none => s
  | some l =>
    if l.isOpen ∧ l.stage = .running then
      let ss := Tab.put l.samples die (sampleOn s launch l die)
      if 4 ≤ ss.length then endRound s launch l (combineSamples (ss.map (·.2)))
      else s.updLaunch launch fun l => { l with samples := ss }
    else s)

end Sys2Proof.Machine
end

