-- ==== Sys2Proof/Machine/Image.lean ====
section
/-! DEFINITION. The migration record of a team (R335 to R338): what a save writes, and how a restore reads it. -/

namespace Sys2Proof.Machine

/-! ## Withdrawal (R41, R292, R363) -/

/-- A row access that has not taken effect. -/
def rowPending (r : Req) : Bool := r.act.tileRow.isSome && !r.performed

/-- The row accesses that a save withdraws for a thread, newest first. -/
def withdrawn (s : State) (u tix : Nat) : List (Nat × Req) :=
  (s.reqs.filter fun p => ownReq u tix p.2 && p.2.act.tileRow.isSome && !p.2.complete).reverse

/-- Put back what the destinations of a withdrawn `mxld` held. -/
def undoLoad (t : Thread) (r : Req) : Thread :=
  match r.act with
  | .mxLoad _ _ _ _ d => (List.range r.undo.length).foldl (fun t i => t.setReg (d + i) (r.undo.getD i (.full 0))) t
  | _ => t

/-- A thread whose `mxld`, `mxst` or `mxzero` is withdrawn stands at the oldest of them again; one that has exited stays so
(DESIGN CHOICE, log 105). -/
def withdrawThread (now : Nat) (t : Thread) (rs : List (Nat × Req)) : Thread :=
  let moved := if t.live then rs.filter fun p => match p.2.act with | .mxTopk _ _ _ _ _ _ _ => false | _ => rowPending p.2 else []
  let t := moved.foldl (fun t p => undoLoad t p.2) t
  match moved.getLast? with
  | some p => { t with pc := p.2.pc, place := .held (.save now) }
  | none => t

/-- Withdraw the row accesses of a team that a save does not wait for, and the events of its unanswered `hcall`s. -/
def withdrawAll (s : State) (u : Nat) : State :=
  let s := (s.teamThreads u).foldl (fun s t => s.setThread (withdrawThread s.now t (withdrawn s u t.tix))) s
  let s : State := { s with reqs := s.reqs.filter fun p => !(match p.2.owner with
    | .thread a _ => a == u && p.2.act.tileRow.isSome && !p.2.complete
    | .none | .program _ | .left _ => false) }
  dropCalls s u

/-! ## Sections (R335) -/

/-- Pad to a multiple of 16 bytes. -/
def pad16 (bs : List Byte) : List Byte := bs ++ List.replicate ((16 - bs.length % 16) % 16) 0

def sectionBytes (ty : Nat) (body : List Byte) : List Byte :=
  let b := pad16 body
  leBytes 2 ty ++ leBytes 2 1 ++ leBytes 4 b.length ++ leBytes 8 0 ++ b

def teamFlags (m : Team) (discarded : Bool) : Nat :=
  (if m.idem then 1 else 0) + (if m.demoted then 2 else 0) + (if discarded then 4 else 0)

def teamSection (m : Team) (l : Launch) (now : Nat) (discarded : Bool) : List Byte :=
  leBytes 8 l.seq.toNat ++ leBytes 4 m.num ++ leBytes 2 m.nthr ++ leBytes 2 m.w ++ leBytes 2 m.phase ++ leBytes 2 m.nreg ++
  leBytes 4 (teamFlags m discarded) ++ leBytes 4 (m.wd now) ++ leBytes 4 0 ++ leBytes 8 m.phaddr.toNat ++ leBytes 8 0 ++
  (List.range 512).map fun i => l.record.getD i 0

/-- STATE of a thread (R336). -/
def stateNum (t : Thread) : Nat :=
  match t.place with
  | .exited | .stopped => 0
  | .table | .row | .held (.save _) => 1
  | .held (.meet _ _) | .held .boundary | .held (.idle _) => 2
  | .parked _ => 3
  | .stalled _ => 4
  | .held (.cbwait _ _) | .held (.yield _) | .held (.sleep _ _ _) | .held .mxtopk | .held (.tlbinv _ _) => 5

/-- BORN of a waiting thread. -/
def bornOf (t : Thread) (now : Nat) : Nat := match t.place with | .held (.save b) => b | _ => now

/-- The threads in restore order: waiting ones by BORN and TIX, then the others by TIX. -/
def restoreOrder (ts : List Thread) (now : Nat) : List Nat :=
  let waiting := ts.filter fun t => stateNum t == 1
  let ins (l : List Thread) (t : Thread) : List Thread :=
    (l.takeWhile fun x => decide (bornOf x now ≤ bornOf t now)) ++ [t] ++ (l.dropWhile fun x => decide (bornOf x now ≤ bornOf t now))
  ((waiting.foldl ins []) ++ ts.filter fun t => decide (2 ≤ stateNum t)).map (·.tix)

def ageOf (order : List Nat) (tix : Nat) : Nat := if order.contains tix then (order.takeWhile (· != tix)).length else 0

/-- The 64 bytes of a thread. -/
def threadEntry (s : State) (order : List Nat) (t : Thread) : List Byte :=
  let hc := match t.hcall with
    | some h => leBytes 8 h.arg.toNat ++ leBytes 1 h.n.toNat ++ leBytes 2 (2 ^ 15 + h.d.toNat)
    | none => leBytes 11 0
  leBytes 8 t.pc.toNat ++ leBytes 1 (stateNum t) ++ leBytes 1 (if t.mode then 1 else 0) ++ leBytes 1 t.lane ++
  leBytes 1 t.sub ++ leBytes 2 (ageOf order t.tix) ++ leBytes 1 (countOf s t.team t.tix .md) ++
  leBytes 1 (countOf s t.team t.tix .mx) ++ leBytes 4 t.fpctl.toNat ++ leBytes 4 t.fflags.toNat ++
  leBytes 4 t.trapcause.toNat ++ leBytes 4 0 ++ leBytes 8 t.trapvec.toNat ++ leBytes 8 t.trappc.toNat ++ hc ++ leBytes 5 0

/-- The 64 bytes of a thread of a discarded team: LANE and SUB alone. -/
def bareEntry (t : Thread) : List Byte := leBytes 10 0 ++ leBytes 1 t.lane ++ leBytes 1 t.sub ++ leBytes 52 0

def regsSection (m : Team) (ts : List Thread) : List Byte :=
  ts.flatMap fun t => (List.range m.nreg).flatMap fun v => recordEntry (t.reg v)

def scrSection (m : Team) : List Byte := m.scr 0 m.scrSize

/-- The deque of a core goes with the launch's last team that leaves it (R332). -/
def takesDeque (s : State) (u : Nat) (m : Team) : Bool :=
  (s.core m.core).dqOwner == some m.launch &&
    !s.teams.any fun p => p.1 != u && p.2.launch == m.launch && p.2.core == m.core && p.2.holds

def dequeSection (s : State) (u : Nat) (m : Team) : List Byte :=
  let c := s.core m.core
  if takesDeque s u m && !(c.deque.isEmpty && c.spill.isEmpty) then
    leBytes 2 c.deque.length ++ leBytes 2 c.spill.length ++ leBytes 12 0 ++
      (c.deque.flatMap fun e => leBytes 8 e.ea.toNat ++ (List.range 6).flatMap fun i => leBytes 4 (e.args.getD i 0).toNat) ++
      c.spill.flatMap fun a => leBytes 8 a.toNat
  else []

/-- The 2,624 bytes of a program (R337). -/
def programEntry (p : Program) : List Byte :=
  leBytes 8 p.pc.toNat ++ ((List.range 32).flatMap fun i => leBytes 8 (FMap.get 0 p.m i).toNat) ++
  ((List.range 8).flatMap fun i => leBytes 288 (FMap.get 0 p.d i).toNat) ++ leBytes 8 p.seq.toNat ++ leBytes 8 p.prog.toNat ++
  leBytes 8 p.bcnt.toNat ++ leBytes 8 p.icnt.toNat ++ leBytes 8 p.btot.toNat ++
  leBytes 8 (p.mflags.toNat + (if p.wait then 32 else 0) + (if p.engine.isNone then 64 else 0)) ++ leBytes 8 p.starter

def mordantSection (s : State) (u : Nat) (m : Team) : List Byte :=
  let mine := s.programs.filter fun p => p.2.team == u && p.2.system.isNone
  let queued := (s.cluster (clusterOf m.core)).queue.filterMap fun k => Tab.find mine k
  ((mine.filter fun p => p.2.engine.isSome).map (·.2) ++ queued).flatMap programEntry

def streamSection (m : Team) : List Byte :=
  m.streams.flatMap fun b => leBytes 8 b.length ++ leBytes 8 0 ++ pad16 b

def tileSection (m : Team) : List Byte :=
  (List.range m.nacc).flatMap fun k =>
    ((List.range 64).flatMap fun r => (List.range 256).flatMap fun n => leBytes 4 (m.tileWord k r n).toNat) ++
    (List.range 64).flatMap fun r => leBytes 1 (m.rowFlags k r).toNat

/-- 48 bytes of a chain. -/
def chainEntry (c : Chain) : List Byte :=
  let mask := (List.range 8).foldl (fun n j => if c.exited.getD j false then n + 2 ^ j else n) 0
  leBytes 8 c.lit.toNat ++ ((List.range 8).flatMap fun j => leBytes 2 (octQ c j)) ++ leBytes 1 mask ++
  leBytes 1 (if c.closing then 1 else 0) ++ leBytes 1 c.sub ++ leBytes 5 0 ++
  ((List.range 8).flatMap fun j => leBytes 1 (match c.pend.getD j none with | some t => t | none => 0xFF)) ++ leBytes 8 0

/-- 8 bytes of a reservation entry, CTX the index of its chain (R277). -/
def resvEntry (chains : List Chain) (r : Resv) : List Byte :=
  let ix := (chains.takeWhile fun c => c.ctx != r.ctx).length
  leBytes 8 (1 + ix * 2 + r.oct * 2 ^ 5 + r.kind * 2 ^ 8 + r.tile * 2 ^ 10 + (if r.kb then 2 ^ 15 else 0) + r.bpri * 2 ^ 16 +
    r.epri * 2 ^ 18 + r.number % 2 ^ 16 * 2 ^ 20)

/-- Entries in REQ order. -/
def byNumber (l : List Resv) : List Resv :=
  l.foldl (fun l r => (l.takeWhile fun x => decide (x.number ≤ r.number)) ++ [r] ++
    (l.dropWhile fun x => decide (x.number ≤ r.number))) []

def chainSection (s : State) (u : Nat) (m : Team) : List Byte :=
  let rs := byNumber ((s.cluster (clusterOf m.core)).resv.filter fun r => r.team == u)
  if m.chains.isEmpty then []
  else
    leBytes 2 m.chains.length ++ leBytes 2 rs.length ++ leBytes 12 0 ++ m.chains.flatMap chainEntry ++
      rs.flatMap (resvEntry m.chains)

/-- The migration record of a team; of a discarded one, its threads' bindings alone. -/
def teamImage (s : State) (u : Nat) (m : Team) (l : Launch) : List Byte :=
  let ts := s.teamThreads u
  if m.stage = .discarded then
    sectionBytes 1 (teamSection m l s.now true) ++ sectionBytes 2 (ts.flatMap bareEntry) ++
      ((List.range 7).flatMap fun i => sectionBytes (i + 3) []) ++ sectionBytes 0xFFFF []
  else
    sectionBytes 1 (teamSection m l s.now false) ++
      sectionBytes 2 (ts.flatMap (threadEntry s (restoreOrder ts s.now))) ++ sectionBytes 3 (regsSection m ts) ++
      sectionBytes 4 (scrSection m) ++ sectionBytes 5 (dequeSection s u m) ++ sectionBytes 6 (mordantSection s u m) ++
      sectionBytes 7 (streamSection m) ++ sectionBytes 8 (tileSection m) ++ sectionBytes 9 (chainSection s u m) ++
      sectionBytes 0xFFFF []

/-! ## Reading a record (R338) -/

/-- Split a record into the bodies of its sections, which must stand in this order, with version 1 and zero bytes where the
header has them. -/
def splitSections : List Nat → List Byte → Option (List (List Byte))
  | [], _ => some []
  | ty :: tys, bs =>
    let n := sliceNat bs 4 4
    if sliceNat bs 0 2 = ty ∧ sliceNat bs 2 2 = 1 ∧ n % 16 = 0 ∧ sliceNat bs 8 8 = 0 ∧ n + 16 ≤ bs.length then
      (splitSections tys (bs.drop (16 + n))).map fun rest => (bs.drop 16).take n :: rest
    else none

/-- Bytes of a record up to the end of its last section. -/
def recordLength : Nat → List Byte → Nat
  | 0, _ => 0
  | k + 1, bs => 16 + sliceNat bs 4 4 + recordLength k (bs.drop (16 + sliceNat bs 4 4))

/-- A record as read: the Team section and the other bodies. -/
structure TeamRec where
  team : List Byte
  threads : List Byte
  regs : List Byte
  scr : List Byte
  deque : List Byte
  mordant : List Byte
  streams : List Byte
  tiles : List Byte
  chains : List Byte
  deriving DecidableEq, Repr

def TeamRec.seq (r : TeamRec) : Nat := sliceNat r.team 0 8
def TeamRec.num (r : TeamRec) : Nat := sliceNat r.team 8 4
def TeamRec.nthr (r : TeamRec) : Nat := sliceNat r.team 12 2
def TeamRec.w (r : TeamRec) : Nat := sliceNat r.team 14 2
def TeamRec.phase (r : TeamRec) : Nat := sliceNat r.team 16 2
def TeamRec.nreg (r : TeamRec) : Nat := sliceNat r.team 18 2
def TeamRec.flags (r : TeamRec) : Nat := sliceNat r.team 20 4
def TeamRec.discarded (r : TeamRec) : Bool := r.flags / 4 % 2 == 1
def TeamRec.wd (r : TeamRec) : Nat := sliceNat r.team 24 4
def TeamRec.phaddr (r : TeamRec) : Nat := sliceNat r.team 32 8
def TeamRec.record (r : TeamRec) : List Byte := (r.team.drop 48).take 512

/-- The entry of a thread. -/
def TeamRec.thread (r : TeamRec) (tix : Nat) : List Byte := (r.threads.drop (64 * tix)).take 64
def TeamRec.lane (r : TeamRec) (tix : Nat) : Nat := sliceNat (r.thread tix) 10 1
def TeamRec.sub (r : TeamRec) (tix : Nat) : Nat := sliceNat (r.thread tix) 11 1
def TeamRec.slot (r : TeamRec) (tix : Nat) : Nat := r.lane tix + 64 * r.sub tix
def TeamRec.slots (r : TeamRec) : List Nat := (List.range r.nthr).map r.slot

def round16 (n : Nat) : Nat := (n + 15) / 16 * 16

/-- Counts of the deque, program, chain and reservation parts. -/
def TeamRec.entries (r : TeamRec) : Nat := sliceNat r.deque 0 2
def TeamRec.refs (r : TeamRec) : Nat := sliceNat r.deque 2 2
def TeamRec.programs (r : TeamRec) : Nat := r.mordant.length / 2624
def TeamRec.nch (r : TeamRec) : Nat := sliceNat r.chains 0 2
def TeamRec.nres (r : TeamRec) : Nat := sliceNat r.chains 2 2

/-- The record of a launch, to read its fields. -/
def recordLaunch (bs : List Byte) : Launch :=
  { fn := 0, queue := 0, seq := 0, record := bs, header := 0, stage := .gated, priv := false, since := 0, pri := 0,
    nextTeam := 0, ndone := 0, nflt := 0, nrec := 0, dqleft := 0, refused := 0, quiescent := false, sent := [], recv := [],
    samples := [], last := none, kept := [], recheck := false, token := none, places := [] }

/-- The Streams section holds the streams allotted, each of at most 64 KiB, and nothing else. -/
def streamsWhole : Nat → List Byte → Bool
  | 0, bs => bs.isEmpty
  | k + 1, bs =>
    let n := sliceNat bs 0 8
    decide (16 + round16 n ≤ bs.length) && decide (n ≤ 65536) && streamsWhole k (bs.drop (16 + round16 n))

/-- Lengths agree with the Team section. -/
def TeamRec.consistent (r : TeamRec) : Bool :=
  let l := recordLaunch r.record
  r.team.length == 560 && r.threads.length == 64 * r.nthr && decide (1 ≤ r.nthr) && decide (r.nthr ≤ 1024) &&
  decide (1 ≤ r.w) && r.nthr % r.w == 0 &&
  if r.discarded then
    r.regs.isEmpty && r.scr.isEmpty && r.deque.isEmpty && r.mordant.isEmpty && r.streams.isEmpty && r.tiles.isEmpty &&
      r.chains.isEmpty
  else
    r.regs.length == round16 (8 * r.nthr * r.nreg) && r.scr.length == 256 * l.scr &&
      (r.deque.isEmpty || r.deque.length == round16 (16 + 32 * r.entries + 8 * r.refs)) && r.mordant.length % 2624 == 0 &&
      streamsWhole l.str r.streams &&
      r.tiles.length == l.acc * 65600 && (r.chains.isEmpty || r.chains.length == round16 (16 + 48 * r.nch + 8 * r.nres))

/-- Read a migration record. -/
def readImage (bs : List Byte) : Option TeamRec :=
  match splitSections [1, 2, 3, 4, 5, 6, 7, 8, 9, 0xFFFF] bs with
  | some [a, b, c, d, e, f, g, h, i, z] =>
    let r : TeamRec := ⟨a, b, c, d, e, f, g, h, i⟩
    if r.consistent && z.isEmpty then some r else none
  | _ => none

/-! ## What a record restores -/

/-- The streams of a record. -/
def readStreams : Nat → List Byte → List (List Byte)
  | 0, _ => []
  | k + 1, bs =>
    let n := sliceNat bs 0 8
    (bs.drop 16).take n :: readStreams k (bs.drop (16 + round16 n))

/-- The nonzero words of the tiles. -/
def readTiles (n : Nat) (bs : List Byte) : FMap Word :=
  (List.range n).flatMap fun k => (List.range 16384).filterMap fun i =>
    let w : Word := BitVec.ofNat 32 (sliceNat bs (k * 65600 + 4 * i) 4)
    if w = 0 then none else some (k * 16384 + i, w)

def readFlags (n : Nat) (bs : List Byte) : FMap FFlags :=
  (List.range n).flatMap fun k => (List.range 64).filterMap fun r =>
    let f : FFlags := BitVec.ofNat 5 (sliceNat bs (k * 65600 + 65536 + r) 1)
    if f = 0 then none else some (k * 64 + r, f)

def readScratch (bs : List Byte) : FMap Byte :=
  (List.range bs.length).filterMap fun i => let b := bs.getD i 0; if b = 0 then none else some (i, b)

def readRegs (r : TeamRec) (tix : Nat) : FMap RegVal :=
  (List.range r.nreg).filterMap fun v =>
    let x := recordReg ((r.regs.drop (8 * (tix * r.nreg + v))).take 8)
    if x = .full 0 then none else some (v, x)

/-- A number of a record, which wraps at 2^16, beside the number of the next pass: that of a request in the table, and the Q of an
octet that has one there, lie ahead; any other Q does not. -/
def relNumber (passes n : Nat) (ahead : Bool) : Nat :=
  let k := (n + 2 ^ 16 - passes % 2 ^ 16) % 2 ^ 16
  if ahead ∨ k = 0 then passes + k else passes - (2 ^ 16 - k)

/-- The reservation entries of chain `ix`, raw. -/
def TeamRec.resv (r : TeamRec) : List Nat :=
  (List.range r.nres).map fun i => sliceNat r.chains (16 + 48 * r.nch + 8 * i) 8

def resvChain (x : Nat) : Nat := x / 2 % 16
def resvOct (x : Nat) : Nat := x / 2 ^ 5 % 8
def resvNumber (x : Nat) : Nat := x / 2 ^ 20 % 2 ^ 16

/-- Chain `ix` of a record in a context. -/
def readChain (r : TeamRec) (ix ctx : Nat) : Chain :=
  let b := (r.chains.drop (16 + 48 * ix)).take 48
  let lit : DWord := BitVec.ofNat 64 (sliceNat b 0 8)
  let q := (List.range 8).map fun j => sliceNat b (8 + 2 * j) 2
  let gone (j : Nat) : Bool := sliceNat b 24 1 / 2 ^ j % 2 == 1
  let own := r.resv.filter fun x => resvChain x == ix
  let passes := match own.head?, (List.range 8).find? fun j => lit.getLsbD j && !gone j with
    | some x, _ => resvNumber x
    | none, some j => q.getD j 0
    | none, none => q.foldl Nat.max 0
  { sub := sliceNat b 26 1, ch := litCh lit, ctx := ctx, lit := lit,
    q := (List.range 8).map (fun j => if lit.getLsbD j then relNumber passes (q.getD j 0) (own.any fun x => resvOct x == j) else 0),
    exited := (List.range 8).map gone,
    pend := (List.range 8).map (fun j => let t := sliceNat b (32 + j) 1; if t = 0xFF then none else some t),
    closing := sliceNat b 25 1 == 1, passes := passes }

/-- The deque of a record. -/
def readDeque (r : TeamRec) : List DqEntry :=
  (List.range r.entries).map fun i =>
    let b := (r.deque.drop (16 + 32 * i)).take 32
    ⟨BitVec.ofNat 64 (sliceNat b 0 8), (List.range 6).map fun j => BitVec.ofNat 32 (sliceNat b (8 + 4 * j) 4)⟩

def readRefs (r : TeamRec) : List DWord :=
  (List.range r.refs).map fun i => BitVec.ofNat 64 (sliceNat r.deque (16 + 32 * r.entries + 8 * i) 8)

/-- Program `i` of a record, without its engine. -/
def readProgram (r : TeamRec) (i team cluster pri now : Nat) (gens : List (Nat × BitVec 8)) : Program :=
  let b := (r.mordant.drop (2624 * i)).take 2624
  let fl := sliceNat b 2608 8
  { team := team, cluster := cluster, engine := none, system := none, starter := sliceNat b 2616 8,
    pc := BitVec.ofNat 64 (sliceNat b 0 8),
    m := (List.range 32).foldl (fun m k => FMap.set 0 m k (BitVec.ofNat 64 (sliceNat b (8 + 8 * k) 8))) [],
    d := (List.range 8).foldl (fun m k => FMap.set 0 m k (BitVec.ofNat 2304 (sliceNat b (264 + 288 * k) 288))) [],
    seq := BitVec.ofNat 48 (sliceNat b 2568 8), prog := BitVec.ofNat 48 (sliceNat b 2576 8),
    bcnt := BitVec.ofNat 64 (sliceNat b 2584 8), icnt := BitVec.ofNat 64 (sliceNat b 2592 8),
    btot := BitVec.ofNat 64 (sliceNat b 2600 8), mflags := BitVec.ofNat 5 fl, wait := fl / 32 % 2 == 1, barrier := none,
    passed := false, index := none, stalled := none, pri := pri, since := now, req := none, buffered := false, gens := gens,
    posted := 0, filling := false, ending := none, recorded := false }

/-- Whether program `i` of a record was queued. -/
def wasQueued (r : TeamRec) (i : Nat) : Bool := sliceNat r.mordant (2624 * i + 2608) 8 / 64 % 2 == 1

end Sys2Proof.Machine
end

