-- ==== Sys2Proof/Machine/Migrate.lean ====
section
/-! DEFINITION. Saves and restores of teams, the stop phase of a function and its end, resets, and the function control
registers of R370 (R327, R328, R338, R367, R370, R371, R380 to R386). -/

namespace Sys2Proof.Machine

/-! ## Raising an `hcall` (R356, R363) -/

/-- Fill D of a thread's `hcall` and forget the call. -/
def fillCall (s : State) (u tix : Nat) (v : Word) : State :=
  match s.thread? u tix with
  | some t =>
    match t.hcall with
    | some h => putFill (s.setThread { t with hcall := none }) u tix h.d.toNat (.full v) .any
    | none => s
  | none => s

/-- Raise the event of a thread's `hcall`: TYPE 0x05, or 0x09 after a restore. With the ring disabled it is answered at
once. -/
def raiseCall (s : State) (fn type : Nat) (t : Thread) (h : HCall) : State :=
  if !s.pkg.hvrEn then fillCall (s.setThread { t with hcall := some h }) t.team t.tix 0xFFFFFFFF
  else
    let (k, s) := raiseEvent s type fn h.arg h.n.toNat (.hcall t.team t.tix) 0
    s.setThread { t with hcall := some { h with token := k } }

/-! ## The functions' teams -/

def fnOfTeam (s : State) (m : Team) : Nat := ((s.launch? m.launch).map (·.fn)).getD 64

/-- The teams of a function. -/
def fnTeams (s : State) (f : Nat) : Tab Team := s.teams.filter fun p => fnOfTeam s p.2 == f

/-- The launches of a function that have not ended. -/
def fnLaunches (s : State) (f : Nat) : Tab Launch := s.launches.filter fun p => p.2.fn == f && p.2.stage != .ended

def dropToken (s : State) : Option Nat → State
  | some k => dropWait s k
  | none => s

/-! ## The end of a function's work (R367, R386) -/

/-- A team ends as by a fault, without a record: its threads and programs stop, and TEAM_TEARDOWN does the rest once what it has
issued is done (R150). One that holds nothing ends at once. -/
def endTeam (s : State) (u : Nat) (m : Team) : State :=
  match m.stage with
  | .ended | .ending => s
  | .waiting | .saved | .discarded => endFaulted s u m
  | .resident | .stopping | .spilled =>
    let s := (dropToken (dropCalls s u) m.area).updTeam u fun m => { m with stage := .ending, area := none }
    killPrograms (stopThreads s u m) u

/-- Every team of a function ends, every program with them, and every launch that has been read ends with STATUS 0x17, once its
teams have. -/
def endFunction (s : State) (f : Nat) : State :=
  let ls := (fnLaunches s f).map (·.1)
  let gone := ((fnTeams s f).filter fun p => p.2.stage == .waiting).map (·.1)
  let s := ls.foldl (fun s u => match s.launch? u with
    | some l => (dropToken s l.token).updLaunch u fun l => { l with refused := 0x17, token := none }
    | none => s) s
  let s : State := { s with
    teams := s.teams.filter (fun p => !gone.contains p.1)
    cores := s.cores.map fun p => (p.1, { p.2 with admission := p.2.admission.filter fun a => !gone.contains a.team }) }
  let s := (fnTeams s f).foldl (fun s p => endTeam s p.1 p.2) s
  ls.foldl checkLaunchEnd s

/-- The function is marked context-lost. -/
def loseContext (s : State) (f : Nat) : State :=
  let s := dropToken s (s.fn f).migToken
  endFunction (s.setFn f { s.fn f with state := 3, mig := .none, migToken := none, ctl := 0 }) f

/-! ## The save area (R370, R383, R386) -/

/-- Translate the pieces of the save area through the function's stage 2. -/
def ipaRuns (fn : Nat) (right : Right) : List (Nat × Nat) → State → List (Nat × Nat) → State × AreaRes × List (Nat × Nat)
  | [], s, acc => (s, .done, acc)
  | (a, n) :: rest, s, acc =>
    match ipaAccess s fn a right with
    | (s, some (.hbm pa)) | (s, some (.host pa)) => ipaRuns fn right rest s (acc ++ [(pa, n)])
    | (s, some (.fabric _ _)) | (s, some (.notify _)) | (s, none) => (s, .stalled a 0, [])

/-- Intermediate address of the save area and its bytes. -/
def Fn.saveBase (f : Fn) : Nat := f.save.toNat / 4096 * 4096
def Fn.saveBytes (f : Fn) : Nat := f.savesz.toNat * 4096

/-- Write at an offset of the save area; more than PAGES × 4 KiB is a failure. -/
def saveWrite (s : State) (fn off : Nat) (bs : List Byte) : State × AreaRes :=
  let f := s.fn fn
  if f.saveBytes < off + bs.length then (s, .failed)
  else
    match ipaRuns fn .w (pieces (f.saveBase + off) bs.length) s [] with
    | (s, .done, rs) => (writeRuns fn rs bs s, .done)
    | (s, r, _) => (s, r)

def saveRead (s : State) (fn off n : Nat) : State × AreaRes × List Byte :=
  let f := s.fn fn
  if f.saveBytes < off + n then (s, .failed, [])
  else
    match ipaRuns fn .r (pieces (f.saveBase + off) n) s [] with
    | (s, .done, rs) =>
      if rs.any fun p => poisonedAt s p.1 p.2 then (s, .failed, [])
      else (rs.foldl (fun s p => (readMem s fn p.1 p.2).1) s, .done, rs.flatMap fun p => readBytes s p.1 p.2)
    | (s, r, _) => (s, r, [])

/-- One page of the save area, where stage 2 maps it to memory, holds free values. -/
def freePage (fn : Nat) (s : State) (ipa : Nat) : State :=
  match ipaAccess s fn ipa .w with
  | (s, some o) =>
    match o.phys with
    | some pa =>
      if inBitmap pa then s else
      { s with
        freeCtr := s.freeCtr + 4096
        mem := replaceRun s.mem pa ((List.range 4096).map fun i => BitVec.ofNat 8 (Config.freeWord (s.freeCtr + i)).toNat) }
    | none => s
  | (s, none) => s

/-- The contents of the save area are undefined (R385). -/
def freeSaveArea (s : State) (fn : Nat) : State :=
  ((List.range (s.fn fn).savesz.toNat).map fun i => (s.fn fn).saveBase + 4096 * i).foldl (freePage fn) s

/-- An event of TYPE 0x07, whose wait counts from the first such event of the save. -/
def raiseSave (s : State) (f ipa info : Nat) (who : Waiter) (first : Option Nat) : Nat × State :=
  let (k, s) := raiseEvent s 7 f (BitVec.ofNat 64 ipa) info who 0
  match first with
  | some t => (k, { s with pkg := { s.pkg with waits := Tab.upd s.pkg.waits k fun w => { w with since := t } } })
  | none => (k, s)

def pad4k (bs : List Byte) : List Byte := bs ++ List.replicate ((4096 - bs.length % 4096) % 4096) 0

/-! ## Stopping a team for a save (R327, R380) -/

/-- BORN of the entry in which a slot stands. -/
def bornAt (c : Core) (slot now : Nat) : Nat :=
  match c.table.find? fun e => e.slots.contains slot with
  | some e => e.born
  | none => now

/-- Threads that stand in the table, the ring or a row stop at their instruction boundary. -/
def haltThreads (s : State) (u : Nat) (m : Team) : State :=
  let c := s.core m.core
  let ts := (s.teamThreads u).filter fun t => t.place == .table || t.place == .row
  let s := ts.foldl (fun s t => s.setThread { t with place := .held (.save (bornAt c t.slot s.now)) }) s
  s.setCore m.core ((ts.map (·.slot)).foldl Core.leave (s.core m.core))

/-- The team stops. -/
def haltTeam (s : State) (u : Nat) (m : Team) : State :=
  (haltThreads s u m).updTeam u fun m => { m with stage := .stopping }

/-- A spilled team that a stop takes: its registers come from its phase record (R170, R383). -/
def gatherSpilled (s : State) (u : Nat) (m : Team) (l : Launch) : State :=
  let carry := if m.phase = 0 then [] else phCarry (l.ph (m.phase - 1))
  let one (bs : List Byte) (s : State) (t : Thread) : State :=
    if leNat ((bs.drop 64).take 128) / 2 ^ t.tix % 2 = 0 then s.setThread { t with place := .exited, regs := [] }
    else
      let regs := (List.range carry.length).foldl (fun (r : FMap RegVal) i =>
        FMap.set (.full 0) r (carry.getD i 0) (recordReg ((bs.drop (192 + (t.tix * carry.length + i) * 8)).take 8))) []
      s.setThread { t with regs := regs, pc := m.phaddr, place := .held (.save s.now) }
  match readRecord s m l with
  | (s, .stalled ipa info, _) => stallRecord s u m l ipa info
  | (s, .failed, _) => postTeamFault s u m .save { addr := l.phRecord m.num }
  | (s, .done, bs) =>
    let s := (s.teamThreads u).foldl (one bs) (leaveQueue s m.core u)
    s.updTeam u fun m => { m with stage := .stopping, area := none }

/-- A request that a save waits for: all but programs, requests of the matrix unit, and row accesses that it withdraws. -/
def Req.holdsSave (r : Req) : Bool :=
  !r.complete && match r.act with
    | .mdRun _ | .mxPass | .mxEnd _ _ => false
    | _ => !(rowPending r || (match r.act with | .mxTopk _ _ _ _ _ _ _ => true | _ => false))

/-- A program is at a point where a save may take it: its peer writes are answered, it has not begun to end, and no reduction
whose contributions have all arrived is still to be served to it (R221, R409). -/
def programQuiet (s : State) (p : Nat) : Bool :=
  !peersPending s p && !reducing s p && (match s.program? p with | some x => x.ending.isNone | none => true)

/-- Everything that a save of the team waits for has come about. -/
def teamQuiet (s : State) (u : Nat) (m : Team) : Bool :=
  !(s.reqs.any fun p => p.2.ofTeam u && p.2.holdsSave) &&
    (programsOf s u).all (programQuiet s) && !drainLeft s m.core u && !fillsPending s u &&
    (match (s.cluster (clusterOf m.core)).pass with | some p => p.team != u | none => true)

/-- The contributions of a saved program stand, for it to take up again when it is restored (R408, R409). -/
def leaveReductions (s : State) (p : Nat) : State :=
  { s with fab := { s.fab with fxrs := s.fab.fxrs.map fun x => if x.prog = p ∧ !x.done then { x with prog := 0 } else x } }

/-- What the record holds leaves the cluster: the deque with the launch's last team there, the programs, the requests, the
team's resources. -/
def releaseSaved (s : State) (u : Nat) (m : Team) (image : List Byte) : State :=
  let erets := ((s.teamThreads u).filter fun t => !t.priv).map (·.tix)
  let ps := programsOf s u
  let c := s.core m.core
  let blocks := if takesDeque s u m then c.spill else []
  let s := if takesDeque s u m then s.setCore m.core { c with deque := [], spill := [], dqOwner := none } else s
  let s := ps.foldl (fun s p => match s.program? p with
    | some x => removeProgram (dropStall (leaveReductions s p) x) p x
    | none => s) s
  let mine (r : Req) : Bool := match r.owner with | .thread a _ => a == u | _ => false
  let s := releaseTeam { s with reqs := s.reqs.filter (fun p => !mine p.2) } u .saved
  s.updTeam u fun m => { m with image := image, blocks := blocks, preempt := none, erets := erets, area := none }

/-- The stalls of threads are withdrawn: each retranslates when it is restored (R336). -/
def dropStalls (s : State) (u : Nat) : State :=
  (s.teamThreads u).foldl (fun s t => match t.place with | .stalled k => dropWait s k | _ => s) s

/-- Take the record of a stopped team: its programs' writes are performed, and what a save withdraws is withdrawn. -/
def imageOf (s : State) (u : Nat) : State × List Byte :=
  let s := withdrawAll ((programsOf s u).foldl flushAll s) u
  match s.team? u with
  | none => (s, [])
  | some m =>
    match s.launch? m.launch with
    | none => (s, [])
    | some l => (s, teamImage s u m l)

/-- Stop a team whole, its record being written elsewhere. -/
def keepImage (s : State) (u : Nat) : State :=
  let (s, bs) := imageOf s u
  match s.team? u with
  | some m => releaseSaved (dropStalls (dropToken s m.area) u) u m bs
  | none => s

/-- Where a pre-emption's record goes: after the records that the function has in its save area. -/
def saveOffset (s : State) (f : Nat) : Nat :=
  (fnTeams s f).foldl (fun n p => n + if p.2.stage = .saved then (pad4k p.2.image).length else 0) 0x1000

/-- A save-area fault during pre-emption: F_SAVE for the team, and the function is context-lost. -/
def failSave (s : State) (u : Nat) (m : Team) (f : Nat) : State :=
  loseContext (postTeamFault (s.updTeam u fun m => { m with area := none }) u m .save {}) f

/-- Write the record of a stopped, quiet team to the save area. -/
def saveTeam (s : State) (u : Nat) (m : Team) (first : Option Nat) : State :=
  let f := fnOfTeam s m
  let off := saveOffset s f
  let (s, bs) := imageOf s u
  match saveWrite s f off bs with
  | (s, .done) => releaseSaved (dropStalls s u) u m bs
  | (s, .failed) => failSave s u m f
  | (s, .stalled ipa _) =>
    let (k, s) := raiseSave s f ipa 1 (.teamSave u) first
    s.updTeam u fun m => { m with area := some k }

/-- Whether a stopped team has its granules: one taken from its phase record has none. -/
def hasGranules (s : State) (u : Nat) : Bool := (s.teamThreads u).all fun t => !t.live || !t.gmap.isEmpty

/-- A stopped team goes on with its save; a stop of its function takes what is not under way (R380). One without granules that an
ABORT resumes becomes its record, to be restored by R328 (R385). -/
def continueSave (s : State) (u : Nat) (first : Option Nat) : State :=
  match s.team? u with
  | none => s
  | some m =>
    if m.stage ≠ .stopping then s
    else
      let s := haltThreads s u m
      if m.area.isSome || m.buffers || !teamQuiet s u m then s
      else if m.preempt.isNone then (if hasGranules s u then s else keepImage s u)
      else if (s.fn (fnOfTeam s m)).mig = .none ∨ first.isSome then saveTeam s u m first
      else s

/-- TEAM_SAVE: a pre-empted team that is not discarded stops once no thread of it is in trap mode, and is saved once what
it waits for has drained; during a stop of its function the save area is written later (R380). -/
def execTeamSave (team : Nat) (s : State) : Host.Outcome State Fault Refusal :=
  .next (match s.team? team with
  | none => s
  | some m =>
    if m.buffers || m.area.isSome then s
    else match m.stage with
      | .resident => if m.preempt.isNone || inTrap s team then s else haltTeam s team m
      | .spilled =>
        if m.preempt.isNone || fillsPending s team then s
        else (match s.launch? m.launch with | some l => gatherSpilled s team m l | none => s)
      | .stopping => continueSave s team none
      | .waiting | .discarded | .ending | .saved | .ended => s)

/-! ## Restoring teams (R328, R332, R336 to R338) -/

def TeamRec.byte (r : TeamRec) (tix off n : Nat) : Nat := sliceNat (r.thread tix) off n

/-- The thread of an entry, not yet arrived; reserved bits of its registers are zero (R28, R42 to R44). -/
def threadFromRec (l : Launch) (r : TeamRec) (u tix core : Nat) (erets : List Nat) : Thread :=
  let hc := r.byte tix 57 2
  { team := u, tix := tix, core := core, slot := r.slot tix, pc := BitVec.ofNat 64 (r.byte tix 0 8 / 8 * 8), regs := readRegs r tix,
    gmap := [], fpctl := BitVec.ofNat 32 (r.byte tix 16 4 % 64), fflags := BitVec.ofNat 32 (r.byte tix 20 4 % 32),
    trapvec := BitVec.ofNat 64 (r.byte tix 32 8 / 8 * 8), trappc := BitVec.ofNat 64 (r.byte tix 40 8 / 8 * 8),
    trapcause := BitVec.ofNat 32 (r.byte tix 24 4) &&& 0x03FFFF01, priv := l.priv && !erets.contains tix,
    place := if r.byte tix 8 1 = 0 then .exited else .held (.save 0),
    hcall := if hc / 2 ^ 15 % 2 = 1 then
        some ⟨BitVec.ofNat 64 (r.byte tix 48 8), BitVec.ofNat 8 (r.byte tix 56 1), BitVec.ofNat 10 (hc % 1024), 0⟩
      else none }

/-- The thread of a discarded team: its binding alone. -/
def bareThread (l : Launch) (r : TeamRec) (u tix core : Nat) (erets : List Nat) : Thread :=
  { team := u, tix := tix, core := core, slot := r.slot tix, pc := 0, regs := [], gmap := [], fpctl := 0, fflags := 0,
    trapvec := BitVec.ofNat 64 (l.trapvec / 8 * 8), trappc := 0, trapcause := 0, priv := l.priv && !erets.contains tix,
    place := .stopped, hcall := none }

/-- The slots that a team keeps free beside a lone last group in narrow-wave mode (R164). -/
def TeamRec.span (r : TeamRec) (narrow : Bool) : List Nat :=
  if narrow && r.nthr / r.w % 2 == 1 then
    let x := (r.nthr / r.w - 1) * r.w
    (lanesFrom (r.lane x + r.w) r.w).map fun lane => lane + 64 * r.sub x
  else []

/-- A member fits on a core: slots, granules, scratchpad, deque. -/
def seatFits (s : State) (u : Nat) (m : Team) (l : Launch) (r : TeamRec) (core : Nat) : Bool :=
  let taken := takenSlots s core
  let free := freeGranules s core
  let g := granulesFor r.nreg
  let c := s.core core
  (r.slots ++ r.span (hdrNw l.header)).all (fun k => !taken.contains k) && noRepeat r.slots && !reservedAgainst s core [u] &&
    (r.discarded || ((List.range 64).all fun lane => decide ((r.slots.filter fun k => k % 64 == lane).length * g ≤ free.getD lane 0)) &&
      coreRoom s { m with core := core, scrSize := 256 * l.scr } l.dq && (nextGen s core u).isSome &&
      decide (c.deque.length + r.entries ≤ 64) && decide (c.spill.length + r.refs ≤ 64))

/-- Distinct cores for the members, the lowest that fit. -/
def seatAll (s : State) (l : Launch) : List (Nat × Team × TeamRec) → List Nat → Option (List (Nat × TeamRec × Nat))
  | [], _ => some []
  | (u, m, r) :: rest, cs =>
    cs.findSome? fun c =>
      if seatFits s u m l r c then (seatAll s l rest (cs.filter (· != c))).map fun t => (u, r, c) :: t else none

/-- The cluster has room for the members' tiles, streams, cells, chains, requests and programs. -/
def clusterFits (s : State) (launch : Nat) (l : Launch) (rs : List TeamRec) (k : Nat) : Bool :=
  let whole := rs.filter fun r => !r.discarded
  let cl := s.cluster k
  let sum (f : TeamRec → Nat) : Nat := (whole.map f).foldl (· + ·) 0
  let queued (r : TeamRec) : Nat := ((List.range r.programs).filter (wasQueued r)).length
  let engines := ((List.range 4).filter fun e => !engineBusy s k e).length
  (whole.isEmpty || clusterRoom s launch l k whole.length) && decide ((contextsUsed s k).length + sum TeamRec.nch ≤ 16) &&
    decide (cl.resv.length + sum TeamRec.nres ≤ 32) && decide (sum (fun r => r.programs - queued r) ≤ engines) &&
    decide (cl.queue.length + sum queued ≤ 16)

/-- A completed request that still stands in a count. -/
def Thread.spent (t : Thread) (now : Nat) (c : Cls) : Req := { t.req now (some c) .nothing with performed := true, complete := true }

/-- A queue with a program before the first entry of a later one (R337; DEDUCED, log 107: a later program has the higher SEQ). -/
def insertQueued (s : State) (id seq : Nat) (queue : List Nat) : List Nat :=
  let earlier (x : Nat) : Bool := match s.program? x with | some p => decide (p.seq.toNat ≤ seq) | none => true
  queue.takeWhile earlier ++ [id] ++ queue.dropWhile earlier

/-- Bring back the programs of a record: running ones on free engines, queued ones ahead of every later one. -/
def restorePrograms (s : State) (u : Nat) (l : Launch) (r : TeamRec) (k : Nat) : State :=
  (List.range r.programs).foldl (fun s i =>
    let (id, s) := s.fresh
    let p := readProgram r i u k l.ctlPri s.now []
    match s.thread? u p.starter with
    | none => s
    | some t =>
      let (q, s) := addReq s (t.req s.now (some .md) (.mdRun id))
      let queued := wasQueued r i
      let p := { p with engine := if queued then none else freeEngine s k, req := some q }
      let s : State := { s with programs := Tab.put s.programs id p }
      let cl := s.cluster k
      if queued then s.setCluster k { cl with queue := insertQueued s id p.seq.toNat cl.queue } else s) s

/-- The thread of a team in a slot. -/
def slotThread (s : State) (u slot : Nat) : Option Thread := (s.teamThreads u).find? fun t => t.slot == slot

/-- Bring back chains and reservation entries, in REQ order. -/
def restoreChains (s : State) (u : Nat) (r : TeamRec) (k : Nat) : State :=
  let ctxs := (List.range 16).filter fun c => !(contextsUsed s k).contains c
  let chains := (List.range r.nch).map fun i => readChain r i (ctxs.getD i 0)
  let s := s.updTeam u fun m => { m with chains := chains }
  let entry (s : State) (x : Nat) : State :=
    match chains[resvChain x]? with
    | none => s
    | some c =>
      let oct := resvOct x
      match slotThread s u (8 * oct + 64 * c.sub) with
      | none => s
      | some t =>
        let (id, s) := addReq s (t.req s.now (some .mx) .mxPass)
        let bpri := x / 2 ^ 16 % 4
        let e : Resv :=
          { req := id, team := u, tix := t.tix, ctx := c.ctx, oct := oct, kind := x / 2 ^ 8 % 4, tile := x / 2 ^ 10 % 32,
            kb := x / 2 ^ 15 % 2 == 1, bpri := bpri, number := relNumber c.passes (resvNumber x) true, issued := s.now,
            promoted := 0, risen := x / 2 ^ 18 % 4 - bpri }
        let cl := s.cluster k
        s.setCluster k { cl with resv := cl.resv ++ [e] }
  let close (s : State) (c : Chain) : State :=
    match (if c.closing then slotThread s u (8 * (litOctets c.lit).headD 0 + 64 * c.sub) else none) with
    | none => s
    | some t => (addReq s (t.req s.now (some .mx) (.mxEnd c.sub c.ch))).2
  chains.foldl close (r.resv.foldl entry s)

/-- The counts md and mx hold what the record says: what is not in flight again has completed. -/
def restoreCounts (s : State) (r : TeamRec) (t : Thread) : State :=
  let fill (s : State) (c : Cls) (n : Nat) : State :=
    (List.range (n - countOf s t.team t.tix c)).foldl (fun s _ => (addReq s (t.spent s.now c)).2) s
  fill (fill s .md (r.byte t.tix 14 1)) .mx (r.byte t.tix 15 1)

/-- Threads of STATE 1 to 5 in ascending AGE. -/
def arrivalOrder (r : TeamRec) : List Nat :=
  (List.range r.nthr).filterMap fun i => (List.range r.nthr).find? fun t => r.byte t 8 1 != 0 && r.byte t 12 2 == i

/-- Every thread that has not exited arrives at its PC; a withdrawn `hcall` is raised again. -/
def restoreArrivals (s : State) (u fn : Nat) (r : TeamRec) : State :=
  (arrivalOrder r).foldl (fun s x =>
    match s.thread? u x with
    | none => s
    | some t =>
      let s := match t.hcall with
        | some h => raiseCall s fn 9 t h
        | none => s
      match s.thread? u x with
      | some t => arrive s t t.pc
      | none => s) s

/-- The team's own fields from its record. -/
def teamFromRec (s : State) (m : Team) (l : Launch) (r : TeamRec) (core : Nat) : Team :=
  { m with
    core := core, nthr := r.nthr, w := r.w, narrow := hdrNw l.header, stage := if r.discarded then .discarded else .resident,
    groups := (List.range (r.nthr / r.w)).map (fun g => (r.lane (g * r.w), r.sub (g * r.w))), phase := r.phase, nreg := r.nreg,
    idem := r.flags % 2 == 1, demoted := r.flags / 2 % 2 == 1, phaddr := BitVec.ofNat 64 r.phaddr, scrSize := 256 * l.scr,
    scratch := readScratch r.scr, nacc := l.acc, tiles := readTiles l.acc r.tiles, tflags := readFlags l.acc r.tiles,
    streams := if r.discarded then [] else readStreams l.str r.streams, chains := [], wdCount := r.wd,
    wdSince := if r.discarded then none else some s.now, preempt := none, area := none, image := [], blocks := [] }

/-- The cells of a cluster to which a team of a launch is restored take the least that the launch's cells and its kept values hold,
as propagation would have them: its threads read nothing above what they have written or read (R289, R290). -/
def joinCells (s : State) (u : Nat) (l : Launch) (k : Nat) : State :=
  (List.range 8).foldl (fun s i =>
    if l.bndDecl i then
      let v := (cellClusters s u i).foldl (fun v j => lowerBound l i v (FMap.get Cell.free (s.cluster j).cells i).value) (l.keptOf i)
      lowerAll l k i v s
    else s) s

/-- One member takes its seat: a discarded one asks for readmission, any other resumes. -/
def restoreMember (s : State) (u : Nat) (r : TeamRec) (core : Nat) : State :=
  match s.team? u with
  | none => s
  | some m =>
    match s.launch? m.launch with
    | none => s
    | some l =>
      let s := s.setTeam u (teamFromRec s m l r core)
      if r.discarded then
        let s := (List.range r.nthr).foldl (fun s x => s.setThread (bareThread l r u x core m.erets)) s
        requestAdmission s core u
      else
        let k := clusterOf core
        let s := assignGen (joinCells (takeCells s m.launch l k) m.launch l k) u (teamFromRec s m l r core)
        let s := freshCaches s core l.fn
        let c := s.core core
        let s := if l.dq then
            s.setCore core { c with dqOwner := some m.launch, deque := readDeque r ++ c.deque, spill := readRefs r ++ c.spill }
          else s
        let s := startSlice s core l.fn
        let s := (List.range r.nthr).foldl (fun s x =>
          giveGranules s (threadFromRec l r u x core m.erets) (granulesFor r.nreg)) s
        let s := restoreChains (restorePrograms s u l r k) u r k
        let s := (s.teamThreads u).foldl (fun s t => restoreCounts s r t) s
        restoreArrivals s u l.fn r

/-- The generations of a cluster team's members, known to its programs too. -/
def reshareGens (s : State) (us : List Nat) : State :=
  let s := shareGens s us
  { s with programs := s.programs.map fun p =>
      if us.contains p.2.team && p.2.system.isNone then
        (p.1, { p.2 with gens := ((s.team? p.2.team).map (·.gens)).getD p.2.gens })
      else p }

/-- The saved members of a team's cluster team, and the cluster in which others of it stand. -/
def savedMates (s : State) (m : Team) (l : Launch) : List (Nat × Team) :=
  let c := Nat.max l.perCluster 1
  s.teams.filter fun p => p.2.launch == m.launch && p.2.num / c == m.num / c && p.2.stage == .saved

def placedMates (s : State) (m : Team) (l : Launch) : List (Nat × Team) :=
  let c := Nat.max l.perCluster 1
  s.teams.filter fun p => p.2.launch == m.launch && p.2.num / c == m.num / c && p.2.stage != .saved && p.2.stage != .ended

/-- Teams of the function may be restored: it is active and not stopped, or a RESTORE brings its teams back. -/
def Fn.restores (f : Fn) : Bool := (f.state == 1 && f.mig == .none) || f.mig == .placing

/-- A restored launch whose header has still to be read (log 72). -/
def Launch.unread (l : Launch) : Bool := (l.stage == .checked || l.stage == .running) && l.header == 0

/-- The seats that the saved members of a cluster team find on a cluster of their function, every one of them. -/
def seatsOn (s : State) (m : Team) (l : Launch) (k : Nat) : Option (List (Nat × TeamRec × Nat)) :=
  let there := placedMates s m l
  let recs := (savedMates s m l).filterMap fun p => (readImage p.2.image).map fun r => (p.1, p.2, r)
  let cores := (coresOf k).filter fun c => !there.any fun p => p.2.core == c
  if (s.fn l.fn).restores && ownsCluster s l.fn k && !l.unread && (there.all fun p => clusterOf p.2.core == k) &&
      clusterFits s m.launch l (recs.map (·.2.2)) k then seatAll s l recs cores
  else none

/-- Restore the saved members of a cluster team on their seats. -/
def takeSeats (s : State) (m : Team) (l : Launch) (seats : List (Nat × TeamRec × Nat)) : State :=
  let there := placedMates s m l
  let s := seats.foldl (fun s x => restoreMember s x.1 x.2.1 x.2.2) s
  let us := seats.map (·.1) ++ (there.filter fun p => p.2.holds).map (·.1)
  let s := reshareGens s (us.filter fun u => ((s.team? u).map Team.holds).getD false)
  releaseIdle (settle ((seats.map (·.1)).foldl (fun s u => checkTeamEnd (closeChains s u) u) s)) m.launch

/-- A saved team finds its seats on some cluster. -/
def restorable (s : State) (m : Team) (l : Launch) : Bool := (List.range 128).any fun k => (seatsOn s m l k).isSome

/-- The saved teams of a distributor's launches that find their seats, with their launches. -/
def restorables (s : State) (die : Nat) : List Launch :=
  s.teams.filterMap fun p => match s.launch? p.2.launch with
    | some l => if p.2.stage = .saved ∧ l.queue % 4 = die ∧ restorable s p.2 l then some l else none
    | none => none

/-- The launches of a die that may place their next cluster team, but for those behind a team that is to be restored: restored
teams rank ahead of new placements of equal priority (R328). -/
def newPlacements (s : State) (die : Nat) : List (Nat × Launch) :=
  let back := restorables s die
  (placeable s die).filter fun x => !back.any fun l => decide (x.2.pri ≤ l.pri)

/-- CLUSTER_TEAM_PLACEMENT: the distributor of a die places the next cluster team of the first launch in order that can be
placed (R323 to R325, R328). -/
def execClusterTeamPlacement (die : Nat) (s : State) : Host.Outcome State Fault Refusal :=
  .next (placeFirst die (newPlacements s die) s)

/-- It is the turn of a saved team of a launch: no other of its distributor comes before it in the order of R323, and no new
placement of a higher priority finds a cluster (R328). -/
def restoresNext (s : State) (l : Launch) : Bool :=
  let die := l.queue % 4
  !(restorables s die).any (fun x => launchBefore s die x l && x.seq != l.seq) &&
    !(placeable s die).any fun x => decide (l.pri < x.2.pri) && (chooseCores s x.1 x.2 x.2.nextTeam).2.isSome

/-- TEAM_RESTORE. -/
def execTeamRestore (saved cluster : Nat) (s : State) : Host.Outcome State Fault Refusal :=
  .next (match s.team? saved with
  | none => s
  | some m =>
    match s.launch? m.launch with
    | some l =>
      if m.stage = .saved ∧ cluster < 128 ∧ restoresNext s l then
        match seatsOn s m l cluster with
        | some seats => takeSeats s m l seats
        | none => s
      else s
    | none => s)

/-! ## STOP, QDONE, SDONE (R380, R383) -/

/-- A write to the block of a function is refused. -/
def setErr (s : State) (f : Nat) : State := s.setFn f { s.fn f with err := true }

/-- The waiting cluster team of a launch is placed again later. -/
def withdrawWaiting (s : State) (f : Nat) : State :=
  let gone := (fnTeams s f).filter fun p => p.2.stage == .waiting
  let s := gone.foldl (fun s p => s.updLaunch p.2.launch fun l => { l with nextTeam := Nat.min l.nextTeam p.2.num }) s
  let us := gone.map (·.1)
  { s with
    teams := s.teams.filter fun p => !us.contains p.1
    cores := s.cores.map fun p => (p.1, { p.2 with admission := p.2.admission.filter fun a => !us.contains a.team }) }

/-- Every team of the function that is to be saved or discarded is pre-empted. -/
def preemptAll (s : State) (f : Nat) : State :=
  let us := ((fnTeams s f).filter fun p => (p.2.stage == .resident || p.2.stage == .spilled) && p.2.preempt.isNone).map (·.1)
  us.foldl (fun s u => s.updTeam u fun m => { m with preempt := some s.now }) s

/-- A write of STOP. -/
def execStop (fn : Nat) (s : State) : Host.Outcome State Fault Refusal :=
  .next (inFull s <|
    let f := s.fn fn
    if f.state ≠ 1 ∨ f.mig ≠ .none then setErr s fn
    else
      let s := s.setFn fn { f with mig := .stopping, migSince := s.now, ctl := f.ctl ||| 1, qdone := false, sdone := false }
      preemptAll (withdrawWaiting s fn) fn)

/-- A team no longer delays a quiesce. -/
def stoppedTeam (s : State) (p : Nat × Team) : Bool :=
  match p.2.stage with
  | .ended | .discarded => !teamBusy s p.1
  | .saved => true
  | .stopping => !p.2.buffers && p.2.area.isNone && teamQuiet s p.1 p.2
  | .waiting | .resident | .spilled | .ending => false

/-- QUIESCE_DONE: every team has stopped and drained, and its unanswered `hcall`s are withdrawn; QDONE and QCYC, and QLATE past
299,136 cycles. -/
def execQuiesceDone (fn : Nat) (s : State) : Host.Outcome State Fault Refusal :=
  .next (
    let s := (fnTeams s fn).foldl (fun s p => if p.2.stage = .stopping then haltThreads s p.1 p.2 else s) s
    let f := s.fn fn
    if f.mig = .stopping ∧ (fnTeams s fn).all (stoppedTeam s) then
      let n := s.now - f.migSince
      let s := (fnTeams s fn).foldl (fun s p => if p.2.stage = .stopping then dropCalls s p.1 else s) s
      s.setFn fn { f with mig := .saving, qdone := true, qcyc := BitVec.ofNat 32 n, qlate := f.qlate || decide (299136 < n) }
    else s)

/-- The 32 bytes of a queue. -/
def queueBytes (l : LQ) : List Byte :=
  leBytes 8 l.base.toNat ++ leBytes 8 ((if l.en then 1 else 0) + l.log * 256) ++ leBytes 4 l.tail.toNat ++
    leBytes 4 l.head.toNat ++ leBytes 8 ((if l.badt then 1 else 0) + (if l.rdf then 2 else 0))

/-- The record of a saved or a discarded team. -/
def recordOf (s : State) (p : Nat × Team) : List Byte :=
  match p.2.stage, s.launch? p.2.launch with
  | .saved, _ => p.2.image
  | .discarded, some l => teamImage s p.1 p.2 l
  | _, _ => []

def LStage.num : LStage → Nat
  | .gated => 0
  | .checked => 1
  | .running | .ended => 2

/-- A launch entry with the records of its teams. -/
def launchBytes (s : State) (u : Nat) (l : Launch) : List Byte :=
  let recs := ((s.teams.filter fun p => p.2.launch == u && (p.2.stage == .saved || p.2.stage == .discarded)).map (recordOf s))
  let cell (i : Nat) : Nat := ((Tab.find l.kept i).getD (BitVec.ofNat 64 (l.bndinit i))).toNat
  leBytes 8 l.seq.toNat ++ leBytes 1 l.stage.num ++ leBytes 1 l.queue ++ leBytes 2 0 ++ leBytes 4 l.nextTeam ++
    leBytes 4 l.ndone ++ leBytes 4 l.nflt ++ leBytes 4 recs.length ++ leBytes 4 0 ++
    ([0, 1, 2, 3].flatMap fun d => leBytes 4 (FMap.get 0 l.sent d) ++ leBytes 4 (FMap.get 0 l.recv d)) ++ leBytes 32 0 ++
    ((List.range 8).flatMap fun i => leBytes 8 (cell i)) ++ leBytes 352 0 ++ (List.range 512).map (fun i => l.record.getD i 0) ++
    recs.flatMap pad4k

/-- The bytes of the save area. -/
def areaBytes (s : State) (f : Nat) : List Byte :=
  let ls := fnLaunches s f
  let body := ls.flatMap fun p => pad4k (launchBytes s p.1 p.2)
  leBytes 4 1 ++ leBytes 4 ls.length ++ leBytes 8 (0x1000 + body.length) ++ leBytes 8 s.now ++ leBytes 232 0 ++
    ((List.range 32).flatMap fun q => queueBytes (s.lq f q)) ++ leBytes 0xB00 0 ++ body

/-- The event of a thread's `hcall` has been withdrawn: nothing waits under its token any more. -/
def callWithdrawn (s : State) (t : Thread) : Option HCall :=
  t.hcall.filter fun h => (Tab.find s.pkg.waits h.token).isNone

/-- A row access of a thread is in flight. -/
def rowBusy (s : State) (t : Thread) : Bool := s.reqs.any fun p => ownReq t.team t.tix p.2 && p.2.act.tileRow.isSome && !p.2.complete

/-- A thread that had stopped in place goes on, as one that is restored (R336): an `hcall` whose event has been withdrawn is raised
again, and an `mxtopk` whose request has been withdrawn issues again. -/
def resumeHeld (u fn : Nat) (s : State) (x : Nat) : State :=
  match s.thread? u x with
  | none => s
  | some t =>
    let s := match callWithdrawn s t with | some h => raiseCall s fn 9 t h | none => s
    match s.thread? u x with
    | none => s
    | some t =>
      match t.place with
      | .held (.save _) => arrive s t t.pc
      | .held .mxtopk => if rowBusy s t then s else arrive s t t.pc
      | _ => s

/-- A team that stopped where it stands goes on: it has kept its granules (R385). -/
def resumeInPlace (s : State) (u : Nat) (m : Team) : State :=
  let s := s.updTeam u fun m => { m with stage := .resident, preempt := none }
  let s := (restoreOrder (s.teamThreads u) s.now).foldl (resumeHeld u (fnOfTeam s m)) s
  let s := startSlice s m.core (fnOfTeam s m)
  checkTeamEnd (noteIdle s u) u

/-- A team that a stop had halted resumes: where it stands, or by way of its record (R385). -/
def resumeStopped (s : State) (u : Nat) (m : Team) : State :=
  let s := (dropToken s m.area).updTeam u fun m => { m with area := none, preempt := none }
  if hasGranules s u then resumeInPlace s u m else continueSave s u none

/-- ABORT, asked for or after a save-area fault: the function resumes at the source. -/
def abortStop (s : State) (f : Nat) : State :=
  let x := s.fn f
  let s := dropToken s x.migToken
  let s := s.setFn f { x with mig := .none, migToken := none, ctl := x.ctl &&& 0xA, state := 1, aborted := true }
  let s := freeSaveArea s f
  let s := (fnTeams s f).foldl (fun s p =>
    if p.2.stage = .stopping then (if p.2.buffers then s else resumeStopped s p.1 p.2)
    else s.updTeam p.1 fun m => { m with preempt := none }) s
  settle (releaseInbound s f)

/-- Step 5: the teams' records and the save area are written. -/
def writeSave (s : State) (f : Nat) (first : Option Nat) : State :=
  let s := (fnTeams s f).foldl (fun s p => if p.2.stage = .stopping then keepImage s p.1 else s) s
  match saveWrite s f 0 (areaBytes s f) with
  | (s, .done) =>
    let x := s.fn f
    s.setFn f { x with mig := .stopped, migToken := none, sdone := true, state := 2, ctl := x.ctl &&& 0xE }
  | (s, .failed) => abortStop (s.setFn f { s.fn f with sfault := true }) f
  | (s, .stalled ipa _) =>
    let (k, s) := raiseSave s f ipa 1 (.save f) first
    s.setFn f { s.fn f with migToken := some k }

/-- SAVE_DONE. -/
def execSaveDone (fn : Nat) (s : State) : Host.Outcome State Fault Refusal :=
  .next (let f := s.fn fn
  if f.mig = .saving ∧ f.migToken.isNone then writeSave s fn none else s)

/-- A write of ABORT. -/
def execAbort (fn : Nat) (s : State) : Host.Outcome State Fault Refusal :=
  .next (inFull s (if (s.fn fn).stopInProgress then abortStop s fn else setErr s fn))

/-- The deque of a core is free where one of these launches held it. -/
def freeDeque (ls : List Nat) (c : Core) : Core :=
  if (c.dqOwner.map ls.contains).getD false then { c with dqOwner := none, deque := [], spill := [] } else c

/-- A write of COMMIT: every resource of the function is freed, and the held packets go on to the new home. -/
def execCommit (fn : Nat) (s : State) : Host.Outcome State Fault Refusal :=
  .next (inFull s <|
    let f := s.fn fn
    if f.mig ≠ .stopped ∨ !f.sdone ∨ f.state ≠ 2 then setErr s fn
    else
      let us := (fnTeams s fn).map (·.1)
      let ls := (s.launches.filter fun p => p.2.fn == fn).map (·.1)
      let s : State := { s with
        teams := s.teams.filter (fun p => !us.contains p.1)
        threads := s.threads.filter (fun p => !us.contains p.2.team)
        launches := s.launches.filter (fun p => p.2.fn != fn)
        cores := s.cores.map fun p => (p.1, freeDeque ls { p.2 with admission := p.2.admission.filter fun a => !us.contains a.team }) }
      let s := s.setFn fn { f with mig := .none, en := false, state := 0, moved := true, fwdOn := f.fwd.getLsbD 63, fwdSince := s.now }
      releaseInbound s fn)

/-! ## RESTORE (R384) -/

/-- A write of RESTORE; one while another runs is refused (DEDUCED, log 123). -/
def execRestore (fn : Nat) (s : State) : Host.Outcome State Fault Refusal :=
  .next (inFull s <|
    let f := s.fn fn
    if f.state ≠ 0 ∨ f.mig ≠ .none then setErr s fn
    else s.setFn fn { f with mig := .restoring, migSince := s.now, ctl := f.ctl ||| 8 })

/-- A launch entry as read: its fixed part, and its teams' records. -/
structure LaunchRec where
  head : List Byte
  records : List (List Byte)
  deriving DecidableEq, Repr

/-- Cut the records of a launch, each padded to 4 KiB. -/
def cutRecords : Nat → List Byte → List (List Byte) × List Byte
  | 0, bs => ([], bs)
  | k + 1, bs =>
    let n := recordLength 10 bs
    let r := cutRecords k (bs.drop ((n + 4095) / 4096 * 4096))
    (bs.take n :: r.1, r.2)

/-- Cut the launch entries, each at a multiple of 4 KiB. -/
def cutLaunches : Nat → List Byte → List LaunchRec
  | 0, _ => []
  | k + 1, bs =>
    let head := bs.take 1024
    let r := cutRecords (sliceNat head 24 4) (bs.drop 1024)
    let used := bs.length - r.2.length
    ⟨head, r.1⟩ :: cutLaunches k (bs.drop ((used + 4095) / 4096 * 4096))

/-- The entry is whole and its records pass R338. -/
def LaunchRec.ok (r : LaunchRec) : Bool :=
  r.head.length == 1024 && decide (sliceNat r.head 8 1 ≤ 2) && decide (sliceNat r.head 9 1 < 32) &&
    r.records.all fun b => match readImage b with
      | some t => t.seq == sliceNat r.head 0 8 && t.record == (r.head.drop 512).take 512
      | none => false

/-- The launch of an entry, its header and placement table still to be read. The fault records that it has written are not in
the entry (R318; a free value, log 71). -/
def launchFromRec (fn now nrec : Nat) (h : List Byte) : Launch :=
  let four (i : Nat) (off : Nat) : Nat := sliceNat h (off + 8 * i) 4
  let st := sliceNat h 8 1
  { recordLaunch ((h.drop 512).take 512) with
    fn := fn, queue := sliceNat h 9 1, seq := BitVec.ofNat 48 (sliceNat h 0 8),
    stage := if st = 0 then .gated else if st = 1 then .checked else .running, priv := decide (fn = 0 ∧ sliceNat h 9 1 = 31),
    since := now, pri := (recordLaunch ((h.drop 512).take 512)).ctlPri, nextTeam := sliceNat h 12 4, ndone := sliceNat h 16 4,
    nflt := sliceNat h 20 4, nrec := nrec,
    sent := (List.range 4).foldl (fun m i => FMap.set 0 m i (four i 32)) [],
    recv := (List.range 4).foldl (fun m i => FMap.set 0 m i (four i 36)) [],
    kept := (List.range 8).map fun i => (i, BitVec.ofNat 64 (sliceNat h (96 + 8 * i) 8)) }

/-- A team of a record, not yet restored. The completion records that it has written are not in it (R257; a free value, log
71). -/
def teamOfImage (u ncompl : Nat) (l : Launch) (bs : List Byte) : Team :=
  { newTeam u (sliceNat bs 24 4) 0 l with
    stage := .saved, ncompl := ncompl, image := bs, blocks := ((readImage bs).map readRefs).getD [] }

/-- A free count. -/
def freeCount (s : State) : Nat × State := ((Config.freeWord s.freeCtr).toNat, { s with freeCtr := s.freeCtr + 1 })

/-- Load a launch and its teams. -/
def loadLaunch (fn : Nat) (s : State) (r : LaunchRec) : State :=
  let (n, s) := freeCount s
  let l := launchFromRec fn s.now n r.head
  let (u, s) := s.fresh
  let s : State := { s with launches := s.launches ++ [(u, l)] }
  r.records.foldl (fun s bs =>
    let (n, s) := freeCount s
    let (t, s) := s.fresh
    { s with teams := s.teams ++ [(t, teamOfImage u n l bs)] }) s

/-- Load queue q. -/
def loadQueue (fn : Nat) (area : List Byte) (s : State) (q : Nat) : State :=
  let b := (area.drop (0x100 + 32 * q)).take 32
  let cfg := sliceNat b 8 8
  let st := sliceNat b 24 8
  s.setLq fn q
    { base := BitVec.ofNat 64 (sliceNat b 0 8), en := cfg % 2 == 1, log := Nat.min (cfg / 256 % 16) 10,
      tail := BitVec.ofNat 32 (sliceNat b 16 4), head := BitVec.ofNat 32 (sliceNat b 20 4), badt := st % 2 == 1,
      rdf := st / 2 % 2 == 1, stalled := none }

/-- A restored launch whose header or placement table cannot be had ends, with its saved teams. -/
def endRestored (s : State) (u status : Nat) : State :=
  let s : State := { s with teams := s.teams.map fun p =>
      if p.2.launch = u ∧ p.2.stage = .saved then (p.1, { p.2 with stage := .ended, image := [], blocks := [] }) else p }
  cancelLaunch s u status

/-- The placement table of a restored launch is read again, with its header (DEDUCED, log 72). -/
def reloadPlaces (s : State) (u : Nat) (l : Launch) (h : DWord) : State :=
  let np := Nat.min l.nplace 8
  let put (s : State) (bs : List Byte) : State := s.updLaunch u fun l => { l with header := h, places := placeBytes np bs }
  if np = 0 then put s []
  else
    match areaRead s l.fn (l.queue % 4) l.placeaddr (32 * np) with
    | (s, .stalled ipa info, _) => stallLaunch s u l ipa info l.placeaddr
    | (s, .failed, _) => endRestored s u 0x12
    | (s, .done, bs) => put s bs

/-- The kernel header of a restored launch is read again: a stall waits for its answer, a failure ends the launch. -/
def reloadHeader (s : State) (u : Nat) : State :=
  match s.launch? u with
  | none => s
  | some l =>
    if !l.unread || l.token.isSome then s
    else
      match areaRead s l.fn (l.queue % 4) l.hdraddr 8 with
      | (s, .stalled ipa info, _) => stallLaunch s u l ipa info l.hdraddr
      | (s, .failed, _) => endRestored s u 0x10
      | (s, .done, bs) =>
        let h : DWord := BitVec.ofNat 64 (leNat bs)
        if headerOk h then reloadPlaces s u l h else endRestored s u 0x10

/-- A launch of the function still waits for its header, or a saved team of it finds its seats. -/
def placing (s : State) (f : Nat) : Bool :=
  (fnLaunches s f).any (fun p => p.2.unread) ||
    (fnTeams s f).any fun p => p.2.stage == .saved && ((s.launch? p.2.launch).map (restorable s p.2)).getD false

/-- Every team that finds its seats is back: STATE and EN become 1 (log 72). -/
def finishRestore (s : State) (f : Nat) : State :=
  let x := s.fn f
  s.setFn f { x with mig := .none, migToken := none, state := 1, en := true, ctl := x.ctl &&& 7, moved := false }

/-- The restore goes on once its save area is loaded: headers are read, TEAM_RESTORE brings the teams back, and then it ends. -/
def placeRestored (s : State) (f : Nat) : State :=
  let s := ((fnLaunches s f).map (·.1)).foldl reloadHeader s
  if placing s f then s else finishRestore s f

/-- Load the save area: queues, launches, teams. -/
def loadArea (s : State) (f : Nat) (area : List Byte) : State :=
  let ls := cutLaunches (sliceNat area 4 4) (area.drop 0x1000)
  let s := (List.range 32).foldl (loadQueue f area) s
  if sliceNat area 0 4 ≠ 1 ∨ !(ls.all LaunchRec.ok) then
    loseContext (ls.foldl (fun s r => loadLaunch f s { r with records := [] }) s) f
  else
    let s := ls.foldl (loadLaunch f) s
    placeRestored (s.setFn f { s.fn f with mig := .placing, migToken := none }) f

/-- A restore waits for the save area. -/
def stallRestore (s : State) (f ipa : Nat) : State :=
  let (k, s) := raiseSave s f ipa 0 (.save f) none
  s.setFn f { s.fn f with migToken := some k }

/-- Read the header of the save area, then all of its bytes. -/
def readSave (s : State) (f : Nat) : State :=
  match saveRead s f 0 0x1000 with
  | (s, .stalled ipa _, _) => stallRestore s f ipa
  | (s, .failed, _) => loseContext s f
  | (s, .done, h) =>
    match saveRead s f 0 (sliceNat h 8 8) with
    | (s, .stalled ipa _, _) => stallRestore s f ipa
    | (s, .failed, _) => loseContext s f
    | (s, .done, bs) => loadArea s f bs

/-- RESTORE_DONE: the save area is read and loaded; once what it holds is back, the restore is complete. -/
def execRestoreDone (fn : Nat) (s : State) : Host.Outcome State Fault Refusal :=
  .next (let f := s.fn fn
  if f.mig = .restoring ∧ f.migToken.isNone then readSave s fn
  else if f.mig = .placing then placeRestored s fn
  else s)

/-! ## Answers to save-area stalls, and their time-outs -/

/-- The save or the restore of a function goes on, or fails. -/
def answerSave (s : State) (f since : Nat) (resolved : Bool) : State :=
  let s := s.setFn f { s.fn f with migToken := none }
  match (s.fn f).mig with
  | .saving => if resolved then writeSave s f (some since) else abortStop (s.setFn f { s.fn f with sfault := true }) f
  | .restoring => if resolved then readSave s f else loseContext s f
  | .none | .stopping | .stopped | .committing | .aborting | .placing => s

/-- The pre-emption save of a team goes on, or fails; one that fails while a stop of its function takes it ends the stop (R386;
DEDUCED, log 106). -/
def answerTeamSave (s : State) (u since : Nat) (resolved : Bool) : State :=
  match s.team? u with
  | none => s
  | some m =>
    let s := s.updTeam u fun m => { m with area := none }
    let f := fnOfTeam s m
    if resolved then continueSave s u (some since)
    else if (s.fn f).stopInProgress then abortStop (s.setFn f { s.fn f with sfault := true }) f
    else failSave s u m f

/-- A wait that has lasted 120,000 cycles. -/
def waitedOut (s : State) (w : Wait) : Bool := decide (w.since + 120000 ≤ s.now)

/-- SAVE_AREA_STALL_TIMEOUT. -/
def execSaveAreaStallTimeout (token : Nat) (s : State) : Host.Outcome State Fault Refusal :=
  .next (match Tab.find s.pkg.waits token with
  | none => s
  | some w =>
    match w.who with
    | .save f => if (s.fn f).mig = .saving ∧ waitedOut s w then answerSave (dropWait s token) f w.since false else s
    | .teamSave u => if waitedOut s w then answerTeamSave (dropWait s token) u w.since false else s
    | _ => s)

/-- RESTORE_STALL_TIMEOUT. -/
def execRestoreStallTimeout (token : Nat) (s : State) : Host.Outcome State Fault Refusal :=
  .next (match Tab.find s.pkg.waits token with
  | none => s
  | some w =>
    match w.who with
    | .save f => if (s.fn f).mig = .restoring ∧ waitedOut s w then answerSave (dropWait s token) f w.since false else s
    | _ => s)

/-! ## Resets (R367) -/

/-- A Function Level Reset is asked for over the Helhild Link, which answers for the physical function from stage 1 on, and for
the others in stage 2 (R387). -/
def execFunctionLevelReset (fn : Nat) (s : State) : Host.Outcome State Fault Refusal :=
  .next (if booted s || (fn == 0 && s.och.stage != 0) then s.setFn fn { s.fn fn with resetAsked := true } else s)

/-- A write of 1 to RST. -/
def execFunctionReset (fn : Nat) (s : State) : Host.Outcome State Fault Refusal :=
  .next (inFull s (s.setFn fn { s.fn fn with resetAsked := true, rst := true }))

/-- The teams of a function have ended. -/
def workEnded (s : State) (f : Nat) : Bool := (fnTeams s f).all fun p => p.2.stage == .ended

/-- The reset of a function: its teams, programs and launches end; once they have, its queues return to their reset values, and
STATE is 0. -/
def resetFunction (s : State) (f : Nat) : State :=
  let s := endFunction (dropToken s (s.fn f).migToken) f
  if !workEnded s f then s.setFn f { s.fn f with migToken := none }
  else
  let s := (List.range 32).foldl (fun s q => (dropToken s (s.lq f q).stalled).setLq f q LQ.reset) s
  let x := s.fn f
  s.setFn f { x with state := 0, rst := false, resetAsked := false, mig := .none, migToken := none, ctl := 0, moved := false }

/-- FUNCTION_RESET_DONE: a reset goes on until the function's work has ended. It waits while a stop of the function is in progress. -/
def execFunctionResetDone (fn : Nat) (s : State) : Host.Outcome State Fault Refusal :=
  .next (let f := s.fn fn
  if f.resetAsked && !f.stopInProgress then resetFunction s fn else s)

/-! ## PK_FNCTL and the cluster masks (R370, R371) -/

/-- A write of PK_FNCTL. One that sets EN is refused while STATE is 2 or 3 or a stop is in progress; on a function whose
STATE is 0 it makes the function active. EN of a virtual function needs VF Enable. -/
def execFunctionEnable (fn : Nat) (x : DWord) (s : State) : Host.Outcome State Fault Refusal :=
  .next (inFull s <|
    let f := s.fn fn
    let en := x.getLsbD 0
    if en && (f.state == 2 || f.state == 3 || f.stopInProgress) then setErr s fn
    else
      let wgt := x.toNat / 2 ^ 8 % 256
      let f := { f with
        err := f.err && !x.getLsbD 4, wgt := BitVec.ofNat 8 (if wgt = 0 then 1 else wgt),
        ways := BitVec.ofNat 16 (x.toNat / 2 ^ 16), rst := f.rst || x.getLsbD 1, resetAsked := f.resetAsked || x.getLsbD 1 }
      if en ∧ fn ≠ 0 ∧ !s.pkg.vfEnable then s.setFn fn f
      else if en then s.setFn fn { f with en := true, state := if f.state = 0 then 1 else f.state, moved := false }
      else s.setFn fn { f with en := false })

/-- The clusters of a half mask on which a team of the function holds resources. -/
def residentMask (s : State) (fn : Nat) (hi : Bool) : DWord :=
  (fnTeams s fn).foldl (fun m p =>
    let k := clusterOf p.2.core
    if p.2.holds && (decide (64 ≤ k) == hi) then m ||| BitVec.ofNat 64 (2 ^ (k % 64)) else m) 0

/-- A write of PK_FNCLU0 or PK_FNCLU1. -/
def execClusterMaskWrite (fn : Nat) (hi : Bool) (x : DWord) (s : State) : Host.Outcome State Fault Refusal :=
  .next (inFull s <|
    let f := s.fn fn
    let bad : DWord := BitVec.ofNat 64 (s.och.failed.toNat / (if hi then 2 ^ 64 else 1))
    let v := x &&& ~~~bad
    if residentMask s fn hi &&& ~~~v ≠ 0 then setErr s fn
    else s.setFn fn (if hi then { f with clu1 := v } else { f with clu0 := v }))

end Sys2Proof.Machine
end

