-- ==== Sys2Proof/Machine/Package.lean ====
section
/-! DEFINITION. The hypervisor's ring and its answers, the walker, the pin map, the channel hash, the page pool, and system
Mordant programs (R320, R344 to R347, R353, R356, R374 to R377, R417). -/

namespace Sys2Proof.Machine

/-! ## The event ring (R356) -/

/-- The 32 bytes of an event. -/
def eventBytes (seq : BitVec 48) (e : HvEvent) : List Byte :=
  leBytes 6 seq.toNat ++ leBytes 1 e.type ++ leBytes 1 e.fn ++ leBytes 8 e.addr.toNat ++ leBytes 8 e.time ++
    leBytes 4 e.token ++ leBytes 1 e.info ++ leBytes 3 0

/-- Write where memory exists. -/
def writePhys (s : State) (pa : Nat) (bs : List Byte) : State := if isHbm pa || isHost pa then performWrite s 0 pa bs else s

/-- HV_EVENT_WRITE: the oldest waiting event goes to the ring while it is enabled and has room; then TAIL advances. -/
def execHvEventWrite (s : State) : Host.Outcome State Fault Refusal :=
  .next (match s.pkg.hvEvents with
  | [] => s
  | e :: rest =>
    let p := s.pkg
    if !p.hvrEn || (p.hvrTail - p.hvrHead).toNat == 2 ^ p.hvrLog then s
    else
      let a := p.hvrBase.toNat / 4096 * 4096 + 32 * (p.hvrTail.toNat % 2 ^ p.hvrLog)
      let s := writePhys s a (eventBytes p.hvSeq e)
      { s with pkg := { s.pkg with hvEvents := rest, hvSeq := p.hvSeq + 1, hvrTail := p.hvrTail + 1 } })

/-! ## Answers (R149, R320, R321, R354, R356, R417) -/

/-- A stalled thread: resolved, it enters the table at its instruction; refused, its team ends with F_PERM, or F_SAVE for a
deque area. -/
def answerThread (s : State) (u x tok : Nat) (w : Wait) (resolved : Bool) : State :=
  match s.thread? u x with
  | none => s
  | some t =>
    if t.place ≠ .stalled tok then s
    else if !resolved then threadFault s t (if w.type = 0x0A then .save else .perm) { addr := w.va.toNat }
    else if ((s.team? u).map fun m => m.stage == .stopping).getD false then
      s.setThread { t with place := .held (.save s.now) }
    else arrive s t t.pc

def answerProgram (s : State) (u tok : Nat) (w : Wait) (resolved : Bool) : State :=
  match s.program? u with
  | none => s
  | some p =>
    if p.stalled ≠ some tok then s
    else
      let s := s.updProgram u fun p => { p with stalled := none }
      if resolved then s else mFault s u .refused w.va.toNat

/-- The status of a launch whose check or gate met a refused stall. -/
def gateStatus (l : Launch) (va : DWord) : Nat :=
  if (List.range l.ndep).any fun i => l.depAddr i == va.toNat then 0x15
  else if va.toNat = l.hdraddr then 0x10 else 0x12

def answerGate (s : State) (u tok : Nat) (w : Wait) (resolved : Bool) : State :=
  match s.launch? u with
  | none => s
  | some l =>
    if l.token ≠ some tok then s
    else
      let s := s.updLaunch u fun l => { l with token := none }
      if l.stage ≠ .gated then (if resolved then s else endRestored s u (gateStatus l w.va))
      else if !resolved then refuseLaunch s u (gateStatus l w.va)
      else if (s.fn l.fn).mig = .none then gateStep s u else s

def answerLease (s : State) (u tok : Nat) (resolved : Bool) : State :=
  match s.launch? u with
  | none => s
  | some l =>
    if l.token ≠ some tok then s
    else
      let s := s.updLaunch u fun l => { l with token := none }
      if resolved then s else cancelLaunch s u 0x14

def answerQueue (s : State) (f q tok : Nat) (resolved : Bool) : State :=
  let l := s.lq f q
  if l.stalled ≠ some tok then s
  else if resolved then s.setLq f q { l with stalled := none } else skipSlot s f q

/-- A phase record of a team: the team makes its access again, or ends with F_SAVE. -/
def answerTeamArea (s : State) (u tok : Nat) (va : DWord) (resolved : Bool) : State :=
  match s.team? u with
  | none => s
  | some m =>
    if m.area ≠ some tok then s
    else
      let s := s.updTeam u fun m => { m with area := none }
      if resolved then s else postTeamFault s u m .save { addr := va.toNat }

/-- The programs of a team that a fill held go on. -/
def resumePrograms (s : State) (u : Nat) : State := (programsOf s u).foldl resumeProgram s

/-- A fill of a register in a phase record: it is made in its turn among those of the register, and may stall again; refused,
the team ends with F_SAVE. -/
def answerFill (s : State) (tok : Nat) (w : Wait) (u tix v : Nat) (x : RegVal) (k : TagKind) (resolved : Bool) : State :=
  if resolved then
    let s := retryFills { s with pkg := { s.pkg with waits := Tab.put s.pkg.waits tok w } } u tix v
    resumePrograms (if (Tab.find s.pkg.waits tok).isSome then putFill (dropWait s tok) u tix v x k else settle s) u
  else
    match s.team? u with
    | some m => resumePrograms (postTeamFault s u m .save { addr := w.va.toNat }) u
    | none => s

/-- Buffered stores of a team that translate again: they drain, or the team ends with F_PERM (log 94). Those of a team whose phase a
fault or a discard ends are freed unperformed (R150, R175). -/
def answerDrain (s : State) (u : Nat) (w : Wait) (resolved : Bool) : State :=
  match s.team? u with
  | none => s
  | some m =>
    if m.frees then s
    else if resolved then settle (drain s u m)
    else drainFault (if m.stage = .ending then freeEntries s m.core u else s) u m w.va.toNat

/-- A request that translates again: it goes on when its turn comes, or its thread faults F_PERM (log 94). -/
def answerReq (s : State) (k : Nat) (resolved : Bool) : State :=
  match Tab.find s.reqs k with
  | none => s
  | some r =>
    if resolved then s else failReq s k r .perm

/-- An area access that nothing of the launch waits for: made again, or dropped, with RDF where the rule says so. -/
def answerArea (s : State) (launch tok : Nat) (va : DWord) (bs : List Byte) (team : Nat) (lq sig resolved : Bool) : State :=
  match s.launch? launch with
  | none => s
  | some l =>
    if team ≠ 0 then answerTeamArea s team tok va resolved
    else if !resolved then
      let s := if lq then setRdf s l.fn l.queue else s
      if lq && !sig then signalAfter s launch l else s
    else if sig then signal s launch l
    else if lq then postLaunchRecord s launch l bs
    else areaPost s launch l (l.queue % 4) va bs lq

/-- An answer reaches its waiter, whose wait is over. -/
def answerWait (s : State) (tok : Nat) (w : Wait) (v : Word) : State :=
  let resolved := v == 0
  match w.who with
  | .thread u x => answerThread s u x tok w resolved
  | .program u => answerProgram s u tok w resolved
  | .lease u => answerLease s u tok resolved
  | .queue f q => answerQueue s f q tok resolved
  | .gate u => answerGate s u tok w resolved
  | .hcall u x => fillCall s u x v
  | .save f => answerSave s f w.since resolved
  | .teamSave u => answerTeamSave s u w.since resolved
  | .fabric k => answerInbound s k resolved
  | .area l va bs u lq sig => answerArea s l tok va bs u lq sig resolved
  | .fill u x v r k => answerFill s tok w u x v r k resolved
  | .record p va => resumeRecord s p va resolved
  | .drain u => answerDrain s u w resolved
  | .req k => answerReq s k resolved

/-- A write of PK_HVANS: a token that nothing waits on is ignored. -/
def answerToken (s : State) (x : DWord) : State :=
  let s : State := { s with pkg := { s.pkg with hvValue := highWord x } }
  let tok := x.toNat % 2 ^ 32
  match Tab.find s.pkg.waits tok with
  | none => s
  | some w => answerWait (dropWait s tok) tok w (highWord x)

def execHvAnswer (x : DWord) (s : State) : Host.Outcome State Fault Refusal := .next (inFull s (answerToken s x))

/-- AREA_STALL_TIMEOUT: an area stall not answered within 120,000 cycles fails. -/
def execAreaStallTimeout (token : Nat) (s : State) : Host.Outcome State Fault Refusal :=
  .next (match Tab.find s.pkg.waits token with
  | none => s
  | some w => if w.type = 0x0A ∧ waitedOut s w then answerWait (dropWait s token) token w 1 else s)

/-- With the ring disabled, every `hcall` that waits to be written is answered at once. -/
def answerCalls (s : State) : State :=
  if s.pkg.hvrEn then s
  else
    (s.pkg.hvEvents.filter fun e => e.type == 5 || e.type == 9).foldl (fun s e =>
      match Tab.find s.pkg.waits e.token with
      | some w => answerWait (dropWait s e.token) e.token w 0xFFFFFFFF
      | none => s) s

/-! ## The walker (R352, R353) -/

/-- TLB_WALK: the oldest prefetch walk of a die completes with the tables as they stand. It fills the die's TLB and the
cluster's, or is dropped where it misses. -/
def execTlbWalk (die : Nat) (s : State) : Host.Outcome State Fault Refusal :=
  .next (match (s.die die).walks with
  | [] => s
  | (k, fn, va) :: rest =>
    let s := s.setDie die { s.die die with walks := rest }
    let (r, reads) := walk s fn va
    let s := reads.foldl (fun s a => llcRead s fn a 8) s
    match r with
    | .ok log d1 d2 ipa log2 =>
      let e := xlatOf fn va log d1 d2 ipa log2
      (s.useTlb (.dieOnly die) e).useTlb (.mordant k) e
    | .bad1 | .miss2 _ _ => s)

/-! ## The pin map (R344) -/

/-- PK_PINSET with GO = 1 is refused. -/
def pinRefused (s : State) (x : DWord) : Bool :=
  let g := x.toNat % 2 ^ 17
  s.pkg.pinGo || decide (73727 < g) || x.toNat / 2 ^ 17 % 2 ^ 15 != 0 || x.toNat / 2 ^ 33 % 2 ^ 29 != 0 || g % 18432 == 18431

/-- PIN_SET: a write of PK_PINSET. -/
def execPinSet (x : DWord) (s : State) : Host.Outcome State Fault Refusal :=
  .next (
    let p := { s.pkg with pinErr := s.pkg.pinErr && !x.getLsbD 62 }
    let g : BitVec 17 := BitVec.ofNat 17 x.toNat
    if !booted s then s
    else if !x.getLsbD 63 then { s with pkg := { p with pinGroup := g } }
    else if pinRefused s x then { s with pkg := { p with pinErr := true } }
    else { s with pkg := { p with pinGo := true, pinGroup := g, pinTarget := g, pinMode := x.getLsbD 32 } })

/-- PIN_SET_DONE: the group leaves the caches, takes its mode and is zeroed. -/
def execPinSetDone (s : State) : Host.Outcome State Fault Refusal := .next (if s.pkg.pinGo then finishPin s else s)

/-! ## The channel hash (R345, R347) -/

/-- A mask's bits at positions 8 to 12 and 19, as a row of the matrix. -/
def maskRow (m : DWord) : Nat :=
  ([8, 9, 10, 11, 12, 19].foldl (fun (acc : Nat × Nat) i => (acc.1 + (if m.getLsbD i then acc.2 else 0), acc.2 * 2)) (0, 1)).1

/-- No combination of the six rows is zero. -/
def invertible (rows : List Nat) : Bool :=
  (List.range (2 ^ rows.length - 1)).all fun k =>
    ((List.range rows.length).foldl (fun x i => if (k + 1) / 2 ^ i % 2 = 1 then x ^^^ rows.getD i 0 else x) 0) != 0

def masksOk (p : Pkg) : Bool := invertible (((List.range 5).map fun i => maskRow (FMap.get 0 p.hash i)) ++ [maskRow p.hashP])

/-- Nothing runs that an APPLY would pull memory from under. -/
def applyAllowed (s : State) : Bool :=
  !(s.teams.any fun p => p.2.holds) && s.programs.isEmpty && ((List.range 63).all fun i => !(s.fn (i + 1)).en) && masksOk s.pkg

/-- A write of 1 to APPLY; one that succeeds while another is under way puts its own masks in force with it. -/
def applyHash (s : State) : State :=
  if applyAllowed s then
    { s with pkg := { s.pkg with apply := true, checked := s.pkg.hash, checkedP := s.pkg.hashP } }
  else { s with pkg := { s.pkg with hashErr := true } }

def execHashApply (s : State) : Host.Outcome State Fault Refusal := .next (inFull s (applyHash s))

/-- HASH_APPLY_DONE. -/
def execHashApplyDone (s : State) : Host.Outcome State Fault Refusal := .next (if s.pkg.apply then finishApply s else s)

/-! ## The clean page pool (R374, R375) -/

/-- Pages of a die that the pool may hold: all but the bitmap range. -/
def poolPages : Nat := 55294

/-- A 2 MiB page number that lies in the pool's range. -/
def poolPage (p : Nat) : Bool := decide (p < 4 * 65536) && decide (p % 65536 < poolPages)

def pageClean (s : State) (p : Nat) : Bool := poolPage p && !FMap.get false s.pkg.taken p && !s.pkg.queued.contains p

/-- The lowest clean page from `p` on. -/
def lowestClean (s : State) : Nat → Nat → Option Nat
  | 0, _ => none
  | n + 1, p =>
    if 4 * 65536 ≤ p then none
    else if poolPages ≤ p % 65536 then lowestClean s n ((p / 65536 + 1) * 65536)
    else if pageClean s p then some p
    else lowestClean s n (p + 1)

/-- More pages than are taken or queued, and more than the dies' ends. -/
def searchSteps (s : State) : Nat := s.pkg.taken.length + s.pkg.queued.length + 5

/-- A read of PK_SCRALLOC: held while the pool is empty and the queue is not; 0 when both are empty. -/
def allocPage (s : State) : State :=
  let ret (s : State) (v : Nat) : State := { s with pkg := { s.pkg with readback := leBytes 8 v } }
  match lowestClean s (searchSteps s) 0 with
  | some p => ret { s with pkg := { s.pkg with taken := FMap.set false s.pkg.taken p true } } (p * 2 ^ 21)
  | none =>
    if s.pkg.queued.isEmpty then ret s 0
    else { s with pkg := { s.pkg with allocHeld := s.pkg.allocHeld + 1, readback := [] } }

/-- The held reads of PK_SCRALLOC take the clean pages that there are, oldest first. -/
def serveHeld : Nat → State → State
  | 0, s => s
  | n + 1, s =>
    match lowestClean s (searchSteps s) 0 with
    | some _ => serveHeld n (allocPage { s with pkg := { s.pkg with allocHeld := s.pkg.allocHeld - 1 } })
    | none => s

/-- A read of PK_SCRALLOC comes after those that are held. -/
def readAlloc (s : State) : State := allocPage (serveHeld s.pkg.allocHeld s)

def execPageAlloc (s : State) : Host.Outcome State Fault Refusal := .next (if booted s then readAlloc s else s)

/-- PAGE_FREE: a write of PK_SCRFREE. One of ERR alone clears it; any other frees a page or is refused. -/
def execPageFree (x : DWord) (s : State) : Host.Outcome State Fault Refusal :=
  .next (
    let page := x.toNat / 2 ^ 21
    let p := { s.pkg with freeErr := s.pkg.freeErr && !x.getLsbD 0 }
    if !booted s then s
    else if x = 1 then { s with pkg := p }
    else if x.toNat / 2 % 2 ^ 20 ≠ 0 ∨ !poolPage page ∨ pageClean s page ∨ s.pkg.queued.contains page then
      { s with pkg := { p with freeErr := true } }
    else { s with pkg := { p with taken := FMap.set false p.taken page false, queued := p.queued ++ [page] } })

/-- PAGE_SCRUB_DONE: the page at the head of the queue is zeroed and joins the clean pool, and a held read takes it. -/
def execPageScrubDone (s : State) : Host.Outcome State Fault Refusal :=
  .next (
    let s := match s.pkg.queued with
      | p :: _ => scrubPage s p
      | [] => s
    serveHeld s.pkg.allocHeld s)

/-! ## System Mordant programs (R376, R377) -/

def systemBusy (s : State) (die : Nat) : Bool := s.programs.any fun p => p.2.system == some die

/-- SYSTEM_MORDANT_START: a write of PK_SMENTRY starts a program, or sets ERR while one runs. -/
def execSystemMordantStart (die : Nat) (x : DWord) (s : State) : Host.Outcome State Fault Refusal :=
  .next (
    let d := s.die die
    if !booted s then s
    else if systemBusy s die then s.setDie die { d with smStat := d.smStat ||| 2 }
    else
      let entry : DWord := BitVec.ofNat 64 (x.toNat / 8 * 8)
      let s := s.setDie die { d with smEntry := entry, mdSeq := d.mdSeq + 1 }
      let (u, s) := s.fresh
      let p := { newProgram 0 (die * 32) none 0 entry d.mdSeq [d.smArg] 0 s.now none [] with system := some die }
      { s with programs := Tab.put s.programs u p })

end Sys2Proof.Machine
end

