-- ==== Sys2Proof/Machine/Csr.lean ====
section
/-! DEFINITION. The registers of the die and the package that are reached by number (R299, R346, R356, R360). `put` gives the
new value of a field that is written, from its old one; `clr` holds a 1 where a write-1-to-clear field is cleared. -/

namespace Sys2Proof.Machine

/-- DI_LLCERR of a die. -/
def errRead (s : State) (die : Nat) : DWord := BitVec.ofNat 64 ((s.die die).ce.toNat + (s.die die).ue.toNat * 2 ^ 32)

def errPut (s : State) (die clr : Nat) : State :=
  let d := s.die die
  s.setDie die { d with ce := d.ce &&& ~~~(BitVec.ofNat 32 clr), ue := d.ue &&& ~~~(BitVec.ofNat 16 (clr / 2 ^ 32)) }

/-- PK_S1ROOT of a function, bits 51:20. -/
def rootPut (s : State) (fn : Nat) (put : Nat → Nat) : State :=
  let f := s.fn fn
  s.setFn fn { f with s1root := BitVec.ofNat 64 (put f.s1root.toNat % 2 ^ 52 / 2 ^ 20 * 2 ^ 20) }

/-- A register of the privileged view. -/
def packageRead (s : State) (n : Nat) : DWord :=
  let p := s.pkg
  if n < 0x105 then FMap.get 0 p.hash (n - 0x100)
  else if 0x140 ≤ n then (FMap.get 0 p.pccnt (n - 0x140)).setWidth 64
  else match n with
  | 0x105 => p.hashP
  | 0x106 => BitVec.ofNat 64 ((if p.apply then 1 else 0) + (if p.hashErr then 2 else 0))
  | 0x107 => p.pcsel.setWidth 64
  | 0x111 => (s.fn p.fnsel.toNat).s2root
  | 0x112 => p.fnsel.setWidth 64
  | 0x118 => p.hvrBase
  | 0x119 => BitVec.ofNat 64 ((if p.hvrEn then 1 else 0) + p.hvrLog * 16)
  | 0x11A => p.hvrTail.setWidth 64
  | 0x11B => p.hvrHead.setWidth 64
  | 0x11C => BitVec.ofNat 64 (p.hvValue.toNat * 2 ^ 32)
  | _ => 0

/-- PK_HASHCTL: ERR is cleared first, and a 1 written to APPLY, in `x`, asks for the masks to be applied. -/
def putHashCtl (s : State) (x clr : Nat) : State :=
  let s : State := { s with pkg := { s.pkg with hashErr := s.pkg.hashErr && !(clr / 2 % 2 == 1) } }
  if x % 2 = 1 then applyHash s else s

/-- PK_HVRCFG: LOG is at least 7; with EN 0 no `hcall` goes on waiting to be written. -/
def putRingCfg (s : State) (x : Nat) : State :=
  answerCalls { s with pkg := { s.pkg with hvrEn := x % 2 == 1, hvrLog := Nat.max 7 (x / 16 % 16) } }

/-- PK_S2ROOT of the selected function, bits 51:16. -/
def putStage2 (s : State) (put : Nat → Nat) : State :=
  let k := s.pkg.fnsel.toNat
  let f := s.fn k
  s.setFn k { f with s2root := BitVec.ofNat 64 (put f.s2root.toNat % 2 ^ 52 / 2 ^ 16 * 2 ^ 16) }

/-- A write of a register of the privileged view. -/
def packagePut (s : State) (n : Nat) (put : Nat → Nat) (clr : Nat) : State :=
  let p := s.pkg
  let new := put (packageRead s n).toNat
  if n < 0x105 then { s with pkg := { p with hash := FMap.set 0 p.hash (n - 0x100) (BitVec.ofNat 64 (new % 2 ^ 36)) } }
  else if 0x140 ≤ n then
    let c := FMap.get 0 p.pccnt (n - 0x140)
    { s with pkg := { p with pccnt := FMap.set 0 p.pccnt (n - 0x140) (c &&& ~~~(BitVec.ofNat 48 clr)) } }
  else match n with
  | 0x105 => { s with pkg := { p with hashP := BitVec.ofNat 64 (new % 2 ^ 36) } }
  | 0x106 => putHashCtl s (put 0) clr
  | 0x107 => { s with pkg := { p with pcsel := BitVec.ofNat 4 (Nat.min 11 (new % 16)) } }
  | 0x111 => putStage2 s put
  | 0x112 => { s with pkg := { p with fnsel := BitVec.ofNat 6 new } }
  | 0x118 => { s with pkg := { p with hvrBase := BitVec.ofNat 64 (new / 4096 * 4096) } }
  | 0x119 => putRingCfg s new
  | 0x11B => { s with pkg := { p with hvrHead := BitVec.ofNat 32 new } }
  | 0x11C => answerToken s (BitVec.ofNat 64 new)
  | _ => s

end Sys2Proof.Machine
end

