-- ==== Sys2Proof/Machine/Crypto.lean ====
section
/-! DEFINITION. SHA-256 and ECDSA on the P-256 curve, by which firmware images and attestation messages are signed (R10, R388,
R391). The spec names them; their computation is that of their published standards (PRESUMED, log 11). -/

namespace Sys2Proof.Machine

/-! ## SHA-256 -/

/-- Big-endian value and bytes. -/
def beNat (bs : List Byte) : Nat := leNat bs.reverse
def beBytes (n x : Nat) : List Byte := (leBytes n x).reverse

/-- The greatest `r` below `2 ^ b`, above what is fixed of it already, whose `k`th power is at most `n`. -/
def rootFrom (k n : Nat) : Nat → Nat → Nat
  | 0, r => r
  | b + 1, r => rootFrom k n b (if (r + 2 ^ b) ^ k ≤ n then r + 2 ^ b else r)

/-- The first 64 primes: below 312, one that none of the smaller ones to 17 divides. -/
def smallPrimes : List Nat :=
  (List.range 312).filter fun p => decide (2 ≤ p) && (List.range 18).all fun d => decide (d < 2) || d == p || p % d != 0

/-- The first 32 bits of the fraction of the `k`th root of `p`. -/
def rootFraction (k p : Nat) : Word := BitVec.ofNat 32 (rootFrom k (p * 2 ^ (32 * k)) 40 0)

/-- The round constants: the fractions of the cube roots of the primes. -/
def shaConstants : List Word := smallPrimes.map (rootFraction 3)

/-- The eight working words. -/
structure ShaState where
  a : Word
  b : Word
  c : Word
  d : Word
  e : Word
  f : Word
  g : Word
  h : Word
  deriving DecidableEq, Repr

/-- The first working words: the fractions of the square roots of the first eight primes. -/
def shaStart : ShaState :=
  let r (i : Nat) : Word := rootFraction 2 (smallPrimes.getD i 0)
  ⟨r 0, r 1, r 2, r 3, r 4, r 5, r 6, r 7⟩

/-- The message schedule, newest word first, `n` words longer. -/
def shaSchedule : Nat → List Word → List Word
  | 0, ws => ws
  | n + 1, ws =>
    let x := ws.getD 1 0
    let y := ws.getD 14 0
    let w := (x.rotateRight 17 ^^^ x.rotateRight 19 ^^^ (x >>> 10)) + ws.getD 6 0 +
      (y.rotateRight 7 ^^^ y.rotateRight 18 ^^^ (y >>> 3)) + ws.getD 15 0
    shaSchedule n (w :: ws)

def shaRound (s : ShaState) (kw : Word × Word) : ShaState :=
  let t1 := s.h + (s.e.rotateRight 6 ^^^ s.e.rotateRight 11 ^^^ s.e.rotateRight 25) + ((s.e &&& s.f) ^^^ (~~~s.e &&& s.g)) +
    kw.1 + kw.2
  let t2 := (s.a.rotateRight 2 ^^^ s.a.rotateRight 13 ^^^ s.a.rotateRight 22) +
    ((s.a &&& s.b) ^^^ (s.a &&& s.c) ^^^ (s.b &&& s.c))
  ⟨t1 + t2, s.a, s.b, s.c, s.d + t1, s.e, s.f, s.g⟩

/-- One block of 64 bytes. -/
def shaBlock (s : ShaState) (block : List Byte) : ShaState :=
  let first : List Word := (List.range 16).map fun i => BitVec.ofNat 32 (beNat ((block.drop (4 * i)).take 4))
  let t := (shaConstants.zip (shaSchedule 48 first.reverse).reverse).foldl shaRound s
  ⟨s.a + t.a, s.b + t.b, s.c + t.c, s.d + t.d, s.e + t.e, s.f + t.f, s.g + t.g, s.h + t.h⟩

/-- The message with its padding and its length in bits. -/
def shaPad (bs : List Byte) : List Byte :=
  bs ++ 0x80 :: List.replicate ((119 - bs.length % 64) % 64) 0 ++ beBytes 8 (8 * bs.length)

/-- The 32 bytes of a digest. -/
def sha256 (bs : List Byte) : List Byte :=
  let m := shaPad bs
  let t := (List.range (m.length / 64)).foldl (fun s i => shaBlock s ((m.drop (64 * i)).take 64)) shaStart
  [t.a, t.b, t.c, t.d, t.e, t.f, t.g, t.h].flatMap fun w => beBytes 4 w.toNat

/-! ## The curve -/

def curveP : Nat := 0xffffffff00000001000000000000000000000000ffffffffffffffffffffffff
def curveN : Nat := 0xffffffff00000000ffffffffffffffffbce6faada7179e84f3b9cac2fc632551

/-- A point; none for the point at infinity. -/
abbrev Point := Option (Nat × Nat)

def curveG : Point :=
  some (0x6b17d1f2e12c4247f8bce6e563a440f277037d812deb33a0f4a13945d898c296,
    0x4fe342e2fe1a7f9b8ee7eb4a7c0f9e162bce33576b315ececbb6406837bf51f5)

/-- `x` to the power whose bits are `n`'s, least significant first, modulo `m`. -/
def powMod (m : Nat) : Nat → Nat → Nat → Nat
  | 0, _, _ => 1 % m
  | k + 1, x, n => (if n % 2 = 1 then x else 1) * powMod m k (x * x % m) (n / 2) % m

/-- The inverse modulo a prime. -/
def inverse (m x : Nat) : Nat := powMod m 256 (x % m) (m - 2)

def subMod (m x y : Nat) : Nat := (x + (m - y % m)) % m

/-- The third point of a line of a slope, mirrored. -/
def chord (slope x1 y1 x2 : Nat) : Point :=
  let x3 := subMod curveP (subMod curveP (slope * slope % curveP) x1) x2
  some (x3, subMod curveP (slope * subMod curveP x1 x3 % curveP) y1)

/-- Sum of two points. -/
def pointAdd (p q : Point) : Point :=
  match p, q with
  | none, q => q
  | p, none => p
  | some (x1, y1), some (x2, y2) =>
    if x1 = x2 then
      if (y1 + y2) % curveP = 0 then none
      else chord ((3 * x1 * x1 + (curveP - 3)) % curveP * inverse curveP (2 * y1) % curveP) x1 y1 x2
    else chord (subMod curveP y2 y1 * inverse curveP (subMod curveP x2 x1) % curveP) x1 y1 x2

/-- The multiple of a point by the low `k` bits of `n`. -/
def pointMul : Nat → Nat → Point → Point
  | 0, _, _ => none
  | k + 1, n, p => pointAdd (if n % 2 = 1 then p else none) (pointMul k (n / 2) (pointAdd p p))

/-! ## ECDSA -/

/-- The signature r, s of a digest with a private key and a secret number; where one of the two is 0, it is given so (DESIGN
CHOICE, log 11). -/
def ecdsaSign (key secret : Nat) (digest : List Byte) : Nat × Nat :=
  match pointMul 256 secret curveG with
  | none => (0, 0)
  | some (x, _) =>
    let r := x % curveN
    (r, inverse curveN secret * ((beNat digest + r * key) % curveN) % curveN)

/-- Whether a signature of a digest is that of a public key. -/
def ecdsaVerify (key : Nat × Nat) (digest : List Byte) (sig : Nat × Nat) : Bool :=
  let (r, v) := sig
  let w := inverse curveN v
  decide (0 < r) && decide (r < curveN) && decide (0 < v) && decide (v < curveN) &&
    match pointAdd (pointMul 256 (beNat digest * w % curveN) curveG) (pointMul 256 (r * w % curveN) (some key)) with
    | some (x, _) => x % curveN == r
    | none => false

end Sys2Proof.Machine
end

