-- ==== Sys2Proof/Machine/Registers.lean ====
section
/-! DEFINITION. What the registers of the function control page read as (R366, R370, R374, R376, R389, R397, R412). -/

namespace Sys2Proof.Machine

def bit (b : Bool) (i : Nat) : Nat := if b then 2 ^ i else 0

/-- A register of the block of function `f` (R370). -/
def fnRead (s : State) (f o : Nat) : Nat :=
  let x := s.fn f
  match o with
  | 0x00 => bit x.en 0 + bit x.rst 1 + x.state.toNat * 4 + bit x.err 4 + x.wgt.toNat * 2 ^ 8 + x.ways.toNat * 2 ^ 16
  | 0x08 => x.clu0.toNat
  | 0x10 => x.clu1.toNat
  | 0x18 => x.save.toNat
  | 0x20 => x.savesz.toNat
  | 0x28 => x.ctl.toNat
  | 0x30 => x.qcyc.toNat + bit x.qdone 32 + bit x.sdone 33 + bit x.aborted 34 + bit x.qlate 35 + bit x.sfault 36
  | _ => 0

/-- The clean pool and the pin map (R344, R374). -/
def poolRead (s : State) (off : Nat) : Nat :=
  let p := s.pkg
  match off with
  | 0x4000 => bit p.freeErr 0
  | 0x4010 => (4 * poolPages - p.taken.length - p.queued.length) + p.queued.length * 2 ^ 32
  | 0x4018 =>
    let mode := if p.pinGo then p.pinMode else FMap.get false p.pins p.pinGroup.toNat
    p.pinGroup.toNat + bit mode 32 + bit p.pinErr 62 + bit p.pinGo 63
  | _ => 0

/-- A register of the system engines of die `d` (R376). -/
def systemRead (s : State) (d o : Nat) : Nat :=
  let x := s.die d
  match o with
  | 0x00 => x.smEntry.toNat
  | 0x08 => x.smArg.toNat
  | 0x10 => x.smRing.toNat
  | 0x18 => bit (systemBusy s d) 0 + (x.smStat.toNat / 2 % 2) * 2
  | _ => 0

/-- Ochre's registers (R389). -/
def ochreRead (s : State) (off : Nat) : Nat :=
  let o := s.och
  if 0x8100 ≤ off ∧ off < 0x8900 then (FMap.get 0 o.sens ((off - 0x8100) / 8)).toNat
  else if 0x8900 ≤ off ∧ off < 0x8A00 then (FMap.get 0 o.rail ((off - 0x8900) / 8)).toNat
  else if 0x8A00 ≤ off ∧ off < 0x8E00 then
    let c := (off - 0x8A00) / 8
    (s.cluster c).level + (FMap.get 0 o.skipped c).toNat * 2 ^ 16
  else match off with
  | 0x8000 => o.stage + bit o.bfail 2 + bit o.nextImage.isSome 3
  | 0x8008 => o.logBase + o.logLog
  | 0x8010 => o.logSeq % 2 ^ 48
  | 0x8018 => o.lost.toNat
  | 0x8020 => o.upd.toNat
  | 0x8028 => o.updLen.toNat
  | 0x8030 => bit o.updBusy 1 + bit o.updErr 2 + o.updResult * 8
  | 0x8040 => o.att.toNat
  | 0x8048 => bit o.attBusy 1 + bit o.attErr 2
  | 0x8050 => o.pcap
  | _ => 0

/-- A register of the fabric block of function `f` (R412). -/
def fabricRead (s : State) (f o : Nat) : Nat :=
  let x := s.fn f
  match o with
  | 0x00 => x.vdnbase.toNat
  | 0x08 => x.fmroot.toNat
  | 0x10 => x.fmacl.toNat
  | 0x18 => x.fwd.toNat
  | 0x20 => x.rctx.toNat
  | 0x28 => x.ferr.toNat
  | 0x30 => x.vdninv.toNat
  | _ => 0

/-- A register of an Ethernet queue pair (R412). -/
def eqRead (s : State) (port k o : Nat) : Nat :=
  let x := s.eq port k
  match o with
  | 0x00 => x.tx.toNat
  | 0x08 => x.rx.toNat
  | 0x10 => x.cfg.toNat
  | 0x18 => x.drop.toNat
  | _ => 0

/-- The status register of a scale-up port (R397). -/
def portRead (s : State) (p : Nat) : Nat :=
  let x := FMap.get Port.reset s.fab.ports p
  x.state + x.spared * 2 ^ 4 + x.replay * 2 ^ 8 + x.swaps * 2 ^ 32

/-- The register of the control page at an aligned offset, in stage 2. PK_SCRALLOC, whose read acts, is not one of them. -/
def fullRead (s : State) (off : Nat) : Nat :=
  if off < 0x4000 then fnRead s (off / 0x100) (off % 0x100)
  else if off < 0x4100 then poolRead s off
  else if off < 0x4200 then systemRead s ((off - 0x4100) / 0x40) (off % 0x40)
  else if 0x8000 ≤ off ∧ off < 0x9000 then ochreRead s off
  else if 0xC000 ≤ off ∧ off < 0xD000 then fabricRead s ((off - 0xC000) / 0x40) (off % 0x40)
  else if 0xD000 ≤ off ∧ off < 0xD800 then eqRead s ((off - 0xD000) / 0x400) ((off - 0xD000) / 0x40 % 16) (off % 0x40)
  else if 0xE000 ≤ off ∧ off < 0xE080 then portRead s ((off - 0xE000) / 8)
  else if off = 0xE100 then s.fab.mcw.toNat
  else if off = 0xE108 then s.fab.mcList.toNat
  else 0

/-- What a read of the control page returns (R387): in stages 1 and 3, Ochre's part alone; in stage 0, nothing. -/
def pageRead (s : State) (off : Nat) : DWord :=
  if off % 8 ≠ 0 then 0
  else if booted s then BitVec.ofNat 64 (fullRead s off)
  else if s.och.stage ≠ 0 ∧ 0x8000 ≤ off ∧ off < 0x9000 then BitVec.ofNat 64 (ochreRead s off)
  else 0

/-- The bytes of the control page from 0 to 0x3FFF (R391). -/
def functionBlocks (s : State) : List Byte := (List.range 2048).flatMap fun i => leBytes 8 (pageRead s (8 * i)).toNat

end Sys2Proof.Machine
end

