-- ==== Sys2Proof/Machine/Ochre.lean ====
section
/-! DEFINITION. Start-up, firmware update, the event log, attestation, sensors, power and heat (R387 to R393). -/

namespace Sys2Proof.Machine

/-! ## The event log (R390) -/

def logBytes (e : LogEntry) : List Byte :=
  leBytes 6 e.seq ++ leBytes 1 e.cls ++ leBytes 1 e.src ++ leBytes 8 e.time ++ leBytes 16 e.data

/-- Write where host memory exists. -/
def hostWrite (s : State) (pa : Nat) (bs : List Byte) : State :=
  if isHost pa && isHost (pa + bs.length - 1) then performWrite s 0 pa bs else s

/-- Entry n goes to ring entry n mod 2^LOG: first bytes 31:8, then 7:0. -/
def writeEntry (s : State) (e : LogEntry) : State :=
  let a := s.och.logBase + 32 * (e.seq % 2 ^ s.och.logLog)
  hostWrite (hostWrite s (a + 8) ((logBytes e).drop 8)) a ((logBytes e).take 8)

/-- Without a ring, up to 256 entries are held; beyond that the oldest is dropped and counted. -/
def holdEntry (o : Ochre) (e : LogEntry) : Ochre :=
  if o.held.length < 256 then { o with held := o.held ++ [e] }
  else { o with held := o.held.drop 1 ++ [e], lost := if o.lost = BitVec.allOnes 32 then o.lost else o.lost + 1 }

/-- A log entry of a class and a source with its DATA. -/
def logData (s : State) (cls src data : Nat) : State :=
  let e : LogEntry := ⟨s.och.logSeq % 2 ^ 48, cls, src, s.now, data⟩
  let s : State := { s with och := { s.och with logSeq := s.och.logSeq + 1 } }
  if s.och.logBase = 0 then { s with och := holdEntry s.och e } else writeEntry s e

/-- A log entry of a class and a source; the spec does not lay out its DATA. -/
def postLog (s : State) (cls src : Nat) : State :=
  let d := (Config.freeWord s.freeCtr).toNat + (Config.freeWord (s.freeCtr + 1)).toNat * 2 ^ 64
  logData { s with freeCtr := s.freeCtr + 2 } cls src d

/-- An entry of class 0x02, which names the part that failed (R387). -/
def logFailure (s : State) (src part : Nat) : State := logData s 2 src (Config.partName part).toNat

/-- Ochre's registers are open: firmware or the recovery loader runs. -/
def ochreOpen (s : State) : Bool := s.och.stage != 0

/-- LOG_RING_BASE_WRITE: a write of PK_OCLOGBASE; the held entries follow in SEQ order. -/
def execLogRingBaseWrite (x : DWord) (s : State) : Host.Outcome State Fault Refusal :=
  .next (
    if !ochreOpen s then s
    else
      let o := { s.och with logBase := x.toNat / 4096 * 4096, logLog := Nat.max 6 (x.toNat % 16) }
      if o.logBase = 0 then { s with och := o } else o.held.foldl writeEntry { s with och := { o with held := [] } })

/-! ## Start-up (R387) -/

/-- Without power nothing is left but host memory, the stored image, and the order of what is to come. -/
def powerOff (s : State) : State :=
  { State.reset with
    agenda := s.agenda
    uid := s.uid
    freeCtr := s.freeCtr
    mem := s.mem.filter fun p => isHost p.1
    och := { Ochre.reset with on := false, image := s.och.image, nextImage := s.och.nextImage, intact := s.och.intact } }

/-- POWER_GOOD: the ROM stage; a stored image that waited runs from here. -/
def execPowerGood (s : State) : Host.Outcome State Fault Refusal :=
  .next (
    let s := powerOff s
    { s with och := { s.och with on := true, image := s.och.nextImage.orElse fun _ => s.och.image, nextImage := none } })

/-- STAGE_A_REACHED: stage 1, or recovery where the image does not verify. -/
def execStageAReached (s : State) : Host.Outcome State Fault Refusal :=
  .next (if s.och.on && s.och.stage == 0 then
    postLog { s with och := { s.och with stage := if s.och.intact then 1 else 3 } } 1 0xFF
  else s)

/-- Every port that links up goes to state 2. -/
def linkUp (s : State) (failed : BitVec 16) : State :=
  (List.range 16).foldl (fun s p =>
    if failed.getLsbD p then s
    else { s with fab := { s.fab with ports := FMap.set Port.reset s.fab.ports p { FMap.get Port.reset s.fab.ports p with state := 2 } } }) s

/-- The failed clusters leave the masks, each with a log entry; so has each failed port. -/
def noteFailures (s : State) (clusters : BitVec 128) (ports : BitVec 16) : State :=
  let bad0 : DWord := clusters.setWidth 64
  let bad1 : DWord := (clusters >>> 64).setWidth 64
  let s : State := { s with och := { s.och with failed := clusters } }
  let s := (List.range 64).foldl (fun s f =>
    s.setFn f { s.fn f with clu0 := (s.fn f).clu0 &&& ~~~bad0, clu1 := (s.fn f).clu1 &&& ~~~bad1 }) s
  let s := ((List.range 128).filter fun c => clusters.getLsbD c).foldl (fun s c => logFailure s (c / 32) c) s
  ((List.range 16).filter fun p => ports.getLsbD p).foldl (fun s p => logFailure s 0xFF (128 + p)) s

/-- STAGE_B_REACHED: training and zeroing done, self-test and the first link-up; or BFAIL. -/
def execStageBReached (trained : Bool) (failedClusters : BitVec 128) (failedPorts : BitVec 16) (s : State) :
    Host.Outcome State Fault Refusal :=
  .next (
    if s.och.stage ≠ 1 ∨ s.och.bfail then s
    else if !trained then logFailure { s with och := { s.och with bfail := true } } 0xFF 144
    else
      let s := noteFailures (linkUp (wipeAll s) failedPorts) failedClusters failedPorts
      postLog { s with och := { s.och with stage := 2 } } 1 0xFF)

/-! ## Firmware update (R388) -/

/-- GO on PK_OCUPDCTL. -/
def startUpdate (s : State) : State :=
  if s.och.updBusy then { s with och := { s.och with updErr := true } } else { s with och := { s.och with updBusy := true } }

def execFirmwareUpdate (s : State) : Host.Outcome State Fault Refusal := .next (if ochreOpen s then startUpdate s else s)

/-- The new image as it stands in host memory; none where its address leaves host memory. -/
def newImage (s : State) : Option (List Byte) :=
  let a := s.och.upd.toNat
  let n := s.och.updLen.toNat
  if isHost a && isHost (a + n - 1) then some (readBytes s a n) else none

/-- The image's ECDSA signature over SHA-256 is that of the vendor key. -/
def signatureValid (bs : List Byte) : Bool :=
  ecdsaVerify Config.vendorKey (sha256 (Config.signedPart bs)) (Config.imageSignature bs)

/-- RESULT for an image. -/
def imageResult (bs : List Byte) : Nat :=
  if !signatureValid bs then 2 else if Config.imageVersion bs < Config.fusedMinimum then 3 else 1

def storeImage (o : Ochre) (bs : List Byte) : Ochre := { o with nextImage := some bs, intact := true }

/-- The update ends: BUSY clears, RESULT is set and logged. -/
def endUpdate (s : State) (r : Nat) : State := postLog { s with och := { s.och with updBusy := false, updResult := r } } 4 0xFF

/-- UPDATE_RESULT: the image is read, verified, and stored where it passes. -/
def execUpdateResult (readFailed : Bool) (s : State) : Host.Outcome State Fault Refusal :=
  .next (
    if !s.och.updBusy then s
    else match (if readFailed then none else newImage s) with
    | none => endUpdate s 4
    | some bs =>
      let s : State := if imageResult bs = 1 then { s with och := storeImage s.och bs } else s
      endUpdate s (imageResult bs))

/-- Power goes. While an update may be writing a verified image, the loss may find the old image, half of the new one, which
will not verify, or the new one. -/
def losePower (s : State) : State :=
  let s' := powerOff s
  match (if s.och.updBusy then newImage s else none) with
  | none => s'
  | some bs =>
    if imageResult bs ≠ 1 then s'
    else
      let s'' : State := { s' with freeCtr := s.freeCtr + 1 }
      match (Config.freeWord s.freeCtr).toNat % 3 with
      | 0 => s''
      | 1 => { s'' with och := { s''.och with intact := false } }
      | _ => { s'' with och := storeImage s''.och bs }

/-- POWER_LOSS: all activity ends. -/
def execPowerLoss (s : State) : Host.Outcome State Fault Refusal := .next (losePower s)

/-! ## Attestation (R391) -/

/-- GO on PK_OCATTCTL. -/
def startAttestation (s : State) : State :=
  if s.och.attBusy then { s with och := { s.och with attErr := true } } else { s with och := { s.och with attBusy := true } }

def execAttestation (s : State) : Host.Outcome State Fault Refusal := .next (if ochreOpen s then startAttestation s else s)

/-- Exactly `n` bytes of a list. -/
def fit (n : Nat) (bs : List Byte) : List Byte := (List.range n).map fun i => bs.getD i 0


/-- The report but for its signature. -/
def reportBody (s : State) (nonce : List Byte) : List Byte :=
  leBytes 4 1 ++ leBytes 1 s.och.stage ++ leBytes 3 0 ++ leBytes 8 s.now ++ fit 32 nonce ++
  (if s.och.stage = 3 then leBytes 32 0 else sha256 (s.och.image.getD Config.factoryImage)) ++
  (match s.och.nextImage with | some i => sha256 i | none => leBytes 32 0) ++
  sha256 (functionBlocks s) ++ leBytes 4 Config.fusedMinimum ++ leBytes 12 0

/-- The secret number of a signature, which the spec leaves to the device: a free value from 1 to n − 1. -/
def signSecret (c : Nat) : Nat :=
  1 + (leNat ((List.range 4).flatMap fun i => leBytes 8 (Config.freeWord (c + i)).toNat)) % (curveN - 1)

/-- The report, signed with the identity key: r and s, big-endian. -/
def report (s : State) (nonce : List Byte) : List Byte :=
  let body := reportBody s nonce
  let sig := ecdsaSign Config.identityKey (signSecret s.freeCtr) (sha256 body)
  body ++ beBytes 32 sig.1 ++ beBytes 32 sig.2

/-- ATTESTATION_DONE: the report is written at ADDR + 64, then BUSY clears. -/
def execAttestationDone (s : State) : Host.Outcome State Fault Refusal :=
  .next (
    if !s.och.attBusy then s
    else
      let a := s.och.att.toNat
      let s := if isHost a then
          hostWrite { s with freeCtr := s.freeCtr + 4 } (a + 64) (report s (readBytes s a 32))
        else s
      postLog { s with och := { s.och with attBusy := false } } 5 0xFF)

/-! ## Power and heat (R389, R392, R393) -/

/-- POWER_CAP_WRITE: a write of PK_OCPCAP. -/
def execPowerCapWrite (x : DWord) (s : State) : Host.Outcome State Fault Refusal :=
  .next (if ochreOpen s then
    postLog { s with och := { s.och with pcap := Nat.min 2700 (Nat.max 1000 (x.toNat % 4096)) } } 6 0xFF
  else s)

/-- SENSOR_REFRESH: new readings; a point at or above 100 °C is logged. -/
def execSensorRefresh (temps : List (Nat × BitVec 16)) (rails : List (Nat × DWord)) (s : State) :
    Host.Outcome State Fault Refusal :=
  .next (
    if !s.och.on then s
    else
      let sens := temps.foldl (fun m p => FMap.set 0 m p.1 p.2) s.och.sens
      let rail := rails.foldl (fun m p => FMap.set 0 m p.1 p.2) s.och.rail
      let s : State := { s with och := { s.och with sens := sens, rail := rail } }
      (sens.filter fun p => decide (1600 ≤ p.2.toInt)).foldl (fun s p => postLog s 3 (p.1 / 64)) s)

/-- How far every LEVEL is raised: evenly, while the mean package power is above WATTS; how far is Ochre's to say (DESIGN CHOICE,
log 110). -/
def capRaise (s : State) (x : PowerReading) : Nat := if s.och.pcap < x.power then Nat.max 1 x.raise.toNat else 0

/-- SKIP_LEVEL_UPDATE: Ochre sets LEVEL of every cluster: what its heat flux asks for, raised for the power cap. -/
def execSkipLevelUpdate (levels : List (BitVec 4)) (cap : PowerReading) (s : State) : Host.Outcome State Fault Refusal :=
  .next (if ochreOpen s then
    (List.range 128).foldl (fun s k =>
      s.setCluster k { s.cluster k with level := Nat.min 15 ((levels.getD k 0).toNat + capRaise s cap) }) s
  else s)

/-- THERMAL_SHUTDOWN: a point at 115 °C is logged, and power goes, in whatever stage. -/
def execThermalShutdown (die point : Nat) (s : State) : Host.Outcome State Fault Refusal :=
  .next (if s.och.on && decide (1840 ≤ (FMap.get 0 s.och.sens (64 * die + point)).toInt) then
    losePower (postLog s 3 die)
  else s)

end Sys2Proof.Machine
end

