-- ==== Sys2Proof/Machine/Host.lean ====
section
/-! DEFINITION. The host's accesses over the Helhild Link, and writes of registers that have no event of their own (R301,
R319, R361, R365, R366, R370, R376, R389, R397, R412). -/

namespace Sys2Proof.Machine

/-! ## Register writes -/

/-- A field with its bits cleared where a write of 1 clears. -/
def w1c (old x : Nat) : Nat := old &&& (old ^^^ x)

/-- The bits `lo` to `hi` of a value, in place. -/
def field (x : DWord) (lo hi : Nat) : Nat := x.toNat / 2 ^ lo % 2 ^ (hi + 1 - lo) * 2 ^ lo

/-- The block of function `f` (R370). -/
def fnWrite (s : State) (f o : Nat) (x : DWord) : State :=
  let r := s.fn f
  match o with
  | 0x18 => s.setFn f { r with save := BitVec.ofNat 64 (field x 12 63) }
  | 0x20 => s.setFn f { r with savesz := lowWord x }
  | 0x30 => s.setFn f { r with
      aborted := r.aborted && !x.getLsbD 34, qlate := r.qlate && !x.getLsbD 35, sfault := r.sfault && !x.getLsbD 36 }
  | _ => s

/-- The registers of the system engines of die `d` (R376). -/
def systemWrite (s : State) (d o : Nat) (x : DWord) : State :=
  let r := s.die d
  match o with
  | 0x08 => s.setDie d { r with smArg := x }
  | 0x10 => s.setDie d { r with smRing := BitVec.ofNat 64 (field x 12 63 + field x 0 3) }
  | 0x18 => s.setDie d { r with smStat := BitVec.ofNat 64 (w1c r.smStat.toNat (field x 1 1)) }
  | _ => s

/-- PK_OCUPDCTL: ERR is cleared by 1, and GO starts an update (R388, R389). -/
def writeUpdateCtl (s : State) (x : DWord) : State :=
  let s : State := { s with och := { s.och with updErr := s.och.updErr && !x.getLsbD 2 } }
  if x.getLsbD 0 then startUpdate s else s

/-- PK_OCATTCTL, in the same way. -/
def writeAttestCtl (s : State) (x : DWord) : State :=
  let s : State := { s with och := { s.och with attErr := s.och.attErr && !x.getLsbD 2 } }
  if x.getLsbD 0 then startAttestation s else s

/-- Ochre's registers (R389). -/
def ochreWrite (s : State) (off : Nat) (x : DWord) : State :=
  let o := s.och
  if 0x8A00 ≤ off ∧ off < 0x8E00 then
    let c := (off - 0x8A00) / 8
    let old := FMap.get 0 o.skipped c
    { s with och := { o with skipped := FMap.set 0 o.skipped c (old &&& ~~~(BitVec.ofNat 48 (x.toNat / 2 ^ 16))) } }
  else match off with
  | 0x8018 => { s with och := { o with lost := o.lost &&& ~~~(lowWord x) } }
  | 0x8020 => { s with och := { o with upd := x } }
  | 0x8028 => { s with och := { o with updLen := x } }
  | 0x8030 => writeUpdateCtl s x
  | 0x8040 => { s with och := { o with att := BitVec.ofNat 64 (field x 6 63) } }
  | 0x8048 => writeAttestCtl s x
  | _ => s

/-- The fabric block of function `f` (R412). -/
def fabricWrite (s : State) (f o : Nat) (x : DWord) : State :=
  let r := s.fn f
  match o with
  | 0x00 => s.setFn f { r with vdnbase := BitVec.ofNat 64 (field x 0 0 + field x 18 51) }
  | 0x08 => s.setFn f { r with fmroot := BitVec.ofNat 64 (field x 0 0 + field x 16 51) }
  | 0x10 => s.setFn f { r with fmacl := BitVec.ofNat 64 (field x 10 51) }
  | 0x18 => s.setFn f { r with fwd := BitVec.ofNat 64 (field x 0 11 + field x 63 63), moved := false, fwdOn := false }
  | 0x20 => s.setFn f { r with rctx := BitVec.ofNat 64 (field x 0 3) }
  | 0x30 => if x.getLsbD 0 then s.setFn f { r with vdninv := 1 } else s
  | _ => s

/-- The registers of an Ethernet queue pair: while EN is 1, a write of FB_EQCFG changes EN alone (R412). -/
def eqWrite (s : State) (port k o : Nat) (x : DWord) : State :=
  let r := s.eq port k
  match o with
  | 0x00 => s.setEq port k { r with tx := BitVec.ofNat 64 (field x 12 63) }
  | 0x08 => s.setEq port k { r with rx := BitVec.ofNat 64 (field x 12 63) }
  | 0x10 =>
    let cfg := if r.en then r.cfg.toNat - field r.cfg 6 6 + field x 6 6 else field x 0 6 + field x 8 31
    s.setEq port k { r with cfg := BitVec.ofNat 64 cfg }
  | 0x18 => s.setEq port k { r with drop := BitVec.ofNat 64 (w1c r.drop.toNat (field x 0 31)) }
  | _ => s

/-- FB_PORTST: REPLAY and SWAPS are cleared by 1 (R397). -/
def portWrite (s : State) (p : Nat) (x : DWord) : State :=
  let r := FMap.get Port.reset s.fab.ports p
  let r := { r with replay := w1c r.replay (x.toNat / 2 ^ 8 % 2 ^ 24), swaps := w1c r.swaps (x.toNat / 2 ^ 32 % 2 ^ 8) }
  { s with fab := { s.fab with ports := FMap.set Port.reset s.fab.ports p r } }

/-- A register of the control page without an event of its own; other offsets ignore the write. -/
def writeRegister (s : State) (off : Nat) (x : DWord) : State :=
  if off < 0x4000 then fnWrite s (off / 0x100) (off % 0x100) x
  else if 0x4100 ≤ off ∧ off < 0x4200 then systemWrite s ((off - 0x4100) / 0x40) (off % 0x40) x
  else if 0x8000 ≤ off ∧ off < 0x9000 then ochreWrite s off x
  else if 0xC000 ≤ off ∧ off < 0xD000 then fabricWrite s ((off - 0xC000) / 0x40) (off % 0x40) x
  else if 0xD000 ≤ off ∧ off < 0xD800 then eqWrite s ((off - 0xD000) / 0x400) ((off - 0xD000) / 0x40 % 16) (off % 0x40) x
  else if 0xE000 ≤ off ∧ off < 0xE080 then portWrite s ((off - 0xE000) / 8) x
  else if off = 0xE108 then { s with fab := { s.fab with mcList := BitVec.ofNat 64 (field x 8 51) } }
  else s

/-- The package registers that the physical function reaches by number; PK_S1ROOT is function 0's. -/
def hostCsr (n : Nat) : Bool :=
  decide (0x100 ≤ n ∧ n ≤ 0x107) || n == 0x110 || n == 0x111 || n == 0x112 || decide (0x118 ≤ n ∧ n ≤ 0x11C) ||
    decide (0x140 ≤ n ∧ n ≤ 0x17F)

def csrWriteHost (s : State) (n : Nat) (x : DWord) : State :=
  if n = 0x110 then rootPut s 0 (fun _ => x.toNat) else packagePut s n (fun _ => x.toNat) x.toNat

/-- REGISTER_WRITE: an aligned write of the control page, or of a package register of R360 by the physical function. Before
stage 2, Ochre's part of the page alone takes one. -/
def execRegisterWrite (r : HostReg) (x : DWord) (s : State) : Host.Outcome State Fault Refusal :=
  .next (match r with
  | .page off =>
    if off % 8 ≠ 0 then s
    else if booted s || (ochreOpen s && decide (0x8000 ≤ off) && decide (off < 0x9000)) then writeRegister s off x
    else s
  | .csr n => if hostCsr n then inFull s (csrWriteHost s n x) else s)

/-! ## Host accesses -/

def answerHost (s : State) (bs : List Byte) : State := { s with pkg := { s.pkg with readback := bs } }

/-- A range that lies in one region of HBM4, in host memory, or in one notify page. -/
def oneKind (pa n : Nat) : Bool :=
  match physOf pa, physOf (pa + n - 1) with
  | .hbm a, .hbm b => a == b && decide (pa + n ≤ (a + 1) * 0x2000000000)
  | .host, .host => true
  | .notify a p _, .notify b q _ => a == b && p == q
  | _, _ => false

/-- Bytes as the host reads them; those of a poisoned sector are open. -/
def hostBytes (s : State) (pa n : Nat) : State × List Byte :=
  if poisonedAt s pa n then
    let one (i : Nat) : Byte :=
      if poisonedAt s (pa + i) 1 then BitVec.ofNat 8 (Config.freeWord (s.freeCtr + i)).toNat else readByte s (pa + i)
    ({ s with freeCtr := s.freeCtr + n }, (List.range n).map one)
  else (s, readBytes s pa n)

/-- A read of a notify page: an aligned `.64` access, else zero (R319). -/
def notifyBytes (s : State) (fn q off n : Nat) : List Byte :=
  if booted s && n == 8 && off % 8 == 0 then leBytes 8 (notifyRead s fn q off).toNat else List.replicate n 0

/-- A write of a notify page; `trusted` for one through BAR0 (R368). -/
def notifyPut (s : State) (fn q off n : Nat) (v : DWord) (trusted : Bool) : State :=
  if booted s && n == 8 && off % 8 == 0 then notifyWrite s fn q off v trusted else s

/-- A function that the host sees: the physical function, and the others while VF Enable is set. -/
def visible (s : State) (fn : Nat) : Bool := fn == 0 || (decide (fn < 64) && s.pkg.vfEnable)

/-- A read of memory that belongs to function `fn`, whose ways of the last-level cache it uses (R372). -/
def hostRead (s : State) (fn pa n : Nat) : Host.Outcome State Fault Refusal :=
  if n = 0 then .next (answerHost s [])
  else if !oneKind pa n then .fault .noSuchAddress
  else match physOf pa with
    | .hbm _ =>
      if !booted s then .next (answerHost s [])
      else
        let s := (readMem s fn pa n).1
        .next (answerHost (hostBytes s pa n).1 (hostBytes s pa n).2)
    | .host => .next (answerHost s (readBytes s pa n))
    | .notify f q o => .next (answerHost s (notifyBytes s f q o n))
    | .nowhere => .fault .noSuchAddress

def hostStore (s : State) (fn pa : Nat) (bs : List Byte) : Host.Outcome State Fault Refusal :=
  if bs = [] then .next s
  else if !oneKind pa bs.length then .fault .noSuchAddress
  else match physOf pa with
    | .hbm _ => .next (inFull s (performWrite s fn pa bs))
    | .host => .next (performWrite s fn pa bs)
    | .notify f q o => .next (notifyPut s f q o bs.length (BitVec.ofNat 64 (leNat bs)) false)
    | .nowhere => .fault .noSuchAddress

/-- The fields of R365. -/
def configField (s : State) (fn : Nat) : CfgField → Nat
  | .vendorId => Config.vendorId
  | .deviceId => if fn = 0 then 0x4704 else 0x4705
  | .totalVfs | .initialVfs => 63
  | .firstVfOffset | .vfStride => 1
  | .vfMigrationCapable => 0
  | .vfEnable => bit s.pkg.vfEnable 0
  | .systemPageSizes => 1

/-- Bytes of a field: the page sizes supported are a word, bit 0 of which stands for 4 KiB (PRESUMED, log 85). -/
def configWidth : CfgField → Nat
  | .systemPageSizes => 4
  | _ => 2

/-- Configuration space: the physical function's from stage 1 on (R387). The SR-IOV fields are the physical function's. -/
def configRead (s : State) (fn : Nat) (f : CfgField) : List Byte :=
  if ochreOpen s && visible s fn && (fn == 0 || f == .vendorId || f == .deviceId) then
    leBytes (configWidth f) (configField s fn f)
  else []

/-- HOST_ACCESS. -/
def execHostAccess (op : HostOp) (s : State) : Host.Outcome State Fault Refusal :=
  match op with
  | .configRead fn f => .next (answerHost s (configRead s fn f))
  | .memRead fn pa n => hostRead s fn pa n
  | .memWrite fn pa bs => hostStore s fn pa bs
  | .bar0Read fn off n =>
    .next (answerHost s (if visible s fn && decide (off < 0x20000) then notifyBytes s fn (off / 4096) (off % 4096) n else []))
  | .bar0Write fn off n v =>
    .next (if visible s fn && decide (off < 0x20000) then notifyPut s fn (off / 4096) (off % 4096) n v true else s)
  | .bar2Read off n =>
    .next (
      if booted s ∧ off = 0x4008 ∧ n = 8 then readAlloc s
      else answerHost s (if n = 8 then leBytes 8 (pageRead s off).toNat else List.replicate n 0))
  | .csrRead n =>
    let v := if n = 0x110 then (s.fn 0).s1root else packageRead s n
    .next (answerHost s (if booted s && hostCsr n then leBytes 8 v.toNat else leBytes 8 0))
  | .vfEnable on => .next (inFull s { s with pkg := { s.pkg with vfEnable := on } })

end Sys2Proof.Machine
end

