-- ==== Sys2Proof/Machine/Privileged.lean ====
section
/-! DEFINITION. The control-register instructions and their views, `eret`, `tlbinv` and `hcall` (R357 to R363, R369). -/

namespace Sys2Proof.Machine

/-! ## Registers of the thread and of its core (R42 to R44, R360, R369) -/

/-- The key of a thread's count in a core counter: the core's own in the privileged view. -/
def viewKey (fn : Nat) (t : Thread) : Nat := if t.priv then 64 else fn

def threadRead (s : State) (fn : Nat) (t : Thread) (n : Nat) : DWord :=
  match n with
  | 0x000 => t.fpctl.setWidth 64
  | 0x001 => t.fflags.setWidth 64
  | 0x002 => t.trapvec
  | 0x003 => t.trappc
  | 0x004 => t.trapcause.setWidth 64
  | 0x005 => if t.priv then 1 else 0
  | 0x040 => (FMap.get 0 (s.core t.core).spdrop (viewKey fn t)).setWidth 64
  | 0x041 => (FMap.get 0 (s.core t.core).psbdem (viewKey fn t)).setWidth 64
  | 0x042 => (FMap.get 0 (s.core t.core).windrop (viewKey fn t)).setWidth 64
  | _ => 0

/-- `csrw` of a thread register; `put` gives the new value of an RW field. -/
def threadPut (t : Thread) (n : Nat) (put : Nat → Nat) (clr : Nat) : Thread :=
  match n with
  | 0x000 => { t with fpctl := BitVec.ofNat 32 (put t.fpctl.toNat % 64) }
  | 0x001 => { t with fflags := t.fflags &&& ~~~(BitVec.ofNat 32 (clr % 32)) }
  | 0x002 => { t with trapvec := BitVec.ofNat 64 (put t.trapvec.toNat / 8 * 8) }
  | 0x003 => { t with trappc := BitVec.ofNat 64 (put t.trappc.toNat / 8 * 8) }
  | _ => t

def clearCount (m : FMap Word) (k clr : Nat) : FMap Word := FMap.set 0 m k (FMap.get 0 m k &&& ~~~(BitVec.ofNat 32 clr))

def corePut (s : State) (fn : Nat) (t : Thread) (n clr : Nat) : State :=
  let c := s.core t.core
  let k := viewKey fn t
  match n with
  | 0x040 => s.setCore t.core { c with spdrop := clearCount c.spdrop k clr }
  | 0x041 => s.setCore t.core { c with psbdem := clearCount c.psbdem k clr }
  | 0x042 => s.setCore t.core { c with windrop := clearCount c.windrop k clr }
  | _ => s

/-! ## The instructions -/

/-- The function of a thread's team. -/
def threadFn (s : State) (m : Team) : Nat := match s.launch? m.launch with | some l => l.fn | none => 0

/-- What a context reads of register `n`. -/
def csrRead (s : State) (fn : Nat) (t : Thread) (n : Nat) : DWord :=
  if n < 0x080 then threadRead s fn t n
  else if n = 0x080 then (if t.priv then errRead s (dieOf t.core) else 0)
  else if n = 0x110 then (s.fn fn).s1root
  else if t.priv then packageRead s n
  else 0

/-- What a write does beyond the thread's own registers: `put` gives an RW field's new value, `clr` the bits of W1C fields
to clear. -/
def csrPut (s : State) (fn : Nat) (t : Thread) (n : Nat) (put : Nat → Nat) (clr : Nat) : State :=
  if n < 0x080 then corePut s fn t n clr
  else if n = 0x080 then (if t.priv then errPut s (dieOf t.core) clr else s)
  else if n = 0x110 then rootPut s fn put
  else if t.priv then packagePut s n put clr
  else s

/-- `csrr`: a read of TH_FFLAGS waits for the older producers of R109 (R110). -/
def execCsrr (n : BitVec 9) (d : Reg) (s : State) : Host.Outcome State Fault Refusal :=
  issue s (.csrr n d) [dst2 d] fun m t =>
    let k := finish s (t.writePair d.toNat (csrRead s (threadFn s m) t n.toNat)) (.csrr n d) 0
    if n = 1 then awaiting s t .fpuAll k else k

/-- A write that may have set a trap enable: the thread then waits for its producers of R109 (R110). -/
def afterEnables (s : State) (t : Thread) (n : Nat) : State := if n = 0 then holdForFp s t.team t.tix else s

def execCsrw (n : BitVec 9) (a : Src) (s : State) : Host.Outcome State Fault Refusal :=
  issue s (.csrw n a) [src2 a] fun m t =>
    let x := (rp t a).toNat
    afterEnables (csrPut (finish s (threadPut t n.toNat (fun _ => x) x) (.csrw n a) 0) (threadFn s m) t n.toNat (fun _ => x) x)
      t n.toNat

/-- `csrs`: D is the old value, and A is ORed into the RW fields alone. -/
def execCsrs (n : BitVec 9) (d : Reg) (a : Src) (s : State) : Host.Outcome State Fault Refusal :=
  issue s (.csrs n d a) [src2 a, dst2 d] fun m t =>
    let x := (rp t a).toNat
    let t' := (threadPut t n.toNat (fun old => old ||| x) 0).writePair d.toNat (csrRead s (threadFn s m) t n.toNat)
    afterEnables (csrPut (finish s t' (.csrs n d a) 0) (threadFn s m) t n.toNat (fun old => old ||| x) 0) t n.toNat

/-- `eret`: the privileged context ends (R362). -/
def execEret (a : Src) (s : State) : Host.Outcome State Fault Refusal :=
  issueWith s (.eret a) true [src2 a] fun _ t =>
    if t.mode then threadFault s t .illegal {} else jumpTo s t (.eret a) (rp t a) { t with priv := false }

/-- `hcall`: a second one parks on the first's D (R363). -/
def execHcall (n : Byte) (d : Reg) (a : Src) (s : State) : Host.Outcome State Fault Refusal :=
  let i := Instr.hcall n d a
  issue s i [src2 a, dst1 d] fun m t =>
    if m.buffers then threadFault s t .perm {}
    else match t.hcall with
    | some h => park s t (.regs [h.d.toNat])
    | none =>
      let s := finish s (t.markEmpty d.toNat (producerTag 1 t.pc) 1) i 0
      match s.thread? t.team t.tix with
      | some t' => raiseCall s (threadFn s m) 5 t' ⟨rp t a, n, d, 0⟩
      | none => s

/-! ## Shootdown (R357) -/

/-- What a `tlbinv` covers: its kind, function and range. -/
structure Scoped where
  kind : TlbKind
  fn : Nat
  lo : Nat
  hi : Nat
  deriving DecidableEq, Repr, Inhabited

/-- `n` bytes at `a` meet the range. -/
def Scoped.meets (c : Scoped) (a n : Nat) : Bool := decide (a < c.hi) && decide (c.lo < a + n)

/-- `n` bytes of a function translated from `va` and `ipa` are in scope; with n = 0 nothing is, whatever the kind. -/
def Scoped.has (c : Scoped) (fn va ipa n : Nat) : Bool :=
  decide (c.lo < c.hi) &&
  match c.kind with
  | .va => fn == c.fn && c.meets va n
  | .ipa => fn == c.fn && c.meets ipa n
  | .fn => fn == c.fn
  | .all => true

def Scoped.hasEntry (c : Scoped) (e : Xlat) : Bool := c.has e.fn e.va e.ipa (2 ^ e.log)

/-- The bytes that a translated access of memory takes from its translation on; none for other requests. -/
def Act.translated : Act → Option Nat
  | .loadConst _ n _ _ => some n
  | a => match a.span with
    | some (.mem _, n) | some (.peer _ _, n) | some (.notify _ _ _, n) | some (.eth _ _, n) => some n
    | _ => none

/-- The translation of a request is in scope. -/
def Scoped.hasReq (c : Scoped) (r : Req) : Bool :=
  !r.complete &&
  match r.act.translated with
  | none => false
  | some n => c.has r.fn r.va.toNat r.ipa n

/-- The request has not been sent: it waits to be, or to enter the phase store buffer, and no packet of it waits for a
receive slot. -/
def State.isUnsent (s : State) (k : Nat) (r : Req) : Bool := r.unsent && (Tab.find s.fab.sent k).isNone

/-- A row that fetched words from a page in scope. -/
def Scoped.hasRow (c : Scoped) (r : Row) : Bool := r.xlats.any c.hasEntry

/-- A buffered store whose translation is in scope. -/
def Scoped.hasStore (s : State) (c : Scoped) (e : PsbEntry) : Bool :=
  c.has (((s.team? e.team).map (threadFn s)).getD 64) e.va e.ipa 32

/-- Every TLB of every class drops what is in scope. -/
def dropTlbs (s : State) (c : Scoped) : State :=
  let keep (l : List Xlat) : List Xlat := l.filter fun e => !c.hasEntry e
  { s with
    cores := s.cores.map fun p => (p.1, { p.2 with vtlb := keep p.2.vtlb, itlb := keep p.2.itlb })
    clusters := s.clusters.map fun p => (p.1, { p.2 with mtlb := keep p.2.mtlb })
    dies := s.dies.map fun p => (p.1, { p.2 with tlb := keep p.2.tlb }) }

/-- What has been translated in scope and has not been sent translates again when it goes on. -/
def markStale (s : State) (c : Scoped) : State :=
  { s with
    cores := s.cores.map fun p => (p.1, { p.2 with
      psb := p.2.psb.map fun e => if Scoped.hasStore s c e then { e with stale := true } else e })
    reqs := s.reqs.map fun p =>
      if c.hasReq p.2 && s.isUnsent p.1 p.2 then (p.1, { p.2 with stale := true }) else p }

def dropXlats (s : State) (c : Scoped) : State := dropTlbs (markStale s c) c

/-- The accesses that have been sent, and the rows, that a `tlbinv` waits for. -/
def scopedReqs (s : State) (c : Scoped) : List Nat :=
  (s.reqs.filter fun p => c.hasReq p.2 && !s.isUnsent p.1 p.2).map (·.1)
def scopedRows (s : State) (c : Scoped) : List Nat :=
  s.cores.flatMap fun p => (p.2.rows.filter fun r => c.hasRow r.2).map (·.2.uid)

/-- The scope that the operands give. -/
def scopeOf (k : TlbKind) (own : Nat) (a : DWord) (b c : Word) : Scoped :=
  let lo := a.toNat / 65536 * 65536
  ⟨k, if own = 0 then c.toNat % 64 else own, lo, lo + 65536 * (b.toNat % 2 ^ 20)⟩

/-- `tlbinv`: the waits of `fence.rel.dev`, then the entries go and the thread is held; its issue retires (R330). -/
def execTlbinv (k : TlbKind) (a b c : Src) (s : State) : Host.Outcome State Fault Refusal :=
  issueWith s (.tlbinv k a b c) true [src2 a, src1 b, src1 c] fun m t =>
    let own := threadFn s m
    if own ≠ 0 ∧ (k = .ipa ∨ k = .all) then threadFault s t .perm {}
    else
      let x := scopeOf k own (rp t a) (rw t b) (rw t c)
      awaiting s t (.release false) (hold (retire (dropXlats s x) t.team) t (.tlbinv (scopedReqs s x) (scopedRows s x)))

def rowRuns (s : State) (u : Nat) : Bool := s.cores.any fun p => p.2.rows.any fun r => r.2.uid == u

/-- TLBINV_RELEASE: what the thread waits for is over; it makes the acquire of `fence.acq.dev` and goes on. -/
def execTlbinvRelease (team tix : Nat) (s : State) : Host.Outcome State Fault Refusal :=
  .next (match wakingThread s team tix with
  | some t =>
    match t.place with
    | .held (.tlbinv reqs rows) =>
      let busy (k : Nat) : Bool := match Tab.find s.reqs k with | some r => !r.complete | none => false
      if !reqs.any busy && !rows.any (rowRuns s) then releaseAcq s t .dev 8 else s
    | _ => s
  | none => s)

end Sys2Proof.Machine
end

