-- ==== Sys2Proof/Machine/Dispatch.lean ====
section
/-! DEFINITION. One arm per instruction and event: each calls its meaning. -/

namespace Sys2Proof.Machine

def exec (i : Instr) (s : State) : Host.Outcome State Fault Refusal :=
  match i with
  | .add t d a b => Sys2Proof.Machine.execAdd t d a b s
  | .sub t d a b => Sys2Proof.Machine.execSub t d a b s
  | .addc t d a b c => Sys2Proof.Machine.execAddc t d a b c s
  | .subb t d a b c => Sys2Proof.Machine.execSubb t d a b c s
  | .mul t d a b => Sys2Proof.Machine.execMul t d a b s
  | .mulh t d a b => Sys2Proof.Machine.execMulh t d a b s
  | .mad t d a b c => Sys2Proof.Machine.execMad t d a b c s
  | .div t d a b => Sys2Proof.Machine.execDiv t d a b s
  | .rem t d a b => Sys2Proof.Machine.execRem t d a b s
  | .min t d a b => Sys2Proof.Machine.execMin t d a b s
  | .max t d a b => Sys2Proof.Machine.execMax t d a b s
  | .abs t d a => Sys2Proof.Machine.execAbs t d a s
  | .neg t d a => Sys2Proof.Machine.execNeg t d a s
  | .and d a b => Sys2Proof.Machine.execAnd d a b s
  | .or d a b => Sys2Proof.Machine.execOr d a b s
  | .xor d a b => Sys2Proof.Machine.execXor d a b s
  | .not d a => Sys2Proof.Machine.execNot d a s
  | .andn d a b => Sys2Proof.Machine.execAndn d a b s
  | .orn d a b => Sys2Proof.Machine.execOrn d a b s
  | .shl d a b => Sys2Proof.Machine.execShl d a b s
  | .shr d a b => Sys2Proof.Machine.execShr d a b s
  | .sar d a b => Sys2Proof.Machine.execSar d a b s
  | .rot d a b => Sys2Proof.Machine.execRot d a b s
  | .clz d a => Sys2Proof.Machine.execClz d a s
  | .ctz d a => Sys2Proof.Machine.execCtz d a s
  | .popc d a => Sys2Proof.Machine.execPopc d a s
  | .brev d a => Sys2Proof.Machine.execBrev d a s
  | .bfe t d a b => Sys2Proof.Machine.execBfe t d a b s
  | .bfi d a b c => Sys2Proof.Machine.execBfi d a b c s
  | .bperm d a b c => Sys2Proof.Machine.execBperm d a b c s
  | .sel d a b c => Sys2Proof.Machine.execSel d a b c s
  | .cmp cc t d a b => Sys2Proof.Machine.execCmp cc t d a b s
  | .add64 d a b => Sys2Proof.Machine.execAdd64 d a b s
  | .sub64 d a b => Sys2Proof.Machine.execSub64 d a b s
  | .mul64 d a b => Sys2Proof.Machine.execMul64 d a b s
  | .shl64 d a b => Sys2Proof.Machine.execShl64 d a b s
  | .shr64 t d a b => Sys2Proof.Machine.execShr64 t d a b s
  | .cmp64 cc t d a b => Sys2Proof.Machine.execCmp64 cc t d a b s
  | .lea nat sc d a b => Sys2Proof.Machine.execLea nat sc d a b s
  | .mov d a => Sys2Proof.Machine.execMov d a s
  | .movi d imm => Sys2Proof.Machine.execMovi d imm s
  | .movp d imm => Sys2Proof.Machine.execMovp d imm s
  | .idp4 t d a b c => Sys2Proof.Machine.execIdp4 t d a b c s
  | .addImm t d a imm => Sys2Proof.Machine.execAddImm t d a imm s
  | .mulImm t d a imm => Sys2Proof.Machine.execMulImm t d a imm s
  | .andImm d a imm => Sys2Proof.Machine.execAndImm d a imm s
  | .orImm d a imm => Sys2Proof.Machine.execOrImm d a imm s
  | .xorImm d a imm => Sys2Proof.Machine.execXorImm d a imm s
  | .shlImm d a imm => Sys2Proof.Machine.execShlImm d a imm s
  | .shrImm d a imm => Sys2Proof.Machine.execShrImm d a imm s
  | .sarImm d a imm => Sys2Proof.Machine.execSarImm d a imm s
  | .minImm t d a imm => Sys2Proof.Machine.execMinImm t d a imm s
  | .maxImm t d a imm => Sys2Proof.Machine.execMaxImm t d a imm s
  | .cmpImm cc t d a imm => Sys2Proof.Machine.execCmpImm cc t d a imm s
  | .pairWord ha hb => Sys2Proof.Machine.execPairWord ha hb s
  | .fadd m d a b => Sys2Proof.Machine.execFadd m d a b s
  | .fsub m d a b => Sys2Proof.Machine.execFsub m d a b s
  | .fmul m d a b => Sys2Proof.Machine.execFmul m d a b s
  | .ffma m d a b c => Sys2Proof.Machine.execFfma m d a b c s
  | .fmin t ftz d a b => Sys2Proof.Machine.execFmin t ftz d a b s
  | .fmax t ftz d a b => Sys2Proof.Machine.execFmax t ftz d a b s
  | .fabs t d a => Sys2Proof.Machine.execFabs t d a s
  | .fneg t d a => Sys2Proof.Machine.execFneg t d a s
  | .fcmp cc t ftz d a b => Sys2Proof.Machine.execFcmp cc t ftz d a b s
  | .fclass t d a => Sys2Proof.Machine.execFclass t d a s
  | .frcp m d a => Sys2Proof.Machine.execFrcp m d a s
  | .frsq m d a => Sys2Proof.Machine.execFrsq m d a s
  | .fsqrt m d a => Sys2Proof.Machine.execFsqrt m d a s
  | .fdiv m d a b => Sys2Proof.Machine.execFdiv m d a b s
  | .fexp2 m d a => Sys2Proof.Machine.execFexp2 m d a s
  | .flog2 m d a => Sys2Proof.Machine.execFlog2 m d a s
  | .fldexp m d a b => Sys2Proof.Machine.execFldexp m d a b s
  | .fgetexp t ftz d a => Sys2Proof.Machine.execFgetexp t ftz d a s
  | .frnd m d a => Sys2Proof.Machine.execFrnd m d a s
  | .hadd2 m d a b => Sys2Proof.Machine.execHadd2 m d a b s
  | .hsub2 m d a b => Sys2Proof.Machine.execHsub2 m d a b s
  | .hmul2 m d a b => Sys2Proof.Machine.execHmul2 m d a b s
  | .hfma2 m d a b c => Sys2Proof.Machine.execHfma2 m d a b c s
  | .hmin2 t ftz d a b => Sys2Proof.Machine.execHmin2 t ftz d a b s
  | .hmax2 t ftz d a b => Sys2Proof.Machine.execHmax2 t ftz d a b s
  | .hcmp2 cc t ftz d a b => Sys2Proof.Machine.execHcmp2 cc t ftz d a b s
  | .fdp2 m d a b c => Sys2Proof.Machine.execFdp2 m d a b c s
  | .cvt dt st ftz d a => Sys2Proof.Machine.execCvt dt st ftz d a s
  | .cvtRz dt st ftz d a => Sys2Proof.Machine.execCvtRz dt st ftz d a s
  | .cvtRu dt st ftz d a => Sys2Proof.Machine.execCvtRu dt st ftz d a s
  | .cvtRd dt st ftz d a => Sys2Proof.Machine.execCvtRd dt st ftz d a s
  | .bqenc bw d a b => Sys2Proof.Machine.execBqenc bw d a b s
  | .bqdec bw d a b => Sys2Proof.Machine.execBqdec bw d a b s
  | .br off => Sys2Proof.Machine.execBr off s
  | .brc z c off => Sys2Proof.Machine.execBrc z c off s
  | .call d off => Sys2Proof.Machine.execCall d off s
  | .brx a => Sys2Proof.Machine.execBrx a s
  | .calli d a => Sys2Proof.Machine.execCalli d a s
  | .ret a => Sys2Proof.Machine.execRet a s
  | .exit => Sys2Proof.Machine.execExit s
  | .trap dbg n => Sys2Proof.Machine.execTrap dbg n s
  | .tret => Sys2Proof.Machine.execTret s
  | .nop cut => Sys2Proof.Machine.execNop cut s
  | .ld w sc sx nt d base imm => Sys2Proof.Machine.execLd w sc sx nt d base imm s
  | .st w sc nt v base imm => Sys2Proof.Machine.execSt w sc nt v base imm s
  | .lds w sc sx d base imm => Sys2Proof.Machine.execLds w sc sx d base imm s
  | .sts w sc v base imm => Sys2Proof.Machine.execSts w sc v base imm s
  | .ldc w sx d base imm => Sys2Proof.Machine.execLdc w sx d base imm s
  | .pf nt base imm => Sys2Proof.Machine.execPf nt base imm s
  | .atom op t sc d a b => Sys2Proof.Machine.execAtom op t sc d a b s
  | .cas t sc d a b c => Sys2Proof.Machine.execCas t sc d a b c s
  | .atoms op t sc d a b => Sys2Proof.Machine.execAtoms op t sc d a b s
  | .cass t sc d a b c => Sys2Proof.Machine.execCass t sc d a b c s
  | .fence k sc => Sys2Proof.Machine.execFence k sc s
  | .ifence => Sys2Proof.Machine.execIfence s
  | .wcnt cls n => Sys2Proof.Machine.execWcnt cls n s
  | .vmark win k d a => Sys2Proof.Machine.execVmark win k d a s
  | .vtest d a => Sys2Proof.Machine.execVtest d a s
  | .shfl m d a b => Sys2Proof.Machine.execShfl m d a b s
  | .vote m d a => Sys2Proof.Machine.execVote m d a s
  | .ballot b64 d a => Sys2Proof.Machine.execBallot b64 d a s
  | .redux op t d a => Sys2Proof.Machine.execRedux op t d a s
  | .gscan op t ex d a => Sys2Proof.Machine.execGscan op t ex d a s
  | .bqmax d a => Sys2Proof.Machine.execBqmax d a s
  | .bar sc => Sys2Proof.Machine.execBar sc s
  | .phase => Sys2Proof.Machine.execPhase s
  | .cbinit a b => Sys2Proof.Machine.execCbinit a b s
  | .cbarr sc a b => Sys2Proof.Machine.execCbarr sc a b s
  | .cbwait a b => Sys2Proof.Machine.execCbwait a b s
  | .cbtest d a => Sys2Proof.Machine.execCbtest d a s
  | .dqpush d a b => Sys2Proof.Machine.execDqpush d a b s
  | .dqpop d => Sys2Proof.Machine.execDqpop d s
  | .dqsteal d => Sys2Proof.Machine.execDqsteal d s
  | .dqidle d => Sys2Proof.Machine.execDqidle d s
  | .spawn d a b => Sys2Proof.Machine.execSpawn d a b s
  | .sid k d => Sys2Proof.Machine.execSid k d s
  | .rdclk d => Sys2Proof.Machine.execRdclk d s
  | .yield => Sys2Proof.Machine.execYield s
  | .sleep d a b c => Sys2Proof.Machine.execSleep d a b c s
  | .mxbeg lit => Sys2Proof.Machine.execMxbeg lit s
  | .mxend ch => Sys2Proof.Machine.execMxend ch s
  | .mma kb ch tile => Sys2Proof.Machine.execMma kb ch tile s
  | .mxscale kb ch tile => Sys2Proof.Machine.execMxscale kb ch tile s
  | .mxdist kb ch tile => Sys2Proof.Machine.execMxdist kb ch tile s
  | .mxzero tile => Sys2Proof.Machine.execMxzero tile s
  | .mxst k tile a b => Sys2Proof.Machine.execMxst k tile a b s
  | .mxld fl k tile d b => Sys2Proof.Machine.execMxld fl k tile d b s
  | .mxtopk mx s32 tile d b => Sys2Proof.Machine.execMxtopk mx s32 tile d b s
  | .mdgo d a b => Sys2Proof.Machine.execMdgo d a b s
  | .mdkill a => Sys2Proof.Machine.execMdkill a s
  | .mdstat d a => Sys2Proof.Machine.execMdstat d a s
  | .bndmin n a => Sys2Proof.Machine.execBndmin n a s
  | .bndrd n d => Sys2Proof.Machine.execBndrd n d s
  | .stmc w mask a b => Sys2Proof.Machine.execStmc w mask a b s
  | .csrr n d => Sys2Proof.Machine.execCsrr n d s
  | .csrw n a => Sys2Proof.Machine.execCsrw n a s
  | .csrs n d a => Sys2Proof.Machine.execCsrs n d a s
  | .eret a => Sys2Proof.Machine.execEret a s
  | .tlbinv k a b c => Sys2Proof.Machine.execTlbinv k a b c s
  | .hcall n d a => Sys2Proof.Machine.execHcall n d a s
  | .mAdd d a b => Sys2Proof.Machine.execMAdd d a b s
  | .mSub d a b => Sys2Proof.Machine.execMSub d a b s
  | .mMul d a b => Sys2Proof.Machine.execMMul d a b s
  | .mAnd d a b => Sys2Proof.Machine.execMAnd d a b s
  | .mOr d a b => Sys2Proof.Machine.execMOr d a b s
  | .mXor d a b => Sys2Proof.Machine.execMXor d a b s
  | .mShl d a b => Sys2Proof.Machine.execMShl d a b s
  | .mShr d a b => Sys2Proof.Machine.execMShr d a b s
  | .mCmp cc nat d a b => Sys2Proof.Machine.execMCmp cc nat d a b s
  | .mSel d a b c => Sys2Proof.Machine.execMSel d a b c s
  | .mMov d a => Sys2Proof.Machine.execMMov d a s
  | .mAddImm d a imm => Sys2Proof.Machine.execMAddImm d a imm s
  | .mMulImm d a imm => Sys2Proof.Machine.execMMulImm d a imm s
  | .mAndImm d a imm => Sys2Proof.Machine.execMAndImm d a imm s
  | .mOrImm d a imm => Sys2Proof.Machine.execMOrImm d a imm s
  | .mXorImm d a imm => Sys2Proof.Machine.execMXorImm d a imm s
  | .mShlImm d a imm => Sys2Proof.Machine.execMShlImm d a imm s
  | .mShrImm d a imm => Sys2Proof.Machine.execMShrImm d a imm s
  | .mCmpImm cc nat d a imm => Sys2Proof.Machine.execMCmpImm cc nat d a imm s
  | .li d imm => Sys2Proof.Machine.execLi d imm s
  | .liLit d imm => Sys2Proof.Machine.execLiLit d imm s
  | .mBr off => Sys2Proof.Machine.execMBr off s
  | .mBrc z c off => Sys2Proof.Machine.execMBrc z c off s
  | .loop c off => Sys2Proof.Machine.execLoop c off s
  | .ldx w sx d base imm => Sys2Proof.Machine.execLdx w sx d base imm s
  | .stx w v base imm => Sys2Proof.Machine.execStx w v base imm s
  | .tdld d base imm => Sys2Proof.Machine.execTdld d base imm s
  | .tdset f k d a => Sys2Proof.Machine.execTdset f k d a s
  | .tdsetLit f k d v => Sys2Proof.Machine.execTdsetLit f k d v s
  | .tcopy d a => Sys2Proof.Machine.execTcopy d a s
  | .tgather d a b => Sys2Proof.Machine.execTgather d a b s
  | .tscatter d a b => Sys2Proof.Machine.execTscatter d a b s
  | .qput e k a => Sys2Proof.Machine.execQput e k a s
  | .mCbarr k c a b => Sys2Proof.Machine.execMCbarr k c a b s
  | .mCbwait c a b => Sys2Proof.Machine.execMCbwait c a b s
  | .regfill a b c => Sys2Proof.Machine.execRegfill a b c s
  | .mfence => Sys2Proof.Machine.execMfence s
  | .mdone a => Sys2Proof.Machine.execMdone a s
  | .mexit => Sys2Proof.Machine.execMexit s
  | .fxred op t d a b => Sys2Proof.Machine.execFxred op t d a b s
  | .dharv d a => Sys2Proof.Machine.execDharv d a s
  | .rowSelection core => Sys2Proof.Machine.execRowSelection core s
  | .producerFill req => Sys2Proof.Machine.execProducerFill req s
  | .teamTeardown team => Sys2Proof.Machine.execTeamTeardown team s
  | .watchdogExpiry team => Sys2Proof.Machine.execWatchdogExpiry team s
  | .trapModeWindowExpiry team => Sys2Proof.Machine.execTrapModeWindowExpiry team s
  | .teamAdmission core => Sys2Proof.Machine.execTeamAdmission core s
  | .admissionReservation core => Sys2Proof.Machine.execAdmissionReservation core s
  | .phaseBoundary team => Sys2Proof.Machine.execPhaseBoundary team s
  | .sliceEnd core => Sys2Proof.Machine.execSliceEnd core s
  | .phaseDiscard team => Sys2Proof.Machine.execPhaseDiscard team s
  | .teamSave team => Sys2Proof.Machine.execTeamSave team s
  | .teamRestore saved cluster => Sys2Proof.Machine.execTeamRestore saved cluster s
  | .storePerform req => Sys2Proof.Machine.execStorePerform req s
  | .atomicPerform req => Sys2Proof.Machine.execAtomicPerform req s
  | .sleepTimeout team tix => Sys2Proof.Machine.execSleepTimeout team tix s
  | .yieldExpiry team tix => Sys2Proof.Machine.execYieldExpiry team tix s
  | .generationCheckedWrite req => Sys2Proof.Machine.execGenerationCheckedWrite req s
  | .quiescenceRound launch die => Sys2Proof.Machine.execQuiescenceRound launch die s
  | .passStart cluster => Sys2Proof.Machine.execPassStart cluster s
  | .passPerform cluster => Sys2Proof.Machine.execPassPerform cluster s
  | .requestPromotion cluster idx => Sys2Proof.Machine.execRequestPromotion cluster idx s
  | .mxtopkResult team tix => Sys2Proof.Machine.execMxtopkResult team tix s
  | .boundPropagation launch cell => Sys2Proof.Machine.execBoundPropagation launch cell s
  | .mordantDispatch cluster => Sys2Proof.Machine.execMordantDispatch cluster s
  | .launchQueueNotify fn q x => Sys2Proof.Machine.execLaunchQueueNotify fn q x s
  | .launchQueueConfig fn q x => Sys2Proof.Machine.execLaunchQueueConfig fn q x s
  | .launchRead fn q => Sys2Proof.Machine.execLaunchRead fn q s
  | .dependenceRecheck launch => Sys2Proof.Machine.execDependenceRecheck launch s
  | .launchPriorityAging launch => Sys2Proof.Machine.execLaunchPriorityAging launch s
  | .clusterTeamPlacement die => Sys2Proof.Machine.execClusterTeamPlacement die s
  | .areaStallTimeout token => Sys2Proof.Machine.execAreaStallTimeout token s
  | .hvAnswer x => Sys2Proof.Machine.execHvAnswer x s
  | .hvEventWrite => Sys2Proof.Machine.execHvEventWrite s
  | .tlbWalk die => Sys2Proof.Machine.execTlbWalk die s
  | .tlbinvRelease team tix => Sys2Proof.Machine.execTlbinvRelease team tix s
  | .pinSet x => Sys2Proof.Machine.execPinSet x s
  | .pinSetDone => Sys2Proof.Machine.execPinSetDone s
  | .hashApply => Sys2Proof.Machine.execHashApply s
  | .hashApplyDone => Sys2Proof.Machine.execHashApplyDone s
  | .functionLevelReset fn => Sys2Proof.Machine.execFunctionLevelReset fn s
  | .functionReset fn => Sys2Proof.Machine.execFunctionReset fn s
  | .functionResetDone fn => Sys2Proof.Machine.execFunctionResetDone fn s
  | .functionEnable fn x => Sys2Proof.Machine.execFunctionEnable fn x s
  | .clusterMaskWrite fn hi x => Sys2Proof.Machine.execClusterMaskWrite fn hi x s
  | .stop fn => Sys2Proof.Machine.execStop fn s
  | .quiesceDone fn => Sys2Proof.Machine.execQuiesceDone fn s
  | .saveDone fn => Sys2Proof.Machine.execSaveDone fn s
  | .commit fn => Sys2Proof.Machine.execCommit fn s
  | .abort fn => Sys2Proof.Machine.execAbort fn s
  | .restore fn => Sys2Proof.Machine.execRestore fn s
  | .restoreDone fn => Sys2Proof.Machine.execRestoreDone fn s
  | .restoreStallTimeout token => Sys2Proof.Machine.execRestoreStallTimeout token s
  | .saveAreaStallTimeout token => Sys2Proof.Machine.execSaveAreaStallTimeout token s
  | .pageFree x => Sys2Proof.Machine.execPageFree x s
  | .pageAlloc => Sys2Proof.Machine.execPageAlloc s
  | .pageScrubDone => Sys2Proof.Machine.execPageScrubDone s
  | .systemMordantStart die x => Sys2Proof.Machine.execSystemMordantStart die x s
  | .powerGood => Sys2Proof.Machine.execPowerGood s
  | .stageAReached => Sys2Proof.Machine.execStageAReached s
  | .stageBReached trained failedClusters failedPorts => Sys2Proof.Machine.execStageBReached trained failedClusters failedPorts s
  | .firmwareUpdate => Sys2Proof.Machine.execFirmwareUpdate s
  | .updateResult readFailed => Sys2Proof.Machine.execUpdateResult readFailed s
  | .attestation => Sys2Proof.Machine.execAttestation s
  | .attestationDone => Sys2Proof.Machine.execAttestationDone s
  | .powerCapWrite x => Sys2Proof.Machine.execPowerCapWrite x s
  | .logRingBaseWrite x => Sys2Proof.Machine.execLogRingBaseWrite x s
  | .sensorRefresh temps rails => Sys2Proof.Machine.execSensorRefresh temps rails s
  | .skipLevelUpdate levels cap => Sys2Proof.Machine.execSkipLevelUpdate levels cap s
  | .thermalShutdown die point => Sys2Proof.Machine.execThermalShutdown die point s
  | .laneSample port lanes => Sys2Proof.Machine.execLaneSample port lanes s
  | .laneSignalLoss port lane => Sys2Proof.Machine.execLaneSignalLoss port lane s
  | .portTrainStart port => Sys2Proof.Machine.execPortTrainStart port s
  | .portTrainDone port failed => Sys2Proof.Machine.execPortTrainDone port failed s
  | .laneSwap port => Sys2Proof.Machine.execLaneSwap port s
  | .swapAgreementTimeout port => Sys2Proof.Machine.execSwapAgreementTimeout port s
  | .portDrainDone port => Sys2Proof.Machine.execPortDrainDone port s
  | .flitReplay port => Sys2Proof.Machine.execFlitReplay port s
  | .packetSend id => Sys2Proof.Machine.execPacketSend id s
  | .packetReceive p => Sys2Proof.Machine.execPacketReceive p s
  | .answerReceive id answer data => Sys2Proof.Machine.execAnswerReceive id answer data s
  | .packetRetransmit id => Sys2Proof.Machine.execPacketRetransmit id s
  | .packetTimeout id => Sys2Proof.Machine.execPacketTimeout id s
  | .movedResend id => Sys2Proof.Machine.execMovedResend id s
  | .atomicResultExpiry srcPkg => Sys2Proof.Machine.execAtomicResultExpiry srcPkg s
  | .forwardingWindowEnd fn => Sys2Proof.Machine.execForwardingWindowEnd fn s
  | .fabricMmuStallTimeout token => Sys2Proof.Machine.execFabricMmuStallTimeout token s
  | .vdnInvalidate fn => Sys2Proof.Machine.execVdnInvalidate fn s
  | .multicastRewrite x => Sys2Proof.Machine.execMulticastRewrite x s
  | .multicastRewriteDone => Sys2Proof.Machine.execMulticastRewriteDone s
  | .fxredComplete x => Sys2Proof.Machine.execFxredComplete x s
  | .txtailWrite port q fn x => Sys2Proof.Machine.execTxtailWrite port q fn x s
  | .frameTransmit port q => Sys2Proof.Machine.execFrameTransmit port q s
  | .frameReceive port frame fcs => Sys2Proof.Machine.execFrameReceive port frame fcs s
  | .hostAccess op => Sys2Proof.Machine.execHostAccess op s
  | .registerWrite r x => Sys2Proof.Machine.execRegisterWrite r x s
  | .powerLoss => Sys2Proof.Machine.execPowerLoss s

end Sys2Proof.Machine
end

