-- ==== Sys2Proof/Machine/World.lean ====
section
/-! DEFINITION. What passes without an instruction: cycles, lines and entries that caches drop, soft errors; and whose turn it
is when nothing is laid down. -/

namespace Sys2Proof.Machine

/-! ## Cycles (R323, R373) -/

/-- The slots that a function occupies on a die. -/
def occupied (s : State) (die fn : Nat) : Nat :=
  (s.threads.filter fun p => dieOf p.2.core == die &&
    (((s.team? p.2.team).bind fun m => s.launch? m.launch).map fun l => l.fn == fn).getD false).length

/-- The functions with threads on a die. -/
def functionsOn (s : State) (die : Nat) : List Nat :=
  (s.threads.filterMap fun p =>
    if dieOf p.2.core = die then ((s.team? p.2.team).bind fun m => s.launch? m.launch).map (·.fn) else none).eraseDups

/-- Cycles of [0, t) that a cluster at a level skips. -/
def skipsBefore (level t : Nat) : Nat := t * level / 16

/-- Cycles that a cluster skips from `a` to `b`: LEVEL takes effect at the first window after `a` (R392). -/
def skipsBetween (x : Cluster) (a b : Nat) : Nat :=
  let w := Nat.min b ((a / 16 + 1) * 16)
  (skipsBefore x.skip w - skipsBefore x.skip a) + (skipsBefore x.level b - skipsBefore x.level w)

/-- `n` cycles pass for a cluster: its pass runs in those that are not skipped, the others count in SKIPPED, and the copies of
its bound cells follow them (R289). -/
def tickCluster (n : Nat) (s : State) (k : Nat) : State :=
  let x := s.cluster k
  let b := s.now + n
  let m := skipsBetween x s.now b
  let x' := { x with
    pass := x.pass.map fun p => { p with left := p.left - (n - m) }
    skip := if (s.now / 16 + 1) * 16 ≤ b then x.level else x.skip }
  let sk := FMap.set 0 s.och.skipped k (FMap.get 0 s.och.skipped k + BitVec.ofNat 48 m)
  let s := { s.setCluster k x' with och := { s.och with skipped := sk } }
  if s.now / 10 < b / 10 then syncCopies s k else s


/-- Cycles pass: `rdclk` rises, and every die accounts the slot-cycles of its functions. -/
def tick (s : State) (n : Nat) : State :=
  let one (s : State) (d : Nat) : State :=
    match functionsOn s d with
    | [] => s
    | fs =>
      let x := s.die d
      s.setDie d { x with slotCycles := fs.foldl (fun m f => FMap.set 0 m f (FMap.get 0 m f + occupied s d f * n)) x.slotCycles }
  let s := (s.clusters.map (·.1)).foldl (tickCluster n) ([0, 1, 2, 3].foldl one s)
  { s with now := s.now + n }

/-! ## Caches and TLBs lose entries; soft errors (R297, R299, R300, R352) -/

def dropOne {α : Type} (m : Tab α) (k : Nat) : Tab α := Tab.del m k

/-- A soft error in a sector of HBM4 as it reaches the cache: corrected and counted, or marked poisoned and counted. -/
def softError (s : State) (sector : Nat) (uncorrectable : Bool) : State :=
  match physOf (sector * 32) with
  | .hbm d =>
    let x := s.die d
    if uncorrectable then
      let ue := if x.ue = 0xFFFF then x.ue else x.ue + 1
      { s.setDie d { x with ue := ue } with poison := FMap.set false s.poison sector true }
    else s.setDie d { x with ce := x.ce + 1 }
  | .host | .notify _ _ _ | .nowhere => s

/-- A turn in which no instruction and no event is carried out. -/
def worldTurn (s : State) : Turn → State
  | .tick n => tick s n
  | .dropL1 c k => s.setCore c { s.core c with l1 := dropOne (s.core c).l1 k }
  | .dropConst c k => s.setCore c { s.core c with cc := dropOne (s.core c).cc k }
  | .dropInstr c k => s.setCore c { s.core c with ic := dropOne (s.core c).ic k }
  | .dropMordant c k => s.setCluster c { s.cluster c with mic := dropOne (s.cluster c).mic k }
  | .dropLine l => evictLine s l
  | .dropTlb d n => s.setDie d { s.die d with tlb := (s.die d).tlb.eraseIdx n }
  | .eccError k u => softError s k u
  | .issue _ _ | .program _ | .event _ | .carry _ _ => s

/-! ## Whose turn (DESIGN CHOICE) -/

/-- The streams of a core with a row, from the one after the last that issued (R160). -/
def readyStream (c : Core) : Option Nat :=
  ((List.range 4).map fun i => (c.rotate + 1 + i) % 4).find? fun k => (Tab.find c.rows k).isSome

/-- Where the agenda is empty: a row issues, else a waiting entry is selected, else a cycle passes. -/
def defaultTurn (s : State) : Turn :=
  match s.cores.findSome? fun p => if skippedNow s (clusterOf p.1) then none else (readyStream p.2).map fun k => Turn.issue p.1 k with
  | some t => t
  | none =>
    match s.cores.find? fun p => !skippedNow s (clusterOf p.1) && (!p.2.table.isEmpty || !p.2.ring.isEmpty) with
    | some p => .event (.rowSelection p.1)
    | none => .tick 1

/-- The turn taken, and the state with it taken from the agenda. -/
def takeTurn (s : State) : Turn × State :=
  match s.agenda with
  | [] => (defaultTurn s, s)
  | t :: rest => (t, { s with agenda := rest })

/-! ## One word of a row for one thread -/

/-- The thread that a row stream issues for, fetched and decoded: the instruction with the state in which it executes, or
the state after a word that does not execute. -/
def prepareIssue (s : State) (core stream : Nat) : Except State (Instr × State × Nat) :=
  if skippedNow s (clusterOf core) then .error s else
  match Tab.find (s.core core).rows stream with
  | none => .error s
  | some r =>
    match r.pending.head? with
    | none => .error (advanceRow s core stream r)
    | some slot =>
      match s.threadAt core slot with
      | none => .error (settleRow s core stream slot)
      | some t =>
        match s.team? t.team with
        | none => .error (settleRow s core stream slot)
        | some m =>
          let s := s.setCore core { s.core core with rotate := stream }
          if m.stage = .stopping then
            .error (settleRow (s.setThread { t with place := .held (.save s.now) }) core stream slot)
          else
          match fetchInstr s m t r.issued with
          | (s, .exec i) => .ok (i, { s with cur := .thread t.team t.tix }, slot)
          | (_, .stop s) => .error (settleRow s core stream slot)
          | (s, .cut) => .error (finishRow s core stream)

end Sys2Proof.Machine
end

