-- ==== Sys2Proof/Machine/Step.lean ====
section
/-! DEFINITION. One step: the turn of one agent. -/

namespace Sys2Proof.Machine

/-- A row stream issues its word for its next thread: exec of the decoded instruction, then the row goes on. -/
def stepIssue (s : State) (core stream : Nat) : Host.Outcome State Fault Refusal :=
  match prepareIssue s core stream with
  | .error s => .next { s with cur := .none }
  | .ok (i, s, slot) =>
    match exec i s with
    | .next s => .next { settleRow s core stream slot with cur := .none }
    | .fault f => .fault f
    | .refused r => .refused r

/-- The engine of a program skips the current cycle (R392). -/
def programSkipped (s : State) (u : Nat) : Bool :=
  match s.program? u with
  | some p => p.system.isNone && skippedNow s p.cluster
  | none => false

/-- A Mordant program executes its next instruction. -/
def stepProgram (s : State) (u : Nat) : Host.Outcome State Fault Refusal :=
  match (if programSkipped s u then .error s else prepareProgram s u) with
  | .error s => .next { s with cur := .none }
  | .ok (i, s) =>
    match exec i s with
    | .next s => .next { s with cur := .none }
    | .fault f => .fault f
    | .refused r => .refused r

/-- What a turn does. -/
def stepTurn (s : State) (t : Turn) : Host.Outcome State Fault Refusal :=
  match t with
  | .issue core stream => stepIssue s core stream
  | .program u => stepProgram s u
  | .event i => exec i { s with cur := .none }
  | .carry port ch => .next (carry s port ch)
  | .tick _ | .dropL1 _ _ | .dropConst _ _ | .dropInstr _ _ | .dropMordant _ _ | .dropLine _ | .dropTlb _ _
  | .eccError _ _ => .next (worldTurn s t)

/-- One step of the machine. -/
def step (s : State) : Host.Outcome State Fault Refusal := stepTurn (takeTurn s).2 (takeTurn s).1

/-! ## The host's placement of one instruction -/

/-- A launch record with one rx lease over the 64 KiB page at 0x10000. -/
def probeRecord : List Byte :=
  List.replicate 0x180 0 ++ leBytes 8 (1 + 2 ^ 40 + 3 * 2 ^ 62) ++ List.replicate 0x78 0

def probeLaunch : Launch :=
  { fn := 0, queue := 0, seq := 0, record := probeRecord, header := 0, stage := .running, priv := false, since := 0, pri := 0,
    nextTeam := 1, ndone := 0, nflt := 0, nrec := 0, dqleft := 0, refused := 0, quiescent := false, sent := [], recv := [],
    samples := [], places := [], last := none, kept := [], recheck := false, token := none }

def probeTeam (u : Nat) : Team :=
  { launch := u, num := 0, core := 0, nthr := 8, w := 8, narrow := false, stage := .resident, groups := [(0, 0)], phase := 0,
    nreg := 768, idem := false, demoted := false, phaddr := 0x10000, scrSize := 0, scratch := [], gen := 0, gens := [],
    nacc := 0, tiles := [], tflags := [], streams := [], chains := [], wdCount := 0, wdSince := none, ncompl := 0,
    preempt := none, area := none, image := [], blocks := [], erets := [] }

def probeThread (u : Nat) : Thread :=
  { team := u, tix := 0, core := 0, slot := 0, pc := 0x10000, regs := [], gmap := List.range 12, fpctl := 0, fflags := 0,
    trapvec := 0, trappc := 0, trapcause := 0, priv := false, place := .row, hcall := none }

/-- The page of the probe in the instruction-fetch TLB. -/
def probeXlat : Xlat :=
  { fn := 0, va := 0x10000, log := 16, ipa := 0x10000, out := .hbm 0x10000, r := true, w := false, x := true, pin := false }

/-- The state with an instruction of the table placed so that the next step fetches and runs it: a running launch of one
team, whose thread stands first in a row of core 0, with the instruction's bytes in HBM4 at its pc. It stands for the load
of a program from outside and its launch. -/
def State.withFetchWord (s : State) (nbits w : Nat) : State :=
  let u := s.uid
  let c := s.core 0
  let c := { c with
    ic := c.ic.filter (fun p => p.1 != 0x2000 && p.1 != 0x2001), itlb := [probeXlat],
    rows := Tab.put c.rows 0 ⟨u, 0x10000, 0, [0], [], []⟩ }
  let s := s.setCluster 0 { s.cluster 0 with skip := 0 }
  { s.setCore 0 c with
    uid := u + 1
    agenda := .issue 0 0 :: s.agenda
    mem := putBytes s.mem 0x10000 (leBytes 16 (w % 2 ^ nbits))
    poison := FMap.set false s.poison 0x800 false
    launches := Tab.put s.launches u probeLaunch
    teams := Tab.put s.teams u (probeTeam u)
    threads := Tab.put s.threads (tkey u 0) (probeThread u) }

end Sys2Proof.Machine
end

