-- ==== Sys2Proof/Safety.lean ====
section
/-! DEFINITION. The terms that statements use: a safe step, a thread that is ready to execute an instruction, the state after
an instruction that only goes on, and the parts of the state that an instruction leaves alone. -/

namespace Sys2Proof.Machine

/-- The outcome is a next state. Every trap and fault of the spec is a next state, so a step that stops is a step that the
spec does not describe. -/
def Safe (o : Host.Outcome State Fault Refusal) : Prop := ∃ t, o = .next t

/-- Thread `t` of team `m` is current and passes the checks of R74 steps 2, 6 and 7 and of R37 orders 2 to 5 for an
instruction with the register fields `fs`: every field names registers below 768 (below 256 under major 3), aligned, below
the phase's NREG; every source is full and no destination is empty; a privileged instruction runs with PRIV set. -/
structure Ready (s : State) (m : Team) (t : Thread) (i : Instr) (privileged : Bool) (fs : List RF) : Prop where
  current : s.cur = .thread t.team t.tix
  team : s.team? t.team = some m
  thread : s.thread? t.team t.tix = some t
  introduced : m.narrow = true → i.since4 = false
  named : ∀ f ∈ fs, f.r < 768 ∧ f.last < 768 ∧ (m.narrow = true → f.last < 256) ∧ f.r % f.align = 0 ∧ f.last < m.nreg
  allowed : privileged = true → t.priv = true
  full : ∀ p ∈ sources fs, t.reg p.1 = .full (t.word p.1)
  free : ∀ r ∈ destinations fs, isEmptyReg (t.reg r) = false

/-- The state after a thread instruction that retires and goes on to the next word of its row: `t` is the thread with the
registers as the instruction leaves them. -/
def advance (s : State) (t : Thread) (i : Instr) : State :=
  (retire s t.team).setThread { t with pc := t.pc + BitVec.ofNat 64 i.len }

/-- The state after a thread instruction that retires, ends its row and goes on at `pc` through the table. -/
def jump (s : State) (t : Thread) (pc : DWord) : State := arrive (retire s t.team) t pc

/-- TH_FFLAGS with the flags of an instruction added (R43). -/
def Thread.withFlags (t : Thread) (fl : FFlags) : Thread := { t with fflags := t.fflags ||| BitVec.ofNat 32 fl.toNat }

/-- Program `u` is current on an engine and stands as `p`. -/
structure Runs (s : State) (u : Nat) (p : Program) : Prop where
  current : s.cur = .program u
  program : s.program? u = some p

/-- The request that an instruction has just added. -/
def newReq (s s' : State) (r : Req) : Prop := ∃ k, s'.reqs = s.reqs ++ [(k, r)]

/-- Every byte of physical memory reads as it did. -/
def SameMemory (s s' : State) : Prop := ∀ a, readByte s' a = readByte s a

/-- Every byte of physical memory outside the `n` bytes at `pa` reads as it did. -/
def SameMemoryOutside (s s' : State) (pa n : Nat) : Prop := ∀ a, a < pa ∨ pa + n ≤ a → readByte s' a = readByte s a

/-- Every thread but one is as it was. -/
def SameOtherThreads (s s' : State) (t : Thread) : Prop :=
  ∀ a x, tkey a x ≠ tkey t.team t.tix → s'.thread? a x = s.thread? a x

/-- The state apart from threads, teams and cores is as it was: memory with its dirty and poison marks, caches of the
package, launches, programs, requests, clusters, dies, queues, functions, and the package's, Ochre's and the fabric's
registers. -/
def SameDevice (s s' : State) : Prop :=
  s'.now = s.now ∧ s'.cur = s.cur ∧ s'.agenda = s.agenda ∧ s'.mem = s.mem ∧ s'.dirty = s.dirty ∧ s'.poison = s.poison ∧
  s'.llc = s.llc ∧ s'.launches = s.launches ∧ s'.programs = s.programs ∧ s'.reqs = s.reqs ∧ s'.clusters = s.clusters ∧
  s'.dies = s.dies ∧ s'.queues = s.queues ∧ s'.fns = s.fns ∧ s'.pkg = s.pkg ∧ s'.och = s.och ∧ s'.fab = s.fab

/-- A team as it was but for its watchdog count (R330). -/
def SameTeamBut (m m' : Team) : Prop := { m with wdCount := m'.wdCount, wdSince := m'.wdSince } = m'

end Sys2Proof.Machine
end

