-- ==== Sys2Proof/Certificates/Slice0/Obligations.lean ====
section
/-! DEFINITION. The statements about this model, for the provers. Each is a Prop; none is proved here. Before them stand the
tables of results that they name. -/

namespace Sys2Proof.Machine

/-! ## Results of thread instructions, as the entries of files 05 and 06 give them -/

/-- A source word as an integer of a type (R46, R83). -/
def iv (ty : Ty) (t : Thread) (a : Src) : Int := tyVal ty (rw t a).toNat

/-- The instructions that write one register with an integer result: their sources, destination and value (R85 to R100,
R141). -/
def wordResult (t : Thread) : Instr → Option (List RF × Reg × Word)
  | .add ty d a b => some ([src1 a, src1 b], d, tyRes ty (iv ty t a + iv ty t b))
  | .sub ty d a b => some ([src1 a, src1 b], d, tyRes ty (iv ty t a - iv ty t b))
  | .mul ty d a b => some ([src1 a, src1 b], d, tyRes ty (iv ty t a * iv ty t b))
  | .mulh ty d a b => some ([src1 a, src1 b], d, BitVec.ofInt 32 (iv ty t a * iv ty t b / 2 ^ 32))
  | .mad ty d a b c => some ([src1 a, src1 b, src1 c], d, tyRes ty (iv ty t a * iv ty t b + iv ty t c))
  | .min ty d a b => some ([src1 a, src1 b], d, tyRes ty (if iv ty t a ≤ iv ty t b then iv ty t a else iv ty t b))
  | .max ty d a b => some ([src1 a, src1 b], d, tyRes ty (if iv ty t b ≤ iv ty t a then iv ty t a else iv ty t b))
  | .abs ty d a => some ([src1 a], d, tyRes ty (iv ty t a).natAbs)
  | .neg ty d a => some ([src1 a], d, tyRes ty (-(iv ty t a)))
  | .and d a b => some ([src1 a, src1 b], d, rw t a &&& rw t b)
  | .or d a b => some ([src1 a, src1 b], d, rw t a ||| rw t b)
  | .xor d a b => some ([src1 a, src1 b], d, rw t a ^^^ rw t b)
  | .not d a => some ([src1 a], d, ~~~(rw t a))
  | .andn d a b => some ([src1 a, src1 b], d, rw t a &&& ~~~(rw t b))
  | .orn d a b => some ([src1 a, src1 b], d, rw t a ||| ~~~(rw t b))
  | .shl d a b => some ([src1 a, src1 b], d, rw t a <<< (rw t b).toNat)
  | .shr d a b => some ([src1 a, src1 b], d, rw t a >>> (rw t b).toNat)
  | .sar d a b => some ([src1 a, src1 b], d, (rw t a).sshiftRight (rw t b).toNat)
  | .rot d a b => some ([src1 a, src1 b], d, (rw t a).rotateLeft (rw t b).toNat)
  | .clz d a => some ([src1 a], d, BitVec.ofNat 32 (clzOf (rw t a)))
  | .ctz d a => some ([src1 a], d, BitVec.ofNat 32 (ctzOf (rw t a)))
  | .popc d a => some ([src1 a], d, BitVec.ofNat 32 (popcOf (rw t a)))
  | .brev d a => some ([src1 a], d, brevOf (rw t a))
  | .bfe ty d a b => some ([src1 a, src1 b], d, bfeOf ty (rw t a) (rw t b))
  | .bfi d a b c => some ([src1 a, src1 b, src1 c], d, bfiOf (rw t a) (rw t b) (rw t c))
  | .bperm d a b c => some ([src1 a, src1 b, src1 c], d, bpermOf (rw t a) (rw t b) (rw t c))
  | .sel d a b c => some ([src1 a, src1 b, src1 c], d, if rw t c = 0 then rw t b else rw t a)
  | .cmp cc ty d a b => some ([src1 a, src1 b], d, if condHolds cc (iv ty t a) (iv ty t b) then 1 else 0)
  | .cmp64 cc ty d a b =>
    some ([src2 a, src2 b], d, if condHolds cc (tyVal ty (rp t a).toNat) (tyVal ty (rp t b).toNat) then 1 else 0)
  | .mov d a => some ([src1 a], d, rw t a)
  | .movi d imm => some ([], d, imm)
  | .idp4 ty d a b c => some ([src1 a, src1 b, src1 c], d, idp4Of ty (rw t a) (rw t b) (rw t c))
  | .addImm ty d a imm => some ([src1 a], d, tyRes ty (iv ty t a + tyVal ty (imm.signExtend 32).toNat))
  | .mulImm ty d a imm => some ([src1 a], d, tyRes ty (iv ty t a * tyVal ty (imm.signExtend 32).toNat))
  | .andImm d a imm => some ([src1 a], d, rw t a &&& imm.signExtend 32)
  | .orImm d a imm => some ([src1 a], d, rw t a ||| imm.signExtend 32)
  | .xorImm d a imm => some ([src1 a], d, rw t a ^^^ imm.signExtend 32)
  | .shlImm d a imm => some ([src1 a], d, rw t a <<< (imm.signExtend 32).toNat)
  | .shrImm d a imm => some ([src1 a], d, rw t a >>> (imm.signExtend 32).toNat)
  | .sarImm d a imm => some ([src1 a], d, (rw t a).sshiftRight (imm.signExtend 32).toNat)
  | .minImm ty d a imm =>
    let b := tyVal ty (imm.signExtend 32).toNat
    some ([src1 a], d, tyRes ty (if iv ty t a ≤ b then iv ty t a else b))
  | .maxImm ty d a imm =>
    let b := tyVal ty (imm.signExtend 32).toNat
    some ([src1 a], d, tyRes ty (if b ≤ iv ty t a then iv ty t a else b))
  | .cmpImm cc ty d a imm =>
    some ([src1 a], d, if condHolds cc (iv ty t a) (tyVal ty (imm.signExtend 32).toNat) then 1 else 0)
  | .vtest d a => some ([named1 a], d, match t.reg a.toNat with | .full _ => 0 | .poisoned => 1 | .empty tag => tag)
  | _ => none

/-- The instructions that write an aligned pair (R86, R96 to R98, R210). -/
def pairResult (now : Nat) (t : Thread) : Instr → Option (List RF × Reg × DWord)
  | .addc _ d a b c => some ([src1 a, src1 b, src1 c], d,
      BitVec.ofNat 64 ((rw t a).toNat + (rw t b).toNat + (rw t c).toNat % 2))
  | .subb _ d a b c =>
    let v : Int := (rw t a).toNat - (rw t b).toNat - ((rw t c).toNat % 2 : Nat)
    some ([src1 a, src1 b, src1 c], d, (if v < 0 then (1 : Word) else 0) ++ BitVec.ofInt 32 v)
  | .add64 d a b => some ([src2 a, src2 b], d, rp t a + rp t b)
  | .sub64 d a b => some ([src2 a, src2 b], d, rp t a - rp t b)
  | .mul64 d a b => some ([src2 a, src2 b], d, rp t a * rp t b)
  | .shl64 d a b => some ([src2 a, src1 b], d, rp t a <<< (rw t b).toNat)
  | .shr64 ty d a b => some ([src2 a, src1 b], d,
      if ty = .s64 then (rp t a).sshiftRight (rw t b).toNat else rp t a >>> (rw t b).toNat)
  | .lea nat sc d a b => some ([src2 a, src1 b], d,
      rp t a + (if nat then (rw t b).zeroExtend 64 else (rw t b).signExtend 64) <<< sc.toNat)
  | .movp d imm => some ([], d, imm)
  | .rdclk d => some ([], d, BitVec.ofNat 64 now)
  | _ => none

/-- A floating-point source under the `.ftz` of its instruction (R49, R53). -/
def fv (ty : FTy) (ftz : Bool) (t : Thread) (a : Src) : FVal := unpackZ (fmtOf ty) ftz (scal (fmtOf ty) (rw t a))

/-- Element `k` of a packed source. -/
def hv (ty : FTy) (ftz : Bool) (t : Thread) (a : Src) (k : Nat) : FVal := unpackZ (fmtOf ty) ftz (elem (rw t a) k)

/-- The floating-point instructions that complete at issue: sources, destination, value and flags (R105 to R108, R111 to
R114, R116). -/
def floatResult (t : Thread) : Instr → Option (List RF × Reg × (Word × FFlags))
  | .fadd m d a b => some ([src1 a, src1 b], d, res32 (addVals (fmtOf m.ty) m.rm m.ftz (fv m.ty m.ftz t a) (fv m.ty m.ftz t b)))
  | .fsub m d a b => some ([src1 a, src1 b], d,
      res32 (addVals (fmtOf m.ty) m.rm m.ftz (fv m.ty m.ftz t a) (fv m.ty m.ftz t b).negate))
  | .fmul m d a b => some ([src1 a, src1 b], d, res32 (mulVals (fmtOf m.ty) m.rm m.ftz (fv m.ty m.ftz t a) (fv m.ty m.ftz t b)))
  | .ffma m d a b c => some ([src1 a, src1 b, src1 c], d,
      res32 (fmaVals (fmtOf m.ty) m.rm m.ftz (fv m.ty m.ftz t a) (fv m.ty m.ftz t b) (fv m.ty m.ftz t c)))
  | .fmin ty ftz d a b => some ([src1 a, src1 b], d,
      res32 (minMax (fmtOf ty) ftz false (scal (fmtOf ty) (rw t a)) (scal (fmtOf ty) (rw t b))))
  | .fmax ty ftz d a b => some ([src1 a, src1 b], d,
      res32 (minMax (fmtOf ty) ftz true (scal (fmtOf ty) (rw t a)) (scal (fmtOf ty) (rw t b))))
  | .fabs ty d a => some ([src1 a], d, res32 (scal (fmtOf ty) (rw t a) % (fmtOf ty).signBit, 0))
  | .fneg ty d a => some ([src1 a], d,
      res32 ((scal (fmtOf ty) (rw t a) + (fmtOf ty).signBit) % (2 * (fmtOf ty).signBit), 0))
  | .fcmp cc ty ftz d a b => some ([src1 a, src1 b], d,
      (if fcondHolds cc (fv ty ftz t a) (fv ty ftz t b) then 1 else 0, fcondFlags cc (fv ty ftz t a) (fv ty ftz t b)))
  | .fclass ty d a => some ([src1 a], d, res32 (classOf (fmtOf ty) (scal (fmtOf ty) (rw t a)), 0))
  | .fldexp m d a b => some ([src1 a, src1 b], d,
      res32 (ldexpVal (fmtOf m.ty) m.rm m.ftz (scal (fmtOf m.ty) (rw t a)) (rw t b).toInt))
  | .fgetexp ty ftz d a =>
    let r := getexpVal (fmtOf ty) ftz (scal (fmtOf ty) (rw t a))
    some ([src1 a], d, (BitVec.ofInt 32 r.1, r.2))
  | .frnd m d a => some ([src1 a], d, res32 (rndVal (fmtOf m.ty) m.rm m.ftz (scal (fmtOf m.ty) (rw t a))))
  | .hadd2 m d a b => some ([src1 a, src1 b], d,
      packed2 fun k => addVals (fmtOf m.ty) m.rm m.ftz (hv m.ty m.ftz t a k) (hv m.ty m.ftz t b k))
  | .hsub2 m d a b => some ([src1 a, src1 b], d,
      packed2 fun k => addVals (fmtOf m.ty) m.rm m.ftz (hv m.ty m.ftz t a k) (hv m.ty m.ftz t b k).negate)
  | .hmul2 m d a b => some ([src1 a, src1 b], d,
      packed2 fun k => mulVals (fmtOf m.ty) m.rm m.ftz (hv m.ty m.ftz t a k) (hv m.ty m.ftz t b k))
  | .hfma2 m d a b c => some ([src1 a, src1 b, src1 c], d,
      packed2 fun k => fmaVals (fmtOf m.ty) m.rm m.ftz (hv m.ty m.ftz t a k) (hv m.ty m.ftz t b k) (hv m.ty m.ftz t c k))
  | .hmin2 ty ftz d a b => some ([src1 a, src1 b], d,
      packed2 fun k => minMax (fmtOf ty) ftz false (elem (rw t a) k) (elem (rw t b) k))
  | .hmax2 ty ftz d a b => some ([src1 a, src1 b], d,
      packed2 fun k => minMax (fmtOf ty) ftz true (elem (rw t a) k) (elem (rw t b) k))
  | .hcmp2 cc ty ftz d a b => some ([src1 a, src1 b], d,
      packed2 fun k => (if fcondHolds cc (hv ty ftz t a k) (hv ty ftz t b k) then 0xFFFF else 0,
        fcondFlags cc (hv ty ftz t a k) (hv ty ftz t b k)))
  | .fdp2 m d a b c => some ([src1 a, src1 b, src1 c], d, fdp2Of m (rw t a) (rw t b) (rw t c))
  | .bqenc bw d a b => some ([src1 a, src1 b], d, res32 (bqEncode (rw t a).toNat ((rw t b).toNat % 256) (bw.toNat + 2)))
  | .bqdec bw d a b => some ([src1 a, src1 b], d, res32 (bqDecode (rw t a).toNat ((rw t b).toNat % 256) (bw.toNat + 2)))
  | _ => none

/-- The conversions: types, rounding mode, `.ftz`, destination and source (R115). -/
def convertForm : Instr → Option (Ty × Ty × RM × Bool × Reg × Src)
  | .cvt dt st z d a => some (dt, st, .rne, z, d, a)
  | .cvtRz dt st z d a => some (dt, st, .rz, z, d, a)
  | .cvtRu dt st z d a => some (dt, st, .ru, z, d, a)
  | .cvtRd dt st z d a => some (dt, st, .rd, z, d, a)
  | _ => none

/-- The producers of R109: sources, destination, value and flags. -/
def functionResult (t : Thread) : Instr → Option (List RF × Reg × (Nat × FFlags))
  | .frcp m d a => some ([src1 a], d, fun1 .rcp (fmtOf m.ty) m.rm m.ftz (scal (fmtOf m.ty) (rw t a)))
  | .frsq m d a => some ([src1 a], d, fun1 .rsq (fmtOf m.ty) m.rm m.ftz (scal (fmtOf m.ty) (rw t a)))
  | .fsqrt m d a => some ([src1 a], d, fun1 .sqrt (fmtOf m.ty) m.rm m.ftz (scal (fmtOf m.ty) (rw t a)))
  | .fexp2 m d a => some ([src1 a], d, fun1 .exp2 (fmtOf m.ty) m.rm m.ftz (scal (fmtOf m.ty) (rw t a)))
  | .flog2 m d a => some ([src1 a], d, fun1 .log2 (fmtOf m.ty) m.rm m.ftz (scal (fmtOf m.ty) (rw t a)))
  | .fdiv m d a b => some ([src1 a, src1 b], d,
      divVals (fmtOf m.ty) m.rm m.ftz (fv m.ty m.ftz t a) (fv m.ty m.ftz t b))
  | _ => none

/-- `div` and `rem`: type, destination, sources, and which of the two (R87). -/
def divisionForm : Instr → Option (Ty × Reg × Src × Src × Bool)
  | .div ty d a b => some (ty, d, a, b, false)
  | .rem ty d a b => some (ty, d, a, b, true)
  | _ => none

end Sys2Proof.Machine

open Sys2Proof Sys2Proof.Machine

/-! ## Integer, logic and address arithmetic (file 05) -/

/-- R83, R85 to R100, R141, R210: an instruction of the tables reads its sources, writes its destination with the value the
table gives and goes on to the next word; nothing else of the state changes but the watchdog count of its team. -/
def Obligations.IntegerInstructionsWriteTheirResult : Prop :=
  (∀ s m t i fs d w, wordResult t i = some (fs, d, w) → Ready s m t i false (fs ++ [dst1 d]) →
    exec i s = .next (advance s (t.write d.toNat w) i)) ∧
  (∀ s m t i fs d x, pairResult s.now t i = some (fs, d, x) → Ready s m t i false (fs ++ [dst2 d]) →
    exec i s = .next (advance s (t.writePair d.toNat x) i))

/-- R46: a result of a type of W is the integer wrapped to the type's width, extended to the register by its sign or with
zeros.
R91: `clz`, `ctz`, `popc` and `brev` count zeros and ones and reverse the bits.
R87: the quotient is truncated towards zero and the remainder takes the sign of the dividend; by zero, the quotient is
-1 and the remainder the dividend. -/
def Obligations.IntegerResultsAreExact : Prop :=
  (∀ (ty : Ty) (v : Int), ty.inW = true →
    (tyVal ty (tyRes ty v).toNat - v) % (2 ^ tyBits ty : Nat) = 0 ∧
    (tySigned ty = true → (tyRes ty v).toInt = tyVal ty (tyRes ty v).toNat ∧
      -(2 ^ (tyBits ty - 1) : Nat) ≤ (tyRes ty v).toInt ∧ (tyRes ty v).toInt < (2 ^ (tyBits ty - 1) : Nat)) ∧
    (tySigned ty = false → ((tyRes ty v).toNat : Int) = tyVal ty (tyRes ty v).toNat ∧ (tyRes ty v).toNat < 2 ^ tyBits ty)) ∧
  (∀ a : Word,
    (clzOf a ≤ 32 ∧ (∀ k, 32 - clzOf a ≤ k → a.getLsbD k = false) ∧ (a ≠ 0 → a.getLsbD (31 - clzOf a) = true)) ∧
    (ctzOf a ≤ 32 ∧ (∀ k, k < ctzOf a → a.getLsbD k = false) ∧ (a ≠ 0 → a.getLsbD (ctzOf a) = true)) ∧
    (popcOf a = ((List.range 32).filter fun k => a.getLsbD k).length) ∧
    (∀ k, k < 32 → (brevOf a).getLsbD k = a.getLsbD (31 - k))) ∧
  ((∀ a b : Int, b ≠ 0 → a = divInt a b * b + remInt a b ∧ (remInt a b).natAbs < b.natAbs ∧
    (remInt a b = 0 ∨ (remInt a b < 0 ↔ a < 0))) ∧
  (∀ a : Int, divInt a 0 = -1 ∧ remInt a 0 = a))

/-! ## Floating point (file 06) -/

/-- R87, R35, R36: `div` and `rem` mark their destination empty under a class 0x2 tag and go on; the result is decided, and
a producer is in flight that will fill it. With EID set and outside trap mode a zero divisor takes T_DIV0 instead, to the
same word, and no register but TH_TRAPPC and TH_TRAPCAUSE is written.
R109, R110, R35: a producer of R109 marks D empty under a class 0x2 tag; its value and its flags come with the fill.
While no trap enable is set the thread goes on at once; otherwise it waits for that fill. -/
def Obligations.ProducersFillLater : Prop :=
  (∀ s m t i ty d a b r, divisionForm i = some (ty, d, a, b, r) →
    Ready s m t i false (if ty.inQ then [src2 a, src2 b, dst2 d] else [src1 a, src1 b, dst1 d]) →
    let av := tyVal ty (if ty.inQ then (rp t a).toNat else (rw t a).toNat)
    let bv := tyVal ty (if ty.inQ then (rp t b).toNat else (rw t b).toNat)
    let v := if r then remInt av bv else divInt av bv
    (¬(bv = 0 ∧ t.fpctl.getLsbD 5 = true ∧ t.mode = false) →
      let ws := if ty.inQ then [lowWord (BitVec.ofInt 64 v), highWord (BitVec.ofInt 64 v)] else [tyRes ty v]
      exec i s = .next (advance
        { s with uid := s.uid + 1, reqs := s.reqs ++ [(s.uid, t.req s.now none (.value d.toNat ws 0 false))] }
        (t.markEmpty d.toNat (producerTag 2 t.pc) ws.length) i)) ∧
    (bv = 0 → t.fpctl.getLsbD 5 = true → t.mode = false → t.trapvec.toNat / 8 ≠ 0 →
      exec i s = .next (arrive s
        { t with trappc := BitVec.ofNat 64 (t.pc.toNat / 8 * 8), trapcause := BitVec.ofNat 32 (1 + 0x05 * 256) }
        (BitVec.ofNat 64 (t.trapvec.toNat / 8 * 8))))) ∧
  (∀ s m t i fs d r, functionResult t i = some (fs, d, r) → Ready s m t i false (fs ++ [dst1 d]) →
    ∃ s', exec i s = .next s' ∧
      s'.reqs = s.reqs ++ [(s.uid, t.req s.now none (.value d.toNat [BitVec.ofNat 32 r.1] r.2 true))] ∧
      (t.fpctl.toNat % 32 = 0 → s'.thread? t.team t.tix =
        some { t.markEmpty d.toNat (producerTag 2 t.pc) 1 with pc := t.pc + 8 }) ∧
      (t.fpctl.toNat % 32 ≠ 0 → s'.thread? t.team t.tix =
        some { t.markEmpty d.toNat (producerTag 2 t.pc) 1 with pc := t.pc + 8, place := .parked (.fpu none) }))

/-- R104, R105 to R108, R111 to R116: a floating-point instruction that completes at issue writes the value of the tables,
adds its flags to TH_FFLAGS and goes on, where no flag that it sets is enabled to trap or the thread is in trap mode.
R43, R144, R145: where a flag that is set is enabled and the thread is outside trap mode with a handler, the instruction
has completed, register and flags, and the thread enters the handler with TH_TRAPPC after it and code T_FPX; the conversions do
the same.
R107: a comparison with a NaN is unordered: `eq`, `lt`, `le`, `gt`, `ge` and `or` are false, `ne` and `un` true; without one
exactly one of `lt`, `eq` and `gt` holds. -/
def Obligations.FloatInstructionsWriteTheirResultOrTrap : Prop :=
  ((∀ s m t i fs d r, floatResult t i = some (fs, d, r) → Ready s m t i false (fs ++ [dst1 d]) →
    enabled t r.2 = false ∨ t.mode = true → exec i s = .next (advance s ((t.write d.toNat r.1).withFlags r.2) i)) ∧
  (∀ s m t i dt st md z d a, convertForm i = some (dt, st, md, z, d, a) →
    Ready s m t i false [if st.inQ then src2 a else src1 a, if dt.inQ then dst2 d else dst1 d] →
    let r := cvtOf dt st md z (if st.inQ then rp t a else (0 : Word) ++ rw t a)
    enabled t r.2 = false ∨ t.mode = true →
    exec i s = .next (advance s
      ((if dt.inQ then t.writePair d.toNat r.1 else t.write d.toNat (lowWord r.1)).withFlags r.2) i))) ∧
  (∀ s m t i fs d r, floatResult t i = some (fs, d, r) → Ready s m t i false (fs ++ [dst1 d]) →
    enabled t r.2 = true → t.mode = false → t.trapvec.toNat / 8 ≠ 0 →
    exec i s = .next (arrive (retire s t.team)
      { (t.write d.toNat r.1).withFlags r.2 with
        trappc := BitVec.ofNat 64 ((t.pc + BitVec.ofNat 64 i.len).toNat / 8 * 8)
        trapcause := BitVec.ofNat 32 (1 + 0x04 * 256) }
      (BitVec.ofNat 64 (t.trapvec.toNat / 8 * 8)))) ∧
  (∀ s m t i dt st md z d a, convertForm i = some (dt, st, md, z, d, a) →
    Ready s m t i false [if st.inQ then src2 a else src1 a, if dt.inQ then dst2 d else dst1 d] →
    let r := cvtOf dt st md z (if st.inQ then rp t a else (0 : Word) ++ rw t a)
    enabled t r.2 = true → t.mode = false → t.trapvec.toNat / 8 ≠ 0 →
    exec i s = .next (arrive (retire s t.team)
      { (if dt.inQ then t.writePair d.toNat r.1 else t.write d.toNat (lowWord r.1)).withFlags r.2 with
        trappc := BitVec.ofNat 64 ((t.pc + BitVec.ofNat 64 i.len).toNat / 8 * 8)
        trapcause := BitVec.ofNat 32 (1 + 0x04 * 256) }
      (BitVec.ofNat 64 (t.trapvec.toNat / 8 * 8)))) ∧
  (∀ x y : FVal,
    ((x.isNan = true ∨ y.isNan = true) →
      fcondHolds .eq x y = false ∧ fcondHolds .lt x y = false ∧ fcondHolds .le x y = false ∧ fcondHolds .gt x y = false ∧
      fcondHolds .ge x y = false ∧ fcondHolds .or x y = false ∧ fcondHolds .ne x y = true ∧ fcondHolds .un x y = true) ∧
    (x.isNan = false → y.isNan = false →
      fcondHolds .un x y = false ∧ fcondHolds .or x y = true ∧ (fcondHolds .ne x y = !fcondHolds .eq x y) ∧
      (fcondHolds .ge x y = !fcondHolds .lt x y) ∧ (fcondHolds .le x y = !fcondHolds .gt x y) ∧
      ([FCond.lt, .eq, .gt].filter fun c => fcondHolds c x y).length = 1))

/-- R65, R66, R101, R117: both halves of a P-form word read their sources, D among them, before either writes. -/
def Obligations.PairWordsRunBothHalves : Prop :=
  ∀ s m t ha hb,
    Ready s m t (.pairWord ha hb) false
      [src1 ha.s, src1 ⟨ha.d, false⟩, src1 hb.s, src1 ⟨hb.d, false⟩, dst1 ha.d, dst1 hb.d] →
    let ra := halfOf ha (t.word ha.d.toNat) (rw t ha.s)
    let rb := halfOf hb (t.word hb.d.toNat) (rw t hb.s)
    enabled t (ra.2 ||| rb.2) = false ∨ t.mode = true →
    exec (.pairWord ha hb) s = .next (advance s
      (((t.write ha.d.toNat ra.1).write hb.d.toNat rb.1).withFlags (ra.2 ||| rb.2)) (.pairWord ha hb))

namespace Sys2Proof.Machine

/-! ## Terms for the instructions of threads -/

/-- Thread `t` of team `m` is current. -/
structure Current (s : State) (m : Team) (t : Thread) : Prop where
  current : s.cur = .thread t.team t.tix
  team : s.team? t.team = some m
  thread : s.thread? t.team t.tix = some t

/-- What a step does after the meaning of its instruction, where that answers a next state. -/
def onNext (o : Host.Outcome State Fault Refusal) (f : State → State) : Host.Outcome State Fault Refusal :=
  match o with
  | .next s => .next (f s)
  | .fault x => .fault x
  | .refused x => .refused x

/-- The words of Mordant programs. -/
def Instr.ofMordant : Instr → Bool
  | .mAdd _ _ _ | .mSub _ _ _ | .mMul _ _ _ | .mAnd _ _ _ | .mOr _ _ _ | .mXor _ _ _ | .mShl _ _ _ | .mShr _ _ _ => true
  | .mCmp _ _ _ _ _ | .mSel _ _ _ _ | .mMov _ _ | .mAddImm _ _ _ | .mMulImm _ _ _ | .mAndImm _ _ _ => true
  | .mOrImm _ _ _ | .mXorImm _ _ _ | .mShlImm _ _ _ | .mShrImm _ _ _ | .mCmpImm _ _ _ _ _ | .li _ _ | .liLit _ _ => true
  | .mBr _ | .mBrc _ _ _ | .loop _ _ | .ldx _ _ _ _ _ | .stx _ _ _ _ | .tdld _ _ _ | .tdset _ _ _ _ => true
  | .tdsetLit _ _ _ _ | .tcopy _ _ | .tgather _ _ _ | .tscatter _ _ _ | .qput _ _ _ | .mCbarr _ _ _ _ => true
  | .mCbwait _ _ _ | .regfill _ _ _ | .mfence | .mdone _ | .mexit | .fxred _ _ _ _ _ | .dharv _ _ => true
  | _ => false

/-- The register fields of the instructions of the result tables. -/
def plainFields (now : Nat) (t : Thread) (i : Instr) : Option (List RF) :=
  ((wordResult t i).map fun x => x.1 ++ [dst1 x.2.1]).or <| ((pairResult now t i).map fun x => x.1 ++ [dst2 x.2.1]).or <|
    ((floatResult t i).map fun x => x.1 ++ [dst1 x.2.1]).or ((functionResult t i).map fun x => x.1 ++ [dst1 x.2.1])

/-- The state with one more request in flight. -/
def issued (s : State) (r : Req) : State := { s with uid := s.uid + 1, reqs := s.reqs ++ [(s.uid, r)] }

/-- Request `r` is one of thread `t` that has just been issued: in class `cls`, to do `act`. -/
structure Issued (t : Thread) (r : Req) (cls : Option Cls) (act : Act) : Prop where
  owner : r.owner = .thread t.team t.tix
  cls : r.cls = cls
  act : r.act = act
  complete : r.complete = false
  dead : r.dead = false
  pc : r.pc = t.pc

/-- An access of `n` bytes at `ea` passes the checks of R125: it may go on to the location `loc`, translated for function `f`
from the intermediate address `ipa`. The state changes in its TLBs and caches alone. -/
structure Accesses (s : State) (m : Team) (t : Thread) (ea : DWord) (n : Nat) (k : Acc) (s' : State) (loc : Loc)
    (f ipa : Nat) : Prop where
  acquired : acqPending s t.team t.tix = false
  checked : checkAccess s t.team m t.core ea n k = (s', .ok loc f ipa)

/-- Where a load of a width may go: memory; peer memory and Ethernet windows outside an idempotent phase; notify pages with 64
bits (R320, R351, R174). -/
def loadable (m : Team) (w : Width) : Loc → Prop
  | .mem _ => True
  | .peer _ _ | .eth _ _ => m.idem = false
  | .notify _ _ _ => w = .w64
  | .window _ _ _ | .scratch _ _ => False

/-- Where a store of a width may go: as a load, and 32 bits to a register window (R253). -/
def storable (m : Team) (w : Width) : Loc → Prop
  | .window _ _ _ => w = .w32
  | loc => loadable m w loc

/-- The bytes that a store of a width writes from its source registers on, least significant first (R126). -/
def storedBytes (t : Thread) (w : Width) (v : Src) : List Byte :=
  (List.range (widthRegs w)).flatMap fun j => leBytes (Nat.min 4 (widthBytes w)) (t.word (v.r.toNat + j)).toNat

/-- Where an atomic may go (R132). -/
def updatable (m : Team) : Loc → Prop
  | .mem _ | .peer _ _ | .eth _ _ => m.idem = false
  | .notify _ _ _ | .window _ _ _ | .scratch _ _ => False

/-- Whether a load at a location may be served by the L1 (R300). -/
def mayHitL1 (nt : Bool) : Loc → Bool
  | .mem pa => isHbm pa && !nt
  | _ => false

/-- The global accesses: register fields, effective address, bytes and kind (R126, R130, R132). -/
def accessForm (t : Thread) : Instr → Option (List RF × DWord × Nat × Acc)
  | .ld w _ _ _ d base imm => some ([src2 base, dstW w d], rp t base + imm.signExtend 64, widthBytes w, .load)
  | .ldc w _ d base imm => some ([src2 base, dstW w d], rp t base + imm.signExtend 64, widthBytes w, .load)
  | .st w _ _ v base imm => some ([srcW w v, src2 base], rp t base + imm.signExtend 64, widthBytes w, .store)
  | .atom _ ty _ d a b => some ([src2 a, srcA ty b, dstA ty d], rp t a, tyBits ty / 8, .atomic)
  | .cas ty _ d a b c => some ([src2 a, srcA ty b, srcA ty c, dstA ty d], rp t a, tyBits ty / 8, .atomic)
  | _ => none

/-- The scratchpad accesses: register fields, offset and bytes (R129, R133). -/
def scratchForm (t : Thread) : Instr → Option (List RF × Int × Nat)
  | .lds w _ _ d base imm => some ([src1 base, dstW w d], (rw t base).toNat + imm.toInt, widthBytes w)
  | .sts w _ v base imm => some ([srcW w v, src1 base], (rw t base).toNat + imm.toInt, widthBytes w)
  | .atoms _ ty _ d a b => some ([src1 a, srcA ty b, dstA ty d], (rw t a).toNat, tyBits ty / 8)
  | .cass ty _ d a b c => some ([src1 a, srcA ty b, srcA ty c, dstA ty d], (rw t a).toNat, tyBits ty / 8)
  | _ => none

/-- The atomics: scope, type, destination and what they do at a location (R133, R134). -/
def atomicForm (t : Thread) (loc : Loc) : Instr → Option (Scope × Ty × Reg × Act)
  | .atom op ty sc d _ b | .atoms op ty sc d _ b => some (sc, ty, d, .atomic loc op ty (valA t ty b) d.toNat)
  | .cas ty sc d _ b c | .cass ty sc d _ b c => some (sc, ty, d, .cas loc ty (valA t ty b) (valA t ty c) d.toNat)
  | _ => none

/-- The words of a meeting: register fields and captured sources (R181, R185 to R192, R207). -/
def meetForm (t : Thread) : Instr → Option (List RF × List Word)
  | .shfl _ d a b => some ([src1 a, src1 b, dst1 d], [rw t a, rw t b])
  | .vote _ d a => some ([src1 a, dst1 d], [rw t a])
  | .ballot b64 d a => some ([src1 a, if b64 then dst2 d else dst1 d], [rw t a])
  | .redux _ _ d a => some ([src1 a, dst1 d], [rw t a])
  | .gscan _ _ _ d a => some ([src1 a, dst1 d], [rw t a])
  | .bqmax d a => some ([src1 a, dst1 d], [rw t a])
  | .bar _ => some ([], [])
  | .phase => some ([], [])
  | .dqidle d => some ([dst1 d], [])
  | _ => none

/-- The operations on counted barriers: register fields and offset (R197 to R201). -/
def barrierForm (t : Thread) : Instr → Option (List RF × Nat)
  | .cbinit a b => some ([src1 a, src1 b], (rw t a).toNat)
  | .cbarr _ a b => some ([src1 a, src1 b], (rw t a).toNat)
  | .cbtest d a => some ([src1 a, dst1 d], (rw t a).toNat)
  | .cbwait a b => some ([src1 a, src1 b], (rw t a).toNat)
  | _ => none

/-- What a word of a meeting needs besides: a group of 32 or 64 lanes; the waits of a release; a next phase, under major 4 or
later; declared use of the deque. -/
def meetNeeds (s : State) (m : Team) (t : Thread) : Instr → Prop
  | .bqmax _ _ => 32 ≤ m.w
  | .bar sc => sc ≠ .th → countOf s t.team t.tix .ld = 0 ∧ countOf s t.team t.tix .st = 0
  | .phase => m.narrow = false ∧ (∃ l, s.launch? m.launch = some l ∧ m.phase + 1 < l.nph) ∧
      countOf s t.team t.tix .ld = 0 ∧ countOf s t.team t.tix .st = 0
  | .dqidle _ => ∃ l, s.launch? m.launch = some l ∧ l.dq = true
  | _ => True

end Sys2Proof.Machine

/-! ## Words and reset -/

/-- R67 to R74, R83, R105, R126, R203, R221, R271: words that the spec works out decode to the instructions that it gives for
them: `ffma.rz v5, v6, v7!, v8`, `ld.32 v4, [v0:1+16]`, `add v5, v6, -1`, `movi v3, 0x12345678`, the pair `add v0, v4 | xor v2,
v6`, `addc v4:5, v0, v2, v10`, `brc v9, -3`, `movp v10:11, 0x0123456789ABCDEF`, `dqpush v3, v6:7, v16:21`, `mma 0, a0`, `csrw
0x100, v2:3`, and of a Mordant program `li m5, 128` and `qput.e s2, d0`. -/
def Obligations.SpecWordsDecode : Prop :=
  decodeBytes (leBytes 8 0x0430140601C08420) =
    .ok (.ffma ⟨.f32, .rz, false⟩ 5 ⟨6, false⟩ ⟨7, true⟩ ⟨8, false⟩, []) ∧
  decodeBytes (leBytes 8 0x8000400000004008) = .ok (.ld .w32 .th false false 4 ⟨0, false⟩ 16, []) ∧
  decodeBytes (leBytes 8 0x8400501BFFFFFC00) = .ok (.addImm .s32 5 ⟨6, false⟩ (-1), []) ∧
  decodeBytes (leBytes 8 0x9000312345678000) = .ok (.movi 3 0x12345678, []) ∧
  decodeBytes (leBytes 8 0x4000002004008060) = .ok (.pairWord ⟨.add, 0, ⟨4, false⟩, 0⟩ ⟨.xor, 2, ⟨6, false⟩, 0⟩, []) ∧
  decodeBytes (leBytes 8 0x002010000080A000) =
    .ok (.addc .s32 4 ⟨0, false⟩ ⟨2, false⟩ ⟨10, false⟩, []) ∧
  decodeBytes (leBytes 8 0x90809FFFFFFFD000) = .ok (.brc false ⟨9, false⟩ (-3), []) ∧
  decodeBytes (leBytes 8 0xC000A00000000000 ++ leBytes 8 0x0123456789ABCDEF) = .ok (.movp 10 0x0123456789ABCDEF, []) ∧
  decodeBytes (leBytes 8 0x10C00C0604000000) = .ok (.dqpush 3 ⟨6, false⟩ ⟨16, false⟩, []) ∧
  decodeBytes (leBytes 8 0x1440000000000000) = .ok (.mma false 0 0, []) ∧
  decodeBytes (leBytes 8 0x3C10000200000100) = .ok (.csrw 0x100 ⟨2, false⟩, []) ∧
  decodeMordantBytes (leBytes 8 0x9000500000080000) = .ok (.li 5 128, []) ∧
  decodeMordantBytes (leBytes 8 0x0430080000000001) = .ok (.qput true 2 0, [])

/-- R319, R346, R370, R387, R389, R397: the reset values that the spec gives: the physical function is enabled and active with
every way and cluster, every other function is idle with weight 1; every launch queue is disabled and empty; the hash
masks and the power cap have their values, Ochre stands at stage 0 with no event logged, every port is down with no lane
spared; HBM4 reads zero; nothing is resident.
The form of memory and the empty tables are the model's own (log 87). -/
def Obligations.ResetHoldsTheGivenValues : Prop :=
  ((State.reset.fn 0).en = true ∧ (State.reset.fn 0).state = 1 ∧ (State.reset.fn 0).ways = 0xFFFF ∧
    (State.reset.fn 0).clu0 = BitVec.allOnes 64 ∧ (State.reset.fn 0).clu1 = BitVec.allOnes 64) ∧
  (∀ f, f ≠ 0 → (State.reset.fn f).en = false ∧ (State.reset.fn f).state = 0 ∧ (State.reset.fn f).ways = 0 ∧
    (State.reset.fn f).clu0 = 0 ∧ (State.reset.fn f).clu1 = 0) ∧
  (∀ f, (State.reset.fn f).wgt = 1 ∧ (State.reset.fn f).rst = false ∧ (State.reset.fn f).err = false) ∧
  (∀ f q, (State.reset.lq f q).base = 0 ∧ (State.reset.lq f q).en = false ∧ (State.reset.lq f q).head = 0 ∧
    (State.reset.lq f q).tail = 0) ∧
  (∀ i, i < 5 → FMap.get 0 State.reset.pkg.hash i = BitVec.ofNat 64 (0x00100100 * 2 ^ i)) ∧
  State.reset.pkg.hashP = 0x02080000 ∧ State.reset.och.stage = 0 ∧ State.reset.och.pcap = 2700 ∧ State.reset.och.logSeq = 0 ∧
  (∀ k, (State.reset.port k).state = 0 ∧ (State.reset.port k).spared = 0xF) ∧
  (∀ a, isHbm a = true → readByte State.reset a = 0) ∧ Memory.wf State.reset.mem = true ∧
  State.reset.threads = [] ∧ State.reset.teams = [] ∧ State.reset.launches = [] ∧ State.reset.programs = [] ∧
  State.reset.reqs = []

/-! ## The machine -/

/-- R74, R76, R125, R219: a step whose turn is a row stream's runs the instruction that the words at the thread's pc decode
to, and then the row goes on; one whose turn is a program's runs the instruction at the program's pc; one whose turn is an
event runs the event. A word is read from memory, least significant byte first, where the launch leases the address for
execution and the translation through which its row has fetched, or the fetch TLB, gives its physical place, which the
instruction cache does not hold.
Whose turn it is stands in the model's agenda (log 1), and each thread of a row issues in a step of its own (log 12). -/
def Obligations.StepRunsDecodedInstruction : Prop :=
  (∀ s core k rest r slot more t m,
    s.agenda = .issue core k :: rest → skippedNow s (clusterOf core) = false → Tab.find (s.core core).rows k = some r →
    r.pending = slot :: more → s.threadAt core slot = some t → s.team? t.team = some m → m.stage ≠ .stopping →
    let s0 := ({ s with agenda := rest } : State).setCore core { s.core core with rotate := k }
    (∀ s1 w i x, fetchWord s0 m t.core t.slot t.pc = (s1, .word w) → isXForm w = false →
      decodeBytes (leBytes 8 w.toNat) = .ok (i, x) →
      step s = onNext (exec i { s1 with cur := .thread t.team t.tix }) fun s2 => { settleRow s2 core k slot with cur := .none }) ∧
    (∀ s1 s2 w lit i x, fetchWord s0 m t.core t.slot t.pc = (s1, .word w) → isXForm w = true → r.issued < 63 →
      fetchWord s1 m t.core t.slot (t.pc + 8) = (s2, .word lit) →
      decodeBytes (leBytes 8 w.toNat ++ leBytes 8 lit.toNat) = .ok (i, x) →
      step s = onNext (exec i { s2 with cur := .thread t.team t.tix })
        fun s3 => { settleRow s3 core k slot with cur := .none })) ∧
  (∀ s m core slot (a : DWord) l e x s1 pa, s.launch? m.launch = some l → l.windowOf m.num a.toNat 8 = none →
    l.leaseOf a.toNat 8 = some e → leaseRights e = 3 → fetchXlat s core slot l.fn a.toNat = (s1, .ok x) →
    (x.outAt a.toNat).phys = some pa → (∀ b ∈ pageStarts pa 8, pageQueued s1 b = false) → Tab.find (s1.core core).ic (pa / 8) = none →
    poisonedAt s1 pa 8 = false →
    (fetchWord s m core slot a).2 = .word (BitVec.ofNat 64 (leNat (readBytes s1 pa 8)))) ∧
  (∀ s u rest i s1, s.agenda = .program u :: rest → programSkipped { s with agenda := rest } u = false →
    prepareProgram { s with agenda := rest } u = .ok (i, s1) →
    step s = onNext (exec i s1) fun s2 => { s2 with cur := .none }) ∧
  (∀ s u p s1 w, mFetch s u p p.pc = .ok s1 w → isXForm w = false → ∀ i x, decodeMordantBytes (leBytes 8 w.toNat) = .ok (i, x) →
    mInstr s u p = .ok s1 i) ∧
  (∀ s i rest, s.agenda = .event i :: rest → step s = exec i { s with agenda := rest, cur := .none })

/-- R71 to R74: every well-formed word of a thread is read back from its code bytes as the instruction that it is. -/
def Obligations.ThreadDecodeEncodeRoundTrip : Prop :=
  ∀ i : Instr, i.wf = true → i.isEvent = false → Instr.ofMordant i = false → decodeBytes (encodeBytes i) = .ok (i, [])

/-- R71, R221: every well-formed word of a Mordant program is read back from its code bytes as the instruction that it is. -/
def Obligations.MordantDecodeEncodeRoundTrip : Prop :=
  ∀ i : Instr, i.wf = true → Instr.ofMordant i = true → decodeMordantBytes (encodeBytes i) = .ok (i, [])

/-- The model's own representation of memory: a step keeps the list of bytes in its one canonical form.
It is no rule of the spec (log 87). -/
def Obligations.StepKeepsMemoryCanonical : Prop :=
  ∀ s s', Memory.wf s.mem = true → step s = .next s' → Memory.wf s'.mem = true

/-! ## Checks, faults and traps (R31, R37, R74, R75, R143 to R151) -/

/-- R31, R37, R74: an instruction of the result tables that fails a check has no effect of its own. In order: a register field
beyond r767, beyond r255 under major 3, or misaligned, and an instruction that major 3 lacks, fault F_ILLEGAL; a field that
names a register at or above NREG faults F_REG with the lowest such register of the first such field; a poisoned source faults
F_LOST; an empty source with the trap policy traps T_EMPTY; other empty sources, and then empty destinations, park the thread.
Which register the record of F_REG names is the model's reading (log 14). -/
def Obligations.FailedChecksStopTheInstruction : Prop :=
  ∀ s m t i fs, plainFields s.now t i = some fs → Current s m t →
    ((m.narrow = true ∧ i.since4 = true) ∨
        (∃ f ∈ fs, 768 ≤ f.last ∨ (m.narrow = true ∧ 256 ≤ f.last) ∨ f.r % f.align ≠ 0) →
      exec i s = .next (threadFault s t .illegal {})) ∧
    ((m.narrow = true → i.since4 = false) →
      (∀ f ∈ fs, f.last < 768 ∧ (m.narrow = true → f.last < 256) ∧ f.r % f.align = 0) →
      (∀ f, fs.find? (fun f => decide (m.nreg ≤ f.last)) = some f →
        exec i s = .next (threadFault s t .reg { reg := Nat.max f.r m.nreg })) ∧
      ((∀ f ∈ fs, f.last < m.nreg) →
        (∀ p, (sources fs).find? (fun p => t.reg p.1 == .poisoned) = some p →
          exec i s = .next (threadFault s t .lost { reg := p.1 })) ∧
        ((∀ p ∈ sources fs, t.reg p.1 ≠ .poisoned) →
          (∀ p, (sources fs).find? (fun p => isEmptyReg (t.reg p.1) && p.2) = some p →
            exec i s = .next (takeTrap s t .tEmpty t.pc p.1)) ∧
          ((∀ p ∈ sources fs, isEmptyReg (t.reg p.1) = true → p.2 = false) →
            let es := ((sources fs).filter fun p => isEmptyReg (t.reg p.1)).map (·.1)
            let ds := (destinations fs).filter fun r => isEmptyReg (t.reg r)
            (es ≠ [] → exec i s = .next (park s t (.regs es))) ∧
            (es = [] → ds ≠ [] → exec i s = .next (park s t (.regs ds)))))))

/-- R75, R150, R151: a fault stops its thread and puts its team in the state of ending; the die's record number and the
launch's count of records rise by one; memory, registers and the other threads stay until the record is written, to the
next entry of the launch's ring.
R151: the 64 bytes of a fault record, field by field. -/
def Obligations.FaultStopsThreadAndWritesItsRecord : Prop :=
  (∀ s t m l c inf, s.team? t.team = some m → s.launch? m.launch = some l →
    ∃ s', threadFault s t c inf =
        areaPost s' m.launch l (dieOf m.core) (BitVec.ofNat 64 (l.frbase + 64 * (l.nrec % 2 ^ l.frlog)))
          (faultRecord (s.die (dieOf m.core)).frSeq c.num
            ((if m.stage == .ending then 0 else 1) + (if inf.nest then 2 else 0) + (if inf.unh then 4 else 0)) s.now t.pc inf.addr m.num
            t.slot m.core l.fn 0xFF inf.reg (l.seq.toNat % 2 ^ 32) 0) false ∧
      s'.thread? t.team t.tix = some { t with place := .stopped } ∧
      s'.team? t.team = some { m with stage := .ending } ∧
      s'.launch? m.launch = some { l with nrec := l.nrec + 1 } ∧
      s'.die (dieOf m.core) = { s.die (dieOf m.core) with frSeq := (s.die (dieOf m.core)).frSeq + 1 } ∧
      SameMemory s s' ∧ SameOtherThreads s s' t ∧ s'.reqs = s.reqs ∧ s'.cores = s.cores ∧ s'.pkg = s.pkg) ∧
  (∀ (seq : BitVec 48) code flags time (pc : DWord) addr team slot loc fn engine reg launch detail,
    let b := faultRecord seq code flags time pc addr team slot loc fn engine reg launch detail
    b.length = 64 ∧ sliceNat b 0 6 = seq.toNat ∧ sliceNat b 6 1 = code % 2 ^ 8 ∧ sliceNat b 7 1 = flags % 2 ^ 8 ∧
      sliceNat b 8 8 = time % 2 ^ 64 ∧ sliceNat b 16 8 = pc.toNat ∧ sliceNat b 24 8 = addr % 2 ^ 64 ∧
      sliceNat b 32 4 = team % 2 ^ 32 ∧ sliceNat b 36 2 = slot % 2 ^ 16 ∧ sliceNat b 38 2 = loc % 2 ^ 16 ∧
      sliceNat b 40 1 = fn % 2 ^ 8 ∧ sliceNat b 41 1 = engine % 2 ^ 8 ∧ sliceNat b 42 2 = reg % 2 ^ 16 ∧
      sliceNat b 44 4 = launch % 2 ^ 32 ∧ sliceNat b 48 16 = detail % 2 ^ 128)

/-- R122, R123, R144 to R146: `trap` enters the handler at TH_TRAPVEC with TH_TRAPPC after the `trap`, MODE set and CODE
T_SOFT or T_DEBUG; in trap mode it faults F_ILLEGAL with NEST, without a handler it faults with its own code and UNH.
`tret` goes to TH_TRAPPC with MODE clear; outside trap mode it faults F_ILLEGAL. T_EMPTY records its register in REG. -/
def Obligations.TrapsEnterAndReturn : Prop :=
  (∀ s m t dbg n, Ready s m t (.trap dbg n) false [] →
    let c : Code := if dbg then .tDebug else .tSoft
    (t.mode = false → t.trapvec.toNat / 8 ≠ 0 → exec (.trap dbg n) s = .next (arrive s
      { t with trappc := BitVec.ofNat 64 ((t.pc + 8).toNat / 8 * 8)
               trapcause := BitVec.ofNat 32 (1 + 256 * (if dbg then 0x03 else 0x02)) }
      (BitVec.ofNat 64 (t.trapvec.toNat / 8 * 8)))) ∧
    (t.mode = true → exec (.trap dbg n) s = .next (threadFault s t .illegal { nest := true })) ∧
    (t.mode = false → t.trapvec.toNat / 8 = 0 → exec (.trap dbg n) s = .next (threadFault s t c { unh := true }))) ∧
  (∀ s m t, Ready s m t .tret false [] →
    (t.mode = true → exec .tret s = .next (jump s { t with trapcause := t.trapcause &&& ~~~(1 : Word) } t.trappc)) ∧
    (t.mode = false → exec .tret s = .next (threadFault s t .illegal {}))) ∧
  (∀ s t r, t.mode = false → t.trapvec.toNat / 8 ≠ 0 → r < 1024 → takeTrap s t .tEmpty t.pc r = arrive s
      { t with trappc := BitVec.ofNat 64 (t.pc.toNat / 8 * 8), trapcause := BitVec.ofNat 32 (1 + 256 + r * 65536) }
      (BitVec.ofNat 64 (t.trapvec.toNat / 8 * 8)))

/-! ## Control flow (R119 to R121, R124) -/

/-- R70, R119, R120, R124: branches and calls end their row and go on at their target; calls write the next address to D; a
register target that is not a multiple of 8 faults F_ALIGN and writes nothing; `nop` goes on, and `nop.cut` ends the row.
That the record of this F_ALIGN has an ADDR of 0 is the model's choice (log 96). -/
def Obligations.TransfersGoToTheirTarget : Prop :=
  (∀ s m t off, Ready s m t (.br off) false [] → exec (.br off) s = .next (jump s t (t.pc + off.signExtend 64 * 8))) ∧
  (∀ s m t z c off, Ready s m t (.brc z c off) false [src1 c] →
    exec (.brc z c off) s = .next (jump s t (if (rw t c = 0 ↔ z = true) then t.pc + off.signExtend 64 * 8 else t.pc + 8))) ∧
  (∀ s m t d off, Ready s m t (.call d off) false [dst2 d] →
    exec (.call d off) s = .next (jump s (t.writePair d.toNat (t.pc + 8)) (t.pc + off.signExtend 64 * 8))) ∧
  (∀ s m t a, Ready s m t (.brx a) false [src2 a] → exec (.brx a) s = .next
    (if (rp t a).toNat % 8 = 0 then jump s t (rp t a) else threadFault s t .align {})) ∧
  (∀ s m t a, Ready s m t (.ret a) false [src2 a] → exec (.ret a) s = .next
    (if (rp t a).toNat % 8 = 0 then jump s t (rp t a) else threadFault s t .align {})) ∧
  (∀ s m t d a, Ready s m t (.calli d a) false [src2 a, dst2 d] → exec (.calli d a) s = .next
    (if (rp t a).toNat % 8 = 0 then jump s (t.writePair d.toNat (t.pc + 8)) (rp t a) else threadFault s t .align {})) ∧
  (∀ s m t cut, Ready s m t (.nop cut) false [] →
    exec (.nop cut) s = .next (if cut then jump s t (t.pc + 8) else advance s t (.nop cut)))

/-- R121: `exit` ends its thread, which leaves trap mode; its requests in flight fill nothing more, and nothing else
changes while other threads of the team live, none of them at a meeting, and no chain is open.
That a request of an ended thread writes memory and fills nothing is the reading of log 23. -/
def Obligations.ExitEndsTheThread : Prop :=
  ∀ s m t, Ready s m t .exit false [] → m.chains = [] → t.hcall = none → m.stage = .resident →
    (∀ p ∈ s.threads, p.2.team = t.team → p.2.live = true → heldAt p.2 = none) →
    (∃ p ∈ s.threads, p.1 ≠ tkey t.team t.tix ∧ p.2.team = t.team ∧ p.2.live = true) →
    ∃ s', exec .exit s = .next s' ∧
      s'.thread? t.team t.tix = some { t with place := .exited, trapcause := t.trapcause &&& ~~~(1 : Word) } ∧
      SameOtherThreads s s' t ∧ SameMemory s s' ∧ s'.cores = s.cores ∧ s'.launches = s.launches ∧
      s'.reqs = s.reqs.map (fun p => if p.2.owner = .thread t.team t.tix then (p.1, { p.2 with dead := true }) else p) ∧
      ∃ m', s'.team? t.team = some m' ∧ SameTeamBut m m'

/-! ## Memory accesses (R125 to R135, R173 to R175) -/

/-- R125, R127, R351: a global access first waits for outstanding acquires; then its address must be a multiple of its bytes
(F_ALIGN), lie in a lease (F_LEASE) that gives the right it needs (F_PERM) and be translated with that right (F_PERM at
stage 1; at stage 2 the thread is stalled). A fault reports the address and has no other effect. -/
def Obligations.AccessChecksInOrder : Prop :=
  ∀ s m t i fs ea n k, accessForm t i = some (fs, ea, n, k) → Ready s m t i false fs →
    (acqPending s t.team t.tix = true → exec i s = .next (park s t .acquire)) ∧
    (acqPending s t.team t.tix = false →
      (ea.toNat % n ≠ 0 → exec i s = .next (threadFault s t .align { addr := ea.toNat })) ∧
      (∀ l, ea.toNat % n = 0 → s.launch? m.launch = some l → l.windowOf m.num ea.toNat n = none →
        (l.leaseOf ea.toNat n = none → exec i s = .next (threadFault s t .lease { addr := ea.toNat })) ∧
        (∀ e, l.leaseOf ea.toNat n = some e →
          (leaseAllows e k.right = false → exec i s = .next (threadFault s t .perm { addr := ea.toNat })) ∧
          (leaseAllows e k.right = true →
            (∀ s', translate s (.vector t.core) l.fn ea.toNat k.right = (s', .stage1) →
              exec i s = .next (threadFault s' t .perm { addr := ea.toNat })) ∧
            (∀ s' ipa wk, translate s (.vector t.core) l.fn ea.toNat k.right = (s', .stage2 ipa wk) →
              exec i s = .next (stallThread s' t l.fn ipa ea
                ((if k.right = .w then 1 else 0) + (if wk then 4 else 0)) false))))))

/-- R126, R127, R130, R137, R35: a load or a load through the constant cache that passes its checks marks its destinations
empty under a class 0x1 tag, counts one request (class ld; fab for peer memory) and goes on; at 255 the class parks it. A
location that it may not read faults F_PERM. Threads of a row whose `ldc` name the same aligned 16 bytes share one access.
Bytes that the constant cache gives an `ldc` leave no sector with others in its L1.
That the location's F_PERM comes last is the reading of log 17; that a load is sampled at its fill, of log 22; what an `ldc` does
to the L1, of log 111. -/
def Obligations.LoadsIssueRequests : Prop :=
  (∀ s m t w sc sx nt d base imm s1 loc f ipa, let i := Instr.ld w sc sx nt d base imm
    let ea := rp t base + imm.signExtend 64
    Ready s m t i false [src2 base, dstW w d] → Accesses s m t ea (widthBytes w) .load s1 loc f ipa →
    (loadable m w loc → countFull s1 t (clsOf loc .ld) = true → exec i s = .next (park s1 t (.count (clsOf loc .ld) 254))) ∧
    (loadable m w loc → countFull s1 t (clsOf loc .ld) = false → ∃ r,
      exec i s = .next (advance (issued s1 r) (t.markEmpty d.toNat (producerTag 1 t.pc) (widthRegs w)) i) ∧
      Issued t r (some (clsOf loc .ld)) (.load loc (widthBytes w) sx d.toNat (mayHitL1 nt loc)) ∧
      r.acq = (if sc = .th then none else some sc) ∧
      (r.data = none → r.performed = false ∧ r.after = homeAfter s1 t loc (widthBytes w))) ∧
    (¬loadable m w loc → (∀ u o, loc ≠ .scratch u o) → exec i s = .next (threadFault s1 t .perm { addr := ea.toNat }))) ∧
  (∀ s m t w sx d base imm s1 pa f ipa, let i := Instr.ldc w sx d base imm
    Ready s m t i false [src2 base, dstW w d] →
    Accesses s m t (rp t base + imm.signExtend 64) (widthBytes w) .load s1 (.mem pa) f ipa → countFull s1 t .ld = false →
    ∃ r, let s2 := match r.data with
        | some unit => s1.setCore t.core (l1Agree (s1.core t.core) (pa / 16 * 16) unit)
        | none => s1
      exec i s = .next (advance (issued s2 r) (t.markEmpty d.toNat (producerTag 1 t.pc) (widthRegs w)) i) ∧
      Issued t r (some .ld) (.loadConst pa (widthBytes w) sx d.toNat) ∧ r.acq = none ∧
      let same (q : Req) : Prop := ∃ a n x v, q.act = .loadConst a n x v ∧ a / 16 = pa / 16
      ((∃ q ∈ rowMates s1 t, same q.2) → ∃ q ∈ rowMates s1 t, same q.2 ∧ r.data = q.2.data) ∧
      ((∀ q ∈ rowMates s1 t, ¬same q.2) → Tab.find (s1.core t.core).cc (pa / 32) = none → r.data = none))

/-- R126, R127, R137, R172, R173, R174: a store that passes its checks counts one request that holds its bytes, least
significant first, and goes on: outside a phase that buffers its stores, and for a window. A phase that buffers them keeps a
store of memory or of a notify page in the phase store buffer: at once where it waits for nothing, or by a request that waits
for what its release and its own older accesses of its bytes need. Where the buffer takes no entry, the phase is demoted first;
a store parks while stores of its demoted phase are still buffered. At 255 the class parks the store. A location that it may not
write faults F_PERM.
`st` completes: a ready thread outside a phase that buffers its stores, none of which is left, with no acquire outstanding and
room in class st, whose address is a multiple of its bytes, lies in a lease with rights rw and is translated with the right to
write to HBM4 or host memory, stores: one request holds the bytes for that place, and the thread goes on with its registers as
they were.
That the location's F_PERM comes last is the reading of log 17. -/
def Obligations.StoresIssueRequests : Prop :=
  (∀ s m t w sc nt v base imm s1 loc f ipa, let i := Instr.st w sc nt v base imm
    let ea := rp t base + imm.signExtend 64
    Ready s m t i false [srcW w v, src2 base] → Accesses s m t ea (widthBytes w) .store s1 loc f ipa →
    let bs := storedBytes t w v
    let waits := sc ≠ .th ∨ sameBytes s1 t loc bs.length ≠ []
    (storable m w loc → countFull s1 t (clsOf loc .st) = true → (m.buffers = false ∨ bufferAddr loc = none) →
      exec i s = .next (park s1 t (.count (clsOf loc .st) 254))) ∧
    (storable m w loc → m.buffers = false → bufferAddr loc ≠ none → countFull s1 t (clsOf loc .st) = false →
      drainLeft s1 t.core t.team = true → exec i s = .next (park s1 t .drained)) ∧
    (storable m w loc → (m.buffers = false ∨ bufferAddr loc = none) → countFull s1 t (clsOf loc .st) = false →
      (bufferAddr loc ≠ none → drainLeft s1 t.core t.team = false) →
      ∃ s2 r, exec i s = .next (advance (issued s2 r) t i) ∧ Issued t r (some (clsOf loc .st)) (.store loc bs) ∧
        r.after = sameBytes s1 t loc bs.length ∧ r.behind = releaseAfter s1 t sc ∧ r.performed = false ∧
          r.unsent = heldBack s1 t sc loc bs.length ∧ SameMemory s1 s2 ∧ s2.threads = s1.threads ∧
        s2.teams = s1.teams ∧ (sc ≠ .th → s2 = s1) ∧
        (∀ pa, loc = .mem pa → isHbm pa = true → heldBack s1 t sc loc bs.length = false →
          s2 = sendStore s1 t.core (.thread t.team t.tix) pa bs)) ∧
    (∀ pa, storable m w loc → m.buffers = true → bufferAddr loc = some pa → countFull s1 t .st = false →
      (waits → ∃ r, exec i s = .next (advance (issued s1 r) t i) ∧ Issued t r (some .st) (.buffer loc bs) ∧
        r.after = sameBytes s1 t loc bs.length ∧ r.behind = releaseAfter s1 t sc) ∧
      (∀ c, ¬waits → psbStore (s1.core t.core) (t.buffered pa ea ipa bs) = some c → ∃ r,
        exec i s = .next (advance (credit (issued (s1.setCore t.core c) r)) t i) ∧ r.cls = some .st ∧ r.act = .nothing ∧
        r.complete = true) ∧
      (¬waits → psbStore (s1.core t.core) (t.buffered pa ea ipa bs) = none → m.frees = false →
        let sd := demote s1 t.team m
        (drainLeft sd t.core t.team = true → exec i s = .next (park sd t .drained)) ∧
        (drainLeft sd t.core t.team = false → ∃ s2 r,
          exec i s = .next (advance (issued s2 r) t i) ∧ Issued t r (some .st) (.store loc bs) ∧
          s2.team? t.team = sd.team? t.team ∧ SameMemory sd s2))) ∧
    (¬storable m w loc → (∀ u o, loc ≠ .scratch u o) → exec i s = .next (threadFault s1 t .perm { addr := ea.toNat }))) ∧
  (∀ s m t w sc nt v base imm l e s1 x pa, let i := Instr.st w sc nt v base imm
    let ea := rp t base + imm.signExtend 64
    Ready s m t i false [srcW w v, src2 base] → m.buffers = false → drainLeft s t.core t.team = false → acqPending s t.team t.tix = false →
    ea.toNat % widthBytes w = 0 → s.launch? m.launch = some l → l.windowOf m.num ea.toNat (widthBytes w) = none →
    l.leaseOf ea.toNat (widthBytes w) = some e → leaseRights e = 2 →
    translate s (.vector t.core) l.fn ea.toNat .w = (s1, .ok x) → (x.outAt ea.toNat).phys = some pa →
    countOf s t.team t.tix .st < 255 →
    ∃ s' k r, exec i s = .next s' ∧ (k, r) ∈ s'.reqs ∧ Issued t r (some .st) (.store (.mem pa) (storedBytes t w v)) ∧
      s'.thread? t.team t.tix = some { t with pc := t.pc + 8 } ∧ SameMemory s s' ∧ SameOtherThreads s s' t)

/-- R129, R133: a scratchpad access must be aligned (F_ALIGN) and lie in the team's scratchpad (F_PERM); it then counts one
request (class st for a store, else ld), marks what it loads empty and goes on.
The fault's ADDR of 0 is the reading of log 17. -/
def Obligations.ScratchpadAccessesIssueRequests : Prop :=
  ∀ s m t i fs off n, scratchForm t i = some (fs, off, n) → Ready s m t i false fs → acqPending s t.team t.tix = false →
    (off % n ≠ 0 → exec i s = .next (threadFault s t .align {})) ∧
    (off % n = 0 → off < 0 ∨ (m.scrSize : Int) < off + n → exec i s = .next (threadFault s t .perm {})) ∧
    (off % n = 0 → 0 ≤ off → off + n ≤ m.scrSize →
      (∀ w sc sx d base imm, i = .lds w sc sx d base imm → countFull s t .ld = false → ∃ r,
        exec i s = .next (advance (issued s r) (t.markEmpty d.toNat (producerTag 1 t.pc) (widthRegs w)) i) ∧
        Issued t r (some .ld) (.load (.scratch t.team off.toNat) n sx d.toNat false) ∧ r.performed = false) ∧
      (∀ w sc v base imm, i = .sts w sc v base imm → countFull s t .st = false → ∃ r,
        exec i s = .next (advance (issued s r) t i) ∧ r.performed = false ∧
        Issued t r (some .st) (.store (.scratch t.team off.toNat)
          ((List.range (widthRegs w)).flatMap fun j => leBytes (Nat.min 4 n) (t.word (v.r.toNat + j)).toNat))) ∧
      (∀ sc ty d act, atomicForm t (.scratch t.team off.toNat) i = some (sc, ty, d, act) → countFull s t .ld = false → ∃ r,
        exec i s = .next (advance (issued s r) (t.markEmpty d.toNat (producerTag 1 t.pc) (n / 4)) i) ∧
        Issued t r (some .ld) act ∧ r.performed = false ∧ r.acq = (if sc = .th then none else some sc)))

/-- R132, R133, R137: `atom` and `cas` on memory or on peer memory count one request, in class ld or fab, mark their
destination empty and go on; an idempotent phase and a location that takes no atomic fault F_PERM.
That the location's F_PERM comes last is the reading of log 17. -/
def Obligations.AtomicsIssueRequests : Prop :=
  ∀ s m t i fs ea n s1 loc f ipa sc ty d act, accessForm t i = some (fs, ea, n, .atomic) → Ready s m t i false fs →
    Accesses s m t ea n .atomic s1 loc f ipa → atomicForm t loc i = some (sc, ty, d, act) →
    (¬updatable m loc → exec i s = .next (threadFault s1 t .perm { addr := ea.toNat })) ∧
    (updatable m loc → countFull s1 t (clsOf loc .ld) = false → ∃ s2 r,
      exec i s = .next (advance (issued s2 r) (t.markEmpty d.toNat (producerTag 1 t.pc) (n / 4)) i) ∧
      Issued t r (some (clsOf loc .ld)) act ∧ r.performed = false ∧ r.acq = (if sc = .th then none else some sc) ∧
      SameMemory s1 s2 ∧ s2.threads = s1.threads ∧ r.unsent = heldBack s1 t sc loc n ∧ (sc ≠ .th → s2 = s1) ∧
      (∀ pa, loc = .mem pa → isHbm pa = true → heldBack s1 t sc loc n = false → s2 = sendAtomic s1 t.core pa n))

/-- R131, R136, R138 to R140: `wcnt`, the fences, `ifence`, `pf` and `vmark` go on once what they wait for has come about;
an acquire empties the caches of its core; `ifence` empties its instruction cache and its fetch TLB; `pf` changes no
register and no memory; `vmark` marks its registers.
That the whole thread waits at a fence is the model's choice (log 93). -/
def Obligations.FencesCountsAndMarks : Prop :=
  (∀ s m t c n, Ready s m t (.wcnt c n) false [] → exec (.wcnt c n) s = .next
    (if countOf s t.team t.tix c ≤ n.toNat then advance s t (.wcnt c n) else park s t (.count c n.toNat))) ∧
  (∀ s m t k, Ready s m t (.fence k .th) false [] → exec (.fence k .th) s = .next (advance s t (.fence k .th))) ∧
  (∀ s m t k sc, Ready s m t (.fence k sc) false [] → sc ≠ .th →
    let waits := countOf s t.team t.tix .ld ≠ 0 ∨ countOf s t.team t.tix .st ≠ 0 ∨ (sc = .fab ∧ countOf s t.team t.tix .fab ≠ 0)
    (k ≠ .acq → waits → exec (.fence k sc) s = .next (park s t (.release (sc == .fab)))) ∧
    (k = .rel → ¬waits → exec (.fence k sc) s = .next (advance s t (.fence k sc))) ∧
    (k = .acq ∨ (k = .ar ∧ ¬waits) → loadsPending s t.team t.tix = false →
      exec (.fence k sc) s = .next (advance (acquireCore s t.core sc) t (.fence k sc))) ∧
    (k = .acq → loadsPending s t.team t.tix = true → exec (.fence k sc) s = .next (park s t (.loads none)))) ∧
  (∀ s m t, Ready s m t .ifence false [] → countOf s t.team t.tix .st = 0 → exec .ifence s = .next
    (advance (s.setCore t.core { s.core t.core with ic := [], itlb := [] }) t .ifence)) ∧
  (∀ s m t nt base imm, Ready s m t (.pf nt base imm) false [src2 base] → ∃ s1,
    exec (.pf nt base imm) s = .next (advance s1 t (.pf nt base imm)) ∧ SameMemory s s1 ∧ s1.threads = s.threads ∧
      s1.teams = s.teams ∧ s1.reqs = s.reqs) ∧
  (∀ s m t win k d a, Ready s m t (.vmark win k d a) false ((if win then [] else [src1 a]) ++ [dstN d (k.toNat + 1) 1]) →
    let h := (rw t a).toNat % 2 ^ 28
    let x : RegVal := if win then .empty (BitVec.ofNat 32 (5 * 2 ^ 28))
      else if s.programs.any (fun p => p.2.team == t.team && p.2.system.isNone && p.2.seq.toNat % 2 ^ 28 == h) then
        .empty (BitVec.ofNat 32 (4 * 2 ^ 28 + h))
      else .poisoned
    exec (.vmark win k d a) s = .next (advance s (t.fillWith d.toNat x (k.toNat + 1)) (.vmark win k d a)))

/-! ## Meetings, barriers, deques, identity and waiting (file 10) -/

/-- R145, R181, R188, R189, R191, R192, R207: a word of a meeting holds its thread there with its sources captured, and the
meetings of the team are tested; in trap mode it faults F_ILLEGAL, which the model records with NEST clear (log 15). While
another live thread of the team is not held at a meeting, and so none is complete in a team of one group, nothing else happens.
-/
def Obligations.MeetingWordsHoldTheThread : Prop :=
  ∀ s m t i fs vs, meetForm t i = some (fs, vs) → Ready s m t i false fs → meetNeeds s m t i →
    let s1 := (retire s t.team).setThread { t with place := .held (.meet i vs) }
    (t.mode = true → exec i s = .next (threadFault s t .illegal {})) ∧
    (t.mode = false → exec i s = .next (testMeetings s1 t.team)) ∧
    (t.mode = false → m.nthr = m.w → (∃ x ∈ s1.teamThreads t.team, x.live = true ∧ x.tix / m.w = 0 ∧ heldAt x = none) →
      exec i s = .next s1)

/-- R182 to R189: where the live threads of a set are all held at one word of a group meeting, each gets its result and goes on
at the next word; held at different words, the team ends with F_ILLEGAL.
R185 to R187: `shfl` reads the lane that its mode names, or its own A where that lane is not present; `ballot` sets the
bits of the lanes whose predicate is not zero; `vote` counts them; `redux` of a wrapping sum adds every member's A, and
`gscan` that of the lanes up to its own, or below it.
Which thread the record of a mismatch names is a free choice of the model (log 16). -/
def Obligations.GroupMeetingsGiveTheirResults : Prop :=
  ((∀ s m t (ts : List Thread) i vs, heldAt t = some (i, vs) → teamMeeting i = false → (∀ d, i ≠ .dqidle d) →
    (∀ x ∈ t :: ts, ∃ ws, heldAt x = some (i, ws) ∧ x.pc = t.pc) →
    let g : List Member := (t :: ts).map fun x => (x.tix % m.w, ((heldAt x).map (·.2)).getD [])
    testSet s m false (t :: ts) = (t :: ts).foldl (fun s x =>
      let r := meetResult i m.w g (x.tix % m.w, ((heldAt x).map (·.2)).getD [])
      leaveMeeting s x (meetDest i) r.1 r.2) s) ∧
  (∀ s (t : Thread) d ws fl, enabled { t with fflags := t.fflags ||| BitVec.ofNat 32 fl.toNat } fl = false ∨ t.mode = true →
    leaveMeeting s t d ws fl = arrive s ((t.writeList d ws).withFlags fl) (t.pc + 8)) ∧
  (∀ s m whole (t : Thread) (ts : List Thread), (∀ x ∈ t :: ts, (heldAt x).isSome = true) → (∃ x ∈ ts, x.pc ≠ t.pc) →
    ∃ x ∈ t :: ts, testSet s m whole (t :: ts) =
      threadFault { s with freeCtr := s.freeCtr + 1 } x .illegal {})) ∧
  ((∀ g x (m : ShflMode), (∀ y ∈ g, y.1 < 64) → ∀ w,
    (∃ y ∈ g, (y.1 : Int) = (match m with
        | .idx => ((x.b.toNat % 64 : Nat) : Int)
        | .up => (x.1 : Int) - (x.b.toNat % 64 : Nat)
        | .down => (x.1 : Int) + (x.b.toNat % 64 : Nat)
        | .xor => ((x.1 ^^^ (x.b.toNat % 64) : Nat) : Int)) ∧ Member.a y = w ∧ ∀ z ∈ g, z.1 = y.1 → z = y) → shflOf m g x = w) ∧
  (∀ g x, (∀ y ∈ g, y.1 ≠ x.b.toNat % 64) → shflOf .idx g x = x.a) ∧
  (∀ g k, (ballotMask 64 g).getLsbD k = (decide (k < 64) && predAt g k)) ∧
  (∀ w g, (voteOf .every w g = 1 ↔ ∀ j, j < w → predAt g j = true) ∧ (voteOf .some w g = 1 ↔ ∃ j, j < w ∧ predAt g j = true) ∧
    voteOf .count w g = BitVec.ofNat 32 ((List.range w).filter (predAt g)).length) ∧
  (∀ (t : Ty) ws, t.inX = true → (reduceList .add t ws).1 = ws.foldr (· + ·) 0 ∧ (reduceList .add t ws).2 = 0) ∧
  (∀ t (g : List Member) (x : Member), t.inX = true →
    (gscanOf .add t false g x).1 = ((g.filter fun y => decide (y.1 ≤ x.1)).map Member.a).foldr (· + ·) 0 ∧
    (gscanOf .add t true g x).1 = ((g.filter fun y => decide (y.1 < x.1)).map Member.a).foldr (· + ·) 0))

/-- R197 to R201: `cbinit` writes a barrier with EXP, no arrivals and PH 0; `cbarr` counts an arrival in class st; `cbtest`
counts a read in class ld; `cbwait` goes on where PH differs from its bit and holds the thread otherwise. Each first waits for
outstanding acquires; then the offset must be a multiple of 16 inside the scratchpad.
R198: an arrival adds its count to ARR; each time ARR reaches EXP it falls by EXP, PH flips and the completions rise by
one; with EXP 0 every arrival completes once. EXP and the tag stay.
The classes that count, the wait for the thread's own older requests and the ADDR of 0 of F_ALIGN and F_PERM are readings
(log 18, 19, 17). -/
def Obligations.CountedBarriersCountAndFlip : Prop :=
  ((∀ s m t i fs off, barrierForm t i = some (fs, off) → Ready s m t i false fs →
    (acqPending s t.team t.tix = true → exec i s = .next (park s t .acquire)) ∧
    (acqPending s t.team t.tix = false → off % 16 ≠ 0 → exec i s = .next (threadFault s t .align {})) ∧
    (acqPending s t.team t.tix = false → off % 16 = 0 → m.scrSize < off + 16 → exec i s = .next (threadFault s t .perm {}))) ∧
  (∀ s m t a b, Ready s m t (.cbinit a b) false [src1 a, src1 b] → acqPending s t.team t.tix = false →
    ((rw t a).toNat % 16 ≠ 0 → exec (.cbinit a b) s = .next (threadFault s t .align {})) ∧
    ((rw t a).toNat % 16 = 0 → m.scrSize < (rw t a).toNat + 16 → exec (.cbinit a b) s = .next (threadFault s t .perm {})) ∧
    ((rw t a).toNat % 16 = 0 → (rw t a).toNat + 16 ≤ m.scrSize → sameBytes s t (.scratch t.team (rw t a).toNat) 16 = [] →
      exec (.cbinit a b) s = .next (advance (writeScratch s t.team (rw t a).toNat
        (leBytes 4 (rw t b).toNat ++ leBytes 4 0 ++ leBytes 1 0 ++ [m.gen] ++ leBytes 2 0 ++ leBytes 4 0)) t (.cbinit a b)))) ∧
  (∀ s m t sc a b, Ready s m t (.cbarr sc a b) false [src1 a, src1 b] → acqPending s t.team t.tix = false →
    (rw t a).toNat % 16 = 0 → (rw t a).toNat + 16 ≤ m.scrSize → countFull s t .st = false →
    sc = .th ∨ (countOf s t.team t.tix .ld = 0 ∧ countOf s t.team t.tix .st = 0) →
    ∃ r, exec (.cbarr sc a b) s = .next (advance (issued s r) t (.cbarr sc a b)) ∧
      Issued t r (some .st) (.arrive t.team (rw t a).toNat (rw t b).toNat)) ∧
  (∀ s m t d a, Ready s m t (.cbtest d a) false [src1 a, dst1 d] → acqPending s t.team t.tix = false →
    (rw t a).toNat % 16 = 0 → (rw t a).toNat + 16 ≤ m.scrSize → countFull s t .ld = false →
    ∃ r, exec (.cbtest d a) s = .next (advance (issued s r) (t.markEmpty d.toNat (producerTag 1 t.pc) 1) (.cbtest d a)) ∧
      Issued t r (some .ld) (.cbTest t.team (rw t a).toNat d.toNat)) ∧
  (∀ s m t a b, Ready s m t (.cbwait a b) false [src1 a, src1 b] → acqPending s t.team t.tix = false →
    (rw t a).toNat % 16 = 0 → (rw t a).toNat + 16 ≤ m.scrSize → sameBytes s t (.scratch t.team (rw t a).toNat) 16 = [] →
    let ph := (FMap.get 0 m.scratch ((rw t a).toNat + 8)).getLsbD 0
    (ph ≠ (rw t b).getLsbD 0 → exec (.cbwait a b) s = .next (releaseAcq (retire s t.team) t .cl 8)) ∧
    (ph = (rw t b).getLsbD 0 → exec (.cbwait a b) s = .next ((retire s t.team).setThread
      { t with place := .held (.cbwait (rw t a).toNat ((rw t b).getLsbD 0)) })))) ∧
  (∀ (b : List Byte) n, b.length = 16 → n < 2 ^ 32 →
    let k := if sliceNat b 0 4 = 0 then 1 else (sliceNat b 4 4 + n) / sliceNat b 0 4
    let r := arrival b n
    r.length = 16 ∧ sliceNat r 0 4 = sliceNat b 0 4 ∧
    sliceNat r 4 4 = (if sliceNat b 0 4 = 0 then 0 else (sliceNat b 4 4 + n) % sliceNat b 0 4) ∧
    sliceNat r 8 1 % 2 = (sliceNat b 8 1 % 2 + k) % 2 ∧ sliceNat r 9 1 = sliceNat b 9 1 ∧
    sliceNat r 12 4 = (sliceNat b 12 4 + k) % 2 ^ 32)

/-- R202 to R206: with declared use of the deque and its waits over, `dqpush` adds its entry at the young end where there is
room and writes 1; `dqpop` takes the youngest entry of its core, and `dqsteal` the oldest of the first core in the order of
R205 that has one, for D to D + 7; where there is none, zeros. Without declared use they fault F_PERM. A thread parks while
stores of its demoted phase are still buffered.
That `dqidle` in trap mode faults F_PERM, too, that the F_ALIGN of `dqpush` has an ADDR of 0, and the order of the cores inside
another cluster or die are the model's choices (log 95, 121, 112). -/
def Obligations.DequeWordsMoveEntries : Prop :=
  (∀ s m t i l, Current s m t → s.launch? m.launch = some l → l.dq = false →
    (∀ d a b, i = .dqpush d a b → Ready s m t i false [src2 a, srcN b 6 1, dst1 d] → exec i s = .next (threadFault s t .perm {})) ∧
    (∀ d, i = .dqpop d ∨ i = .dqsteal d → Ready s m t i false [dstN d 8 8] → exec i s = .next (threadFault s t .perm {})) ∧
    (∀ d, i = .dqidle d → Ready s m t i false [dst1 d] → exec i s = .next (threadFault s t .perm {}))) ∧
  (∀ s m t d a b l, Ready s m t (.dqpush d a b) false [src2 a, srcN b 6 1, dst1 d] → s.launch? m.launch = some l →
    l.dq = true → m.idem = false → drainLeft s t.core t.team = false →
    countOf s t.team t.tix .ld = 0 → countOf s t.team t.tix .st = 0 →
    ((rp t a).toNat % 8 ≠ 0 → exec (.dqpush d a b) s = .next (threadFault s t .align {})) ∧
    (rp t a = 0 → exec (.dqpush d a b) s = .next (advance s (t.write d.toNat 0) (.dqpush d a b))) ∧
    ((rp t a).toNat % 8 = 0 → rp t a ≠ 0 → (s.core t.core).deque.length < 64 →
      let e : DqEntry := ⟨rp t a, (List.range 6).map fun j => t.word (b.r.toNat + j)⟩
      let s1 := s.setCore t.core { s.core t.core with deque := (s.core t.core).deque ++ [e] }
      let s2 := s1.updLaunch m.launch fun l => { l with sent := addCount l.sent (dieOf t.core) }
      exec (.dqpush d a b) s = .next (releaseIdle (advance s2 (t.write d.toNat 1) (.dqpush d a b)) m.launch))) ∧
  (∀ s m t d l, Ready s m t (.dqpop d) false [dstN d 8 8] → s.launch? m.launch = some l → l.dq = true → m.idem = false →
    drainLeft s t.core t.team = false → countFull s t .ld = false →
    ((s.core t.core).deque = [] → (s.core t.core).spill = [] → ∃ r s1,
      exec (.dqpop d) s = .next (advance (issued s1 r) (t.markEmpty d.toNat (producerTag 1 t.pc) 8) (.dqpop d)) ∧
      Issued t r (some .ld) (.value d.toNat (List.replicate 8 0) 0 false) ∧ r.acq = none ∧ SameMemory s s1) ∧
    (∀ es e, (s.core t.core).deque = es ++ [e] → ∃ r s1,
      exec (.dqpop d) s = .next (advance (issued s1 r) (t.markEmpty d.toNat (producerTag 1 t.pc) 8) (.dqpop d)) ∧
      Issued t r (some .ld) (.value d.toNat ([lowWord e.ea, highWord e.ea] ++ e.args) 0 false) ∧ r.acq = some .dev ∧
      (s1.core t.core).deque = es ∧ SameMemory s s1)) ∧
  (∀ s m t i l, (∃ d, (i = .dqpop d ∨ i = .dqsteal d) ∧ Ready s m t i false [dstN d 8 8]) → s.launch? m.launch = some l →
    l.dq = true → m.buffers = false → drainLeft s t.core t.team = true → exec i s = .next (park s t .drained)) ∧
  (∀ s m t d l, Ready s m t (.dqsteal d) false [dstN d 8 8] → s.launch? m.launch = some l → l.dq = true → m.idem = false →
    drainLeft s t.core t.team = false → countFull s t .ld = false →
    ((∀ c ∈ stealOrder t.core, (s.core c).dqOwner ≠ some m.launch) → ∃ r,
      exec (.dqsteal d) s = .next (advance (issued s r) (t.markEmpty d.toNat (producerTag 1 t.pc) 8) (.dqsteal d)) ∧
      Issued t r (some .ld) (.value d.toNat (List.replicate 8 0) 0 false)) ∧
    (∀ v before after e es, stealOrder t.core = before ++ v :: after →
      (∀ c ∈ before, (s.core c).dqOwner ≠ some m.launch ∨ ((s.core c).deque = [] ∧ (s.core c).spill = [])) →
      (s.core v).dqOwner = some m.launch → (s.core v).deque = e :: es → ∃ r s1,
      exec (.dqsteal d) s = .next (advance (issued s1 r) (t.markEmpty d.toNat (producerTag 1 t.pc) 8) (.dqsteal d)) ∧
      Issued t r (some .ld) (.value d.toNat ([lowWord e.ea, highWord e.ea] ++ e.args) 0 false) ∧
      (s1.core v).deque = es ∧ SameMemory s s1))

/-! ## Launches from a thread (R213 to R215, R325) -/

/-- R208, R319: `spawn`, with its waits over, reads a launch record of 512 bytes and puts it in the next slot of its queue; D
becomes empty and will be filled with 1. A queue that is not enabled gives 2, a full one 0, and queue 31 of the physical
function takes records from the privileged context alone (3).
It completes for every ready thread whose waits are over and whose record it may read, where the queue takes it, is full or is
not enabled; the slot then holds the record. The record is read as a load reads: after the thread's own older accesses of its
bytes and the stores that the L1 has shown (R128, R303). The queue's BASE as an intermediate address is the reading of log 32.
-/
def Obligations.SpawnEnqueuesALaunch : Prop :=
  (∀ s m t d a b l, Ready s m t (.spawn d a b) false [src2 a, src1 b, dst1 d] → s.launch? m.launch = some l → m.idem = false →
    drainLeft s t.core t.team = false → countOf s t.team t.tix .ld = 0 → countOf s t.team t.tix .st = 0 →
    acqPending s t.team t.tix = false →
    let q := (rw t b).toNat % 32
    let gives (s1 : State) (v : Word) : Prop := ∃ r,
      exec (.spawn d a b) s = .next (advance (issued s1 r) (t.markEmpty d.toNat (producerTag 1 t.pc) 1) (.spawn d a b)) ∧
      Issued t r (some .ld) (.value d.toNat [v] 0 false)
    (l.fn = 0 → q = 31 → t.priv = false → gives s 3) ∧
    ((l.fn ≠ 0 ∨ q ≠ 31 ∨ t.priv = true) → ∀ s1 pa f ipa, Accesses s m t (rp t a) 512 .load s1 (.mem pa) f ipa →
      countFull s1 t .ld = false → homeAfter s1 t (.mem pa) 512 = [] → poisonedAt s1 pa 512 = false →
      ∃ s2, SameMemory s1 s2 ∧ s2.threads = s1.threads ∧ s2.queues = s1.queues ∧
      ((s2.lq l.fn q).en = false → gives s2 2) ∧
      ((s2.lq l.fn q).en = true → ((s2.lq l.fn q).tail - (s2.lq l.fn q).head).toNat = 2 ^ (s2.lq l.fn q).log → gives s2 0) ∧
      (∀ s3 pa', (s2.lq l.fn q).en = true → ((s2.lq l.fn q).tail - (s2.lq l.fn q).head).toNat ≠ 2 ^ (s2.lq l.fn q).log →
        ipaAccess s2 l.fn ((s2.lq l.fn q).slotAddr (s2.lq l.fn q).tail) .w = (s3, some (.hbm pa')) →
        gives (State.setLq (performWrite s3 l.fn pa' (readBytes s2 pa 512)) l.fn q
          { (performWrite s3 l.fn pa' (readBytes s2 pa 512)).lq l.fn q with tail := (s2.lq l.fn q).tail + 1 }) 1))) ∧
  (∀ s m t d a b l e s1 x pa, Ready s m t (.spawn d a b) false [src2 a, src1 b, dst1 d] → s.launch? m.launch = some l →
    m.buffers = false → drainLeft s t.core t.team = false → countOf s t.team t.tix .ld = 0 →
    countOf s t.team t.tix .st = 0 → acqPending s t.team t.tix = false →
    let ea := (rp t a).toNat
    let q := (rw t b).toNat % 32
    let n := s.lq l.fn q
    (l.fn ≠ 0 ∨ q ≠ 31 ∨ t.priv = true) → ea % 512 = 0 → l.windowOf m.num ea 512 = none → l.leaseOf ea 512 = some e →
    translate s (.vector t.core) l.fn ea .r = (s1, .ok x) → (x.outAt ea).phys = some pa → homeAfter s t (.mem pa) 512 = [] →
    poisonedAt s pa 512 = false →
    let gives (v : Word) (p : State → Prop) : Prop := ∃ s', exec (.spawn d a b) s = .next s' ∧
      (∃ k r, (k, r) ∈ s'.reqs ∧ Issued t r (some .ld) (.value d.toNat [v] 0 false)) ∧
      s'.thread? t.team t.tix = some { t.markEmpty d.toNat (producerTag 1 t.pc) 1 with pc := t.pc + 8 } ∧ p s'
    (n.en = false → gives 2 fun s' => s'.queues = s.queues ∧ SameMemory s s') ∧
    (n.en = true → (n.tail - n.head).toNat = 2 ^ n.log → gives 0 fun s' => s'.queues = s.queues ∧ SameMemory s s') ∧
    (∀ o pa', n.en = true → (n.tail - n.head).toNat ≠ 2 ^ n.log → (ipaAccess s l.fn (n.slotAddr n.tail) .w).2 = some o →
      o.phys = some pa' → gives 1 fun s' => s'.lq l.fn q = { n with tail := n.tail + 1 } ∧
        (pageQueued s pa' = false → ∀ i, i < 512 → pageQueued s (pa' + i) = false → inBitmap (pa' + i) = false →
          inBitmap pa' = false → readByte s' (pa' + i) = readByte s (pa + i))))

namespace Sys2Proof.Machine

/-- The requests of the matrix unit: kind (0 `mma`, 1 `mxscale`, 2 `mxdist`), `.kb`, chain and tile (R271). -/
def requestForm : Instr → Option (Nat × Bool × Nat × Nat)
  | .mma kb ch tile => some (0, kb, ch.toNat, tile.toNat)
  | .mxscale kb ch tile => some (1, kb, ch.toNat, tile.toNat)
  | .mxdist kb ch tile => some (2, kb, ch.toNat, tile.toNat)
  | _ => none

/-- The row accesses that go on at once: register fields, tile, column and its alignment, destination, registers marked, and
what they do in the thread's lane (R279, R281 to R283). -/
def rowForm (t : Thread) : Instr → Option (List RF × Nat × Nat × Nat × Nat × Nat × Act)
  | .mxzero tile => some ([], tile.toNat, 0, 1, 0, 0, .mxZero tile.toNat (t.slot % 64))
  | .mxst k tile a b =>
    let n := 2 ^ k.toNat
    let c := (rw t b).toNat % 256
    some ([srcN a n n, src1 b], tile.toNat, c, n, 0, 0,
      .mxStore tile.toNat (t.slot % 64) c ((List.range n).map fun j => t.word (a.r.toNat + j)))
  | .mxld fl k tile d b =>
    let n := 2 ^ k.toNat
    let c := if fl then 0 else (rw t b).toNat % 256
    some ((if fl then [] else [src1 b]) ++ [dstN d n n], tile.toNat, c, n, d.toNat, n,
      .mxLoad tile.toNat (t.slot % 64) c (if fl then 0 else n) d.toNat)
  | _ => none

/-- What the control registers of a thread read (R42 to R44, R355, R360). -/
def threadCsr (t : Thread) (n : Nat) : Option DWord :=
  match n with
  | 0x000 => some (t.fpctl.setWidth 64)
  | 0x001 => some (t.fflags.setWidth 64)
  | 0x002 => some t.trapvec
  | 0x003 => some t.trappc
  | 0x004 => some (t.trapcause.setWidth 64)
  | 0x005 => some (if t.priv then 1 else 0)
  | _ => none

/-- The thread after `csrw` of one of its control registers with `x` (R42 to R44, R360): bits 5:0 of TH_FPCTL, ones clear bits of
TH_FFLAGS, TH_TRAPVEC and TH_TRAPPC hold multiples of 8, and TH_TRAPCAUSE and TH_PRIV are read-only. -/
def threadCsrw (t : Thread) (n : Nat) (x : DWord) : Thread :=
  match n with
  | 0x000 => { t with fpctl := BitVec.ofNat 32 (x.toNat % 64) }
  | 0x001 => { t with fflags := t.fflags &&& ~~~(BitVec.ofNat 32 (x.toNat % 32)) }
  | 0x002 => { t with trapvec := BitVec.ofNat 64 (x.toNat / 8 * 8) }
  | 0x003 => { t with trappc := BitVec.ofNat 64 (x.toNat / 8 * 8) }
  | _ => t

/-- The thread goes on at once after a write of register `n` that leaves it as `t`: the write sets no trap enable while one
of its producers of R109 is in flight (R110). -/
def mayGoOn (s : State) (t : Thread) (n : BitVec 9) : Prop :=
  n ≠ 0 ∨ t.fpctl.toNat % 32 = 0 ∨ fpPending s t.team t.tix = false

end Sys2Proof.Machine

/-! ## The matrix unit (file 13) -/

/-- R267 to R270: `mxbeg` acts in the leader of the lowest octet of its mask; it opens a chain in a free context with no
requests, its literal and the octets whose leaders are gone counted as exited. A literal that the rule forbids, a stream that
the team has not, one that is in use, or an open chain of that number fault; without a free context the thread parks.
`mxend` marks the chain closing and counts in class mx; elsewhere, and without that chain, both have no effect. -/
def Obligations.ChainsOpenAndClose : Prop :=
  (∀ s m t lit j0 js, Ready s m t (.mxbeg lit) false [] → litOctets lit = j0 :: js →
    (t.slot ≠ 8 * j0 + 64 * (t.slot / 64) → exec (.mxbeg lit) s = .next (advance s t (.mxbeg lit))) ∧
    (t.slot = 8 * j0 + 64 * (t.slot / 64) →
      (litLegal lit = false → exec (.mxbeg lit) s = .next (threadFault s t .illegal {})) ∧
      (litLegal lit = true → (∃ k ∈ litStreams lit, m.streams.length ≤ k) →
        exec (.mxbeg lit) s = .next (threadFault s t .perm {})) ∧
      (litLegal lit = true → (∀ k ∈ litStreams lit, k < m.streams.length) →
        ((∃ c ∈ m.chains, ∃ k ∈ litStreams c.lit, k ∈ litStreams lit) ∨ (∃ c, m.chain? (t.slot / 64) (litCh lit) = some c) →
          exec (.mxbeg lit) s = .next (threadFault s t .illegal {})) ∧
        (noRepeat (litStreams lit) = true → (∀ c ∈ m.chains, ∀ k ∈ litStreams c.lit, k ∉ litStreams lit) →
          m.chain? (t.slot / 64) (litCh lit) = none →
          (freeContext s (clusterOf t.core) = none → exec (.mxbeg lit) s = .next (park s t .context)) ∧
          (∀ ctx, freeContext s (clusterOf t.core) = some ctx → ∃ c : Chain,
            exec (.mxbeg lit) s = .next (wake (advance
              (s.updTeam t.team fun m => { m with chains := m.chains ++ [c] }) t (.mxbeg lit))) ∧
            c.sub = t.slot / 64 ∧ c.ch = litCh lit ∧ c.ctx = ctx ∧ c.lit = lit ∧ c.q = List.replicate 8 0 ∧ c.closing = false ∧
            c.passes = 0 ∧ c.pend = List.replicate 8 none ∧
            (∀ j, j < 8 → c.exited.getD j false = (lit.getLsbD j && !leaderLive s t.team (8 * j + 64 * (t.slot / 64))))))))) ∧
  (∀ s m t ch, Ready s m t (.mxend ch) false [] →
    (m.chain? (t.slot / 64) ch.toNat = none → exec (.mxend ch) s = .next (advance s t (.mxend ch))) ∧
    (∀ c, m.chain? (t.slot / 64) ch.toNat = some c →
      (t.slot ≠ 8 * (litOctets c.lit).headD 0 + 64 * (t.slot / 64) → exec (.mxend ch) s = .next (advance s t (.mxend ch))) ∧
      (t.slot = 8 * (litOctets c.lit).headD 0 + 64 * (t.slot / 64) → countFull s t .mx = false → ∃ r,
        exec (.mxend ch) s = .next (closeChains (advance ((issued s r).updTeam t.team fun m =>
          { m with chains := m.chains.map fun d => if d.ctx = c.ctx then { d with closing := true } else d })
          t (.mxend ch)) t.team) ∧
        Issued t r (some .mx) (.mxEnd (t.slot / 64) ch.toNat))))

/-- R267, R271, R277: a request acts in the leader of its octet; elsewhere it has no effect. Without the chain it parks. A
request outside the mask, of a kind or turn that the chain's format does not take, or on the tile of its partial product
faults F_ILLEGAL, a tile that the team has not F_PERM. Otherwise it takes an entry of the reservation table, raises its
octet's count, counts in class mx and goes on; a full table parks it. -/
def Obligations.MatrixRequestsTakeAnEntry : Prop :=
  ∀ s m t i kind kb ch tile, requestForm i = some (kind, kb, ch, tile) → Ready s m t i false [] →
    (t.slot % 8 ≠ 0 → exec i s = .next (advance s t i)) ∧
    (t.slot % 8 = 0 → m.chain? (t.slot / 64) ch = none → exec i s = .next (park s t (.chainOpen ch))) ∧
    (∀ c, t.slot % 8 = 0 → m.chain? (t.slot / 64) ch = some c →
      let j := t.slot % 64 / 8
      let k := clusterOf t.core
      (chainMask c j = false → exec i s = .next (threadFault s t .illegal {})) ∧
      (chainMask c j = true → m.nacc ≤ tile → exec i s = .next (threadFault s t .perm {})) ∧
      (chainMask c j = true → tile < m.nacc →
        (kind = 1 → litBq c.lit = false → exec i s = .next (threadFault s t .illegal {})) ∧
        (litBq c.lit = true → c.q.getD j 0 % 2 ≠ kind → exec i s = .next (threadFault s t .illegal {})) ∧
        (litBq c.lit = true → c.q.getD j 0 % 2 = 1 → kind = 1 → lastTile (s.cluster k) t.team c j = some tile →
          exec i s = .next (threadFault s t .illegal {}))) ∧
      (requestFault m (s.cluster k) t.team c j kind tile = none → c.closing = false →
        (32 ≤ (s.cluster k).resv.length → exec i s = .next (park s t .tableSlot)) ∧
        ((s.cluster k).resv.length < 32 → countFull s t .mx = false → ∃ r e s1,
          exec i s = .next (checkKinds (advance s1 t i) t.team) ∧ Issued t r (some .mx) .mxPass ∧
          s1 = ((issued s r).setCluster k { s.cluster k with resv := (s.cluster k).resv ++ [e] }).updTeam t.team
            (fun m => { m with chains := m.chains.map fun d => if d.ctx = c.ctx then
              { d with q := d.q.set j (d.q.getD j 0 + 1) } else d }) ∧
          e.req = s.uid ∧ e.team = t.team ∧ e.tix = t.tix ∧ e.ctx = c.ctx ∧ e.oct = j ∧ e.kind = kind ∧ e.tile = tile ∧
          e.kb = kb ∧ e.number = c.q.getD j 0 ∧ e.issued = s.now ∧ e.promoted = 0)))

/-- R279 to R284: a row access of a tile that the team has not faults F_PERM, a misaligned column F_ALIGN; otherwise it counts
in class mx, marks its destinations empty under a class 0x3 tag, is carried out where no older pass holds its row, and the
thread goes on. `mxtopk` holds its thread until its result; a K above 16 and an N outside 1 to 256 fault F_ILLEGAL.
R280 to R283: what a row access does when it is carried out: `mxzero` clears the row and its flags, `mxst` writes its words
to the row from its column on, and `mxld` reads them, or the row's flags.
That row accesses are carried out in order of issue is the reading of log 24. -/
def Obligations.TileRowsAreReadAndWritten : Prop :=
  ((∀ s m t i fs tile c al d k act, rowForm t i = some (fs, tile, c, al, d, k, act) → Ready s m t i false fs →
    (m.nacc ≤ tile → exec i s = .next (threadFault s t .perm {})) ∧
    (tile < m.nacc → c % al ≠ 0 → exec i s = .next (threadFault s t .align {})) ∧
    (tile < m.nacc → c % al = 0 → countFull s t .mx = false → ∃ r,
      exec i s = .next (settle (drainRows (advance (issued s r) (t.markEmpty d (producerTag 3 t.pc) k) i) t.team)) ∧
      Issued t r (some .mx) act ∧ r.undo = (List.range k).map fun j => t.reg (d + j))) ∧
  (∀ s m t mx s32 tile d b, Ready s m t (.mxtopk mx s32 tile d b) false [src1 b, dstN d 1 2] → tile.toNat < m.nacc →
    let k := (rw t b).toNat % 32
    let n := (rw t b).toNat / 256 % 512
    (16 < k ∨ n = 0 ∨ 256 < n → exec (.mxtopk mx s32 tile d b) s = .next (threadFault s t .illegal {})) ∧
    (k ≤ 16 → 1 ≤ n → n ≤ 256 → (k = 0 ∨ d.toNat + 2 * k ≤ m.nreg) →
      (∀ j, j < 2 * k → isEmptyReg (t.reg (d.toNat + j)) = false) → countFull s t .mx = false → ∃ r,
      exec (.mxtopk mx s32 tile d b) s = .next (drainRows ((retire (issued s r) t.team).setThread
        { t with place := .held .mxtopk }) t.team) ∧
      Issued t r (some .mx) (.mxTopk tile.toNat (t.slot % 64) k n mx s32 d.toNat)))) ∧
  (∀ s u k r m, s.team? u = some m → Tab.find s.reqs k = some r →
    (∀ tile row, r.act = .mxZero tile row → ∀ m', (rowAccess s u k r).team? u = some m' →
      (∀ c, c < 256 → m'.tileWord tile row c = 0) ∧ m'.rowFlags tile row = 0 ∧
      (∀ t' r' c, c < 256 → t' * 64 + r' ≠ tile * 64 + row → m'.tileWord t' r' c = m.tileWord t' r' c)) ∧
    (∀ tile row c ws, r.act = .mxStore tile row c ws → ∀ m', (rowAccess s u k r).team? u = some m' →
      (∀ j, j < ws.length → m'.tileWord tile row (c + j) = ws.getD j 0) ∧
      (∀ t' r' c', (tileKey t' r' c' < tileKey tile row c ∨ tileKey tile row c + ws.length ≤ tileKey t' r' c') →
        m'.tileWord t' r' c' = m.tileWord t' r' c')) ∧
    (∀ tile row c n d, r.act = .mxLoad tile row c n d → ∃ r', Tab.find (rowAccess s u k r).reqs k = some r' ∧
      r'.performed = true ∧ r'.data = some (
        if n = 0 then leBytes 4 (BitVec.ofNat 32 (m.rowFlags tile row).toNat).toNat
        else (List.range n).flatMap fun j => leBytes 4 (m.tileWord tile row (c + j)).toNat)))

/-! ## Programs, bound cells and multicast from a thread (R285 to R291) -/

/-- R195, R291: `stmc` sends one write, with the generation that the team knows, to each named core of the cluster that holds
a member of its cluster team, and joins them in one request of class st; a named core without a member counts a dropped
write.
Whose generation a write carries, and the ADDR of 0 of F_ALIGN and F_PERM, are the readings of log 83 and log 17. -/
def Obligations.MulticastStoresToEachNamedCore : Prop :=
  ∀ (s : State) (m : Team) (t : Thread) w mask a b l, let i := Instr.stmc w mask a b
    Ready s m t i false [src1 a, srcW w b] → s.launch? m.launch = some l → acqPending s t.team t.tix = false →
    let off := (rw t a).toNat
    let named := (coresOf (clusterOf t.core)).filter fun c => mask.getLsbD (c % 4)
    (off % widthBytes w ≠ 0 → exec i s = .next (threadFault s t .align {})) ∧
    (off % widthBytes w = 0 → m.scrSize < off + widthBytes w → exec i s = .next (threadFault s t .perm {})) ∧
    (off % widthBytes w = 0 → off + widthBytes w ≤ m.scrSize → countFull s t .st = false → ∃ s1, ∃ ks : Tab Req, ∃ j : Nat × Req,
      exec i s = .next (settle (completeJoins (advance s1 t i))) ∧
      s1.reqs = s.reqs ++ ks ++ [j] ∧
      ks.map (fun (p : Nat × Req) => p.2.act) = (named.filter fun c => m.gens.any fun p => p.1 == c).map (fun c =>
        Act.genWrite c (((m.gens.find? fun (p : Nat × BitVec 8) => p.1 == c).map fun (p : Nat × BitVec 8) => p.2).getD 0).toNat off (storeBytesOf t b.r.toNat w) l.fn) ∧
      Issued t j.2 (some .st) .nothing ∧ j.2.after = ks.map (·.1) ∧
      (∀ c, (s1.core c).spdrop = if c ∈ named ∧ (m.gens.any fun p => p.1 == c) = false then bump (s.core c).spdrop l.fn
        else (s.core c).spdrop) ∧
      SameMemory s s1 ∧ s1.threads = s.threads ∧ s1.teams = s.teams)

/-! ## Control registers and the privileged words (R357 to R363, R369) -/

/-- R110, R355, R360, R369: `csrr` reads a register of its thread, the function's stage-1 root, and, from the privileged
context, any register that the context may reach; what it may not reach reads as zero. TH_FFLAGS waits for the producers of
R109.
R42 to R44, R359, R360: `csrw` writes the writable fields of a register and clears the write-1-to-clear ones where A has
ones; a register that the context may not reach keeps its value. `csrs` writes the old value to D and ORs A into the writable
fields alone.
R110: a thread whose write of TH_FPCTL leaves a trap enable set while a producer of R109 is in flight waits for that producer
before its next instruction.
That `csrs` of TH_FFLAGS does not wait is the reading of log 80. -/
def Obligations.ControlRegistersReadAndWrite : Prop :=
  (∀ s m t n d, Ready s m t (.csrr n d) false [dst2 d] →
    (n = 1 → fpPending s t.team t.tix = true → exec (.csrr n d) s = .next (park s t .fpuAll)) ∧
    (n ≠ 1 ∨ fpPending s t.team t.tix = false → ∃ x,
      exec (.csrr n d) s = .next (advance s (t.writePair d.toNat x) (.csrr n d)) ∧
      (∀ v, threadCsr t n.toNat = some v → x = v) ∧
      (∀ l, n.toNat = 0x110 → s.launch? m.launch = some l → x = (s.fn l.fn).s1root) ∧
      (0x080 ≤ n.toNat → n.toNat ≠ 0x110 → t.priv = false → x = 0) ∧
      (n.toNat = 0x080 → t.priv = true →
        x.toNat = (s.die (dieOf t.core)).ce.toNat + (s.die (dieOf t.core)).ue.toNat * 2 ^ 32) ∧
      (n.toNat = 0x112 → t.priv = true → x = s.pkg.fnsel.setWidth 64) ∧
      (n.toNat = 0x111 → t.priv = true → x = (s.fn s.pkg.fnsel.toNat).s2root))) ∧
  ((∀ s m t n a, Ready s m t (.csrw n a) false [src2 a] → ∃ s1,
    exec (.csrw n a) s = .next s1 ∧
    (n.toNat < 0x040 → mayGoOn s (threadCsrw t n.toNat (rp t a)) n →
      s1 = advance s (threadCsrw t n.toNat (rp t a)) (.csrw n a)) ∧
    (¬mayGoOn s (threadCsrw t n.toNat (rp t a)) n → t.live = true →
      s1 = park (retire s t.team) { threadCsrw t n.toNat (rp t a) with pc := t.pc + 8 } (.fpu none)) ∧
    (0x080 ≤ n.toNat → n.toNat ≠ 0x110 → t.priv = false → s1 = advance s t (.csrw n a)) ∧
    (∀ l, n.toNat = 0x110 → s.launch? m.launch = some l → s1 = (advance s t (.csrw n a)).setFn l.fn
      { s.fn l.fn with s1root := BitVec.ofNat 64 ((rp t a).toNat % 2 ^ 52 / 2 ^ 20 * 2 ^ 20) }) ∧
    (n.toNat = 0x111 → t.priv = true → s1 = (advance s t (.csrw n a)).setFn s.pkg.fnsel.toNat
      { s.fn s.pkg.fnsel.toNat with s2root := BitVec.ofNat 64 ((rp t a).toNat % 2 ^ 52 / 2 ^ 16 * 2 ^ 16) }) ∧
    (n.toNat = 0x112 → t.priv = true →
      s1 = { advance s t (.csrw n a) with pkg := { s.pkg with fnsel := BitVec.ofNat 6 (rp t a).toNat } })) ∧
  (∀ s m t n d a, Ready s m t (.csrs n d a) false [src2 a, dst2 d] → ∃ s1,
    exec (.csrs n d a) s = .next s1 ∧
    (∀ v, threadCsr t n.toNat = some v →
      let t' := (if n = 1 then t else threadCsrw t n.toNat (v ||| rp t a)).writePair d.toNat v
      (mayGoOn s t' n → s1 = advance s t' (.csrs n d a)) ∧
      (¬mayGoOn s t' n → t.live = true → s1 = park (retire s t.team) { t' with pc := t.pc + 8 } (.fpu none))) ∧
    (0x080 ≤ n.toNat → n.toNat ≠ 0x110 → t.priv = false → s1 = advance s (t.writePair d.toNat 0) (.csrs n d a))))

/-- R357, R362, R363: outside the privileged context `eret` and `tlbinv` fault F_PERM. `eret` goes to its target with PRIV
clear; in trap mode it faults F_ILLEGAL. `tlbinv` drops what is in its scope from every TLB and holds its thread until the
accesses that have been sent, and the rows, in scope are over; with a count of 0 it drops nothing. A function other than the
physical one may name its own addresses alone. R330: its issue retires an instruction of its team. `hcall` marks D empty, raises
an event of TYPE 0x05 and goes on; a second one parks on the first's D.
Stores in scope that have not been sent translate again (log 94); that a count of 0 drops nothing for every kind is log 79, the
ADDR of 0 of the F_ALIGN of `eret` log 96; tokens count up (log 81). -/
def Obligations.PrivilegedWords : Prop :=
  (∀ s m t i fs, Current s m t → t.priv = false →
    (∃ a, i = .eret a ∧ fs = [src2 a]) ∨ (∃ k a b c, i = .tlbinv k a b c ∧ fs = [src2 a, src1 b, src1 c]) →
    (m.narrow = true → i.since4 = false) →
    (∀ f ∈ fs, f.last < 768 ∧ (m.narrow = true → f.last < 256) ∧ f.r % f.align = 0 ∧ f.last < m.nreg) →
    exec i s = .next (threadFault s t .perm {})) ∧
  (∀ s m t a, Ready s m t (.eret a) true [src2 a] →
    (t.mode = true → exec (.eret a) s = .next (threadFault s t .illegal {})) ∧
    (t.mode = false → exec (.eret a) s = .next
      (if (rp t a).toNat % 8 = 0 then jump s { t with priv := false } (rp t a) else threadFault s t .align {}))) ∧
  (∀ s m t k a b c l, Ready s m t (.tlbinv k a b c) true [src2 a, src1 b, src1 c] → s.launch? m.launch = some l →
    (l.fn ≠ 0 → k = .ipa ∨ k = .all → exec (.tlbinv k a b c) s = .next (threadFault s t .perm {})) ∧
    (l.fn = 0 ∨ k = .va ∨ k = .fn → countOf s t.team t.tix .ld = 0 → countOf s t.team t.tix .st = 0 →
      let lo := (rp t a).toNat / 65536 * 65536
      let x : Scoped := ⟨k, if l.fn = 0 then (rw t c).toNat % 64 else l.fn, lo, lo + 65536 * ((rw t b).toNat % 2 ^ 20)⟩
      ∃ s1, exec (.tlbinv k a b c) s = .next
          (s1.setThread { t with place := .held (.tlbinv (scopedReqs s x) (scopedRows s x)) }) ∧
        (∀ core, ∀ e ∈ (s1.core core).vtlb ++ (s1.core core).itlb, x.hasEntry e = false) ∧
        (∀ cl, ∀ e ∈ (s1.cluster cl).mtlb, x.hasEntry e = false) ∧ (∀ d, ∀ e ∈ (s1.die d).tlb, x.hasEntry e = false) ∧
        (∀ core, ∀ e ∈ (s1.core core).psb, Scoped.hasStore s x e = true → e.stale = true) ∧
        s1.reqs = s.reqs.map (fun p => if x.hasReq p.2 && s.isUnsent p.1 p.2 then (p.1, { p.2 with stale := true }) else p) ∧
        SameMemory s s1 ∧ s1.threads = s.threads ∧ s1.teams = (retire s t.team).teams)) ∧
  (∀ s (x : Scoped), x.hi = x.lo →
    (∀ e, x.hasEntry e = false) ∧ scopedReqs s x = [] ∧ scopedRows s x = [] ∧ dropXlats s x = s) ∧
  (∀ s m t n d a, Ready s m t (.hcall n d a) false [src2 a, dst1 d] → m.idem = false ∨ m.demoted = true →
    (∀ h, t.hcall = some h → exec (.hcall n d a) s = .next (park s t (.regs [h.d.toNat]))) ∧
    (t.hcall = none → s.pkg.hvrEn = true → ∃ s1, exec (.hcall n d a) s = .next s1 ∧
      s1.thread? t.team t.tix = some { t.markEmpty d.toNat (producerTag 1 t.pc) 1 with
        pc := t.pc + 8, place := .table, hcall := some ⟨rp t a, n, d, nextToken s.pkg⟩ } ∧
      s1.pkg.tokens = nextToken s.pkg ∧
      (∃ e, s1.pkg.hvEvents = s.pkg.hvEvents ++ [e] ∧ e.type = 5 ∧ e.addr = rp t a ∧ e.info = n.toNat ∧
        e.token = nextToken s.pkg) ∧ SameMemory s s1 ∧ SameOtherThreads s s1 t))

namespace Sys2Proof.Machine

/-- The scalar instructions of Mordant programs and what they write to their register (R235). -/
def mordantResult (p : Program) : Instr → Option (BitVec 5 × DWord)
  | .mAdd d a b => some (d, p.mreg a + p.mreg b)
  | .mSub d a b => some (d, p.mreg a - p.mreg b)
  | .mMul d a b => some (d, p.mreg a * p.mreg b)
  | .mAnd d a b => some (d, p.mreg a &&& p.mreg b)
  | .mOr d a b => some (d, p.mreg a ||| p.mreg b)
  | .mXor d a b => some (d, p.mreg a ^^^ p.mreg b)
  | .mShl d a b => some (d, p.mreg a <<< (p.mreg b).toNat)
  | .mShr d a b => some (d, p.mreg a >>> (p.mreg b).toNat)
  | .mCmp cc nat d a b => some (d,
      if (if nat then condHolds cc (p.mreg a).toNat (p.mreg b).toNat else condHolds cc (p.mreg a).toInt (p.mreg b).toInt)
      then 1 else 0)
  | .mSel d a b c => some (d, if p.mreg c = 0 then p.mreg b else p.mreg a)
  | .mMov d a => some (d, p.mreg a)
  | .mAddImm d a imm => some (d, p.mreg a + imm.signExtend 64)
  | .mMulImm d a imm => some (d, p.mreg a * imm.signExtend 64)
  | .mAndImm d a imm => some (d, p.mreg a &&& imm.signExtend 64)
  | .mOrImm d a imm => some (d, p.mreg a ||| imm.signExtend 64)
  | .mXorImm d a imm => some (d, p.mreg a ^^^ imm.signExtend 64)
  | .mShlImm d a imm => some (d, p.mreg a <<< (imm.signExtend 64).toNat)
  | .mShrImm d a imm => some (d, p.mreg a >>> (imm.signExtend 64).toNat)
  | .mCmpImm cc nat d a imm => some (d,
      if (if nat then condHolds cc (p.mreg a).toNat (imm.signExtend 64).toNat
        else condHolds cc (p.mreg a).toInt (imm.signExtend 64).toInt) then 1 else 0)
  | .li d imm => some (d, imm.signExtend 64)
  | .liLit d imm => some (d, imm)
  | _ => none

/-- The state after a Mordant instruction that completes: the program `p` goes on at `pc` with PROG 0 and WAIT clear, what its
element had read is dropped, no barrier holds it, and its team has retired an instruction. -/
def continues (s : State) (u : Nat) (p : Program) (pc : DWord) : State :=
  let s1 : State := { s with
    programs := Tab.put s.programs u
      { p with pc := pc, prog := 0, wait := false, barrier := none, passed := false, index := none }
    reqs := s.reqs.filter fun q => !(q.2.owner == .program u && q.2.act.reads) }
  if p.system.isSome then s1 else retire s1 p.team

/-- The program after one element of a tensor movement of `len` elements: one more of PROG, `bytes` bytes and one item counted,
the flags added; each 4 KiB performed retires (R221, R222, R248). Peer reads that do not hold the next element, which stands at
`next`, are dropped. The last element ends the instruction (R243). -/
def moves (s : State) (u : Nat) (p : Program) (bytes : Nat) (fl : FFlags) (next : List Nat) (len : Nat) : State :=
  let q := { p with
    bcnt := p.bcnt + BitVec.ofNat 64 bytes, icnt := p.icnt + 1, btot := p.btot + BitVec.ofNat 64 bytes
    prog := BitVec.ofNat 48 (p.prog.toNat + 1), mflags := p.mflags ||| fl, wait := false }
  let s1 : State := { s with
    programs := Tab.put s.programs u q
    reqs := s.reqs.filter fun x => !usedRead u next x.2 }
  let s2 := if p.system.isSome ∨ p.btot.toNat / 4096 = q.btot.toNat / 4096 then s1 else retire s1 p.team
  if len ≤ q.prog.toNat then continues s2 u q (p.pc + 8) else s2

/-- No write of the program waits to be performed. -/
def Settled (s : State) (u : Nat) : Prop := pendingOf s u = []

end Sys2Proof.Machine

/-! ## Mordant programs (file 12) -/

/-- R235: a scalar instruction writes its 64-bit result and goes on to the next instruction; nothing else changes but PROG, WAIT
and the watchdog count of its team.
R70, R236: the branches go to their target or to the next instruction; `loop` counts its register down, modulo 2^64. -/
def Obligations.MordantScalarsAndBranches : Prop :=
  (∀ s u p i d x, mordantResult p i = some (d, x) → Runs s u p →
    exec i s = .next (continues s u { p with m := FMap.set 0 p.m d.toNat x } (p.pc + BitVec.ofNat 64 i.len))) ∧
  ((∀ s u p off, Runs s u p → exec (.mBr off) s = .next (continues s u p (p.pc + off.signExtend 64 * 8))) ∧
  (∀ s u p z c off, Runs s u p → exec (.mBrc z c off) s = .next
    (continues s u p (if (p.mreg c = 0 ↔ z = true) then p.pc + off.signExtend 64 * 8 else p.pc + 8))) ∧
  (∀ s u p c off, Runs s u p → exec (.loop c off) s = .next
    (continues s u { p with m := FMap.set 0 p.m c.toNat (p.mreg c - 1) }
      (if p.mreg c = 1 then p.pc + 8 else p.pc + off.signExtend 64 * 8))))

/-- R237 to R239, R241: `ldx` writes the value of the bytes it reads, extended, `tdld` the 288 bytes of a descriptor; `stx`
writes the low bytes of its register and counts them; a misaligned address faults ALIGN. Bytes in memory are read as they
stand there; a store changes its own bytes alone. An `stx` to a peer stays at its instruction until its answer has come. -/
def Obligations.MordantLoadsAndStores : Prop :=
  (∀ s u p w sx d base imm, Runs s u p → let i := Instr.ldx w sx d base imm
    let ea := (p.mreg base + imm.signExtend 64).toNat
    (ea % widthBytes w ≠ 0 → exec i s = .next (mFault s u .align ea)) ∧
    (∀ s1 bs, ea % widthBytes w = 0 → mLoad s u p ea (widthBytes w) 0 = .ok s1 bs → exec i s = .next (continues s1 u
      { p with m := FMap.set 0 p.m d.toNat (BitVec.ofInt 64 (intOf sx (8 * bs.length) (leNat bs))) } (p.pc + 8)))) ∧
  (∀ s u p d base imm, Runs s u p → let i := Instr.tdld d base imm
    let ea := (p.mreg base + imm.signExtend 64).toNat
    (ea % 32 ≠ 0 → exec i s = .next (mFault s u .align ea)) ∧
    (∀ s1 bs, ea % 32 = 0 → mLoad s u p ea 288 0 = .ok s1 bs → exec i s = .next (continues s1 u
      { p with d := FMap.set 0 p.d d.toNat (BitVec.ofNat 2304 (leNat bs)) } (p.pc + 8)))) ∧
  (∀ s u p va n ahead s1 pa ipa, mResolve s u p va n .r false = .ok s1 [⟨.mem pa, n, ipa⟩] → Settled s1 u →
    poisonedAt s1 pa n = false → ∃ s2, mLoad s u p va n ahead = .ok s2 (readBytes s1 pa n) ∧ SameMemory s1 s2) ∧
  (∀ s u p w v base imm, Runs s u p → let i := Instr.stx w v base imm
    let ea := (p.mreg base + imm.signExtend 64).toNat
    (ea % widthBytes w ≠ 0 → exec i s = .next (mFault s u .align ea)) ∧
    (∀ s1 v o ipa, ea % widthBytes w = 0 →
      mResolve s u p ea (widthBytes w) .w (decide (w = .w32)) = .ok s1 [⟨.peer v o, widthBytes w, ipa⟩] →
      Settled s1 u → Tab.find s1.reqs s1.uid = none → s1.program? u = some p → ∃ s2, exec i s = .next s2 ∧
      s2.program? u = some { p with posted := widthBytes w } ∧ SameMemory s1 s2 ∧ s2.threads = s1.threads ∧ s2.teams = s1.teams) ∧
    (∀ s1 pa ipa, ea % widthBytes w = 0 →
      mResolve s u p ea (widthBytes w) .w (decide (w = .w32)) = .ok s1 [⟨.mem pa, widthBytes w, ipa⟩] →
      Settled s1 u → Tab.find s1.reqs s1.uid = none → isHbm pa = true → pageQueued s1 pa = false →
      (∀ j, j < widthBytes w → pageQueued s1 (pa + j) = false ∧ inBitmap (pa + j) = false) → ∃ s2,
      exec i s = .next (continues (settle s2) u { p with
        bcnt := p.bcnt + BitVec.ofNat 64 (widthBytes w), icnt := p.icnt + 1,
        btot := p.btot + BitVec.ofNat 64 (widthBytes w) } (p.pc + 8)) ∧
      (∀ j, j < widthBytes w → readByte s2 (pa + j) = BitVec.ofNat 8 ((p.mreg v).toNat / 2 ^ (8 * j))) ∧
      SameMemoryOutside s1 s2 pa (widthBytes w)))

/-- R223, R242: `tdset` replaces one field of its descriptor, and no other byte, with the low bytes of its value; a value that
does not fit the field faults DESC. -/
def Obligations.DescriptorFieldsAreSet : Prop :=
  (∀ s u p i f (k : BitVec 4) (d : BitVec 3) v, Runs s u p →
    ((∃ a, i = .tdset f k d a ∧ v = p.mreg a) ∨ i = .tdsetLit f k d v) →
    let fits : Prop := match f with
      | .base | .ebase => True
      | .hdr | .ext => v.toNat < 2 ^ 32
      | .str => v = (v.setWidth 48).signExtend 64
      | .off => v = (v.setWidth 32).signExtend 64
    (¬fits → exec i s = .next (mFault s u .desc 0)) ∧
    (fits → ∃ q, exec i s = .next (continues s u q (p.pc + BitVec.ofNat 64 i.len)) ∧
      q = p.setDesc d (spliceBytes (p.desc d) (fieldPlace f k.toNat).1 (leBytes (fieldPlace f k.toNat).2 v.toNat)) ∧
      (∀ e, e ≠ d → q.desc e = p.desc e))) ∧
  (∀ (bs new : List Byte) off, bs.length = 288 → off + new.length ≤ 288 →
    (spliceBytes bs off new).length = 288 ∧
    ∀ j, j < 288 → (spliceBytes bs off new).getD j 0 = if off ≤ j ∧ j < off + new.length then new.getD (j - off) 0 else bs.getD j 0) ∧
  (∀ k, fieldPlace .base k = (0, 8) ∧ fieldPlace .ebase k = (8, 8) ∧ fieldPlace .hdr k = (16, 4) ∧
    fieldPlace .ext k = (32 + 16 * k, 4) ∧ fieldPlace .off k = (36 + 16 * k, 4) ∧ fieldPlace .str k = (40 + 16 * k, 6)) ∧
  (∀ (p : Program) d bs, bs.length = 288 → (p.setDesc d bs).desc d = bs)

/-- R230, R243, R244, R248: `tcopy` checks its descriptors (DESC), their formats (CONV) and their sizes (SHAPE) first; then it
moves element PROG, converted, and counts it; once PROG has reached N it goes on. Stated of destinations whose format is not
a block format.
R245: `tgather` and `tscatter` move slices that an index tensor names; their checks come first, an index beyond the
indexed extent faults INDEX, that of a slice of no elements too, and once PROG has reached N they go on. Stated of formats
that are not block formats.
One element is one step (log 47); the index of a slice is read once, as the program comes to the slice (log 103). -/
def Obligations.TensorElementsMove : Prop :=
  (∀ s u p d a, Runs s u p →
    (readTensor (p.desc a) = none ∨ readTensor (p.desc d) = none → exec (.tcopy d a) s = .next (mFault s u .desc 0)) ∧
    (∀ ta td, readTensor (p.desc a) = some ta → readTensor (p.desc d) = some td → (p.system = none ∨ ta.space = 0 ∧ td.space = 0) →
      (pairAllowed ta td = false → exec (.tcopy d a) s = .next (mFault s u .conv 0)) ∧
      (pairAllowed ta td = true → ta.n ≠ td.n → exec (.tcopy d a) s = .next (mFault s u .shape 0)) ∧
      (pairAllowed ta td = true → ta.n = td.n →
        (ta.n ≤ p.prog.toNat → exec (.tcopy d a) s = .next (continues s u p (p.pc + 8))) ∧
        (∀ s1 x s2 ws, p.prog.toNat < ta.n → td.w = 0 → ta.w = 0 →
          readElem s u p ta p.prog.toNat 3 (ta.n - p.prog.toNat - 1) = .ok s1 x →
          td.elemAddr p.prog.toNat % (td.size : Nat) = 0 →
          planAt s1 u p td (td.elemAddr p.prog.toNat) (leBytes td.size (convertElem ta td x.1 x.2).1) = .ok s2 ws →
          exec (.tcopy d a) s = .next (moves (mCommit s2 u p ws) u p td.size (convertElem ta td x.1 x.2).2
            (ta.placeOf (p.prog.toNat + 1)) ta.n))))) ∧
  (∀ s u p i (g : Bool) d a b, Runs s u p → (i = if g then .tgather d a b else .tscatter d a b) →
    (∀ e, sliceCheck p d a b g = .error e → exec i s = .next (mFault s u e 0)) ∧
    (∀ ta td tb k, sliceCheck p d a b g = .ok (ta, td, tb, k) →
      let n := (if g then td else ta).n
      let e := p.prog.toNat
      let lim := (if g then ta else td).ext.headD 0
      (k ≠ 0 → n ≤ e → exec i s = .next (continues s u p (p.pc + 8))) ∧
      (∀ s1 x, k ≠ 0 → e < n → (∀ y, p.index = some y → y.1 ≠ e / k) → readElem s u p tb (e / k) 3 0 = .ok s1 x → lim ≤ x.1 →
        exec i s = .next (mFault s1 u .index (BitVec.ofInt 64 (tb.elemAddr (e / k))).toNat)) ∧
      (∀ s1 x s2 y s3 ws, k ≠ 0 → e < n →
        (p.index = some (e / k, x) ∧ s1 = s ∨ (∀ y, p.index = some y → y.1 ≠ e / k) ∧ x < lim ∧
          ∃ z, readElem s u p tb (e / k) 3 0 = .ok s1 (x, z)) →
        ta.w = 0 → td.w = 0 →
        let q : Program := { p with index := some (e / k, x) }
        let far := x * k + e % k
        let f := if g then e else far
        let o := if g then far else e
        readElem (s1.updProgram u fun z => { z with index := q.index }) u q ta o 3 (k - e % k - 1) = .ok s2 y →
        td.elemAddr f % (td.size : Nat) = 0 →
        planAt s2 u q td (td.elemAddr f) (leBytes td.size (convertElem ta td y.1 y.2).1) = .ok s3 ws →
        exec i s = .next (moves (mCommit s3 u q ws) u q td.size (convertElem ta td y.1 y.2).2 (ta.placeOf (o + 1)) n)) ∧
      (k = 0 → let j := match p.index with | some y => y.1 + 1 | none => 0
        (tb.n ≤ j → exec i s = .next (continues s u p (p.pc + 8))) ∧
        (∀ s1 x, j < tb.n → readElem s u p tb j 3 0 = .ok s1 x →
          (lim ≤ x.1 → exec i s = .next (mFault s1 u .index (BitVec.ofInt 64 (tb.elemAddr j)).toNat)) ∧
          (x.1 < lim → exec i s = .next { s1 with
            programs := Tab.put s1.programs u { p with index := some (j, x.1), wait := false }
            reqs := s1.reqs.filter fun q => !(q.2.owner == .program u && q.2.act.reads) })))))

/-- R246, R248: `qput` appends the next element to its stream and counts its bytes; without room the program waits; a stream
that the team has not faults PERM, a bad descriptor DESC. Stated of formats that are not block formats, whose elements are
appended as they are.
One element is one step (log 47). -/
def Obligations.QputAppendsToItsStream : Prop :=
  ∀ s u p e k a m, Runs s u p → p.system = none → s.team? p.team = some m →
    (readTensor (p.desc a) = none → exec (.qput e k a) s = .next (mFault s u .desc 0)) ∧
    (∀ t, readTensor (p.desc a) = some t → t.w = 0 →
      (e = true → exec (.qput e k a) s = .next (mFault s u .desc 0)) ∧
      (e = false → m.streams.length ≤ k.toNat → exec (.qput e k a) s = .next (mFault s u .perm 0)) ∧
      (e = false → k.toNat < m.streams.length →
        (t.n ≤ p.prog.toNat → exec (.qput e k a) s = .next (continues s u p (p.pc + 8))) ∧
        (∀ s1 x m1, p.prog.toNat < t.n → readElem s u p t p.prog.toNat 1 (t.n - p.prog.toNat - 1) = .ok s1 x →
          s1.team? p.team = some m1 → s1.program? u = some p →
          let bs := leBytes t.size x.1
          let old := m1.streams.getD k.toNat []
          (65536 < old.length + bs.length →
            exec (.qput e k a) s = .next (s1.updProgram u fun p => { p with wait := true })) ∧
          (old.length + bs.length ≤ 65536 → exec (.qput e k a) s = .next
            (moves (s1.setTeam p.team { m1 with streams := m1.streams.set k.toNat (old ++ bs) }) u p t.size 0
              (t.placeOf (p.prog.toNat + 1)) t.n)))))

/-- R248 to R252: with its writes performed, `cbarr` arrives at the barrier of its core and clears BCNT and ICNT, and `mfence`
goes on; `cbwait` goes on where PH differs from its bit and otherwise waits with WAIT set; `regfill` offers its value, counts
it and goes on, or stays at its instruction while its fill of a phase record waits. A system program has no barriers and no
registers to fill (R377), and faults PERM.
R220, R255 to R257, R417: `mdone` and `mexit` end their program once its writes have been performed. `mdone` has its 32-byte
record written to the next entry of the team's ring first, and waits where that write is stalled; `mexit` has none. Then the
registers that its tags name are poisoned, which may wait for a phase record, and after that it is gone from its engine. -/
def Obligations.MordantBarriersFillsAndEnds : Prop :=
  ((∀ s u p k c a b, Runs s u p → let i := Instr.mCbarr k c a b
    (p.system.isSome = true → exec i s = .next (mFault s u .perm 0)) ∧
    (p.system = none → (p.mreg a).toNat % 16 ≠ 0 → exec i s = .next (mFault s u .align (p.mreg a).toNat)) ∧
    (p.system = none → (p.mreg a).toNat % 16 = 0 → barrierBeyond s p (selCore s p c) (p.mreg a).toNat = true →
      exec i s = .next (mFault s u .scratch (p.mreg a).toNat)) ∧
    (p.system = none → (p.mreg a).toNat % 16 = 0 → barrierBeyond s p (selCore s p c) (p.mreg a).toNat = false → Settled s u →
      let n := match k with
        | .cnt => (p.mreg b).toNat % 2 ^ 32
        | .bytes => p.bcnt.toNat % 2 ^ 32
        | .items => p.icnt.toNat % 2 ^ 32
      exec i s = .next (continues (mArrive s p (selCore s p c) (p.mreg a).toNat n) u { p with bcnt := 0, icnt := 0 } (p.pc + 8)))) ∧
  (∀ s u p, Runs s u p → Settled s u → exec .mfence s = .next (continues s u p (p.pc + 8))) ∧
  (∀ s u p c a b, Runs s u p →
    (p.passed = true → exec (.mCbwait c a b) s = .next (continues s u p (p.pc + 8))) ∧
    (∀ s1 bs, p.passed = false → p.system = none → (p.mreg a).toNat % 16 = 0 →
      mScrLoad s u p (selCore s p c) (p.mreg a).toNat 16 = .ok s1 bs →
      exec (.mCbwait c a b) s = .next (if sliceNat bs 8 1 % 2 = (p.mreg b).toNat % 2 then
        s1.updProgram u (fun q => { q with wait := true, barrier := (memberOn s1 p (selCore s p c)).map fun x =>
          (x.1, (p.mreg a).toNat, (p.mreg b).getLsbD 0) }) else continues s1 u p (p.pc + 8)))) ∧
  (∀ s u p a b c, Runs s u p →
    (p.system.isSome = true → exec (.regfill a b c) s = .next (mFault s u .perm 0)) ∧
    (p.system = none →
      let s1 := offerFill s p.team ((p.mreg a).toNat % 1024) ((p.mreg b).toNat % 1024) (BitVec.ofNat 32 (p.mreg c).toNat)
        (.programOrWindow p.seq)
      (fillStands s1 p.team (.programOrWindow p.seq) = true →
        exec (.regfill a b c) s = .next (s1.updProgram u fun q => { q with filling := true })) ∧
      (fillStands s1 p.team (.programOrWindow p.seq) = false → exec (.regfill a b c) s = .next (continues s1 u
        { p with bcnt := p.bcnt + 4, icnt := p.icnt + 1, btot := p.btot + 4 } (p.pc + 8))))) ∧
  (∀ seq (tag : Word), (TagKind.programOrWindow seq).takes tag =
    ((tag.toNat / 2 ^ 28 == 4 && tag.toNat % 2 ^ 28 == seq.toNat % 2 ^ 28) || tag.toNat / 2 ^ 28 == 5))) ∧
  ((∀ s u p i e, Runs s u p → Settled s u → p.ending = none →
    ((∃ a, i = .mdone a ∧ e = ⟨1, 0, (p.mreg a).toNat % 2 ^ 32, 0⟩) ∨ i = .mexit ∧ e = ⟨0, 0, 0, 0⟩) →
    let s1 := leaveMordantQueue (if p.system.isSome then s else retire s p.team) u p
    (∀ s2, postCompletion s1 u p e = (s2, true) → exec i s = .next (closeProgram s2 u p e)) ∧
    (∀ s2, postCompletion s1 u p e = (s2, false) → exec i s = .next s2)) ∧
  (∀ s u p e, let s1 := if p.system.isSome then s else poisonRegs s p.team (.program p.seq)
    (poisonStands s1 p = false → (closeProgram s u p e).program? u = none) ∧
    (poisonStands s1 p = true → closeProgram s u p e = s1.updProgram u fun q =>
      { q with ending := some e, stalled := none, wait := false, recorded := true })) ∧
  (∀ s u (p : Program) e, e.status = 0 → postCompletion s u p e = (s, true)) ∧
  (∀ s u (p : Program) e m l s1 x, e.status ≠ 0 → p.system = none → s.team? p.team = some m → s.launch? m.launch = some l →
    areaRecord (s.updTeam p.team fun m => { m with ncompl := m.ncompl + 1 }) l.fn (dieOf m.core)
      (l.crRing m.num + 32 * (m.ncompl % 2 ^ l.crlog)) (completionRecord p e (p.engine.getD 0xFF) m.core s.now) = (s1, x) →
    (x = .done ∨ x = .failed → postCompletion s u p e = (s1, true)) ∧
    (∀ ipa info, x = .stalled ipa info → ∃ s2 k, postCompletion s u p e = (s2, false) ∧
      s2.programs = Tab.upd s1.programs u fun q => { q with ending := some e, stalled := some k, wait := false })) ∧
  (∀ (p : Program) e engine loc now, let b := completionRecord p e engine loc now
    b.length = 32 ∧ sliceNat b 0 6 = p.seq.toNat ∧ sliceNat b 6 1 = e.status % 2 ^ 8 ∧
    sliceNat b 7 1 = (if e.status = 3 then e.sub else 0) % 2 ^ 8 ∧ sliceNat b 8 8 = p.btot.toNat ∧
    sliceNat b 16 4 = (if e.status = 1 then e.user else 0) % 2 ^ 32 ∧ sliceNat b 20 1 = p.mflags.toNat ∧
    sliceNat b 21 1 = engine % 2 ^ 8 ∧ sliceNat b 22 2 = loc % 2 ^ 16 ∧ sliceNat b 24 8 = now % 2 ^ 64))

/-- R258, R259, R377, R408, R409: `dharv` reads the dirty bits of 64 granules of HBM4 and clears them; it needs a system
program (PERM), a multiple of 64 (ALIGN) and granules of HBM4 (PERM). `fxred` contributes its elements and waits; its checks of
formats (CONV), sizes (SHAPE) and group (PERM) come first, and participants that differ fault SHAPE, each having sent its own.
Without a reduction context its elements go to every participant on another package.
That MFLAGS stay is the reading of log 44; when a reduction has a context is that of log 104; the order of the checks of `fxred`
is that of log 116, the ADDR of the faults of `dharv` that of log 117. -/
def Obligations.HarvestAndReduction : Prop :=
  (∀ s u p d a, Runs s u p → let g := (p.mreg a).toNat
    (p.system = none → exec (.dharv d a) s = .next (mFault s u .perm 0)) ∧
    (p.system.isSome = true → g % 64 ≠ 0 → exec (.dharv d a) s = .next (mFault s u .align g)) ∧
    (p.system.isSome = true → g % 64 = 0 → isHbm (g * 4096) = false ∨ isHbm ((g + 63) * 4096) = false →
      exec (.dharv d a) s = .next (mFault s u .perm g)) ∧
    (p.system.isSome = true → g % 64 = 0 → isHbm (g * 4096) = true → isHbm ((g + 63) * 4096) = true → ∃ s1 v,
      exec (.dharv d a) s = .next (continues s1 u { p with m := FMap.set 0 p.m d.toNat v } (p.pc + 8)) ∧
      (∀ j, j < 64 → v.getLsbD j = FMap.get false s.dirty (g + j)) ∧
      (∀ k, FMap.get false s1.dirty k = (if g ≤ k ∧ k < g + 64 then false else FMap.get false s.dirty k)) ∧
      s1 = { s with dirty := s1.dirty })) ∧
  (∀ s u p op ty d a b, Runs s u p → let i := Instr.fxred op ty d a b
    (p.system.isSome = true → exec i s = .next (mFault s u .perm 0)) ∧
    (∀ ta td, p.system = none → readTensor (p.desc a) = some ta → readTensor (p.desc d) = some td →
      (ta.fmt ≠ fxFmt ty ∨ td.fmt ≠ fxFmt ty → exec i s = .next (mFault s u .conv 0)) ∧
      (ta.fmt = fxFmt ty → td.fmt = fxFmt ty → ta.n ≠ td.n ∨ 2 ^ 20 < ta.n → exec i s = .next (mFault s u .shape 0)) ∧
      (ta.fmt = fxFmt ty → td.fmt = fxFmt ty → ta.n = td.n → ta.n ≤ 2 ^ 20 →
        (∀ s1, fxGroup s p (p.mreg b) = (s1, none) → exec i s = .next (mFault s1 u .perm 0)) ∧
        (∀ s1 g s2 xs, fxGroup s p (p.mreg b) = (s1, some g) → (∀ x ∈ s1.fab.fxrs, x.prog ≠ u) →
          readElems u p ta 3 0 ta.n 0 s1 [] = .ok s2 xs →
          let epoch := (p.mreg b).toNat / 2 ^ 16 % 2 ^ 32
          let fn := programFn s2 p
          let mine : Fxr := ⟨u, fn, g, epoch, op, ty, xs.map (·.1), none, false, chooseContext s2 g epoch fn, fxMembers s2 g epoch⟩
          let agree := (∀ x ∈ contributions s2 g epoch, x.op = op ∧ x.ty = ty ∧ x.elems.length = xs.length) ∧
            ∀ x ∈ piecesOf s2 g epoch, x.op = op ∧ x.ty = ty ∧ x.n = xs.length
          let kept := s2.reqs.filter fun q => !(q.2.owner == .program u && q.2.act.reads)
          (¬agree → exec i s = .next (faultAll (sendParts (joinFxr { s2 with reqs := kept } mine) u p mine) g epoch)) ∧
          (agree → ∃ s3, exec i s = .next s3 ∧
            ((∀ y ∈ s2.fab.fxrs, y.group = g → y.epoch = epoch → y.fn = fn → y.prog = 0 → y.done = true) →
              s3.fab.fxrs = s2.fab.fxrs ++ [mine]) ∧
            s3.programs = Tab.upd s2.programs u (fun p => { p with wait := true }) ∧
            (∃ ks : Tab Req, s3.reqs = kept ++ ks ∧ ks.map (fun q => q.2.act) =
              if mine.context.isSome then [] else
                (mine.members.filter fun m => m.2.1 != Config.packageNumber.toNat).flatMap fun m =>
                  (fxParts mine).map fun o => .reduce m.1 m.2.1 m.2.2 o) ∧
            SameMemory s2 s3 ∧ s3.threads = s2.threads)))))

namespace Sys2Proof.Machine

/-- Request `k` is `r`, has not completed, need not translate again, and what must come before it has taken effect. -/
structure InFlight (s : State) (k : Nat) (r : Req) : Prop where
  found : Tab.find s.reqs k = some r
  pending : r.complete = false
  due : Machine.ready s r = true
  translated : (r.stale && r.unsent) = false

/-- Request `k` is in flight for thread `t`, whose results are not dropped. -/
structure InFlightFor (s : State) (k : Nat) (r : Req) (t : Thread) : Prop extends InFlight s k r where
  owner : r.owner = .thread t.team t.tix
  thread : s.thread? t.team t.tix = some t
  live : r.dead = false

/-- The thread after a fill of words and flags. Where it waits for its producers of R109 and a flag that is enabled is set, it is
to trap at the word of the request, `pc` (R110). -/
def Thread.filledWith (t : Thread) (d : Nat) (ws : List Word) (fl : FFlags) (pc : DWord) : Thread :=
  { (t.writeList d ws).withFlags fl with
    place := if t.place = .parked (.fpu none) ∧ enabled t fl = true ∧ t.mode = false then .parked (.fpu (some pc)) else t.place }

/-- The state after request `k` of thread `t` has filled: the thread holds what it wrote, the request is complete, its acquire
is performed, and what waited for it goes on. -/
def filled (s : State) (k : Nat) (t : Thread) (acq : Option Scope) : State :=
  let s1 := completeReq (s.setThread t) k
  settle (match acq with | some sc => acquireCore s1 t.core sc | none => s1)

/-- Bytes of HBM4 that an ordinary write changes: no page among them waits for a scrub, and none belongs to the dirty
bitmap (R375, R378). -/
def Plain (s : State) (pa n : Nat) : Prop :=
  pageQueued s pa = false ∧ inBitmap pa = false ∧ ∀ j, j < n → pageQueued s (pa + j) = false ∧ inBitmap (pa + j) = false

/-- The entries that a selection considers: those in trap mode where there is one (R158, rule 1). -/
def considered (c : Core) : List Entry := if c.table.any (·.tm) then c.table.filter (·.tm) else c.table

/-- Thread `t` stands held at `h`, and its team lets what it waits for release it: it is resident, stops for a save, or ends. -/
structure HeldAt (s : State) (t : Thread) (h : Hold) : Prop where
  team : ∃ m, s.team? t.team = some m ∧ (m.stage = .resident ∨ m.stage = .stopping ∨ m.stage = .ending)
  thread : s.thread? t.team t.tix = some t
  place : t.place = .held h

end Sys2Proof.Machine

/-! ## Rows (R157 to R159) -/

/-- R157 to R159: ROW_SELECTION drains at most four records of the ring, in order; where a row stream is free and an entry is
chosen, that entry gives up one row, of the lowest slot of each lane, and SKIP of the others rises. The entry chosen is one that
is considered: the longest waiting of those passed over 64 times, else the lowest address that is not held. With a stream free
and an entry to choose, a row is always formed. The event without a choice changes nothing (log 2). -/
def Obligations.RowsComeFromTheChosenEntry : Prop :=
  (∀ s c, let s0 := s.setCore c (drainRing s.now 4 (s.core c))
    ((∀ k, k < 4 → (Tab.find (s0.core c).rows k).isSome = true) → exec (.rowSelection c) s = .next s0) ∧
    (selectEntry s0 c = none → exec (.rowSelection c) s = .next s0) ∧
    (∀ k e, k < 4 → Tab.find (s0.core c).rows k = none → (∀ j, j < k → (Tab.find (s0.core c).rows j).isSome = true) →
      selectEntry s0 c = some e → ∃ s', exec (.rowSelection c) s = .next s' ∧
      (s'.core c).rows = Tab.put (s0.core c).rows k ⟨s.uid, e.addr, 0, rowSlots e, [], []⟩ ∧
      (s'.core c).table = tableAfter e (rowSlots e) (s0.core c).table ∧ s'.uid = s.uid + 1 ∧ SameMemory s s' ∧
      s'.teams = s.teams ∧ s'.reqs = s.reqs)) ∧
  (∀ s c, (s.core c).ring = [] → (∃ k, k < 4 ∧ Tab.find (s.core c).rows k = none) →
    (∃ e ∈ considered (s.core c), e.skip = 64 ∨ e.tm = true ∨ entryHeld s c e = false) →
    ∃ s' k e, exec (.rowSelection c) s = .next s' ∧ k < 4 ∧ Tab.find (s.core c).rows k = none ∧ e ∈ considered (s.core c) ∧
      (s'.core c).rows = Tab.put (s.core c).rows k ⟨s.uid, e.addr, 0, rowSlots e, [], []⟩ ∧
      (s'.core c).table = tableAfter e (rowSlots e) (s.core c).table ∧ SameMemory s s' ∧ s'.teams = s.teams ∧
      s'.reqs = s.reqs) ∧
  (∀ s c e, selectEntry s c = some e → e ∈ considered (s.core c) ∧
    (∀ x ∈ considered (s.core c), x.skip = 64 → e.skip = 64 ∧ x.age s.now ≤ e.age s.now) ∧
    (e.skip ≠ 64 → ∀ x ∈ considered (s.core c), x.tm = true ∨ entryHeld s c x = false → e.addr.toNat ≤ x.addr.toNat)) ∧
  (∀ e k, k ∈ rowSlots e ↔ k ∈ e.slots ∧ k < 1024 ∧ ∀ j ∈ e.slots, j % 64 = k % 64 → k ≤ j) ∧
  (∀ (e x : Entry) row l, x ∈ l → sameEntry x e = false → x.slots ≠ [] →
    { x with skip := Nat.min (x.skip + 1) 64 } ∈ tableAfter e row l)

/-! ## Requests in flight (R35, R127, R134, R138, R195, R299) -/

/-- R35, R43, R110, R127, R128, R132, R134, R195, R299: a producer's fill writes its registers, adds its flags and performs its
acquire; a load reads memory at its fill, under what the phase store buffer holds for its team, an atomic at its own step; a
store and an atomic change their bytes alone; a 16-byte load or store of a thread is made in two halves; a write of a
generation is dropped where that generation is gone; an uncorrectable error faults F_ECC.
Which half comes first is a free value. The moments at which requests act are the model's (log 22). -/
def Obligations.RequestsTakeEffect : Prop :=
  (∀ s k r t d ws fl fp, InFlightFor s k r t → r.act = .value d ws fl fp →
    exec (.producerFill k) s = .next (filled s k (t.filledWith d ws fl r.pc) r.acq)) ∧
  ((∀ s k r t loc n sx d l1 bs, InFlightFor s k r t → r.act = .load loc n sx d l1 → r.data = some bs →
    exec (.producerFill k) s = .next (filled s k (t.filledWith d (loadWords (overlay bs r.psb) sx) 0 r.pc) r.acq)) ∧
  (∀ s k r t pa n sx d l1, InFlightFor s k r t → r.act = .load (.mem pa) n sx d l1 → r.data = none →
    (n ≠ 16 ∨ r.half.isSome = true → (poisonedAt s pa n = true → t.live = true → exec (.producerFill k) s = .next
      (settle (threadFault (completeReq s k) { t with pc := r.pc } .ecc { addr := r.va.toNat }))) ∧
      (poisonedAt s pa n = false →
        let now := readBytes s pa n
        let bs := match r.half with
          | none => now
          | some (h, b) => if h = 0 then b ++ now.drop 8 else now.take 8 ++ b
        let s1 := fillL1 (readMem s r.fn pa n).1 r pa now l1
        exec (.producerFill k) s =
          .next (filled s1 k (t.filledWith d (loadWords (loaded s1 r (.mem pa) bs) sx) 0 r.pc) r.acq))) ∧
    (n = 16 → r.half = none → (∀ h, h = 0 ∨ h = 8 → poisonedAt s (pa + h) 8 = false) → ∃ s1 h, (h = 0 ∨ h = 8) ∧
      exec (.producerFill k) s = .next s1 ∧ Tab.find s1.reqs k = some { r with half := some (h, readBytes s (pa + h) 8) } ∧
      SameMemory s s1 ∧ s1.threads = s.threads ∧ s1.teams = s.teams))) ∧
  (∀ s k r t d bs, InFlightFor s k r t → r.data = some bs →
    ((∃ loc op ty x, r.act = .atomic loc op ty x d) ∨ (∃ loc ty x y, r.act = .cas loc ty x y d) ∨
      ∃ tile row col n, r.act = .mxLoad tile row col n d) →
    exec (.producerFill k) s = .next (filled s k (t.filledWith d (wordsOf bs) 0 r.pc) r.acq)) ∧
  (∀ s k r pa bs, InFlight s k r → r.act = .store (.mem pa) bs → Plain s pa bs.length →
    (bs.length ≠ 16 ∨ s.ownerOf r = none → ∃ s1, exec (.storePerform k) s = .next (settle s1) ∧
      SameMemoryOutside s s1 pa bs.length ∧ (∀ j (h : j < bs.length), readByte s1 (pa + j) = bs[j]) ∧
      ∀ q, Tab.find s1.reqs k = some q → q.complete = true) ∧
    (bs.length = 16 → (s.ownerOf r).isSome = true → ∃ s1 h q, (h = 0 ∨ h = 8) ∧ exec (.storePerform k) s = .next s1 ∧
      SameMemoryOutside s s1 (pa + h) 8 ∧ (∀ j, j < 8 → readByte s1 (pa + h + j) = bs.getD (h + j) 0) ∧
      Tab.find s1.reqs k = some q ∧ q.complete = false ∧
      q.act = if h = 0 then .store (.mem (pa + 8)) (bs.drop 8) else .store (.mem pa) (bs.take 8))) ∧
  (∀ s k r u off n, InFlight s k r → r.act = .arrive u off n →
    exec (.storePerform k) s = .next (settle (completeReq (arriveAt s u off n) k))) ∧
  (∀ s k r loc ty pa, InFlight s k r → r.performed = false → loc = .mem pa →
    ((∃ op x d, r.act = .atomic loc op ty x d) ∨ ∃ x y d, r.act = .cas loc ty x y d) →
    let n := tyBits ty / 8
    let old := readBytes s pa n
    Plain s pa n → poisonedAt s pa n = false → ∃ s' q, exec (.atomicPerform k) s = .next s' ∧
      SameMemoryOutside s s' pa n ∧ (∀ j, j < n → readByte s' (pa + j) = (leBytes n (updated r.act (leNat old))).getD j 0) ∧
      Tab.find s'.reqs k = some q ∧ q.performed = true ∧ q.data = some old) ∧
  (∀ s k r core g off bs fn, InFlight s k r → r.act = .genWrite core g off bs fn →
    exec (.generationCheckedWrite k) s = .next (settle (completeJoins (completeReq (performGenWrite s core g off fn bs) k)))) ∧
  (∀ s core g off fn bs, (∀ p ∈ s.teams, p.2.core = core → p.2.holds = true → p.2.gen.toNat ≠ g) →
    performGenWrite s core g off fn bs =
      s.setCore core { s.core core with spdrop := bump (s.core core).spdrop fn })

/-! ## The ends of waits (R38, R211, R212, R284, R357) -/

/-- R209, R211, R212: `sid` gives the identity that its selector names; `yield` holds the thread for at most 64 cycles;
`sleep` reads its word after the thread's own older accesses of it, writes 0 and goes on where it differs from C, and else
holds the thread on that word until a write or the time-out.
R211, R212, R284, R357: a `yield` ends after its cycles and a `sleep` at its time-out with 2 in D; `mxtopk` writes its words
16 + ceil(n ÷ 8) cycles after its row was read; a `tlbinv` goes on, with an acquire, once its accesses and rows are over.
Before that each of these events changes nothing.
Time is the model's clock (log 3), and an event before its time changes nothing (log 2). -/
def Obligations.HeldThreadsWaitAndAreReleased : Prop :=
  ((∀ s m t (k : BitVec 4) d l, Ready s m t (.sid k d) false [dst1 d] → s.launch? m.launch = some l → k.toNat < 14 →
    let v := [t.slot % 64, t.slot, t.tix, t.tix / m.w, t.tix % m.w, m.num, t.core % 4, t.core / 4 % 32, t.core / 128, m.w,
      m.nthr, m.phase, l.argaddr % 2 ^ 32, l.argaddr / 2 ^ 32].getD k.toNat 0
    exec (.sid k d) s = .next (advance s (t.write d.toNat (BitVec.ofNat 32 v)) (.sid k d))) ∧
  (∀ s m t, Ready s m t .yield false [] →
    exec .yield s = .next ((retire s t.team).setThread { t with place := .held (.yield (s.now + 64)) })) ∧
  (∀ s m t d a b c s1 pa f ipa, Ready s m t (.sleep d a b c) false [src2 a, src1 b, src1 c, dst1 d] →
    Accesses s m t (rp t a) 4 .load s1 (.mem pa) f ipa → isHbm pa = true → poisonedAt s1 pa 4 = false →
    let own := Park.after (homeAfter s1 t (.mem pa) 4)
    (parkOver s1 t own = false → exec (.sleep d a b c) s = .next (park s1 t own)) ∧
    ∃ s2, SameMemory s1 s2 ∧ s2.threads = s1.threads ∧ s2.teams = s1.teams ∧
      (parkOver s1 t own = true → leNat (readBytes s2 pa 4) ≠ (rw t c).toNat →
        exec (.sleep d a b c) s = .next (releaseAcq (retire s2 t.team) (t.write d.toNat 0) .dev 8)) ∧
      (parkOver s1 t own = true → leNat (readBytes s2 pa 4) = (rw t c).toNat → exec (.sleep d a b c) s = .next ((retire s2 t.team).setThread
        { t with place := .held (.sleep pa d (if (rw t b).toNat = 0 then none else some (s2.now + (rw t b).toNat))) })))) ∧
  ((∀ s t due, HeldAt s t (.yield due) → exec (.yieldExpiry t.team t.tix) s =
    .next (if due ≤ s.now then arrive s t (t.pc + 8) else s)) ∧
  (∀ s t pa d due, HeldAt s t (.sleep pa d (some due)) → exec (.sleepTimeout t.team t.tix) s =
    .next (if due ≤ s.now then releaseAcq s (t.write d.toNat 2) .dev 8 else s)) ∧
  (∀ s t before after k r bs tile row kk n mx s32 d, HeldAt s t .mxtopk → s.reqs = before ++ (k, r) :: after →
    (∀ p ∈ before, p.2.owner ≠ .thread t.team t.tix) → r.owner = .thread t.team t.tix → r.performed = true →
    r.complete = false → r.act = .mxTopk tile row kk n mx s32 d → r.data = some bs →
    exec (.mxtopkResult t.team t.tix) s = .next (if s.now < r.born + 16 + (n + 7) / 8 then s
      else settle (completeReq (arrive s (t.writeList d (wordsOf bs)) (t.pc + 8)) k))) ∧
  (∀ s t ks rows, HeldAt s t (.tlbinv ks rows) →
    let busy := (∃ k ∈ ks, ∃ r, Tab.find s.reqs k = some r ∧ r.complete = false) ∨ ∃ k ∈ rows, rowRuns s k = true
    (busy → exec (.tlbinvRelease t.team t.tix) s = .next s) ∧
    (¬busy → exec (.tlbinvRelease t.team t.tix) s = .next (releaseAcq s t .dev 8))))

namespace Sys2Proof.Machine

/-- Chain `c` of team `m` has a pass ready on cluster `k`, and `r` is the oldest of its entries. -/
structure PassCandidate (s : State) (k u : Nat) (m : Team) (c : Chain) (r : Resv) : Prop where
  team : (u, m) ∈ s.teams
  place : clusterOf m.core = k
  runs : m.stage = .resident ∨ m.stage = .spilled
  chain : c ∈ m.chains
  ready : passReady m (s.cluster k) u c = true
  entry : oldest (passEntries (s.cluster k) u c c.passes) = some r

/-- What the record of a fault that no instruction raised holds in its ring (R151, R330); its PC and SLOT
are free values. -/
def orphanRecord (s : State) (m : Team) (l : Launch) (c : Code) (addr : Nat) : List Byte :=
  faultRecord (s.die (dieOf m.core)).frSeq c.num (if m.stage = .ending then 0 else 1) s.now
    (Config.freeWord s.freeCtr) addr m.num ((Config.freeWord (s.freeCtr + 1)).toNat % 1024) m.core l.fn 0xFF 0
    (l.seq.toNat % 2 ^ 32) 0

/-- Team `u` ends with a fault that no instruction raised. -/
def FaultsTeam (s s' : State) (u : Nat) (m : Team) (l : Launch) (c : Code) (addr : Nat) : Prop :=
  ∃ s1, s' = areaPost s1 m.launch l (dieOf m.core) (BitVec.ofNat 64 (l.frbase + 64 * (l.nrec % 2 ^ l.frlog)))
      (orphanRecord s m l c addr) false ∧
    s1.team? u = some { m with stage := .ending } ∧ s1.launch? m.launch = some { l with nrec := l.nrec + 1 } ∧
    SameMemory s s1 ∧ s1.threads = s.threads

/-- Thread `t` stands in the table at `pc`. -/
def WaitsAt (s : State) (t : Thread) (pc : DWord) : Prop :=
  s.thread? t.team t.tix = some { t with pc := pc, place := .table }

end Sys2Proof.Machine

/-! ## The matrix unit's events, cells and engines (R218, R273, R274, R278, R280, R289) -/

/-- R274, R278, R280: where no pass of the cluster runs, PASS_START starts the ready pass that comes first by priority, age and
context, for its cycles; PASS_PERFORM ends a pass that has run them: the rows of its octets are written, its records leave the
streams, and its requests complete; requests of unequal kinds and chains that close follow. An entry rises a level for each 1,024
cycles that it has waited.
An event before its time changes nothing (log 2). -/
def Obligations.PassesRunInOrder : Prop :=
  (∀ s k, (s.cluster k).pass ≠ none → exec (.passStart k) s = .next s) ∧
  (∀ s k, (s.cluster k).pass = none → (∀ u m c r, ¬PassCandidate s k u m c r) → exec (.passStart k) s = .next s) ∧
  (∀ s k, (s.cluster k).pass = none → (∃ u m c r, PassCandidate s k u m c r) →
    (∀ p ∈ s.teams, s.team? p.1 = some p.2) → (∀ p ∈ s.teams, ∀ c ∈ p.2.chains, ∀ d ∈ p.2.chains, d.ctx = c.ctx → d = c) →
    ∃ u m c r, PassCandidate s k u m c r ∧ (∀ u' m' c' r', PassCandidate s k u' m' c' r' → passBefore r' r = false) ∧
      exec (.passStart k) s = .next (s.setCluster k
        { s.cluster k with pass := some ⟨u, c.ctx, c.passes, passCycles c r.kind⟩ })) ∧
  (∀ s k p m c, (s.cluster k).pass = some p → s.team? p.team = some m →
    (m.chains.find? fun d => d.ctx == p.ctx && d.passes == p.number) = some c → (∀ q ∈ s.reqs, q.2.act.tileRow = none) →
    (p.left ≠ 0 → exec (.passPerform k) s = .next s) ∧
    (p.left = 0 →
      let es := passEntries (s.cluster k) p.team c p.number
      let kind := (es.map (·.kind)).headD 0
      let x := passRecords c kind
      let st := m.streams.set x.1.1 ((streamOf m x.1.1).drop x.1.2)
      ∃ s' m', exec (.passPerform k) s = .next (settle (closeChains (checkKinds s' p.team) p.team)) ∧
        (s'.cluster k).pass = none ∧ s'.team? p.team = some m' ∧
        (s'.cluster k).resv = ((s.cluster k).resv.filter fun r =>
          !(r.team == p.team && r.ctx == p.ctx && r.number == p.number)) ∧ SameMemory s s' ∧
        (let w := es.foldl (passOctet c kind ((streamOf m x.1.1).take x.1.2) ((streamOf m x.2.1).take x.2.2)) m
         m'.tiles = w.tiles ∧ m'.tflags = w.tflags) ∧
        m'.streams = (if es.all (·.kb) then st else st.set x.2.1 ((streamOf m x.2.1).drop x.2.2)) ∧
        (∀ e ∈ es, ∀ q, Tab.find s'.reqs e.req = some q → q.complete = true))) ∧
  (∀ c kind a b ρ row tile pt (m : Team) n, row < 64 → n < 256 → (passRow c kind a b ρ row tile pt m).tileWord tile row n =
    if n < litNcol c.lit then (passWord c kind a b ρ n (m.tileWord tile row n) (m.tileWord pt row n)).1
    else m.tileWord tile row n) ∧
  (∀ c a b ρ n t p, litFa c.lit = 3 → litFb c.lit = 3 → (passWord c 0 a b ρ n t p).1 = BitVec.ofInt 32 (t.toInt +
    ((List.range 32).map fun j => mantissa (sliceNat a (ρ * 32 + j) 1) 8 * mantissa (sliceNat b (n * 32 + j) 1) 8).foldl (· + ·) 0)) ∧
  (∀ s k j r, (s.cluster k).resv[j]? = some r → exec (.requestPromotion k j) s = .next
    (if r.bpri + r.risen + r.promoted < 3 ∧ r.issued + 1024 * (r.promoted + 1) ≤ s.now then
      s.setCluster k { s.cluster k with resv := (s.cluster k).resv.set j { r with promoted := r.promoted + 1 } } else s))

/-- R288 to R290: `bndmin` lowers the cell of the thread's cluster and its own core's copy where its value is lower, in the
launch's type; `bndrd` reads its core's copy. A cell that the launch does not declare faults F_PERM.
R289: every ten cycles the four copies of a cluster are lowered to its cells, and BOUND_PROPAGATION lowers every cell of a launch
with one number, and every copy of it, to the lowest of them.
That the core of the `bndmin` follows at once, and the others with the ten cycles, is the reading of log 36. -/
def Obligations.BoundCellsAreLoweredEverywhere : Prop :=
  (∀ s m t (n : BitVec 3) l, s.launch? m.launch = some l →
    (∀ a, Ready s m t (.bndmin n a) false [src2 a] →
      let low (old : DWord) : DWord :=
        if (if l.bndSign n.toNat then (rp t a).toInt < old.toInt else (rp t a).toNat < old.toNat) then rp t a else old
      (l.bndDecl n.toNat = false → exec (.bndmin n a) s = .next (threadFault s t .perm {})) ∧
      (l.bndDecl n.toNat = true → ∃ s1, exec (.bndmin n a) s = .next (advance s1 t (.bndmin n a)) ∧
        (FMap.get Cell.free (s1.cluster (clusterOf t.core)).cells n.toNat).value =
          low (FMap.get Cell.free (s.cluster (clusterOf t.core)).cells n.toNat).value ∧
        (s1.core t.core).copyOf n.toNat = low ((s.core t.core).copyOf n.toNat) ∧
        (∀ c, c ≠ t.core → s1.core c = s.core c) ∧
        SameMemory s s1 ∧ s1.threads = s.threads ∧ s1.teams = s.teams ∧ s1.reqs = s.reqs)) ∧
    (∀ d, Ready s m t (.bndrd n d) false [dst2 d] →
      (l.bndDecl n.toNat = false → exec (.bndrd n d) s = .next (threadFault s t .perm {})) ∧
      (l.bndDecl n.toNat = true →
        exec (.bndrd n d) s = .next (advance s (t.writePair d.toNat (FMap.get 0 (s.core t.core).bound n.toNat)) (.bndrd n d))))) ∧
  (∀ s k u l i, (FMap.get Cell.free (s.cluster k).cells i).owner = some u → s.launch? u = some l →
    FMap.wf Cell.free (s.cluster k).cells = true →
    (∀ c ∈ coresOf k, ((syncCopies s k).core c).copyOf i =
      lowerBound l i ((s.core c).copyOf i) (FMap.get Cell.free (s.cluster k).cells i).value) ∧
    SameMemory s (syncCopies s k) ∧ (syncCopies s k).threads = s.threads ∧ (syncCopies s k).clusters = s.clusters) ∧
  (∀ s u l i, s.launch? u = some l → cellClusters s u i ≠ [] →
    let values := (cellClusters s u i).flatMap fun k =>
      (FMap.get Cell.free (s.cluster k).cells i).value :: (coresOf k).map fun c => (s.core c).copyOf i
    ∃ s' low, exec (.boundPropagation u i) s = .next s' ∧ low ∈ values ∧ (∀ v ∈ values, lowerBound l i v low = low) ∧
      (∀ k ∈ cellClusters s u i, (FMap.get Cell.free (s'.cluster k).cells i).value = low ∧
        ∀ c ∈ coresOf k, (s'.core c).copyOf i = low) ∧
      SameMemory s s' ∧ s'.threads = s.threads ∧ s'.teams = s.teams)

/-- R218, R285 to R287: once the queued programs have taken the engines that are free, `mdgo` starts a program on an engine that
is still free, or queues it while fewer than 16 wait: the program stands at the entry with its sequence number in m0 and the
arguments in m1 to m7, D becomes its handle and class md counts it. With no engine free and 16 queued D becomes 0; a misaligned
entry faults F_ALIGN. `mdkill` ends the program that its handle names, with STATUS 0x02; `mdstat` gives its state.
R218: MORDANT_DISPATCH gives a free engine to the program that has waited 65,536 cycles, else to the oldest of the highest
priority.
That the lowest free engine is taken is the model's (log 81), that `mdkill` acts at once the reading of log 42; an event before
its time changes nothing (log 2). -/
def Obligations.ProgramsAreStartedDispatchedAndStopped : Prop :=
  ((∀ s m t d a b, Ready s m t (.mdgo d a b) false [src2 a, srcN b 14 2, dst1 d] → acqPending s t.team t.tix = false →
    let k := clusterOf t.core
    let seq := (s.die (dieOf t.core)).mdSeq
    let s0 := dispatchQueued s k
    let engine := freeEngine s0 k
    ((rp t a).toNat % 8 ≠ 0 → exec (.mdgo d a b) s = .next (threadFault s t .align { addr := (rp t a).toNat })) ∧
    ((rp t a).toNat % 8 = 0 → engine = none → 16 ≤ (s0.cluster k).queue.length →
      exec (.mdgo d a b) s = .next (advance s0 (t.write d.toNat 0) (.mdgo d a b))) ∧
    ((rp t a).toNat % 8 = 0 → engine ≠ none ∨ (s0.cluster k).queue.length < 16 →
      countFull s t .md = false → ∃ s1 p r,
      exec (.mdgo d a b) s = .next (advance s1 (t.write d.toNat (BitVec.ofNat 32 (2 ^ 31 + seq.toNat % 2 ^ 28))) (.mdgo d a b)) ∧
      s1.program? s.uid = some p ∧ p.team = t.team ∧ p.cluster = k ∧ p.engine = engine ∧ p.pc = rp t a ∧
      p.seq = seq ∧ p.starter = t.tix ∧ p.buffered = holdsBuffered s m t ∧ p.mreg 0 = seq.setWidth 64 ∧
        (∀ j, j < 7 → p.mreg (BitVec.ofNat 5 (j + 1)) = t.pair (b.r.toNat + 2 * j)) ∧
      s1.reqs = s.reqs ++ [(s.uid + 1, r)] ∧ Issued t r (some .md) (.mdRun s.uid) ∧
      (s1.die (dieOf t.core)).mdSeq = seq + 1 ∧
      (s1.cluster k).queue = (if engine.isNone then (s0.cluster k).queue ++ [s.uid] else (s0.cluster k).queue) ∧
      SameMemory s s1 ∧ s1.threads = s.threads ∧ s1.teams = s.teams)) ∧
  (∀ s m t a, Ready s m t (.mdkill a) false [src1 a] →
    (handleProgram s t.team ((rw t a).toNat % 2 ^ 28) = none → exec (.mdkill a) s = .next (advance s t (.mdkill a))) ∧
    (∀ u p, handleProgram s t.team ((rw t a).toNat % 2 ^ 28) = some (u, p) →
      exec (.mdkill a) s = .next (killProgram (advance s t (.mdkill a)) u))) ∧
  (∀ s u p, s.program? u = some p → p.ending = none → p.stalled = none → pendingOf s u = [] →
    killProgram s u = finishProgram (leaveMordantQueue s u p) u p ⟨2, 0, 0, 0⟩) ∧
  (∀ s u p, leaveMordantQueue s u p = if p.system.isSome then s else
    s.setCluster p.cluster { s.cluster p.cluster with queue := (s.cluster p.cluster).queue.filter (· != u) }) ∧
  (∀ s m t d a, Ready s m t (.mdstat d a) false [src1 a, dst1 d] →
    exec (.mdstat d a) s = .next (advance s (t.write d.toNat (match handleProgram s t.team ((rw t a).toNat % 2 ^ 28) with
      | none => 0
      | some (_, p) => match p.engine with
        | none => 1
        | some e => BitVec.ofNat 32 ((if p.wait then 3 else 2) + 4 * e))) (.mdstat d a)))) ∧
  ((∀ s k e u, freeEngine s k = some e → chooseQueued s (s.cluster k).queue = some u → exec (.mordantDispatch k) s = .next
    ((s.setCluster k { s.cluster k with queue := (s.cluster k).queue.filter (· != u) }).updProgram u fun p =>
      { p with engine := some e })) ∧
  (∀ s k, freeEngine s k = none ∨ chooseQueued s (s.cluster k).queue = none → exec (.mordantDispatch k) s = .next s) ∧
  (∀ s k, freeEngine s k = none ∨ (s.cluster k).queue = [] → dispatchQueued s k = s) ∧
  (∀ s k s1 s2 s3, exec (.mordantDispatch k) s = .next s1 → exec (.mordantDispatch k) s1 = .next s2 →
    exec (.mordantDispatch k) s2 = .next s3 → exec (.mordantDispatch k) s3 = .next (dispatchQueued s k)) ∧
  (∀ s k e, freeEngine s k = some e → e < 4 ∧ engineBusy s k e = false ∧ ∀ j, j < e → engineBusy s k j = true) ∧
  (∀ s before u after p, s.program? u = some p → (∀ v ∈ before, ∀ q, s.program? v = some q →
      ¬q.since + 65536 ≤ s.now ∧ (¬p.since + 65536 ≤ s.now → q.pri < p.pri)) →
    (¬p.since + 65536 ≤ s.now → ∀ v ∈ after, ∀ q, s.program? v = some q → ¬q.since + 65536 ≤ s.now ∧ q.pri ≤ p.pri) →
    chooseQueued s (before ++ u :: after) = some u))

/-! ## Teams: ends, watchdogs, phases, slices (R148, R150, R168, R177, R327, R330) -/

/-- R148, R150, R330: a team on its core, which may wait for a save, that has not retired for 2^24 cycles, and one with a thread
in trap mode 65,536 cycles after its pre-emption was asked for, end with F_WATCHDOG; the teardown of a faulted team whose
programs have ended, whose accesses are performed and whose registers stand on its core removes its threads and counts it in its
launch. PC and SLOT of the record are free values (log 45); an event before its time changes nothing (log 2). -/
def Obligations.FaultedTeamsAreTakenDown : Prop :=
  (∀ s u m l, s.team? u = some m → s.launch? m.launch = some l →
    (m.stage = .resident ∨ m.stage = .stopping → 2 ^ 24 ≤ m.wd s.now →
      ∃ s', exec (.watchdogExpiry u) s = .next s' ∧ FaultsTeam s s' u m l .watchdog 0) ∧
    ((m.stage ≠ .resident ∧ m.stage ≠ .stopping) ∨ m.wd s.now < 2 ^ 24 → exec (.watchdogExpiry u) s = .next s)) ∧
  (∀ s u m l t0, s.team? u = some m → s.launch? m.launch = some l → m.preempt = some t0 →
    let expired := m.stage = .resident ∧ t0 + 65536 ≤ s.now ∧ ∃ t ∈ s.teamThreads u, t.live = true ∧ t.mode = true
    (expired → ∃ s', exec (.trapModeWindowExpiry u) s = .next s' ∧ FaultsTeam s s' u m l .watchdog 0) ∧
    (¬expired → exec (.trapModeWindowExpiry u) s = .next s)) ∧
  (∀ s u m l, s.team? u = some m → m.stage = .ending → s.launch? m.launch = some l → programsOf s u = [] → l.refused = 0 →
    teamBusy s u = false → fillsPending s u = false → inRecord s u m = false → m.buffers = true ∨ drainLeft s m.core u = false →
    l.ndone + 1 < l.nteam → ∃ s' m' l', exec (.teamTeardown u) s = .next s' ∧ s'.team? u = some m' ∧ m'.stage = .ended ∧
      s'.launch? m.launch = some l' ∧ l'.ndone = l.ndone + 1 ∧ l'.nflt = l.nflt + 1 ∧ s'.teamThreads u = [] ∧ SameMemory s s')

/-- R168, R173, R177: at a boundary that all live threads have reached, a team whose next phase is not idempotent and needs no
more granules goes on in place: its threads keep the carried registers and stand at the next phase. A discard frees the
buffered sectors unperformed, releases the team and asks for its readmission.
That granules alone decide is the reading of log 41; an event before its time changes nothing (log 2). -/
def Obligations.PhasesEndInPlaceOrAreDiscarded : Prop :=
  (∀ s u m l t0 rest, s.team? u = some m → m.stage = .resident → m.area = none → m.idem = false → s.launch? m.launch = some l →
    liveOf s u = t0 :: rest → (∀ t ∈ s.teamThreads u, s.thread? u t.tix = some t) →
    (∀ t ∈ liveOf s u, t.place = .held .boundary ∧ t.pc = t0.pc ∧ producing t = false ∧ loadsPending s u t.tix = false) →
    bufferBusy s u = false → (∀ e ∈ (s.core m.core).psb, e.team ≠ u) →
    let next := l.ph (m.phase + 1)
    phIdem next = false → granulesFor (phNreg next) ≤ granulesFor m.nreg → ∃ s', exec (.phaseBoundary u) s = .next s' ∧
      s'.team? u = some { m with phase := m.phase + 1, nreg := phNreg next, idem := false, demoted := false,
                                 phaddr := t0.pc + 8, area := none } ∧
      (∀ t ∈ liveOf s u, WaitsAt s' { keepRegs (phCarry (l.ph m.phase)) t with
        gmap := t.gmap.take (granulesFor (phNreg next)) } (t.pc + 8)) ∧ SameMemory s s') ∧
  (∀ s u m, s.team? u = some m → (∃ t ∈ liveOf s u, t.place ≠ .held .boundary) → exec (.phaseBoundary u) s = .next s) ∧
  (∀ s u m, s.team? u = some m → discardable s u m = true → programsOf s u = [] → ∃ s' m', exec (.phaseDiscard u) s = .next s' ∧
    s'.team? u = some m' ∧ m'.stage = .discarded ∧ m'.preempt = none ∧
    (s'.core m.core).psb = (s.core m.core).psb.filter (fun e => e.team != u) ∧
    (s'.core m.core).admission = ((s.core m.core).admission.filter fun a => a.team != u) ++ [⟨u, s.now, false⟩] ∧
    SameMemory s s') ∧
  (∀ s u m, s.team? u = some m → discardable s u m = false → exec (.phaseDiscard u) s = .next s) ∧
  (∀ s c x, (s.core c).slices = [x] → exec (.sliceEnd c) s = .next
    (if x.start + x.length ≤ s.now then
      match residentPri s c x.fn with
      | none => s.setCore c { s.core c with slices := [] }
      | some pri =>
        if contender s c x.fn pri then askPreempt (s.setCore c { s.core c with slices := [] }) c x.fn
        else s.setCore c { s.core c with slices := [{ x with start := s.now, length := (s.fn x.fn).wgt.toNat * 65536 }] }
    else s))

/-- R327, R328, R380: a team whose pre-emption was asked for stops at instruction boundaries once no thread is in trap mode, is
written to the save area once it has drained, and leaves the core; a saved team is restored, in its turn, on a cluster where
every saved member of its cluster team fits; one whose phase was discarded asks for readmission there.
The place of the record and the kept image are the model's (log 69, 70); PRIV after a restore is the reading of log
71. -/
def Obligations.TeamsAreSavedAndRestored : Prop :=
  (∀ s u m, s.team? u = some m → m.preempt.isSome = true → m.buffers = false → m.area = none → m.stage = .resident →
    (inTrap s u = true → exec (.teamSave u) s = .next s) ∧
    (inTrap s u = false → ∃ s' m', exec (.teamSave u) s = .next s' ∧ s'.team? u = some m' ∧ m'.stage = .stopping ∧
      m'.wdSince = m.wdSince ∧ m'.wdCount = m.wdCount ∧ SameMemory s s' ∧
      ∀ t, s.thread? u t.tix = some t → t.team = u → t.place = .table ∨ t.place = .row →
        ∃ t' born, s'.thread? u t.tix = some t' ∧ t'.place = .held (.save born))) ∧
  (∀ s u m, s.team? u = some m → m.preempt.isSome = true → m.buffers = false → m.area = none → m.stage = .stopping →
    (s.fn (fnOfTeam s m)).mig = .none → let s0 := haltThreads s u m
    (teamQuiet s0 u m = false → exec (.teamSave u) s = .next s0) ∧
    (teamQuiet s0 u m = true → ∀ s1 bs s2, imageOf s0 u = (s1, bs) →
      saveWrite s1 (fnOfTeam s0 m) (saveOffset s0 (fnOfTeam s0 m)) bs = (s2, .done) → (s2.team? u).isSome = true →
      ∃ s' m', exec (.teamSave u) s = .next s' ∧ s'.team? u = some m' ∧ m'.stage = .saved ∧ m'.image = bs ∧
        m'.preempt = none ∧ s'.teamThreads u = [] ∧ (∀ p ∈ s'.programs, p.2.team = u → p.2.system.isSome = true) ∧
        SameMemory s2 s')) ∧
  (∀ s u m l k, s.team? u = some m → s.launch? m.launch = some l → m.stage = .saved → k < 128 →
    let recs := (savedMates s m l).filterMap fun p => (readImage p.2.image).map fun r => (p.1, p.2, r)
    let free := (coresOf k).filter fun c => !(placedMates s m l).any fun p => p.2.core == c
    let may := (s.fn l.fn).restores = true ∧ ownsCluster s l.fn k = true ∧ l.unread = false ∧
      (∀ p ∈ placedMates s m l, clusterOf p.2.core = k) ∧ clusterFits s m.launch l (recs.map (·.2.2)) k = true
    (¬may ∨ seatAll s l recs free = none ∨ restoresNext s l = false → exec (.teamRestore u k) s = .next s) ∧
    (∀ r core s1, may → restoresNext s l = true → placedMates s m l = [] → recs = [(u, m, r)] →
      seatAll s l recs free = some [(u, r, core)] → restoreMember s u r core = s1 →
      exec (.teamRestore u k) s = .next
        (let s2 := reshareGens s1 ([u].filter fun u => ((s1.team? u).map Team.holds).getD false)
         releaseIdle (settle (checkTeamEnd (closeChains s2 u) u)) m.launch) ∧
      (r.discarded = true → (s1.core core).admission = (s.core core).admission ++ [⟨u, s.now, false⟩])) ∧
    (∀ r core x t, r.discarded = false → x < r.nthr → threadFromRec l r u x core m.erets = t →
      t.pc.toNat = sliceNat (r.thread x) 0 8 / 8 * 8 ∧ t.fpctl.toNat = sliceNat (r.thread x) 16 4 % 64 ∧
      t.fflags.toNat = sliceNat (r.thread x) 20 4 % 32 ∧
      t.trapcause = BitVec.ofNat 32 (sliceNat (r.thread x) 24 4) &&& 0x03FFFF01 ∧
      t.trapvec.toNat = sliceNat (r.thread x) 32 8 / 8 * 8 ∧ t.trappc.toNat = sliceNat (r.thread x) 40 8 / 8 * 8 ∧
      t.slot = r.slot x))

/-! ## Placement, admission and the launch queues (R166, R167, R319 to R325, R333, R354) -/

/-- R167, R324 to R326, R328, R354: the first launch in order is placed on the die and cluster chosen for it once its leases
have been walked: a cluster that its function holds and that no bound cell keeps from it; a team that is to be restored comes
before new placements of its priority. A team that fits on its core becomes resident with every thread at its phase's first
instruction; a request that has waited 65,536 cycles is reserved. Ties among places and the numbers chosen are the model's (log
81, 82); an event before its time changes nothing (log 2). -/
def Obligations.TeamsArePlacedAndAdmitted : Prop :=
  (∀ s d, newPlacements s d = [] → exec (.clusterTeamPlacement d) s = .next s) ∧
  (∀ s d x, x ∈ newPlacements s d → x ∈ placeable s d ∧ ∀ l ∈ restorables s d, l.pri < x.2.pri) ∧
  (∀ s u l n s1 die cores, chooseCores s u l n = (s1, some (die, cores)) →
    ∃ k, k / 32 = die ∧ ownsCluster s1 l.fn k = true ∧ cellConflict s1 u l k = false ∧ ∀ c ∈ cores, clusterOf c = k) ∧
  (∀ s d u l rest s1 die cores, newPlacements s d = (u, l) :: rest → chooseCores s u l l.nextTeam = (s1, some (die, cores)) →
    (∀ s2, walkAll die l.fn (leaseSteps l) s1 = (s2, .short) → exec (.clusterTeamPlacement d) s = .next (cancelLaunch s2 u 0x14)) ∧
    (∀ s2 ipa va info, walkAll die l.fn (leaseSteps l) s1 = (s2, .missing ipa va info) → ∃ k s3,
      raiseEvent s2 0x04 l.fn (BitVec.ofNat 64 ipa) info (.lease u) (BitVec.ofNat 64 va) = (k, s3) ∧
      exec (.clusterTeamPlacement d) s = .next (s3.updLaunch u fun l => { l with token := some k })) ∧
    (∀ s2, walkAll die l.fn (leaseSteps l) s1 = (s2, .done) → s2.launch? u = some l → ∃ s', exec (.clusterTeamPlacement d) s = .next s' ∧
      s'.launch? u = some { l with stage := .running, nextTeam := l.nextTeam + cores.length } ∧
      s'.teams.map (·.2) = s2.teams.map (·.2) ++ (List.range cores.length).map fun i =>
        newTeam u (l.nextTeam + i) (cores.getD i 0) l)) ∧
  (∀ s c u m l groups since reserved, (s.core c).admission = [⟨u, since, reserved⟩] → s.team? u = some m → m.core = c →
    m.stage = .waiting → s.launch? m.launch = some l → membersOf s m = [(u, m)] → ownsCluster s l.fn (clusterOf c) = true →
    (groupsFor s m = none → exec (.teamAdmission c) s = .next s) ∧
    (groupsFor s m = some groups → (s.fn l.fn).mig = .none → coreRoom s m l.dq = true →
      clusterRoom s m.launch l (clusterOf c) 1 = true → m.nthr ≤ 1024 → m.idem = false → m.area = none →
      (nextGen s c u).isSome = true →
      ∃ s' m', exec (.teamAdmission c) s = .next s' ∧ s'.team? u = some m' ∧ m'.stage = .resident ∧ m'.groups = groups ∧
      m'.wdSince = some s.now ∧ m'.streams = List.replicate l.str [] ∧ SameMemory s s' ∧ (s'.core c).admission = [] ∧
      ∀ x, x < m.nthr → ∃ t, s'.thread? u x = some t ∧ t.core = c ∧ t.pc = m.phaddr ∧ t.regs = [] ∧ t.place = .table ∧
        t.slot = (groups.getD (x / m.w) (0, 0)).1 + x % m.w + 64 * (groups.getD (x / m.w) (0, 0)).2 ∧ t.fpctl = 0 ∧
        t.fflags = 0 ∧ t.trapcause = 0 ∧ t.trapvec = BitVec.ofNat 64 (l.trapvec / 8 * 8) ∧ t.priv = l.priv)) ∧
  (∀ s c a rest m, (s.core c).admission = a :: rest → s.team? a.team = some m → exec (.admissionReservation c) s = .next
    (if a.since + 65536 ≤ s.now then reserve s (if m.stage = .waiting then (membersOf s m).map (·.1) else [a.team]) else s))

/-- R319, R320, R321, R323, R333: TAIL and CFG are written as their rules say from stage 2 on, and not before it (R387 of
20_package_management.md, in the reading of log 59); LAUNCH_READ copies the record at HEAD, numbers the
launch and brings it to the gate; a gated launch is tested again; a launch that waits rises in priority for each 2^24 cycles;
the samples of the four dies make a round, and two clean rounds with equal sums make a launch quiescent.
That EN resets the queue only from 0 to 1 is the reading of log 32, and the sampling of a die that of log 46; an event
before its time changes nothing (log 2). -/
def Obligations.LaunchesAreReadAndWait : Prop :=
  (∀ s f q x, booted s = true → let l := s.lq f q
    exec (.launchQueueNotify f q x) s = .next (s.setLq f q
      (if (lowWord x - l.head).toNat ≤ 2 ^ l.log then { l with tail := lowWord x } else { l with badt := true })) ∧
    exec (.launchQueueConfig f q x) s = .next (s.setLq f q
      (if l.en then { l with en := x.getLsbD 0 }
       else if x.getLsbD 0 then { l with en := true, log := Nat.min (x.toNat / 256 % 16) 10, head := 0, tail := 0 }
       else { l with log := Nat.min (x.toNat / 256 % 16) 10 }))) ∧
  (∀ s f q, booted s = false → ∀ x, exec (.launchQueueNotify f q x) s = .next s ∧ exec (.launchQueueConfig f q x) s = .next s) ∧
  (∀ s f q, let l := s.lq f q
    (mayRead (s.fn f) = false ∨ l.en = false ∨ l.head = l.tail ∨ l.stalled.isSome = true ∨ queueGated s f q = true →
      exec (.launchRead f q) s = .next s) ∧
    (mayRead (s.fn f) = true → l.en = true → l.head ≠ l.tail → l.stalled = none → queueGated s f q = false →
      ∀ s1 pa, ipaAccess s f (l.slotAddr l.head) .r = (s1, some (.hbm pa)) →
      (poisonedAt s1 pa 512 = true → exec (.launchRead f q) s = .next
        (s1.setLq f q { s1.lq f q with head := (s1.lq f q).head + 1, rdf := true, stalled := none })) ∧
      (poisonedAt s1 pa 512 = false → (s1.fn f).state ≠ 3 → (∀ u, s1.uid ≤ u → Tab.find s1.launches u = none) → ∃ s2 u,
        exec (.launchRead f q) s = .next (gateStep s2 u) ∧ s1.launch? u = none ∧
        s2.launch? u = some (newLaunch s1 f q (s1.die (q % 4)).laSeq (readBytes s1 pa 512)) ∧
        (s2.lq f q).head = (s1.lq f q).head + 1 ∧ (s2.die (q % 4)).laSeq = (s1.die (q % 4)).laSeq + 1 ∧ SameMemory s1 s2))) ∧
  (∀ s u l, s.launch? u = some l → exec (.dependenceRecheck u) s = .next
    (if (s.fn l.fn).mig = .none then gateStep s u else s)) ∧
  (∀ s u l, s.launch? u = some l → l.stage = .gated → l.token = none → l.ndep = 0 → gateStep s u =
    checkLaunch (s.updLaunch u fun l => { l with recheck := false }) u l) ∧
  (∀ s u l, s.launch? u = some l → exec (.launchPriorityAging u) s = .next
    (if (l.stage = .checked ∨ l.stage = .running) ∧ l.nextTeam < l.nteam ∧ l.pri < 3 ∧
        l.since + 2 ^ 24 * (l.pri - l.ctlPri + 1) ≤ s.now then s.updLaunch u fun l => { l with pri := l.pri + 1 } else s)) ∧
  (∀ s u l d, s.launch? u = some l →
    (¬(l.isOpen = true ∧ l.stage = .running) → exec (.quiescenceRound u d) s = .next s) ∧
    (l.isOpen = true → l.stage = .running → let ss := Tab.put l.samples d (sampleOn s u l d)
      (ss.length < 4 → exec (.quiescenceRound u d) s = .next (s.updLaunch u fun l => { l with samples := ss })) ∧
      (4 ≤ ss.length → let x := combineSamples (ss.map (·.2))
        let q : Bool := match l.last with
          | some y => y.idle && y.empty && y.sent == y.recv && x.idle && x.empty && x.sent == x.recv && y.sent == x.sent &&
            y.recv == x.recv
          | none => false
        let s1 := s.updLaunch u fun l => { l with samples := [], last := some x, quiescent := l.quiescent || q }
        exec (.quiescenceRound u d) s = .next (if q then checkLaunchEnd (releaseIdle s1 u) u else s1))))

/-! ## The hypervisor, the walker, pages, pins, hashing, system programs (R149, R344 to R348, R353, R356, R374 to R377, R417) -/

/-- R149, R353, R356, R363, R417: an answer reaches what waits under its token; an area access not answered within 120,000 cycles
fails; the oldest event goes to the ring where it is enabled and has room; the walker fills both TLBs.
That VALUE is kept is the reading of log 52, F_SAVE for a deque area that of log 77, and that a record goes to memory
alone that of log 53; PC and SLOT of the record of an area fault are free values (log 45). -/
def Obligations.StallsAreReportedAndAnswered : Prop :=
  (∀ s (x : DWord), booted s = true → let k := x.toNat % 2 ^ 32
    let s0 : State := { s with pkg := { s.pkg with hvValue := highWord x } }
    (Tab.find s.pkg.waits k = none → exec (.hvAnswer x) s = .next s0) ∧
    (∀ w, Tab.find s.pkg.waits k = some w →
      (∀ u tix t m, w.who = .thread u tix → s.thread? u tix = some t → t.place = .stalled k → s.team? u = some m →
        m.stage ≠ .stopping →
        (highWord x = 0 → exec (.hvAnswer x) s = .next (arrive (dropWait s0 k) t t.pc)) ∧
        (highWord x ≠ 0 → exec (.hvAnswer x) s = .next
          (threadFault (dropWait s0 k) t (if w.type = 0x0A then .save else .perm) { addr := w.va.toNat }))) ∧
      (∀ u p, w.who = .program u → s.program? u = some p → p.stalled = some k →
        let s1 := (dropWait s0 k).updProgram u fun p => { p with stalled := none }
        exec (.hvAnswer x) s = .next (if highWord x = 0 then s1 else mFault s1 u .refused w.va.toNat)) ∧
      (∀ u l, w.who = .lease u → s.launch? u = some l → l.token = some k →
        let s1 := (dropWait s0 k).updLaunch u fun l => { l with token := none }
        exec (.hvAnswer x) s = .next (if highWord x = 0 then s1 else cancelLaunch s1 u 0x14)) ∧
      (∀ u tix, w.who = .hcall u tix → exec (.hvAnswer x) s = .next (fillCall (dropWait s0 k) u tix (highWord x))) ∧
      (∀ f q, w.who = .queue f q → (s.lq f q).stalled = some k → let l := s.lq f q
        exec (.hvAnswer x) s = .next ((dropWait s0 k).setLq f q (if highWord x = 0 then { l with stalled := none }
          else { l with head := l.head + 1, rdf := true, stalled := none }))))) ∧
  (∀ s k w, Tab.find s.pkg.waits k = some w →
    (¬(w.type = 0x0A ∧ w.since + 120000 ≤ s.now) → exec (.areaStallTimeout k) s = .next s) ∧
    (w.type = 0x0A → w.since + 120000 ≤ s.now → ∀ u m l va bs lq sig, w.who = .area m.launch va bs u lq sig → u ≠ 0 →
      s.team? u = some m → m.area = some k → s.launch? m.launch = some l → ∃ s' s1, exec (.areaStallTimeout k) s = .next s' ∧
        SameMemory s s1 ∧ FaultsTeam s1 s' u { m with area := none } l .save va.toNat)) ∧
  (∀ s, (s.pkg.hvEvents = [] ∨ s.pkg.hvrEn = false ∨ (s.pkg.hvrTail - s.pkg.hvrHead).toNat = 2 ^ s.pkg.hvrLog →
      exec .hvEventWrite s = .next s) ∧
    (∀ e rest, s.pkg.hvEvents = e :: rest → s.pkg.hvrEn = true →
      (s.pkg.hvrTail - s.pkg.hvrHead).toNat ≠ 2 ^ s.pkg.hvrLog →
      let a := s.pkg.hvrBase.toNat / 4096 * 4096 + 32 * (s.pkg.hvrTail.toNat % 2 ^ s.pkg.hvrLog)
      isHbm a = true ∨ isHost a = true → Plain s a 32 → ∃ s', exec .hvEventWrite s = .next s' ∧ s'.pkg.hvEvents = rest ∧
        s'.pkg.hvSeq = s.pkg.hvSeq + 1 ∧ s'.pkg.hvrTail = s.pkg.hvrTail + 1 ∧ SameMemoryOutside s s' a 32 ∧
        leNat (readBytes s' a 6) = s.pkg.hvSeq.toNat ∧ leNat (readBytes s' (a + 6) 1) = e.type % 256 ∧
        leNat (readBytes s' (a + 7) 1) = e.fn % 256 ∧ leNat (readBytes s' (a + 8) 8) = e.addr.toNat ∧
        leNat (readBytes s' (a + 16) 8) = e.time % 2 ^ 64 ∧ leNat (readBytes s' (a + 24) 4) = e.token % 2 ^ 32 ∧
        leNat (readBytes s' (a + 28) 1) = e.info % 256)) ∧
  (∀ s d, (s.die d).walks = [] → exec (.tlbWalk d) s = .next s) ∧
  (∀ s d k f va rest r reads, (s.die d).walks = (k, f, va) :: rest → let s1 := s.setDie d { s.die d with walks := rest }
    walk s1 f va = (r, reads) → let s2 := reads.foldl (fun s a => llcRead s f a 8) s1
    exec (.tlbWalk d) s = .next (match r with
      | .ok log d1 d2 ipa log2 => (s2.useTlb (.dieOnly d) (xlatOf f va log d1 d2 ipa log2)).useTlb (.mordant k)
          (xlatOf f va log d1 d2 ipa log2)
      | .bad1 | .miss2 _ _ => s2))

/-- R344, R345, R347, R374 to R377: pins, the channel hash and the page pool change in two steps, the second of which zeroes the
bytes concerned; a request that may not be made sets its error bit alone; a system program starts with its registers.
An event before its time changes nothing (log 2). -/
def Obligations.PinsHashPagesAndSystemPrograms : Prop :=
  (∀ s (x : DWord), booted s = true → x.getLsbD 63 = true → x.getLsbD 62 = false →
    let g : BitVec 17 := BitVec.ofNat 17 x.toNat
    let refused := s.pkg.pinGo = true ∨ 73727 < g.toNat ∨ x.toNat / 2 ^ 17 % 2 ^ 15 ≠ 0 ∨ x.toNat / 2 ^ 33 % 2 ^ 29 ≠ 0 ∨
      g.toNat % 18432 = 18431
    (refused → exec (.pinSet x) s = .next { s with pkg := { s.pkg with pinErr := true } }) ∧
    (¬refused → exec (.pinSet x) s = .next { s with pkg := { s.pkg with
      pinGo := true, pinGroup := g, pinTarget := g, pinMode := x.getLsbD 32 } })) ∧
  (∀ s (x : DWord), booted s = true → x.getLsbD 63 = false → exec (.pinSet x) s = .next { s with pkg := { s.pkg with
    pinGroup := BitVec.ofNat 17 x.toNat, pinErr := s.pkg.pinErr && !x.getLsbD 62 } }) ∧
  (∀ s, s.pkg.pinGo = true → ∃ s', exec .pinSetDone s = .next s' ∧ s'.pkg.pinGo = false ∧
    s'.pkg.pins = FMap.set false s.pkg.pins s.pkg.pinTarget.toNat s.pkg.pinMode ∧
    (∀ a, groupBase s.pkg.pinTarget.toNat ≤ a → a < groupBase s.pkg.pinTarget.toNat + 6 * 2 ^ 20 → readByte s' a = 0) ∧
    SameMemoryOutside s s' (groupBase s.pkg.pinTarget.toNat) (6 * 2 ^ 20)) ∧
  (∀ s, s.pkg.pinGo = false → exec .pinSetDone s = .next s) ∧
  (∀ s, booted s = true → exec .hashApply s = .next (if applyAllowed s then
      { s with pkg := { s.pkg with apply := true, checked := s.pkg.hash, checkedP := s.pkg.hashP } }
    else { s with pkg := { s.pkg with hashErr := true } })) ∧
  (∀ s, s.pkg.apply = true → ∃ s', exec .hashApplyDone s = .next s' ∧ s'.pkg.apply = false ∧ s'.pkg.inForce = s.pkg.checked ∧
    s'.pkg.inForceP = s.pkg.checkedP ∧ (∀ a, isHbm a = true → readByte s' a = 0) ∧ (∀ a, isHbm a = false → readByte s' a = readByte s a)) ∧
  (∀ s, s.pkg.apply = false → exec .hashApplyDone s = .next s) ∧
  (∀ s (x : DWord), booted s = true → x.getLsbD 0 = false → let page := x.toNat / 2 ^ 21
    (x.toNat / 2 % 2 ^ 20 ≠ 0 ∨ poolPage page = false ∨ pageClean s page = true ∨ page ∈ s.pkg.queued →
      exec (.pageFree x) s = .next { s with pkg := { s.pkg with freeErr := true } }) ∧
    (x.toNat / 2 % 2 ^ 20 = 0 → poolPage page = true → pageClean s page = false → page ∉ s.pkg.queued →
      exec (.pageFree x) s = .next { s with pkg := { s.pkg with
        taken := FMap.set false s.pkg.taken page false, queued := s.pkg.queued ++ [page] } })) ∧
  (∀ s, booted s = true → s.pkg.allocHeld = 0 →
    (∀ p, lowestClean s (searchSteps s) 0 = some p → exec .pageAlloc s = .next { s with pkg := { s.pkg with
      taken := FMap.set false s.pkg.taken p true, readback := leBytes 8 (p * 2 ^ 21) } }) ∧
    (lowestClean s (searchSteps s) 0 = none → exec .pageAlloc s = .next
      (if s.pkg.queued = [] then { s with pkg := { s.pkg with readback := leBytes 8 0 } }
       else { s with pkg := { s.pkg with allocHeld := 1, readback := [] } }))) ∧
  (∀ s p rest, s.pkg.queued = p :: rest → ∃ s1, exec .pageScrubDone s = .next (serveHeld s.pkg.allocHeld s1) ∧
    s1.pkg = { s.pkg with queued := rest.filter (· != p), pccnt := s1.pkg.pccnt } ∧
    s1.mem = zeroRange s.mem (p * 2 ^ 21) (p * 2 ^ 21 + 2 ^ 21)) ∧
  (∀ s n, (lowestClean s (searchSteps s) 0 = none → serveHeld (n + 1) s = s) ∧
    (∀ p, lowestClean s (searchSteps s) 0 = some p → serveHeld (n + 1) s = serveHeld n { s with pkg := { s.pkg with
      taken := FMap.set false s.pkg.taken p true, readback := leBytes 8 (p * 2 ^ 21), allocHeld := s.pkg.allocHeld - 1 } })) ∧
  (∀ s d (x : DWord), booted s = true →
    (systemBusy s d = true → exec (.systemMordantStart d x) s =
      .next (s.setDie d { s.die d with smStat := (s.die d).smStat ||| 2 })) ∧
    (systemBusy s d = false → ∃ s' p, exec (.systemMordantStart d x) s = .next s' ∧ s'.program? s.uid = some p ∧
      p.system = some d ∧ p.pc.toNat = x.toNat / 8 * 8 ∧ p.seq = (s.die d).mdSeq ∧ p.mreg 1 = (s.die d).smArg ∧
      (s'.die d).mdSeq = (s.die d).mdSeq + 1 ∧ SameMemory s s'))

/-! ## Functions: control, resets, migration (R367, R370, R371, R380 to R386) -/

/-- R367, R370, R371: a reset is remembered; with no stop in progress it ends the function's teams, and once they have ended it
clears RST, returns the queues to their reset values and leaves STATE 0, on function 0 too; PK_FNCTL and the cluster masks are
written as R370 and R371 say.
R380 to R386, R406: STOP of an active function begins its stop phase and pre-empts its teams; QDONE, then SDONE; COMMIT frees
the function; ABORT and a failed save make it active again with ABORTED and STATE 1; RESTORE begins on an idle function and loads
its save area, and a failure leaves it context-lost, with STATE 3 and STATUS 0x17 in the records of the launches that it has.
Out of place, each sets ERR alone.
When a reset is taken before stage 2 is the reading of log 59, the refusal of a write with EN, what a reset and a COMMIT leave,
when a RESTORE ends and the refusal of a second one are readings (log 72, 74, 76, 78, 123); what an ABORT leaves in the save area
is free values (log 88); an event before its time changes nothing (log 2). -/
def Obligations.FunctionsAreControlledResetAndMigrated : Prop :=
  ((∀ s f, exec (.functionLevelReset f) s = .next
      (if booted s = true ∨ (f = 0 ∧ s.och.stage ≠ 0) then s.setFn f { s.fn f with resetAsked := true } else s)) ∧
  (∀ s f, booted s = true → exec (.functionReset f) s = .next (s.setFn f { s.fn f with resetAsked := true, rst := true })) ∧
  (∀ s f, (s.fn f).resetAsked = false ∨ (s.fn f).stopInProgress = true → exec (.functionResetDone f) s = .next s) ∧
  (∀ s f, (s.fn f).resetAsked = true → (s.fn f).stopInProgress = false → (∀ p ∈ fnTeams s f, p.2.stage = .ended) →
    ∃ s', exec (.functionResetDone f) s = .next s' ∧
    (s'.fn f).state = 0 ∧ (s'.fn f).rst = false ∧ (s'.fn f).resetAsked = false ∧ ∀ q, q < 32 → s'.lq f q = LQ.reset) ∧
  (∀ s f u m, (s.fn f).resetAsked = true → (s.fn f).stopInProgress = false → s.teams = [(u, m)] → fnOfTeam s m = f →
    m.stage = .resident ∨ m.stage = .spilled → programsOf s u = [] → ∃ s' m', exec (.functionResetDone f) s = .next s' ∧
    (s'.fn f).resetAsked = true ∧ s'.team? u = some m' ∧ m'.stage = .ending) ∧
  (∀ s f (x : DWord), booted s = true → let r := s.fn f
    (x.getLsbD 0 = true → (r.state = 2 ∨ r.state = 3 ∨ r.stopInProgress = true) →
      exec (.functionEnable f x) s = .next (s.setFn f { r with err := true })) ∧
    (x.getLsbD 0 = false ∨ (r.state ≠ 2 ∧ r.state ≠ 3 ∧ r.stopInProgress = false ∧ (f = 0 ∨ s.pkg.vfEnable = true)) → ∃ r',
      exec (.functionEnable f x) s = .next (s.setFn f r') ∧ r'.en = x.getLsbD 0 ∧
      r'.state = (if x.getLsbD 0 = true ∧ r.state = 0 then 1 else r.state) ∧ r'.ways = BitVec.ofNat 16 (x.toNat / 2 ^ 16) ∧
      r'.wgt.toNat = (if x.toNat / 2 ^ 8 % 256 = 0 then 1 else x.toNat / 2 ^ 8 % 256) ∧ r'.rst = (r.rst || x.getLsbD 1))) ∧
  (∀ s f hi (x : DWord), booted s = true →
    let v := x &&& ~~~(BitVec.ofNat 64 (s.och.failed.toNat / (if hi then 2 ^ 64 else 1)))
    exec (.clusterMaskWrite f hi x) s = .next (s.setFn f (if residentMask s f hi &&& ~~~v ≠ 0 then { s.fn f with err := true }
      else if hi then { s.fn f with clu1 := v } else { s.fn f with clu0 := v })))) ∧
  ((∀ s f, booted s = true → let r := s.fn f
    (r.state ≠ 1 ∨ r.mig ≠ .none → exec (.stop f) s = .next (s.setFn f { r with err := true })) ∧
    (r.state = 1 → r.mig = .none → ∃ s', exec (.stop f) s = .next s' ∧ s'.fn f = { r with
        mig := .stopping, migSince := s.now, ctl := r.ctl ||| 1, qdone := false, sdone := false } ∧
      (∀ u m, s'.team? u = some m → fnOfTeam s' m = f → m.stage = .resident ∨ m.stage = .spilled → m.preempt.isSome = true) ∧
      SameMemory s s')) ∧
  (∀ s f, fnTeams s f = [] → let r := s.fn f
    (r.mig = .stopping → exec (.quiesceDone f) s = .next (s.setFn f { r with mig := .saving, qdone := true
                                                                             qcyc := BitVec.ofNat 32 (s.now - r.migSince)
                                                                             qlate := r.qlate || decide (299136 < s.now - r.migSince) })) ∧
    (r.mig ≠ .stopping → exec (.quiesceDone f) s = .next s)) ∧
  (∀ s f u m, s.team? u = some m → fnOfTeam s m = f → (u, m) ∈ s.teams → m.stage = .resident →
    ∃ s', exec (.quiesceDone f) s = .next s' ∧ s'.fns = s.fns) ∧
  (∀ s f, (s.fn f).mig ≠ .saving ∨ (s.fn f).migToken ≠ none → exec (.saveDone f) s = .next s) ∧
  (∀ s f, (s.fn f).mig = .saving → (s.fn f).migToken = none → (∀ p ∈ fnTeams s f, p.2.stage ≠ .stopping) →
    (∀ s1, saveWrite s f 0 (areaBytes s f) = (s1, .done) → exec (.saveDone f) s = .next (s1.setFn f { s1.fn f with
      mig := .stopped, migToken := none, sdone := true, state := 2, ctl := (s1.fn f).ctl &&& 0xE })) ∧
    (∀ s1, saveWrite s f 0 (areaBytes s f) = (s1, .failed) →
      exec (.saveDone f) s = .next (abortStop (s1.setFn f { s1.fn f with sfault := true }) f))) ∧
  (∀ s f, (∀ p ∈ fnTeams s f, p.2.stage ≠ .stopping) → (∀ x ∈ s.fab.inbound, x.2.pkt.dstFn ≠ f) → let r := (abortStop s f).fn f
    r.state = 1 ∧ r.aborted = true ∧ r.mig = .none ∧ r.migToken = none ∧ r.sfault = (s.fn f).sfault) ∧
  (∀ s f, fnTeams s f = [] → let r := (loseContext s f).fn f
    r.state = 3 ∧ r.mig = .none ∧ r.migToken = none ∧ ∀ u l, s.launch? u = some l → l.fn = f → l.stage ≠ .ended →
      ∃ l', (loseContext s f).launch? u = some l' ∧ l'.stage = .ended ∧ l'.refused = 0x17) ∧
  (∀ s f u l, fnTeams s f = [] → s.launches = [(u, l)] → l.fn = f → l.stage ≠ .ended → ∃ s1 n,
    let l1 := { l with refused := 0x17, token := none }
    loseContext s f = postLaunchRecord s1 u l1 (launchRecord s1 l1 0x17 n) ∧ SameMemory s s1) ∧
  (∀ s (l : Launch) st n, sliceNat (launchRecord s l st n) 0 6 = l.seq.toNat ∧ sliceNat (launchRecord s l st n) 6 1 = st % 256) ∧
  (∀ s f, booted s = true → let r := s.fn f
    (r.stopInProgress = false → exec (.abort f) s = .next (s.setFn f { r with err := true })) ∧
    (r.stopInProgress = true → fnTeams s f = [] → r.migToken = none → (∀ x ∈ s.fab.inbound, x.2.pkt.dstFn ≠ f) →
      exec (.abort f) s = .next (settle (freeSaveArea (s.setFn f { r with mig := .none, ctl := r.ctl &&& 0xA, state := 1, aborted := true }) f)))) ∧
  (∀ s f, booted s = true → let r := s.fn f
    (r.mig ≠ .stopped ∨ r.sdone = false ∨ r.state ≠ 2 → exec (.commit f) s = .next (s.setFn f { r with err := true })) ∧
    (r.mig = .stopped → r.sdone = true → r.state = 2 → (∀ x ∈ s.fab.inbound, x.2.pkt.dstFn ≠ f) → ∃ s',
      exec (.commit f) s = .next s' ∧ (s'.fn f).en = false ∧ (s'.fn f).state = 0 ∧ (s'.fn f).moved = true ∧
      (s'.fn f).fwdOn = r.fwd.getLsbD 63 ∧ (∀ p ∈ s'.launches, p.2.fn ≠ f) ∧ SameMemory s s')) ∧
  (∀ s f, booted s = true → let r := s.fn f
    exec (.restore f) s = .next (s.setFn f (if r.state ≠ 0 ∨ r.mig ≠ .none then { r with err := true }
      else { r with mig := .restoring, migSince := s.now, ctl := r.ctl ||| 8 }))) ∧
  (∀ s f, (s.fn f).mig = .restoring → (s.fn f).migToken = none →
    (∀ s1 bs, saveRead s f 0 0x1000 = (s1, .failed, bs) → exec (.restoreDone f) s = .next (loseContext s1 f)) ∧
    (∀ s1 h s2 bs, saveRead s f 0 0x1000 = (s1, .done, h) → saveRead s1 f 0 (sliceNat h 8 8) = (s2, .done, bs) →
      exec (.restoreDone f) s = .next (loadArea s2 f bs) ∧
      (sliceNat bs 0 4 = 1 → sliceNat bs 4 4 = 0 → fnLaunches s2 f = [] → fnTeams s2 f = [] →
        ((loadArea s2 f bs).fn f).state = 1 ∧ ((loadArea s2 f bs).fn f).en = true ∧
        ((loadArea s2 f bs).fn f).mig = .none) ∧
      (sliceNat bs 0 4 ≠ 1 → fnTeams s2 f = [] → ((loadArea s2 f bs).fn f).state = 3))) ∧
  (∀ s k w f, Tab.find s.pkg.waits k = some w → w.who = .save f → let late := w.since + 120000 ≤ s.now
    ((s.fn f).mig = .saving → exec (.saveAreaStallTimeout k) s = .next (if late then
      (let s1 := (dropWait s k).setFn f { s.fn f with migToken := none, sfault := true }
       abortStop s1 f) else s)) ∧
    ((s.fn f).mig = .restoring → exec (.restoreStallTimeout k) s = .next (if late then
      loseContext ((dropWait s k).setFn f { s.fn f with migToken := none }) f else s))))

/-! ## Ochre (R387 to R393) -/

namespace Sys2Proof.Machine

/-- The event log with one more entry (R390): its number is the count so far, and, without a ring, Ochre holds it. -/
def Logged (s s' : State) (cls src : Nat) : Prop :=
  s'.och.logSeq = s.och.logSeq + 1 ∧
  (s.och.logBase = 0 → s.och.held.length < 256 → ∃ d, s'.och.held = s.och.held ++ [⟨s.och.logSeq % 2 ^ 48, cls, src, s.now, d⟩])

end Sys2Proof.Machine

/-- R387, R388, R391 to R393: start-up goes from power-good over stage 1, or 3 where the image does not verify, to stage 2; an
update and an attestation start once and end with a log entry; the cap is held between 1,000 and 2,700; sensors and LEVEL are
set, every LEVEL raised while the power is above the cap; heat above 115 °C and a loss of power end all activity. Registers are
closed at stage 0. SRC of log entries, their repetition, the loss of power in an update, the clock at power-good, the least LOG
and how far the cap raises LEVEL are readings or choices (log 54 to 58, 110); an event before its time changes nothing (log 2).
-/
def Obligations.OchreStartsUpdatesAndProtects : Prop :=
  (∀ s, ∃ s', exec .powerGood s = .next s' ∧ s'.och.on = true ∧ s'.och.stage = 0 ∧ s'.teams = [] ∧ s'.reqs = [] ∧ s'.now = 0 ∧
    s'.och.image = (match s.och.nextImage with | some i => some i | none => s.och.image) ∧ s'.och.nextImage = none ∧
    ∀ a, isHbm a = true → readByte s' a = 0) ∧
  (∀ s, (s.och.on = true → s.och.stage = 0 → ∃ s', exec .stageAReached s = .next s' ∧
      s'.och.stage = (if s.och.intact then 1 else 3) ∧ Logged s s' 1 0xFF) ∧
    (s.och.on = false ∨ s.och.stage ≠ 0 → exec .stageAReached s = .next s)) ∧
  (∀ s t fc fp, (s.och.stage ≠ 1 ∨ s.och.bfail = true → exec (.stageBReached t fc fp) s = .next s) ∧
    (s.och.stage = 1 → s.och.bfail = false → t = false → ∃ s', exec (.stageBReached t fc fp) s = .next s' ∧ s'.och.stage = 1 ∧
      s'.och.bfail = true ∧ Logged s s' 2 0xFF) ∧
    (s.och.stage = 1 → s.och.bfail = false → t = true → s.och.logBase = 0 → ∃ s', exec (.stageBReached t fc fp) s = .next s' ∧ s'.och.stage = 2 ∧
      s'.och.failed = fc ∧ (∀ p, p < 16 → fp.getLsbD p = false → (s'.port p).state = 2) ∧
      (∀ f j, f < 64 → j < 64 → fc.getLsbD j = true → (s'.fn f).clu0.getLsbD j = false) ∧
      ∀ a, isHbm a = true → readByte s' a = 0)) ∧
  (∀ s, s.och.stage = 0 → exec .firmwareUpdate s = .next s ∧ exec .attestation s = .next s ∧
    (∀ x, exec (.powerCapWrite x) s = .next s) ∧ (∀ x, exec (.logRingBaseWrite x) s = .next s)) ∧
  (∀ s, s.och.stage ≠ 0 →
    exec .firmwareUpdate s = .next { s with och := if s.och.updBusy then { s.och with updErr := true } else { s.och with updBusy := true } } ∧
    exec .attestation s = .next { s with och := if s.och.attBusy then { s.och with attErr := true } else { s.och with attBusy := true } } ∧
    (∀ (x : DWord), ∃ s', exec (.powerCapWrite x) s = .next s' ∧ 1000 ≤ s'.och.pcap ∧ s'.och.pcap ≤ 2700 ∧
      (1000 ≤ x.toNat % 4096 → x.toNat % 4096 ≤ 2700 → s'.och.pcap = x.toNat % 4096) ∧ Logged s s' 6 0xFF) ∧
    (∀ (x : DWord), x.toNat / 4096 = 0 → exec (.logRingBaseWrite x) s =
      .next { s with och := { s.och with logBase := 0, logLog := Nat.max 6 (x.toNat % 16) } }) ∧
    (∀ (x : DWord), x.toNat / 4096 ≠ 0 → ∃ s', exec (.logRingBaseWrite x) s = .next s' ∧ s'.och.held = [] ∧
      s'.och.logBase = x.toNat / 4096 * 4096)) ∧
  (∀ s rf, (s.och.updBusy = false → exec (.updateResult rf) s = .next s) ∧
    (s.och.updBusy = true → ∃ s', exec (.updateResult rf) s = .next s' ∧ s'.och.updBusy = false ∧ Logged s s' 4 0xFF ∧
      (rf = true ∨ newImage s = none → s'.och.updResult = 4 ∧ s'.och.nextImage = s.och.nextImage) ∧
      (∀ bs, rf = false → newImage s = some bs →
        (signatureValid bs = false → s'.och.updResult = 2 ∧ s'.och.nextImage = s.och.nextImage) ∧
        (signatureValid bs = true → Config.imageVersion bs < Config.fusedMinimum → s'.och.updResult = 3) ∧
        (signatureValid bs = true → Config.fusedMinimum ≤ Config.imageVersion bs →
          s'.och.updResult = 1 ∧ s'.och.nextImage = some bs)))) ∧
  (∀ s, (s.och.attBusy = false → exec .attestationDone s = .next s) ∧
    (s.och.attBusy = true → ∃ s', exec .attestationDone s = .next s' ∧ s'.och.attBusy = false ∧ s'.och.logSeq = s.och.logSeq + 1)) ∧
  (∀ s die point r, s.och.on = true → ∃ s', exec (.sensorRefresh [(64 * die + point, r)] []) s = .next s' ∧
    FMap.get 0 s'.och.sens (64 * die + point) = r) ∧
  (∀ s (ls : List (BitVec 4)) cap, s.och.stage ≠ 0 → ∃ s', exec (.skipLevelUpdate ls cap) s = .next s' ∧
    s' = { s with clusters := s'.clusters } ∧ ∀ k, s'.cluster k =
      if k < 128 then { s.cluster k with level := Nat.min 15 ((ls.getD k 0).toNat + capRaise s cap) } else s.cluster k) ∧
  (∀ s cap, (cap.power ≤ s.och.pcap → capRaise s cap = 0) ∧ (s.och.pcap < cap.power → 1 ≤ capRaise s cap)) ∧
  (∀ s die point, let t := (FMap.get 0 s.och.sens (64 * die + point)).toInt
    (s.och.on = false ∨ t < 1840 → exec (.thermalShutdown die point) s = .next s) ∧
    (s.och.on = true → 1840 ≤ t → ∃ s', exec (.thermalShutdown die point) s = .next s' ∧ s'.och.on = false ∧ s'.teams = [] ∧
      s'.programs = [] ∧ s'.reqs = [])) ∧
  (∀ s, ∃ s', exec .powerLoss s = .next s' ∧ s'.och.on = false ∧ s'.teams = [] ∧ s'.programs = [] ∧ s'.reqs = [] ∧
    (s.och.updBusy = false → s'.och.image = s.och.image ∧ s'.och.nextImage = s.och.nextImage ∧ s'.och.intact = s.och.intact) ∧
    (s.och.updBusy = true → s'.och.nextImage = s.och.nextImage ∨ ∃ bs, newImage s = some bs ∧ s'.och.nextImage = some bs))

/-! ## Ports and lanes (R395 to R397, R401) -/

/-- R396, R397: a port goes from state to state. A lane that is out of bounds in two samples together, or loses its signal, is
weak; a weak lane that carries flits takes UP to SWAP and SPARED to DRAIN; training ends DOWN where two lanes fail; a swap that
is not agreed in 120,000 cycles ends UP; DRAIN ends DOWN once what the port had queued is carried.
R395: a flow keeps its port while that is up, and else leaves by one that is up. R396, R401: a port in STATE 0 or 1 carries
nothing, and any other the oldest of a virtual channel.
That a weak lane stays weak until training is the reading of log 62, and what waits while no port is up that of log 108; an
event before its time changes nothing (log 2). -/
def Obligations.PortsTrainSwapAndDrain : Prop :=
  (∀ s p, p < 16 → let x := s.port p
    let goes (i : Instr) (y : Port) : Prop := exec i s = .next (s.setPort p y)
    let frees (i : Instr) (y : Port) : Prop := exec i s = .next (departWaiting (s.setPort p y))
    goes (.portTrainStart p) (if x.state = 0 then { x with state := 1 } else x) ∧
    (∀ failed : BitVec 9, x.state = 1 → let n := ((List.range 9).filter fun k => failed.getLsbD k).length
      (2 ≤ n → frees (.portTrainDone p failed) { x with state := 0, spared := 0xF, bad := [] }) ∧
      (n < 2 → frees (.portTrainDone p failed) { x with state := 2, spared := 0xF, bad := [] })) ∧
    (∀ failed, x.state ≠ 1 → frees (.portTrainDone p failed) x) ∧
    frees (.laneSwap p) (if x.state = 3 then { x with state := 4, spared := x.weak, swaps := Nat.min (x.swaps + 1) 255 } else x) ∧
    frees (.swapAgreementTimeout p) (if x.state = 3 ∧ x.timer + 120000 ≤ s.now then { x with state := 2 } else x) ∧
    goes (.portDrainDone p) (if x.state = 5 ∧ x.queue = [] then { x with state := 0, spared := 0xF } else x) ∧
    goes (.flitReplay p) (if 2 ≤ x.state then { x with replay := Nat.min (x.replay + 1) (2 ^ 24 - 1) } else x) ∧
    (∀ k, k < 8 → ∃ y, goes (.laneSignalLoss p k) y ∧ y.isWeak k = true ∧
      (x.state = 2 → x.spared = 0xF → y.state = 3 ∧ y.timer = s.now) ∧
      (x.state = 4 → k ≠ x.spared → y.state = 5)) ∧
    (∀ lanes, ∃ y, goes (.laneSample p lanes) y ∧ (∀ k l, k < 9 → lanes[k]? = some l → (y.isWeak k = true ↔ x.isWeak k = true ∨
        (FMap.get 0 x.bad k % 2 = 1 ∧ l.ber = true) ∨ (FMap.get 0 x.bad k / 2 % 2 = 1 ∧ l.eye = true))) ∧
      ((∀ k, k < 9 → y.isWeak k = false) → y.state = x.state) ∧
      (x.state = 2 → x.spared = 0xF → (∃ k, k < 8 ∧ y.isWeak k = true) → y.state = 3))) ∧
  (∀ s f, (∀ k, FMap.get 0 s.fab.flows (flowKey f) = k + 1 → (s.port k).up = true → choosePort s f = some k) ∧
    (∀ k, choosePort s f = some k → (s.port k).up = true) ∧ (anyPortUp s = true → (choosePort s f).isSome = true)) ∧
  (∀ s ch x, (∀ k, choosePort s x.flow = some k →
      ((depart s ch x).port k).queue = (s.port k).queue ++ [(ch, x)] ∧
      FMap.get 0 (depart s ch x).fab.flows (flowKey x.flow) = k + 1 ∧ (depart s ch x).fab.waiting = s.fab.waiting) ∧
    (choosePort s x.flow = none → (depart s ch x).fab.waiting = s.fab.waiting ++ [(ch, x)] ∧
      ∀ k, (depart s ch x).port k = s.port k)) ∧
  (∀ s p ch, ((s.port p).state < 2 ∨ takeFirst ch (s.port p).queue = none → carry s p ch = s) ∧
    (∀ x rest, 2 ≤ (s.port p).state → takeFirst ch (s.port p).queue = some (x, rest) →
      ((carry s p ch).port p).queue = rest ∧
      (∀ k, x = .packet k → (carry s p ch).fab.packetsOut = s.fab.packetsOut ++ [(p, k)]) ∧
      (∀ k c d, x = .answer k c d → (carry s p ch).fab.answersOut = s.fab.answersOut ++ [(p, k, c, d)]))) ∧
  (∀ ch before x after, (∀ y ∈ before, y.1 ≠ ch) → takeFirst ch (before ++ (ch, x) :: after) = some (x, before ++ after))

/-! ## Packets (R394, R398 to R407, R413) -/

/-- R394, R395, R398, R399, R401 to R404, R406, R407: a peer access whose entry names a package joins, as a packet with the next
sequence number of its source and target, the queue of the port of its flow, where a port is up and a receive slot is free; with
no port up, or an entry that names nothing, it ends UNREACH, and without a slot it waits for one. Its answer completes it or
faults it, with FB_FERR, though its thread has exited and it was a store. A group's answers are taken from each member once. A
packet is sent again each 24,000 cycles, times out after 1,200,000, while the slots of those that are silent stay taken, and is
resent 12,000 cycles after MOVED from the same target. With every port in STATE 0 or 1 no answer comes.
That an entry found of a KIND that does not take the access ends it UNREACH at its first sending is the reading of log 122. The
agenda says when packets and answers come (log 1); an event before its time changes nothing (log 2). -/
def Obligations.PeerAccessesSendAndComplete : Prop :=
  (∀ s k r v off c op s1, InFlight s k r → r.data = none → Tab.find s.fab.sent k = none → r.act.peer = some (v, off) →
    r.act.packet = some (c, op) →
    (∀ kind, lookupVdn s r.die r.fn v = (s1, kind) → kind.takes r.act = false ∨ anyPortUp s1 = false →
      exec (.packetSend k) s = .next (endAccess s1 k r.fn v .unreach [])) ∧
    (∀ pk f, lookupVdn s r.die r.fn v = (s1, .unicast pk f) → anyPortUp s1 = true → slotsFree (dropSent s1 k) k [pk] = false →
      ∃ s' x, exec (.packetSend k) s = .next s' ∧ Tab.find s'.fab.sent k = some x ∧ x.sent = false ∧ x.targets = [pk] ∧
      s'.fab.seqs = s1.fab.seqs ∧ (∀ q, s'.port q = s1.port q) ∧ s'.reqs = s1.reqs ∧ SameMemory s1 s') ∧
    (∀ pk f, lookupVdn s r.die r.fn v = (s1, .unicast pk f) → anyPortUp s1 = true → pk < 64 →
      slotsFree (dropSent s1 k) k [pk] = true → ∃ s' q, exec (.packetSend k) s = .next s' ∧
      choosePort s1 (r.fn, pk, classNum c) = some q ∧
      (let n := FMap.get 0 s1.fab.seqs (seqKey r.fn pk c)
       (s'.port q).queue =
         (s1.port q).queue ++ [(.request, .packet ⟨ownPackage, r.fn, pk, f, c, n, pk, off, op, false, false⟩)] ∧
       FMap.get 0 s'.fab.seqs (seqKey r.fn pk c) = (n + 1) % 2 ^ 48) ∧
      (∃ x, Tab.find s'.fab.sent k = some x ∧ x.sent = true ∧ x.since = s1.now ∧ x.last = s1.now ∧ x.silent = [pk * 64 + f]) ∧
      s'.reqs = s1.reqs ∧ SameMemory s1 s')) ∧
  (∀ s k (a : MemberAnswer) data,
    (anyPortCarries s = false ∨ Tab.find s.fab.sent k = none → exec (.answerReceive k a data) s = .next s) ∧
    (∀ x, Tab.find s.fab.sent k = some x → anyPortCarries s = true →
      (x.from? a.member a.code = none → exec (.answerReceive k a data) s = .next s) ∧
      (∀ who, x.from? a.member a.code = some who → let w := worseAnswer x.worst a.code
        (x.silent.erase who ≠ [] → exec (.answerReceive k a data) s =
          .next (setSent s k { x with silent := x.silent.erase who, worst := w })) ∧
        (x.silent.erase who = [] → x.lapsed = true → exec (.answerReceive k a data) s = .next (dropSent s k)) ∧
        (x.silent.erase who = [] → x.lapsed = false → w ≠ .moved →
          exec (.answerReceive k a data) s = .next (endAccess s k x.pkt.srcFn x.vdn w data)) ∧
        (∀ s1 kind, x.silent.erase who = [] → x.lapsed = false → w = .moved →
          rereadVdn s x.die x.pkt.srcFn x.vdn = (s1, kind) →
          (kind = .none → exec (.answerReceive k a data) s = .next (endAccess s1 k x.pkt.srcFn x.vdn .unreach [])) ∧
          (kind = .unicast x.pkt.dstPkg x.pkt.dstFn → exec (.answerReceive k a data) s =
            .next (setSent s1 k { x with movedAt := some s1.now, targets := [], silent := [] })) ∧
          (∀ p f, kind = .unicast p f → x.pkt.dstPkg ≠ p ∨ x.pkt.dstFn ≠ f →
            exec (.answerReceive k a data) s = .next (resend s1 k x (p, f))))))) ∧
  (∀ (x : Sent) m c, (x.pkt.dstPkg < 64 → x.from? m c = if x.movedAt.isSome = true ∧ c ≠ .moved then some m else x.silent.head?) ∧
    (64 ≤ x.pkt.dstPkg → x.from? m c = if m ∈ x.silent then some m else none)) ∧
  (∀ s k r t vdn data, InFlightFor s k r t → (∀ v o bs, r.act = .store (.peer v o) bs →
      endAccess s k r.fn vdn .ok data = settle (completeReq (dropSent s k) k)) ∧
    (∀ v o n sx d l1, r.act = .load (.peer v o) n sx d l1 →
      endAccess s k r.fn vdn .ok data = filled ((dropSent s k).updReq k fun _ => { r with performed := true, data := some data }) k
        ((t.writeList d (loadWords (overlay data r.psb) sx)).withFlags 0) r.acq) ∧
    (∀ code : Answer, t.live = true → code = .denied ∨ code = .unreach ∨ code = .expired ∨ code = .timeout →
      endAccess s k r.fn vdn code data =
      (let s1 := dropSent s k
       let s2 := s1.setFn r.fn { s1.fn r.fn with ferr := BitVec.ofNat 64 (answerNum code + vdn % 2 ^ 16 * 2 ^ 8) }
       settle (threadFault (completeReq s2 k) { t with pc := r.pc } .fabric { addr := r.va.toNat }))) ∧
    (t.live = true → endAccess s k r.fn vdn .poison data =
      (let s1 := dropSent s k
       let s2 := s1.setFn r.fn { s1.fn r.fn with ferr := BitVec.ofNat 64 (5 + vdn % 2 ^ 16 * 2 ^ 8) }
       settle (threadFault (completeReq s2 k) { t with pc := r.pc } .ecc { addr := r.va.toNat })))) ∧
  (∀ s k r t m vdn data v o bs, InFlight s k r → r.owner = .thread t.team t.tix → s.thread? t.team t.tix = some t →
    t.place = .exited → s.team? t.team = some m → m.stage ≠ .ending → r.act = .store (.peer v o) bs →
    ∀ code : Answer, code = .denied ∨ code = .unreach ∨ code = .expired ∨ code = .timeout → endAccess s k r.fn vdn code data =
      (let s1 := dropSent s k
       let s2 := s1.setFn r.fn { s1.fn r.fn with ferr := BitVec.ofNat 64 (answerNum code + vdn % 2 ^ 16 * 2 ^ 8) }
       settle (threadFault (completeReq s2 k) { t with pc := r.pc } .fabric { addr := r.va.toNat }))) ∧
  (∀ s k x, Tab.find s.fab.sent k = some x →
    exec (.packetRetransmit k) s = .next (if x.sent = true ∧ x.movedAt = none ∧ x.lapsed = false ∧ x.last + 24000 ≤ s.now then
      emit (setSent s k { x with last := s.now, tries := x.tries + 1 }) x.pkt else s) ∧
    exec (.packetTimeout k) s = .next
      (if (x.sent = true ∨ x.pkt.resent = true) ∧ x.lapsed = false ∧ x.since + 1200000 ≤ s.now then
        endRequest (if x.silent = [] then dropSent s k else setSent s k { x with lapsed := true }) k x.pkt.srcFn
          x.vdn (worseAnswer x.worst .timeout) [] else s) ∧
    (∀ t, x.movedAt = some t → exec (.movedResend k) s = .next
      (if t + 12000 ≤ s.now then resend s k x (x.pkt.dstPkg, x.pkt.dstFn) else s))) ∧
  (∀ s f, ((s.fn f).vdninv.getLsbD 0 = false → exec (.vdnInvalidate f) s = .next s) ∧
    ((s.fn f).vdninv.getLsbD 0 = true → ∃ s', exec (.vdnInvalidate f) s = .next s' ∧ (s'.fn f).vdninv = 0 ∧
      (∀ d, d < 4 → (s'.die d).vdns = (s.die d).vdns.filter fun x => x.fn != f) ∧ SameMemory s s'))

/-- R382, R400, R402, R403, R406, R413: an arriving packet that is held already is dropped, and one performed already is
answered again, an atomic with EXPIRED after 1 ms or 256 later atomics of its source; it is held during a stop of its function,
forwarded or answered MOVED after a COMMIT, answered DENIED where the function is not active or does not admit it, and else
performed once, recorded and answered. With every port in STATE 0 or 1 none arrives. What elements of a reduction are checked
for is the model's (log 104). That duplicates are looked for first is the reading of log 64, that an answer POISON is kept that
of log 65, and when ARM matters that of log 78. -/
def Obligations.PacketsArePerformedOnce : Prop :=
  (∀ s p, anyPortCarries s = false ∨ packetOk p = false → exec (.packetReceive p) s = .next s) ∧
  (∀ s p, anyPortCarries s = true → packetOk p = true →
    (∀ k y, (k, y) ∈ s.fab.inbound → sameIdentity y.pkt p = true → exec (.packetReceive p) s = .next s) ∧
    ((∀ y ∈ s.fab.inbound, sameIdentity y.2.pkt p = false) →
      (∀ before e later, s.fab.performed = before ++ e :: later → (∀ x ∈ before, x.isOf p = false) → e.isOf p = true →
        exec (.packetReceive p) s = .next
          (if e.cls = .atomic ∧ (e.since + 1200000 ≤ s.now ∨
              256 ≤ (later.filter fun x => x.cls == .atomic && x.srcPkg == e.srcPkg).length) then reply s p .expired []
           else reply s p e.answer e.result)) ∧
      ((∀ e ∈ s.fab.performed, e.isOf p = false) → let f := s.fn p.dstFn
        (f.stopInProgress = true → ∃ s', exec (.packetReceive p) s = .next s' ∧
          s'.fab.inbound = s.fab.inbound ++ [(s.uid, ⟨p, none, s.now⟩)] ∧ SameMemory s s') ∧
        (f.stopInProgress = false → f.state = 0 → f.moved = true → exec (.packetReceive p) s = .next
          (if f.fwdOn then emit s { p with dstPkg := f.fwd.toNat % 64, dstFn := f.fwd.toNat / 64 % 64, forwarded := true }
           else reply s p .moved [])) ∧
        (f.stopInProgress = false → (f.state ≠ 0 ∧ f.state ≠ 1) ∨ (f.state = 0 ∧ f.moved = false) ∨
            (f.state = 1 ∧ ((opReduces p.op = false ∧ admitted s p = false) ∨ f.fmroot.getLsbD 0 = false)) →
          exec (.packetReceive p) s = .next (reply s p .denied [])) ∧
        (f.stopInProgress = false → f.state = 1 → f.fmroot.getLsbD 0 = true → ∀ g e op ty k i xs, p.op = .reduce g e op ty k i xs →
          exec (.packetReceive p) s =
            .next (conclude (takePiece s ⟨p.srcPkg, p.srcFn, p.dstFn, g, e, op, ty, k, i, xs, fxMembers s g e⟩) p .ok [])) ∧
        (f.stopInProgress = false → f.state = 1 → admitted s p = true → f.fmroot.getLsbD 0 = true →
          let kept (s1 s' : State) (code : Answer) (result : List Byte) : Prop :=
            exec (.packetReceive p) s = .next (reply s' p code result) ∧
            s'.fab.performed = s1.fab.performed ++ [⟨p.srcPkg, p.srcFn, p.idPkg, p.cls, p.seq, code, result, s1.now, p.dstFn⟩]
          (∀ s1, opReduces p.op = false → fmTranslate s p = (s1, none) → ∃ s', exec (.packetReceive p) s = .next s' ∧
            (∃ k tok, s'.fab.inbound = s1.fab.inbound ++ [(k, ⟨p, some tok, s1.now⟩)]) ∧ SameMemory s1 s') ∧
          (∀ s1 pa bs, fmTranslate s p = (s1, some pa) → p.op = .write bs → Plain s1 pa bs.length → ∃ s', kept s1 s' .ok [] ∧
            SameMemoryOutside s1 s' pa bs.length ∧ (∀ j (h : j < bs.length), readByte s' (pa + j) = bs[j])) ∧
          (∀ s1 pa n, fmTranslate s p = (s1, some pa) → p.op = .read n → ∃ s', SameMemory s1 s' ∧
            (if poisonedAt s1 pa n then kept s1 s' .poison [] else kept s1 s' .ok (readBytes s1 pa n))) ∧
          (∀ s1 pa op ty x, fmTranslate s p = (s1, some pa) → p.op = .atomic op ty x → let n := tyBits ty / 8
            Plain s1 pa n → poisonedAt s1 pa n = false → let old := readBytes s1 pa n
            ∃ s', kept s1 s' .ok old ∧ SameMemoryOutside s1 s' pa n ∧
            (∀ j, j < n → readByte s' (pa + j) = (leBytes n (atomicNew op ty (leNat old) x.toNat)).getD j 0)) ∧
          (∀ s1 pa ty cmp swap, fmTranslate s p = (s1, some pa) → p.op = .cas ty cmp swap → let n := tyBits ty / 8
            Plain s1 pa n → poisonedAt s1 pa n = false → let old := readBytes s1 pa n
            ∃ s', kept s1 s' .ok old ∧ SameMemoryOutside s1 s' pa n ∧
            (∀ j, j < n → readByte s' (pa + j) = (leBytes n (if leNat old = cmp.toNat % 2 ^ tyBits ty
              then swap.toNat % 2 ^ tyBits ty else leNat old)).getD j 0)))))) ∧
  (∀ (e : Performed) p, e.isOf p = true ↔ e.srcPkg = p.srcPkg ∧ e.srcFn = p.srcFn ∧ e.idPkg = p.idPkg ∧ e.cls = p.cls ∧
    e.seq = p.seq ∧ (p.idPkg < 64 ∨ e.dstFn = p.dstFn)) ∧
  (∀ p q : Packet, sameIdentity p q = true ↔ p.srcPkg = q.srcPkg ∧ p.srcFn = q.srcFn ∧ p.idPkg = q.idPkg ∧ p.cls = q.cls ∧
    p.seq = q.seq ∧ (p.idPkg < 64 ∨ p.dstFn = q.dstFn)) ∧
  (∀ s tok k since va ty y, Tab.find s.pkg.waits tok = some ⟨.fabric k, since, va, ty⟩ → Tab.find s.fab.inbound k = some y →
    exec (.fabricMmuStallTimeout tok) s = .next
      (if since + 120000 ≤ s.now then reply (takeInbound s k) y.pkt .denied [] else s)) ∧
  (∀ s f, let r := s.fn f
    exec (.forwardingWindowEnd f) s = .next (if r.fwdOn = true ∧ r.fwdSince + 600000 ≤ s.now then
      s.setFn f { r with fwdOn := false, fwd := BitVec.ofNat 64 (r.fwd.toNat % 2 ^ 63) } else s)) ∧
  (∀ s src, ∃ s', exec (.atomicResultExpiry src) s = .next s' ∧ s'.fab.performed = forgetResults src s.now s.fab.performed ∧
    SameMemory s s') ∧
  (∀ src now e later, forgetResults src now (e :: later) =
    (if e.srcPkg = src ∧ e.cls = .atomic ∧ (e.since + 1200000 ≤ now ∨
        256 ≤ (later.filter fun x => x.cls == .atomic && x.srcPkg == e.srcPkg).length) then { e with result := [] } else e) ::
      forgetResults src now later)

/-! ## Multicast groups, reductions, Ethernet (R407 to R411) -/

/-- R407 to R411: a rewrite of a group reads its member list and holds GO until it is done; its members are the entries with V,
in ascending VDN. A reduction whose contributions have all arrived combines them in that order, each term rounded to nearest
even where it is a float, and writes the result to D, waits while one is missing, and faults its participants where they differ;
a queue pair takes the TAIL of its owner alone, sends a frame of 60 to 9,212 bytes with its check sequence, receives one with
STATUS 1, and counts what it cannot receive, with a wrong check sequence too. The TLB of Ethernet accesses, their failures, the
steering and the polynomial are readings or taken from outside (log 66, 67), where a reduction runs is the model's (log 104),
and that it leaves MFLAGS a reading (log 44). -/
def Obligations.GroupsReductionsAndFrames : Prop :=
  (∀ s (x : DWord), booted s = true → s.fab.mcw.getLsbD 12 = false → x.getLsbD 12 = true →
    let a := s.fab.mcList.toNat % 2 ^ 52 / 256 * 256
    (∀ i, i < 64 → poisonedAt s (a + 4 * i) 4 = false) → ∃ s', exec (.multicastRewrite x) s = .next s' ∧
      Tab.find s'.fab.mcGroups (x.toNat % 4096) = some ((List.range 64).map fun i => leNat (readBytes s (a + 4 * i) 4)) ∧
      s'.fab.mcw.getLsbD 12 = true ∧ SameMemory s s') ∧
  (∀ s (x : DWord), booted s = true → s.fab.mcw.getLsbD 12 = true → x.getLsbD 12 = true → ∃ s',
    exec (.multicastRewrite x) s = .next s' ∧ s'.fab.mcw.getLsbD 13 = true ∧ s'.fab.mcGroups = s.fab.mcGroups) ∧
  (∀ s, exec .multicastRewriteDone s = .next { s with fab := { s.fab with mcw := s.fab.mcw &&& ~~~(0x1000 : DWord) } }) ∧
  (∀ s (c : FxCompletion) p x, s.program? c.prog = some p → (s.fab.fxrs.find? fun x => x.prog == c.prog && !x.done) = some x →
    (mayServe s p = false ∨ fxResult s x c.remote = .waits → exec (.fxredComplete c) s = .next s) ∧
    (mayServe s p = true → fxResult s x c.remote = .differ → exec (.fxredComplete c) s = .next (faultAll s x.group x.epoch)) ∧
    (∀ op ty d a b s1 rs t, mayServe s p = true → fxResult s x c.remote = .is rs →
      fxWord s c.prog p = some (.fxred op ty d a b, s1) → readTensor (p.desc d) = some t →
      let s3 := writeResult c.prog (.fxred op ty d a b) t rs (t.n - p.prog.toNat) (keepResult s1 x rs)
      (∀ q, s3.program? c.prog = some q → q.pc ≠ p.pc ∨ q.stalled = none) → (s3.program? c.prog).isSome = true →
      exec (.fxredComplete c) s = .next (serve s3 x))) ∧
  (∀ s (x : Fxr) remote, x.result = none →
    ((∃ m ∈ x.members, partOf s x remote m = none) → fxResult s x remote = .waits) ∧
    (∀ ps : List (FxOp × FxTy × List Nat), x.members.map (partOf s x remote) = ps.map some → fxResult s x remote =
      if (∀ y ∈ ps, y.1 = x.op ∧ y.2.1 = x.ty ∧ y.2.2.length = x.elems.length) then
        .is (reduceAll x.op x.ty (ps.map fun y => y.2.2)) else .differ)) ∧
  (∀ s g, (groupMembers s g).Pairwise (fun a b => a.1 ≤ b.1) ∧ ∀ m, m ∈ groupMembers s g ↔
    ∃ e ∈ (Tab.find s.fab.mcGroups g).getD [], e / 2 ^ 31 % 2 = 1 ∧ m = (e % 2 ^ 16, e / 2 ^ 16 % 64, e / 2 ^ 22 % 64)) ∧
  (∀ s g, (groupMembers s g).length = (((Tab.find s.fab.mcGroups g).getD []).filter fun e => e / 2 ^ 31 % 2 == 1).length) ∧
  (∀ op ty (xss : List (List Nat)) (ys : List Nat), xss ≠ [] → reduceAll op ty (xss ++ [ys]) =
    (List.range (reduceAll op ty xss).length).map fun i => fxCombine op ty ((reduceAll op ty xss).getD i 0) (ys.getD i 0)) ∧
  (∀ op (xs : List Nat), reduceAll op .s32 [xs] = xs) ∧
  (∀ op (x : Nat), (unpack fp32 x).isNan = false → reduceAll op .f32 [[x]] = [x]) ∧
  (∀ x y, fxCombine .add .f32 x y = (addVals fp32 .rne false (unpack fp32 x) (unpack fp32 y)).1 ∧
    fxCombine .min .f32 x y = (minMax fp32 false false x y).1 ∧ fxCombine .max .f32 x y = (minMax fp32 false true x y).1 ∧
    fxCombine .add .bf16 x y = (addVals bf16 .rne false (unpack bf16 x) (unpack bf16 y)).1 ∧
    fxCombine .min .bf16 x y = (minMax bf16 false false x y).1 ∧ fxCombine .max .bf16 x y = (minMax bf16 false true x y).1) ∧
  (∀ op (x : Nat), (unpack fp32 x).isNan = true → reduceAll op .f32 [[x]] = [fp32.nanBits]) ∧
  (∀ x y : Word, fxCombine .add .s32 x.toNat y.toNat = (x + y).toNat) ∧
  (∀ s p q f (x : Word), let e := s.eq p q
    exec (.txtailWrite p q f x) s = .next (if q < 16 ∧ e.owner = f then s.setEq p q { e with txtail := x } else s)) ∧
  (∀ s p q, let e := s.eq p q
    (¬(p < 2 ∧ q < 16 ∧ e.en = true ∧ e.txhead ≠ e.txtail) → exec (.frameTransmit p q) s = .next s) ∧
    (p < 2 → q < 16 → e.en = true → e.txhead ≠ e.txtail → let a := ringAddr e.tx e.txlog e.txhead
      ∀ s1 d s2 bs, ethLoad s e.owner a 16 = (s1, some d) → 60 ≤ sliceNat d 8 2 → sliceNat d 8 2 ≤ 9212 →
        ethLoad s1 e.owner (sliceNat d 0 8) (sliceNat d 8 2) = (s2, some bs) → ∃ s', exec (.frameTransmit p q) s = .next s' ∧
        Tab.find s'.fab.frames p = some (((Tab.find s2.fab.frames p).getD []) ++ [bs ++ frameCheck bs]) ∧ (s'.eq p q).txhead = e.txhead + 1)) ∧
  (∀ s p (f : List Byte) (fcs : Word), p < 2 →
    f.length < 60 ∨ 9212 < f.length ∨ leBytes 4 fcs.toNat ≠ frameCheck f ∨ steered s p f = none →
    exec (.frameReceive p f fcs) s = .next (dropFrame s p)) ∧
  (∀ s p k (f : List Byte) (fcs : Word), p < 2 → 60 ≤ f.length → f.length ≤ 9212 → leBytes 4 fcs.toNat = frameCheck f →
    steered s p f = some k → let e := s.eq p k
    (e.rxhead = e.rxtail → exec (.frameReceive p f fcs) s = .next (dropFrame s p)) ∧
    (∀ s1 d s2 s3, e.rxhead ≠ e.rxtail → let a := ringAddr e.rx e.rxlog e.rxhead
      ethLoad s e.owner a 8 = (s1, some d) → ethStore s1 e.owner (leNat d) f = (s2, true) →
      ethStore s2 e.owner (a + 8) (leBytes 2 f.length ++ leBytes 6 1) = (s3, true) →
      exec (.frameReceive p f fcs) s = .next (s3.setEq p k { s3.eq p k with rxhead := e.rxhead + 1 }))) ∧
  (∀ s p, ((dropFrame s p).eq p 0).drop.toNat = ((s.eq p 0).drop.toNat + 1) % 2 ^ 32)

/-! ## The host (R319, R341, R361, R365, R366, R370, R376, R389, R412) -/

/-- R341, R365, R366, R387: the host reads and writes memory, notify pages, the control page and configuration space; an address
that does not exist stops the model; some registers of the tables are written as their entries say.
The stop at an address that does not exist is the model's (log 50), the ways that the host uses a reading (log 28),
and how it reaches registers that of log 51; the width of the Device ID and the word of page sizes are those of the family (log
85). -/
def Obligations.HostAccessesAndRegisterWrites : Prop :=
  (∀ s f pa n, booted s = true → 0 < n → oneKind pa n = true → isHbm pa = true →
    (∀ i, i < n → pageQueued s (pa + i) = false) → poisonedAt s pa n = false → ∃ s',
    exec (.hostAccess (.memRead f pa n)) s = .next s' ∧ s'.pkg.readback = readBytes s pa n ∧ SameMemory s s') ∧
  (∀ s f pa (bs : List Byte), booted s = true → bs ≠ [] → oneKind pa bs.length = true → isHbm pa = true ∨ isHost pa = true →
    Plain s pa bs.length → ∃ s', exec (.hostAccess (.memWrite f pa bs)) s = .next s' ∧ SameMemoryOutside s s' pa bs.length ∧
    ∀ j (h : j < bs.length), readByte s' (pa + j) = bs[j]) ∧
  (∀ s f pa n (bs : List Byte), 0 < n → oneKind pa n = false → bs.length = n →
    exec (.hostAccess (.memRead f pa n)) s = .fault .noSuchAddress ∧
    exec (.hostAccess (.memWrite f pa bs)) s = .fault .noSuchAddress) ∧
  (∀ s, s.och.stage ≠ 0 → ∃ s', exec (.hostAccess (.configRead 0 .deviceId)) s = .next s' ∧ s'.pkg.readback = [0x04, 0x47]) ∧
  (∀ s, s.och.stage ≠ 0 → ∃ s', exec (.hostAccess (.configRead 0 .systemPageSizes)) s = .next s' ∧ s'.pkg.readback = [1, 0, 0, 0]) ∧
  (∀ s f q, booted s = true → visible s f = true → f < 64 → q < 32 → ∃ s',
    exec (.hostAccess (.bar0Read f (4096 * q + 0x10) 8)) s = .next s' ∧
      s'.pkg.readback = leBytes 8 (s.lq f q).tail.toNat) ∧
  (∀ s f q (x : DWord), booted s = true → visible s f = true → f < 64 → q < 32 →
    exec (.hostAccess (.bar0Write f (4096 * q + 0x10) 8 x)) s = .next (writeTail s f q (lowWord x) true)) ∧
  (∀ s off, ¬(booted s = true ∧ off = 0x4008) → ∃ s', exec (.hostAccess (.bar2Read off 8)) s = .next s' ∧
    s'.pkg.readback = leBytes 8 (pageRead s off).toNat) ∧
  (∀ s n, booted s = true → hostCsr n = true → n ≠ 0x110 → ∃ s', exec (.hostAccess (.csrRead n)) s = .next s' ∧
    s'.pkg.readback = leBytes 8 (packageRead s n).toNat) ∧
  (∀ s v, booted s = true → exec (.hostAccess (.vfEnable v)) s = .next { s with pkg := { s.pkg with vfEnable := v } }) ∧
  (∀ s f (x : DWord), booted s = true → f < 64 →
    exec (.registerWrite (.page (0x100 * f + 0x20)) x) s = .next (s.setFn f { s.fn f with savesz := lowWord x })) ∧
  (∀ s d (x : DWord), booted s = true → d < 4 →
    exec (.registerWrite (.page (0x4100 + 0x40 * d + 0x08)) x) s = .next (s.setDie d { s.die d with smArg := x })) ∧
  (∀ s f (x : DWord), booted s = true → f < 64 → ∃ s', exec (.registerWrite (.page (0xC000 + 0x40 * f)) x) s = .next s' ∧
    (s'.fn f).vdnbase.toNat = x.toNat % 2 + x.toNat / 2 ^ 18 % 2 ^ 34 * 2 ^ 18) ∧
  (∀ s (x : DWord), s.och.stage ≠ 0 → exec (.registerWrite (.page 0x8020) x) s = .next { s with och := { s.och with upd := x } }) ∧
  (∀ s off (x : DWord), off % 8 ≠ 0 ∨ (s.och.stage = 0 ∨ (s.och.stage ≠ 2 ∧ off < 0x8000)) →
    exec (.registerWrite (.page off) x) s = .next s) ∧
  (∀ s (x : DWord), booted s = true → exec (.registerWrite (.csr 0x118) x) s = .next (packagePut s 0x118 (fun _ => x.toNat) x.toNat))
end

