-- ==== Sys2Proof/Laws/State.lean ====
section
/-! SUPPORT. One lemma per field and update: what each named update of the state, and of a thread, leaves and writes. -/

namespace Sys2Proof.Machine

/-! ## `State.setThread` -/

@[simp] theorem State.setThread_now (s : State) (t : Thread) : (s.setThread t).now = s.now := rfl
@[simp] theorem State.setThread_cur (s : State) (t : Thread) : (s.setThread t).cur = s.cur := rfl
@[simp] theorem State.setThread_agenda (s : State) (t : Thread) : (s.setThread t).agenda = s.agenda := rfl
@[simp] theorem State.setThread_uid (s : State) (t : Thread) : (s.setThread t).uid = s.uid := rfl
@[simp] theorem State.setThread_freeCtr (s : State) (t : Thread) : (s.setThread t).freeCtr = s.freeCtr := rfl
@[simp] theorem State.setThread_mem (s : State) (t : Thread) : (s.setThread t).mem = s.mem := rfl
@[simp] theorem State.setThread_dirty (s : State) (t : Thread) : (s.setThread t).dirty = s.dirty := rfl
@[simp] theorem State.setThread_poison (s : State) (t : Thread) : (s.setThread t).poison = s.poison := rfl
@[simp] theorem State.setThread_llc (s : State) (t : Thread) : (s.setThread t).llc = s.llc := rfl
@[simp] theorem State.setThread_threads (s : State) (t : Thread) : (s.setThread t).threads = Tab.put s.threads (tkey t.team t.tix) t := rfl
@[simp] theorem State.setThread_teams (s : State) (t : Thread) : (s.setThread t).teams = s.teams := rfl
@[simp] theorem State.setThread_launches (s : State) (t : Thread) : (s.setThread t).launches = s.launches := rfl
@[simp] theorem State.setThread_programs (s : State) (t : Thread) : (s.setThread t).programs = s.programs := rfl
@[simp] theorem State.setThread_reqs (s : State) (t : Thread) : (s.setThread t).reqs = s.reqs := rfl
@[simp] theorem State.setThread_cores (s : State) (t : Thread) : (s.setThread t).cores = s.cores := rfl
@[simp] theorem State.setThread_clusters (s : State) (t : Thread) : (s.setThread t).clusters = s.clusters := rfl
@[simp] theorem State.setThread_dies (s : State) (t : Thread) : (s.setThread t).dies = s.dies := rfl
@[simp] theorem State.setThread_queues (s : State) (t : Thread) : (s.setThread t).queues = s.queues := rfl
@[simp] theorem State.setThread_fns (s : State) (t : Thread) : (s.setThread t).fns = s.fns := rfl
@[simp] theorem State.setThread_pkg (s : State) (t : Thread) : (s.setThread t).pkg = s.pkg := rfl
@[simp] theorem State.setThread_och (s : State) (t : Thread) : (s.setThread t).och = s.och := rfl
@[simp] theorem State.setThread_fab (s : State) (t : Thread) : (s.setThread t).fab = s.fab := rfl

/-! ## `State.updThread` -/

@[simp] theorem State.updThread_now (s : State) (a x : Nat) (f : Thread → Thread) : (s.updThread a x f).now = s.now := rfl
@[simp] theorem State.updThread_cur (s : State) (a x : Nat) (f : Thread → Thread) : (s.updThread a x f).cur = s.cur := rfl
@[simp] theorem State.updThread_agenda (s : State) (a x : Nat) (f : Thread → Thread) : (s.updThread a x f).agenda = s.agenda := rfl
@[simp] theorem State.updThread_uid (s : State) (a x : Nat) (f : Thread → Thread) : (s.updThread a x f).uid = s.uid := rfl
@[simp] theorem State.updThread_freeCtr (s : State) (a x : Nat) (f : Thread → Thread) : (s.updThread a x f).freeCtr = s.freeCtr := rfl
@[simp] theorem State.updThread_mem (s : State) (a x : Nat) (f : Thread → Thread) : (s.updThread a x f).mem = s.mem := rfl
@[simp] theorem State.updThread_dirty (s : State) (a x : Nat) (f : Thread → Thread) : (s.updThread a x f).dirty = s.dirty := rfl
@[simp] theorem State.updThread_poison (s : State) (a x : Nat) (f : Thread → Thread) : (s.updThread a x f).poison = s.poison := rfl
@[simp] theorem State.updThread_llc (s : State) (a x : Nat) (f : Thread → Thread) : (s.updThread a x f).llc = s.llc := rfl
@[simp] theorem State.updThread_threads (s : State) (a x : Nat) (f : Thread → Thread) : (s.updThread a x f).threads = Tab.upd s.threads (tkey a x) f := rfl
@[simp] theorem State.updThread_teams (s : State) (a x : Nat) (f : Thread → Thread) : (s.updThread a x f).teams = s.teams := rfl
@[simp] theorem State.updThread_launches (s : State) (a x : Nat) (f : Thread → Thread) : (s.updThread a x f).launches = s.launches := rfl
@[simp] theorem State.updThread_programs (s : State) (a x : Nat) (f : Thread → Thread) : (s.updThread a x f).programs = s.programs := rfl
@[simp] theorem State.updThread_reqs (s : State) (a x : Nat) (f : Thread → Thread) : (s.updThread a x f).reqs = s.reqs := rfl
@[simp] theorem State.updThread_cores (s : State) (a x : Nat) (f : Thread → Thread) : (s.updThread a x f).cores = s.cores := rfl
@[simp] theorem State.updThread_clusters (s : State) (a x : Nat) (f : Thread → Thread) : (s.updThread a x f).clusters = s.clusters := rfl
@[simp] theorem State.updThread_dies (s : State) (a x : Nat) (f : Thread → Thread) : (s.updThread a x f).dies = s.dies := rfl
@[simp] theorem State.updThread_queues (s : State) (a x : Nat) (f : Thread → Thread) : (s.updThread a x f).queues = s.queues := rfl
@[simp] theorem State.updThread_fns (s : State) (a x : Nat) (f : Thread → Thread) : (s.updThread a x f).fns = s.fns := rfl
@[simp] theorem State.updThread_pkg (s : State) (a x : Nat) (f : Thread → Thread) : (s.updThread a x f).pkg = s.pkg := rfl
@[simp] theorem State.updThread_och (s : State) (a x : Nat) (f : Thread → Thread) : (s.updThread a x f).och = s.och := rfl
@[simp] theorem State.updThread_fab (s : State) (a x : Nat) (f : Thread → Thread) : (s.updThread a x f).fab = s.fab := rfl

/-! ## `State.setTeam` -/

@[simp] theorem State.setTeam_now (s : State) (u : Nat) (m : Team) : (s.setTeam u m).now = s.now := rfl
@[simp] theorem State.setTeam_cur (s : State) (u : Nat) (m : Team) : (s.setTeam u m).cur = s.cur := rfl
@[simp] theorem State.setTeam_agenda (s : State) (u : Nat) (m : Team) : (s.setTeam u m).agenda = s.agenda := rfl
@[simp] theorem State.setTeam_uid (s : State) (u : Nat) (m : Team) : (s.setTeam u m).uid = s.uid := rfl
@[simp] theorem State.setTeam_freeCtr (s : State) (u : Nat) (m : Team) : (s.setTeam u m).freeCtr = s.freeCtr := rfl
@[simp] theorem State.setTeam_mem (s : State) (u : Nat) (m : Team) : (s.setTeam u m).mem = s.mem := rfl
@[simp] theorem State.setTeam_dirty (s : State) (u : Nat) (m : Team) : (s.setTeam u m).dirty = s.dirty := rfl
@[simp] theorem State.setTeam_poison (s : State) (u : Nat) (m : Team) : (s.setTeam u m).poison = s.poison := rfl
@[simp] theorem State.setTeam_llc (s : State) (u : Nat) (m : Team) : (s.setTeam u m).llc = s.llc := rfl
@[simp] theorem State.setTeam_threads (s : State) (u : Nat) (m : Team) : (s.setTeam u m).threads = s.threads := rfl
@[simp] theorem State.setTeam_teams (s : State) (u : Nat) (m : Team) : (s.setTeam u m).teams = Tab.put s.teams u m := rfl
@[simp] theorem State.setTeam_launches (s : State) (u : Nat) (m : Team) : (s.setTeam u m).launches = s.launches := rfl
@[simp] theorem State.setTeam_programs (s : State) (u : Nat) (m : Team) : (s.setTeam u m).programs = s.programs := rfl
@[simp] theorem State.setTeam_reqs (s : State) (u : Nat) (m : Team) : (s.setTeam u m).reqs = s.reqs := rfl
@[simp] theorem State.setTeam_cores (s : State) (u : Nat) (m : Team) : (s.setTeam u m).cores = s.cores := rfl
@[simp] theorem State.setTeam_clusters (s : State) (u : Nat) (m : Team) : (s.setTeam u m).clusters = s.clusters := rfl
@[simp] theorem State.setTeam_dies (s : State) (u : Nat) (m : Team) : (s.setTeam u m).dies = s.dies := rfl
@[simp] theorem State.setTeam_queues (s : State) (u : Nat) (m : Team) : (s.setTeam u m).queues = s.queues := rfl
@[simp] theorem State.setTeam_fns (s : State) (u : Nat) (m : Team) : (s.setTeam u m).fns = s.fns := rfl
@[simp] theorem State.setTeam_pkg (s : State) (u : Nat) (m : Team) : (s.setTeam u m).pkg = s.pkg := rfl
@[simp] theorem State.setTeam_och (s : State) (u : Nat) (m : Team) : (s.setTeam u m).och = s.och := rfl
@[simp] theorem State.setTeam_fab (s : State) (u : Nat) (m : Team) : (s.setTeam u m).fab = s.fab := rfl

/-! ## `State.updTeam` -/

@[simp] theorem State.updTeam_now (s : State) (u : Nat) (f : Team → Team) : (s.updTeam u f).now = s.now := rfl
@[simp] theorem State.updTeam_cur (s : State) (u : Nat) (f : Team → Team) : (s.updTeam u f).cur = s.cur := rfl
@[simp] theorem State.updTeam_agenda (s : State) (u : Nat) (f : Team → Team) : (s.updTeam u f).agenda = s.agenda := rfl
@[simp] theorem State.updTeam_uid (s : State) (u : Nat) (f : Team → Team) : (s.updTeam u f).uid = s.uid := rfl
@[simp] theorem State.updTeam_freeCtr (s : State) (u : Nat) (f : Team → Team) : (s.updTeam u f).freeCtr = s.freeCtr := rfl
@[simp] theorem State.updTeam_mem (s : State) (u : Nat) (f : Team → Team) : (s.updTeam u f).mem = s.mem := rfl
@[simp] theorem State.updTeam_dirty (s : State) (u : Nat) (f : Team → Team) : (s.updTeam u f).dirty = s.dirty := rfl
@[simp] theorem State.updTeam_poison (s : State) (u : Nat) (f : Team → Team) : (s.updTeam u f).poison = s.poison := rfl
@[simp] theorem State.updTeam_llc (s : State) (u : Nat) (f : Team → Team) : (s.updTeam u f).llc = s.llc := rfl
@[simp] theorem State.updTeam_threads (s : State) (u : Nat) (f : Team → Team) : (s.updTeam u f).threads = s.threads := rfl
@[simp] theorem State.updTeam_teams (s : State) (u : Nat) (f : Team → Team) : (s.updTeam u f).teams = Tab.upd s.teams u f := rfl
@[simp] theorem State.updTeam_launches (s : State) (u : Nat) (f : Team → Team) : (s.updTeam u f).launches = s.launches := rfl
@[simp] theorem State.updTeam_programs (s : State) (u : Nat) (f : Team → Team) : (s.updTeam u f).programs = s.programs := rfl
@[simp] theorem State.updTeam_reqs (s : State) (u : Nat) (f : Team → Team) : (s.updTeam u f).reqs = s.reqs := rfl
@[simp] theorem State.updTeam_cores (s : State) (u : Nat) (f : Team → Team) : (s.updTeam u f).cores = s.cores := rfl
@[simp] theorem State.updTeam_clusters (s : State) (u : Nat) (f : Team → Team) : (s.updTeam u f).clusters = s.clusters := rfl
@[simp] theorem State.updTeam_dies (s : State) (u : Nat) (f : Team → Team) : (s.updTeam u f).dies = s.dies := rfl
@[simp] theorem State.updTeam_queues (s : State) (u : Nat) (f : Team → Team) : (s.updTeam u f).queues = s.queues := rfl
@[simp] theorem State.updTeam_fns (s : State) (u : Nat) (f : Team → Team) : (s.updTeam u f).fns = s.fns := rfl
@[simp] theorem State.updTeam_pkg (s : State) (u : Nat) (f : Team → Team) : (s.updTeam u f).pkg = s.pkg := rfl
@[simp] theorem State.updTeam_och (s : State) (u : Nat) (f : Team → Team) : (s.updTeam u f).och = s.och := rfl
@[simp] theorem State.updTeam_fab (s : State) (u : Nat) (f : Team → Team) : (s.updTeam u f).fab = s.fab := rfl

/-! ## `State.updLaunch` -/

@[simp] theorem State.updLaunch_now (s : State) (u : Nat) (f : Launch → Launch) : (s.updLaunch u f).now = s.now := rfl
@[simp] theorem State.updLaunch_cur (s : State) (u : Nat) (f : Launch → Launch) : (s.updLaunch u f).cur = s.cur := rfl
@[simp] theorem State.updLaunch_agenda (s : State) (u : Nat) (f : Launch → Launch) : (s.updLaunch u f).agenda = s.agenda := rfl
@[simp] theorem State.updLaunch_uid (s : State) (u : Nat) (f : Launch → Launch) : (s.updLaunch u f).uid = s.uid := rfl
@[simp] theorem State.updLaunch_freeCtr (s : State) (u : Nat) (f : Launch → Launch) : (s.updLaunch u f).freeCtr = s.freeCtr := rfl
@[simp] theorem State.updLaunch_mem (s : State) (u : Nat) (f : Launch → Launch) : (s.updLaunch u f).mem = s.mem := rfl
@[simp] theorem State.updLaunch_dirty (s : State) (u : Nat) (f : Launch → Launch) : (s.updLaunch u f).dirty = s.dirty := rfl
@[simp] theorem State.updLaunch_poison (s : State) (u : Nat) (f : Launch → Launch) : (s.updLaunch u f).poison = s.poison := rfl
@[simp] theorem State.updLaunch_llc (s : State) (u : Nat) (f : Launch → Launch) : (s.updLaunch u f).llc = s.llc := rfl
@[simp] theorem State.updLaunch_threads (s : State) (u : Nat) (f : Launch → Launch) : (s.updLaunch u f).threads = s.threads := rfl
@[simp] theorem State.updLaunch_teams (s : State) (u : Nat) (f : Launch → Launch) : (s.updLaunch u f).teams = s.teams := rfl
@[simp] theorem State.updLaunch_launches (s : State) (u : Nat) (f : Launch → Launch) : (s.updLaunch u f).launches = Tab.upd s.launches u f := rfl
@[simp] theorem State.updLaunch_programs (s : State) (u : Nat) (f : Launch → Launch) : (s.updLaunch u f).programs = s.programs := rfl
@[simp] theorem State.updLaunch_reqs (s : State) (u : Nat) (f : Launch → Launch) : (s.updLaunch u f).reqs = s.reqs := rfl
@[simp] theorem State.updLaunch_cores (s : State) (u : Nat) (f : Launch → Launch) : (s.updLaunch u f).cores = s.cores := rfl
@[simp] theorem State.updLaunch_clusters (s : State) (u : Nat) (f : Launch → Launch) : (s.updLaunch u f).clusters = s.clusters := rfl
@[simp] theorem State.updLaunch_dies (s : State) (u : Nat) (f : Launch → Launch) : (s.updLaunch u f).dies = s.dies := rfl
@[simp] theorem State.updLaunch_queues (s : State) (u : Nat) (f : Launch → Launch) : (s.updLaunch u f).queues = s.queues := rfl
@[simp] theorem State.updLaunch_fns (s : State) (u : Nat) (f : Launch → Launch) : (s.updLaunch u f).fns = s.fns := rfl
@[simp] theorem State.updLaunch_pkg (s : State) (u : Nat) (f : Launch → Launch) : (s.updLaunch u f).pkg = s.pkg := rfl
@[simp] theorem State.updLaunch_och (s : State) (u : Nat) (f : Launch → Launch) : (s.updLaunch u f).och = s.och := rfl
@[simp] theorem State.updLaunch_fab (s : State) (u : Nat) (f : Launch → Launch) : (s.updLaunch u f).fab = s.fab := rfl

/-! ## `State.updProgram` -/

@[simp] theorem State.updProgram_now (s : State) (u : Nat) (f : Program → Program) : (s.updProgram u f).now = s.now := rfl
@[simp] theorem State.updProgram_cur (s : State) (u : Nat) (f : Program → Program) : (s.updProgram u f).cur = s.cur := rfl
@[simp] theorem State.updProgram_agenda (s : State) (u : Nat) (f : Program → Program) : (s.updProgram u f).agenda = s.agenda := rfl
@[simp] theorem State.updProgram_uid (s : State) (u : Nat) (f : Program → Program) : (s.updProgram u f).uid = s.uid := rfl
@[simp] theorem State.updProgram_freeCtr (s : State) (u : Nat) (f : Program → Program) : (s.updProgram u f).freeCtr = s.freeCtr := rfl
@[simp] theorem State.updProgram_mem (s : State) (u : Nat) (f : Program → Program) : (s.updProgram u f).mem = s.mem := rfl
@[simp] theorem State.updProgram_dirty (s : State) (u : Nat) (f : Program → Program) : (s.updProgram u f).dirty = s.dirty := rfl
@[simp] theorem State.updProgram_poison (s : State) (u : Nat) (f : Program → Program) : (s.updProgram u f).poison = s.poison := rfl
@[simp] theorem State.updProgram_llc (s : State) (u : Nat) (f : Program → Program) : (s.updProgram u f).llc = s.llc := rfl
@[simp] theorem State.updProgram_threads (s : State) (u : Nat) (f : Program → Program) : (s.updProgram u f).threads = s.threads := rfl
@[simp] theorem State.updProgram_teams (s : State) (u : Nat) (f : Program → Program) : (s.updProgram u f).teams = s.teams := rfl
@[simp] theorem State.updProgram_launches (s : State) (u : Nat) (f : Program → Program) : (s.updProgram u f).launches = s.launches := rfl
@[simp] theorem State.updProgram_programs (s : State) (u : Nat) (f : Program → Program) : (s.updProgram u f).programs = Tab.upd s.programs u f := rfl
@[simp] theorem State.updProgram_reqs (s : State) (u : Nat) (f : Program → Program) : (s.updProgram u f).reqs = s.reqs := rfl
@[simp] theorem State.updProgram_cores (s : State) (u : Nat) (f : Program → Program) : (s.updProgram u f).cores = s.cores := rfl
@[simp] theorem State.updProgram_clusters (s : State) (u : Nat) (f : Program → Program) : (s.updProgram u f).clusters = s.clusters := rfl
@[simp] theorem State.updProgram_dies (s : State) (u : Nat) (f : Program → Program) : (s.updProgram u f).dies = s.dies := rfl
@[simp] theorem State.updProgram_queues (s : State) (u : Nat) (f : Program → Program) : (s.updProgram u f).queues = s.queues := rfl
@[simp] theorem State.updProgram_fns (s : State) (u : Nat) (f : Program → Program) : (s.updProgram u f).fns = s.fns := rfl
@[simp] theorem State.updProgram_pkg (s : State) (u : Nat) (f : Program → Program) : (s.updProgram u f).pkg = s.pkg := rfl
@[simp] theorem State.updProgram_och (s : State) (u : Nat) (f : Program → Program) : (s.updProgram u f).och = s.och := rfl
@[simp] theorem State.updProgram_fab (s : State) (u : Nat) (f : Program → Program) : (s.updProgram u f).fab = s.fab := rfl

/-! ## `State.updReq` -/

@[simp] theorem State.updReq_now (s : State) (u : Nat) (f : Req → Req) : (s.updReq u f).now = s.now := rfl
@[simp] theorem State.updReq_cur (s : State) (u : Nat) (f : Req → Req) : (s.updReq u f).cur = s.cur := rfl
@[simp] theorem State.updReq_agenda (s : State) (u : Nat) (f : Req → Req) : (s.updReq u f).agenda = s.agenda := rfl
@[simp] theorem State.updReq_uid (s : State) (u : Nat) (f : Req → Req) : (s.updReq u f).uid = s.uid := rfl
@[simp] theorem State.updReq_freeCtr (s : State) (u : Nat) (f : Req → Req) : (s.updReq u f).freeCtr = s.freeCtr := rfl
@[simp] theorem State.updReq_mem (s : State) (u : Nat) (f : Req → Req) : (s.updReq u f).mem = s.mem := rfl
@[simp] theorem State.updReq_dirty (s : State) (u : Nat) (f : Req → Req) : (s.updReq u f).dirty = s.dirty := rfl
@[simp] theorem State.updReq_poison (s : State) (u : Nat) (f : Req → Req) : (s.updReq u f).poison = s.poison := rfl
@[simp] theorem State.updReq_llc (s : State) (u : Nat) (f : Req → Req) : (s.updReq u f).llc = s.llc := rfl
@[simp] theorem State.updReq_threads (s : State) (u : Nat) (f : Req → Req) : (s.updReq u f).threads = s.threads := rfl
@[simp] theorem State.updReq_teams (s : State) (u : Nat) (f : Req → Req) : (s.updReq u f).teams = s.teams := rfl
@[simp] theorem State.updReq_launches (s : State) (u : Nat) (f : Req → Req) : (s.updReq u f).launches = s.launches := rfl
@[simp] theorem State.updReq_programs (s : State) (u : Nat) (f : Req → Req) : (s.updReq u f).programs = s.programs := rfl
@[simp] theorem State.updReq_reqs (s : State) (u : Nat) (f : Req → Req) : (s.updReq u f).reqs = Tab.upd s.reqs u f := rfl
@[simp] theorem State.updReq_cores (s : State) (u : Nat) (f : Req → Req) : (s.updReq u f).cores = s.cores := rfl
@[simp] theorem State.updReq_clusters (s : State) (u : Nat) (f : Req → Req) : (s.updReq u f).clusters = s.clusters := rfl
@[simp] theorem State.updReq_dies (s : State) (u : Nat) (f : Req → Req) : (s.updReq u f).dies = s.dies := rfl
@[simp] theorem State.updReq_queues (s : State) (u : Nat) (f : Req → Req) : (s.updReq u f).queues = s.queues := rfl
@[simp] theorem State.updReq_fns (s : State) (u : Nat) (f : Req → Req) : (s.updReq u f).fns = s.fns := rfl
@[simp] theorem State.updReq_pkg (s : State) (u : Nat) (f : Req → Req) : (s.updReq u f).pkg = s.pkg := rfl
@[simp] theorem State.updReq_och (s : State) (u : Nat) (f : Req → Req) : (s.updReq u f).och = s.och := rfl
@[simp] theorem State.updReq_fab (s : State) (u : Nat) (f : Req → Req) : (s.updReq u f).fab = s.fab := rfl

/-! ## `State.setCore` -/

@[simp] theorem State.setCore_now (s : State) (c : Nat) (x : Core) : (s.setCore c x).now = s.now := rfl
@[simp] theorem State.setCore_cur (s : State) (c : Nat) (x : Core) : (s.setCore c x).cur = s.cur := rfl
@[simp] theorem State.setCore_agenda (s : State) (c : Nat) (x : Core) : (s.setCore c x).agenda = s.agenda := rfl
@[simp] theorem State.setCore_uid (s : State) (c : Nat) (x : Core) : (s.setCore c x).uid = s.uid := rfl
@[simp] theorem State.setCore_freeCtr (s : State) (c : Nat) (x : Core) : (s.setCore c x).freeCtr = s.freeCtr := rfl
@[simp] theorem State.setCore_mem (s : State) (c : Nat) (x : Core) : (s.setCore c x).mem = s.mem := rfl
@[simp] theorem State.setCore_dirty (s : State) (c : Nat) (x : Core) : (s.setCore c x).dirty = s.dirty := rfl
@[simp] theorem State.setCore_poison (s : State) (c : Nat) (x : Core) : (s.setCore c x).poison = s.poison := rfl
@[simp] theorem State.setCore_llc (s : State) (c : Nat) (x : Core) : (s.setCore c x).llc = s.llc := rfl
@[simp] theorem State.setCore_threads (s : State) (c : Nat) (x : Core) : (s.setCore c x).threads = s.threads := rfl
@[simp] theorem State.setCore_teams (s : State) (c : Nat) (x : Core) : (s.setCore c x).teams = s.teams := rfl
@[simp] theorem State.setCore_launches (s : State) (c : Nat) (x : Core) : (s.setCore c x).launches = s.launches := rfl
@[simp] theorem State.setCore_programs (s : State) (c : Nat) (x : Core) : (s.setCore c x).programs = s.programs := rfl
@[simp] theorem State.setCore_reqs (s : State) (c : Nat) (x : Core) : (s.setCore c x).reqs = s.reqs := rfl
@[simp] theorem State.setCore_cores (s : State) (c : Nat) (x : Core) : (s.setCore c x).cores = FMap.set Core.empty s.cores c x := rfl
@[simp] theorem State.setCore_clusters (s : State) (c : Nat) (x : Core) : (s.setCore c x).clusters = s.clusters := rfl
@[simp] theorem State.setCore_dies (s : State) (c : Nat) (x : Core) : (s.setCore c x).dies = s.dies := rfl
@[simp] theorem State.setCore_queues (s : State) (c : Nat) (x : Core) : (s.setCore c x).queues = s.queues := rfl
@[simp] theorem State.setCore_fns (s : State) (c : Nat) (x : Core) : (s.setCore c x).fns = s.fns := rfl
@[simp] theorem State.setCore_pkg (s : State) (c : Nat) (x : Core) : (s.setCore c x).pkg = s.pkg := rfl
@[simp] theorem State.setCore_och (s : State) (c : Nat) (x : Core) : (s.setCore c x).och = s.och := rfl
@[simp] theorem State.setCore_fab (s : State) (c : Nat) (x : Core) : (s.setCore c x).fab = s.fab := rfl

/-! ## `State.setCluster` -/

@[simp] theorem State.setCluster_now (s : State) (c : Nat) (x : Cluster) : (s.setCluster c x).now = s.now := rfl
@[simp] theorem State.setCluster_cur (s : State) (c : Nat) (x : Cluster) : (s.setCluster c x).cur = s.cur := rfl
@[simp] theorem State.setCluster_agenda (s : State) (c : Nat) (x : Cluster) : (s.setCluster c x).agenda = s.agenda := rfl
@[simp] theorem State.setCluster_uid (s : State) (c : Nat) (x : Cluster) : (s.setCluster c x).uid = s.uid := rfl
@[simp] theorem State.setCluster_freeCtr (s : State) (c : Nat) (x : Cluster) : (s.setCluster c x).freeCtr = s.freeCtr := rfl
@[simp] theorem State.setCluster_mem (s : State) (c : Nat) (x : Cluster) : (s.setCluster c x).mem = s.mem := rfl
@[simp] theorem State.setCluster_dirty (s : State) (c : Nat) (x : Cluster) : (s.setCluster c x).dirty = s.dirty := rfl
@[simp] theorem State.setCluster_poison (s : State) (c : Nat) (x : Cluster) : (s.setCluster c x).poison = s.poison := rfl
@[simp] theorem State.setCluster_llc (s : State) (c : Nat) (x : Cluster) : (s.setCluster c x).llc = s.llc := rfl
@[simp] theorem State.setCluster_threads (s : State) (c : Nat) (x : Cluster) : (s.setCluster c x).threads = s.threads := rfl
@[simp] theorem State.setCluster_teams (s : State) (c : Nat) (x : Cluster) : (s.setCluster c x).teams = s.teams := rfl
@[simp] theorem State.setCluster_launches (s : State) (c : Nat) (x : Cluster) : (s.setCluster c x).launches = s.launches := rfl
@[simp] theorem State.setCluster_programs (s : State) (c : Nat) (x : Cluster) : (s.setCluster c x).programs = s.programs := rfl
@[simp] theorem State.setCluster_reqs (s : State) (c : Nat) (x : Cluster) : (s.setCluster c x).reqs = s.reqs := rfl
@[simp] theorem State.setCluster_cores (s : State) (c : Nat) (x : Cluster) : (s.setCluster c x).cores = s.cores := rfl
@[simp] theorem State.setCluster_clusters (s : State) (c : Nat) (x : Cluster) : (s.setCluster c x).clusters = FMap.set Cluster.empty s.clusters c x := rfl
@[simp] theorem State.setCluster_dies (s : State) (c : Nat) (x : Cluster) : (s.setCluster c x).dies = s.dies := rfl
@[simp] theorem State.setCluster_queues (s : State) (c : Nat) (x : Cluster) : (s.setCluster c x).queues = s.queues := rfl
@[simp] theorem State.setCluster_fns (s : State) (c : Nat) (x : Cluster) : (s.setCluster c x).fns = s.fns := rfl
@[simp] theorem State.setCluster_pkg (s : State) (c : Nat) (x : Cluster) : (s.setCluster c x).pkg = s.pkg := rfl
@[simp] theorem State.setCluster_och (s : State) (c : Nat) (x : Cluster) : (s.setCluster c x).och = s.och := rfl
@[simp] theorem State.setCluster_fab (s : State) (c : Nat) (x : Cluster) : (s.setCluster c x).fab = s.fab := rfl

/-! ## `State.setDie` -/

@[simp] theorem State.setDie_now (s : State) (d : Nat) (x : Die) : (s.setDie d x).now = s.now := rfl
@[simp] theorem State.setDie_cur (s : State) (d : Nat) (x : Die) : (s.setDie d x).cur = s.cur := rfl
@[simp] theorem State.setDie_agenda (s : State) (d : Nat) (x : Die) : (s.setDie d x).agenda = s.agenda := rfl
@[simp] theorem State.setDie_uid (s : State) (d : Nat) (x : Die) : (s.setDie d x).uid = s.uid := rfl
@[simp] theorem State.setDie_freeCtr (s : State) (d : Nat) (x : Die) : (s.setDie d x).freeCtr = s.freeCtr := rfl
@[simp] theorem State.setDie_mem (s : State) (d : Nat) (x : Die) : (s.setDie d x).mem = s.mem := rfl
@[simp] theorem State.setDie_dirty (s : State) (d : Nat) (x : Die) : (s.setDie d x).dirty = s.dirty := rfl
@[simp] theorem State.setDie_poison (s : State) (d : Nat) (x : Die) : (s.setDie d x).poison = s.poison := rfl
@[simp] theorem State.setDie_llc (s : State) (d : Nat) (x : Die) : (s.setDie d x).llc = s.llc := rfl
@[simp] theorem State.setDie_threads (s : State) (d : Nat) (x : Die) : (s.setDie d x).threads = s.threads := rfl
@[simp] theorem State.setDie_teams (s : State) (d : Nat) (x : Die) : (s.setDie d x).teams = s.teams := rfl
@[simp] theorem State.setDie_launches (s : State) (d : Nat) (x : Die) : (s.setDie d x).launches = s.launches := rfl
@[simp] theorem State.setDie_programs (s : State) (d : Nat) (x : Die) : (s.setDie d x).programs = s.programs := rfl
@[simp] theorem State.setDie_reqs (s : State) (d : Nat) (x : Die) : (s.setDie d x).reqs = s.reqs := rfl
@[simp] theorem State.setDie_cores (s : State) (d : Nat) (x : Die) : (s.setDie d x).cores = s.cores := rfl
@[simp] theorem State.setDie_clusters (s : State) (d : Nat) (x : Die) : (s.setDie d x).clusters = s.clusters := rfl
@[simp] theorem State.setDie_dies (s : State) (d : Nat) (x : Die) : (s.setDie d x).dies = FMap.set Die.reset s.dies d x := rfl
@[simp] theorem State.setDie_queues (s : State) (d : Nat) (x : Die) : (s.setDie d x).queues = s.queues := rfl
@[simp] theorem State.setDie_fns (s : State) (d : Nat) (x : Die) : (s.setDie d x).fns = s.fns := rfl
@[simp] theorem State.setDie_pkg (s : State) (d : Nat) (x : Die) : (s.setDie d x).pkg = s.pkg := rfl
@[simp] theorem State.setDie_och (s : State) (d : Nat) (x : Die) : (s.setDie d x).och = s.och := rfl
@[simp] theorem State.setDie_fab (s : State) (d : Nat) (x : Die) : (s.setDie d x).fab = s.fab := rfl

/-! ## `State.setFn` -/

@[simp] theorem State.setFn_now (s : State) (n : Nat) (x : Fn) : (s.setFn n x).now = s.now := rfl
@[simp] theorem State.setFn_cur (s : State) (n : Nat) (x : Fn) : (s.setFn n x).cur = s.cur := rfl
@[simp] theorem State.setFn_agenda (s : State) (n : Nat) (x : Fn) : (s.setFn n x).agenda = s.agenda := rfl
@[simp] theorem State.setFn_uid (s : State) (n : Nat) (x : Fn) : (s.setFn n x).uid = s.uid := rfl
@[simp] theorem State.setFn_freeCtr (s : State) (n : Nat) (x : Fn) : (s.setFn n x).freeCtr = s.freeCtr := rfl
@[simp] theorem State.setFn_mem (s : State) (n : Nat) (x : Fn) : (s.setFn n x).mem = s.mem := rfl
@[simp] theorem State.setFn_dirty (s : State) (n : Nat) (x : Fn) : (s.setFn n x).dirty = s.dirty := rfl
@[simp] theorem State.setFn_poison (s : State) (n : Nat) (x : Fn) : (s.setFn n x).poison = s.poison := rfl
@[simp] theorem State.setFn_llc (s : State) (n : Nat) (x : Fn) : (s.setFn n x).llc = s.llc := rfl
@[simp] theorem State.setFn_threads (s : State) (n : Nat) (x : Fn) : (s.setFn n x).threads = s.threads := rfl
@[simp] theorem State.setFn_teams (s : State) (n : Nat) (x : Fn) : (s.setFn n x).teams = s.teams := rfl
@[simp] theorem State.setFn_launches (s : State) (n : Nat) (x : Fn) : (s.setFn n x).launches = s.launches := rfl
@[simp] theorem State.setFn_programs (s : State) (n : Nat) (x : Fn) : (s.setFn n x).programs = s.programs := rfl
@[simp] theorem State.setFn_reqs (s : State) (n : Nat) (x : Fn) : (s.setFn n x).reqs = s.reqs := rfl
@[simp] theorem State.setFn_cores (s : State) (n : Nat) (x : Fn) : (s.setFn n x).cores = s.cores := rfl
@[simp] theorem State.setFn_clusters (s : State) (n : Nat) (x : Fn) : (s.setFn n x).clusters = s.clusters := rfl
@[simp] theorem State.setFn_dies (s : State) (n : Nat) (x : Fn) : (s.setFn n x).dies = s.dies := rfl
@[simp] theorem State.setFn_queues (s : State) (n : Nat) (x : Fn) : (s.setFn n x).queues = s.queues := rfl
@[simp] theorem State.setFn_fns (s : State) (n : Nat) (x : Fn) : (s.setFn n x).fns = FMap.set (Fn.default n) s.fns n x := rfl
@[simp] theorem State.setFn_pkg (s : State) (n : Nat) (x : Fn) : (s.setFn n x).pkg = s.pkg := rfl
@[simp] theorem State.setFn_och (s : State) (n : Nat) (x : Fn) : (s.setFn n x).och = s.och := rfl
@[simp] theorem State.setFn_fab (s : State) (n : Nat) (x : Fn) : (s.setFn n x).fab = s.fab := rfl

/-! ## `State.setLq` -/

@[simp] theorem State.setLq_now (s : State) (n q : Nat) (x : LQ) : (s.setLq n q x).now = s.now := rfl
@[simp] theorem State.setLq_cur (s : State) (n q : Nat) (x : LQ) : (s.setLq n q x).cur = s.cur := rfl
@[simp] theorem State.setLq_agenda (s : State) (n q : Nat) (x : LQ) : (s.setLq n q x).agenda = s.agenda := rfl
@[simp] theorem State.setLq_uid (s : State) (n q : Nat) (x : LQ) : (s.setLq n q x).uid = s.uid := rfl
@[simp] theorem State.setLq_freeCtr (s : State) (n q : Nat) (x : LQ) : (s.setLq n q x).freeCtr = s.freeCtr := rfl
@[simp] theorem State.setLq_mem (s : State) (n q : Nat) (x : LQ) : (s.setLq n q x).mem = s.mem := rfl
@[simp] theorem State.setLq_dirty (s : State) (n q : Nat) (x : LQ) : (s.setLq n q x).dirty = s.dirty := rfl
@[simp] theorem State.setLq_poison (s : State) (n q : Nat) (x : LQ) : (s.setLq n q x).poison = s.poison := rfl
@[simp] theorem State.setLq_llc (s : State) (n q : Nat) (x : LQ) : (s.setLq n q x).llc = s.llc := rfl
@[simp] theorem State.setLq_threads (s : State) (n q : Nat) (x : LQ) : (s.setLq n q x).threads = s.threads := rfl
@[simp] theorem State.setLq_teams (s : State) (n q : Nat) (x : LQ) : (s.setLq n q x).teams = s.teams := rfl
@[simp] theorem State.setLq_launches (s : State) (n q : Nat) (x : LQ) : (s.setLq n q x).launches = s.launches := rfl
@[simp] theorem State.setLq_programs (s : State) (n q : Nat) (x : LQ) : (s.setLq n q x).programs = s.programs := rfl
@[simp] theorem State.setLq_reqs (s : State) (n q : Nat) (x : LQ) : (s.setLq n q x).reqs = s.reqs := rfl
@[simp] theorem State.setLq_cores (s : State) (n q : Nat) (x : LQ) : (s.setLq n q x).cores = s.cores := rfl
@[simp] theorem State.setLq_clusters (s : State) (n q : Nat) (x : LQ) : (s.setLq n q x).clusters = s.clusters := rfl
@[simp] theorem State.setLq_dies (s : State) (n q : Nat) (x : LQ) : (s.setLq n q x).dies = s.dies := rfl
@[simp] theorem State.setLq_queues (s : State) (n q : Nat) (x : LQ) : (s.setLq n q x).queues = FMap.set LQ.reset s.queues (n * 32 + q) x := rfl
@[simp] theorem State.setLq_fns (s : State) (n q : Nat) (x : LQ) : (s.setLq n q x).fns = s.fns := rfl
@[simp] theorem State.setLq_pkg (s : State) (n q : Nat) (x : LQ) : (s.setLq n q x).pkg = s.pkg := rfl
@[simp] theorem State.setLq_och (s : State) (n q : Nat) (x : LQ) : (s.setLq n q x).och = s.och := rfl
@[simp] theorem State.setLq_fab (s : State) (n q : Nat) (x : LQ) : (s.setLq n q x).fab = s.fab := rfl

/-! ## `Thread.setReg`, `Thread.write`, `Thread.writePair`, `Thread.leaveTrap` -/

@[simp] theorem Thread.setReg_team (t : Thread) (v : Nat) (x : RegVal) : (t.setReg v x).team = t.team := rfl
@[simp] theorem Thread.setReg_tix (t : Thread) (v : Nat) (x : RegVal) : (t.setReg v x).tix = t.tix := rfl
@[simp] theorem Thread.setReg_core (t : Thread) (v : Nat) (x : RegVal) : (t.setReg v x).core = t.core := rfl
@[simp] theorem Thread.setReg_slot (t : Thread) (v : Nat) (x : RegVal) : (t.setReg v x).slot = t.slot := rfl
@[simp] theorem Thread.setReg_pc (t : Thread) (v : Nat) (x : RegVal) : (t.setReg v x).pc = t.pc := rfl
@[simp] theorem Thread.setReg_regs (t : Thread) (v : Nat) (x : RegVal) : (t.setReg v x).regs = FMap.set (.full 0) t.regs v x := rfl
@[simp] theorem Thread.setReg_gmap (t : Thread) (v : Nat) (x : RegVal) : (t.setReg v x).gmap = t.gmap := rfl
@[simp] theorem Thread.setReg_fpctl (t : Thread) (v : Nat) (x : RegVal) : (t.setReg v x).fpctl = t.fpctl := rfl
@[simp] theorem Thread.setReg_fflags (t : Thread) (v : Nat) (x : RegVal) : (t.setReg v x).fflags = t.fflags := rfl
@[simp] theorem Thread.setReg_trapvec (t : Thread) (v : Nat) (x : RegVal) : (t.setReg v x).trapvec = t.trapvec := rfl
@[simp] theorem Thread.setReg_trappc (t : Thread) (v : Nat) (x : RegVal) : (t.setReg v x).trappc = t.trappc := rfl
@[simp] theorem Thread.setReg_trapcause (t : Thread) (v : Nat) (x : RegVal) : (t.setReg v x).trapcause = t.trapcause := rfl
@[simp] theorem Thread.setReg_priv (t : Thread) (v : Nat) (x : RegVal) : (t.setReg v x).priv = t.priv := rfl
@[simp] theorem Thread.setReg_place (t : Thread) (v : Nat) (x : RegVal) : (t.setReg v x).place = t.place := rfl
@[simp] theorem Thread.setReg_hcall (t : Thread) (v : Nat) (x : RegVal) : (t.setReg v x).hcall = t.hcall := rfl
@[simp] theorem Thread.write_team (t : Thread) (v : Nat) (w : Word) : (t.write v w).team = t.team := rfl
@[simp] theorem Thread.write_tix (t : Thread) (v : Nat) (w : Word) : (t.write v w).tix = t.tix := rfl
@[simp] theorem Thread.write_core (t : Thread) (v : Nat) (w : Word) : (t.write v w).core = t.core := rfl
@[simp] theorem Thread.write_slot (t : Thread) (v : Nat) (w : Word) : (t.write v w).slot = t.slot := rfl
@[simp] theorem Thread.write_pc (t : Thread) (v : Nat) (w : Word) : (t.write v w).pc = t.pc := rfl
@[simp] theorem Thread.write_gmap (t : Thread) (v : Nat) (w : Word) : (t.write v w).gmap = t.gmap := rfl
@[simp] theorem Thread.write_fpctl (t : Thread) (v : Nat) (w : Word) : (t.write v w).fpctl = t.fpctl := rfl
@[simp] theorem Thread.write_fflags (t : Thread) (v : Nat) (w : Word) : (t.write v w).fflags = t.fflags := rfl
@[simp] theorem Thread.write_trapvec (t : Thread) (v : Nat) (w : Word) : (t.write v w).trapvec = t.trapvec := rfl
@[simp] theorem Thread.write_trappc (t : Thread) (v : Nat) (w : Word) : (t.write v w).trappc = t.trappc := rfl
@[simp] theorem Thread.write_trapcause (t : Thread) (v : Nat) (w : Word) : (t.write v w).trapcause = t.trapcause := rfl
@[simp] theorem Thread.write_priv (t : Thread) (v : Nat) (w : Word) : (t.write v w).priv = t.priv := rfl
@[simp] theorem Thread.write_place (t : Thread) (v : Nat) (w : Word) : (t.write v w).place = t.place := rfl
@[simp] theorem Thread.write_hcall (t : Thread) (v : Nat) (w : Word) : (t.write v w).hcall = t.hcall := rfl
@[simp] theorem Thread.writePair_team (t : Thread) (v : Nat) (x : DWord) : (t.writePair v x).team = t.team := rfl
@[simp] theorem Thread.writePair_tix (t : Thread) (v : Nat) (x : DWord) : (t.writePair v x).tix = t.tix := rfl
@[simp] theorem Thread.writePair_core (t : Thread) (v : Nat) (x : DWord) : (t.writePair v x).core = t.core := rfl
@[simp] theorem Thread.writePair_slot (t : Thread) (v : Nat) (x : DWord) : (t.writePair v x).slot = t.slot := rfl
@[simp] theorem Thread.writePair_pc (t : Thread) (v : Nat) (x : DWord) : (t.writePair v x).pc = t.pc := rfl
@[simp] theorem Thread.writePair_gmap (t : Thread) (v : Nat) (x : DWord) : (t.writePair v x).gmap = t.gmap := rfl
@[simp] theorem Thread.writePair_fpctl (t : Thread) (v : Nat) (x : DWord) : (t.writePair v x).fpctl = t.fpctl := rfl
@[simp] theorem Thread.writePair_fflags (t : Thread) (v : Nat) (x : DWord) : (t.writePair v x).fflags = t.fflags := rfl
@[simp] theorem Thread.writePair_trapvec (t : Thread) (v : Nat) (x : DWord) : (t.writePair v x).trapvec = t.trapvec := rfl
@[simp] theorem Thread.writePair_trappc (t : Thread) (v : Nat) (x : DWord) : (t.writePair v x).trappc = t.trappc := rfl
@[simp] theorem Thread.writePair_trapcause (t : Thread) (v : Nat) (x : DWord) : (t.writePair v x).trapcause = t.trapcause := rfl
@[simp] theorem Thread.writePair_priv (t : Thread) (v : Nat) (x : DWord) : (t.writePair v x).priv = t.priv := rfl
@[simp] theorem Thread.writePair_place (t : Thread) (v : Nat) (x : DWord) : (t.writePair v x).place = t.place := rfl
@[simp] theorem Thread.writePair_hcall (t : Thread) (v : Nat) (x : DWord) : (t.writePair v x).hcall = t.hcall := rfl
@[simp] theorem Thread.leaveTrap_team (t : Thread) : t.leaveTrap.team = t.team := rfl
@[simp] theorem Thread.leaveTrap_tix (t : Thread) : t.leaveTrap.tix = t.tix := rfl
@[simp] theorem Thread.leaveTrap_core (t : Thread) : t.leaveTrap.core = t.core := rfl
@[simp] theorem Thread.leaveTrap_slot (t : Thread) : t.leaveTrap.slot = t.slot := rfl
@[simp] theorem Thread.leaveTrap_pc (t : Thread) : t.leaveTrap.pc = t.pc := rfl
@[simp] theorem Thread.leaveTrap_regs (t : Thread) : t.leaveTrap.regs = t.regs := rfl
@[simp] theorem Thread.leaveTrap_gmap (t : Thread) : t.leaveTrap.gmap = t.gmap := rfl
@[simp] theorem Thread.leaveTrap_fpctl (t : Thread) : t.leaveTrap.fpctl = t.fpctl := rfl
@[simp] theorem Thread.leaveTrap_fflags (t : Thread) : t.leaveTrap.fflags = t.fflags := rfl
@[simp] theorem Thread.leaveTrap_trapvec (t : Thread) : t.leaveTrap.trapvec = t.trapvec := rfl
@[simp] theorem Thread.leaveTrap_trappc (t : Thread) : t.leaveTrap.trappc = t.trappc := rfl
@[simp] theorem Thread.leaveTrap_trapcause (t : Thread) : t.leaveTrap.trapcause = t.trapcause &&& ~~~(1 : Word) := rfl
@[simp] theorem Thread.leaveTrap_priv (t : Thread) : t.leaveTrap.priv = t.priv := rfl
@[simp] theorem Thread.leaveTrap_place (t : Thread) : t.leaveTrap.place = t.place := rfl
@[simp] theorem Thread.leaveTrap_hcall (t : Thread) : t.leaveTrap.hcall = t.hcall := rfl

end Sys2Proof.Machine
end

