-- ==== Sys2Proof/Laws/Map.lean ====
section
/-! SUPPORT. Laws of the sparse maps and of the tables: reading after writing, and the canonical form. -/

namespace Sys2Proof

/-! ## Reading after writing -/

theorem FMap.get_erase_same {α : Type} (d : α) (m : FMap α) (n : Nat) : FMap.get d (FMap.erase m n) n = d := by
  induction m with
  | nil => rfl
  | cons p m ih =>
    obtain ⟨k, v⟩ := p
    by_cases h : k = n
    · simpa [FMap.erase, h] using ih
    · have : FMap.erase ((k, v) :: m) n = (k, v) :: FMap.erase m n := by simp [FMap.erase, h]
      simp [this, FMap.get, h, ih]

theorem FMap.get_erase_other {α : Type} (d : α) (m : FMap α) {n k : Nat} (h : k ≠ n) :
    FMap.get d (FMap.erase m n) k = FMap.get d m k := by
  induction m with
  | nil => rfl
  | cons p m ih =>
    obtain ⟨j, v⟩ := p
    by_cases hj : j = n
    · have : FMap.erase ((j, v) :: m) n = FMap.erase m n := by simp [FMap.erase, hj]
      have hk : j ≠ k := fun e => h (e ▸ hj)
      simp [this, FMap.get, hk, ih]
    · have : FMap.erase ((j, v) :: m) n = (j, v) :: FMap.erase m n := by simp [FMap.erase, hj]
      simp [this, FMap.get, ih]

theorem FMap.not_mem_erase {α : Type} (m : FMap α) (n : Nat) : ∀ p ∈ FMap.erase m n, p.1 ≠ n := by
  intro p hp
  simpa using (List.mem_filter.mp hp).2

theorem FMap.get_insert_same {α : Type} (d : α) (n : Nat) (v : α) (m : FMap α) (h : ∀ p ∈ m, p.1 ≠ n) :
    FMap.get d (FMap.insert n v m) n = v := by
  induction m with
  | nil => simp [FMap.insert, FMap.get]
  | cons p m ih =>
    obtain ⟨k, w⟩ := p
    have hk : k ≠ n := h (k, w) (by simp)
    unfold FMap.insert
    split
    · simp [FMap.get]
    · simp [FMap.get, hk, ih fun q hq => h q (by simp [hq])]

theorem FMap.get_insert_other {α : Type} (d : α) {n k : Nat} (v : α) (m : FMap α) (h : k ≠ n) :
    FMap.get d (FMap.insert n v m) k = FMap.get d m k := by
  induction m with
  | nil => simp [FMap.insert, FMap.get, Ne.symm h]
  | cons p m ih =>
    obtain ⟨j, w⟩ := p
    unfold FMap.insert
    split
    · simp [FMap.get, Ne.symm h]
    · simp [FMap.get, ih]

@[simp] theorem FMap.get_set_same {α : Type} [DecidableEq α] (d : α) (m : FMap α) (n : Nat) (v : α) :
    FMap.get d (FMap.set d m n v) n = v := by
  unfold FMap.set
  split
  · next h => rw [h, FMap.get_erase_same]
  · exact FMap.get_insert_same d n v _ (FMap.not_mem_erase m n)

theorem FMap.get_set_other {α : Type} [DecidableEq α] (d : α) (m : FMap α) {n k : Nat} (v : α) (h : k ≠ n) :
    FMap.get d (FMap.set d m n v) k = FMap.get d m k := by
  unfold FMap.set
  split
  · exact FMap.get_erase_other d m h
  · rw [FMap.get_insert_other d v _ h, FMap.get_erase_other d m h]

/-! ## The canonical form -/

theorem FMap.ascending_mono {α : Type} {lo hi : Nat} (m : FMap α) (h : lo ≤ hi) (hm : FMap.ascending hi m = true) :
    FMap.ascending lo m = true := by
  cases m with
  | nil => rfl
  | cons p m =>
    obtain ⟨k, v⟩ := p
    simp only [FMap.ascending, Bool.and_eq_true, decide_eq_true_eq] at hm ⊢
    exact ⟨Nat.le_trans h hm.1, hm.2⟩

theorem FMap.ascending_filter {α : Type} (q : Nat × α → Bool) (m : FMap α) :
    ∀ lo, FMap.ascending lo m = true → FMap.ascending lo (m.filter q) = true := by
  induction m with
  | nil => intro lo _; rfl
  | cons p m ih =>
    obtain ⟨k, v⟩ := p
    intro lo hm
    simp only [FMap.ascending, Bool.and_eq_true, decide_eq_true_eq] at hm
    by_cases hq : q (k, v) = true
    · simp only [List.filter_cons, hq, if_true, FMap.ascending, Bool.and_eq_true, decide_eq_true_eq]
      exact ⟨hm.1, ih _ hm.2⟩
    · simp only [List.filter_cons, hq]
      exact FMap.ascending_mono _ (by omega) (ih _ hm.2)

theorem FMap.ascending_insert {α : Type} (n : Nat) (v : α) (m : FMap α) :
    ∀ lo, lo ≤ n → FMap.ascending lo m = true → (∀ p ∈ m, p.1 ≠ n) → FMap.ascending lo (FMap.insert n v m) = true := by
  induction m with
  | nil => intro lo h _ _; simpa [FMap.insert, FMap.ascending] using h
  | cons p m ih =>
    obtain ⟨k, w⟩ := p
    intro lo h hm hn
    have hk : k ≠ n := hn (k, w) (by simp)
    simp only [FMap.ascending, Bool.and_eq_true, decide_eq_true_eq] at hm
    unfold FMap.insert
    split
    · simp only [FMap.ascending, Bool.and_eq_true, decide_eq_true_eq]
      exact ⟨h, by omega, hm.2⟩
    · simp only [FMap.ascending, Bool.and_eq_true, decide_eq_true_eq]
      exact ⟨hm.1, ih _ (by omega) hm.2 fun q hq => hn q (by simp [hq])⟩

theorem FMap.mem_insert {α : Type} (n : Nat) (v : α) (m : FMap α) :
    ∀ p ∈ FMap.insert n v m, p = (n, v) ∨ p ∈ m := by
  induction m with
  | nil => intro p hp; simpa [FMap.insert] using hp
  | cons q m ih =>
    intro p hp
    unfold FMap.insert at hp
    split at hp
    · simpa using hp
    · rcases List.mem_cons.mp hp with h | h
      · simp [h]
      · rcases ih p h with h | h
        · exact .inl h
        · simp [h]

/-- Filtering keeps the canonical form. -/
theorem FMap.wf_filter {α : Type} [DecidableEq α] (d : α) (m : FMap α) (q : Nat × α → Bool)
    (h : FMap.wf d m = true) : FMap.wf d (m.filter q) = true := by
  simp only [FMap.wf, Bool.and_eq_true, List.all_eq_true] at h ⊢
  exact ⟨FMap.ascending_filter q m 0 h.1, fun p hp => h.2 p (List.mem_filter.mp hp).1⟩

/-- Writing a key keeps the canonical form. -/
theorem FMap.wf_set {α : Type} [DecidableEq α] (d : α) (m : FMap α) (n : Nat) (v : α) (h : FMap.wf d m = true) :
    FMap.wf d (FMap.set d m n v) = true := by
  have he : FMap.wf d (FMap.erase m n) = true := FMap.wf_filter d m _ h
  unfold FMap.set
  split
  · exact he
  · next hv =>
    simp only [FMap.wf, Bool.and_eq_true, List.all_eq_true] at he ⊢
    refine ⟨FMap.ascending_insert n v _ 0 (Nat.zero_le n) he.1 (FMap.not_mem_erase m n), fun p hp => ?_⟩
    rcases FMap.mem_insert n v _ p hp with rfl | hp
    · simp [hv]
    · exact he.2 p hp

end Sys2Proof

namespace Sys2Proof.Machine

/-! ## Tables -/

theorem Tab.find_del_other {α : Type} (m : Tab α) {n k : Nat} (h : k ≠ n) : Tab.find (Tab.del m n) k = Tab.find m k := by
  induction m with
  | nil => rfl
  | cons p m ih =>
    obtain ⟨j, v⟩ := p
    by_cases hj : j = n
    · have : Tab.del ((j, v) :: m) n = Tab.del m n := by simp [Tab.del, FMap.erase, hj]
      have hk : j ≠ k := fun e => h (e ▸ hj)
      simp [this, Tab.find, hk, ih]
    · have : Tab.del ((j, v) :: m) n = (j, v) :: Tab.del m n := by simp [Tab.del, FMap.erase, hj]
      simp [this, Tab.find, ih]

theorem Tab.find_del_same {α : Type} (m : Tab α) (n : Nat) : Tab.find (Tab.del m n) n = none := by
  induction m with
  | nil => rfl
  | cons p m ih =>
    obtain ⟨j, v⟩ := p
    by_cases hj : j = n
    · have : Tab.del ((j, v) :: m) n = Tab.del m n := by simp [Tab.del, FMap.erase, hj]
      simp [this, ih]
    · have : Tab.del ((j, v) :: m) n = (j, v) :: Tab.del m n := by simp [Tab.del, FMap.erase, hj]
      simp [this, Tab.find, ih, hj]

theorem Tab.find_insert_same {α : Type} (n : Nat) (v : α) (m : Tab α) (h : ∀ p ∈ m, p.1 ≠ n) :
    Tab.find (FMap.insert n v m) n = some v := by
  induction m with
  | nil => simp [FMap.insert, Tab.find]
  | cons p m ih =>
    obtain ⟨k, w⟩ := p
    have hk : k ≠ n := h (k, w) (by simp)
    unfold FMap.insert
    split
    · simp [Tab.find]
    · simp [Tab.find, hk, ih fun q hq => h q (by simp [hq])]

theorem Tab.find_insert_other {α : Type} {n k : Nat} (v : α) (m : Tab α) (h : k ≠ n) :
    Tab.find (FMap.insert n v m) k = Tab.find m k := by
  induction m with
  | nil => simp [FMap.insert, Tab.find, Ne.symm h]
  | cons p m ih =>
    obtain ⟨j, w⟩ := p
    unfold FMap.insert
    split
    · simp [Tab.find, Ne.symm h]
    · simp [Tab.find, ih]

@[simp] theorem Tab.find_put_same {α : Type} (m : Tab α) (n : Nat) (v : α) : Tab.find (Tab.put m n v) n = some v :=
  Tab.find_insert_same n v _ (FMap.not_mem_erase m n)

theorem Tab.find_put_other {α : Type} (m : Tab α) {n k : Nat} (v : α) (h : k ≠ n) :
    Tab.find (Tab.put m n v) k = Tab.find m k := by
  unfold Tab.put
  rw [Tab.find_insert_other v _ h]
  exact Tab.find_del_other m h

@[simp] theorem Tab.find_upd_same {α : Type} (m : Tab α) (n : Nat) (f : α → α) :
    Tab.find (Tab.upd m n f) n = (Tab.find m n).map f := by
  induction m with
  | nil => rfl
  | cons p m ih =>
    obtain ⟨j, v⟩ := p
    have ih' : Tab.find (List.map (fun p => if p.1 = n then (p.1, f p.2) else p) m) n = (Tab.find m n).map f := ih
    by_cases hj : j = n
    · simp [Tab.upd, Tab.find, hj]
    · simp [Tab.upd, Tab.find, hj, ih']

theorem Tab.find_upd_other {α : Type} (m : Tab α) {n k : Nat} (f : α → α) (h : k ≠ n) :
    Tab.find (Tab.upd m n f) k = Tab.find m k := by
  induction m with
  | nil => rfl
  | cons p m ih =>
    obtain ⟨j, v⟩ := p
    have ih' : Tab.find (List.map (fun p => if p.1 = n then (p.1, f p.2) else p) m) k = Tab.find m k := ih
    by_cases hj : j = n
    · have hk : ¬ n = k := Ne.symm h
      simp [Tab.upd, Tab.find, hj, hk, ih']
    · simp [Tab.upd, Tab.find, hj, ih']

/-! ## Named entities after an update -/

theorem tkey_inj {a x b y : Nat} (hx : x < 1024) (hy : y < 1024) (h : tkey a x = tkey b y) : a = b ∧ x = y := by
  unfold tkey at h
  omega

@[simp] theorem State.thread?_setThread (s : State) (t : Thread) : (s.setThread t).thread? t.team t.tix = some t := by
  simp [State.thread?]

theorem State.thread?_setThread_other (s : State) (t : Thread) {a x : Nat} (h : tkey a x ≠ tkey t.team t.tix) :
    (s.setThread t).thread? a x = s.thread? a x := by
  simp [State.thread?, Tab.find_put_other _ _ h]

@[simp] theorem State.team?_setThread (s : State) (t : Thread) (u : Nat) : (s.setThread t).team? u = s.team? u := rfl
@[simp] theorem State.launch?_setThread (s : State) (t : Thread) (u : Nat) : (s.setThread t).launch? u = s.launch? u := rfl
@[simp] theorem State.program?_setThread (s : State) (t : Thread) (u : Nat) :
    (s.setThread t).program? u = s.program? u := rfl
@[simp] theorem State.core_setThread (s : State) (t : Thread) (c : Nat) : (s.setThread t).core c = s.core c := rfl
@[simp] theorem State.thread?_updTeam (s : State) (u : Nat) (f : Team → Team) (a x : Nat) :
    (s.updTeam u f).thread? a x = s.thread? a x := rfl
@[simp] theorem State.team?_updTeam_same (s : State) (u : Nat) (f : Team → Team) :
    (s.updTeam u f).team? u = (s.team? u).map f := by simp [State.team?]
theorem State.team?_updTeam_other (s : State) {u v : Nat} (f : Team → Team) (h : v ≠ u) :
    (s.updTeam u f).team? v = s.team? v := by simp [State.team?, Tab.find_upd_other _ _ h]
@[simp] theorem State.thread?_setCore (s : State) (c : Nat) (k : Core) (a x : Nat) :
    (s.setCore c k).thread? a x = s.thread? a x := rfl
@[simp] theorem State.team?_setCore (s : State) (c : Nat) (k : Core) (u : Nat) : (s.setCore c k).team? u = s.team? u := rfl
@[simp] theorem State.core_setCore_same (s : State) (c : Nat) (k : Core) : (s.setCore c k).core c = k := by
  simp [State.core]
theorem State.core_setCore_other (s : State) {c e : Nat} (k : Core) (h : e ≠ c) : (s.setCore c k).core e = s.core e := by
  simp [State.core, FMap.get_set_other _ _ _ h]
@[simp] theorem State.cluster_setCluster_same (s : State) (c : Nat) (k : Cluster) : (s.setCluster c k).cluster c = k := by
  simp [State.cluster]
@[simp] theorem State.die_setDie_same (s : State) (d : Nat) (k : Die) : (s.setDie d k).die d = k := by simp [State.die]
@[simp] theorem State.fn_setFn_same (s : State) (n : Nat) (k : Fn) : (s.setFn n k).fn n = k := by simp [State.fn]
@[simp] theorem State.lq_setLq_same (s : State) (n q : Nat) (k : LQ) : (s.setLq n q k).lq n q = k := by simp [State.lq]
@[simp] theorem State.program?_updProgram_same (s : State) (u : Nat) (f : Program → Program) :
    (s.updProgram u f).program? u = (s.program? u).map f := by simp [State.program?]
@[simp] theorem State.launch?_updLaunch_same (s : State) (u : Nat) (f : Launch → Launch) :
    (s.updLaunch u f).launch? u = (s.launch? u).map f := by simp [State.launch?]

/-! ## Registers after a write -/

@[simp] theorem Thread.reg_setReg_same (t : Thread) (v : Nat) (x : RegVal) : (t.setReg v x).reg v = x := by
  simp [Thread.reg]
theorem Thread.reg_setReg_other (t : Thread) {v k : Nat} (x : RegVal) (h : k ≠ v) : (t.setReg v x).reg k = t.reg k := by
  simp [Thread.reg, FMap.get_set_other _ _ _ h]
@[simp] theorem Thread.reg_write_same (t : Thread) (v : Nat) (w : Word) : (t.write v w).reg v = .full w := by
  simp [Thread.write]
theorem Thread.reg_write_other (t : Thread) {v k : Nat} (w : Word) (h : k ≠ v) : (t.write v w).reg k = t.reg k :=
  Thread.reg_setReg_other t _ h
@[simp] theorem Thread.word_write_same (t : Thread) (v : Nat) (w : Word) : (t.write v w).word v = w := by
  simp [Thread.word]
theorem Thread.reg_writePair_other (t : Thread) {v k : Nat} (x : DWord) (h : k ≠ v) (h' : k ≠ v + 1) :
    (t.writePair v x).reg k = t.reg k := by
  simp [Thread.writePair, Thread.reg_write_other, h, h']

end Sys2Proof.Machine
end

