-- ==== Sys2Proof/Laws/Memory.lean ====
section
/-! SUPPORT. Every memory operation keeps memory's canonical form, and a read after a write gives what was written. -/

namespace Sys2Proof.Machine

/-! ## Bytes of a map -/

/-- `putBytes` keeps the canonical form. -/
theorem Memory.wf_putBytes (bs : List Byte) : ∀ (m : FMap Byte) (pa : Nat), Memory.wf m = true →
    Memory.wf (putBytes m pa bs) = true := by
  induction bs with
  | nil => intro m pa h; exact h
  | cons b bs ih => intro m pa h; exact ih _ _ (FMap.wf_set 0 m pa b h)

/-- `zeroRange` keeps the canonical form. -/
theorem Memory.wf_zeroRange (m : FMap Byte) (lo hi : Nat) (h : Memory.wf m = true) :
    Memory.wf (zeroRange m lo hi) = true := FMap.wf_filter 0 m _ h

/-- What follows a map that rises below `hi`, and rises from `hi` on, may stand after it. -/
theorem FMap.ascending_append {α : Type} (m n : FMap α) (hi : Nat) : ∀ lo, lo ≤ hi → FMap.ascending lo m = true →
    (∀ p ∈ m, p.1 < hi) → FMap.ascending hi n = true → FMap.ascending lo (m ++ n) = true := by
  induction m with
  | nil => intro lo h _ _ hn; exact FMap.ascending_mono n h hn
  | cons p m ih =>
    obtain ⟨k, v⟩ := p
    intro lo h hm hk hn
    simp only [FMap.ascending, Bool.and_eq_true, decide_eq_true_eq] at hm
    simp only [List.cons_append, FMap.ascending, Bool.and_eq_true, decide_eq_true_eq]
    exact ⟨hm.1, ih (k + 1) (hk (k, v) (by simp)) hm.2 (fun q hq => hk q (by simp [hq])) hn⟩

/-- A run's entries rise from its first address and lie below its end; none is zero. -/
theorem runEntries_spec (bs : List Byte) : ∀ pa, FMap.ascending pa (runEntries pa bs) = true ∧
    ∀ p ∈ runEntries pa bs, p.1 < pa + bs.length ∧ p.2 ≠ 0 := by
  induction bs with
  | nil => intro pa; exact ⟨rfl, by simp [runEntries]⟩
  | cons b bs ih =>
    intro pa
    obtain ⟨h1, h2⟩ := ih (pa + 1)
    have hl : (b :: bs).length = bs.length + 1 := rfl
    unfold runEntries
    split
    · exact ⟨FMap.ascending_mono _ (by omega) h1, fun p hp => ⟨by have := (h2 p hp).1; omega, (h2 p hp).2⟩⟩
    · next hb =>
      refine ⟨by simpa [FMap.ascending] using h1, fun p hp => ?_⟩
      rcases List.mem_cons.mp hp with e | hp
      · subst e; exact ⟨by simp, hb⟩
      · exact ⟨by have := (h2 p hp).1; omega, (h2 p hp).2⟩

/-- A map that rises holds, above a bound, a map that rises from that bound. -/
theorem FMap.ascending_above {α : Type} (m : FMap α) (hi : Nat) : ∀ lo, FMap.ascending lo m = true →
    FMap.ascending hi (m.filter fun p => decide (hi ≤ p.1)) = true := by
  induction m with
  | nil => intro lo _; rfl
  | cons p m ih =>
    obtain ⟨k, v⟩ := p
    intro lo hm
    simp only [FMap.ascending, Bool.and_eq_true, decide_eq_true_eq] at hm
    by_cases h : hi ≤ k
    · simp only [List.filter_cons, h, decide_true, if_true, FMap.ascending, Bool.and_eq_true]
      exact ⟨trivial, FMap.ascending_filter _ _ _ hm.2⟩
    · simp only [List.filter_cons, h, decide_false]
      exact ih _ hm.2

/-- `replaceRun` keeps the canonical form. -/
theorem Memory.wf_replaceRun (m : FMap Byte) (pa : Nat) (bs : List Byte) (h : Memory.wf m = true) :
    Memory.wf (replaceRun m pa bs) = true := by
  have hw : FMap.wf 0 m = true := h
  simp only [FMap.wf, Bool.and_eq_true, List.all_eq_true] at hw
  obtain ⟨ha, hz⟩ := hw
  obtain ⟨r1, r2⟩ := runEntries_spec bs pa
  have below := FMap.ascending_filter (fun p => decide (p.1 < pa)) m 0 ha
  have above := FMap.ascending_above m (pa + bs.length) 0 ha
  show FMap.wf 0 _ = true
  simp only [FMap.wf, Bool.and_eq_true, List.all_eq_true, replaceRun]
  constructor
  · refine FMap.ascending_append _ _ (pa + bs.length) 0 (by omega) ?_ ?_ above
    · exact FMap.ascending_append _ _ pa 0 (by omega) below (fun p hp => by simpa using (List.mem_filter.mp hp).2) r1
    · intro p hp
      rcases List.mem_append.mp hp with hp | hp
      · have : p.1 < pa := by simpa using (List.mem_filter.mp hp).2
        omega
      · exact (r2 p hp).1
  · intro p hp
    rcases List.mem_append.mp hp with hp | hp
    · rcases List.mem_append.mp hp with hp | hp
      · exact hz p ((List.mem_filter.mp hp).1)
      · simpa using (r2 p hp).2
    · exact hz p ((List.mem_filter.mp hp).1)

/-- A byte outside the bytes stored keeps its value. -/
theorem get_putBytes_outside (bs : List Byte) : ∀ (m : FMap Byte) (pa a : Nat), (a < pa ∨ pa + bs.length ≤ a) →
    FMap.get 0 (putBytes m pa bs) a = FMap.get 0 m a := by
  induction bs with
  | nil => intro m pa a _; rfl
  | cons b bs ih =>
    intro m pa a h
    have hl : (b :: bs).length = bs.length + 1 := rfl
    have h1 : a ≠ pa := by omega
    rw [putBytes, ih _ _ _ (by omega), FMap.get_set_other 0 m b h1]

/-- A byte inside the bytes stored holds what was stored. -/
theorem get_putBytes_inside (bs : List Byte) : ∀ (m : FMap Byte) (pa i : Nat) (h : i < bs.length),
    FMap.get 0 (putBytes m pa bs) (pa + i) = bs[i] := by
  induction bs with
  | nil => intro m pa i h; simp at h
  | cons b bs ih =>
    intro m pa i h
    cases i with
    | zero => rw [putBytes, get_putBytes_outside _ _ _ _ (by omega)]; simp
    | succ i =>
      have := ih (FMap.set 0 m pa b) (pa + 1) i (by simpa using h)
      have e : pa + (i + 1) = pa + 1 + i := by omega
      rw [putBytes, e, this]
      rfl

/-! ## What the last-level cache and the counters leave alone -/

/-- What makes an address wait to be zeroed: pages in scrub, a mode change, an APPLY. -/
def Pkg.zeroings (k : Pkg) : List Nat × Bool × BitVec 17 × Bool := (k.queued, k.pinGo, k.pinTarget, k.apply)

/-- Whether an address waits depends on those alone. -/
theorem pageQueued_congr {s s' : State} (h : s'.pkg.zeroings = s.pkg.zeroings) (pa : Nat) :
    pageQueued s' pa = pageQueued s pa := by
  simp only [Pkg.zeroings, Prod.mk.injEq] at h
  simp only [pageQueued, h]

@[simp] theorem countAccess_mem (s : State) (pa n : Nat) : (countAccess s pa n).mem = s.mem := by
  unfold countAccess; dsimp only; split <;> rfl

@[simp] theorem countAccess_zeroings (s : State) (pa n : Nat) :
    (countAccess s pa n).pkg.zeroings = s.pkg.zeroings := by
  unfold countAccess; dsimp only; split <;> rfl

@[simp] theorem evictLine_mem (s : State) (l : Nat) : (evictLine s l).mem = s.mem := by
  unfold evictLine; split
  · rfl
  · dsimp only; split <;> simp

@[simp] theorem evictLine_zeroings (s : State) (l : Nat) :
    (evictLine s l).pkg.zeroings = s.pkg.zeroings := by
  unfold evictLine; split
  · rfl
  · dsimp only; split <;> simp

@[simp] theorem allocLine_mem (s : State) (w : BitVec 16) (l : Nat) : (allocLine s w l).mem = s.mem := by
  unfold allocLine; dsimp only; split
  · rfl
  · split <;> simp

@[simp] theorem allocLine_zeroings (s : State) (w : BitVec 16) (l : Nat) :
    (allocLine s w l).pkg.zeroings = s.pkg.zeroings := by
  unfold allocLine; dsimp only; split
  · rfl
  · split <;> simp

@[simp] theorem llcReadLine_mem (s : State) (w : BitVec 16) (l pa n : Nat) : (llcReadLine s w l pa n).mem = s.mem := by
  unfold llcReadLine; dsimp only; split
  · split
    · rfl
    · split <;> simp
  · split <;> simp

@[simp] theorem llcReadLine_zeroings (s : State) (w : BitVec 16) (l pa n : Nat) :
    (llcReadLine s w l pa n).pkg.zeroings = s.pkg.zeroings := by
  unfold llcReadLine; dsimp only; split
  · split
    · rfl
    · split <;> simp
  · split <;> simp

@[simp] theorem llcWriteLine_mem (s : State) (w : BitVec 16) (l pa n : Nat) :
    (llcWriteLine s w l pa n).mem = s.mem := by
  unfold llcWriteLine; dsimp only; split
  · split <;> simp
  · split
    · simp
    · split <;> simp

@[simp] theorem llcWriteLine_zeroings (s : State) (w : BitVec 16) (l pa n : Nat) :
    (llcWriteLine s w l pa n).pkg.zeroings = s.pkg.zeroings := by
  unfold llcWriteLine; dsimp only; split
  · split <;> simp
  · split
    · simp
    · split <;> simp

/-- What every step of a fold keeps, the fold keeps. -/
theorem foldl_keeps {α β : Type} (P : β → Prop) (f : β → α → β) (h : ∀ s a, P s → P (f s a)) (l : List α) :
    ∀ s, P s → P (l.foldl f s) := by
  induction l with
  | nil => intro s hs; exact hs
  | cons a l ih => intro s hs; exact ih _ (h s a hs)

/-- A fold whose steps all leave a part alone leaves it alone. -/
theorem foldl_same {α β γ : Type} (g : β → γ) (f : β → α → β) (h : ∀ s a, g (f s a) = g s) (l : List α) (s : β) :
    g (l.foldl f s) = g s :=
  foldl_keeps (fun x => g x = g s) f (fun x a hx => (h x a).trans hx) l s rfl

@[simp] theorem llcRead_mem (s : State) (fn pa n : Nat) : (llcRead s fn pa n).mem = s.mem := by
  unfold llcRead; split
  · exact foldl_same State.mem _ (fun s l => llcReadLine_mem s _ l pa n) _ s
  · rfl

@[simp] theorem llcRead_zeroings (s : State) (fn pa n : Nat) :
    (llcRead s fn pa n).pkg.zeroings = s.pkg.zeroings := by
  unfold llcRead; split
  · exact foldl_same (fun s => s.pkg.zeroings) _ (fun s l => llcReadLine_zeroings s _ l pa n) _ s
  · rfl

@[simp] theorem llcWrite_mem (s : State) (fn pa n : Nat) : (llcWrite s fn pa n).mem = s.mem := by
  unfold llcWrite; split
  · exact foldl_same State.mem _ (fun s l => llcWriteLine_mem s _ l pa n) _ s
  · rfl

@[simp] theorem llcWrite_zeroings (s : State) (fn pa n : Nat) :
    (llcWrite s fn pa n).pkg.zeroings = s.pkg.zeroings := by
  unfold llcWrite; split
  · exact foldl_same (fun s => s.pkg.zeroings) _ (fun s l => llcWriteLine_zeroings s _ l pa n) _ s
  · rfl

/-! ## Stores, wipes and scrubs -/

@[simp] theorem dropCaches_mem (s : State) (lo hi : Nat) : (dropCaches s lo hi).mem = s.mem := rfl

theorem wipe_mem (s : State) (lo hi : Nat) : (wipe s lo hi).mem = zeroRange s.mem lo hi := rfl

theorem wf_wipe (s : State) (lo hi : Nat) (h : Memory.wf s.mem = true) : Memory.wf (wipe s lo hi).mem = true :=
  Memory.wf_zeroRange _ _ _ h

/-- What counting an access, and the package's registers, leave alone, a scrub leaves as the wipe has it. -/
theorem scrubPage_keeps {γ : Type} (g : State → γ) (hc : ∀ s pa n, g (countAccess s pa n) = g s)
    (hp : ∀ (s : State) (k : Pkg), g { s with pkg := k } = g s) (s : State) (p : Nat) :
    g (scrubPage s p) = g (wipe s (p * 2 ^ 21) (p * 2 ^ 21 + 2 ^ 21)) := by
  unfold scrubPage
  exact (hp _ _).trans (foldl_same g _ (fun s i => hc s _ 1) _ _)

theorem scrubPage_mem (s : State) (p : Nat) : (scrubPage s p).mem = zeroRange s.mem (p * 2 ^ 21) (p * 2 ^ 21 + 2 ^ 21) :=
  (scrubPage_keeps State.mem countAccess_mem (fun _ _ => rfl) s p).trans (wipe_mem s _ _)

theorem wf_scrubPage (s : State) (p : Nat) (h : Memory.wf s.mem = true) : Memory.wf (scrubPage s p).mem = true :=
  (congrArg Memory.wf (scrubPage_mem s p)).trans (Memory.wf_zeroRange _ _ _ h)

/-- A wipe of all of HBM4 leaves of memory what the wipes of its four regions leave. -/
theorem wipeAll_mem (s : State) : (wipeAll s).mem =
    ([0, 1, 2, 3].foldl (fun s d => wipe s (d * 0x2000000000) (d * 0x2000000000 + dieBytes)) s).mem := by
  unfold wipeAll; rfl

theorem wf_wipeAll (s : State) (h : Memory.wf s.mem = true) : Memory.wf (wipeAll s).mem = true := by
  rw [wipeAll_mem]
  exact foldl_keeps (fun x => Memory.wf x.mem = true) _ (fun s d hs => wf_wipe s _ _ hs) _ s h

theorem wf_finishApply (s : State) (h : Memory.wf s.mem = true) : Memory.wf (finishApply s).mem = true := wf_wipeAll s h

theorem wf_finishPin (s : State) (h : Memory.wf s.mem = true) : Memory.wf (finishPin s).mem = true := wf_wipe s _ _ h

theorem wf_scrubTo (s : State) (pa : Nat) (h : Memory.wf s.mem = true) : Memory.wf (scrubTo s pa).mem = true := by
  unfold scrubTo; split
  · exact foldl_keeps (fun x => Memory.wf x.mem = true) scrubPage wf_scrubPage _ s h
  · exact h

theorem wf_awaitPage (s : State) (pa : Nat) (h : Memory.wf s.mem = true) : Memory.wf (awaitPage s pa).mem = true := by
  have h1 : Memory.wf (if s.pkg.apply then finishApply s else s).mem = true := by
    split
    · exact wf_finishApply s h
    · exact h
  unfold awaitPage; split
  · refine wf_scrubTo _ pa ?_
    generalize (if s.pkg.apply = true then finishApply s else s) = s1 at h1
    split
    · exact wf_finishPin s1 h1
    · exact h1
  · exact h

theorem wf_awaitRun (s : State) (pa n : Nat) (h : Memory.wf s.mem = true) : Memory.wf (awaitRun s pa n).mem = true :=
  foldl_keeps (fun x => Memory.wf x.mem = true) awaitPage wf_awaitPage _ s h

/-- A read keeps the canonical form. -/
theorem wf_readMem (s : State) (fn pa n : Nat) (h : Memory.wf s.mem = true) : Memory.wf (readMem s fn pa n).1.mem = true := by
  simpa [readMem] using wf_awaitRun s pa n h

theorem awaitPage_quiet (s : State) (pa : Nat) (h : pageQueued s pa = false) : awaitPage s pa = s := by
  simp [awaitPage, h]

theorem pageStarts_mem {pa n a : Nat} (h : a ∈ pageStarts pa n) : a = pa ∨ ∃ i, i < n ∧ a = pa + i := by
  simp only [pageStarts, List.mem_cons, List.mem_map, List.mem_range] at h
  obtain rfl | ⟨i, hi, rfl⟩ := h
  · exact .inl rfl
  · exact .inr ⟨(pa / 2 ^ 21 + i + 1) * 2 ^ 21 - pa, by omega, by omega⟩

/-- An access that reaches nothing which waits to be zeroed waits for nothing. -/
theorem awaitRun_quiet (s : State) (pa n : Nat) (h0 : pageQueued s pa = false)
    (h : ∀ i, i < n → pageQueued s (pa + i) = false) : awaitRun s pa n = s := by
  have hq : ∀ a ∈ pageStarts pa n, pageQueued s a = false := by
    intro a ha
    obtain rfl | ⟨i, hi, rfl⟩ := pageStarts_mem ha
    · exact h0
    · exact h i hi
  unfold awaitRun
  generalize pageStarts pa n = l at hq
  induction l with
  | nil => rfl
  | cons a l ih =>
    rw [List.foldl_cons, awaitPage_quiet s a (hq a (by simp))]
    exact ih fun b hb => hq b (by simp [hb])

/-- A store keeps the canonical form. -/
theorem wf_storeBytes (s : State) (fn pa : Nat) (bs : List Byte) (h : Memory.wf s.mem = true) :
    Memory.wf (storeBytes s fn pa bs).mem = true := by
  unfold storeBytes
  split
  · exact h
  · split <;> exact Memory.wf_putBytes bs _ pa (by simpa using wf_awaitRun s pa bs.length h)

/-- What a store that waits for no scrub writes: its bytes, and nothing else of memory. -/
theorem storeBytes_mem (s : State) (fn pa : Nat) (bs : List Byte) (hb : inBitmap pa = false)
    (hq : awaitRun s pa bs.length = s) : (storeBytes s fn pa bs).mem = putBytes s.mem pa bs := by
  unfold storeBytes
  simp only [hb, hq]
  simp only [Bool.false_eq_true, if_false]
  split <;> simp

theorem storeBytes_zeroings (s : State) (fn pa : Nat) (bs : List Byte) (hq : awaitRun s pa bs.length = s) :
    (storeBytes s fn pa bs).pkg.zeroings = s.pkg.zeroings := by
  unfold storeBytes
  simp only [hq]
  split
  · rfl
  · split <;> simp

/-- A store leaves every byte outside its own as it was. -/
theorem readByte_storeBytes_outside (s : State) (fn pa : Nat) (bs : List Byte) (a : Nat)
    (hq : awaitRun s pa bs.length = s) (h : a < pa ∨ pa + bs.length ≤ a) :
    readByte (storeBytes s fn pa bs) a = readByte s a := by
  by_cases hb : inBitmap pa = true
  · simp [storeBytes, hb]
  · have hb : inBitmap pa = false := by simpa using hb
    unfold readByte
    rw [pageQueued_congr (storeBytes_zeroings s fn pa bs hq), storeBytes_mem s fn pa bs hb hq, get_putBytes_outside bs s.mem pa a h]

/-! ## The rest of a performed write leaves memory alone -/

@[simp] theorem arrive_mem (s : State) (t : Thread) (pc : DWord) : (arrive s t pc).mem = s.mem := rfl
@[simp] theorem arrive_pkg (s : State) (t : Thread) (pc : DWord) : (arrive s t pc).pkg = s.pkg := rfl
@[simp] theorem park_mem (s : State) (t : Thread) (p : Park) : (park s t p).mem = s.mem := rfl
@[simp] theorem hold_mem (s : State) (t : Thread) (h : Hold) : (hold s t h).mem = s.mem := rfl
@[simp] theorem retire_mem (s : State) (u : Nat) : (retire s u).mem = s.mem := rfl
@[simp] theorem retire_pkg (s : State) (u : Nat) : (retire s u).pkg = s.pkg := rfl
@[simp] theorem raiseEvent_mem (s : State) (ty fn : Nat) (a : DWord) (i : Nat) (w : Waiter) (va : DWord) :
    (raiseEvent s ty fn a i w va).2.mem = s.mem := rfl
@[simp] theorem dropWait_mem (s : State) (k : Nat) : (dropWait s k).mem = s.mem := rfl
@[simp] theorem stallThread_mem (s : State) (t : Thread) (fn ipa : Nat) (va : DWord) (i : Nat) (f : Bool) :
    (stallThread s t fn ipa va i f).mem = s.mem := rfl

@[simp] theorem acquireCore_mem (s : State) (c : Nat) (sc : Scope) : (acquireCore s c sc).mem = s.mem := by
  cases sc <;> rfl
@[simp] theorem acquireCore_pkg (s : State) (c : Nat) (sc : Scope) : (acquireCore s c sc).pkg = s.pkg := by
  cases sc <;> rfl

@[simp] theorem releaseAcq_mem (s : State) (t : Thread) (sc : Scope) (n : Nat) : (releaseAcq s t sc n).mem = s.mem := by
  unfold releaseAcq releaseHeld; split
  · rfl
  · simp
@[simp] theorem releaseAcq_pkg (s : State) (t : Thread) (sc : Scope) (n : Nat) : (releaseAcq s t sc n).pkg = s.pkg := by
  unfold releaseAcq releaseHeld; split
  · rfl
  · simp

theorem wakeSleepers_keeps {γ : Type} (g : State → γ)
    (h : ∀ s t sc n, g (releaseAcq s t sc n) = g s) (s : State) (pa n : Nat) : g (wakeSleepers s pa n) = g s := by
  unfold wakeSleepers
  refine foldl_same g _ (fun s p => ?_) _ s
  split
  · split
    · exact h _ _ _ _
    · rfl
  · rfl

@[simp] theorem wakeSleepers_mem (s : State) (pa n : Nat) : (wakeSleepers s pa n).mem = s.mem :=
  wakeSleepers_keeps State.mem releaseAcq_mem s pa n
@[simp] theorem wakeSleepers_pkg (s : State) (pa n : Nat) : (wakeSleepers s pa n).pkg = s.pkg :=
  wakeSleepers_keeps State.pkg releaseAcq_pkg s pa n

@[simp] theorem afterWrite_mem (s : State) (pa n : Nat) : (afterWrite s pa n).mem = s.mem := by
  unfold afterWrite; split
  · simp [noteWrite]
  · rfl
@[simp] theorem afterWrite_pkg (s : State) (pa n : Nat) : (afterWrite s pa n).pkg = s.pkg := by
  unfold afterWrite; split
  · simp [noteWrite]
  · rfl

theorem performWrite_mem (s : State) (fn pa : Nat) (bs : List Byte) :
    (performWrite s fn pa bs).mem = (storeBytes s fn pa bs).mem := afterWrite_mem _ _ _

theorem performWrite_pkg (s : State) (fn pa : Nat) (bs : List Byte) :
    (performWrite s fn pa bs).pkg = (storeBytes s fn pa bs).pkg := afterWrite_pkg _ _ _

/-- A performed write keeps the canonical form. -/
theorem wf_performWrite (s : State) (fn pa : Nat) (bs : List Byte) (h : Memory.wf s.mem = true) :
    Memory.wf (performWrite s fn pa bs).mem = true := by
  rw [performWrite_mem]; exact wf_storeBytes s fn pa bs h

/-- A performed write leaves every byte outside its own as it was. -/
theorem readByte_performWrite_outside (s : State) (fn pa : Nat) (bs : List Byte) (a : Nat)
    (hq : awaitRun s pa bs.length = s) (h : a < pa ∨ pa + bs.length ≤ a) :
    readByte (performWrite s fn pa bs) a = readByte s a := by
  have := readByte_storeBytes_outside s fn pa bs a hq h
  unfold readByte at this ⊢
  rw [performWrite_mem, pageQueued_congr (congrArg Pkg.zeroings (performWrite_pkg s fn pa bs))]
  exact this

/-- A read after a write to the same byte gives what was written. -/
theorem readByte_performWrite_inside (s : State) (fn pa : Nat) (bs : List Byte) (i : Nat) (hi : i < bs.length)
    (hq : awaitRun s pa bs.length = s) (hq' : pageQueued s (pa + i) = false) (hb : inBitmap pa = false)
    (hb' : inBitmap (pa + i) = false) : readByte (performWrite s fn pa bs) (pa + i) = bs[i] := by
  unfold readByte
  rw [performWrite_mem, pageQueued_congr (congrArg Pkg.zeroings (performWrite_pkg s fn pa bs)),
    pageQueued_congr (storeBytes_zeroings s fn pa bs hq), storeBytes_mem s fn pa bs hb hq, hq', hb']
  simpa using get_putBytes_inside bs s.mem pa i hi

/-- A merge of masked bytes keeps the canonical form. -/
theorem wf_storeMasked (s : State) (fn pa : Nat) (t : Tab Byte) (h : Memory.wf s.mem = true) :
    Memory.wf (storeMasked s fn pa t).mem = true := by
  match t with
  | [] => exact h
  | p :: t =>
    rw [storeMasked]
    by_cases hb : inBitmap pa = true
    · rw [if_pos hb]; exact h
    · rw [if_neg hb]
      refine (apply_ite (fun x : State => Memory.wf x.mem = true) _ _ _).mpr ?_
      simp only [ite_self]
      refine foldl_keeps (fun m => Memory.wf m = true) (fun m (q : Nat × Byte) => FMap.set 0 m (pa + q.1) q.2)
        (fun m q hm => FMap.wf_set 0 m (pa + q.1) q.2 hm) _ _ ?_
      simpa using wf_awaitPage s pa h

theorem wf_performMerge (s : State) (fn pa : Nat) (t : Tab Byte) (h : Memory.wf s.mem = true) :
    Memory.wf (performMerge s fn pa t).mem = true :=
  (congrArg Memory.wf (afterWrite_mem _ _ _)).trans (wf_storeMasked s fn pa t h)

theorem wf_writeRuns (fn : Nat) (rs : List (Nat × Nat)) : ∀ (bs : List Byte) (s : State), Memory.wf s.mem = true →
    Memory.wf (writeRuns fn rs bs s).mem = true := by
  induction rs with
  | nil => intro bs s h; exact h
  | cons r rs ih =>
    intro bs s h
    obtain ⟨pa, n⟩ := r
    exact ih _ _ (wf_performWrite s fn pa _ h)

theorem wf_writeRecord (fn : Nat) (rs : List (Nat × Nat)) (bs : List Byte) (s : State) (h : Memory.wf s.mem = true) :
    Memory.wf (writeRecord fn rs bs s).mem = true := by
  unfold writeRecord
  split
  · split
    · exact wf_performWrite _ _ _ _ (wf_performWrite _ _ _ _ h)
    · exact wf_performWrite _ _ _ _ h
  · exact wf_writeRuns fn rs bs s h

end Sys2Proof.Machine
end

