-- ==== Sys2Proof/Laws/Ops.lean ====
section
/-! SUPPORT. What each shared operation of a thread instruction can do: the gate, the end of an instruction, traps, faults. -/

namespace Sys2Proof.Machine

/-! ## The gate -/

theorem Ready.gate {s : State} {m : Team} {t : Thread} {i : Instr} {p : Bool} {fs : List RF} (h : Ready s m t i p fs) :
    gateOf m t i p fs = .go := by
  have h1 : (m.narrow && i.since4) = false := by
    cases hn : m.narrow
    · rfl
    · simp [h.introduced hn]
  have h2 : (fs.any fun f => f.illegal m.narrow) = false := by
    simp only [List.any_eq_false]
    intro f hf
    obtain ⟨a, b, c, d, _⟩ := h.named f hf
    have hc : (m.narrow && decide (256 ≤ f.last)) = false := by
      cases hn : m.narrow
      · rfl
      · have := c hn; simp; omega
    simp [RF.illegal, hc, d]
    omega
  have h3 : (fs.find? fun f => f.beyond m.nreg) = none := by
    simp only [List.find?_eq_none]
    intro f hf
    obtain ⟨_, _, _, _, e⟩ := h.named f hf
    simp [RF.beyond]; omega
  have h4 : (p && !t.priv) = false := by
    cases hp : p
    · rfl
    · simp [h.allowed hp]
  have f1 : ((sources fs).find? fun q => isPoisoned (t.reg q.1)) = none := by
    simp only [List.find?_eq_none]
    intro q hq; simp [h.full q hq, isPoisoned]
  have f2 : ((sources fs).find? fun q => isEmptyReg (t.reg q.1) && q.2) = none := by
    simp only [List.find?_eq_none]
    intro q hq; simp [h.full q hq, isEmptyReg]
  have f3 : ((sources fs).filter fun q => isEmptyReg (t.reg q.1)) = [] := by
    simp only [List.filter_eq_nil_iff]
    intro q hq; simp [h.full q hq, isEmptyReg]
  have f4 : ((destinations fs).filter fun r => isEmptyReg (t.reg r)) = [] := by
    simp only [List.filter_eq_nil_iff]
    intro r hr; simp [h.free r hr]
  unfold gateOf
  simp only [h1, h2, h3, h4]
  simp only [Bool.false_eq_true, if_false, readyGate, f1, f2, f3, f4, List.map_nil]

/-- An instruction of a ready thread has its effect. -/
theorem Ready.issueWith {s : State} {m : Team} {t : Thread} {i : Instr} {p : Bool} {fs : List RF}
    (h : Ready s m t i p fs) (k : Team → Thread → State) : issueWith s i p fs k = .next (k m t) := by
  simp only [Machine.issueWith, h.current, h.team, h.thread, gated, h.gate]

theorem Ready.issue {s : State} {m : Team} {t : Thread} {i : Instr} {fs : List RF}
    (h : Ready s m t i false fs) (k : Team → Thread → State) : issue s i fs k = .next (k m t) := h.issueWith k

/-- A thread instruction stops only where no thread is current; otherwise it has its effect or does what the failed check
says. -/
theorem issueWith_cases (s : State) (i : Instr) (p : Bool) (fs : List RF) (k : Team → Thread → State) :
    issueWith s i p fs k = .fault .noThread ∨
    ∃ a x m t, s.cur = .thread a x ∧ s.team? a = some m ∧ s.thread? a x = some t ∧
      ((gateOf m t i p fs = .go ∧ issueWith s i p fs k = .next (k m t)) ∨
       (gateOf m t i p fs ≠ .go ∧ issueWith s i p fs k = .next (gateStop s t (gateOf m t i p fs)))) := by
  unfold issueWith
  split
  · next a x hc =>
    split
    · next m t hm ht =>
      refine .inr ⟨a, x, m, t, hc, hm, ht, ?_⟩
      unfold gated
      split
      · next h => exact .inl ⟨h, rfl⟩
      · next g h =>
        refine .inr ⟨fun e => ?_, rfl⟩
        exact h e
    · exact .inl rfl
  · exact .inl rfl
  · exact .inl rfl
  · exact .inl rfl

/-! ## The end of an instruction -/

@[simp] theorem Thread.withFlags_zero (t : Thread) : t.withFlags 0 = t := by
  simp [Thread.withFlags]

@[simp] theorem enabled_zero (t : Thread) : enabled t 0 = false := by simp [enabled]

/-- An instruction in the middle of a block, with no flag that traps, goes on to the next word. -/
theorem finish_advance (s : State) (t : Thread) (i : Instr) (fl : FFlags) (he : endsBlock i = false)
    (hf : enabled t fl = false ∨ t.mode = true) : finish s t i fl = advance s (t.withFlags fl) i := by
  have : (enabled (t.withFlags fl) fl && !(t.withFlags fl).mode) = false := by
    rcases hf with h | h
    · simp [show enabled (t.withFlags fl) fl = enabled t fl from rfl, h]
    · simp [show (t.withFlags fl).mode = t.mode from rfl, h]
  unfold finish finishAt
  simp only [show ({ t with fflags := t.fflags ||| BitVec.ofNat 32 fl.toNat } : Thread) = t.withFlags fl from rfl, this, he]
  rfl

theorem finish_quiet (s : State) (t : Thread) (i : Instr) (he : endsBlock i = false) :
    finish s t i 0 = advance s t i := by
  rw [finish_advance s t i 0 he (.inl (enabled_zero t)), Thread.withFlags_zero]

/-- An instruction that ends its block goes on through the table. -/
theorem finishAt_jump (s : State) (t : Thread) (i : Instr) (pc : DWord) (he : endsBlock i = true) :
    finishAt s t i 0 pc = jump s t pc := by
  unfold finishAt
  simp only [show ({ t with fflags := t.fflags ||| BitVec.ofNat 32 (0 : FFlags).toNat } : Thread) = t from Thread.withFlags_zero t,
    enabled_zero, he]
  rfl

/-- A flag that traps takes T_FPX after the result is written. -/
theorem finish_traps (s : State) (t : Thread) (i : Instr) (fl : FFlags) (hf : enabled t fl = true) (hm : t.mode = false) :
    finish s t i fl = takeTrap (retire s t.team) (t.withFlags fl) .tFpx (t.pc + BitVec.ofNat 64 i.len) 0 := by
  have : (enabled (t.withFlags fl) fl && !(t.withFlags fl).mode) = true := by
    simp [show enabled (t.withFlags fl) fl = enabled t fl from rfl, hf,
      show (t.withFlags fl).mode = t.mode from rfl, hm]
  unfold finish finishAt
  simp only [show ({ t with fflags := t.fflags ||| BitVec.ofNat 32 fl.toNat } : Thread) = t.withFlags fl from rfl, this]
  rfl

theorem Ready.write1 {s : State} {m : Team} {t : Thread} {i : Instr} {d : Reg} {fs : List RF} {f : Thread → Word}
    (h : Ready s m t i false (fs ++ [dst1 d])) (he : endsBlock i = false) :
    write1 s i d fs f = .next (advance s (t.write d.toNat (f t)) i) := by
  unfold Machine.write1
  rw [h.issue, finish_quiet _ _ _ he]

theorem Ready.write2 {s : State} {m : Team} {t : Thread} {i : Instr} {d : Reg} {fs : List RF} {f : Thread → DWord}
    (h : Ready s m t i false (fs ++ [dst2 d])) (he : endsBlock i = false) :
    write2 s i d fs f = .next (advance s (t.writePair d.toNat (f t)) i) := by
  unfold Machine.write2
  rw [h.issue, finish_quiet _ _ _ he]

theorem Ready.writeFl {s : State} {m : Team} {t : Thread} {i : Instr} {d : Reg} {fs : List RF}
    {f : Thread → Word × FFlags} (h : Ready s m t i false (fs ++ [dst1 d])) (he : endsBlock i = false)
    (hf : enabled t (f t).2 = false ∨ t.mode = true) :
    writeFl s i d fs f = .next (advance s ((t.write d.toNat (f t).1).withFlags (f t).2) i) := by
  unfold Machine.writeFl
  rw [h.issue, finish_advance _ _ _ _ he]
  rcases hf with h | h
  · exact .inl h
  · exact .inr h

/-! ## What going on leaves alone -/

@[simp] theorem advance_thread (s : State) (t : Thread) (i : Instr) :
    (advance s t i).thread? t.team t.tix = some { t with pc := t.pc + BitVec.ofNat 64 i.len } := by
  simp [advance, State.thread?]

theorem advance_other (s : State) (t : Thread) (i : Instr) : SameOtherThreads s (advance s t i) t := by
  intro a x h
  simp [advance, State.thread?, retire, Tab.find_put_other _ _ h]

theorem advance_device (s : State) (t : Thread) (i : Instr) : SameDevice s (advance s t i) := by
  simp [SameDevice, advance, retire]

@[simp] theorem advance_mem (s : State) (t : Thread) (i : Instr) : (advance s t i).mem = s.mem := rfl
@[simp] theorem advance_pkg (s : State) (t : Thread) (i : Instr) : (advance s t i).pkg = s.pkg := rfl
@[simp] theorem advance_cores (s : State) (t : Thread) (i : Instr) : (advance s t i).cores = s.cores := rfl
@[simp] theorem advance_reqs (s : State) (t : Thread) (i : Instr) : (advance s t i).reqs = s.reqs := rfl

theorem sameMemory_of {s s' : State} (hm : s'.mem = s.mem) (hp : s'.pkg.zeroings = s.pkg.zeroings) : SameMemory s s' := by
  intro a
  simp only [readByte, pageQueued_congr hp, hm]

theorem advance_memory (s : State) (t : Thread) (i : Instr) : SameMemory s (advance s t i) := sameMemory_of rfl rfl

theorem advance_team (s : State) (t : Thread) (i : Instr) :
    (advance s t i).team? t.team = (s.team? t.team).map fun m => { m with wdCount := 0, wdSince := m.wdSince.map fun _ => s.now } := by
  simp [advance, retire, State.team?]

/-! ## Traps -/

/-- HANDLER_ENTRY with a handler, outside trap mode: where the thread goes and what is saved (R144, R145). -/
theorem takeTrap_enters (s : State) (t : Thread) (c : Code) (epc : DWord) (reg : Nat) (hm : t.mode = false)
    (hv : t.trapvec.toNat / 8 ≠ 0) :
    takeTrap s t c epc reg = arrive s
      { t with trappc := BitVec.ofNat 64 (epc.toNat / 8 * 8), trapcause := causeOf c (if c == .tEmpty then reg else 0) }
      (BitVec.ofNat 64 (t.trapvec.toNat / 8 * 8)) := by
  unfold takeTrap
  simp [hm, hv]

@[simp] theorem arrive_thread (s : State) (t : Thread) (pc : DWord) :
    (arrive s t pc).thread? t.team t.tix = some { t with pc := pc, place := .table } := by
  simp [arrive, State.thread?]

theorem arrive_other (s : State) (t : Thread) (pc : DWord) : SameOtherThreads s (arrive s t pc) t := by
  intro a x h
  simp [arrive, State.thread?, Tab.find_put_other _ _ h]

theorem arrive_device (s : State) (t : Thread) (pc : DWord) : SameDevice s (arrive s t pc) := by
  simp [SameDevice, arrive]

theorem jump_device (s : State) (t : Thread) (pc : DWord) : SameDevice s (jump s t pc) := by
  simp [SameDevice, jump, arrive, retire]

@[simp] theorem jump_thread (s : State) (t : Thread) (pc : DWord) :
    (jump s t pc).thread? t.team t.tix = some { t with pc := pc, place := .table } := by
  simp [jump, retire]

/-- A floating-point instruction whose flag traps has completed and enters the handler. -/
theorem Ready.writeFl_traps {s : State} {m : Team} {t : Thread} {i : Instr} {d : Reg} {fs : List RF}
    {f : Thread → Word × FFlags} (h : Ready s m t i false (fs ++ [dst1 d])) (hf : enabled t (f t).2 = true)
    (hm : t.mode = false) (hv : t.trapvec.toNat / 8 ≠ 0) :
    Machine.writeFl s i d fs f = .next (arrive (retire s t.team)
      { (t.write d.toNat (f t).1).withFlags (f t).2 with
        trappc := BitVec.ofNat 64 ((t.pc + BitVec.ofNat 64 i.len).toNat / 8 * 8)
        trapcause := causeOf .tFpx 0 }
      (BitVec.ofNat 64 (t.trapvec.toNat / 8 * 8))) := by
  unfold Machine.writeFl
  rw [h.issue]
  refine congrArg _ ((finish_traps s (t.write d.toNat (f t).1) i _ hf hm).trans ?_)
  exact takeTrap_enters (retire s t.team) ((t.write d.toNat (f t).1).withFlags (f t).2) _ _ _ hm hv

/-! ## Requests -/

/-- A long-latency producer adds its request and marks its destinations empty. -/
theorem issueReq_advance (s : State) (t : Thread) (i : Instr) (d k : Nat) (r : Req) (he : endsBlock i = false) :
    issueReq s t i d k r =
      advance { s with uid := s.uid + 1, reqs := s.reqs ++ [(s.uid, r)] } (t.markEmpty d (producerTag 1 t.pc) k) i := by
  unfold issueReq addReq State.fresh
  exact finish_quiet _ _ _ he

theorem produce_advance (s : State) (t : Thread) (i : Instr) (d k tag : Nat) (r : Req) (he : endsBlock i = false) :
    produce s t i d k tag r =
      advance { s with uid := s.uid + 1, reqs := s.reqs ++ [(s.uid, r)] } (t.markEmpty d (producerTag tag t.pc) k) i := by
  unfold produce addReq State.fresh
  exact finish_quiet _ _ _ he

end Sys2Proof.Machine
end

