-- ==== Sys2Proof/Laws/Translate.lean ====
section
/-! SUPPORT. What translation, area accesses, fault records and traps leave alone, each said once for any part of the state that
the writes of the operation do not name; and that they keep memory's canonical form. -/

namespace Sys2Proof.Machine

/-! ## The last-level cache -/

theorem countAccess_keeps {γ : Type} (g : State → γ) (hp : ∀ (s : State) (k : Pkg), g { s with pkg := k } = g s)
    (s : State) (pa n : Nat) : g (countAccess s pa n) = g s := by
  unfold countAccess; dsimp only; split
  · exact hp _ _
  · rfl

/-- A part of the state that names neither the cache, nor the package's registers, nor the source of fresh names. -/
structure IgnoresCache {γ : Type} (g : State → γ) : Prop where
  uid : ∀ (s : State) (n : Nat), g { s with uid := n } = g s
  llc : ∀ (s : State) (l : Tab Line), g { s with llc := l } = g s
  pkg : ∀ (s : State) (k : Pkg), g { s with pkg := k } = g s
  both : ∀ (s : State) (n : Nat) (l : Tab Line), g { s with uid := n, llc := l } = g s

theorem IgnoresCache.evictLine {γ : Type} {g : State → γ} (h : IgnoresCache g) (s : State) (l : Nat) :
    g (evictLine s l) = g s := by
  unfold Machine.evictLine; split
  · rfl
  · dsimp only; split
    · exact h.llc _ _
    · rw [countAccess_keeps g h.pkg]; exact h.llc _ _

theorem IgnoresCache.allocLine {γ : Type} {g : State → γ} (h : IgnoresCache g) (s : State) (w : BitVec 16) (l : Nat) :
    g (allocLine s w l) = g s := by
  unfold Machine.allocLine; dsimp only; split
  · exact h.llc _ _
  · split
    · rfl
    · exact (h.llc _ _).trans (h.evictLine _ _)

theorem IgnoresCache.llcReadLine {γ : Type} {g : State → γ} (h : IgnoresCache g) (s : State) (w : BitVec 16)
    (l pa n : Nat) : g (llcReadLine s w l pa n) = g s := by
  unfold Machine.llcReadLine; dsimp only; split
  · split
    · exact h.both _ _ _
    · split
      · rw [countAccess_keeps g h.pkg]; exact h.both _ _ _
      · rw [h.llc, countAccess_keeps g h.pkg]; exact h.both _ _ _
  · split
    · rw [countAccess_keeps g h.pkg, h.uid]
    · rw [h.llc, h.allocLine, countAccess_keeps g h.pkg, h.uid]

theorem IgnoresCache.llcWriteLine {γ : Type} {g : State → γ} (h : IgnoresCache g) (s : State) (w : BitVec 16)
    (l pa n : Nat) : g (llcWriteLine s w l pa n) = g s := by
  unfold Machine.llcWriteLine; dsimp only; split
  · rw [h.llc]; split
    · exact h.uid _ _
    · rw [countAccess_keeps g h.pkg, h.uid]
  · split
    · rw [countAccess_keeps g h.pkg, h.uid]
    · rw [h.llc, h.allocLine]; split
      · exact h.uid _ _
      · rw [countAccess_keeps g h.pkg, h.uid]

theorem IgnoresCache.llcRead {γ : Type} {g : State → γ} (h : IgnoresCache g) (s : State) (fn pa n : Nat) :
    g (llcRead s fn pa n) = g s := by
  unfold Machine.llcRead; split
  · exact foldl_same g _ (fun s l => h.llcReadLine s _ l pa n) _ s
  · rfl

theorem IgnoresCache.llcWrite {γ : Type} {g : State → γ} (h : IgnoresCache g) (s : State) (fn pa n : Nat) :
    g (llcWrite s fn pa n) = g s := by
  unfold Machine.llcWrite; split
  · exact foldl_same g _ (fun s l => h.llcWriteLine s _ l pa n) _ s
  · rfl

/-! ## Translation -/

theorem useTlb_keeps {γ : Type} (g : State → γ) (hT : ∀ s sel l, g (State.setTlb s sel l) = g s) (s : State)
    (sel : TlbSel) (e : Xlat) : g (s.useTlb sel e) = g s := by
  cases sel with
  | fetch c =>
    unfold State.useTlb; dsimp only; split
    · rfl
    · exact hT _ _ _
  | vector c => exact hT s (.vector c) _
  | mordant k => exact hT s (.mordant k) _
  | dieOnly d => exact hT s (.dieOnly d) _

/-- A translation changes TLBs, the last-level cache and its counters, and nothing else. -/
theorem translate_keeps {γ : Type} (g : State → γ) (hT : ∀ s sel l, g (State.setTlb s sel l) = g s)
    (hr : ∀ s fn pa n, g (llcRead s fn pa n) = g s) (s : State) (sel : TlbSel) (fn va : Nat) (right : Right) :
    g (translate s sel fn va right).1 = g s := by
  have hu := useTlb_keeps g hT
  have hf : ∀ (l : List Nat) s, g (l.foldl (fun s a => llcRead s fn a 8) s) = g s := fun l s =>
    foldl_same g _ (fun s a => hr s fn a 8) l s
  unfold translate
  generalize walk s fn va = w
  obtain ⟨res, reads⟩ := w
  dsimp only
  split
  · exact hu _ _ _
  · split
    · exact (hu _ _ _).trans (hu _ _ _)
    · split
      · exact hf _ _
      · exact hf _ _
      · split
        · exact hf _ _
        · split
          · exact hf _ _
          · exact ((hu _ _ _).trans (hu _ _ _)).trans (hf _ _)

theorem ipaAccess_keeps {γ : Type} (g : State → γ) (hr : ∀ s fn pa n, g (llcRead s fn pa n) = g s) (s : State)
    (fn ipa : Nat) (right : Right) : g (ipaAccess s fn ipa right).1 = g s := by
  have hf : ∀ (l : List Nat) s, g (l.foldl (fun s a => llcRead s fn a 8) s) = g s := fun l s =>
    foldl_same g _ (fun s a => hr s fn a 8) l s
  unfold ipaAccess
  generalize stage2 s fn ipa = w
  obtain ⟨res, reads⟩ := w
  dsimp only
  split
  · split <;> exact hf _ _
  · exact hf _ _

theorem areaRuns_keeps {γ : Type} (g : State → γ) (hT : ∀ s sel l, g (State.setTlb s sel l) = g s)
    (hr : ∀ s fn pa n, g (llcRead s fn pa n) = g s) (fn die : Nat) (right : Right) (ps : List (Nat × Nat)) :
    ∀ (s : State) (acc : List (Nat × Nat)), g (areaRuns fn die right ps s acc).1 = g s := by
  induction ps with
  | nil => intro s acc; rfl
  | cons p ps ih =>
    intro s acc
    obtain ⟨va, n⟩ := p
    have ht := translate_keeps g hT hr s (.dieOnly die) fn va right
    unfold areaRuns
    split
    · rfl
    split
    · next s' heq => rw [heq] at ht; exact ht
    · next s' ipa wk heq => rw [heq] at ht; exact ht
    · next s' e heq =>
      rw [heq] at ht
      split
      · exact (ih _ _).trans ht
      · exact (ih _ _).trans ht
      · exact ht
      · exact ht

@[simp] theorem setTlb_mem (s : State) (sel : TlbSel) (l : List Xlat) : (s.setTlb sel l).mem = s.mem := by
  cases sel <;> rfl
@[simp] theorem setTlb_zeroings (s : State) (sel : TlbSel) (l : List Xlat) :
    (s.setTlb sel l).pkg.zeroings = s.pkg.zeroings := by cases sel <;> rfl
@[simp] theorem setTlb_teams (s : State) (sel : TlbSel) (l : List Xlat) : (s.setTlb sel l).teams = s.teams := by
  cases sel <;> rfl
@[simp] theorem setTlb_launches (s : State) (sel : TlbSel) (l : List Xlat) :
    (s.setTlb sel l).launches = s.launches := by cases sel <;> rfl
@[simp] theorem setTlb_threads (s : State) (sel : TlbSel) (l : List Xlat) :
    (s.setTlb sel l).threads = s.threads := by cases sel <;> rfl
@[simp] theorem setTlb_reqs (s : State) (sel : TlbSel) (l : List Xlat) : (s.setTlb sel l).reqs = s.reqs := by
  cases sel <;> rfl

@[simp] theorem translate_mem (s : State) (sel : TlbSel) (fn va : Nat) (k : Right) :
    (translate s sel fn va k).1.mem = s.mem := translate_keeps State.mem setTlb_mem llcRead_mem s sel fn va k
@[simp] theorem translate_zeroings (s : State) (sel : TlbSel) (fn va : Nat) (k : Right) :
    (translate s sel fn va k).1.pkg.zeroings = s.pkg.zeroings :=
  translate_keeps (fun s => s.pkg.zeroings) setTlb_zeroings llcRead_zeroings s sel fn va k
theorem ignoresCache_teams : IgnoresCache State.teams := ⟨fun _ _ => rfl, fun _ _ => rfl, fun _ _ => rfl, fun _ _ _ => rfl⟩
theorem ignoresCache_launches : IgnoresCache State.launches := ⟨fun _ _ => rfl, fun _ _ => rfl, fun _ _ => rfl, fun _ _ _ => rfl⟩
theorem ignoresCache_threads : IgnoresCache State.threads := ⟨fun _ _ => rfl, fun _ _ => rfl, fun _ _ => rfl, fun _ _ _ => rfl⟩
theorem ignoresCache_reqs : IgnoresCache State.reqs := ⟨fun _ _ => rfl, fun _ _ => rfl, fun _ _ => rfl, fun _ _ _ => rfl⟩
@[simp] theorem translate_teams (s : State) (sel : TlbSel) (fn va : Nat) (k : Right) :
    (translate s sel fn va k).1.teams = s.teams :=
  translate_keeps State.teams setTlb_teams ignoresCache_teams.llcRead s sel fn va k
@[simp] theorem translate_launches (s : State) (sel : TlbSel) (fn va : Nat) (k : Right) :
    (translate s sel fn va k).1.launches = s.launches :=
  translate_keeps State.launches setTlb_launches ignoresCache_launches.llcRead s sel fn va k
@[simp] theorem translate_threads (s : State) (sel : TlbSel) (fn va : Nat) (k : Right) :
    (translate s sel fn va k).1.threads = s.threads :=
  translate_keeps State.threads setTlb_threads ignoresCache_threads.llcRead s sel fn va k
@[simp] theorem translate_reqs (s : State) (sel : TlbSel) (fn va : Nat) (k : Right) :
    (translate s sel fn va k).1.reqs = s.reqs :=
  translate_keeps State.reqs setTlb_reqs ignoresCache_reqs.llcRead s sel fn va k

@[simp] theorem areaRuns_mem (fn die : Nat) (k : Right) (ps : List (Nat × Nat)) (s : State) (acc : List (Nat × Nat)) :
    (areaRuns fn die k ps s acc).1.mem = s.mem := areaRuns_keeps State.mem setTlb_mem llcRead_mem fn die k ps s acc

/-! ## Area accesses, fault records and traps keep memory's canonical form -/

/-- Memory after the runs of an area access. -/
theorem wf_areaRuns (fn die : Nat) (k : Right) (ps : List (Nat × Nat)) (s : State) (h : Memory.wf s.mem = true) :
    Memory.wf (areaRuns fn die k ps s []).1.mem = true :=
  (congrArg Memory.wf (areaRuns_mem fn die k ps s [])).trans h

theorem wf_areaWrite (s : State) (fn die va : Nat) (bs : List Byte) (h : Memory.wf s.mem = true) :
    Memory.wf (areaWrite s fn die va bs).1.mem = true := by
  have hm := wf_areaRuns fn die .w (pieces va bs.length) s h
  unfold areaWrite
  generalize areaRuns fn die .w (pieces va bs.length) s [] = w at hm
  obtain ⟨s', o, rs⟩ := w
  cases o
  · exact wf_writeRuns fn rs bs s' hm
  · exact hm
  · exact hm

theorem wf_areaRead (s : State) (fn die va n : Nat) (h : Memory.wf s.mem = true) :
    Memory.wf (areaRead s fn die va n).1.mem = true := by
  have hm := wf_areaRuns fn die .r (pieces va n) s h
  unfold areaRead
  generalize areaRuns fn die .r (pieces va n) s [] = w at hm
  obtain ⟨s', o, rs⟩ := w
  cases o
  · dsimp only
    split
    · exact hm
    · exact foldl_keeps (fun x => Memory.wf x.mem = true) (fun (s : State) (p : Nat × Nat) => (readMem s fn p.1 p.2).1)
        (fun s p hs => wf_readMem s fn p.1 p.2 hs) rs s' hm
  · exact hm
  · exact hm

theorem wf_areaRecord (s : State) (fn die va : Nat) (bs : List Byte) (h : Memory.wf s.mem = true) :
    Memory.wf (areaRecord s fn die va bs).1.mem = true := by
  have hm := wf_areaRuns fn die .w (pieces va bs.length) s h
  unfold areaRecord
  generalize areaRuns fn die .w (pieces va bs.length) s [] = w at hm
  obtain ⟨s', o, rs⟩ := w
  cases o
  · exact wf_writeRecord fn rs bs s' hm
  · exact hm
  · exact hm

theorem wf_areaPost (s : State) (u : Nat) (l : Launch) (die : Nat) (va : DWord) (bs : List Byte) (lq : Bool)
    (h : Memory.wf s.mem = true) : Memory.wf (areaPost s u l die va bs lq).mem = true := by
  have hm := wf_areaRecord s l.fn die va.toNat bs h
  unfold areaPost
  generalize areaRecord s l.fn die va.toNat bs = w at hm
  obtain ⟨s', o⟩ := w
  cases o
  · exact hm
  · dsimp only; split <;> exact hm
  · exact hm

theorem wf_postFault (s : State) (u : Nat) (m : Team) (c : Code) (pc : DWord) (slot engine detail : Nat) (mord : Bool)
    (i : FaultInfo) (h : Memory.wf s.mem = true) :
    Memory.wf (postFault s u m c pc slot engine detail mord i).mem = true := by
  unfold postFault
  split
  · exact h
  · exact wf_areaPost _ _ _ _ _ _ _ h

theorem wf_threadFault (s : State) (t : Thread) (c : Code) (i : FaultInfo) (h : Memory.wf s.mem = true) :
    Memory.wf (threadFault s t c i).mem = true := by
  unfold threadFault
  split
  · exact h
  · exact wf_postFault _ _ _ _ _ _ _ _ _ _ h

theorem wf_takeTrap (s : State) (t : Thread) (c : Code) (epc : DWord) (reg : Nat) (h : Memory.wf s.mem = true) :
    Memory.wf (takeTrap s t c epc reg).mem = true := by
  unfold takeTrap
  dsimp only
  split
  · exact wf_threadFault _ _ _ _ h
  · split
    · exact wf_threadFault _ _ _ _ h
    · exact h

theorem wf_gateStop (s : State) (t : Thread) (g : Gate) (h : Memory.wf s.mem = true) :
    Memory.wf (gateStop s t g).mem = true := by
  cases g <;> first | exact h | exact wf_threadFault _ _ _ _ h | exact wf_takeTrap _ _ _ _ _ h

/-- A thread instruction keeps the canonical form when its effect does. -/
theorem wf_issueWith (s s' : State) (i : Instr) (p : Bool) (fs : List RF) (k : Team → Thread → State)
    (h : Memory.wf s.mem = true) (hk : ∀ m t, Memory.wf (k m t).mem = true) (he : issueWith s i p fs k = .next s') :
    Memory.wf s'.mem = true := by
  rcases issueWith_cases s i p fs k with h0 | ⟨a, x, m, t, _, _, _, ⟨_, h1⟩ | ⟨_, h1⟩⟩
  · rw [h0] at he; exact absurd he (by simp)
  · rw [h1] at he; injection he with he; rw [← he]; exact hk m t
  · rw [h1] at he; injection he with he; rw [← he]; exact wf_gateStop s t _ h

theorem wf_finishAt (s : State) (t : Thread) (i : Instr) (fl : FFlags) (pc : DWord) (h : Memory.wf s.mem = true) :
    Memory.wf (finishAt s t i fl pc).mem = true := by
  unfold finishAt
  dsimp only
  split
  · exact wf_takeTrap _ _ _ _ _ h
  · split <;> exact h

theorem wf_finish (s : State) (t : Thread) (i : Instr) (fl : FFlags) (h : Memory.wf s.mem = true) :
    Memory.wf (finish s t i fl).mem = true := wf_finishAt s t i fl _ h

theorem wf_issueReq (s : State) (t : Thread) (i : Instr) (d k : Nat) (r : Req) (h : Memory.wf s.mem = true) :
    Memory.wf (issueReq s t i d k r).mem = true := wf_finish _ _ _ _ h

/-! ## What a performed write leaves alone -/

/-- A part of the state that a performed write does not name. -/
structure IgnoresWrite {γ : Type} (g : State → γ) : Prop where
  cache : IgnoresCache g
  wiped : ∀ (s : State) (lo hi : Nat), g (wipe s lo hi) = g s
  mem : ∀ (s : State) (m : FMap Byte), g { s with mem := m } = g s
  marks : ∀ (s : State) (m : FMap Byte) (d p : FMap Bool), g { s with mem := m, dirty := d, poison := p } = g s
  released : ∀ (s : State) (t : Thread) (sc : Scope) (n : Nat), g (releaseAcq s t sc n) = g s
  noted : ∀ (s : State) (l : Tab Launch), g (noteWrite s l) = g s
  emptied : ∀ (s : State) (l : Tab Line) (c : FMap Core) (k : FMap Cluster),
    g { s with llc := l, cores := c, clusters := k } = g s

theorem IgnoresWrite.finishPin {γ : Type} {g : State → γ} (h : IgnoresWrite g) (s : State) : g (finishPin s) = g s :=
  (h.cache.pkg _ _).trans (h.wiped s _ _)

theorem IgnoresWrite.finishApply {γ : Type} {g : State → γ} (h : IgnoresWrite g) (s : State) : g (finishApply s) = g s := by
  unfold Machine.finishApply wipeAll
  rw [h.cache.pkg, h.emptied]
  exact foldl_same g _ (fun s d => h.wiped s _ _) _ s

theorem IgnoresWrite.scrubTo {γ : Type} {g : State → γ} (h : IgnoresWrite g) (s : State) (pa : Nat) :
    g (scrubTo s pa) = g s := by
  have h1 : ∀ (s : State) (p : Nat), g (scrubPage s p) = g s := fun s p =>
    (scrubPage_keeps g (countAccess_keeps g h.cache.pkg) h.cache.pkg s p).trans (h.wiped _ _ _)
  unfold Machine.scrubTo; split
  · exact foldl_same g scrubPage h1 _ s
  · rfl

theorem IgnoresWrite.awaitPage {γ : Type} {g : State → γ} (h : IgnoresWrite g) (s : State) (pa : Nat) :
    g (awaitPage s pa) = g s := by
  have h1 : g (if s.pkg.apply then Machine.finishApply s else s) = g s := by
    split
    · exact h.finishApply s
    · rfl
  unfold Machine.awaitPage; split
  · rw [← h1]
    refine (h.scrubTo _ pa).trans ?_
    generalize (if s.pkg.apply = true then Machine.finishApply s else s) = s1
    split
    · exact h.finishPin s1
    · rfl
  · rfl

theorem IgnoresWrite.awaitRun {γ : Type} {g : State → γ} (h : IgnoresWrite g) (s : State) (pa n : Nat) :
    g (awaitRun s pa n) = g s := foldl_same g Machine.awaitPage h.awaitPage _ s

/-- A read leaves such a part alone. -/
theorem IgnoresWrite.readMem {γ : Type} {g : State → γ} (h : IgnoresWrite g) (s : State) (fn pa n : Nat) :
    g (readMem s fn pa n).1 = g s := (h.cache.llcRead _ _ _ _).trans (h.awaitRun s pa n)

theorem IgnoresWrite.storeBytes {γ : Type} {g : State → γ} (h : IgnoresWrite g) (s : State) (fn pa : Nat)
    (bs : List Byte) : g (storeBytes s fn pa bs) = g s := by
  have hw : g (Machine.llcWrite (Machine.awaitRun s pa bs.length) fn pa bs.length) = g s :=
    (h.cache.llcWrite _ _ _ _).trans (h.awaitRun s pa _)
  unfold Machine.storeBytes
  split
  · rfl
  · dsimp only
    split
    · exact (h.marks _ _ _ _).trans hw
    · exact (h.mem _ _).trans hw

/-- A performed write leaves such a part alone. -/
theorem IgnoresWrite.performWrite {γ : Type} {g : State → γ} (h : IgnoresWrite g) (s : State) (fn pa : Nat)
    (bs : List Byte) : g (performWrite s fn pa bs) = g s := by
  refine Eq.trans ?_ (h.storeBytes s fn pa bs)
  unfold Machine.performWrite afterWrite
  split
  · exact (h.noted _ _).trans (wakeSleepers_keeps g h.released _ _ _)
  · rfl

theorem acquireCore_teams (s : State) (c : Nat) (sc : Scope) : (acquireCore s c sc).teams = s.teams := by
  cases sc <;> rfl

theorem releaseAcq_teams (s : State) (t : Thread) (sc : Scope) (n : Nat) : (releaseAcq s t sc n).teams = s.teams := by
  unfold releaseAcq
  split
  · rfl
  · exact acquireCore_teams s t.core sc

theorem ignoresWrite_teams : IgnoresWrite State.teams :=
  ⟨ignoresCache_teams, fun _ _ _ => rfl, fun _ _ => rfl, fun _ _ _ _ => rfl, releaseAcq_teams, fun _ _ => rfl,
    fun _ _ _ _ => rfl⟩

@[simp] theorem performWrite_teams (s : State) (fn pa : Nat) (bs : List Byte) :
    (performWrite s fn pa bs).teams = s.teams := ignoresWrite_teams.performWrite s fn pa bs

end Sys2Proof.Machine
end

