-- ==== Sys2Proof/Laws/Values.lean ====
section
/-! SUPPORT. The integer results of file 05 as operations on bit vectors. -/

namespace Sys2Proof.Machine

theorem shlOf_eq (a : Word) (n : Nat) : shlOf a n = a <<< n := by
  unfold shlOf; split
  · apply BitVec.eq_of_toNat_eq; simp [BitVec.toNat_shiftLeft, Nat.shiftLeft_eq]
  · apply BitVec.eq_of_getLsbD_eq; intro i hi; simp; omega

theorem shl64Of_eq (a : DWord) (n : Nat) : shl64Of a n = a <<< n := by
  unfold shl64Of; split
  · apply BitVec.eq_of_toNat_eq; simp [BitVec.toNat_shiftLeft, Nat.shiftLeft_eq]
  · apply BitVec.eq_of_getLsbD_eq; intro i hi; simp; omega

theorem shrOf_eq (a : Word) (n : Nat) : shrOf a n = a >>> n := by
  have ha := a.isLt
  apply BitVec.eq_of_toNat_eq
  unfold shrOf; split
  · simp [BitVec.toNat_ushiftRight, Nat.shiftRight_eq_div_pow]
    exact Nat.lt_of_le_of_lt (Nat.div_le_self _ _) ha
  · next h =>
    have : 2 ^ 32 ≤ 2 ^ n := Nat.pow_le_pow_right (by omega) (by omega)
    simp [BitVec.toNat_ushiftRight, Nat.shiftRight_eq_div_pow]
    exact (Nat.div_eq_of_lt (by omega)).symm

theorem shr64Of_natural (t : Ty) (ht : t ≠ .s64) (a : DWord) (n : Nat) : shr64Of t a n = a >>> n := by
  have ha := a.isLt
  apply BitVec.eq_of_toNat_eq
  unfold shr64Of
  rw [if_neg ht]; split
  · simp [BitVec.toNat_ushiftRight, Nat.shiftRight_eq_div_pow]
    exact Nat.lt_of_le_of_lt (Nat.div_le_self _ _) ha
  · next h =>
    have : 2 ^ 64 ≤ 2 ^ n := Nat.pow_le_pow_right (by omega) (by omega)
    simp [BitVec.toNat_ushiftRight, Nat.shiftRight_eq_div_pow]
    exact (Nat.div_eq_of_lt (by omega)).symm

theorem sarOf_eq (a : Word) (n : Nat) : sarOf a n = a.sshiftRight n := by
  unfold sarOf; split
  · simp only [BitVec.sshiftRight, Int.shiftRight_eq_div_pow]
  · apply BitVec.eq_of_getLsbD_eq; intro i hi
    rw [BitVec.getLsbD_sshiftRight]
    have h1 : ¬ n + i < 32 := by omega
    have h2 : ¬ 32 ≤ i := by omega
    have h3 : a.msb = a.getLsbD 31 := BitVec.msb_eq_getLsbD_last a
    simp only [h1, h2, h3]
    split
    · next h => rw [h, BitVec.getLsbD_allOnes]; simp [hi]
    · next h => rw [Bool.eq_false_iff.mpr h]; simp

theorem shr64Of_signed (a : DWord) (n : Nat) : shr64Of .s64 a n = a.sshiftRight n := by
  unfold shr64Of; rw [if_pos rfl]; split
  · simp only [BitVec.sshiftRight, Int.shiftRight_eq_div_pow]
  · apply BitVec.eq_of_getLsbD_eq; intro i hi
    rw [BitVec.getLsbD_sshiftRight]
    have h1 : ¬ n + i < 64 := by omega
    have h2 : ¬ 64 ≤ i := by omega
    have h3 : a.msb = a.getLsbD 63 := BitVec.msb_eq_getLsbD_last a
    simp only [h1, h2, h3]
    split
    · next h => rw [h, BitVec.getLsbD_allOnes]; simp [hi]
    · next h => rw [Bool.eq_false_iff.mpr h]; simp

theorem rotOf_eq (a : Word) (n : Nat) : rotOf a n = a.rotateLeft n := by
  have ha := a.isLt
  have hk : n % 32 < 32 := Nat.mod_lt _ (by omega)
  have hr : a.rotateLeft n = a <<< (n % 32) ||| a >>> (32 - n % 32) := rfl
  rw [hr]
  unfold rotOf
  dsimp only
  generalize n % 32 = k at hk
  apply BitVec.eq_of_toNat_eq
  rw [BitVec.toNat_or, BitVec.toNat_shiftLeft, BitVec.toNat_ushiftRight, BitVec.toNat_ofNat, Nat.shiftRight_eq_div_pow,
    Nat.shiftLeft_eq]
  have hp : 2 ^ 32 = 2 ^ k * 2 ^ (32 - k) := by rw [← Nat.pow_add]; congr 1; omega
  have h1 : a.toNat * 2 ^ k % 2 ^ 32 = 2 ^ k * (a.toNat % 2 ^ (32 - k)) := by
    rw [hp, Nat.mul_comm a.toNat, Nat.mul_mod_mul_left]
  have h2 : a.toNat / 2 ^ (32 - k) < 2 ^ k := by
    rw [Nat.div_lt_iff_lt_mul (Nat.two_pow_pos _)]; omega
  rw [h1, Nat.two_pow_add_eq_or_of_lt h2]
  apply Nat.mod_eq_of_lt
  rw [← Nat.two_pow_add_eq_or_of_lt h2, ← h1]
  have := Nat.mod_lt (a.toNat * 2 ^ k) (Nat.two_pow_pos 32)
  have h3 : a.toNat % 2 ^ (32 - k) + 1 ≤ 2 ^ (32 - k) := Nat.mod_lt _ (Nat.two_pow_pos _)
  have h4 : 2 ^ k * (a.toNat % 2 ^ (32 - k) + 1) ≤ 2 ^ k * 2 ^ (32 - k) := Nat.mul_le_mul_left _ h3
  rw [Nat.mul_add] at h4
  omega

theorem ofInt_mul_twoPow (v : Int) (sc : Nat) : BitVec.ofInt 64 (v * (2 ^ sc : Nat)) = BitVec.ofInt 64 v <<< sc := by
  rw [BitVec.shiftLeft_eq_mul_twoPow, BitVec.ofInt_mul, BitVec.ofInt_natCast]
  congr 1
  apply BitVec.eq_of_toNat_eq
  simp [BitVec.toNat_twoPow]

theorem leaOf_natural (sc : Nat) (a : DWord) (b : Word) : leaOf true sc a b = a + b.zeroExtend 64 <<< sc := by
  unfold leaOf
  rw [if_pos rfl, BitVec.ofInt_add, ofInt_mul_twoPow, BitVec.ofInt_natCast, BitVec.ofInt_natCast, BitVec.ofNat_toNat,
    BitVec.ofNat_toNat]
  simp

theorem leaOf_signed (sc : Nat) (a : DWord) (b : Word) : leaOf false sc a b = a + b.signExtend 64 <<< sc := by
  unfold leaOf
  rw [if_neg (by simp), BitVec.ofInt_add, ofInt_mul_twoPow, BitVec.ofInt_natCast, BitVec.ofNat_toNat]
  simp [BitVec.signExtend]

end Sys2Proof.Machine
end

