-- ==== Sys2Proof/Tests/Slice0.lean ====
section
/-! SUPPORT. The model's own tests: ill-formed terms, words that the spec works out, one step on small states, and for each
statement a state that meets its hypotheses. Expected values are the spec's own or are calculated by hand from its rules. -/

set_option Elab.async false

namespace Sys2Proof.Tests

open Sys2Proof Sys2Proof.Machine

/-! ## Ill-formed terms: one for each check of Instr.wf -/

def r0 : Src := ⟨0, false⟩
def r1 : Src := ⟨1, false⟩
def r2 : Src := ⟨2, false⟩
def r3 : Src := ⟨3, false⟩

theorem test_illformed_integer_types : ([.add .s64 0 r0 r1, .addc .s8 0 r0 r1 r2, .div .f32 0 r0 r1, .abs .n32 0 r0,
    .cmp .eq .n64 0 r0 r1, .shr64 .s32 0 r0 r1, .cmp64 .lt .n16 0 r0 r1, .lea true 5 0 r0 r1, .idp4 .s32 0 r0 r1 r2,
    .addImm .f16 0 r0 1, .mulh .n8 0 r0 r1, .bfe .s16 0 r0 r1] : List Instr).all (fun i => !i.wf) = true := by decide

theorem test_illformed_pairs : ([.pairWord ⟨.add, 2, r0, 0⟩ ⟨.xor, 2, r2, 0⟩, .pairWord ⟨.add, 0, r2, 0⟩ ⟨.xor, 2, r2, 0⟩,
    .pairWord ⟨.add, 0, r0, 0⟩ ⟨.xor, 1, r2, 0⟩, .pairWord ⟨.add, 0, r0, 0⟩ ⟨.xor, 2, r1, 0⟩,
    .pairWord ⟨.add, 0, r0, 1⟩ ⟨.xor, 2, r2, 0⟩, .pairWord ⟨.min, 0, r0, 2⟩ ⟨.xor, 2, r2, 0⟩,
    .pairWord ⟨.fmin, 0, r0, 1⟩ ⟨.xor, 2, r2, 0⟩, .pairWord ⟨.add, 0, r0, 0⟩ ⟨.mul, 2, r2, 1⟩] : List Instr).all
    (fun i => !i.wf) = true := by decide

theorem test_illformed_float : ([.hadd2 ⟨.f32, .rne, false⟩ 0 r0 r1, .hmin2 .f32 false 0 r0 r1, .hcmp2 .eq .f32 false 0 r0 r1,
    .fdp2 ⟨.f32, .rne, false⟩ 0 r0 r1 r2, .cvt .s32 .s32 false 0 r0, .cvtRz .s32 .n8 true 0 r0, .cvtRu .f16 .f16 false 0 r0,
    .bqenc 7 0 r0 r1, .bqdec 7 0 r0 r1] : List Instr).all (fun i => !i.wf) = true := by decide

theorem test_illformed_memory : ([.ld .w32 .th true false 0 r0 0, .lds .w8 .dev false 0 r0 0, .lds .w64 .th true 0 r0 0,
    .sts .w8 .sys r1 r0 0, .ldc .w128 true 0 r0 0, .atom .inc .s32 .th 0 r0 r1, .atom .add .f32 .th 0 r0 r1,
    .cas .s16 .th 0 r0 r1 r2, .atoms .add .n32 .dev 0 r0 r1, .atoms .dec .s64 .th 0 r0 r1, .cass .n32 .fab 0 r0 r1 r2,
    .cass .bf16 .th 0 r0 r1 r2, .vmark true 0 0 r1] : List Instr).all (fun i => !i.wf) = true := by decide

theorem test_illformed_core : ([.redux .and .f32 0 r0, .redux .add .n8 0 r0, .gscan .xor .f32 false 0 r0, .bar .grp,
    .cbarr .dev r0 r1, .sid 14 0, .mxld true 1 0 0 r0, .mxld true 0 0 0 r1, .stmc .w128 1 r0 r1, .stmc .w8 0 r0 r1,
    .csrr 0x006 0, .csrw 0x081 r0, .csrs 0x180 0 r0] : List Instr).all (fun i => !i.wf) = true := by decide

theorem test_illformed_mordant : ([.ldx .w128 false 0 0 0, .ldx .w64 true 0 0 0, .stx .w128 0 0 0, .tdset .base 1 0 0,
    .tdsetLit .hdr 2 0 0, .mCbarr .bytes .home 0 1] : List Instr).all (fun i => !i.wf) = true := by decide

theorem test_illformed_events : ([.rowSelection 512, .teamRestore 1 128, .yieldExpiry 1 1024, .tlbWalk 4, .passStart 128,
    .requestPromotion 0 32, .boundPropagation 1 8, .launchRead 64 0, .launchRead 0 32, .functionReset 64, .stop 64, .restore 64,
    .sensorRefresh [(256, 0)] [], .sensorRefresh [] [(32, 0)], .thermalShutdown 4 0, .thermalShutdown 0 64, .laneSample 16 [],
    .laneSample 0 [], .laneSignalLoss 0 9, .portTrainStart 16, .flitReplay 16, .atomicResultExpiry 64, .txtailWrite 2 0 0 0,
    .txtailWrite 0 16 0 0, .frameTransmit 0 16, .frameReceive 2 [] 0] : List Instr).all (fun i => !i.wf) = true := by decide

/-! ## Words that the spec works out, file by file (04 to 07, 10, 12, 13, 18 and the programs of 11, 14, 17) -/

theorem test_words_integer :
    decodeBytes (leBytes 8 0x002010000080A000) = .ok (.addc .s32 4 ⟨0, false⟩ ⟨2, false⟩ ⟨10, false⟩, []) ∧
    decodeBytes (leBytes 8 0x01F0080401400002) = .ok (.cmp .lt .s32 2 ⟨4, false⟩ ⟨5, false⟩, []) ∧
    decodeBytes (leBytes 8 0x8400501BFFFFFC00) = .ok (.addImm .s32 5 ⟨6, false⟩ 0xFFFFFF, []) ∧
    decodeBytes (leBytes 8 0x9000312345678000) = .ok (.movi 3 0x12345678, []) ∧
    decodeBytes (leBytes 8 0xC000A00000000000 ++ leBytes 8 0x0123456789ABCDEF) = .ok (.movp 10 0x0123456789ABCDEF, []) ∧
    decodeBytes (leBytes 8 0x4000002004008060) = .ok (.pairWord ⟨.add, 0, ⟨4, false⟩, 0⟩ ⟨.xor, 2, ⟨6, false⟩, 0⟩, []) :=
  ⟨rfl, rfl, rfl, rfl, rfl, rfl⟩

theorem test_words_float :
    decodeBytes (leBytes 8 0x0430140601C08420) = .ok (.ffma ⟨.f32, .rz, false⟩ 5 ⟨6, false⟩ ⟨7, true⟩ ⟨8, false⟩, []) ∧
    decodeBytes (leBytes 8 0x0480080301000082) = .ok (.fcmp .lt .f16 false 2 ⟨3, false⟩ ⟨4, false⟩, []) ∧
    decodeBytes (leBytes 8 0x0560180702009080) = .ok (.hfma2 ⟨.bf16, .rne, false⟩ 6 ⟨7, false⟩ ⟨8, false⟩ ⟨9, false⟩, []) ∧
    decodeBytes (leBytes 8 0x0610040200000010) = .ok (.cvtRz .s32 .f32 false 1 ⟨2, false⟩, []) ∧
    decodeBytes (leBytes 8 0x05B00C0401400080) = .ok (.bqenc 2 3 ⟨4, false⟩ ⟨5, false⟩, []) :=
  ⟨rfl, rfl, rfl, rfl, rfl⟩

theorem test_words_control_memory :
    decodeBytes (leBytes 8 0x90809FFFFFFFD000) = .ok (.brc false ⟨9, false⟩ 0xFFFFFD, []) ∧
    decodeBytes (leBytes 8 0x90C1E00000040000) = .ok (.call 30 64, []) ∧
    decodeBytes (leBytes 8 0x0860000000000001) = .ok (.nop true, []) ∧
    decodeBytes (leBytes 8 0x8000400000004008) = .ok (.ld .w32 .th false false 4 ⟨0, false⟩ 16, []) ∧
    decodeBytes (leBytes 8 0x8040600BFFFFE08C) = .ok (.st .w64 .dev false ⟨6, false⟩ ⟨2, false⟩ 0xFFFFF8, []) ∧
    decodeBytes (leBytes 8 0x0870100201400101) = .ok (.atom .add .n32 .dev 4 ⟨2, false⟩ ⟨5, false⟩, []) ∧
    decodeBytes (leBytes 8 0x08B00000000000C1) = .ok (.fence .acq .cl, []) ∧
    decodeBytes (leBytes 8 0x08D0000000000040) = .ok (.wcnt .st 0, []) :=
  ⟨rfl, rfl, rfl, rfl, rfl, rfl, rfl, rfl⟩

theorem test_words_core :
    decodeBytes (leBytes 8 0x1000100501800002) = .ok (.shfl .down 4 ⟨5, false⟩ ⟨6, false⟩, []) ∧
    decodeBytes (leBytes 8 0x1030080300000080) = .ok (.redux .add .f32 2 ⟨3, false⟩, []) ∧
    decodeBytes (leBytes 8 0x10A0000A02C00000) = .ok (.cbwait ⟨10, false⟩ ⟨11, false⟩, []) ∧
    decodeBytes (leBytes 8 0x1120500000000000) = .ok (.rdclk 20, []) ∧
    decodeBytes (leBytes 8 0x10C00C0604000000) = .ok (.dqpush 3 ⟨6, false⟩ ⟨16, false⟩, []) ∧
    decodeBytes (leBytes 8 0x10E0200000000000) = .ok (.dqsteal 8, []) ∧
    decodeBytes (leBytes 8 0x10F00C0000000000) = .ok (.dqidle 3, []) ∧
    decodeBytes (leBytes 8 0x1140300402809000) = .ok (.sleep 12 ⟨4, false⟩ ⟨10, false⟩ ⟨9, false⟩, []) :=
  ⟨rfl, rfl, rfl, rfl, rfl, rfl, rfl, rfl⟩

theorem test_words_matrix :
    decodeBytes (leBytes 8 0xC040000000000000 ++ leBytes 8 0x00000014C0321003) = .ok (.mxbeg 0x00000014C0321003, []) ∧
    decodeBytes (leBytes 8 0x1440000000000000) = .ok (.mma false 0 0, []) ∧
    decodeBytes (leBytes 8 0x1470000000000004) = .ok (.mxscale false 0 1, []) ∧
    decodeBytes (leBytes 8 0x1430000000000000) = .ok (.mxend 0, []) ∧
    decodeBytes (leBytes 8 0x1490400000C00184) = .ok (.mxld false 3 1 16 ⟨3, false⟩, []) ∧
    decodeBytes (leBytes 8 0x140090260A000000) = .ok (.mdgo 36 ⟨38, false⟩ ⟨40, false⟩, []) ∧
    decodeBytes (leBytes 8 0x14C0600000000000) = .ok (.bndrd 0 24, []) ∧
    decodeBytes (leBytes 8 0x14B0001A00000000) = .ok (.bndmin 0 ⟨26, false⟩, []) :=
  ⟨rfl, rfl, rfl, rfl, rfl, rfl, rfl, rfl⟩

theorem test_words_privileged :
    decodeBytes (leBytes 8 0x3C10000200000100) = .ok (.csrw 0x100 ⟨2, false⟩, []) ∧
    decodeBytes (leBytes 8 0x3C40000401807000) = .ok (.tlbinv .va ⟨4, false⟩ ⟨6, false⟩ ⟨7, false⟩, []) ∧
    decodeBytes (leBytes 8 0x3C50200A00000021) = .ok (.hcall 0x21 8 ⟨10, false⟩, []) := ⟨rfl, rfl, rfl⟩

theorem test_words_mordant :
    decodeMordantBytes (leBytes 8 0xC040000000000040 ++ leBytes 8 0x207) = .ok (.tdsetLit .hdr 0 0 0x207, []) ∧
    decodeMordantBytes (leBytes 8 0x04C0000100000000) = .ok (.tdset .base 0 0 1, []) ∧
    decodeMordantBytes (leBytes 8 0x0400040000000000) = .ok (.tcopy 1 0, []) ∧
    decodeMordantBytes (leBytes 8 0x0440000200000001) = .ok (.mCbarr .bytes .home 2 0, []) ∧
    decodeMordantBytes (leBytes 8 0x9000500000080000) = .ok (.li 5 128, []) ∧
    decodeMordantBytes (leBytes 8 0x0460000301005000) = .ok (.regfill 3 4 5, []) ∧
    decodeMordantBytes (leBytes 8 0x0430080000000001) = .ok (.qput true 2 0, []) := ⟨rfl, rfl, rfl, rfl, rfl, rfl, rfl⟩

/-! ## A small state: a thread of a team of eight on core 0 at 0x10000 -/

/-- The probe's state with the thread current, and its thread and team changed. -/
def stOf (ft : Thread → Thread) (fm : Team → Team) (fl : Launch → Launch) : State :=
  let s := State.reset.withFetchWord 64 0
  { s with agenda := [], cur := .thread 1 0, threads := Tab.put s.threads (tkey 1 0) (ft (probeThread 1)),
           teams := Tab.put s.teams 1 (fm (probeTeam 1)), launches := Tab.put s.launches 1 (fl probeLaunch) }

/-- A thread with these words in v0, v1, ... -/
def thr (ws : List Word) : Thread := (probeThread 1).writeList 0 ws

/-- The state of a thread with these words in v0, v1, ... -/
def st (ws : List Word) : State := stOf (fun _ => thr ws) id id

/-- A register of the thread after an instruction. -/
def after (s : State) (i : Instr) (r : Nat) : Option RegVal :=
  match exec i s with
  | .next s => (s.thread? 1 0).map fun t => t.reg r
  | _ => none

/-- A pair of registers after an instruction. -/
def after2 (s : State) (i : Instr) (r : Nat) : Option RegVal × Option RegVal := (after s i r, after s i (r + 1))

/-! ### Results (05, 06): expected values by hand from the rules -/

theorem test_add_wraps : after (st [0xFFFFFFFF, 2]) (.add .s32 5 r0 r1) 5 = some (.full 1) := by decide +kernel
theorem test_add_n8_extends_zero : after (st [0x1F0, 0x20]) (.add .n8 5 r0 r1) 5 = some (.full 0x10) := by decide +kernel
theorem test_sub_s8_extends_sign : after (st [0x7F, 0xFF]) (.sub .s8 5 r0 r1) 5 = some (.full 0xFFFFFF80) := by decide +kernel
theorem test_addc_carry : after2 (st [0xFFFFFFFF, 0, 3]) (.addc .n32 4 r0 r1 r2) 4 = (some (.full 0), some (.full 1)) := by
  decide +kernel
theorem test_subb_borrow : after2 (st [0, 0, 1]) (.subb .n32 4 r0 r1 r2) 4 = (some (.full 0xFFFFFFFF), some (.full 1)) := by
  decide +kernel
theorem test_mulh_signed : after (st [0xFFFFFFFF, 2]) (.mulh .s32 5 r0 r1) 5 = some (.full 0xFFFFFFFF) := by decide +kernel
theorem test_mulh_natural : after (st [0xFFFFFFFF, 2]) (.mulh .n32 5 r0 r1) 5 = some (.full 1) := by decide +kernel
theorem test_mad : after (st [7, 6, 0xFFFFFFFF]) (.mad .s32 5 r0 r1 r2) 5 = some (.full 41) := by decide +kernel
theorem test_abs_least : after (st [0x80]) (.abs .s8 5 r0) 5 = some (.full 0xFFFFFF80) := by decide +kernel
theorem test_shl_by_width : after (st [1, 32]) (.shl 5 r0 r1) 5 = some (.full 0) := by decide +kernel
theorem test_sar_by_width : after (st [0x80000000, 33]) (.sar 5 r0 r1) 5 = some (.full 0xFFFFFFFF) := by decide +kernel
theorem test_rot : after (st [0x80000001, 33]) (.rot 5 r0 r1) 5 = some (.full 3) := by decide +kernel
theorem test_clz_zero : after (st [0]) (.clz 5 r0) 5 = some (.full 32) := by decide +kernel
theorem test_ctz : after (st [0x50]) (.ctz 5 r0) 5 = some (.full 4) := by decide +kernel
theorem test_popc : after (st [0xF0F00001]) (.popc 5 r0) 5 = some (.full 9) := by decide +kernel
theorem test_brev : after (st [1]) (.brev 5 r0) 5 = some (.full 0x80000000) := by decide +kernel
theorem test_sel_takes_b_on_zero : after (st [1, 2, 0]) (.sel 5 r0 r1 r2) 5 = some (.full 2) := by decide +kernel
theorem test_cmp_signed : after (st [0xFFFFFFFF, 0]) (.cmp .lt .s32 5 r0 r1) 5 = some (.full 1) := by decide +kernel
theorem test_cmp_natural : after (st [0xFFFFFFFF, 0]) (.cmp .lt .n32 5 r0 r1) 5 = some (.full 0) := by decide +kernel
theorem test_add64 : after2 (st [0xFFFFFFFF, 0, 1, 0]) (.add64 4 r0 r2) 4 = (some (.full 0), some (.full 1)) := by decide +kernel
theorem test_lea_signed : after2 (st [8, 1, 0xFFFFFFFF]) (.lea false 3 4 r0 r2) 4 = (some (.full 0), some (.full 1)) := by
  decide +kernel
theorem test_idp4 : after (st [0x01FF0203, 0x01010101, 10]) (.idp4 .s8 5 r0 r1 r2) 5 = some (.full 15) := by decide +kernel
theorem test_imm_sign : after (st [5]) (.addImm .s32 5 r0 0xFFFFFF) 5 = some (.full 4) := by decide +kernel
theorem test_fadd : after (st [0x3F800000, 0x40000000]) (.fadd ⟨.f32, .rne, false⟩ 5 r0 r1) 5 = some (.full 0x40400000) := by
  decide +kernel
theorem test_fadd_overflow_rz : after (st [0x7F7FFFFF, 0x7F7FFFFF]) (.fadd ⟨.f32, .rz, false⟩ 5 r0 r1) 5 =
    some (.full 0x7F7FFFFF) := by decide +kernel
theorem test_ffma_exact : after (st [0x3F800001, 0x3F800001, 0xBF800002]) (.ffma ⟨.f32, .rne, false⟩ 5 r0 r1 r2) 5 =
    some (.full 0x28800000) := by decide +kernel
theorem test_fcmp_nan : after (st [0x7FC00000, 0]) (.fcmp .ne .f32 false 5 r0 r1) 5 = some (.full 1) := by decide +kernel
theorem test_hadd2 : after (st [0x3C003C00, 0x40003C00]) (.hadd2 ⟨.f16, .rne, false⟩ 5 r0 r1) 5 = some (.full 0x42004000) := by
  decide +kernel
theorem test_cvt_saturates : after (st [0x4F800000]) (.cvt .s32 .f32 false 5 r0) 5 = some (.full 0x7FFFFFFF) := by decide +kernel
theorem test_pair_swaps : after2 (st [3, 4, 5, 6]) (.pairWord ⟨.mov, 0, r1, 0⟩ ⟨.mov, 2, r3, 0⟩) 1 =
    (some (.full 4), some (.full 6)) := by decide +kernel
theorem test_rdclk : after2 (st []) (.rdclk 4) 4 = (some (.full 0), some (.full 0)) := by decide +kernel
theorem test_div_marks_empty : after (st [7, 2]) (.div .s32 5 r0 r1) 5 = some (.empty 0x20002000) := by decide +kernel

/-! ## Witnesses: for each statement with hypotheses, states and operands that meet them, clause by clause -/

theorem ready_of {s : State} {m : Team} {t : Thread} {i : Instr} {p : Bool} {fs : List RF}
    (h : s.cur = .thread t.team t.tix ∧ s.team? t.team = some m ∧ s.thread? t.team t.tix = some t ∧
      (m.narrow = true → i.since4 = false) ∧
      (∀ f ∈ fs, f.r < 768 ∧ f.last < 768 ∧ (m.narrow = true → f.last < 256) ∧ f.r % f.align = 0 ∧ f.last < m.nreg) ∧
      (p = true → t.priv = true) ∧ (∀ q ∈ sources fs, t.reg q.1 = .full (t.word q.1)) ∧
      (∀ r ∈ destinations fs, isEmptyReg (t.reg r) = false)) : Ready s m t i p fs := by
  obtain ⟨a, b, c, d, e, f, g, h⟩ := h
  exact ⟨a, b, c, d, e, f, g, h⟩

def p1 : Team := probeTeam 1

/-- A thread with its own enables and places for traps. -/
def stw (ws : List Word) (f : Thread → Thread) : State := stOf (fun _ => f (thr ws)) id id

/-! ### Results (05, 06) -/

theorem witness_integer_words : ∃ fs d w, wordResult (thr [7, 6]) (.add .s32 767 r0 r1) = some (fs, d, w) ∧
    Ready (st [7, 6]) p1 (thr [7, 6]) (.add .s32 767 r0 r1) false (fs ++ [dst1 d]) := ⟨_, _, _, rfl, ready_of (by decide +kernel)⟩

theorem witness_integer_pairs : ∃ fs d x, pairResult 0 (thr [7, 6]) (.add64 766 r0 r2) = some (fs, d, x) ∧
    Ready (st [7, 6]) p1 (thr [7, 6]) (.add64 766 r0 r2) false (fs ++ [dst2 d]) := ⟨_, _, _, rfl, ready_of (by decide +kernel)⟩

theorem witness_integer_types : Ty.inW .s8 = true ∧ tySigned .s8 = true ∧ Ty.inW .n16 = true ∧ tySigned .n16 = false ∧
    (1 : Int) ≠ 0 := by decide

theorem witness_division : divisionForm (.div .s32 767 r0 r1) = some (.s32, 767, r0, r1, false) ∧
    Ready (st [7, 2]) p1 (thr [7, 2]) (.div .s32 767 r0 r1) false [src1 r0, src1 r1, dst1 767] ∧
    divisionForm (.rem .n64 766 r0 r2) = some (.n64, 766, r0, r2, true) ∧
    Ready (st [7, 0, 2, 0]) p1 (thr [7, 0, 2, 0]) (.rem .n64 766 r0 r2) false [src2 r0, src2 r2, dst2 766] :=
  ⟨rfl, ready_of (by decide +kernel), rfl, ready_of (by decide +kernel)⟩

/-- EID set, a handler, and a zero divisor. -/
theorem witness_division_trap :
    let t := { thr [7, 0] with fpctl := 32, trapvec := 8 }
    Ready (stw [7, 0] fun t => { t with fpctl := 32, trapvec := 8 }) p1 t (.div .s32 767 r0 r1) false
      [src1 r0, src1 r1, dst1 767] ∧ tyVal .s32 (rw t r1).toNat = 0 ∧ t.fpctl.getLsbD 5 = true ∧ t.mode = false ∧
      t.trapvec.toNat / 8 ≠ 0 := ⟨ready_of (by decide +kernel), by decide +kernel⟩

theorem witness_producers : ∃ fs d r, functionResult (thr [0x40000000]) (.frcp ⟨.f32, .rne, false⟩ 767 r0) = some (fs, d, r) ∧
    Ready (st [0x40000000]) p1 (thr [0x40000000]) (.frcp ⟨.f32, .rne, false⟩ 767 r0) false (fs ++ [dst1 d]) ∧
    (thr [0x40000000]).fpctl.toNat % 32 = 0 := ⟨_, _, _, rfl, ready_of (by decide +kernel), by decide +kernel⟩

theorem witness_producers_with_a_trap_enable : ∃ fs d r,
    functionResult { thr [0x40000000] with fpctl := 16 } (.frcp ⟨.f32, .rne, false⟩ 767 r0) = some (fs, d, r) ∧
    Ready (stw [0x40000000] fun t => { t with fpctl := 16 }) p1 { thr [0x40000000] with fpctl := 16 }
      (.frcp ⟨.f32, .rne, false⟩ 767 r0) false (fs ++ [dst1 d]) ∧ (16 : Word).toNat % 32 ≠ 0 :=
  ⟨_, _, _, rfl, ready_of (by decide +kernel), by decide⟩

theorem witness_float : ∃ fs d r, floatResult (thr [0x3F800000, 0x40000000]) (.fadd ⟨.f32, .rne, false⟩ 767 r0 r1) =
      some (fs, d, r) ∧ Ready (st [0x3F800000, 0x40000000]) p1 (thr [0x3F800000, 0x40000000])
      (.fadd ⟨.f32, .rne, false⟩ 767 r0 r1) false (fs ++ [dst1 d]) ∧ enabled (thr [0x3F800000, 0x40000000]) r.2 = false :=
  ⟨_, _, _, rfl, ready_of (by decide +kernel), by decide +kernel⟩

theorem witness_conversion : convertForm (.cvt .s64 .f32 false 766 r0) = some (.s64, .f32, .rne, false, 766, r0) ∧
    Ready (st [0x3F800000]) p1 (thr [0x3F800000]) (.cvt .s64 .f32 false 766 r0) false [src1 r0, dst2 766] ∧
    enabled (thr [0x3F800000]) (cvtOf .s64 .f32 .rne false ((0 : Word) ++ rw (thr [0x3F800000]) r0)).2 = false :=
  ⟨rfl, ready_of (by decide +kernel), by decide +kernel⟩

/-- An infinity minus an infinity, with the invalid flag enabled. -/
theorem witness_enabled_flag : let t := { thr [0x7F800000, 0x7F800000] with fpctl := 16, trapvec := 8 }
    ∃ fs d r, floatResult t (.fsub ⟨.f32, .rne, false⟩ 767 r0 r1) = some (fs, d, r) ∧
    Ready (stw [0x7F800000, 0x7F800000] fun t => { t with fpctl := 16, trapvec := 8 }) p1 t
      (.fsub ⟨.f32, .rne, false⟩ 767 r0 r1) false (fs ++ [dst1 d]) ∧ enabled t r.2 = true ∧ t.mode = false ∧
    t.trapvec.toNat / 8 ≠ 0 := ⟨_, _, _, rfl, ready_of (by decide +kernel), by decide +kernel, by decide +kernel, by decide +kernel⟩

theorem witness_comparisons : (unpackZ fp32 false 0x7FC00000).isNan = true ∧ (unpackZ fp32 false 0x3F800000).isNan = false := by
  decide +kernel

theorem witness_pairs : let i := Instr.pairWord ⟨.add, 764, r0, 0⟩ ⟨.xor, 767, r3, 0⟩
    Ready (st [1, 2, 3, 4]) p1 (thr [1, 2, 3, 4]) i false
      [src1 r0, src1 ⟨764, false⟩, src1 r3, src1 ⟨767, false⟩, dst1 764, dst1 767] ∧
    enabled (thr [1, 2, 3, 4]) ((halfOf ⟨.add, 764, r0, 0⟩ 0 1).2 ||| (halfOf ⟨.xor, 767, r3, 0⟩ 0 4).2) = false :=
  ⟨ready_of (by decide +kernel), by decide +kernel⟩

/-! ### The machine -/

/-- A row's turn on the probe's state. -/
def turn : State := { State.reset.withFetchWord 64 0x0860000000000001 with agenda := [.issue 0 0] }

theorem witness_step_of_a_row : ∃ r m t s1 w, turn.agenda = [.issue 0 0] ∧ skippedNow turn (clusterOf 0) = false ∧
    Tab.find (turn.core 0).rows 0 = some r ∧ r.pending = [0] ∧ turn.threadAt 0 0 = some t ∧ turn.team? t.team = some m ∧
    m.stage ≠ .stopping ∧ fetchWord (({ turn with agenda := [] } : State).setCore 0 { turn.core 0 with rotate := 0 }) m t.core t.slot t.pc =
      (s1, .word w) ∧ isXForm w = false ∧ decodeBytes (leBytes 8 w.toNat) = .ok (.nop true, []) :=
  ⟨_, _, _, _, 0x0860000000000001, rfl, by decide +kernel, rfl, rfl, rfl, rfl, by decide, rfl, rfl, rfl⟩

theorem witness_step_of_an_x_word : ∃ r m t s1 s2, let s := { State.reset.withFetchWord 128 (0xC000A00000000000 + 5 * 2 ^ 64) with
      agenda := [.issue 0 0] }
    let z := (({ s with agenda := [] } : State).setCore 0 { s.core 0 with rotate := 0 })
    Tab.find (s.core 0).rows 0 = some r ∧ r.pending = [0] ∧ s.threadAt 0 0 = some t ∧ s.team? t.team = some m ∧
    fetchWord z m t.core t.slot t.pc = (s1, .word 0xC000A00000000000) ∧ isXForm 0xC000A00000000000 = true ∧ r.issued < 63 ∧
    fetchWord s1 m t.core t.slot (t.pc + 8) = (s2, .word 5) ∧
    decodeBytes (leBytes 8 0xC000A00000000000 ++ leBytes 8 5) = .ok (.movp 10 5, []) :=
  ⟨_, _, _, _, _, rfl, rfl, rfl, rfl, rfl, rfl, by decide, rfl, rfl⟩

theorem witness_fetch : ∃ l x s1, turn.launch? p1.launch = some l ∧ l.windowOf p1.num 0x10000 8 = none ∧
    l.leaseOf 0x10000 8 = some (1 + 2 ^ 40 + 3 * 2 ^ 62) ∧ leaseRights (1 + 2 ^ 40 + 3 * 2 ^ 62) = 3 ∧
    fetchXlat turn 0 0 l.fn 0x10000 = (s1, .ok x) ∧ (x.outAt 0x10000).phys = some 0x10000 ∧
    pageQueued s1 0x10000 = false ∧ Tab.find (s1.core 0).ic (0x10000 / 8) = none ∧ poisonedAt s1 0x10000 8 = false :=
  ⟨probeLaunch, _, _, rfl, by decide +kernel, by decide +kernel, by decide +kernel, rfl, rfl, by decide +kernel, rfl, rfl⟩

theorem witness_event_turn : ({ turn with agenda := [.event .pageAlloc] } : State).agenda = [.event .pageAlloc] := rfl

theorem witness_round_trips : (Instr.cas .n64 .fab 766 ⟨766, true⟩ ⟨764, false⟩ ⟨1022, true⟩).wf = true ∧
    Instr.isEvent (.cas .n64 .fab 766 ⟨766, true⟩ ⟨764, false⟩ ⟨1022, true⟩) = false ∧
    (Instr.tdsetLit .str 15 7 (-1)).wf = true ∧ Instr.ofMordant (.tdsetLit .str 15 7 (-1)) = true := by decide

theorem witness_canonical_memory : Memory.wf turn.mem = true ∧ Memory.wf State.reset.mem = true := by decide +kernel

theorem test_step_runs_the_word : (match step { turn with agenda := [.issue 0 0] } with
    | .next s => ((s.thread? 1 0).map (·.pc), s.agenda, s.cur)
    | _ => (none, [], .none)) = (some 0x10008, [], .none) := by decide +kernel

theorem test_step_keeps_the_form : (match step { turn with agenda := [.issue 0 0] } with
    | .next s => Memory.wf s.mem
    | _ => false) = true := by decide +kernel

/-! ### Checks, faults, traps, control -/

theorem current_of {s : State} {m : Team} {t : Thread}
    (h : s.cur = .thread t.team t.tix ∧ s.team? t.team = some m ∧ s.thread? t.team t.tix = some t) : Current s m t :=
  ⟨h.1, h.2.1, h.2.2⟩

/-- A field beyond r767, one beyond r255 under major 3, a misaligned one, and a later instruction under major 3. -/
theorem witness_illegal_fields :
    (Current (st []) p1 (thr []) ∧ plainFields 0 (thr []) (.add .s32 768 r0 r1) = some [src1 r0, src1 r1, dst1 768] ∧
      (∃ f ∈ [src1 r0, src1 r1, dst1 768], 768 ≤ f.last)) ∧
    (Current (stOf (fun _ => thr []) (fun m => { m with narrow := true }) id) { p1 with narrow := true } (thr []) ∧
      (∃ f ∈ [src1 r0, src1 r1, dst1 256], 256 ≤ f.last)) ∧
    (∃ f ∈ [src2 r0, src2 r2, dst2 765], f.r % f.align ≠ 0) ∧ Instr.since4 (.vtest 0 0) = true :=
  ⟨⟨current_of (by decide +kernel), rfl, by decide +kernel⟩, ⟨current_of (by decide +kernel), by decide +kernel⟩,
    by decide +kernel, rfl⟩

/-- NREG 8: a destination v8 is the lowest register beyond it. -/
theorem witness_register_beyond : Current (stOf (fun _ => thr []) (fun m => { m with nreg := 8 }) id) { p1 with nreg := 8 } (thr []) ∧
    plainFields 0 (thr []) (.add .s32 8 r0 r1) = some [src1 r0, src1 r1, dst1 8] ∧
    (∀ f ∈ [src1 r0, src1 r1, dst1 8], f.last < 768 ∧ f.r % f.align = 0) ∧
    [src1 r0, src1 r1, dst1 8].find? (fun f => decide (8 ≤ f.last)) = some (dst1 8) :=
  ⟨current_of (by decide +kernel), rfl, by decide +kernel, by decide +kernel⟩

/-- v1 poisoned; v1 empty with the trap policy; v1 empty with the park policy; the destination v5 empty. -/
theorem witness_source_checks :
    (let t := { thr [] with regs := [(1, .poisoned)] }
     Current (stw [] fun t => { t with regs := [(1, .poisoned)] }) p1 t ∧
     (sources [src1 r0, src1 r1, dst1 5]).find? (fun p => t.reg p.1 == .poisoned) = some (1, false)) ∧
    (let t := { thr [] with regs := [(1, .empty 7)] }
     Current (stw [] fun t => { t with regs := [(1, .empty 7)] }) p1 t ∧
     (∀ p ∈ sources [src1 r0, src1 ⟨1, true⟩, dst1 5], t.reg p.1 ≠ .poisoned) ∧
     (sources [src1 r0, src1 ⟨1, true⟩, dst1 5]).find? (fun p => isEmptyReg (t.reg p.1) && p.2) = some (1, true) ∧
     (∀ p ∈ sources [src1 r0, src1 r1, dst1 5], isEmptyReg (t.reg p.1) = true → p.2 = false) ∧
     ((sources [src1 r0, src1 r1, dst1 5]).filter fun p => isEmptyReg (t.reg p.1)) ≠ []) ∧
    (let t := { thr [] with regs := [(5, .empty 7)] }
     Current (stw [] fun t => { t with regs := [(5, .empty 7)] }) p1 t ∧
     ((sources [src1 r0, src1 r1, dst1 5]).filter fun p => isEmptyReg (t.reg p.1)) = [] ∧
     (destinations [src1 r0, src1 r1, dst1 5]).filter (fun r => isEmptyReg (t.reg r)) = [5]) :=
  ⟨⟨current_of (by decide +kernel), by decide +kernel⟩, ⟨current_of (by decide +kernel), by decide +kernel⟩,
    ⟨current_of (by decide +kernel), by decide +kernel⟩⟩

theorem witness_fault : (st []).team? 1 = some p1 ∧ (st []).launch? p1.launch = some probeLaunch := ⟨rfl, rfl⟩

theorem witness_traps :
    Ready (stw [] fun t => { t with trapvec := 8 }) p1 { thr [] with trapvec := 8 } (.trap true 255) false [] ∧
    Ready (stw [] fun t => { t with trapcause := 1 }) p1 { thr [] with trapcause := 1 } (.trap false 0) false [] ∧
    Ready (st []) p1 (thr []) (.trap false 0) false [] ∧ (thr []).mode = false ∧ ({ thr [] with trapcause := 1 } : Thread).mode = true ∧
    Ready (stw [] fun t => { t with trapcause := 1 }) p1 { thr [] with trapcause := 1 } .tret false [] ∧
    Ready (st []) p1 (thr []) .tret false [] ∧ (8 : DWord).toNat / 8 ≠ 0 ∧ (thr []).trapvec.toNat / 8 = 0 :=
  ⟨ready_of (by decide +kernel), ready_of (by decide +kernel), ready_of (by decide +kernel), rfl, rfl,
    ready_of (by decide +kernel), ready_of (by decide +kernel), by decide, rfl⟩

theorem witness_transfers : Ready (st [0x20000]) p1 (thr [0x20000]) (.br 0x800000) false [] ∧
    Ready (st [0x20000]) p1 (thr [0x20000]) (.brc true ⟨767, false⟩ 1) false [src1 ⟨767, false⟩] ∧
    Ready (st [0x20000]) p1 (thr [0x20000]) (.call 766 1) false [dst2 766] ∧
    Ready (st [0x20000]) p1 (thr [0x20000]) (.brx r0) false [src2 r0] ∧
    Ready (st [0x20004]) p1 (thr [0x20004]) (.ret r0) false [src2 r0] ∧
    Ready (st [0x20000]) p1 (thr [0x20000]) (.calli 0 r0) false [src2 r0, dst2 0] ∧
    Ready (st [0x20000]) p1 (thr [0x20000]) (.nop true) false [] ∧ (rp (thr [0x20004]) r0).toNat % 8 ≠ 0 :=
  ⟨ready_of (by decide +kernel), ready_of (by decide +kernel), ready_of (by decide +kernel), ready_of (by decide +kernel),
    ready_of (by decide +kernel), ready_of (by decide +kernel), ready_of (by decide +kernel), by decide +kernel⟩

/-- A second thread of the team, in the table. -/
def thr2 : Thread := { probeThread 1 with tix := 1, slot := 1, place := .table }

def st2 (f : Thread → Thread) (fm : Team → Team) (fl : Launch → Launch) : State :=
  let s := stOf f fm fl
  { s with threads := Tab.put s.threads (tkey 1 1) thr2 }

theorem witness_exit : let s := st2 (fun _ => thr []) id id
    Ready s p1 (thr []) .exit false [] ∧ p1.chains = [] ∧ (thr []).hcall = none ∧ p1.stage = .resident ∧
    (∀ p ∈ s.threads, p.2.team = 1 → p.2.live = true → heldAt p.2 = none) ∧
    (∃ p ∈ s.threads, p.1 ≠ tkey 1 0 ∧ p.2.team = 1 ∧ p.2.live = true) :=
  ⟨ready_of (by decide +kernel), rfl, rfl, rfl, by decide +kernel, by decide +kernel⟩

theorem test_trap_enters : (match exec (.trap false 0) (stw [] fun t => { t with trapvec := 0x123 }) with
    | .next s => (s.thread? 1 0).map fun t => (t.pc, t.trappc, t.trapcause)
    | _ => none) = some (0x120, 0x10008, 0x201) := by decide +kernel

theorem test_tret_returns : (match exec .tret (stw [] fun t => { t with trappc := 0x10040, trapcause := 0x2000201 }) with
    | .next s => (s.thread? 1 0).map fun t => (t.pc, t.trapcause)
    | _ => none) = some (0x10040, 0x2000200) := by decide +kernel

theorem test_call_links : (match exec (.call 30 64) (st []) with
    | .next s => (s.thread? 1 0).map fun t => (t.pc, t.pair 30)
    | _ => none) = some (0x10200, 0x10008) := by decide +kernel

theorem test_fault_stops : (match exec (.brx r0) (st [4]) with
    | .next s => ((s.thread? 1 0).map (·.place), (s.team? 1).map (·.stage), (s.launch? 1).map (·.nrec))
    | _ => (none, none, none)) = (some .stopped, some .ending, some 1) := by decide +kernel

/-! ### Accesses: v0:1 holds an address of the page at 0x20000, which the launch leases and the vector TLB maps -/

/-- The launch's second lease: the 64 KiB page at 0x20000 with these rights. -/
def leased (rights : Nat) (l : Launch) : Launch :=
  { l with record := spliceBytes l.record 0x188 (leBytes 8 (2 + 2 ^ 40 + rights * 2 ^ 62)) }

def dataXlat (out : Out) : Xlat :=
  { fn := 0, va := 0x20000, log := 16, ipa := 0x20000, out := out, r := true, w := true, x := false, pin := false }

/-- The state with the data page mapped to an output. -/
def sta (rights : Nat) (out : Option Out) (ws : List Word) (fm : Team → Team) : State :=
  let s := stOf (fun _ => thr ws) fm (leased rights)
  s.setCore 0 { s.core 0 with vtlb := (out.map dataXlat).toList }

def hb : Option Out := some (.hbm 0x20000)

theorem accesses_of {s : State} {m : Team} {t : Thread} {ea : DWord} {n : Nat} {k : Acc} {s' : State} {loc : Loc} {f ipa : Nat}
    (a : acqPending s t.team t.tix = false) (b : checkAccess s t.team m t.core ea n k = (s', .ok loc f ipa)) :
    Accesses s m t ea n k s' loc f ipa := ⟨a, b⟩

theorem witness_access_checks :
    let i := Instr.ld .w32 .th false false 4 r0 0
    (∃ fs, accessForm (thr [0x20002]) i = some (fs, 0x20002, 4, .load) ∧
      Ready (sta 2 hb [0x20002] id) p1 (thr [0x20002]) i false fs ∧ acqPending (sta 2 hb [0x20002] id) 1 0 = false) ∧
    (∃ fs l, accessForm (thr [0x30000]) i = some (fs, 0x30000, 4, .load) ∧
      Ready (sta 2 hb [0x30000] id) p1 (thr [0x30000]) i false fs ∧ (sta 2 hb [0x30000] id).launch? 1 = some l ∧
      l.windowOf 0 0x30000 4 = none ∧ l.leaseOf 0x30000 4 = none) ∧
    (∃ fs, accessForm (thr [0x20000]) (.st .w32 .th false r1 r0 0) = some (fs, 0x20000, 4, .store) ∧
      Ready (sta 1 hb [0x20000] id) p1 (thr [0x20000]) (.st .w32 .th false r1 r0 0) false fs ∧
      leaseAllows (2 + 2 ^ 40 + 1 * 2 ^ 62) .w = false ∧
      (leased 1 probeLaunch).leaseOf 0x20000 4 = some (2 + 2 ^ 40 + 1 * 2 ^ 62)) :=
  ⟨⟨_, rfl, ready_of (by decide +kernel), rfl⟩, ⟨_, leased 2 probeLaunch, rfl, ready_of (by decide +kernel), rfl, by decide +kernel⟩,
    ⟨_, rfl, ready_of (by decide +kernel), by decide +kernel⟩⟩

/-- With no entry in a TLB and no tables, the walk of stage 1 misses its root table in stage 2. -/
theorem witness_access_stalls : ∃ s' ipa wk, (sta 2 none [0x20000] id).launch? 1 = some (leased 2 probeLaunch) ∧
    leaseAllows (2 + 2 ^ 40 + 2 * 2 ^ 62) .r = true ∧
    translate (sta 2 none [0x20000] id) (.vector 0) 0 0x20000 .r = (s', .stage2 ipa wk) := by
  exact ⟨(translate (sta 2 none [0x20000] id) (.vector 0) 0 0x20000 .r).1, 0, true, rfl, by decide,
    Prod.ext rfl (by decide +kernel)⟩

theorem witness_loads : ∃ s1,
    Ready (sta 2 hb [0x20000] id) p1 (thr [0x20000]) (.ld .w128 .dev false false 764 r0 16) false [src2 r0, dstW .w128 764] ∧
    Accesses (sta 2 hb [0x20000] id) p1 (thr [0x20000]) (rp (thr [0x20000]) r0 + 16) 16 .load s1 (.mem 0x20010) 0 0x20010 ∧
    loadable p1 .w128 (.mem 0x20010) ∧ countFull s1 (thr [0x20000]) .ld = false ∧
    ¬loadable p1 .w128 (.window 1 0 0) ∧ ¬loadable p1 .w32 (.notify 0 0 0) ∧ loadable p1 .w64 (.notify 0 0 0) ∧
    Ready (sta 2 hb [0x20000] id) p1 (thr [0x20000]) (.ldc .w8 true 767 r0 1) false [src2 r0, dstW .w8 767] ∧
    Tab.find (s1.core 0).cc (0x20010 / 32) = none :=
  ⟨_, ready_of (by decide +kernel), accesses_of rfl rfl, trivial, rfl, id, by simp [loadable], rfl, ready_of (by decide +kernel), rfl⟩

theorem witness_stores : ∃ s1 s2 s3 c,
    Ready (sta 2 hb [0x20000] id) p1 (thr [0x20000]) (.st .w64 .th false r2 r0 8) false [srcW .w64 r2, src2 r0] ∧
    Accesses (sta 2 hb [0x20000] id) p1 (thr [0x20000]) (rp (thr [0x20000]) r0 + 8) 8 .store s1 (.mem 0x20008) 0 0x20008 ∧
    storable p1 .w64 (.mem 0x20008) ∧ p1.buffers = false ∧ countFull s1 (thr [0x20000]) .st = false ∧
    heldBack s1 (thr [0x20000]) .th (.mem 0x20008) 8 = false ∧ isHbm 0x20008 = true ∧
    ¬storable p1 .w64 (.window 1 0 0) ∧ storable p1 .w32 (.window 1 0 0) ∧ bufferAddr (.window 1 0 0) = none ∧
    (let m := { p1 with idem := true }
     Ready (sta 2 hb [0x20000] fun m => { m with idem := true }) m (thr [0x20000]) (.st .w64 .th false r2 r0 8) false
       [srcW .w64 r2, src2 r0] ∧
     Accesses (sta 2 hb [0x20000] fun m => { m with idem := true }) m (thr [0x20000]) (rp (thr [0x20000]) r0 + 8) 8 .store s2
       (.mem 0x20008) 0 0x20008 ∧ m.buffers = true ∧ bufferAddr (.mem 0x20008) = some 0x20008 ∧
     sameBytes s2 (thr [0x20000]) (.mem 0x20008) 8 = [] ∧ countFull s2 (thr [0x20000]) .st = false ∧
     psbStore (s2.core 0) ((thr [0x20000]).buffered 0x20008 0x20008 0x20008 (leBytes 8 5)) = some c) ∧
    (let s := sta 2 hb [0x20000] id
     p1.buffers = false ∧ acqPending s 1 0 = false ∧ (0x20008 : DWord).toNat % 8 = 0 ∧
     s.launch? p1.launch = some (leased 2 probeLaunch) ∧ (leased 2 probeLaunch).windowOf p1.num 0x20008 8 = none ∧
     (leased 2 probeLaunch).leaseOf 0x20008 8 = some (2 + 2 ^ 40 + 2 * 2 ^ 62) ∧ leaseRights (2 + 2 ^ 40 + 2 * 2 ^ 62) = 2 ∧
     translate s (.vector 0) 0 0x20008 .w = (s3, .ok (dataXlat (.hbm 0x20000))) ∧
     ((dataXlat (.hbm 0x20000)).outAt 0x20008).phys = some 0x20008 ∧ countOf s 1 0 .st < 255) :=
  ⟨_, _, _, _, ready_of (by decide +kernel), accesses_of rfl rfl, trivial, rfl, rfl, by decide +kernel, by decide,
    by simp [storable], rfl, rfl,
    ⟨ready_of (by decide +kernel), accesses_of rfl rfl, rfl, rfl, by decide +kernel, rfl, rfl⟩,
    ⟨rfl, rfl, rfl, rfl, by decide +kernel, by decide +kernel, by decide +kernel, rfl, by decide +kernel, by decide +kernel⟩⟩

/-- A full buffer takes no entry of another sector. -/
def sfull : State := let s := sta 2 hb [0x20000] fun m => { m with idem := true }
  s.setCore 0 { s.core 0 with psb := List.replicate 512 ⟨1, 0x30000, [], [], [], 0, 0, false⟩ }

theorem witness_full_buffer : ∃ s1,
    Ready sfull { p1 with idem := true } (thr [0x20000]) (.st .w64 .th false r2 r0 8) false [srcW .w64 r2, src2 r0] ∧
    Accesses sfull { p1 with idem := true } (thr [0x20000]) (rp (thr [0x20000]) r0 + 8) 8 .store s1 (.mem 0x20008) 0 0x20008 ∧
    sameBytes s1 (thr [0x20000]) (.mem 0x20008) 8 = [] ∧ countFull s1 (thr [0x20000]) .st = false ∧
    psbStore (s1.core 0) ((thr [0x20000]).buffered 0x20008 0x20008 0x20008 (leBytes 8 5)) = none :=
  ⟨_, ready_of (by decide +kernel), accesses_of rfl rfl, by decide +kernel, rfl, by decide +kernel⟩

theorem witness_scratch : let s := stOf (fun _ => thr [60]) (fun m => { m with scrSize := 64 }) id
    let m := { p1 with scrSize := 64 }
    scratchForm (thr [60]) (.lds .w32 .team false 767 r0 0) = some ([src1 r0, dstW .w32 767], 60, 4) ∧
    Ready s m (thr [60]) (.lds .w32 .team false 767 r0 0) false [src1 r0, dstW .w32 767] ∧ acqPending s 1 0 = false ∧
    countFull s (thr [60]) .ld = false ∧ (60 : Int) + 4 ≤ m.scrSize ∧
    scratchForm (thr [60]) (.sts .w64 .th r2 r0 0) = some ([srcW .w64 r2, src1 r0], 60, 8) ∧ (60 : Int) % 8 ≠ 0 ∧
    Ready s m (thr [60]) (.sts .w64 .th r2 r0 0) false [srcW .w64 r2, src1 r0] ∧
    scratchForm (thr [60]) (.sts .w8 .th r2 r0 4) = some ([srcW .w8 r2, src1 r0], 64, 1) ∧ (m.scrSize : Int) < 64 + 1 ∧
    Ready s m (thr [60]) (.sts .w8 .th r2 r0 4) false [srcW .w8 r2, src1 r0] ∧
    scratchForm (thr [60]) (.atoms .add .n32 .cl 5 r0 r1) = some ([src1 r0, srcA .n32 r1, dstA .n32 5], 60, 4) ∧
    Ready s m (thr [60]) (.atoms .add .n32 .cl 5 r0 r1) false [src1 r0, srcA .n32 r1, dstA .n32 5] ∧
    (∃ x, atomicForm (thr [60]) (.scratch 1 60) (.atoms .add .n32 .cl 5 r0 r1) = some x) :=
  ⟨rfl, ready_of (by decide +kernel), rfl, rfl, by decide, rfl, by decide, ready_of (by decide +kernel), rfl, by decide,
    ready_of (by decide +kernel), rfl, ready_of (by decide +kernel), _, rfl⟩

theorem witness_atomics : ∃ s1 x, let i := Instr.cas .n64 .dev 766 r0 r2 ⟨4, false⟩
    accessForm (thr [0x20000]) i = some ([src2 r0, srcA .n64 r2, srcA .n64 ⟨4, false⟩, dstA .n64 766], 0x20000, 8, .atomic) ∧
    Ready (sta 2 hb [0x20000] id) p1 (thr [0x20000]) i false [src2 r0, srcA .n64 r2, srcA .n64 ⟨4, false⟩, dstA .n64 766] ∧
    Accesses (sta 2 hb [0x20000] id) p1 (thr [0x20000]) 0x20000 8 .atomic s1 (.mem 0x20000) 0 0x20000 ∧
    atomicForm (thr [0x20000]) (.mem 0x20000) i = some x ∧ updatable p1 (.mem 0x20000) ∧ ¬updatable p1 (.notify 0 0 0) ∧
    ¬updatable { p1 with idem := true } (.mem 0x20000) ∧ countFull s1 (thr [0x20000]) .ld = false :=
  ⟨_, _, rfl, ready_of (by decide +kernel), accesses_of rfl rfl, rfl, rfl, id, by simp [updatable], rfl⟩

/-- A request of the thread, in flight. -/
def rq (act : Act) : Req := (thr []).req 0 (some .ld) act

/-- The state with a request of the thread in flight. -/
def withReq (s : State) (r : Req) : State := { s with reqs := Tab.put s.reqs 9 r, uid := 10 }

/-- Lane 1 of the row has issued its `ldc` of the same 16 bytes. -/
theorem witness_shared_ldc : let q : Req := { rq (.loadConst 0x20014 4 false 5) with owner := .thread 1 1 }
    let s := { sta 2 hb [0x20000] id with threads := [(tkey 1 0, thr [0x20000]), (tkey 1 1, { thr2 with pc := 0x10000 })] }
    let s := withReq (s.setCore 0 { s.core 0 with rows := [(0, ⟨3, 0x10000, 0, [0], [1], []⟩)] }) q
    (9, q) ∈ rowMates s (thr [0x20000]) ∧ 0x20014 / 16 = 0x20010 / 16 := by decide +kernel

theorem witness_fences : Ready (st []) p1 (thr []) (.wcnt .ld 0) false [] ∧ countOf (st []) 1 0 .ld ≤ 0 ∧
    countOf (withReq (st []) (rq (.load (.mem 0) 4 false 5 false))) 1 0 .ld = 1 ∧
    Ready (st []) p1 (thr []) (.fence .ar .th) false [] ∧ Ready (st []) p1 (thr []) (.fence .rel .fab) false [] ∧
    Ready (st []) p1 (thr []) (.fence .acq .cl) false [] ∧ Ready (st []) p1 (thr []) (.fence .ar .dev) false [] ∧
    loadsPending (st []) 1 0 = false ∧ loadsPending (withReq (st []) (rq (.load (.mem 0) 4 false 5 false))) 1 0 = true ∧
    Ready (withReq (st []) (rq (.load (.mem 0) 4 false 5 false))) p1 (thr []) (.fence .ar .dev) false [] ∧
    Ready (st []) p1 (thr []) .ifence false [] ∧ countOf (st []) 1 0 .st = 0 ∧ Ready (st []) p1 (thr []) (.pf true r0 1) false [src2 r0] ∧
    Ready (st []) p1 (thr []) (.vmark true 63 704 r0) false [dstN 704 64 1] ∧
    Ready (st []) p1 (thr []) (.vmark false 0 767 r0) false [src1 r0, dstN 767 1 1] :=
  ⟨ready_of (by decide +kernel), by decide +kernel, by decide +kernel, ready_of (by decide +kernel), ready_of (by decide +kernel),
    ready_of (by decide +kernel), ready_of (by decide +kernel), rfl, rfl, ready_of (by decide +kernel), ready_of (by decide +kernel),
    rfl, ready_of (by decide +kernel), ready_of (by decide +kernel), ready_of (by decide +kernel)⟩

/-! ### Meetings, barriers, deques, waiting, launches -/

theorem witness_meetings : let s := st2 (fun _ => thr [5]) id id
    meetForm (thr [5]) (.shfl .idx 767 r0 r1) = some ([src1 r0, src1 r1, dst1 767], [5, 0]) ∧
    Ready s p1 (thr [5]) (.shfl .idx 767 r0 r1) false [src1 r0, src1 r1, dst1 767] ∧
    meetNeeds s p1 (thr [5]) (.shfl .idx 767 r0 r1) ∧ (thr [5]).mode = false ∧
    Ready s p1 (thr [5]) (.bar .cl) false [] ∧ meetNeeds s p1 (thr [5]) (.bar .cl) ∧
    meetNeeds s { p1 with w := 64 } (thr [5]) (.bqmax 5 r0) ∧
    p1.nthr = p1.w ∧ (∃ x ∈ ((retire s 1).setThread { thr [5] with place := .held (.meet (.bar .cl) []) }).teamThreads 1,
      x.live = true ∧ x.tix / 8 = 0 ∧ heldAt x = none) :=
  ⟨rfl, ready_of (by decide +kernel), trivial, rfl, ready_of (by decide +kernel), fun _ => ⟨rfl, rfl⟩, (by decide : 32 ≤ 64), rfl, by decide +kernel⟩

theorem witness_meeting_in_trap_mode : Ready (stw [5] fun t => { t with trapcause := 1 }) p1 { thr [5] with trapcause := 1 }
    (.vote .every 5 r0) false [src1 r0, dst1 5] ∧ ({ thr [5] with trapcause := 1 } : Thread).mode = true :=
  ⟨ready_of (by decide +kernel), rfl⟩

/-- A launch of two phases that declares the deque. -/
def dqLaunch (l : Launch) : Launch :=
  { l with record := spliceBytes (spliceBytes l.record 0x008 (leBytes 4 8)) 0x016 (leBytes 1 2) }

theorem witness_phase_and_idle : let s := stOf (fun _ => thr []) id dqLaunch
    Ready s p1 (thr []) .phase false [] ∧ meetNeeds s p1 (thr []) .phase ∧ Ready s p1 (thr []) (.dqidle 767) false [dst1 767] ∧
    meetNeeds s p1 (thr []) (.dqidle 767) :=
  ⟨ready_of (by decide +kernel), ⟨rfl, ⟨_, rfl, by decide +kernel⟩, rfl, rfl⟩, ready_of (by decide +kernel), ⟨_, rfl, by decide +kernel⟩⟩

theorem witness_group_meeting : let t : Thread := { thr [5] with place := .held (.meet (.vote .every 5 r0) [5]) }
    heldAt t = some (.vote .every 5 r0, [5]) ∧ teamMeeting (.vote .every 5 r0) = false ∧
    (∀ x ∈ [t, { thr2 with place := t.place, pc := 0x10000 }], ∃ ws, heldAt x = some (.vote .every 5 r0, ws) ∧ x.pc = t.pc) ∧
    (∀ x ∈ [t, { thr2 with place := t.place, pc := 0x10008 }], (heldAt x).isSome = true) ∧
    (∃ x ∈ [{ thr2 with place := t.place, pc := 0x10008 }], x.pc ≠ t.pc) ∧
    enabled { t with fflags := 0 } 0 = false := by
  refine ⟨rfl, rfl, ?_, by decide +kernel, by decide +kernel, by decide +kernel⟩
  intro x hx
  simp only [List.mem_cons, List.not_mem_nil, or_false] at hx
  obtain rfl | rfl := hx <;> exact ⟨[5], rfl, rfl⟩

theorem witness_results : let g : List Member := [(0, [7, 63]), (63, [9, 0])]
    (∀ y ∈ g, y.1 < 64) ∧ (∃ y ∈ g, (y.1 : Int) = (63 : Nat) ∧ Member.a y = 9 ∧ ∀ z ∈ g, z.1 = y.1 → z = y) ∧
    Member.b (0, [7, 63]) = 63 ∧ (∀ y ∈ g, y.1 ≠ Member.b (0, [7, 62]) % 64) ∧ Ty.inX .n32 = true := by decide

theorem test_ballot : ballotMask 64 [(0, [1]), (5, [0]), (63, [2])] = 0x8000000000000001 := by decide +kernel
theorem test_vote_same_absent : voteOf .same 8 [(0, [1]), (1, [1])] = 0 := by decide +kernel
theorem test_gscan_exclusive : (gscanOf .add .n32 true [(0, [1]), (1, [2]), (2, [4])] (2, [4])).1 = 3 := by decide +kernel

theorem witness_barriers : let m := { p1 with scrSize := 64 }
    let s (ws : List Word) := stOf (fun _ => thr ws) (fun m => { m with scrSize := 64 }) id
    Ready (s [48, 5]) m (thr [48, 5]) (.cbinit r0 r1) false [src1 r0, src1 r1] ∧ (48 : Nat) + 16 ≤ m.scrSize ∧
    sameBytes (s [48, 5]) (thr [48, 5]) (.scratch 1 48) 16 = [] ∧
    Ready (s [49, 5]) m (thr [49, 5]) (.cbinit r0 r1) false [src1 r0, src1 r1] ∧
    Ready (s [64, 5]) m (thr [64, 5]) (.cbinit r0 r1) false [src1 r0, src1 r1] ∧ m.scrSize < 64 + 16 ∧
    Ready (s [48, 5]) m (thr [48, 5]) (.cbarr .cl r0 r1) false [src1 r0, src1 r1] ∧ countFull (s [48, 5]) (thr [48, 5]) .st = false ∧
    Ready (s [48, 5]) m (thr [48, 5]) (.cbtest 767 r0) false [src1 r0, dst1 767] ∧ countFull (s [48, 5]) (thr [48, 5]) .ld = false ∧
    Ready (s [48, 1]) m (thr [48, 1]) (.cbwait r0 r1) false [src1 r0, src1 r1] ∧
    (FMap.get 0 m.scratch (48 + 8)).getLsbD 0 ≠ (rw (thr [48, 1]) r1).getLsbD 0 ∧
    (FMap.get 0 m.scratch (48 + 8)).getLsbD 0 = (rw (thr [48, 0]) r1).getLsbD 0 :=
  ⟨ready_of (by decide +kernel), by decide, rfl, ready_of (by decide +kernel), ready_of (by decide +kernel), by decide,
    ready_of (by decide +kernel), rfl, ready_of (by decide +kernel), rfl, ready_of (by decide +kernel), by decide +kernel, by decide +kernel⟩

/-- EXP 3 with 2 arrived, and 4 more: two completions, nothing left over (R198). -/
theorem test_arrival : arrival (leBytes 4 3 ++ leBytes 4 2 ++ [0, 7, 0, 0] ++ leBytes 4 9) 4 =
    leBytes 4 3 ++ leBytes 4 0 ++ [0, 7, 0, 0] ++ leBytes 4 11 := by decide +kernel

theorem test_arrival_flips : arrival (leBytes 4 3 ++ leBytes 4 2 ++ [0, 7, 0, 0] ++ leBytes 4 9) 2 =
    leBytes 4 3 ++ leBytes 4 1 ++ [1, 7, 0, 0] ++ leBytes 4 10 := by decide +kernel

def sdq (ws : List Word) (f : Core → Core) : State :=
  let s := stOf (fun _ => thr ws) id dqLaunch
  s.setCore 0 (f (s.core 0))

theorem witness_deque : (st [8, 0]).launch? 1 = some probeLaunch ∧ probeLaunch.dq = false ∧
    Ready (st [8, 0]) p1 (thr [8, 0]) (.dqpush 5 r0 r2) false [src2 r0, srcN r2 6 1, dst1 5] ∧
    Ready (st []) p1 (thr []) (.dqpop 760) false [dstN 760 8 8] ∧
    Ready (sdq [8, 0] id) p1 (thr [8, 0]) (.dqpush 5 r0 r2) false [src2 r0, srcN r2 6 1, dst1 5] ∧ (dqLaunch probeLaunch).dq = true ∧
    Ready (sdq [4, 0] id) p1 (thr [4, 0]) (.dqpush 5 r0 r2) false [src2 r0, srcN r2 6 1, dst1 5] ∧
    Ready (sdq [0, 0] id) p1 (thr [0, 0]) (.dqpush 5 r0 r2) false [src2 r0, srcN r2 6 1, dst1 5] ∧ rp (thr [0, 0]) r0 = 0 ∧
    ((sdq [8, 0] id).core 0).deque.length < 64 ∧
    Ready (sdq [] id) p1 (thr []) (.dqpop 760) false [dstN 760 8 8] ∧ ((sdq [] id).core 0).spill = [] ∧
    ((sdq [] fun c => { c with deque := [⟨8, []⟩, ⟨16, []⟩] }).core 0).deque = [⟨8, []⟩] ++ [⟨16, []⟩] ∧
    Ready (sdq [] fun c => { c with deque := [⟨8, []⟩, ⟨16, []⟩] }) p1 (thr []) (.dqpop 760) false [dstN 760 8 8] ∧
    countFull (sdq [] id) (thr []) .ld = false :=
  ⟨rfl, by decide +kernel, ready_of (by decide +kernel), ready_of (by decide +kernel), ready_of (by decide +kernel), by decide +kernel,
    ready_of (by decide +kernel), ready_of (by decide +kernel), by decide +kernel, by decide, ready_of (by decide +kernel), rfl, rfl,
    ready_of (by decide +kernel), rfl⟩

/-- Core 1 holds an entry of the launch's deque. -/
def sst : State := let s := sdq [] id
  s.setCore 1 { s.core 1 with dqOwner := some 1, deque := [⟨8, []⟩, ⟨16, []⟩] }

theorem witness_steal : Ready sst p1 (thr []) (.dqsteal 760) false [dstN 760 8 8] ∧ (sst.core 1).dqOwner = some 1 ∧
    (sst.core 1).deque = [⟨8, []⟩, ⟨16, []⟩] ∧ (∃ before after, stealOrder 0 = before ++ 1 :: after ∧
      ∀ c ∈ before, (sst.core c).dqOwner ≠ some p1.launch ∨ ((sst.core c).deque = [] ∧ (sst.core c).spill = [])) ∧
    Ready (sdq [] id) p1 (thr []) (.dqsteal 760) false [dstN 760 8 8] ∧
    (∀ c ∈ stealOrder 0, ((sdq [] id).core c).dqOwner ≠ some p1.launch) :=
  ⟨ready_of (by decide +kernel), rfl, rfl, ⟨(stealOrder 0).takeWhile (· != 1), ((stealOrder 0).dropWhile (· != 1)).drop 1,
    by decide +kernel, by decide +kernel⟩, ready_of (by decide +kernel), by decide +kernel⟩

theorem witness_identity_and_waits : ∃ s1, Ready (st []) p1 (thr []) (.sid 13 767) false [dst1 767] ∧
    (13 : BitVec 4).toNat < 14 ∧ Ready (st []) p1 (thr []) .yield false [] ∧
    Ready (sta 2 hb [0x20000, 0, 100, 7] id) p1 (thr [0x20000, 0, 100, 7]) (.sleep 5 r0 r2 r3) false [src2 r0, src1 r2, src1 r3, dst1 5] ∧
    Accesses (sta 2 hb [0x20000, 0, 100, 7] id) p1 (thr [0x20000, 0, 100, 7]) 0x20000 4 .load s1 (.mem 0x20000) 0 0x20000 ∧
    isHbm 0x20000 = true ∧ poisonedAt s1 0x20000 4 = false ∧ leNat (readBytes s1 0x20000 4) ≠ (rw (thr [0x20000, 0, 100, 7]) r3).toNat ∧
    parkOver s1 (thr [0x20000, 0, 100, 7]) (.after (homeAfter s1 (thr [0x20000, 0, 100, 7]) (.mem 0x20000) 4)) = true :=
  ⟨_, ready_of (by decide +kernel), by decide, ready_of (by decide +kernel), ready_of (by decide +kernel), accesses_of rfl rfl,
    by decide, rfl, by decide +kernel, by decide +kernel⟩

theorem held_of {s : State} {m : Team} {t : Thread} {h : Hold}
    (p : s.team? t.team = some m ∧ (m.stage = .resident ∨ m.stage = .stopping ∨ m.stage = .ending) ∧ s.thread? t.team t.tix = some t ∧ t.place = .held h) : HeldAt s t h :=
  ⟨⟨m, p.1, p.2.1⟩, p.2.2.1, p.2.2.2⟩

theorem witness_held : HeldAt (stw [] fun t => { t with place := .held (.yield 0) }) { thr [] with place := .held (.yield 0) } (.yield 0) ∧
    HeldAt (stw [] fun t => { t with place := .held (.sleep 0x20000 5 (some 0)) })
      { thr [] with place := .held (.sleep 0x20000 5 (some 0)) } (.sleep 0x20000 5 (some 0)) ∧
    HeldAt (stw [] fun t => { t with place := .held (.tlbinv [9] []) }) { thr [] with place := .held (.tlbinv [9] []) } (.tlbinv [9] []) :=
  ⟨held_of (m := p1) (by decide +kernel), held_of (m := p1) (by decide +kernel), held_of (m := p1) (by decide +kernel)⟩

theorem witness_topk_result : let t : Thread := { thr [] with place := .held .mxtopk }
    let r : Req := { rq (.mxTopk 0 0 1 256 false false 5) with performed := true, data := some [1, 0, 0, 0, 0, 0, 0, 0] }
    let s := withReq (stw [] fun t => { t with place := .held .mxtopk }) r
    HeldAt s t .mxtopk ∧ s.reqs = [] ++ (9, r) :: [] ∧ r.owner = .thread t.team t.tix ∧ r.complete = false :=
  ⟨held_of (m := p1) (by decide +kernel), by decide +kernel⟩

/-! A spawn of the 512 bytes at 0x20000 to queue 3, whose BASE is 0x30000. -/

def sspawn (ws : List Word) (q : LQ) : State :=
  let s := sta 2 hb ws id
  { s with
    queues := [(3, q)]
    fns := [(0, { Fn.physical with s2root := 0x4000000001 })]
    mem := putBytes (putBytes s.mem 0x4000000000 (leBytes 8 (0x4000010000 + 3))) 0x4000010000 (leBytes 8 (1 + 4 + 8)) }

theorem witness_spawn : ∃ s1 s2, let ws : List Word := [0x20000, 0, 3]
    Ready (sspawn ws LQ.reset) p1 (thr ws) (.spawn 5 r0 r2) false [src2 r0, src1 r2, dst1 5] ∧
    acqPending (sspawn ws LQ.reset) 1 0 = false ∧
    Accesses (sspawn ws LQ.reset) p1 (thr ws) 0x20000 512 .load s1 (.mem 0x20000) 0 0x20000 ∧ countFull s1 (thr ws) .ld = false ∧
    poisonedAt s1 0x20000 512 = false ∧ (s1.lq 0 3).en = false ∧
    (rw (thr [0x20000, 0, 31]) r2).toNat % 32 = 31 ∧ (thr [0x20000, 0, 31]).priv = false ∧ probeLaunch.fn = 0 ∧
    (let s := sspawn ws { LQ.reset with en := true, base := 0x30000 }
     Ready s p1 (thr ws) (.spawn 5 r0 r2) false [src2 r0, src1 r2, dst1 5] ∧ p1.buffers = false ∧ countOf s 1 0 .ld = 0 ∧
     countOf s 1 0 .st = 0 ∧ s.launch? p1.launch = some (leased 2 probeLaunch) ∧
     (leased 2 probeLaunch).windowOf p1.num 0x20000 512 = none ∧
     (leased 2 probeLaunch).leaseOf 0x20000 512 = some (2 + 2 ^ 40 + 2 * 2 ^ 62) ∧
     translate s (.vector 0) 0 0x20000 .r = (s2, .ok (dataXlat (.hbm 0x20000))) ∧ poisonedAt s 0x20000 512 = false ∧
     ((s.lq 0 3).tail - (s.lq 0 3).head).toNat ≠ 2 ^ (s.lq 0 3).log ∧
     (ipaAccess s 0 ((s.lq 0 3).slotAddr (s.lq 0 3).tail) .w).2 = some (.hbm 0x30000) ∧ pageQueued s 0x30000 = false ∧
     inBitmap 0x30000 = false) ∧
    (let n := (sspawn ws { LQ.reset with en := true, tail := 2 ^ 4, log := 4 }).lq 0 3
     n.en = true ∧ (n.tail - n.head).toNat = 2 ^ n.log) :=
  ⟨_, _, ready_of (by decide +kernel), rfl, accesses_of rfl rfl, rfl, by decide +kernel, rfl, by decide +kernel, rfl, rfl,
    ⟨ready_of (by decide +kernel), rfl, by decide +kernel, by decide +kernel, rfl, by decide +kernel, by decide +kernel, rfl,
      by decide +kernel, by decide +kernel, by decide +kernel, by decide +kernel, by decide +kernel⟩, by decide +kernel⟩

/-! ### The matrix unit, programs, bound cells, multicast -/

/-- The literal of the spec's product (file 14), its octets and streams. -/
def lit : DWord := 0x00000014C0321003

theorem test_literal : litLegal lit = true ∧ litOctets lit = [0, 1] ∧ litCh lit = 0 ∧ noRepeat (litStreams lit) = true := by
  decide +kernel

/-- A team with streams, tiles and chains. -/
def smx (ms : List Chain) (ws : List Word) : State :=
  stOf (fun _ => thr ws) (fun m => { m with streams := List.replicate 16 [], nacc := 2, chains := ms }) id

def pmx (ms : List Chain) : Team := { p1 with streams := List.replicate 16 [], nacc := 2, chains := ms }

def chainOf (q : List Nat) : Chain :=
  { sub := 0, ch := 0, ctx := 0, lit := lit, q := q, exited := List.replicate 8 false, pend := List.replicate 8 none,
    closing := false, passes := 0 }

def ch0 : Chain := chainOf (List.replicate 8 0)
def ch1 : Chain := chainOf [1, 0, 0, 0, 0, 0, 0, 0]

theorem witness_mxbeg : Ready (smx [] []) (pmx []) (thr []) (.mxbeg lit) false [] ∧ (thr []).slot = 8 * 0 + 64 * ((thr []).slot / 64) ∧
    (∀ k ∈ litStreams lit, k < (pmx []).streams.length) ∧ (pmx []).chain? 0 (litCh lit) = none ∧
    freeContext (smx [] []) (clusterOf 0) = some 0 ∧ litLegal 0 = false ∧ litOctets 1 = [0] ∧
    Ready (st []) p1 (thr []) (.mxbeg lit) false [] ∧ (∃ k ∈ litStreams lit, p1.streams.length ≤ k) ∧
    Ready (smx [ch0] []) (pmx [ch0]) (thr []) (.mxbeg lit) false [] ∧ (pmx [ch0]).chain? 0 (litCh lit) = some ch0 :=
  ⟨ready_of (by decide +kernel), by decide, by decide +kernel, rfl, by decide +kernel, by decide +kernel, by decide +kernel,
    ready_of (by decide +kernel), by decide +kernel, ready_of (by decide +kernel), by decide +kernel⟩

theorem witness_mxend : Ready (smx [ch0] []) (pmx [ch0]) (thr []) (.mxend 0) false [] ∧
    (pmx [ch0]).chain? 0 0 = some ch0 ∧ (thr []).slot = 8 * (litOctets ch0.lit).headD 0 ∧ countFull (smx [ch0] []) (thr []) .mx = false ∧
    Ready (smx [] []) (pmx []) (thr []) (.mxend 3) false [] ∧ (pmx []).chain? 0 3 = none :=
  ⟨ready_of (by decide +kernel), by decide +kernel, by decide +kernel, rfl, ready_of (by decide +kernel), rfl⟩

theorem witness_requests : requestForm (.mma false 0 0) = some (0, false, 0, 0) ∧
    Ready (smx [ch0] []) (pmx [ch0]) (thr []) (.mma false 0 0) false [] ∧ (thr []).slot % 8 = 0 ∧ chainMask ch0 0 = true ∧
    requestFault (pmx [ch0]) ((smx [ch0] []).cluster 0) 1 ch0 0 0 0 = none ∧ ch0.closing = false ∧
    ((smx [ch0] []).cluster 0).resv.length < 32 ∧ chainMask ch0 2 = false ∧ (pmx [ch0]).nacc ≤ 2 ∧
    requestForm (.mxscale false 0 1) = some (1, false, 0, 1) ∧ litBq lit = true ∧ ch0.q.getD 0 0 % 2 ≠ 1 ∧
    Ready (smx [ch0] []) (pmx [ch0]) (thr []) (.mxscale false 0 1) false [] ∧
    requestFault (pmx [ch1]) ((smx [ch1] []).cluster 0) 1 ch1 0 1 1 = none ∧ (pmx []).chain? 0 0 = none :=
  ⟨rfl, ready_of (by decide +kernel), rfl, by decide +kernel, by decide +kernel, rfl, by decide +kernel, by decide +kernel, by decide,
    rfl, by decide +kernel, by decide +kernel, ready_of (by decide +kernel), by decide +kernel, rfl⟩

theorem witness_tile_rows : let ws : List Word := [0, 248]
    rowForm (thr ws) (.mxld false 3 1 760 r1) = some ([src1 r1, dstN 760 8 8], 1, 248, 8, 760, 8, .mxLoad 1 0 248 8 760) ∧
    Ready (smx [] ws) (pmx []) (thr ws) (.mxld false 3 1 760 r1) false [src1 r1, dstN 760 8 8] ∧ (1 : Nat) < (pmx []).nacc ∧
    248 % 8 = 0 ∧ countFull (smx [] ws) (thr ws) .mx = false ∧
    rowForm (thr [0, 249]) (.mxst 3 1 ⟨8, false⟩ r1) = some ([srcN ⟨8, false⟩ 8 8, src1 r1], 1, 249, 8, 0, 0,
      .mxStore 1 0 249 (List.replicate 8 0)) ∧
    Ready (smx [] [0, 249]) (pmx []) (thr [0, 249]) (.mxst 3 1 ⟨8, false⟩ r1) false [srcN ⟨8, false⟩ 8 8, src1 r1] ∧ 249 % 8 ≠ 0 ∧
    Ready (smx [] ws) (pmx []) (thr ws) (.mxzero 2) false [] ∧ (pmx []).nacc ≤ 2 :=
  ⟨rfl, ready_of (by decide +kernel), by decide, by decide, rfl, rfl, ready_of (by decide +kernel), by decide,
    ready_of (by decide +kernel), by decide⟩

/-- K 16 and N 256, the largest, and K 17. -/
theorem witness_topk : let ws : List Word := [16 + 256 * 256, 17 + 256]
    Ready (smx [] ws) (pmx []) (thr ws) (.mxtopk true false 0 736 r0) false [src1 r0, dstN 736 1 2] ∧
    (rw (thr ws) r0).toNat % 32 = 16 ∧ (rw (thr ws) r0).toNat / 256 % 512 = 256 ∧ 736 + 2 * 16 ≤ (pmx []).nreg ∧
    (∀ j, j < 2 * 16 → isEmptyReg ((thr ws).reg (736 + j)) = false) ∧ (rw (thr ws) r1).toNat % 32 = 17 :=
  ⟨ready_of (by decide +kernel), by decide +kernel, by decide +kernel, by decide, by decide +kernel, by decide +kernel⟩

theorem witness_row_accesses : let r := rq (.mxStore 1 63 248 [1, 2, 3, 4, 5, 6, 7, 8])
    (withReq (smx [] []) r).team? 1 = some (pmx []) ∧ Tab.find (withReq (smx [] []) r).reqs 9 = some r ∧
    Tab.find (withReq (smx [] []) (rq (.mxZero 1 63))).reqs 9 = some (rq (.mxZero 1 63)) ∧
    Tab.find (withReq (smx [] []) (rq (.mxLoad 1 63 0 0 5))).reqs 9 = some (rq (.mxLoad 1 63 0 0 5)) := ⟨rfl, rfl, rfl, rfl⟩

theorem test_row_store : ((rowAccess (withReq (smx [] []) (rq (.mxStore 1 63 248 [1, 2]))) 1 9
    (rq (.mxStore 1 63 248 [1, 2]))).team? 1).map (fun m => (m.tileWord 1 63 249, m.tileWord 1 63 250)) = some (2, 0) := by decide +kernel

theorem witness_programs : let ws : List Word := [0x10100, 0]
    Ready (st ws) p1 (thr ws) (.mdgo 767 r0 ⟨4, false⟩) false [src2 r0, srcN ⟨4, false⟩ 14 2, dst1 767] ∧
    acqPending (st ws) 1 0 = false ∧ ((st ws).cluster 0).queue.isEmpty = true ∧ freeEngine (st ws) 0 = some 0 ∧
    (let s := (st ws).setCluster 0 { (st ws).cluster 0 with queue := List.range 16 }
     Ready s p1 (thr ws) (.mdgo 767 r0 ⟨4, false⟩) false [src2 r0, srcN ⟨4, false⟩ 14 2, dst1 767] ∧ acqPending s 1 0 = false ∧
     (s.cluster 0).queue.isEmpty = false ∧ 16 ≤ (s.cluster 0).queue.length) ∧ countFull (st ws) (thr ws) .md = false ∧
    (rp (thr ws) r0).toNat % 8 = 0 ∧ Ready (st [4]) p1 (thr [4]) (.mdgo 5 r0 ⟨4, false⟩) false [src2 r0, srcN ⟨4, false⟩ 14 2, dst1 5] ∧
    (rp (thr [4]) r0).toNat % 8 ≠ 0 ∧ Ready (st ws) p1 (thr ws) (.mdkill r0) false [src1 r0] ∧
    handleProgram (st ws) 1 ((rw (thr ws) r0).toNat % 2 ^ 28) = none ∧ Ready (st ws) p1 (thr ws) (.mdstat 5 r0) false [src1 r0, dst1 5] :=
  ⟨ready_of (by decide +kernel), rfl, by decide +kernel, by decide +kernel,
    ⟨ready_of (by decide +kernel), rfl, by decide +kernel, by decide +kernel⟩, rfl, by decide +kernel, ready_of (by decide +kernel),
    by decide +kernel, ready_of (by decide +kernel), rfl, ready_of (by decide +kernel)⟩

/-- A program of team 1 on engine 0 of cluster 0, and one of a system engine. -/
def prog0 : Program :=
  { team := 1, cluster := 0, engine := some 0, system := none, starter := 0, pc := 0x10100, m := [(1, 7), (2, 0x20000), (3, 48)],
    d := [], seq := 5, prog := 0, bcnt := 0, icnt := 0, btot := 0, mflags := 0, wait := false, stalled := none, pri := 0,
    since := 0, req := none, gens := [], posted := 0, filling := false, recorded := false, ending := none, barrier := none, passed := false, index := none,
    buffered := false }

def sp (f : Program → Program) : State :=
  let s := sta 2 none [] fun m => { m with scrSize := 64, streams := [[], []] }
  { s with cur := .program 20, programs := [(20, f prog0)], uid := 30 }

/-- Two programs wait, the second with the higher priority; engine 0 is busy. -/
def sq : State := let s := sp id
  { s.setCluster 0 { s.cluster 0 with queue := [21, 22] } with
    programs := [(20, prog0), (21, { prog0 with engine := none, pri := 1 }), (22, { prog0 with engine := none, pri := 2 })] }

theorem witness_dispatch : freeEngine sq 0 = some 1 ∧ chooseQueued sq (sq.cluster 0).queue = some 22 ∧
    sq.program? 22 = some { prog0 with engine := none, pri := 2 } ∧ [21, 22] = [21] ++ 22 :: [] ∧
    (∀ v ∈ [21], ∀ q, sq.program? v = some q → ¬q.since + 65536 ≤ sq.now ∧ (¬(0 + 65536 ≤ sq.now) → q.pri < 2)) ∧
    chooseQueued (st []) ((st []).cluster 0).queue = none := by
  refine ⟨by decide +kernel, by decide +kernel, rfl, rfl, ?_, rfl⟩
  intro v hv q hq
  simp only [List.mem_singleton] at hv
  subst hv
  have : q = { prog0 with engine := none, pri := 1 } := by
    have h : sq.program? 21 = some { prog0 with engine := none, pri := 1 } := rfl
    rw [h] at hq; exact (Option.some.inj hq).symm
  subst this
  decide +kernel

/-- The launch declares cell 7, signed. -/
def bndLaunch (l : Launch) : Launch := { l with record := spliceBytes l.record 0x008 (leBytes 4 (2 ^ 15 + 2 ^ 23)) }

def sb (ws : List Word) : State :=
  let s := stOf (fun _ => thr ws) id bndLaunch
  s.setCluster 0 { s.cluster 0 with cells := [(7, ⟨5, some 1⟩)] }

theorem witness_bound_cells : (sb []).launch? p1.launch = some (bndLaunch probeLaunch) ∧ (bndLaunch probeLaunch).bndDecl 7 = true ∧
    (bndLaunch probeLaunch).bndSign 7 = true ∧ (bndLaunch probeLaunch).bndDecl 6 = false ∧
    Ready (sb [3]) p1 (thr [3]) (.bndmin 7 r0) false [src2 r0] ∧ Ready (sb []) p1 (thr []) (.bndrd 7 766) false [dst2 766] ∧
    cellClusters (sb []) 1 7 ≠ [] ∧ (FMap.get Cell.free ((sb []).cluster 0).cells 7).owner = some 1 ∧
    FMap.wf Cell.free ((sb []).cluster 0).cells = true :=
  ⟨rfl, by decide +kernel, by decide +kernel, by decide +kernel, ready_of (by decide +kernel), ready_of (by decide +kernel),
    by decide +kernel, by decide +kernel, by decide +kernel⟩

theorem test_bndmin_signed : (match exec (.bndmin 7 r0) (sb [0xFFFFFFFF, 0xFFFFFFFF]) with
    | .next s => (FMap.get Cell.free (s.cluster 0).cells 7).value
    | _ => 0) = 0xFFFFFFFFFFFFFFFF := by decide +kernel

theorem witness_multicast : let s := stOf (fun _ => thr [60]) (fun m => { m with scrSize := 64, gens := [(0, 3)] }) id
    let m := { p1 with scrSize := 64, gens := [(0, 3)] }
    Ready s m (thr [60]) (.stmc .w32 15 r0 r1) false [src1 r0, srcW .w32 r1] ∧ 60 + widthBytes .w32 ≤ m.scrSize ∧
    countFull s (thr [60]) .st = false ∧ acqPending s 1 0 = false ∧ 60 % widthBytes .w64 ≠ 0 ∧
    Ready s m (thr [60]) (.stmc .w64 1 r0 r2) false [src1 r0, srcW .w64 r2] ∧
    Ready (stOf (fun _ => thr [64]) (fun m => { m with scrSize := 64 }) id) { p1 with scrSize := 64 } (thr [64]) (.stmc .w8 8 r0 r1) false
      [src1 r0, srcW .w8 r1] ∧ m.scrSize < 64 + widthBytes .w8 :=
  ⟨ready_of (by decide +kernel), by decide, rfl, rfl, by decide, ready_of (by decide +kernel), ready_of (by decide +kernel), by decide⟩

/-! ### Control registers and the privileged words -/

def spriv (ws : List Word) : State := stw ws fun t => { t with priv := true }

theorem witness_control_registers :
    Ready (st []) p1 (thr []) (.csrr 5 766) false [dst2 766] ∧ Ready (spriv []) p1 { thr [] with priv := true } (.csrr 0x112 0) false [dst2 0] ∧
    threadCsr (thr []) 5 = some 0 ∧ ((withReq (st []) (rq (.value 5 [0] 0 true))).reqs.any fun p =>
      p.2.owner == .thread 1 0 && p.2.act.isFp && !p.2.complete) = true ∧
    Ready (withReq (st []) (rq (.value 5 [0] 0 true))) p1 (thr []) (.csrr 1 0) false [dst2 0] ∧
    Ready (st [5]) p1 (thr [5]) (.csrw 0 r0) false [src2 r0] ∧ Ready (st [5]) p1 (thr [5]) (.csrw 0x110 r0) false [src2 r0] ∧
    Ready (spriv [5]) p1 { thr [5] with priv := true } (.csrw 0x111 r0) false [src2 r0] ∧
    Ready (st [5]) p1 (thr [5]) (.csrs 2 766 r0) false [src2 r0, dst2 766] ∧
    mayGoOn (st [5]) (threadCsrw (thr [5]) 0 (rp (thr [5]) r0)) 0 ∧ mayGoOn (st [5]) (thr [5]) 2 ∧
    (let s := withReq (st [5]) (rq (.value 5 [0] 0 true))
     Ready s p1 (thr [5]) (.csrw 0 r0) false [src2 r0] ∧ Ready s p1 (thr [5]) (.csrs 0 766 r0) false [src2 r0, dst2 766] ∧
     fpPending s 1 0 = true ∧ (threadCsrw (thr [5]) 0 (rp (thr [5]) r0)).fpctl.toNat % 32 = 5) :=
  ⟨ready_of (by decide +kernel), ready_of (by decide +kernel), rfl, rfl, ready_of (by decide +kernel), ready_of (by decide +kernel),
    ready_of (by decide +kernel), ready_of (by decide +kernel), ready_of (by decide +kernel), .inr (.inr (by decide +kernel)),
    .inl (by decide), ready_of (by decide +kernel), ready_of (by decide +kernel), by decide +kernel, by decide +kernel⟩

theorem test_csrw_flags_clear : (match exec (.csrw 1 r0) (stw [5] fun t => { t with fflags := 7 }) with
    | .next s => (s.thread? 1 0).map (·.fflags)
    | _ => none) = some 2 := by decide +kernel

/-- A count of 0 names no granule. -/
theorem witness_tlbinv_of_nothing : let x : Scoped := ⟨.fn, 0, 0x10000, 0x10000 + 65536 * 0⟩
    x.hi = x.lo ∧ x.hasEntry probeXlat = false := by decide

theorem witness_privileged : Current (st [0x10100]) p1 (thr [0x10100]) ∧ (thr [0x10100]).priv = false ∧
    (∀ f ∈ [src2 r0], f.last < 768 ∧ f.r % f.align = 0 ∧ f.last < p1.nreg) ∧
    Ready (spriv [0x10100]) p1 { thr [0x10100] with priv := true } (.eret r0) true [src2 r0] ∧
    Ready (stw [0] fun t => { t with priv := true, trapcause := 1 }) p1 { thr [0] with priv := true, trapcause := 1 } (.eret r0) true [src2 r0] ∧
    Ready (spriv [0x10000, 0, 1, 0]) p1 { thr [0x10000, 0, 1, 0] with priv := true } (.tlbinv .va r0 r2 r3) true [src2 r0, src1 r2, src1 r3] ∧
    (spriv []).launch? 1 = some probeLaunch ∧ probeLaunch.fn = 0 ∧ countOf (spriv []) 1 0 .ld = 0 ∧
    Ready (stOf (fun _ => { thr [] with priv := true }) id fun l => { l with fn := 1 }) p1 { thr [] with priv := true } (.tlbinv .all r0 r2 r3)
      true [src2 r0, src1 r2, src1 r3] ∧
    Ready (st []) p1 (thr []) (.hcall 255 767 r0) false [src2 r0, dst1 767] ∧ p1.idem = false ∧
    ({ st [] with pkg := { Pkg.reset with hvrEn := true } } : State).pkg.hvrEn = true ∧
    Ready (stw [] fun t => { t with hcall := some ⟨0, 0, 9, 1⟩ }) p1 { thr [] with hcall := some ⟨0, 0, 9, 1⟩ } (.hcall 1 5 r0) false
      [src2 r0, dst1 5] :=
  ⟨current_of (by decide +kernel), rfl, by decide +kernel, ready_of (by decide +kernel), ready_of (by decide +kernel),
    ready_of (by decide +kernel), rfl, rfl, rfl, ready_of (by decide +kernel), ready_of (by decide +kernel), rfl, rfl,
    ready_of (by decide +kernel)⟩

/-! ### Mordant programs: team 1's program 20 on engine 0 of cluster 0; the cluster's TLB maps the page at 0x20000 -/

def spm (f : Program → Program) : State :=
  let s := sp f
  { s.setCluster 0 { s.cluster 0 with mtlb := [dataXlat (.hbm 0x20000)] } with mem := [(0x20000, 0x85), (0x20040, 3)] }

theorem runs_of {s : State} {u : Nat} {p : Program} (h : s.cur = .program u ∧ s.program? u = some p) : Runs s u p := ⟨h.1, h.2⟩

theorem witness_mordant_scalars : mordantResult prog0 (.mAdd 31 1 2) = some (31, 0x20007) ∧ Runs (spm id) 20 prog0 ∧
    mordantResult prog0 (.liLit 31 (-1)) = some (31, -1) := ⟨by decide +kernel, runs_of (by decide +kernel), rfl⟩

theorem test_mordant_wraps : (match exec (.mAddImm 1 1 0xFFFFF8) (spm id) with
    | .next s => (s.program? 20).map fun p => (p.mreg 1, p.pc)
    | _ => none) = some (0xFFFFFFFFFFFFFFFF, 0x10108) := by decide +kernel

theorem test_loop_counts : (match exec (.loop 1 0xFFFFFF) (spm id) with
    | .next s => (s.program? 20).map fun p => (p.mreg 1, p.pc)
    | _ => none) = some (6, 0x100F8) := by decide +kernel

theorem test_csrw_enable_parks : (match exec (.csrw 0 r0) (withReq (st [1]) (rq (.value 5 [0] 0 true))) with
    | .next s => (s.thread? 1 0).map fun t => (t.place, t.pc)
    | _ => none) = some (.parked (.fpu none), 0x10008) := by decide +kernel

theorem test_ldx_extends_sign : (match exec (.ldx .w8 true 4 2 0) (spm id) with
    | .next s => (s.program? 20).map fun p => p.mreg 4
    | _ => none) = some 0xFFFFFFFFFFFFFF85 := by decide +kernel

theorem witness_mordant_memory : ∃ s1 bs s2 s3, Runs (spm id) 20 prog0 ∧ (prog0.mreg 2 + 1).toNat % widthBytes .w16 ≠ 0 ∧
    mLoad (spm id) 20 prog0 0x20000 8 0 = .ok s1 bs ∧ (prog0.mreg 2).toNat % 32 = 0 ∧
    mResolve (spm id) 20 prog0 0x20000 8 .w false = .ok s2 [⟨.mem 0x20000, 8, 0x20000⟩] ∧ Settled s2 20 ∧ Tab.find s2.reqs s2.uid = none ∧
    isHbm 0x20000 = true ∧ pageQueued s2 0x20000 = false ∧
    (∀ j, j < 8 → pageQueued s2 (0x20000 + j) = false ∧ inBitmap (0x20000 + j) = false) ∧
    mResolve (spm id) 20 prog0 0x20000 288 .r false = .ok s3 [⟨.mem 0x20000, 288, 0x20000⟩] ∧ Settled s3 20 ∧
    poisonedAt s3 0x20000 288 = false :=
  ⟨_, _, _, _, runs_of (by decide +kernel), by decide +kernel, rfl, by decide +kernel, rfl, rfl, rfl, by decide, rfl,
    by decide +kernel, rfl, rfl, by decide +kernel⟩

theorem test_tdld_loads_the_descriptor : (match mLoad (spm id) 20 prog0 0x20000 288 0 with
    | .ok _ bs => bs.length == 288 && bs.headD 0 == 0x85
    | .stop _ => false) = true := by decide +kernel

theorem test_stx : (match exec (.stx .w16 1 2 0) (spm id) with
    | .next s => ((s.program? 20).map fun p => p.bcnt, readByte s 0x20000, readByte s 0x20001)
    | _ => (none, 0, 0)) = (some 2, 7, 0) := by decide +kernel

theorem witness_descriptors : Runs (spm id) 20 prog0 ∧ (7 : DWord) = ((7 : DWord).setWidth 48).signExtend 64 ∧
    ¬(2 ^ 32 : DWord).toNat < 2 ^ 32 ∧ ¬((2 ^ 47 : DWord) = ((2 ^ 47 : DWord).setWidth 48).signExtend 64) ∧
    (List.replicate 288 (0 : Byte)).length = 288 ∧ 280 + [0, 0, 0, 0, 0, 0, 0, (0 : Byte)].length ≤ 288 :=
  ⟨runs_of (by decide +kernel), by decide +kernel, by decide, by decide +kernel, by decide +kernel, by decide⟩

/-- A descriptor of rank 1 in memory: base, format, extent, stride. -/
def desc (base fmt n str : Nat) : BitVec 2304 :=
  BitVec.ofNat 2304 (leNat (leBytes 8 base ++ leBytes 8 0 ++ leBytes 4 (fmt + 256) ++ leBytes 12 0 ++ leBytes 4 n ++ leBytes 4 0 ++
    leBytes 6 str))

/-- d0: two elements of 32 bits at 0x20000; d1: two at 0x20100; d2: two indices at 0x20040, of which the first is 3. -/
def pd (p : Program) : Program := { p with d := [(0, desc 0x20000 3 2 4), (1, desc 0x20100 3 2 4), (2, desc 0x20040 3 2 4),
  (4, desc 0x20100 3 3 4), (5, desc 0x20100 7 2 4), (6, desc 0x20000 3 4 4), (7, desc 0x20000 0 1 4)] }

theorem witness_tcopy : (let p := pd prog0
    match readTensor (p.desc 0), readTensor (p.desc 1) with
    | some ta, some td => pairAllowed ta td && ta.n == td.n && decide (p.prog.toNat < ta.n) && td.w == 0 && ta.w == 0 &&
      decide (td.elemAddr 0 % (td.size : Nat) = 0) &&
      (match readElem (spm pd) 20 p ta 0 3 (ta.n - 0 - 1) with
       | .ok s1 x => (match planAt s1 20 p td (td.elemAddr 0) (leBytes td.size (convertElem ta td x.1 x.2).1) with
         | .ok _ _ => true
         | .stop _ => false)
       | .stop _ => false)
    | _, _ => false) = true ∧ Runs (spm pd) 20 (pd prog0) := ⟨by decide +kernel, runs_of (by decide +kernel)⟩

theorem witness_tcopy_stops : (let p := pd prog0
    readTensor (p.desc 7) == none && readTensor (p.desc 3) == none &&
    (match readTensor (p.desc 0), readTensor (p.desc 4), readTensor (p.desc 5) with
     | some ta, some tb, some tc => !pairAllowed ta tc && pairAllowed ta tb && ta.n != tb.n && ta.n == 2
     | _, _, _ => false)) = true ∧ Runs (spm fun q => { pd q with prog := 2 }) 20 { pd prog0 with prog := 2 } :=
  ⟨by decide +kernel, runs_of (by decide +kernel)⟩

/-- A gather from d6, four elements, of the elements 3 and 0. -/
theorem witness_tgather : (let p := pd prog0
    match sliceCheck p 1 6 2 true with
    | .ok (ta, td, tb, k) => k != 0 && decide (p.prog.toNat < td.n) && ta.w == 0 && td.w == 0 && p.index == none &&
      decide (td.elemAddr 0 % (td.size : Nat) = 0) &&
      (match readElem (spm pd) 20 p tb 0 3 0 with
       | .ok s1 x => decide (x.1 < ta.ext.headD 0) &&
        (match readElem (s1.updProgram 20 fun z => { z with index := some (0, x.1) }) 20
          { p with index := some (0, x.1) } ta (x.1 * k) 3 (k - 1) with
         | .ok s2 y => (match planAt s2 20 p td (td.elemAddr 0) (leBytes td.size (convertElem ta td y.1 y.2).1) with
           | .ok _ _ => true
           | .stop _ => false)
         | .stop _ => false)
       | .stop _ => false)
    | .error _ => false) = true := by decide +kernel

/-- A scatter into d1, of two elements, by the index 3; and a gather by a descriptor that is not valid. -/
theorem witness_tscatter_stops : (let p := pd prog0
    (match sliceCheck p 1 0 2 false with
     | .ok (_, td, tb, _) => (match readElem (spm pd) 20 p tb 0 3 0 with
       | .ok _ x => decide (td.ext.headD 0 ≤ x.1)
       | .stop _ => false)
     | .error _ => false) &&
    (match sliceCheck p 1 0 7 true with
     | .ok _ => false
     | .error _ => true)) = true := by decide +kernel

/-- Slices of no elements: d0 has extents 4 and 0, d1 two and 0, and d2 names two of its slices. -/
def pe (p : Program) : Program :=
  let d n := BitVec.ofNat 2304 (leNat (leBytes 8 0x20000 ++ leBytes 8 0 ++ leBytes 4 (3 + 512) ++ leBytes 12 0 ++ leBytes 4 n ++ leBytes 4 0 ++
    leBytes 8 4 ++ leBytes 4 0 ++ leBytes 4 0 ++ leBytes 6 4))
  { p with d := [(0, d 4), (1, d 2), (2, desc 0x20040 3 2 4)] }

theorem witness_empty_slices : (let p := pe prog0
    match sliceCheck p 1 0 2 true with
    | .ok (ta, _, tb, k) => k == 0 && tb.n == 2 && ta.ext.headD 0 == 4 && (match readElem (spm pe) 20 p tb 0 3 0 with
      | .ok _ x => x.1 == 3
      | .stop _ => false)
    | .error _ => false) = true ∧ Runs (spm pe) 20 (pe prog0) ∧
    Runs (spm fun p => { pe p with index := some (1, 0) }) 20 { pe prog0 with index := some (1, 0) } :=
  ⟨by decide +kernel, runs_of (by decide +kernel), runs_of (by decide +kernel)⟩

/-- The second element of a slice whose index has been read. -/
theorem witness_kept_index : let p := { pd prog0 with index := some (0, 3) }
    Runs (spm fun q => { pd q with index := some (0, 3) }) 20 p ∧
    (match sliceCheck p 1 6 2 true with
     | .ok (ta, _, _, k) => p.index == some (p.prog.toNat / k, 3) &&
       (match readElem ((spm fun q => { pd q with index := some (0, 3) }).updProgram 20 fun z => { z with index := p.index }) 20 p ta (3 * k) 3 (k - 1) with
        | .ok _ _ => true
        | .stop _ => false)
     | .error _ => false) = true := ⟨runs_of (by decide +kernel), by decide +kernel⟩

theorem test_tcopy_moves : (match exec (.tcopy 1 0) (spm pd) with
    | .next s => ((s.program? 20).map fun p => (p.prog, p.bcnt, p.pc))
    | _ => none) = some (1, 4, 0x10100) := by decide +kernel

theorem witness_qput : (let p := pd prog0
    match (spm pd).team? 1, readTensor (p.desc 0) with
    | some m, some t => t.w == 0 && decide (1 < m.streams.length) && decide (m.streams.length ≤ 2) && decide (p.prog.toNat < t.n) &&
      (match readElem (spm pd) 20 p t 0 1 (t.n - 0 - 1) with
       | .ok s1 x => (match s1.team? 1 with
         | some m1 => decide ((m1.streams.getD 1 []).length + (leBytes t.size x.1).length ≤ 65536)
         | none => false)
       | .stop _ => false)
    | _, _ => false) = true := by decide +kernel

theorem witness_mordant_barriers : ∃ s1 bs, Runs (spm id) 20 prog0 ∧ prog0.system = none ∧ (prog0.mreg 3).toNat % 16 = 0 ∧
    barrierBeyond (spm id) prog0 (selCore (spm id) prog0 .home) 48 = false ∧ Settled (spm id) 20 ∧ (prog0.mreg 1).toNat % 16 ≠ 0 ∧
    barrierBeyond (spm fun p => { p with gens := [(0, 0)] }) { prog0 with gens := [(0, 0)] } 0 64 = true ∧
    mScrLoad (spm id) 20 prog0 (selCore (spm id) prog0 .home) 48 16 = .ok s1 bs ∧
    Runs (spm fun p => { p with system := some 3 }) 20 { prog0 with system := some 3 } ∧ prog0.ending = none := by
  refine ⟨_, _, runs_of (by decide +kernel), rfl, by decide +kernel, by decide +kernel, rfl, by decide +kernel, by decide +kernel, rfl,
    runs_of (by decide +kernel), rfl⟩

/-- The record of `mdone` goes to the team's ring at 0: stalled where nothing maps it, written where the die's TLB does. -/
theorem witness_program_ends : Runs (spm fun p => { p with passed := true }) 20 { prog0 with passed := true } ∧
    (let z (s : State) := areaRecord (s.updTeam 1 fun m => { m with ncompl := m.ncompl + 1 }) 0 0 0
       (completionRecord prog0 ⟨1, 0, 7, 0⟩ 0 0 s.now)
     let s := spm id
     s.team? 1 = some { p1 with scrSize := 64, streams := [[], []] } ∧ s.launch? 1 = some (leased 2 probeLaunch) ∧
     (leased 2 probeLaunch).crRing 0 + 32 * (0 % 2 ^ (leased 2 probeLaunch).crlog) = 0 ∧
     (match (z s).2 with
      | .stalled _ _ => true
      | _ => false) = true ∧
     (z (s.setDie 0 { s.die 0 with tlb := [{ dataXlat (.hbm 0x20000) with va := 0 }] })).2 = .done) :=
  ⟨runs_of (by decide +kernel), by decide +kernel⟩

theorem witness_harvest : let p := { prog0 with system := some 0, m := [(1, 64 * 3)] }
    Runs (spm fun _ => p) 20 p ∧ (p.mreg 1).toNat % 64 = 0 ∧ isHbm ((p.mreg 1).toNat * 4096) = true ∧
    isHbm (((p.mreg 1).toNat + 63) * 4096) = true ∧ Runs (spm id) 20 prog0 ∧ prog0.system = none ∧ (prog0.mreg 1).toNat % 64 ≠ 0 :=
  ⟨runs_of (by decide +kernel), by decide +kernel, by decide +kernel, by decide +kernel, runs_of (by decide +kernel), rfl, by decide +kernel⟩

theorem witness_reduction : (let p := pd prog0
    match readTensor (p.desc 0), readTensor (p.desc 1) with
    | some ta, some td => ta.fmt == fxFmt .s32 && td.fmt == fxFmt .s32 && ta.n == td.n && decide (ta.n ≤ 2 ^ 20) && ta.fmt != fxFmt .f32
    | _, _ => false) = true ∧ (fxGroup (spm pd) (pd prog0) (2 ^ 48)).2 = none := ⟨by decide +kernel, by decide +kernel⟩

/-! ### Rows, requests and passes -/

/-- Core 0's table holds two entries; nothing is in flight. -/
def srow : State := let s := st []
  s.setCore 0 { s.core 0 with rows := [], table := [⟨0x10008, false, [5, 69], 64, 0⟩, ⟨0x10000, false, [0, 64, 1], 0, 0⟩] }

theorem witness_rows : let s0 := srow.setCore 0 (drainRing srow.now 4 (srow.core 0))
    (∃ e, selectEntry s0 0 = some e ∧ e.skip = 64 ∧ Tab.find (s0.core 0).rows 0 = none) ∧ selectEntry srow 0 ≠ none ∧
    selectEntry (let s := st []; s.setCore 0 (drainRing s.now 4 (s.core 0))) 0 = none ∧
    (∃ x, x ∈ (s0.core 0).table ∧ x.addr = 0x10000 ∧ x.slots ≠ [] ∧ sameEntry x ⟨0x10008, false, [5, 69], 64, 0⟩ = false) :=
  ⟨⟨⟨0x10008, false, [5, 69], 64, 0⟩, by decide +kernel⟩, by decide +kernel, by decide +kernel,
    ⟨⟨0x10000, false, [0, 64, 1], 0, 0⟩, by decide +kernel⟩⟩

theorem witness_row_is_formed : (srow.core 0).ring = [] ∧ (∃ k, k < 4 ∧ Tab.find (srow.core 0).rows k = none) ∧
    (∃ e ∈ considered (srow.core 0), e.skip = 64) := ⟨by decide +kernel, ⟨0, by decide +kernel⟩, by decide +kernel⟩

theorem test_row_takes_the_lowest_slots : (match exec (.rowSelection 0) srow with
    | .next s => ((Tab.find (s.core 0).rows 0).map (·.pending), (s.core 0).table.map fun e => (e.slots, e.skip))
    | _ => (none, [])) = (some [5], [([69], 0), ([0, 64, 1], 1)]) := by decide +kernel

theorem inflight_of {s : State} {k : Nat} {r : Req} (h : Tab.find s.reqs k = some r ∧ r.complete = false ∧ Machine.ready s r = true ∧
    (r.stale && r.unsent) = false) : InFlight s k r := ⟨h.1, h.2.1, h.2.2.1, h.2.2.2⟩

theorem inflight_for_of {s : State} {k : Nat} {r : Req} {t : Thread}
    (h : (Tab.find s.reqs k = some r ∧ r.complete = false ∧ Machine.ready s r = true ∧ (r.stale && r.unsent) = false) ∧
      r.owner = .thread t.team t.tix ∧ s.thread? t.team t.tix = some t ∧ r.dead = false) : InFlightFor s k r t :=
  { toInFlight := inflight_of h.1, owner := h.2.1, thread := h.2.2.1, live := h.2.2.2 }

theorem witness_requests_in_flight :
    InFlightFor (withReq (st []) (rq (.value 767 [5] 1 true))) 9 (rq (.value 767 [5] 1 true)) (thr []) ∧
    InFlightFor (withReq (st []) (rq (.load (.mem 0x20000) 16 false 764 false))) 9 (rq (.load (.mem 0x20000) 16 false 764 false)) (thr []) ∧
    poisonedAt (st []) 0x20000 16 = false ∧ poisonedAt { st [] with poison := [(0x20010 / 32, true)] } 0x20000 32 = true ∧
    InFlightFor (withReq (st []) { rq (.atomic (.mem 0x20000) .add .n32 1 5) with data := some [1, 0, 0, 0] }) 9
      { rq (.atomic (.mem 0x20000) .add .n32 1 5) with data := some [1, 0, 0, 0] } (thr []) ∧
    InFlight (withReq (st []) (rq (.store (.mem 0x20000) [1, 2]))) 9 (rq (.store (.mem 0x20000) [1, 2])) ∧
    InFlight (withReq (st []) (rq (.arrive 1 0 1))) 9 (rq (.arrive 1 0 1)) ∧
    InFlight (withReq (st []) (rq (.atomic (.mem 0x20000) .add .n32 1 5))) 9 (rq (.atomic (.mem 0x20000) .add .n32 1 5)) ∧
    InFlight (withReq (st []) (rq (.genWrite 0 0 0 [1] 0))) 9 (rq (.genWrite 0 0 0 [1] 0)) ∧
    (∀ p ∈ (st []).teams, p.2.core = 1 → p.2.holds = true → p.2.gen.toNat ≠ 0) :=
  ⟨inflight_for_of (by decide +kernel), inflight_for_of (by decide +kernel), by decide +kernel, by decide +kernel,
    inflight_for_of (by decide +kernel), inflight_of (by decide +kernel), inflight_of (by decide +kernel), inflight_of (by decide +kernel),
    inflight_of (by decide +kernel), by decide +kernel⟩

/-- The halves of a load and of a store of 16 bytes. -/
theorem witness_halves : let ld : Req := rq (.load (.mem 0x20000) 16 false 764 false)
    InFlightFor (withReq (st []) { ld with half := some (8, List.replicate 8 0) }) 9 { ld with half := some (8, List.replicate 8 0) }
      (thr []) ∧ ld.half = none ∧
    (∀ h, h = 0 ∨ h = 8 → poisonedAt (withReq (st []) ld) (0x20000 + h) 8 = false) ∧
    InFlight (withReq (st []) (rq (.store (.mem 0x20000) (List.replicate 16 1)))) 9 (rq (.store (.mem 0x20000) (List.replicate 16 1))) ∧
    ((st []).ownerOf (rq (.store (.mem 0x20000) (List.replicate 16 1)))).isSome = true :=
  ⟨inflight_for_of (by decide +kernel), rfl, by rintro h (rfl | rfl) <;> decide +kernel, inflight_of (by decide +kernel), by decide +kernel⟩

/-- An enable written while a producer is in flight: its fill makes the thread that waits for it trap. -/
theorem test_fill_traps : let t : Thread := { thr [] with fpctl := 1, trapvec := 0x400, pc := 0x10010, place := .parked (.fpu none) }
    ((match exec (.producerFill 9) (withReq (stOf (fun _ => t) id id) (rq (.value 5 [7] 1 true))) with
    | .next s => (s.thread? 1 0).map fun t => (t.pc, t.trappc, t.reg 5)
    | _ => none) = some (0x400, 0x10010, .full 7)) := by decide +kernel

theorem witness_plain : Plain (st []) 0x20000 16 := ⟨rfl, by decide +kernel, by decide +kernel⟩

theorem test_load_fills : (match exec (.producerFill 9) { withReq (st []) (rq (.load (.mem 0x20000) 1 true 5 false)) with
      mem := [(0x20000, 0x80)] } with
    | .next s => (s.thread? 1 0).map fun t => t.reg 5
    | _ => none) = some (.full 0xFFFFFF80) := by decide +kernel

theorem test_ring_counters : (let inc := Act.atomic (.mem 0) .inc .n32 4 5
    let dec := Act.atomic (.mem 0) .dec .n32 4 5
    [updated inc 3, updated inc 9, updated dec 0, updated dec 9]) = [0, 2, 3, 0] := by decide +kernel

/-! A chain of two octets with the fields of the spec's literal: both leaders have asked for pass 0 and the streams hold
its records. -/

def resv (req oct : Nat) : Resv :=
  { req := req, team := 1, tix := 8 * oct, ctx := 0, oct := oct, kind := 0, tile := 0, kb := false, bpri := 1, number := 0,
    issued := 0, promoted := 0, risen := 0 }

def spass : State :=
  let m := { pmx [chainOf [1, 1, 0, 0, 0, 0, 0, 0]] with streams := List.replicate 16 (List.replicate 2048 0) }
  let s := { smx [] [] with teams := [(1, m)], reqs := [(9, rq .mxPass), (10, rq .mxPass)] }
  s.setCluster 0 { s.cluster 0 with resv := [resv 9 0, resv 10 1] }

theorem witness_pass_start : ∃ m c r, PassCandidate spass 0 1 m c r ∧ (spass.cluster 0).pass = none ∧
    (∀ p ∈ spass.teams, spass.team? p.1 = some p.2) ∧ (∀ p ∈ spass.teams, ∀ c ∈ p.2.chains, ∀ d ∈ p.2.chains, d.ctx = c.ctx → d = c) := by
  refine ⟨{ pmx [chainOf [1, 1, 0, 0, 0, 0, 0, 0]] with streams := List.replicate 16 (List.replicate 2048 0) },
    chainOf [1, 1, 0, 0, 0, 0, 0, 0], resv 9 0, ⟨?_, ?_, ?_, ?_, ?_, ?_⟩, ?_, ?_, ?_⟩ <;> decide +kernel

theorem witness_pass_end : let s := spass.setCluster 0 { spass.cluster 0 with pass := some ⟨1, 0, 0, 0⟩ }
    ((s.team? 1).bind fun m => m.chains.find? fun d => d.ctx == 0 && d.passes == 0).isSome = true ∧
    (∀ q ∈ s.reqs, q.2.act.tileRow = none) ∧ (spass.cluster 0).resv[0]? = some (resv 9 0) := by decide +kernel

theorem test_pass_starts_and_ends :
    (match exec (.passStart 0) spass with
     | .next s => (s.cluster 0).pass.map fun p => (p.team, p.ctx, p.number)
     | _ => none) = some (1, 0, 0) := by decide +kernel


/-! ### Teams and launches -/

theorem witness_watchdog : (st []).team? 1 = some p1 ∧ (st []).launch? 1 = some probeLaunch ∧ p1.stage = .resident ∧
    p1.wd 0 < 2 ^ 24 ∧ 2 ^ 24 ≤ ({ p1 with wdCount := 2 ^ 24 } : Team).wd 0 := by decide +kernel

/-- A thread in trap mode 65,536 cycles after the pre-emption of its team was asked for. -/
def swin : State :=
  { stOf (fun _ => { thr [] with trapcause := 1 }) (fun m => { m with preempt := some 0 }) id with now := 65536 }

theorem witness_trap_window : ∃ m, swin.team? 1 = some m ∧ swin.launch? m.launch = some probeLaunch ∧ m.preempt = some 0 ∧
    m.stage = .resident ∧ 0 + 65536 ≤ swin.now ∧ ∃ t ∈ swin.teamThreads 1, t.live = true ∧ t.mode = true :=
  ⟨_, rfl, rfl, rfl, rfl, by decide, by decide +kernel⟩

/-- A faulted team of a launch of two teams. -/
def twoTeams (l : Launch) : Launch := { l with record := spliceBytes l.record 0x00C (leBytes 4 2) }

theorem witness_teardown : let s := stOf (fun _ => { thr [] with place := .stopped }) (fun m => { m with stage := .ending }) twoTeams
    s.team? 1 = some { p1 with stage := .ending } ∧ s.launch? 1 = some (twoTeams probeLaunch) ∧ programsOf s 1 = [] ∧
    teamBusy s 1 = false ∧ fillsPending s 1 = false ∧ inRecord s 1 { p1 with stage := .ending } = false ∧ (twoTeams probeLaunch).refused = 0 ∧ (twoTeams probeLaunch).ndone + 1 < (twoTeams probeLaunch).nteam := by decide +kernel

/-- A launch of two phases of 768 and 64 registers, of which v0 and v1 are carried over. -/
def phased (l : Launch) : Launch :=
  { l with record := spliceBytes (spliceBytes l.record 0x016 (leBytes 1 2)) 0x100 (leBytes 8 (768 + 2 * 2 ^ 22) ++ leBytes 8 64) }

def sphase : State := stOf (fun _ => { thr [1, 2, 3] with place := .held .boundary }) id phased

theorem witness_phase_in_place : let t := { thr [1, 2, 3] with place := .held .boundary }
    sphase.team? 1 = some p1 ∧ p1.stage = .resident ∧ p1.area = none ∧ p1.idem = false ∧ sphase.launch? 1 = some (phased probeLaunch) ∧
    liveOf sphase 1 = [t] ∧ (∀ x ∈ sphase.teamThreads 1, sphase.thread? 1 x.tix = some x) ∧ producing t = false ∧
    loadsPending sphase 1 0 = false ∧ bufferBusy sphase 1 = false ∧ (sphase.core 0).psb = [] ∧ phIdem ((phased probeLaunch).ph 1) = false ∧
    granulesFor (phNreg ((phased probeLaunch).ph 1)) ≤ granulesFor p1.nreg := by decide +kernel

theorem test_phase_keeps_the_carried : (match exec (.phaseBoundary 1) sphase with
    | .next s => (s.thread? 1 0).map fun t => (t.reg 1, t.reg 2, t.pc, t.gmap.length)
    | _ => none) = some (.full 2, .full 0, 0x10008, 1) := by decide +kernel

theorem witness_phase_discard : let m := { p1 with idem := true, preempt := some 0 }
    (stOf (fun _ => thr []) (fun _ => m) id).team? 1 = some m ∧ discardable (stOf (fun _ => thr []) (fun _ => m) id) 1 m = true ∧
    programsOf (stOf (fun _ => thr []) (fun _ => m) id) 1 = [] ∧ discardable (st []) 1 p1 = false ∧
    (∃ t ∈ liveOf (st []) 1, t.place ≠ .held .boundary) := by decide +kernel

theorem witness_slices : (let s := (st []).setCore 0 { (st []).core 0 with slices := [⟨0, 0, 65536⟩] }
    (s.core 0).slices) = [⟨0, 0, 65536⟩] := rfl

theorem witness_team_save : let m := { p1 with preempt := some 0 }
    let s := stOf (fun _ => thr []) (fun _ => m) id
    let z := stOf (fun _ => { thr [] with place := .held (.save 0) }) (fun _ => { m with stage := .stopping }) id
    s.team? 1 = some m ∧ m.preempt.isSome = true ∧ m.buffers = false ∧ m.area = none ∧ m.stage = .resident ∧ inTrap s 1 = false ∧
    inTrap swin 1 = true ∧ z.team? 1 = some { m with stage := .stopping } ∧ (z.fn (fnOfTeam z m)).mig = .none ∧
    teamQuiet (haltThreads z 1 { m with stage := .stopping }) 1 { m with stage := .stopping } = true := by decide +kernel

/-- A launch of one team of eight lanes, whose first phase has 64 registers, placed on die 0 by queue 0. -/
def placed (l : Launch) : Launch :=
  { l with
    record := spliceBytes (spliceBytes (spliceBytes (List.replicate 512 0) 0x00C (leBytes 4 1)) 0x010 (leBytes 2 8)) 0x100 (leBytes 8 64)
    stage := .checked, nextTeam := 0 }

def splace : State := { State.reset with launches := [(1, placed probeLaunch)], uid := 2 }

theorem witness_placement : (match newPlacements splace 0 with
    | [(u, l)] => (match chooseCores splace u l l.nextTeam with
      | (s1, some (die, cores)) => u == 1 && die == 0 && cores.length == 1 &&
          (match walkAll die l.fn (leaseSteps l) s1 with
           | (s2, .done) => s2.launch? u == some l
           | _ => false)
      | _ => false)
    | _ => false) = true ∧ newPlacements (st []) 0 = [] := ⟨by decide +kernel, by decide +kernel⟩

/-- A team of it that waits for admission to core 0. -/
def sadmit : State :=
  let s := { splace with teams := [(1, { newTeam 1 0 0 (placed probeLaunch) with w := 8 })] }
  s.setCore 0 { s.core 0 with admission := [⟨1, 0, false⟩] }

theorem witness_admission : (match sadmit.team? 1 with
    | some m => (match groupsFor sadmit m with
      | some gs => gs == [(0, 0)] && m.stage == .waiting && m.core == 0 && coreRoom sadmit m (placed probeLaunch).dq &&
        clusterRoom sadmit 1 (placed probeLaunch) 0 1 && (membersOf sadmit m == [(1, m)]) && (sadmit.fn 0).mig == .none &&
        ownsCluster sadmit 0 0 && !m.idem && m.area.isNone && (nextGen sadmit 0 1).isSome && decide (m.nthr ≤ 1024)
      | none => false)
    | none => false) = true ∧ (sadmit.core 0).admission = [⟨1, 0, false⟩] := by decide +kernel

theorem test_admission : (match exec (.teamAdmission 0) sadmit with
    | .next s => ((s.team? 1).map (·.stage), (s.thread? 1 7).map fun t => (t.slot, t.place), (s.core 0).admission)
    | _ => (none, none, [])) = (some .resident, some (7, .table), []) := by decide +kernel

/-- The machine at stage 2. -/
def bt : State := { State.reset with och := { Ochre.reset with stage := 2 } }

/-- Queue 3 of function 0 holds one record; its stage-2 tables map the gigabyte at 0: a table at 0x4000000000 and one behind it. -/
def squeue : State :=
  { bt with
    fns := [(0, { Fn.physical with s2root := 0x4000000001 })]
    queues := [(3, { LQ.reset with en := true, tail := 1, base := 0x30000 })]
    mem := putBytes (putBytes [] 0x4000000000 (leBytes 8 (0x4000010000 + 3))) 0x4000010000 (leBytes 8 (1 + 4 + 8)) }

theorem witness_launch_read : (let l := squeue.lq 0 3
    booted squeue && mayRead (squeue.fn 0) && l.en && l.head != l.tail && l.stalled.isNone && !queueGated squeue 0 3 &&
    (match ipaAccess squeue 0 (l.slotAddr l.head) .r with
     | (s1, some (.hbm pa)) => !poisonedAt s1 pa 512 && (s1.fn 0).state != 3 && s1.launches.isEmpty
     | _ => false)) = true ∧ (State.reset.lq 0 3).en = false ∧ booted State.reset = false := by decide +kernel

theorem test_launch_read_takes_the_head : (match exec (.launchRead 0 3) squeue with
    | .next s => ((s.lq 0 3).head, s.launches.length)
    | _ => (0, 0)) = (1, 1) := by decide +kernel

theorem test_tail_beyond_the_ring : (match exec (.launchQueueNotify 0 3 3) squeue with
    | .next s => ((s.lq 0 3).tail, (s.lq 0 3).badt)
    | _ => (0, false)) = (1, true) := by decide +kernel

theorem witness_launch_waits : let l := { probeLaunch with stage := .gated }
    (stOf id id fun _ => l).launch? 1 = some l ∧ l.token = none ∧ l.ndep = 0 ∧ splace.launch? 1 = some (placed probeLaunch) ∧
    (placed probeLaunch).nextTeam < (placed probeLaunch).nteam ∧ (placed probeLaunch).pri < 3 := by decide +kernel

/-- An open launch with samples of three dies. -/
theorem witness_quiescence : let l := { probeLaunch with record := spliceBytes probeLaunch.record 8 (leBytes 4 4), stage := .running,
                                                         samples := [(0, ⟨true, true, 0, 0⟩), (1, ⟨true, true, 0, 0⟩), (2, ⟨true, true, 0, 0⟩)] }
    (stOf id id fun _ => l).launch? 1 = some l ∧ l.isOpen = true ∧ l.stage = .running ∧
    4 ≤ (Tab.put l.samples 3 (sampleOn (stOf id id fun _ => l) 1 l 3)).length ∧
    (Tab.put l.samples 2 (sampleOn (stOf id id fun _ => l) 1 l 2)).length < 4 := by decide +kernel

/-- A team of eight registers, which its own image has saved: stopped in its phase, or with its phase discarded. -/
def savedAs (stage : Stage) : State :=
  let s := stOf id (fun m => { m with nreg := 8, stage := stage, preempt := some 0 }) id
  let s := { s with threads := (List.range 8).map fun x => (tkey 1 x, { thr [7] with tix := x, slot := x, place := .held (.save 0) }) }
  let bs := teamImage s 1 { probeTeam 1 with nreg := 8, stage := stage, preempt := some 0 } probeLaunch
  { s with
    threads := [], launches := [(1, { probeLaunch with header := 1 })], fns := [(0, Fn.physical)]
    teams := [(1, { probeTeam 1 with nreg := 8, stage := .saved, image := bs })] }

def ssaved : State := savedAs .stopping
def sdiscarded : State := savedAs .discarded

/-- The saved team finds its seat on core 0, whether its phase was discarded or not. -/
theorem witness_team_restore : ([(ssaved, false), (sdiscarded, true)].all fun x => match x.1.team? 1, x.1.launch? 1 with
    | some m, some l => (match readImage m.image with
      | some r => r.discarded == x.2 && m.stage == .saved && (placedMates x.1 m l).isEmpty && (x.1.fn 0).restores &&
        ownsCluster x.1 0 0 && !l.unread && restoresNext x.1 l && clusterFits x.1 1 l [r] 0 &&
        ((seatAll x.1 l [(1, m, r)] (coresOf 0)).map fun x => x.map fun y => (y.1, y.2.2)) == some [(1, 0)] && decide (0 < r.nthr)
      | none => false)
    | _, _ => false) = true := by decide +kernel

theorem test_restore_brings_the_thread_back : (match exec (.teamRestore 1 0) ssaved with
    | .next s => ((s.team? 1).map (·.stage), (s.thread? 1 0).map fun t => (t.pc, t.reg 0))
    | _ => (none, none)) = (some .resident, some (0x10000, .full 7)) := by decide +kernel

/-! ### The package -/

def tok (who : Waiter) (type : Nat) : State := { bt with pkg := { Pkg.reset with waits := [(7, ⟨who, 0, 0, type⟩)], tokens := 7 } }

/-- The probe's state at stage 2, with a pending wait under token 7. -/
def tokAt (s : State) (who : Waiter) (type : Nat) : State :=
  { s with och := bt.och, pkg := { Pkg.reset with waits := [(7, ⟨who, 0, 0, type⟩)], tokens := 7 } }

theorem witness_answers :
    (let s := tokAt (stw [] fun t => { t with place := .stalled 7 }) (.thread 1 0) 1
     booted s = true ∧ Tab.find s.pkg.waits (2 ^ 32 + 7 : DWord).toNat = none ∧
     Tab.find s.pkg.waits ((2 ^ 32 + 7 : DWord).toNat % 2 ^ 32) = some ⟨.thread 1 0, 0, 0, 1⟩ ∧
     s.thread? 1 0 = some { thr [] with place := .stalled 7 } ∧ highWord (2 ^ 32 + 7) ≠ 0 ∧ highWord 7 = 0) ∧
    (let s := tokAt (spm fun p => { p with stalled := some 7 }) (.program 20) 2
     s.program? 20 = some { prog0 with stalled := some 7 }) ∧
    (let s := tokAt (stOf id id fun l => { l with token := some 7 }) (.lease 1) 4
     s.launch? 1 = some { probeLaunch with token := some 7 }) ∧
    (let s := { tok (.queue 0 3) 2 with queues := [(3, { LQ.reset with stalled := some 7 })] }
     (s.lq 0 3).stalled = some 7) ∧
    (let s := tokAt (stOf id (fun m => { m with area := some 7 }) id) (.area 1 0 [] 1 false false) 0x0A
     Tab.find s.pkg.waits 7 = some ⟨.area 1 0 [] 1 false false, 0, 0, 0x0A⟩ ∧ s.team? 1 = some { p1 with area := some 7 } ∧
     0 + 120000 ≤ ({ s with now := 120000 } : State).now) := by decide +kernel

theorem witness_hv_ring : let s := { bt with pkg := { Pkg.reset with hvrEn := true, hvrBase := 0x100000, hvEvents := [⟨1, 0, 0, 0, 1, 0⟩] } }
    (s.pkg.hvrTail - s.pkg.hvrHead).toNat ≠ 2 ^ s.pkg.hvrLog ∧ isHbm 0x100000 = true ∧ pageQueued s 0x100000 = false ∧
    inBitmap 0x100000 = false ∧ (∀ j, j < 32 → pageQueued s (0x100000 + j) = false ∧ inBitmap (0x100000 + j) = false) := by decide +kernel

theorem test_hv_event_record : (match exec .hvEventWrite
      { bt with pkg := { Pkg.reset with hvrEn := true, hvrBase := 0x100000, hvEvents := [⟨4, 3, 0x55, 9, 1, 6⟩] } } with
    | .next s => (readBytes s 0x100000 8, readByte s 0x100008, s.pkg.hvrTail)
    | _ => ([], 0, 0)) = ([0, 0, 0, 0, 0, 0, 4, 3], 0x55, 1) := by decide +kernel

theorem witness_walks : (let s := bt.setDie 1 { bt.die 1 with walks := [(40, 0, 0x20000)] }
    ((s.die 1).walks, (walk (s.setDie 1 { s.die 1 with walks := [] }) 0 0x20000).1 == .bad1)) =
    ([(40, 0, 0x20000)], false) := by decide +kernel

/-- The last group that may change, and the one after it; a free page, one taken, and a page at the pool's end. -/
theorem witness_pins_and_pages : booted bt = true ∧ (2 ^ 63 + 2 ^ 32 + 73726 : DWord).getLsbD 63 = true ∧
    (2 ^ 63 + 2 ^ 32 + 73726 : DWord).getLsbD 62 = false ∧ (BitVec.ofNat 17 (2 ^ 63 + 2 ^ 32 + 73726 : DWord).toNat).toNat = 73726 ∧
    73726 % 18432 ≠ 18431 ∧ 73727 % 18432 = 18431 ∧ poolPage 55293 = true ∧ poolPage 55294 = false ∧
    pageClean bt 5 = true ∧ pageClean { bt with pkg := { Pkg.reset with taken := [(5, true)] } } 5 = false ∧
    bt.pkg.allocHeld = 0 ∧ lowestClean bt (searchSteps bt) 0 = some 0 ∧ applyAllowed bt = true ∧
    applyAllowed { bt with programs := [(20, prog0)] } = false ∧ systemBusy bt 3 = false := by decide +kernel

theorem no_clean_page {s : State} (h : ∀ p, pageClean s p = false) (n p : Nat) : lowestClean s n p = none := by
  induction n generalizing p with
  | zero => rfl
  | succ n ih => simp [lowestClean, h, ih]

/-- Every page waits for its scrub. -/
theorem witness_no_clean_page : let s : State := { bt with pkg := { Pkg.reset with queued := List.range 262144 } }
    lowestClean s (searchSteps s) 0 = none := by
  refine no_clean_page (fun p => ?_) _ _
  by_cases h : p < 262144 <;> simp [pageClean, poolPage, h]

theorem test_pin_set : (match exec (.pinSet (2 ^ 63 + 2 ^ 32 + 5)) bt with
    | .next s => (match exec .pinSetDone s with
      | .next s => (s.pkg.pinGo, FMap.get false s.pkg.pins 5)
      | _ => (true, false))
    | _ => (true, false)) = (false, true) := by decide +kernel

theorem test_page_alloc : (match exec .pageAlloc { bt with pkg := { Pkg.reset with taken := [(0, true)] } } with
    | .next s => s.pkg.readback
    | _ => []) = leBytes 8 0x200000 := by decide +kernel

theorem test_hash_apply_needs_a_bijection : masksOk { Pkg.reset with hash := [] } = false ∧ masksOk Pkg.reset = true := by decide +kernel

/-! ### Functions -/

theorem witness_functions : booted bt = true ∧ (bt.fn 5).state = 0 ∧ (bt.fn 0).state = 1 ∧ (bt.fn 0).mig = .none ∧
    (bt.fn 5).resetAsked = false ∧ (bt.fn 5).stopInProgress = false ∧ ({ bt with pkg := { Pkg.reset with vfEnable := true } } : State).pkg.vfEnable = true ∧
    fnTeams bt 0 = [] ∧ fnTeams (st []) 0 ≠ [] ∧ (∀ x ∈ bt.fab.inbound, x.2.pkt.dstFn ≠ 0) := by decide +kernel

/-- Function 0 in each part of a stop: stopping, saving, saved, being restored. -/
def smig (f : Fn → Fn) : State := { bt with fns := [(0, f Fn.physical)], now := 1000 }

theorem witness_migration :
    ((smig fun f => { f with mig := .stopping }).fn 0).mig = .stopping ∧ ((smig fun f => { f with mig := .stopping }).fn 0).stopInProgress = true ∧
    (let s := smig fun f => { f with mig := .saving }
     (s.fn 0).migToken = none ∧ (∀ p ∈ fnTeams s 0, p.2.stage ≠ .stopping) ∧ (saveWrite s 0 0 (areaBytes s 0)).2 = .failed) ∧
    (let s := smig fun f => { f with mig := .stopped, sdone := true, state := 2 }
     (s.fn 0).mig = .stopped ∧ (s.fn 0).sdone = true ∧ (s.fn 0).state = 2) ∧
    (let s := smig fun f => { f with mig := .restoring, state := 0 }
     (s.fn 0).migToken = none ∧ (saveRead s 0 0 0x1000).2.1 = .failed) ∧
    (let s := { smig fun f => { f with mig := .saving, migToken := some 7 } with pkg := (tok (.save 0) 7).pkg, now := 120000 }
     Tab.find s.pkg.waits 7 = some ⟨.save 0, 0, 0, 7⟩ ∧ 0 + 120000 ≤ s.now) := by decide +kernel

/-- Function 0 with a save area of 8 KiB at 0x100000, which holds the header of an area of 4 KiB. -/
def sarea (f : Fn → Fn) : State :=
  { squeue with
    fns := [(0, f { Fn.physical with s2root := 0x4000000001, save := 0x100000, savesz := 2 })]
    mem := putBytes squeue.mem 0x100000 (leBytes 8 1 ++ leBytes 8 0x1000) }

theorem witness_save_area : (saveWrite (sarea fun f => { f with mig := .saving }) 0 0 (areaBytes (sarea fun f => { f with mig := .saving }) 0)).2 = .done ∧
    (let s := sarea fun f => { f with mig := .restoring, state := 0 }
     (s.fn 0).migToken = none ∧ fnLaunches s 0 = [] ∧ fnTeams s 0 = [] ∧
     (match saveRead s 0 0 0x1000 with
      | (s1, .done, h) => (match saveRead s1 0 0 (sliceNat h 8 8) with
        | (_, .done, bs) => sliceNat bs 0 4 == 1 && sliceNat bs 4 4 == 0
        | _ => false)
      | _ => false) = true) := by decide +kernel

/-- A quiet team of function 0 is written to its save area. -/
theorem witness_team_is_written : (let m : Team := { p1 with preempt := some 0, stage := .stopping }
    let z := { stOf (fun _ => { thr [] with place := .held (.save 0) }) (fun _ => m) id with
      fns := (sarea fun f => { f with savesz := 64 }).fns, mem := squeue.mem }
    let s0 := haltThreads z 1 m
    teamQuiet s0 1 m && (match imageOf s0 1 with
      | (s1, bs) => (match saveWrite s1 0 (saveOffset s0 0) bs with
        | (s2, .done) => (s2.team? 1).isSome
        | _ => false))) = true := by decide +kernel

theorem test_stop_and_quiesce : (match exec (.stop 0) (smig id) with
    | .next s => (match exec (.quiesceDone 0) { s with now := 1100 } with
      | .next s => ((s.fn 0).mig, (s.fn 0).qdone, (s.fn 0).qcyc)
      | _ => (.none, false, 0))
    | _ => (.none, false, 0)) = (.saving, true, 100) := by decide +kernel

theorem test_function_reset : (match exec (.functionLevelReset 5) { bt with fns := [(5, { Fn.reset with state := 2 })] } with
    | .next s => (match exec (.functionResetDone 5) s with
      | .next s => (s.fn 5).state
      | _ => 3)
    | _ => 3) = 0 := by decide +kernel

/-! ### Ochre and the ports -/

/-- The machine at stage 1. -/
def b1 : State := { State.reset with och := { Ochre.reset with stage := 1 } }

theorem witness_ochre : State.reset.och.on = true ∧ State.reset.och.stage = 0 ∧ State.reset.och.logBase = 0 ∧
    State.reset.och.held.length < 256 ∧ b1.och.stage = 1 ∧ b1.och.bfail = false ∧ bt.och.on = true ∧ bt.och.stage ≠ 0 ∧ (2700 : DWord).toNat % 4096 ≤ 2700 ∧
    (4096 : DWord).toNat / 4096 ≠ 0 ∧ ({ bt with och := { bt.och with updBusy := true, attBusy := true } } : State).och.updBusy = true ∧
    1840 ≤ (FMap.get 0 ({ bt with och := { bt.och with sens := [(64 * 3 + 63, 1840)] } } : State).och.sens (64 * 3 + 63)).toInt := by
  decide +kernel

theorem test_stages : (match exec .stageAReached State.reset with
    | .next s => (match exec (.stageBReached true 2 1) s with
      | .next s => (s.och.stage, (s.fn 0).clu0, (s.port 0).state, (s.port 1).state)
      | _ => (9, 0, 9, 9))
    | _ => (9, 0, 9, 9)) = (2, 0xFFFFFFFFFFFFFFFD, 0, 2) := by decide +kernel

theorem test_power_cap_clamps : (match exec (.powerCapWrite 4000) bt with
    | .next s => s.och.pcap
    | _ => 0) = 2700 := by decide +kernel

/-- The digest of "abc" that FIPS 180-4's example gives, and twice the base point of P-256, from its published tables. -/
theorem test_digest : sha256 [0x61, 0x62, 0x63] =
    beBytes 32 0xba7816bf8f01cfea414140de5dae2223b00361a396177a9cb410ff61f20015ad := by decide +kernel

theorem test_curve : pointAdd curveG curveG = some (0x7CF27B188D034F7E8A52380304B51AC3C08969E277F21B35A60B48FC47669978,
    0x07775510DB8ED040293D9AC69F7430DBBA7DADE63CE982299E04B79D227873D1) := by decide +kernel

/-- Port 15 trained, in a swap for 120,000 cycles, and spared on lane 7. -/
def sport (p : Port) : State := { bt with fab := { Fabric.reset with ports := [(15, p)] }, now := 120000 }

theorem witness_ports : ((sport { Port.reset with state := 1 }).port 15).state = 1 ∧ ((sport { Port.reset with state := 2 }).port 15).spared = 0xF ∧
    ((List.range 9).filter fun k => (0x101 : BitVec 9).getLsbD k).length = 2 ∧
    ((sport { Port.reset with state := 3 }).port 15).timer + 120000 ≤ 120000 ∧
    ((sport { Port.reset with state := 4, spared := 7 }).port 15).spared = 7 ∧ ((sport { Port.reset with state := 5 }).port 15).queue = [] ∧
    (let s := sport { Port.reset with state := 2, queue := [(.answer, .answer ⟨0, 0, 3, 1, .read, 5, 3, 0, .read 4, false, false⟩ .ok [])] }
     let s := { s with fab := { s.fab with flows := [(flowKey (0, 3, 1), 16)] } }
     choosePort s (0, 3, 1) = some 15 ∧ anyPortUp s = true ∧ (takeFirst .answer (s.port 15).queue).isSome = true ∧
     takeFirst .request (s.port 15).queue = none) ∧ choosePort bt (0, 3, 1) = none := by decide +kernel

/-- A port that drains carries what it had queued, the oldest of the channel first. -/
theorem test_port_carries : (let k (n : Nat) : Packet := ⟨0, 0, 3, 1, .read, n, 3, 0, .read 4, false, false⟩
    let s := carry (sport { Port.reset with state := 5, queue := [(.answer, .answer (k 1) .ok []), (.request, .packet (k 2)), (.request, .packet (k 3))] }) 15 .request
    (s.fab.packetsOut.map (fun x => (x.1, x.2.seq)), (s.port 15).queue.length)) = ([(15, 2)], 2) := by decide +kernel

theorem test_weak_lane_swaps : (match exec (.laneSignalLoss 15 3) (sport { Port.reset with state := 2 }) with
    | .next s => ((s.port 15).state, (s.port 15).weak)
    | _ => (9, 9)) = (3, 3) := by decide +kernel

/-! ### Packets -/

/-- A packet of package 3's function 1 to function 0 of this package, sent to offset 0x20000. -/
def pkt (c : PktClass) (op : PktOp) : Packet :=
  { srcPkg := 3, srcFn := 1, dstPkg := ownPackage, dstFn := 0, cls := c, seq := 5, idPkg := ownPackage, offset := 0x20000, op := op,
    forwarded := false, resent := false }

theorem witness_packet_is_ours : packetOk (pkt .write (.write [1, 2])) = true ∧ packetOk (pkt .read (.read 4097)) = false := by
  constructor
  · simp [packetOk, pkt, opBytes]
  · simp [packetOk, pkt, opBytes]

/-- Port 0 drains: packets come, and answers wait for a port that is up. Function 0 takes packets: its access list at 0x5000000000 admits function 1 of package 3 for both kinds, and its fabric
root maps the gigabyte at 0. -/
def sfab : State :=
  { bt with
    fns := [(0, { Fn.physical with fmroot := 0x4000000001, fmacl := 0x5000000000 })]
    mem := putBytes (putBytes (putBytes (putBytes [] 0x4000000000 (leBytes 8 (0x4000010000 + 3))) 0x4000010000 (leBytes 8 (1 + 4 + 8)))
      0x5000000018 [2]) 0x5000000218 [2]
    fab := { Fabric.reset with ports := [(0, { Port.reset with state := 5 })] } }

/-- The codes of the answers that wait for a port. -/
def waitingAnswers (s : State) : List Answer := s.fab.waiting.filterMap fun x => match x.2 with
  | .answer _ c _ => some c
  | .packet _ => none

theorem witness_packets : anyPortCarries sfab = true ∧ anyPortCarries bt = false ∧ admitted sfab (pkt .write (.write [1, 2])) = true ∧ admitted sfab (pkt .read (.read 4)) = true ∧
    (sfab.fn 0).fmroot.getLsbD 0 = true ∧ (sfab.fn 0).state = 1 ∧ (sfab.fn 0).stopInProgress = false ∧
    (fmTranslate sfab (pkt .write (.write [1, 2]))).2 = some 0x20000 ∧ (fmTranslate sfab (pkt .read (.read 4))).2 = some 0x20000 ∧
    (fmTranslate sfab (pkt .atomic (.atomic .add .n32 1))).2 = some 0x20000 ∧
    (fmTranslate sfab { pkt .read (.read 4) with offset := 2 ^ 40 }).2 = none ∧
    (∀ e ∈ sfab.fab.performed, e.isOf (pkt .read (.read 4)) = false) ∧ admitted bt (pkt .read (.read 4)) = false ∧
    ((smig fun f => { f with mig := .stopping }).fn 0).stopInProgress = true ∧
    (let s := smig fun f => { f with state := 0, moved := true }
     (s.fn 0).state = 0 ∧ (s.fn 0).moved = true ∧ (s.fn 0).stopInProgress = false) := by decide +kernel

theorem witness_held_packet : let s := { bt with fab := { Fabric.reset with inbound := [(4, ⟨pkt .read (.read 4), some 7, 0⟩)] } }
    (4, ⟨pkt .read (.read 4), some 7, 0⟩) ∈ s.fab.inbound ∧ sameIdentity (pkt .read (.read 4)) (pkt .read (.read 4)) = true ∧
    Performed.isOf ⟨3, 1, ownPackage, .read, 5, .ok, [1, 2, 3, 4], 0, 0⟩ (pkt .read (.read 4)) = true := by
  refine ⟨List.mem_singleton.mpr rfl, ?_, ?_⟩ <;> simp [sameIdentity, Performed.isOf, pkt]

theorem test_packet_is_performed : (let s := processPacket sfab (pkt .write (.write [1, 2]))
    (readByte s 0x20000, readByte s 0x20001, s.fab.performed.length, waitingAnswers s)) = (1, 2, 1, [.ok]) := by decide +kernel

/-- A piece of a reduction of group 3, whose target is active and has a fabric root. -/
theorem witness_reduction_packet : let p := pkt .reduction (.reduce 3 9 .add .s32 2 0 [1, 2])
    packetOk p = true ∧ opReduces p.op = true ∧ (sfab.fn p.dstFn).fmroot.getLsbD 0 = true ∧ (sfab.fn p.dstFn).state = 1 :=
  ⟨by simp [packetOk, pkt, opBytes], rfl, by decide +kernel, by decide +kernel⟩

theorem test_packet_without_admission : waitingAnswers (processPacket bt (pkt .read (.read 4))) = [.denied] := by
  decide +kernel

/-- A peer access of the thread: function 0's table names package 3's function 1 for device 7. -/
def ssend (r : Req) : State :=
  let s := withReq (st []) r
  { s with
    fns := [(0, { Fn.physical with vdnbase := 0x5000000001 })]
    mem := putBytes s.mem (0x5000000000 + 4 * 7) (leBytes 4 (1 + 4 * 3 + 2 ^ 8 * 1))
    fab := { Fabric.reset with ports := [(0, { Port.reset with state := 2 })] } }

theorem witness_peer_access : let r := rq (.store (.peer 7 0x40) [1, 2, 3, 4])
    InFlight (ssend r) 9 r ∧ r.data = none ∧ Tab.find (ssend r).fab.sent 9 = none ∧ r.act.peer = some (7, 0x40) ∧
    r.act.packet = some (.write, .write [1, 2, 3, 4]) ∧ anyPortUp (ssend r) = true ∧ r.die = 0 ∧
    (lookupVdn (ssend r) 0 0 7).2 = .unicast 3 1 ∧ slotsFree (dropSent (ssend r) 9) 9 [3] = true ∧
    anyPortUp (withReq (st []) r) = false := by
  refine ⟨inflight_of (by decide +kernel), ?_⟩; decide +kernel

/-- Its packet as sent at cycle 0. -/
def sent0 : Sent := { pkt := { pkt .write (.write [1, 2, 3, 4]) with srcPkg := 0, srcFn := 0, dstPkg := 3, dstFn := 1, idPkg := 3 }, vdn := 7,
                      die := 0, targets := [3], sent := true, since := 0, last := 0, tries := 0, silent := [3 * 64 + 1], worst := .ok, lapsed := false,
                      movedAt := none }

def sansw (x : Sent) : State := let s := ssend (rq (.store (.peer 7 0x40) [1, 2, 3, 4]))
  { s with fab := { s.fab with sent := [(9, x)] }, now := 1200000 }

/-- The packet of a group's store, which two members have still to answer. -/
def sentGroup : Sent := { sent0 with pkt := { sent0.pkt with dstPkg := 64 + 3 }, silent := [193, 200] }

theorem witness_answers_of_packets : Tab.find (sansw sent0).fab.sent 9 = some sent0 ∧ anyPortCarries (sansw sent0) = true ∧
    sent0.sent = true ∧ sent0.movedAt = none ∧ sent0.from? 0 .ok = some 193 ∧ { sent0 with movedAt := some 1, silent := [] }.from? 193 .ok = some 193 ∧ sent0.silent.erase 193 = [] ∧ sent0.lapsed = false ∧
    sentGroup.from? 5 .ok = none ∧ sentGroup.from? 200 .ok = some 200 ∧ sentGroup.silent.erase 200 ≠ [] ∧ worseAnswer sent0.worst .moved = .moved ∧
    (rereadVdn (sansw sent0) 0 0 7).2 = .unicast 3 1 ∧ (rereadVdn (sansw { sent0 with pkt := { sent0.pkt with dstPkg := 2 } }) 0 0 7).2 = .unicast 3 1 ∧
    sent0.last + 24000 ≤ (sansw sent0).now ∧ sent0.since + 1200000 ≤ (sansw sent0).now ∧
    (Tab.find (sansw { sent0 with movedAt := some 1 }).fab.sent 9).bind (·.movedAt) = some 1 := by decide +kernel

/-- A member that answers twice counts once. -/
theorem test_second_answer : (match exec (.answerReceive 9 ⟨200, .ok⟩ []) (sansw { sentGroup with silent := [193] }) with
    | .next s => (Tab.find s.fab.sent 9).map (·.silent)
    | _ => none) = some [193] := by decide +kernel

theorem witness_peer_completion : let r := rq (.load (.peer 7 0x40) 4 false 5 false)
    InFlightFor (withReq (st []) r) 9 r (thr []) ∧
    InFlightFor (withReq (st []) (rq (.store (.peer 7 0x40) [1]))) 9 (rq (.store (.peer 7 0x40) [1])) (thr []) :=
  ⟨inflight_for_of (by decide +kernel), inflight_for_of (by decide +kernel)⟩

theorem witness_fabric_waits : let s := { tok (.fabric 4) 6 with fab := { Fabric.reset with inbound := [(4, ⟨pkt .read (.read 4), some 7, 0⟩)] } }
    Tab.find s.pkg.waits 7 = some ⟨.fabric 4, 0, 0, 6⟩ ∧ Tab.find s.fab.inbound 4 = some ⟨pkt .read (.read 4), some 7, 0⟩ ∧
    (({ bt with fns := [(2, { Fn.reset with vdninv := 1 })] } : State).fn 2).vdninv.getLsbD 0 = true := ⟨rfl, rfl, by decide +kernel⟩

theorem test_atomic_results_expire : (forgetResults 3 1200000 [⟨3, 1, 0, .atomic, 5, .ok, [1], 0, 0⟩, ⟨2, 1, 0, .atomic, 5, .ok, [1], 0, 0⟩]).map (·.result) =
    [[], [1]] := by decide +kernel

/-! ### Groups, frames and the host -/

theorem witness_groups : booted bt = true ∧ bt.fab.mcw.getLsbD 12 = false ∧ (4096 + 5 : DWord).getLsbD 12 = true ∧
    (∀ i, i < 64 → poisonedAt bt (0 + 4 * i) 4 = false) ∧
    ({ bt with fab := { Fabric.reset with mcw := 4096 } } : State).fab.mcw.getLsbD 12 = true := by decide +kernel

/-- A program in the `fxred` at 0x10100: the only participant of group 0 and epoch 9, whose result has been computed. -/
def sfx : State :=
  let s := spm fun p => { pd p with wait := true, m := [(1, 9 * 2 ^ 16)] }
  let s := s.setCluster 0 { s.cluster 0 with
    mtlb := [dataXlat (.hbm 0x20000), { probeXlat with x := true }] }
  { s with
    mem := putBytes s.mem 0x10100 (encodeBytes (.fxred .add .s32 1 0 1))
    fab := { s.fab with fxrs := [⟨20, 0, 0, 9, .add, .s32, [1, 2], some [1, 2], false, some 0, []⟩] } }

theorem witness_reduction_completes : (match sfx.program? 20, sfx.fab.fxrs.find? fun x => x.prog == 20 && !x.done with
    | some p, some x => mayServe sfx p && fxResult sfx x [] == .is [1, 2] && (match fxWord sfx 20 p with
      | some (.fxred _ _ d _ _, s1) => (match readTensor (p.desc d) with
        | some t =>
          let s3 := writeResult 20 (.fxred .add .s32 1 0 1) t [1, 2] (t.n - p.prog.toNat) (keepResult s1 x [1, 2])
          (match s3.program? 20 with
           | some q => q.pc != p.pc && q.stalled == none
           | none => false)
        | none => false)
      | _ => false)
    | _, _ => false) = true := by decide +kernel

/-- A contribution of two elements with these members. -/
def fx1 (ms : List (Nat × Nat × Nat)) : Fxr := ⟨20, 0, 0, 9, .add, .s32, [1, 2], none, false, some 0, ms⟩

def sfx1 (x : Fxr) : State := { sfx with fab := { sfx.fab with fxrs := [x] } }

/-- A member that has sent nothing; the program's own function as the only member; a program that does not wait. -/
theorem witness_reduction_outcomes : (fx1 [(0, 64, 5)]).result = none ∧ partOf (sfx1 (fx1 [(0, 64, 5)])) (fx1 [(0, 64, 5)]) [] (0, 64, 5) = none ∧
    (let x := fx1 [(0, Config.packageNumber.toNat, 0)]
     x.members.map (partOf (sfx1 x) x []) = [(FxOp.add, FxTy.s32, [1, 2])].map some) ∧ mayServe (spm pd) (pd prog0) = false ∧
    fxResult sfx { fx1 [] with result := some [1, 2] } [] = .is [1, 2] := by
  refine ⟨rfl, ?_, ?_, by decide +kernel, by decide +kernel⟩
  · unfold partOf; split <;> rfl
  · simp only [fx1, List.map_cons, List.map_nil, partOf, if_true]; rfl

theorem test_reduction_result : (match exec (.fxredComplete ⟨20, []⟩) sfx with
    | .next s => ((s.program? 20).map (·.pc), s.fab.fxrs.length)
    | _ => (none, 9)) = (some 0x10108, 0) := by decide +kernel

/-- A NaN of the only participant becomes canonical (R54). -/
theorem test_lone_nan : reduceAll .add .f32 [[0xFFC00001]] = [0x7FC00000] := by decide +kernel

theorem test_fabric_sum_wraps : fxCombine .add .s32 0xFFFFFFFF 2 = 1 := by decide +kernel

/-- Port 1, queue 15 of function 0: enabled with one descriptor to send. -/
def seth : State :=
  { bt with fab := { Fabric.reset with eqs := [(31, { Eq.reset with cfg := 64 + 6 * 256, txtail := 1 })] } }

theorem witness_frames : (seth.eq 1 15).txhead ≠ (seth.eq 1 15).txtail ∧ (seth.eq 1 15).rxhead = (seth.eq 1 15).rxtail ∧
    (seth.eq 1 15).owner = 0 ∧ (seth.eq 1 15).en = true ∧ (List.replicate 59 (0 : Byte)).length < 60 ∧ steered seth 1 (List.replicate 60 0) = none := by decide +kernel

/-- An untagged IPv4 frame of 60 bytes for UDP port 4791. -/
def udpFrame : List Byte :=
  List.replicate 12 0 ++ [8, 0, 0x45] ++ List.replicate 8 0 ++ [17] ++ List.replicate 12 0 ++ [0x12, 0xB7] ++ List.replicate 22 0

/-- Queue 15 of port 1 takes that port's frames; its descriptor, at 0x20000, names 60 bytes at 0x21000. -/
def srx : State :=
  let s := bt.setDie 0 { bt.die 0 with tlb := [dataXlat (.hbm 0x20000)] }
  { s with
    mem := putBytes [] 0x20000 (leBytes 8 0x21000 ++ leBytes 8 60)
    fab := { Fabric.reset with eqs := [(31, { Eq.reset with cfg := 64 + 4791 * 2 ^ 16, rx := 0x20000, rxtail := 1, tx := 0x20000,
                                                            txtail := 1 })] } }

theorem witness_frame_received : steered srx 1 udpFrame = some 15 ∧ udpFrame.length = 60 ∧ (srx.eq 1 15).rxhead ≠ (srx.eq 1 15).rxtail ∧
    (match ethLoad srx 0 0x20000 8 with
     | (s1, some d) => leNat d == 0x21000 && (match ethStore s1 0 (leNat d) udpFrame with
       | (s2, true) => (ethStore s2 0 0x20008 (leBytes 2 60 ++ leBytes 6 1)).2
       | _ => false)
     | _ => false) = true ∧
    (match ethLoad srx 0 0x20000 16 with
     | (s1, some d) => sliceNat d 8 2 == 60 && (ethLoad s1 0 (sliceNat d 0 8) 60).2.isSome
     | _ => false) = true := by decide +kernel

/-- CRC-32 of the frame's 60 bytes is 0x7BB148AE, by an implementation outside the model. -/
theorem test_frame_is_received : (match exec (.frameReceive 1 udpFrame 0x7BB148AE) srx with
    | .next s => (s.eq 1 15).rxhead
    | _ => 0) = 1 := by decide +kernel

/-- CRC-32 of 60 zero bytes is 0x04128908, by an implementation outside the model. -/
theorem test_frame_check : frameCheck (List.replicate 60 0) = [0x08, 0x89, 0x12, 0x04] := by decide +kernel

theorem witness_host : booted bt = true ∧ oneKind 0x20000 16 = true ∧ isHbm 0x20000 = true ∧ (∀ i, i < 16 → pageQueued bt (0x20000 + i) = false) ∧
    poisonedAt bt 0x20000 16 = false ∧ oneKind 0x1B00000000 1 = false ∧ visible bt 0 = true ∧ hostCsr 0x17F = true ∧
    0x17F ≠ 0x110 ∧ ¬(booted State.reset = true) := by decide +kernel

theorem test_host_write_then_read : (match exec (.hostAccess (.memWrite 0 0x20000 [1, 2])) bt with
    | .next s => (match exec (.hostAccess (.memRead 0 0x20001 2)) s with
      | .next s => s.pkg.readback
      | _ => [])
    | _ => []) = [2, 0] := by decide +kernel

theorem test_host_reaches_nothing : exec (.hostAccess (.memRead 0 0x1B00000000 1)) bt = .fault .noSuchAddress := by rfl


/-! ### Further clauses: the tile of a partial product, killed programs and their records, reductions that start -/

theorem witness_partial_product : let c : Chain := { ch1 with pend := some 1 :: List.replicate 7 none }
    requestForm (.mxscale false 0 1) = some (1, false, 0, 1) ∧
    Ready (smx [c] []) (pmx [c]) (thr []) (.mxscale false 0 1) false [] ∧ litBq c.lit = true ∧ c.q.getD 0 0 % 2 = 1 ∧
    lastTile ((smx [c] []).cluster 0) 1 c 0 = some 1 ∧ (pmx [c]).chain? 0 0 = some c ∧ chainMask c 0 = true :=
  ⟨rfl, ready_of (by decide +kernel), by decide +kernel, by decide, by decide +kernel, by decide +kernel, by decide +kernel⟩

theorem witness_killed_program : (spm id).program? 20 = some prog0 ∧ prog0.ending = none ∧ prog0.stalled = none ∧
    pendingOf (spm id) 20 = [] := ⟨by decide +kernel, rfl, rfl, rfl⟩

/-- The launch of the tests with a completion ring at 0x20000. -/
def sring : State := let s := spm id
  { s with launches := [(1, { probeLaunch with record := spliceBytes probeLaunch.record 0x30 (leBytes 8 0x20000) })] }

theorem witness_program_record : (match sring.team? prog0.team with
    | some m => (match sring.launch? m.launch with
      | some l => l.crbase != 0 && prog0.system == none
      | none => false)
    | none => false) = true := by decide +kernel

/-- Group 3 has function 0 of every package, and virtual device 7 names it; `xs` have contributed. -/
def sgrp (xs : List Fxr) : State :=
  let s := spm pd
  let s := s.setFn 0 { s.fn 0 with vdnbase := 1 }
  let s := s.setDie 0 { s.die 0 with vdns := [⟨0, 7, 2 + 4 * 3⟩] }
  { s with fab := { s.fab with mcGroups := [(3, (List.range 64).map fun k => 2 ^ 31 + k * 2 ^ 16)], fxrs := xs } }

theorem all_packages_are_members (s : State) (h : groupMembers s 3 = groupMembers (sgrp []) 3) :
    ((groupMembers s 3).any fun m => m.2.1 == Config.packageNumber.toNat && m.2.2 == 0) = true := by
  have k : ∀ k : BitVec 6, ((groupMembers (sgrp []) 3).any fun m => m.2.1 == k.toNat && m.2.2 == 0) = true := by decide +kernel
  rw [h]; exact k Config.packageNumber

/-- Contributions of two elements, and of one. -/
def fxr (n : Nat) : Fxr := ⟨21, 0, 3, 9, .add, .s32, List.replicate n 1, none, false, some 0, []⟩

theorem witness_reduction_starts : (∀ xs, groupMembers (sgrp xs) 3 = groupMembers (sgrp []) 3) ∧
    (lookupVdn (sgrp [fxr 2]) (pd prog0).die (programFn (sgrp [fxr 2]) (pd prog0)) 7).2 = .group 3 ∧
    (match readTensor ((pd prog0).desc 0) with
     | some ta => (match readElems 20 (pd prog0) ta 3 0 ta.n 0 (sgrp [fxr 2]) [] with
       | .ok s2 xs => xs.length == ta.n && (contributions s2 3 9).all fun x => x.prog != 20 && x.op == .add && x.ty == .s32
       | _ => false)
     | none => false) = true ∧
    (contributions (sgrp [fxr 1]) 3 9).map (fun x => x.elems.length) = [1] := by
  refine ⟨fun _ => rfl, by decide +kernel, by decide +kernel, by decide +kernel⟩

/-! ### Clauses of waits and orders -/

/-- A conversion of an infinity with the invalid flag enabled: the 32-bit and the 64-bit destination. -/
theorem witness_conversion_trap : let t := { thr [0x7F800000] with fpctl := 16, trapvec := 8 }
    convertForm (.cvt .s32 .f32 false 767 r0) = some (.s32, .f32, .rne, false, 767, r0) ∧
    Ready (stw [0x7F800000] fun t => { t with fpctl := 16, trapvec := 8 }) p1 t (.cvt .s32 .f32 false 767 r0) false
      [src1 r0, dst1 767] ∧ enabled t (cvtOf .s32 .f32 .rne false ((0 : Word) ++ rw t r0)).2 = true ∧
    Ready (stw [0x7F800000] fun t => { t with fpctl := 16, trapvec := 8 }) p1 t (.cvt .s64 .f32 false 766 r0) false
      [src1 r0, dst2 766] ∧ enabled t (cvtOf .s64 .f32 .rne false ((0 : Word) ++ rw t r0)).2 = true ∧
    t.mode = false ∧ t.trapvec.toNat / 8 ≠ 0 :=
  ⟨rfl, ready_of (by decide +kernel), by decide +kernel, ready_of (by decide +kernel), by decide +kernel, by decide +kernel⟩

/-- One of less, equal and greater: less. -/
theorem test_one_of_three : ([FCond.lt, .eq, .gt].filter fun c => fcondHolds c (unpack fp32 0xBF800000) (unpack fp32 0x3F800000)) =
    [.lt] := by decide +kernel

/-- An entry of the phase store buffer that team 1 holds at 0x20008. -/
def psbHeld (bs : Tab Byte) : PsbEntry := ⟨1, 0x20000, bs, [], [0], 0x20000, 0x20000, true⟩

/-- A state whose core 0 has the entry in its phase store buffer. -/
def withLeft (s : State) : State := s.setCore 0 { s.core 0 with psb := [psbHeld [(8, 1)]] }

/-- A demoted phase left a store behind: a store, the deque's words and `spawn` wait for it. -/
theorem witness_left_stores : ∃ s1,
    Ready (withLeft (sta 2 hb [0x20000] id)) p1 (thr [0x20000]) (.st .w64 .th false r2 r0 8) false [srcW .w64 r2, src2 r0] ∧
    Accesses (withLeft (sta 2 hb [0x20000] id)) p1 (thr [0x20000]) (rp (thr [0x20000]) r0 + 8) 8 .store s1 (.mem 0x20008) 0 0x20008 ∧
    storable p1 .w64 (.mem 0x20008) ∧ p1.buffers = false ∧ bufferAddr (.mem 0x20008) ≠ none ∧
    countFull s1 (thr [0x20000]) .st = false ∧ drainLeft s1 0 1 = true ∧ drainLeft (sta 2 hb [0x20000] id) 0 1 = false ∧
    Ready (withLeft (sdq [] id)) p1 (thr []) (.dqpop 760) false [dstN 760 8 8] ∧ drainLeft (withLeft (sdq [] id)) 0 1 = true ∧
    Ready (withLeft (sdq [] id)) p1 (thr []) (.dqsteal 760) false [dstN 760 8 8] ∧
    drainLeft (sdq [] id) 0 1 = false ∧ drainLeft sst 0 1 = false ∧ drainLeft (sspawn [0x20000, 0, 3] LQ.reset) 0 1 = false :=
  ⟨_, ready_of (by decide +kernel), accesses_of rfl rfl, trivial, rfl, by decide, by decide +kernel, by decide +kernel,
    by decide +kernel, ready_of (by decide +kernel), by decide +kernel, ready_of (by decide +kernel), by decide +kernel,
    by decide +kernel, by decide +kernel⟩

/-- A buffer that the entries of another team fill, beside these of team 1. -/
def sother (es : List PsbEntry) : State := let s := sta 2 hb [0x20000] fun m => { m with idem := true }
  s.setCore 0 { s.core 0 with psb := List.replicate (512 - es.length) ⟨2, 0x30000, [], [], [], 0, 0, false⟩ ++ es }

/-- The store of a phase that is demoted: nothing of its team is left, or a stale entry whose page no longer translates. -/
theorem witness_demoted : ∃ s1 s2, let m := { p1 with idem := true }
    let i := Instr.st .w64 .th false r2 r0 8
    let e : PsbEntry := { psbHeld [(8, 1)] with sector := 0x30000, va := 0x30000, ipa := 0x30000 }
    m.frees = false ∧ Ready (sother []) m (thr [0x20000]) i false [srcW .w64 r2, src2 r0] ∧
    Accesses (sother []) m (thr [0x20000]) (rp (thr [0x20000]) r0 + 8) 8 .store s1 (.mem 0x20008) 0 0x20008 ∧
    countFull s1 (thr [0x20000]) .st = false ∧
    psbStore (s1.core 0) ((thr [0x20000]).buffered 0x20008 0x20008 0x20008 (leBytes 8 5)) = none ∧
    drainLeft (demote s1 1 m) 0 1 = false ∧
    Ready (sother [e]) m (thr [0x20000]) i false [srcW .w64 r2, src2 r0] ∧
    Accesses (sother [e]) m (thr [0x20000]) (rp (thr [0x20000]) r0 + 8) 8 .store s2 (.mem 0x20008) 0 0x20008 ∧
    countFull s2 (thr [0x20000]) .st = false ∧
    psbStore (s2.core 0) ((thr [0x20000]).buffered 0x20008 0x20008 0x20008 (leBytes 8 5)) = none ∧
    drainLeft (demote s2 1 m) 0 1 = true :=
  ⟨_, _, rfl, ready_of (by decide +kernel), accesses_of rfl rfl, by decide +kernel, by decide +kernel, by decide +kernel,
    ready_of (by decide +kernel), accesses_of rfl rfl, by decide +kernel, by decide +kernel, by decide +kernel⟩

/-- The record of a spawn is at home: nothing that its L1 has shown waits there. -/
theorem witness_spawn_at_home : homeAfter (sspawn [0x20000, 0, 3] LQ.reset) (thr [0x20000, 0, 3]) (.mem 0x20000) 512 = [] := by
  decide +kernel

/-- The row's other lane has the 16 bytes: they agree with the L1 of the core. -/
theorem test_shared_unit : (match exec (.ldc .w32 false 5 r0 0)
      (let q : Req := { rq (.loadConst 0x20004 4 false 5) with owner := .thread 1 1, data := some (List.replicate 16 7) }
       let s := { sta 2 hb [0x20000] id with threads := [(tkey 1 0, thr [0x20000]), (tkey 1 1, { thr2 with pc := 0x10000 })] }
       withReq (s.setCore 0 { s.core 0 with rows := [(0, ⟨3, 0x10000, 0, [0], [1], []⟩)] }) q) with
    | .next s => (Tab.find s.reqs 10).map (·.data)
    | _ => none) = some (some (List.replicate 16 7)) := by decide +kernel

/-- The barrier's words with an acquire outstanding, misaligned, and beyond the scratchpad. -/
theorem witness_barrier_form : let m := { p1 with scrSize := 64 }
    let s (ws : List Word) := stOf (fun _ => thr ws) (fun m => { m with scrSize := 64 }) id
    let q : Req := { rq (.value 5 [0] 0 false) with acq := some .dev }
    barrierForm (thr [48]) (.cbtest 767 r0) = some ([src1 r0, dst1 767], 48) ∧
    Ready (withReq (s [48]) q) m (thr [48]) (.cbtest 767 r0) false [src1 r0, dst1 767] ∧
    acqPending (withReq (s [48]) q) 1 0 = true ∧ acqPending (s [48]) 1 0 = false ∧
    barrierForm (thr [49]) (.cbwait r0 r1) = some ([src1 r0, src1 r1], 49) ∧ 49 % 16 ≠ 0 ∧
    Ready (s [49]) m (thr [49]) (.cbwait r0 r1) false [src1 r0, src1 r1] ∧ acqPending (s [49]) 1 0 = false ∧
    barrierForm (thr [64]) (.cbarr .cl r0 r1) = some ([src1 r0, src1 r1], 64) ∧ m.scrSize < 64 + 16 ∧
    Ready (s [64]) m (thr [64]) (.cbarr .cl r0 r1) false [src1 r0, src1 r1] ∧ acqPending (s [64]) 1 0 = false :=
  ⟨rfl, ready_of (by decide +kernel), by decide +kernel, by decide +kernel, rfl, by decide, ready_of (by decide +kernel),
    by decide +kernel, rfl, by decide, ready_of (by decide +kernel), by decide +kernel⟩

/-! ### Clauses of programs -/

/-- The cluster's TLB maps the page at 0x20000 to offset 0x40000 of virtual device 7, which the function's table names. -/
def speer : State :=
  let s := sp id
  let s := s.setCluster 0 { s.cluster 0 with mtlb := [dataXlat (.fabric 7 0x40000)] }
  let s := s.setFn 0 { s.fn 0 with vdnbase := 1 }
  s.setDie 0 { s.die 0 with vdns := [⟨0, 7, 1 + 4 * 3⟩] }

theorem witness_peer_stx : ∃ s1, Runs speer 20 prog0 ∧ (prog0.mreg 2).toNat % widthBytes .w64 = 0 ∧
    mResolve speer 20 prog0 0x20000 8 .w false = .ok s1 [⟨.peer 7 0x40000, 8, 0x20000⟩] ∧ Settled s1 20 ∧
    Tab.find s1.reqs s1.uid = none ∧ s1.program? 20 = some prog0 :=
  ⟨_, runs_of (by decide +kernel), by decide +kernel, rfl, rfl, rfl, rfl⟩

theorem test_peer_stx_stays : (match exec (.stx .w64 1 2 0) speer with
    | .next s => (s.program? 20).map fun p => (p.pc, p.posted, p.bcnt)
    | _ => none) = some (0x10100, 8, 0) := by decide +kernel

/-- A fill of the team's phase record under this tag kind waits for an answer. -/
def standing (s : State) (k : TagKind) : State :=
  { s with pkg := { s.pkg with waits := [(7, ⟨.fill 1 0 5 (.full 1) k, 0, 0, 0x0A⟩)] } }

theorem witness_standing_fills : fillStands (standing (spm id) (.programOrWindow 5)) 1 (.programOrWindow 5) = true ∧
    fillStands (spm id) 1 (.programOrWindow 5) = false ∧ poisonStands (standing (spm id) (.program 5)) prog0 = true ∧
    poisonStands (spm id) prog0 = false := by decide +kernel

/-- Granules beyond HBM4. -/
theorem witness_harvest_beyond : let p := { prog0 with system := some 0, m := [(1, 64 * 0x2000000)] }
    Runs (spm fun _ => p) 20 p ∧ (p.mreg 1).toNat % 64 = 0 ∧ isHbm ((p.mreg 1).toNat * 4096) = false :=
  ⟨runs_of (by decide +kernel), by decide +kernel, by decide +kernel⟩

/-- All four engines run programs and sixteen wait, of a team whose thread starts one more; and with fifteen waiting. -/
def sbusy (n : Nat) : State :=
  let s := st [0x10100, 0]
  { s.setCluster 0 { s.cluster 0 with queue := (List.range n).map (· + 40) } with
    programs := ((List.range 4).map fun e => (20 + e, { prog0 with engine := some e })) ++
      (List.range n).map fun k => (40 + k, { prog0 with engine := none })
    uid := 80 }

theorem witness_queue : let i := Instr.mdgo 767 r0 ⟨4, false⟩
    Ready (sbusy 16) p1 (thr [0x10100, 0]) i false [src2 r0, srcN ⟨4, false⟩ 14 2, dst1 767] ∧ acqPending (sbusy 16) 1 0 = false ∧
    freeEngine (dispatchQueued (sbusy 16) 0) 0 = none ∧ 16 ≤ ((dispatchQueued (sbusy 16) 0).cluster 0).queue.length ∧
    Ready (sbusy 15) p1 (thr [0x10100, 0]) i false [src2 r0, srcN ⟨4, false⟩ 14 2, dst1 767] ∧ acqPending (sbusy 15) 1 0 = false ∧
    freeEngine (dispatchQueued (sbusy 15) 0) 0 = none ∧ ((dispatchQueued (sbusy 15) 0).cluster 0).queue.length < 16 ∧
    countFull (sbusy 15) (thr [0x10100, 0]) .md = false ∧ freeEngine (dispatchQueued (st [0x10100, 0]) 0) 0 = some 0 ∧
    (match exec (.mordantDispatch 0) sq with
     | .next s1 => (match exec (.mordantDispatch 0) s1 with
       | .next s2 => (match exec (.mordantDispatch 0) s2 with
         | .next s3 => (s3.cluster 0).queue == []
         | _ => false)
       | _ => false)
     | _ => false) = true :=
  ⟨ready_of (by decide +kernel), by decide +kernel, by decide +kernel, by decide +kernel, ready_of (by decide +kernel),
    by decide +kernel, by decide +kernel, by decide +kernel, by decide +kernel, by decide +kernel, by decide +kernel⟩

/-! ### Clauses of teams and functions -/

/-- A held thread of a team that ends, and of one that stops. -/
theorem witness_held_while_ending : let t := { thr [] with place := .held (.yield 0) }
    HeldAt (stOf (fun _ => t) (fun m => { m with stage := .ending }) id) t (.yield 0) ∧
    HeldAt (stOf (fun _ => t) (fun m => { m with stage := .stopping }) id) t (.yield 0) :=
  ⟨held_of (m := { p1 with stage := .ending }) (by decide +kernel), held_of (m := { p1 with stage := .stopping }) (by decide +kernel)⟩

theorem witness_poisoned_load : let r := rq (.load (.mem 0x20000) 4 false 5 false)
    let s := { withReq (st []) r with poison := [(0x20000 / 32, true)] }
    InFlightFor s 9 r (thr []) ∧ poisonedAt s 0x20000 4 = true ∧ (thr []).live = true :=
  ⟨inflight_for_of (by decide +kernel), by decide +kernel, rfl⟩

theorem witness_stopping_watchdog : let m := { p1 with stage := .stopping, wdCount := 2 ^ 24 }
    let s := stOf (fun _ => thr []) (fun _ => m) id
    s.team? 1 = some m ∧ m.stage = .stopping ∧ 2 ^ 24 ≤ m.wd s.now ∧ drainLeft s m.core 1 = false := by decide +kernel

/-- Function 0 in a reset: its one team runs, or has ended. -/
def sreset (f : Team → Team) : State := (stOf id f id).setFn 0 { Fn.physical with resetAsked := true, rst := true }

theorem witness_function_reset : let s := sreset id
    (s.fn 0).resetAsked = true ∧ (s.fn 0).stopInProgress = false ∧ s.teams = [(1, p1)] ∧ fnOfTeam s p1 = 0 ∧ p1.stage = .resident ∧
    programsOf s 1 = [] ∧
    (∀ p ∈ fnTeams (sreset fun m => { m with stage := .ended }) 0, p.2.stage = .ended) := by decide +kernel

theorem witness_lost_context : let s := { smig (fun f => { f with mig := .restoring, state := 0 }) with launches := [(1, probeLaunch)] }
    fnTeams s 0 = [] ∧ s.launches = [(1, probeLaunch)] ∧ probeLaunch.fn = 0 ∧ probeLaunch.stage ≠ .ended ∧
    (∀ p ∈ fnTeams s 0, p.2.stage ≠ .stopping) ∧ (∀ x ∈ s.fab.inbound, x.2.pkt.dstFn ≠ 0) := by decide +kernel

/-- A save area of version 2. -/
theorem witness_wrong_version : (let s := sarea fun f => { f with mig := .restoring, state := 0 }
    let s := { s with mem := putBytes s.mem 0x100000 (leBytes 8 2 ++ leBytes 8 0x1000) }
    match saveRead s 0 0 0x1000 with
    | (s1, .done, h) => (match saveRead s1 0 0 (sliceNat h 8 8) with
      | (s2, .done, bs) => sliceNat bs 0 4 != 1 && (fnTeams s2 0).isEmpty
      | _ => false)
    | _ => false) = true := by decide +kernel

/-! ### Clauses of the fabric -/

/-- Thirty-two packets hold the receive slots of package 3. -/
def sslots : State :=
  let s := ssend (rq (.store (.peer 7 0x40) [1, 2, 3, 4]))
  { s with fab := { s.fab with sent := (List.range 32).map fun k => (20 + k, sent0) } }

theorem witness_no_slot : let r := rq (.store (.peer 7 0x40) [1, 2, 3, 4])
    InFlight sslots 9 r ∧ r.data = none ∧ Tab.find sslots.fab.sent 9 = none ∧ (lookupVdn sslots 0 0 7).2 = .unicast 3 1 ∧
    anyPortUp sslots = true ∧ slotsFree (dropSent (lookupVdn sslots 0 0 7).1 9) 9 [3] = false := by
  refine ⟨inflight_of (by decide +kernel), ?_⟩; decide +kernel

/-- The store of a thread that has exited. -/
theorem witness_exited_store : let r := rq (.store (.peer 7 0x40) [1, 2, 3, 4])
    let s := withReq (stOf (fun _ => { thr [] with place := .exited }) id id) r
    InFlight s 9 r ∧ r.owner = .thread 1 0 ∧ s.thread? 1 0 = some { thr [] with place := .exited } ∧ s.team? 1 = some p1 ∧
    p1.stage ≠ .ending := by
  refine ⟨inflight_of (by decide +kernel), ?_⟩; decide +kernel

/-- An atomic performed before two others of its source. -/
theorem witness_kept_answers : let e (n : Nat) : Performed := ⟨3, 1, ownPackage, .atomic, n, .ok, [1], 0, 0⟩
    let p := pkt .atomic (.atomic .add .n32 1)
    ({ sfab with fab := { sfab.fab with performed := [e 4, e 5, e 6] } } : State).fab.performed = [e 4] ++ e 5 :: [e 6] ∧
    (∀ x ∈ [e 4], x.isOf p = false) ∧ (e 5).isOf p = true ∧
    ([e 6].filter fun x => x.cls == .atomic && x.srcPkg == (e 5).srcPkg).length = 1 := by
  refine ⟨rfl, ?_, ?_, rfl⟩
  · intro x hx; rw [List.mem_singleton] at hx; subst hx; simp [Performed.isOf, pkt]
  · simp [Performed.isOf, pkt]

theorem witness_swap_packet : let p := pkt .atomic (.cas .n32 0 9)
    packetOk p = true ∧ admitted sfab p = true ∧ (fmTranslate sfab p).2 = some 0x20000 ∧ opReduces p.op = false ∧
    Plain (fmTranslate sfab p).1 0x20000 4 ∧ poisonedAt (fmTranslate sfab p).1 0x20000 4 = false :=
  ⟨by simp [packetOk, pkt, opBytes, tyBits], by decide +kernel, by decide +kernel, rfl, ⟨by decide, by decide +kernel, by decide +kernel⟩,
    by decide +kernel⟩

theorem test_swap_packet : (let s := processPacket sfab (pkt .atomic (.cas .n32 0 9))
    (readByte s 0x20000, waitingAnswers s)) = (9, [.ok]) := by decide +kernel

/-- A group of three entries, one without V, stored out of order. -/
theorem test_members_in_order : groupMembers { bt with fab := { Fabric.reset with mcGroups := [(3,
      [2 ^ 31 + 2 * 2 ^ 16 + 7, 5, 2 ^ 31 + 2 ^ 16 + 4 + 9 * 2 ^ 22])] } } 3 = [(4, 1, 9), (7, 2, 0)] := by decide +kernel

/-- Ascending order matters to a float sum: 2^24 + 1 + 1. -/
theorem test_float_sum_order : reduceAll .add .f32 [[0x4B800000], [0x3F800000], [0x3F800000]] = [0x4B800000] ∧
    reduceAll .add .f32 [[0x3F800000], [0x3F800000], [0x4B800000]] = [0x4B800001] := by decide +kernel

end Sys2Proof.Tests
end

section
/-! SUPPORT. The integer instructions of the result tables: each one's meaning is a write of the table's value, and none ends
its block. -/

namespace Sys2Proof.Machine

/-! ## Values in the form of the tables -/

theorem shr64Of_eq (ty : Ty) (a : DWord) (n : Nat) :
    shr64Of ty a n = if ty = .s64 then a.sshiftRight n else a >>> n := by
  split
  · next h => rw [h, shr64Of_signed]
  · next h => exact shr64Of_natural ty h a n

theorem leaOf_eq (nat : Bool) (sc : Nat) (a : DWord) (b : Word) :
    leaOf nat sc a b = a + (if nat then b.zeroExtend 64 else b.signExtend 64) <<< sc := by
  cases nat
  · exact leaOf_signed sc a b
  · exact leaOf_natural sc a b

/-! ## The meanings of the instructions of the tables -/

/-- Most values are the table's by definition; for the shifts and the rotation of R90 the table has bit-vector operations. -/
theorem exec_eq_write1 {t : Thread} {i : Instr} {fs : List RF} {d : Reg} {w : Word}
    (h : wordResult t i = some (fs, d, w)) (s : State) :
    ∃ f, exec i s = write1 s i d fs f ∧ f t = w := by
  cases i with
  | shl | shlImm => cases h; exact ⟨_, rfl, shlOf_eq _ _⟩
  | shr | shrImm => cases h; exact ⟨_, rfl, shrOf_eq _ _⟩
  | sar | sarImm => cases h; exact ⟨_, rfl, sarOf_eq _ _⟩
  | rot => cases h; exact ⟨_, rfl, rotOf_eq _ _⟩
  | _ => cases h <;> exact ⟨_, rfl, rfl⟩

/-- As for words; the table has bit-vector operations for the shifts of R96 and the address of R97. -/
theorem exec_eq_write2 {s : State} {t : Thread} {i : Instr} {fs : List RF} {d : Reg} {x : DWord}
    (h : pairResult s.now t i = some (fs, d, x)) :
    ∃ f, exec i s = write2 s i d fs f ∧ f t = x := by
  cases i with
  | shl64 => cases h; exact ⟨_, rfl, shl64Of_eq _ _⟩
  | shr64 => cases h; exact ⟨_, rfl, shr64Of_eq _ _ _⟩
  | lea => cases h; exact ⟨_, rfl, leaOf_eq _ _ _ _⟩
  | _ => cases h <;> exact ⟨_, rfl, rfl⟩

/-- R76: an instruction of the word table never ends its block. -/
theorem endsBlock_of_wordResult {t : Thread} {i : Instr} {r : List RF × Reg × Word} (h : wordResult t i = some r) :
    endsBlock i = false := by
  cases i <;> cases h <;> rfl

theorem endsBlock_of_pairResult {now : Nat} {t : Thread} {i : Instr} {r : List RF × Reg × DWord}
    (h : pairResult now t i = some r) : endsBlock i = false := by
  cases i <;> cases h <;> rfl

/-! ## Their steps -/

theorem Ready.exec_wordResult {s : State} {m : Team} {t : Thread} {i : Instr} {fs : List RF} {d : Reg} {w : Word}
    (hr : Ready s m t i false (fs ++ [dst1 d])) (h : wordResult t i = some (fs, d, w)) :
    exec i s = .next (advance s (t.write d.toNat w) i) := by
  obtain ⟨f, he, rfl⟩ := exec_eq_write1 h s
  rw [he, hr.write1 (endsBlock_of_wordResult h)]

theorem Ready.exec_pairResult {s : State} {m : Team} {t : Thread} {i : Instr} {fs : List RF} {d : Reg} {x : DWord}
    (hr : Ready s m t i false (fs ++ [dst2 d])) (h : pairResult s.now t i = some (fs, d, x)) :
    exec i s = .next (advance s (t.writePair d.toNat x) i) := by
  obtain ⟨f, he, rfl⟩ := exec_eq_write2 h
  rw [he, hr.write2 (endsBlock_of_pairResult h)]

/-- Settles O1: the instruction is a write of its table's value, and a ready thread passes the checks, writes and goes on. -/
theorem integerInstructionsWriteTheirResult : Obligations.IntegerInstructionsWriteTheirResult := by
  unfold Obligations.IntegerInstructionsWriteTheirResult
  exact ⟨fun _ _ _ _ _ _ _ h hr => hr.exec_wordResult h, fun _ _ _ _ _ _ _ h hr => hr.exec_pairResult h⟩

end Sys2Proof.Machine
end

section
/-! SUPPORT. Traps and control transfers: what `takeTrap` does in each of its three cases, and where an instruction that ends
its block goes on. -/

namespace Sys2Proof.Machine

/-! ## The cases of a trap that do not enter the handler (R144) -/

/-- A trap in trap mode is a nested one. -/
theorem takeTrap_nested (s : State) (t : Thread) (c : Code) (epc : DWord) (reg : Nat) (hm : t.mode = true) :
    takeTrap s t c epc reg = threadFault s t .illegal { nest := true, reg := if c == .tEmpty then reg else 0 } := by
  unfold takeTrap
  simp [hm]

/-- A trap of a thread without a handler is a fault with the trap's code. -/
theorem takeTrap_unhandled (s : State) (t : Thread) (c : Code) (epc : DWord) (reg : Nat) (hm : t.mode = false)
    (hv : t.trapvec.toNat / 8 = 0) :
    takeTrap s t c epc reg = threadFault s t c { unh := true, reg := if c == .tEmpty then reg else 0 } := by
  unfold takeTrap
  simp [hm, hv]

/-- REG of the cause has ten bits, so a register below 1024 is recorded as it is (R145). -/
theorem causeOf_of_lt (c : Code) {reg : Nat} (h : reg < 1024) :
    causeOf c reg = BitVec.ofNat 32 (1 + c.num * 256 + reg * 65536) := by
  rw [causeOf, Nat.mod_eq_of_lt h]

/-! ## Where a transfer goes on -/

theorem finish_jump (s : State) (t : Thread) (i : Instr) (he : endsBlock i = true) :
    finish s t i 0 = jump s t (nextPc t i) :=
  finishAt_jump s t i (nextPc t i) he

/-- R120: a transfer to a register target goes there, or faults with the thread as it was before the instruction. -/
theorem jumpTo_eq (s : State) (t : Thread) (i : Instr) (target : DWord) (t' : Thread) (he : endsBlock i = true) :
    jumpTo s t i target t' = if target.toNat % 8 = 0 then jump s t' target else threadFault s t .align {} := by
  unfold jumpTo
  rw [finishAt_jump s t' i target he, ite_not]

/-- R120: `z` says whether `brc` is taken on a zero condition register or on one that is not zero. -/
theorem branchTaken_iff (z : Bool) (w : Word) : (if z then w == 0 else w != 0) = true ↔ (w = 0 ↔ z = true) := by
  cases z <;> simp

/-! ## The steps of a ready thread -/

theorem Ready.issue_finishAt {s : State} {m : Team} {t : Thread} {i : Instr} {fs : List RF} {f : Thread → Thread}
    {g : Thread → DWord} (h : Ready s m t i false fs) (he : endsBlock i = true) :
    Machine.issue s i fs (fun _ t => finishAt s (f t) i 0 (g t)) = .next (jump s (f t) (g t)) := by
  rw [h.issue, finishAt_jump _ _ _ _ he]

theorem Ready.issue_jumpTo {s : State} {m : Team} {t : Thread} {i : Instr} {fs : List RF} {f : Thread → Thread}
    {g : Thread → DWord} (h : Ready s m t i false fs) (he : endsBlock i = true) :
    Machine.issue s i fs (fun _ t => jumpTo s t i (g t) (f t)) =
      .next (if (g t).toNat % 8 = 0 then jump s (f t) (g t) else threadFault s t .align {}) := by
  rw [h.issue, jumpTo_eq _ _ _ _ _ he]

theorem Ready.exec_trap {s : State} {m : Team} {t : Thread} {dbg : Bool} {n : Byte} (h : Ready s m t (.trap dbg n) false []) :
    exec (.trap dbg n) s = .next (takeTrap s t (if dbg then .tDebug else .tSoft) (t.pc + 8) 0) :=
  h.issue _

theorem Ready.exec_tret {s : State} {m : Team} {t : Thread} (h : Ready s m t .tret false []) :
    exec .tret s = .next (if t.mode then jump s t.leaveTrap t.trappc else threadFault s t .illegal {}) :=
  h.issue _

theorem Ready.exec_nop {s : State} {m : Team} {t : Thread} {cut : Bool} (h : Ready s m t (.nop cut) false []) :
    exec (.nop cut) s = .next (finish s t (.nop cut) 0) :=
  h.issue _

/-! ## The obligations -/

/-- Settles O14: a `trap` takes its trap at the next address, and the cases are those of `takeTrap`: entry of the handler,
nested, unhandled; `tret` splits on the mode alone. -/
theorem trapsEnterAndReturn : Obligations.TrapsEnterAndReturn := by
  unfold Obligations.TrapsEnterAndReturn
  refine ⟨fun s m t dbg n h => ⟨fun hm hv => ?enters, fun hm => ?nested, fun hm hv => ?unhandled⟩,
    fun s m t h => ⟨fun hm => ?returns, fun hm => ?outside⟩, fun s t r hm hv hr => ?empty⟩
  case enters =>
    rw [h.exec_trap, takeTrap_enters _ _ _ _ _ hm hv]
    cases dbg <;> rfl
  case nested =>
    rw [h.exec_trap, takeTrap_nested _ _ _ _ _ hm]
    cases dbg <;> rfl
  case unhandled =>
    rw [h.exec_trap, takeTrap_unhandled _ _ _ _ _ hm hv]
    cases dbg <;> rfl
  case returns => rw [h.exec_tret, if_pos hm]; rfl
  case outside => rw [h.exec_tret, if_neg (by simp [hm])]
  case empty =>
    have hc : causeOf .tEmpty r = BitVec.ofNat 32 (1 + 256 + r * 65536) := causeOf_of_lt .tEmpty hr
    rw [takeTrap_enters _ _ _ _ _ hm hv]
    simp [hc]

/-- Settles O15: each transfer of a ready thread finishes at its target and ends its row; those with a register target check
its alignment first; only `nop` without `.cut` stays in its row. -/
theorem transfersGoToTheirTarget : Obligations.TransfersGoToTheirTarget := by
  unfold Obligations.TransfersGoToTheirTarget
  refine ⟨fun s m t off h => ?br, fun s m t z c off h => ?brc, fun s m t d off h => ?call, fun s m t a h => ?brx,
    fun s m t a h => ?ret, fun s m t d a h => ?calli, fun s m t cut h => ?nop⟩
  case br => exact h.issue_finishAt rfl
  case brc =>
    refine (h.issue_finishAt rfl).trans ?_
    simp only [branchTaken_iff, branchTarget]
  case call => exact h.issue_finishAt rfl
  case brx => exact h.issue_jumpTo rfl
  case ret => exact h.issue_jumpTo rfl
  case calli => exact h.issue_jumpTo rfl
  case nop =>
    rw [h.exec_nop]
    cases cut with
    | false => exact congrArg _ (finish_quiet s t _ rfl)
    | true => exact congrArg _ (finish_jump s t _ rfl)

end Sys2Proof.Machine
end

section
/-! SUPPORT. Going on to a next word, as the statements on Mordant programs write it, and the scalar instructions: each one's
meaning is a write of the table's value to its m register. -/

namespace Sys2Proof.Machine

/-! ## Going on -/

/-- With no next element, every peer read of the program is used up. -/
theorem usedRead_nil (u : Nat) (r : Req) : usedRead u [] r = (r.owner == .program u && r.act.reads) := by
  unfold usedRead ownedBy
  cases r.act <;> simp

/-- The model's end of an instruction is the one of the statements. -/
theorem mGoto_eq_continues (s : State) (u : Nat) (p : Program) (pc : DWord) : mGoto s u p pc = continues s u p pc := by
  simp only [mGoto, retireProgram, keepProgram, usedRead_nil, continues]

theorem mNext_eq_continues (s : State) (u : Nat) (p : Program) (i : Instr) :
    mNext s u p i = continues s u p (p.pc + BitVec.ofNat 64 i.len) :=
  mGoto_eq_continues s u p _

/-- Program `u` is the one that a Mordant instruction acts on while it runs. -/
theorem Runs.mordant {s : State} {u : Nat} {p : Program} (h : Runs s u p) (k : Nat → Program → State) :
    Machine.mordant s k = .next (k u p) := by
  simp only [Machine.mordant, h.current, h.program]

/-! ## Scalar instructions (R235) -/

/-- The shifts of Mordant programs are the natural ones of R96. -/
theorem mShlOf_eq (a n : DWord) : mShlOf a n = a <<< n.toNat :=
  shl64Of_eq a n.toNat

theorem mShrOf_eq (a n : DWord) : mShrOf a n = a >>> n.toNat :=
  shr64Of_natural .n64 (by decide) a n.toNat

/-- Most values are the table's by definition; for the shifts the table has bit-vector operations, and for `sel` it asks
whether the register is zero. -/
theorem exec_eq_mScalar {p : Program} {i : Instr} {d : BitVec 5} {x : DWord} (h : mordantResult p i = some (d, x)) (s : State) :
    ∃ f, exec i s = mScalar s i d f ∧ f p = x := by
  cases i with
  | mShl | mShlImm => cases h; exact ⟨_, rfl, mShlOf_eq _ _⟩
  | mShr | mShrImm => cases h; exact ⟨_, rfl, mShrOf_eq _ _⟩
  | mSel => cases h; exact ⟨_, rfl, ite_not _ _ _⟩
  | _ => cases h <;> exact ⟨_, rfl, rfl⟩

theorem Runs.exec_mordantResult {s : State} {u : Nat} {p : Program} {i : Instr} {d : BitVec 5} {x : DWord} (hr : Runs s u p)
    (h : mordantResult p i = some (d, x)) :
    exec i s = .next (continues s u (p.setM d x) (p.pc + BitVec.ofNat 64 i.len)) := by
  obtain ⟨f, he, rfl⟩ := exec_eq_mScalar h s
  rw [he, mScalar, hr.mordant, mNext_eq_continues]
  rfl

/-! ## Branches (R236) -/

theorem Runs.exec_mBr {s : State} {u : Nat} {p : Program} {off : BitVec 24} (h : Runs s u p) :
    exec (.mBr off) s = .next (continues s u p (mTarget p off)) :=
  (h.mordant _).trans (congrArg _ (mGoto_eq_continues s u p _))

/-- R236: `z` says whether `brc` is taken on a zero m register or on one that is not zero. -/
theorem mBranchTaken_iff (z : Bool) (x : DWord) : (if z then x == 0 else x != 0) = true ↔ (x = 0 ↔ z = true) := by
  cases z <;> simp

theorem Runs.exec_mBrc {s : State} {u : Nat} {p : Program} {z : Bool} {c : BitVec 5} {off : BitVec 24} (h : Runs s u p) :
    exec (.mBrc z c off) s = .next (continues s u p (if (p.mreg c = 0 ↔ z = true) then mTarget p off else p.pc + 8)) := by
  refine (h.mordant _).trans (congrArg _ ?_)
  simp only [mBranchTaken_iff, mGoto_eq_continues, mNext_eq_continues, apply_ite (continues s u p)]
  rfl

/-- The count of `loop` has reached zero exactly when it stood at one, for it wraps modulo 2^64. -/
theorem Runs.exec_loop {s : State} {u : Nat} {p : Program} {c : BitVec 5} {off : BitVec 24} (h : Runs s u p) :
    exec (.loop c off) s = .next (continues s u (p.setM c (p.mreg c - 1))
      (if p.mreg c = 1 then p.pc + 8 else mTarget p off)) := by
  have hz : p.mreg c - 1 = 0 ↔ p.mreg c = 1 := BitVec.sub_eq_iff_eq_add.trans (by simp)
  refine (h.mordant _).trans (congrArg _ ?_)
  simp only [ne_eq, ite_not, hz, mGoto_eq_continues, mNext_eq_continues, apply_ite (continues s u (p.setM c (p.mreg c - 1)))]
  rfl

/-! ## The obligation -/

/-- Settles O34: a scalar instruction writes its table's value and goes on; a branch goes on at its target or at the next
word. -/
theorem mordantScalarsAndBranches : Obligations.MordantScalarsAndBranches := by
  unfold Obligations.MordantScalarsAndBranches
  exact ⟨fun _ _ _ _ _ _ h hr => hr.exec_mordantResult h, fun _ _ _ _ h => h.exec_mBr, fun _ _ _ _ _ _ h => h.exec_mBrc,
    fun _ _ _ _ _ h => h.exec_loop⟩

end Sys2Proof.Machine
end

section
/-! SUPPORT. Facts of logic that later proofs need and that core Lean has no lemma for. -/

namespace Sys2Proof

theorem congr_two {α β γ : Sort _} (f : α → β → γ) {a a' : α} {b b' : β} (ha : a = a') (hb : b = b') : f a b = f a' b' := by
  rw [ha, hb]

/-- Choices by equivalent conditions between equal values are equal. -/
theorem ite_eq_of_iff {α : Sort _} {p q : Prop} [Decidable p] [Decidable q] {a b c d : α} (h : p ↔ q) (ha : a = c) (hb : b = d) :
    (if p then a else b) = if q then c else d := by
  subst ha hb
  exact ite_congr (propext h) (fun _ => rfl) fun _ => rfl

/-- A fold over steps that leave its start alone. -/
theorem foldl_eq_self {α β : Type} {f : β → α → β} {b : β} (h : ∀ a, f b a = b) (l : List α) : l.foldl f b = b := by
  induction l with
  | nil => rfl
  | cons a l ih => rw [List.foldl_cons, h, ih]

/-- `x` is `.ok a`; it can be decided where the errors have no decidable equality. -/
def isOkWith {ε α : Type} [DecidableEq α] (x : Except ε α) (a : α) : Bool :=
  match x with
  | .ok b => decide (b = a)
  | .error _ => false

theorem eq_ok_of_isOkWith {ε α : Type} [DecidableEq α] {x : Except ε α} {a : α} (h : isOkWith x a = true) : x = .ok a := by
  cases x with
  | ok b => exact congrArg _ (of_decide_eq_true h)
  | error => cases h

end Sys2Proof
end

section
/-! SUPPORT. The floating-point instructions, the P-form words, and the producers whose result comes with a fill: each one's
meaning in the terms of the result tables. -/

namespace Sys2Proof.Machine

/-! ## Instructions that write one register and flags -/

/-- The values are the table's by definition; a comparison's is a word before or after the choice between 0 and 1. -/
theorem exec_eq_writeFl {t : Thread} {i : Instr} {fs : List RF} {d : Reg} {r : Word × FFlags}
    (h : floatResult t i = some (fs, d, r)) (s : State) : ∃ f, exec i s = writeFl s i d fs f ∧ f t = r := by
  cases i with
  | fcmp =>
    cases h
    exact ⟨_, rfl, congrArg (·, _) (apply_ite (BitVec.ofNat 32) _ _ _)⟩
  | _ => cases h <;> exact ⟨_, rfl, rfl⟩

theorem endsBlock_of_floatResult {t : Thread} {i : Instr} {r : List RF × Reg × (Word × FFlags)}
    (h : floatResult t i = some r) : endsBlock i = false := by
  cases i <;> cases h <;> rfl

theorem exec_eq_convert {i : Instr} {dt st : Ty} {md : RM} {z : Bool} {d : Reg} {a : Src}
    (h : convertForm i = some (dt, st, md, z, d, a)) (s : State) : exec i s = convert s i dt st md z d a := by
  cases i <;> cases h <;> rfl

theorem endsBlock_of_convertForm {i : Instr} {r : Ty × Ty × RM × Bool × Reg × Src} (h : convertForm i = some r) :
    endsBlock i = false := by
  cases i <;> cases h <;> rfl

/-- A register write leaves what decides whether a flag traps. -/
theorem enabled_writeEither (t : Thread) (q : Bool) (v : Nat) (x : DWord) (w : Word) (fl : FFlags) :
    enabled (if q then t.writePair v x else t.write v w) fl = enabled t fl := by
  cases q <;> rfl

theorem mode_writeEither (t : Thread) (q : Bool) (v : Nat) (x : DWord) (w : Word) :
    (if q then t.writePair v x else t.write v w).mode = t.mode := by
  cases q <;> rfl

theorem finish_fpxTrap (s : State) (t u : Thread) (i : Instr) (fl : FFlags) (hu : u = { t with regs := u.regs })
    (hf : enabled t fl = true) (hm : t.mode = false) (hv : t.trapvec.toNat / 8 ≠ 0) :
    finish s u i fl = arrive (retire s t.team)
      { u.withFlags fl with
        trappc := BitVec.ofNat 64 ((t.pc + BitVec.ofNat 64 i.len).toNat / 8 * 8)
        trapcause := BitVec.ofNat 32 (1 + 0x04 * 256) }
      (BitVec.ofNat 64 (t.trapvec.toNat / 8 * 8)) := by
  rw [hu]
  refine (finish_traps s { t with regs := u.regs } i fl hf hm).trans ?_
  exact takeTrap_enters (retire s t.team) (Thread.withFlags { t with regs := u.regs } fl) .tFpx _ 0 hm hv

/-! ## Comparisons (R107) -/

/-- A finite value over 2^`k` as an integer. -/
def scaledInt (s : Bool) (m : Nat) (e k : Int) : Int := (if s then -1 else 1) * (m * 2 ^ (e - k).toNat : Nat)

theorem scaledInt_not (s : Bool) (m : Nat) (e k : Int) : scaledInt (!s) m e k = -scaledInt s m e k := by
  cases s <;> simp [scaledInt]

theorem exactAdd_neg_iff (md : RM) (s : Bool) (m : Nat) (e : Int) (t : Bool) (n : Nat) (g : Int) :
    ((exactAdd md s m e t n g).2.1 != 0 && (exactAdd md s m e t n g).1) = true ↔
      scaledInt s m e (min e g) + scaledInt t n g (min e g) < 0 := by
  have hmin : (if e < g then e else g) = min e g := by split <;> omega
  have hs : exactAdd md s m e t n g = if scaledInt s m e (min e g) + scaledInt t n g (min e g) = 0 then
      ((if s == t then s else md == .rd), 0, min e g) else
      (decide (scaledInt s m e (min e g) + scaledInt t n g (min e g) < 0),
        (scaledInt s m e (min e g) + scaledInt t n g (min e g)).natAbs, min e g) := by
    rw [← hmin]; rfl
  rw [hs]
  split
  · next h => simp [h]
  · next h => simpa using fun _ => h

/-- The order of R55 is asymmetric: the two exact differences are opposite. -/
theorem valueLt_asymm {x y : FVal} (h : valueLt x y = true) : valueLt y x = false := by
  match x, y with
  | .fin s m e, .fin t n g =>
    have h1 := (exactAdd_neg_iff .rne s m e (!t) n g).mp h
    rw [Bool.eq_false_iff]
    intro h2
    have h3 := (exactAdd_neg_iff .rne t n g (!s) m e).mp h2
    rw [Int.min_comm g e, scaledInt_not] at h3
    rw [scaledInt_not] at h1
    omega
  | .nan _, .inf b => cases b <;> simp_all [valueLt]
  | .nan _, .nan _ => rfl
  | .nan _, .fin _ _ _ => rfl
  | .inf a, .nan _ => cases a <;> simp_all [valueLt]
  | .fin _ _ _, .nan _ => rfl
  | .inf a, .inf b => cases a <;> cases b <;> simp_all [valueLt]
  | .inf a, .fin _ _ _ => cases a <;> simp_all [valueLt]
  | .fin _ _ _, .inf b => cases b <;> simp_all [valueLt]

theorem fcondHolds_unordered {x y : FVal} (h : x.isNan = true ∨ y.isNan = true) :
    fcondHolds .eq x y = false ∧ fcondHolds .lt x y = false ∧ fcondHolds .le x y = false ∧ fcondHolds .gt x y = false ∧
      fcondHolds .ge x y = false ∧ fcondHolds .or x y = false ∧ fcondHolds .ne x y = true ∧ fcondHolds .un x y = true := by
  have hu : (x.isNan || y.isNan) = true := by simpa using h
  simp [fcondHolds, hu]

theorem fcondHolds_ordered {x y : FVal} (hx : x.isNan = false) (hy : y.isNan = false) :
    fcondHolds .un x y = false ∧ fcondHolds .or x y = true ∧ (fcondHolds .ne x y = !fcondHolds .eq x y) ∧
      (fcondHolds .ge x y = !fcondHolds .lt x y) ∧ (fcondHolds .le x y = !fcondHolds .gt x y) ∧
      ([FCond.lt, .eq, .gt].filter fun c => fcondHolds c x y).length = 1 := by
  have hl : valueLt x y = true → valueLt y x = false := valueLt_asymm
  cases h1 : valueLt x y with
  | false => cases h2 : valueLt y x <;> simp [fcondHolds, hx, hy, h1, h2]
  | true => simp [fcondHolds, hx, hy, h1, hl h1]

/-! ## The steps of a ready thread -/

theorem Ready.exec_floatResult {s : State} {m : Team} {t : Thread} {i : Instr} {fs : List RF} {d : Reg} {r : Word × FFlags}
    (hr : Ready s m t i false (fs ++ [dst1 d])) (h : floatResult t i = some (fs, d, r))
    (hf : enabled t r.2 = false ∨ t.mode = true) :
    exec i s = .next (advance s ((t.write d.toNat r.1).withFlags r.2) i) := by
  obtain ⟨f, he, rfl⟩ := exec_eq_writeFl h s
  rw [he, hr.writeFl (endsBlock_of_floatResult h) hf]

theorem Ready.exec_convertForm {s : State} {m : Team} {t : Thread} {i : Instr} {dt st : Ty} {md : RM} {z : Bool} {d : Reg}
    {a : Src} (hr : Ready s m t i false [if st.inQ then src2 a else src1 a, if dt.inQ then dst2 d else dst1 d])
    (h : convertForm i = some (dt, st, md, z, d, a)) :
    let r := cvtOf dt st md z (if st.inQ then rp t a else (0 : Word) ++ rw t a)
    exec i s = .next (finish s (if dt.inQ then t.writePair d.toNat r.1 else t.write d.toNat (lowWord r.1)) i r.2) := by
  rw [exec_eq_convert h]
  exact hr.issue _

/-- Settles O4: the tables' instructions write value and flags by `writeFl`, the conversions by `convert`; both end by
`finish`, which goes on or takes T_FPX. -/
theorem floatInstructionsWriteTheirResultOrTrap : Obligations.FloatInstructionsWriteTheirResultOrTrap := by
  unfold Obligations.FloatInstructionsWriteTheirResultOrTrap
  refine ⟨⟨fun s m t i fs d r h hr hf => hr.exec_floatResult h hf, fun s m t i dt st md z d a h hr => ?converts⟩,
    fun s m t i fs d r h hr hf hm hv => ?traps, fun s m t i dt st md z d a h hr => ?convertTraps,
    fun x y => ⟨fcondHolds_unordered, fcondHolds_ordered⟩⟩
  case converts =>
    intro r hf
    rw [hr.exec_convertForm h]
    refine congrArg _ (finish_advance s _ i _ (endsBlock_of_convertForm h) ?_)
    rwa [enabled_writeEither, mode_writeEither]
  case traps =>
    obtain ⟨f, he, rfl⟩ := exec_eq_writeFl h s
    rw [he]
    exact hr.writeFl_traps hf hm hv
  case convertTraps =>
    intro r hf hm hv
    rw [hr.exec_convertForm h]
    refine congrArg _ (finish_fpxTrap s t _ i _ ?_ hf hm hv)
    cases dt.inQ <;> rfl

/-- Settles O5: both halves are computed from the thread before either write. -/
theorem pairWordsRunBothHalves : Obligations.PairWordsRunBothHalves := by
  unfold Obligations.PairWordsRunBothHalves
  intro s m t ha hb hr ra rb hf
  refine (hr.issue _).trans (congrArg _ ?_)
  exact finish_advance s ((t.write ha.d.toNat ra.1).write hb.d.toNat rb.1) (.pairWord ha hb) _ rfl hf

end Sys2Proof.Machine
end

section
/-! SUPPORT. The producers of class 0x2 whose result is decided at issue: division, remainder and the functions of R109. -/

namespace Sys2Proof.Machine

/-! ## Division and remainder (R87) -/

theorem exec_eq_divide {i : Instr} {ty : Ty} {d : Reg} {a b : Src} {r : Bool}
    (h : divisionForm i = some (ty, d, a, b, r)) (s : State) :
    exec i s = divide s i ty d a b (if r then remInt else divInt) := by
  cases i <;> cases h <;> rfl

theorem endsBlock_of_divisionForm {i : Instr} {r : Ty × Reg × Src × Src × Bool} (h : divisionForm i = some r) :
    endsBlock i = false := by
  cases i <;> cases h <;> rfl

/-! ## The functions of R109 -/

theorem exec_eq_produceFp {t : Thread} {i : Instr} {fs : List RF} {d : Reg} {r : Nat × FFlags}
    (h : functionResult t i = some (fs, d, r)) (s : State) :
    ∃ f : Thread → Nat × FFlags, exec i s = issue s i (fs ++ [dst1 d]) (fun _ x => produceFp s x i d (f x)) ∧ f t = r := by
  cases i <;> cases h <;> exact ⟨_, rfl, rfl⟩

theorem endsBlock_of_functionResult {t : Thread} {i : Instr} {r : List RF × Reg × (Nat × FFlags)}
    (h : functionResult t i = some r) : endsBlock i = false := by
  cases i <;> cases h <;> rfl

theorem len_of_functionResult {t : Thread} {i : Instr} {r : List RF × Reg × (Nat × FFlags)}
    (h : functionResult t i = some r) : i.len = 8 := by
  cases i <;> cases h <;> rfl

theorem produceFp_eq (s : State) (t : Thread) (i : Instr) (d : Reg) (r : Nat × FFlags) (he : endsBlock i = false) :
    produceFp s t i d r =
      let s' := advance (issued s (t.req s.now none (.value d.toNat [BitVec.ofNat 32 r.1] r.2 true)))
        (t.markEmpty d.toNat (producerTag 2 t.pc) 1) i
      if t.fpctl.toNat % 32 = 0 then s' else s'.updThread t.team t.tix fun x => { x with place := .parked (.fpu none) } := by
  unfold produceFp addReq State.fresh
  dsimp only
  rw [finish_quiet _ _ _ he]
  rfl

@[simp] theorem State.thread?_updThread_same (s : State) (a x : Nat) (f : Thread → Thread) :
    (s.updThread a x f).thread? a x = (s.thread? a x).map f := by
  simp [State.thread?]

theorem advance_marked (s : State) (t : Thread) (d : Nat) (tag : Word) (i : Instr) :
    (advance s (t.markEmpty d tag 1) i).thread? t.team t.tix =
      some { t.markEmpty d tag 1 with pc := t.pc + BitVec.ofNat 64 i.len } :=
  advance_thread s (t.markEmpty d tag 1) i

/-- Settles O3: `div` and `rem` are `divide`, the functions of R109 `produceFp`; both add their request, mark the destination
and go on. -/
theorem producersFillLater : Obligations.ProducersFillLater := by
  unfold Obligations.ProducersFillLater
  refine ⟨fun s m t i ty d a b r h hr => ?division, fun s m t i fs d r h hr => ?function⟩
  case division =>
    intro av bv v
    refine ⟨fun hn => ?quiet, fun hz hc hm hv => ?traps⟩
    case quiet =>
      have hf : (if r then remInt else divInt) av bv = v := by cases r <;> rfl
      refine (exec_eq_divide h s).trans ((hr.issue _).trans (congrArg _ ((if_neg (by simpa using hn)).trans ?_)))
      dsimp only
      rw [hf]
      exact produce_advance s t i _ _ 2 _ (endsBlock_of_divisionForm h)
    case traps =>
      refine (exec_eq_divide h s).trans ((hr.issue _).trans (congrArg _ ((if_pos ⟨hz, hc, by simp [hm]⟩).trans ?_)))
      exact takeTrap_enters s t .tDiv0 t.pc 0 hm hv
  case function =>
    obtain ⟨f, he, rfl⟩ := exec_eq_produceFp h s
    refine ⟨_, he.trans (hr.issue _), ?_⟩
    rw [produceFp_eq _ _ _ _ _ (endsBlock_of_functionResult h)]
    refine ⟨?_, fun hc => ?_, fun hc => ?_⟩
    · dsimp only; split <;> rfl
    · rw [if_pos hc, advance_marked, len_of_functionResult h]; rfl
    · rw [if_neg hc, State.thread?_updThread_same, advance_marked, len_of_functionResult h]; rfl

end Sys2Proof.Machine
end

section
/-! SUPPORT. What the checks of register fields and sources do to an instruction of the result tables, one gate at a time. -/

namespace Sys2Proof.Machine

/-! ## The instructions of the tables are issued with the fields of the tables -/

theorem exec_eq_issue_of_plainFields {s : State} {t : Thread} {i : Instr} {fs : List RF}
    (h : plainFields s.now t i = some fs) : ∃ k, exec i s = issue s i fs k := by
  simp only [plainFields, Option.or_eq_some_iff, Option.map_eq_some_iff] at h
  obtain ⟨⟨fs, d, w⟩, h, rfl⟩ | ⟨-, ⟨⟨fs, d, x⟩, h, rfl⟩ | ⟨-, ⟨⟨fs, d, r⟩, h, rfl⟩ | ⟨-, ⟨fs, d, r⟩, h, rfl⟩⟩⟩ := h
  · obtain ⟨f, he, -⟩ := exec_eq_write1 h s
    exact ⟨_, he⟩
  · obtain ⟨f, he, -⟩ := exec_eq_write2 h
    exact ⟨_, he⟩
  · obtain ⟨f, he, -⟩ := exec_eq_writeFl h s
    exact ⟨_, he⟩
  · obtain ⟨f, he, -⟩ := exec_eq_produceFp h s
    exact ⟨_, he⟩

/-- A field that names at least one register. -/
def RF.names (f : RF) : Bool := decide (1 ≤ f.cnt)

theorem names_of_plainFields {now : Nat} {t : Thread} {i : Instr} {fs : List RF}
    (h : plainFields now t i = some fs) : ∀ f ∈ fs, f.names = true := by
  have ha : fs.all RF.names = true := by
    cases i <;> cases h <;> rfl
  exact List.all_eq_true.mp ha

theorem RF.le_last {f : RF} (h : f.names = true) : f.r ≤ f.last := by
  have : 1 ≤ f.cnt := by simpa [RF.names] using h
  unfold RF.last
  omega

/-! ## What the checks answer -/

theorem Current.issue {s : State} {m : Team} {t : Thread} (h : Current s m t) (i : Instr) (fs : List RF)
    (k : Team → Thread → State) : issue s i fs k = .next (gated s m t i false fs (k m t)) := by
  simp only [Machine.issue, issueWith, h.current, h.team, h.thread]

theorem gated_stop {s : State} {m : Team} {t : Thread} {i : Instr} {p : Bool} {fs : List RF} {g : Gate} (k : State)
    (h : gateOf m t i p fs = g) (hg : g ≠ .go) : gated s m t i p fs k = gateStop s t g := by
  unfold gated
  rw [h]
  cases g with
  | go => exact absurd rfl hg
  | _ => rfl

theorem gateOf_illegal {m : Team} {t : Thread} {i : Instr} {p : Bool} {fs : List RF}
    (h : (m.narrow = true ∧ i.since4 = true) ∨
      ∃ f ∈ fs, 768 ≤ f.last ∨ (m.narrow = true ∧ 256 ≤ f.last) ∨ f.r % f.align ≠ 0) : gateOf m t i p fs = .illegal := by
  unfold gateOf
  split
  · rfl
  · next h1 =>
    obtain ⟨hn, hi⟩ | ⟨f, hf, hl⟩ := h
    · simp [hn, hi] at h1
    · have : (fs.any fun f => f.illegal m.narrow) = true := by
        refine List.any_eq_true.mpr ⟨f, hf, ?_⟩
        simp only [RF.illegal, Bool.or_eq_true, decide_eq_true_eq, Bool.and_eq_true]
        exact hl.elim (fun h => .inl (.inl (.inl h))) fun h => h.elim (fun h => .inl (.inr h)) .inr
      rw [if_pos this]

/-- The instruction's fields are legal whatever the allocation (R31, steps 1 and 2). -/
structure Legal (m : Team) (i : Instr) (fs : List RF) : Prop where
  introduced : (m.narrow && i.since4) = false
  legal : (fs.any fun f => f.illegal m.narrow) = false

theorem legal_of {m : Team} {i : Instr} {fs : List RF} (hn : ∀ f ∈ fs, f.names = true)
    (h4 : m.narrow = true → i.since4 = false)
    (h : ∀ f ∈ fs, f.last < 768 ∧ (m.narrow = true → f.last < 256) ∧ f.r % f.align = 0) : Legal m i fs := by
  refine ⟨by cases hm : m.narrow <;> simp [h4, hm], List.any_eq_false.mpr fun f hf => ?_⟩
  obtain ⟨hl, hm, ha⟩ := h f hf
  have := RF.le_last (hn f hf)
  cases hc : m.narrow with
  | false => simp [RF.illegal, ha]; omega
  | true => have := hm hc; simp [RF.illegal, ha]; omega

theorem Legal.gateOf_beyond {m : Team} {i : Instr} {fs : List RF} (h : Legal m i fs) (t : Thread) {f : RF}
    (hf : fs.find? (fun f => f.beyond m.nreg) = some f) : gateOf m t i false fs = .beyond (f.firstBeyond m.nreg) := by
  unfold gateOf
  simp only [h.introduced, h.legal, hf]
  rfl

theorem Legal.gateOf_within {m : Team} {i : Instr} {fs : List RF} (h : Legal m i fs) (hn : ∀ f ∈ fs, f.last < m.nreg)
    (t : Thread) : gateOf m t i false fs = readyGate t fs := by
  have : (fs.find? fun f => f.beyond m.nreg) = none := by
    simp only [List.find?_eq_none, RF.beyond, decide_eq_true_eq, Nat.not_le]
    exact hn
  unfold gateOf
  simp only [h.introduced, h.legal, this]
  rfl

theorem isPoisoned_eq (x : RegVal) : isPoisoned x = (x == .poisoned) := by
  cases x <;> rfl

section
variable {t : Thread} {fs : List RF}

theorem readyGate_lost {p : Nat × Bool} (h : (sources fs).find? (fun p => t.reg p.1 == .poisoned) = some p) :
    readyGate t fs = .lost p.1 := by
  simp only [readyGate, isPoisoned_eq, h]

theorem find_trapping_none (hq : ∀ p ∈ sources fs, isEmptyReg (t.reg p.1) = true → p.2 = false) :
    ((sources fs).find? fun p => isEmptyReg (t.reg p.1) && p.2) = none := by
  simpa [List.find?_eq_none] using hq

variable (hp : ∀ p ∈ sources fs, t.reg p.1 ≠ .poisoned)
include hp

theorem find_poisoned_none : ((sources fs).find? fun p => t.reg p.1 == .poisoned) = none := by
  simpa [List.find?_eq_none] using hp

theorem readyGate_empty {p : Nat × Bool} (h : (sources fs).find? (fun p => isEmptyReg (t.reg p.1) && p.2) = some p) :
    readyGate t fs = .empty p.1 := by
  simp only [readyGate, isPoisoned_eq, find_poisoned_none hp, h]

variable (hq : ∀ p ∈ sources fs, isEmptyReg (t.reg p.1) = true → p.2 = false)
include hq

theorem readyGate_parkSources {es : List Nat} (he : ((sources fs).filter fun p => isEmptyReg (t.reg p.1)).map (·.1) = es)
    (hne : es ≠ []) : readyGate t fs = .park es := by
  obtain ⟨r, rs, rfl⟩ := List.exists_cons_of_ne_nil hne
  simp only [readyGate, isPoisoned_eq, find_poisoned_none hp, find_trapping_none hq, he]

theorem readyGate_parkDestinations {ds : List Nat}
    (he : ((sources fs).filter fun p => isEmptyReg (t.reg p.1)).map (·.1) = [])
    (hd : (destinations fs).filter (fun r => isEmptyReg (t.reg r)) = ds) (hne : ds ≠ []) : readyGate t fs = .park ds := by
  obtain ⟨r, rs, rfl⟩ := List.exists_cons_of_ne_nil hne
  simp only [readyGate, isPoisoned_eq, find_poisoned_none hp, find_trapping_none hq, he, hd]

end

/-- Settles O12: the instruction is an `issue` of its table's fields, and each condition decides the gate. -/
theorem failedChecksStopTheInstruction : Obligations.FailedChecksStopTheInstruction := by
  unfold Obligations.FailedChecksStopTheInstruction
  intro s m t i fs h hc
  obtain ⟨k, he⟩ := exec_eq_issue_of_plainFields h
  have stop : ∀ g, gateOf m t i false fs = g → g ≠ .go → exec i s = .next (gateStop s t g) := fun g hg hne => by
    rw [he, hc.issue, gated_stop _ hg hne]
  refine ⟨fun hi => stop .illegal (gateOf_illegal hi) (by simp), fun h4 hl => ?_⟩
  have hL := legal_of (names_of_plainFields h) h4 hl
  refine ⟨fun f hf => stop (.beyond (f.firstBeyond m.nreg)) (hL.gateOf_beyond t hf) (by simp), fun hn => ?_⟩
  have hg := hL.gateOf_within hn t
  refine ⟨fun p hp => stop (.lost p.1) (hg.trans (readyGate_lost hp)) (by simp), fun hp => ?_⟩
  refine ⟨fun p hf => stop (.empty p.1) (hg.trans (readyGate_empty hp hf)) (by simp), fun hq => ?_⟩
  exact ⟨fun hes => stop (.park _) (hg.trans (readyGate_parkSources hp hq rfl hes)) (by simp),
    fun hes hds => stop (.park _) (hg.trans (readyGate_parkDestinations hp hq hes rfl hds)) (by simp)⟩

end Sys2Proof.Machine
end

section
/-! SUPPORT. Wrapping to a type's width, division, and the counts and reversal of bits, as facts about integers and bits. -/

namespace Sys2Proof.Machine

/-! ## Wrapping (R46) -/

/-- The integer of a type that a result stands for: the one wrapped to its width, read by its sign. -/
def wrapped (ty : Ty) (v : Int) : Int := intOf (tySigned ty) (tyBits ty) (v % (2 ^ tyBits ty : Nat)).toNat

/-- A wrapped integer differs from the one wrapped by a multiple of the modulus. -/
theorem wrapped_sub_emod {ty : Ty} (h : ty.inW = true) (v : Int) : (wrapped ty v - v) % (2 ^ tyBits ty : Nat) = 0 := by
  cases ty <;> simp [wrapped, intOf, tySigned, tyBits, Ty.inW] at h ⊢ <;> omega

/-- The range of a type. -/
theorem wrapped_range {ty : Ty} (h : ty.inW = true) (v : Int) :
    (tySigned ty = true → -(2 ^ (tyBits ty - 1) : Nat) ≤ wrapped ty v ∧ wrapped ty v < (2 ^ (tyBits ty - 1) : Nat)) ∧
    (tySigned ty = false → 0 ≤ wrapped ty v ∧ wrapped ty v < (2 ^ tyBits ty : Nat)) := by
  cases ty <;> simp [wrapped, intOf, tySigned, tyBits, Ty.inW] at h ⊢ <;> omega

/-- The register that a result is extended to holds the wrapped integer: its low bits, read by the sign, give it back. -/
theorem tyVal_tyRes {ty : Ty} (h : ty.inW = true) (v : Int) : tyVal ty (tyRes ty v).toNat = wrapped ty v := by
  have hr := wrapped_range h v
  have he : (tyRes ty v).toNat = (wrapped ty v % 2 ^ 32).toNat := by
    simp [tyRes, wrapped]
  rw [he]
  generalize wrapped ty v = x at hr
  cases ty <;> simp [tyVal, intOf, tySigned, tyBits, Ty.inW] at h hr ⊢ <;> omega

theorem toInt_tyRes {ty : Ty} (h : ty.inW = true) (hs : tySigned ty = true) (v : Int) : (tyRes ty v).toInt = wrapped ty v := by
  obtain ⟨hl, hu⟩ := (wrapped_range h v).1 hs
  have : tyBits ty ≤ 32 := by revert h; cases ty <;> decide
  have hp : 2 ^ (tyBits ty - 1) ≤ 2 ^ 31 := Nat.pow_le_pow_right (by omega) (by omega)
  show (BitVec.ofInt 32 (wrapped ty v)).toInt = _
  rw [BitVec.toInt_ofInt]
  exact Int.bmod_eq_of_le (by omega) (by omega)

theorem toNat_tyRes {ty : Ty} (h : ty.inW = true) (hs : tySigned ty = false) (v : Int) :
    ((tyRes ty v).toNat : Int) = wrapped ty v := by
  obtain ⟨hl, hu⟩ := (wrapped_range h v).2 hs
  have : tyBits ty ≤ 32 := by revert h; cases ty <;> decide
  have hp : 2 ^ tyBits ty ≤ 2 ^ 32 := Nat.pow_le_pow_right (by omega) (by omega)
  show ((BitVec.ofInt 32 (wrapped ty v)).toNat : Int) = _
  rw [BitVec.toNat_ofInt]
  omega

/-! ## Leading and trailing zeros, reversal (R91) -/

theorem clzOf_spec (a : Word) : clzOf a ≤ 32 ∧ (∀ k, 32 - clzOf a ≤ k → a.getLsbD k = false) ∧
    (a ≠ 0 → a.getLsbD (31 - clzOf a) = true) := by
  unfold clzOf
  split
  · next h => subst h; simp
  · next h =>
    have hn : a.toNat ≠ 0 := fun e => h (BitVec.eq_of_toNat_eq e)
    have hl : Nat.log2 a.toNat < 32 := (Nat.log2_lt hn).mpr a.isLt
    refine ⟨by omega, fun k hk => ?_, fun _ => ?_⟩
    · exact Nat.testBit_lt_two_pow ((Nat.log2_lt hn).mp (by omega))
    · rw [show 31 - (31 - Nat.log2 a.toNat) = Nat.log2 a.toNat by omega]
      exact Nat.testBit_log2 hn

theorem ctzFrom_spec (a : Word) (n : Nat) : ∀ i, ctzFrom a n i ≤ i + n ∧ i ≤ ctzFrom a n i ∧
    (∀ k, i ≤ k → k < ctzFrom a n i → a.getLsbD k = false) ∧ (ctzFrom a n i < i + n → a.getLsbD (ctzFrom a n i) = true) := by
  induction n with
  | zero => intro i; exact ⟨Nat.le_refl _, Nat.le_refl _, fun k h1 h2 => absurd h2 (by simp [ctzFrom]; omega), fun h => absurd h (by simp [ctzFrom])⟩
  | succ n ih =>
    intro i
    unfold ctzFrom
    split
    · next h => exact ⟨by omega, Nat.le_refl _, fun k h1 h2 => absurd h2 (by omega), fun _ => h⟩
    · next h =>
      obtain ⟨h1, h2, h3, h4⟩ := ih (i + 1)
      refine ⟨by omega, by omega, fun k hk hl => ?_, fun hl => h4 (by omega)⟩
      obtain rfl | hne := Nat.eq_or_lt_of_le hk
      · simpa using h
      · exact h3 k hne hl

theorem ctzOf_spec (a : Word) : ctzOf a ≤ 32 ∧ (∀ k, k < ctzOf a → a.getLsbD k = false) ∧
    (a ≠ 0 → a.getLsbD (ctzOf a) = true) := by
  obtain ⟨h1, -, h3, h4⟩ := ctzFrom_spec a 32 0
  refine ⟨Nat.le_trans h1 (Nat.le_of_eq (Nat.zero_add 32)), fun k hk => h3 k (Nat.zero_le k) hk, fun hne => h4 ?_⟩
  refine Decidable.byContradiction fun hge => ?_
  refine hne (BitVec.eq_of_getLsbD_eq fun k hk => ?_)
  rw [h3 k (Nat.zero_le k) (by omega)]
  simp

/-- The bits that the first `n` steps of a reversal have set. -/
theorem brevFold_getLsbD (a : Word) (n k : Nat) :
    ((List.range n).foldl (fun r i => if a.getLsbD (31 - i) then r ||| BitVec.ofNat 32 (2 ^ i) else r) (0 : Word)).getLsbD k =
      (decide (k < n) && decide (k < 32) && a.getLsbD (31 - k)) := by
  induction n with
  | zero => simp
  | succ n ih =>
    rw [List.range_succ, List.foldl_append, List.foldl_cons, List.foldl_nil]
    split
    · next h =>
      rw [BitVec.getLsbD_or, ih, BitVec.getLsbD_ofNat, Nat.testBit_two_pow]
      by_cases hk : k = n
      · subst hk; simp [h]
      · have : (k < n + 1) = (k < n) := by rw [eq_iff_iff]; omega
        simp [this, Ne.symm hk]
    · next h =>
      rw [ih]
      by_cases hk : k = n
      · subst hk; simp [h]
      · have : (k < n + 1) = (k < n) := by rw [eq_iff_iff]; omega
        simp [this]

theorem brevOf_getLsbD (a : Word) {k : Nat} (h : k < 32) : (brevOf a).getLsbD k = a.getLsbD (31 - k) := by
  unfold brevOf
  rw [brevFold_getLsbD]
  simp [h]

/-! ## Quotient and remainder (R87) -/

theorem divInt_eq_tdiv (a : Int) {b : Int} (h : b ≠ 0) : divInt a b = Int.tdiv a b := by
  unfold divInt
  rw [if_neg h]
  match a, b with
  | .ofNat m, .ofNat n =>
    have hm : ¬ Int.ofNat m < 0 := Int.not_lt.mpr (Int.natCast_nonneg m)
    have hn : ¬ Int.ofNat n < 0 := Int.not_lt.mpr (Int.natCast_nonneg n)
    rw [if_pos (by simp only [hm, hn])]
    simp [Int.tdiv]
  | .ofNat m, .negSucc n =>
    have hm : ¬ Int.ofNat m < 0 := Int.not_lt.mpr (Int.natCast_nonneg m)
    rw [if_neg (by simp only [hm, Int.negSucc_lt_zero]; decide)]
    simp [Int.tdiv]
  | .negSucc m, .ofNat n =>
    have hn : ¬ Int.ofNat n < 0 := Int.not_lt.mpr (Int.natCast_nonneg n)
    rw [if_neg (by simp only [hn, Int.negSucc_lt_zero]; decide)]
    simp [Int.tdiv]
  | .negSucc m, .negSucc n => simp [Int.tdiv, Int.negSucc_lt_zero]

theorem remInt_eq_tmod (a : Int) {b : Int} (h : b ≠ 0) : remInt a b = Int.tmod a b := by
  unfold remInt
  rw [if_neg h, divInt_eq_tdiv a h, Int.tmod_def, Int.mul_comm]

theorem remInt_spec (a : Int) {b : Int} (h : b ≠ 0) : a = divInt a b * b + remInt a b ∧ (remInt a b).natAbs < b.natAbs ∧
    (remInt a b = 0 ∨ (remInt a b < 0 ↔ a < 0)) := by
  rw [divInt_eq_tdiv a h, remInt_eq_tmod a h]
  refine ⟨(Int.tdiv_mul_add_tmod a b).symm, ?_, ?_⟩
  · rw [Int.natAbs_tmod]
    exact Nat.mod_lt _ (by omega)
  · rcases Int.lt_or_le a 0 with ha | ha
    · have := Int.tmod_nonneg b (Int.neg_nonneg_of_nonpos (Int.le_of_lt ha))
      rw [Int.neg_tmod] at this
      omega
    · have := Int.tmod_nonneg b ha
      omega

/-- Settles O2: a result is the wrapped integer, the counts are those of the bits, quotient and remainder those of truncated
division. -/
theorem integerResultsAreExact : Obligations.IntegerResultsAreExact := by
  unfold Obligations.IntegerResultsAreExact
  refine ⟨fun ty v h => ⟨?_, fun hs => ?_, fun hs => ?_⟩,
    fun a => ⟨clzOf_spec a, ctzOf_spec a, rfl, fun k hk => brevOf_getLsbD a hk⟩,
    fun a b hb => remInt_spec a hb, fun a => ⟨rfl, rfl⟩⟩
  · rw [tyVal_tyRes h]
    exact wrapped_sub_emod h v
  · rw [tyVal_tyRes h, toInt_tyRes h hs]
    exact ⟨rfl, (wrapped_range h v).1 hs⟩
  · have := toNat_tyRes h hs v
    rw [tyVal_tyRes h]
    exact ⟨this, by have := ((wrapped_range h v).2 hs).2; omega⟩

end Sys2Proof.Machine
end

section
/-! SUPPORT. The words that the spec works out, and the values after reset. -/

namespace Sys2Proof.Machine

/-- Settles O6: each word is decoded by evaluation. -/
theorem specWordsDecode : Obligations.SpecWordsDecode := by
  unfold Obligations.SpecWordsDecode
  refine ⟨?_, ?_, ?_, ?_, ?_, ?_, ?_, ?_, ?_, ?_, ?_, ?_, ?_⟩ <;> exact eq_ok_of_isOkWith (by decide +kernel)

/-- R370: what the functions have at reset. -/
theorem fn_reset (f : Nat) : State.reset.fn f = if f = 0 then Fn.physical else Fn.reset := rfl

theorem readByte_reset (a : Nat) : readByte State.reset a = 0 := by
  unfold readByte
  split <;> rfl

/-- Settles O7: the values of the definition of reset; memory is empty and nothing waits to be zeroed. -/
theorem resetHoldsTheGivenValues : Obligations.ResetHoldsTheGivenValues := by
  unfold Obligations.ResetHoldsTheGivenValues
  refine ⟨⟨rfl, rfl, rfl, rfl, rfl⟩, fun f hf => ?idle, fun f => ?common, fun f q => ⟨rfl, rfl, rfl, rfl⟩, fun i hi => ?hash,
    rfl, rfl, rfl, rfl, fun k => ⟨rfl, rfl⟩, fun a _ => readByte_reset a, rfl, rfl, rfl, rfl, rfl, rfl⟩
  case idle => rw [fn_reset, if_neg hf]; exact ⟨rfl, rfl, rfl, rfl, rfl⟩
  case common => rw [fn_reset]; split <;> exact ⟨rfl, rfl, rfl⟩
  case hash =>
    match i, hi with
    | 0, _ | 1, _ | 2, _ | 3, _ | 4, _ => rfl

end Sys2Proof.Machine
end

section
/-! SUPPORT. One turn of a row stream, of a program and of an event; and the fetch of one word from memory. -/

namespace Sys2Proof.Machine

/-! ## Turns -/

theorem step_issue {s : State} {core k : Nat} {rest : List Turn} (h : s.agenda = .issue core k :: rest) :
    step s = stepIssue { s with agenda := rest } core k := by
  simp only [step, takeTurn, h, stepTurn]

theorem step_program {s : State} {u : Nat} {rest : List Turn} (h : s.agenda = .program u :: rest) :
    step s = stepProgram { s with agenda := rest } u := by
  simp only [step, takeTurn, h, stepTurn]

theorem step_event {s : State} {i : Instr} {rest : List Turn} (h : s.agenda = .event i :: rest) :
    step s = exec i { s with agenda := rest, cur := .none } := by
  simp only [step, takeTurn, h, stepTurn]

/-- A row stream whose thread has an instruction to issue issues it, and then settles its row. -/
theorem stepIssue_exec {s s' : State} {core k slot : Nat} {i : Instr} (h : prepareIssue s core k = .ok (i, s', slot)) :
    stepIssue s core k = onNext (exec i s') fun s2 => { settleRow s2 core k slot with cur := .none } := by
  unfold stepIssue
  rw [h]
  dsimp only
  cases exec i s' <;> rfl

theorem stepProgram_exec {s s' : State} {u : Nat} {i : Instr} (hs : programSkipped s u = false)
    (h : prepareProgram s u = .ok (i, s')) : stepProgram s u = onNext (exec i s') fun s2 => { s2 with cur := .none } := by
  unfold stepProgram
  rw [hs, if_neg Bool.false_ne_true, h]
  dsimp only
  cases exec i s' <;> rfl

/-! ## The instruction that a row issues next -/

theorem prepareIssue_exec {s s1 : State} {core k slot : Nat} {r : Row} {more : List Nat} {t : Thread} {m : Team} {i : Instr}
    (hs : skippedNow s (clusterOf core) = false) (hr : Tab.find (s.core core).rows k = some r) (hp : r.pending = slot :: more)
    (ht : s.threadAt core slot = some t) (hm : s.team? t.team = some m) (hst : m.stage ≠ .stopping)
    (hf : fetchInstr (s.setCore core { s.core core with rotate := k }) m t r.issued = (s1, .exec i)) :
    prepareIssue s core k = .ok (i, { s1 with cur := .thread t.team t.tix }, slot) := by
  unfold prepareIssue
  rw [hs, if_neg Bool.false_ne_true, hr]
  dsimp only
  rw [hp, List.head?_cons]
  dsimp only
  rw [ht]
  dsimp only
  rw [hm]
  dsimp only
  rw [if_neg hst, hf]

theorem fetchInstr_word {s s1 : State} {m : Team} {t : Thread} {n : Nat} {w : DWord} {i : Instr} {x : List Byte}
    (hf : fetchWord s m t.core t.slot t.pc = (s1, .word w)) (hx : isXForm w = false)
    (hd : decodeBytes (leBytes 8 w.toNat) = .ok (i, x)) : fetchInstr s m t n = (s1, .exec i) := by
  unfold fetchInstr
  simp only [hf, hx, hd]
  rfl

theorem fetchInstr_xform {s s1 s2 : State} {m : Team} {t : Thread} {n : Nat} {w lit : DWord} {i : Instr} {x : List Byte}
    (hf : fetchWord s m t.core t.slot t.pc = (s1, .word w)) (hx : isXForm w = true) (hn : n < 63)
    (hl : fetchWord s1 m t.core t.slot (t.pc + 8) = (s2, .word lit))
    (hd : decodeBytes (leBytes 8 w.toNat ++ leBytes 8 lit.toNat) = .ok (i, x)) : fetchInstr s m t n = (s2, .exec i) := by
  unfold fetchInstr
  simp only [hf, hx, if_true, if_neg (show ¬ 63 ≤ n by omega), hl, hd]

theorem mInstr_word {s s1 : State} {u : Nat} {p : Program} {w : DWord} {i : Instr} {x : List Byte}
    (hf : mFetch s u p p.pc = .ok s1 w) (hx : isXForm w = false) (hd : decodeMordantBytes (leBytes 8 w.toNat) = .ok (i, x)) :
    mInstr s u p = .ok s1 i := by
  unfold mInstr
  rw [hf]
  simp only [MR.bind, hx, hd]
  rfl

/-! ## The fetch of a word from memory -/

theorem awaitRun_of_pageStarts {s : State} {pa n : Nat} (h : ∀ b ∈ pageStarts pa n, pageQueued s b = false) :
    awaitRun s pa n = s := by
  unfold awaitRun
  generalize pageStarts pa n = l at h
  induction l with
  | nil => rfl
  | cons a l ih =>
    rw [List.foldl_cons, awaitPage_quiet s a (h a (by simp))]
    exact ih fun b hb => h b (by simp [hb])

/-- The last-level cache's part in a read leaves what bytes read as. -/
theorem readByte_llcRead (s : State) (fn pa n a : Nat) : readByte (llcRead s fn pa n) a = readByte s a :=
  sameMemory_of (llcRead_mem s fn pa n) (llcRead_zeroings s fn pa n) a

theorem readBytes_congr {s s' : State} (h : SameMemory s s') (pa n : Nat) : readBytes s' pa n = readBytes s pa n :=
  List.map_congr_left fun i _ => h (pa + i)

/-- A read that waits for nothing gives the bytes that stand in memory. -/
theorem readMem_bytes {s : State} {pa n : Nat} (h : ∀ b ∈ pageStarts pa n, pageQueued s b = false) (fn : Nat) :
    (readMem s fn pa n).2 = readBytes s pa n := by
  unfold readMem
  rw [awaitRun_of_pageStarts h]
  exact readBytes_congr (readByte_llcRead s fn pa n) pa n

theorem fetchPhys_memory {s : State} {core pa : Nat} (fn : Nat) (hq : ∀ b ∈ pageStarts pa 8, pageQueued s b = false)
    (hi : Tab.find (s.core core).ic (pa / 8) = none) (hp : poisonedAt s pa 8 = false) :
    (fetchPhys s core fn pa).2 = .word (BitVec.ofNat 64 (leNat (readBytes s pa 8))) := by
  have h0 : pageQueued s pa = false := hq pa (by simp [pageStarts])
  unfold fetchPhys
  rw [h0, if_neg Bool.false_ne_true, hi]
  dsimp only
  rw [hp, if_neg Bool.false_ne_true]
  exact congrArg (fun bs => Fetched.word (BitVec.ofNat 64 (leNat bs))) (readMem_bytes hq fn)

theorem fetchWord_memory {s s1 : State} {m : Team} {core slot : Nat} {a : DWord} {l : Launch} {e : Nat} {x : Xlat} {pa : Nat}
    (hl : s.launch? m.launch = some l) (hw : l.windowOf m.num a.toNat 8 = none) (he : l.leaseOf a.toNat 8 = some e)
    (hr : leaseRights e = 3) (hx : fetchXlat s core slot l.fn a.toNat = (s1, .ok x)) (hp : (x.outAt a.toNat).phys = some pa) :
    fetchWord s m core slot a = fetchPhys s1 core l.fn pa := by
  unfold fetchWord
  simp only [hl, hw, he, hr, hx, hp]
  rfl

/-- Settles O8: the agenda's turn is taken, what it is to execute is prepared, and that is executed; a word comes from memory
where the instruction cache does not hold it. -/
theorem stepRunsDecodedInstruction : Obligations.StepRunsDecodedInstruction := by
  unfold Obligations.StepRunsDecodedInstruction
  refine ⟨fun s core k rest r slot more t m ha hs hr hp ht hm hst => ?row, ?fetch, fun s u rest i s1 ha hs hp => ?program,
    fun s u p s1 w hf hx i x hd => mInstr_word hf hx hd, fun s i rest ha => step_event ha⟩
  case row =>
    intro s0
    refine ⟨fun s1 w i x hf hx hd => ?_, fun s1 s2 w lit i x hf hx hn hl hd => ?_⟩
    · rw [step_issue ha]
      exact stepIssue_exec (prepareIssue_exec (s := { s with agenda := rest }) hs hr hp ht hm hst (fetchInstr_word hf hx hd))
    · rw [step_issue ha]
      exact stepIssue_exec (prepareIssue_exec (s := { s with agenda := rest }) hs hr hp ht hm hst (fetchInstr_xform hf hx hn hl hd))
  case fetch =>
    intro s m core slot a l e x s1 pa hl hw he hr hx hp hq hi hn
    rw [fetchWord_memory hl hw he hr hx hp]
    exact fetchPhys_memory l.fn hq hi hn
  case program =>
    rw [step_program ha]
    exact stepProgram_exec hs hp

end Sys2Proof.Machine
end

section
/-! SUPPORT. The words of instructions: fields read back as they were packed, and words as they were written in bytes. -/

namespace Sys2Proof

/-! ## Fields (R64, R65, R67, R68) -/

theorem toNat_bit (b : Bool) : bit b < 2 := by cases b <;> decide

theorem bit_beq_one (b : Bool) : (bit b == 1) = b := by cases b <;> rfl

theorem flagAt_of {w : DWord} {lo : Nat} {b : Bool} (h : w.toNat / 2 ^ lo % 2 = bit b) : flagAt w lo = b := by
  rw [flagAt, h, bit_beq_one]

theorem fieldAt_of {n : Nat} {w : DWord} {lo : Nat} {x : BitVec n} (h : w.toNat / 2 ^ lo % 2 ^ n = x.toNat) :
    fieldAt w lo n = x := by
  apply BitVec.eq_of_toNat_eq
  rw [fieldAt, BitVec.toNat_ofNat, h]

theorem toNat_packF (f : FFields) : (packF f).toNat = f.opc.toNat * 2 ^ 52 + f.d.toNat * 2 ^ 42 + f.a.toNat * 2 ^ 32 +
    f.b.toNat * 2 ^ 22 + f.c.toNat * 2 ^ 12 + bit f.pa * 2 ^ 11 + bit f.pb * 2 ^ 10 + bit f.pc * 2 ^ 9 + f.md.toNat := by
  have := f.opc.isLt; have := f.d.isLt; have := f.a.isLt; have := f.b.isLt; have := f.c.isLt; have := f.md.isLt
  have := toNat_bit f.pa; have := toNat_bit f.pb; have := toNat_bit f.pc
  rw [packF, BitVec.toNat_ofNat]
  omega

theorem unpackF_packF (f : FFields) : unpackF (packF f) = f := by
  have := f.opc.isLt; have := f.d.isLt; have := f.a.isLt; have := f.b.isLt; have := f.c.isLt; have := f.md.isLt
  have := toNat_bit f.pa; have := toNat_bit f.pb; have := toNat_bit f.pc
  have h := toNat_packF f
  obtain ⟨opc, d, a, b, c, pa, pb, pc, md⟩ := f
  simp only [unpackF, FFields.mk.injEq]
  refine ⟨fieldAt_of ?_, fieldAt_of ?_, fieldAt_of ?_, fieldAt_of ?_, fieldAt_of ?_, flagAt_of ?_, flagAt_of ?_, flagAt_of ?_,
    fieldAt_of ?_⟩ <;> dsimp only at * <;> omega

theorem toNat_packIM (f : IMFields) : (packIM f).toNat = 2 * 2 ^ 62 + f.opc.toNat * 2 ^ 54 + f.ds.toNat * 2 ^ 44 +
    f.base.toNat * 2 ^ 34 + f.imm.toNat * 2 ^ 10 + bit f.pds * 2 ^ 9 + bit f.pbase * 2 ^ 8 + f.md.toNat := by
  have := f.opc.isLt; have := f.ds.isLt; have := f.base.isLt; have := f.imm.isLt; have := f.md.isLt
  have := toNat_bit f.pds; have := toNat_bit f.pbase
  rw [packIM, BitVec.toNat_ofNat]
  omega

theorem unpackIM_packIM (f : IMFields) : unpackIM (packIM f) = f := by
  have := f.opc.isLt; have := f.ds.isLt; have := f.base.isLt; have := f.imm.isLt; have := f.md.isLt
  have := toNat_bit f.pds; have := toNat_bit f.pbase
  have h := toNat_packIM f
  obtain ⟨opc, ds, base, imm, pds, pbase, md⟩ := f
  simp only [unpackIM, IMFields.mk.injEq]
  refine ⟨fieldAt_of ?_, fieldAt_of ?_, fieldAt_of ?_, fieldAt_of ?_, flagAt_of ?_, flagAt_of ?_, fieldAt_of ?_⟩ <;>
    dsimp only at * <;> omega

theorem toNat_packIL (f : ILFields) : (packIL f).toNat = 2 * 2 ^ 62 + f.opc.toNat * 2 ^ 54 + f.ds.toNat * 2 ^ 44 +
    f.imm.toNat * 2 ^ 12 + bit f.pds * 2 ^ 11 + f.rsv.toNat * 2 ^ 8 + f.md.toNat := by
  have := f.opc.isLt; have := f.ds.isLt; have := f.imm.isLt; have := f.rsv.isLt; have := f.md.isLt
  have := toNat_bit f.pds
  rw [packIL, BitVec.toNat_ofNat]
  omega

theorem unpackIL_packIL (f : ILFields) : unpackIL (packIL f) = f := by
  have := f.opc.isLt; have := f.ds.isLt; have := f.imm.isLt; have := f.rsv.isLt; have := f.md.isLt
  have := toNat_bit f.pds
  have h := toNat_packIL f
  obtain ⟨opc, ds, imm, pds, rsv, md⟩ := f
  simp only [unpackIL, ILFields.mk.injEq]
  refine ⟨fieldAt_of ?_, fieldAt_of ?_, fieldAt_of ?_, flagAt_of ?_, fieldAt_of ?_, fieldAt_of ?_⟩ <;>
    dsimp only at * <;> omega

theorem toNat_packX (f : XFields) : (packX f).toNat = 3 * 2 ^ 62 + f.opc.toNat * 2 ^ 54 + f.d.toNat * 2 ^ 44 +
    f.rsv.toNat * 2 ^ 8 + f.md.toNat := by
  have := f.opc.isLt; have := f.d.isLt; have := f.rsv.isLt; have := f.md.isLt
  rw [packX, BitVec.toNat_ofNat]
  omega

theorem unpackX_packX (f : XFields) : unpackX (packX f) = f := by
  have := f.opc.isLt; have := f.d.isLt; have := f.rsv.isLt; have := f.md.isLt
  have h := toNat_packX f
  obtain ⟨opc, d, rsv, md⟩ := f
  simp only [unpackX, XFields.mk.injEq]
  refine ⟨fieldAt_of ?_, fieldAt_of ?_, fieldAt_of ?_, fieldAt_of ?_⟩ <;> dsimp only at * <;> omega

theorem HFields.nat_lt (h : HFields) : h.nat < 2 ^ 31 := by
  have := h.opc.isLt; have := h.d.isLt; have := h.s.isLt; have := h.md.isLt
  have := toNat_bit h.ps
  rw [HFields.nat]
  omega

theorem toNat_packP (a b : HFields) : (packP a b).toNat = 1 * 2 ^ 62 + a.nat * 2 ^ 31 + b.nat := by
  have := a.nat_lt; have := b.nat_lt
  rw [packP, BitVec.toNat_ofNat]
  omega

/-- A half is read back from any word that holds its number at its place. -/
theorem unpackH_of {w : DWord} {lo : Nat} {h : HFields} (hw : w.toNat / 2 ^ lo % 2 ^ 31 = h.nat) : unpackH w lo = h := by
  have := h.opc.isLt; have := h.d.isLt; have := h.s.isLt; have := h.md.isLt
  have := toNat_bit h.ps
  obtain ⟨opc, d, x, ps, md⟩ := h
  dsimp only [HFields.nat] at *
  simp only [unpackH, HFields.mk.injEq]
  refine ⟨fieldAt_of ?_, fieldAt_of ?_, fieldAt_of ?_, flagAt_of ?_, fieldAt_of (by omega)⟩ <;>
    rw [Nat.pow_add, ← Nat.div_div_eq_div_mul] <;> omega

theorem unpackH_packP_high (a b : HFields) : unpackH (packP a b) 31 = a := by
  have := a.nat_lt; have := b.nat_lt
  exact unpackH_of (by rw [toNat_packP]; omega)

theorem unpackH_packP_low (a b : HFields) : unpackH (packP a b) 0 = b := by
  have := a.nat_lt; have := b.nat_lt
  exact unpackH_of (by rw [toNat_packP]; omega)

/-! ## Bytes (R11) -/

theorem length_leBytes (n : Nat) : ∀ x, (leBytes n x).length = n := by
  induction n with
  | zero => intro x; rfl
  | succ n ih => intro x; simp [leBytes, ih]

theorem leNat_leBytes (n : Nat) : ∀ x, leNat (leBytes n x) = x % 256 ^ n := by
  induction n with
  | zero => intro x; simp [leBytes, leNat, Nat.mod_one]
  | succ n ih =>
    intro x
    rw [leBytes, leNat, ih, Nat.pow_succ', Nat.mod_mul, BitVec.toNat_ofNat]

theorem ofNat_leNat_leBytes (w : DWord) : BitVec.ofNat 64 (leNat (leBytes 8 w.toNat)) = w := by
  rw [leNat_leBytes]
  exact BitVec.eq_of_toNat_eq (by simpa using w.isLt)

/-! ## One word, and a word with its literal -/

theorem decodeWith_word {dec : DWord → DWord → Except DecodeErr Instr} {w : DWord} {i : Instr} (hx : isXForm w = false)
    (h : dec w 0 = .ok i) : decodeWith dec ([w].flatMap fun w => leBytes 8 w.toNat) = .ok (i, []) := by
  have ht : (leBytes 8 w.toNat).take 8 = leBytes 8 w.toNat := List.take_of_length_le (Nat.le_of_eq (length_leBytes 8 _))
  have hd : (leBytes 8 w.toNat).drop 8 = [] := List.drop_of_length_le (Nat.le_of_eq (length_leBytes 8 _))
  simp only [List.flatMap_cons, List.flatMap_nil, List.append_nil, decodeWith, length_leBytes, ht, hd, ofNat_leNat_leBytes, hx, h]
  rfl

theorem decodeWith_literal {dec : DWord → DWord → Except DecodeErr Instr} {w lit : DWord} {i : Instr} (hx : isXForm w = true)
    (h : dec w lit = .ok i) : decodeWith dec ([w, lit].flatMap fun w => leBytes 8 w.toNat) = .ok (i, []) := by
  have ht : (leBytes 8 w.toNat ++ leBytes 8 lit.toNat).take 8 = leBytes 8 w.toNat :=
    List.take_left' (length_leBytes 8 _)
  have hd : (leBytes 8 w.toNat ++ leBytes 8 lit.toNat).drop 8 = leBytes 8 lit.toNat :=
    List.drop_left' (length_leBytes 8 _)
  have ht' : (leBytes 8 lit.toNat).take 8 = leBytes 8 lit.toNat := List.take_of_length_le (Nat.le_of_eq (length_leBytes 8 _))
  have hd' : (leBytes 8 lit.toNat).drop 8 = [] := List.drop_of_length_le (Nat.le_of_eq (length_leBytes 8 _))
  simp only [List.flatMap_cons, List.flatMap_nil, List.append_nil, decodeWith, List.length_append, length_leBytes, ht, hd, ht', hd',
    ofNat_leNat_leBytes, hx, h]
  rfl

/-! ## The form of a packed word (R63) -/

theorem form_packF (f : FFields) : (packF f).toNat / 2 ^ 62 = 0 := by
  have := f.opc.isLt; have := f.d.isLt; have := f.a.isLt; have := f.b.isLt; have := f.c.isLt; have := f.md.isLt
  have := toNat_bit f.pa; have := toNat_bit f.pb; have := toNat_bit f.pc
  rw [toNat_packF]
  omega

theorem form_packP (a b : HFields) : (packP a b).toNat / 2 ^ 62 = 1 := by
  have := a.nat_lt; have := b.nat_lt
  rw [toNat_packP]
  omega

theorem form_packIM (f : IMFields) : (packIM f).toNat / 2 ^ 62 = 2 ∧ (packIM f).toNat / 2 ^ 54 % 256 = f.opc.toNat := by
  have := f.opc.isLt; have := f.ds.isLt; have := f.base.isLt; have := f.imm.isLt; have := f.md.isLt
  have := toNat_bit f.pds; have := toNat_bit f.pbase
  rw [toNat_packIM]
  omega

theorem form_packIL (f : ILFields) : (packIL f).toNat / 2 ^ 62 = 2 ∧ (packIL f).toNat / 2 ^ 54 % 256 = f.opc.toNat := by
  have := f.opc.isLt; have := f.ds.isLt; have := f.imm.isLt; have := f.rsv.isLt; have := f.md.isLt
  have := toNat_bit f.pds
  rw [toNat_packIL]
  omega

theorem form_packX (f : XFields) : (packX f).toNat / 2 ^ 62 = 3 := by
  have := f.opc.isLt; have := f.d.isLt; have := f.rsv.isLt; have := f.md.isLt
  rw [toNat_packX]
  omega

/-! ## Words of the two maps, decoded from their bytes -/

/-- The code bytes of some words. -/
abbrev bytesOf (ws : List DWord) : List Byte := ws.flatMap fun w => leBytes 8 w.toNat

theorem decodeBytes_packF {f : FFields} {i : Instr} (h : decodeF f = .ok i) : decodeBytes (bytesOf [packF f]) = .ok (i, []) :=
  decodeWith_word (by rw [isXForm, form_packF]; rfl) (by rw [decodeThread, form_packF, unpackF_packF, h]; rfl)

theorem decodeBytes_packP {a b : HFields} {i : Instr} (h : decodeP a b = .ok i) :
    decodeBytes (bytesOf [packP a b]) = .ok (i, []) :=
  decodeWith_word (by rw [isXForm, form_packP]; rfl)
    (by rw [decodeThread, form_packP, unpackH_packP_high, unpackH_packP_low, h]; rfl)

theorem decodeBytes_packIM {f : IMFields} {i : Instr} (ho : f.opc.toNat < 0x40) (h : decodeIM f = .ok i) :
    decodeBytes (bytesOf [packIM f]) = .ok (i, []) :=
  decodeWith_word (by rw [isXForm, (form_packIM f).1]; rfl)
    (by rw [decodeThread, (form_packIM f).1, (form_packIM f).2, if_pos ho, unpackIM_packIM, h]; rfl)

theorem decodeBytes_packIL {f : ILFields} {i : Instr} (ho : ¬ f.opc.toNat < 0x40) (h : decodeIL f = .ok i) :
    decodeBytes (bytesOf [packIL f]) = .ok (i, []) :=
  decodeWith_word (by rw [isXForm, (form_packIL f).1]; rfl)
    (by rw [decodeThread, (form_packIL f).1, (form_packIL f).2, if_neg ho, unpackIL_packIL, h]; rfl)

theorem decodeBytes_packX {f : XFields} {lit : DWord} {i : Instr} (h : decodeX f lit = .ok i) :
    decodeBytes (bytesOf [packX f, lit]) = .ok (i, []) :=
  decodeWith_literal (by rw [isXForm, form_packX]; rfl) (by rw [decodeThread, form_packX, unpackX_packX]; exact h)

theorem decodeMordantBytes_packF {f : FFields} {i : Instr} (h : decodeMF f = .ok i) :
    decodeMordantBytes (bytesOf [packF f]) = .ok (i, []) :=
  decodeWith_word (by rw [isXForm, form_packF]; rfl) (by rw [decodeMordant, form_packF, unpackF_packF, h]; rfl)

theorem decodeMordantBytes_packIM {f : IMFields} {i : Instr} (ho : f.opc.toNat < 0x40) (h : decodeMIM f = .ok i) :
    decodeMordantBytes (bytesOf [packIM f]) = .ok (i, []) :=
  decodeWith_word (by rw [isXForm, (form_packIM f).1]; rfl)
    (by rw [decodeMordant, (form_packIM f).1, (form_packIM f).2, if_pos ho, unpackIM_packIM, h]; rfl)

theorem decodeMordantBytes_packIL {f : ILFields} {i : Instr} (ho : ¬ f.opc.toNat < 0x40) (h : decodeMIL f = .ok i) :
    decodeMordantBytes (bytesOf [packIL f]) = .ok (i, []) :=
  decodeWith_word (by rw [isXForm, (form_packIL f).1]; rfl)
    (by rw [decodeMordant, (form_packIL f).1, (form_packIL f).2, if_neg ho, unpackIL_packIL, h]; rfl)

theorem decodeMordantBytes_packX {f : XFields} {lit : DWord} {i : Instr} (h : decodeMX f lit = .ok i) :
    decodeMordantBytes (bytesOf [packX f, lit]) = .ok (i, []) :=
  decodeWith_literal (by rw [isXForm, form_packX]; rfl) (by rw [decodeMordant, form_packX, unpackX_packX]; exact h)

end Sys2Proof
end

section
/-! SUPPORT. Codes and modifier numbers: each field of a decoder reads back what the encoder wrote there. -/

namespace Sys2Proof

/-! ## Codes (R71 to R73) -/

theorem Ty.code_lt (t : Ty) : t.code < 11 := by cases t <;> decide
theorem FTy.code_lt (t : FTy) : t.code < 3 := by cases t <;> decide
theorem RM.code_lt (r : RM) : r.code < 4 := by cases r <;> decide
theorem Scope.code_lt (s : Scope) : s.code < 7 := by cases s <;> decide
theorem Width.code_lt (w : Width) : w.code < 5 := by cases w <;> decide
theorem Cls.code_lt (c : Cls) : c.code < 5 := by cases c <;> decide
theorem Cond.code_lt (c : Cond) : c.code < 6 := by cases c <;> decide
theorem FCond.code_lt (c : FCond) : c.code < 8 := by cases c <;> decide
theorem AOp.code_lt (o : AOp) : o.code < 9 := by cases o <;> decide
theorem FenceKind.code_lt (k : FenceKind) : k.code < 3 := by cases k <;> decide
theorem ShflMode.code_lt (m : ShflMode) : m.code < 4 := by cases m <;> decide
theorem VoteMode.code_lt (m : VoteMode) : m.code < 4 := by cases m <;> decide
theorem RedOp.code_lt (o : RedOp) : o.code < 6 := by cases o <;> decide
theorem TlbKind.code_lt (k : TlbKind) : k.code < 4 := by cases k <;> decide
theorem CoreSel.code_lt (c : CoreSel) : c.code < 8 := by cases c <;> decide
theorem ArrKind.code_lt (k : ArrKind) : k.code < 3 := by cases k <;> decide
theorem DescField.code_lt (k : DescField) : k.code < 6 := by cases k <;> decide
theorem FxOp.code_lt (o : FxOp) : o.code < 3 := by cases o <;> decide
theorem FxTy.code_lt (t : FxTy) : t.code < 3 := by cases t <;> decide
theorem PairOp.code_lt (o : PairOp) : o.code < 128 := by cases o <;> decide

section
variable {n : Nat}

theorem Ty.ofCode_of {t : Ty} (h : n = t.code) : Ty.ofCode n = some t := by subst h; cases t <;> rfl
theorem FTy.ofCode_of {t : FTy} (h : n = t.code) : FTy.ofCode n = some t := by subst h; cases t <;> rfl
theorem RM.ofCode_of {r : RM} (h : n = r.code) : RM.ofCode n = some r := by subst h; cases r <;> rfl
theorem Scope.ofCode_of {s : Scope} (h : n = s.code) : Scope.ofCode n = some s := by subst h; cases s <;> rfl
theorem Width.ofCode_of {w : Width} (h : n = w.code) : Width.ofCode n = some w := by subst h; cases w <;> rfl
theorem Cls.ofCode_of {c : Cls} (h : n = c.code) : Cls.ofCode n = some c := by subst h; cases c <;> rfl
theorem Cond.ofCode_of {c : Cond} (h : n = c.code) : Cond.ofCode n = some c := by subst h; cases c <;> rfl
theorem FCond.ofCode_of {c : FCond} (h : n = c.code) : FCond.ofCode n = some c := by subst h; cases c <;> rfl
theorem AOp.ofCode_of {o : AOp} (h : n = o.code) : AOp.ofCode n = some o := by subst h; cases o <;> rfl
theorem FenceKind.ofCode_of {k : FenceKind} (h : n = k.code) : FenceKind.ofCode n = some k := by subst h; cases k <;> rfl
theorem ShflMode.ofCode_of {m : ShflMode} (h : n = m.code) : ShflMode.ofCode n = some m := by subst h; cases m <;> rfl
theorem VoteMode.ofCode_of {m : VoteMode} (h : n = m.code) : VoteMode.ofCode n = Option.some m := by subst h; cases m <;> rfl
theorem RedOp.ofCode_of {o : RedOp} (h : n = o.code) : RedOp.ofCode n = some o := by subst h; cases o <;> rfl
theorem TlbKind.ofCode_of {k : TlbKind} (h : n = k.code) : TlbKind.ofCode n = some k := by subst h; cases k <;> rfl
theorem CoreSel.ofCode_of {c : CoreSel} (h : n = c.code) : CoreSel.ofCode n = some c := by subst h; cases c <;> rfl
theorem ArrKind.ofCode_of {k : ArrKind} (h : n = k.code) : ArrKind.ofCode n = some k := by subst h; cases k <;> rfl
theorem DescField.ofCode_of {k : DescField} (h : n = k.code) : DescField.ofCode n = some k := by subst h; cases k <;> rfl
theorem FxOp.ofCode_of {o : FxOp} (h : n = o.code) : FxOp.ofCode n = some o := by subst h; cases o <;> rfl
theorem FxTy.ofCode_of {t : FxTy} (h : n = t.code) : FxTy.ofCode n = some t := by subst h; cases t <;> rfl
theorem PairOp.ofCode_of {o : PairOp} (h : n = o.code) : PairOp.ofCode n = some o := by subst h; cases o <;> rfl

/-- The codes that stand for some of the constructors alone. -/
theorem FTy.ofPCode_of {t : FTy} (hp : t.packed = true) (h : n = t.pcode) : FTy.ofPCode n = some t := by
  subst h; revert hp; cases t <;> decide
theorem Ty.ofAtCode_of {t : Ty} (hq : (t.inX || t.inQ) = true) (h : n = t.atCode) : Ty.ofAtCode n = some t := by
  subst h; revert hq; cases t <;> decide
theorem Width.ofMcCode_of {w : Width} (hw : w ≠ .w128) (h : n = w.mcCode) : Width.ofMcCode n = some w := by
  subst h; revert hw; cases w <;> decide

theorem flag_of {b : Bool} (h : n = bit b) : (n == 1) = b := by rw [h, bit_beq_one]
theorem num_of {k : Nat} {x : BitVec k} (h : n = x.toNat) : BitVec.ofNat k n = x := by rw [h, BitVec.ofNat_toNat, BitVec.setWidth_eq]
theorem beq_of {k : Nat} (h : n = k) : (n == k) = true := by simp [h]
theorem not_flag_of (h : n = 0) : (!(n == 1)) = true := by subst h; rfl

end

theorem Ty.atCode_lt_of {t : Ty} (hq : (t.inX || t.inQ) = true) : t.atCode < 4 := by
  revert hq; cases t <;> decide
theorem Width.mcCode_lt_of {w : Width} (hw : w ≠ .w128) : w.mcCode < 4 := by
  revert hw; cases w <;> decide
theorem FTy.pcode_lt_of {t : FTy} (hp : t.packed = true) : t.pcode < 2 := by
  revert hp; cases t <;> decide

@[simp] theorem bit_false : bit false = 0 := rfl
@[simp] theorem bit_true : bit true = 1 := rfl

/-- An operation of an atomic that is legal has a type of the atomics. -/
theorem AOp.legal_type {o : AOp} {t : Ty} (h : o.legal t = true) : (t.inX || t.inQ) = true := by
  revert h; cases o <;> cases t <;> decide

/-! ## The decoders' steps -/

theorem decoded_ok {z : Bool} {x : Option Instr} {i : Instr} (hw : i.wf = true) (hz : z = true) (hx : x = some i) :
    decoded z x = .ok i := by
  subst hz hx
  simp [decoded, hw]

theorem bind_of {α β : Type} {x : Option α} {a : α} {k : α → Option β} {r : Option β} (hx : x = some a) (hk : k a = r) : x.bind k = r := by
  subst hx; exact hk

theorem map_of {α β : Type} {x : Option α} {a : α} {k : α → β} {r : β} (hx : x = some a) (hk : k a = r) : x.map k = some r := by
  subst hx hk; rfl

theorem some_of₃ {α β γ : Type} (k : α → β → γ → Instr) {a a' : α} {b b' : β} {c c' : γ} (ha : a = a') (hb : b = b') (hc : c = c') :
    some (k a b c) = some (k a' b' c') := by
  subst ha hb hc; rfl

theorem and_of {a b : Bool} (ha : a = true) (hb : b = true) : (a && b) = true := by
  subst ha hb; rfl

theorem FFields.fmod_of {f : FFields} {m : FMod} (ht : f.mh 7 = m.ty.code) (hr : f.mr 5 2 = m.rm.code)
    (hz : f.mr 4 1 = bit m.ftz) : f.fmod = some m := by
  rw [fmod, fty, FTy.ofCode_of ht, RM.ofCode_of hr, ftz, flag_of hz]
  rfl

theorem FFields.pmod_of {f : FFields} {m : FMod} (hp : m.ty.packed = true) (ht : f.mh 7 = m.ty.pcode)
    (hr : f.mr 5 2 = m.rm.code) (hz : f.mr 4 1 = bit m.ftz) : f.pmod = some m := by
  rw [pmod, pty, FTy.ofPCode_of hp ht, RM.ofCode_of hr, ftz, flag_of hz]
  rfl

/-! ## MOD written from a number -/

section
variable {opc : BitVec 10} {d a b c : Reg} {pa pb pc : Bool} {n : Nat}

@[simp] theorem FFields.mh_mk (k : Nat) : FFields.mh ⟨opc, d, a, b, c, pa, pb, pc, BitVec.ofNat 9 n⟩ k = n % 2 ^ 9 / 2 ^ k := by
  rw [FFields.mh, BitVec.toNat_ofNat]
@[simp] theorem FFields.ml_mk (k : Nat) : FFields.ml ⟨opc, d, a, b, c, pa, pb, pc, BitVec.ofNat 9 n⟩ k = n % 2 ^ 9 % 2 ^ k := by
  rw [FFields.ml, BitVec.toNat_ofNat]
@[simp] theorem FFields.mr_mk (l k : Nat) :
    FFields.mr ⟨opc, d, a, b, c, pa, pb, pc, BitVec.ofNat 9 n⟩ l k = n % 2 ^ 9 / 2 ^ l % 2 ^ k := by
  rw [FFields.mr, BitVec.toNat_ofNat]

end

end Sys2Proof
end

section
/-! SUPPORT. The words of threads: each is decoded from its code bytes as the instruction that it is. -/

namespace Sys2Proof

/-- A branch offset is sign-copied where the word holds it sign-extended, and is read back (R70). -/
theorem offsetOk_signExtend (off : BitVec 24) : offsetOk (off.signExtend 32) = true := by
  have := off.isLt
  rw [offsetOk, BitVec.toNat_signExtend, BitVec.msb_eq_decide]
  simp only [BitVec.toNat_setWidth, Bool.or_eq_true, beq_iff_eq]
  by_cases h : 2 ^ (24 - 1) ≤ off.toNat
  · rw [if_pos (by simpa using h)]; omega
  · rw [if_neg (by simpa using h)]; omega

theorem offsetOf_signExtend (off : BitVec 24) : offsetOf (off.signExtend 32) = off := by
  have := off.isLt
  apply BitVec.eq_of_toNat_eq
  rw [offsetOf, BitVec.toNat_ofNat, BitVec.toNat_signExtend]
  simp only [BitVec.toNat_setWidth]
  split <;> omega

theorem PairOp.code_eq (h : Half) : h.fields.opc.toNat = h.op.code := by
  have := h.op.code_lt
  rw [Half.fields, BitVec.toNat_ofNat]
  omega

theorem decodeP_fields {ha hb : Half} (hw : (Instr.pairWord ha hb).wf = true) :
    decodeP ha.fields hb.fields = .ok (.pairWord ha hb) := by
  simp only [Instr.wf, Bool.and_eq_true] at hw
  obtain ⟨⟨hbank, hma⟩, hmb⟩ := hw
  rw [decodeP, PairOp.ofCode_of (PairOp.code_eq ha), PairOp.ofCode_of (PairOp.code_eq hb)]
  exact (if_pos (by rw [Bool.and_eq_true]; exact ⟨hma, hmb⟩)).trans (if_pos hbank)

/-! ## Words of threads, by constructor -/

theorem decodeBytes_encodeBytes (i : Instr) (hw : i.wf = true) (he : i.isEvent = false) (hm : Machine.Instr.ofMordant i = false) :
    decodeBytes (encodeBytes i) = .ok (i, []) := by
  cases i with
  | add t | sub t | mul t | mulh t | div t | rem t | min t | max t | bfe t | shr64 t | addc t | subb t | mad t | idp4 t | abs t
  | neg t =>
    have := t.code_lt
    refine decodeBytes_packF (decoded_ok hw (beq_of ?_) (congrArg (Option.map _) (Ty.ofCode_of ?_))) <;>
      simp only [FFields.mh_mk, FFields.ml_mk] <;> omega
  | and | or | xor | andn | orn | shl | shr | sar | rot | not | clz | ctz | popc | brev | bfi | bperm | sel | add64 | sub64
  | mul64 | shl64 | mov => exact decodeBytes_packF (decoded_ok hw rfl rfl)
  | cmp cc t | cmp64 cc t =>
    have := t.code_lt
    have := cc.code_lt
    refine decodeBytes_packF (decoded_ok hw (beq_of ?_)
      (bind_of (Ty.ofCode_of ?_) (congrArg (Option.map _) (Cond.ofCode_of ?_)))) <;>
      simp only [FFields.mh_mk, FFields.ml_mk, FFields.mr_mk] <;> omega
  | lea nat s d a b =>
    have := s.isLt
    have := toNat_bit nat
    refine decodeBytes_packF (decoded_ok hw (beq_of ?_)
      (congr_two (fun x y => some (Instr.lea x y d a b)) (flag_of ?_) (num_of ?_))) <;>
      simp only [FFields.mh_mk, FFields.ml_mk, FFields.mr_mk] <;> omega
  | movi => exact decodeBytes_packIL (of_decide_eq_false rfl) (decoded_ok hw rfl rfl)
  | movp => exact decodeBytes_packX (decoded_ok hw rfl rfl)
  | addImm t | mulImm t | minImm t | maxImm t =>
    have := t.code_lt
    refine decodeBytes_packIM (of_decide_eq_true rfl)
      (decoded_ok hw (beq_of ?_) (congrArg (Option.map _) (Ty.ofCode_of ?_))) <;> simp only [BitVec.toNat_ofNat] <;> omega
  | andImm | orImm | xorImm | shlImm | shrImm | sarImm =>
    exact decodeBytes_packIM (of_decide_eq_true rfl) (decoded_ok hw rfl rfl)
  | cmpImm cc t =>
    have := t.code_lt
    have := cc.code_lt
    refine decodeBytes_packIM (of_decide_eq_true rfl)
      (decoded_ok hw rfl (bind_of (Ty.ofCode_of ?_) (congrArg (Option.map _) (Cond.ofCode_of ?_)))) <;>
      simp only [BitVec.toNat_ofNat] <;> omega
  | pairWord ha hb => exact decodeBytes_packP (decodeP_fields hw)
  | fadd m | fsub m | fmul m | ffma m | fdiv m | fldexp m | frcp m | frsq m | fsqrt m | fexp2 m | flog2 m | frnd m =>
    have := m.ty.code_lt
    have := m.rm.code_lt
    have := toNat_bit m.ftz
    refine decodeBytes_packF (decoded_ok hw (beq_of ?_) (congrArg (Option.map _) (FFields.fmod_of ?_ ?_ ?_))) <;>
      simp only [FFields.mh_mk, FFields.ml_mk, FFields.mr_mk, FMod.md] <;> omega
  | hadd2 m | hsub2 m | hmul2 m | hfma2 m | fdp2 m =>
    have := FTy.pcode_lt_of hw
    have := m.rm.code_lt
    have := toNat_bit m.ftz
    refine decodeBytes_packF (decoded_ok hw (beq_of ?_) (congrArg (Option.map _) (FFields.pmod_of hw ?_ ?_ ?_))) <;>
      simp only [FFields.mh_mk, FFields.ml_mk, FFields.mr_mk, FMod.pmd] <;> omega
  | fmin t z d a b =>
    have := t.code_lt
    have := toNat_bit z
    refine decodeBytes_packF (decoded_ok hw (and_of (beq_of ?_) (beq_of ?_))
      (map_of (FTy.ofCode_of ?_) (congrArg (Instr.fmin t · d a b) (flag_of ?_)))) <;>
      simp only [FFields.mh_mk, FFields.ml_mk, FFields.mr_mk] <;> omega
  | fmax t z d a b =>
    have := t.code_lt
    have := toNat_bit z
    refine decodeBytes_packF (decoded_ok hw (and_of (beq_of ?_) (beq_of ?_))
      (map_of (FTy.ofCode_of ?_) (congrArg (Instr.fmax t · d a b) (flag_of ?_)))) <;>
      simp only [FFields.mh_mk, FFields.ml_mk, FFields.mr_mk] <;> omega
  | fgetexp t z d a =>
    have := t.code_lt
    have := toNat_bit z
    refine decodeBytes_packF (decoded_ok hw (and_of (beq_of ?_) (beq_of ?_))
      (map_of (FTy.ofCode_of ?_) (congrArg (Instr.fgetexp t · d a) (flag_of ?_)))) <;>
      simp only [FFields.mh_mk, FFields.ml_mk, FFields.mr_mk] <;> omega
  | fabs t | fneg t | fclass t =>
    have := t.code_lt
    refine decodeBytes_packF (decoded_ok hw (and_of (and_of (beq_of ?_) (beq_of ?_)) (beq_of ?_))
      (congrArg (Option.map _) (FTy.ofCode_of ?_))) <;> simp only [FFields.mh_mk, FFields.ml_mk, FFields.mr_mk] <;> omega
  | fcmp cc t z d a b =>
    have := t.code_lt
    have := cc.code_lt
    have := toNat_bit z
    refine decodeBytes_packF (decoded_ok hw (beq_of ?_) (bind_of (FTy.ofCode_of ?_)
      (map_of (FCond.ofCode_of ?_) (congrArg (Instr.fcmp cc t · d a b) (flag_of ?_))))) <;>
      simp only [FFields.mh_mk, FFields.ml_mk, FFields.mr_mk] <;> omega
  | hmin2 t z d a b =>
    have := FTy.pcode_lt_of hw
    have := toNat_bit z
    refine decodeBytes_packF (decoded_ok hw (and_of (beq_of ?_) (beq_of ?_))
      (map_of (FTy.ofPCode_of hw ?_) (congrArg (Instr.hmin2 t · d a b) (flag_of ?_)))) <;>
      simp only [FFields.mh_mk, FFields.ml_mk, FFields.mr_mk] <;> omega
  | hmax2 t z d a b =>
    have := FTy.pcode_lt_of hw
    have := toNat_bit z
    refine decodeBytes_packF (decoded_ok hw (and_of (beq_of ?_) (beq_of ?_))
      (map_of (FTy.ofPCode_of hw ?_) (congrArg (Instr.hmax2 t · d a b) (flag_of ?_)))) <;>
      simp only [FFields.mh_mk, FFields.ml_mk, FFields.mr_mk] <;> omega
  | hcmp2 cc t z d a b =>
    have := FTy.pcode_lt_of hw
    have := cc.code_lt
    have := toNat_bit z
    refine decodeBytes_packF (decoded_ok hw (beq_of ?_) (bind_of (FTy.ofPCode_of hw ?_)
      (map_of (FCond.ofCode_of ?_) (congrArg (Instr.hcmp2 cc t · d a b) (flag_of ?_))))) <;>
      simp only [FFields.mh_mk, FFields.ml_mk, FFields.mr_mk] <;> omega
  | cvt dt sr z d a =>
    have := dt.code_lt
    have := sr.code_lt
    have := toNat_bit z
    refine decodeBytes_packF (decoded_ok hw rfl (bind_of (Ty.ofCode_of ?_)
      (map_of (Ty.ofCode_of ?_) (congrArg (Instr.cvt dt sr · d a) (flag_of ?_))))) <;>
      simp only [FFields.mh_mk, FFields.ml_mk, FFields.mr_mk] <;> omega
  | bqenc w d a b =>
    have := w.isLt
    refine decodeBytes_packF (decoded_ok hw (beq_of ?_) (congrArg (fun x => some (Instr.bqenc x d a b)) (num_of ?_))) <;>
      simp only [FFields.mh_mk, FFields.ml_mk] <;> omega
  | bqdec w d a b =>
    have := w.isLt
    refine decodeBytes_packF (decoded_ok hw (beq_of ?_) (congrArg (fun x => some (Instr.bqdec x d a b)) (num_of ?_))) <;>
      simp only [FFields.mh_mk, FFields.ml_mk] <;> omega
  | cvtRz dt sr z d a =>
    have := dt.code_lt
    have := sr.code_lt
    have := toNat_bit z
    refine decodeBytes_packF (decoded_ok hw rfl (bind_of (Ty.ofCode_of ?_)
      (map_of (Ty.ofCode_of ?_) (congrArg (Instr.cvtRz dt sr · d a) (flag_of ?_))))) <;>
      simp only [FFields.mh_mk, FFields.ml_mk, FFields.mr_mk] <;> omega
  | cvtRu dt sr z d a =>
    have := dt.code_lt
    have := sr.code_lt
    have := toNat_bit z
    refine decodeBytes_packF (decoded_ok hw rfl (bind_of (Ty.ofCode_of ?_)
      (map_of (Ty.ofCode_of ?_) (congrArg (Instr.cvtRu dt sr · d a) (flag_of ?_))))) <;>
      simp only [FFields.mh_mk, FFields.ml_mk, FFields.mr_mk] <;> omega
  | cvtRd dt sr z d a =>
    have := dt.code_lt
    have := sr.code_lt
    have := toNat_bit z
    refine decodeBytes_packF (decoded_ok hw rfl (bind_of (Ty.ofCode_of ?_)
      (map_of (Ty.ofCode_of ?_) (congrArg (Instr.cvtRd dt sr · d a) (flag_of ?_))))) <;>
      simp only [FFields.mh_mk, FFields.ml_mk, FFields.mr_mk] <;> omega
  | br off =>
    exact decodeBytes_packIL (of_decide_eq_false rfl)
      (decoded_ok hw (offsetOk_signExtend off) (congrArg (some ∘ Instr.br) (offsetOf_signExtend off)))
  | call d off =>
    exact decodeBytes_packIL (of_decide_eq_false rfl)
      (decoded_ok hw (offsetOk_signExtend off) (congrArg (some ∘ Instr.call d) (offsetOf_signExtend off)))
  | brc z c off =>
    have := toNat_bit z
    refine decodeBytes_packIL (of_decide_eq_false rfl) (decoded_ok hw (and_of (decide_eq_true ?_) (offsetOk_signExtend off))
      (congr_two (fun x o => some (Instr.brc x c o)) (flag_of ?_) (offsetOf_signExtend off))) <;>
      simp only [BitVec.toNat_ofNat] <;> omega
  | brx | calli | ret | exit | tret | ifence | vtest | bqmax | phase | cbinit | cbwait | cbtest | dqpush | dqpop | dqsteal | dqidle
  | spawn | rdclk | yield | sleep | mdgo | mdkill | mdstat | eret => exact decodeBytes_packF (decoded_ok hw rfl rfl)
  | trap g n =>
    have := toNat_bit g
    have := n.isLt
    refine decodeBytes_packF (decoded_ok hw rfl (congr_two (fun x y => some (Instr.trap x y)) (flag_of ?_) (num_of ?_))) <;>
      simp only [FFields.mh_mk, FFields.ml_mk] <;> omega
  | nop c =>
    have := toNat_bit c
    refine decodeBytes_packF (decoded_ok hw (beq_of ?_) (congrArg (fun x => some (Instr.nop x)) (flag_of ?_))) <;>
      simp only [FFields.mh_mk, FFields.ml_mk] <;> omega
  | ballot g d a =>
    have := toNat_bit g
    refine decodeBytes_packF (decoded_ok hw (beq_of ?_) (congrArg (fun x => some (Instr.ballot x d a)) (flag_of ?_))) <;>
      simp only [FFields.mh_mk, FFields.ml_mk] <;> omega
  | ld w sc sx nt d base imm =>
    have := w.code_lt
    have := sc.code_lt
    have := toNat_bit sx
    have := toNat_bit nt
    refine decodeBytes_packIM (of_decide_eq_true rfl) (decoded_ok hw rfl (bind_of (Scope.ofCode_of ?_) (map_of (Width.ofCode_of ?_)
      (congr_two (Instr.ld w sc · · d base imm) (flag_of ?_) (flag_of ?_))))) <;> simp only [BitVec.toNat_ofNat, memMd] <;> omega
  | st w sc nt v base imm =>
    have := w.code_lt
    have := sc.code_lt
    have := toNat_bit nt
    refine decodeBytes_packIM (of_decide_eq_true rfl) (decoded_ok hw (not_flag_of ?_) (bind_of (Scope.ofCode_of ?_)
      (map_of (Width.ofCode_of ?_) (congrArg (Instr.st w sc · v base imm) (flag_of ?_))))) <;>
      simp only [BitVec.toNat_ofNat, memMd, bit_false] <;> omega
  | lds w sc sx d base imm =>
    have := w.code_lt
    have := sc.code_lt
    have := toNat_bit sx
    refine decodeBytes_packIM (of_decide_eq_true rfl) (decoded_ok hw (not_flag_of ?_) (bind_of (Scope.ofCode_of ?_)
      (map_of (Width.ofCode_of ?_) (congrArg (Instr.lds w sc · d base imm) (flag_of ?_))))) <;>
      simp only [BitVec.toNat_ofNat, memMd, bit_false] <;> omega
  | sts w sc v base imm =>
    have := w.code_lt
    have := sc.code_lt
    refine decodeBytes_packIM (of_decide_eq_true rfl) (decoded_ok hw (and_of (not_flag_of ?_) (not_flag_of ?_))
      (bind_of (Scope.ofCode_of ?_) (congrArg (Option.map _) (Width.ofCode_of ?_)))) <;>
      simp only [BitVec.toNat_ofNat, memMd, bit_false] <;> omega
  | ldc w sx d base imm =>
    have := w.code_lt
    have := toNat_bit sx
    refine decodeBytes_packIM (of_decide_eq_true rfl) (decoded_ok hw (and_of (not_flag_of ?_) (decide_eq_true ?_))
      (map_of (Width.ofCode_of ?_) (congrArg (Instr.ldc w · d base imm) (flag_of ?_)))) <;>
      simp only [BitVec.toNat_ofNat, memMd, bit_false, Scope.code] <;> omega
  | pf nt base imm =>
    have := toNat_bit nt
    refine decodeBytes_packIM (of_decide_eq_true rfl) (decoded_ok hw (decide_eq_true ?_)
      (congrArg (fun x => some (Instr.pf x base imm)) (flag_of ?_))) <;> simp only [BitVec.toNat_ofNat] <;> omega
  | atom op t sc =>
    have hq := AOp.legal_type hw
    have := sc.code_lt
    have := op.code_lt
    have := Ty.atCode_lt_of hq
    refine decodeBytes_packF (decoded_ok hw rfl (bind_of (Scope.ofCode_of ?_) (bind_of (AOp.ofCode_of ?_)
      (congrArg (Option.map _) (Ty.ofAtCode_of hq ?_))))) <;>
      simp only [FFields.mh_mk, FFields.ml_mk, FFields.mr_mk] <;> omega
  | atoms op t sc =>
    have hq := AOp.legal_type (Bool.and_eq_true_iff.mp hw).1
    have := sc.code_lt
    have := op.code_lt
    have := Ty.atCode_lt_of hq
    refine decodeBytes_packF (decoded_ok hw rfl (bind_of (Scope.ofCode_of ?_) (bind_of (AOp.ofCode_of ?_)
      (congrArg (Option.map _) (Ty.ofAtCode_of hq ?_))))) <;>
      simp only [FFields.mh_mk, FFields.ml_mk, FFields.mr_mk] <;> omega
  | cas t sc =>
    have := sc.code_lt
    have := Ty.atCode_lt_of hw
    refine decodeBytes_packF (decoded_ok hw (beq_of ?_) (bind_of (Scope.ofCode_of ?_)
      (congrArg (Option.map _) (Ty.ofAtCode_of hw ?_)))) <;>
      simp only [FFields.mh_mk, FFields.ml_mk, FFields.mr_mk] <;> omega
  | cass t sc =>
    have hq := (Bool.and_eq_true_iff.mp hw).1
    have := sc.code_lt
    have := Ty.atCode_lt_of hq
    refine decodeBytes_packF (decoded_ok hw (beq_of ?_) (bind_of (Scope.ofCode_of ?_)
      (congrArg (Option.map _) (Ty.ofAtCode_of hq ?_)))) <;>
      simp only [FFields.mh_mk, FFields.ml_mk, FFields.mr_mk] <;> omega
  | fence k sc =>
    have := sc.code_lt
    have := k.code_lt
    refine decodeBytes_packF (decoded_ok hw (beq_of ?_) (bind_of (Scope.ofCode_of ?_)
      (congrArg (Option.map _) (FenceKind.ofCode_of ?_)))) <;>
      simp only [FFields.mh_mk, FFields.ml_mk, FFields.mr_mk] <;> omega
  | wcnt c n =>
    have := c.code_lt
    have := n.isLt
    refine decodeBytes_packF (decoded_ok hw rfl (map_of (Cls.ofCode_of ?_) (congrArg (Instr.wcnt c) (num_of ?_)))) <;>
      simp only [FFields.mh_mk, FFields.ml_mk] <;> omega
  | vmark win k d a =>
    have := toNat_bit win
    have := k.isLt
    refine decodeBytes_packF (decoded_ok hw (and_of (beq_of ?_) ?reserved)
      (congr_two (fun x y => some (Instr.vmark x y d a)) (flag_of ?_) (num_of ?_)))
    case reserved =>
      cases win with
      | false => exact Bool.or_eq_true_iff.mpr (.inl (beq_of (by simp only [FFields.ml_mk, bit_false]; omega)))
      | true =>
        obtain rfl : a = Src.none := of_decide_eq_true hw
        exact Bool.or_eq_true_iff.mpr (.inr rfl)
    all_goals simp only [FFields.mh_mk, FFields.ml_mk, FFields.mr_mk]; omega
  | shfl m =>
    have := m.code_lt
    refine decodeBytes_packF (decoded_ok hw (beq_of ?_) (congrArg (Option.map _) (ShflMode.ofCode_of ?_))) <;>
      simp only [FFields.mh_mk, FFields.ml_mk] <;> omega
  | vote m =>
    have := m.code_lt
    refine decodeBytes_packF (decoded_ok hw (beq_of ?_) (congrArg (Option.map _) (VoteMode.ofCode_of ?_))) <;>
      simp only [FFields.mh_mk, FFields.ml_mk] <;> omega
  | redux op t =>
    have := t.code_lt
    have := op.code_lt
    refine decodeBytes_packF (decoded_ok hw (beq_of ?_) (bind_of (Ty.ofCode_of ?_)
      (congrArg (Option.map _) (RedOp.ofCode_of ?_)))) <;> simp only [FFields.mh_mk, FFields.ml_mk, FFields.mr_mk] <;> omega
  | gscan op t ex d a =>
    have := t.code_lt
    have := op.code_lt
    have := toNat_bit ex
    refine decodeBytes_packF (decoded_ok hw rfl (bind_of (Ty.ofCode_of ?_)
      (map_of (RedOp.ofCode_of ?_) (congrArg (Instr.gscan op t · d a) (flag_of ?_))))) <;>
      simp only [FFields.mh_mk, FFields.ml_mk, FFields.mr_mk] <;> omega
  | bar sc | cbarr sc =>
    have := sc.code_lt
    refine decodeBytes_packF (decoded_ok hw (beq_of ?_) (congrArg (Option.map _) (Scope.ofCode_of ?_))) <;>
      simp only [FFields.mh_mk, FFields.ml_mk] <;> omega
  | sid k d =>
    have := k.isLt
    refine decodeBytes_packF (decoded_ok hw (beq_of ?_) (congrArg (fun x => some (Instr.sid x d)) (num_of ?_))) <;>
      simp only [FFields.mh_mk, FFields.ml_mk] <;> omega
  | mxbeg => exact decodeBytes_packX (decoded_ok hw rfl rfl)
  | mxend ch =>
    have := ch.isLt
    refine decodeBytes_packF (decoded_ok hw (beq_of ?_) (congrArg (fun x => some (Instr.mxend x)) (num_of ?_))) <;>
      simp only [FFields.mh_mk, FFields.ml_mk] <;> omega
  | mma kb ch t =>
    have := toNat_bit kb
    have := ch.isLt
    have := t.isLt
    refine decodeBytes_packF (decoded_ok hw (beq_of ?_) (some_of₃ Instr.mma (flag_of ?_) (num_of ?_) (num_of ?_))) <;>
      simp only [FFields.mh_mk, FFields.ml_mk, FFields.mr_mk] <;> omega
  | mxscale kb ch t =>
    have := toNat_bit kb
    have := ch.isLt
    have := t.isLt
    refine decodeBytes_packF (decoded_ok hw (beq_of ?_) (some_of₃ Instr.mxscale (flag_of ?_) (num_of ?_) (num_of ?_))) <;>
      simp only [FFields.mh_mk, FFields.ml_mk, FFields.mr_mk] <;> omega
  | mxdist kb ch t =>
    have := toNat_bit kb
    have := ch.isLt
    have := t.isLt
    refine decodeBytes_packF (decoded_ok hw (beq_of ?_) (some_of₃ Instr.mxdist (flag_of ?_) (num_of ?_) (num_of ?_))) <;>
      simp only [FFields.mh_mk, FFields.ml_mk, FFields.mr_mk] <;> omega
  | mxzero t =>
    have := t.isLt
    refine decodeBytes_packF (decoded_ok hw (and_of (beq_of ?_) (beq_of ?_)) (congrArg (fun x => some (Instr.mxzero x)) (num_of ?_))) <;>
      simp only [FFields.mh_mk, FFields.ml_mk, FFields.mr_mk] <;> omega
  | mxst k t a b =>
    have := k.isLt
    have := t.isLt
    refine decodeBytes_packF (decoded_ok hw (beq_of ?_)
      (congr_two (fun x y => some (Instr.mxst x y a b)) (num_of ?_) (num_of ?_))) <;>
      simp only [FFields.mh_mk, FFields.ml_mk, FFields.mr_mk] <;> omega
  | mxld fl k t d b =>
    have := toNat_bit fl
    have := k.isLt
    have := t.isLt
    refine decodeBytes_packF (decoded_ok hw (beq_of ?_)
      (some_of₃ (Instr.mxld · · · d b) (flag_of ?_) (num_of ?_) (num_of ?_))) <;>
      simp only [FFields.mh_mk, FFields.ml_mk, FFields.mr_mk] <;> omega
  | mxtopk mx s32 t d b =>
    have := toNat_bit mx
    have := toNat_bit s32
    have := t.isLt
    refine decodeBytes_packF (decoded_ok hw (beq_of ?_)
      (some_of₃ (Instr.mxtopk · · · d b) (flag_of ?_) (flag_of ?_) (num_of ?_))) <;>
      simp only [FFields.mh_mk, FFields.ml_mk, FFields.mr_mk] <;> omega
  | bndmin n a =>
    have := n.isLt
    refine decodeBytes_packF (decoded_ok hw (beq_of ?_) (congrArg (fun x => some (Instr.bndmin x a)) (num_of ?_))) <;>
      simp only [FFields.mh_mk, FFields.ml_mk] <;> omega
  | bndrd n d =>
    have := n.isLt
    refine decodeBytes_packF (decoded_ok hw (beq_of ?_) (congrArg (fun x => some (Instr.bndrd x d)) (num_of ?_))) <;>
      simp only [FFields.mh_mk, FFields.ml_mk] <;> omega
  | stmc w m a b =>
    have hne : w ≠ .w128 := of_decide_eq_true (Bool.and_eq_true_iff.mp hw).1
    have := Width.mcCode_lt_of hne
    have := m.isLt
    refine decodeBytes_packF (decoded_ok hw (beq_of ?_)
      (map_of (Width.ofMcCode_of hne ?_) (congrArg (Instr.stmc w · a b) (num_of ?_)))) <;>
      simp only [FFields.mh_mk, FFields.ml_mk, FFields.mr_mk] <;> omega
  | csrr n d => exact decodeBytes_packF (decoded_ok hw rfl (congrArg (fun x => some (Instr.csrr x d)) (num_of rfl)))
  | csrw n a => exact decodeBytes_packF (decoded_ok hw rfl (congrArg (fun x => some (Instr.csrw x a)) (num_of rfl)))
  | csrs n d a => exact decodeBytes_packF (decoded_ok hw rfl (congrArg (fun x => some (Instr.csrs x d a)) (num_of rfl)))
  | tlbinv k =>
    have := k.code_lt
    refine decodeBytes_packF (decoded_ok hw (beq_of ?_) (congrArg (Option.map _) (TlbKind.ofCode_of ?_))) <;>
      simp only [FFields.mh_mk, FFields.ml_mk] <;> omega
  | hcall n d a =>
    have := n.isLt
    refine decodeBytes_packF (decoded_ok hw (beq_of ?_) (congrArg (fun x => some (Instr.hcall x d a)) (num_of ?_))) <;>
      simp only [FFields.mh_mk, FFields.ml_mk] <;> omega
  | mAdd | mSub | mMul | mAnd | mOr | mXor | mShl | mShr | mCmp | mSel | mMov | mAddImm | mMulImm | mAndImm | mOrImm | mXorImm
  | mShlImm | mShrImm | mCmpImm | li | liLit | mBr | mBrc | loop | ldx | stx | tdld | tdset | tdsetLit | tcopy | tgather
  | tscatter | qput | mCbarr | mCbwait | regfill | mfence | mdone | mexit | fxred | dharv => cases hm
  | _ => cases he

/-- Settles O9: each field of the decoders of threads reads back what `encodeBytes` wrote there. -/
theorem threadDecodeEncodeRoundTrip : Obligations.ThreadDecodeEncodeRoundTrip := by
  unfold Obligations.ThreadDecodeEncodeRoundTrip
  exact decodeBytes_encodeBytes

end Sys2Proof
end

section
/-! SUPPORT. The words of Mordant programs: each is decoded from its code bytes as the instruction that it is. -/

namespace Sys2Proof

/-! ## Register fields of Mordant words (R232, R234) -/

theorem toNat_fld {n : Nat} (x : BitVec n) (hn : n ≤ 10) : (fld x).r.toNat = x.toNat := by
  have := x.isLt
  have : 2 ^ n ≤ 2 ^ 10 := Nat.pow_le_pow_right (by decide) hn
  rw [fld, BitVec.toNat_ofNat]
  omega

theorem mreg_fld (x : BitVec 5) : mreg (fld x).r = some x := by
  rw [mreg, toNat_fld x (by decide), if_pos x.isLt, BitVec.ofNat_toNat, BitVec.setWidth_eq]

theorem dreg_fld (x : BitVec 3) : dreg (fld x).r = some x := by
  rw [dreg, toNat_fld x (by decide), if_pos x.isLt, BitVec.ofNat_toNat, BitVec.setWidth_eq]

theorem sreg_fld (x : BitVec 4) : sreg (fld x).r = some x := by
  rw [sreg, toNat_fld x (by decide), if_pos x.isLt, BitVec.ofNat_toNat, BitVec.setWidth_eq]

/-! ## Words of Mordant programs, by constructor -/

theorem decodeMordantBytes_encodeBytes (i : Instr) (hw : i.wf = true) (hm : Machine.Instr.ofMordant i = true) :
    decodeMordantBytes (encodeBytes i) = .ok (i, []) := by
  cases i with
  | mAdd d a b | mSub d a b | mMul d a b | mAnd d a b | mOr d a b | mXor d a b | mShl d a b | mShr d a b =>
    exact decodeMordantBytes_packF (decoded_ok hw rfl
      (bind_of (mreg_fld d) (bind_of (mreg_fld a) (map_of (mreg_fld b) rfl))))
  | mCmp cc n d a b =>
    have := cc.code_lt
    have := toNat_bit n
    refine decodeMordantBytes_packF (decoded_ok hw (beq_of ?_) (bind_of (mreg_fld d) (bind_of (mreg_fld a) (bind_of (mreg_fld b)
      (map_of (Cond.ofCode_of ?_) (congrArg (Instr.mCmp cc · d a b) (flag_of ?_))))))) <;>
      simp only [FFields.mh_mk, FFields.ml_mk, FFields.mr_mk] <;> omega
  | mSel d a b c =>
    exact decodeMordantBytes_packF (decoded_ok hw rfl
      (bind_of (mreg_fld d) (bind_of (mreg_fld a) (bind_of (mreg_fld b) (map_of (mreg_fld c) rfl)))))
  | mMov d a | dharv d a => exact decodeMordantBytes_packF (decoded_ok hw rfl (bind_of (mreg_fld d) (map_of (mreg_fld a) rfl)))
  | mAddImm d a | mMulImm d a | mAndImm d a | mOrImm d a | mXorImm d a | mShlImm d a | mShrImm d a =>
    exact decodeMordantBytes_packIM (of_decide_eq_true rfl)
      (decoded_ok hw rfl (bind_of (mreg_fld d) (map_of (mreg_fld a) rfl)))
  | mCmpImm cc n d a imm =>
    have := cc.code_lt
    have := toNat_bit n
    refine decodeMordantBytes_packIM (of_decide_eq_true rfl) (decoded_ok hw (decide_eq_true ?_)
      (bind_of (mreg_fld d) (bind_of (mreg_fld a)
        (map_of (Cond.ofCode_of ?_) (congrArg (Instr.mCmpImm cc · d a imm) (flag_of ?_)))))) <;>
      simp only [BitVec.toNat_ofNat] <;> omega
  | li d => exact decodeMordantBytes_packIL (of_decide_eq_false rfl) (decoded_ok hw rfl (map_of (mreg_fld d) rfl))
  | liLit d => exact decodeMordantBytes_packX (decoded_ok hw rfl (map_of (mreg_fld d) rfl))
  | mBr off =>
    exact decodeMordantBytes_packIL (of_decide_eq_false rfl)
      (decoded_ok hw (offsetOk_signExtend off) (congrArg (some ∘ Instr.mBr) (offsetOf_signExtend off)))
  | mBrc z c off =>
    have := toNat_bit z
    refine decodeMordantBytes_packIL (of_decide_eq_false rfl)
      (decoded_ok hw (and_of (decide_eq_true ?_) (offsetOk_signExtend off))
        (map_of (mreg_fld c) (congr_two (Instr.mBrc · c ·) (flag_of ?_) (offsetOf_signExtend off)))) <;>
      simp only [BitVec.toNat_ofNat] <;> omega
  | loop c off =>
    exact decodeMordantBytes_packIL (of_decide_eq_false rfl)
      (decoded_ok hw (offsetOk_signExtend off) (map_of (mreg_fld c) (congrArg (Instr.loop c) (offsetOf_signExtend off))))
  | ldx w sx d base imm =>
    have := w.code_lt
    have := toNat_bit sx
    refine decodeMordantBytes_packIM (of_decide_eq_true rfl) (decoded_ok hw (and_of rfl (and_of (decide_eq_true ?_) (beq_of ?_)))
      (bind_of (mreg_fld d) (bind_of (mreg_fld base) (map_of (Width.ofCode_of ?_)
        (congrArg (Instr.ldx w · d base imm) (flag_of ?_)))))) <;>
      simp only [BitVec.toNat_ofNat, memMd, bit_false, Scope.code] <;> omega
  | stx w v base imm =>
    have := w.code_lt
    refine decodeMordantBytes_packIM (of_decide_eq_true rfl)
      (decoded_ok hw (and_of (and_of rfl (and_of (decide_eq_true ?_) (beq_of ?_))) (not_flag_of ?_))
        (bind_of (mreg_fld v) (bind_of (mreg_fld base) (map_of (Width.ofCode_of ?_) rfl)))) <;>
      simp only [BitVec.toNat_ofNat, memMd, bit_false, Scope.code] <;> omega
  | tdld d base =>
    exact decodeMordantBytes_packIM (of_decide_eq_true rfl) (decoded_ok hw rfl (bind_of (dreg_fld d) (map_of (mreg_fld base) rfl)))
  | tdset f k d a =>
    have := f.code_lt
    have := k.isLt
    refine decodeMordantBytes_packF (decoded_ok hw (and_of (beq_of ?_) (beq_of ?_))
      (bind_of (dreg_fld d) (bind_of (mreg_fld a) (map_of (DescField.ofCode_of ?_)
        (congrArg (Instr.tdset f · d a) (num_of ?_)))))) <;>
      simp only [FFields.mh_mk, FFields.ml_mk, FFields.mr_mk] <;> omega
  | tdsetLit f k d v =>
    have := f.code_lt
    have := k.isLt
    refine decodeMordantBytes_packX (decoded_ok hw (beq_of ?_) (bind_of (dreg_fld d) (map_of (DescField.ofCode_of ?_)
      (congrArg (Instr.tdsetLit f · d v) (num_of ?_))))) <;>
      simp only [BitVec.toNat_ofNat] <;> omega
  | tcopy d a => exact decodeMordantBytes_packF (decoded_ok hw rfl (bind_of (dreg_fld d) (map_of (dreg_fld a) rfl)))
  | tgather d a b | tscatter d a b =>
    exact decodeMordantBytes_packF (decoded_ok hw rfl
      (bind_of (dreg_fld d) (bind_of (dreg_fld a) (map_of (dreg_fld b) rfl))))
  | qput e s a =>
    have := toNat_bit e
    refine decodeMordantBytes_packF (decoded_ok hw (beq_of ?_)
      (bind_of (sreg_fld s) (map_of (dreg_fld a) (congrArg (Instr.qput · s a) (flag_of ?_))))) <;>
      simp only [FFields.mh_mk, FFields.ml_mk] <;> omega
  | mCbarr k c a b =>
    have := k.code_lt
    have := c.code_lt
    refine decodeMordantBytes_packF (decoded_ok hw (beq_of ?_) (bind_of (mreg_fld a) (bind_of (mreg_fld b)
      (bind_of (ArrKind.ofCode_of ?_) (map_of (CoreSel.ofCode_of ?_) rfl))))) <;>
      simp only [FFields.mh_mk, FFields.ml_mk, FFields.mr_mk] <;> omega
  | mCbwait c a b =>
    have := c.code_lt
    refine decodeMordantBytes_packF (decoded_ok hw (and_of (beq_of ?_) (beq_of ?_)) (bind_of (mreg_fld a) (bind_of (mreg_fld b)
      (map_of (CoreSel.ofCode_of ?_) rfl)))) <;>
      simp only [FFields.mh_mk, FFields.ml_mk, FFields.mr_mk] <;> omega
  | regfill a b c =>
    exact decodeMordantBytes_packF (decoded_ok hw rfl
      (bind_of (mreg_fld a) (bind_of (mreg_fld b) (map_of (mreg_fld c) rfl))))
  | mfence | mexit => exact decodeMordantBytes_packF (decoded_ok hw rfl rfl)
  | mdone a => exact decodeMordantBytes_packF (decoded_ok hw rfl (map_of (mreg_fld a) rfl))
  | fxred op t d a b =>
    have := op.code_lt
    have := t.code_lt
    refine decodeMordantBytes_packF (decoded_ok hw (beq_of ?_) (bind_of (dreg_fld d) (bind_of (dreg_fld a) (bind_of (mreg_fld b)
      (bind_of (FxOp.ofCode_of ?_) (map_of (FxTy.ofCode_of ?_) rfl)))))) <;>
      simp only [FFields.mh_mk, FFields.ml_mk, FFields.mr_mk] <;> omega
  | _ => cases hm

/-- Settles O10: each field of the decoders of Mordant programs reads back what `encodeBytes` wrote there. -/
theorem mordantDecodeEncodeRoundTrip : Obligations.MordantDecodeEncodeRoundTrip := by
  unfold Obligations.MordantDecodeEncodeRoundTrip
  exact decodeMordantBytes_encodeBytes

end Sys2Proof
end

section
/-! SUPPORT. Faults of threads: the record, and what the rest of the state keeps. -/

namespace Sys2Proof.Machine

/-! ## The bytes of a fault record (R151) -/

/-- A field that ends before the bytes appended is read from what stood before. -/
theorem sliceNat_append (a b : List Byte) (off n : Nat) (h : off + n ≤ a.length) : sliceNat (a ++ b) off n = sliceNat a off n := by
  rw [sliceNat, sliceNat, List.drop_append_of_le_length (by omega), List.take_append_of_le_length (by rw [List.length_drop]; omega)]

/-- The bytes appended last are read back. -/
theorem sliceNat_last (a : List Byte) (off n x : Nat) (h : a.length = off) : sliceNat (a ++ leBytes n x) off n = x % 256 ^ n := by
  subst h
  rw [sliceNat, List.drop_left, List.take_of_length_le (Nat.le_of_eq (length_leBytes n x)), leNat_leBytes]

theorem sliceNat_first (n x : Nat) : sliceNat (leBytes n x) 0 n = x % 256 ^ n := sliceNat_last [] 0 n x rfl

/-! ## The state when the record is written -/

/-- The state once thread `t` of team `m` has faulted, before its record is written (R75, R150). -/
def faulted (s : State) (t : Thread) (m : Team) : State :=
  (((s.setThread { t with place := .stopped }).setDie (dieOf m.core)
      { s.die (dieOf m.core) with frSeq := (s.die (dieOf m.core)).frSeq + 1 }).updLaunch m.launch
    fun l => { l with nrec := l.nrec + 1 }).updTeam t.team fun m => { m with stage := .ending }

theorem threadFault_eq {s : State} {t : Thread} {m : Team} {l : Launch} (c : Code) (inf : FaultInfo)
    (hm : s.team? t.team = some m) (hl : s.launch? m.launch = some l) :
    threadFault s t c inf = areaPost (faulted s t m) m.launch l (dieOf m.core)
      (BitVec.ofNat 64 (l.frbase + 64 * (l.nrec % 2 ^ l.frlog)))
      (faultRecord (s.die (dieOf m.core)).frSeq c.num
        ((if m.stage == .ending then 0 else 1) + (if inf.nest then 2 else 0) + (if inf.unh then 4 else 0)) s.now t.pc inf.addr
        m.num t.slot m.core l.fn 0xFF inf.reg (l.seq.toNat % 2 ^ 32) 0) false := by
  have hl' : (s.setThread { t with place := .stopped }).launch? m.launch = some l := hl
  rw [threadFault, hm]
  dsimp only
  rw [postFault, hl']
  rfl

theorem faulted_thread (s : State) (t : Thread) (m : Team) :
    (faulted s t m).thread? t.team t.tix = some { t with place := .stopped } := State.thread?_setThread s { t with place := .stopped }

theorem faulted_team {s : State} {t : Thread} {m : Team} (h : s.team? t.team = some m) :
    (faulted s t m).team? t.team = some { m with stage := .ending } := by
  rw [faulted, State.team?_updTeam_same]
  exact congrArg _ h

theorem faulted_launch {s : State} {t : Thread} {m : Team} {l : Launch} (h : s.launch? m.launch = some l) :
    (faulted s t m).launch? m.launch = some { l with nrec := l.nrec + 1 } :=
  (State.launch?_updLaunch_same _ _ fun l => { l with nrec := l.nrec + 1 }).trans (congrArg (Option.map _) h)

theorem faulted_die (s : State) (t : Thread) (m : Team) :
    (faulted s t m).die (dieOf m.core) = { s.die (dieOf m.core) with frSeq := (s.die (dieOf m.core)).frSeq + 1 } :=
  State.die_setDie_same _ _ _

theorem faulted_other (s : State) (t : Thread) (m : Team) : SameOtherThreads s (faulted s t m) t :=
  fun _ _ h => State.thread?_setThread_other s { t with place := .stopped } h

/-- Settles O13: the record's fields are read back one by one, and `faulted` is the state when it is written. -/
theorem faultStopsThreadAndWritesItsRecord : Obligations.FaultStopsThreadAndWritesItsRecord := by
  unfold Obligations.FaultStopsThreadAndWritesItsRecord
  refine ⟨fun s t m l c inf hm hl => ⟨faulted s t m, threadFault_eq c inf hm hl, faulted_thread s t m, faulted_team hm,
    faulted_launch hl, faulted_die s t m, sameMemory_of rfl rfl, faulted_other s t m, rfl, rfl, rfl⟩, ?_⟩
  intro seq code flags time pc addr team slot loc fn engine reg launch detail b
  have hseq := seq.isLt
  have hpc := pc.isLt
  have hlen : b.length = 64 := by simp [b, faultRecord, length_leBytes]
  simp [-List.append_assoc, b, faultRecord, length_leBytes, sliceNat_append, sliceNat_last, sliceNat_first, Nat.mod_eq_of_lt hseq, Nat.mod_eq_of_lt hpc]

end Sys2Proof.Machine
end

section
/-! SUPPORT. The end of a thread while others of its team live: what is tested again finds nothing to do. -/

namespace Sys2Proof.Machine

/-! ## Live threads and meetings -/

theorem mem_liveOf {s : State} {u : Nat} {t : Thread} :
    t ∈ liveOf s u ↔ (∃ k, (k, t) ∈ s.threads) ∧ t.team = u ∧ t.live = true := by
  simp only [liveOf, State.teamThreads, List.mem_filter, List.mem_map, beq_iff_eq]
  constructor
  · rintro ⟨⟨⟨k, _⟩, ⟨hp, hu⟩, rfl⟩, hl⟩
    exact ⟨⟨k, hp⟩, hu, hl⟩
  · rintro ⟨⟨k, hp⟩, hu, hl⟩
    exact ⟨⟨(k, t), ⟨hp, hu⟩, rfl⟩, hl⟩

/-- A set of threads with one that is not held at a meeting completes none. -/
theorem testSet_of_not_held {s : State} {m : Team} {whole : Bool} {ts : List Thread} (h : ∀ x ∈ ts, heldAt x = none) :
    testSet s m whole ts = s := by
  match ts with
  | [] => rfl
  | t :: ts =>
    rw [testSet]
    refine if_neg ?_
    rw [List.all_eq_true]
    intro hall
    have := hall t List.mem_cons_self
    rw [h t List.mem_cons_self] at this
    cases this

theorem testMeetings_of_not_held {s : State} {u : Nat} (h : ∀ x ∈ liveOf s u, heldAt x = none) : testMeetings s u = s := by
  have hset : ∀ (m : Team) (whole : Bool) (ts : List Thread), (∀ x ∈ ts, x ∈ liveOf s u) →
      (if m.runs then testSet s m whole ts else s) = s := by
    intro m whole ts hts
    rw [testSet_of_not_held fun x hx => h x (hts x hx), ite_self]
  unfold testMeetings
  cases hm : s.team? u with
  | none => rfl
  | some m =>
    dsimp only
    rw [foldl_eq_self (fun g => ?_)]
    · rw [hm]
      dsimp only
      rw [hset m true _ fun x hx => hx, ite_self]
    · rw [hm]
      exact hset m false _ fun x hx => (List.mem_filter.mp hx).1

/-! ## A team without chains -/

theorem checkKinds_of_no_chains {s : State} {u : Nat} {m : Team} (hm : s.team? u = some m) (hc : m.chains = []) :
    checkKinds s u = s := by
  rw [checkKinds, hm]
  dsimp only
  rw [hc, List.findSome?_nil, ite_self]

theorem closeChains_of_no_chains {s : State} {u : Nat} {m : Team} (hm : s.team? u = some m) (hc : m.chains = []) :
    closeChains s u = s := by
  rw [closeChains, hm]
  dsimp only
  rw [hc]
  rfl

theorem exitOctet_of_no_chains {m : Team} (t : Thread) (hc : m.chains = []) : exitOctet m t = m := by
  rw [exitOctet]
  split
  · rfl
  · dsimp only
    rw [hc, List.map_nil, ← hc]

/-! ## A team with a live thread -/

theorem checkTeamEnd_of_live {s : State} {u : Nat} {t : Thread} (h : t ∈ liveOf s u) : checkTeamEnd s u = s := by
  have hne : (liveOf s u).isEmpty = false := by
    cases hl : liveOf s u with
    | nil => rw [hl] at h; cases h
    | cons => rfl
  rw [checkTeamEnd]
  cases s.team? u with
  | none => rfl
  | some m => exact if_neg (by simp [allExited, hne])

/-- What the exit of `t` itself does, before anything is tested again. -/
def exited (s : State) (t : Thread) : State :=
  let s := s.setThread { t with place := .exited, trapcause := t.trapcause &&& ~~~(1 : Word) }
  let s := { s with reqs := s.reqs.map fun (p : Nat × Req) => if p.2.owner = Agent.thread t.team t.tix then (p.1, { p.2 with dead := true }) else p }
  s.updTeam t.team fun m => exitOctet m t

theorem mem_liveOf_exited {s : State} {t x : Thread} (hx : x ∈ liveOf (exited s t) t.team) :
    ∃ k, (k, x) ∈ s.threads ∧ x.team = t.team ∧ x.live = true := by
  obtain ⟨⟨k, hk⟩, hu, hl⟩ := mem_liveOf.mp hx
  rcases FMap.mem_insert (tkey t.team t.tix) _ (FMap.erase s.threads (tkey t.team t.tix)) _ hk with e | hk
  · obtain ⟨rfl, rfl⟩ := Prod.mk.inj e
    cases hl
  · exact ⟨k, (List.mem_filter.mp hk).1, hu, hl⟩

theorem FMap.mem_insert_of_mem {α : Type} {n : Nat} {v : α} {p : Nat × α} {m : FMap α} (h : p ∈ m) : p ∈ FMap.insert n v m := by
  induction m with
  | nil => cases h
  | cons q m ih =>
    rw [FMap.insert]
    split
    · exact List.mem_cons_of_mem _ h
    · rcases List.mem_cons.mp h with rfl | h
      · exact List.mem_cons_self
      · exact List.mem_cons_of_mem _ (ih h)

theorem Tab.mem_put_other {α : Type} {n : Nat} {v : α} {p : Nat × α} {m : Tab α} (h : p ∈ m) (hn : p.1 ≠ n) : p ∈ Tab.put m n v :=
  FMap.mem_insert_of_mem (List.mem_filter.mpr ⟨h, by simpa using hn⟩)

theorem exited_team {s : State} {t : Thread} {m : Team} (hm : s.team? t.team = some m) (hc : m.chains = []) :
    (exited s t).team? t.team = some m := by
  rw [exited, State.team?_updTeam_same]
  exact (congrArg (Option.map _) hm).trans (congrArg some (exitOctet_of_no_chains t hc))

/-- While another thread of the team lives, none of them at a meeting, and no chain is open, the exit has no other effect. -/
theorem exitThread_eq {s : State} {t : Thread} {m : Team} (hm : s.team? t.team = some m) (hc : m.chains = [])
    (hh : t.hcall = none) (hheld : ∀ p ∈ s.threads, p.2.team = t.team → p.2.live = true → heldAt p.2 = none)
    {p : Nat × Thread} (hp : p ∈ s.threads) (hk : p.1 ≠ tkey t.team t.tix) (hu : p.2.team = t.team) (hl : p.2.live = true) :
    exitThread s t = noteIdle (exited s t) t.team := by
  have hstart : exitThread s t = checkTeamEnd (noteIdle (testMeetings (closeChains (checkKinds (exited s t) t.team) t.team) t.team)
      t.team) t.team := by
    simp only [exitThread, hh, exited, ownReq, beq_iff_eq]
    rfl
  have hteam := exited_team hm hc
  have hlive : p.2 ∈ liveOf (noteIdle (exited s t) t.team) t.team := 
    mem_liveOf.mpr ⟨⟨p.1, Tab.mem_put_other (p := (p.1, p.2)) hp hk⟩, hu, hl⟩
  have hnone : ∀ x ∈ liveOf (exited s t) t.team, heldAt x = none := fun x hx =>
    have ⟨k, hk, hu, hl⟩ := mem_liveOf_exited hx
    hheld (k, x) hk hu hl
  rw [hstart, checkKinds_of_no_chains hteam hc, closeChains_of_no_chains hteam hc, testMeetings_of_not_held hnone,
    checkTeamEnd_of_live hlive]

theorem SameTeamBut.trans {m m₁ m₂ : Team} (h₁ : SameTeamBut m m₁) (h₂ : SameTeamBut m₁ m₂) : SameTeamBut m m₂ :=
  Eq.trans (congrArg (fun x : Team => { x with wdCount := m₂.wdCount, wdSince := m₂.wdSince }) h₁) h₂

/-- The watchdog's stop and resumption change its count alone. -/
theorem noteIdle_team {s : State} {u : Nat} {m : Team} (hm : s.team? u = some m) :
    ∃ m', (noteIdle s u).team? u = some m' ∧ SameTeamBut m m' := by
  refine ⟨_, (State.team?_updTeam_same _ _ _).trans (congrArg _ hm), ?_⟩
  dsimp only
  split
  · rfl
  · split <;> rfl

theorem retire_team {s : State} {u : Nat} {m : Team} (hm : s.team? u = some m) :
    ∃ m', (retire s u).team? u = some m' ∧ SameTeamBut m m' :=
  ⟨_, (State.team?_updTeam_same _ _ _).trans (congrArg _ hm), rfl⟩

theorem SameTeamBut.chains {m m' : Team} (h : SameTeamBut m m') : m'.chains = m.chains := by rw [← h]

/-- Settles O16: with another live thread, no meeting and no chain, only `exited` and the watchdog's count remain. -/
theorem exitEndsTheThread : Obligations.ExitEndsTheThread := by
  unfold Obligations.ExitEndsTheThread
  intro s m t hr hc hh _ hheld ⟨p, hp, hk, hu, hl⟩
  obtain ⟨m₁, hm₁, h₁⟩ := retire_team hr.team
  have hc₁ := h₁.chains.trans hc
  obtain ⟨m₂, hm₂, h₂⟩ := noteIdle_team (exited_team hm₁ hc₁)
  have he := exitThread_eq hm₁ hc₁ hh hheld hp hk hu hl
  exact ⟨_, (hr.issue _).trans (congrArg _ he),
    State.thread?_setThread (retire s t.team) { t with place := .exited, trapcause := t.trapcause &&& ~~~(1 : Word) },
    fun _ _ => State.thread?_setThread_other (retire s t.team)
      { t with place := .exited, trapcause := t.trapcause &&& ~~~(1 : Word) }, sameMemory_of rfl rfl, rfl, rfl, rfl, m₂, hm₂, h₁.trans h₂⟩

end Sys2Proof.Machine
end

section
/-! SUPPORT. The checks of a global access, in order, and what each failed one does to the thread. -/

namespace Sys2Proof.Machine

/-! ## The check, case by case (R125, R351) -/

section
variable {s : State} {u : Nat} {m : Team} {core : Nat} {ea : DWord} {n : Nat} {k : Acc}

theorem checkAccess_misaligned (h : ea.toNat % n ≠ 0) : checkAccess s u m core ea n k = (s, .fault .align) := if_pos h

theorem checkAccess_aligned (h : ea.toNat % n = 0) : checkAccess s u m core ea n k = checkGlobal s u m core ea n k :=
  if_neg (not_not_intro h)

variable {l : Launch} {e : Nat} (hl : s.launch? m.launch = some l) (hw : l.windowOf m.num ea.toNat n = none)

include hl hw

theorem checkGlobal_no_lease (he : l.leaseOf ea.toNat n = none) : checkGlobal s u m core ea n k = (s, .fault .lease) := by
  simp only [checkGlobal, hl, hw, he]

variable (he : l.leaseOf ea.toNat n = some e)

include he

theorem checkGlobal_no_right (ha : leaseAllows e k.right = false) : checkGlobal s u m core ea n k = (s, .fault .perm) := by
  simp [checkGlobal, hl, hw, he, ha]

variable (ha : leaseAllows e k.right = true)

include ha

theorem checkGlobal_stage1 {s' : State} (ht : translate s (.vector core) l.fn ea.toNat k.right = (s', .stage1)) :
    checkGlobal s u m core ea n k = (s', .fault .perm) := by
  simp [checkGlobal, hl, hw, he, ha, ht]

theorem checkGlobal_stage2 {s' : State} {ipa : Nat} {wk : Bool}
    (ht : translate s (.vector core) l.fn ea.toNat k.right = (s', .stage2 ipa wk)) :
    checkGlobal s u m core ea n k = (s', .stall ipa (stallInfo k.right wk)) := by
  simp [checkGlobal, hl, hw, he, ha, ht]

/-- A translated address of HBM4 or host memory. -/
theorem checkGlobal_memory {s' : State} {x : Xlat} {pa : Nat}
    (ht : translate s (.vector core) l.fn ea.toNat k.right = (s', .ok x)) (hp : (x.outAt ea.toNat).phys = some pa) :
    checkGlobal s u m core ea n k = (s', .ok (.mem pa) l.fn (x.ipaAt ea.toNat)) := by
  simp only [checkGlobal, hl, hw, he, ha, ht]
  generalize x.outAt ea.toNat = o at hp
  cases o with
  | hbm a | host a => obtain rfl := Option.some.inj hp; rfl
  | fabric | notify => cases hp

end

/-! ## What an access does with the outcome of its check -/

section
variable {s s' : State} {m : Team} {t : Thread} {ea : DWord} {n : Nat} {acc : Acc} {K : State → Loc → Nat → Nat → State}

theorem withAccess_ok {loc : Loc} {f ipa : Nat} (h : checkAccess s t.team m t.core ea n acc = (s', .ok loc f ipa)) :
    withAccess s m t ea n acc K = K s' loc f ipa := by
  simp only [withAccess, h]

theorem withAccess_fault {c : Code} (h : checkAccess s t.team m t.core ea n acc = (s', .fault c)) :
    withAccess s m t ea n acc K = threadFault s' t c { addr := ea.toNat } := by
  simp only [withAccess, h, failAccess]

theorem withAccess_stall {l : Launch} {ipa info : Nat} (hl : s.launch? m.launch = some l)
    (h : checkAccess s t.team m t.core ea n acc = (s', .stall ipa info)) :
    withAccess s m t ea n acc K = stallThread s' t l.fn ipa ea info false := by
  simp only [withAccess, hl, h, failAccess]

theorem afterAcquire_pending {k : State} (h : acqPending s t.team t.tix = true) : afterAcquire s t k = park s t .acquire := if_pos h

theorem afterAcquire_over {k : State} (h : acqPending s t.team t.tix = false) : afterAcquire s t k = k :=
  if_neg (by rw [h]; exact Bool.false_ne_true)

/-- Once its acquires are over and its check has passed, an access goes on at its location. -/
theorem Accesses.goes_on {loc : Loc} {f ipa : Nat} (h : Accesses s m t ea n acc s' loc f ipa) :
    afterAcquire s t (withAccess s m t ea n acc K) = K s' loc f ipa :=
  (afterAcquire_over h.acquired).trans (withAccess_ok h.checked)

end

/-- Every global access of a ready thread waits for its acquires and is then checked. -/
theorem Ready.exec_access {s : State} {m : Team} {t : Thread} {i : Instr} {fs : List RF} {ea : DWord} {n : Nat} {k : Acc}
    (h : accessForm t i = some (fs, ea, n, k)) (hr : Ready s m t i false fs) :
    ∃ K, exec i s = .next (afterAcquire s t (withAccess s m t ea n k K)) := by
  cases i with
  | ld | ldc | st | atom | cas => cases h; exact ⟨_, hr.issue _⟩
  | _ => cases h

theorem stallInfo_data (k : Acc) (wk : Bool) :
    stallInfo k.right wk = (if k.right = .w then 1 else 0) + (if wk then 4 else 0) := by
  cases k <;> rfl

/-- Settles O17: the cases of the check in order, and the fault or stall that each failed one is. -/
theorem accessChecksInOrder : Obligations.AccessChecksInOrder := by
  unfold Obligations.AccessChecksInOrder
  intro s m t i fs ea n k h hr
  obtain ⟨K, hx⟩ := hr.exec_access h
  rw [hx]
  refine ⟨fun ha => congrArg _ (afterAcquire_pending ha), fun ha => ?_⟩
  rw [afterAcquire_over ha]
  refine ⟨fun hn => congrArg _ (withAccess_fault (checkAccess_misaligned hn)), fun l hn hl hw => ?_⟩
  have hg := checkAccess_aligned (s := s) (u := t.team) (m := m) (core := t.core) (k := k) hn
  refine ⟨fun he => congrArg _ (withAccess_fault (hg.trans (checkGlobal_no_lease hl hw he))), fun e he => ⟨fun hno => ?_,
    fun hyes => ⟨fun s' ht => ?_, fun s' ipa wk ht => ?_⟩⟩⟩
  · exact congrArg _ (withAccess_fault (hg.trans (checkGlobal_no_right hl hw he hno)))
  · exact congrArg _ (withAccess_fault (hg.trans (checkGlobal_stage1 hl hw he hyes ht)))
  · rw [← stallInfo_data]
    exact congrArg _ (withAccess_stall hl (hg.trans (checkGlobal_stage2 hl hw he hyes ht)))

end Sys2Proof.Machine
end

section
/-! SUPPORT. Loads: the request that each issues, and the bytes that the threads of a row share of the constant cache. -/

namespace Sys2Proof.Machine

theorem withRoom_full {s : State} {t : Thread} {c : Cls} {k : State} (h : countFull s t c = true) :
    withRoom s t c k = park s t (.count c 254) := if_pos h

theorem withRoom_free {s : State} {t : Thread} {c : Cls} {k : State} (h : countFull s t c = false) : withRoom s t c k = k :=
  if_neg (by rw [h]; exact Bool.false_ne_true)

/-- The request of a load at a location. -/
def loadReq (s : State) (t : Thread) (ea : DWord) (loc : Loc) (fn ipa n d : Nat) (sx alloc : Bool) (acq : Option Scope) : Req :=
  let r := t.req s.now (some (clsOf loc .ld)) (.load loc n sx d alloc)
  let r := { r with acq := acq, fn := fn, va := ea, ipa := ipa, psb := bufferedFor s t.core t.team loc n }
  match loc with
  | .mem pa =>
    match captureL1 s t pa n with
    | some bs => { r with data := some bs, performed := true }
    | none => { r with after := homeAfter s t loc n }
  | _ => { r with after := homeAfter s t loc n }

section
variable (s : State) (t : Thread) (ea : DWord) (loc : Loc) (fn ipa n d : Nat) (sx alloc : Bool) (acq : Option Scope)

theorem issued_loadReq : Issued t (loadReq s t ea loc fn ipa n d sx alloc acq) (some (clsOf loc .ld)) (.load loc n sx d alloc) := by
  unfold loadReq
  cases loc with
  | mem pa => dsimp only; cases captureL1 s t pa n <;> exact ⟨rfl, rfl, rfl, rfl, rfl, rfl⟩
  | _ => exact ⟨rfl, rfl, rfl, rfl, rfl, rfl⟩

theorem loadReq_acq : (loadReq s t ea loc fn ipa n d sx alloc acq).acq = acq := by
  unfold loadReq
  cases loc with
  | mem pa => dsimp only; cases captureL1 s t pa n <;> rfl
  | _ => rfl

/-- A load that the L1 has not served is performed at its fill, after what it waits for. -/
theorem loadReq_unserved (h : (loadReq s t ea loc fn ipa n d sx alloc acq).data = none) :
    (loadReq s t ea loc fn ipa n d sx alloc acq).performed = false ∧
      (loadReq s t ea loc fn ipa n d sx alloc acq).after = homeAfter s t loc n := by
  unfold loadReq at h ⊢
  cases loc with
  | mem pa =>
    dsimp only at h ⊢
    cases hc : captureL1 s t pa n with
    | none => exact ⟨rfl, rfl⟩
    | some bs => rw [hc] at h; cases h
  | _ => exact ⟨rfl, rfl⟩

theorem issueLoad_eq (i : Instr) (k : Nat) (he : endsBlock i = false) :
    issueLoad s t i ea loc fn ipa n k d sx alloc acq =
      advance (issued s (loadReq s t ea loc fn ipa n d sx alloc acq)) (t.markEmpty d (producerTag 1 t.pc) k) i :=
  issueReq_advance _ _ _ _ _ _ he

end

/-! ## `ld` -/

/-- What `ld` does at a location that has passed the check. -/
theorem Ready.exec_ld {s s1 : State} {m : Team} {t : Thread} {w : Width} {sc : Scope} {sx nt : Bool} {d : Reg} {base : Src}
    {imm : BitVec 24} {loc : Loc} {f ipa : Nat} (hr : Ready s m t (.ld w sc sx nt d base imm) false [src2 base, dstW w d])
    (ha : Accesses s m t (rp t base + imm.signExtend 64) (widthBytes w) .load s1 loc f ipa) (hs : ∀ u o, loc ≠ .scratch u o) :
    (loadable m w loc → exec (.ld w sc sx nt d base imm) s = .next (withRoom s1 t (clsOf loc .ld)
      (issueLoad s1 t (.ld w sc sx nt d base imm) (rp t base + imm.signExtend 64) loc f ipa (widthBytes w) (widthRegs w) d.toNat sx
        (mayHitL1 nt loc) (acqOf sc)))) ∧
    (¬loadable m w loc → exec (.ld w sc sx nt d base imm) s = .next (permFault s1 t (rp t base + imm.signExtend 64))) := by
  have hx : exec (.ld w sc sx nt d base imm) s = .next _ := hr.issue _
  rw [hx.trans (congrArg _ ha.goes_on)]
  cases loc with
  | mem => exact ⟨fun _ => rfl, fun h => absurd trivial h⟩
  | peer | eth => exact ⟨fun h => congrArg _ (if_neg (by rw [show m.idem = false from h]; exact Bool.false_ne_true)),
      fun h => congrArg _ (if_pos (Bool.of_not_eq_false h))⟩
  | notify => exact ⟨fun h => by obtain rfl : w = .w64 := h; rfl, fun h => congrArg _ (if_pos h)⟩
  | window => exact ⟨fun h => h.elim, fun _ => rfl⟩
  | scratch u o => exact absurd rfl (hs u o)

/-! ## `ldc` (R130) -/

/-- Two requests of `ldc` name the same aligned 16 bytes. -/
def sameUnit (pa : Nat) (q : Req) : Bool := match q.act with | .loadConst a _ _ _ => a / 16 == pa / 16 | _ => false

theorem sameUnit_iff {pa : Nat} {q : Req} : sameUnit pa q = true ↔ ∃ a n x v, q.act = .loadConst a n x v ∧ a / 16 = pa / 16 := by
  unfold sameUnit
  constructor
  · intro h
    split at h
    · next a n x v e => exact ⟨a, n, x, v, e, by simpa using h⟩
    · cases h
  · rintro ⟨a, n, x, v, e, h⟩
    simp [e, h]

section
variable (s : State) (t : Thread) (pa : Nat) (r : Req)

theorem shareConst_eq : shareConst s t pa r = match (rowMates s t).find? fun p => sameUnit pa p.2 with
    | some (k, q) => { r with mate := some (q.mate.getD k), data := q.data, performed := q.performed }
    | none =>
      match (if pageQueued s pa then none else Tab.find (s.core t.core).cc (pa / 32)) with
      | some b => { r with data := some ((b.drop (pa % 32 / 16 * 16)).take 16), performed := true }
      | none => r := rfl

variable {s t pa r}

/-- Sharing an access changes what the request has and from whom, and nothing else of it. -/
theorem Issued.shareConst {cls : Option Cls} {act : Act} (h : Issued t r cls act) :
    Issued t (Machine.shareConst s t pa r) cls act ∧ (Machine.shareConst s t pa r).acq = r.acq := by
  obtain ⟨h1, h2, h3, h4, h5, h6⟩ := h
  rw [shareConst_eq]
  split
  · exact ⟨⟨h1, h2, h3, h4, h5, h6⟩, rfl⟩
  · split <;> exact ⟨⟨h1, h2, h3, h4, h5, h6⟩, rfl⟩

/-- With a thread of the row that names the same bytes, they are that thread's. -/
theorem shareConst_mate (h : ∃ q ∈ rowMates s t, sameUnit pa q.2 = true) :
    ∃ q ∈ rowMates s t, sameUnit pa q.2 = true ∧ (shareConst s t pa r).data = q.2.data := by
  obtain ⟨q, hq⟩ := Option.isSome_iff_exists.mp
    (List.find?_isSome (p := fun p : Nat × Req => sameUnit pa p.2).mpr h)
  exact ⟨q, List.mem_of_find?_eq_some hq, List.find?_some (p := fun p : Nat × Req => sameUnit pa p.2) hq,
    by rw [shareConst_eq, hq]⟩

/-- Without one, and without a valid sector of the constant cache, the bytes come with the fill. -/
theorem shareConst_alone (h : ∀ q ∈ rowMates s t, ¬sameUnit pa q.2 = true) (hc : Tab.find (s.core t.core).cc (pa / 32) = none) :
    shareConst s t pa r = r := by
  rw [shareConst_eq, List.find?_eq_none.mpr h, hc, ite_self]

end

/-- What `ldc` does at memory. -/
theorem Ready.exec_ldc {s s1 : State} {m : Team} {t : Thread} {w : Width} {sx : Bool} {d : Reg} {base : Src}
    {imm : BitVec 24} {pa f ipa : Nat} (hr : Ready s m t (.ldc w sx d base imm) false [src2 base, dstW w d])
    (ha : Accesses s m t (rp t base + imm.signExtend 64) (widthBytes w) .load s1 (.mem pa) f ipa)
    (hc : countFull s1 t .ld = false) :
    ∃ r, Issued t r (some .ld) (.loadConst pa (widthBytes w) sx d.toNat) ∧ r.acq = none ∧ r.data = none ∧
      exec (.ldc w sx d base imm) s =
        .next (issueLdc s1 t (.ldc w sx d base imm) pa d.toNat w (shareConst s1 t pa r)) :=
  ⟨_, ⟨rfl, rfl, rfl, rfl, rfl, rfl⟩, rfl, rfl,
    (hr.issue _).trans (congrArg Host.Outcome.next (ha.goes_on.trans (withRoom_free hc)))⟩

/-- Settles O18: `ld` goes through `loadReq`, `ldc` through `shareConst`. -/
theorem loadsIssueRequests : Obligations.LoadsIssueRequests := by
  unfold Obligations.LoadsIssueRequests
  constructor
  · intro s m t w sc sx nt d base imm s1 loc f ipa i ea hr ha
    have hscr (hl : loadable m w loc) : ∀ u o, loc ≠ .scratch u o := by
      rintro u o rfl
      exact hl
    refine ⟨fun hl hc => ?_, fun hl hc => ?_, fun hn hs => (hr.exec_ld ha hs).2 hn⟩
    · exact ((hr.exec_ld ha (hscr hl)).1 hl).trans (congrArg _ (withRoom_full hc))
    · refine ⟨_, ((hr.exec_ld ha (hscr hl)).1 hl).trans (congrArg _ ((withRoom_free hc).trans
        (issueLoad_eq s1 t ea loc f ipa (widthBytes w) d.toNat sx (mayHitL1 nt loc) (acqOf sc) i _ rfl))), ?_, ?_, ?_⟩
      · exact issued_loadReq _ _ _ _ _ _ _ _ _ _ _
      · exact loadReq_acq _ _ _ _ _ _ _ _ _ _ _
      · exact loadReq_unserved _ _ _ _ _ _ _ _ _ _ _
  · intro s m t w sx d base imm s1 pa f ipa i hr ha hc
    obtain ⟨r, hi, hacq, hdata, hx⟩ := hr.exec_ldc ha hc
    obtain ⟨hi', hacq'⟩ := hi.shareConst (s := s1) (pa := pa)
    refine ⟨shareConst s1 t pa r, ?_⟩
    intro s2
    refine ⟨hx.trans (congrArg _ (issueReq_advance _ _ _ _ _ _ rfl)), hi', hacq'.trans hacq, ?_⟩
    intro same
    have hsame : ∀ q : Nat × Req, sameUnit pa q.2 = true ↔ same q.2 := fun q => sameUnit_iff
    refine ⟨fun ⟨q, hq, hs⟩ => ?_, fun hno hcc => ?_⟩
    · obtain ⟨q', hq', hs', hd⟩ := shareConst_mate (r := r) ⟨q, hq, (hsame q).mpr hs⟩
      exact ⟨q', hq', (hsame q').mp hs', hd⟩
    · rw [shareConst_alone (fun q hq h => hno q hq ((hsame q).mp h)) hcc, hdata]

end Sys2Proof.Machine
end

section
/-! SUPPORT. Stores: the request that each issues, what sending it changes, and the phase store buffer. -/

namespace Sys2Proof.Machine

/-! ## The bytes of a store -/

theorem leBytes_add (a : Nat) : ∀ b x, leBytes (a + b) x = leBytes a x ++ leBytes b (x / 256 ^ a) := by
  induction a with
  | zero => intro b x; simp [leBytes]
  | succ a ih =>
    intro b x
    rw [Nat.add_right_comm, leBytes, ih, leBytes, List.cons_append, Nat.div_div_eq_div_mul, Nat.pow_succ, Nat.mul_comm]

/-- What lies above the bytes taken does not matter. -/
theorem leBytes_mod (n : Nat) : ∀ x, leBytes n (x % 256 ^ n) = leBytes n x := by
  induction n with
  | zero => intro x; rfl
  | succ n ih =>
    intro x
    have h8 : BitVec.ofNat 8 (x % 256 ^ (n + 1)) = BitVec.ofNat 8 x := by
      apply BitVec.eq_of_toNat_eq
      rw [BitVec.toNat_ofNat, BitVec.toNat_ofNat, Nat.pow_succ]
      exact Nat.mod_mul_left_mod x (256 ^ n) 256
    have hq : x % 256 ^ (n + 1) / 256 = x / 256 % 256 ^ n := by
      rw [Nat.pow_succ, Nat.mul_comm, Nat.mod_mul_right_div_self]
    rw [leBytes, leBytes, h8, hq, ih]

theorem leBytes_pair (t : Thread) (v : Nat) :
    leBytes 8 (t.pair v).toNat = leBytes 4 (t.word v).toNat ++ leBytes 4 (t.word (v + 1)).toNat := by
  have hp : (t.pair v).toNat = (t.word (v + 1)).toNat * 2 ^ 32 + (t.word v).toNat := by
    rw [Thread.pair, BitVec.toNat_append, Nat.shiftLeft_eq, Nat.mul_comm, ← Nat.two_pow_add_eq_or_of_lt (t.word v).isLt]
  have := (t.word v).isLt
  have hlow : (t.pair v).toNat % 256 ^ 4 = (t.word v).toNat := by omega
  have hhigh : (t.pair v).toNat / 256 ^ 4 = (t.word (v + 1)).toNat := by omega
  rw [show 8 = 4 + 4 from rfl, leBytes_add, hhigh, ← leBytes_mod 4 (t.pair v).toNat, hlow]

theorem storeBytesOf_eq (t : Thread) (w : Width) (v : Src) : storeBytesOf t v.r.toNat w = storedBytes t w v := by
  cases w with
  | w8 | w16 | w32 => simp [storeBytesOf, storedBytes, widthRegs, widthBytes]
  | w128 => rfl
  | w64 => simp [storeBytesOf, storedBytes, widthRegs, widthBytes, List.range_succ, leBytes_pair]

/-! ## What sending a store changes -/

/-- A part of the state that neither a core's L1 nor the requests name. -/
theorem sendStore_keeps {γ : Type} (g : State → γ)
    (h : ∀ (s : State) (c : Nat) (k : Core) (r : Tab Req), g { s.setCore c k with reqs := r } = g s) (s : State) (c : Nat)
    (own : Agent) (pa : Nat) (bs : List Byte) : g (sendStore s c own pa bs) = g s := by
  unfold sendStore
  split
  · rfl
  · exact h s c _ _

/-- The state in which the request of a store is added: the L1 of its core has had the store where it is sent at once. -/
def storeSent (s : State) (t : Thread) (loc : Loc) (sc : Scope) (bs : List Byte) : State :=
  match loc with
  | .mem pa =>
    if !heldBack s t sc loc bs.length && isHbm pa then sendStore s t.core (.thread t.team t.tix) pa bs else s
  | _ => s

theorem storeSent_keeps {γ : Type} (g : State → γ)
    (h : ∀ (s : State) (c : Nat) (k : Core) (r : Tab Req), g { s.setCore c k with reqs := r } = g s) (s : State) (t : Thread)
    (loc : Loc) (sc : Scope) (bs : List Byte) : g (storeSent s t loc sc bs) = g s := by
  unfold storeSent
  cases loc with
  | mem pa =>
    dsimp only
    split
    · exact sendStore_keeps g h _ _ _ _ _
    · rfl
  | _ => rfl

theorem storeSent_memory (s : State) (t : Thread) (loc : Loc) (sc : Scope) (bs : List Byte) :
    SameMemory s (storeSent s t loc sc bs) :=
  sameMemory_of (storeSent_keeps State.mem (fun _ _ _ _ => rfl) s t loc sc bs)
    (storeSent_keeps (fun s => s.pkg.zeroings) (fun _ _ _ _ => rfl) s t loc sc bs)

theorem storeSent_threads (s : State) (t : Thread) (loc : Loc) (sc : Scope) (bs : List Byte) :
    (storeSent s t loc sc bs).threads = s.threads := storeSent_keeps State.threads (fun _ _ _ _ => rfl) s t loc sc bs

theorem storeSent_teams (s : State) (t : Thread) (loc : Loc) (sc : Scope) (bs : List Byte) :
    (storeSent s t loc sc bs).teams = s.teams := storeSent_keeps State.teams (fun _ _ _ _ => rfl) s t loc sc bs

/-- A release is not sent at issue. -/
theorem heldBack_of_release {s : State} {t : Thread} {sc : Scope} (loc : Loc) (n : Nat) (h : sc ≠ .th) :
    heldBack s t sc loc n = true := by
  cases sc with
  | th => exact absurd rfl h
  | _ => rfl

theorem storeSent_of_release {s : State} {t : Thread} {sc : Scope} (loc : Loc) (bs : List Byte) (h : sc ≠ .th) :
    storeSent s t loc sc bs = s := by
  unfold storeSent
  rw [heldBack_of_release loc _ h]
  cases loc <;> rfl

theorem storeSent_mem {s : State} {t : Thread} {sc : Scope} {pa : Nat} {bs : List Byte} (hh : isHbm pa = true)
    (hb : heldBack s t sc (.mem pa) bs.length = false) :
    storeSent s t (.mem pa) sc bs = sendStore s t.core (.thread t.team t.tix) pa bs :=
  if_pos (by rw [hb, hh]; rfl)

/-- A store outside the phase store buffer issues one request. -/
theorem issueStore_eq (s : State) (t : Thread) (i : Instr) (ea : DWord) (loc : Loc) (fn ipa : Nat) (sc : Scope) (bs : List Byte)
    (he : endsBlock i = false) :
    ∃ r, issueStore s t i ea loc fn ipa sc bs = advance (issued (storeSent s t loc sc bs) r) t i ∧
      Issued t r (some (clsOf loc .st)) (.store loc bs) ∧ r.after = sameBytes s t loc bs.length ∧ r.behind = releaseAfter s t sc ∧
      r.performed = false ∧ r.unsent = heldBack s t sc loc bs.length :=
  ⟨_, issueReq_advance _ _ _ _ _ _ he, ⟨rfl, rfl, rfl, rfl, rfl, rfl⟩, rfl, rfl, rfl, rfl⟩

/-! ## `st` at a location that has passed the check -/

theorem awaiting_over {s : State} {t : Thread} {p : Park} {k : State} (h : parkOver s t p = true) : awaiting s t p k = k := if_pos h

theorem awaiting_parks {s : State} {t : Thread} {p : Park} {k : State} (h : parkOver s t p = false) :
    awaiting s t p k = park s t p := if_neg (by rw [h]; exact Bool.false_ne_true)

theorem parkOver_drained (s : State) (t : Thread) : parkOver s t .drained = !drainLeft s t.core t.team := rfl

/-- A location whose stores no phase buffers: peer memory, Ethernet windows, register windows; or the phase buffers none. -/
theorem globalStore_unbuffered {s : State} {m : Team} {t : Thread} {i : Instr} {ea : DWord} {loc : Loc} {fn ipa : Nat} {sc : Scope}
    {bs : List Byte} (h : m.buffers = false) : globalStore s m t i ea loc fn ipa sc bs =
      withRoom s t .st (awaiting s t .drained (issueStore s t i ea loc fn ipa sc bs)) := by
  rw [globalStore, h]

theorem globalStore_buffered {s : State} {m : Team} {t : Thread} {i : Instr} {ea : DWord} {loc : Loc} {pa fn ipa : Nat} {sc : Scope}
    {bs : List Byte} (h : m.buffers = true) (hl : bufferAddr loc = some pa) :
    globalStore s m t i ea loc fn ipa sc bs = bufferStore s m t i ea loc pa fn ipa sc bs := by
  rw [globalStore, h, hl]

section
variable {s s1 : State} {m : Team} {t : Thread} {w : Width} {sc : Scope} {nt : Bool} {v base : Src} {imm : BitVec 24} {loc : Loc}
  {f ipa : Nat}

/-- What a store does at a location that takes it. -/
def storeAt (s : State) (m : Team) (t : Thread) (i : Instr) (ea : DWord) (loc : Loc) (fn ipa : Nat) (sc : Scope)
    (bs : List Byte) : State :=
  if (bufferAddr loc).isSome then globalStore s m t i ea loc fn ipa sc bs
  else withRoom s t (clsOf loc .st) (issueStore s t i ea loc fn ipa sc bs)

theorem Ready.exec_st (hr : Ready s m t (.st w sc nt v base imm) false [srcW w v, src2 base])
    (ha : Accesses s m t (rp t base + imm.signExtend 64) (widthBytes w) .store s1 loc f ipa) (hs : ∀ u o, loc ≠ .scratch u o) :
    (storable m w loc → exec (.st w sc nt v base imm) s = .next (storeAt s1 m t (.st w sc nt v base imm)
      (rp t base + imm.signExtend 64) loc f ipa sc (storedBytes t w v))) ∧
    (¬storable m w loc → exec (.st w sc nt v base imm) s = .next (permFault s1 t (rp t base + imm.signExtend 64))) := by
  have hx : exec (.st w sc nt v base imm) s = .next _ := hr.issue _
  rw [hx.trans (congrArg _ ha.goes_on), storeBytesOf_eq]
  cases loc with
  | mem => exact ⟨fun _ => rfl, fun h => absurd trivial h⟩
  | peer | eth => exact ⟨fun h => congrArg _ (if_neg (by rw [show m.idem = false from h]; exact Bool.false_ne_true)),
      fun h => congrArg _ (if_pos (Bool.of_not_eq_false h))⟩
  | notify => exact ⟨fun h => by obtain rfl : w = .w64 := h; rfl, fun h => congrArg _ (if_pos h)⟩
  | window => exact ⟨fun h => by obtain rfl : w = .w32 := h; rfl, fun h => congrArg _ (if_pos h)⟩
  | scratch u o => exact absurd rfl (hs u o)

end

theorem clsOf_of_bufferAddr {loc : Loc} (c : Cls) (h : bufferAddr loc ≠ none) : clsOf loc c = c := by
  cases loc with
  | mem => rfl
  | notify => rfl
  | _ => exact absurd rfl h

theorem storeAt_unbuffered {s : State} {m : Team} {t : Thread} {i : Instr} {ea : DWord} {loc : Loc} {fn ipa : Nat} {sc : Scope}
    {bs : List Byte} (h : m.buffers = false ∨ bufferAddr loc = none) : storeAt s m t i ea loc fn ipa sc bs =
      withRoom s t (clsOf loc .st)
        (if bufferAddr loc = none then issueStore s t i ea loc fn ipa sc bs
         else awaiting s t .drained (issueStore s t i ea loc fn ipa sc bs)) := by
  unfold storeAt
  by_cases hb : bufferAddr loc = none
  · rw [if_pos hb, hb]; rfl
  · rw [if_neg hb, if_pos (Option.isSome_iff_ne_none.mpr hb), clsOf_of_bufferAddr _ hb,
      globalStore_unbuffered (h.resolve_right hb)]

theorem storeAt_buffered {s : State} {m : Team} {t : Thread} {i : Instr} {ea : DWord} {loc : Loc} {pa fn ipa : Nat} {sc : Scope}
    {bs : List Byte} (h : m.buffers = true) (hl : bufferAddr loc = some pa) :
    storeAt s m t i ea loc fn ipa sc bs = bufferStore s m t i ea loc pa fn ipa sc bs := by
  rw [storeAt, if_pos (by rw [hl]; rfl), globalStore_buffered h hl]

/-! ## The phase store buffer -/

section
variable {s : State} {m : Team} {t : Thread} {i : Instr} {ea : DWord} {loc : Loc} {pa fn ipa : Nat} {sc : Scope} {bs : List Byte}

theorem bufferStore_waits (hc : countFull s t .st = false) (hw : sc ≠ .th ∨ sameBytes s t loc bs.length ≠ [])
    (he : endsBlock i = false) :
    ∃ r, bufferStore s m t i ea loc pa fn ipa sc bs = advance (issued s r) t i ∧ Issued t r (some .st) (.buffer loc bs) ∧
      r.after = sameBytes s t loc bs.length ∧ r.behind = releaseAfter s t sc := by
  have hno : ¬(sc = .th ∧ (sameBytes s t loc bs.length).isEmpty = true) := by
    rw [List.isEmpty_iff]
    rintro ⟨h1, h2⟩
    exact hw.elim (fun h => h h1) (fun h => h h2)
  rw [bufferStore, if_neg hno, withRoom_free hc]
  exact ⟨_, issueReq_advance _ _ _ _ _ _ he, ⟨rfl, rfl, rfl, rfl, rfl, rfl⟩, rfl, rfl⟩

variable (hc : countFull s t .st = false) (hw : ¬(sc ≠ .th ∨ sameBytes s t loc bs.length ≠ []))

include hw

theorem bufferStore_now : bufferStore s m t i ea loc pa fn ipa sc bs =
    match psbStore (s.core t.core) (t.buffered pa ea ipa bs) with
    | some c => withRoom s t .st (issueDone (s.setCore t.core c) t i .st)
    | none => withRoom s t .st (afterDemotion s m t fun s => issueStore s t i ea loc fn ipa sc bs) := by
  rw [not_or, Decidable.not_not, Decidable.not_not] at hw
  exact if_pos ⟨hw.1, List.isEmpty_iff.mpr hw.2⟩

include hc

theorem bufferStore_entry {c : Core} (hp : psbStore (s.core t.core) (t.buffered pa ea ipa bs) = some c) (he : endsBlock i = false) :
    ∃ r, bufferStore s m t i ea loc pa fn ipa sc bs = advance (credit (issued (s.setCore t.core c) r)) t i ∧ r.cls = some .st ∧
      r.act = .nothing ∧ r.complete = true := by
  rw [bufferStore_now hw, hp]
  dsimp only
  rw [withRoom_free hc]
  exact ⟨_, finish_quiet _ _ _ he, rfl, rfl, rfl⟩

/-- Where the buffer takes no entry, the phase is demoted, and the store waits until that has drained. -/
theorem bufferStore_demotes (hp : psbStore (s.core t.core) (t.buffered pa ea ipa bs) = none) (hb : m.buffers = true)
    (hf : m.frees = false) : bufferStore s m t i ea loc pa fn ipa sc bs =
      awaiting (demote s t.team m) t .drained (issueStore (demote s t.team m) t i ea loc fn ipa sc bs) := by
  have hd : (m.buffers && !(m.frees && drainLeft s t.core t.team)) = true := by rw [hb, hf]; rfl
  rw [bufferStore_now hw, hp]
  dsimp only
  rw [withRoom_free hc, afterDemotion, if_pos hd]

end

end Sys2Proof.Machine
end

section
/-! SUPPORT. A store that completes, from its address to its request. -/

namespace Sys2Proof.Machine

/-! ## What a translation leaves of the cores -/

theorem setTlb_psb (c : Nat) (s : State) (sel : TlbSel) (l : List Xlat) : ((s.setTlb sel l).core c).psb = (s.core c).psb := by
  have hset : ∀ (k : Nat) (x : Core), x.psb = (s.core k).psb → ((s.setCore k x).core c).psb = (s.core c).psb := by
    intro k x hx
    by_cases h : c = k
    · subst h; rw [State.core_setCore_same, hx]
    · rw [State.core_setCore_other s x h]
  cases sel with
  | vector k | fetch k => exact hset k _ rfl
  | mordant | dieOnly => rfl

theorem ignoresCache_psb (c : Nat) : IgnoresCache fun s => (s.core c).psb :=
  ⟨fun _ _ => rfl, fun _ _ => rfl, fun _ _ => rfl, fun _ _ _ => rfl⟩

theorem translate_psb (s : State) (sel : TlbSel) (fn va : Nat) (k : Right) (c : Nat) :
    ((translate s sel fn va k).1.core c).psb = (s.core c).psb :=
  translate_keeps (fun s => (s.core c).psb) (setTlb_psb c) (ignoresCache_psb c).llcRead s sel fn va k

/-- Settles O19: `exec_st` gives what happens at each kind of location; the last clause goes through the check as well. -/
theorem storesIssueRequests : Obligations.StoresIssueRequests := by
  unfold Obligations.StoresIssueRequests
  have notScratch {m : Team} {w : Width} {loc : Loc} (h : storable m w loc) : ∀ u o, loc ≠ .scratch u o := by
    rintro u o rfl
    exact h
  constructor
  · intro s m t w sc nt v base imm s1 loc f ipa i ea hr ha bs waits
    have hx (h : storable m w loc) := (hr.exec_st ha (notScratch h)).1 h
    refine ⟨fun h hc hb => ?full, fun h hb hl hc hd => ?drained, fun h hb hc hd => ?store, fun pa h hb hl hc => ?buffer,
      fun h hs => (hr.exec_st ha hs).2 h⟩
    case full =>
      rw [hx h, storeAt_unbuffered hb, withRoom_full hc]
    case drained =>
      rw [hx h, storeAt_unbuffered (.inl hb), withRoom_free hc, if_neg hl, awaiting_parks (by rw [parkOver_drained, hd]; rfl)]
    case store =>
      obtain ⟨r, he, hi, hafter, hbehind, hperf, hun⟩ :=
        issueStore_eq s1 t i ea loc f ipa sc bs rfl
      refine ⟨storeSent s1 t loc sc bs, r, ?_, hi, hafter, hbehind, hperf, hun, storeSent_memory _ _ _ _ _,
        storeSent_threads _ _ _ _ _, storeSent_teams _ _ _ _ _, storeSent_of_release _ _, ?_⟩
      · rw [hx h, storeAt_unbuffered hb, withRoom_free hc, ← he]
        split
        · rfl
        · next hne => rw [awaiting_over (by rw [parkOver_drained, hd hne]; rfl)]
      · rintro pa rfl hh hb
        exact storeSent_mem hh hb
    case buffer =>
      have hst : exec i s = .next (bufferStore s1 m t i ea loc pa f ipa sc bs) := by
        rw [hx h, storeAt_buffered hb hl]
      rw [hst]
      refine ⟨fun hw => ?_, fun c hw hp => ?_, fun hw hp hf => ?_⟩
      · obtain ⟨r, he, h⟩ := bufferStore_waits (i := i) hc hw rfl
        exact ⟨r, congrArg _ he, h⟩
      · obtain ⟨r, he, h⟩ := bufferStore_entry (i := i) hc hw hp rfl
        exact ⟨r, congrArg _ he, h⟩
      · intro sd
        rw [bufferStore_demotes hc hw hp hb hf]
        refine ⟨fun hd => by rw [awaiting_parks (by rw [parkOver_drained, hd]; rfl)], fun hd => ?_⟩
        obtain ⟨r, he, hi, -⟩ := issueStore_eq sd t i ea loc f ipa sc bs rfl
        refine ⟨storeSent sd t loc sc bs, r, ?_, ?_, congrArg (Tab.find · _) (storeSent_teams _ _ _ _ _), storeSent_memory _ _ _ _ _⟩
        · rw [awaiting_over (by rw [parkOver_drained, hd]; rfl), ← he]
        · rwa [clsOf_of_bufferAddr _ (by rw [hl]; exact Option.some_ne_none pa)] at hi
  · intro s m t w sc nt v base imm l e s1 x pa i ea hr hb hd hacq hal hl hw he hrt ht hp hc
    have hs1 : (translate s (.vector t.core) l.fn ea.toNat .w).1 = s1 := congrArg Prod.fst ht
    have ha : Accesses s m t ea (widthBytes w) .store s1 (.mem pa) l.fn (x.ipaAt ea.toNat) :=
      ⟨hacq, (checkAccess_aligned hal).trans (checkGlobal_memory hl hw he (by simpa [leaseAllows, Acc.right] using hrt) ht hp)⟩
    have hd1 : drainLeft s1 t.core t.team = false := by
      rw [drainLeft, ← hs1, translate_psb]
      exact hd
    have hc1 : countFull s1 t .st = false := by
      rw [countFull, countOf, ← hs1, translate_reqs]
      exact decide_eq_false (by rw [countOf] at hc; omega)
    obtain ⟨r, hi, hiss, -⟩ := issueStore_eq s1 t i ea (.mem pa) l.fn (x.ipaAt ea.toNat) sc (storedBytes t w v) rfl
    have hx : exec i s = .next (advance (issued (storeSent s1 t (.mem pa) sc (storedBytes t w v)) r) t i) := by
      rw [(hr.exec_st ha (fun _ _ => Loc.noConfusion)).1 trivial, storeAt_unbuffered (.inl hb), withRoom_free (c := clsOf (.mem pa) .st) hc1,
        if_neg (show bufferAddr (.mem pa) ≠ none from Option.some_ne_none pa), awaiting_over (by rw [parkOver_drained, hd1]; rfl)]
      exact congrArg _ hi
    have hmem : SameMemory s s1 := by
      rw [← hs1]
      exact sameMemory_of (translate_mem _ _ _ _ _) (translate_zeroings _ _ _ _ _)
    refine ⟨_, _, r, hx, List.mem_append_right _ (List.mem_singleton_self _), hiss,
      advance_thread (issued (storeSent s1 t (.mem pa) sc (storedBytes t w v)) r) t i,
      fun a => (storeSent_memory s1 t (.mem pa) sc (storedBytes t w v) a).trans (hmem a), fun a y h => ?_⟩
    rw [advance_other _ _ _ a y h]
    exact congrArg (Tab.find · (tkey a y)) ((storeSent_threads _ _ _ _ _).trans (by rw [← hs1, translate_threads]))

end Sys2Proof.Machine
end

section
/-! SUPPORT. Scratchpad accesses and atomics: their checks, and the request that each issues. -/

namespace Sys2Proof.Machine

/-! ## The check of a scratchpad offset (R129) -/

section
variable {m : Team} {off : Int} {n : Nat}

theorem checkScratch_misaligned (h : off % n ≠ 0) : checkScratch m off n = some .align := if_pos h

theorem checkScratch_outside (h : off % n = 0) (ho : off < 0 ∨ (m.scrSize : Int) < off + n) :
    checkScratch m off n = some .perm := (if_neg (not_not_intro h)).trans (if_pos ho)

theorem checkScratch_inside (h : off % n = 0) (h0 : 0 ≤ off) (h1 : off + n ≤ m.scrSize) : checkScratch m off n = none :=
  (if_neg (not_not_intro h)).trans (if_neg (by omega))

end

/-- A scratchpad access: the offset is checked, and then the access goes on. -/
def scratchAccess (s : State) (m : Team) (t : Thread) (off : Int) (n : Nat) (k : State) : State :=
  match checkScratch m off n with
  | some c => threadFault s t c {}
  | none => k

theorem Ready.exec_scratch {s : State} {m : Team} {t : Thread} {i : Instr} {fs : List RF} {off : Int} {n : Nat}
    (h : scratchForm t i = some (fs, off, n)) (hr : Ready s m t i false fs) :
    ∃ k, exec i s = .next (afterAcquire s t (scratchAccess s m t off n k)) := by
  cases i with
  | lds | sts | atoms | cass => cases h; exact ⟨_, hr.issue _⟩
  | _ => cases h

/-! ## Atomics -/

/-- The state in which the request of an atomic is added: its core's L1 has dropped its sectors where it is sent at once. -/
def atomicSent (s : State) (t : Thread) (loc : Loc) (sc : Scope) (n : Nat) : State :=
  match loc with
  | .mem pa => if !heldBack s t sc loc n && isHbm pa then sendAtomic s t.core pa n else s
  | _ => s

theorem atomicSent_keeps {γ : Type} (g : State → γ)
    (h : ∀ (s : State) (c : Nat) (k : Core) (r : Tab Req), g { s.setCore c k with reqs := r } = g s) (s : State) (t : Thread)
    (loc : Loc) (sc : Scope) (n : Nat) : g (atomicSent s t loc sc n) = g s := by
  unfold atomicSent
  cases loc with
  | mem pa =>
    dsimp only
    split
    · exact h _ _ _ _
    · rfl
  | _ => rfl

theorem atomicSent_memory (s : State) (t : Thread) (loc : Loc) (sc : Scope) (n : Nat) :
    SameMemory s (atomicSent s t loc sc n) :=
  sameMemory_of (atomicSent_keeps State.mem (fun _ _ _ _ => rfl) s t loc sc n)
    (atomicSent_keeps (fun s => s.pkg.zeroings) (fun _ _ _ _ => rfl) s t loc sc n)

theorem atomicSent_of_release {s : State} {t : Thread} {sc : Scope} (loc : Loc) (n : Nat) (h : sc ≠ .th) :
    atomicSent s t loc sc n = s := by
  unfold atomicSent
  rw [heldBack_of_release loc _ h]
  cases loc <;> rfl

theorem atomicSent_mem {s : State} {t : Thread} {sc : Scope} {pa n : Nat} (hh : isHbm pa = true)
    (hb : heldBack s t sc (.mem pa) n = false) : atomicSent s t (.mem pa) sc n = sendAtomic s t.core pa n :=
  if_pos (by rw [hb, hh]; rfl)

theorem issueAtomic_eq (s : State) (t : Thread) (i : Instr) (ea : DWord) (loc : Loc) (fn ipa n d : Nat) (sc : Scope) (act : Act)
    (he : endsBlock i = false) :
    ∃ r, issueAtomic s t i ea loc fn ipa n d sc act =
        advance (issued (atomicSent s t loc sc n) r) (t.markEmpty d (producerTag 1 t.pc) (n / 4)) i ∧
      Issued t r (some (clsOf loc .ld)) act ∧ r.performed = false ∧ r.acq = (if sc = .th then none else some sc) ∧
      r.unsent = heldBack s t sc loc n :=
  ⟨_, issueReq_advance _ _ _ _ _ _ he, ⟨rfl, rfl, rfl, rfl, rfl, rfl⟩, rfl, rfl, rfl⟩

/-- An atomic that a scratchpad holds: what it does once its offset has been checked. -/
theorem Ready.exec_scratchAtomic {s : State} {m : Team} {t : Thread} {i : Instr} {fs : List RF} {off : Int} {n : Nat}
    {sc : Scope} {ty : Ty} {d : Reg} {act : Act} (h : scratchForm t i = some (fs, off, n)) (hr : Ready s m t i false fs)
    (ha : atomicForm t (.scratch t.team off.toNat) i = some (sc, ty, d, act)) (hacq : acqPending s t.team t.tix = false)
    (hk : checkScratch m off n = none) (hc : countFull s t .ld = false) :
    exec i s = .next (issueAtomic s t i 0 (.scratch t.team off.toNat) 0 0 n d.toNat sc act) := by
  have key : ∀ k, afterAcquire s t (scratchAccess s m t off n (withRoom s t .ld k)) = k := by
    intro k
    rw [afterAcquire_over hacq, scratchAccess, hk, withRoom_free hc]
  cases i with
  | atoms | cass =>
    cases h
    cases ha
    exact (hr.issue _).trans (congrArg _ (key _))
  | lds | sts => cases ha
  | _ => cases h

/-- Settles O20: the check of the offset in order, then `lds`, `sts` and the atomics. -/
theorem scratchpadAccessesIssueRequests : Obligations.ScratchpadAccessesIssueRequests := by
  unfold Obligations.ScratchpadAccessesIssueRequests
  intro s m t i fs off n h hr hacq
  obtain ⟨k, hx⟩ := hr.exec_scratch h
  have fault {c : Code} (hk : checkScratch m off n = some c) : exec i s = .next (threadFault s t c {}) := by
    rw [hx, afterAcquire_over hacq, scratchAccess, hk]
  refine ⟨fun hn => fault (checkScratch_misaligned hn), fun hn ho => fault (checkScratch_outside hn ho), fun hn h0 h1 => ?_⟩
  have hk := checkScratch_inside hn h0 h1
  have goesOn (c : Cls) (hc : countFull s t c = false) (k : State) :
      afterAcquire s t (scratchAccess s m t off n (withRoom s t c k)) = k := by
    rw [afterAcquire_over hacq, scratchAccess, hk, withRoom_free hc]
  refine ⟨?lds, ?sts, ?atomic⟩
  case lds =>
    rintro w sc sx d base imm rfl hc
    cases h
    exact ⟨_, (hr.issue _).trans (congrArg _ ((goesOn .ld hc _).trans (issueReq_advance _ _ _ _ _ _ rfl))),
      ⟨rfl, rfl, rfl, rfl, rfl, rfl⟩, rfl⟩
  case sts =>
    rintro w sc v base imm rfl hc
    cases h
    refine ⟨_, (hr.issue _).trans (congrArg _ ((goesOn .st hc _).trans (issueReq_advance _ _ _ _ _ _ rfl))), rfl,
      ⟨rfl, rfl, ?_, rfl, rfl, rfl⟩⟩
    exact congrArg (Act.store _) (storeBytesOf_eq t w v)
  case atomic =>
    intro sc ty d act ha hc
    have he : endsBlock i = false := by
      cases i with
      | lds | sts | atoms | cass => rfl
      | _ => cases h
    obtain ⟨r, hi, hiss, hp, hq, -⟩ := issueAtomic_eq s t i 0 (.scratch t.team off.toNat) 0 0 n d.toNat sc act he
    exact ⟨r, (hr.exec_scratchAtomic h ha hacq hk hc).trans (congrArg _ hi), hiss, hp, hq⟩

/-! ## Atomics on memory and peer memory -/

/-- What an atomic does at a location that has passed the check. -/
theorem Ready.exec_globalAtomic {s s1 : State} {m : Team} {t : Thread} {i : Instr} {fs : List RF} {ea : DWord} {n : Nat}
    {sc : Scope} {ty : Ty} {d : Reg} {act : Act} {loc : Loc} {f ipa : Nat} (h : accessForm t i = some (fs, ea, n, .atomic))
    (hr : Ready s m t i false fs) (ha : Accesses s m t ea n .atomic s1 loc f ipa)
    (hact : atomicForm t loc i = some (sc, ty, d, act)) :
    (updatable m loc → exec i s = .next (withRoom s1 t (clsOf loc .ld) (issueAtomic s1 t i ea loc f ipa n d.toNat sc act))) ∧
    (¬updatable m loc → exec i s = .next (permFault s1 t ea)) := by
  have hx : exec i s = .next (match loc with
      | .window _ _ _ | .notify _ _ _ | .scratch _ _ => permFault s1 t ea
      | .peer _ _ | .eth _ _ => if m.idem then permFault s1 t ea else
        withRoom s1 t .fab (issueAtomic s1 t i ea loc f ipa n d.toNat sc act)
      | .mem _ => if m.idem then permFault s1 t ea else
        withRoom s1 t .ld (issueAtomic s1 t i ea loc f ipa n d.toNat sc act)) := by
    cases i with
    | atom | cas =>
      cases h
      cases hact
      refine Eq.trans (hr.issue _) (congrArg _ (ha.goes_on.trans ?_))
      cases loc <;> rfl
    | ld | ldc | st => cases hact
    | _ => cases h
  rw [hx]
  cases loc with
  | mem | peer | eth => exact ⟨fun h => congrArg _ (if_neg (by rw [show m.idem = false from h]; exact Bool.false_ne_true)),
      fun h => congrArg _ (if_pos (Bool.of_not_eq_false h))⟩
  | _ => exact ⟨fun h => h.elim, fun _ => rfl⟩

/-- Settles O21: `exec_globalAtomic` at each kind of location, with `atomicSent` for the L1. -/
theorem atomicsIssueRequests : Obligations.AtomicsIssueRequests := by
  unfold Obligations.AtomicsIssueRequests
  intro s m t i fs ea n s1 loc f ipa sc ty d act h hr ha hact
  obtain ⟨hyes, hno⟩ := hr.exec_globalAtomic h ha hact
  refine ⟨hno, fun hu hc => ?_⟩
  have he : endsBlock i = false := by
    cases i with
    | ld | st | ldc | atom | cas => rfl
    | _ => cases h
  obtain ⟨r, hi, hiss, hp, hq, hun⟩ := issueAtomic_eq s1 t i ea loc f ipa n d.toNat sc act he
  refine ⟨atomicSent s1 t loc sc n, r, (hyes hu).trans (congrArg _ ((withRoom_free hc).trans hi)), hiss, hp, hq,
    atomicSent_memory _ _ _ _ _, atomicSent_keeps State.threads (fun _ _ _ _ => rfl) _ _ _ _ _, hun, atomicSent_of_release _ _, ?_⟩
  rintro pa rfl hh hb
  exact atomicSent_mem hh hb

end Sys2Proof.Machine
end

section
/-! SUPPORT. What waits to be zeroed reads as zero already: zeroing it, as an access that reaches it does first, changes no byte
that is read. -/

namespace Sys2Proof.Machine

theorem get_zeroRange_inside (m : FMap Byte) {lo hi a : Nat} (h : lo ≤ a ∧ a < hi) : FMap.get 0 (zeroRange m lo hi) a = 0 := by
  induction m with
  | nil => rfl
  | cons p m ih =>
    obtain ⟨k, v⟩ := p
    rw [zeroRange, List.filter_cons]
    split
    · next hk =>
      have hne : k ≠ a := by rintro rfl; simp [h] at hk
      rw [FMap.get, if_neg hne]
      exact ih
    · exact ih

theorem get_zeroRange_outside (m : FMap Byte) {lo hi a : Nat} (h : ¬(lo ≤ a ∧ a < hi)) :
    FMap.get 0 (zeroRange m lo hi) a = FMap.get 0 m a := by
  induction m with
  | nil => rfl
  | cons p m ih =>
    obtain ⟨k, v⟩ := p
    rw [zeroRange, List.filter_cons]
    by_cases hka : k = a
    · subst hka
      have hk : (!(decide (lo ≤ k) && decide (k < hi))) = true := by rw [← Bool.decide_and, Bool.not_eq_true', decide_eq_false h]
      rw [if_pos hk, FMap.get, FMap.get, if_pos rfl, if_pos rfl]
    · rw [FMap.get, if_neg hka]
      split
      · rw [FMap.get, if_neg hka]
        exact ih
      · exact ih

theorem isHbm_iff (a : Nat) : isHbm a = true ↔ a < 0x8000000000 ∧ a % 0x2000000000 < dieBytes := by
  unfold isHbm physOf
  constructor
  · intro h
    refine Decidable.byContradiction fun hn => ?_
    by_cases h1 : a < 0x8000000000
    · rw [if_pos h1, if_neg fun h2 => hn ⟨h1, h2⟩] at h
      cases h
    · rw [if_neg h1] at h
      split at h
      · next hp =>
        split at hp
        · cases hp
        · split at hp <;> cases hp
      · cases h
  · rintro ⟨h1, h2⟩
    rw [if_pos h1, if_pos h2]

/-- Zeroing a range that waits for it, and that alone, changes no byte that is read. -/
theorem sameMemory_of_zeroed {s s' : State} (P : Nat → Prop) (hz : ∀ a, P a → FMap.get 0 s'.mem a = 0)
    (hk : ∀ a, ¬P a → FMap.get 0 s'.mem a = FMap.get 0 s.mem a) (hin : ∀ a, P a → readByte s a = 0)
    (hout : ∀ a, ¬P a → pageQueued s' a = pageQueued s a) : SameMemory s s' := by
  intro a
  by_cases h : P a
  · rw [hin a h, readByte, hz a h, ite_self]
  · rw [readByte, readByte, hout a h, hk a h]

/-- An address that waits to be zeroed reads as zero. -/
theorem readByte_queued {s : State} {a : Nat} (h : pageQueued s a = true) : readByte s a = 0 := by rw [readByte, h]; rfl

theorem SameMemory.trans {s s' s'' : State} (h : SameMemory s s') (h' : SameMemory s' s'') : SameMemory s s'' :=
  fun a => (h' a).trans (h a)

theorem SameMemory.refl (s : State) : SameMemory s s := fun _ => rfl

/-! ## The end of an APPLY (R347) -/

theorem wipeAll_get (s : State) (a : Nat) :
    FMap.get 0 (wipeAll s).mem a = if isHbm a = true then 0 else FMap.get 0 s.mem a := by
  have h : (wipeAll s).mem = zeroRange (zeroRange (zeroRange (zeroRange s.mem (0 * 0x2000000000) (0 * 0x2000000000 + dieBytes))
      (1 * 0x2000000000) (1 * 0x2000000000 + dieBytes)) (2 * 0x2000000000) (2 * 0x2000000000 + dieBytes))
      (3 * 0x2000000000) (3 * 0x2000000000 + dieBytes) := by rw [wipeAll_mem]; rfl
  rw [h]
  by_cases h3 : 3 * 0x2000000000 ≤ a ∧ a < 3 * 0x2000000000 + dieBytes
  · rw [get_zeroRange_inside _ h3, if_pos ((isHbm_iff a).mpr (by unfold dieBytes at *; omega))]
  rw [get_zeroRange_outside _ h3]
  by_cases h2 : 2 * 0x2000000000 ≤ a ∧ a < 2 * 0x2000000000 + dieBytes
  · rw [get_zeroRange_inside _ h2, if_pos ((isHbm_iff a).mpr (by unfold dieBytes at *; omega))]
  rw [get_zeroRange_outside _ h2]
  by_cases h1 : 1 * 0x2000000000 ≤ a ∧ a < 1 * 0x2000000000 + dieBytes
  · rw [get_zeroRange_inside _ h1, if_pos ((isHbm_iff a).mpr (by unfold dieBytes at *; omega))]
  rw [get_zeroRange_outside _ h1]
  by_cases h0 : 0 * 0x2000000000 ≤ a ∧ a < 0 * 0x2000000000 + dieBytes
  · rw [get_zeroRange_inside _ h0, if_pos ((isHbm_iff a).mpr (by unfold dieBytes at *; omega))]
  rw [get_zeroRange_outside _ h0, if_neg]
  intro h
  have := (isHbm_iff a).mp h
  unfold dieBytes at *
  omega

theorem finishApply_memory {s : State} (h : s.pkg.apply = true) : SameMemory s (finishApply s) := by
  refine sameMemory_of_zeroed (fun a => isHbm a = true) (fun a ha => ?_) (fun a ha => ?_) (fun a ha => ?_) (fun a ha => ?_)
  · exact (wipeAll_get s a).trans (if_pos ha)
  · exact (wipeAll_get s a).trans (if_neg ha)
  · exact readByte_queued (by simp [pageQueued, ha, h])
  · simp [pageQueued, Bool.eq_false_iff.mpr ha]

/-! ## The end of a mode change (R344) -/

/-- The bytes of a package group. -/
theorem groupOf_iff {g a : Nat} (hg : ∃ b, isHbm b = true ∧ groupOf b = g) :
    (groupBase g ≤ a ∧ a < groupBase g + 6 * 2 ^ 20) ↔ isHbm a = true ∧ groupOf a = g := by
  obtain ⟨b, hb, rfl⟩ := hg
  rw [isHbm_iff] at *
  unfold groupBase groupOf dieBytes at *
  generalize hd : b / 0x2000000000 = d at *
  generalize hy : b % 0x2000000000 / (6 * 2 ^ 20) = y at *
  have hy' : y < 18432 := by omega
  have hdiv : (d * 18432 + y) / 18432 = d := by omega
  have hmod : (d * 18432 + y) % 18432 = y := by omega
  rw [hdiv, hmod]
  have : d < 4 := by omega
  constructor
  · intro h
    have : a / 0x2000000000 = d := by omega
    have : a % 0x2000000000 = a - d * 0x2000000000 := by omega
    have : a % 0x2000000000 / (6 * 2 ^ 20) = y := by omega
    omega
  · rintro ⟨h1, h2⟩
    have : a % 0x2000000000 / (6 * 2 ^ 20) < 18432 := by omega
    have : a / 0x2000000000 = d := by omega
    have : a % 0x2000000000 / (6 * 2 ^ 20) = y := by omega
    omega

theorem finishPin_memory {s : State} {pa : Nat} (hh : isHbm pa = true) (hg : s.pkg.pinGo = true)
    (ht : groupOf pa = s.pkg.pinTarget.toNat) : SameMemory s (finishPin s) := by
  have hiff (a : Nat) := groupOf_iff (a := a) ⟨pa, hh, ht⟩
  refine sameMemory_of_zeroed (fun a => isHbm a = true ∧ groupOf a = s.pkg.pinTarget.toNat) (fun a ha => ?_) (fun a ha => ?_)
    (fun a ha => ?_) (fun a ha => ?_)
  · exact get_zeroRange_inside _ ((hiff a).mpr ha)
  · exact get_zeroRange_outside _ fun h => ha ((hiff a).mp h)
  · exact readByte_queued (by simp [pageQueued, ha, hg])
  · by_cases hb : isHbm a = true
    · have hne : (groupOf a == s.pkg.pinTarget.toNat) = false := beq_eq_false_iff_ne.mpr fun h => ha ⟨hb, h⟩
      unfold pageQueued
      rw [show (finishPin s).pkg.pinTarget = s.pkg.pinTarget from rfl, hne, Bool.and_false, Bool.and_false]
      rfl
    · simp [pageQueued, Bool.eq_false_iff.mpr hb]

/-! ## The scrub of a page (R375) -/

theorem isHbm_page {k a : Nat} (ha : a / 2 ^ 21 = k) : isHbm a = isHbm (k * 2 ^ 21) := by
  rw [Bool.eq_iff_iff, isHbm_iff, isHbm_iff]
  unfold dieBytes
  omega

/-- A page that has been scrubbed waits no more. -/
def unqueued (s : State) (p : Nat) : State := { s with pkg := { s.pkg with queued := s.pkg.queued.filter (· != p) } }

theorem unqueued_zeroings (s : State) (p : Nat) : (unqueued s p).pkg.zeroings =
    (s.pkg.zeroings.1.filter (· != p), s.pkg.zeroings.2) := rfl

theorem scrubPage_zeroings (s : State) (p : Nat) : (scrubPage s p).pkg.zeroings =
    (s.pkg.queued.filter (· != p), s.pkg.pinGo, s.pkg.pinTarget, s.pkg.apply) := by
  have h (l : List Nat) : (l.foldl (fun s i => countAccess s (p * 2 ^ 21 + 256 * i) 1)
      (wipe s (p * 2 ^ 21) (p * 2 ^ 21 + 2 ^ 21))).pkg.zeroings = s.pkg.zeroings :=
    foldl_same (fun s => s.pkg.zeroings) _ (fun s i => countAccess_zeroings s _ 1) l _
  have he : scrubPage s p = unqueued ((List.range 8192).foldl (fun s i => countAccess s (p * 2 ^ 21 + 256 * i) 1)
      (wipe s (p * 2 ^ 21) (p * 2 ^ 21 + 2 ^ 21))) p := by
    unfold scrubPage unqueued
    with_reducible rfl
  rw [he, unqueued_zeroings, h]
  rfl

/-- The scrub of a page that reads as zero, as one that waits does. -/
theorem scrubPage_memory {s : State} {k : Nat} (hz : ∀ a, a / 2 ^ 21 = k → readByte s a = 0) : SameMemory s (scrubPage s k) := by
  have hiff (a : Nat) : (k * 2 ^ 21 ≤ a ∧ a < k * 2 ^ 21 + 2 ^ 21) ↔ a / 2 ^ 21 = k := by omega
  have hzero := scrubPage_zeroings s k
  simp only [Pkg.zeroings, Prod.mk.injEq] at hzero
  obtain ⟨hqueue, hgo, htarget, happly⟩ := hzero
  refine sameMemory_of_zeroed (fun a => a / 2 ^ 21 = k) (fun a ha => ?_) (fun a ha => ?_) hz (fun a ha => ?_)
  · rw [scrubPage_mem]; exact get_zeroRange_inside _ ((hiff a).mpr ha)
  · rw [scrubPage_mem]; exact get_zeroRange_outside _ fun h => ha ((hiff a).mp h)
  · have hrest : (s.pkg.queued.filter (· != k)).contains (a / 2 ^ 21) = s.pkg.queued.contains (a / 2 ^ 21) := by
      rw [Bool.eq_iff_iff, List.contains_iff_mem, List.contains_iff_mem, List.mem_filter, bne_iff_ne]
      exact and_iff_left ha
    rw [pageQueued, pageQueued, hqueue, hgo, htarget, happly, hrest]

theorem scrubPages_memory (ks : List Nat) : ∀ s : State, (∀ k ∈ ks, ∀ a, a / 2 ^ 21 = k → readByte s a = 0) →
    SameMemory s (ks.foldl scrubPage s) := by
  induction ks with
  | nil => intro s _; exact .refl s
  | cons k ks ih =>
    intro s h
    have hk := scrubPage_memory (h k List.mem_cons_self)
    rw [List.foldl_cons]
    exact hk.trans (ih _ fun j hj a ha => (hk a).trans (h j (List.mem_cons_of_mem _ hj) a ha))

theorem scrubTo_memory (s : State) (pa : Nat) : SameMemory s (scrubTo s pa) := by
  unfold scrubTo
  split
  · next hq =>
    refine scrubPages_memory _ s fun k hk a ha => ?_
    obtain ⟨hk, hh⟩ := List.mem_filter.mp hk
    have hkq : k ∈ s.pkg.queued := by
      rcases List.mem_append.mp hk with hk | hk
      · exact (List.takeWhile_subset _) hk
      · rw [List.mem_singleton.mp hk]; exact List.contains_iff_mem.mp hq
    refine readByte_queued ?_
    rw [pageQueued, (isHbm_page ha).trans hh, ha, List.contains_iff_mem.mpr hkq]
    rfl
  · exact .refl s

/-! ## An access that reaches what waits (R344, R347, R375) -/

theorem awaitPage_memory (s : State) (pa : Nat) : SameMemory s (awaitPage s pa) := by
  unfold awaitPage
  split
  · next hq =>
    have hh : isHbm pa = true := by
      rw [pageQueued] at hq
      exact (Bool.and_eq_true_iff.mp hq).1
    have h1 : SameMemory s (if s.pkg.apply then finishApply s else s) := by
      split
      · next ha => exact finishApply_memory ha
      · exact .refl s
    refine h1.trans ?_
    generalize (if s.pkg.apply = true then finishApply s else s) = s1
    refine SameMemory.trans ?_ (scrubTo_memory _ pa)
    split
    · next hg =>
      obtain ⟨hgo, ht⟩ := Bool.and_eq_true_iff.mp hg
      exact finishPin_memory hh hgo (beq_iff_eq.mp ht)
    · exact .refl s1
  · exact .refl s

theorem awaitRun_memory (s : State) (pa n : Nat) : SameMemory s (awaitRun s pa n) :=
  foldl_keeps (SameMemory s) awaitPage (fun s' a h => h.trans (awaitPage_memory s' a)) _ s (.refl s)

theorem llcRead_memory (s : State) (fn pa n : Nat) : SameMemory s (llcRead s fn pa n) := fun a => readByte_llcRead s fn pa n a

/-- A read changes no byte that is read later, and returns the bytes as they stand. -/
theorem readMem_memory (s : State) (fn pa n : Nat) : SameMemory s (readMem s fn pa n).1 :=
  (awaitRun_memory s pa n).trans (llcRead_memory _ fn pa n)

theorem readMem_value (s : State) (fn pa n : Nat) : (readMem s fn pa n).2 = readBytes s pa n :=
  readBytes_congr (readMem_memory s fn pa n) pa n

end Sys2Proof.Machine
end

section
/-! SUPPORT. What reads and checks leave alone, each said once for any part of the state that they do not name; and fences. -/

namespace Sys2Proof.Machine

/-! ## Reads -/

/-- A part of the state that neither the caches nor the zeroing of what waits for it name. -/
structure IgnoresZeroing {γ : Type} (g : State → γ) : Prop where
  cache : IgnoresCache g
  wiped : ∀ (s : State) (lo hi : Nat), g (wipe s lo hi) = g s
  emptied : ∀ (s : State) (l : Tab Line) (c : FMap Core) (k : FMap Cluster),
    c = s.cores.map (fun p => (p.1, { p.2 with l1 := [], cc := [], ic := [] })) →
    g { s with llc := l, cores := c, clusters := k } = g s

section
variable {γ : Type} {g : State → γ} (h : IgnoresZeroing g)

include h

theorem IgnoresZeroing.finishApply (s : State) : g (finishApply s) = g s := by
  unfold Machine.finishApply wipeAll
  rw [h.cache.pkg, h.emptied _ _ _ _ rfl]
  exact foldl_same g _ (fun s d => h.wiped s _ _) _ s

theorem IgnoresZeroing.scrubTo (s : State) (pa : Nat) : g (scrubTo s pa) = g s := by
  unfold Machine.scrubTo
  split
  · exact foldl_same g scrubPage (fun s p =>
      (scrubPage_keeps g (countAccess_keeps g h.cache.pkg) h.cache.pkg s p).trans (h.wiped _ _ _)) _ s
  · rfl

theorem IgnoresZeroing.awaitPage (s : State) (pa : Nat) : g (awaitPage s pa) = g s := by
  have h1 : g (if s.pkg.apply then Machine.finishApply s else s) = g s := by
    split
    · exact h.finishApply s
    · rfl
  unfold Machine.awaitPage
  split
  · rw [← h1]
    refine (h.scrubTo _ pa).trans ?_
    generalize (if s.pkg.apply = true then Machine.finishApply s else s) = s1
    split
    · exact (h.cache.pkg _ _).trans (h.wiped s1 _ _)
    · rfl
  · rfl

theorem IgnoresZeroing.awaitRun (s : State) (pa n : Nat) : g (awaitRun s pa n) = g s := foldl_same g Machine.awaitPage h.awaitPage _ s

theorem IgnoresZeroing.readMem (s : State) (fn pa n : Nat) : g (readMem s fn pa n).1 = g s :=
  (h.cache.llcRead _ _ _ _).trans (h.awaitRun s pa n)

end

/-- A part of the state that holds none of what zeroing and the caches change. -/
theorem ignoresZeroing_of {γ : Type} {g : State → γ} (h : ∀ (s : State) (uid : Nat) (mem : FMap Byte) (dirty poison : FMap Bool)
    (llc : Tab Line) (cores : FMap Core) (clusters : FMap Cluster) (pkg : Pkg), g { s with
      uid := uid, mem := mem, dirty := dirty, poison := poison, llc := llc, cores := cores, clusters := clusters, pkg := pkg } = g s) :
    IgnoresZeroing g where
  cache := ⟨fun s _ => h s _ s.mem s.dirty s.poison s.llc s.cores s.clusters s.pkg,
    fun s _ => h s s.uid s.mem s.dirty s.poison _ s.cores s.clusters s.pkg,
    fun s _ => h s s.uid s.mem s.dirty s.poison s.llc s.cores s.clusters _,
    fun s _ _ => h s _ s.mem s.dirty s.poison _ s.cores s.clusters s.pkg⟩
  wiped s _ _ := h s s.uid _ _ _ _ _ _ s.pkg
  emptied s l c k _ := h s s.uid s.mem s.dirty s.poison l c k s.pkg

theorem ignoresZeroing_threads : IgnoresZeroing State.threads := ignoresZeroing_of fun _ _ _ _ _ _ _ _ _ => rfl
theorem ignoresZeroing_teams : IgnoresZeroing State.teams := ignoresZeroing_of fun _ _ _ _ _ _ _ _ _ => rfl
theorem ignoresZeroing_reqs : IgnoresZeroing State.reqs := ignoresZeroing_of fun _ _ _ _ _ _ _ _ _ => rfl
theorem ignoresZeroing_launches : IgnoresZeroing State.launches := ignoresZeroing_of fun _ _ _ _ _ _ _ _ _ => rfl
theorem ignoresZeroing_queues : IgnoresZeroing State.queues := ignoresZeroing_of fun _ _ _ _ _ _ _ _ _ => rfl
theorem ignoresZeroing_programs : IgnoresZeroing State.programs := ignoresZeroing_of fun _ _ _ _ _ _ _ _ _ => rfl

/-! ## Checks of accesses -/

theorem lookupVdn_keeps {γ : Type} {g : State → γ} (h : IgnoresZeroing g) (hd : ∀ (s : State) (d : Nat) (x : Die), g (s.setDie d x) = g s)
    (s : State) (die fn v : Nat) : g (lookupVdn s die fn v).1 = g s := by
  unfold lookupVdn
  split
  · rfl
  · split
    · rfl
    · exact (hd _ _ _).trans (h.readMem s fn _ 4)

theorem checkPeer_state (s : State) (die fn v o n ipa : Nat) (k : Acc) :
    (checkPeer s die fn v o n ipa k).1 = (lookupVdn s die fn v).1 := by
  unfold checkPeer
  split
  · next h => rw [h]
  · next h => rw [h]
  · next h => rw [h]; split <;> rfl
  · next h => rw [h]; split <;> rfl

/-- The check of a global access translates once, and looks one virtual device number up; it changes the state by nothing else. -/
theorem checkAccess_induct (P : State → Prop) {s : State} {core : Nat} {ea : DWord} {k : Acc} (hs : P s)
    (ht : ∀ fn, P (translate s (.vector core) fn ea.toNat k.right).1)
    (hl : ∀ s' die fn v, P s' → P (lookupVdn s' die fn v).1) (u : Nat) (m : Team) (n : Nat) :
    P (checkAccess s u m core ea n k).1 := by
  unfold checkAccess
  split
  · exact hs
  unfold checkGlobal
  dsimp only
  split
  · exact hs
  next l _ =>
  split
  · exact hs
  split
  · exact hs
  split
  · exact hs
  have ht := ht l.fn
  split
  · next heq => rw [heq] at ht; exact ht
  · next heq => rw [heq] at ht; exact ht
  · next heq =>
    rw [heq] at ht
    split
    · exact ht
    · exact ht
    · rw [checkPeer_state]; exact hl _ _ _ _ ht
    · split <;> exact ht

theorem checkAccess_keeps {γ : Type} {g : State → γ} (h : IgnoresZeroing g) (hT : ∀ s sel l, g (State.setTlb s sel l) = g s)
    (hd : ∀ (s : State) (d : Nat) (x : Die), g (s.setDie d x) = g s)
    (s : State) (u : Nat) (m : Team) (core : Nat) (ea : DWord) (n : Nat) (k : Acc) :
    g (checkAccess s u m core ea n k).1 = g s :=
  checkAccess_induct (fun s' => g s' = g s) rfl (fun _ => translate_keeps g hT h.cache.llcRead _ _ _ _ _)
    (fun _ _ _ _ hs => (lookupVdn_keeps h hd _ _ _ _).trans hs) u m n

theorem lookupVdn_memory (s : State) (die fn v : Nat) : SameMemory s (lookupVdn s die fn v).1 := by
  unfold lookupVdn
  split
  · exact .refl s
  · split
    · exact .refl s
    · exact (readMem_memory s fn _ 4).trans (sameMemory_of rfl rfl)

theorem translate_memory (s : State) (sel : TlbSel) (fn va : Nat) (k : Right) : SameMemory s (translate s sel fn va k).1 :=
  sameMemory_of (translate_mem s sel fn va k) (translate_zeroings s sel fn va k)

theorem checkAccess_memory (s : State) (u : Nat) (m : Team) (core : Nat) (ea : DWord) (n : Nat) (k : Acc) :
    SameMemory s (checkAccess s u m core ea n k).1 :=
  checkAccess_induct (SameMemory s) (.refl s) (fun _ => translate_memory _ _ _ _ _)
    (fun _ _ _ _ hs => hs.trans (lookupVdn_memory _ _ _ _)) u m n

/-! ## Fences, counts and marks -/

theorem parkOver_count (s : State) (t : Thread) (c : Cls) (n : Nat) :
    parkOver s t (.count c n) = decide (countOf s t.team t.tix c ≤ n) := rfl

theorem parkOver_release_iff (s : State) (t : Thread) (sc : Scope) : parkOver s t (.release (sc == .fab)) = false ↔
    (countOf s t.team t.tix .ld ≠ 0 ∨ countOf s t.team t.tix .st ≠ 0 ∨ (sc = .fab ∧ countOf s t.team t.tix .fab ≠ 0)) := by
  have hf : (sc == Scope.fab) = true ↔ sc = .fab := beq_iff_eq
  rw [parkOver, ← Bool.not_eq_true, Bool.and_eq_true, Bool.and_eq_true, Bool.or_eq_true, Bool.not_eq_true', beq_iff_eq, beq_iff_eq,
    beq_iff_eq, ← Bool.not_eq_true, hf]
  grind

theorem parkOver_loads (s : State) (t : Thread) (a : Option Scope) : parkOver s t (.loads a) = !loadsPending s t.team t.tix := rfl

/-- A prefetch changes caches, TLBs and their counters. -/
theorem Ready.exec_pf {s : State} {m : Team} {t : Thread} {nt : Bool} {base : Src} {imm : BitVec 24}
    (hr : Ready s m t (.pf nt base imm) false [src2 base]) :
    ∃ s1, exec (.pf nt base imm) s = .next (advance s1 t (.pf nt base imm)) ∧ SameMemory s s1 ∧ s1.threads = s.threads ∧
      s1.teams = s.teams ∧ s1.reqs = s.reqs := by
  have hx : exec (.pf nt base imm) s = .next _ := hr.issue _
  rw [hx]
  have hmem := checkAccess_memory s t.team m t.core (effAddr (rp t base) imm) 1 .load
  have hkeeps {γ : Type} {g : State → γ} (h : IgnoresZeroing g) (hT : ∀ s sel l, g (State.setTlb s sel l) = g s)
      (hd : ∀ (s : State) (d : Nat) (x : Die), g (s.setDie d x) = g s) :=
    checkAccess_keeps h hT hd s t.team m t.core (effAddr (rp t base) imm) 1 .load
  have hthreads := hkeeps ignoresZeroing_threads setTlb_threads fun _ _ _ => rfl
  have hteams := hkeeps ignoresZeroing_teams setTlb_teams fun _ _ _ => rfl
  have hreqs := hkeeps ignoresZeroing_reqs setTlb_reqs fun _ _ _ => rfl
  generalize checkAccess s t.team m t.core (effAddr (rp t base) imm) 1 .load = z at *
  obtain ⟨s1, c⟩ := z
  have stays : ∃ s2, Host.Outcome.next (finish s1 t (.pf nt base imm) 0) = (.next (advance s2 t (.pf nt base imm)) :
      Host.Outcome State Fault Refusal) ∧ SameMemory s s2 ∧ s2.threads = s.threads ∧ s2.teams = s.teams ∧ s2.reqs = s.reqs :=
    ⟨s1, congrArg _ (finish_quiet _ _ _ rfl), hmem, hthreads, hteams, hreqs⟩
  have fetched (fn pa : Nat) (c : Core) : ∃ s2, Host.Outcome.next (finish (if nt then (readMem s1 fn pa 256).1 else
      (readMem s1 fn pa 256).1.setCore t.core c) t (.pf nt base imm) 0) = (.next (advance s2 t (.pf nt base imm)) :
      Host.Outcome State Fault Refusal) ∧ SameMemory s s2 ∧ s2.threads = s.threads ∧ s2.teams = s.teams ∧ s2.reqs = s.reqs := by
    refine ⟨_, congrArg _ (finish_quiet _ _ _ rfl), ?_⟩
    have h := hmem.trans (readMem_memory s1 fn pa 256)
    have h1 := (ignoresZeroing_threads.readMem s1 fn pa 256).trans hthreads
    have h2 := (ignoresZeroing_teams.readMem s1 fn pa 256).trans hteams
    have h3 := (ignoresZeroing_reqs.readMem s1 fn pa 256).trans hreqs
    split
    · exact ⟨h, h1, h2, h3⟩
    · exact ⟨h.trans (sameMemory_of rfl rfl), h1, h2, h3⟩
  cases c with
  | ok loc fn ipa =>
    cases loc with
    | mem pa =>
      dsimp only
      split
      · exact fetched _ _ _
      · exact stays
    | _ => exact stays
  | _ => exact stays

/-- Settles O22: each word parks while `parkOver` is false, and else goes on; `exec_pf` for the prefetch. -/
theorem fencesCountsAndMarks : Obligations.FencesCountsAndMarks := by
  unfold Obligations.FencesCountsAndMarks
  refine ⟨fun s m t c n hr => ?wcnt, fun s m t k hr => ?none, fun s m t k sc hr hsc => ?fence, fun s m t hr hc => ?ifence,
    fun s m t nt base imm hr => hr.exec_pf, fun s m t win k d a hr => ?vmark⟩
  case wcnt =>
    refine (hr.issue _).trans (congrArg _ ?_)
    rw [awaiting, parkOver_count]
    by_cases h : countOf s t.team t.tix c ≤ n.toNat
    · rw [if_pos h, if_pos (decide_eq_true h), finish_quiet _ _ _ rfl]
    · rw [if_neg h, if_neg (by simpa using h)]
  case none => exact (hr.issue _).trans (congrArg _ (finish_quiet _ _ _ rfl))
  case fence =>
    intro waits
    have hx : exec (.fence k sc) s = .next _ := (hr.issue _).trans (congrArg _ (if_neg hsc))
    have hover : ¬waits → parkOver s t (.release (sc == .fab)) = true := fun h =>
      Bool.of_not_eq_false fun hf => h ((parkOver_release_iff s t sc).mp hf)
    have hparks : waits → parkOver s t (.release (sc == .fab)) = false := (parkOver_release_iff s t sc).mpr
    rw [hx]
    refine ⟨fun hk hw => ?_, fun hk hw => ?_, fun hk hl => ?_, fun hk hl => ?_⟩
    · cases k with
      | acq => exact absurd rfl hk
      | rel | ar => exact congrArg _ (awaiting_parks (hparks hw))
    · subst hk
      exact congrArg _ ((awaiting_over (hover hw)).trans (finish_quiet _ _ _ rfl))
    · have hacq : awaiting s t (.loads none) (finish (acquireCore s t.core sc) t (.fence k sc) 0) =
          advance (acquireCore s t.core sc) t (.fence k sc) :=
        (awaiting_over (by rw [parkOver_loads, hl]; rfl)).trans (finish_quiet _ _ _ rfl)
      rcases hk with rfl | ⟨rfl, hw⟩
      · exact congrArg _ hacq
      · exact congrArg _ ((awaiting_over (hover hw)).trans hacq)
    · subst hk
      exact congrArg _ (awaiting_parks (by rw [parkOver_loads, hl]; rfl))
  case ifence =>
    exact (hr.issue _).trans (congrArg _ ((awaiting_over (show parkOver s t .stores = true from beq_iff_eq.mpr hc)).trans (finish_quiet _ _ _ rfl)))
  case vmark =>
    intro h x
    refine (hr.issue _).trans (congrArg _ ?_)
    have hp : (handleProgram s t.team h).isSome =
        s.programs.any (fun p => p.2.team == t.team && p.2.system.isNone && p.2.seq.toNat % 2 ^ 28 == h) := by
      rw [handleProgram, List.isSome_find?]
    dsimp only
    rw [hp]
    exact finish_quiet _ _ _ rfl

end Sys2Proof.Machine
end

section
/-! SUPPORT. Meetings: the words that hold a thread, the sets that are complete, and the results of group meetings. -/

namespace Sys2Proof.Machine

/-! ## Words of a meeting -/

theorem meet_mode {s : State} {t : Thread} {i : Instr} {vs : List Word} (h : t.mode = true) :
    meet s t i vs = threadFault s t .illegal {} := if_pos h

theorem meet_holds {s : State} {t : Thread} {i : Instr} {vs : List Word} (h : t.mode = false) :
    meet s t i vs = testMeetings ((retire s t.team).setThread { t with place := .held (.meet i vs) }) t.team :=
  if_neg (by rw [h]; exact Bool.false_ne_true)

theorem release_over {s : State} {t : Thread} (hl : countOf s t.team t.tix .ld = 0) (hs : countOf s t.team t.tix .st = 0) :
    parkOver s t (.release false) = true := by
  rw [parkOver, hl, hs]; rfl

/-- With what it needs besides, a word of a meeting comes to the meeting. -/
theorem Ready.exec_meet {s : State} {m : Team} {t : Thread} {i : Instr} {fs : List RF} {vs : List Word}
    (h : meetForm t i = some (fs, vs)) (hr : Ready s m t i false fs) (hn : meetNeeds s m t i) :
    exec i s = .next (meet s t i vs) := by
  have notMode (k : State) (hk : t.mode = false → k = meet s t i vs) :
      (if t.mode then threadFault s t .illegal {} else k) = meet s t i vs := by
    cases hm : t.mode with
    | true => exact (meet_mode hm).symm
    | false => exact hk hm
  cases i with
  | shfl | vote | ballot | redux | gscan => cases h; exact hr.issue _
  | bqmax d a => cases h; exact (hr.issue _).trans (congrArg _ (if_neg (Nat.not_lt.mpr hn)))
  | bar sc =>
    cases h
    refine (hr.issue _).trans (congrArg _ (notMode _ fun _ => ?_))
    split
    · rfl
    · next hsc => exact awaiting_over (release_over (hn hsc).1 (hn hsc).2)
  | phase =>
    cases h
    obtain ⟨hnar, ⟨l, hl, hph⟩, hld, hst⟩ := hn
    refine (hr.issue _).trans (congrArg _ ?_)
    have hc : (t.mode || m.narrow || decide (l.nph ≤ m.phase + 1)) = t.mode := by
      rw [hnar, decide_eq_false (Nat.not_le.mpr hph), Bool.or_false, Bool.or_false]
    simp only [hl, hc]
    exact notMode _ fun _ => awaiting_over (release_over hld hst)
  | dqidle d =>
    cases h
    obtain ⟨l, hl, hdq⟩ := hn
    refine (hr.issue _).trans (congrArg _ ?_)
    simp only [hl, hdq]
    rfl
  | _ => cases h

/-! ## Sets that are not complete -/

theorem testSet_of_one_free {s : State} {m : Team} {whole : Bool} {ts : List Thread} {x : Thread} (hx : x ∈ ts)
    (h : heldAt x = none) : testSet s m whole ts = s := by
  match ts with
  | t :: ts =>
    rw [testSet]
    refine if_neg ?_
    rw [List.all_eq_true]
    intro hall
    have := hall x hx
    rw [h] at this
    cases this

/-- In a team of one group, a live thread that is not held at a meeting keeps every set from completing. -/
theorem testMeetings_of_one_free {s : State} {u : Nat} {m : Team} {x : Thread} (hm : s.team? u = some m) (hg : m.nthr = m.w)
    (hx : x ∈ liveOf s u) (h0 : x.tix / m.w = 0) (h : heldAt x = none) : testMeetings s u = s := by
  have hwhole (s' : State) (hs : s' = s) : (match s'.team? u with
      | some m' => if m'.runs then testSet s' m' true (liveOf s' u) else s' | none => s') = s := by
    subst hs
    rw [hm]
    dsimp only
    rw [testSet_of_one_free hx h, ite_self]
  have hgroups : List.range (m.nthr / m.w) = [] ∨ List.range (m.nthr / m.w) = [0] := by
    rw [hg]
    rcases Nat.eq_zero_or_pos m.w with hw | hw
    · left; rw [hw]; rfl
    · right; rw [Nat.div_self hw]; rfl
  unfold testMeetings
  rw [hm]
  dsimp only
  split
  · rfl
  · rcases hgroups with hr | hr
    · rw [hr]; exact hwhole s rfl
    · rw [hr]
      refine hwhole _ ?_
      rw [List.foldl_cons, List.foldl_nil, hm]
      dsimp only
      rw [testSet_of_one_free (List.mem_filter.mpr ⟨hx, by rw [h0]; rfl⟩) h, ite_self]

/-- Settles O23: the word comes to the meeting, and a free live thread keeps each set from completing. -/
theorem meetingWordsHoldTheThread : Obligations.MeetingWordsHoldTheThread := by
  unfold Obligations.MeetingWordsHoldTheThread
  intro s m t i fs vs h hr hn s1
  rw [hr.exec_meet h hn]
  refine ⟨fun hm => congrArg _ (meet_mode hm), fun hm => congrArg _ (meet_holds hm), fun hm hg ⟨x, hx, hl, h0, hh⟩ => ?_⟩
  obtain ⟨m', hteam, hsame⟩ := retire_team hr.team
  have hg' : m'.nthr = m'.w := by rw [← hsame]; exact hg
  have h0' : x.tix / m'.w = 0 := by rw [← hsame]; exact h0
  exact congrArg _ ((meet_holds hm).trans (testMeetings_of_one_free (m := m') hteam hg' (List.mem_filter.mpr ⟨hx, hl⟩) h0' hh))

end Sys2Proof.Machine
end

section
/-! SUPPORT. Complete group meetings: who leaves with what, and the result of each kind of word. -/

namespace Sys2Proof.Machine

/-! ## Completing a group -/

/-- The sources that a member has captured. -/
theorem captured_eq (x : Thread) : (match heldAt x with | some p => p.2 | none => []) = ((heldAt x).map (·.2)).getD [] := by
  cases heldAt x <;> rfl

theorem completeGroup_eq {m : Team} {i : Instr} (hi : ∀ d, i ≠ .dqidle d) (s : State) (ts : List Thread) :
    completeGroup s m i ts = ts.foldl (fun s x =>
      let r := meetResult i m.w (ts.map fun x => (x.tix % m.w, ((heldAt x).map (·.2)).getD []))
        (x.tix % m.w, ((heldAt x).map (·.2)).getD [])
      leaveMeeting s x (meetDest i) r.1 r.2) s := by
  have h : completeGroup s m i ts = ts.foldl (fun s t =>
      let x : Member := (t.tix % m.w, match heldAt t with | some p => p.2 | none => [])
      let r := meetResult i m.w (ts.map fun t => (t.tix % m.w, match heldAt t with | some p => p.2 | none => [])) x
      leaveMeeting s t (meetDest i) r.1 r.2) s := by
    cases i with
    | dqidle d => exact absurd rfl (hi d)
    | _ => rfl
  rw [h]
  simp only [captured_eq]

theorem testSet_group {s : State} {m : Team} {t : Thread} {ts : List Thread} {i : Instr} {vs : List Word}
    (ht : heldAt t = some (i, vs)) (hi : teamMeeting i = false)
    (hall : ∀ x ∈ t :: ts, ∃ ws, heldAt x = some (i, ws) ∧ x.pc = t.pc) :
    testSet s m false (t :: ts) = completeGroup s m i (t :: ts) := by
  rw [testSet, if_pos (List.all_eq_true.mpr fun x hx => by obtain ⟨ws, h, -⟩ := hall x hx; rw [h]; rfl),
    if_pos (List.all_eq_true.mpr fun x hx => by obtain ⟨ws, -, h⟩ := hall x hx; exact beq_iff_eq.mpr h), ht]
  dsimp only
  rw [hi]
  rfl

theorem testSet_mismatch {s : State} {m : Team} {whole : Bool} {t : Thread} {ts : List Thread}
    (hheld : ∀ x ∈ t :: ts, (heldAt x).isSome = true) (hne : ∃ x ∈ ts, x.pc ≠ t.pc) :
    testSet s m whole (t :: ts) = threadFault { s with freeCtr := s.freeCtr + 1 }
      ((t :: ts).getD ((Config.freeWord s.freeCtr).toNat % (t :: ts).length) t) .illegal {} := by
  rw [testSet, if_pos (List.all_eq_true.mpr hheld), if_neg]
  obtain ⟨x, hx, hpc⟩ := hne
  exact fun h => hpc (beq_iff_eq.mp (List.all_eq_true.mp h x (List.mem_cons_of_mem _ hx)))

theorem getD_mod_mem {α : Type} (l : List α) (n : Nat) (d : α) (h : l ≠ []) : l.getD (n % l.length) d ∈ l := by
  have hlt : n % l.length < l.length := Nat.mod_lt _ (List.length_pos_iff.mpr h)
  rw [List.getD_eq_getElem?_getD, List.getElem?_eq_getElem hlt, Option.getD_some]
  exact List.getElem_mem hlt

theorem leaveMeeting_quiet {s : State} {t : Thread} {d : Nat} {ws : List Word} {fl : FFlags}
    (h : enabled { t with fflags := t.fflags ||| BitVec.ofNat 32 fl.toNat } fl = false ∨ t.mode = true) :
    leaveMeeting s t d ws fl = arrive s ((t.writeList d ws).withFlags fl) (t.pc + 8) := by
  have hlist : ∀ (ws : List Word) (t : Thread) (d : Nat), (t.writeList d ws).fpctl = t.fpctl ∧
      (t.writeList d ws).mode = t.mode ∧ (t.writeList d ws).pc = t.pc := by
    intro ws
    induction ws with
    | nil => intro t d; exact ⟨rfl, rfl, rfl⟩
    | cons w ws ih => intro t d; exact ih (t.write d w) (d + 1)
  obtain ⟨hf, hm, hp⟩ := hlist ws t d
  have hen : enabled ((t.writeList d ws).withFlags fl) fl = enabled t fl := by
    rw [enabled, enabled, Thread.withFlags, hf]
  unfold leaveMeeting
  have hc : (enabled ((t.writeList d ws).withFlags fl) fl && !((t.writeList d ws).withFlags fl).mode) = false := by
    rw [hen, show ((t.writeList d ws).withFlags fl).mode = t.mode from hm]
    rcases h with h | h
    · rw [show enabled t fl = false from h]; rfl
    · rw [h]; exact Bool.and_false _
  refine (if_neg (by rw [← Thread.withFlags, hc]; exact Bool.false_ne_true)).trans ?_
  rw [hp]
  rfl

/-! ## `shfl` (R185) -/

theorem valueAt_of_unique {g : List Member} {j : Int} {y : Member} (hy : y ∈ g) (hj : (y.1 : Int) = j)
    (hu : ∀ z ∈ g, z.1 = y.1 → z = y) : valueAt g j = some y.a := by
  unfold valueAt
  have hsome : (g.find? fun x => (x.1 : Int) == j).isSome := List.find?_isSome.mpr ⟨y, hy, beq_iff_eq.mpr hj⟩
  obtain ⟨z, hz⟩ := Option.isSome_iff_exists.mp hsome
  have hzj : (z.1 : Int) = j := by simpa using List.find?_some hz
  have hzy := hu z (List.mem_of_find?_eq_some hz) (by omega)
  rw [hz, hzy]
  rfl

theorem valueAt_absent {g : List Member} {j : Nat} (h : ∀ y ∈ g, y.1 ≠ j) : valueAt g j = none := by
  unfold valueAt
  rw [List.find?_eq_none.mpr fun y hy hj => h y hy (Int.ofNat.inj (beq_iff_eq.mp hj : (y.1 : Int) = (j : Int)))]
  rfl

/-! ## `ballot` and `vote` (R186) -/

theorem ballotFold_getLsbD (g : List Member) (n k : Nat) (hn : n ≤ 64) :
    ((List.range n).foldl (fun r j => if predAt g j then r ||| BitVec.ofNat 64 (2 ^ j) else r) (0 : DWord)).getLsbD k =
      (decide (k < n) && predAt g k) := by
  induction n with
  | zero => simp
  | succ n ih =>
    have ih := ih (by omega)
    have hbit : (BitVec.ofNat 64 (2 ^ n)).getLsbD k = decide (n = k) := by
      rw [BitVec.getLsbD_ofNat, Nat.testBit_two_pow]
      by_cases h : n = k
      · simp [h]; omega
      · simp [h]
    rw [List.range_succ, List.foldl_append, List.foldl_cons, List.foldl_nil]
    by_cases hkn : k = n
    · subst hkn
      split
      · next hp => rw [BitVec.getLsbD_or, ih, hbit]; simp [hp]
      · next hp => rw [ih]; simp [hp]
    · have hlt : decide (k < n + 1) = decide (k < n) := decide_eq_decide.mpr (by omega)
      rw [hlt]
      split
      · rw [BitVec.getLsbD_or, ih, hbit, decide_eq_false (fun e : n = k => hkn e.symm), Bool.or_false]
      · exact ih

theorem boolWord_eq_one (b : Bool) : boolWord b = 1 ↔ b = true := by cases b <;> decide

theorem voteOf_every (w : Nat) (g : List Member) : voteOf .every w g = 1 ↔ ∀ j, j < w → predAt g j = true := by
  rw [voteOf, boolWord_eq_one, beq_iff_eq]
  constructor
  · intro h j hj
    have hlen : ((List.range w).filter (predAt g)).length = (List.range w).length := by rw [h, List.length_range]
    exact List.length_filter_eq_length_iff.mp hlen j (List.mem_range.mpr hj)
  · intro h
    rw [List.filter_eq_self.mpr fun j hj => h j (List.mem_range.mp hj), List.length_range]

theorem voteOf_some (w : Nat) (g : List Member) : voteOf .some w g = 1 ↔ ∃ j, j < w ∧ predAt g j = true := by
  rw [voteOf, boolWord_eq_one, decide_eq_true_iff, List.length_pos_iff_exists_mem]
  simp only [List.mem_filter, List.mem_range]

/-! ## `redux` and `gscan` of a wrapping sum (R187) -/

section
variable {t : Ty} (h : t.inX = true)

include h

theorem combine_add (r x : Word) : combine .add t r x = (r + x, 0) := if_neg (by rintro rfl; cases h)

theorem reduceFirst_add (w : Word) : reduceFirst t w = (w, 0) := if_neg (by rintro ⟨rfl, -⟩; cases h)

theorem foldl_combine_add (ws : List Word) : ∀ w : Word,
    ws.foldl (fun acc x => let r := combine .add t acc.1 x; (r.1, acc.2 ||| r.2)) (w, (0 : FFlags)) =
      (w + ws.foldr (· + ·) 0, 0) := by
  induction ws with
  | nil => intro w; simp
  | cons x ws ih =>
    intro w
    rw [List.foldl_cons, combine_add h, List.foldr_cons, ← BitVec.add_assoc]
    show List.foldl _ (w + x, (0 : FFlags) ||| 0) ws = _
    rw [show (0 : FFlags) ||| 0 = 0 by decide]
    exact ih (w + x)

theorem reduceList_add (ws : List Word) : reduceList .add t ws = (ws.foldr (· + ·) 0, 0) := by
  cases ws with
  | nil => rfl
  | cons w ws => rw [reduceList, reduceFirst_add h]; exact foldl_combine_add h ws w

end

/-- Settles O24: `completeGroup_eq` and the mismatch, then each kind of word. -/
theorem groupMeetingsGiveTheirResults : Obligations.GroupMeetingsGiveTheirResults := by
  unfold Obligations.GroupMeetingsGiveTheirResults
  refine ⟨⟨fun s m t ts i vs ht hi hd hall => ?complete, fun s t d ws fl h => leaveMeeting_quiet h,
      fun s m whole t ts hh hne => ?mismatch⟩,
    fun g x m _ w ⟨y, hy, hj, ha, hu⟩ => ?shfl, fun g x h => ?absent, fun g k => ballotFold_getLsbD g 64 k (Nat.le_refl _),
    fun w g => ⟨voteOf_every w g, voteOf_some w g, rfl⟩, fun t ws h => ?redux, fun t g x h => ?gscan⟩
  case complete => exact (testSet_group ht hi hall).trans (completeGroup_eq hd s _)
  case mismatch => exact ⟨_, getD_mod_mem _ _ t (List.cons_ne_nil t ts), testSet_mismatch hh hne⟩
  case shfl =>
    have hv := valueAt_of_unique hy hj hu
    cases m <;> (unfold shflOf; dsimp only at hv ⊢; rw [hv]; exact ha)
  case absent =>
    unfold shflOf
    dsimp only
    rw [valueAt_absent h]
    rfl
  case redux => rw [reduceList_add h]; exact ⟨rfl, rfl⟩
  case gscan =>
    rw [gscanOf, gscanOf, reduceList_add h, reduceList_add h]
    exact ⟨rfl, rfl⟩

end Sys2Proof.Machine
end

section
/-! SUPPORT. Counted barriers: their check, their 16 bytes, and an arrival. -/

namespace Sys2Proof.Machine

/-! ## The check of a barrier -/

section
variable {s : State} {m : Team} {t : Thread} {off : Nat} {k : State}

/-- A barrier's offset is checked, and then the access goes on. -/
def barrierChecked (s : State) (m : Team) (t : Thread) (off : Nat) (k : State) : State :=
  match checkScratch m off 16 with
  | some c => threadFault s t c {}
  | none => k

theorem barrierChecked_misaligned (h : off % 16 ≠ 0) : barrierChecked s m t off k = threadFault s t .align {} := by
  rw [barrierChecked, checkScratch_misaligned (by omega)]

theorem barrierChecked_outside (h : off % 16 = 0) (ho : m.scrSize < off + 16) :
    barrierChecked s m t off k = threadFault s t .perm {} := by
  rw [barrierChecked, checkScratch_outside (by omega) (by omega)]

theorem barrierChecked_inside (h : off % 16 = 0) (ho : off + 16 ≤ m.scrSize) : barrierChecked s m t off k = k := by
  rw [barrierChecked, checkScratch_inside (by omega) (by omega) (by omega)]

theorem withBarrier_goes_on (ha : acqPending s t.team t.tix = false) (h : off % 16 = 0) (ho : off + 16 ≤ m.scrSize)
    (hs : sameBytes s t (.scratch t.team off) 16 = []) : withBarrier s m t off k = k := by
  rw [withBarrier, afterAcquire_over ha]
  refine (barrierChecked_inside h ho).trans ?_
  rw [hs]
  rfl

end

/-- Every operation on a barrier waits for its thread's acquires and is then checked. -/
theorem Ready.exec_barrier {s : State} {m : Team} {t : Thread} {i : Instr} {fs : List RF} {off : Nat}
    (h : barrierForm t i = some (fs, off)) (hr : Ready s m t i false fs) :
    ∃ k, exec i s = .next (afterAcquire s t (barrierChecked s m t off k)) := by
  cases i with
  | cbinit | cbarr | cbtest | cbwait => cases h; exact ⟨_, hr.issue _⟩
  | _ => cases h

/-! ## An arrival (R198) -/

theorem leNat_lt (bs : List Byte) : leNat bs < 256 ^ bs.length := by
  induction bs with
  | nil => decide
  | cons b bs ih =>
    have := b.isLt
    rw [leNat, List.length_cons, Nat.pow_succ]
    omega

theorem sliceNat_lt (bs : List Byte) (off n : Nat) : sliceNat bs off n < 256 ^ n :=
  Nat.lt_of_lt_of_le (leNat_lt _) (Nat.pow_le_pow_right (by decide) (by rw [List.length_take]; exact Nat.min_le_left _ _))

/-- A field of the bytes kept is read where it was. -/
theorem sliceNat_drop_take (b : List Byte) (o l off n : Nat) (h : off + n ≤ l) :
    sliceNat ((b.drop o).take l) off n = sliceNat b (o + off) n := by
  rw [sliceNat, sliceNat, List.drop_take, List.drop_drop, List.take_take, Nat.min_eq_left (by omega)]

/-- A field after the first bytes. -/
theorem sliceNat_append_right (a b : List Byte) (off n : Nat) (h : a.length ≤ off) :
    sliceNat (a ++ b) off n = sliceNat b (off - a.length) n := by
  rw [sliceNat, sliceNat, List.drop_append, List.drop_of_length_le h, List.nil_append]

section
variable (b : List Byte) (n : Nat)

/-- What an arrival makes of ARR, of the byte of PH and of the completions. -/
def arrivalCount : Nat := if sliceNat b 0 4 = 0 then 1 else (sliceNat b 4 4 + n) / sliceNat b 0 4
def arrivalLeft : Nat := if sliceNat b 0 4 = 0 then 0 else (sliceNat b 4 4 + n) % sliceNat b 0 4
def arrivalPh : Nat := sliceNat b 8 1 / 2 * 2 + (sliceNat b 8 1 % 2 + arrivalCount b n) % 2

theorem arrival_eq : arrival b n = b.take 4 ++ leBytes 4 (arrivalLeft b n) ++ leBytes 1 (arrivalPh b n) ++ (b.drop 9).take 3 ++
    leBytes 4 (sliceNat b 12 4 + arrivalCount b n) := rfl

variable {b} (hb : b.length = 16)

include hb

theorem arrival_fields : (arrival b n).length = 16 ∧ sliceNat (arrival b n) 0 4 = sliceNat b 0 4 ∧
    sliceNat (arrival b n) 4 4 = arrivalLeft b n % 256 ^ 4 ∧ sliceNat (arrival b n) 8 1 = arrivalPh b n % 256 ^ 1 ∧
    sliceNat (arrival b n) 9 1 = sliceNat b 9 1 ∧
    sliceNat (arrival b n) 12 4 = (sliceNat b 12 4 + arrivalCount b n) % 256 ^ 4 := by
  have h4 : (b.take 4).length = 4 := by rw [List.length_take, hb]; rfl
  have h3 : ((b.drop 9).take 3).length = 3 := by rw [List.length_take, List.length_drop, hb]; rfl
  have hfirst : sliceNat (b.take 4) 0 4 = sliceNat b 0 4 := sliceNat_drop_take b 0 4 0 4 (by decide)
  have hkept : sliceNat ((b.drop 9).take 3) 0 1 = sliceNat b 9 1 := sliceNat_drop_take b 9 3 0 1 (by decide)
  rw [arrival_eq]
  refine ⟨?_, ?_, ?_, ?_, ?_, ?_⟩
  · simp only [List.length_append, length_leBytes, h4, h3]
  · simpa [-List.append_assoc, sliceNat_append, length_leBytes, h4, h3] using hfirst
  · simp [-List.append_assoc, sliceNat_append, sliceNat_last, length_leBytes, h4, h3]
  · simp [-List.append_assoc, sliceNat_append, sliceNat_last, length_leBytes, h4, h3]
  · rw [sliceNat_append _ _ _ _ (by simp [length_leBytes, h4, h3]), sliceNat_append_right _ _ _ _ (by simp [length_leBytes, h4])]
    simpa [length_leBytes, h4] using hkept
  · exact sliceNat_last _ _ _ _ (by simp [length_leBytes, h4, h3])

end

/-- Settles O25: the check of each operation, what it does after it, and the fields of an arrival. -/
theorem countedBarriersCountAndFlip : Obligations.CountedBarriersCountAndFlip := by
  unfold Obligations.CountedBarriersCountAndFlip
  refine ⟨⟨fun s m t i fs off h hr => ?check, fun s m t a b hr ha => ?cbinit, fun s m t sc a b hr ha h0 h1 hc hw => ?cbarr,
    fun s m t d a hr ha h0 h1 hc => ?cbtest, fun s m t a b hr ha h0 h1 hs => ?cbwait⟩, fun b n hb hn => ?arrival⟩
  case check =>
    obtain ⟨k, hx⟩ := hr.exec_barrier h
    rw [hx]
    refine ⟨fun ha => congrArg _ (afterAcquire_pending ha), fun ha hn => congrArg _ ?_, fun ha hn ho => congrArg _ ?_⟩
    · rw [afterAcquire_over ha, barrierChecked_misaligned hn]
    · rw [afterAcquire_over ha, barrierChecked_outside hn ho]
  case cbinit =>
    obtain ⟨k, hx⟩ := hr.exec_barrier (i := .cbinit a b) rfl
    refine ⟨fun hn => ?_, fun hn ho => ?_, fun h0 h1 hs => ?_⟩
    · rw [hx, afterAcquire_over ha, barrierChecked_misaligned hn]
    · rw [hx, afterAcquire_over ha, barrierChecked_outside hn ho]
    · exact (hr.issue _).trans (congrArg _ ((withBarrier_goes_on ha h0 h1 hs).trans (finish_quiet _ _ _ rfl)))
  case cbarr =>
    have hgo (k : State) : afterAcquire s t (barrierChecked s m t (rw t a).toNat
        (if sc = .th then withRoom s t .st k else awaiting s t (.release false) (withRoom s t .st k))) = k := by
      rw [afterAcquire_over ha, barrierChecked_inside h0 h1, withRoom_free hc]
      split
      · rfl
      · next hsc => exact awaiting_over (release_over (hw.resolve_left hsc).1 (hw.resolve_left hsc).2)
    exact ⟨_, (hr.issue _).trans (congrArg _ ((hgo _).trans (issueReq_advance _ _ _ _ _ _ rfl))), rfl, rfl, rfl, rfl, rfl, rfl⟩
  case cbtest =>
    have hgo (k : State) : afterAcquire s t (barrierChecked s m t (rw t a).toNat (withRoom s t .ld k)) = k := by
      rw [afterAcquire_over ha, barrierChecked_inside h0 h1, withRoom_free hc]
    exact ⟨_, (hr.issue _).trans (congrArg _ ((hgo _).trans (issueReq_advance _ _ _ _ _ _ rfl))), rfl, rfl, rfl, rfl, rfl, rfl⟩
  case cbwait =>
    intro ph
    have hx : exec (.cbwait a b) s = .next (if ph != (rw t b).getLsbD 0 then finishAcq s t (.cbwait a b) .cl else
        hold (retire s t.team) t (.cbwait (rw t a).toNat ((rw t b).getLsbD 0))) :=
      (hr.issue _).trans (congrArg _ (withBarrier_goes_on ha h0 h1 hs))
    rw [hx]
    exact ⟨fun h => congrArg _ (if_pos (bne_iff_ne.mpr h)), fun h => congrArg _ (if_neg (by simp [h]))⟩
  case arrival =>
    intro k r
    obtain ⟨hlen, hexp, harr, hph, htag, hcnt⟩ := arrival_fields n hb
    have hx := sliceNat_lt b 0 4
    have hp := sliceNat_lt b 8 1
    refine ⟨hlen, hexp, harr.trans ?_, ?_, htag, hcnt⟩
    · refine Nat.mod_eq_of_lt ?_
      unfold arrivalLeft
      split
      · decide
      · next h0 => exact Nat.lt_trans (Nat.mod_lt _ (Nat.pos_of_ne_zero h0)) hx
    · have hk : k = arrivalCount b n := rfl
      rw [show sliceNat r 8 1 = _ from hph, arrivalPh, ← hk]
      omega

end Sys2Proof.Machine
end

section
/-! SUPPORT. The words of the deque: its declared use, their waits, and the entries that they move. -/

namespace Sys2Proof.Machine

/-! ## Declared use and demotion (R202, R174) -/

section
variable {s : State} {m : Team} {t : Thread} {k : State → State}

theorem buffers_of_not_idem (h : m.idem = false) : m.buffers = false := by rw [Team.buffers, h]; rfl

theorem afterDemotion_unbuffered (h : m.buffers = false) : afterDemotion s m t k = awaiting s t .drained (k s) := by
  rw [afterDemotion, h]; rfl

/-- Outside a phase that buffers its stores, with none of a demoted one left, nothing is to be demoted. -/
theorem afterDemotion_goes_on (h : m.buffers = false) (hd : drainLeft s t.core t.team = false) : afterDemotion s m t k = k s := by
  rw [afterDemotion_unbuffered h, awaiting_over (by rw [parkOver_drained, hd]; rfl)]

theorem afterDemotion_parks (h : m.buffers = false) (hd : drainLeft s t.core t.team = true) :
    afterDemotion s m t k = park s t .drained := by
  rw [afterDemotion_unbuffered h, awaiting_parks (by rw [parkOver_drained, hd]; rfl)]

variable {l : Launch} {K : State → Launch → State} (hl : s.launch? m.launch = some l)

include hl

theorem withDeque_undeclared (h : l.dq = false) : withDeque s m t K = threadFault s t .perm {} := by
  simp [withDeque, hl, h]

theorem withDeque_declared (h : l.dq = true) : withDeque s m t K = afterDemotion s m t fun s => K s l := by
  simp [withDeque, hl, h]

end

/-! ## Spilling and refilling -/

theorem spillFor_room {s : State} {u : Nat} {l : Launch} {num core : Nat} (h : (s.core core).deque.length < 64) :
    spillFor s u l num core = .ok s := if_pos h

theorem refill_held {s : State} {l : Launch} {core : Nat} (h : (s.core core).deque ≠ []) : refill s l core = .ok s := by
  unfold refill
  dsimp only
  split
  · next hd _ => exact absurd hd h
  · rfl

theorem refill_nothing {s : State} {l : Launch} {core : Nat} (h : (s.core core).spill = []) : refill s l core = .ok s := by
  unfold refill
  dsimp only
  rw [h]
  split
  · next hs => cases hs
  · rfl

/-! ## Filling D to D + 7 with an entry -/

/-- The state in which the request of an entry is added: the launch has counted what it received. -/
def entryTaken (s : State) (t : Thread) (launch : Nat) (e : Option DqEntry) : State :=
  if e.isSome then s.updLaunch launch fun l => { l with recv := addCount l.recv (dieOf t.core) } else s

def entryWords : Option DqEntry → List Word
  | some e => [lowWord e.ea, highWord e.ea] ++ e.args
  | none => List.replicate 8 0

theorem produceEntry_eq (s : State) (t : Thread) (i : Instr) (d : Reg) (launch : Nat) (e : Option DqEntry)
    (he : endsBlock i = false) :
    ∃ r, produceEntry s t i d launch e =
        advance (issued (entryTaken s t launch e) r) (t.markEmpty d.toNat (producerTag 1 t.pc) 8) i ∧
      Issued t r (some .ld) (.value d.toNat (entryWords e) 0 false) ∧ r.acq = if e.isSome then some .dev else none :=
  ⟨_, issueReq_advance _ _ _ _ _ _ he, ⟨rfl, rfl, by cases e <;> rfl, rfl, rfl, rfl⟩, rfl⟩

theorem entryTaken_core (s : State) (t : Thread) (launch : Nat) (e : Option DqEntry) (c : Nat) :
    (entryTaken s t launch e).core c = s.core c := by
  unfold entryTaken; split <;> rfl

theorem entryTaken_memory (s : State) (t : Thread) (launch : Nat) (e : Option DqEntry) : SameMemory s (entryTaken s t launch e) := by
  unfold entryTaken; split <;> exact sameMemory_of rfl rfl

/-! ## The words -/

section
variable {s : State} {m : Team} {t : Thread} {d : Reg} {l : Launch}

theorem Ready.exec_dqpush {a b : Src} (hr : Ready s m t (.dqpush d a b) false [src2 a, srcN b 6 1, dst1 d])
    (hl : s.launch? m.launch = some l) (hu : l.dq = true) (hi : m.idem = false) (hd : drainLeft s t.core t.team = false)
    (hld : countOf s t.team t.tix .ld = 0) (hst : countOf s t.team t.tix .st = 0) :
    exec (.dqpush d a b) s = .next (if (rp t a).toNat % 8 ≠ 0 then threadFault s t .align {}
      else if rp t a = 0 then finish s (t.write d.toNat 0) (.dqpush d a b) 0
      else match spillFor s m.launch l m.num t.core with
        | .full s => finish s (t.write d.toNat 0) (.dqpush d a b) 0
        | .failed s va => threadFault s t .save { addr := va }
        | .stalled s ipa va info => stallArea s t l.fn ipa va info
        | .ok s => releaseIdle (finish ((s.setCore t.core { s.core t.core with
            deque := (s.core t.core).deque ++ [⟨rp t a, (List.range 6).map fun j => t.word (b.r.toNat + j)⟩] }).updLaunch m.launch
              fun l => { l with sent := addCount l.sent (dieOf t.core) }) (t.write d.toNat 1) (.dqpush d a b) 0) m.launch) := by
  have hx : exec (.dqpush d a b) s = .next _ := hr.issue _
  rw [hx, hl]
  dsimp only
  rw [if_neg (by rw [hu]; exact Bool.false_ne_true), awaiting_over (release_over hld hst), withDeque_declared hl hu,
    afterDemotion_goes_on (buffers_of_not_idem hi) hd] <;> rfl

theorem Ready.exec_dqpop (hr : Ready s m t (.dqpop d) false [dstN d 8 8]) (hl : s.launch? m.launch = some l) (hu : l.dq = true)
    (hb : m.buffers = false) (hd : drainLeft s t.core t.team = false) (hc : countFull s t .ld = false)
    (hf : refill s l t.core = .ok s) :
    exec (.dqpop d) s = .next (produceEntry (s.setCore t.core { s.core t.core with deque := (s.core t.core).deque.dropLast }) t
      (.dqpop d) d m.launch (s.core t.core).deque.getLast?) := by
  have hx : exec (.dqpop d) s = .next _ := hr.issue _
  rw [hx, withDeque_declared hl hu, afterDemotion_goes_on hb hd, withRoom_free hc, hf]

/-- Whether a core's deque is the launch's, with something in it or spilled. -/
def holdsWork (s : State) (launch c : Nat) : Bool :=
  (s.core c).dqOwner == some launch && (!(s.core c).deque.isEmpty || !(s.core c).spill.isEmpty)

theorem Ready.exec_dqsteal (hr : Ready s m t (.dqsteal d) false [dstN d 8 8]) (hl : s.launch? m.launch = some l)
    (hu : l.dq = true) (hb : m.buffers = false) (hd : drainLeft s t.core t.team = false) (hc : countFull s t .ld = false) :
    ((stealOrder t.core).find? (holdsWork s m.launch) = none →
      exec (.dqsteal d) s = .next (produceEntry s t (.dqsteal d) d m.launch none)) ∧
    (∀ v, (stealOrder t.core).find? (holdsWork s m.launch) = some v → refill s l v = .ok s →
      exec (.dqsteal d) s = .next (produceEntry (leaveDeque (s.setCore v { s.core v with deque := (s.core v).deque.drop 1 }) v) t
        (.dqsteal d) d m.launch (s.core v).deque.head?)) := by
  have hx : exec (.dqsteal d) s = .next _ := hr.issue _
  rw [hx, withDeque_declared hl hu, afterDemotion_goes_on hb hd, withRoom_free hc]
  unfold holdsWork
  refine ⟨fun h => ?_, fun v h hf => ?_⟩
  · dsimp only
    rw [h]
  · dsimp only
    rw [h]
    dsimp only
    rw [hf]

end

theorem leaveDeque_deque (s : State) (c : Nat) : ((leaveDeque s c).core c).deque = (s.core c).deque := by
  unfold leaveDeque
  dsimp only
  split
  · split
    · rw [State.core_setCore_same]
    · rfl
  · rfl

theorem leaveDeque_memory (s : State) (c : Nat) : SameMemory s (leaveDeque s c) := by
  unfold leaveDeque
  dsimp only
  split
  · split <;> exact sameMemory_of rfl rfl
  · exact .refl s

/-- Settles O26: declared use first, then the waits, then the entries that each word moves. -/
theorem dequeWordsMoveEntries : Obligations.DequeWordsMoveEntries := by
  unfold Obligations.DequeWordsMoveEntries
  refine ⟨fun s m t i l _ hl hu => ?undeclared, fun s m t d a b l hr hl hu hi hd hld hst => ?push,
    fun s m t d l hr hl hu hi hd hc => ?pop, fun s m t i l ⟨d, hform, hr⟩ hl hu hb hd => ?parks,
    fun s m t d l hr hl hu hi hd hc => ?steal⟩
  case undeclared =>
    have hno : (!l.dq) = true := by rw [hu]; rfl
    refine ⟨?_, ?_, ?_⟩
    · rintro d a b rfl hr
      refine (hr.issue _).trans (congrArg _ ?_)
      simp only [hl]
      exact if_pos hno
    · rintro d (rfl | rfl) hr
      · exact (hr.issue _).trans (congrArg _ (withDeque_undeclared hl hu))
      · exact (hr.issue _).trans (congrArg _ (withDeque_undeclared hl hu))
    · rintro d rfl hr
      refine (hr.issue _).trans (congrArg _ ?_)
      simp only [hl]
      exact if_pos hno
  case push =>
    rw [hr.exec_dqpush hl hu hi hd hld hst]
    refine ⟨fun h => congrArg _ (if_pos h), fun h => congrArg _ ?_, fun h h0 hroom => ?_⟩
    · rw [if_neg (by rw [h]; exact fun h => h rfl), if_pos h, finish_quiet _ _ _ rfl]
    · intro e s1 s2
      rw [if_neg (not_not_intro h), if_neg h0, spillFor_room hroom]
      exact congrArg (fun x => Host.Outcome.next (releaseIdle x m.launch)) (finish_quiet _ _ _ rfl)
  case pop =>
    have hb := buffers_of_not_idem hi
    refine ⟨fun hempty hspill => ?_, fun es e he => ?_⟩
    · obtain ⟨r, hx, hiss, hacq⟩ := produceEntry_eq (s.setCore t.core { s.core t.core with deque := (s.core t.core).deque.dropLast })
        t (.dqpop d) d m.launch (s.core t.core).deque.getLast? rfl
      have hlast : (s.core t.core).deque.getLast? = none := by rw [hempty]; rfl
      rw [hlast] at hiss hacq
      exact ⟨r, _, (hr.exec_dqpop hl hu hb hd hc (refill_nothing hspill)).trans (congrArg _ hx), hiss, hacq,
        (sameMemory_of rfl rfl).trans (entryTaken_memory _ t m.launch _)⟩
    · have hne : (s.core t.core).deque ≠ [] := by rw [he]; exact List.append_ne_nil_of_right_ne_nil _ (List.cons_ne_nil _ _)
      obtain ⟨r, hx, hiss, hacq⟩ := produceEntry_eq (s.setCore t.core { s.core t.core with deque := (s.core t.core).deque.dropLast })
        t (.dqpop d) d m.launch (s.core t.core).deque.getLast? rfl
      have hlast : (s.core t.core).deque.getLast? = some e := by rw [he, List.getLast?_concat]
      rw [hlast] at hiss hacq
      refine ⟨r, _, (hr.exec_dqpop hl hu hb hd hc (refill_held hne)).trans (congrArg _ hx), hiss, hacq, ?_,
        (sameMemory_of rfl rfl).trans (entryTaken_memory _ t m.launch _)⟩
      rw [entryTaken_core, State.core_setCore_same]
      dsimp only
      rw [he, List.dropLast_concat]
  case parks =>
    rcases hform with rfl | rfl
    · exact (hr.issue _).trans (congrArg _ ((withDeque_declared hl hu).trans (afterDemotion_parks hb hd)))
    · exact (hr.issue _).trans (congrArg _ ((withDeque_declared hl hu).trans (afterDemotion_parks hb hd)))
  case steal =>
    obtain ⟨hnone, hfound⟩ := hr.exec_dqsteal hl hu (buffers_of_not_idem hi) hd hc
    refine ⟨fun hown => ?_, fun v before after e es horder hbefore hv he => ?_⟩
    · obtain ⟨r, hx, hiss, -⟩ := produceEntry_eq s t (.dqsteal d) d m.launch none rfl
      refine ⟨r, (hnone (List.find?_eq_none.mpr fun c hc => ?_)).trans (congrArg _ hx), hiss⟩
      simp [holdsWork, hown c hc]
    · have hfind : (stealOrder t.core).find? (holdsWork s m.launch) = some v := by
        rw [horder, List.find?_append, List.find?_eq_none.mpr fun c hc => ?_, Option.none_or, List.find?_cons_of_pos]
        · simp [holdsWork, hv, he]
        · rcases hbefore c hc with h | ⟨h1, h2⟩
          · simp [holdsWork, h]
          · simp [holdsWork, h1, h2]
      obtain ⟨r, hx, hiss, -⟩ := produceEntry_eq (leaveDeque (s.setCore v { s.core v with deque := (s.core v).deque.drop 1 }) v) t
        (.dqsteal d) d m.launch (s.core v).deque.head? rfl
      have hhead : (s.core v).deque.head? = some e := by rw [he]; rfl
      rw [hhead] at hiss
      refine ⟨r, _, (hfound v hfind (refill_held (by rw [he]; exact List.cons_ne_nil _ _))).trans (congrArg _ hx), hiss, ?_,
        (SameMemory.trans (s' := s.setCore v { s.core v with deque := (s.core v).deque.drop 1 }) (sameMemory_of rfl rfl)
          (leaveDeque_memory _ v)).trans (entryTaken_memory _ t m.launch _)⟩
      rw [entryTaken_core, leaveDeque_deque, State.core_setCore_same]
      dsimp only
      rw [he]
      rfl

end Sys2Proof.Machine
end

section
/-! SUPPORT. `spawn` while a mode change waits for the page of its record. The read of the record ends the change (R344), and
with it the group's mode differs from the PIN of the descriptor that maps the queue's slot, so the slot has no translation any
more (R350): the record is not enqueued, though stage 2 gave the slot when the instruction began. -/

namespace Sys2Proof.Machine

/-- The probe's launch with a second lease, rx, over the page at 0x20000. -/
def pinLaunch : Launch :=
  { probeLaunch with record := spliceBytes probeLaunch.record 0x188 (leBytes 8 (2 + 2 ^ 40 + 2 * 2 ^ 62)) }

/-- The address 0x20000 in v0:1 and queue 3 in v2. -/
def pinThread : Thread := (probeThread 1).writeList 0 [0x20000, 0, 3]

def pinXlat : Xlat :=
  { fn := 0, va := 0x20000, log := 16, ipa := 0x20000, out := .hbm 0x20000, r := true, w := true, x := false, pin := false }

def pinSpawn : Instr := .spawn 5 ⟨0, false⟩ ⟨2, false⟩

/-- Group 0 is to be pinned; stage 2 of function 0 maps the first GiB, PIN clear; queue 3 has its BASE at 0x30000. -/
def pinState : State :=
  let s := State.reset.withFetchWord 64 0
  let s := s.setCore 0 { s.core 0 with vtlb := [pinXlat] }
  { s with
    agenda := []
    cur := .thread 1 0
    threads := [(tkey 1 0, pinThread)]
    launches := [(1, pinLaunch)]
    queues := [(3, { LQ.reset with en := true, base := 0x30000 })]
    fns := [(0, { Fn.physical with s2root := 0x4000000001 })]
    mem := putBytes (putBytes s.mem 0x4000000000 (leBytes 8 (0x4000010000 + 3))) 0x4000010000 (leBytes 8 (1 + 4 + 8))
    pkg := { s.pkg with pinGo := true, pinTarget := 0, pinMode := true } }

theorem pinState_ready : Ready pinState (probeTeam 1) pinThread pinSpawn false [src2 ⟨0, false⟩, src1 ⟨2, false⟩, dst1 5] := by
  refine ⟨?_, ?_, ?_, ?_, ?_, ?_, ?_, ?_⟩ <;> decide +kernel

/-- Stage 2 gives the slot before the instruction. -/
theorem pinState_slot : (ipaAccess pinState 0 ((pinState.lq 0 3).slotAddr (pinState.lq 0 3).tail) .w).2 = some (.hbm 0x30000) := by
  decide +kernel

theorem pinState_not_enqueued : ∀ s', exec pinSpawn pinState = .next s' → (s'.lq 0 3).tail = 0 := by
  have h : (match exec pinSpawn pinState with
    | .next s' => (s'.lq 0 3).tail
    | _ => 0) = 0 := by decide +kernel
  intro s' hs
  rwa [hs] at h

/-- Refutes O27: the read of the record ends a mode change that its page waits for, and stage 2, which gave the slot of the
queue before, gives it no more: the launch stalls with TAIL as it was. -/
theorem not_spawnEnqueuesALaunch : ¬ Obligations.SpawnEnqueuesALaunch := by
  rintro ⟨-, h⟩
  obtain ⟨-, -, h⟩ := h pinState (probeTeam 1) pinThread 5 ⟨0, false⟩ ⟨2, false⟩ pinLaunch (2 + 2 ^ 40 + 2 * 2 ^ 62) _ pinXlat 0x20000
    pinState_ready rfl rfl (by decide +kernel) (by decide +kernel) (by decide +kernel) (by decide +kernel) (by decide +kernel)
    (by decide +kernel) (by decide +kernel) (by decide +kernel) rfl (by decide +kernel) (by decide +kernel) (by decide +kernel)
  obtain ⟨s', hs, -, -, hq, -⟩ := h _ 0x30000 (by decide +kernel) (by decide +kernel) pinState_slot rfl
  rw [show pinLaunch.fn = 0 from rfl, show (rw pinThread ⟨2, false⟩).toNat % 32 = 3 by decide +kernel] at hq
  have ht := (pinState_not_enqueued s' hs).symm.trans (congrArg LQ.tail hq)
  exact absurd ht (by decide +kernel)

end Sys2Proof.Machine
end

section
/-! SUPPORT. Chains of the matrix unit: how they open and are marked closing. -/

namespace Sys2Proof.Machine

section
variable {s : State} {m : Team} {t : Thread} {lit : DWord} {j0 : Nat} {js : List Nat}

/-- What `mxbeg` comes to, for a mask that is not empty. -/
theorem Ready.exec_mxbeg (hr : Ready s m t (.mxbeg lit) false []) (ho : litOctets lit = j0 :: js) :
    exec (.mxbeg lit) s = .next (
      if t.slot ≠ 8 * j0 + 64 * (t.slot / 64) then advance s t (.mxbeg lit)
      else if !litLegal lit then threadFault s t .illegal {}
      else if (litStreams lit).any fun k => decide (m.streams.length ≤ k) then threadFault s t .perm {}
      else if !noRepeat (litStreams lit) || (m.chains.flatMap fun c => litStreams c.lit).any (litStreams lit).contains ||
          (m.chain? (t.slot / 64) (litCh lit)).isSome then threadFault s t .illegal {}
      else
        match freeContext s (clusterOf t.core) with
        | none => park s t .context
        | some ctx => wake (finish (openChain s t.team t lit ctx) t (.mxbeg lit) 0)) := by
  have hx : exec (.mxbeg lit) s = .next _ := hr.issue _
  rw [hx, ho]
  dsimp only
  rw [finish_quiet _ _ _ rfl] <;> rfl

end

/-- A stream of the literal is one of an open chain's. -/
theorem sharesStream_iff (cs : List Chain) (lit : DWord) :
    (cs.flatMap fun c => litStreams c.lit).any (litStreams lit).contains = true ↔
      ∃ c ∈ cs, ∃ k ∈ litStreams c.lit, k ∈ litStreams lit := by
  simp only [List.any_eq_true, List.mem_flatMap, List.contains_iff_mem]
  constructor
  · rintro ⟨k, ⟨c, hc, hk⟩, hl⟩; exact ⟨c, hc, k, hk, hl⟩
  · rintro ⟨c, hc, k, hk, hl⟩; exact ⟨k, ⟨c, hc, hk⟩, hl⟩

theorem beyondStreams_iff (ks : List Nat) (n : Nat) : (ks.any fun k => decide (n ≤ k)) = true ↔ ∃ k ∈ ks, n ≤ k := by
  simp only [List.any_eq_true, decide_eq_true_eq]

theorem getD_map_range {α : Type} (f : Nat → α) (d : α) {n j : Nat} (h : j < n) : ((List.range n).map f).getD j d = f j := by
  rw [List.getD_eq_getElem?_getD, List.getElem?_map, List.getElem?_range h]; rfl

/-- Settles O28: the checks of `mxbeg` in their order, and what each leaves. -/
theorem chainsOpenAndClose : Obligations.ChainsOpenAndClose := by
  unfold Obligations.ChainsOpenAndClose
  refine ⟨fun s m t lit j0 js hr ho => ?begin, fun s m t ch hr => ?close⟩
  case begin =>
    rw [hr.exec_mxbeg ho]
    refine ⟨fun h => by rw [if_pos h], fun h => ?_⟩
    rw [if_neg (not_not_intro h)]
    refine ⟨fun hl => by rw [hl]; rfl, fun hl hb => ?_, fun hl hb => ⟨fun hc => ?_, fun hn hc ho => ⟨fun hf => ?_, fun ctx hf => ?_⟩⟩⟩
    · rw [hl, if_neg (by decide), if_pos ((beyondStreams_iff _ _).mpr hb)]
    all_goals
      have hb' : ¬((litStreams lit).any fun k => decide (m.streams.length ≤ k)) = true := by
        rw [beyondStreams_iff]; rintro ⟨k, hk, h⟩; exact absurd (hb k hk) (Nat.not_lt.mpr h)
      rw [hl, if_neg (by decide), if_neg hb']
    · rw [if_pos]
      rcases hc with hc | ⟨c, hc⟩
      · rw [(sharesStream_iff _ _).mpr hc, Bool.or_true, Bool.true_or]
      · rw [hc, Option.isSome_some, Bool.or_true]
    all_goals
      have hs : ((m.chains.flatMap fun c => litStreams c.lit).any (litStreams lit).contains) = false := by
        rw [Bool.eq_false_iff, Ne, sharesStream_iff]; rintro ⟨c, h, k, hk, hl⟩; exact hc c h k hk hl
      rw [hn, hs, ho, if_neg (by decide), hf]
    · exact ⟨_, congrArg (fun s => Host.Outcome.next (wake s)) (finish_quiet _ _ _ rfl), rfl, rfl, rfl, rfl, rfl, rfl, rfl, rfl,
        fun j hj => getD_map_range _ _ hj⟩
  case close =>
    have hx : exec (.mxend ch) s = .next _ := hr.issue _
    rw [hx]
    refine ⟨fun h => ?_, fun c h => ⟨fun hl => ?_, fun hl hc => ?_⟩⟩
    · rw [show m.chain? t.sub ch.toNat = none from h]
      exact congrArg _ (finish_quiet _ _ _ rfl)
    · rw [show m.chain? t.sub ch.toNat = some c from h]
      exact (congrArg _ (if_pos hl)).trans (congrArg _ (finish_quiet _ _ _ rfl))
    · rw [show m.chain? t.sub ch.toNat = some c from h]
      refine ⟨t.req s.now (some .mx) (.mxEnd (t.slot / 64) ch.toNat), (congrArg _ (if_neg (not_not_intro hl))).trans
        (congrArg _ ((withRoom_free hc).trans ?_)), ⟨rfl, rfl, rfl, rfl, rfl, rfl⟩⟩
      exact congrArg (closeChains · t.team) (finish_quiet _ _ _ rfl)

end Sys2Proof.Machine
end

section
/-! SUPPORT. The requests of the matrix unit: their faults, and the entry that each takes of the reservation table. -/

namespace Sys2Proof.Machine

section
variable {s : State} {m : Team} {t : Thread} {i : Instr} {kind ch tile : Nat} {kb : Bool}

/-- The three words of the matrix unit's requests differ in their kind alone. -/
theorem exec_request (h : requestForm i = some (kind, kb, ch, tile)) :
    exec i s = matrixRequest s i kind kb ch tile ∧ endsBlock i = false := by
  cases i with
  | mma kb' ch' tile' => cases h; exact ⟨rfl, rfl⟩
  | mxscale kb' ch' tile' => cases h; exact ⟨rfl, rfl⟩
  | mxdist kb' ch' tile' => cases h; exact ⟨rfl, rfl⟩
  | _ => cases h

theorem exec_request_elsewhere (h : requestForm i = some (kind, kb, ch, tile)) (hr : Ready s m t i false [])
    (h8 : t.slot % 8 ≠ 0) : exec i s = .next (advance s t i) := by
  obtain ⟨hx, he⟩ := exec_request h (s := s)
  rw [hx]
  exact (hr.issue _).trans (congrArg _ ((if_pos h8).trans (finish_quiet _ _ _ he)))

theorem exec_request_no_chain (h : requestForm i = some (kind, kb, ch, tile)) (hr : Ready s m t i false [])
    (h8 : t.slot % 8 = 0) (hc : m.chain? (t.slot / 64) ch = none) : exec i s = .next (park s t (.chainOpen ch)) := by
  rw [(exec_request h).1]
  refine (hr.issue _).trans (congrArg _ ((if_neg (not_not_intro h8)).trans ?_))
  rw [show m.chain? t.sub ch = none from hc]

variable {c : Chain} (h : requestForm i = some (kind, kb, ch, tile)) (hr : Ready s m t i false [])
    (h8 : t.slot % 8 = 0) (hc : m.chain? (t.slot / 64) ch = some c)

include h hr h8 hc

theorem exec_request_fault {f : Code}
    (hf : requestFault m (s.cluster (clusterOf t.core)) t.team c (t.slot % 64 / 8) kind tile = some f) :
    exec i s = .next (threadFault s t f {}) := by
  rw [(exec_request h).1]
  refine (hr.issue _).trans (congrArg _ ((if_neg (not_not_intro h8)).trans ?_))
  rw [show m.chain? t.sub ch = some c from hc]
  dsimp only
  rw [show t.lane / 8 = t.slot % 64 / 8 from rfl, hf]

/-- A request that no rule faults, on a chain that is not closing. -/
theorem exec_request_goes_on
    (hf : requestFault m (s.cluster (clusterOf t.core)) t.team c (t.slot % 64 / 8) kind tile = none) (ho : c.closing = false) :
    (32 ≤ (s.cluster (clusterOf t.core)).resv.length → exec i s = .next (park s t .tableSlot)) ∧
    ((s.cluster (clusterOf t.core)).resv.length < 32 → countFull s t .mx = false →
      exec i s = .next (checkKinds (advance
        (((issued s (t.req s.now (some .mx) .mxPass)).setCluster (clusterOf t.core) { s.cluster (clusterOf t.core) with
          resv := (s.cluster (clusterOf t.core)).resv ++ [
            { req := s.uid, team := t.team, tix := t.tix, ctx := c.ctx, oct := t.slot % 64 / 8, kind := kind, tile := tile, kb := kb,
              bpri := match s.launch? m.launch with | some l => l.ctlPri | none => 0
              number := octQ c (t.slot % 64 / 8), issued := s.now, promoted := 0, risen := 0 }] }).updTeam t.team
            fun m => raiseQ m c.ctx (t.slot % 64 / 8)) t i) t.team)) := by
  obtain ⟨hx, he⟩ := exec_request h (s := s)
  rw [hx]
  refine ⟨fun hn => ?_, fun hn hk => ?_⟩
  all_goals
    refine (hr.issue _).trans (congrArg _ ((if_neg (not_not_intro h8)).trans ?_))
    rw [show m.chain? t.sub ch = some c from hc]
    dsimp only
    rw [show t.lane / 8 = t.slot % 64 / 8 from rfl, hf]
    refine (if_neg (by rw [overQ, ho]; exact Bool.false_ne_true)).trans ?_
  · exact if_pos hn
  · exact (if_neg (Nat.not_le.mpr hn)).trans ((withRoom_free hk).trans (congrArg (checkKinds · t.team) (finish_quiet _ _ _ he)))

end

/-! ## The faults of R271 -/

section
variable {m : Team} {cl : Cluster} {u : Nat} {c : Chain} {j kind tile : Nat}

theorem requestFault_outside (h : chainMask c j = false) : requestFault m cl u c j kind tile = some .illegal := by
  simp [requestFault, h]

theorem requestFault_no_tile (h : chainMask c j = true) (ht : m.nacc ≤ tile) :
    requestFault m cl u c j kind tile = some .perm := by simp [requestFault, h, ht]

variable (h : chainMask c j = true) (ht : tile < m.nacc)

include h ht

theorem requestFault_no_scale (hk : kind = 1) (hb : litBq c.lit = false) : requestFault m cl u c j kind tile = some .illegal := by
  simp [requestFault, h, Nat.not_le.mpr ht, hk, hb]

theorem requestFault_turn (hb : litBq c.lit = true) (hk : octQ c j % 2 ≠ kind) :
    requestFault m cl u c j kind tile = some .illegal := by
  simp only [requestFault, h, Nat.not_le.mpr ht, hb]
  simp
  exact fun _ e => absurd e hk

theorem requestFault_same_tile (hk : kind = 1) (hl : lastTile cl u c j = some tile) :
    requestFault m cl u c j kind tile = some .illegal := by
  simp only [requestFault, h, Nat.not_le.mpr ht, hk, hl]
  simp

end

/-- Settles O29: each check of R271 with its fault, and the entry that a request takes. -/
theorem matrixRequestsTakeAnEntry : Obligations.MatrixRequestsTakeAnEntry := by
  unfold Obligations.MatrixRequestsTakeAnEntry
  intro s m t i kind kb ch tile h hr
  refine ⟨exec_request_elsewhere h hr, exec_request_no_chain h hr, fun c h8 hc => ?_⟩
  have fault {f : Code} := exec_request_fault h hr h8 hc (f := f)
  refine ⟨fun hm => fault (requestFault_outside hm), fun hm ht => fault (requestFault_no_tile hm ht), fun hm ht => ⟨fun hk hb => ?_,
    fun hb hq => ?_, fun _ _ hk hl => ?_⟩, fun hf ho => ?_⟩
  · exact fault (requestFault_no_scale hm ht hk hb)
  · exact fault (requestFault_turn hm ht hb hq)
  · exact fault (requestFault_same_tile hm ht hk hl)
  · obtain ⟨hfull, hroom⟩ := exec_request_goes_on h hr h8 hc hf ho
    exact ⟨hfull, fun hn hk => ⟨_, _, _, hroom hn hk, ⟨rfl, rfl, rfl, rfl, rfl, rfl⟩, rfl, rfl, rfl, rfl, rfl, rfl, rfl, rfl, rfl, rfl,
      rfl, rfl⟩⟩

end Sys2Proof.Machine
end

section
/-! SUPPORT. Rows of tiles: the words that access them, and what an access does to its row. -/

namespace Sys2Proof.Machine

/-! ## The words -/

section
variable {s : State} {m : Team} {t : Thread} {i : Instr} {fs : List RF} {tile c al d k : Nat} {act : Act}

/-- The request of a row access: it keeps what its destinations held. -/
def rowReq (s : State) (t : Thread) (d k : Nat) (act : Act) : Req :=
  { t.req s.now (some .mx) act with undo := (List.range k).map fun j => t.reg (d + j) }

theorem issueRow_free (hc : countFull s t .mx = false) (he : endsBlock i = false) : issueRow s t i d k act =
    settle (drainRows (advance (issued s (rowReq s t d k act)) (t.markEmpty d (producerTag 3 t.pc) k) i) t.team) :=
  (withRoom_free hc).trans (congrArg (fun s => settle (drainRows s t.team)) (finish_quiet _ _ _ he))

/-- A row access checks its tile, then the alignment of its column. -/
theorem Ready.exec_row (h : rowForm t i = some (fs, tile, c, al, d, k, act)) (hr : Ready s m t i false fs) :
    endsBlock i = false ∧ exec i s = .next (if m.nacc ≤ tile then threadFault s t .perm {}
      else if c % al ≠ 0 then threadFault s t .align {} else issueRow s t i d k act) := by
  cases i with
  | mxzero tile' =>
    cases h
    have hx : exec (.mxzero tile') s = .next _ := hr.issue _
    exact ⟨rfl, by rw [hx, if_neg (c := 0 % 1 ≠ 0) (by decide)]; rfl⟩
  | mxst k' tile' a b => cases h; exact ⟨rfl, hr.issue _⟩
  | mxld fl k' tile' d' b => cases h; exact ⟨rfl, hr.issue _⟩
  | _ => cases h

end

section
variable {s : State} {m : Team} {t : Thread} {mx s32 : Bool} {tile : BitVec 5} {d : Reg} {b : Src}

theorem Ready.exec_mxtopk_bounds (hr : Ready s m t (.mxtopk mx s32 tile d b) false [src1 b, dstN d 1 2]) (ht : tile.toNat < m.nacc)
    (h : 16 < (rw t b).toNat % 32 ∨ (rw t b).toNat / 256 % 512 = 0 ∨ 256 < (rw t b).toNat / 256 % 512) :
    exec (.mxtopk mx s32 tile d b) s = .next (threadFault s t .illegal {}) :=
  (hr.issue _).trans (congrArg _ ((if_neg (Nat.not_le.mpr ht)).trans (if_pos h)))

theorem Ready.exec_mxtopk (hr : Ready s m t (.mxtopk mx s32 tile d b) false [src1 b, dstN d 1 2]) (ht : tile.toNat < m.nacc)
    {k n : Nat} (hk : (rw t b).toNat % 32 = k) (hn : (rw t b).toNat / 256 % 512 = n) (hb : k ≤ 16 ∧ 1 ≤ n ∧ n ≤ 256)
    (hd : k = 0 ∨ d.toNat + 2 * k ≤ m.nreg) (hf : ∀ j, j < 2 * k → isEmptyReg (t.reg (d.toNat + j)) = false)
    (hc : countFull s t .mx = false) :
    exec (.mxtopk mx s32 tile d b) s = .next (drainRows ((retire
      (issued s (t.req s.now (some .mx) (.mxTopk tile.toNat (t.slot % 64) k n mx s32 d.toNat))) t.team).setThread
        { t with place := .held .mxtopk }) t.team) := by
  have hx : exec (.mxtopk mx s32 tile d b) s = .next _ := hr.issue _
  have hempty : ((⟨d.toNat, 2 * k, 2, .dst⟩ : RF).regs.filter fun r => isEmptyReg (t.reg r)) = [] := by
    rw [List.filter_eq_nil_iff]
    intro r hr
    obtain ⟨j, hj, rfl⟩ := List.mem_map.mp hr
    rw [hf j (List.mem_range.mp hj)]
    exact Bool.false_ne_true
  have hin : ¬(k ≠ 0 ∧ (⟨d.toNat, 2 * k, 2, .dst⟩ : RF).beyond m.nreg = true) := by
    rintro ⟨h0, h1⟩
    have hl : m.nreg ≤ d.toNat + 2 * k - 1 := of_decide_eq_true h1
    omega
  rw [hx]
  dsimp only
  rw [hk, hn, if_neg (Nat.not_le.mpr ht), if_neg (by omega), if_neg hin, hempty]
  exact congrArg _ (withRoom_free hc)

end

/-! ## What the accesses do to the row -/

theorem get_filter_kept {α : Type} (d : α) (p : Nat → Bool) (m : FMap α) {k : Nat} (h : p k = true) :
    FMap.get d (m.filter fun q => p q.1) k = FMap.get d m k := by
  induction m with
  | nil => rfl
  | cons q m ih =>
    obtain ⟨a, v⟩ := q
    rw [List.filter_cons]
    by_cases ha : a = k
    · rw [if_pos (by rw [ha]; exact h), FMap.get, FMap.get, if_pos ha, if_pos ha]
    · split
      · rw [FMap.get, FMap.get, if_neg ha, if_neg ha, ih]
      · rw [FMap.get, if_neg ha, ih]

theorem get_filter_dropped {α : Type} (d : α) (p : Nat → Bool) (m : FMap α) {k : Nat} (h : p k = false) :
    FMap.get d (m.filter fun q => p q.1) k = d := by
  induction m with
  | nil => rfl
  | cons q m ih =>
    obtain ⟨a, v⟩ := q
    rw [List.filter_cons]
    split
    · next ha => rw [FMap.get, if_neg fun e => absurd (e ▸ ha) (by rw [h]; exact Bool.false_ne_true), ih]
    · exact ih

theorem tileKey_row (tile row c : Nat) (h : c < 256) : tileKey tile row c / 256 = tile * 64 + row := by
  unfold tileKey; omega

theorem tileWord_zeroRow_same (m : Team) (tile row : Nat) {c : Nat} (h : c < 256) : (m.zeroRow tile row).tileWord tile row c = 0 :=
  get_filter_dropped 0 (fun k => k / 256 != tile * 64 + row) m.tiles (by rw [tileKey_row tile row c h, bne_self_eq_false])

theorem tileWord_zeroRow_other (m : Team) {tile row t' r' c : Nat} (h : c < 256) (hr : t' * 64 + r' ≠ tile * 64 + row) :
    (m.zeroRow tile row).tileWord t' r' c = m.tileWord t' r' c :=
  get_filter_kept 0 (fun k => k / 256 != tile * 64 + row) m.tiles (by rw [tileKey_row t' r' c h, bne_iff_ne]; exact hr)

theorem rowFlags_zeroRow (m : Team) (tile row : Nat) : (m.zeroRow tile row).rowFlags tile row = 0 :=
  FMap.get_set_same 0 m.tflags (tile * 64 + row) 0

theorem tileWord_setTile_same (m : Team) (tile row c : Nat) (w : Word) : (m.setTile tile row c w).tileWord tile row c = w :=
  FMap.get_set_same _ _ _ _

theorem tileWord_setTile_other (m : Team) {tile row c t' r' c' : Nat} (w : Word) (h : tileKey t' r' c' ≠ tileKey tile row c) :
    (m.setTile tile row c w).tileWord t' r' c' = m.tileWord t' r' c' := FMap.get_set_other _ _ _ h

theorem tileKey_succ (tile row c : Nat) : tileKey tile row (c + 1) = tileKey tile row c + 1 := by unfold tileKey; omega

theorem tileWord_setTiles_outside (tile row : Nat) (ws : List Word) {t' r' c' : Nat} : ∀ (m : Team) (c : Nat),
    tileKey t' r' c' < tileKey tile row c ∨ tileKey tile row c + ws.length ≤ tileKey t' r' c' →
    (m.setTiles tile row c ws).tileWord t' r' c' = m.tileWord t' r' c' := by
  induction ws with
  | nil => intro m c _; rfl
  | cons w ws ih =>
    intro m c h
    rw [List.length_cons] at h
    rw [Team.setTiles, ih _ _ (by rw [tileKey_succ]; omega), tileWord_setTile_other _ _ (by omega)]

theorem tileWord_setTiles_inside (tile row : Nat) (ws : List Word) : ∀ (m : Team) (c j : Nat), j < ws.length →
    (m.setTiles tile row c ws).tileWord tile row (c + j) = ws.getD j 0 := by
  induction ws with
  | nil => intro m c j h; cases h
  | cons w ws ih =>
    intro m c j h
    rw [Team.setTiles]
    cases j with
    | zero =>
      rw [tileWord_setTiles_outside _ _ _ _ _ (.inl (by rw [tileKey_succ, Nat.add_zero]; omega)), Nat.add_zero, tileWord_setTile_same]
      rfl
    | succ j => rw [show c + (j + 1) = c + 1 + j by omega, ih _ _ _ (by rw [List.length_cons] at h; omega)]; rfl

theorem completeReq_team? (s : State) (k u : Nat) : (completeReq s k).team? u = s.team? u := rfl

theorem find_updReq_same (s : State) (k : Nat) (f : Req → Req) : Tab.find (s.updReq k f).reqs k = (Tab.find s.reqs k).map f :=
  Tab.find_upd_same _ _ _

section
variable {s : State} {u k : Nat} {m : Team} {r : Req} (hm : s.team? u = some m)

include hm

theorem rowAccess_zero {tile row : Nat} (ha : r.act = .mxZero tile row) :
    (rowAccess s u k r).team? u = some (m.zeroRow tile row) := by
  have h : rowAccess s u k r = completeReq (s.updTeam u fun m => m.zeroRow tile row) k := by
    unfold rowAccess
    simp only [hm, ha]
  rw [h, completeReq_team?, State.team?_updTeam_same, hm, Option.map_some]

theorem rowAccess_store {tile row c : Nat} {ws : List Word} (ha : r.act = .mxStore tile row c ws) :
    (rowAccess s u k r).team? u = some (m.setTiles tile row c ws) := by
  have h : rowAccess s u k r = completeReq (s.updTeam u fun m => m.setTiles tile row c ws) k := by
    unfold rowAccess
    simp only [hm, ha]
  rw [h, completeReq_team?, State.team?_updTeam_same, hm, Option.map_some]

theorem rowAccess_load {tile row c n d : Nat} (ha : r.act = .mxLoad tile row c n d) (hr : Tab.find s.reqs k = some r) :
    Tab.find (rowAccess s u k r).reqs k = some { r with
      performed := true
      data := some (List.flatMap (fun w => leBytes 4 w.toNat)
        (if n = 0 then [BitVec.ofNat 32 (m.rowFlags tile row).toNat] else (List.range n).map fun j => m.tileWord tile row (c + j))) } := by
  have h : rowAccess s u k r = s.updReq k fun r => { r with
      performed := true
      data := some (List.flatMap (fun w => leBytes 4 w.toNat)
        (if n = 0 then [BitVec.ofNat 32 (m.rowFlags tile row).toNat] else (List.range n).map fun j => m.tileWord tile row (c + j))) } := by
    unfold rowAccess
    simp only [hm, ha]
  rw [h, find_updReq_same, hr, Option.map_some]

end

/-- Settles O30: the words by their forms, and each access by the laws of the row that it reads or writes. -/
theorem tileRowsAreReadAndWritten : Obligations.TileRowsAreReadAndWritten := by
  unfold Obligations.TileRowsAreReadAndWritten
  refine ⟨⟨fun s m t i fs tile c al d k act h hr => ?_, fun s m t mx s32 tile d b hr ht => ⟨hr.exec_mxtopk_bounds ht,
    fun h1 h2 h3 hd hf hc => ⟨_, hr.exec_mxtopk ht rfl rfl ⟨h1, h2, h3⟩ hd hf hc, ⟨rfl, rfl, rfl, rfl, rfl, rfl⟩⟩⟩⟩,
    fun s u k r m hm hr => ⟨fun tile row ha m' h' => ?_, fun tile row c ws ha m' h' => ?_, fun tile row c n d ha => ?_⟩⟩
  · obtain ⟨he, hx⟩ := hr.exec_row h
    rw [hx]
    refine ⟨fun hn => by rw [if_pos hn], fun hn hal => by rw [if_neg (Nat.not_le.mpr hn), if_pos hal], fun hn hal hc => ?_⟩
    rw [if_neg (Nat.not_le.mpr hn), if_neg (not_not_intro hal)]
    exact ⟨rowReq s t d k act, congrArg _ (issueRow_free hc he), ⟨rfl, rfl, rfl, rfl, rfl, rfl⟩, rfl⟩
  · obtain rfl := Option.some.inj ((rowAccess_zero hm ha).symm.trans h')
    exact ⟨fun c hc => tileWord_zeroRow_same m tile row hc, rowFlags_zeroRow m tile row,
      fun t' r' c hc hne => tileWord_zeroRow_other m hc hne⟩
  · obtain rfl := Option.some.inj ((rowAccess_store hm ha).symm.trans h')
    exact ⟨fun j hj => tileWord_setTiles_inside tile row ws m c j hj,
      fun t' r' c' h => tileWord_setTiles_outside tile row ws m c h⟩
  · refine ⟨_, rowAccess_load hm ha hr, rfl, ?_⟩
    dsimp only
    split
    · rw [List.flatMap_singleton]
    · rw [List.flatMap_map]

end Sys2Proof.Machine
end

section
/-! SUPPORT. Multicast stores: the write to each named core, the drops that are counted, and the request that joins the writes. -/

namespace Sys2Proof.Machine

/-! ## The writes -/

/-- The write of generation `p.2` to core `p.1`. -/
def genWriteReq (r : Req) (off fn : Nat) (bs : List Byte) (p : Nat × BitVec 8) : Req :=
  { r with cls := none, act := .genWrite p.1 p.2.toNat off bs fn }

/-- The writes of a multicast store, named from `u` on. -/
def genWriteReqs (r : Req) (off fn : Nat) (bs : List Byte) : Nat → List (Nat × BitVec 8) → Tab Req
  | _, [] => []
  | u, p :: ps => (u, genWriteReq r off fn bs p) :: genWriteReqs r off fn bs (u + 1) ps

theorem addGenWrites_eq (r : Req) (off fn : Nat) (bs : List Byte) (ps : List (Nat × BitVec 8)) : ∀ s : State,
    addGenWrites r off fn bs ps s = ((genWriteReqs r off fn bs s.uid ps).map (·.1),
      { s with uid := s.uid + ps.length, reqs := s.reqs ++ genWriteReqs r off fn bs s.uid ps }) := by
  induction ps with
  | nil => intro s; simp [addGenWrites, genWriteReqs]
  | cons p ps ih =>
    intro s
    obtain ⟨c, g⟩ := p
    have hs : addGenWrite s r c g.toNat off fn bs =
        (s.uid, { s with uid := s.uid + 1, reqs := s.reqs ++ [(s.uid, genWriteReq r off fn bs (c, g))] }) := rfl
    rw [addGenWrites, hs]
    dsimp only
    rw [ih]
    simp [genWriteReqs, Nat.add_assoc, Nat.add_comm 1]

theorem genWriteReqs_acts (r : Req) (off fn : Nat) (bs : List Byte) (ps : List (Nat × BitVec 8)) : ∀ u : Nat,
    (genWriteReqs r off fn bs u ps).map (fun p => p.2.act) = ps.map fun p => .genWrite p.1 p.2.toNat off bs fn := by
  induction ps with
  | nil => intro u; rfl
  | cons p ps ih => intro u; rw [genWriteReqs, List.map_cons, List.map_cons, ih]; rfl

/-! ## The dropped writes -/

/-- Core `c` counts a dropped write of function `fn`. -/
def dropWrite (fn : Nat) (s : State) (c : Nat) : State := s.setCore c { s.core c with spdrop := bump (s.core c).spdrop fn }

theorem dropWrites_unnamed (fn : Nat) (cs : List Nat) (e : Nat) : ∀ s : State, e ∉ cs → (cs.foldl (dropWrite fn) s).core e = s.core e := by
  induction cs with
  | nil => intro s _; rfl
  | cons c cs ih =>
    intro s h
    rw [List.mem_cons, not_or] at h
    rw [List.foldl_cons, ih _ h.2, dropWrite, State.core_setCore_other _ _ h.1]

theorem dropWrites_named (fn : Nat) (cs : List Nat) (e : Nat) : ∀ s : State, cs.Nodup → e ∈ cs →
    ((cs.foldl (dropWrite fn) s).core e).spdrop = bump (s.core e).spdrop fn := by
  induction cs with
  | nil => intro s _ h; cases h
  | cons c cs ih =>
    intro s hn h
    rw [List.nodup_cons] at hn
    rw [List.foldl_cons]
    by_cases he : e = c
    · rw [he, dropWrites_unnamed _ _ _ _ hn.1, dropWrite, State.core_setCore_same]
    · rw [ih _ hn.2 ((List.mem_cons.mp h).resolve_left he), dropWrite, State.core_setCore_other _ _ he]

/-- What a fold over cores that changes cores alone keeps. -/
theorem dropWrites_keeps {γ : Type} {g : State → γ} (h : ∀ (s : State) (c : Nat) (x : Core), g (s.setCore c x) = g s) (fn : Nat)
    (cs : List Nat) (s : State) : g (cs.foldl (dropWrite fn) s) = g s :=
  foldl_same g (dropWrite fn) (fun s c => h s c _) cs s

theorem coresOf_nodup (k : Nat) : (coresOf k).Nodup :=
  List.pairwise_map.mpr (List.nodup_range.imp fun h e => h (Nat.add_left_cancel e))

/-! ## The word -/

/-- The cores of a mask in the thread's cluster. -/
def namedCores (t : Thread) (mask : BitVec 4) : List Nat := (coresOf (clusterOf t.core)).filter fun c => mask.getLsbD (c % 4)

/-- The generation that a team knows of a core. -/
def knownGen (m : Team) (c : Nat) : BitVec 8 := ((m.gens.find? fun p => p.1 == c).map fun p => p.2).getD 0

/-- The named cores that hold a member of the cluster team, and those that do not. -/
def memberCores (m : Team) (cs : List Nat) : List Nat := cs.filter fun c => m.gens.any fun p => p.1 == c
def absentCores (m : Team) (cs : List Nat) : List Nat := cs.filter fun c => !(m.gens.any fun p => p.1 == c)

theorem targets_eq (m : Team) (cs : List Nat) :
    ((cs.map fun c => (c, knownGen m c)).filter fun p => !(absentCores m cs).contains p.1) =
      (memberCores m cs).map fun c => (c, knownGen m c) := by
  rw [List.filter_map]
  refine congrArg (List.map _) (List.filter_congr fun c hc => ?_)
  rw [Function.comp, Bool.eq_iff_iff, Bool.not_eq_true', ← Bool.not_eq_true, List.contains_iff_mem, absentCores, List.mem_filter,
    Bool.not_eq_true', ← Bool.not_eq_true]
  exact ⟨fun h => Decidable.byContradiction fun hn => h ⟨hc, hn⟩, fun h hn => hn.2 h⟩

/-- The request of `stmc`, before its class and what it joins. -/
def multicastReq (s : State) (t : Thread) (off n : Nat) : Req :=
  { t.req s.now none .nothing with after := sameBytes s t (.scratch t.team off) n }

/-- The state in which `stmc` goes on: the drops are counted, and the writes and their join are in flight. -/
def multicast (s : State) (m : Team) (t : Thread) (w : Width) (mask : BitVec 4) (off fn : Nat) (bs : List Byte) : State :=
  let s0 := (absentCores m (namedCores t mask)).foldl (dropWrite fn) s
  let r := multicastReq s0 t off (widthBytes w)
  let ps := (memberCores m (namedCores t mask)).map fun c => (c, knownGen m c)
  let ks := genWriteReqs r off fn bs s0.uid ps
  issued { s0 with uid := s0.uid + ps.length, reqs := s0.reqs ++ ks } { r with cls := some .st, after := ks.map (·.1) }

section
variable {s : State} {m : Team} {t : Thread} {w : Width} {mask : BitVec 4} {a b : Src} {l : Launch}

theorem Ready.exec_stmc (hr : Ready s m t (.stmc w mask a b) false [src1 a, srcW w b]) (hl : s.launch? m.launch = some l)
    (hacq : acqPending s t.team t.tix = false) :
    (∀ c, checkScratch m ((rw t a).toNat : Int) (widthBytes w) = some c →
      exec (.stmc w mask a b) s = .next (threadFault s t c {})) ∧
    (checkScratch m ((rw t a).toNat : Int) (widthBytes w) = none → countFull s t .st = false →
      exec (.stmc w mask a b) s = .next (settle (completeJoins (advance
        (multicast s m t w mask (rw t a).toNat l.fn (storeBytesOf t b.r.toNat w)) t (.stmc w mask a b))))) := by
  have hx : exec (.stmc w mask a b) s = .next _ := hr.issue _
  rw [hx, hl, afterAcquire_over hacq]
  refine ⟨fun c hc => ?_, fun hc hk => ?_⟩
  · rw [hc]
  · rw [hc]
    dsimp only
    have ht : (List.filter (fun p => !(absentCores m (namedCores t mask)).contains p.1)
        ((namedCores t mask).map fun c => (c, knownGen m c))) = _ := targets_eq m (namedCores t mask)
    unfold absentCores namedCores knownGen at ht
    rw [withRoom_free hk, ht, addGenWrites_eq]
    dsimp only
    rw [finish_quiet _ _ _ rfl]
    rfl

end

/-! ## The state that it leaves -/

section
variable (s : State) (m : Team) (t : Thread) (w : Width) (mask : BitVec 4) (off fn : Nat) (bs : List Byte)

theorem multicast_keeps {γ : Type} {g : State → γ} (h : ∀ (s : State) (c : Nat) (x : Core), g (s.setCore c x) = g s)
    (hr : ∀ (s : State) (u : Nat) (rs : Tab Req), g { s with uid := u, reqs := rs } = g s) :
    g (multicast s m t w mask off fn bs) = g s :=
  (hr _ _ _).trans ((hr _ _ _).trans (dropWrites_keeps h fn _ s))

theorem multicast_reqs : ∃ (ks : Tab Req) (j : Nat × Req), (multicast s m t w mask off fn bs).reqs = s.reqs ++ ks ++ [j] ∧
    ks.map (fun p => p.2.act) = (memberCores m (namedCores t mask)).map (fun c => .genWrite c (knownGen m c).toNat off bs fn) ∧
    Issued t j.2 (some .st) .nothing ∧ j.2.after = ks.map (·.1) := by
  refine ⟨_, _, congrArg (· ++ _ ++ _) (dropWrites_keeps (g := State.reqs) (fun _ _ _ => rfl) fn _ s), ?_,
    ⟨rfl, rfl, rfl, rfl, rfl, rfl⟩, rfl⟩
  rw [genWriteReqs_acts, List.map_map]
  rfl

theorem multicast_drops (c : Nat) : ((multicast s m t w mask off fn bs).core c).spdrop =
    if c ∈ namedCores t mask ∧ (m.gens.any fun p => p.1 == c) = false then bump (s.core c).spdrop fn else (s.core c).spdrop := by
  have hmem : c ∈ absentCores m (namedCores t mask) ↔ c ∈ namedCores t mask ∧ (m.gens.any fun p => p.1 == c) = false := by
    rw [absentCores, List.mem_filter, Bool.not_eq_true']
  have hcore : (multicast s m t w mask off fn bs).core c = ((absentCores m (namedCores t mask)).foldl (dropWrite fn) s).core c := rfl
  rw [hcore]
  split
  · next h => exact dropWrites_named _ _ _ _ (((coresOf_nodup _).filter _).filter _) (hmem.mpr h)
  · next h => rw [dropWrites_unnamed _ _ _ _ (mt hmem.mp h)]

end

/-- Settles O31: the offset's checks, then one write for each named member, a count for each other named core, and the join. -/
theorem multicastStoresToEachNamedCore : Obligations.MulticastStoresToEachNamedCore := by
  unfold Obligations.MulticastStoresToEachNamedCore
  intro s m t w mask a b l i hr hl hacq off named
  obtain ⟨hfault, hgo⟩ := hr.exec_stmc hl hacq
  refine ⟨fun h => hfault _ (checkScratch_misaligned (mod_cast h)),
    fun h ho => hfault _ (checkScratch_outside (mod_cast h) (.inr (mod_cast ho))), fun h ho hk => ?_⟩
  obtain ⟨ks, j, hreqs, hacts, hj, hafter⟩ := multicast_reqs s m t w mask off l.fn (storeBytesOf t b.r.toNat w)
  exact ⟨_, ks, j, hgo (checkScratch_inside (mod_cast h) (by omega) (mod_cast ho)) hk, hreqs, hacts, hj, hafter,
    multicast_drops s m t w mask off l.fn _,
    sameMemory_of (multicast_keeps _ _ _ _ _ _ _ _ (fun _ _ _ => rfl) (fun _ _ _ => rfl))
      (multicast_keeps (g := fun s => s.pkg.zeroings) _ _ _ _ _ _ _ _ (fun _ _ _ => rfl) (fun _ _ _ => rfl)),
    multicast_keeps _ _ _ _ _ _ _ _ (fun _ _ _ => rfl) (fun _ _ _ => rfl),
    multicast_keeps _ _ _ _ _ _ _ _ (fun _ _ _ => rfl) (fun _ _ _ => rfl)⟩

end Sys2Proof.Machine
end

section
/-! SUPPORT. The control registers: what a context reads of them, what a write changes, and the wait of R110. -/

namespace Sys2Proof.Machine

/-! ## A thread written twice -/

theorem FMap.erase_insert_same {α : Type} (n : Nat) (v : α) (m : FMap α) : FMap.erase (FMap.insert n v m) n = FMap.erase m n := by
  induction m with
  | nil => simp [FMap.insert, FMap.erase]
  | cons p m ih =>
    obtain ⟨k, w⟩ := p
    rw [FMap.insert]
    split
    · simp [FMap.erase]
    · unfold FMap.erase at ih ⊢
      rw [List.filter_cons, List.filter_cons, ih]

theorem FMap.erase_erase {α : Type} (m : FMap α) (n : Nat) : FMap.erase (FMap.erase m n) n = FMap.erase m n := by
  simp [FMap.erase]

theorem Tab.put_put {α : Type} (m : Tab α) (n : Nat) (v w : α) : Tab.put (Tab.put m n v) n w = Tab.put m n w := by
  rw [Tab.put, Tab.put, FMap.erase_insert_same, FMap.erase_erase, Tab.put]

theorem State.setThread_setThread (s : State) {t t' : Thread} (h : t'.team = t.team ∧ t'.tix = t.tix) :
    (s.setThread t).setThread t' = s.setThread t' := by
  obtain ⟨hu, hx⟩ := h
  unfold State.setThread
  rw [hu, hx]
  exact congrArg (fun ts => { s with threads := ts }) (Tab.put_put _ _ _ _)

/-! ## The thread's registers (R42 to R44) -/

section
variable (t : Thread) (n : Nat)

theorem threadRead_thread (s : State) (fn : Nat) {v : DWord} (h : threadCsr t n = some v) : n < 6 ∧ threadRead s fn t n = v := by
  unfold threadCsr at h
  split at h <;> cases h <;> exact ⟨by decide, rfl⟩

/-- `csrw` of a register gives each field the value that it writes. -/
theorem threadPut_write (x : DWord) : threadPut t n (fun _ => x.toNat) x.toNat = threadCsrw t n x := rfl

theorem threadPut_beyond (put : Nat → Nat) (clr : Nat) (h : 0x080 ≤ n) : threadPut t n put clr = t := by
  unfold threadPut
  split <;> (try rfl) <;> omega

end

/-- `csrs` of a register of the thread ORs A into its writable fields; the write-1-to-clear fields stay. -/
theorem threadPut_or (t : Thread) (n : BitVec 9) (x : DWord) {v : DWord} (h : threadCsr t n.toNat = some v) :
    threadPut t n.toNat (fun old => old ||| x.toNat) 0 = if n = 1 then t else threadCsrw t n.toNat (v ||| x) := by
  have hn : n = 1 ↔ n.toNat = 1 := ⟨fun e => by rw [e]; rfl, fun e => BitVec.eq_of_toNat_eq e⟩
  simp only [hn]
  generalize n.toNat = k at h
  unfold threadCsr at h
  split at h <;> cases h
  · show { t with fpctl := _ } = { t with fpctl := _ }
    rw [BitVec.toNat_or, BitVec.toNat_setWidth, Nat.mod_eq_of_lt (Nat.lt_trans t.fpctl.isLt (by decide))]
  · show { t with fflags := _ } = t
    rw [show t.fflags &&& ~~~(BitVec.ofNat 32 (0 % 32)) = t.fflags from BitVec.and_allOnes]
  · rfl
  · rfl
  · rfl
  · rfl

/-! ## The wait for the producers of R109 (R110) -/

section
variable {s : State} {t t' : Thread} {n : BitVec 9} {i : Instr} (hu : t'.team = t.team) (hx : t'.tix = t.tix)

include hu hx

theorem holdForFp_advance : holdForFp (advance s t' i) t.team t.tix =
    if t'.fpctl.toNat % 32 ≠ 0 ∧ fpPending s t'.team t'.tix = true ∧ t'.live = true then
      park (retire s t.team) { t' with pc := t'.pc + BitVec.ofNat 64 i.len } (.fpu none) else advance s t' i := by
  unfold holdForFp
  rw [← hu, ← hx, advance_thread]
  dsimp only
  refine ite_eq_of_iff Iff.rfl ?_ rfl
  exact State.setThread_setThread _ ⟨rfl, rfl⟩

theorem afterEnables_goes_on (h : mayGoOn s t' n) : afterEnables (advance s t' i) t n.toNat = advance s t' i := by
  unfold afterEnables
  split
  · next h0 =>
    rw [holdForFp_advance hu hx, if_neg]
    rintro ⟨h1, h2, -⟩
    rcases h with h | h | h
    · exact h (BitVec.eq_of_toNat_eq h0)
    · exact h1 h
    · rw [h] at h2; cases h2
  · rfl

theorem afterEnables_waits (h : ¬mayGoOn s t' n) (hl : t'.live = true) : n = 0 ∧ afterEnables (advance s t' i) t n.toNat =
    park (retire s t.team) { t' with pc := t'.pc + BitVec.ofNat 64 i.len } (.fpu none) := by
  unfold mayGoOn at h
  rw [not_or, not_or, Decidable.not_not, Bool.not_eq_false] at h
  obtain ⟨h0, h1, h2⟩ := h
  unfold afterEnables
  rw [if_pos (by rw [h0]; rfl), holdForFp_advance hu hx, if_pos ⟨h1, h2, hl⟩]
  exact ⟨h0, rfl⟩

end

theorem threadCsrw_same (t : Thread) (n : Nat) (x : DWord) : (threadCsrw t n x).team = t.team ∧ (threadCsrw t n x).tix = t.tix ∧
    (threadCsrw t n x).pc = t.pc ∧ (threadCsrw t n x).live = t.live := by
  unfold threadCsrw
  split <;> exact ⟨rfl, rfl, rfl, rfl⟩

/-! ## Registers beyond the thread's -/

section
variable (s : State) (fn : Nat) (t : Thread) (n : Nat) (put : Nat → Nat) (clr : Nat)

theorem csrPut_thread (h : n < 0x040) : csrPut s fn t n put clr = s := by
  unfold csrPut corePut
  rw [if_pos (by omega)]
  dsimp only
  split <;> (try rfl) <;> omega

/-- Outside the privileged context only the stage-1 root is reached. -/
theorem csrPut_unprivileged (h : 0x080 ≤ n) (hn : n ≠ 0x110) (hp : t.priv = false) : csrPut s fn t n put clr = s := by
  unfold csrPut
  rw [if_neg (by omega), hp, if_neg Bool.false_ne_true, if_neg hn, if_neg Bool.false_ne_true, ite_self]

theorem csrRead_unprivileged (h : 0x080 ≤ n) (hn : n ≠ 0x110) (hp : t.priv = false) : csrRead s fn t n = 0 := by
  unfold csrRead
  rw [if_neg (by omega), hp, if_neg Bool.false_ne_true, if_neg hn, if_neg Bool.false_ne_true, ite_self]

end

/-! ## The words -/

section
variable {s : State} {m : Team} {t : Thread} {n : BitVec 9} {a : Src} {d : Reg}

theorem threadFn_of {l : Launch} (hl : s.launch? m.launch = some l) : threadFn s m = l.fn := by rw [threadFn, hl]

theorem Ready.exec_csrr (hr : Ready s m t (.csrr n d) false [dst2 d]) :
    (n = 1 → fpPending s t.team t.tix = true → exec (.csrr n d) s = .next (park s t .fpuAll)) ∧
    (n ≠ 1 ∨ fpPending s t.team t.tix = false →
      exec (.csrr n d) s = .next (advance s (t.writePair d.toNat (csrRead s (threadFn s m) t n.toNat)) (.csrr n d))) := by
  have hx : exec (.csrr n d) s = .next _ := hr.issue _
  rw [hx, finish_quiet _ _ _ rfl]
  refine ⟨fun h hp => ?_, fun h => ?_⟩
  · rw [if_pos h, awaiting_parks (by rw [parkOver, hp]; rfl)]
  · split
    · next h1 => rw [awaiting_over (by rw [parkOver, h.resolve_left (not_not_intro h1)]; rfl)]
    · rfl

theorem Ready.exec_csrw (hr : Ready s m t (.csrw n a) false [src2 a]) : exec (.csrw n a) s = .next (afterEnables
    (csrPut (advance s (threadCsrw t n.toNat (rp t a)) (.csrw n a)) (threadFn s m) t n.toNat (fun _ => (rp t a).toNat) (rp t a).toNat)
    t n.toNat) := by
  have hx : exec (.csrw n a) s = .next _ := hr.issue _
  rw [hx]
  dsimp only
  rw [finish_quiet _ _ _ rfl, threadPut_write]

theorem Ready.exec_csrs (hr : Ready s m t (.csrs n d a) false [src2 a, dst2 d]) : exec (.csrs n d a) s = .next (afterEnables
    (csrPut (advance s ((threadPut t n.toNat (fun old => old ||| (rp t a).toNat) 0).writePair d.toNat
      (csrRead s (threadFn s m) t n.toNat)) (.csrs n d a)) (threadFn s m) t n.toNat (fun old => old ||| (rp t a).toNat) 0)
    t n.toNat) := by
  have hx : exec (.csrs n d a) s = .next _ := hr.issue _
  rw [hx]
  dsimp only
  rw [finish_quiet _ _ _ rfl]

end

/-- A 64-bit register made of two counts. -/
theorem errRead_toNat (s : State) (die : Nat) :
    (errRead s die).toNat = (s.die die).ce.toNat + (s.die die).ue.toNat * 2 ^ 32 := by
  have h1 := (s.die die).ce.isLt
  have h2 := (s.die die).ue.isLt
  rw [errRead, BitVec.toNat_ofNat, Nat.mod_eq_of_lt (by omega)]

/-- Settles O32: each word by the parts that it reads and writes, the thread's own registers and the others. -/
theorem controlRegistersReadAndWrite : Obligations.ControlRegistersReadAndWrite := by
  unfold Obligations.ControlRegistersReadAndWrite
  refine ⟨fun s m t n d hr => ?read, fun s m t n a hr => ?write, fun s m t n d a hr => ?set⟩
  case read =>
    refine ⟨hr.exec_csrr.1, fun h => ⟨_, hr.exec_csrr.2 h, fun v hv => ?_, fun l hn hl => ?_, csrRead_unprivileged s _ t n.toNat,
      fun hn hp => ?_, fun hn hp => ?_, fun hn hp => ?_⟩⟩
    · obtain ⟨hlt, hv⟩ := threadRead_thread t n.toNat s (threadFn s m) hv
      rw [csrRead, if_pos (by omega), hv]
    · rw [hn, threadFn_of hl]; rfl
    · rw [hn, csrRead, if_neg (by decide), if_pos rfl, hp, if_pos rfl, errRead_toNat]
    · rw [hn, csrRead, if_neg (by decide), if_neg (by decide), if_neg (by decide), hp]; rfl
    · rw [hn, csrRead, if_neg (by decide), if_neg (by decide), if_neg (by decide), hp]; rfl
  case write =>
    have hx := hr.exec_csrw
    obtain ⟨hu, hx', hpc, hlive⟩ := threadCsrw_same t n.toNat (rp t a)
    refine ⟨_, hx, fun hn hg => ?_, fun hg hl => ?_, fun hn h110 hp => ?_, fun l hn hl => ?_, fun hn hp => ?_, fun hn hp => ?_⟩
    · rw [csrPut_thread _ _ _ _ _ _ hn, afterEnables_goes_on hu hx' hg]
    · obtain ⟨h0, hw⟩ := afterEnables_waits (i := .csrw n a) hu hx' hg (hlive.trans hl)
      rw [csrPut_thread _ _ _ _ _ _ (by rw [h0]; decide), hw, hpc]
      rfl
    · rw [csrPut_unprivileged _ _ _ _ _ _ hn h110 hp, afterEnables, if_neg (by omega), ← threadPut_write, threadPut_beyond _ _ _ _ hn]
    · rw [hn, afterEnables, if_neg (by decide), threadFn_of hl]; rfl
    · rw [hn, afterEnables, if_neg (by decide), csrPut, if_neg (by decide), if_neg (by decide), if_neg (by decide), hp]; rfl
    · rw [hn, afterEnables, if_neg (by decide), csrPut, if_neg (by decide), if_neg (by decide), if_neg (by decide), hp]
      simp [packagePut, threadCsrw]
  case set =>
    have hx := hr.exec_csrs
    refine ⟨_, hx, fun v hv => ?_, fun hn h110 hp => ?_⟩
    · obtain ⟨hlt, hv'⟩ := threadRead_thread t n.toNat s (threadFn s m) hv
      have hread : csrRead s (threadFn s m) t n.toNat = v := by rw [csrRead, if_pos (by omega), hv']
      intro t'
      have ht : (threadPut t n.toNat (fun old => old ||| (rp t a).toNat) 0).writePair d.toNat v = t' := by rw [threadPut_or t n _ hv]
      have hsame : t'.team = t.team ∧ t'.tix = t.tix ∧ t'.pc = t.pc ∧ t'.live = t.live := by
        obtain ⟨hu, hx', hpc, hlive⟩ := threadCsrw_same t n.toNat (v ||| rp t a)
        by_cases h1 : n = 1
        · simp only [t', h1, if_true]; exact ⟨rfl, rfl, rfl, rfl⟩
        · simp only [t', h1, if_false]; exact ⟨hu, hx', hpc, hlive⟩
      obtain ⟨hu, hx', hpc, hlive⟩ := hsame
      rw [hread, ht, csrPut_thread _ _ _ _ _ _ (by omega)]
      refine ⟨afterEnables_goes_on hu hx', fun hg hl => ?_⟩
      rw [(afterEnables_waits hu hx' hg (hlive.trans hl)).2, hpc]
      rfl
    · rw [csrPut_unprivileged _ _ _ _ _ _ hn h110 hp, csrRead_unprivileged _ _ _ _ hn h110 hp, afterEnables, if_neg (by omega),
        threadPut_beyond _ _ _ _ hn]

end Sys2Proof.Machine
end

section
/-! SUPPORT. The privileged words: their privilege, `eret`, what a shootdown drops, and `hcall`. -/

namespace Sys2Proof.Machine

/-! ## Privilege (R362) -/

theorem Current.issueWith {s : State} {m : Team} {t : Thread} (h : Current s m t) (i : Instr) (p : Bool) (fs : List RF)
    (k : Team → Thread → State) : issueWith s i p fs k = .next (gated s m t i p fs (k m t)) := by
  simp only [Machine.issueWith, h.current, h.team, h.thread]

theorem Legal.gateOf_unprivileged {m : Team} {i : Instr} {fs : List RF} (h : Legal m i fs) (hn : ∀ f ∈ fs, f.last < m.nreg)
    {t : Thread} (hp : t.priv = false) : gateOf m t i true fs = .perm := by
  have : (fs.find? fun f => f.beyond m.nreg) = none := by
    simp only [List.find?_eq_none, RF.beyond, decide_eq_true_eq, Nat.not_le]
    exact hn
  unfold gateOf
  simp only [h.introduced, h.legal, this, hp]
  rfl

/-! ## Shootdown (R357) -/

theorem get_map {α : Type} (d : α) (f : α → α) (hd : f d = d) (m : FMap α) (n : Nat) :
    FMap.get d (m.map fun p => (p.1, f p.2)) n = f (FMap.get d m n) := by
  induction m with
  | nil => exact hd.symm
  | cons p m ih =>
    obtain ⟨k, v⟩ := p
    rw [List.map_cons, FMap.get, FMap.get]
    split
    · rfl
    · exact ih

section
variable (s : State) (x : Scoped)

/-- What a core keeps of its TLBs and of its store buffer. -/
def scopeCore (c : Core) : Core :=
  { c with
    vtlb := c.vtlb.filter fun e => !x.hasEntry e
    itlb := c.itlb.filter fun e => !x.hasEntry e
    psb := c.psb.map fun e => if Scoped.hasStore s x e then { e with stale := true } else e }

def scopeCluster (c : Cluster) : Cluster := { c with mtlb := c.mtlb.filter fun e => !x.hasEntry e }

def scopeDie (d : Die) : Die := { d with tlb := d.tlb.filter fun e => !x.hasEntry e }

theorem dropXlats_core (c : Nat) : (dropXlats s x).core c = scopeCore s x (s.core c) := by
  unfold dropXlats dropTlbs markStale State.core
  rw [← get_map Core.empty (scopeCore s x) rfl]
  dsimp only
  rw [List.map_map]
  rfl

theorem dropXlats_cluster (c : Nat) : (dropXlats s x).cluster c = scopeCluster x (s.cluster c) :=
  get_map Cluster.empty (scopeCluster x) rfl _ _

theorem dropXlats_die (d : Nat) : (dropXlats s x).die d = scopeDie x (s.die d) :=
  get_map Die.reset (scopeDie x) rfl _ _

theorem not_hasEntry_of_kept {l : List Xlat} {e : Xlat} (h : e ∈ l.filter fun e => !x.hasEntry e) : x.hasEntry e = false := by
  rw [List.mem_filter, Bool.not_eq_true'] at h
  exact h.2

/-- A buffered store in scope is marked, and the mark does not change what is in scope. -/
theorem stale_of_hasStore {c : Core} {e : PsbEntry} (h : e ∈ (scopeCore s x c).psb) (hs : Scoped.hasStore s x e = true) :
    e.stale = true := by
  obtain ⟨e0, -, rfl⟩ := List.mem_map.mp h
  by_cases h0 : Scoped.hasStore s x e0 = true
  · rw [if_pos h0]
  · rw [if_neg h0] at hs; contradiction

/-- An empty range covers nothing, whatever the kind. -/
theorem Scoped.has_empty {x : Scoped} (h : x.hi = x.lo) (fn va ipa n : Nat) : x.has fn va ipa n = false := by
  rw [Scoped.has, h, decide_eq_false (Nat.lt_irrefl _), Bool.false_and]

variable {x} (h : x.hi = x.lo)

include h

theorem hasReq_empty (r : Req) : x.hasReq r = false := by
  unfold Scoped.hasReq
  split
  · exact Bool.and_false _
  · rw [Scoped.has_empty h, Bool.and_false]

theorem scopedRows_empty : scopedRows s x = [] := by
  rw [scopedRows, List.flatMap_eq_nil_iff]
  intro p _
  rw [List.map_eq_nil_iff, List.filter_eq_nil_iff]
  intro r _
  have hr : x.hasRow r.2 = false := List.any_eq_false.mpr fun e _ => by
    rw [Scoped.hasEntry, Scoped.has_empty h]; exact Bool.false_ne_true
  rw [hr]
  exact Bool.false_ne_true

theorem scopedReqs_empty : scopedReqs s x = [] := by
  rw [scopedReqs, List.map_eq_nil_iff, List.filter_eq_nil_iff]
  intro p _
  rw [hasReq_empty h, Bool.false_and]
  exact Bool.false_ne_true

theorem dropXlats_empty : dropXlats s x = s := by
  have hs (e : PsbEntry) : Scoped.hasStore s x e = false := Scoped.has_empty h _ _ _ _
  have he (e : Xlat) : x.hasEntry e = false := Scoped.has_empty h _ _ _ _
  have hf {α : Type} (l : List α) : l.filter (fun _ => true) = l := List.filter_eq_self.mpr fun _ _ => rfl
  simp [dropXlats, dropTlbs, markStale, hs, he, hasReq_empty h, hf]

end

/-! ## The words -/

section
variable {s : State} {m : Team} {t : Thread} {a b c : Src}

theorem Ready.exec_eret (hr : Ready s m t (.eret a) true [src2 a]) : exec (.eret a) s = .next
    (if t.mode then threadFault s t .illegal {} else if (rp t a).toNat % 8 = 0 then jump s { t with priv := false } (rp t a)
      else threadFault s t .align {}) := by
  have hx : exec (.eret a) s = .next _ := hr.issueWith _
  rw [hx, jumpTo_eq _ _ _ _ _ rfl]

theorem Ready.exec_tlbinv {k : TlbKind} {l : Launch} (hr : Ready s m t (.tlbinv k a b c) true [src2 a, src1 b, src1 c])
    (hl : s.launch? m.launch = some l) :
    (l.fn ≠ 0 ∧ (k = .ipa ∨ k = .all) → exec (.tlbinv k a b c) s = .next (threadFault s t .perm {})) ∧
    (¬(l.fn ≠ 0 ∧ (k = .ipa ∨ k = .all)) → countOf s t.team t.tix .ld = 0 → countOf s t.team t.tix .st = 0 →
      exec (.tlbinv k a b c) s = .next ((retire (dropXlats s (scopeOf k l.fn (rp t a) (rw t b) (rw t c))) t.team).setThread
        { t with place := .held (.tlbinv (scopedReqs s (scopeOf k l.fn (rp t a) (rw t b) (rw t c)))
          (scopedRows s (scopeOf k l.fn (rp t a) (rw t b) (rw t c)))) })) := by
  have hx : exec (.tlbinv k a b c) s = .next _ := hr.issueWith _
  rw [hx, threadFn_of hl]
  dsimp only
  exact ⟨fun h => by rw [if_pos h], fun h hld hst => by rw [if_neg h, awaiting_over (release_over hld hst)]; rfl⟩

theorem Ready.exec_hcall {n : Byte} {d : Reg} (hr : Ready s m t (.hcall n d a) false [src2 a, dst1 d]) (hb : m.buffers = false) :
    (∀ h, t.hcall = some h → exec (.hcall n d a) s = .next (park s t (.regs [h.d.toNat]))) ∧
    (t.hcall = none → exec (.hcall n d a) s = .next (raiseCall (jump s (t.markEmpty d.toNat (producerTag 1 t.pc) 1) (t.pc + 8))
      (threadFn s m) 5 { t.markEmpty d.toNat (producerTag 1 t.pc) 1 with pc := t.pc + 8, place := .table } ⟨rp t a, n, d, 0⟩)) := by
  have hx : exec (.hcall n d a) s = .next _ := hr.issue _
  rw [hx]
  dsimp only
  rw [if_neg (by rw [hb]; exact Bool.false_ne_true)]
  refine ⟨fun h hc => by rw [hc], fun hc => ?_⟩
  have hf : finish s (t.markEmpty d.toNat (producerTag 1 t.pc) 1) (.hcall n d a) 0 =
      jump s (t.markEmpty d.toNat (producerTag 1 t.pc) 1) (t.pc + 8) := finishAt_jump _ _ _ _ rfl
  have ht : (jump s (t.markEmpty d.toNat (producerTag 1 t.pc) 1) (t.pc + 8)).thread? t.team t.tix =
      some { t.markEmpty d.toNat (producerTag 1 t.pc) 1 with pc := t.pc + 8, place := .table } :=
    jump_thread s (t.markEmpty d.toNat (producerTag 1 t.pc) 1) (t.pc + 8)
  rw [hc, hf, ht]
  rfl

end

/-- An `hcall` with the ring enabled raises an event and keeps its call in its thread. -/
theorem raiseCall_enabled {s : State} (fn type : Nat) (t : Thread) (h : HCall) (he : s.pkg.hvrEn = true) :
    raiseCall s fn type t h = (raiseEvent s type fn h.arg h.n.toNat (.hcall t.team t.tix) 0).2.setThread
      { t with hcall := some { h with token := nextToken s.pkg } } := by
  rw [raiseCall, he]
  rfl

theorem sameOtherThreads_setThread {s s' : State} {t t' : Thread} (h : t'.team = t.team ∧ t'.tix = t.tix)
    (hs : SameOtherThreads s s' t) : SameOtherThreads s (s'.setThread t') t := fun u tix hne =>
  (State.thread?_setThread_other s' t' (by rw [h.1, h.2]; exact hne)).trans (hs u tix hne)

/-- What the event of an `hcall` leaves. -/
theorem raiseCall_enabled_result {s : State} (fn type : Nat) (t : Thread) (h : HCall) (he : s.pkg.hvrEn = true) :
    (raiseCall s fn type t h).thread? t.team t.tix = some { t with hcall := some { h with token := nextToken s.pkg } } ∧
    (raiseCall s fn type t h).pkg.tokens = nextToken s.pkg ∧
    (∃ e, (raiseCall s fn type t h).pkg.hvEvents = s.pkg.hvEvents ++ [e] ∧ e.type = type ∧ e.addr = h.arg ∧ e.info = h.n.toNat ∧
      e.token = nextToken s.pkg) ∧
    SameMemory s (raiseCall s fn type t h) ∧ SameOtherThreads s (raiseCall s fn type t h) t := by
  rw [raiseCall_enabled _ _ _ _ he]
  exact ⟨State.thread?_setThread _ _, rfl, ⟨_, rfl, rfl, rfl, rfl, rfl⟩, sameMemory_of rfl rfl,
    sameOtherThreads_setThread ⟨rfl, rfl⟩ fun _ _ _ => rfl⟩

theorem jump_memory (s : State) (t : Thread) (pc : DWord) : SameMemory s (jump s t pc) := sameMemory_of rfl rfl

theorem jump_other (s : State) (t : Thread) (pc : DWord) : SameOtherThreads s (jump s t pc) t :=
  arrive_other (retire s t.team) t pc

theorem buffers_of_written {m : Team} (h : m.idem = false ∨ m.demoted = true) : m.buffers = false := by
  rcases h with h | h
  · exact buffers_of_not_idem h
  · rw [Team.buffers, h]; exact Bool.and_false _

/-- Settles O33: the privilege, the target of `eret`, the scope of `tlbinv` and the event of `hcall`. -/
theorem privilegedWords : Obligations.PrivilegedWords := by
  unfold Obligations.PrivilegedWords
  refine ⟨fun s m t i fs hc hp hi h4 hf => ?perm, fun s m t a hr => ?eret, fun s m t k a b c l hr hl => ?tlbinv,
    fun s x h => ⟨fun e => Scoped.has_empty h _ _ _ _, scopedReqs_empty s h, scopedRows_empty s h, dropXlats_empty s h⟩,
    fun s m t n d a hr hm => ?hcall⟩
  case perm =>
    have stop (hn : ∀ f ∈ fs, f.names = true) (k : Team → Thread → State) :
        issueWith s i true fs k = .next (threadFault s t .perm {}) := by
      rw [hc.issueWith, gated_stop _ (Legal.gateOf_unprivileged (legal_of hn h4 fun f h => ?_) (fun f h => ?_) hp) (by decide)]
      · rfl
      · obtain ⟨h1, h2, h3, -⟩ := hf f h; exact ⟨h1, h2, h3⟩
      · exact (hf f h).2.2.2
    rcases hi with ⟨a, rfl, rfl⟩ | ⟨k, a, b, c, rfl, rfl⟩
    · exact stop (by simp [RF.names, src2]) _
    · exact stop (by simp [RF.names, src2, src1]) _
  case eret =>
    rw [hr.exec_eret]
    exact ⟨fun h => by rw [if_pos h], fun h => by rw [h, if_neg Bool.false_ne_true]⟩
  case tlbinv =>
    obtain ⟨hperm, hgo⟩ := hr.exec_tlbinv hl
    refine ⟨fun hn hk => hperm ⟨hn, hk⟩, fun h hld hst => ?_⟩
    intro lo x
    have hx : scopeOf k l.fn (rp t a) (rw t b) (rw t c) = x := rfl
    have hg := hgo (by rintro ⟨hn, rfl | rfl⟩ <;> exact h.elim hn fun h => h.elim nofun nofun) hld hst
    rw [hx] at hg
    refine ⟨_, hg, fun core e he => ?_, fun cl e he => ?_, fun d e he => ?_, fun core e he hs => ?_, rfl,
      sameMemory_of rfl rfl, rfl, rfl⟩
    · rw [show (retire (dropXlats s x) t.team).core core = _ from dropXlats_core s x core] at he
      exact (List.mem_append.mp he).elim (not_hasEntry_of_kept x) (not_hasEntry_of_kept x)
    · rw [show (retire (dropXlats s x) t.team).cluster cl = _ from dropXlats_cluster s x cl] at he
      exact not_hasEntry_of_kept x he
    · rw [show (retire (dropXlats s x) t.team).die d = _ from dropXlats_die s x d] at he
      exact not_hasEntry_of_kept x he
    · rw [show (retire (dropXlats s x) t.team).core core = _ from dropXlats_core s x core] at he
      exact stale_of_hasStore s x he hs
  case hcall =>
    obtain ⟨hparks, hgo⟩ := hr.exec_hcall (buffers_of_written hm)
    refine ⟨hparks, fun hc he => ?_⟩
    obtain ⟨hthread, htokens, hevent, hmem, hother⟩ := raiseCall_enabled_result (threadFn s m) 5
      { t.markEmpty d.toNat (producerTag 1 t.pc) 1 with pc := t.pc + 8, place := .table } ⟨rp t a, n, d, 0⟩
      (s := jump s (t.markEmpty d.toNat (producerTag 1 t.pc) 1) (t.pc + 8)) he
    exact ⟨_, hgo hc, hthread, htokens, hevent, (jump_memory s _ _).trans hmem,
      fun u tix h => (hother u tix h).trans (jump_other s (t.markEmpty d.toNat (producerTag 1 t.pc) 1) (t.pc + 8) u tix h)⟩

end Sys2Proof.Machine
end

section
/-! SUPPORT. The memory accesses of Mordant programs: a load of bytes that stand in memory, and a store that its program, with
no write outstanding, performs with its instruction. -/

namespace Sys2Proof.Machine

theorem Tab.find_append_new {α : Type} (m : Tab α) {k : Nat} (v : α) (h : Tab.find m k = none) : Tab.find (m ++ [(k, v)]) k = some v := by
  induction m with
  | nil => exact if_pos rfl
  | cons p m ih =>
    obtain ⟨j, w⟩ := p
    rw [Tab.find] at h
    rw [List.cons_append, Tab.find]
    split at h
    · cases h
    · next hj => rw [if_neg hj]; exact ih h

theorem leBytes_getElem (n : Nat) : ∀ (x j : Nat) (h : j < (leBytes n x).length),
    (leBytes n x)[j] = BitVec.ofNat 8 (x / 2 ^ (8 * j)) := by
  induction n with
  | zero => intro x j h; cases h
  | succ n ih =>
    intro x j h
    cases j with
    | zero => simp [leBytes]
    | succ j =>
      have hx : x / 256 / 2 ^ (8 * j) = x / 2 ^ (8 * (j + 1)) := by
        rw [Nat.div_div_eq_div_mul, show 8 * (j + 1) = 8 + 8 * j by omega, Nat.pow_add]
      simp only [leBytes, List.getElem_cons_succ, ih, hx]

/-! ## A program without outstanding writes -/

section
variable {s : State} {u : Nat} (hs : Settled s u)

include hs

theorem flushOwn_settled (sel : Req → Bool) : flushOwn s u sel = s := by
  unfold flushOwn
  rw [show pendingOf s u = [] from hs]
  rfl

theorem pendingOf_issued {r : Req} (ho : ownedBy u r = true) (hp : r.performed = false) (hc : r.complete = false) :
    pendingOf (issued s r) u = [(s.uid, r)] := by
  have h : (s.reqs.filter fun p => ownedBy u p.2 && !p.2.performed && !p.2.complete) = [] := hs
  unfold pendingOf issued
  dsimp only
  rw [List.filter_append, h, List.filter_cons_of_pos (by simp [ho, hp, hc])]
  rfl

/-- A write just issued is the only one to be flushed. -/
theorem flushOwn_issued {r : Req} {sel : Req → Bool} (ho : ownedBy u r = true) (hp : r.performed = false) (hc : r.complete = false)
    (hsel : sel r = true) : flushOwn (issued s r) u sel = performOwn (issued s r) s.uid := by
  unfold flushOwn
  rw [pendingOf_issued hs ho hp hc]
  have h : (flushList [(s.uid, r)] sel).contains s.uid = true := by
    rw [flushList, List.foldr_cons, hsel, Bool.true_or, if_pos rfl]
    exact List.contains_iff_mem.mpr List.mem_cons_self
  rw [List.map_cons, List.map_nil]
  dsimp only
  rw [List.filter_cons_of_pos h]
  rfl

end

/-! ## Stores -/

/-- The request of a store by a program with no write outstanding. -/
def programStore (s : State) (u : Nat) (p : Program) (va ipa : Nat) (loc : Loc) (bs : List Byte) : Req :=
  p.req' u s.now (programFn s p) va ipa (.store loc bs) []

section
variable {s : State} {u : Nat} {p : Program} {va ipa : Nat} {loc : Loc} {bs : List Byte}

theorem issueAt_settled (hs : Settled s u) : issueAt u p s va ipa loc bs = issued s (programStore s u p va ipa loc bs) := by
  have hp : pendingOf s u = [] := hs
  have hg (v o n : Nat) : gathers s u va v o n = none := by rw [gathers, hp]; rfl
  unfold issueAt
  rw [hp]
  split
  · rw [hg]; rfl
  · rfl

theorem performOwn_programStore (hk : Tab.find s.reqs s.uid = none) :
    performOwn (issued s (programStore s u p va ipa loc bs)) s.uid =
      match loc with
      | .peer _ _ => issued s (programStore s u p va ipa loc bs)
      | loc => settle (completeReq (writeLoc (issued s (programStore s u p va ipa loc bs)) (programStore s u p va ipa loc bs) loc bs)
          s.uid) := by
  have hf : Tab.find (issued s (programStore s u p va ipa loc bs)).reqs s.uid = some (programStore s u p va ipa loc bs) :=
    Tab.find_append_new _ _ hk
  unfold performOwn
  rw [hf]
  have hown : (issued s (programStore s u p va ipa loc bs)).ownerOf (programStore s u p va ipa loc bs) = none := rfl
  dsimp only [programStore, Program.req']
  unfold performStore
  rw [if_neg (by rw [ready]; exact Bool.false_ne_true), refresh]
  cases loc with
  | peer => rfl
  | _ => exact if_neg (by rw [Bool.and_comm]; exact Bool.false_ne_true)

/-- The writes of a store whose bytes lie in one part. -/
theorem mPlan_one {s1 : State} {win : Bool} (h : mResolve s u p va bs.length .w win = .ok s1 [⟨loc, bs.length, ipa⟩]) :
    mPlan s u p va bs win = .ok s1 [.at va ipa loc bs] := by
  rw [mPlan, h]
  show MR.ok s1 [MWrite.at va ipa loc (bs.take bs.length)] = _
  rw [List.take_length]

theorem mCommitNow_one (hs : Settled s u) (hm : overlaps loc bs.length loc bs.length = true) :
    mCommitNow s u p [.at va ipa loc bs] = performOwn (issued s (programStore s u p va ipa loc bs)) s.uid := by
  have hc : mCommit s u p [.at va ipa loc bs] = issued s (programStore s u p va ipa loc bs) := issueAt_settled hs
  rw [mCommitNow, hc]
  refine flushOwn_issued hs ?_ rfl rfl ?_
  · exact beq_self_eq_true _
  · show (overlaps loc bs.length loc bs.length || false) = true
    rw [hm]; rfl

end

/-! ## The words -/

section
variable {s : State} {u : Nat} {p : Program} (hr : Runs s u p) {w : Width} {sx : Bool} {d v base : BitVec 5} {imm : BitVec 24}

include hr

theorem Runs.exec_ldx : exec (.ldx w sx d base imm) s = .next (
    if (effAddr (p.mreg base) imm).toNat % widthBytes w ≠ 0 then mFault s u .align (effAddr (p.mreg base) imm).toNat
    else (mLoad s u p (effAddr (p.mreg base) imm).toNat (widthBytes w) 0).run fun s bs =>
      mNext s u (p.setM d (mExtend bs sx)) (.ldx w sx d base imm)) := hr.mordant _

theorem Runs.exec_tdld {d : BitVec 3} : exec (.tdld d base imm) s = .next (
    if (effAddr (p.mreg base) imm).toNat % 32 ≠ 0 then mFault s u .align (effAddr (p.mreg base) imm).toNat
    else (mLoad s u p (effAddr (p.mreg base) imm).toNat 288 0).run fun s bs => mNext s u (p.setDesc d bs) (.tdld d base imm)) :=
  hr.mordant _

theorem Runs.exec_stx : exec (.stx w v base imm) s = .next (
    if (effAddr (p.mreg base) imm).toNat % widthBytes w ≠ 0 then mFault s u .align (effAddr (p.mreg base) imm).toNat
    else
      (mPlan s u p (effAddr (p.mreg base) imm).toNat (leBytes (widthBytes w) (p.mreg v).toNat) (decide (w = .w32))).run fun s ws =>
        if ws.any MWrite.peer then (mCommitNow s u p ws).updProgram u fun p => { p with posted := widthBytes w }
        else mNext (mCommitNow s u p ws) u (p.count (widthBytes w) 1) (.stx w v base imm)) := hr.mordant _

end

theorem widthBytes_pos (w : Width) : 0 < widthBytes w := by cases w <;> decide

section
variable {s s1 : State} {u : Nat} {p : Program} {w : Width} {v base : BitVec 5} {imm : BitVec 24} {ipa : Nat} {loc : Loc}

/-- What `stx` comes to where its bytes lie in one part and its program has no write outstanding. -/
theorem Runs.exec_stx_one (hr : Runs s u p) (ha : (effAddr (p.mreg base) imm).toNat % widthBytes w = 0)
    (h : mResolve s u p (effAddr (p.mreg base) imm).toNat (widthBytes w) .w (decide (w = .w32)) = .ok s1 [⟨loc, widthBytes w, ipa⟩])
    (hs : Settled s1 u) (hm : overlaps loc (widthBytes w) loc (widthBytes w) = true) :
    let bs := leBytes (widthBytes w) (p.mreg v).toNat
    let s2 := performOwn (issued s1 (programStore s1 u p (effAddr (p.mreg base) imm).toNat ipa loc bs)) s1.uid
    exec (.stx w v base imm) s = .next (
      if MWrite.peer (.at (effAddr (p.mreg base) imm).toNat ipa loc bs) then
        s2.updProgram u fun p => { p with posted := widthBytes w }
      else mNext s2 u (p.count (widthBytes w) 1) (.stx w v base imm)) := by
  intro bs s2
  have hl : bs.length = widthBytes w := length_leBytes _ _
  rw [hr.exec_stx, if_neg (not_not_intro ha), mPlan_one (s1 := s1) (loc := loc) (ipa := ipa) (by rw [hl]; exact h)]
  show Host.Outcome.next (if (_ || false) = true then _ else _) = _
  rw [Bool.or_false, mCommitNow_one hs (by rw [hl]; exact hm)]

end

/-- A store of bytes of HBM4 changes its own bytes alone. -/
theorem performWrite_bytes {s : State} {fn pa : Nat} {bs : List Byte} (hp : pageQueued s pa = false) (h0 : inBitmap pa = false)
    (h : ∀ j, j < bs.length → pageQueued s (pa + j) = false ∧ inBitmap (pa + j) = false) :
    (∀ j (hj : j < bs.length), readByte (performWrite s fn pa bs) (pa + j) = bs[j]) ∧
    SameMemoryOutside s (performWrite s fn pa bs) pa bs.length := by
  have hq := awaitRun_quiet s pa bs.length hp fun i hi => (h i hi).1
  exact ⟨fun j hj => readByte_performWrite_inside s fn pa bs j hj hq (h j hj).1 h0 (h j hj).2,
    fun a ha => readByte_performWrite_outside s fn pa bs a hq ha⟩

/-- A store of a program changes its own bytes alone. -/
theorem programStore_bytes {s : State} {u : Nat} {p : Program} {va ipa pa : Nat} {bs : List Byte} (hp : pageQueued s pa = false)
    (h0 : inBitmap pa = false) (h : ∀ j, j < bs.length → pageQueued s (pa + j) = false ∧ inBitmap (pa + j) = false) {s2 : State}
    (h2 : s2 = completeReq (writeLoc (issued s (programStore s u p va ipa (.mem pa) bs)) (programStore s u p va ipa (.mem pa) bs)
      (.mem pa) bs) s.uid) :
    (∀ j (hj : j < bs.length), readByte s2 (pa + j) = bs[j]) ∧ SameMemoryOutside s s2 pa bs.length := by
  subst h2
  exact performWrite_bytes (s := issued s (programStore s u p va ipa (.mem pa) bs)) (fn := programFn s p) hp h0 h

/-- Settles O35: loads by what stands in memory, stores by the request that their instruction performs. -/
theorem mordantLoadsAndStores : Obligations.MordantLoadsAndStores := by
  unfold Obligations.MordantLoadsAndStores
  refine ⟨fun s u p w sx d base imm hr => ?ldx, fun s u p d base imm hr => ?tdld,
    fun s u p va n ahead s1 pa ipa h hs hp => ?load, fun s u p w v base imm hr => ?stx⟩
  case ldx =>
    intro i ea
    have hx := hr.exec_ldx (w := w) (sx := sx) (d := d) (base := base) (imm := imm)
    refine ⟨fun ha => hx.trans (congrArg _ (if_pos ha)),
      fun s1 bs ha hl => hx.trans (congrArg _ ((if_neg (not_not_intro ha)).trans ?_))⟩
    show MR.run (mLoad s u p ea (widthBytes w) 0) _ = _
    rw [hl]
    exact mNext_eq_continues _ _ _ _
  case tdld =>
    intro i ea
    have hx := hr.exec_tdld (d := d) (base := base) (imm := imm)
    refine ⟨fun ha => hx.trans (congrArg _ (if_pos ha)),
      fun s1 bs ha hl => hx.trans (congrArg _ ((if_neg (not_not_intro ha)).trans ?_))⟩
    show MR.run (mLoad s u p ea 288 0) _ = _
    rw [hl]
    exact mNext_eq_continues _ _ _ _
  case load =>
    refine ⟨(readMem s1 (programFn s1 p) pa n).1, ?_, readMem_memory _ _ _ _⟩
    rw [mLoad, h]
    show mSample u p va ahead [⟨.mem pa, n, ipa⟩] s1 [] = _
    rw [mSample, flushOwn_settled hs, sample, hp]
    · show MR.ok _ _ = _
      rw [readMem_value]
      rfl
    · rintro v o ⟨⟩
  case stx =>
    intro i ea
    have hx := hr.exec_stx (w := w) (v := v) (base := base) (imm := imm)
    have hl := length_leBytes (widthBytes w) (p.mreg v).toNat
    have hw := widthBytes_pos w
    refine ⟨fun ha => hx.trans (congrArg _ (if_pos ha)), fun s1 v' o ipa ha h hs hk hp => ?peer, fun s1 pa ipa ha h hs hk hh hq hb => ?mem⟩
    case peer =>
      have hx := hr.exec_stx_one (v := v) ha h hs (by simp [overlaps, hw])
      dsimp only at hx
      rw [if_pos (by rfl), performOwn_programStore hk] at hx
      exact ⟨_, hx, by rw [State.program?_updProgram_same, show (issued s1 _).program? u = some p from hp]; rfl, sameMemory_of rfl rfl, rfl, rfl⟩
    case mem =>
      have hx := hr.exec_stx_one (v := v) ha h hs (by simp [overlaps, hw])
      dsimp only at hx
      rw [if_neg (by exact Bool.false_ne_true), performOwn_programStore hk, mNext_eq_continues] at hx
      have h0 : inBitmap pa = false := by have := (hb 0 hw).2; rwa [Nat.add_zero] at this
      obtain ⟨hin, hout⟩ := programStore_bytes (bs := leBytes (widthBytes w) (p.mreg v).toNat) hq h0 (by rw [hl]; exact hb) rfl
      refine ⟨_, hx, fun j hj => ?_, ?_⟩
      · exact (hin j (by rw [hl]; exact hj)).trans (leBytes_getElem _ _ _ _)
      · rw [hl] at hout; exact hout

end Sys2Proof.Machine
end

section
/-! SUPPORT. Descriptors of Mordant programs: a field's bytes are replaced, and no other byte. -/

namespace Sys2Proof.Machine

theorem leBytes_leNat (bs : List Byte) : leBytes bs.length (leNat bs) = bs := by
  induction bs with
  | nil => rfl
  | cons b bs ih =>
    have hb := b.isLt
    rw [List.length_cons, leBytes, leNat, Nat.add_mul_div_left _ _ (by decide), Nat.div_eq_of_lt hb, Nat.zero_add, ih]
    congr 1
    apply BitVec.eq_of_toNat_eq
    rw [BitVec.toNat_ofNat]
    omega

theorem toNat_ofNat_leNat {bs : List Byte} {w : Nat} (h : 8 * bs.length = w) : (BitVec.ofNat w (leNat bs)).toNat = leNat bs := by
  have hl := leNat_lt bs
  rw [show 256 = 2 ^ 8 from rfl, ← Nat.pow_mul, h] at hl
  rw [BitVec.toNat_ofNat, Nat.mod_eq_of_lt hl]

/-! ## The replaced bytes -/

theorem length_spliceBytes {bs new : List Byte} {off : Nat} (h : off + new.length ≤ bs.length) :
    (spliceBytes bs off new).length = bs.length := by
  simp only [spliceBytes, List.length_append, List.length_take, List.length_drop]
  omega

theorem getD_spliceBytes {bs new : List Byte} {off : Nat} (h : off + new.length ≤ bs.length) (j : Nat) :
    (spliceBytes bs off new).getD j 0 = if off ≤ j ∧ j < off + new.length then new.getD (j - off) 0 else bs.getD j 0 := by
  have ht : (bs.take off).length = off := by rw [List.length_take]; omega
  simp only [spliceBytes, List.getD_eq_getElem?_getD]
  by_cases h1 : j < off
  · rw [List.append_assoc, List.getElem?_append_left (by omega), List.getElem?_take_of_lt h1, if_neg (by omega)]
  · by_cases h2 : j < off + new.length
    · rw [List.append_assoc, List.getElem?_append_right (by omega), List.getElem?_append_left (by omega), ht, if_pos (by omega)]
    · rw [List.getElem?_append_right (by rw [List.length_append]; omega), if_neg (by omega), List.getElem?_drop, List.length_append, ht]
      congr 2
      omega

/-! ## The field's values (R242) -/

/-- The values that a field takes, as its rule says them. -/
def FieldFits (f : DescField) (v : DWord) : Prop :=
  match f with
  | .base | .ebase => True
  | .hdr | .ext => v.toNat < 2 ^ 32
  | .str => v = (v.setWidth 48).signExtend 64
  | .off => v = (v.setWidth 32).signExtend 64

theorem fieldTakes_iff (f : DescField) (v : DWord) : fieldTakes f v = true ↔ FieldFits f v := by
  cases f with
  | base => exact iff_of_true rfl trivial
  | ebase => exact iff_of_true rfl trivial
  | hdr => simp only [fieldTakes, FieldFits, beq_iff_eq]; omega
  | ext => simp only [fieldTakes, FieldFits, beq_iff_eq]; omega
  | str => simp only [fieldTakes, FieldFits, beq_iff_eq, BitVec.ofNat_toNat]
  | off => simp only [fieldTakes, FieldFits, beq_iff_eq, BitVec.ofNat_toNat]

theorem Runs.exec_setField {s : State} {u : Nat} {p : Program} {i : Instr} {f : DescField} {k : BitVec 4} {d : BitVec 3} {v : DWord}
    (hr : Runs s u p) (hi : (∃ a, i = .tdset f k d a ∧ v = p.mreg a) ∨ i = .tdsetLit f k d v) :
    exec i s = .next (setField s u p i f k.toNat d v) := by
  rcases hi with ⟨a, rfl, rfl⟩ | rfl
  · exact hr.mordant _
  · exact hr.mordant _

theorem desc_setDesc_same (p : Program) (d : BitVec 3) {bs : List Byte} (h : bs.length = 288) : (p.setDesc d bs).desc d = bs := by
  show leBytes 288 (FMap.get 0 (FMap.set 0 p.d d.toNat (BitVec.ofNat 2304 (leNat bs))) d.toNat).toNat = bs
  rw [FMap.get_set_same, toNat_ofNat_leNat (by rw [h]), ← h, leBytes_leNat]

theorem desc_setDesc_other (p : Program) {d e : BitVec 3} (bs : List Byte) (h : e ≠ d) : (p.setDesc d bs).desc e = p.desc e :=
  congrArg (fun x : BitVec 2304 => leBytes 288 x.toNat) (FMap.get_set_other _ _ _ fun he => h (BitVec.eq_of_toNat_eq he))

/-- Settles O36: a value that fits replaces its field's bytes, any other faults. -/
theorem descriptorFieldsAreSet : Obligations.DescriptorFieldsAreSet := by
  unfold Obligations.DescriptorFieldsAreSet
  refine ⟨fun s u p i f k d v hr hi => ?_, fun bs new off hl hn => ⟨?_, fun j _ => getD_spliceBytes (by omega) j⟩,
    fun k => ⟨rfl, rfl, rfl, rfl, rfl, rfl⟩, fun p d bs h => desc_setDesc_same p d h⟩
  · show (¬FieldFits f v → _) ∧ (FieldFits f v → _)
    rw [hr.exec_setField hi, setField, ← fieldTakes_iff]
    refine ⟨fun h => by rw [if_neg h], fun h => ⟨_, ?_, rfl, fun e he => desc_setDesc_other p _ he⟩⟩
    rw [if_pos h]
    exact congrArg _ (mNext_eq_continues _ _ _ _)
  · rw [length_spliceBytes (by omega), hl]

end Sys2Proof.Machine
end

section
/-! SUPPORT. One element of a tensor movement: what it leaves, and `qput`. -/

namespace Sys2Proof.Machine

/-! ## One element (R221, R222, R243) -/

section
variable (s : State) (u : Nat) (p : Program)

theorem retireProgram_programs (s : State) (p : Program) : (retireProgram s p).programs = s.programs := by
  unfold retireProgram
  split <;> rfl

/-- The program after an element. -/
def Program.moved (p : Program) (bytes : Nat) (fl : FFlags) : Program :=
  { p with
    bcnt := p.bcnt + BitVec.ofNat 64 bytes, icnt := p.icnt + 1, btot := p.btot + BitVec.ofNat 64 bytes
    prog := BitVec.ofNat 48 (p.prog.toNat + 1), mflags := p.mflags ||| fl, wait := false }

theorem mAdvance_eq (bytes : Nat) (fl : FFlags) (next : List Nat) : mAdvance s u p 1 bytes 1 fl next =
    if p.system.isSome ∨ p.btot.toNat / 4096 = (p.moved bytes fl).btot.toNat / 4096 then keepProgram s u (p.moved bytes fl) next
    else retire (keepProgram s u (p.moved bytes fl) next) p.team := by
  have h : mAdvance s u p 1 bytes 1 fl next = if p.btot.toNat / 4096 = (p.moved bytes fl).btot.toNat / 4096 then
      keepProgram s u (p.moved bytes fl) next else retireProgram (keepProgram s u (p.moved bytes fl) next) p := rfl
  rw [h]
  by_cases hb : p.btot.toNat / 4096 = (p.moved bytes fl).btot.toNat / 4096
  · rw [if_pos hb, if_pos (.inr hb)]
  · rw [if_neg hb, retireProgram]
    simp only [hb, or_false]

theorem mAdvance_program (bytes : Nat) (fl : FFlags) (next : List Nat) :
    (mAdvance s u p 1 bytes 1 fl next).program? u = some (p.moved bytes fl) := by
  have h : (keepProgram s u (p.moved bytes fl) next).program? u = some (p.moved bytes fl) := Tab.find_put_same _ _ _
  rw [mAdvance_eq]
  split
  · exact h
  · exact h

/-- An element that is performed leaves what the rules say, and the last one ends the instruction. -/
theorem endMove_mAdvance (i : Instr) (hi : i.len = 8) (bytes : Nat) (fl : FFlags) (next : List Nat) (n : Nat) :
    endMove (mAdvance s u p 1 bytes 1 fl next) u p i n = moves s u p bytes fl next n := by
  unfold endMove
  rw [mAdvance_program]
  dsimp only
  rw [mNext_eq_continues, hi, mAdvance_eq, show (p.moved bytes fl).pc = p.pc from rfl]
  simp only [true_and]
  rfl

end

theorem stepMove_over {s : State} {u : Nat} {p : Program} {i : Instr} {n : Nat} {k : State} (h : n ≤ p.prog.toNat) (hi : i.len = 8) :
    stepMove s u p i n k = continues s u p (p.pc + 8) := by
  rw [stepMove, if_pos h, mNext_eq_continues, hi]
  rfl

theorem stepMove_left {s : State} {u : Nat} {p : Program} {i : Instr} {n : Nat} {k : State} (h : p.prog.toNat < n) :
    stepMove s u p i n k = endMove k u p i n := if_neg (Nat.not_le.mpr h)

/-- What leaves the program at its element does not end the instruction. -/
theorem endMove_waiting {s : State} {u : Nat} {p q : Program} {i : Instr} {n : Nat} (hq : s.program? u = some q)
    (h : q.prog.toNat < n) : endMove s u p i n = s := by
  rw [endMove, hq]
  exact if_neg fun hc => Nat.not_le.mpr h hc.2

theorem readElems_one {s s1 : State} {u : Nat} {p : Program} {t : Tensor} {planes more e : Nat} {x : Nat × Nat}
    (h : readElem s u p t e planes more = .ok s1 x) : readElems u p t planes more 1 e s [] = .ok s1 [x] := by
  rw [readElems, Nat.zero_add, h]
  rfl

/-! ## `qput` (R246) -/

theorem appendStream_full {m : Team} {k : Nat} {bs : List Byte} (h : 65536 < (m.streams.getD k []).length + bs.length) :
    appendStream m k bs = none := if_neg (Nat.not_le.mpr h)

theorem appendStream_room {m : Team} {k : Nat} {bs : List Byte} (h : (m.streams.getD k []).length + bs.length ≤ 65536) :
    appendStream m k bs = some { m with streams := m.streams.set k (m.streams.getD k [] ++ bs) } := if_pos h

section
variable {s : State} {u : Nat} {p : Program} {e : Bool} {k : BitVec 4} {a : BitVec 3} {m : Team}

theorem Runs.exec_qput_desc (hr : Runs s u p) (h : readTensor (p.desc a) = none) :
    exec (.qput e k a) s = .next (mFault s u .desc 0) := by
  have hx : exec (.qput e k a) s = .next _ := hr.mordant _
  rw [hx, h]

theorem Runs.exec_qput {t : Tensor} (hr : Runs s u p) (hsys : p.system = none) (hm : s.team? p.team = some m)
    (h : readTensor (p.desc a) = some t) : exec (.qput e k a) s = .next (
      if e && t.w == 0 then mFault s u .desc 0
      else if m.streams.length ≤ k.toNat then mFault s u .perm 0
      else stepMove s u p (.qput e k a) t.n (putRun s u p t k.toNat e)) := by
  have hx : exec (.qput e k a) s = .next _ := hr.mordant _
  rw [hx, h]
  dsimp only
  rw [hm, hsys]
  simp only [Option.isSome_none, Bool.false_or, Option.map_some, Option.getD_some, decide_eq_true_eq]

/-- The element is appended, or the program is held for room. -/
theorem putRun_element {t : Tensor} {s1 : State} {x : Nat × Nat} {k : Nat} {m1 : Team} (hw : t.w = 0)
    (h : readElem s u p t p.prog.toNat 1 (t.n - p.prog.toNat - 1) = .ok s1 x) (hm : s1.team? p.team = some m1) :
    putRun s u p t k false = match appendStream m1 k (leBytes t.size x.1) with
      | none => mWait s1 u
      | some m => mAdvance (s1.setTeam p.team m) u p 1 (leBytes t.size x.1).length 1 0 (t.placeOf (p.prog.toNat + 1)) := by
  unfold putRun
  dsimp only
  rw [if_pos hw, if_neg Bool.false_ne_true, readElems_one h]
  show (match (s1.team? p.team).bind fun m => appendStream m k (if t.w = 0 then leBytes t.size x.1 else _) with
      | none => _ | some _ => _) = _
  rw [hm, if_pos hw]
  dsimp only [Option.bind_some]
  cases appendStream m1 k (leBytes t.size x.1) with
  | none => rfl
  | some m => simp only [hw, if_true, List.headD_cons, Bool.false_eq_true, if_false]

end

/-- Settles O38: the descriptor, the stream, and then one element at a time. -/
theorem qputAppendsToItsStream : Obligations.QputAppendsToItsStream := by
  unfold Obligations.QputAppendsToItsStream
  intro s u p e k a m hr hsys hm
  refine ⟨hr.exec_qput_desc, fun t h hw => ?_⟩
  rw [hr.exec_qput hsys hm h]
  refine ⟨fun he => by rw [he, hw]; rfl, fun he hk => by rw [he, Bool.false_and, if_neg Bool.false_ne_true, if_pos hk], fun he hk => ?_⟩
  subst he
  rw [Bool.false_and, if_neg Bool.false_ne_true, if_neg (Nat.not_le.mpr hk)]
  refine ⟨fun hn => by rw [stepMove_over hn rfl], fun s1 x m1 hn hx hm1 hp => ?_⟩
  intro bs old
  rw [stepMove_left hn, putRun_element hw hx hm1]
  refine ⟨fun hfull => ?_, fun hroom => ?_⟩
  · rw [appendStream_full hfull]
    exact congrArg _ (endMove_waiting (q := { p with wait := true }) (by rw [mWait, State.program?_updProgram_same, hp]; rfl) hn)
  · rw [appendStream_room hroom]
    dsimp only
    rw [length_leBytes, endMove_mAdvance _ _ _ _ rfl]

end Sys2Proof.Machine
end

section
/-! SUPPORT. What every operation below the instructions leaves of memory's form and of the programs. -/

namespace Sys2Proof.Machine

set_option Elab.async false

/-- What no operation below the instructions names: the functions, Ochre and the clock. -/
def State.fixed (s : State) : FMap Fn × Ochre × Nat := (s.fns, s.och, s.now)

/-- Memory's canonical form stays, every program that is left stands at its instruction and its element, and the functions, Ochre
and the clock are as they were. -/
structure Keeps (s s' : State) : Prop where
  wf : Memory.wf s.mem = true → Memory.wf s'.mem = true
  fixed : s'.fixed = s.fixed
  programs : ∀ u, s'.program? u = none ∨
    ∃ p q, s.program? u = some p ∧ s'.program? u = some q ∧ q.pc = p.pc ∧ q.prog = p.prog

section
variable {s0 s s' : State}

theorem Keeps.refl (s : State) : Keeps s s where
  wf := id
  fixed := rfl
  programs u := by
    cases h : s.program? u with
    | none => exact .inl rfl
    | some p => exact .inr ⟨p, p, rfl, rfl, rfl, rfl⟩

theorem Keeps.trans (h : Keeps s0 s) (h' : Keeps s s') : Keeps s0 s' where
  wf := h'.wf ∘ h.wf
  fixed := h'.fixed.trans h.fixed
  programs u := by
    obtain hn | ⟨p, q, hp, hq, hpc, hprog⟩ := h'.programs u
    · exact .inl hn
    · obtain hn | ⟨p0, q0, hp0, hq0, hpc0, hprog0⟩ := h.programs u
      · rw [hn] at hp; cases hp
      · rw [hq0] at hp; cases hp
        exact .inr ⟨p0, q, hp0, hq, hpc.trans hpc0, hprog.trans hprog0⟩

/-- What leaves memory and programs alone. -/
theorem Keeps.of_eq (hm : s'.mem = s.mem) (hp : s'.programs = s.programs) (hx : s'.fixed = s.fixed := by rfl) : Keeps s s' where
  wf h := hm ▸ h
  fixed := hx
  programs u := by
    rw [State.program?, hp]
    exact (Keeps.refl s).programs u

/-- What leaves memory in its form and programs alone. -/
theorem Keeps.of_wf (hm : Memory.wf s.mem = true → Memory.wf s'.mem = true) (hp : s'.programs = s.programs)
    (hx : s'.fixed = s.fixed := by rfl) : Keeps s s' where
  wf := hm
  fixed := hx
  programs := (Keeps.of_eq (s := s) (s' := { s with programs := s'.programs }) rfl hp).programs

theorem Keeps.frame (h : Keeps s0 s) (hm : s'.mem = s.mem) (hp : s'.programs = s.programs) (hx : s'.fixed = s.fixed := by rfl) :
    Keeps s0 s' := h.trans (.of_eq hm hp hx)

/-- A program that changes neither its place nor its element. -/
theorem Keeps.updProgram (h : Keeps s0 s) (u : Nat) {f : Program → Program} (hpc : ∀ p, (f p).pc = p.pc)
    (hprog : ∀ p, (f p).prog = p.prog) : Keeps s0 (s.updProgram u f) :=
  h.trans { wf := id
            fixed := rfl
            programs := fun v => by
              by_cases hv : v = u
              · subst hv
                rw [State.program?_updProgram_same]
                cases s.program? v with
                | none => exact .inl rfl
                | some p => exact .inr ⟨p, f p, rfl, rfl, hpc p, hprog p⟩
              · rw [State.program?, State.program?, State.updProgram, Tab.find_upd_other _ _ hv]
                exact (Keeps.refl s).programs v }

theorem Tab.find_map {α β : Type} (f : α → β) (m : Tab α) (k : Nat) :
    Tab.find (m.map fun p => (p.1, f p.2)) k = (Tab.find m k).map f := by
  induction m with
  | nil => rfl
  | cons p m ih =>
    obtain ⟨j, w⟩ := p
    rw [List.map_cons, Tab.find, Tab.find]
    split
    · rfl
    · exact ih

/-- Programs that change neither their places nor their elements. -/
theorem Keeps.mapPrograms (h : Keeps s0 s) {f : Program → Program} (hpc : ∀ p, (f p).pc = p.pc) (hprog : ∀ p, (f p).prog = p.prog)
    (hm : s'.mem = s.mem) (hp : s'.programs = s.programs.map fun p => (p.1, f p.2)) (hx : s'.fixed = s.fixed := by rfl) :
    Keeps s0 s' :=
  h.trans { wf := fun hw => hm ▸ hw
            fixed := hx
            programs := fun v => by
              rw [State.program?, hp, Tab.find_map, ← State.program?]
              cases s.program? v with
              | none => exact .inl rfl
              | some p => exact .inr ⟨p, f p, rfl, rfl, hpc p, hprog p⟩ }

/-- A program that goes. -/
theorem Keeps.delProgram (h : Keeps s0 s) (u : Nat) (hm : s'.mem = s.mem) (hp : s'.programs = Tab.del s.programs u)
    (hx : s'.fixed = s.fixed := by rfl) : Keeps s0 s' :=
  h.trans { wf := fun hw => hm ▸ hw
            fixed := hx
            programs := fun v => by
              rw [State.program?, hp]
              by_cases hv : v = u
              · subst hv; exact .inl (Tab.find_del_same _ _)
              · rw [Tab.find_del_other _ hv]; exact (Keeps.refl s).programs v }

theorem Keeps.foldl {α : Type} {f : State → α → State} (hf : ∀ s a, Keeps s0 s → Keeps s0 (f s a)) (l : List α) (h : Keeps s0 s) :
    Keeps s0 (l.foldl f s) := foldl_keeps (Keeps s0) f hf l s h

/-! Updates of the other parts of the state. -/

theorem Keeps.setThread (h : Keeps s0 s) (t : Thread) : Keeps s0 (s.setThread t) := h.frame rfl rfl
theorem Keeps.setTeam (h : Keeps s0 s) (u : Nat) (m : Team) : Keeps s0 (s.setTeam u m) := h.frame rfl rfl
theorem Keeps.updTeam (h : Keeps s0 s) (u : Nat) (f : Team → Team) : Keeps s0 (s.updTeam u f) := h.frame rfl rfl
theorem Keeps.updLaunch (h : Keeps s0 s) (u : Nat) (f : Launch → Launch) : Keeps s0 (s.updLaunch u f) := h.frame rfl rfl
theorem Keeps.updReq (h : Keeps s0 s) (u : Nat) (f : Req → Req) : Keeps s0 (s.updReq u f) := h.frame rfl rfl
theorem Keeps.setCore (h : Keeps s0 s) (c : Nat) (x : Core) : Keeps s0 (s.setCore c x) := h.frame rfl rfl
theorem Keeps.setCluster (h : Keeps s0 s) (c : Nat) (x : Cluster) : Keeps s0 (s.setCluster c x) := h.frame rfl rfl
theorem Keeps.setDie (h : Keeps s0 s) (d : Nat) (x : Die) : Keeps s0 (s.setDie d x) := h.frame rfl rfl
theorem Keeps.setLq (h : Keeps s0 s) (f q : Nat) (x : LQ) : Keeps s0 (s.setLq f q x) := h.frame rfl rfl
theorem Keeps.dropWait (h : Keeps s0 s) (k : Nat) : Keeps s0 (dropWait s k) := h.frame rfl rfl
theorem Keeps.raiseEvent (h : Keeps s0 s) (ty fn : Nat) (a : DWord) (i : Nat) (w : Waiter) (va : DWord) :
    Keeps s0 (raiseEvent s ty fn a i w va).2 := h.frame rfl rfl
theorem Keeps.retire (h : Keeps s0 s) (u : Nat) : Keeps s0 (retire s u) := h.frame rfl rfl
theorem Keeps.arrive (h : Keeps s0 s) (t : Thread) (pc : DWord) : Keeps s0 (arrive s t pc) := h.frame rfl rfl

theorem Keeps.foldl_frame {α : Type} {f : State → α → State} (h : Keeps s0 s) (hm : ∀ s a, (f s a).mem = s.mem)
    (hp : ∀ s a, (f s a).programs = s.programs) (hx : ∀ s a, (f s a).fixed = s.fixed) (l : List α) : Keeps s0 (l.foldl f s) :=
  Keeps.foldl (fun s a h => h.frame (hm s a) (hp s a) (hx s a)) l h

end

end Sys2Proof.Machine
end

section
/-! SUPPORT. `Keeps` of the shared operations: performed writes, translation, area accesses, faults, traps, wakes. -/

namespace Sys2Proof.Machine

set_option Elab.async false

section
variable {s0 s s1 : State}

/-- The state of a result, once the result is known. -/
theorem Keeps.fst {α : Type} {x : State × α} {a : α} (h : Keeps s0 x.1) (e : x = (s1, a)) : Keeps s0 s1 := by
  subst e; exact h

/-! ## Writes and reads that are performed -/

theorem ignoresZeroing_fixed : IgnoresZeroing State.fixed := ignoresZeroing_of fun _ _ _ _ _ _ _ _ _ => rfl

theorem acquireCore_fixed (s : State) (c : Nat) (sc : Scope) : (acquireCore s c sc).fixed = s.fixed := by cases sc <;> rfl

theorem releaseAcq_fixed (s : State) (t : Thread) (sc : Scope) (n : Nat) : (releaseAcq s t sc n).fixed = s.fixed := by
  unfold releaseAcq
  split
  · rfl
  · exact acquireCore_fixed _ _ _

theorem ignoresWrite_fixed : IgnoresWrite State.fixed :=
  ⟨ignoresZeroing_fixed.cache, fun _ _ _ => rfl, fun _ _ => rfl, fun _ _ _ _ => rfl, releaseAcq_fixed, fun _ _ => rfl,
    fun _ _ _ _ => rfl⟩

theorem afterWrite_fixed (s : State) (pa n : Nat) : (afterWrite s pa n).fixed = s.fixed := by
  unfold afterWrite
  split
  · exact wakeSleepers_keeps State.fixed releaseAcq_fixed s pa n
  · rfl

theorem storeMasked_fixed (s : State) (fn pa : Nat) (t : Tab Byte) : (storeMasked s fn pa t).fixed = s.fixed := by
  have h (a n : Nat) : (llcWrite (awaitPage s pa) fn a n).fixed = s.fixed :=
    (ignoresZeroing_fixed.cache.llcWrite _ fn a n).trans (ignoresZeroing_fixed.awaitPage s pa)
  unfold storeMasked
  split
  · rfl
  · split
    · rfl
    · dsimp only
      split <;> exact h _ _

theorem Keeps.readMem (h : Keeps s0 s) (fn pa n : Nat) : Keeps s0 (readMem s fn pa n).1 :=
  h.trans (.of_wf (wf_readMem s fn pa n) (ignoresZeroing_programs.readMem s fn pa n)
    (ignoresZeroing_fixed.readMem s fn pa n))

theorem Keeps.acquireCore (h : Keeps s0 s) (c : Nat) (sc : Scope) : Keeps s0 (acquireCore s c sc) := by
  cases sc <;> exact h.frame rfl rfl

theorem Keeps.releaseAcq (h : Keeps s0 s) (t : Thread) (sc : Scope) (n : Nat) : Keeps s0 (releaseAcq s t sc n) := by
  unfold Machine.releaseAcq
  split
  · exact h.frame rfl rfl
  · exact (h.acquireCore t.core sc).frame rfl rfl

theorem Keeps.afterWrite (h : Keeps s0 s) (pa n : Nat) : Keeps s0 (afterWrite s pa n) := by
  refine h.frame (afterWrite_mem _ _ _) ?_ (afterWrite_fixed s pa n)
  unfold Machine.afterWrite
  split
  · refine wakeSleepers_keeps State.programs (fun s t sc n => ?_) s pa n
    unfold Machine.releaseAcq
    split
    · rfl
    · cases sc <;> rfl
  · rfl

theorem storeBytes_programs (s : State) (fn pa : Nat) (bs : List Byte) : (storeBytes s fn pa bs).programs = s.programs := by
  have h : (llcWrite (awaitRun s pa bs.length) fn pa bs.length).programs = s.programs :=
    (IgnoresCache.llcWrite ⟨fun _ _ => rfl, fun _ _ => rfl, fun _ _ => rfl, fun _ _ _ => rfl⟩ _ fn pa _).trans
      (ignoresZeroing_programs.awaitRun s pa _)
  unfold storeBytes
  split
  · rfl
  · split <;> exact h

theorem storeMasked_programs (s : State) (fn pa : Nat) (t : Tab Byte) : (storeMasked s fn pa t).programs = s.programs := by
  have h (a n : Nat) : (llcWrite (awaitPage s pa) fn a n).programs = s.programs :=
    (IgnoresCache.llcWrite ⟨fun _ _ => rfl, fun _ _ => rfl, fun _ _ => rfl, fun _ _ _ => rfl⟩ _ fn a n).trans
      (ignoresZeroing_programs.awaitPage s pa)
  unfold storeMasked
  split
  · rfl
  · split
    · rfl
    · dsimp only
      split <;> exact h _ _

theorem Keeps.performWrite (h : Keeps s0 s) (fn pa : Nat) (bs : List Byte) : Keeps s0 (performWrite s fn pa bs) :=
  (h.trans (.of_wf (wf_storeBytes s fn pa bs) (storeBytes_programs s fn pa bs) (ignoresWrite_fixed.storeBytes s fn pa bs))).afterWrite pa bs.length

theorem Keeps.performMerge (h : Keeps s0 s) (fn pa : Nat) (t : Tab Byte) : Keeps s0 (performMerge s fn pa t) :=
  (h.trans (.of_wf (wf_storeMasked s fn pa t) (storeMasked_programs s fn pa t) (storeMasked_fixed s fn pa t))).afterWrite pa 32

/-! ## Translation -/

theorem setTlb_fixed (s : State) (sel : TlbSel) (l : List Xlat) : (s.setTlb sel l).fixed = s.fixed := by cases sel <;> rfl

theorem setTlb_programs (s : State) (sel : TlbSel) (l : List Xlat) : (s.setTlb sel l).programs = s.programs := by cases sel <;> rfl

theorem ignoresCache_programs : IgnoresCache State.programs := ⟨fun _ _ => rfl, fun _ _ => rfl, fun _ _ => rfl, fun _ _ _ => rfl⟩

theorem Keeps.translate (h : Keeps s0 s) (sel : TlbSel) (fn va : Nat) (k : Right) : Keeps s0 (translate s sel fn va k).1 :=
  h.frame (translate_mem s sel fn va k) (translate_keeps State.programs setTlb_programs ignoresCache_programs.llcRead s sel fn va k)
    (translate_keeps State.fixed setTlb_fixed ignoresZeroing_fixed.cache.llcRead s sel fn va k)

theorem Keeps.ipaAccess (h : Keeps s0 s) (fn ipa : Nat) (k : Right) : Keeps s0 (ipaAccess s fn ipa k).1 :=
  h.frame (ipaAccess_keeps State.mem llcRead_mem s fn ipa k) (ipaAccess_keeps State.programs ignoresCache_programs.llcRead s fn ipa k)
    (ipaAccess_keeps State.fixed ignoresZeroing_fixed.cache.llcRead s fn ipa k)

theorem Keeps.areaRuns (h : Keeps s0 s) (fn die : Nat) (k : Right) (ps acc : List (Nat × Nat)) : Keeps s0 (areaRuns fn die k ps s acc).1 :=
  h.frame (areaRuns_mem fn die k ps s acc)
    (areaRuns_keeps State.programs setTlb_programs ignoresCache_programs.llcRead fn die k ps s acc)
    (areaRuns_keeps State.fixed setTlb_fixed ignoresZeroing_fixed.cache.llcRead fn die k ps s acc)

/-! ## Area accesses -/

theorem Keeps.writeRuns (fn : Nat) (rs : List (Nat × Nat)) : ∀ (bs : List Byte) {s : State}, Keeps s0 s → Keeps s0 (writeRuns fn rs bs s) := by
  induction rs with
  | nil => intro bs s h; exact h
  | cons r rs ih => intro bs s h; exact ih _ (h.performWrite fn r.1 _)

theorem Keeps.writeRecord (h : Keeps s0 s) (fn : Nat) (rs : List (Nat × Nat)) (bs : List Byte) : Keeps s0 (writeRecord fn rs bs s) := by
  unfold Machine.writeRecord
  split
  · split
    · exact (h.performWrite _ _ _).performWrite _ _ _
    · exact h.performWrite _ _ _
  · exact Keeps.writeRuns fn rs bs h

theorem Keeps.areaWrite (h : Keeps s0 s) (fn die va : Nat) (bs : List Byte) : Keeps s0 (areaWrite s fn die va bs).1 := by
  have hr := h.areaRuns fn die .w (pieces va bs.length) []
  unfold Machine.areaWrite
  split
  · next heq => exact Keeps.writeRuns fn _ bs (hr.fst heq)
  · next heq => exact hr.fst heq

theorem Keeps.areaRead (h : Keeps s0 s) (fn die va n : Nat) : Keeps s0 (areaRead s fn die va n).1 := by
  have hr := h.areaRuns fn die .r (pieces va n) []
  unfold Machine.areaRead
  split
  · next heq =>
    split
    · exact hr.fst heq
    · exact Keeps.foldl (fun s p h => h.readMem fn p.1 p.2) _ (hr.fst heq)
  · next heq => exact hr.fst heq

theorem Keeps.areaIncrement (h : Keeps s0 s) (fn die va : Nat) : Keeps s0 (areaIncrement s fn die va).1 := by
  have hr := h.areaRuns fn die .w [(va, 4)] []
  unfold Machine.areaIncrement
  split
  · next heq =>
    split
    · exact hr.fst heq
    · exact Keeps.writeRuns fn _ _ ((hr.fst heq).readMem fn _ 4)
  · next heq => exact hr.fst heq

theorem Keeps.areaRecord (h : Keeps s0 s) (fn die va : Nat) (bs : List Byte) : Keeps s0 (areaRecord s fn die va bs).1 := by
  have hr := h.areaRuns fn die .w (pieces va bs.length) []
  unfold Machine.areaRecord
  split
  · next heq => exact (hr.fst heq).writeRecord fn _ bs
  · next heq => exact hr.fst heq

theorem Keeps.areaPost (h : Keeps s0 s) (u : Nat) (l : Launch) (die : Nat) (va : DWord) (bs : List Byte) (lq : Bool) :
    Keeps s0 (areaPost s u l die va bs lq) := by
  have hr := h.areaRecord l.fn die va.toNat bs
  unfold Machine.areaPost
  split
  · next heq => exact hr.fst heq
  · next heq =>
    split
    · exact (hr.fst heq).frame rfl rfl
    · exact hr.fst heq
  · next heq => exact (hr.fst heq).frame rfl rfl

/-! ## Faults and traps -/

theorem Keeps.postFault (h : Keeps s0 s) (u : Nat) (m : Team) (c : Code) (pc : DWord) (slot engine detail : Nat) (mord : Bool)
    (i : FaultInfo) : Keeps s0 (postFault s u m c pc slot engine detail mord i) := by
  unfold Machine.postFault
  split
  · exact h
  · refine Keeps.areaPost ?_ _ _ _ _ _ _
    exact h.frame rfl rfl

theorem Keeps.postTeamFault (h : Keeps s0 s) (u : Nat) (m : Team) (c : Code) (i : FaultInfo) : Keeps s0 (postTeamFault s u m c i) := by
  refine Keeps.postFault ?_ _ _ _ _ _ _ _ _ _
  exact h.frame rfl rfl

theorem Keeps.threadFault (h : Keeps s0 s) (t : Thread) (c : Code) (i : FaultInfo) : Keeps s0 (threadFault s t c i) := by
  unfold Machine.threadFault
  split
  · exact h
  · refine Keeps.postFault ?_ _ _ _ _ _ _ _ _ _
    exact h.frame rfl rfl

theorem Keeps.takeTrap (h : Keeps s0 s) (t : Thread) (c : Code) (epc : DWord) (reg : Nat) : Keeps s0 (takeTrap s t c epc reg) := by
  unfold Machine.takeTrap
  dsimp only
  split
  · exact h.threadFault _ _ _
  · split
    · exact h.threadFault _ _ _
    · exact h.frame rfl rfl

/-! ## Wakes -/

theorem Keeps.leavePark (h : Keeps s0 s) (t : Thread) (p : Park) : Keeps s0 (leavePark s t p) := by
  unfold Machine.leavePark
  split
  · exact h.takeTrap _ _ _ _
  · unfold acquireAtWake
    split
    · exact (h.acquireCore t.core _).frame rfl rfl
    · exact h.frame rfl rfl

theorem Keeps.wakeOne (h : Keeps s0 s) (key : Nat) : Keeps s0 (wakeOne s key) := by
  unfold Machine.wakeOne
  split
  · exact h
  · split
    · split
      · exact h.leavePark _ _
      · exact h
    · exact h

theorem Keeps.wake (h : Keeps s0 s) : Keeps s0 (wake s) := Keeps.foldl (fun s p h => h.wakeOne p.1) _ h

theorem Keeps.creditWake (h : Keeps s0 s) : Keeps s0 (creditWake s) := by
  refine Keeps.wake ?_
  exact h.frame rfl rfl

theorem Keeps.completeReq (h : Keeps s0 s) (k : Nat) : Keeps s0 (completeReq s k) := h.frame rfl rfl

end

end Sys2Proof.Machine
end

section
/-! SUPPORT. `Keeps` of the drain of the phase store buffer and of the ends of teams and launches. -/

namespace Sys2Proof.Machine

set_option Elab.async false

section
variable {s0 s s1 : State}

/-! ## The locations of an access -/

theorem Keeps.lookupVdn (h : Keeps s0 s) (die fn v : Nat) : Keeps s0 (lookupVdn s die fn v).1 := by
  unfold Machine.lookupVdn
  split
  · exact h
  · split
    · exact h
    · exact (h.readMem fn _ 4).frame rfl rfl

theorem Keeps.checkPeer (h : Keeps s0 s) (die fn v o n ipa : Nat) (k : Acc) : Keeps s0 (checkPeer s die fn v o n ipa k).1 := by
  have hl := h.lookupVdn die fn v
  unfold Machine.checkPeer
  split
  · next heq => exact hl.fst heq
  · next heq => exact hl.fst heq
  · next heq => split <;> exact hl.fst heq
  · next heq => split <;> exact hl.fst heq

theorem Keeps.checkGlobal (h : Keeps s0 s) (u : Nat) (m : Team) (core : Nat) (ea : DWord) (n : Nat) (k : Acc) :
    Keeps s0 (checkGlobal s u m core ea n k).1 := by
  unfold Machine.checkGlobal
  dsimp only
  split
  · exact h
  · next l _ =>
    have ht := h.translate (.vector core) l.fn ea.toNat k.right
    split
    · exact h
    · split
      · exact h
      · split
        · exact h
        · split
          · next heq => exact ht.fst heq
          · next heq => exact ht.fst heq
          · next heq =>
            split
            · exact ht.fst heq
            · exact ht.fst heq
            · exact (ht.fst heq).checkPeer _ _ _ _ _ _ _
            · split <;> exact ht.fst heq

theorem Keeps.ethWrite (h : Keeps s0 s) (fn p off : Nat) (x : DWord) : Keeps s0 (ethWrite s fn p off x) := by
  unfold Machine.ethWrite
  dsimp only
  split
  · exact h
  · split
    · exact h.frame rfl rfl
    · exact h.frame rfl rfl
    · exact h

theorem Keeps.notifyWrite (h : Keeps s0 s) (f q off : Nat) (x : DWord) (b : Bool) : Keeps s0 (notifyWrite s f q off x b) := by
  unfold Machine.notifyWrite
  dsimp only
  split
  · split
    · exact h
    · exact h.frame rfl rfl
  · unfold writeQueueCfg
    dsimp only
    split
    · exact h.frame rfl rfl
    · split <;> exact h.frame rfl rfl
  · unfold writeTail
    dsimp only
    split <;> exact h.frame rfl rfl
  · exact h.frame rfl rfl
  · exact h

/-! ## The phase store buffer -/

theorem Keeps.sendStore (h : Keeps s0 s) (core : Nat) (own : Agent) (pa : Nat) (bs : List Byte) : Keeps s0 (sendStore s core own pa bs) := by
  unfold Machine.sendStore
  split
  · exact h
  · exact h.frame rfl rfl

theorem Keeps.drainFault (h : Keeps s0 s) (u : Nat) (m : Team) (va : Nat) : Keeps s0 (drainFault s u m va) := by
  unfold Machine.drainFault
  split
  · exact h
  · exact h.postTeamFault _ _ _ _

theorem Keeps.drainEntry (h : Keeps s0 s) (fn core : Nat) (e : PsbEntry) : Keeps s0 (drainEntry fn core s e) := by
  have hm : Keeps s0 (Machine.performMerge (e.bytes.foldl (fun s p =>
      if isHbm (e.sector * 32) then Machine.sendStore s core .none (e.sector * 32 + p.1) [p.2] else s) s) fn (e.sector * 32) e.bytes) := by
    refine (Keeps.foldl (fun s p h => ?_) _ h).performMerge _ _ _
    split
    · exact h.sendStore _ _ _ _
    · exact h
  unfold Machine.drainEntry
  split
  · refine Keeps.foldl (fun s i h => ?_) _ h
    split
    · exact h.notifyWrite _ _ _ _ _
    · exact h
  all_goals exact hm

theorem Keeps.drainStall (h : Keeps s0 s) (u core fn ipa : Nat) (wk : Bool) (e : PsbEntry) : Keeps s0 (drainStall s u core fn ipa wk e) := by
  unfold Machine.drainStall
  dsimp only
  split <;> exact h.frame rfl rfl

theorem Keeps.drainStale (h : Keeps s0 s) (fn u core : Nat) (m : Team) (e : PsbEntry) : Keeps s0 (drainStale fn u core m s e) := by
  have ht := h.translate (.vector core) fn e.va .w
  unfold Machine.drainStale
  split
  · next heq => exact (ht.fst heq).drainFault _ _ _
  · next heq => exact (ht.fst heq).drainStall _ _ _ _ _ _
  · next heq =>
    split
    · exact (ht.fst heq).drainEntry _ _ _
    · exact (ht.fst heq).drainEntry _ _ _
    · exact (ht.fst heq).drainEntry _ _ _
    · exact (ht.fst heq).drainFault _ _ _

/-- A program of a team whose buffered stores are drained waits for them no more. -/
def Program.unbuffered (u : Nat) (p : Program) : Program := if p.team = u then { p with buffered := false } else p

theorem Keeps.unbuffer (h : Keeps s0 s) (u core : Nat) : Keeps s0 (if drainLeft s core u then s
    else { s with programs := s.programs.map fun p => if p.2.team = u then (p.1, { p.2 with buffered := false }) else p }) := by
  split
  · exact h
  · refine h.mapPrograms (f := Program.unbuffered u) (fun p => ?_) (fun p => ?_) rfl ?_
    · unfold Program.unbuffered; split <;> rfl
    · unfold Program.unbuffered; split <;> rfl
    · refine List.map_congr_left fun p _ => ?_
      unfold Program.unbuffered
      split <;> rfl

theorem Keeps.drain (h : Keeps s0 s) (u : Nat) (m : Team) : Keeps s0 (drain s u m) := by
  have hf (fn : Nat) : Keeps s0 (((s.core m.core).psb.filter fun e => e.team == u).foldl (fun s e =>
      if e.stale then Machine.drainStale fn u m.core m s e else Machine.drainEntry fn m.core s e) (freeEntries s m.core u)) := by
    refine Keeps.foldl (fun s e h => ?_) _ (h.frame rfl rfl)
    split
    · exact h.drainStale _ _ _ _ _
    · exact h.drainEntry _ _ _
  exact (hf _).unbuffer u m.core

theorem Keeps.demote (h : Keeps s0 s) (u : Nat) (m : Team) : Keeps s0 (demote s u m) :=
  ((h.drain u m).setCore _ _).updTeam _ _

/-! ## The ends of launches and teams -/

theorem Keeps.signal (h : Keeps s0 s) (u : Nat) (l : Launch) : Keeps s0 (signal s u l) := by
  have hr := h.areaIncrement l.fn (l.queue % 4) l.sigaddr
  unfold Machine.signal
  dsimp only
  split
  · next heq => exact hr.fst heq
  · next heq => exact (hr.fst heq).frame rfl rfl
  · next heq => exact (hr.fst heq).frame rfl rfl

theorem Keeps.signalAfter (h : Keeps s0 s) (u : Nat) (l : Launch) : Keeps s0 (signalAfter s u l) := by
  unfold Machine.signalAfter
  split
  · exact h
  · exact h.signal u l

theorem Keeps.postLaunchRecord (h : Keeps s0 s) (u : Nat) (l : Launch) (bs : List Byte) : Keeps s0 (postLaunchRecord s u l bs) := by
  have hr := h.areaRecord l.fn (l.queue % 4) l.lcaddr bs
  unfold Machine.postLaunchRecord
  dsimp only
  split
  · next heq => exact (hr.fst heq).signalAfter u l
  · next heq =>
    refine Keeps.signalAfter ?_ u l
    exact (hr.fst heq).frame rfl rfl
  · next heq => exact (hr.fst heq).frame rfl rfl

theorem Keeps.endLaunch (h : Keeps s0 s) (u status : Nat) : Keeps s0 (endLaunch s u status) := by
  unfold Machine.endLaunch
  split
  · exact h
  · split
    · exact h
    · refine Keeps.postLaunchRecord ?_ _ _ _
      have hf : Keeps s0 ((s.cores.filter fun p => p.2.dqOwner == some u).foldl (fun s p =>
          s.setCore p.1 { s.core p.1 with dqOwner := none, deque := [], spill := [] }) s) := by
        refine h.foldl_frame ?_ ?_ ?_ _ <;> exact fun _ _ => rfl
      exact hf.frame rfl rfl

theorem Keeps.checkLaunchEnd (h : Keeps s0 s) (u : Nat) : Keeps s0 (checkLaunchEnd s u) := by
  unfold Machine.checkLaunchEnd
  split
  · exact h
  · split
    · split
      · exact h
      · exact h.endLaunch _ _
    · split
      · exact h.endLaunch _ _
      · exact h

theorem Keeps.lowerCopies (h : Keeps s0 s) (l : Launch) (i : Nat) (v : DWord) (k : Nat) :
    Keeps s0 ((coresOf k).foldl (lowerCopy l i v) s) := by
  refine h.foldl_frame ?_ ?_ ?_ _ <;> exact fun _ _ => rfl

theorem Keeps.freeCells (h : Keeps s0 s) (u : Nat) (l : Launch) (cluster : Nat) : Keeps s0 (freeCells s u l cluster) := by
  unfold Machine.freeCells
  dsimp only
  split
  · exact h
  · refine Keeps.foldl (fun s i h => ?_) _ h
    split
    · exact ((h.setCluster _ _).lowerCopies _ _ _ _).updLaunch _ _
    · exact h

theorem Keeps.dropStoreWaits (h : Keeps s0 s) (u : Nat) : Keeps s0 (dropStoreWaits s u) := by
  refine h.foldl_frame ?_ ?_ ?_ _ <;> exact fun _ _ => rfl

theorem Keeps.leaveDeque (h : Keeps s0 s) (core : Nat) : Keeps s0 (leaveDeque s core) := by
  unfold Machine.leaveDeque
  dsimp only
  split
  · split
    · exact h.frame rfl rfl
    · exact h
  · exact h

theorem Keeps.completeReqs (l : List Nat) (h : Keeps s0 s) : Keeps s0 (l.foldl Machine.completeReq s) :=
  Keeps.foldl (fun _ k h => h.completeReq k) l h

theorem Keeps.releaseTeam (h : Keeps s0 s) (u : Nat) (stage : Stage) : Keeps s0 (releaseTeam s u stage) := by
  unfold Machine.releaseTeam
  split
  · exact h
  · next m _ =>
    have h1 (x : Cluster) : Keeps s0 ((Machine.dropStoreWaits s u).setCluster (clusterOf m.core) x) := (h.dropStoreWaits u).frame rfl rfl
    have h2 (x : Cluster) (l : List Nat) := Keeps.completeReqs l (h1 x)
    dsimp only
    generalize hx : List.foldl Machine.completeReq ((Machine.dropStoreWaits s u).setCluster _ _) _ = x
    have h3 : Keeps s0 x := hx ▸ h2 _ _
    split
    · exact h3.frame rfl rfl
    · refine Keeps.leaveDeque (Keeps.freeCells ?_ _ _ _) _
      exact h3.frame rfl rfl

theorem Keeps.checkTeamEnd (h : Keeps s0 s) (u : Nat) : Keeps s0 (checkTeamEnd s u) := by
  unfold Machine.checkTeamEnd
  split
  · exact h
  · split
    · dsimp only
      split
      · refine Keeps.checkLaunchEnd ?_ _
        exact ((h.drain _ _).releaseTeam _ _).frame rfl rfl
      · exact h.drain _ _
    · exact h

theorem Keeps.settle (h : Keeps s0 s) : Keeps s0 (settle s) := Keeps.foldl (fun _ u h => h.checkTeamEnd u) _ h.creditWake

/-! ## Scratchpads -/

theorem passBarrier_place (u : Nat) (m : Team) (p : Program) : (passBarrier u m p).pc = p.pc ∧ (passBarrier u m p).prog = p.prog := by
  unfold passBarrier
  split
  · split <;> exact ⟨rfl, rfl⟩
  · exact ⟨rfl, rfl⟩

theorem Keeps.releaseCbwait (h : Keeps s0 s) (u : Nat) : Keeps s0 (releaseCbwait s u) := by
  unfold Machine.releaseCbwait
  split
  · exact h
  · next m _ =>
    have hp : Keeps s0 { s with programs := s.programs.map fun p => (p.1, passBarrier u m p.2) } :=
      h.mapPrograms (fun p => (passBarrier_place u m p).1) (fun p => (passBarrier_place u m p).2) rfl rfl
    dsimp only
    split
    · exact hp
    · refine Keeps.foldl (fun s t h => ?_) _ hp
      split
      · split
        · exact h.releaseAcq _ _ _
        · exact h
      · exact h

theorem Keeps.writeScratch (h : Keeps s0 s) (u off : Nat) (bs : List Byte) : Keeps s0 (writeScratch s u off bs) := by
  refine Keeps.releaseCbwait ?_ u
  exact h.frame rfl rfl

theorem Keeps.arriveAt (h : Keeps s0 s) (u off n : Nat) : Keeps s0 (arriveAt s u off n) := by
  unfold Machine.arriveAt
  split
  · exact h
  · exact h.writeScratch _ _ _

theorem Keeps.performGenWrite (h : Keeps s0 s) (core g off fn : Nat) (bs : List Byte) : Keeps s0 (performGenWrite s core g off fn bs) := by
  unfold Machine.performGenWrite
  split
  · exact h.writeScratch _ _ _
  · exact h.frame rfl rfl

end

end Sys2Proof.Machine
end

section
/-! SUPPORT. `Keeps` of register fills, stores that are performed, and the ends and the accesses of programs; what it says of a
program that has ended, or that stays at its element. -/

namespace Sys2Proof.Machine

set_option Elab.async false

section
variable {s0 s s1 : State}

/-! ## Fills -/

theorem Keeps.dropFill (h : Keeps s0 s) (m : Team) (x : RegVal) : Keeps s0 (dropFill s m x) := by
  unfold Machine.dropFill
  split
  · exact h.frame rfl rfl
  · exact h
  · exact h

theorem Keeps.fillRecord (h : Keeps s0 s) (u : Nat) (m : Team) (l : Launch) (a : Nat) (x : RegVal) (k : TagKind) :
    Keeps s0 (fillRecord s u m l a x k).1 := by
  have hr := h.areaRead l.fn (dieOf m.core) a 8
  unfold Machine.fillRecord
  split
  · next heq => exact (hr.fst heq).postTeamFault _ _ _ _
  · next heq => exact hr.fst heq
  · next s1 bs heq =>
    have hw := (hr.fst heq).areaWrite l.fn (dieOf m.core) a (recordEntry x)
    split
    · split
      · split
        · next heq => exact hw.fst heq
        · next heq => exact (hw.fst heq).postTeamFault _ _ _ _
        · next heq => exact hw.fst heq
      · exact (hr.fst heq).dropFill _ _
    · exact (hr.fst heq).dropFill _ _
    · exact (hr.fst heq).dropFill _ _

theorem Keeps.tryFill (h : Keeps s0 s) (u tix v : Nat) (x : RegVal) (k : TagKind) : Keeps s0 (tryFill s u tix v x k).1 := by
  unfold Machine.tryFill
  split
  · split
    · split
      · exact h.fillRecord _ _ _ _ _ _
      · exact h.dropFill _ _
    · split
      · split
        · exact (h.setThread _).wake
        · exact h.dropFill _ _
      · exact h.dropFill _ _
      · exact h.dropFill _ _
  · exact h

theorem Keeps.retryFills (h : Keeps s0 s) (u tix v : Nat) : Keeps s0 (retryFills s u tix v) := by
  refine Keeps.foldl (fun s w h => ?_) _ h
  have ht := h.tryFill u tix v w.2.1 w.2.2
  split
  · next heq => exact (ht.fst heq).dropWait _
  · next heq => exact ht.fst heq

theorem Keeps.putFill (h : Keeps s0 s) (u tix v : Nat) (x : RegVal) (k : TagKind) : Keeps s0 (putFill s u tix v x k) := by
  have ht := (h.retryFills u tix v).tryFill u tix v x k
  unfold Machine.putFill
  split
  · next heq => exact ht.fst heq
  · next heq =>
    split
    · split
      · exact (ht.fst heq).raiseEvent _ _ _ _ _ _
      · exact ht.fst heq
    · exact ht.fst heq

theorem Keeps.offerFill (h : Keeps s0 s) (u slot v : Nat) (x : Word) (k : TagKind) : Keeps s0 (offerFill s u slot v x k) := by
  unfold Machine.offerFill
  split
  · exact h
  · split
    · split
      · exact h.dropFill _ _
      · exact h.putFill _ _ _ _ _
    · exact h.dropFill _ _

theorem Keeps.poisonRegs (h : Keeps s0 s) (u : Nat) (k : TagKind) : Keeps s0 (poisonRegs s u k) := by
  unfold Machine.poisonRegs
  split
  · exact h
  · exact Keeps.foldl (fun s t h => Keeps.foldl (fun s v h => h.putFill _ _ _ _ _) _ h) _ h

/-! ## Stores -/

theorem Keeps.failReq (h : Keeps s0 s) (k : Nat) (r : Req) (c : Code) : Keeps s0 (failReq s k r c) := by
  unfold Machine.failReq
  split
  · dsimp only
    split
    · exact ((h.completeReq k).threadFault _ _ _).settle
    · exact (h.completeReq k).settle
  · exact h.completeReq k

theorem Keeps.stallReq (h : Keeps s0 s) (k : Nat) (r : Req) (ipa info : Nat) : Keeps s0 (stallReq s k r ipa info) := by
  unfold Machine.stallReq
  split
  · exact h
  · exact h.raiseEvent _ _ _ _ _ _

theorem Keeps.refresh (h : Keeps s0 s) (k : Nat) (r : Req) : Keeps s0 (refresh s k r).1 := by
  unfold Machine.refresh
  split
  · next t x n _ _ =>
    split
    · next m _ =>
      have hc := h.checkGlobal t.team m t.core r.va n r.act.access
      split
      · next heq => exact (hc.fst heq).updReq _ _
      · next heq => exact (hc.fst heq).failReq _ _ _
      · next heq => exact (hc.fst heq).stallReq _ _ _ _
    · exact h
  · exact h

theorem Keeps.writeLoc (h : Keeps s0 s) (r : Req) (loc : Loc) (bs : List Byte) : Keeps s0 (writeLoc s r loc bs) := by
  unfold Machine.writeLoc
  split
  · refine Keeps.performWrite ?_ _ _ _
    split
    · split
      · exact h.sendStore _ _ _ _
      · exact h
    · exact h
  · split
    · exact h.writeScratch _ _ _
    · exact h
  · exact h.notifyWrite _ _ _ _ _
  · exact h.ethWrite _ _ _ _
  · exact h.offerFill _ _ _ _ _
  · exact h

theorem Keeps.storeHalf (h : Keeps s0 s) (k : Nat) (r : Req) (loc : Loc) (bs : List Byte) : Keeps s0 (storeHalf s k r loc bs) := by
  have hh : Keeps s0 { s with freeCtr := s.freeCtr + 1 } := h.frame rfl rfl
  exact (hh.writeLoc _ _ _).updReq _ _

theorem Keeps.performDemoted (h : Keeps s0 s) (k : Nat) (r : Req) (core u : Nat) (loc : Loc) (bs : List Byte) :
    Keeps s0 (performDemoted s k r core u loc bs) := by
  unfold Machine.performDemoted
  split
  · exact h
  · exact ((h.writeLoc _ _ _).completeReq _).settle

theorem Keeps.enterBuffer (h : Keeps s0 s) (k : Nat) (r : Req) (loc : Loc) (bs : List Byte) : Keeps s0 (enterBuffer s k r loc bs) := by
  unfold Machine.enterBuffer
  split
  · split
    · split
      · exact h.performDemoted _ _ _ _ _ _
      · split
        · exact ((h.setCore _ _).completeReq _).settle
        · split
          · exact (h.completeReq _).settle
          · exact (h.demote _ _).performDemoted _ _ _ _ _ _
    · exact (h.completeReq _).settle
  · exact (h.completeReq _).settle

theorem Keeps.performStore (h : Keeps s0 s) (k : Nat) (r : Req) : Keeps s0 (performStore s k r) := by
  have hr := h.refresh k r
  unfold Machine.performStore
  split
  · exact h
  · split
    · next heq => exact hr.fst heq
    · next heq =>
      have h := hr.fst heq
      split
      · exact h
      · split
        · exact h.storeHalf _ _ _ _
        · exact ((h.writeLoc _ _ _).completeReq _).settle
      · exact h.enterBuffer _ _ _ _
      · exact ((h.arriveAt _ _ _).completeReq _).settle
      · exact h

theorem Keeps.performOwn (h : Keeps s0 s) (k : Nat) : Keeps s0 (performOwn s k) := by
  unfold Machine.performOwn
  split
  · exact h
  · split
    · split
      · refine Keeps.settle ?_
        exact ((h.performGenWrite _ _ _ _ _).completeReq k).frame rfl rfl
      · exact h
    · exact h.performStore _ _

theorem Keeps.flushOwn (h : Keeps s0 s) (u : Nat) (sel : Req → Bool) : Keeps s0 (flushOwn s u sel) :=
  Keeps.foldl (fun _ k h => h.performOwn k) _ h

/-! ## The ends of programs -/

theorem Keeps.writeIpa0 (h : Keeps s0 s) (ipa : Nat) (bs : List Byte) : Keeps s0 (writeIpa0 s ipa bs) := by
  have hi := h.ipaAccess 0 ipa .w
  unfold Machine.writeIpa0
  split
  · next heq => exact (hi.fst heq).performWrite _ _ _
  · next heq => exact (hi.fst heq).performWrite _ _ _
  · next heq => exact hi.fst heq
  · next heq => exact hi.fst heq
  · next heq => exact hi.fst heq

theorem Keeps.postSystemRecord (h : Keeps s0 s) (p : Program) (d : Nat) (e : Ending) : Keeps s0 (postSystemRecord s p d e) := by
  unfold Machine.postSystemRecord
  dsimp only
  split
  · exact h.setDie _ _
  · refine (Keeps.writeIpa0 ?_ _ _).writeIpa0 _ _
    exact h.frame rfl rfl

theorem Keeps.postTeamRecord (h : Keeps s0 s) (u : Nat) (p : Program) (e : Ending) : Keeps s0 (postTeamRecord s u p e).1 := by
  unfold Machine.postTeamRecord
  split
  · exact h
  · split
    · exact h
    · next m _ _ l _ =>
      dsimp only
      have hr := (h.updTeam p.team fun m => { m with ncompl := m.ncompl + 1 }).areaRecord l.fn (dieOf m.core)
        (l.crRing m.num + 32 * (m.ncompl % 2 ^ l.crlog))
        (teamRecord (s.updTeam p.team fun m => { m with ncompl := m.ncompl + 1 }) p m e)
      split
      · next heq => exact ((hr.fst heq).raiseEvent _ _ _ _ _ _).updProgram _ (fun _ => rfl) fun _ => rfl
      · next heq => exact hr.fst heq

theorem Keeps.postCompletion (h : Keeps s0 s) (u : Nat) (p : Program) (e : Ending) : Keeps s0 (postCompletion s u p e).1 := by
  unfold Machine.postCompletion
  split
  · exact h
  · split
    · exact h.postSystemRecord _ _ _
    · exact h.postTeamRecord _ _ _

theorem Keeps.mordantFault (h : Keeps s0 s) (p : Program) (e : Ending) : Keeps s0 (mordantFault s p e) := by
  unfold Machine.mordantFault
  split
  · exact h
  · split
    · exact h
    · exact h.postFault _ _ _ _ _ _ _ _ _

theorem Keeps.leaveMordantQueue (h : Keeps s0 s) (u : Nat) (p : Program) : Keeps s0 (leaveMordantQueue s u p) := by
  unfold Machine.leaveMordantQueue
  split
  · exact h
  · exact h.setCluster _ _

theorem leaveMordantQueue_programs (s : State) (u : Nat) (p : Program) : (leaveMordantQueue s u p).programs = s.programs := by
  unfold leaveMordantQueue
  split <;> rfl

theorem Keeps.removeProgram (h : Keeps s0 s) (u : Nat) (p : Program) : Keeps s0 (removeProgram s u p) :=
  (h.leaveMordantQueue u p).delProgram u rfl rfl

/-- What follows the removal of a program. -/
theorem leaveProgram_removed (s : State) (u : Nat) (p : Program) (e : Ending) :
    Keeps (removeProgram s u p) (leaveProgram s u p e) := by
  unfold leaveProgram
  dsimp only
  cases p.req with
  | none =>
    dsimp only
    split
    · exact .refl _
    · exact ((Keeps.refl _).mordantFault _ _).checkTeamEnd _
  | some k =>
    dsimp only
    have hs := ((Keeps.refl (removeProgram s u p)).completeReq k).settle
    split
    · exact hs
    · exact (hs.mordantFault _ _).checkTeamEnd _

theorem Keeps.leaveProgram (h : Keeps s0 s) (u : Nat) (p : Program) (e : Ending) : Keeps s0 (leaveProgram s u p e) :=
  (h.removeProgram u p).trans (leaveProgram_removed s u p e)

/-- A program that leaves its engine is gone. -/
theorem leaveProgram_gone (s : State) (u : Nat) (p : Program) (e : Ending) : (leaveProgram s u p e).program? u = none := by
  obtain hn | ⟨p', q, hp, _⟩ := (leaveProgram_removed s u p e).programs u
  · exact hn
  · rw [State.program?, removeProgram] at hp
    dsimp only at hp
    rw [Tab.find_del_same] at hp
    cases hp

theorem Keeps.closeProgram (h : Keeps s0 s) (u : Nat) (p : Program) (e : Ending) : Keeps s0 (closeProgram s u p e) := by
  have hp : Keeps s0 (if p.system.isSome then s else Machine.poisonRegs s p.team (.program p.seq)) := by
    split
    · exact h
    · exact h.poisonRegs _ _
  unfold Machine.closeProgram
  dsimp only
  generalize (if p.system.isSome = true then s else Machine.poisonRegs s p.team (.program p.seq)) = x at hp
  split
  · exact hp.updProgram _ (fun _ => rfl) fun _ => rfl
  · exact hp.leaveProgram _ _ _

theorem Keeps.closeRecorded (h : Keeps s0 s) (u : Nat) (p : Program) (e : Ending) : Keeps s0 (closeRecorded s u p e) := by
  unfold Machine.closeRecorded
  split
  · exact h
  · exact h.leaveProgram _ _ _

theorem Keeps.finishProgram (h : Keeps s0 s) (u : Nat) (p : Program) (e : Ending) : Keeps s0 (finishProgram s u p e) := by
  have hc := h.postCompletion u p e
  unfold Machine.finishProgram
  split
  · next heq => exact (hc.fst heq).closeProgram _ _ _
  · next heq => exact hc.fst heq

theorem Keeps.endProgram (h : Keeps s0 s) (u : Nat) (e : Ending) : Keeps s0 (endProgram s u e) := by
  have hf : Keeps s0 (flushAll s u) := h.flushOwn u _
  unfold Machine.endProgram
  dsimp only
  split
  · exact hf
  · split
    · split
      · exact hf.closeRecorded _ _ _
      · split
        · exact hf
        · exact hf.updProgram _ (fun _ => rfl) fun _ => rfl
    · split
      · exact (hf.leaveMordantQueue _ _).updProgram _ (fun _ => rfl) fun _ => rfl
      · exact (hf.leaveMordantQueue _ _).finishProgram _ _ _

theorem Keeps.mFault (h : Keeps s0 s) (u : Nat) (sub : MSub) (addr : Nat) : Keeps s0 (mFault s u sub addr) := h.endProgram _ _

theorem Keeps.mStall (h : Keeps s0 s) (u fn ipa va info : Nat) : Keeps s0 (mStall s u fn ipa va info) :=
  (h.raiseEvent _ _ _ _ _ _).updProgram _ (fun _ => rfl) fun _ => rfl

end

end Sys2Proof.Machine
end

section
/-! SUPPORT. `Keeps` of the reads of a program. -/

namespace Sys2Proof.Machine

set_option Elab.async false

/-- The state that a part of an instruction leaves, whether it goes on or stops. -/
def MR.state {α : Type} : MR α → State
  | .ok s _ => s
  | .stop s => s

section
variable {s0 s s1 : State}

theorem Keeps.ok {α : Type} {x : MR α} {a : α} (h : Keeps s0 x.state) (e : x = .ok s1 a) : Keeps s0 s1 := by
  subst e; exact h

theorem Keeps.bind {α β : Type} {x : MR α} {f : State → α → MR β} (h : Keeps s0 x.state)
    (hf : ∀ s a, Keeps s0 s → Keeps s0 (f s a).state) : Keeps s0 (x.bind f).state := by
  cases x with
  | ok s a => exact hf s a h
  | stop s => exact h

theorem Keeps.mOut (h : Keeps s0 s) (u : Nat) (p : Program) (va n : Nat) (k : Right) (o : Out) : Keeps s0 (mOut s u p va n k o).state := by
  unfold Machine.mOut
  split
  · exact h
  · exact h
  · next v o =>
    split
    · exact h.mFault _ _ _
    · have hc := h.checkPeer p.die (programFn s p) v o n 0 (if k = .w then .store else .load)
      split
      · next heq => exact hc.fst heq
      · next heq => exact (hc.fst heq).mFault _ _ _
      · next heq => exact (hc.fst heq).mFault _ _ _
  · split
    · exact h.mFault _ _ _
    · split
      · split
        · exact h
        · exact h.mFault _ _ _
      all_goals exact h.mFault _ _ _

theorem Keeps.mPiece (h : Keeps s0 s) (u : Nat) (p : Program) (va n : Nat) (k : Right) : Keeps s0 (mPiece s u p va n k).state := by
  unfold Machine.mPiece
  split
  · have hi := h.ipaAccess 0 va k
    split
    · next heq => exact ((hi.fst heq).mOut _ _ _ _ _ _).bind fun _ _ h => h
    · next heq => exact (hi.fst heq).mFault _ _ _
  · have ht := h.translate (.mordant p.cluster) (programFn s p) va k
    dsimp only
    split
    · next heq => exact (ht.fst heq).mFault _ _ _
    · next heq => exact (ht.fst heq).mStall _ _ _ _ _
    · next heq => exact ((ht.fst heq).mOut _ _ _ _ _ _).bind fun _ _ h => h

theorem Keeps.mPieces (u : Nat) (p : Program) (k : Right) (ps : List (Nat × Nat)) : ∀ {s : State} (acc : List Part),
    Keeps s0 s → Keeps s0 (mPieces u p k ps s acc).state := by
  induction ps with
  | nil => intro s acc h; exact h
  | cons x ps ih => intro s acc h; exact (h.mPiece _ _ _ _ _).bind fun _ _ h => ih _ h

theorem Keeps.mResolve (h : Keeps s0 s) (u : Nat) (p : Program) (va n : Nat) (k : Right) (win : Bool) :
    Keeps s0 (mResolve s u p va n k win).state := by
  unfold Machine.mResolve
  split
  · exact Keeps.mPieces _ _ _ _ _ h
  · split
    · exact h
    · split
      · split
        · exact h
        · exact h.mFault _ _ _
      · split
        · exact h.mFault _ _ _
        · split
          · exact Keeps.mPieces _ _ _ _ _ h
          · exact h.mFault _ _ _

theorem Keeps.addReq (h : Keeps s0 s) (r : Req) : Keeps s0 (addReq s r).2 := h.frame rfl rfl

/-- A sample reads memory, and nothing else of the state is written. -/
theorem sample_bytes {fn n : Nat} {loc : Loc} {bs : List Byte} (h : Keeps s0 s) (e : sample s fn loc n = .bytes s1 bs) : Keeps s0 s1 := by
  unfold sample at e
  split at e
  · split at e
    · cases e
    · cases e; exact h.readMem _ _ _
  · cases e; exact h
  · cases e; exact h
  · cases e; exact h
  · cases e
  · cases e

theorem Keeps.mSample (u : Nat) (p : Program) (ahead : Nat) (ps : List Part) : ∀ (va : Nat) {s : State} (acc : List Byte),
    Keeps s0 s → Keeps s0 (mSample u p va ahead ps s acc).state := by
  induction ps with
  | nil => intro va s acc h; exact h
  | cons x ps ih =>
    intro va s acc h
    obtain ⟨loc, n, ipa⟩ := x
    have hf := h.flushOwn u fun r => r.touches loc n
    unfold Machine.mSample
    split
    · split
      · exact ih _ _ h
      · exact h
      · exact h.addReq _
    · dsimp only
      split
      · next heq => exact ih _ _ (sample_bytes hf heq)
      · exact hf.mFault _ _ _
      · exact hf

theorem Keeps.mLoad (h : Keeps s0 s) (u : Nat) (p : Program) (va n ahead : Nat) : Keeps s0 (mLoad s u p va n ahead).state :=
  (h.mResolve _ _ _ _ _ _).bind fun _ _ h => Keeps.mSample _ _ _ _ _ _ h

theorem Keeps.mScrLoad (h : Keeps s0 s) (u : Nat) (p : Program) (core : Nat) (off : Int) (n : Nat) :
    Keeps s0 (mScrLoad s u p core off n).state := by
  unfold Machine.mScrLoad
  dsimp only
  split
  · exact h.mFault _ _ _
  · split
    · exact h.mFault _ _ _
    · exact h.flushOwn _ _

theorem Keeps.prefetch (h : Keeps s0 s) (p : Program) (st : Int) (a : Nat) : Keeps s0 (prefetch s p st a) := by
  unfold Machine.prefetch
  split
  · dsimp only
    split
    · exact h
    · exact h.setDie _ _
  · exact h

theorem Keeps.readAt (h : Keeps s0 s) (u : Nat) (p : Program) (t : Tensor) (a : Int) (e more : Nat) :
    Keeps s0 (readAt s u p t a e more).state := by
  unfold Machine.readAt
  dsimp only
  split
  · exact h.mScrLoad _ _ _ _ _
  · exact (h.mLoad _ _ _ _ _).bind fun _ _ h => h.prefetch _ _ _

theorem Keeps.readPlane (h : Keeps s0 s) (u : Nat) (p : Program) (st a k : Nat) : Keeps s0 (readPlane s u p st a k).state :=
  (h.mLoad _ _ _ _ _).bind fun _ _ h => h.prefetch _ _ _

theorem Keeps.readElem (h : Keeps s0 s) (u : Nat) (p : Program) (t : Tensor) (e planes more : Nat) :
    Keeps s0 (readElem s u p t e planes more).state := by
  unfold Machine.readElem
  split
  · dsimp only
    split
    · exact h.mFault _ _ _
    · exact (h.readAt _ _ _ _ _ _).bind fun _ _ h => h
  · refine Keeps.bind ?_ fun _ _ h => Keeps.bind ?_ fun _ _ h => h
    · split
      · exact h.readPlane _ _ _ _ _
      · exact h
    · split
      · exact h.readPlane _ _ _ _ _
      · exact h

end

end Sys2Proof.Machine
end

section
/-! SUPPORT. `tcopy`, `tgather` and `tscatter`: their checks, and one element at a time. -/

namespace Sys2Proof.Machine

/-! ## One element of a movement -/

section
variable {s s1 s2 : State} {u : Nat} {p q : Program}

/-- A fault on the way to an element does not end the instruction. -/
theorem endMove_mFault {i : Instr} {n : Nat} (hp : s.program? u = some p) (h : Keeps s s1) (hn : p.prog.toNat < n) (sub : MSub)
    (a : Nat) : endMove (mFault s1 u sub a) u p i n = mFault s1 u sub a := by
  obtain hnone | ⟨p', q, hp', hq, _, hprog⟩ := (h.mFault u sub a).programs u
  · rw [endMove, hnone]
  · rw [hp] at hp'
    cases hp'
    exact endMove_waiting hq (hprog ▸ hn)

theorem moveBlock_one {ta td : Tensor} (ha : ta.w = 0) (hd : td.w = 0) (e f room : Nat) :
    moveBlock s u p ta td e f room = moveRun s u p ta td e f 1 (room - 1) := by
  have hn : (if td.w ≠ 0 then Nat.min room (td.left f) else if ta.w ≠ 0 then Nat.min room (ta.left e) else 1) = 1 := by
    rw [if_neg (not_not_intro hd), if_neg (not_not_intro ha)]
  unfold moveBlock
  dsimp only
  rw [hn, if_neg fun h => h.2 ha]

/-- An element that is read, converted and written. -/
theorem moveRun_element {ta td : Tensor} {e f more : Nat} {x : Nat × Nat} {ws : List MWrite} (hd : td.w = 0)
    (hr : readElem s u p ta e 3 more = .ok s1 x) (ht : td.elemAddr f % (td.size : Nat) = 0)
    (hw : planAt s1 u p td (td.elemAddr f) (leBytes td.size (convertElem ta td x.1 x.2).1) = .ok s2 ws) :
    moveRun s u p ta td e f 1 more = mAdvance (mCommit s2 u p ws) u p 1 td.size 1 (convertElem ta td x.1 x.2).2 (ta.placeOf (e + 1)) := by
  have hstop : ¬(td.elemAddr f % (td.size : Nat) ≠ 0) := not_not_intro ht
  unfold moveRun
  rw [readElems_one hr]
  unfold MR.run
  dsimp only [List.headD_cons]
  rw [if_pos hd, if_neg hstop, hw]

end

/-! ## `tcopy` (R243) -/

section
variable {s : State} {u : Nat} {p : Program} {d a : BitVec 3}

theorem Runs.exec_tcopy_desc (hr : Runs s u p) (h : readTensor (p.desc a) = none ∨ readTensor (p.desc d) = none) :
    exec (.tcopy d a) s = .next (mFault s u .desc 0) := by
  have hx : exec (.tcopy d a) s = .next _ := hr.mordant _
  rw [hx]
  rcases h with h | h
  · rw [h]
  · rw [h]
    cases readTensor (p.desc a) <;> rfl

/-- A program that may name the spaces of its descriptors. -/
theorem not_barred {ts : List Tensor} (h : p.system = none ∨ ∀ t ∈ ts, t.space = 0) : barred p ts = false := by
  unfold barred
  rcases h with h | h
  · rw [h]; rfl
  · refine Bool.and_eq_false_imp.mpr fun _ => List.any_eq_false.mpr fun t ht => ?_
    rw [h t ht]
    exact Bool.false_ne_true

theorem Runs.exec_tcopy {ta td : Tensor} (hr : Runs s u p) (ha : readTensor (p.desc a) = some ta) (hd : readTensor (p.desc d) = some td)
    (hb : p.system = none ∨ ta.space = 0 ∧ td.space = 0) : exec (.tcopy d a) s = .next (
      if pairAllowed ta td = false then mFault s u .conv 0
      else if ta.n ≠ td.n then mFault s u .shape 0
      else stepMove s u p (.tcopy d a) ta.n (moveBlock s u p ta td p.prog.toNat p.prog.toNat (ta.n - p.prog.toNat))) := by
  have hbar : barred p [ta, td] = false := not_barred (hb.imp_right fun h t ht => by
    rcases List.mem_cons.mp ht with rfl | ht
    · exact h.1
    · rw [List.mem_singleton.mp ht]; exact h.2)
  have hx : exec (.tcopy d a) s = .next _ := hr.mordant _
  rw [hx, ha, hd]
  dsimp only
  rw [hbar, if_neg Bool.false_ne_true]
  cases pairAllowed ta td <;> rfl

end

/-! ## `tgather` and `tscatter` (R245) -/

section
variable {s s1 : State} {u : Nat} {p : Program} {d a b : BitVec 3} {g : Bool} {ta td tb : Tensor} {k : Nat}

theorem Runs.exec_slices {i : Instr} (hr : Runs s u p) (hi : i = if g then .tgather d a b else .tscatter d a b) :
    exec i s = .next (stepSlices s u p i d a b g) := by
  subst hi
  cases g
  · exact hr.mordant _
  · exact hr.mordant _

theorem indexOf_read {tb : Tensor} {j lim : Nat} (h : ∀ y, p.index = some y → y.1 ≠ j) :
    indexOf s u p tb j lim = readIndex s u p tb j lim := by
  unfold indexOf
  split
  · next i x hp => exact if_neg (h (i, x) hp)
  · rfl

theorem indexOf_kept {tb : Tensor} {j lim x : Nat} (h : p.index = some (j, x)) : indexOf s u p tb j lim = .ok s x := by
  unfold indexOf
  rw [h]
  exact if_pos rfl

theorem readIndex_below {tb : Tensor} {j lim : Nat} {x : Nat × Nat} (h : readElem s u p tb j 3 0 = .ok s1 x) (hx : x.1 < lim) :
    readIndex s u p tb j lim = .ok s1 x.1 := by
  rw [readIndex, h]
  exact if_pos hx

theorem readIndex_beyond {tb : Tensor} {j lim : Nat} {x : Nat × Nat} (h : readElem s u p tb j 3 0 = .ok s1 x) (hx : lim ≤ x.1) :
    readIndex s u p tb j lim = .stop (mFault s1 u .index (BitVec.ofInt 64 (tb.elemAddr j)).toNat) := by
  rw [readIndex, h]
  exact if_neg (Nat.not_lt.mpr hx)

theorem stepSlices_error {i : Instr} {e : MSub} (h : sliceCheck p d a b g = .error e) : stepSlices s u p i d a b g = mFault s u e 0 := by
  rw [stepSlices, h]

/-- One run of a gather or scatter whose slices have elements. -/
theorem stepSlices_slices {i : Instr} (h : sliceCheck p d a b g = .ok (ta, td, tb, k)) (hk : k ≠ 0) :
    stepSlices s u p i d a b g = stepMove s u p i (if g then td else ta).n
      ((indexOf s u p tb (p.prog.toNat / k) ((if g then ta else td).ext.headD 0)).run fun s x =>
        moveBlock (s.updProgram u fun q => { q with index := some (p.prog.toNat / k, x) }) u
          { p with index := some (p.prog.toNat / k, x) } ta td
          (if g then x * k + p.prog.toNat % k else p.prog.toNat) (if g then p.prog.toNat else x * k + p.prog.toNat % k)
          (k - p.prog.toNat % k)) := by
  rw [stepSlices, h]
  exact if_neg hk

theorem stepSlices_empty {i : Instr} (h : sliceCheck p d a b g = .ok (ta, td, tb, k)) (hk : k = 0) :
    stepSlices s u p i d a b g = emptySlices s u p i tb ((if g then ta else td).ext.headD 0) := by
  rw [stepSlices, h]
  exact if_pos hk

/-- The slice of no elements to be looked at next. -/
def Program.nextEmpty (p : Program) : Nat := match p.index with | some y => y.1 + 1 | none => 0

theorem emptySlices_eq (s : State) (u : Nat) (p : Program) (i : Instr) (tb : Tensor) (lim : Nat) : emptySlices s u p i tb lim =
    if tb.n ≤ p.nextEmpty then mNext s u p i
    else (readIndex s u p tb p.nextEmpty lim).run fun s x =>
      keepProgram s u { p with index := some (p.nextEmpty, x), wait := false } [] := by
  unfold emptySlices Program.nextEmpty
  cases p.index <;> rfl

/-- The element of a slice whose index is known. -/
theorem slice_element {i : Instr} {s2 s3 : State} {x o f n room : Nat} {y : Nat × Nat} {ws : List MWrite} (hi : i.len = 8)
    (ha : ta.w = 0) (hd : td.w = 0)
    (hr : readElem (s1.updProgram u fun z => { z with index := some (p.prog.toNat / k, x) }) u
      { p with index := some (p.prog.toNat / k, x) } ta o 3 (room - 1) = .ok s2 y)
    (ht : td.elemAddr f % (td.size : Nat) = 0)
    (hw : planAt s2 u { p with index := some (p.prog.toNat / k, x) } td (td.elemAddr f)
      (leBytes td.size (convertElem ta td y.1 y.2).1) = .ok s3 ws) :
    endMove (moveBlock (s1.updProgram u fun z => { z with index := some (p.prog.toNat / k, x) }) u
      { p with index := some (p.prog.toNat / k, x) } ta td o f room) u p i n =
    moves (mCommit s3 u { p with index := some (p.prog.toNat / k, x) } ws) u { p with index := some (p.prog.toNat / k, x) } td.size
      (convertElem ta td y.1 y.2).2 (ta.placeOf (o + 1)) n := by
  rw [moveBlock_one ha hd, moveRun_element hd hr ht hw]
  exact endMove_mAdvance _ _ { p with index := some (p.prog.toNat / k, x) } i hi _ _ _ _

end

/-- Settles O37: the checks come first, and then one element is one step. -/
theorem tensorElementsMove : Obligations.TensorElementsMove := by
  unfold Obligations.TensorElementsMove
  constructor
  · intro s u p d a hr
    refine ⟨hr.exec_tcopy_desc, fun ta td ha hd hb => ?_⟩
    rw [hr.exec_tcopy ha hd hb]
    refine ⟨fun h => by rw [if_pos h], fun h hn => ?_, fun h hn => ?_⟩
    · rw [if_neg (by rw [h]; decide), if_pos hn]
    · rw [if_neg (by rw [h]; decide), if_neg (not_not_intro hn)]
      refine ⟨fun he => by rw [stepMove_over he rfl], fun s1 x s2 ws he hdw haw hx ht hw => ?_⟩
      rw [stepMove_left he, moveBlock_one haw hdw, moveRun_element hdw hx ht hw, endMove_mAdvance _ _ _ _ rfl]
  · intro s u p i g d a b hr hi
    have hlen : i.len = 8 := by subst hi; cases g <;> rfl
    rw [hr.exec_slices hi]
    refine ⟨fun e h => by rw [stepSlices_error h], fun ta td tb k h => ?_⟩
    intro n e lim
    refine ⟨fun hk hn => ?_, fun s1 x hk hn hy hx hlim => ?_, fun s1 x s2 y s3 ws hk hn hindex haw hdw => ?_, fun hk => ?_⟩
    · rw [stepSlices_slices h hk, stepMove_over hn hlen]
    · rw [stepSlices_slices h hk, stepMove_left hn, indexOf_read hy, readIndex_beyond hx hlim]
      exact congrArg _ (endMove_mFault hr.program (Keeps.ok ((Keeps.refl s).readElem u p tb (e / k) 3 0) hx) hn _ _)
    · intro q far f o hread ht hw
      have hidx : indexOf s u p tb (e / k) lim = .ok s1 x := by
        rcases hindex with ⟨hp, rfl⟩ | ⟨hy, hx, z, hz⟩
        · exact indexOf_kept hp
        · rw [indexOf_read hy]; exact readIndex_below hz hx
      rw [stepSlices_slices h hk, stepMove_left hn, hidx]
      exact congrArg _ (slice_element hlen haw hdw hread ht hw)
    · intro j
      have hj : j = p.nextEmpty := rfl
      clear_value j
      subst hj
      rw [stepSlices_empty h hk, emptySlices_eq]
      refine ⟨fun hj => ?_, fun s1 x hj hx => ?_⟩
      · rw [if_pos hj, mNext_eq_continues, hlen]
        rfl
      · rw [if_neg (Nat.not_le.mpr hj)]
        refine ⟨fun hlim => ?_, fun hlim => ?_⟩
        · rw [readIndex_beyond hx hlim]
          rfl
        · rw [readIndex_below hx hlim]
          simp only [MR.run, keepProgram, usedRead_nil]

end Sys2Proof.Machine
end

section
/-! SUPPORT. Barriers, register fills, fences and ends of Mordant programs. -/

namespace Sys2Proof.Machine

section
variable {s : State} {u : Nat} {p : Program}

theorem afterWrites_settled (hs : Settled s u) (k : State → State) : afterWrites s u k = k s := by
  unfold afterWrites
  dsimp only
  rw [flushAll, flushOwn_settled hs, peersPending, show pendingOf s u = [] from hs]
  rfl

/-! ## Counted barriers and fences (R249 to R251) -/

theorem Runs.exec_mCbarr (hr : Runs s u p) (k : ArrKind) (c : CoreSel) (a b : BitVec 5) : exec (.mCbarr k c a b) s = .next (
    if p.system.isSome then mFault s u .perm 0
    else if (p.mreg a).toNat % 16 ≠ 0 then mFault s u .align (p.mreg a).toNat
    else if barrierBeyond s p (selCore s p c) (p.mreg a).toNat then mFault s u .scratch (p.mreg a).toNat
    else afterWrites s u fun s' => mNext (mArrive s' p (selCore s p c) (p.mreg a).toNat (match k with
        | .cnt => (p.mreg b).toNat % 2 ^ 32
        | .bytes => p.bcnt.toNat % 2 ^ 32
        | .items => p.icnt.toNat % 2 ^ 32)) u { p with bcnt := 0, icnt := 0 } (.mCbarr k c a b)) := by
  have hx : exec (.mCbarr k c a b) s = .next _ := hr.mordant _
  refine hx.trans ?_
  cases k <;> rfl

theorem Runs.exec_mCbwait (hr : Runs s u p) (c : CoreSel) (a b : BitVec 5) : exec (.mCbwait c a b) s = .next (
    if p.passed then mNext s u p (.mCbwait c a b)
    else if p.system.isSome then mFault s u .perm 0
    else if (p.mreg a).toNat % 16 ≠ 0 then mFault s u .align (p.mreg a).toNat
    else (mScrLoad s u p (selCore s p c) (p.mreg a).toNat 16).run fun s' bs =>
      if sliceNat bs 8 1 % 2 ≠ (p.mreg b).toNat % 2 then mNext s' u p (.mCbwait c a b)
      else mHold s' u p (selCore s p c) (p.mreg a).toNat ((p.mreg b).getLsbD 0)) := hr.mordant _

theorem Runs.exec_regfill (hr : Runs s u p) (a b c : BitVec 5) : exec (.regfill a b c) s = .next (
    if p.system.isSome then mFault s u .perm 0
    else
      let s1 := offerFill s p.team ((p.mreg a).toNat % 1024) ((p.mreg b).toNat % 1024) (lowWord (p.mreg c)) (.programOrWindow p.seq)
      if fillStands s1 p.team (.programOrWindow p.seq) then s1.updProgram u fun p => { p with filling := true }
      else mNext s1 u (p.count 4 1) (.regfill a b c)) := hr.mordant _

/-! ## The ends of programs (R220, R255) -/

theorem retireProgram_pending (hs : Settled s u) : Settled (retireProgram s p) u := by
  have h : pendingOf (retireProgram s p) u = pendingOf s u := by
    unfold retireProgram
    split <;> rfl
  exact h.trans hs

theorem leaveMordantQueue_settled (hs : Settled s u) : Settled (leaveMordantQueue s u p) u := by
  have h : pendingOf (leaveMordantQueue s u p) u = pendingOf s u := by
    unfold leaveMordantQueue
    split <;> rfl
  exact h.trans hs

/-- A program that ends with its writes performed. -/
theorem endProgram_settled (hs : Settled s u) (hp : s.program? u = some p) (he : p.ending = none) (e : Ending) :
    endProgram s u e = finishProgram (leaveMordantQueue s u p) u p e := by
  have hw : writesPending (leaveMordantQueue s u p) u = false := by
    rw [writesPending, show pendingOf (leaveMordantQueue s u p) u = [] from leaveMordantQueue_settled hs]
    rfl
  unfold endProgram
  rw [flushAll, flushOwn_settled hs]
  dsimp only
  rw [hp]
  dsimp only
  rw [he]
  dsimp only
  rw [hw, if_neg Bool.false_ne_true]

theorem finishProgram_posted {s2 : State} {e : Ending} (h : postCompletion s u p e = (s2, true)) :
    finishProgram s u p e = closeProgram s2 u p e := by
  rw [finishProgram, h]

theorem finishProgram_stalled {s2 : State} {e : Ending} (h : postCompletion s u p e = (s2, false)) : finishProgram s u p e = s2 := by
  rw [finishProgram, h]

theorem Runs.exec_end {i : Instr} {e : Ending} (hr : Runs s u p)
    (h : (∃ a, i = .mdone a ∧ e = ⟨1, 0, (p.mreg a).toNat % 2 ^ 32, 0⟩) ∨ i = .mexit ∧ e = ⟨0, 0, 0, 0⟩) :
    exec i s = .next (endProgram (retireProgram s p) u e) := by
  rcases h with ⟨a, rfl, rfl⟩ | ⟨rfl, rfl⟩
  · exact hr.mordant _
  · exact hr.mordant _

/-- The record of a team's program whose write is over, one way or the other. -/
theorem postTeamRecord_over {m : Team} {l : Launch} {e : Ending} {s1 : State} {x : AreaRes} (hm : s.team? p.team = some m)
    (hl : s.launch? m.launch = some l)
    (h : areaRecord (s.updTeam p.team fun m => { m with ncompl := m.ncompl + 1 }) l.fn (dieOf m.core)
      (l.crRing m.num + 32 * (m.ncompl % 2 ^ l.crlog)) (completionRecord p e (p.engine.getD 0xFF) m.core s.now) = (s1, x))
    (hx : x = .done ∨ x = .failed) : postTeamRecord s u p e = (s1, true) := by
  unfold postTeamRecord
  rw [hm]
  dsimp only
  rw [hl]
  dsimp only
  rw [teamRecord, show (s.updTeam p.team fun m => { m with ncompl := m.ncompl + 1 }).now = s.now from rfl, h]
  rcases hx with rfl | rfl <;> rfl

theorem postTeamRecord_stalled {m : Team} {l : Launch} {e : Ending} {s1 : State} {ipa info : Nat} (hm : s.team? p.team = some m)
    (hl : s.launch? m.launch = some l)
    (h : areaRecord (s.updTeam p.team fun m => { m with ncompl := m.ncompl + 1 }) l.fn (dieOf m.core)
      (l.crRing m.num + 32 * (m.ncompl % 2 ^ l.crlog)) (completionRecord p e (p.engine.getD 0xFF) m.core s.now) =
        (s1, .stalled ipa info)) :
    ∃ s2 k, postTeamRecord s u p e = (s2, false) ∧
      s2.programs = Tab.upd s1.programs u fun q => { q with ending := some e, stalled := some k, wait := false } := by
  unfold postTeamRecord
  rw [hm]
  dsimp only
  rw [hl]
  dsimp only
  rw [teamRecord, show (s.updTeam p.team fun m => { m with ncompl := m.ncompl + 1 }).now = s.now from rfl, h]
  exact ⟨_, _, rfl, rfl⟩

end

/-- The fields of a completion record (R257). -/
theorem completionRecord_fields (p : Program) (e : Ending) (engine loc now : Nat) : let b := completionRecord p e engine loc now
    b.length = 32 ∧ sliceNat b 0 6 = p.seq.toNat ∧ sliceNat b 6 1 = e.status % 2 ^ 8 ∧
    sliceNat b 7 1 = (if e.status = 3 then e.sub else 0) % 2 ^ 8 ∧ sliceNat b 8 8 = p.btot.toNat ∧
    sliceNat b 16 4 = (if e.status = 1 then e.user else 0) % 2 ^ 32 ∧ sliceNat b 20 1 = p.mflags.toNat ∧
    sliceNat b 21 1 = engine % 2 ^ 8 ∧ sliceNat b 22 2 = loc % 2 ^ 16 ∧ sliceNat b 24 8 = now % 2 ^ 64 := by
  intro b
  have hseq : p.seq.toNat < 2 ^ 48 := p.seq.isLt
  have htot : p.btot.toNat < 2 ^ 64 := p.btot.isLt
  have hfl : p.mflags.toNat < 2 ^ 8 := Nat.lt_of_lt_of_le p.mflags.isLt (by decide)
  simp [-List.append_assoc, b, completionRecord, length_leBytes, sliceNat_append, sliceNat_last, sliceNat_first]
  exact ⟨hseq, htot, hfl⟩

/-- Settles O39: a program's writes come first, then its barrier, its fill or its end. -/
theorem mordantBarriersFillsAndEnds : Obligations.MordantBarriersFillsAndEnds := by
  unfold Obligations.MordantBarriersFillsAndEnds
  refine ⟨⟨?_, ?_, ?_, ?_, fun _ _ => rfl⟩, ?_, ?_, fun _ _ _ _ h => if_pos h, ?_, fun p e engine loc now => completionRecord_fields p e engine loc now⟩
  · intro s u p k c a b hr i
    rw [hr.exec_mCbarr]
    refine ⟨fun h => by rw [if_pos h], fun h ha => by rw [h, if_pos ha]; rfl,
      fun h ha hb => by rw [h, if_neg (not_not_intro ha), if_pos hb]; rfl, fun h ha hb hs => ?_⟩
    intro n
    rw [h, if_neg (not_not_intro ha), hb, afterWrites_settled hs, mNext_eq_continues]
    rfl
  · intro s u p hr hs
    have hx : exec .mfence s = .next _ := hr.mordant _
    rw [hx, afterWrites_settled hs, mNext_eq_continues]
    rfl
  · intro s u p c a b hr
    rw [hr.exec_mCbwait]
    refine ⟨fun h => by rw [if_pos h, mNext_eq_continues]; rfl, fun s1 bs h hsys ha hl => ?_⟩
    rw [h, if_neg Bool.false_ne_true, hsys, if_neg (not_not_intro ha), hl]
    refine congrArg _ ?_
    show (if sliceNat bs 8 1 % 2 ≠ (p.mreg b).toNat % 2 then _ else _) = _
    rw [mNext_eq_continues, ite_not]
    rfl
  · intro s u p a b c hr
    rw [hr.exec_regfill]
    refine ⟨fun h => by rw [if_pos h], fun h => ?_⟩
    intro s1
    rw [if_neg (show ¬p.system.isSome = true by rw [h]; exact Bool.false_ne_true)]
    refine ⟨fun hf => congrArg _ (if_pos hf), fun hf => congrArg _ ((if_neg ?_).trans ?_)⟩
    · exact Bool.eq_false_iff.mp hf
    · rw [mNext_eq_continues]; rfl
  · intro s u p i e hr hs he h s1
    have hx : exec i s = .next (finishProgram s1 u p e) := by
      rw [hr.exec_end h, endProgram_settled (p := p) (retireProgram_pending hs) ?_ he]
      · rfl
      · rw [State.program?, retireProgram_programs]; exact hr.program
    exact ⟨fun s2 hp => hx.trans (congrArg _ (finishProgram_posted hp)), fun s2 hp => hx.trans (congrArg _ (finishProgram_stalled hp))⟩
  · intro s u p e s1
    refine ⟨fun h => ?_, fun h => if_pos h⟩
    rw [show closeProgram s u p e = leaveProgram s1 u p e from if_neg (Bool.eq_false_iff.mp h)]
    exact leaveProgram_gone _ _ _ _
  · intro s u p e m l s1 x he hsys hm hl hrec
    have hpost : postCompletion s u p e = postTeamRecord s u p e := by
      rw [postCompletion, if_neg he, hsys]
    rw [hpost]
    refine ⟨fun hx => postTeamRecord_over hm hl hrec hx, fun ipa info hx => ?_⟩
    subst hx
    exact postTeamRecord_stalled hm hl hrec

end Sys2Proof.Machine
end

section
/-! SUPPORT. `dharv` reads and clears dirty bits; `fxred` puts a contribution with the others. -/

namespace Sys2Proof.Machine

/-! ## Dirty bits (R259) -/

/-- A sum of powers of two below `2 ^ n` that says which bits are set. -/
theorem testBit_foldl_bits (f : Nat → Bool) (n : Nat) :
    let x := (List.range n).foldl (fun x i => if f i then x + 2 ^ i else x) 0
    x < 2 ^ n ∧ ∀ j, j < n → x.testBit j = f j := by
  induction n with
  | zero => exact ⟨Nat.one_pos, fun j h => absurd h (Nat.not_lt_zero j)⟩
  | succ n ih =>
    obtain ⟨hlt, hbits⟩ := ih
    intro x
    have hx : x = if f n then (List.range n).foldl (fun x i => if f i then x + 2 ^ i else x) 0 + 2 ^ n
        else (List.range n).foldl (fun x i => if f i then x + 2 ^ i else x) 0 := by
      simp only [x, List.range_succ, List.foldl_append, List.foldl_cons, List.foldl_nil]
    generalize (List.range n).foldl (fun x i => if f i then x + 2 ^ i else x) 0 = y at hx hlt hbits
    rw [hx]
    cases hf : f n with
    | false =>
      refine ⟨by simp only [Bool.false_eq_true, if_false]; omega, fun j hj => ?_⟩
      simp only [Bool.false_eq_true, if_false]
      obtain hj | rfl : j < n ∨ j = n := by omega
      · exact hbits j hj
      · rw [hf]; exact Nat.testBit_lt_two_pow hlt
    | true =>
      simp only [if_true]
      rw [Nat.add_comm, Nat.pow_succ]
      refine ⟨by omega, fun j hj => ?_⟩
      obtain hj | rfl : j < n ∨ j = n := by omega
      · rw [Nat.testBit_two_pow_add_gt hj]; exact hbits j hj
      · rw [Nat.testBit_two_pow_add_eq, Nat.testBit_lt_two_pow hlt, hf]; rfl

theorem getLsbD_dirtyBits (s : State) (g : Nat) {j : Nat} (hj : j < 64) :
    (BitVec.ofNat 64 (dirtyBits s g)).getLsbD j = FMap.get false s.dirty (g + j) := by
  rw [BitVec.getLsbD_ofNat, decide_eq_true hj, Bool.true_and]
  exact (testBit_foldl_bits (fun i => FMap.get false s.dirty (g + i)) 64).2 j hj

theorem get_dropKeys {α : Type} (d : α) (m : FMap α) (lo hi k : Nat) :
    FMap.get d (dropKeys m lo hi) k = if lo ≤ k ∧ k < hi then d else FMap.get d m k := by
  by_cases h : lo ≤ k ∧ k < hi
  · rw [if_pos h]
    exact get_filter_dropped d (fun i => !(decide (lo ≤ i) && decide (i < hi))) m (by simp [h.1, h.2])
  · rw [if_neg h]
    exact get_filter_kept d (fun i => !(decide (lo ≤ i) && decide (i < hi))) m (by simpa [Nat.not_le] using (Decidable.not_and_iff_or_not.mp h))

section
variable {s : State} {u : Nat} {p : Program}

theorem Runs.exec_dharv (hr : Runs s u p) (d a : BitVec 5) : exec (.dharv d a) s = .next (
    if p.system.isNone then mFault s u .perm 0
    else if (p.mreg a).toNat % 64 ≠ 0 then mFault s u .align (p.mreg a).toNat
    else if !(isHbm ((p.mreg a).toNat * 4096) && isHbm (((p.mreg a).toNat + 63) * 4096)) then mFault s u .perm (p.mreg a).toNat
    else mNext { s with dirty := dropKeys s.dirty (p.mreg a).toNat ((p.mreg a).toNat + 64) } u
      (p.setM d (BitVec.ofNat 64 (dirtyBits s (p.mreg a).toNat))) (.dharv d a)) := hr.mordant _

/-! ## Contributions (R258, R409) -/

theorem Runs.exec_fxred {op : FxOp} {ty : FxTy} {d a : BitVec 3} {b : BitVec 5} {ta td : Tensor} (hr : Runs s u p)
    (hsys : p.system = none) (ha : readTensor (p.desc a) = some ta) (hd : readTensor (p.desc d) = some td) :
    exec (.fxred op ty d a b) s = .next (
      if ta.fmt ≠ fxFmt ty ∨ td.fmt ≠ fxFmt ty then mFault s u .conv 0
      else if ta.n ≠ td.n ∨ 2 ^ 20 < ta.n then mFault s u .shape 0
      else
        match fxGroup s p (p.mreg b) with
        | (s, none) => mFault s u .perm 0
        | (s, some g) =>
          if s.fab.fxrs.any fun x => x.prog == u && !x.done then mWait s u
          else contribute s u p g ((p.mreg b).toNat / 2 ^ 16 % 2 ^ 32) op ty ta) := by
  have hx : exec (.fxred op ty d a b) s = .next _ := hr.mordant _
  rw [hx, if_neg (show ¬p.system.isSome = true by rw [hsys]; exact Bool.false_ne_true), ha, hd] <;> rfl

/-- What a contribution says of itself. -/
def contribution (s : State) (u : Nat) (p : Program) (g epoch : Nat) (op : FxOp) (ty : FxTy) (xs : List (Nat × Nat)) : Fxr :=
  ⟨u, programFn s p, g, epoch, op, ty, xs.map (·.1), none, false, chooseContext s g epoch (programFn s p), fxMembers s g epoch⟩

/-- The state in which a contribution stands with the others. -/
def joined (s : State) (u : Nat) (x : Fxr) : State :=
  joinFxr { s with reqs := s.reqs.filter fun q => !(q.2.owner == .program u && q.2.act.reads) } x

theorem contribute_read {s s2 : State} {g epoch : Nat} {op : FxOp} {ty : FxTy} {t : Tensor} {xs : List (Nat × Nat)}
    (h : readElems u p t 3 0 t.n 0 s [] = .ok s2 xs) : contribute s u p g epoch op ty t =
      let x := contribution s2 u p g epoch op ty xs
      if fxAgree s2 x then mWait (sendParts (joined s2 u x) u p x) u else faultAll (sendParts (joined s2 u x) u p x) g epoch := by
  unfold contribute MR.run joined
  rw [h]
  simp only [usedRead_nil, contribution] <;> rfl

theorem fxAgree_iff {s : State} {x : Fxr} : fxAgree s x = true ↔
    (∀ y ∈ contributions s x.group x.epoch, y.op = x.op ∧ y.ty = x.ty ∧ y.elems.length = x.elems.length) ∧
    ∀ y ∈ piecesOf s x.group x.epoch, y.op = x.op ∧ y.ty = x.ty ∧ y.n = x.elems.length := by
  unfold fxAgree
  simp only [Bool.and_eq_true, List.all_eq_true, beq_iff_eq, and_assoc]

/-- A contribution that no other stands for is put behind the others. -/
theorem joined_fxrs {x : Fxr} (h : ∀ y ∈ s.fab.fxrs, y.group = x.group → y.epoch = x.epoch → y.fn = x.fn → y.prog = 0 → y.done = true) :
    (joined s u x).fab.fxrs = s.fab.fxrs ++ [x] := by
  refine if_neg fun hany => ?_
  obtain ⟨y, hy, hown⟩ := List.any_eq_true.mp hany
  simp only [Bool.and_eq_true, beq_iff_eq, Bool.not_eq_true'] at hown
  obtain ⟨⟨⟨⟨hg, he⟩, hf⟩, hp⟩, hd⟩ := hown
  rw [h y hy hg he hf hp] at hd
  cases hd

/-- Requests that a program adds, one for each act. -/
def addParts (u : Nat) (p : Program) (fn : Nat) (s : State) (acts : List Act) : State :=
  acts.foldl (fun s o => (addReq s (p.req' u s.now fn 0 0 o [])).2) s

theorem addParts_reqs (u : Nat) (p : Program) (fn : Nat) (acts : List Act) : ∀ s : State,
    ∃ ks : Tab Req, addParts u p fn s acts = { s with uid := s.uid + acts.length, reqs := s.reqs ++ ks } ∧
      ks.map (fun q => q.2.act) = acts := by
  induction acts with
  | nil => intro s; exact ⟨[], by rw [List.append_nil]; rfl, rfl⟩
  | cons o os ih =>
    intro s
    obtain ⟨ks, hs, hk⟩ := ih (addReq s (p.req' u s.now fn 0 0 o [])).2
    refine ⟨(s.uid, p.req' u s.now fn 0 0 o []) :: ks, ?_, by rw [List.map_cons, hk]; rfl⟩
    refine hs.trans ?_
    rw [List.length_cons, Nat.add_comm os.length, ← Nat.add_assoc]
    simp only [addReq, State.fresh, List.append_assoc, List.cons_append, List.nil_append]

/-- The acts of a contribution's packets. -/
def partActs (x : Fxr) : List Act :=
  if x.context.isSome then []
  else (x.members.filter fun m => m.2.1 != Config.packageNumber.toNat).flatMap fun m =>
    (fxParts x).map fun o => .reduce m.1 m.2.1 m.2.2 o

theorem sendParts_eq (s : State) (x : Fxr) : sendParts s u p x = addParts u p x.fn s (partActs x) := by
  unfold sendParts partActs
  split
  · rfl
  · unfold addParts
    rw [List.foldl_flatMap]
    simp only [List.foldl_map]

end

/-- Settles O40: the granules are read and cleared, and a contribution joins the others. -/
theorem harvestAndReduction : Obligations.HarvestAndReduction := by
  unfold Obligations.HarvestAndReduction
  constructor
  · intro s u p d a hr g
    rw [hr.exec_dharv]
    have hsome (h : p.system.isSome = true) : ¬p.system.isNone = true := by rw [Option.isNone_iff_eq_none]; intro e; rw [e] at h; cases h
    refine ⟨fun h => by rw [h]; rfl, fun h hg => by rw [if_neg (hsome h), if_pos hg], fun h hg hh => ?_, fun h hg h0 h63 => ?_⟩
    · rw [if_neg (hsome h), if_neg (not_not_intro hg), if_pos ?_]
      rcases hh with hh | hh
      · rw [hh]; rfl
      · rw [hh, Bool.and_false]; rfl
    · rw [if_neg (hsome h), if_neg (not_not_intro hg), h0, h63, if_neg (by decide), mNext_eq_continues]
      exact ⟨_, _, rfl, fun j hj => getLsbD_dirtyBits s g hj, fun k => get_dropKeys false s.dirty g (g + 64) k, rfl⟩
  · intro s u p op ty d a b hr i
    refine ⟨fun h => ?_, fun ta td hsys ha hd => ?_⟩
    · have hx : exec i s = .next _ := hr.mordant _
      exact hx.trans (congrArg _ (if_pos h))
    · rw [show exec i s = _ from hr.exec_fxred hsys ha hd]
      refine ⟨fun h => by rw [if_pos h], fun h1 h2 h => ?_, fun h1 h2 h3 h4 => ?_⟩
      · rw [if_neg (by rw [h1, h2]; exact fun h => h.elim (· rfl) (· rfl)), if_pos h]
      · rw [if_neg (by rw [h1, h2]; exact fun h => h.elim (· rfl) (· rfl)), if_neg (by rw [h3]; rw [h3] at h4; omega)]
        refine ⟨fun s1 hg => by rw [hg], fun s1 g s2 xs hg hu hx => ?_⟩
        intro epoch fn mine agree kept
        have hany : ¬(s1.fab.fxrs.any fun x => x.prog == u && !x.done) = true := by
          rw [List.any_eq_true]
          rintro ⟨x, hx, h⟩
          rw [Bool.and_eq_true, beq_iff_eq] at h
          exact hu x hx h.1
        rw [hg]
        dsimp only
        rw [if_neg hany, contribute_read hx]
        dsimp only
        have hag : fxAgree s2 mine = true ↔ agree := by
          rw [fxAgree_iff]
          simp only [agree, mine, List.length_map]
        refine ⟨fun h => congrArg _ (if_neg fun ha => h (hag.mp ha)), fun h => ⟨_, congrArg _ (if_pos (hag.mpr h)), ?_⟩⟩
        obtain ⟨ks, hks, hacts⟩ := addParts_reqs u p mine.fn (partActs mine) (joined s2 u mine)
        rw [show contribution s2 u p g ((p.mreg b).toNat / 2 ^ 16 % 2 ^ 32) op ty xs = mine from rfl, sendParts_eq, hks]
        exact ⟨fun h => joined_fxrs h, rfl, ⟨ks, rfl, hacts⟩, sameMemory_of rfl rfl, rfl⟩

end Sys2Proof.Machine
end

section
/-! SUPPORT. The choice of an entry and the row that it gives up. -/

namespace Sys2Proof.Machine

/-! ## The entry that comes first -/

/-- An order in which what comes first is well defined. -/
structure FirstOrder (before : Entry → Entry → Bool) : Prop where
  asymm : ∀ a b, before a b = true → before b a = false
  negTrans : ∀ a b c, before a b = false → before b c = false → before a c = false

theorem firstOrder_addr : FirstOrder addrBefore where
  asymm a b := by simp only [addrBefore, decide_eq_true_eq, decide_eq_false_iff_not]; omega
  negTrans a b c := by simp only [addrBefore, decide_eq_false_iff_not]; omega

theorem bornBefore_iff (now : Nat) (a b : Entry) : bornBefore now a b = true ↔
    b.age now < a.age now ∨ a.age now = b.age now ∧ a.addr.toNat < b.addr.toNat := by
  unfold bornBefore
  split
  · rw [decide_eq_true_eq]; omega
  · rw [decide_eq_true_eq]; omega

theorem firstOrder_born (now : Nat) : FirstOrder (bornBefore now) where
  asymm a b := by rw [← Bool.not_eq_true, bornBefore_iff, bornBefore_iff]; omega
  negTrans a b c := by simp only [← Bool.not_eq_true, bornBefore_iff]; omega

theorem firstBy_spec {before : Entry → Entry → Bool} (ho : FirstOrder before) (l : List Entry) :
    (firstBy before l = none ↔ l = []) ∧ ∀ e, firstBy before l = some e → e ∈ l ∧ ∀ x ∈ l, before x e = false := by
  have hirr (e : Entry) : before e e = false := by
    refine Decidable.byContradiction fun h => ?_
    rw [Bool.not_eq_false] at h
    rw [ho.asymm e e h] at h
    cases h
  induction l with
  | nil => exact ⟨⟨fun _ => rfl, fun _ => rfl⟩, nofun⟩
  | cons a l ih =>
    obtain ⟨hnone, hsome⟩ := ih
    rw [firstBy]
    cases hf : firstBy before l with
    | none =>
      rw [hnone.mp hf]
      refine ⟨⟨nofun, nofun⟩, fun e h => ?_⟩
      cases h
      exact ⟨List.mem_cons_self, fun x hx => by rw [List.mem_singleton.mp hx]; exact hirr a⟩
    | some y =>
      obtain ⟨hy, hmin⟩ := hsome y hf
      dsimp only
      refine ⟨⟨fun h => (by split at h <;> cases h), nofun⟩, fun e h => ?_⟩
      split at h
      · next hb =>
        cases h
        refine ⟨List.mem_cons_of_mem _ hy, fun x hx => ?_⟩
        rcases List.mem_cons.mp hx with rfl | hx
        · exact ho.asymm _ _ hb
        · exact hmin x hx
      · next hb =>
        cases h
        refine ⟨List.mem_cons_self, fun x hx => ?_⟩
        rcases List.mem_cons.mp hx with rfl | hx
        · exact hirr _
        · exact ho.negTrans x y a (hmin x hx) (Bool.eq_false_iff.mpr hb)

/-! ## The entry that is chosen (R158) -/

/-- The considered entries that 64 rows have passed over, and those that are not held. -/
def starved (c : Core) : List Entry := (considered c).filter fun e => e.skip == 64
def eligible (s : State) (c : Nat) : List Entry := (considered (s.core c)).filter fun e => e.tm || !entryHeld s c e

theorem selectEntry_eq (s : State) (c : Nat) : selectEntry s c =
    if starved (s.core c) = [] then firstBy addrBefore (eligible s c) else firstBy (bornBefore s.now) (starved (s.core c)) := by
  unfold selectEntry starved eligible considered
  dsimp only
  split
  · next h => rw [if_pos h]
  · next a h => rw [if_neg h]

theorem mem_starved {c : Core} {e : Entry} : e ∈ starved c ↔ e ∈ considered c ∧ e.skip = 64 := by
  rw [starved, List.mem_filter, beq_iff_eq]

theorem mem_eligible {s : State} {c : Nat} {e : Entry} :
    e ∈ eligible s c ↔ e ∈ considered (s.core c) ∧ (e.tm = true ∨ entryHeld s c e = false) := by
  rw [eligible, List.mem_filter, Bool.or_eq_true, Bool.not_eq_true']

theorem selectEntry_none {s : State} {c : Nat} : selectEntry s c = none ↔ starved (s.core c) = [] ∧ eligible s c = [] := by
  rw [selectEntry_eq]
  split
  · next h => rw [(firstBy_spec firstOrder_addr _).1]; exact ⟨fun he => ⟨h, he⟩, fun he => he.2⟩
  · next h => rw [(firstBy_spec (firstOrder_born s.now) _).1]; exact ⟨fun he => absurd he h, fun he => he.1⟩

/-- The chosen entry: the longest waiting of those that were passed over, else the lowest address. -/
theorem selectEntry_some {s : State} {c : Nat} {e : Entry} (h : selectEntry s c = some e) : e ∈ considered (s.core c) ∧
    (∀ x ∈ considered (s.core c), x.skip = 64 → e.skip = 64 ∧ x.age s.now ≤ e.age s.now) ∧
    (e.skip ≠ 64 → ∀ x ∈ considered (s.core c), x.tm = true ∨ entryHeld s c x = false → e.addr.toNat ≤ x.addr.toNat) := by
  rw [selectEntry_eq] at h
  split at h
  · next hs =>
    obtain ⟨he, hmin⟩ := (firstBy_spec firstOrder_addr _).2 e h
    refine ⟨(mem_eligible.mp he).1, fun x hx hskip => ?_, fun _ x hx hx' => ?_⟩
    · have hmem : x ∈ starved (s.core c) := mem_starved.mpr ⟨hx, hskip⟩
      rw [hs] at hmem
      cases hmem
    · have := hmin x (mem_eligible.mpr ⟨hx, hx'⟩)
      rw [addrBefore, decide_eq_false_iff_not] at this
      exact Nat.not_lt.mp this
  · obtain ⟨he, hmin⟩ := (firstBy_spec (firstOrder_born s.now) _).2 e h
    obtain ⟨hc, hskip⟩ := mem_starved.mp he
    refine ⟨hc, fun x hx hx' => ⟨hskip, ?_⟩, fun hne => absurd hskip hne⟩
    have := hmin x (mem_starved.mpr ⟨hx, hx'⟩)
    rw [← Bool.not_eq_true, bornBefore_iff] at this
    omega

/-! ## The row (R159) -/

theorem mem_rowSlots {e : Entry} {k : Nat} : k ∈ rowSlots e ↔ k ∈ e.slots ∧ k < 1024 ∧ ∀ j ∈ e.slots, j % 64 = k % 64 → k ≤ j := by
  unfold rowSlots
  simp only [List.mem_filterMap, List.mem_range, List.find?_map, Option.map_eq_some_iff, Function.comp_def, List.find?_range_eq_some,
    Bool.not_eq_true', List.contains_eq_mem, decide_eq_false_iff_not, decide_eq_true_eq]
  constructor
  · rintro ⟨lane, hl, i, ⟨hi, hin, hmin⟩, rfl⟩
    refine ⟨hi, by omega, fun j hj hm => ?_⟩
    refine Decidable.byContradiction fun hlt => ?_
    have hjl : j = lane + 64 * (j / 64) := by omega
    exact hmin (j / 64) (by omega) (hjl ▸ hj)
  · rintro ⟨hk, hlt, hmin⟩
    have hkl : k % 64 + 64 * (k / 64) = k := by omega
    refine ⟨k % 64, by omega, k / 64, ⟨hkl.symm ▸ hk, by omega, fun j hj hmem => ?_⟩, hkl⟩
    have := hmin _ hmem (by omega)
    omega

theorem mem_tableAfter {e x : Entry} {row : List Nat} {l : List Entry} (hx : x ∈ l) (hne : sameEntry x e = false) (hs : x.slots ≠ []) :
    { x with skip := Nat.min (x.skip + 1) 64 } ∈ tableAfter e row l := by
  refine List.mem_filter.mpr ⟨List.mem_map.mpr ⟨x, hx, ?_⟩, ?_⟩
  · rw [hne]; rfl
  · rw [Bool.not_eq_true', List.isEmpty_eq_false_iff]; exact hs

/-! ## The selection -/

/-- The row of a chosen entry is formed: its threads stand in it. -/
def standInRow (c : Nat) (row : List Nat) (s : State) : State :=
  row.foldl (fun s slot => match s.threadAt c slot with
    | some t => s.setThread { t with place := .row }
    | none => s) s

theorem standInRow_same {γ : Type} (g : State → γ) (hg : ∀ (s : State) (t : Thread), g (s.setThread t) = g s) (c : Nat) (row : List Nat)
    (s : State) : g (standInRow c row s) = g s := by
  refine foldl_same g _ (fun s slot => ?_) row s
  split
  · exact hg _ _
  · rfl

/-- Entry `e` of a core gives up its row to stream `k`. -/
def rowFormed (s : State) (c k : Nat) (e : Entry) : State :=
  standInRow c (rowSlots e) { s.setCore c { s.core c with
    table := tableAfter e (rowSlots e) (s.core c).table, rows := Tab.put (s.core c).rows k ⟨s.uid, e.addr, 0, rowSlots e, [], []⟩ } with
    uid := s.uid + 1 }

theorem selectRow_eq (s : State) (c : Nat) : let s0 := s.setCore c (drainRing s.now 4 (s.core c))
    selectRow s c = match (List.range 4).find? fun k => (Tab.find (s0.core c).rows k).isNone with
      | none => s0
      | some k => match selectEntry s0 c with
        | none => s0
        | some e => rowFormed s0 c k e := rfl

theorem rowFormed_spec (s : State) (c k : Nat) (e : Entry) : let s' := rowFormed s c k e
    (s'.core c).rows = Tab.put (s.core c).rows k ⟨s.uid, e.addr, 0, rowSlots e, [], []⟩ ∧
    (s'.core c).table = tableAfter e (rowSlots e) (s.core c).table ∧ s'.uid = s.uid + 1 ∧ SameMemory s s' ∧
    s'.teams = s.teams ∧ s'.reqs = s.reqs := by
  intro s'
  have hg {γ : Type} (g : State → γ) (hg : ∀ (s : State) (t : Thread), g (s.setThread t) = g s) := standInRow_same g hg c (rowSlots e)
  have hcore : s'.core c = { s.core c with
      table := tableAfter e (rowSlots e) (s.core c).table, rows := Tab.put (s.core c).rows k ⟨s.uid, e.addr, 0, rowSlots e, [], []⟩ } :=
    (hg (fun s => s.core c) (fun _ _ => rfl) _).trans (FMap.get_set_same _ _ _ _)
  refine ⟨by rw [hcore], by rw [hcore], hg State.uid (fun _ _ => rfl) _, ?_, hg State.teams (fun _ _ => rfl) _, hg State.reqs (fun _ _ => rfl) _⟩
  exact sameMemory_of (hg State.mem (fun _ _ => rfl) _) (congrArg Pkg.zeroings (hg State.pkg (fun _ _ => rfl) _))

theorem freeStream_eq_some {c : Core} {k : Nat} : ((List.range 4).find? fun k => (Tab.find c.rows k).isNone) = some k ↔
    k < 4 ∧ Tab.find c.rows k = none ∧ ∀ j, j < k → (Tab.find c.rows j).isSome = true := by
  rw [List.find?_range_eq_some, Option.isNone_iff_eq_none, List.mem_range]
  constructor
  · exact fun ⟨h1, h2, h3⟩ => ⟨h2, h1, fun j hj => by simpa using h3 j hj⟩
  · exact fun ⟨h1, h2, h3⟩ => ⟨h2, h1, fun j hj => by simpa using h3 j hj⟩

/-- An empty ring has nothing to drain. -/
theorem selectEntry_setCore_same (s : State) (c : Nat) : selectEntry (s.setCore c (s.core c)) c = selectEntry s c := by
  have hc : (s.setCore c (s.core c)).core c = s.core c := FMap.get_set_same _ _ _ _
  have hh (e : Entry) : entryHeld (s.setCore c (s.core c)) c e = entryHeld s c e := by
    unfold entryHeld
    rw [hc]
    rfl
  rw [selectEntry_eq, selectEntry_eq, hc, eligible, eligible, hc]
  simp only [hh]
  rfl

/-- Settles O41: the ring drains, and the entry that comes first gives up its row. -/
theorem rowsComeFromTheChosenEntry : Obligations.RowsComeFromTheChosenEntry := by
  unfold Obligations.RowsComeFromTheChosenEntry
  refine ⟨?_, ?_, fun s c e h => selectEntry_some h, fun e k => mem_rowSlots, fun e x row l hx hne hs => mem_tableAfter hx hne hs⟩
  · intro s c s0
    have hsel : exec (.rowSelection c) s = .next (selectRow s c) := rfl
    rw [hsel, show selectRow s c = _ from selectRow_eq s c]
    refine ⟨fun h => ?_, fun h => ?_, fun k e hk hfree hlow he => ?_⟩
    · have hn : ((List.range 4).find? fun k => (Tab.find (s0.core c).rows k).isNone) = none := by
        rw [List.find?_eq_none]
        intro k hk hn
        rw [Option.isNone_iff_eq_none] at hn
        have := h k (List.mem_range.mp hk)
        rw [hn] at this
        cases this
      rw [hn]
    · rw [h]
      cases (List.range 4).find? fun k => (Tab.find (s0.core c).rows k).isNone <;> rfl
    · rw [freeStream_eq_some.mpr ⟨hk, hfree, hlow⟩, he]
      exact ⟨_, rfl, rowFormed_spec s0 c k e⟩
  · intro s c hring hfree hent
    have hdrain : drainRing s.now 4 (s.core c) = s.core c := by
      rw [drainRing, hring]
    have hcore : (s.setCore c (s.core c)).core c = s.core c := FMap.get_set_same _ _ _ _
    obtain ⟨e, he⟩ : ∃ e, selectEntry s c = some e := by
      rw [← Option.ne_none_iff_exists', Ne, selectEntry_none]
      rintro ⟨hst, hel⟩
      obtain ⟨x, hx, h⟩ := hent
      rcases h with h | h
      · have := mem_starved.mpr ⟨hx, h⟩
        rw [hst] at this
        cases this
      · have := mem_eligible.mpr ⟨hx, h⟩
        rw [hel] at this
        cases this
    obtain ⟨k, hk⟩ : ∃ k, ((List.range 4).find? fun k => (Tab.find (s.core c).rows k).isNone) = some k := by
      obtain ⟨k, hk, hn⟩ := hfree
      rw [← Option.isSome_iff_exists, List.find?_isSome]
      exact ⟨k, List.mem_range.mpr hk, by rw [hn]; rfl⟩
    obtain ⟨hk4, hkn, _⟩ := freeStream_eq_some.mp hk
    have hx : exec (.rowSelection c) s = .next (rowFormed (s.setCore c (s.core c)) c k e) := by
      have hsel : exec (.rowSelection c) s = .next (selectRow s c) := rfl
      rw [hsel, show selectRow s c = _ from selectRow_eq s c, hdrain, hcore, hk]
      dsimp only
      rw [selectEntry_setCore_same, he]
    obtain ⟨hrows, htable, _, hmem, hteams, hreqs⟩ := rowFormed_spec (s.setCore c (s.core c)) c k e
    rw [hcore] at hrows htable
    exact ⟨_, k, e, hx, hk4, hkn, (selectEntry_some he).1, hrows, htable, fun a => (hmem a).trans rfl, hteams, hreqs⟩

end Sys2Proof.Machine
end

section
/-! SUPPORT. Requests that take effect: their fills, their stores and their updates of memory. -/

namespace Sys2Proof.Machine

/-! ## The thread after a fill (R35, R43, R110) -/

theorem writeList_keeps {γ : Type} (g : Thread → γ) (hg : ∀ (t : Thread) (v : Nat) (x : RegVal), g (t.setReg v x) = g t) (ws : List Word) :
    ∀ (t : Thread) (d : Nat), g (t.writeList d ws) = g t := by
  induction ws with
  | nil => intro t d; rfl
  | cons w ws ih => intro t d; exact (ih _ _).trans (hg _ _ _)

theorem noteFlags_eq {y t : Thread} {fl : FFlags} (hplace : y.place = t.place) (hen : enabled y fl = enabled t fl)
    (hmode : y.mode = t.mode) (pc : DWord) : noteFlags y pc fl = { y with
      place := if t.place = .parked (.fpu none) ∧ enabled t fl = true ∧ t.mode = false then .parked (.fpu (some pc)) else t.place } := by
  have hcond : (y.place == .parked (.fpu none) && enabled y fl && !y.mode) = true ↔
      t.place = .parked (.fpu none) ∧ enabled t fl = true ∧ t.mode = false := by
    rw [hplace, hen, hmode, Bool.and_eq_true, Bool.and_eq_true, beq_iff_eq, Bool.not_eq_true', and_assoc]
  unfold noteFlags
  by_cases h : t.place = .parked (.fpu none) ∧ enabled t fl = true ∧ t.mode = false
  · rw [if_pos (hcond.mpr h), if_pos h]
  · rw [if_neg (fun hb => h (hcond.mp hb)), if_neg h, ← hplace]

theorem noteFlags_writeList (t : Thread) (d : Nat) (ws : List Word) (fl : FFlags) (pc : DWord) :
    noteFlags { t.writeList d ws with fflags := (t.writeList d ws).fflags ||| BitVec.ofNat 32 fl.toNat } pc fl =
      t.filledWith d ws fl pc :=
  noteFlags_eq (y := (t.writeList d ws).withFlags fl) (t := t) (writeList_keeps Thread.place (fun _ _ _ => rfl) ws t d)
    (writeList_keeps (fun t => enabled t fl) (fun _ _ _ => rfl) ws t d) (writeList_keeps Thread.mode (fun _ _ _ => rfl) ws t d) pc

section
variable {s s1 : State} {k : Nat} {r : Req} {t : Thread}

theorem fillWords_eq (ho : r.owner = .thread t.team t.tix) (ht : s.thread? t.team t.tix = some t) (hd : r.dead = false) (d : Nat)
    (ws : List Word) (fl : FFlags) : fillWords s k r d ws fl = filled s k (t.filledWith d ws fl r.pc) r.acq := by
  have hcore : (t.filledWith d ws fl r.pc).core = t.core := writeList_keeps Thread.core (fun _ _ _ => rfl) ws t d
  unfold fillWords
  rw [ho]
  dsimp only
  rw [ht]
  dsimp only
  rw [hd, if_neg Bool.false_ne_true, noteFlags_writeList]
  unfold filled
  cases r.acq <;> rfl

theorem InFlight.exec_fill (h : InFlight s k r) : exec (.producerFill k) s = .next (match r.act with
    | .value d ws fl _ => fillWords s k r d ws fl
    | .load loc n sx d l1 => fillLoad s k r loc n d sx l1
    | .loadConst pa n sx d => fillLdc s k r pa n d sx
    | .atomic _ _ _ _ d | .cas _ _ _ _ d | .mxLoad _ _ _ _ d =>
      match r.data with
      | some bs => fillWords s k r d (wordsOf bs) 0
      | none => s
    | .cbTest u off d =>
      fillWords s k r d [BitVec.ofNat 32 (sliceNat (scratchBytes s u off 16) 12 4 % 2 ^ 31 * 2 +
        sliceNat (scratchBytes s u off 16) 8 1 % 2)] 0
    | _ => s) := by
  have hx : exec (.producerFill k) s = .next (match Tab.find s.reqs k with | some r => fillReq s k r | none => s) := rfl
  have hc : ¬(r.complete || !ready s r) = true := by rw [h.pending, h.due]; exact Bool.false_ne_true
  rw [hx, h.found]
  dsimp only
  rw [fillReq, if_neg hc]
  cases r.act <;> rfl

theorem InFlightFor.fillWords (h : InFlightFor s k r t) (d : Nat) (ws : List Word) (fl : FFlags) :
    fillWords s k r d ws fl = filled s k (t.filledWith d ws fl r.pc) r.acq := fillWords_eq h.owner h.thread h.live d ws fl

theorem InFlightFor.ownerOf (h : InFlightFor s k r t) : s.ownerOf r = some t := by
  rw [State.ownerOf, h.owner]
  exact h.thread

/-! ## Loads (R127, R128) -/

theorem fillLoad_data {loc : Loc} {n d : Nat} {sx l1 : Bool} {bs : List Byte} (h : r.data = some bs) :
    fillLoad s k r loc n d sx l1 = fillWords s k r d (loadWords (overlay bs r.psb) sx) 0 := by
  rw [fillLoad, h]

theorem fillLoad_whole {pa n d : Nat} {sx l1 : Bool} (h : r.data = none) (hn : n ≠ 16 ∨ r.half.isSome = true) :
    fillLoad s k r (.mem pa) n d sx l1 = readWhole s k r (.mem pa) n d sx l1 := by
  have hc : ¬(inHalves (.mem pa) n && r.half.isNone) = true := by
    rw [inHalves, Bool.and_eq_true, Bool.and_eq_true, beq_iff_eq]
    rintro ⟨⟨h16, _⟩, hnone⟩
    rcases hn with hn | hn
    · exact hn h16
    · rw [Option.isNone_iff_eq_none] at hnone
      rw [hnone] at hn
      cases hn
  rw [fillLoad, h]
  exact if_neg hc

theorem fillLoad_half {pa d : Nat} {sx l1 : Bool} (h : r.data = none) (hn : r.half = none) :
    fillLoad s k r (.mem pa) 16 d sx l1 = readHalf s k r (.mem pa) := by
  rw [fillLoad, h, hn]
  rfl

theorem InFlightFor.eccFault (h : InFlightFor s k r t) (hl : t.live = true) :
    eccFault s k r = settle (threadFault (completeReq s k) { t with pc := r.pc } .ecc { addr := r.va.toNat }) := by
  have hraises : raises (completeReq s k) t = true := by
    unfold raises
    unfold Thread.live at hl
    split at hl
    · cases hl
    · cases hl
    all_goals next hp => rw [hp]
  unfold Machine.eccFault
  rw [h.live, Bool.false_and, if_neg Bool.false_ne_true, failReq, h.ownerOf]
  exact congrArg settle (if_pos hraises)

theorem fillL1_threads (s : State) (r : Req) (pa : Nat) (bs : List Byte) (b : Bool) : (fillL1 s r pa bs b).threads = s.threads := by
  unfold fillL1
  split <;> rfl

theorem fillL1_same {γ : Type} (g : State → γ) (hg : ∀ (s : State) (c : Nat) (x : Core), g (s.setCore c x) = g s) (s : State) (r : Req)
    (pa : Nat) (bs : List Byte) (b : Bool) : g (fillL1 s r pa bs b) = g s := by
  unfold fillL1
  split
  · exact hg _ _ _
  · rfl

theorem fillL1_memory (s : State) (r : Req) (pa : Nat) (bs : List Byte) (b : Bool) : SameMemory s (fillL1 s r pa bs b) :=
  sameMemory_of (fillL1_same State.mem (fun _ _ _ => rfl) s r pa bs b)
    (fillL1_same (fun s => s.pkg.zeroings) (fun _ _ _ => rfl) s r pa bs b)

theorem InFlightFor.readWhole {pa n d : Nat} {sx l1 : Bool} (h : InFlightFor s k r t) (hp : poisonedAt s pa n = false) :
    readWhole s k r (.mem pa) n d sx l1 =
      filled (fillL1 (readMem s r.fn pa n).1 r pa (readBytes s pa n) l1) k
        (t.filledWith d (loadWords (loaded (fillL1 (readMem s r.fn pa n).1 r pa (readBytes s pa n) l1) r (.mem pa) (match r.half with
          | none => readBytes s pa n
          | some (h, b) => if h = 0 then b ++ (readBytes s pa n).drop 8 else (readBytes s pa n).take 8 ++ b)) sx) 0 r.pc) r.acq := by
  have ht : (fillL1 (readMem s r.fn pa n).1 r pa (readBytes s pa n) l1).thread? t.team t.tix = some t := by
    rw [State.thread?, fillL1_threads, ignoresZeroing_threads.readMem]
    exact h.thread
  unfold Machine.readWhole sample
  dsimp only
  rw [if_neg (by rw [hp]; exact Bool.false_ne_true), readMem_value]
  dsimp only
  rw [fillWords_eq h.owner ht h.live]
  cases r.half <;> rfl

/-- The first half of a 16-byte load is read. -/
theorem readHalf_spec {pa : Nat} (hf : Tab.find s.reqs k = some r) (hp : ∀ h, h = 0 ∨ h = 8 → poisonedAt s (pa + h) 8 = false) :
    ∃ s1 h, (h = 0 ∨ h = 8) ∧ readHalf s k r (.mem pa) = s1 ∧
      Tab.find s1.reqs k = some { r with half := some (h, readBytes s (pa + h) 8) } ∧ SameMemory s s1 ∧ s1.threads = s.threads ∧
      s1.teams = s.teams := by
  have hh : (freeHalf s).1 = 0 ∨ (freeHalf s).1 = 8 := by
    have : (freeHalf s).1 = (Config.freeWord s.freeCtr).toNat % 2 * 8 := rfl
    omega
  refine ⟨_, (freeHalf s).1, hh, rfl, ?_⟩
  have hs : sample (freeHalf s).2 r.fn (.mem (pa + (freeHalf s).1)) 8 =
      .bytes (readMem (freeHalf s).2 r.fn (pa + (freeHalf s).1) 8).1 (readBytes s (pa + (freeHalf s).1) 8) := by
    unfold sample
    dsimp only
    rw [if_neg (show ¬poisonedAt (freeHalf s).2 _ 8 = true from Bool.eq_false_iff.mp (hp _ hh)), readMem_value]
    rfl
  unfold readHalf
  dsimp only [Loc.plus]
  rw [hs]
  dsimp only
  have hsame {γ : Type} (g : State → γ) (hg : ∀ (s : State) (c : Nat) (x : Core), g (s.setCore c x) = g s) (hz : IgnoresZeroing g)
      (hf : g (freeHalf s).2 = g s) : g (fillL1 (readMem (freeHalf s).2 r.fn (pa + (freeHalf s).1) 8).1 r (pa + (freeHalf s).1)
        (readBytes s (pa + (freeHalf s).1) 8) false) = g s :=
    ((fillL1_same g hg _ _ _ _ _).trans (hz.readMem _ _ _ _)).trans hf
  refine ⟨?_, ?_, hsame State.threads (fun _ _ _ => rfl) ignoresZeroing_threads rfl, hsame State.teams (fun _ _ _ => rfl) ignoresZeroing_teams rfl⟩
  · rw [State.updReq]
    dsimp only
    rw [hsame State.reqs (fun _ _ _ => rfl) ignoresZeroing_reqs rfl, Tab.find_upd_same, hf]
    rfl
  · have h1 : SameMemory s (freeHalf s).2 := sameMemory_of rfl rfl
    exact (h1.trans (readMem_memory _ _ _ _)).trans (fillL1_memory _ _ _ _ _)

end

/-! ## What a performed write leaves of the requests -/

theorem Tab.find_map_keyed {α β : Type} (f : Nat × α → Nat × β) (hf : ∀ p, (f p).1 = p.1) (m : Tab α) (k : Nat) :
    Tab.find (m.map f) k = (Tab.find m k).map fun v => (f (k, v)).2 := by
  induction m with
  | nil => rfl
  | cons p m ih =>
    obtain ⟨j, w⟩ := p
    obtain ⟨j', w'⟩ : ∃ p, p = f (j, w) := ⟨_, rfl⟩
    rw [List.map_cons, Tab.find]
    have hj : (f (j, w)).1 = j := hf (j, w)
    rw [show f (j, w) = (j, (f (j, w)).2) from Prod.ext hj rfl, Tab.find]
    by_cases h : j = k
    · rw [if_pos h, if_pos h, h]; rfl
    · rw [if_neg h, if_neg h, ih]

/-- Request `k` is still in flight, complete or not as it was. -/
def StillThere (k : Nat) (c : Bool) (s : State) : Prop := ∃ r, Tab.find s.reqs k = some r ∧ r.complete = c

section
variable {s s' : State} {k : Nat} {c : Bool}

theorem StillThere.of_reqs (h : StillThere k c s) (hr : s'.reqs = s.reqs) : StillThere k c s' := by
  obtain ⟨r, hf, hc⟩ := h
  exact ⟨r, by rw [hr]; exact hf, hc⟩

theorem StillThere.map (h : StillThere k c s) {f : Nat × Req → Nat × Req} (hk : ∀ p, (f p).1 = p.1)
    (hc : ∀ p, (f p).2.complete = p.2.complete) (hr : s'.reqs = s.reqs.map f) : StillThere k c s' := by
  obtain ⟨r, hf, hcr⟩ := h
  refine ⟨(f (k, r)).2, ?_, (hc (k, r)).trans hcr⟩
  rw [hr, Tab.find_map_keyed f hk, hf]
  rfl

theorem acquiredOver_complete (s : State) (core : Nat) (sc : Scope) (r : Req) : (acquiredOver s core sc r).complete = r.complete := by
  unfold acquiredOver forgetConst
  split
  · dsimp only
    split
    · split
      · split <;> rfl
      · rfl
    · rfl
  · rfl

theorem StillThere.acquireCore (h : StillThere k c s) (core : Nat) (sc : Scope) : StillThere k c (acquireCore s core sc) := by
  have hm {s1 : State} (x : State) (h1 : s1.reqs = s.reqs.map fun p => (p.1, acquiredOver x core sc p.2)) : StillThere k c s1 :=
    h.map (f := fun p => (p.1, acquiredOver x core sc p.2)) (fun _ => rfl) (fun p => acquiredOver_complete _ _ _ _) h1
  cases sc
  · exact h
  · exact h
  · exact h
  all_goals exact hm (s.setCore core _) rfl

theorem StillThere.wakeSleepers (h : StillThere k c s) (pa n : Nat) : StillThere k c (wakeSleepers s pa n) := by
  refine foldl_keeps (StillThere k c) _ (fun s p h => ?_) _ s h
  split
  · split
    · unfold releaseAcq
      split
      · exact h.of_reqs rfl
      · exact (h.acquireCore _ _).of_reqs rfl
    · exact h
  · exact h

theorem StillThere.performWrite (h : StillThere k c s) (fn pa : Nat) (bs : List Byte) : StillThere k c (performWrite s fn pa bs) := by
  have hs : (storeBytes s fn pa bs).reqs = s.reqs := by
    have h : (llcWrite (awaitRun s pa bs.length) fn pa bs.length).reqs = s.reqs :=
      (ignoresCache_reqs.llcWrite _ fn pa _).trans (ignoresZeroing_reqs.awaitRun s pa _)
    unfold storeBytes
    split
    · rfl
    · split <;> exact h
  unfold Machine.performWrite afterWrite
  split
  · exact ((h.of_reqs hs).wakeSleepers pa bs.length).of_reqs rfl
  · exact h.of_reqs hs

theorem StillThere.forbidFills (h : StillThere k c s) (core pa n : Nat) : StillThere k c (forbidFills s core pa n) := by
  refine h.map (f := fun p => match p.2.act, p.2.owner with
      | .load (.mem a) k _ _ _, .thread u x =>
        match s.thread? u x with
        | some o => if o.core == core && (sectorsOf a k).any (sectorsOf pa n).contains then (p.1, { p.2 with noFill := true }) else p
        | none => p
      | _, _ => p) (fun p => ?_) (fun p => ?_) rfl
  · dsimp only
    split
    · split
      · split <;> rfl
      · rfl
    · rfl
  · dsimp only
    split
    · split
      · split <;> rfl
      · rfl
    · rfl

end

/-! ## Stores and updates (R127, R134, R195) -/

section
variable {s : State} {k : Nat} {r : Req}

theorem InFlight.refresh (h : InFlight s k r) : refresh s k r = (s, some r) := by
  unfold Machine.refresh
  rw [if_neg (show ¬(r.stale && r.unsent) = true by rw [h.translated]; exact Bool.false_ne_true)]

theorem InFlight.performStore (h : InFlight s k r) : performStore s k r = match r.act with
    | .store (.peer _ _) _ => s
    | .store loc bs =>
      if inHalves loc bs.length && (s.ownerOf r).isSome then storeHalf s k r loc bs else settle (completeReq (writeLoc s r loc bs) k)
    | .buffer loc bs => enterBuffer s k r loc bs
    | .arrive u off n => settle (completeReq (arriveAt s u off n) k)
    | _ => s := by
  have hc : ¬(r.complete || !Machine.ready s r) = true := by rw [h.pending, h.due]; exact Bool.false_ne_true
  unfold Machine.performStore
  rw [if_neg hc, h.refresh] <;> rfl

theorem InFlight.exec_store (h : InFlight s k r) : exec (.storePerform k) s = .next (Machine.performStore s k r) := by
  have hx : exec (.storePerform k) s = .next (match Tab.find s.reqs k with | some r => Machine.performStore s k r | none => s) := rfl
  rw [hx, h.found]

theorem sendAtomic_keeps {γ : Type} (g : State → γ)
    (h : ∀ (s : State) (c : Nat) (k : Core) (r : Tab Req), g { s.setCore c k with reqs := r } = g s) (s : State) (c pa n : Nat) :
    g (sendAtomic s c pa n) = g s := h s c _ _

/-- A store's write to memory: its bytes alone, and its request stands as it stood. -/
theorem writeLoc_mem {pa : Nat} {bs : List Byte} (hp : Plain s pa bs.length) :
    (∀ j (hj : j < bs.length), readByte (writeLoc s r (.mem pa) bs) (pa + j) = bs[j]) ∧
    SameMemoryOutside s (writeLoc s r (.mem pa) bs) pa bs.length ∧
    ∀ k c, StillThere k c s → StillThere k c (writeLoc s r (.mem pa) bs) := by
  obtain ⟨hq, hb, hall⟩ := hp
  have key (x : State) (hmem : x.mem = s.mem) (hz : x.pkg.zeroings = s.pkg.zeroings) (hthere : ∀ k c, StillThere k c s → StillThere k c x) :
      (∀ j (hj : j < bs.length), readByte (performWrite x r.fn pa bs) (pa + j) = bs[j]) ∧
      SameMemoryOutside s (performWrite x r.fn pa bs) pa bs.length ∧
      ∀ k c, StillThere k c s → StillThere k c (performWrite x r.fn pa bs) := by
    obtain ⟨hin, hout⟩ := performWrite_bytes (s := x) (fn := r.fn) (bs := bs) ((pageQueued_congr hz pa).trans hq) hb
      fun j hj => ⟨(pageQueued_congr hz _).trans (hall j hj).1, (hall j hj).2⟩
    exact ⟨hin, fun a ha => (hout a ha).trans (sameMemory_of hmem hz a), fun k c h => (hthere k c h).performWrite _ _ _⟩
  unfold writeLoc
  dsimp only
  split
  · split
    · refine key _ (sendStore_keeps State.mem (fun _ _ _ _ => rfl) _ _ _ _ _)
        (sendStore_keeps (fun s => s.pkg.zeroings) (fun _ _ _ _ => rfl) _ _ _ _ _) fun k c h => ?_
      unfold sendStore
      split
      · exact h
      · exact StillThere.forbidFills (h.of_reqs rfl) _ _ _
    · exact key s rfl rfl fun _ _ h => h
  · exact key s rfl rfl fun _ _ h => h

/-- Part of a run of plain bytes. -/
theorem Plain.part {pa n h m : Nat} (hp : Plain s pa n) (hm : 0 < m) (hn : h + m ≤ n) : Plain s (pa + h) m := by
  obtain ⟨_, _, hall⟩ := hp
  obtain ⟨hq, hb⟩ := hall h (by omega)
  exact ⟨hq, hb, fun j hj => by rw [Nat.add_assoc]; exact hall (h + j) (by omega)⟩

theorem complete_completeReq (s : State) (k : Nat) {q : Req} (h : Tab.find (completeReq s k).reqs k = some q) : q.complete = true := by
  rw [completeReq, State.updReq] at h
  dsimp only at h
  rw [Tab.find_upd_same, Option.map_eq_some_iff] at h
  obtain ⟨q', _, rfl⟩ := h
  rfl

theorem storeHalf_eq (s : State) (k : Nat) (r : Req) (pa : Nat) (bs : List Byte) : storeHalf s k r (.mem pa) bs =
    (writeLoc (freeHalf s).2 r (.mem (pa + (freeHalf s).1)) ((bs.drop (freeHalf s).1).take 8)).updReq k fun r => { r with
      act := if (freeHalf s).1 = 0 then .store (.mem (pa + 8)) (bs.drop 8) else .store (.mem pa) (bs.take 8) } := rfl

/-- A half of a thread's 16-byte store. -/
theorem storeHalf_spec {pa : Nat} {bs : List Byte} (h : InFlight s k r) (hp : Plain s pa bs.length) (hl : bs.length = 16) :
    ∃ s1 h q, (h = 0 ∨ h = 8) ∧ storeHalf s k r (.mem pa) bs = s1 ∧ SameMemoryOutside s s1 (pa + h) 8 ∧
      (∀ j, j < 8 → readByte s1 (pa + h + j) = bs.getD (h + j) 0) ∧ Tab.find s1.reqs k = some q ∧ q.complete = false ∧
      q.act = if h = 0 then .store (.mem (pa + 8)) (bs.drop 8) else .store (.mem pa) (bs.take 8) := by
  have hh : (freeHalf s).1 = 0 ∨ (freeHalf s).1 = 8 := by
    have : (freeHalf s).1 = (Config.freeWord s.freeCtr).toNat % 2 * 8 := rfl
    omega
  have hlen : ((bs.drop (freeHalf s).1).take 8).length = 8 := by
    rw [List.length_take, List.length_drop]; omega
  have hplain : Plain (freeHalf s).2 (pa + (freeHalf s).1) ((bs.drop (freeHalf s).1).take 8).length := by
    rw [hlen]
    exact hp.part (by omega) (by omega)
  obtain ⟨hin, hout, hthere⟩ := writeLoc_mem (r := r) hplain
  obtain ⟨q, hq, hqc⟩ := hthere k false ⟨r, h.found, h.pending⟩
  refine ⟨_, (freeHalf s).1, { q with act := if (freeHalf s).1 = 0 then .store (.mem (pa + 8)) (bs.drop 8) else .store (.mem pa) (bs.take 8) },
    hh, rfl, ?_, fun j hj => ?_, ?_, hqc, rfl⟩
  · rw [hlen] at hout
    exact fun a ha => (hout a ha).trans rfl
  · refine (hin j (by rw [hlen]; exact hj)).trans ?_
    rw [List.getElem_take, List.getElem_drop, List.getD_eq_getElem?_getD, List.getElem?_eq_getElem (by omega), Option.getD_some]
  · rw [storeHalf_eq, State.updReq]
    dsimp only
    rw [Tab.find_upd_same, hq]
    rfl

/-- The old bytes at `pa` are read and kept for the fill of request `k`, and the new ones written. -/
def updatedAt (s : State) (k : Nat) (r : Req) (pa n : Nat) : State :=
  (performWrite (readMem s r.fn pa n).1 r.fn pa (leBytes n (updated r.act (leNat (readMem s r.fn pa n).2)))).updReq k
    fun q => { q with performed := true, data := some (readMem s r.fn pa n).2 }

theorem updatedAt_spec {pa n : Nat} (hp : Plain s pa n) (hthere : StillThere k false s) :
    SameMemoryOutside s (updatedAt s k r pa n) pa n ∧
    (∀ j, j < n → readByte (updatedAt s k r pa n) (pa + j) = (leBytes n (updated r.act (leNat (readBytes s pa n)))).getD j 0) ∧
    ∃ q, Tab.find (updatedAt s k r pa n).reqs k = some q ∧ q.performed = true ∧ q.data = some (readBytes s pa n) := by
  obtain ⟨hq, hb, hall⟩ := hp
  have hquiet : awaitRun s pa n = s := awaitRun_quiet s pa n hq fun i hi => (hall i hi).1
  have hz : (readMem s r.fn pa n).1.pkg.zeroings = s.pkg.zeroings := by
    rw [show (readMem s r.fn pa n).1 = llcRead (awaitRun s pa n) r.fn pa n from rfl, hquiet, llcRead_zeroings]
  have hv : (readMem s r.fn pa n).2 = readBytes s pa n := readMem_value s r.fn pa n
  have hlen : (leBytes n (updated r.act (leNat (readBytes s pa n)))).length = n := length_leBytes _ _
  obtain ⟨hin, hout⟩ := performWrite_bytes (s := (readMem s r.fn pa n).1) (fn := r.fn)
    (bs := leBytes n (updated r.act (leNat (readBytes s pa n)))) ((pageQueued_congr hz pa).trans hq) hb
    fun j hj => by
      rw [hlen] at hj
      exact ⟨(pageQueued_congr hz _).trans (hall j hj).1, (hall j hj).2⟩
  obtain ⟨q, hf, _⟩ := (hthere.of_reqs (s' := (readMem s r.fn pa n).1) (ignoresZeroing_reqs.readMem s r.fn pa n)).performWrite r.fn pa
    (leBytes n (updated r.act (leNat (readBytes s pa n))))
  unfold updatedAt
  rw [hv]
  refine ⟨fun a ha => ?_, fun j hj => ?_, { q with performed := true, data := some (readBytes s pa n) }, ?_, rfl, rfl⟩
  · rw [hlen] at hout
    exact (hout a ha).trans (readMem_memory s r.fn pa n a)
  · refine (hin j (by rw [hlen]; exact hj)).trans ?_
    rw [List.getD_eq_getElem?_getD, List.getElem?_eq_getElem (by rw [hlen]; exact hj), Option.getD_some]
  · rw [State.updReq]
    dsimp only
    rw [Tab.find_upd_same, hf]
    rfl

/-- A request that is sent at its step is sent before it is performed. -/
theorem performUpdate_mem {pa n : Nat} (hpo : poisonedAt s pa n = false) :
    performUpdate s k r (.mem pa) n = updatedAt s k r pa n ∨
    ∃ c, performUpdate s k r (.mem pa) n = updatedAt (sendAtomic s c pa n) k r pa n := by
  unfold performUpdate
  dsimp only
  rw [if_neg (show ¬poisonedAt s pa n = true from Bool.eq_false_iff.mp hpo)]
  split
  · split
    · exact .inr ⟨_, rfl⟩
    · exact .inl rfl
  · exact .inl rfl

/-- An update of memory in one step. -/
theorem performUpdate_spec {pa n : Nat} (h : InFlight s k r) (hp : Plain s pa n) (hpo : poisonedAt s pa n = false) :
    ∃ s' q, performUpdate s k r (.mem pa) n = s' ∧ SameMemoryOutside s s' pa n ∧
      (∀ j, j < n → readByte s' (pa + j) = (leBytes n (updated r.act (leNat (readBytes s pa n)))).getD j 0) ∧
      Tab.find s'.reqs k = some q ∧ q.performed = true ∧ q.data = some (readBytes s pa n) := by
  have hthere : StillThere k false s := ⟨r, h.found, h.pending⟩
  rcases performUpdate_mem (k := k) (r := r) hpo with hu | ⟨c, hu⟩
  · obtain ⟨hout, hin, q, hq⟩ := updatedAt_spec (r := r) hp hthere
    exact ⟨_, q, hu, hout, hin, hq⟩
  · have hm : (sendAtomic s c pa n).mem = s.mem := sendAtomic_keeps State.mem (fun _ _ _ _ => rfl) _ _ _ _
    have hz : (sendAtomic s c pa n).pkg.zeroings = s.pkg.zeroings :=
      sendAtomic_keeps (fun s => s.pkg.zeroings) (fun _ _ _ _ => rfl) _ _ _ _
    have hsame : SameMemory s (sendAtomic s c pa n) := sameMemory_of hm hz
    obtain ⟨hq, hb, hall⟩ := hp
    have hp' : Plain (sendAtomic s c pa n) pa n :=
      ⟨(pageQueued_congr hz pa).trans hq, hb, fun j hj => ⟨(pageQueued_congr hz _).trans (hall j hj).1, (hall j hj).2⟩⟩
    have hthere' : StillThere k false (sendAtomic s c pa n) := StillThere.forbidFills (hthere.of_reqs rfl) _ _ _
    obtain ⟨hout, hin, q, hq⟩ := updatedAt_spec (r := r) hp' hthere'
    rw [readBytes_congr hsame] at hin hq
    exact ⟨_, q, hu, fun a ha => (hout a ha).trans (hsame a), hin, hq⟩

theorem InFlight.exec_atomic {loc : Loc} {ty : Ty} (h : InFlight s k r) (hr : r.performed = false)
    (ha : (∃ op x d, r.act = .atomic loc op ty x d) ∨ ∃ x y d, r.act = .cas loc ty x y d) :
    exec (.atomicPerform k) s = .next (performUpdate s k r loc (tyBits ty / 8)) := by
  have hx : exec (.atomicPerform k) s = .next (match Tab.find s.reqs k with | some r => performAtomic s k r | none => s) := rfl
  have hc : ¬(r.performed || r.complete || !Machine.ready s r) = true := by rw [hr, h.pending, h.due]; exact Bool.false_ne_true
  rw [hx, h.found]
  dsimp only
  rw [performAtomic, if_neg hc, h.refresh]
  dsimp only
  rcases ha with ⟨op, x, d, ha⟩ | ⟨x, y, d, ha⟩
  · rw [ha]
  · rw [ha]

end

/-- Settles O42: what each request does at its event. -/
theorem requestsTakeEffect : Obligations.RequestsTakeEffect := by
  unfold Obligations.RequestsTakeEffect
  refine ⟨fun s k r t d ws fl fp h ha => ?_, ⟨fun s k r t loc n sx d l1 bs h ha hd => ?_, fun s k r t pa n sx d l1 h ha hd => ?_⟩,
    fun s k r t d bs h hd ha => ?_, fun s k r pa bs h ha hp => ?_, fun s k r u off n h ha => ?_, fun s k r loc ty pa h hr hloc ha => ?_,
    fun s k r core g off bs fn h ha => ?_, fun s core g off fn bs h => ?_⟩
  · rw [h.exec_fill, ha]
    exact congrArg _ (h.fillWords d ws fl)
  · rw [h.exec_fill, ha]
    exact congrArg _ ((fillLoad_data hd).trans (h.fillWords _ _ _))
  · have hx : exec (.producerFill k) s = .next (fillLoad s k r (.mem pa) n d sx l1) := by rw [h.exec_fill, ha]
    rw [hx]
    refine ⟨fun hn => ⟨fun hp hl => ?_, fun hp => ?_⟩, fun hn hh hp => ?_⟩
    · have hs : sample s r.fn (.mem pa) n = .ecc := if_pos hp
      refine congrArg _ ((fillLoad_whole hd hn).trans ?_)
      rw [readWhole, hs]
      exact h.eccFault hl
    · exact congrArg _ ((fillLoad_whole hd hn).trans (h.readWhole hp))
    · subst hn
      obtain ⟨s1, x, hx, hs, hrest⟩ := readHalf_spec h.found hp
      exact ⟨s1, x, hx, congrArg _ ((fillLoad_half hd hh).trans hs), hrest⟩
  · rw [h.exec_fill]
    have hfill : fillWords s k r d (wordsOf bs) 0 = filled s k (t.filledWith d (wordsOf bs) 0 r.pc) r.acq := h.fillWords _ _ _
    rcases ha with ⟨loc, op, ty, x, ha⟩ | ⟨loc, ty, x, y, ha⟩ | ⟨tile, row, col, n, ha⟩
    all_goals rw [ha, hd]; exact congrArg _ hfill
  · have hx : exec (.storePerform k) s = .next (if inHalves (.mem pa) bs.length && (s.ownerOf r).isSome then storeHalf s k r (.mem pa) bs
        else settle (completeReq (writeLoc s r (.mem pa) bs) k)) := by
      rw [h.exec_store, h.performStore, ha]
    rw [hx]
    refine ⟨fun hn => ?_, fun hn ho => ?_⟩
    · have hc : ¬(inHalves (.mem pa) bs.length && (s.ownerOf r).isSome) = true := by
        rw [inHalves, Bool.and_true, Bool.and_eq_true, beq_iff_eq]
        rintro ⟨h16, ho⟩
        rcases hn with hn | hn
        · exact hn h16
        · rw [hn] at ho; cases ho
      obtain ⟨hin, hout, _⟩ := writeLoc_mem (r := r) hp
      rw [if_neg hc]
      exact ⟨_, rfl, hout, hin, fun q hq => complete_completeReq _ k hq⟩
    · obtain ⟨s1, x, q, hx, hs, hrest⟩ := storeHalf_spec h hp hn
      rw [if_pos (show (inHalves (.mem pa) bs.length && (s.ownerOf r).isSome) = true by rw [hn, ho]; rfl)]
      exact ⟨s1, x, q, hx, congrArg _ hs, hrest⟩
  · rw [h.exec_store, h.performStore, ha]
  · subst hloc
    intro n old hp hpo
    obtain ⟨s', q, hs, hrest⟩ := performUpdate_spec h hp hpo
    exact ⟨s', q, (h.exec_atomic hr ha).trans (congrArg _ hs), hrest⟩
  · have hx : exec (.generationCheckedWrite k) s = .next (match Tab.find s.reqs k with
        | none => s
        | some r => match r.act with
          | .genWrite core g off bs fn =>
            if Machine.ready s r && !r.complete then settle (completeJoins (completeReq (performGenWrite s core g off fn bs) k)) else s
          | _ => s) := rfl
    rw [hx, h.found]
    dsimp only
    rw [ha]
    dsimp only
    rw [h.due, h.pending]
    rfl
  · have hn : (s.teams.find? fun p => p.2.core == core && p.2.holds && p.2.gen.toNat == g && decide (off + bs.length ≤ p.2.scrSize)) = none := by
      rw [List.find?_eq_none]
      intro p hp hc
      simp only [Bool.and_eq_true, beq_iff_eq] at hc
      obtain ⟨⟨⟨hcore, hholds⟩, hgen⟩, _⟩ := hc
      exact h p hp hcore hholds hgen
    rw [performGenWrite, hn]

end Sys2Proof.Machine
end

section
/-! SUPPORT. Threads that are held at an instruction, and the events that release them. -/

namespace Sys2Proof.Machine

section
variable {s : State} {t : Thread} {h : Hold}

theorem HeldAt.wakes (hh : HeldAt s t h) : ((s.team? t.team).map Team.wakes).getD false = true := by
  obtain ⟨m, hm, hs⟩ := hh.team
  rw [hm]
  rcases hs with hs | hs | hs <;> simp [Team.wakes, hs]

theorem HeldAt.wakingThread (hh : HeldAt s t h) : wakingThread s t.team t.tix = some t :=
  (if_pos hh.wakes).trans hh.thread

theorem HeldAt.exec_yieldExpiry {due : Nat} (hh : HeldAt s t (.yield due)) : exec (.yieldExpiry t.team t.tix) s =
    .next (if due ≤ s.now then arrive s t (t.pc + 8) else s) := by
  have hx : exec (.yieldExpiry t.team t.tix) s = execYieldExpiry t.team t.tix s := rfl
  rw [hx, execYieldExpiry, hh.wakingThread]
  dsimp only
  rw [hh.place]
  rfl

theorem HeldAt.exec_sleepTimeout {pa due : Nat} {d : Reg} (hh : HeldAt s t (.sleep pa d (some due))) :
    exec (.sleepTimeout t.team t.tix) s = .next (if due ≤ s.now then releaseAcq s (t.write d.toNat 2) .dev 8 else s) := by
  have hx : exec (.sleepTimeout t.team t.tix) s = execSleepTimeout t.team t.tix s := rfl
  rw [hx, execSleepTimeout, hh.wakingThread]
  dsimp only
  rw [hh.place]

/-- A request that `tlbinv` waits for is in flight. -/
theorem inFlight_iff (s : State) (k : Nat) :
    (match Tab.find s.reqs k with | some r => !r.complete | none => false) = true ↔
      ∃ r, Tab.find s.reqs k = some r ∧ r.complete = false := by
  cases hf : Tab.find s.reqs k <;> simp

theorem HeldAt.exec_tlbinvRelease {ks rows : List Nat} (hh : HeldAt s t (.tlbinv ks rows)) :
    let busy := (∃ k ∈ ks, ∃ r, Tab.find s.reqs k = some r ∧ r.complete = false) ∨ ∃ k ∈ rows, rowRuns s k = true
    (busy → exec (.tlbinvRelease t.team t.tix) s = .next s) ∧
    (¬busy → exec (.tlbinvRelease t.team t.tix) s = .next (releaseAcq s t .dev 8)) := by
  intro busy
  have hx : exec (.tlbinvRelease t.team t.tix) s = execTlbinvRelease t.team t.tix s := rfl
  have hb : (!ks.any (fun k => match Tab.find s.reqs k with | some r => !r.complete | none => false) &&
      !rows.any (rowRuns s)) = true ↔ ¬busy := by
    simp only [Bool.and_eq_true, Bool.not_eq_true', Bool.eq_false_iff, ne_eq, List.any_eq_true, inFlight_iff, busy, not_or]
  rw [hx, execTlbinvRelease, hh.wakingThread]
  dsimp only
  rw [hh.place]
  exact ⟨fun h => congrArg _ (if_neg fun hc => hb.mp hc h), fun h => congrArg _ (if_pos (hb.mpr h))⟩

/-- The row access of an `mxtopk` whose row has been read and whose words are still to be written. -/
def awaitsWords (team tix : Nat) (p : Nat × Req) : Bool :=
  ownReq team tix p.2 && p.2.performed && !p.2.complete && (match p.2.act with | .mxTopk _ _ _ _ _ _ _ => true | _ => false)

theorem not_awaitsWords {team tix : Nat} {p : Nat × Req} (h : p.2.owner ≠ .thread team tix) : awaitsWords team tix p = false := by
  have ho : ownReq team tix p.2 = false := Bool.eq_false_iff.mpr fun hc => h (eq_of_beq hc)
  rw [awaitsWords, ho, Bool.false_and, Bool.false_and, Bool.false_and]

theorem HeldAt.exec_mxtopkResult {before after : Tab Req} {k : Nat} {r : Req} {bs : List Byte} {tile row kk n : Nat} {mx s32 : Bool}
    {d : Nat} (hh : HeldAt s t .mxtopk) (hreqs : s.reqs = before ++ (k, r) :: after)
    (hb : ∀ p ∈ before, p.2.owner ≠ .thread t.team t.tix) (ho : r.owner = .thread t.team t.tix) (hp : r.performed = true)
    (hc : r.complete = false) (ha : r.act = .mxTopk tile row kk n mx s32 d) (hd : r.data = some bs) :
    exec (.mxtopkResult t.team t.tix) s = .next (if s.now < r.born + 16 + (n + 7) / 8 then s
      else settle (completeReq (arrive s (t.writeList d (wordsOf bs)) (t.pc + 8)) k)) := by
  have hr : awaitsWords t.team t.tix (k, r) = true := by simp [awaitsWords, ownReq, ho, hp, hc, ha]
  have hf : s.reqs.find? (awaitsWords t.team t.tix) = some (k, r) := by
    rw [hreqs, List.find?_append, List.find?_eq_none.mpr fun p h => Bool.eq_false_iff.mp (not_awaitsWords (hb p h)), Option.none_or]
    exact List.find?_cons_of_pos hr
  have hx : exec (.mxtopkResult t.team t.tix) s = .next (match s.thread? t.team t.tix with
    | none => s
    | some u => match (if ((s.team? t.team).map Team.wakes).getD false then u.place else .stopped) with
      | .held .mxtopk => match s.reqs.find? (awaitsWords t.team t.tix) with
        | some (k, r) => match r.act, r.data with
          | .mxTopk _ _ _ n _ _ d, some bs => if s.now < r.born + 16 + (n + 7) / 8 then s
            else settle (completeReq (releaseHeld s (u.writeList d (wordsOf bs)) 8) k)
          | _, _ => s
        | none => s
      | _ => s) := rfl
  rw [hx, hh.thread, hh.wakes, hf]
  dsimp only
  rw [if_pos rfl, hh.place, ha, hd]
  dsimp only
  rw [releaseHeld, writeList_keeps Thread.pc (fun _ _ _ => rfl) (wordsOf bs) t d]
  rfl

end

/-! ## `sid`, `yield` and `sleep` -/

theorem Ready.exec_sid {s : State} {m : Team} {t : Thread} {k : BitVec 4} {d : Reg} {l : Launch}
    (hr : Ready s m t (.sid k d) false [dst1 d]) (hl : s.launch? m.launch = some l) (hk : k.toNat < 14) :
    exec (.sid k d) s = .next (advance s (t.write d.toNat (BitVec.ofNat 32 ([t.slot % 64, t.slot, t.tix, t.tix / m.w, t.tix % m.w,
      m.num, t.core % 4, t.core / 4 % 32, t.core / 128, m.w, m.nthr, m.phase, l.argaddr % 2 ^ 32,
      l.argaddr / 2 ^ 32].getD k.toNat 0))) (.sid k d)) := by
  have hv : sidOf s m t k.toNat = [t.slot % 64, t.slot, t.tix, t.tix / m.w, t.tix % m.w, m.num, t.core % 4, t.core / 4 % 32,
      t.core / 128, m.w, m.nthr, m.phase, l.argaddr % 2 ^ 32, l.argaddr / 2 ^ 32].getD k.toNat 0 := by
    unfold sidOf
    rw [hl]
    dsimp only
    match k.toNat, hk with
    | 0, _ | 1, _ | 2, _ | 3, _ | 4, _ | 5, _ | 6, _ | 7, _ | 8, _ | 9, _ | 10, _ | 11, _ | 12, _ | 13, _ => rfl
  have hx : exec (.sid k d) s = .next _ := hr.issue _
  rw [hx, hv]
  exact congrArg _ (finish_quiet s _ _ rfl)

/-- `sleep` reads its word once the thread's own older accesses of it are over. -/
theorem Ready.exec_sleep {s s1 : State} {m : Team} {t : Thread} {d : Reg} {a b c : Src} {pa f ipa : Nat}
    (hr : Ready s m t (.sleep d a b c) false [src2 a, src1 b, src1 c, dst1 d])
    (ha : Accesses s m t (rp t a) 4 .load s1 (.mem pa) f ipa) (hh : isHbm pa = true) (hp : poisonedAt s1 pa 4 = false) :
    exec (.sleep d a b c) s = .next (awaiting s1 t (.after (homeAfter s1 t (.mem pa) 4))
      (if leNat (readMem s1 f pa 4).2 ≠ (rw t c).toNat then
        releaseAcq (retire (readMem s1 f pa 4).1 t.team) (t.write d.toNat 0) .dev 8
      else hold (retire (readMem s1 f pa 4).1 t.team) t
        (.sleep pa d (if (rw t b).toNat = 0 then none else some ((readMem s1 f pa 4).1.now + (rw t b).toNat))))) := by
  have hx : exec (.sleep d a b c) s = .next _ := hr.issue _
  rw [hx]
  refine congrArg _ (ha.goes_on.trans ?_)
  dsimp only
  rw [hh, hp, if_neg (by decide), if_neg (by decide)]
  rfl

theorem exec_sleep_effect {s s1 : State} {m : Team} {t : Thread} {d : Reg} {a b c : Src} {pa f ipa : Nat}
    (hr : Ready s m t (.sleep d a b c) false [src2 a, src1 b, src1 c, dst1 d])
    (ha : Accesses s m t (rp t a) 4 .load s1 (.mem pa) f ipa) (hh : isHbm pa = true) (hp : poisonedAt s1 pa 4 = false) :
    ∃ s2, SameMemory s1 s2 ∧ s2.threads = s1.threads ∧ s2.teams = s1.teams ∧
      (parkOver s1 t (.after (homeAfter s1 t (.mem pa) 4)) = true → leNat (readBytes s2 pa 4) ≠ (rw t c).toNat →
        exec (.sleep d a b c) s = .next (releaseAcq (retire s2 t.team) (t.write d.toNat 0) .dev 8)) ∧
      (parkOver s1 t (.after (homeAfter s1 t (.mem pa) 4)) = true → leNat (readBytes s2 pa 4) = (rw t c).toNat →
        exec (.sleep d a b c) s = .next ((retire s2 t.team).setThread
          { t with place := .held (.sleep pa d (if (rw t b).toNat = 0 then none else some (s2.now + (rw t b).toNat))) })) := by
  have hb : (readMem s1 f pa 4).2 = readBytes (readMem s1 f pa 4).1 pa 4 :=
    (readMem_value s1 f pa 4).trans (readBytes_congr (readMem_memory s1 f pa 4) pa 4).symm
  refine ⟨(readMem s1 f pa 4).1, readMem_memory s1 f pa 4, ignoresZeroing_threads.readMem s1 f pa 4,
    ignoresZeroing_teams.readMem s1 f pa 4, fun ho hne => ?_, fun ho heq => ?_⟩
  all_goals rw [hr.exec_sleep ha hh hp, awaiting_over ho, hb]
  · rw [if_pos hne]
  · rw [if_neg (not_not_intro heq)]
    rfl

/-- Settles O43: `sid`, `yield` and `sleep` by the rules of issue and of accesses; each release by what its thread is held at. -/
theorem heldThreadsWaitAndAreReleased : Obligations.HeldThreadsWaitAndAreReleased := by
  unfold Obligations.HeldThreadsWaitAndAreReleased
  refine ⟨⟨?sid, ?yield, ?sleep⟩, ?yieldExpiry, ?sleepTimeout, ?mxtopk, ?tlbinv⟩
  case sid =>
    intro s m t k d l hr hl hk v
    exact hr.exec_sid hl hk
  case yield =>
    intro s m t hr
    exact hr.issue _
  case sleep =>
    intro s m t d a b c s1 pa f ipa hr ha hh hp own
    exact ⟨fun ho => (hr.exec_sleep ha hh hp).trans (congrArg _ (awaiting_parks ho)), exec_sleep_effect hr ha hh hp⟩
  case yieldExpiry =>
    intro s t due hh
    exact hh.exec_yieldExpiry
  case sleepTimeout =>
    intro s t pa d due hh
    exact hh.exec_sleepTimeout
  case mxtopk =>
    intro s t before after k r bs tile row kk n mx s32 d hh hreqs hb ho hp hc ha hd
    exact hh.exec_mxtopkResult hreqs hb ho hp hc ha hd
  case tlbinv =>
    intro s t ks rows hh
    exact hh.exec_tlbinvRelease

end Sys2Proof.Machine
end

section
/-! SUPPORT. Passes of the matrix unit: the one that starts, and what a pass leaves when it is performed. -/

namespace Sys2Proof.Machine

/-! ## The choice of a pass (R278) -/

theorem passBefore_iff (a b : Resv) : passBefore a b = true ↔
    b.epri < a.epri ∨ a.epri = b.epri ∧ (a.issued < b.issued ∨ a.issued = b.issued ∧ a.ctx < b.ctx) := by
  unfold passBefore
  split
  · rw [decide_eq_true_eq]
    omega
  · split <;> rw [decide_eq_true_eq] <;> omega

theorem passBefore_asymm {a b : Resv} (h : passBefore a b = true) : passBefore b a = false := by
  rw [passBefore_iff] at h
  rw [← Bool.not_eq_true, passBefore_iff]
  omega

theorem not_passBefore_trans {a b c : Resv} (hab : passBefore a b = false) (hbc : passBefore b c = false) : passBefore a c = false := by
  rw [← Bool.not_eq_true, passBefore_iff] at hab hbc ⊢
  omega

theorem not_passBefore_self (a : Resv) : passBefore a a = false := by
  rw [← Bool.not_eq_true, passBefore_iff]
  omega

theorem choosePass_none {l : List Resv} : choosePass l = none ↔ l = [] := by
  cases l with
  | nil => exact ⟨fun _ => rfl, fun _ => rfl⟩
  | cons r rs =>
    rw [choosePass]
    cases choosePass rs with
    | none => simp
    | some q => dsimp only; split <;> simp

/-- The pass that is chosen is one of the candidates, and none comes before it. -/
theorem choosePass_some {l : List Resv} : ∀ {r : Resv}, choosePass l = some r → r ∈ l ∧ ∀ x ∈ l, passBefore x r = false := by
  induction l with
  | nil => intro r h; cases h
  | cons a l ih =>
    intro r h
    rw [choosePass] at h
    cases hc : choosePass l with
    | none =>
      rw [hc] at h
      obtain rfl : a = r := Option.some.inj h
      obtain rfl := choosePass_none.mp hc
      exact ⟨List.mem_cons_self, fun x hx => by rw [List.mem_singleton.mp hx]; exact not_passBefore_self a⟩
    | some q =>
      obtain ⟨hq, hmin⟩ := ih hc
      rw [hc] at h
      dsimp only at h
      split at h
      · next hb =>
        obtain rfl : a = r := Option.some.inj h
        refine ⟨List.mem_cons_self, fun x hx => ?_⟩
        rcases List.mem_cons.mp hx with rfl | hx
        · exact not_passBefore_self x
        · exact not_passBefore_trans (hmin x hx) (passBefore_asymm hb)
      · next hb =>
        obtain rfl : q = r := Option.some.inj h
        refine ⟨List.mem_cons_of_mem _ hq, fun x hx => ?_⟩
        rcases List.mem_cons.mp hx with rfl | hx
        · exact Bool.eq_false_iff.mpr hb
        · exact hmin x hx

theorem oldest_mem {l : List Resv} : ∀ {r : Resv}, oldest l = some r → r ∈ l := by
  induction l with
  | nil => intro r h; cases h
  | cons a l ih =>
    intro r h
    rw [oldest] at h
    cases hc : oldest l with
    | none => rw [hc] at h; exact List.mem_cons.mpr (.inl (Option.some.inj h).symm)
    | some q =>
      rw [hc] at h
      dsimp only at h
      split at h
      · exact List.mem_cons_of_mem _ (ih (hc.trans h))
      · exact List.mem_cons.mpr (.inl (Option.some.inj h).symm)

/-- The oldest entries of the passes that are ready on cluster `k`. -/
def passCandidates (s : State) (k : Nat) : List Resv :=
  s.teams.flatMap fun p =>
    if clusterOf p.2.core = k ∧ p.2.drives then
      p.2.chains.filterMap fun c =>
        if passReady p.2 (s.cluster k) p.1 c then oldest (passEntries (s.cluster k) p.1 c c.passes) else none
    else []

theorem drives_iff (m : Team) : m.drives = true ↔ m.stage = .resident ∨ m.stage = .spilled := by
  rw [Team.drives, Bool.or_eq_true, beq_iff_eq, beq_iff_eq]

theorem mem_passCandidates {s : State} {k : Nat} {r : Resv} :
    r ∈ passCandidates s k ↔ ∃ u m c, PassCandidate s k u m c r := by
  rw [passCandidates, List.mem_flatMap]
  constructor
  · rintro ⟨⟨u, m⟩, hm, hr⟩
    dsimp only at hr
    split at hr
    · next hp =>
      obtain ⟨c, hc, hr⟩ := List.mem_filterMap.mp hr
      split at hr
      · next hready => exact ⟨u, m, c, hm, hp.1, (drives_iff m).mp hp.2, hc, hready, hr⟩
      · cases hr
    · cases hr
  · rintro ⟨u, m, c, hm, hp, hs, hc, hready, hr⟩
    refine ⟨(u, m), hm, ?_⟩
    rw [if_pos ⟨hp, (drives_iff m).mpr hs⟩]
    exact List.mem_filterMap.mpr ⟨c, hc, (if_pos hready).trans hr⟩

theorem PassCandidate.names {s : State} {k u : Nat} {m : Team} {c : Chain} {r : Resv} (h : PassCandidate s k u m c r) :
    r.team = u ∧ r.ctx = c.ctx := by
  obtain ⟨_, hr⟩ := List.mem_filter.mp (oldest_mem h.entry)
  simp only [Bool.and_eq_true, beq_iff_eq] at hr
  exact hr.1

theorem exec_passStart {s : State} {k : Nat} (h : (s.cluster k).pass = none) : exec (.passStart k) s =
    .next (match choosePass (passCandidates s k) with
      | none => s
      | some r => match (s.team? r.team).bind fun m => m.chains.find? fun c => c.ctx == r.ctx with
        | none => s
        | some c => s.setCluster k { s.cluster k with pass := some ⟨r.team, r.ctx, c.passes, passCycles c r.kind⟩ }) := by
  have hx : exec (.passStart k) s = execPassStart k s := rfl
  rw [hx, execPassStart]
  dsimp only
  rw [h]
  rfl

theorem exec_passStart_running {s : State} {k : Nat} (h : (s.cluster k).pass ≠ none) : exec (.passStart k) s = .next s := by
  obtain ⟨p, hp⟩ := Option.ne_none_iff_exists'.mp h
  have hx : exec (.passStart k) s = execPassStart k s := rfl
  rw [hx, execPassStart]
  dsimp only
  rw [hp]

theorem exec_passStart_idle {s : State} {k : Nat} (h : (s.cluster k).pass = none) (hc : ∀ u m c r, ¬PassCandidate s k u m c r) :
    exec (.passStart k) s = .next s := by
  have he : passCandidates s k = [] := List.eq_nil_iff_forall_not_mem.mpr fun r hr => by
    obtain ⟨u, m, c, hp⟩ := mem_passCandidates.mp hr
    exact hc u m c r hp
  rw [exec_passStart h, he]
  rfl

theorem exec_passStart_chosen {s : State} {k : Nat} (h : (s.cluster k).pass = none) (hc : ∃ u m c r, PassCandidate s k u m c r)
    (ht : ∀ p ∈ s.teams, s.team? p.1 = some p.2)
    (hx : ∀ p ∈ s.teams, ∀ c ∈ p.2.chains, ∀ d ∈ p.2.chains, d.ctx = c.ctx → d = c) :
    ∃ u m c r, PassCandidate s k u m c r ∧ (∀ u' m' c' r', PassCandidate s k u' m' c' r' → passBefore r' r = false) ∧
      exec (.passStart k) s = .next (s.setCluster k
        { s.cluster k with pass := some ⟨u, c.ctx, c.passes, passCycles c r.kind⟩ }) := by
  obtain ⟨u0, m0, c0, r0, h0⟩ := hc
  cases hch : choosePass (passCandidates s k) with
  | none =>
    rw [choosePass_none] at hch
    have hr := mem_passCandidates.mpr ⟨u0, m0, c0, h0⟩
    rw [hch] at hr
    cases hr
  | some r =>
    obtain ⟨hr, hmin⟩ := choosePass_some hch
    obtain ⟨u, m, c, hp⟩ := mem_passCandidates.mp hr
    obtain ⟨hu, hctx⟩ := hp.names
    have hteam : s.team? u = some m := ht _ hp.team
    have hfind : m.chains.find? (fun d => d.ctx == c.ctx) = some c := by
      obtain ⟨d, hd⟩ := Option.isSome_iff_exists.mp
        (List.find?_isSome (p := fun d : Chain => d.ctx == c.ctx).mpr ⟨c, hp.chain, beq_self_eq_true _⟩)
      have hsame : d.ctx = c.ctx := eq_of_beq (List.find?_some (p := fun d : Chain => d.ctx == c.ctx) hd)
      rw [hd, hx _ hp.team c hp.chain d (List.mem_of_find?_eq_some hd) hsame]
    refine ⟨u, m, c, r, hp, fun u' m' c' r' hp' => hmin r' (mem_passCandidates.mpr ⟨u', m', c', hp'⟩), ?_⟩
    rw [exec_passStart h, hch]
    dsimp only
    rw [hu, hctx, hteam, Option.bind_some, hfind]

/-! ## The rows of a pass (R274) -/

theorem tileKey_inj {tile row t' c c' : Nat} (hc : c < 256) (hc' : c' < 256) (h : tileKey t' row c' = tileKey tile row c) : c' = c := by
  unfold tileKey at h
  omega

/-- The words of a row that the first `j` columns of a pass have written, and the flags that they raise. -/
def passColumns (c : Chain) (kind : Nat) (a b : List Byte) (ρ row tile pt : Nat) (m : Team) (j : Nat) : Team × FFlags :=
  (List.range j).foldl (fun acc n =>
    let w := passWord c kind a b ρ n (acc.1.tileWord tile row n) (acc.1.tileWord pt row n)
    (acc.1.setTile tile row n w.1, acc.2 ||| w.2)) (m, 0)

section
variable (c : Chain) (kind : Nat) (a b : List Byte) (ρ row tile pt : Nat) (m : Team)

theorem passColumns_succ (j : Nat) : (passColumns c kind a b ρ row tile pt m (j + 1)).1 =
    (passColumns c kind a b ρ row tile pt m j).1.setTile tile row j
      (passWord c kind a b ρ j ((passColumns c kind a b ρ row tile pt m j).1.tileWord tile row j)
        ((passColumns c kind a b ρ row tile pt m j).1.tileWord pt row j)).1 := by
  rw [passColumns, List.range_succ, List.foldl_append]
  rfl

theorem passColumns_left {j n t' : Nat} (hn : n < 256) (hj : j ≤ n) :
    (passColumns c kind a b ρ row tile pt m j).1.tileWord t' row n = m.tileWord t' row n := by
  induction j with
  | zero => rfl
  | succ j ih =>
    rw [passColumns_succ, tileWord_setTile_other _ _ fun h => ?_, ih (by omega)]
    have hnj : n = j := tileKey_inj (by omega) hn h
    omega

theorem passColumns_written {j n : Nat} (hj : j ≤ 256) (hn : n < j) :
    (passColumns c kind a b ρ row tile pt m j).1.tileWord tile row n =
      (passWord c kind a b ρ n (m.tileWord tile row n) (m.tileWord pt row n)).1 := by
  induction j with
  | zero => cases hn
  | succ j ih =>
    rw [passColumns_succ]
    by_cases h : n = j
    · subst h
      rw [tileWord_setTile_same, passColumns_left c kind a b ρ row tile pt m (by omega) (Nat.le_refl n),
        passColumns_left c kind a b ρ row tile pt m (by omega) (Nat.le_refl n)]
    · rw [tileWord_setTile_other _ _ fun he => h (tileKey_inj (by omega) (by omega) he)]
      exact ih (by omega) (by omega)

theorem litNcol_le (l : DWord) : litNcol l ≤ 256 := by
  have h := Nat.mod_lt (l.toNat / 2 ^ 24) (show 0 < 2 ^ 5 by decide)
  unfold litNcol litField
  omega

theorem passRow_tileWord {n : Nat} (hn : n < 256) : (passRow c kind a b ρ row tile pt m).tileWord tile row n =
    if n < litNcol c.lit then (passWord c kind a b ρ n (m.tileWord tile row n) (m.tileWord pt row n)).1
    else m.tileWord tile row n := by
  have h : (passRow c kind a b ρ row tile pt m).tileWord tile row n =
    (passColumns c kind a b ρ row tile pt m (litNcol c.lit)).1.tileWord tile row n := rfl
  rw [h]
  split
  · next hl => exact passColumns_written c kind a b ρ row tile pt m (litNcol_le _) hl
  · next hl => exact passColumns_left c kind a b ρ row tile pt m hn (Nat.not_lt.mp hl)

/-- A pass of `.s8` adds the sum of its 32 products. -/
theorem passWord_s8 {c : Chain} {a b : List Byte} {ρ n : Nat} {t p : Word} (ha : litFa c.lit = 3) (hb : litFb c.lit = 3) :
    (passWord c 0 a b ρ n t p).1 = BitVec.ofInt 32 (t.toInt +
      ((List.range 32).map fun j => mantissa (sliceNat a (ρ * 32 + j) 1) 8 * mantissa (sliceNat b (n * 32 + j) 1) 8).foldl (· + ·) 0) := by
  have he (rec2 : List Byte) (i : Nat) : elemInts 3 rec2 i = (List.range 32).map fun j => mantissa (sliceNat rec2 (i * 32 + j) 1) 8 := rfl
  rw [passWord, ha, hb, if_neg (by decide), if_pos (.inr rfl)]
  dsimp only
  rw [if_neg (by decide), he, he, List.zip_map', List.foldl_map, List.foldl_map]
  rfl

/-- A pass leaves everything of the team but its tiles and their flags. -/
theorem passRow_keeps {γ : Type} (g : Team → γ) (hg : ∀ (m : Team) x y, g { m with tiles := x, tflags := y } = g m) :
    g (passRow c kind a b ρ row tile pt m) = g m := by
  have hcols := foldl_same (fun acc : Team × FFlags => g acc.1) (fun acc n =>
    let w := passWord c kind a b ρ n (acc.1.tileWord tile row n) (acc.1.tileWord pt row n)
    (acc.1.setTile tile row n w.1, acc.2 ||| w.2)) (fun acc n => hg acc.1 _ acc.1.tflags) (List.range (litNcol c.lit)) (m, 0)
  exact Eq.trans (hg _ _ _) hcols

theorem passOctets_keeps {γ : Type} (g : Team → γ) (hg : ∀ (m : Team) x y, g { m with tiles := x, tflags := y } = g m)
    (es : List Resv) : g (es.foldl (passOctet c kind a b) m) = g m :=
  foldl_same g _ (fun m _ => foldl_same g _ (fun m _ => passRow_keeps c kind a b _ _ _ _ m g hg) _ m) es m

end

/-! ## The end of a pass (R274, R280) -/

/-- Completed requests: each of those named that is still there has completed. -/
theorem completeReq_find (s : State) (k j : Nat) : Tab.find (completeReq s k).reqs j =
    if j = k then (Tab.find s.reqs j).map fun r => { r with performed := true, complete := true } else Tab.find s.reqs j := by
  split
  · next h => subst h; exact find_updReq_same s j _
  · next h => exact Tab.find_upd_other s.reqs (fun r => { r with performed := true, complete := true }) h

theorem completeReqs_complete {ks : List Nat} : ∀ (s : State) (j : Nat) (q : Req),
    (j ∈ ks ∨ ∀ q, Tab.find s.reqs j = some q → q.complete = true) → Tab.find (ks.foldl completeReq s).reqs j = some q →
    q.complete = true := by
  induction ks with
  | nil =>
    intro s j q h hq
    rcases h with h | h
    · cases h
    · exact h q hq
  | cons k ks ih =>
    intro s j q h hq
    refine ih (completeReq s k) j q ?_ hq
    by_cases hk : j = k
    · refine .inr fun q hq => ?_
      rw [completeReq_find, if_pos hk] at hq
      obtain ⟨r, _, rfl⟩ := Option.map_eq_some_iff.mp hq
      rfl
    · rw [List.mem_cons] at h
      rw [completeReq_find, if_neg hk]
      exact h.imp_left (·.resolve_left hk)

theorem completeReqs_acts {α : Type} (g : Act → α) (a : α) (ks : List Nat) (s : State) (h : ∀ q ∈ s.reqs, g q.2.act = a) :
    ∀ q ∈ (ks.foldl completeReq s).reqs, g q.2.act = a := by
  refine foldl_keeps (fun s => ∀ q ∈ State.reqs s, g q.2.act = a) completeReq (fun s k h q hq => ?_) ks s h
  obtain ⟨p, hp, rfl⟩ := List.mem_map.mp hq
  split
  · exact h p hp
  · exact h p hp

theorem foldl_unchanged {α β : Type} {f : β → α → β} {l : List α} {b : β} (h : ∀ a ∈ l, ∀ b, f b a = b) : l.foldl f b = b := by
  induction l with
  | nil => rfl
  | cons a l ih =>
    rw [List.foldl_cons, h a List.mem_cons_self]
    exact ih fun x hx => h x (List.mem_cons_of_mem _ hx)

/-- Without row accesses, a pass holds none back. -/
theorem drainRows_of_no_rows {s : State} (u : Nat) (h : ∀ q ∈ s.reqs, q.2.act.tileRow = none) : drainRows s u = s := by
  unfold drainRows
  cases s.team? u with
  | none => rfl
  | some m =>
    refine foldl_unchanged fun p hp s' => ?_
    rw [h p hp]
    cases p.2.owner <;> rfl

section
variable {s : State} {k : Nat} {p : Pass} {m : Team} {c : Chain}

/-- The team after pass `p` of chain `c`: its tiles, its streams and the chain's own account. -/
def teamAfterPass (s : State) (k : Nat) (p : Pass) (m : Team) (c : Chain) : Team :=
  let es := passEntries (s.cluster k) p.team c p.number
  let kind := (es.map (·.kind)).headD 0
  let x := passRecords c kind
  let w := es.foldl (passOctet c kind ((streamOf m x.1.1).take x.1.2) ((streamOf m x.2.1).take x.2.2)) m
  let st := m.streams.set x.1.1 ((streamOf m x.1.1).drop x.1.2)
  { w with
    streams := if es.all (·.kb) then st else st.set x.2.1 ((streamOf m x.2.1).drop x.2.2)
    chains := w.chains.map fun d => if d.ctx = c.ctx then chainAfter c kind es else d }

/-- The cluster's table without the entries of pass `p`. -/
def withoutPass (s : State) (k : Nat) (p : Pass) : Cluster :=
  { s.cluster k with
    pass := none
    resv := (s.cluster k).resv.filter fun r => !(r.team == p.team && r.ctx == p.ctx && r.number == p.number) }

/-- The state after pass `p` of chain `c`, before chains close. -/
def afterPass (s : State) (k : Nat) (p : Pass) (m : Team) (c : Chain) : State :=
  ((passEntries (s.cluster k) p.team c p.number).map (·.req)).foldl completeReq
    (((s.setCluster k { s.cluster k with pass := none }).setTeam p.team (teamAfterPass s k p m c)).setCluster k (withoutPass s k p))

theorem exec_passPerform_running (hp : (s.cluster k).pass = some p) (hl : p.left ≠ 0) : exec (.passPerform k) s = .next s := by
  have hx : exec (.passPerform k) s = execPassPerform k s := rfl
  rw [hx, execPassPerform]
  dsimp only
  rw [hp]
  exact congrArg _ (if_pos hl)

theorem exec_passPerform_over (hp : (s.cluster k).pass = some p) (hm : s.team? p.team = some m)
    (hc : (m.chains.find? fun d => d.ctx == p.ctx && d.passes == p.number) = some c) (hl : p.left = 0) :
    exec (.passPerform k) s =
      .next (settle (closeChains (checkKinds (drainRows (afterPass s k p m c) p.team) p.team) p.team)) := by
  have hx : exec (.passPerform k) s = execPassPerform k s := rfl
  have hteam : (s.setCluster k { s.cluster k with pass := none }).team? p.team = some m := hm
  have hcl (w : Team) : ((s.setCluster k { s.cluster k with pass := none }).setTeam p.team w).cluster k =
      { s.cluster k with pass := none } := State.cluster_setCluster_same s k _
  rw [hx, execPassPerform]
  dsimp only
  rw [hp]
  dsimp only
  rw [if_neg (not_not_intro hl), hteam, Option.bind_some, hc, Option.map_some]
  dsimp only
  rw [hcl]
  simp only [streamOf, passOctets_keeps _ _ _ _ m Team.streams (fun _ _ _ => rfl)]
  rfl

/-- What a pass leaves where its team has no row access in flight. -/
theorem passPerform_effect (hp : (s.cluster k).pass = some p) (hm : s.team? p.team = some m)
    (hc : (m.chains.find? fun d => d.ctx == p.ctx && d.passes == p.number) = some c) (hr : ∀ q ∈ s.reqs, q.2.act.tileRow = none)
    (hl : p.left = 0) :
    ∃ s', exec (.passPerform k) s = .next (settle (closeChains (checkKinds s' p.team) p.team)) ∧
      s'.cluster k = withoutPass s k p ∧ s'.team? p.team = some (teamAfterPass s k p m c) ∧ SameMemory s s' ∧
      ∀ e ∈ passEntries (s.cluster k) p.team c p.number, ∀ q, Tab.find s'.reqs e.req = some q → q.complete = true := by
  have hk {γ : Type} (g : State → γ) (hg : ∀ s j, g (completeReq s j) = g s) : g (afterPass s k p m c) = _ :=
    foldl_same g completeReq hg _ _
  refine ⟨afterPass s k p m c, ?_, ?_, ?_, ?_, fun e he q hq => ?_⟩
  · rw [exec_passPerform_over hp hm hc hl, drainRows_of_no_rows p.team]
    exact completeReqs_acts Act.tileRow none _ _ hr
  · exact (hk (·.cluster k) fun _ _ => rfl).trans (State.cluster_setCluster_same _ _ _)
  · exact (hk (·.team? p.team) fun _ _ => rfl).trans (Tab.find_put_same _ _ _)
  · exact sameMemory_of (hk State.mem fun _ _ => rfl) (hk (·.pkg.zeroings) fun _ _ => rfl)
  · exact completeReqs_complete _ _ _ (.inl (List.mem_map_of_mem he)) hq

end

theorem epri_lt_three (r : Resv) : r.epri < 3 ↔ r.bpri + r.risen + r.promoted < 3 := by
  have h : r.epri = min 3 (r.bpri + r.risen + r.promoted) := rfl
  omega

theorem exec_requestPromotion {s : State} {k j : Nat} {r : Resv} (h : (s.cluster k).resv[j]? = some r) :
    exec (.requestPromotion k j) s = .next
      (if r.bpri + r.risen + r.promoted < 3 ∧ r.issued + 1024 * (r.promoted + 1) ≤ s.now then
        s.setCluster k { s.cluster k with resv := (s.cluster k).resv.set j { r with promoted := r.promoted + 1 } } else s) := by
  have hx : exec (.requestPromotion k j) s = execRequestPromotion k j s := rfl
  rw [hx, execRequestPromotion]
  dsimp only
  rw [h]
  simp only [epri_lt_three]

/-- Settles O44: the choice by the order of passes, a pass by what it leaves of its team, its table and its requests. -/
theorem passesRunInOrder : Obligations.PassesRunInOrder := by
  unfold Obligations.PassesRunInOrder
  refine ⟨?running, ?idle, ?chosen, ?perform, ?row, ?word, ?promotion⟩
  case running =>
    intro s k h
    exact exec_passStart_running h
  case idle =>
    intro s k h hc
    exact exec_passStart_idle h hc
  case chosen =>
    intro s k h hc ht hx
    exact exec_passStart_chosen h hc ht hx
  case perform =>
    intro s k p m c hp hm hc hr
    refine ⟨exec_passPerform_running hp, fun hl => ?_⟩
    intro es kind x st
    obtain ⟨s', hx, hcl, hteam, hmem, hdone⟩ := passPerform_effect hp hm hc hr hl
    exact ⟨s', _, hx, congrArg Cluster.pass hcl, hteam, congrArg Cluster.resv hcl, hmem, ⟨rfl, rfl⟩, rfl, hdone⟩
  case row =>
    intro c kind a b ρ row tile pt m n _ hn
    exact passRow_tileWord c kind a b ρ row tile pt m hn
  case word =>
    intro c a b ρ n t p ha hb
    exact passWord_s8 ha hb
  case promotion =>
    intro s k j r h
    exact exec_requestPromotion h

end Sys2Proof.Machine
end

section
/-! SUPPORT. Bound cells and their copies: what lowering one does, in the cluster and in every cluster of a launch. -/

namespace Sys2Proof.Machine

/-! ## The lower of two values (R289) -/

/-- The integer that a launch's cell `i` holds. -/
def boundValue (l : Launch) (i : Nat) (v : DWord) : Int := if l.bndSign i then v.toInt else v.toNat

section
variable (l : Launch) (i : Nat)

theorem boundValue_inj {a b : DWord} (h : boundValue l i a = boundValue l i b) : a = b := by
  unfold boundValue at h
  split at h
  · exact BitVec.eq_of_toInt_eq h
  · exact BitVec.eq_of_toNat_eq (Int.ofNat_inj.mp h)

theorem lowerBound_iff (a b : DWord) : lowerBound l i a b = if boundValue l i b < boundValue l i a then b else a := by
  unfold lowerBound boundValue
  by_cases h : l.bndSign i = true <;> simp [h]

theorem lowerBound_eq (a b : DWord) : lowerBound l i a b =
    if (if l.bndSign i then b.toInt < a.toInt else b.toNat < a.toNat) then b else a := by
  rw [lowerBound_iff, boundValue, boundValue]
  by_cases h : l.bndSign i = true <;> simp [h]

theorem lowerBound_self (a : DWord) : lowerBound l i a a = a := by rw [lowerBound_iff, ite_self]

theorem lowerBound_eq_right {v low : DWord} : lowerBound l i v low = low ↔ boundValue l i low ≤ boundValue l i v := by
  rw [lowerBound_iff]
  constructor
  · intro h
    split at h
    · omega
    · exact h ▸ Int.le_refl _
  · intro h
    split
    · rfl
    · exact boundValue_inj l i (by omega)

theorem boundValue_lowerBound_le (a b : DWord) : boundValue l i (lowerBound l i a b) ≤ boundValue l i a ∧
    boundValue l i (lowerBound l i a b) ≤ boundValue l i b := by
  rw [lowerBound_iff]
  split <;> omega

/-- The lowest of a list of values is one of them, and none is lower. -/
theorem foldl_lowerBound (vs : List DWord) : ∀ v : DWord, vs.foldl (lowerBound l i) v ∈ v :: vs ∧
    ∀ w ∈ v :: vs, boundValue l i (vs.foldl (lowerBound l i) v) ≤ boundValue l i w := by
  induction vs with
  | nil => intro v; exact ⟨List.mem_cons_self, fun w hw => by rw [List.mem_singleton.mp hw]; exact Int.le_refl _⟩
  | cons b vs ih =>
    intro v
    obtain ⟨hmem, hle⟩ := ih (lowerBound l i v b)
    obtain ⟨hv, hb⟩ := boundValue_lowerBound_le l i v b
    have hfirst := hle _ List.mem_cons_self
    rw [List.foldl_cons]
    refine ⟨?_, fun w hw => ?_⟩
    · rcases List.mem_cons.mp hmem with h | h
      · have hcase : lowerBound l i v b = v ∨ lowerBound l i v b = b := by rw [lowerBound_iff]; split <;> simp
        rw [h]
        rcases hcase with e | e <;> rw [e] <;> simp
      · exact List.mem_cons_of_mem _ (List.mem_cons_of_mem _ h)
    · rcases List.mem_cons.mp hw with rfl | hw
      · omega
      · rcases List.mem_cons.mp hw with rfl | hw
        · omega
        · exact hle w (List.mem_cons_of_mem _ hw)

end

/-! ## Cells and copies -/

theorem mem_coresOf {k c : Nat} : c ∈ coresOf k ↔ c / 4 = k := by
  rw [coresOf, List.mem_map]
  constructor
  · rintro ⟨i, hi, rfl⟩
    rw [List.mem_range] at hi
    omega
  · rintro rfl
    exact ⟨c % 4, List.mem_range.mpr (by omega), by omega⟩

/-- Lowering a copy changes that copy alone. -/
theorem copyOf_lowerCopy (l : Launch) (i : Nat) (v : DWord) (s : State) (c e j : Nat) : ((lowerCopy l i v s c).core e).copyOf j =
    if e = c ∧ j = i then lowerBound l i ((s.core c).copyOf i) v else (s.core e).copyOf j := by
  unfold lowerCopy
  dsimp only
  split
  · next h =>
    obtain ⟨rfl, rfl⟩ := h
    rw [State.core_setCore_same]
    exact FMap.get_set_same _ _ _ _
  · next h =>
    by_cases he : e = c
    · subst he
      rw [State.core_setCore_same]
      exact FMap.get_set_other _ _ _ fun hj => h ⟨rfl, hj⟩
    · rw [State.core_setCore_other _ _ he]

theorem copyOf_lowerCopies (l : Launch) (i : Nat) (v : DWord) (e j : Nat) {cs : List Nat} : ∀ (s : State), cs.Nodup →
    ((cs.foldl (lowerCopy l i v) s).core e).copyOf j =
      if e ∈ cs ∧ j = i then lowerBound l i ((s.core e).copyOf i) v else (s.core e).copyOf j := by
  induction cs with
  | nil => intro s _; exact (if_neg fun h => nomatch h.1).symm
  | cons c cs ih =>
    intro s hn
    obtain ⟨hc, hn⟩ := List.nodup_cons.mp hn
    rw [List.foldl_cons, ih _ hn, copyOf_lowerCopy, copyOf_lowerCopy]
    by_cases he : e = c
    · subst he
      simp [hc]
    · simp [he]

/-- Lowering copies leaves all else. -/
theorem lowerCopies_keeps {γ : Type} (g : State → γ) (hg : ∀ (s : State) (c : Nat) (x : Core), g (s.setCore c x) = g s)
    (l : Launch) (i : Nat) (v : DWord) (cs : List Nat) (s : State) : g (cs.foldl (lowerCopy l i v) s) = g s :=
  foldl_same g _ (fun _ _ => hg _ _ _) cs s

theorem cell_lowerCell (l : Launch) (k i : Nat) (v : DWord) (s : State) (e : Nat) :
    FMap.get Cell.free ((lowerCell l k i v s).cluster e).cells i =
      if e = k then { FMap.get Cell.free (s.cluster k).cells i with
        value := lowerBound l i (FMap.get Cell.free (s.cluster k).cells i).value v }
      else FMap.get Cell.free (s.cluster e).cells i := by
  unfold lowerCell
  dsimp only
  split
  · next h =>
    subst h
    rw [State.cluster_setCluster_same]
    exact FMap.get_set_same _ _ _ _
  · next h =>
    rw [State.cluster, State.setCluster, FMap.get_set_other _ _ _ h]
    rfl

/-! ## `bndmin` and `bndrd` -/

section
variable {s : State} {m : Team} {t : Thread} {n : BitVec 3} {l : Launch}

theorem withCell_declared {i : Nat} {k : Launch → State} (hl : s.launch? m.launch = some l) (h : l.bndDecl i = true) :
    withCell s m t i k = k l := by
  rw [withCell, hl]
  exact if_pos h

theorem withCell_undeclared {i : Nat} {k : Launch → State} (hl : s.launch? m.launch = some l) (h : l.bndDecl i = false) :
    withCell s m t i k = threadFault s t .perm {} := by
  rw [withCell, hl]
  exact if_neg (Bool.eq_false_iff.mp h)

/-- The state after `bndmin`: the cell of the thread's cluster and its own core's copy are lowered. -/
def boundLowered (s : State) (t : Thread) (l : Launch) (i : Nat) (v : DWord) : State :=
  lowerCopy l i v (lowerCell l (clusterOf t.core) i v s) t.core

theorem Ready.exec_bndmin {a : Src} (hr : Ready s m t (.bndmin n a) false [src2 a]) (hl : s.launch? m.launch = some l) :
    (l.bndDecl n.toNat = false → exec (.bndmin n a) s = .next (threadFault s t .perm {})) ∧
    (l.bndDecl n.toNat = true →
      exec (.bndmin n a) s = .next (advance (boundLowered s t l n.toNat (rp t a)) t (.bndmin n a))) := by
  have hx : exec (.bndmin n a) s = .next _ := hr.issue _
  exact ⟨fun h => hx.trans (congrArg _ (withCell_undeclared hl h)),
    fun h => hx.trans (congrArg _ ((withCell_declared hl h).trans (finish_quiet _ _ _ rfl)))⟩

theorem Ready.exec_bndrd {d : Reg} (hr : Ready s m t (.bndrd n d) false [dst2 d]) (hl : s.launch? m.launch = some l) :
    (l.bndDecl n.toNat = false → exec (.bndrd n d) s = .next (threadFault s t .perm {})) ∧
    (l.bndDecl n.toNat = true →
      exec (.bndrd n d) s = .next (advance s (t.writePair d.toNat (FMap.get 0 (s.core t.core).bound n.toNat)) (.bndrd n d))) := by
  have hx : exec (.bndrd n d) s = .next _ := hr.issue _
  exact ⟨fun h => hx.trans (congrArg _ (withCell_undeclared hl h)),
    fun h => hx.trans (congrArg _ ((withCell_declared hl h).trans (finish_quiet _ _ _ rfl)))⟩

theorem boundLowered_cell (s : State) (t : Thread) (l : Launch) (i : Nat) (v : DWord) :
    (FMap.get Cell.free ((boundLowered s t l i v).cluster (clusterOf t.core)).cells i).value =
      lowerBound l i (FMap.get Cell.free (s.cluster (clusterOf t.core)).cells i).value v := by
  have h : (boundLowered s t l i v).cluster (clusterOf t.core) = (lowerCell l (clusterOf t.core) i v s).cluster (clusterOf t.core) := rfl
  rw [h, cell_lowerCell, if_pos rfl]

theorem boundLowered_copy (s : State) (t : Thread) (l : Launch) (i : Nat) (v : DWord) :
    ((boundLowered s t l i v).core t.core).copyOf i = lowerBound l i ((s.core t.core).copyOf i) v := by
  rw [boundLowered, copyOf_lowerCopy, if_pos ⟨rfl, rfl⟩]
  rfl

theorem boundLowered_core (s : State) (t : Thread) (l : Launch) (i : Nat) (v : DWord) {c : Nat} (h : c ≠ t.core) :
    (boundLowered s t l i v).core c = s.core c := State.core_setCore_other _ _ h

end

/-! ## The copies of a cluster, every ten cycles (R289) -/

theorem FMap.ge_of_ascending {α : Type} {m : FMap α} : ∀ {lo : Nat}, FMap.ascending lo m = true → ∀ p ∈ m, lo ≤ p.1 := by
  induction m with
  | nil => intro lo _ p hp; cases hp
  | cons q m ih =>
    obtain ⟨k, v⟩ := q
    intro lo h p hp
    simp only [FMap.ascending, Bool.and_eq_true, decide_eq_true_eq] at h
    rcases List.mem_cons.mp hp with rfl | hp
    · exact h.1
    · exact Nat.le_trans h.1 (Nat.le_of_lt (ih h.2 p hp))

/-- A map in its canonical form holds the value of a key that it has once. -/
theorem FMap.split_of_ascending {α : Type} {d : α} {i : Nat} {m : FMap α} : ∀ {lo : Nat}, FMap.ascending lo m = true →
    FMap.get d m i ≠ d → ∃ before after, m = before ++ (i, FMap.get d m i) :: after ∧
      (∀ p ∈ before, p.1 ≠ i) ∧ ∀ p ∈ after, p.1 ≠ i := by
  induction m with
  | nil => intro lo _ h; exact absurd rfl h
  | cons q m ih =>
    obtain ⟨k, v⟩ := q
    intro lo h hd
    simp only [FMap.ascending, Bool.and_eq_true, decide_eq_true_eq] at h
    rw [FMap.get] at hd ⊢
    by_cases hk : k = i
    · subst hk
      rw [if_pos rfl]
      refine ⟨[], m, rfl, List.forall_mem_nil _, fun p hp => ?_⟩
      have hp := FMap.ge_of_ascending h.2 p hp
      omega
    · rw [if_neg hk] at hd ⊢
      obtain ⟨before, after, hm, hb, ha⟩ := ih h.2 hd
      refine ⟨(k, v) :: before, after, congrArg _ hm, fun p hp => ?_, ha⟩
      rcases List.mem_cons.mp hp with rfl | hp
      · exact hk
      · exact hb p hp

/-- The four copies of a cluster are lowered to one of its cells. -/
def syncCell (k : Nat) (s : State) (p : Nat × Cell) : State :=
  match p.2.owner.bind s.launch? with
  | some l => (coresOf k).foldl (lowerCopy l p.1 p.2.value) s
  | none => s

theorem syncCell_keeps {γ : Type} (g : State → γ) (hg : ∀ (s : State) (c : Nat) (x : Core), g (s.setCore c x) = g s)
    (k : Nat) (s : State) (p : Nat × Cell) : g (syncCell k s p) = g s := by
  unfold syncCell
  split
  · exact lowerCopies_keeps g hg _ _ _ _ _
  · rfl

theorem syncCell_other (k : Nat) (s : State) {p : Nat × Cell} {i : Nat} (h : p.1 ≠ i) (c : Nat) :
    ((syncCell k s p).core c).copyOf i = (s.core c).copyOf i := by
  unfold syncCell
  split
  · rw [copyOf_lowerCopies _ _ _ _ _ _ (coresOf_nodup k), if_neg fun hc => h hc.2.symm]
  · rfl

theorem syncCells_other (k : Nat) {l : List (Nat × Cell)} {i : Nat} (h : ∀ p ∈ l, p.1 ≠ i) (c : Nat) :
    ∀ s, ((l.foldl (syncCell k) s).core c).copyOf i = (s.core c).copyOf i := by
  induction l with
  | nil => intro s; rfl
  | cons p l ih =>
    intro s
    rw [List.foldl_cons, ih fun q hq => h q (List.mem_cons_of_mem _ hq)]
    exact syncCell_other k s (h p List.mem_cons_self) c

theorem syncCopies_eq (s : State) (k : Nat) : syncCopies s k = (s.cluster k).cells.foldl (syncCell k) s := rfl

theorem syncCopies_keeps {γ : Type} (g : State → γ) (hg : ∀ (s : State) (c : Nat) (x : Core), g (s.setCore c x) = g s)
    (s : State) (k : Nat) : g (syncCopies s k) = g s :=
  foldl_same g (syncCell k) (fun s p => syncCell_keeps g hg k s p) _ s

theorem syncCopies_copy {s : State} {k u i : Nat} {l : Launch} (ho : (FMap.get Cell.free (s.cluster k).cells i).owner = some u)
    (hl : s.launch? u = some l) (hw : FMap.wf Cell.free (s.cluster k).cells = true) {c : Nat} (hc : c ∈ coresOf k) :
    ((syncCopies s k).core c).copyOf i =
      lowerBound l i ((s.core c).copyOf i) (FMap.get Cell.free (s.cluster k).cells i).value := by
  have hne : FMap.get Cell.free (s.cluster k).cells i ≠ Cell.free := by
    intro h
    rw [h] at ho
    cases ho
  simp only [FMap.wf, Bool.and_eq_true] at hw
  obtain ⟨before, after, hm, hb, ha⟩ := FMap.split_of_ascending hw.1 hne
  have hlaunch : (before.foldl (syncCell k) s).launch? u = some l :=
    (foldl_same (State.launch? · u) (syncCell k) (fun s p => syncCell_keeps (State.launch? · u) (fun _ _ _ => rfl) k s p) before s).trans hl
  have hcell (s' : State) (h : s'.launch? u = some l) : syncCell k s' (i, FMap.get Cell.free (s.cluster k).cells i) =
      (coresOf k).foldl (lowerCopy l i (FMap.get Cell.free (s.cluster k).cells i).value) s' := by
    unfold syncCell
    rw [ho, Option.bind_some, h]
  rw [syncCopies_eq]
  conv => lhs; rw [hm, List.foldl_append, List.foldl_cons, syncCells_other k ha, hcell _ hlaunch,
    copyOf_lowerCopies _ _ _ _ _ _ (coresOf_nodup k), if_pos ⟨hc, rfl⟩, syncCells_other k hb]

/-! ## BOUND_PROPAGATION -/

theorem copyOf_lowerAll (l : Launch) (k i : Nat) (v : DWord) (s : State) (e : Nat) : ((lowerAll l k i v s).core e).copyOf i =
    if e ∈ coresOf k then lowerBound l i ((s.core e).copyOf i) v else (s.core e).copyOf i := by
  rw [lowerAll, copyOf_lowerCopies _ _ _ _ _ _ (coresOf_nodup k)]
  simp only [and_true]
  rfl

theorem cell_lowerAll (l : Launch) (k i : Nat) (v : DWord) (s : State) (e : Nat) :
    (FMap.get Cell.free ((lowerAll l k i v s).cluster e).cells i).value =
      if e = k then lowerBound l i (FMap.get Cell.free (s.cluster k).cells i).value v
      else (FMap.get Cell.free (s.cluster e).cells i).value := by
  have h : (lowerAll l k i v s).cluster e = (lowerCell l k i v s).cluster e :=
    lowerCopies_keeps (·.cluster e) (fun _ _ _ => rfl) l i v (coresOf k) _
  rw [h, cell_lowerCell]
  split <;> rfl

theorem lowerAll_keeps {γ : Type} (g : State → γ) (hg : ∀ (s : State) (c : Nat) (x : Core), g (s.setCore c x) = g s)
    (hk : ∀ (s : State) (c : Nat) (x : Cluster), g (s.setCluster c x) = g s) (l : Launch) (k i : Nat) (v : DWord) (s : State) :
    g (lowerAll l k i v s) = g s := (lowerCopies_keeps g hg l i v _ _).trans (hk _ _ _)

/-- A value that each step lowers to `low` or leaves, and that some step lowers, ends at `low`. -/
theorem foldl_lowered {l : Launch} {i : Nat} {low : DWord} (g : State → DWord) (f : State → Nat → State) (hit : Nat → Bool)
    (hf : ∀ s k, g (f s k) = if hit k then lowerBound l i (g s) low else g s) {ks : List Nat} : ∀ s,
    (g s = low ∨ (∃ k ∈ ks, hit k = true) ∧ lowerBound l i (g s) low = low) → g (ks.foldl f s) = low := by
  induction ks with
  | nil =>
    intro s h
    rcases h with h | ⟨⟨k, hk, _⟩, _⟩
    · exact h
    · cases hk
  | cons k ks ih =>
    intro s h
    refine ih (f s k) ?_
    rw [hf]
    by_cases hk : hit k = true
    · rw [if_pos hk]
      rcases h with h | ⟨_, h⟩
      · exact .inl (by rw [h, lowerBound_self])
      · exact .inl h
    · rw [if_neg hk]
      rcases h with h | ⟨⟨j, hj, hit⟩, h⟩
      · exact .inl h
      · rcases List.mem_cons.mp hj with rfl | hj
        · exact absurd hit hk
        · exact .inr ⟨⟨j, hj, hit⟩, h⟩

/-- The values of cell `i` of a launch: its cells and their copies. -/
def cellValues (s : State) (u i : Nat) : List DWord :=
  (cellClusters s u i).flatMap fun k =>
    (FMap.get Cell.free (s.cluster k).cells i).value :: (coresOf k).map fun c => (s.core c).copyOf i

theorem cell_mem_cellValues {s : State} {u i k : Nat} (hk : k ∈ cellClusters s u i) :
    (FMap.get Cell.free (s.cluster k).cells i).value ∈ cellValues s u i := by
  rw [cellValues, List.mem_flatMap]
  exact ⟨k, hk, List.mem_cons_self⟩

theorem copy_mem_cellValues {s : State} {u i k c : Nat} (hk : k ∈ cellClusters s u i) (hc : c ∈ coresOf k) :
    (s.core c).copyOf i ∈ cellValues s u i := by
  rw [cellValues, List.mem_flatMap]
  exact ⟨k, hk, List.mem_cons_of_mem _ (List.mem_map_of_mem hc)⟩

section
variable {s : State} {u i : Nat} {l : Launch} {low : DWord} {ks : List Nat}

theorem lowerAlls_cell {k : Nat} (hk : k ∈ ks)
    (h : lowerBound l i (FMap.get Cell.free (s.cluster k).cells i).value low = low) :
    (FMap.get Cell.free ((ks.foldl (fun s k => lowerAll l k i low s) s).cluster k).cells i).value = low := by
  refine foldl_lowered (l := l) (i := i) (fun s => (FMap.get Cell.free (s.cluster k).cells i).value) _ (fun j => k == j)
    (fun s j => ?_) s (.inr ⟨⟨k, hk, beq_self_eq_true k⟩, h⟩)
  rw [cell_lowerAll]
  by_cases hj : k = j
  · subst hj; simp
  · simp [hj]

theorem lowerAlls_copy {k c : Nat} (hk : k ∈ ks) (hc : c ∈ coresOf k) (h : lowerBound l i ((s.core c).copyOf i) low = low) :
    ((ks.foldl (fun s k => lowerAll l k i low s) s).core c).copyOf i = low := by
  refine foldl_lowered (l := l) (i := i) (fun s => (s.core c).copyOf i) _ (fun j => (coresOf j).contains c)
    (fun s j => ?_) s (.inr ⟨⟨k, hk, List.contains_iff_mem.mpr hc⟩, h⟩)
  rw [copyOf_lowerAll]
  simp only [List.contains_iff_mem]

theorem exec_boundPropagation (hl : s.launch? u = some l) (hne : cellClusters s u i ≠ []) : ∃ low,
    exec (.boundPropagation u i) s = .next ((cellClusters s u i).foldl (fun s k => lowerAll l k i low s) s) ∧
    low ∈ cellValues s u i ∧ ∀ v ∈ cellValues s u i, lowerBound l i v low = low := by
  have hx : exec (.boundPropagation u i) s = execBoundPropagation u i s := rfl
  cases hv : cellValues s u i with
  | nil =>
    obtain ⟨k, hk⟩ := List.exists_mem_of_ne_nil _ hne
    have h := cell_mem_cellValues hk
    rw [hv] at h
    cases h
  | cons v rest =>
    obtain ⟨hmem, hle⟩ := foldl_lowerBound l i rest v
    refine ⟨rest.foldl (lowerBound l i) v, ?_, hmem, fun w hw => (lowerBound_eq_right l i).mpr (hle w hw)⟩
    rw [hx, execBoundPropagation, hl]
    dsimp only
    rw [show List.flatMap _ _ = v :: rest from hv]

end

/-- Settles O45: `bndmin` and `bndrd` by the rules of issue, the copies of a cluster cell by cell, propagation by the lowest value. -/
theorem boundCellsAreLoweredEverywhere : Obligations.BoundCellsAreLoweredEverywhere := by
  unfold Obligations.BoundCellsAreLoweredEverywhere
  refine ⟨?words, ?sync, ?propagation⟩
  case words =>
    intro s m t n l hl
    refine ⟨fun a hr => ?_, fun d hr => hr.exec_bndrd hl⟩
    intro low
    obtain ⟨hno, hyes⟩ := hr.exec_bndmin hl
    have hlow (old : DWord) : lowerBound l n.toNat old (rp t a) = low old := lowerBound_eq l n.toNat old (rp t a)
    exact ⟨hno, fun h => ⟨_, hyes h, (boundLowered_cell s t l n.toNat _).trans (hlow _),
      (boundLowered_copy s t l n.toNat _).trans (hlow _), fun c hc => boundLowered_core s t l n.toNat _ hc,
      sameMemory_of rfl rfl, rfl, rfl, rfl⟩⟩
  case sync =>
    intro s k u l i ho hl hw
    exact ⟨fun c hc => syncCopies_copy ho hl hw hc,
      sameMemory_of (syncCopies_keeps State.mem (fun _ _ _ => rfl) s k) (syncCopies_keeps (·.pkg.zeroings) (fun _ _ _ => rfl) s k),
      syncCopies_keeps State.threads (fun _ _ _ => rfl) s k, syncCopies_keeps State.clusters (fun _ _ _ => rfl) s k⟩
  case propagation =>
    intro s u l i hl hne values
    obtain ⟨low, hx, hmem, hlow⟩ := exec_boundPropagation hl hne
    have hk {γ : Type} (g : State → γ) (hg : ∀ (s : State) (c : Nat) (x : Core), g (s.setCore c x) = g s)
        (hc : ∀ (s : State) (c : Nat) (x : Cluster), g (s.setCluster c x) = g s) :
        g ((cellClusters s u i).foldl (fun s k => lowerAll l k i low s) s) = g s :=
      foldl_same g _ (fun s k => lowerAll_keeps g hg hc l k i low s) _ s
    refine ⟨_, low, hx, hmem, hlow, fun k hk' => ⟨?_, fun c hc => ?_⟩, ?_, ?_, ?_⟩
    · exact lowerAlls_cell hk' (hlow _ (cell_mem_cellValues hk'))
    · exact lowerAlls_copy hk' hc (hlow _ (copy_mem_cellValues hk' hc))
    · exact sameMemory_of (hk State.mem (fun _ _ _ => rfl) fun _ _ _ => rfl)
        (hk (·.pkg.zeroings) (fun _ _ _ => rfl) fun _ _ _ => rfl)
    · exact hk State.threads (fun _ _ _ => rfl) fun _ _ _ => rfl
    · exact hk State.teams (fun _ _ _ => rfl) fun _ _ _ => rfl

end Sys2Proof.Machine
end

section
/-! SUPPORT. Mordant programs at their start: the engines, the queue of a cluster, and what a new program stands with. -/

namespace Sys2Proof.Machine

/-! ## Engines and the queue (R218) -/

/-- Handing out engines changes programs and the queue of the cluster alone. -/
theorem dispatchOne_keeps {γ : Type} (g : State → γ) (hk : ∀ (s : State) (k : Nat) (x : Cluster), g (s.setCluster k x) = g s)
    (hp : ∀ (s : State) (u : Nat) (f : Program → Program), g (s.updProgram u f) = g s) (s : State) (k : Nat) :
    g (dispatchOne s k) = g s := by
  unfold dispatchOne
  split
  · exact (hp _ _ _).trans (hk _ _ _)
  · rfl

theorem dispatchQueued_keeps {γ : Type} (g : State → γ) (hk : ∀ (s : State) (k : Nat) (x : Cluster), g (s.setCluster k x) = g s)
    (hp : ∀ (s : State) (u : Nat) (f : Program → Program), g (s.updProgram u f) = g s) (s : State) (k : Nat) :
    g (dispatchQueued s k) = g s := foldl_same g _ (fun s _ => dispatchOne_keeps g hk hp s k) _ s

theorem dispatchOne_some {s : State} {k e u : Nat} (he : freeEngine s k = some e)
    (hu : chooseQueued s (s.cluster k).queue = some u) : dispatchOne s k =
    (s.setCluster k { s.cluster k with queue := (s.cluster k).queue.filter (· != u) }).updProgram u fun p =>
      { p with engine := some e } := by
  unfold dispatchOne
  rw [he, hu]

theorem dispatchOne_none {s : State} {k : Nat} (h : freeEngine s k = none ∨ chooseQueued s (s.cluster k).queue = none) :
    dispatchOne s k = s := by
  unfold dispatchOne
  split
  · next he hu => rw [he, hu] at h; simp at h
  · rfl

theorem chooseQueued_nil (s : State) : chooseQueued s [] = none := rfl

theorem dispatchQueued_none {s : State} {k : Nat} (h : freeEngine s k = none ∨ (s.cluster k).queue = []) :
    dispatchQueued s k = s := by
  have h1 : dispatchOne s k = s := dispatchOne_none (h.imp_right fun hq => by rw [hq]; exact chooseQueued_nil s)
  rw [show dispatchQueued s k = dispatchOne (dispatchOne (dispatchOne (dispatchOne s k) k) k) k from rfl, h1, h1, h1, h1]

theorem freeEngine_some {s : State} {k e : Nat} (h : freeEngine s k = some e) :
    e < 4 ∧ engineBusy s k e = false ∧ ∀ j, j < e → engineBusy s k j = true := by
  obtain ⟨he, hlt, hlow⟩ := List.find?_range_eq_some.mp h
  exact ⟨List.mem_range.mp hlt, by simpa using he, fun j hj => by simpa using hlow j hj⟩

/-- The queued programs, with their names. -/
def queuedPrograms (s : State) (q : List Nat) : List (Nat × Program) := q.filterMap fun u => (s.program? u).map fun p => (u, p)

theorem mem_queuedPrograms {s : State} {q : List Nat} {x : Nat × Program} :
    x ∈ queuedPrograms s q ↔ x.1 ∈ q ∧ s.program? x.1 = some x.2 := by
  rw [queuedPrograms, List.mem_filterMap]
  constructor
  · rintro ⟨u, hu, h⟩
    obtain ⟨p, hp, rfl⟩ := Option.map_eq_some_iff.mp h
    exact ⟨hu, hp⟩
  · rintro ⟨hu, hp⟩
    exact ⟨x.1, hu, by rw [hp]; rfl⟩

theorem queuedPrograms_append {s : State} {before after : List Nat} {u : Nat} {p : Program} (hp : s.program? u = some p) :
    queuedPrograms s (before ++ u :: after) = queuedPrograms s before ++ (u, p) :: queuedPrograms s after := by
  rw [queuedPrograms, List.filterMap_append, List.filterMap_cons, hp]
  rfl

theorem foldl_max_le {l : List Nat} {n : Nat} : ∀ a, l.foldl Nat.max a ≤ n ↔ a ≤ n ∧ ∀ x ∈ l, x ≤ n := by
  induction l with
  | nil => intro a; simp
  | cons b l ih =>
    intro a
    rw [List.foldl_cons, ih, List.forall_mem_cons]
    have h : Nat.max a b ≤ n ↔ a ≤ n ∧ b ≤ n := Nat.max_le
    rw [h, and_assoc]

theorem le_foldl_max {l : List Nat} {x : Nat} (h : x ∈ l) (a : Nat) : x ≤ l.foldl Nat.max a :=
  ((foldl_max_le a).mp (Nat.le_refl _)).2 x h

theorem find?_split {α : Type} {q : α → Bool} {before after : List α} {x : α} (hb : ∀ y ∈ before, q y = false) (hx : q x = true) :
    (before ++ x :: after).find? q = some x := by
  rw [List.find?_append, List.find?_eq_none.mpr fun y hy => Bool.eq_false_iff.mp (hb y hy), Option.none_or]
  exact List.find?_cons_of_pos hx

/-- R218: first a program that has waited 65,536 cycles, then the oldest of the highest priority. -/
theorem chooseQueued_eq {s : State} {before after : List Nat} {u : Nat} {p : Program} (hp : s.program? u = some p)
    (hb : ∀ v ∈ before, ∀ q, s.program? v = some q → ¬q.since + 65536 ≤ s.now ∧ (¬p.since + 65536 ≤ s.now → q.pri < p.pri))
    (ha : ¬p.since + 65536 ≤ s.now → ∀ v ∈ after, ∀ q, s.program? v = some q → ¬q.since + 65536 ≤ s.now ∧ q.pri ≤ p.pri) :
    chooseQueued s (before ++ u :: after) = some u := by
  have hx : chooseQueued s (before ++ u :: after) =
      match (queuedPrograms s (before ++ u :: after)).find? fun x => decide (x.2.since + 65536 ≤ s.now) with
      | some x => some x.1
      | none => ((queuedPrograms s (before ++ u :: after)).find? fun x =>
          x.2.pri == ((queuedPrograms s (before ++ u :: after)).map fun x => x.2.pri).foldl Nat.max 0).map (·.1) := rfl
  have hbefore (x : Nat × Program) (h : x ∈ queuedPrograms s before) := hb x.1 (mem_queuedPrograms.mp h).1 x.2 (mem_queuedPrograms.mp h).2
  rw [hx, queuedPrograms_append hp]
  by_cases hold : p.since + 65536 ≤ s.now
  · rw [find?_split (fun x h => decide_eq_false (hbefore x h).1) (decide_eq_true hold)]
  · have hafter (x : Nat × Program) (h : x ∈ queuedPrograms s after) :=
      ha hold x.1 (mem_queuedPrograms.mp h).1 x.2 (mem_queuedPrograms.mp h).2
    have htop : ((queuedPrograms s before ++ (u, p) :: queuedPrograms s after).map fun x => x.2.pri).foldl Nat.max 0 = p.pri := by
      have hmem : p.pri ∈ (queuedPrograms s before ++ (u, p) :: queuedPrograms s after).map fun x => x.2.pri :=
        List.mem_map_of_mem (f := fun x : Nat × Program => x.2.pri) (List.mem_append_right _ List.mem_cons_self)
      refine Nat.le_antisymm ((foldl_max_le 0).mpr ⟨Nat.zero_le _, fun n hn => ?_⟩) (le_foldl_max hmem 0)
      obtain ⟨x, hx, rfl⟩ := List.mem_map.mp hn
      rcases List.mem_append.mp hx with hx | hx
      · exact Nat.le_of_lt ((hbefore x hx).2 hold)
      · rcases List.mem_cons.mp hx with rfl | hx
        · exact Nat.le_refl _
        · exact (hafter x hx).2
    have hnone : (queuedPrograms s before ++ (u, p) :: queuedPrograms s after).find? (fun x => decide (x.2.since + 65536 ≤ s.now)) =
        none := by
      refine List.find?_eq_none.mpr fun x hx => ?_
      rw [decide_eq_true_eq]
      rcases List.mem_append.mp hx with hx | hx
      · exact (hbefore x hx).1
      · rcases List.mem_cons.mp hx with rfl | hx
        · exact hold
        · exact (hafter x hx).1
    rw [hnone]
    dsimp only
    rw [htop, find?_split (fun x h => beq_false_of_ne (Nat.ne_of_lt ((hbefore x h).2 hold))) (beq_self_eq_true p.pri)]
    rfl

/-! ## A new program (R217) -/

/-- Registers set one after another from register 1 on. -/
theorem get_foldl_set (args : List DWord) (m : FMap DWord) (k : Nat) : ∀ n,
    FMap.get 0 ((List.range n).foldl (fun m i => FMap.set 0 m (i + 1) (args.getD i 0)) m) k =
      if 1 ≤ k ∧ k ≤ n then args.getD (k - 1) 0 else FMap.get 0 m k := by
  intro n
  induction n with
  | zero => exact (if_neg (by omega)).symm
  | succ n ih =>
    rw [List.range_succ, List.foldl_append]
    by_cases hk : k = n + 1
    · subst hk
      rw [if_pos (by omega)]
      exact FMap.get_set_same _ _ _ _
    · refine (FMap.get_set_other _ _ _ hk).trans (ih.trans ?_)
      by_cases hi : 1 ≤ k ∧ k ≤ n
      · rw [if_pos hi, if_pos (by omega)]
      · rw [if_neg hi, if_neg (by omega)]

/-- The registers of a new program: its sequence number, and its arguments from m1 on. -/
def startRegisters (seq : BitVec 48) (args : List DWord) : FMap DWord :=
  (List.range args.length).foldl (fun m i => FMap.set 0 m (i + 1) (args.getD i 0)) (FMap.set 0 [] 0 (BitVec.ofNat 64 seq.toNat))

section
variable {p : Program} {seq : BitVec 48} {args : List DWord} (h : p.m = startRegisters seq args)

include h

theorem mreg_sequence : p.mreg 0 = seq.setWidth 64 := by
  have h0 : p.mreg 0 = FMap.get 0 p.m 0 := rfl
  rw [h0, h, startRegisters, get_foldl_set, if_neg (by omega), FMap.get_set_same, BitVec.ofNat_toNat]

theorem mreg_argument {j : Nat} (hj : j < args.length) (hl : args.length < 32) : p.mreg (BitVec.ofNat 5 (j + 1)) = args.getD j 0 := by
  have hn : (BitVec.ofNat 5 (j + 1)).toNat = j + 1 := by rw [BitVec.toNat_ofNat]; omega
  rw [Program.mreg, hn, h, startRegisters, get_foldl_set, if_pos (by omega)]
  rfl

end

/-! ## `mdgo` -/

section
variable {s : State} {m : Team} {t : Thread} {d : Reg} {a b : Src}

/-- The seven argument pairs of `mdgo`. -/
def mdgoArgs (t : Thread) (b : Src) : List DWord := (List.range 7).map fun j => t.pair (b.r.toNat + 2 * j)

/-- The state after a program has started or been queued. -/
def programStarted (s : State) (m : Team) (t : Thread) (engine : Option Nat) (entry : DWord) (args : List DWord) : State :=
  (startProgram s m t engine entry args).2

theorem Ready.exec_mdgo (hr : Ready s m t (.mdgo d a b) false [src2 a, srcN b 14 2, dst1 d]) (hacq : acqPending s t.team t.tix = false) :
    exec (.mdgo d a b) s = .next (
      if (rp t a).toNat % 8 ≠ 0 then threadFault s t .align { addr := (rp t a).toNat }
      else
        let s := dispatchQueued s (clusterOf t.core)
        match freeEngine s (clusterOf t.core) with
        | some e => withRoom s t .md (finish (programStarted s m t (some e) (rp t a) (mdgoArgs t b))
            (t.write d.toNat (handleOf (s.die (dieOf t.core)).mdSeq)) (.mdgo d a b) 0)
        | none => if 16 ≤ (s.cluster (clusterOf t.core)).queue.length then finish s (t.write d.toNat 0) (.mdgo d a b) 0
          else withRoom s t .md (finish (programStarted s m t none (rp t a) (mdgoArgs t b))
            (t.write d.toNat (handleOf (s.die (dieOf t.core)).mdSeq)) (.mdgo d a b) 0)) := by
  have hx : exec (.mdgo d a b) s = .next _ := hr.issue _
  exact hx.trans (congrArg _ (afterAcquire_over hacq))

theorem Ready.exec_mdgo_misaligned (hr : Ready s m t (.mdgo d a b) false [src2 a, srcN b 14 2, dst1 d])
    (hacq : acqPending s t.team t.tix = false) (h : (rp t a).toNat % 8 ≠ 0) :
    exec (.mdgo d a b) s = .next (threadFault s t .align { addr := (rp t a).toNat }) :=
  (hr.exec_mdgo hacq).trans (congrArg _ (if_pos h))

theorem Ready.exec_mdgo_full (hr : Ready s m t (.mdgo d a b) false [src2 a, srcN b 14 2, dst1 d])
    (hacq : acqPending s t.team t.tix = false) (h : (rp t a).toNat % 8 = 0)
    (he : freeEngine (dispatchQueued s (clusterOf t.core)) (clusterOf t.core) = none)
    (hq : 16 ≤ ((dispatchQueued s (clusterOf t.core)).cluster (clusterOf t.core)).queue.length) :
    exec (.mdgo d a b) s = .next (advance (dispatchQueued s (clusterOf t.core)) (t.write d.toNat 0) (.mdgo d a b)) := by
  refine (hr.exec_mdgo hacq).trans (congrArg _ ((if_neg (not_not_intro h)).trans ?_))
  dsimp only
  rw [he]
  exact (if_pos hq).trans (finish_quiet _ _ _ rfl)

theorem Ready.exec_mdgo_starts (hr : Ready s m t (.mdgo d a b) false [src2 a, srcN b 14 2, dst1 d])
    (hacq : acqPending s t.team t.tix = false) (h : (rp t a).toNat % 8 = 0)
    (he : freeEngine (dispatchQueued s (clusterOf t.core)) (clusterOf t.core) ≠ none ∨
      ((dispatchQueued s (clusterOf t.core)).cluster (clusterOf t.core)).queue.length < 16)
    (hc : countFull s t .md = false) :
    exec (.mdgo d a b) s = .next (advance (programStarted (dispatchQueued s (clusterOf t.core)) m t
        (freeEngine (dispatchQueued s (clusterOf t.core)) (clusterOf t.core)) (rp t a) (mdgoArgs t b))
      (t.write d.toNat (handleOf (s.die (dieOf t.core)).mdSeq)) (.mdgo d a b)) := by
  have hc0 : countFull (dispatchQueued s (clusterOf t.core)) t .md = false :=
    (dispatchQueued_keeps (countFull · t .md) (fun _ _ _ => rfl) (fun _ _ _ => rfl) s _).trans hc
  have hd : (dispatchQueued s (clusterOf t.core)).die (dieOf t.core) = s.die (dieOf t.core) :=
    dispatchQueued_keeps (·.die (dieOf t.core)) (fun _ _ _ => rfl) (fun _ _ _ => rfl) s _
  refine (hr.exec_mdgo hacq).trans (congrArg _ ((if_neg (not_not_intro h)).trans ?_))
  dsimp only
  cases hf : freeEngine (dispatchQueued s (clusterOf t.core)) (clusterOf t.core) with
  | none =>
    have hq := he.resolve_left (not_not_intro hf)
    dsimp only
    rw [if_neg (Nat.not_le.mpr hq), withRoom_free hc0, hd]
    exact finish_quiet _ _ _ rfl
  | some e =>
    dsimp only
    rw [withRoom_free hc0, hd]
    exact finish_quiet _ _ _ rfl

/-- The request that counts a program in class md. -/
def startRequest (s : State) (t : Thread) : Req :=
  { t.req s.now (some .md) (.mdRun s.uid) with
    after := (s.reqs.filter fun p => ownReq t.team t.tix p.2 && p.2.act.orders && !p.2.performed && !p.2.complete).map (·.1) }

theorem issued_startRequest (s : State) (t : Thread) : Issued t (startRequest s t) (some .md) (.mdRun s.uid) :=
  ⟨rfl, rfl, rfl, rfl, rfl, rfl⟩

/-- The program that `mdgo` starts. -/
def startedProgram (s : State) (m : Team) (t : Thread) (engine : Option Nat) (entry : DWord) (args : List DWord) : Program :=
  { newProgram t.team (clusterOf t.core) engine t.tix entry (s.die (dieOf t.core)).mdSeq args
      (match s.launch? m.launch with | some l => l.ctlPri | none => 0) s.now (some (s.uid + 1)) m.gens with
    buffered := holdsBuffered s m t }

theorem holdsBuffered_started (s : State) (m : Team) (t : Thread) (r : Req) (k u : Nat) (h : r.act = .mdRun u) (d : Die) (n : Nat)
    : holdsBuffered { s.setDie (dieOf t.core) d with uid := n, reqs := s.reqs ++ [(k, r)] } m t = holdsBuffered s m t := by
  have hx : ∀ s' : State, s'.cores = s.cores → s'.reqs = s.reqs ++ [(k, r)] → holdsBuffered s' m t = holdsBuffered s m t := by
    intro s' hcores hreqs
    have hcore : s'.core t.core = s.core t.core := by rw [State.core, State.core, hcores]
    rw [holdsBuffered, holdsBuffered, hreqs, hcore, List.any_append, List.any_cons, List.any_nil, h]
    simp
  exact hx _ rfl rfl

variable (s : State) (m : Team) (t : Thread) (engine : Option Nat) (entry : DWord) (args : List DWord)

theorem startedProgram_m : (startedProgram s m t engine entry args).m = startRegisters (s.die (dieOf t.core)).mdSeq args := rfl

theorem programStarted_spec : (programStarted s m t engine entry args).program? s.uid = some (startedProgram s m t engine entry args) ∧
    (programStarted s m t engine entry args).reqs = s.reqs ++ [(s.uid + 1, startRequest s t)] ∧
    ((programStarted s m t engine entry args).die (dieOf t.core)).mdSeq = (s.die (dieOf t.core)).mdSeq + 1 ∧
    ((programStarted s m t engine entry args).cluster (clusterOf t.core)).queue =
      (if engine.isNone then (s.cluster (clusterOf t.core)).queue ++ [s.uid] else (s.cluster (clusterOf t.core)).queue) ∧
    SameMemory s (programStarted s m t engine entry args) ∧ (programStarted s m t engine entry args).threads = s.threads ∧
    (programStarted s m t engine entry args).teams = s.teams := by
  have hp : startedProgram s m t engine entry args = { newProgram t.team (clusterOf t.core) engine t.tix entry
      (s.die (dieOf t.core)).mdSeq args (match s.launch? m.launch with | some l => l.ctlPri | none => 0) s.now (some (s.uid + 1)) m.gens with
      buffered := holdsBuffered { s.setDie (dieOf t.core) { s.die (dieOf t.core) with mdSeq := (s.die (dieOf t.core)).mdSeq + 1 } with
        uid := s.uid + 1 + 1, reqs := s.reqs ++ [(s.uid + 1, startRequest s t)] } m t } := by
    rw [startedProgram, holdsBuffered_started s m t _ _ s.uid rfl]
  cases engine with
  | none =>
    refine ⟨(Tab.find_put_same _ _ _).trans (congrArg some hp.symm), rfl, ?_, ?_, sameMemory_of rfl rfl, rfl, rfl⟩
    · exact congrArg Die.mdSeq (FMap.get_set_same _ _ _ _)
    · exact congrArg Cluster.queue (FMap.get_set_same _ _ _ _)
  | some e =>
    refine ⟨(Tab.find_put_same _ _ _).trans (congrArg some hp.symm), rfl, ?_, rfl, sameMemory_of rfl rfl, rfl, rfl⟩
    exact congrArg Die.mdSeq (FMap.get_set_same _ _ _ _)

end

/-! ## `mdkill` and `mdstat` -/

section
variable {s : State} {m : Team} {t : Thread} {d : Reg} {a : Src}

theorem Ready.exec_mdkill (hr : Ready s m t (.mdkill a) false [src1 a]) :
    (handleProgram s t.team ((rw t a).toNat % 2 ^ 28) = none → exec (.mdkill a) s = .next (advance s t (.mdkill a))) ∧
    (∀ u p, handleProgram s t.team ((rw t a).toNat % 2 ^ 28) = some (u, p) →
      exec (.mdkill a) s = .next (killProgram (advance s t (.mdkill a)) u)) := by
  have hx : exec (.mdkill a) s = .next (match handleProgram (finish s t (.mdkill a) 0) t.team ((rw t a).toNat % 2 ^ 28) with
    | some (u, _) => killProgram (finish s t (.mdkill a) 0) u
    | none => finish s t (.mdkill a) 0) := hr.issue _
  have hh : handleProgram (advance s t (.mdkill a)) t.team ((rw t a).toNat % 2 ^ 28) =
    handleProgram s t.team ((rw t a).toNat % 2 ^ 28) := rfl
  rw [hx, finish_quiet s t _ rfl, hh]
  exact ⟨fun h => by rw [h], fun u p h => by rw [h]⟩

theorem Ready.exec_mdstat (hr : Ready s m t (.mdstat d a) false [src1 a, dst1 d]) : exec (.mdstat d a) s =
    .next (advance s (t.write d.toNat (stateWord (handleProgram s t.team ((rw t a).toNat % 2 ^ 28)))) (.mdstat d a)) := by
  have hx : exec (.mdstat d a) s = .next _ := hr.issue _
  exact hx.trans (congrArg _ (finish_quiet _ _ _ rfl))

theorem killProgram_settled {u : Nat} {p : Program} (hp : s.program? u = some p) (he : p.ending = none) (hst : p.stalled = none)
    (hs : pendingOf s u = []) : killProgram s u = finishProgram (leaveMordantQueue s u p) u p ⟨2, 0, 0, 0⟩ := by
  have hd : dropStall s p = s := by rw [dropStall, hst]
  rw [killProgram, hp]
  dsimp only
  rw [hd]
  exact endProgram_settled hs hp he _

end

/-- Settles O46: the three words by the rules of issue and of the engines, MORDANT_DISPATCH by what it hands out. -/
theorem programsAreStartedDispatchedAndStopped : Obligations.ProgramsAreStartedDispatchedAndStopped := by
  unfold Obligations.ProgramsAreStartedDispatchedAndStopped
  refine ⟨⟨?mdgo, ?mdkill, ?kill, ?leave, ?mdstat⟩, ?dispatch, ?nothing, ?unqueued, ?four, ?engine, ?choice⟩
  case mdgo =>
    intro s m t d a b hr hacq k seq s0 engine
    refine ⟨hr.exec_mdgo_misaligned hacq, hr.exec_mdgo_full hacq, fun h he hc => ?_⟩
    have hk {γ : Type} (g : State → γ) (h1 : ∀ (s : State) (k : Nat) (x : Cluster), g (s.setCluster k x) = g s)
        (h2 : ∀ (s : State) (u : Nat) (f : Program → Program), g (s.updProgram u f) = g s) : g s0 = g s :=
      dispatchQueued_keeps g h1 h2 s k
    have huid : s0.uid = s.uid := hk State.uid (fun _ _ _ => rfl) fun _ _ _ => rfl
    have hdie : s0.die (dieOf t.core) = s.die (dieOf t.core) := hk (·.die (dieOf t.core)) (fun _ _ _ => rfl) fun _ _ _ => rfl
    have hmem : SameMemory s s0 := sameMemory_of (hk State.mem (fun _ _ _ => rfl) fun _ _ _ => rfl)
      (hk (·.pkg.zeroings) (fun _ _ _ => rfl) fun _ _ _ => rfl)
    have hreqs : s0.reqs = s.reqs := hk State.reqs (fun _ _ _ => rfl) fun _ _ _ => rfl
    have hthreads : s0.threads = s.threads := hk State.threads (fun _ _ _ => rfl) fun _ _ _ => rfl
    have hteams : s0.teams = s.teams := hk State.teams (fun _ _ _ => rfl) fun _ _ _ => rfl
    obtain ⟨hprog, hreq, hseq, hqueue, hm, hth, hte⟩ := programStarted_spec s0 m t engine (rp t a) (mdgoArgs t b)
    rw [huid] at hprog hreq hqueue
    refine ⟨_, _, _, hr.exec_mdgo_starts hacq h he hc, hprog, rfl, rfl, rfl, rfl, congrArg Die.mdSeq hdie, rfl,
      hk (holdsBuffered · m t) (fun _ _ _ => rfl) (fun _ _ _ => rfl), ?_, fun j hj => ?_, hreq.trans (by rw [hreqs]), ?_, ?_, hqueue,
      hmem.trans hm, hth.trans hthreads, hte.trans hteams⟩
    · exact (mreg_sequence (startedProgram_m s0 m t engine (rp t a) (mdgoArgs t b))).trans (by rw [hdie])
    · exact (mreg_argument (startedProgram_m s0 m t engine (rp t a) (mdgoArgs t b)) hj (show 7 < 32 by decide)).trans (getD_map_range _ _ hj)
    · rw [← huid]
      exact issued_startRequest s0 t
    · rw [hseq, hdie]
  case mdkill =>
    intro s m t a hr
    exact hr.exec_mdkill
  case kill =>
    intro s u p hp he hst hs
    exact killProgram_settled hp he hst hs
  case leave =>
    intro s u p
    rfl
  case mdstat =>
    intro s m t d a hr
    exact hr.exec_mdstat
  case dispatch =>
    intro s k e u he hu
    exact congrArg Host.Outcome.next (dispatchOne_some he hu)
  case nothing =>
    intro s k h
    exact congrArg Host.Outcome.next (dispatchOne_none h)
  case unqueued =>
    intro s k h
    exact dispatchQueued_none h
  case four =>
    intro s k s1 s2 s3 h1 h2 h3
    obtain rfl : dispatchOne s k = s1 := Host.Outcome.next.inj h1
    obtain rfl : dispatchOne (dispatchOne s k) k = s2 := Host.Outcome.next.inj h2
    obtain rfl : dispatchOne (dispatchOne (dispatchOne s k) k) k = s3 := Host.Outcome.next.inj h3
    rfl
  case engine =>
    intro s k e h
    exact freeEngine_some h
  case choice =>
    intro s before u after p hp hb ha
    exact chooseQueued_eq hp hb ha

end Sys2Proof.Machine
end

section
/-! SUPPORT. A teardown beside a thread that waits for a producer no longer in flight, with a trap to take and no handler. The
poison that the teardown writes to an empty register wakes every thread whose wait is over (PARK_WAKE, R37): this one, of another
team, enters T_FPX, faults, and its record is written to memory. -/

namespace Sys2Proof.Machine

/-- The probe's launch with two teams; its fault ring stands at address 0. -/
def twoTeamLaunch : Launch := { probeLaunch with record := spliceBytes probeLaunch.record 0x00C (leBytes 4 2) }

/-- The translation of the ring, in the TLB of its die. -/
def ringXlat : Xlat :=
  { fn := 0, va := 0, log := 16, ipa := 0x20000, out := .hbm 0x20000, r := true, w := true, x := false, pin := false }

/-- The team that ends, and its thread with v0 empty. -/
def endingTeam : Team := { probeTeam 1 with stage := .ending }
def emptyThread : Thread := { probeThread 1 with regs := [(0, .empty 0)], place := .stopped }

/-- The thread of the other team, which waits to enter T_FPX. -/
def trappingThread : Thread := { probeThread 2 with slot := 1, place := .parked (.fpu (some 0x10000)) }

def teardownState : State :=
  let s := State.reset.withFetchWord 64 0
  { s.setDie 0 { s.die 0 with tlb := [ringXlat] } with
    agenda := []
    cur := .none
    teams := [(1, endingTeam), (2, { probeTeam 1 with num := 1 })]
    threads := [(tkey 1 0, emptyThread), (tkey 2 0, trappingThread)]
    launches := [(1, twoTeamLaunch)] }

/-- The byte of CODE in the ring's first entry is zero before the teardown. -/
theorem teardownState_code : readByte teardownState 0x20006 = 0 := by decide +kernel

theorem teardownState_records : ∀ s', exec (.teamTeardown 1) teardownState = .next s' → readByte s' 0x20006 = 4 := by
  have h : (match exec (.teamTeardown 1) teardownState with
    | .next s' => readByte s' 0x20006
    | _ => 0) = 4 := by decide +kernel
  intro s' hs
  rwa [hs] at h

/-- Refutes O47: its last clause says that a teardown leaves memory as it is, but the wake-up after a poisoned register makes the
thread of another team fault, whose record is written to memory. -/
theorem not_faultedTeamsAreTakenDown : ¬ Obligations.FaultedTeamsAreTakenDown := by
  rintro ⟨-, -, h⟩
  obtain ⟨s', m', l', hs, -, -, -, -, -, -, hmem⟩ := h teardownState 1 endingTeam twoTeamLaunch rfl rfl rfl (by decide +kernel) rfl
    (by decide +kernel) (by decide +kernel) (by decide +kernel) (.inr (by decide +kernel)) (by decide +kernel)
  have hb := (teardownState_records s' hs).symm.trans ((hmem 0x20006).trans teardownState_code)
  exact absurd hb (by decide)

end Sys2Proof.Machine
end

section
/-! SUPPORT. A phase boundary in place where the table of threads holds a thread once under its name and once more under another.
The threads that the boundary goes through are read from the table, and the second entry, as it was before, is put last: it brings
back a register that the phase does not carry. -/

namespace Sys2Proof.Machine

/-- A thread held at the boundary, with v0 full. -/
def boundaryThread : Thread := { probeThread 1 with regs := [(0, .full 1)], place := .held .boundary }

/-- The thread stands under its own name, and under that of TIX 1. The launch's next phase carries no register. -/
def boundaryState : State :=
  { State.reset.withFetchWord 64 0 with
    agenda := []
    cur := .none
    teams := [(1, probeTeam 1)]
    threads := [(tkey 1 0, boundaryThread), (tkey 1 1, boundaryThread)]
    launches := [(1, probeLaunch)] }

theorem boundaryState_threads : boundaryState.teamThreads 1 = [boundaryThread, boundaryThread] := by decide +kernel

theorem boundaryState_live : liveOf boundaryState 1 = [boundaryThread, boundaryThread] := by decide +kernel

theorem boundaryState_keeps : ∀ s', exec (.phaseBoundary 1) boundaryState = .next s' →
    (s'.thread? 1 0).map Thread.regs = some [(0, .full 1)] := by
  have h : (match exec (.phaseBoundary 1) boundaryState with
    | .next s' => (s'.thread? 1 0).map Thread.regs
    | _ => none) = some [(0, .full 1)] := by decide +kernel
  intro s' hs
  rwa [hs] at h

/-- Refutes O48: a boundary in place does not leave each thread with the carried registers alone where the table holds it twice. -/
theorem not_phasesEndInPlaceOrAreDiscarded : ¬ Obligations.PhasesEndInPlaceOrAreDiscarded := by
  rintro ⟨h, -⟩
  obtain ⟨s', hs, -, ht, -⟩ := h boundaryState 1 (probeTeam 1) probeLaunch boundaryThread [boundaryThread] rfl rfl rfl rfl rfl
    boundaryState_live (by rw [boundaryState_threads]; decide +kernel) (by rw [boundaryState_live]; decide +kernel) (by decide +kernel)
    (by decide +kernel) (by decide +kernel) (by decide +kernel)
  have hw := ht boundaryThread (by rw [boundaryState_live]; exact List.mem_cons_self)
  have hr := (boundaryState_keeps s' hs).symm.trans (congrArg (Option.map Thread.regs) hw)
  exact absurd hr (by decide +kernel)

end Sys2Proof.Machine
end

section
/-! SUPPORT. Teams that leave their core for the save area, and come back: what stops, what a release leaves, and where a saved team
takes its seat. -/

namespace Sys2Proof.Machine

theorem Tab.mem_of_find {α : Type} {m : Tab α} {k : Nat} {v : α} (h : Tab.find m k = some v) : (k, v) ∈ m := by
  induction m with
  | nil => cases h
  | cons p m ih =>
    obtain ⟨j, w⟩ := p
    rw [Tab.find] at h
    split at h
    · next hj =>
      subst hj
      rw [Option.some.inj h]
      exact List.mem_cons_self
    · exact List.mem_cons_of_mem _ (ih h)

theorem mem_teamThreads_of_thread? {s : State} {u x : Nat} {t : Thread} (h : s.thread? u x = some t) (hu : t.team = u) :
    t ∈ s.teamThreads u :=
  List.mem_map.mpr ⟨_, List.mem_filter.mpr ⟨Tab.mem_of_find h, by rw [hu]; exact beq_self_eq_true u⟩, rfl⟩

theorem team_of_mem_teamThreads {s : State} {u : Nat} {t : Thread} (h : t ∈ s.teamThreads u) : t.team = u := by
  obtain ⟨p, hp, rfl⟩ := List.mem_map.mp h
  exact eq_of_beq (List.mem_filter.mp hp).2

/-! ## Threads that stop (R327) -/

/-- The threads of a team that stand in the table or in a row. -/
def boundaryThreads (s : State) (u : Nat) : List Thread := (s.teamThreads u).filter fun t => t.place == .table || t.place == .row

/-- A thread stopped at its instruction boundary. -/
def haltedThread (c : Core) (now : Nat) (t : Thread) : Thread := { t with place := .held (.save (bornAt c t.slot now)) }

theorem haltThreads_eq (s : State) (u : Nat) (m : Team) :
    haltThreads s u m = ((boundaryThreads s u).foldl (fun x t => x.setThread (haltedThread (s.core m.core) x.now t)) s).setCore m.core
      (((boundaryThreads s u).map (·.slot)).foldl Core.leave
        (((boundaryThreads s u).foldl (fun x t => x.setThread (haltedThread (s.core m.core) x.now t)) s).core m.core)) := rfl

theorem haltThreads_keeps {γ : Type} (g : State → γ) (ht : ∀ (s : State) (t : Thread), g (s.setThread t) = g s)
    (hc : ∀ (s : State) (c : Nat) (x : Core), g (s.setCore c x) = g s) (s : State) (u : Nat) (m : Team) :
    g (haltThreads s u m) = g s := (hc _ _ _).trans (foldl_same g _ (fun _ _ => ht _ _) _ s)

/-- Threads of one team that are set one after another, each to what is held at `place`. -/
theorem setThreads_find {u x : Nat} {f : State → Thread → Thread} (hf : ∀ s t, (f s t).team = t.team ∧ (f s t).tix = t.tix)
    (P : Thread → Prop) (hP : ∀ s t, P (f s t)) {ts : List Thread} : ∀ s : State, (∀ t ∈ ts, t.team = u) →
    ((∃ t ∈ ts, t.tix = x) ∨ ∃ t, s.thread? u x = some t ∧ P t) →
    ∃ t, (ts.foldl (fun s t => s.setThread (f s t)) s).thread? u x = some t ∧ P t := by
  induction ts with
  | nil =>
    intro s _ h
    rcases h with ⟨t, ht, _⟩ | h
    · cases ht
    · exact h
  | cons a ts ih =>
    intro s hu h
    have ha : (f s a).team = u := (hf s a).1.trans (hu a List.mem_cons_self)
    refine ih _ (fun t ht => hu t (List.mem_cons_of_mem _ ht)) ?_
    have hput : (s.setThread (f s a)).thread? u x = Tab.find (Tab.put s.threads (tkey (f s a).team (f s a).tix) (f s a)) (tkey u x) := rfl
    rw [hput, ha, (hf s a).2]
    by_cases hx : a.tix = x
    · exact .inr ⟨f s a, by rw [hx]; exact Tab.find_put_same _ _ _, hP s a⟩
    · rcases h with ⟨t, ht, htx⟩ | ⟨t, ht, hp⟩
      · rcases List.mem_cons.mp ht with rfl | ht
        · exact absurd htx hx
        · exact .inl ⟨t, ht, htx⟩
      · refine .inr ⟨t, ?_, hp⟩
        exact (Tab.find_put_other _ _ fun h => hx (by unfold tkey at h; omega)).trans ht

theorem haltThreads_held {s : State} {u : Nat} {m : Team} {t : Thread} (h : s.thread? u t.tix = some t) (hu : t.team = u)
    (hp : t.place = .table ∨ t.place = .row) :
    ∃ t' born, (haltThreads s u m).thread? u t.tix = some t' ∧ t'.place = .held (.save born) := by
  have hmem : t ∈ boundaryThreads s u := List.mem_filter.mpr ⟨mem_teamThreads_of_thread? h hu, by
    rcases hp with hp | hp <;> rw [hp] <;> rfl⟩
  obtain ⟨t', ht', born, hb⟩ := setThreads_find (u := u) (x := t.tix) (f := fun x t => haltedThread (s.core m.core) x.now t)
    (fun _ _ => ⟨rfl, rfl⟩) (fun t => ∃ born, t.place = .held (.save born)) (fun _ _ => ⟨_, rfl⟩) (ts := boundaryThreads s u) s
    (fun t ht => team_of_mem_teamThreads (List.mem_filter.mp ht).1) (.inl ⟨t, hmem, rfl⟩)
  exact ⟨t', born, ht', hb⟩

/-! ## What a release leaves (R331) -/

theorem freeCells_keeps {γ : Type} (g : State → γ) (hc : ∀ (s : State) (c : Nat) (x : Core), g (s.setCore c x) = g s)
    (hk : ∀ (s : State) (c : Nat) (x : Cluster), g (s.setCluster c x) = g s)
    (hl : ∀ (s : State) (u : Nat) (f : Launch → Launch), g (s.updLaunch u f) = g s) (s : State) (u : Nat) (l : Launch) (k : Nat) :
    g (freeCells s u l k) = g s := by
  unfold freeCells
  dsimp only
  split
  · rfl
  · refine foldl_same g _ (fun s i => ?_) _ s
    split
    · exact (hl _ _ _).trans ((lowerCopies_keeps g hc _ _ _ _ _).trans (hk _ _ _))
    · rfl

theorem leaveDeque_keeps {γ : Type} (g : State → γ) (hc : ∀ (s : State) (c : Nat) (x : Core), g (s.setCore c x) = g s)
    (s : State) (c : Nat) : g (leaveDeque s c) = g s := by
  unfold leaveDeque
  dsimp only
  split
  · split
    · exact hc _ _ _
    · rfl
  · rfl

/-- The parts of a state that the release of a team leaves as they are. -/
structure Released {γ : Type} (g : State → γ) : Prop where
  wait : ∀ (s : State) (k : Nat), g (dropWait s k) = g s
  cluster : ∀ (s : State) (k : Nat) (x : Cluster), g (s.setCluster k x) = g s
  req : ∀ (s : State) (k : Nat), g (completeReq s k) = g s
  core : ∀ (s : State) (k : Nat) (x : Core), g (s.setCore k x) = g s
  launch : ∀ (s : State) (u : Nat) (f : Launch → Launch), g (s.updLaunch u f) = g s

/-- The first steps of a release: its waits, passes, reservations, slots and buffered stores are given up. -/
def releaseResources (s : State) (u : Nat) (m : Team) : State :=
  let s := dropStoreWaits s u
  let k := clusterOf m.core
  let cl := s.cluster k
  let pass := match cl.pass with | some p => if p.team = u then none else some p | none => none
  let s := s.setCluster k { cl with pass := pass, resv := cl.resv.filter fun r => r.team != u }
  let s := ((cl.resv.filter fun r => r.team == u).map (·.req)).foldl completeReq s
  let c := ((s.teamThreads u).map (·.slot)).foldl Core.leave (s.core m.core)
  s.setCore m.core { c with psb := c.psb.filter fun e => e.team != u }

/-- A team that holds nothing any more. -/
def Team.released (m : Team) (now : Nat) (st : Stage) : Team :=
  { m with
    stage := st, chains := [], tiles := [], tflags := [], streams := [], scratch := [], wdCount := m.wd now,
    wdSince := none, area := none }

/-- The threads of a released team are gone, and what they have in flight fills nothing more. -/
def withoutThreads (s : State) (u : Nat) : State :=
  { s with
    threads := s.threads.filter fun p => p.2.team != u
    reqs := s.reqs.map fun p => if p.2.ofTeam u then (p.1, { p.2 with dead := true }) else p }

/-- A released team, before the cells of its launch are freed. -/
def teamReleased (s : State) (u : Nat) (m : Team) (st : Stage) : State :=
  let x := withoutThreads (releaseResources s u m) u
  x.updTeam u fun m => m.released x.now st

section
variable {γ : Type} {g : State → γ} (hg : Released g)

include hg

theorem releaseResources_keeps (s : State) (u : Nat) (m : Team) : g (releaseResources s u m) = g s :=
  (hg.core _ _ _).trans ((foldl_same g completeReq hg.req _ _).trans ((hg.cluster _ _ _).trans
    (foldl_same g dropWait hg.wait _ s)))

/-- What the release leaves does not depend on its cells and deques. -/
theorem releaseTeam_released {s : State} {u : Nat} {m : Team} (hm : s.team? u = some m) (st : Stage) :
    g (releaseTeam s u st) = g (teamReleased s u m st) := by
  have hx : releaseTeam s u st = match (teamReleased s u m st).launch? m.launch with
    | none => teamReleased s u m st
    | some l => leaveDeque (freeCells (teamReleased s u m st) m.launch l (clusterOf m.core)) m.core := by
    unfold releaseTeam
    rw [hm]
    rfl
  rw [hx]
  cases (teamReleased s u m st).launch? m.launch with
  | none => rfl
  | some l => exact (leaveDeque_keeps g hg.core _ _).trans (freeCells_keeps g hg.core hg.cluster hg.launch _ _ _ _)

theorem releaseTeam_keeps (ht : ∀ s u, g (withoutThreads s u) = g s) (hu : ∀ s u f, g (State.updTeam s u f) = g s) (s : State)
    (u : Nat) (st : Stage) : g (releaseTeam s u st) = g s := by
  cases hm : s.team? u with
  | none =>
    unfold releaseTeam
    rw [hm]
  | some m =>
    rw [releaseTeam_released hg hm]
    exact (hu _ _ _).trans ((ht _ _).trans (releaseResources_keeps hg s u m))

end

theorem released_of {γ : Type} {g : State → γ} (h : ∀ (s : State) (a b c d e), g { s with
    pkg := { s.pkg with waits := a, hvEvents := b }, clusters := c, reqs := d, cores := e } = g s)
    (hl : ∀ (s : State) (u : Nat) (f : Launch → Launch), g (s.updLaunch u f) = g s) : Released g where
  wait s _ := h s _ _ s.clusters s.reqs s.cores
  cluster s _ _ := h s s.pkg.waits s.pkg.hvEvents _ s.reqs s.cores
  req s _ := h s s.pkg.waits s.pkg.hvEvents s.clusters _ s.cores
  core s _ _ := h s s.pkg.waits s.pkg.hvEvents s.clusters s.reqs _
  launch := hl

theorem released_mem : Released State.mem := released_of (fun _ _ _ _ _ _ => rfl) fun _ _ _ => rfl
theorem released_zeroings : Released (·.pkg.zeroings) := released_of (fun _ _ _ _ _ _ => rfl) fun _ _ _ => rfl
theorem released_threads : Released State.threads := released_of (fun _ _ _ _ _ _ => rfl) fun _ _ _ => rfl
theorem released_teams : Released State.teams := released_of (fun _ _ _ _ _ _ => rfl) fun _ _ _ => rfl
theorem released_programs : Released State.programs := released_of (fun _ _ _ _ _ _ => rfl) fun _ _ _ => rfl

section
variable (s : State) (u : Nat) (st : Stage)

theorem releaseTeam_memory : SameMemory s (releaseTeam s u st) :=
  sameMemory_of (releaseTeam_keeps released_mem (fun _ _ => rfl) (fun _ _ _ => rfl) s u st)
    (releaseTeam_keeps released_zeroings (fun _ _ => rfl) (fun _ _ _ => rfl) s u st)

theorem releaseTeam_programs : (releaseTeam s u st).programs = s.programs :=
  releaseTeam_keeps released_programs (fun _ _ => rfl) (fun _ _ _ => rfl) s u st

variable {s u} {m : Team} (hm : s.team? u = some m)

include hm

theorem releaseTeam_team : ∃ now, (releaseTeam s u st).team? u = some (m.released now st) := by
  have h1 : (withoutThreads (releaseResources s u m) u).team? u = some m :=
    (congrArg (Tab.find · u) (releaseResources_keeps released_teams s u m)).trans hm
  refine ⟨(withoutThreads (releaseResources s u m) u).now, ?_⟩
  refine (congrArg (Tab.find · u) (releaseTeam_released released_teams hm st)).trans ?_
  exact (State.team?_updTeam_same _ _ _).trans (by rw [h1]; rfl)

theorem releaseTeam_threads : (releaseTeam s u st).threads = s.threads.filter fun p => p.2.team != u := by
  rw [releaseTeam_released released_threads hm]
  have h : (teamReleased s u m st).threads = (releaseResources s u m).threads.filter fun p => p.2.team != u := rfl
  rw [h, releaseResources_keeps released_threads]

theorem releaseTeam_teamThreads : (releaseTeam s u st).teamThreads u = [] := by
  rw [State.teamThreads, releaseTeam_threads st hm, List.filter_filter]
  simp

end

/-! ## The save of a team (R327, R383) -/

/-- A saved program leaves its engine or queue. -/
def withdrawProgram (s : State) (p : Nat) : State :=
  match s.program? p with
  | some x => removeProgram (dropStall (leaveReductions s p) x) p x
  | none => s

theorem withdrawProgram_keeps {γ : Type} (g : State → γ) (hf : ∀ (s : State) x, g { s with fab := x } = g s)
    (hw : ∀ (s : State) (k : Nat), g (dropWait s k) = g s) (hk : ∀ (s : State) (k : Nat) (x : Cluster), g (s.setCluster k x) = g s)
    (hp : ∀ (s : State) x y z, g { s with programs := x, reqs := y, fab := z } = g s) (s : State) (p : Nat) :
    g (withdrawProgram s p) = g s := by
  unfold withdrawProgram
  split
  · next x _ =>
    have hstall : g (dropStall (leaveReductions s p) x) = g s := by
      unfold dropStall
      split
      · exact (hw _ _).trans (hf _ _)
      · exact hf _ _
    refine (hp _ _ _ _).trans (Eq.trans ?_ hstall)
    unfold leaveMordantQueue
    split
    · rfl
    · exact hk _ _ _
  · rfl

theorem dropStall_programs (s : State) (p : Program) : (dropStall s p).programs = s.programs := by unfold dropStall; split <;> rfl

theorem Tab.find_of_mem {α : Type} {m : Tab α} {p : Nat × α} (h : p ∈ m) : Tab.find m p.1 ≠ none := by
  induction m with
  | nil => cases h
  | cons a m ih =>
    obtain ⟨i, w⟩ := a
    rw [Tab.find]
    split
    · exact Option.some_ne_none w
    · next hi => exact ih ((List.mem_cons.mp h).resolve_left fun e => hi (congrArg Prod.fst e).symm)

theorem withdrawProgram_programs {s : State} {p : Nat} {q : Nat × Program} (h : q ∈ (withdrawProgram s p).programs) :
    q ∈ s.programs ∧ q.1 ≠ p := by
  unfold withdrawProgram at h
  split at h
  · next x _ =>
    have hd : (removeProgram (dropStall (leaveReductions s p) x) p x).programs = Tab.del s.programs p := by
      rw [removeProgram]
      dsimp only
      rw [leaveMordantQueue_programs, dropStall_programs]
      rfl
    rw [hd] at h
    obtain ⟨hq, hne⟩ := List.mem_filter.mp h
    exact ⟨hq, bne_iff_ne.mp hne⟩
  · next hnone =>
    exact ⟨h, fun he => Tab.find_of_mem h (by rw [he]; exact hnone)⟩

theorem withdrawPrograms_programs {ps : List Nat} {q : Nat × Program} : ∀ s : State,
    q ∈ (ps.foldl withdrawProgram s).programs → q ∈ s.programs ∧ q.1 ∉ ps := by
  induction ps with
  | nil => intro s h; exact ⟨h, List.not_mem_nil⟩
  | cons p ps ih =>
    intro s h
    obtain ⟨h1, hn⟩ := ih _ h
    obtain ⟨h2, hp⟩ := withdrawProgram_programs h1
    exact ⟨h2, fun h => (List.mem_cons.mp h).elim hp hn⟩

/-- The deque of a saved team's core goes with the last team of its launch there. -/
def dequeTaken (s : State) (u : Nat) (m : Team) : State :=
  if takesDeque s u m then s.setCore m.core { s.core m.core with deque := [], spill := [], dqOwner := none } else s

/-- The requests of the team's threads are withdrawn. -/
def withoutRequests (s : State) (u : Nat) : State :=
  { s with reqs := s.reqs.filter fun p => !(match p.2.owner with | .thread a _ => a == u | _ => false) }

/-- What a save withdraws before the team is released. -/
def savedBefore (s : State) (u : Nat) (m : Team) : State :=
  withoutRequests ((programsOf s u).foldl withdrawProgram (dequeTaken s u m)) u

theorem releaseSaved_eq (s : State) (u : Nat) (m : Team) (image : List Byte) : releaseSaved s u m image =
    (releaseTeam (savedBefore s u m) u .saved).updTeam u fun x => { x with
      image := image, blocks := if takesDeque s u m then (s.core m.core).spill else [], preempt := none,
      erets := ((s.teamThreads u).filter fun t => !t.priv).map (·.tix), area := none } := rfl

theorem savedBefore_keeps {γ : Type} (g : State → γ) (hf : ∀ (s : State) x, g { s with fab := x } = g s)
    (hw : ∀ (s : State) (k : Nat), g (dropWait s k) = g s) (hk : ∀ (s : State) (k : Nat) (x : Cluster), g (s.setCluster k x) = g s)
    (hp : ∀ (s : State) x y z, g { s with programs := x, reqs := y, fab := z } = g s)
    (hc : ∀ (s : State) (c : Nat) (x : Core), g (s.setCore c x) = g s) (s : State) (u : Nat) (m : Team) :
    g (savedBefore s u m) = g s := by
  have hdeque : g (dequeTaken s u m) = g s := by
    unfold dequeTaken
    split
    · exact hc _ _ _
    · rfl
  exact (hp _ _ _ _).trans ((foldl_same g withdrawProgram (withdrawProgram_keeps g hf hw hk hp) _ _).trans hdeque)

theorem dequeTaken_programs (s : State) (u : Nat) (m : Team) : (dequeTaken s u m).programs = s.programs := by
  unfold dequeTaken; split <;> rfl

/-- A team that has been saved: it stands with its image, without threads and programs. -/
theorem releaseSaved_spec {s : State} {u : Nat} {m m0 : Team} (hm : s.team? u = some m0) (image : List Byte) :
    (∃ m', (releaseSaved s u m image).team? u = some m' ∧ m'.stage = .saved ∧ m'.image = image ∧ m'.preempt = none) ∧
    (releaseSaved s u m image).teamThreads u = [] ∧
    (∀ p ∈ (releaseSaved s u m image).programs, p.2.team = u → p.2.system.isSome = true) ∧
    SameMemory s (releaseSaved s u m image) := by
  have hb : (savedBefore s u m).team? u = some m0 :=
    (savedBefore_keeps (State.team? · u) (fun _ _ => rfl) (fun _ _ => rfl) (fun _ _ _ => rfl) (fun _ _ _ _ => rfl) (fun _ _ _ => rfl)
      s u m).trans hm
  obtain ⟨now, hr⟩ := releaseTeam_team .saved hb
  rw [releaseSaved_eq]
  refine ⟨⟨_, (State.team?_updTeam_same _ _ _).trans (by rw [hr]; rfl), rfl, rfl, rfl⟩, releaseTeam_teamThreads .saved hb, ?_, ?_⟩
  · intro p hp hu
    have hp' : p ∈ (releaseTeam (savedBefore s u m) u .saved).programs := hp
    rw [releaseTeam_programs] at hp'
    obtain ⟨hmem, hnot⟩ := withdrawPrograms_programs _ hp'
    rw [dequeTaken_programs] at hmem
    refine Decidable.byContradiction fun hsys => ?_
    refine hnot (List.mem_map_of_mem (List.mem_filter.mpr ⟨hmem, ?_⟩))
    rw [hu, beq_self_eq_true, Bool.true_and, Option.isNone_iff_eq_none]
    exact Option.not_isSome_iff_eq_none.mp hsys
  · have h1 : SameMemory s (savedBefore s u m) := sameMemory_of
      (savedBefore_keeps State.mem (fun _ _ => rfl) (fun _ _ => rfl) (fun _ _ _ => rfl) (fun _ _ _ _ => rfl) (fun _ _ _ => rfl) s u m)
      (savedBefore_keeps (·.pkg.zeroings) (fun _ _ => rfl) (fun _ _ => rfl) (fun _ _ _ => rfl) (fun _ _ _ _ => rfl) (fun _ _ _ => rfl)
        s u m)
    exact (h1.trans (releaseTeam_memory _ u .saved)).trans (sameMemory_of rfl rfl)

theorem dropStalls_keeps {γ : Type} (g : State → γ) (hw : ∀ (s : State) (k : Nat), g (dropWait s k) = g s) (s : State) (u : Nat) :
    g (dropStalls s u) = g s := by
  refine foldl_same g _ (fun s t => ?_) _ s
  split
  · exact hw _ _
  · rfl

/-! ## TEAM_SAVE -/

section
variable {s : State} {u : Nat} {m : Team} (hm : s.team? u = some m) (hpre : m.preempt.isSome = true) (hb : m.buffers = false)
  (ha : m.area = none)

include hm hb ha

theorem exec_teamSave : exec (.teamSave u) s = .next (match m.stage with
    | .resident => if m.preempt.isNone || inTrap s u then s else haltTeam s u m
    | .spilled => if m.preempt.isNone || fillsPending s u then s
      else (match s.launch? m.launch with | some l => gatherSpilled s u m l | none => s)
    | .stopping => continueSave s u none
    | .waiting | .discarded | .ending | .saved | .ended => s) := by
  have hx : exec (.teamSave u) s = execTeamSave u s := rfl
  rw [hx, execTeamSave, hm]
  dsimp only
  rw [if_neg (by rw [hb, ha]; decide)] <;> rfl

include hpre

theorem exec_teamSave_resident (hs : m.stage = .resident) :
    exec (.teamSave u) s = .next (if inTrap s u then s else haltTeam s u m) := by
  rw [exec_teamSave hm hb ha, hs]
  dsimp only
  rw [Option.isNone_eq_false_iff.mpr hpre, Bool.false_or]

theorem exec_teamSave_stopping (hs : m.stage = .stopping) (hmig : (s.fn (fnOfTeam s m)).mig = .none) :
    exec (.teamSave u) s = .next (if teamQuiet (haltThreads s u m) u m then saveTeam (haltThreads s u m) u m none
      else haltThreads s u m) := by
  have hfn : ((haltThreads s u m).fn (fnOfTeam (haltThreads s u m) m)).mig = .none :=
    (haltThreads_keeps (fun s => (s.fn (fnOfTeam s m)).mig) (fun _ _ => rfl) (fun _ _ _ => rfl) s u m).trans hmig
  rw [exec_teamSave hm hb ha, hs]
  dsimp only
  rw [continueSave, hm]
  dsimp only
  rw [if_neg (not_not_intro hs), ha, hb]
  by_cases hq : teamQuiet (haltThreads s u m) u m = true
  · rw [if_pos hq, if_neg (by rw [hq]; decide), if_neg (by rw [Option.isNone_eq_false_iff.mpr hpre]; decide), if_pos (.inl hfn)]
  · rw [if_neg hq, if_pos (by rw [Bool.eq_false_iff.mpr hq]; rfl)]

end

theorem saveTeam_done {s s1 s2 : State} {u : Nat} {m : Team} {bs : List Byte} (hi : imageOf s u = (s1, bs))
    (hw : saveWrite s1 (fnOfTeam s m) (saveOffset s (fnOfTeam s m)) bs = (s2, .done)) :
    saveTeam s u m none = releaseSaved (dropStalls s2 u) u m bs := by
  rw [saveTeam]
  dsimp only
  rw [hi]
  dsimp only
  rw [hw]

/-! ## TEAM_RESTORE (R328) -/

section
variable {s : State} {u : Nat} {m : Team} {l : Launch} {k : Nat}

/-- The conditions on a cluster that a saved team is restored to, but for the seats. -/
def maySeat (s : State) (m : Team) (l : Launch) (recs : List (Nat × Team × TeamRec)) (k : Nat) : Prop :=
  (s.fn l.fn).restores = true ∧ ownsCluster s l.fn k = true ∧ l.unread = false ∧
    (∀ p ∈ placedMates s m l, clusterOf p.2.core = k) ∧ clusterFits s m.launch l (recs.map (·.2.2)) k = true

/-- The records of the saved members, and the cores of a cluster that hold none of their team. -/
def savedRecords (s : State) (m : Team) (l : Launch) : List (Nat × Team × TeamRec) :=
  (savedMates s m l).filterMap fun p => (readImage p.2.image).map fun r => (p.1, p.2, r)
def freeSeats (s : State) (m : Team) (l : Launch) (k : Nat) : List Nat :=
  (coresOf k).filter fun c => !(placedMates s m l).any fun p => p.2.core == c

theorem seatsOn_may (h : maySeat s m l (savedRecords s m l) k) :
    seatsOn s m l k = seatAll s l (savedRecords s m l) (freeSeats s m l k) := by
  obtain ⟨hr, ho, hu, hp, hf⟩ := h
  have hall : ((placedMates s m l).all fun p => clusterOf p.2.core == k) = true :=
    List.all_eq_true.mpr fun p h => beq_iff_eq.mpr (hp p h)
  refine if_pos ?_
  rw [hr, ho, hu, hall]
  exact hf

theorem seatsOn_none (h : ¬maySeat s m l (savedRecords s m l) k) : seatsOn s m l k = none := by
  refine if_neg fun hc => h ?_
  simp only [Bool.and_eq_true, Bool.not_eq_true', List.all_eq_true, beq_iff_eq] at hc
  obtain ⟨⟨⟨⟨hr, ho⟩, hu⟩, hp⟩, hf⟩ := hc
  exact ⟨hr, ho, hu, hp, hf⟩

theorem exec_teamRestore (hm : s.team? u = some m) (hl : s.launch? m.launch = some l) (hs : m.stage = .saved) (hk : k < 128) :
    exec (.teamRestore u k) s = .next (if restoresNext s l = true then
      (match seatsOn s m l k with | some seats => takeSeats s m l seats | none => s) else s) := by
  have hx : exec (.teamRestore u k) s = execTeamRestore u k s := rfl
  rw [hx, execTeamRestore, hm]
  dsimp only
  rw [hl]
  dsimp only
  by_cases hn : restoresNext s l = true
  · rw [if_pos hn, if_pos ⟨hs, hk, hn⟩] <;> rfl
  · rw [if_neg hn, if_neg fun h => hn h.2.2]

theorem restoreMember_discarded {r : TeamRec} {core : Nat} (hm : s.team? u = some m) (hl : s.launch? m.launch = some l)
    (hd : r.discarded = true) :
    ((restoreMember s u r core).core core).admission = (s.core core).admission ++ [⟨u, s.now, false⟩] := by
  have hx : restoreMember s u r core = requestAdmission ((List.range r.nthr).foldl
      (fun s x => s.setThread (bareThread l r u x core m.erets)) (s.setTeam u (teamFromRec s m l r core))) core u := by
    rw [restoreMember, hm]
    dsimp only
    rw [hl]
    exact if_pos hd
  have hk {γ : Type} (g : State → γ) (hg : ∀ (s : State) (t : Thread), g (s.setThread t) = g s) :
      g ((List.range r.nthr).foldl (fun s x => s.setThread (bareThread l r u x core m.erets)) (s.setTeam u (teamFromRec s m l r core))) =
        g (s.setTeam u (teamFromRec s m l r core)) := foldl_same g _ (fun _ _ => hg _ _) _ _
  rw [hx, requestAdmission, State.core_setCore_same, hk (·.core core) fun _ _ => rfl, hk State.now fun _ _ => rfl]
  rfl

end

/-- A multiple of 8 that fits in 64 bits is kept whole. -/
theorem toNat_ofNat_aligned (bs : List Byte) (off : Nat) :
    (BitVec.ofNat 64 (sliceNat bs off 8 / 8 * 8)).toNat = sliceNat bs off 8 / 8 * 8 := by
  have h := sliceNat_lt bs off 8
  rw [BitVec.toNat_ofNat, Nat.mod_eq_of_lt]
  omega

/-- Settles O49: a save by what stops, what is written and what is released; a restore by its seats and its record. -/
theorem teamsAreSavedAndRestored : Obligations.TeamsAreSavedAndRestored := by
  unfold Obligations.TeamsAreSavedAndRestored
  refine ⟨?halt, ?save, ?restore⟩
  case halt =>
    intro s u m hm hpre hb ha hs
    rw [exec_teamSave_resident hm hpre hb ha hs]
    refine ⟨fun h => congrArg _ (if_pos h), fun h => ?_⟩
    rw [if_neg (Bool.eq_false_iff.mp h)]
    refine ⟨haltTeam s u m, { m with stage := .stopping }, rfl, ?_, rfl, rfl, rfl, ?_, fun t ht hu hp => haltThreads_held ht hu hp⟩
    · have hteam : (haltThreads s u m).team? u = some m :=
        (haltThreads_keeps (State.team? · u) (fun _ _ => rfl) (fun _ _ _ => rfl) s u m).trans hm
      exact (State.team?_updTeam_same _ _ _).trans (by rw [hteam]; rfl)
    · exact sameMemory_of (haltThreads_keeps State.mem (fun _ _ => rfl) (fun _ _ _ => rfl) s u m)
        (haltThreads_keeps (·.pkg.zeroings) (fun _ _ => rfl) (fun _ _ _ => rfl) s u m)
  case save =>
    intro s u m hm hpre hb ha hs hmig s0
    rw [exec_teamSave_stopping hm hpre hb ha hs hmig]
    refine ⟨fun h => congrArg _ (if_neg (Bool.eq_false_iff.mp h)), fun h s1 bs s2 hi hw ht => ?_⟩
    obtain ⟨m0, hm0⟩ := Option.isSome_iff_exists.mp ht
    have hteam : (dropStalls s2 u).team? u = some m0 := (dropStalls_keeps (State.team? · u) (fun _ _ => rfl) s2 u).trans hm0
    obtain ⟨⟨m', hm', hst, him, hno⟩, hth, hpr, hmem⟩ := releaseSaved_spec (m := m) hteam bs
    refine ⟨_, m', congrArg _ ((if_pos h).trans (saveTeam_done hi hw)), hm', hst, him, hno, hth, hpr, ?_⟩
    exact (sameMemory_of (dropStalls_keeps State.mem (fun _ _ => rfl) s2 u)
      (dropStalls_keeps (·.pkg.zeroings) (fun _ _ => rfl) s2 u)).trans hmem
  case restore =>
    intro s u m l k hm hl hs hk recs free may
    have hx := exec_teamRestore hm hl hs hk
    refine ⟨fun h => ?_, fun r core s1 hmay hnext hnone hrecs hseat hs1 => ⟨?_, fun hd => ?_⟩, fun r core x t _ _ ht => ?_⟩
    · rw [hx]
      split
      · next hnext =>
        have hseats : seatsOn s m l k = none := by
          by_cases hmay : may
          · rcases h with h | h | h
            · exact absurd hmay h
            · exact (seatsOn_may hmay).trans h
            · rw [h] at hnext; cases hnext
          · exact seatsOn_none hmay
        rw [hseats]
      · rfl
    · subst hs1
      rw [hx, if_pos hnext, (seatsOn_may hmay).trans hseat]
      dsimp only
      rw [takeSeats, hnone]
      rfl
    · rw [← hs1]
      exact restoreMember_discarded hm hl hd
    · subst ht
      refine ⟨toNat_ofNat_aligned _ _, ?_, ?_, rfl, toNat_ofNat_aligned _ _, toNat_ofNat_aligned _ _, rfl⟩
      · exact Nat.mod_eq_of_lt (Nat.lt_trans (Nat.mod_lt _ (by decide)) (by decide))
      · exact Nat.mod_eq_of_lt (Nat.lt_trans (Nat.mod_lt _ (by decide)) (by decide))

end Sys2Proof.Machine
end

section
/-! SUPPORT. Placement of cluster teams, and the admission of a team on its core. -/

namespace Sys2Proof.Machine

/-! ## The die and the cores of a cluster team (R324, R326) -/

theorem mem_insertNat {n x : Nat} {l : List Nat} (h : x ∈ insertNat n l) : x = n ∨ x ∈ l := by
  induction l with
  | nil => exact .inl (List.mem_singleton.mp h)
  | cons k ks ih =>
    rw [insertNat] at h
    split at h
    · exact List.mem_cons.mp h
    · split at h
      · exact .inr h
      · rcases List.mem_cons.mp h with rfl | h
        · exact .inr List.mem_cons_self
        · exact (ih h).imp_right (List.mem_cons_of_mem _)

theorem mem_foldl_insertNat {x : Nat} {cs : List Nat} : ∀ l : List Nat, x ∈ cs.foldl (fun l x => insertNat x l) l → x ∈ cs ∨ x ∈ l := by
  induction cs with
  | nil => intro l h; exact .inr h
  | cons c cs ih =>
    intro l h
    rcases ih _ h with h | h
    · exact .inl (List.mem_cons_of_mem _ h)
    · rcases mem_insertNat h with rfl | h
      · exact .inl List.mem_cons_self
      · exact .inr h

theorem clusterOf_coresByRoom {s : State} {k : Nat} {y : Nat × Nat} (h : y ∈ coresByRoom s k) : clusterOf y.1 = k := by
  unfold coresByRoom at h
  dsimp only at h
  refine List.foldlRecOn (motive := fun l : List (Nat × Nat) => ∀ y ∈ l, clusterOf y.1 = k) (coresOf k) _ (List.forall_mem_nil _)
    (fun l hl c hc y hy => ?_) y h
  rcases List.mem_append.mp hy with hy | hy
  · rcases List.mem_append.mp hy with hy | hy
    · exact hl y ((List.takeWhile_sublist _).subset hy)
    · rw [List.mem_singleton.mp hy]
      exact mem_coresOf.mp hc
  · exact hl y ((List.dropWhile_sublist _).subset hy)

/-- The cluster that is chosen is one of the die that the function holds and that no bound cell keeps from the launch. -/
theorem chooseCluster_some {s : State} {u : Nat} {l : Launch} {die c : Nat} {cores : List Nat}
    (h : chooseCluster s u l die c = some cores) :
    ∃ k, k / 32 = die ∧ ownsCluster s l.fn k = true ∧ cellConflict s u l k = false ∧ ∀ c ∈ cores, clusterOf c = k := by
  unfold chooseCluster at h
  dsimp only at h
  obtain ⟨b, hb, rfl⟩ := Option.map_eq_some_iff.mp h
  have hbest : ∀ x : Nat × List Nat, some x = some b → ∃ k, (k / 32 = die ∧ ownsCluster s l.fn k = true ∧ cellConflict s u l k = false) ∧
      ∀ c ∈ x.2, clusterOf c = k := by
    rw [← hb]
    refine List.foldlRecOn (motive := fun b : Option (Nat × List Nat) => ∀ x : Nat × List Nat, some x = b →
      ∃ k, (k / 32 = die ∧ ownsCluster s l.fn k = true ∧ cellConflict s u l k = false) ∧ ∀ c ∈ x.2, clusterOf c = k)
      _ _ (fun x hx => nomatch hx) (fun b hb k hk x hx => ?_)
    obtain ⟨hk, hok⟩ := List.mem_filter.mp hk
    obtain ⟨i, hi, rfl⟩ := List.mem_map.mp hk
    rw [List.mem_range] at hi
    simp only [Bool.and_eq_true, Bool.not_eq_true'] at hok
    have hnew : ∃ k, (k / 32 = die ∧ ownsCluster s l.fn k = true ∧ cellConflict s u l k = false) ∧
        ∀ x ∈ ((coresByRoom s (die * 32 + i)).take c).map (·.1), clusterOf x = k := by
      refine ⟨die * 32 + i, ⟨by omega, hok.1, hok.2⟩, fun x hx => ?_⟩
      obtain ⟨y, hy, rfl⟩ := List.mem_map.mp hx
      exact clusterOf_coresByRoom (List.mem_of_mem_take hy)
    cases b with
    | none => rw [Option.some.inj hx]; exact hnew
    | some z =>
      dsimp only at hx
      split at hx
      · rw [Option.some.inj hx]; exact hnew
      · exact hb x hx
  obtain ⟨k, ⟨hd, ho, hcf⟩, hall⟩ := hbest b rfl
  refine ⟨k, hd, ho, hcf, fun c hc => ?_⟩
  rcases mem_foldl_insertNat _ hc with hc | hc
  · exact hall c hc
  · cases hc

theorem chooseCores_some {s s1 : State} {u n die : Nat} {l : Launch} {cores : List Nat}
    (h : chooseCores s u l n = (s1, some (die, cores))) :
    ∃ k, k / 32 = die ∧ ownsCluster s1 l.fn k = true ∧ cellConflict s1 u l k = false ∧ ∀ c ∈ cores, clusterOf c = k := by
  unfold chooseCores at h
  split at h
  · cases h
  · split at h
    · next hc =>
      obtain ⟨rfl, e⟩ := Prod.mk.inj h
      obtain ⟨rfl, rfl⟩ := Prod.mk.inj (Option.some.inj e)
      exact chooseCluster_some hc
    · split at h
      · cases h
      · obtain ⟨rfl, e⟩ := Prod.mk.inj h
        obtain ⟨cs, hc, e⟩ := Option.map_eq_some_iff.mp e
        obtain ⟨rfl, rfl⟩ := Prod.mk.inj e
        exact chooseCluster_some hc

/-! ## CLUSTER_TEAM_PLACEMENT (R323 to R325, R354) -/

theorem mem_newPlacements {s : State} {d : Nat} {x : Nat × Launch} (h : x ∈ newPlacements s d) :
    x ∈ placeable s d ∧ ∀ l ∈ restorables s d, l.pri < x.2.pri := by
  obtain ⟨hx, hn⟩ := List.mem_filter.mp h
  refine ⟨hx, fun l hl => Nat.not_le.mp fun hle => ?_⟩
  rw [Bool.not_eq_true', List.any_eq_false] at hn
  exact hn l hl (decide_eq_true hle)

theorem exec_placement_none {s : State} {d : Nat} (h : newPlacements s d = []) : exec (.clusterTeamPlacement d) s = .next s := by
  have hx : exec (.clusterTeamPlacement d) s = execClusterTeamPlacement d s := rfl
  rw [hx, execClusterTeamPlacement, h]
  rfl

section
variable {s : State} {d u : Nat} {l : Launch} {rest : List (Nat × Launch)} {s1 : State} {die : Nat} {cores : List Nat}

theorem exec_placement (h : newPlacements s d = (u, l) :: rest) : exec (.clusterTeamPlacement d) s =
    .next (match tryPlace s d u l with | (s, true) => s | (s, false) => placeFirst d rest s) := by
  have hx : exec (.clusterTeamPlacement d) s = execClusterTeamPlacement d s := rfl
  rw [hx, execClusterTeamPlacement, h]
  rfl

theorem placeMembers_keeps {γ : Type} (g : State → γ) (hu : ∀ (s : State) x y, g { s with uid := x, teams := y } = g s)
    (hc : ∀ (s : State) (c : Nat) (x : Core), g (s.setCore c x) = g s) (u : Nat) (l : Launch) (ms : List (Nat × Nat)) :
    ∀ s, g (placeMembers u l ms s) = g s := by
  induction ms with
  | nil => intro s; rfl
  | cons m ms ih =>
    intro s
    rw [placeMembers]
    exact (ih _).trans ((hc _ _ _).trans (hu s _ _))

theorem placeMembers_teams (u : Nat) (l : Launch) (ms : List (Nat × Nat)) : ∀ s : State,
    (placeMembers u l ms s).teams.map (·.2) = s.teams.map (·.2) ++ ms.map fun p => newTeam u p.1 p.2 l := by
  induction ms with
  | nil => intro s; exact (List.append_nil _).symm
  | cons m ms ih =>
    intro s
    rw [placeMembers, ih]
    have ht (x : State) (c t : Nat) : (requestAdmission x c t).teams = x.teams := rfl
    rw [ht, List.map_append, List.append_assoc]
    rfl

variable (h : newPlacements s d = (u, l) :: rest) (hc : chooseCores s u l l.nextTeam = (s1, some (die, cores)))

include h hc

theorem exec_placement_chosen : exec (.clusterTeamPlacement d) s = .next (match walkAll die l.fn (leaseSteps l) s1 with
    | (s, .short) => cancelLaunch s u 0x14
    | (s, .missing ipa va info) =>
      let (k, s) := raiseEvent s 0x04 l.fn (BitVec.ofNat 64 ipa) info (.lease u) (BitVec.ofNat 64 va)
      s.updLaunch u fun l => { l with token := some k }
    | (s, .done) => (placeMembers u l ((List.range cores.length).map fun i => (l.nextTeam + i, cores.getD i 0))
        (s.setDie d { s.die d with lastQueue := l.queue })).updLaunch u
          fun l => { l with stage := .running, nextTeam := l.nextTeam + cores.length }) := by
  rw [exec_placement h, tryPlace, hc]
  dsimp only
  rcases walkAll die l.fn (leaseSteps l) s1 with ⟨s2, _ | _ | ⟨ipa, va, info⟩⟩ <;> rfl

theorem exec_placement_done {s2 : State} (hw : walkAll die l.fn (leaseSteps l) s1 = (s2, .done)) (hl : s2.launch? u = some l) :
    ∃ s', exec (.clusterTeamPlacement d) s = .next s' ∧
      s'.launch? u = some { l with stage := .running, nextTeam := l.nextTeam + cores.length } ∧
      s'.teams.map (·.2) = s2.teams.map (·.2) ++ (List.range cores.length).map fun i =>
        newTeam u (l.nextTeam + i) (cores.getD i 0) l := by
  have hx := exec_placement_chosen h hc
  rw [hw] at hx
  refine ⟨_, hx, ?_, ?_⟩
  · refine (State.launch?_updLaunch_same _ _ _).trans ?_
    have hlaunch := placeMembers_keeps (State.launch? · u) (fun _ _ _ => rfl) (fun _ _ _ => rfl) u l
      ((List.range cores.length).map fun i => (l.nextTeam + i, cores.getD i 0)) (s2.setDie d { s2.die d with lastQueue := l.queue })
    rw [hlaunch, show (s2.setDie d { s2.die d with lastQueue := l.queue }).launch? u = some l from hl]
    rfl
  · exact (placeMembers_teams u l _ (s2.setDie d { s2.die d with lastQueue := l.queue })).trans
      (congrArg (s2.teams.map (·.2) ++ ·) List.map_map)

end

/-! ## TEAM_ADMISSION: what an admission does to its core (R166, R167, R325) -/

/-- Setting a core with the requests that it had leaves those of every core. -/
theorem admission_setCore {s : State} {c : Nat} {x : Core} (h : x.admission = (s.core c).admission) (e : Nat) :
    ((s.setCore c x).core e).admission = (s.core e).admission := by
  by_cases he : e = c
  · subst he
    rw [State.core_setCore_same, h]
  · rw [State.core_setCore_other _ _ he]

theorem takeCells_keeps {γ : Type} (g : State → γ) (hk : ∀ (s : State) (k : Nat) (x : Cluster), g (s.setCluster k x) = g s)
    (hc : ∀ (s : State) (c : Nat) (x : FMap DWord), g (s.setCore c { s.core c with bound := x }) = g s)
    (s : State) (u : Nat) (l : Launch) (k : Nat) : g (takeCells s u l k) = g s := by
  refine foldl_same g _ (fun s i => ?_) _ s
  dsimp only
  split
  · exact (foldl_same g _ (fun s c => hc s c _) _ _).trans (hk _ _ _)
  · rfl

theorem assignGen_keeps {γ : Type} (g : State → γ) (hc : ∀ (s : State) (c : Nat) (x : BitVec 8), g (s.setCore c { s.core c with genCtr := x }) = g s)
    (hu : ∀ (s : State) (u : Nat) (f : Team → Team), g (s.updTeam u f) = g s) (s : State) (u : Nat) (m : Team) :
    g (assignGen s u m) = g s := by
  unfold assignGen
  split
  · exact (hu _ _ _).trans (hc _ _ _)
  · rfl

theorem assignGen_team {s : State} {u : Nat} {m x : Team} (h : s.team? u = some x) :
    ∃ g, (assignGen s u m).team? u = some { x with gen := g } := by
  unfold assignGen
  split
  · next g _ => exact ⟨g, (State.team?_updTeam_same _ _ _).trans (congrArg (Option.map _) h)⟩
  · exact ⟨x.gen, h⟩

theorem freshCaches_keeps {γ : Type} (g : State → γ) (ha : ∀ (s : State) (c : Nat), g (acquireCore s c .dev) = g s)
    (hc : ∀ (s : State) (c : Nat) x y, g (s.setCore c { s.core c with ic := x, itlb := y }) = g s) (s : State) (c fn : Nat) :
    g (freshCaches s c fn) = g s := (hc _ _ _ _).trans (ha _ _)

theorem startSlice_keeps {γ : Type} (g : State → γ) (hc : ∀ (s : State) (c : Nat) x, g (s.setCore c { s.core c with slices := x }) = g s)
    (s : State) (c fn : Nat) : g (startSlice s c fn) = g s := by
  unfold startSlice
  dsimp only
  split
  · rfl
  · exact hc _ _ _

theorem arriveCore_admission (c : Core) (slot : Nat) (addr : DWord) (tm : Bool) (now : Nat) :
    (c.arrive slot addr tm now).admission = c.admission := by
  unfold Core.arrive
  split
  · split <;> rfl
  · split <;> rfl

/-! ## The threads of an admitted team -/

/-- Thread `x` of a team on its placements, with its granules. -/
def admittedThread (u : Nat) (m : Team) (l : Launch) (groups : List (Nat × Nat)) (x : Nat) (gmap : List Nat) : Thread :=
  { team := u, tix := x, core := m.core, slot := (groups.getD (x / m.w) (0, 0)).1 + x % m.w + 64 * (groups.getD (x / m.w) (0, 0)).2,
    pc := m.phaddr, regs := [], gmap := gmap, fpctl := 0, fflags := 0, trapvec := BitVec.ofNat 64 (l.trapvec / 8 * 8), trappc := 0,
    trapcause := 0, priv := l.priv, place := .table, hcall := none }

/-- Thread `x` takes its granules and arrives. -/
def admitThread (u : Nat) (m : Team) (l : Launch) (groups : List (Nat × Nat)) (s : State) (x : Nat) : State :=
  let t := admittedThread u m l groups x
    (takeGranules s m.core (((groups.getD (x / m.w) (0, 0)).1 + x % m.w + 64 * (groups.getD (x / m.w) (0, 0)).2) % 64) (granulesFor m.nreg))
  arrive { s with threads := Tab.put s.threads (tkey u x) t } t m.phaddr

section
variable (u : Nat) (m : Team) (l : Launch) (groups : List (Nat × Nat))

theorem makeThreads_eq (s : State) : makeThreads s u m l groups = (List.range m.nthr).foldl (admitThread u m l groups) s := rfl

theorem makeThreads_keeps {γ : Type} (g : State → γ) (ht : ∀ (s : State) x, g { s with threads := x } = g s)
    (hc : ∀ (s : State) (c : Nat) (slot : Nat) (a : DWord) (tm : Bool) (now : Nat), g (s.setCore c ((s.core c).arrive slot a tm now)) = g s)
    (s : State) : g (makeThreads s u m l groups) = g s :=
  foldl_same g _ (fun s _ => (hc _ _ _ _ _ _).trans ((ht _ _).trans (ht s _))) _ s

theorem admitThread_same (s : State) (x : Nat) : ∃ gm, (admitThread u m l groups s x).thread? u x = some (admittedThread u m l groups x gm) :=
  ⟨_, Tab.find_put_same _ _ _⟩

theorem admitThread_other (s : State) {x y : Nat} (h : y ≠ x) : (admitThread u m l groups s x).thread? u y = s.thread? u y := by
  have hk : tkey u y ≠ tkey u x := fun e => h (by unfold tkey at e; omega)
  exact (Tab.find_put_other _ _ hk).trans (Tab.find_put_other _ _ hk)

theorem admitThreads_thread (s : State) (n : Nat) : ∀ x, x < n →
    ∃ gm, ((List.range n).foldl (admitThread u m l groups) s).thread? u x = some (admittedThread u m l groups x gm) := by
  induction n with
  | zero => intro x hx; cases hx
  | succ n ih =>
    intro x hx
    rw [List.range_succ, List.foldl_append, List.foldl_cons, List.foldl_nil]
    by_cases hn : x = n
    · subst hn
      exact admitThread_same u m l groups _ x
    · rw [admitThread_other u m l groups _ hn]
      exact ih x (by omega)

end

/-! ## The admission of one team -/

section
variable {s : State} {u : Nat} {m : Team} {l : Launch} {groups : List (Nat × Nat)}

/-- What an admission writes to the team, but for its generation. -/
def Team.admitted (m : Team) (l : Launch) (groups : List (Nat × Nat)) (now : Nat) : Team :=
  { m with stage := .resident, groups := groups, streams := List.replicate l.str [], wdSince := some now }

/-- The deque of a core belongs to the launch of an admitted team that uses one. -/
def ownDeque (s : State) (m : Team) (l : Launch) : State :=
  if l.dq then s.setCore m.core { s.core m.core with dqOwner := some m.launch } else s

theorem ownDeque_keeps {γ : Type} (g : State → γ) (hc : ∀ (s : State) (c : Nat) x, g (s.setCore c { s.core c with dqOwner := x }) = g s)
    (s : State) (m : Team) (l : Launch) : g (ownDeque s m l) = g s := by
  unfold ownDeque
  split
  · exact hc _ _ _
  · rfl

/-- The team of an admission, with its generation. -/
def teamAdmitted (s : State) (u : Nat) (m : Team) (l : Launch) (groups : List (Nat × Nat)) : State :=
  assignGen (s.updTeam u fun m => m.admitted l groups s.now) u m

/-- The core of an admitted team, before its threads arrive. -/
def coreTaken (s : State) (m : Team) (l : Launch) : State :=
  startSlice (ownDeque (freshCaches s m.core l.fn) m l) m.core l.fn

theorem admitMember_eq (hm : s.team? u = some m) : admitMember s u l groups = makeThreads (coreTaken (teamAdmitted s u m l groups) m l) u m l groups := by
  rw [admitMember, hm]
  rfl

theorem coreTaken_keeps {γ : Type} (g : State → γ) (ha : ∀ (s : State) (c : Nat), g (acquireCore s c .dev) = g s)
    (hc : ∀ (s : State) (c : Nat) (x : Core), x.admission = (s.core c).admission → g (s.setCore c x) = g s) (s : State) :
    g (coreTaken s m l) = g s :=
  calc g (coreTaken s m l)
    _ = g (ownDeque (freshCaches s m.core l.fn) m l) := startSlice_keeps g (fun s c _ => hc s c _ rfl) _ _ _
    _ = g (freshCaches s m.core l.fn) := ownDeque_keeps g (fun s c _ => hc s c _ rfl) _ _ _
    _ = g s := freshCaches_keeps g ha (fun s c _ _ => hc s c _ rfl) _ _ _

theorem admitMember_keeps {γ : Type} (g : State → γ) (hu : ∀ (s : State) (u : Nat) (f : Team → Team), g (s.updTeam u f) = g s)
    (ha : ∀ (s : State) (c : Nat), g (acquireCore s c .dev) = g s) (ht : ∀ (s : State) x, g { s with threads := x } = g s)
    (hc : ∀ (s : State) (c : Nat) (x : Core), x.admission = (s.core c).admission → g (s.setCore c x) = g s)
    (hm : s.team? u = some m) : g (admitMember s u l groups) = g s := by
  rw [admitMember_eq hm]
  calc g (makeThreads (coreTaken (teamAdmitted s u m l groups) m l) u m l groups)
    _ = g (coreTaken (teamAdmitted s u m l groups) m l) :=
      makeThreads_keeps u m l groups g ht (fun s c _ _ _ _ => hc s c _ (arriveCore_admission _ _ _ _ _)) _
    _ = g (teamAdmitted s u m l groups) := coreTaken_keeps g ha hc _
    _ = g (s.updTeam u fun m => m.admitted l groups s.now) := assignGen_keeps g (fun s c _ => hc s c _ rfl) hu _ _ _
    _ = g s := hu _ _ _

theorem admitMember_team (hm : s.team? u = some m) :
    ∃ g, (admitMember s u l groups).team? u = some { m.admitted l groups s.now with gen := g } := by
  have h0 : (s.updTeam u fun m => m.admitted l groups s.now).team? u = some (m.admitted l groups s.now) :=
    (State.team?_updTeam_same _ _ _).trans (congrArg (Option.map _) hm)
  obtain ⟨g, hg⟩ := assignGen_team (m := m) h0
  refine ⟨g, ?_⟩
  rw [admitMember_eq hm]
  exact (makeThreads_keeps u m l groups (State.team? · u) (fun _ _ => rfl) (fun _ _ _ _ _ _ => rfl) _).trans
    ((coreTaken_keeps (State.team? · u) (fun s c => congrArg (Tab.find · u) (acquireCore_teams s c .dev)) (fun _ _ _ _ => rfl) _).trans hg)

theorem acquireCore_admission (s : State) (c e : Nat) : ((acquireCore s c .dev).core e).admission = (s.core e).admission :=
  admission_setCore (s := s) (c := c) (x := { s.core c with l1 := [], cc := if clearsConst .dev then [] else (s.core c).cc }) rfl e

theorem leaveQueue_admission (s : State) (c u : Nat) :
    ((leaveQueue s c u).core c).admission = (s.core c).admission.filter fun a => a.team != u := by
  rw [leaveQueue, State.core_setCore_same]

/-! ## One request, of a team that waits alone -/

variable {c since : Nat} {reserved : Bool}

theorem exec_teamAdmission_one (hq : (s.core c).admission = [⟨u, since, reserved⟩]) (hm : s.team? u = some m) (hs : m.stage = .waiting) :
    exec (.teamAdmission c) s = .next (admitNew s m) := by
  have hx : exec (.teamAdmission c) s = execTeamAdmission c s := rfl
  have ht : tryAdmit s u = admitNew s m := by
    rw [tryAdmit, hm]
    dsimp only
    rw [hs]
  rw [hx, execTeamAdmission, hq]
  exact congrArg Host.Outcome.next ht

variable (hl : s.launch? m.launch = some l) (hms : membersOf s m = [(u, m)]) (hown : ownsCluster s l.fn (clusterOf m.core) = true)

include hl hms hown

theorem admitNew_one : admitNew s m = if (s.fn l.fn).mig ≠ .none then s else if membersFit s m l [(u, m)] = true then
    (match writeFirst l [(u, m)] s with
      | (s, false) => s
      | (s, true) => shareGens (admitMember (leaveQueue (takeCells s m.launch l (clusterOf m.core)) m.core u) u l
          ((groupsFor (takeCells s m.launch l (clusterOf m.core)) m).getD [])) [u]) else s := by
  rw [admitNew, hl]
  dsimp only
  rw [hms, hown, if_neg (show ¬(!true) = true by decide)]
  by_cases h1 : (s.fn l.fn).mig ≠ .none
  · rw [if_pos h1, if_pos h1]
  · rw [if_neg h1, if_neg h1]
    cases membersFit s m l [(u, m)] with
    | false => rfl
    | true => rcases writeFirst l [(u, m)] s with ⟨x, _ | _⟩ <;> rfl

theorem admitNew_no_place (h : groupsFor s m = none) : admitNew s m = s := by
  rw [admitNew_one hl hms hown]
  split
  · rfl
  · exact if_neg (by simp [membersFit, h])

omit hl hms hown in
theorem membersFit_one (hq : (s.core m.core).admission = [⟨u, since, reserved⟩]) (hg : groupsFor s m = some groups) (ha : m.area = none)
    (hroom : coreRoom s m l.dq = true) (hcl : clusterRoom s m.launch l (clusterOf m.core) 1 = true)
    (hgen : (nextGen s m.core u).isSome = true) : membersFit s m l [(u, m)] = true := by
  simp [membersFit, reservedAgainst, hq, hg, ha, hroom, hcl, hgen]

/-- The state after a team that waits alone has been admitted. -/
def aloneAdmitted (s : State) (u : Nat) (m : Team) (l : Launch) (groups : List (Nat × Nat)) : State :=
  shareGens (admitMember (leaveQueue (takeCells s m.launch l (clusterOf m.core)) m.core u) u l groups) [u]

theorem admitNew_alone (hq : (s.core m.core).admission = [⟨u, since, reserved⟩]) (hg : groupsFor s m = some groups)
    (hmig : (s.fn l.fn).mig = .none) (hroom : coreRoom s m l.dq = true) (hcl : clusterRoom s m.launch l (clusterOf m.core) 1 = true)
    (hidem : m.idem = false) (ha : m.area = none) (hgen : (nextGen s m.core u).isSome = true) :
    admitNew s m = aloneAdmitted s u m l groups := by
  have hw : writeFirst l [(u, m)] s = (s, true) := by rw [writeFirst, hidem]; rfl
  have hg' : groupsFor (takeCells s m.launch l (clusterOf m.core)) m = some groups :=
    (takeCells_keeps (groupsFor · m) (fun _ _ _ => rfl) (fun _ _ _ => rfl) s _ _ _).trans hg
  rw [admitNew_one hl hms hown, if_neg (not_not_intro hmig), if_pos (membersFit_one hq hg ha hroom hcl hgen), hw]
  dsimp only
  rw [hg']
  rfl

omit hl hms hown

theorem aloneAdmitted_keeps {γ : Type} (g : State → γ) (hk : ∀ (s : State) (k : Nat) (x : Cluster), g (s.setCluster k x) = g s)
    (hu : ∀ (s : State) (u : Nat) (f : Team → Team), g (s.updTeam u f) = g s)
    (ha : ∀ (s : State) (c : Nat), g (acquireCore s c .dev) = g s) (ht : ∀ (s : State) x, g { s with threads := x } = g s)
    (hc : ∀ (s : State) (c : Nat) (x : Core), g (s.setCore c x) = g s) (hm : s.team? u = some m) :
    g (aloneAdmitted s u m l groups) = g s := by
  have hm' : (leaveQueue (takeCells s m.launch l (clusterOf m.core)) m.core u).team? u = some m :=
    (takeCells_keeps (State.team? · u) (fun _ _ _ => rfl) (fun _ _ _ => rfl) s m.launch l _).trans hm
  calc g (aloneAdmitted s u m l groups)
    _ = g (admitMember (leaveQueue (takeCells s m.launch l (clusterOf m.core)) m.core u) u l groups) := hu _ _ _
    _ = g (leaveQueue (takeCells s m.launch l (clusterOf m.core)) m.core u) := admitMember_keeps g hu ha ht (fun s c x _ => hc s c x) hm'
    _ = g (takeCells s m.launch l (clusterOf m.core)) := hc _ _ _
    _ = g s := takeCells_keeps g hk (fun s c _ => hc s c _) s _ _ _

theorem aloneAdmitted_spec (hm : s.team? u = some m) (hq : (s.core m.core).admission = [⟨u, since, reserved⟩]) :
    (∃ m', (aloneAdmitted s u m l groups).team? u = some m' ∧ m'.stage = .resident ∧ m'.groups = groups ∧
      m'.wdSince = some s.now ∧ m'.streams = List.replicate l.str []) ∧
    SameMemory s (aloneAdmitted s u m l groups) ∧ ((aloneAdmitted s u m l groups).core m.core).admission = [] ∧
    ∀ x, x < m.nthr → ∃ gm, (aloneAdmitted s u m l groups).thread? u x = some (admittedThread u m l groups x gm) := by
  have hm' : (leaveQueue (takeCells s m.launch l (clusterOf m.core)) m.core u).team? u = some m :=
    (takeCells_keeps (State.team? · u) (fun _ _ _ => rfl) (fun _ _ _ => rfl) s m.launch l _).trans hm
  have hnow : (leaveQueue (takeCells s m.launch l (clusterOf m.core)) m.core u).now = s.now :=
    takeCells_keeps State.now (fun _ _ _ => rfl) (fun _ _ _ => rfl) s m.launch l _
  refine ⟨?_, ?_, ?_, fun x hx => ?_⟩
  · obtain ⟨g, hg⟩ := admitMember_team (l := l) (groups := groups) hm'
    rw [hnow] at hg
    exact ⟨_, (State.team?_updTeam_same _ _ _).trans (congrArg (Option.map _) hg), rfl, rfl, rfl, rfl⟩
  · exact sameMemory_of
      (aloneAdmitted_keeps State.mem (fun _ _ _ => rfl) (fun _ _ _ => rfl) (fun s c => acquireCore_mem s c _) (fun _ _ => rfl)
        (fun _ _ _ => rfl) hm)
      (aloneAdmitted_keeps (·.pkg.zeroings) (fun _ _ _ => rfl) (fun _ _ _ => rfl)
        (fun s c => congrArg Pkg.zeroings (acquireCore_pkg s c _)) (fun _ _ => rfl) (fun _ _ _ => rfl) hm)
  · have hadm : ((aloneAdmitted s u m l groups).core m.core).admission =
        ((leaveQueue (takeCells s m.launch l (clusterOf m.core)) m.core u).core m.core).admission :=
      admitMember_keeps (fun x => (x.core m.core).admission) (fun _ _ _ => rfl) (fun s c => acquireCore_admission s c _) (fun _ _ => rfl)
        (fun _ _ _ h => admission_setCore h _) hm'
    have hcells : ((takeCells s m.launch l (clusterOf m.core)).core m.core).admission = (s.core m.core).admission :=
      takeCells_keeps (fun x => (x.core m.core).admission) (fun _ _ _ => rfl) (fun _ _ _ => admission_setCore (by rfl) _) s _ _ _
    rw [hadm, leaveQueue_admission, hcells, hq]
    simp
  · have hth : (aloneAdmitted s u m l groups).thread? u x =
        (admitMember (leaveQueue (takeCells s m.launch l (clusterOf m.core)) m.core u) u l groups).thread? u x := rfl
    rw [hth, admitMember_eq hm', makeThreads_eq]
    exact admitThreads_thread u m l groups _ m.nthr x hx

end

theorem exec_admissionReservation {s : State} {c : Nat} {a : Admit} {rest : List Admit} {m : Team}
    (hq : (s.core c).admission = a :: rest) (hm : s.team? a.team = some m) : exec (.admissionReservation c) s = .next
    (if a.since + 65536 ≤ s.now then reserve s (if m.stage = .waiting then (membersOf s m).map (·.1) else [a.team]) else s) := by
  have hx : exec (.admissionReservation c) s = execAdmissionReservation c s := rfl
  rw [hx, execAdmissionReservation, hq]
  dsimp only
  rw [hm]

/-- Settles O50: placement by the choice and the walk, admission by what it does to the core, the team and its threads. -/
theorem teamsArePlacedAndAdmitted : Obligations.TeamsArePlacedAndAdmitted := by
  unfold Obligations.TeamsArePlacedAndAdmitted
  refine ⟨?nothing, ?order, ?choice, ?placement, ?admission, ?reservation⟩
  case nothing =>
    intro s d h
    exact exec_placement_none h
  case order =>
    intro s d x hx
    exact mem_newPlacements hx
  case choice =>
    intro s u l n s1 die cores h
    exact chooseCores_some h
  case placement =>
    intro s d u l rest s1 die cores h hc
    have hx := exec_placement_chosen h hc
    refine ⟨fun s2 hw => ?_, fun s2 ipa va info hw => ?_, fun s2 hw hl => exec_placement_done h hc hw hl⟩
    · rw [hx, hw]
    · rw [hw] at hx
      exact ⟨_, _, rfl, hx⟩
  case admission =>
    intro s c u m l groups since reserved hq hm hcore hs hl hms hown
    subst hcore
    have hx := exec_teamAdmission_one hq hm hs
    refine ⟨fun hg => hx.trans (congrArg _ (admitNew_no_place hl hms hown hg)), fun hg hmig hroom hcl _ hidem ha hgen => ?_⟩
    rw [admitNew_alone hl hms hown hq hg hmig hroom hcl hidem ha hgen] at hx
    obtain ⟨⟨m', hm', hstage, hgroups, hsince, hstreams⟩, hmem, hadm, hth⟩ := aloneAdmitted_spec (l := l) (groups := groups) hm hq
    refine ⟨_, m', hx, hm', hstage, hgroups, hsince, hstreams, hmem, hadm, fun x hlt => ?_⟩
    obtain ⟨gm, ht⟩ := hth x hlt
    exact ⟨admittedThread u m l groups x gm, ht, rfl, rfl, rfl, rfl, rfl, rfl, rfl, rfl, rfl, rfl⟩
  case reservation =>
    intro s c a rest m hq hm
    exact exec_admissionReservation hq hm

end Sys2Proof.Machine
end

section
/-! SUPPORT. Launch queues, the gate, and the rounds of an open-ended launch. -/

namespace Sys2Proof.Machine

/-! ## TAIL and CFG (R319) -/

theorem exec_launchQueueNotify {s : State} (h : booted s = true) (f q : Nat) (x : DWord) :
    exec (.launchQueueNotify f q x) s = .next (s.setLq f q
      (if (lowWord x - (s.lq f q).head).toNat ≤ 2 ^ (s.lq f q).log then { s.lq f q with tail := lowWord x }
       else { s.lq f q with badt := true })) := by
  have hx : exec (.launchQueueNotify f q x) s = .next (inFull s (writeTail s f q (lowWord x) true)) := rfl
  have hb : tailOk (s.lq f q) (lowWord x) = decide ((lowWord x - (s.lq f q).head).toNat ≤ 2 ^ (s.lq f q).log) := rfl
  rw [hx, inFull, if_pos h, writeTail]
  dsimp only
  by_cases ht : (lowWord x - (s.lq f q).head).toNat ≤ 2 ^ (s.lq f q).log
  · have hok : tailOk (s.lq f q) (lowWord x) = true := hb.trans (decide_eq_true ht)
    rw [if_pos ht, if_neg (by rw [hok]; simp)]
  · rw [if_neg ht, if_pos (.inr (by rw [hb, decide_eq_false ht]; rfl))]

theorem exec_launchQueueConfig {s : State} (h : booted s = true) (f q : Nat) (x : DWord) :
    exec (.launchQueueConfig f q x) s = .next (s.setLq f q
      (if (s.lq f q).en then { s.lq f q with en := x.getLsbD 0 }
       else if x.getLsbD 0 then { s.lq f q with en := true, log := Nat.min (x.toNat / 256 % 16) 10, head := 0, tail := 0 }
       else { s.lq f q with log := Nat.min (x.toNat / 256 % 16) 10 })) := by
  have hx : exec (.launchQueueConfig f q x) s = .next (inFull s (writeQueueCfg s f q x)) := rfl
  rw [hx, inFull, if_pos h, writeQueueCfg]
  dsimp only
  split
  · rfl
  · split <;> rfl

/-! ## LAUNCH_READ (R320) -/

/-- Reading memory takes names, and gives none back. -/
theorem llcReadLine_uid (s : State) (w : BitVec 16) (l pa n : Nat) : (llcReadLine s w l pa n).uid = s.uid + 1 := by
  have hcount (x : State) (a k : Nat) : (countAccess x a k).uid = x.uid := countAccess_keeps State.uid (fun _ _ => rfl) x a k
  have halloc (x : State) (w : BitVec 16) (l : Nat) : (allocLine x w l).uid = x.uid := by
    unfold allocLine evictLine
    dsimp only
    repeat' split
    all_goals simp [hcount]
  unfold llcReadLine
  dsimp only
  repeat' split
  all_goals simp [hcount, halloc]

theorem llcRead_uid (s : State) (fn pa n : Nat) : s.uid ≤ (llcRead s fn pa n).uid := by
  unfold llcRead
  split
  · exact foldl_keeps (fun x => s.uid ≤ x.uid) (fun s l => llcReadLine s (s.fn fn).ways l pa n) (fun x l hx => by rw [llcReadLine_uid]; omega) _ s (Nat.le_refl _)
  · exact Nat.le_refl _

theorem finishApply_uid (s : State) : (finishApply s).uid = s.uid := by
  have hw (x : State) (lo hi : Nat) : (wipe x lo hi).uid = x.uid := rfl
  unfold finishApply wipeAll
  dsimp only
  exact foldl_same State.uid _ (fun x d => hw x _ _) _ s

theorem scrubTo_uid (s : State) (pa : Nat) : (scrubTo s pa).uid = s.uid := by
  unfold scrubTo
  split
  · exact foldl_same State.uid scrubPage
      (fun s p => scrubPage_keeps State.uid (countAccess_keeps State.uid fun _ _ => rfl) (fun _ _ => rfl) s p) _ s
  · rfl

theorem awaitPage_uid (s : State) (pa : Nat) : (awaitPage s pa).uid = s.uid := by
  have happly : (if s.pkg.apply then finishApply s else s).uid = s.uid := by
    split
    · exact finishApply_uid s
    · rfl
  unfold awaitPage
  split
  · rw [← happly]
    refine (scrubTo_uid _ pa).trans ?_
    generalize (if s.pkg.apply = true then finishApply s else s) = s1
    split <;> rfl
  · rfl

theorem readMem_uid (s : State) (fn pa n : Nat) : s.uid ≤ (readMem s fn pa n).1.uid :=
  (foldl_same State.uid awaitPage awaitPage_uid (pageStarts pa n) s).symm ▸ llcRead_uid _ fn pa n

theorem ignoresZeroing_fns : IgnoresZeroing State.fns := ignoresZeroing_of fun _ _ _ _ _ _ _ _ _ => rfl
theorem ignoresZeroing_dies : IgnoresZeroing State.dies := ignoresZeroing_of fun _ _ _ _ _ _ _ _ _ => rfl
theorem ignoresZeroing_now : IgnoresZeroing State.now := ignoresZeroing_of fun _ _ _ _ _ _ _ _ _ => rfl

section
variable {s : State} {f q : Nat}

/-- The conditions under which the slot at HEAD is read. -/
theorem readSlot_not (h : mayRead (s.fn f) = false ∨ (s.lq f q).en = false ∨ (s.lq f q).head = (s.lq f q).tail ∨
    (s.lq f q).stalled.isSome = true ∨ queueGated s f q = true) : exec (.launchRead f q) s = .next s := by
  refine congrArg Host.Outcome.next (if_pos ?_)
  simp only [Bool.or_eq_true, Bool.not_eq_true', beq_iff_eq]
  grind

variable {s1 : State} {pa : Nat} (hmay : mayRead (s.fn f) = true) (hen : (s.lq f q).en = true) (hne : (s.lq f q).head ≠ (s.lq f q).tail)
  (hst : (s.lq f q).stalled = none) (hg : queueGated s f q = false)
  (ha : ipaAccess s f ((s.lq f q).slotAddr (s.lq f q).head) .r = (s1, some (.hbm pa)))

include hmay hen hne hst hg ha

theorem readSlot_memory : exec (.launchRead f q) s = .next (if poisonedAt s1 pa 512 then skipSlot s1 f q
    else takeRecord (readMem s1 f pa 512).1 f q (readMem s1 f pa 512).2) := by
  have hx : exec (.launchRead f q) s = .next (readSlot s f q) := rfl
  have hn : ¬(!mayRead (s.fn f) || !(s.lq f q).en || (s.lq f q).head == (s.lq f q).tail || (s.lq f q).stalled.isSome ||
      queueGated s f q) = true := by
    simp [hmay, hen, hne, hst, hg]
  rw [hx, readSlot]
  dsimp only
  rw [if_neg hn, ha]

theorem exec_launchRead_poisoned (hp : poisonedAt s1 pa 512 = true) : exec (.launchRead f q) s = .next
    (s1.setLq f q { s1.lq f q with head := (s1.lq f q).head + 1, rdf := true, stalled := none }) :=
  (readSlot_memory hmay hen hne hst hg ha).trans (congrArg _ (if_pos hp))

/-- The queue and the die after a record has been copied, and the launch that it makes. -/
def recordTaken (s : State) (f q : Nat) (bs : List Byte) : State :=
  let l := s.lq f q
  let d := s.die (q % 4)
  let x := (s.setLq f q { l with head := l.head + 1, stalled := none }).setDie (q % 4) { d with laSeq := d.laSeq + 1 }
  { x with uid := s.uid + 1, launches := s.launches ++ [(s.uid, newLaunch s f q d.laSeq bs)] }

omit hmay hen hne hst hg ha

theorem takeRecord_active {bs : List Byte} (h : (s.fn f).state ≠ 3) : takeRecord s f q bs = gateStep (recordTaken s f q bs) s.uid :=
  if_neg h

include hmay hen hne hst hg ha

theorem exec_launchRead_taken (hp : poisonedAt s1 pa 512 = false) (hfn : (s1.fn f).state ≠ 3)
    (hfresh : ∀ u, s1.uid ≤ u → Tab.find s1.launches u = none) : ∃ s2 u,
    exec (.launchRead f q) s = .next (gateStep s2 u) ∧ s1.launch? u = none ∧
    s2.launch? u = some (newLaunch s1 f q (s1.die (q % 4)).laSeq (readBytes s1 pa 512)) ∧
    (s2.lq f q).head = (s1.lq f q).head + 1 ∧ (s2.die (q % 4)).laSeq = (s1.die (q % 4)).laSeq + 1 ∧ SameMemory s1 s2 := by
  generalize hr : (readMem s1 f pa 512).1 = r
  have hk {γ : Type} {g : State → γ} (h : IgnoresZeroing g) : g r = g s1 := hr ▸ h.readMem s1 f pa 512
  have hfn' : r.fn f = s1.fn f := congrArg (FMap.get _ · f) (hk ignoresZeroing_fns)
  have hdie : r.die (q % 4) = s1.die (q % 4) := congrArg (FMap.get _ · _) (hk ignoresZeroing_dies)
  have hlq : r.lq f q = s1.lq f q := congrArg (FMap.get _ · _) (hk ignoresZeroing_queues)
  have hlaunches : r.launches = s1.launches := hk ignoresZeroing_launches
  have hnone : Tab.find s1.launches r.uid = none := hfresh _ (hr ▸ readMem_uid s1 f pa 512)
  have hnew : newLaunch r f q (r.die (q % 4)).laSeq (readBytes s1 pa 512) =
      newLaunch s1 f q (s1.die (q % 4)).laSeq (readBytes s1 pa 512) := by
    rw [hdie, newLaunch, newLaunch, show r.now = s1.now from hk ignoresZeroing_now]
  refine ⟨recordTaken r f q (readBytes s1 pa 512), r.uid, ?_, hnone, ?_, ?_, ?_, ?_⟩
  · rw [readSlot_memory hmay hen hne hst hg ha, if_neg (Bool.eq_false_iff.mp hp), hr, readMem_value,
      takeRecord_active (by rw [hfn']; exact hfn)]
  · refine (Tab.find_append_new r.launches _ (by rw [hlaunches]; exact hnone)).trans ?_
    rw [hnew]
  · refine (congrArg LQ.head (State.lq_setLq_same r f q _)).trans ?_
    rw [hlq]
  · refine (congrArg Die.laSeq (State.die_setDie_same _ _ _)).trans ?_
    rw [hdie]
  · exact (hr ▸ readMem_memory s1 f pa 512 : SameMemory s1 r).trans (sameMemory_of rfl rfl)

end

/-! ## The gate, and the order of launches that wait (R321, R323) -/

theorem gateStep_without_dependences {s : State} {u : Nat} {l : Launch} (hl : s.launch? u = some l) (hs : l.stage = .gated)
    (ht : l.token = none) (hn : l.ndep = 0) :
    gateStep s u = checkLaunch (s.updLaunch u fun l => { l with recheck := false }) u l := by
  rw [gateStep, hl]
  dsimp only
  rw [if_neg (by simp [hs, ht]), hn]
  rfl

theorem exec_launchPriorityAging {s : State} {u : Nat} {l : Launch} (hl : s.launch? u = some l) :
    exec (.launchPriorityAging u) s = .next
      (if (l.stage = .checked ∨ l.stage = .running) ∧ l.nextTeam < l.nteam ∧ l.pri < 3 ∧
          l.since + 2 ^ 24 * (l.pri - l.ctlPri + 1) ≤ s.now then s.updLaunch u fun l => { l with pri := l.pri + 1 } else s) := by
  have hx : exec (.launchPriorityAging u) s = execLaunchPriorityAging u s := rfl
  rw [hx, execLaunchPriorityAging, hl]

theorem exec_dependenceRecheck {s : State} {u : Nat} {l : Launch} (hl : s.launch? u = some l) :
    exec (.dependenceRecheck u) s = .next (if (s.fn l.fn).mig = .none then gateStep s u else s) := by
  have hx : exec (.dependenceRecheck u) s = execDependenceRecheck u s := rfl
  rw [hx, execDependenceRecheck, hl]

/-! ## Rounds of samples (R333) -/

section
variable {s : State} {u d : Nat} {l : Launch} (hl : s.launch? u = some l)

include hl

theorem exec_quiescenceRound : exec (.quiescenceRound u d) s = .next (if l.isOpen ∧ l.stage = .running then
    (let ss := Tab.put l.samples d (sampleOn s u l d)
     if 4 ≤ ss.length then endRound s u l (combineSamples (ss.map (·.2))) else s.updLaunch u fun l => { l with samples := ss }) else s) := by
  have hx : exec (.quiescenceRound u d) s = execQuiescenceRound u d s := rfl
  rw [hx, execQuiescenceRound, hl]

omit hl in
/-- Two rounds that are clean and have equal sums. -/
theorem quiet_eq (y x : Sample) : quiet y x = (y.idle && y.empty && y.sent == y.recv && x.idle && x.empty && x.sent == x.recv &&
    y.sent == x.sent && y.recv == x.recv) := by
  unfold quiet Sample.clean
  simp only [Bool.and_assoc]

omit hl in
theorem endRound_eq (x : Sample) : endRound s u l x =
    (let q : Bool := match l.last with
      | some y => y.idle && y.empty && y.sent == y.recv && x.idle && x.empty && x.sent == x.recv && y.sent == x.sent && y.recv == x.recv
      | none => false
     let s1 := s.updLaunch u fun l => { l with samples := [], last := some x, quiescent := l.quiescent || q }
     if q then checkLaunchEnd (releaseIdle s1 u) u else s1) := by
  unfold endRound
  cases l.last with
  | none => rfl
  | some y =>
    dsimp only
    simp only [quiet_eq]

end

/-- Settles O51: the registers of a queue, LAUNCH_READ by what the read of the slot leaves, and the rounds by their samples. -/
theorem launchesAreReadAndWait : Obligations.LaunchesAreReadAndWait := by
  unfold Obligations.LaunchesAreReadAndWait
  refine ⟨?registers, ?closed, ?read, ?recheck, ?gate, ?aging, ?round⟩
  case registers =>
    intro s f q x h l
    exact ⟨exec_launchQueueNotify h f q x, exec_launchQueueConfig h f q x⟩
  case closed =>
    intro s f q h x
    exact ⟨congrArg Host.Outcome.next (if_neg (Bool.eq_false_iff.mp h)), congrArg Host.Outcome.next (if_neg (Bool.eq_false_iff.mp h))⟩
  case read =>
    intro s f q l
    exact ⟨readSlot_not, fun hmay hen hne hst hg s1 pa ha => ⟨exec_launchRead_poisoned hmay hen hne hst hg ha,
      exec_launchRead_taken hmay hen hne hst hg ha⟩⟩
  case recheck =>
    intro s u l hl
    exact exec_dependenceRecheck hl
  case gate =>
    intro s u l hl hs ht hn
    exact gateStep_without_dependences hl hs ht hn
  case aging =>
    intro s u l hl
    exact exec_launchPriorityAging hl
  case round =>
    intro s u l d hl
    rw [exec_quiescenceRound hl]
    refine ⟨fun h => congrArg _ (if_neg h), fun ho hs => ?_⟩
    intro ss
    rw [if_pos ⟨ho, hs⟩]
    refine ⟨fun h => congrArg _ (if_neg (Nat.not_le.mpr h)), fun h => ?_⟩
    intro x q s1
    exact congrArg _ ((if_pos h).trans (endRound_eq x))

end Sys2Proof.Machine
end

section
/-! SUPPORT. Stalls: their answers, their time-out, the ring of events, and the walker. -/

namespace Sys2Proof.Machine

/-! ## A fault that no instruction raised (R151) -/

theorem postTeamFault_faults {s : State} {u : Nat} {m : Team} {l : Launch} (hm : s.team? u = some m) (hl : s.launch? m.launch = some l)
    (c : Code) (addr : Nat) : FaultsTeam s (postTeamFault s u m c { addr := addr }) u m l c addr := by
  let s1 := (({ s with freeCtr := s.freeCtr + 2 }.setDie (dieOf m.core)
    { s.die (dieOf m.core) with frSeq := (s.die (dieOf m.core)).frSeq + 1 }).updLaunch m.launch
      fun l => { l with nrec := l.nrec + 1 }).updTeam u fun m => { m with stage := .ending }
  have hflags : (if (m.stage == .ending) = true then 0 else 1) = if m.stage = .ending then 0 else 1 := by
    simp only [beq_iff_eq]
  refine ⟨s1, ?_, (State.team?_updTeam_same _ _ _).trans (congrArg (Option.map _) hm), ?_, sameMemory_of rfl rfl, rfl⟩
  · have hl' : { s with freeCtr := s.freeCtr + 2 }.launch? m.launch = some l := hl
    rw [postTeamFault, postFault, hl', orphanRecord, ← hflags]
    rfl
  · exact (State.launch?_updLaunch_same { s with freeCtr := s.freeCtr + 2 } m.launch fun l => { l with nrec := l.nrec + 1 }).trans
      (congrArg (Option.map _) hl)

/-! ## Answers (R149, R356, R363) -/

/-- The state in which an answer is given: its value is kept. -/
def answered (s : State) (x : DWord) : State := { s with pkg := { s.pkg with hvValue := highWord x } }

section
variable {s : State} {x : DWord} (hb : booted s = true)

include hb

theorem exec_hvAnswer : exec (.hvAnswer x) s = .next (match Tab.find s.pkg.waits (x.toNat % 2 ^ 32) with
    | none => answered s x
    | some w => answerWait (dropWait (answered s x) (x.toNat % 2 ^ 32)) (x.toNat % 2 ^ 32) w (highWord x)) := by
  have hx : exec (.hvAnswer x) s = .next (inFull s (answerToken s x)) := rfl
  rw [hx, inFull, if_pos hb]
  rfl

theorem exec_hvAnswer_nobody (h : Tab.find s.pkg.waits (x.toNat % 2 ^ 32) = none) : exec (.hvAnswer x) s = .next (answered s x) := by
  rw [exec_hvAnswer hb, h]

theorem exec_hvAnswer_waiter {w : Wait} (h : Tab.find s.pkg.waits (x.toNat % 2 ^ 32) = some w) : exec (.hvAnswer x) s =
    .next (answerWait (dropWait (answered s x) (x.toNat % 2 ^ 32)) (x.toNat % 2 ^ 32) w (highWord x)) := by
  rw [exec_hvAnswer hb, h]

end

section
variable {s : State} {k u tix f q : Nat} {w : Wait} {v : Word}

theorem answerWait_thread {t : Thread} {m : Team} (hw : w.who = .thread u tix) (ht : s.thread? u tix = some t) (hp : t.place = .stalled k)
    (hm : s.team? u = some m) (hs : m.stage ≠ .stopping) : answerWait s k w v =
      if v = 0 then arrive s t t.pc else threadFault s t (if w.type = 0x0A then .save else .perm) { addr := w.va.toNat } := by
  have hx : answerWait s k w v = answerThread s u tix k w (v == 0) := by rw [answerWait, hw]
  have hstop : ((s.team? u).map fun m => m.stage == .stopping).getD false = false := by
    rw [hm]
    exact beq_false_of_ne hs
  rw [hx, answerThread, ht]
  dsimp only
  rw [if_neg (not_not_intro hp), hstop]
  by_cases hv : v = 0 <;> simp [hv]

theorem answerWait_program {p : Program} (hw : w.who = .program u) (hp : s.program? u = some p) (hst : p.stalled = some k) :
    answerWait s k w v = if v = 0 then s.updProgram u (fun p => { p with stalled := none })
      else mFault (s.updProgram u fun p => { p with stalled := none }) u .refused w.va.toNat := by
  have hx : answerWait s k w v = answerProgram s u k w (v == 0) := by rw [answerWait, hw]
  rw [hx, answerProgram, hp]
  dsimp only
  rw [if_neg (not_not_intro hst)]
  simp only [beq_iff_eq]

theorem answerWait_lease {l : Launch} (hw : w.who = .lease u) (hl : s.launch? u = some l) (ht : l.token = some k) :
    answerWait s k w v = if v = 0 then s.updLaunch u (fun l => { l with token := none })
      else cancelLaunch (s.updLaunch u fun l => { l with token := none }) u 0x14 := by
  have hx : answerWait s k w v = answerLease s u k (v == 0) := by rw [answerWait, hw]
  rw [hx, answerLease, hl]
  dsimp only
  rw [if_neg (not_not_intro ht)]
  simp only [beq_iff_eq]

theorem answerWait_hcall (hw : w.who = .hcall u tix) : answerWait s k w v = fillCall s u tix v := by rw [answerWait, hw]

theorem answerWait_queue (hw : w.who = .queue f q) (hst : (s.lq f q).stalled = some k) :
    answerWait s k w v = s.setLq f q (if v = 0 then { s.lq f q with stalled := none }
      else { s.lq f q with head := (s.lq f q).head + 1, rdf := true, stalled := none }) := by
  have hx : answerWait s k w v = answerQueue s f q k (v == 0) := by rw [answerWait, hw]
  rw [hx, answerQueue]
  dsimp only
  rw [if_neg (not_not_intro hst)]
  by_cases hv : v = 0
  · rw [if_pos hv, hv]; rfl
  · rw [if_neg hv, if_neg (by rw [beq_iff_eq]; exact hv)]; rfl

/-- A refused area access of a team: its team ends with F_SAVE. -/
theorem answerWait_area {m : Team} {l : Launch} {va : DWord} {bs : List Byte} {lq sig : Bool} (hw : w.who = .area m.launch va bs u lq sig)
    (hu : u ≠ 0) (hm : s.team? u = some m) (ha : m.area = some k) (hl : s.launch? m.launch = some l) :
    answerWait s k w 1 = postTeamFault (s.updTeam u fun m => { m with area := none }) u { m with area := none } .save
      { addr := va.toNat } := by
  have hx : answerWait s k w 1 = answerArea s m.launch k va bs u lq sig false := by rw [answerWait, hw]; rfl
  rw [hx, answerArea, hl]
  dsimp only
  rw [if_pos hu, answerTeamArea, hm]
  dsimp only
  rw [if_neg (not_not_intro ha)]
  rfl

end

/-! ## AREA_STALL_TIMEOUT (R417) -/

section
variable {s : State} {k : Nat} {w : Wait} (h : Tab.find s.pkg.waits k = some w)

include h

theorem exec_areaStallTimeout : exec (.areaStallTimeout k) s =
    .next (if w.type = 0x0A ∧ w.since + 120000 ≤ s.now then answerWait (dropWait s k) k w 1 else s) := by
  have hx : exec (.areaStallTimeout k) s = execAreaStallTimeout k s := rfl
  have hw : waitedOut s w = decide (w.since + 120000 ≤ s.now) := rfl
  rw [hx, execAreaStallTimeout, h]
  dsimp only
  rw [hw]
  simp only [decide_eq_true_eq]

theorem exec_areaStallTimeout_fault (ht : w.type = 0x0A) (hn : w.since + 120000 ≤ s.now) {u : Nat} {m : Team} {l : Launch} {va : DWord}
    {bs : List Byte} {lq sig : Bool} (hw : w.who = .area m.launch va bs u lq sig) (hu : u ≠ 0) (hm : s.team? u = some m)
    (ha : m.area = some k) (hl : s.launch? m.launch = some l) : ∃ s' s1, exec (.areaStallTimeout k) s = .next s' ∧
      SameMemory s s1 ∧ FaultsTeam s1 s' u { m with area := none } l .save va.toNat := by
  have hteam : ((dropWait s k).updTeam u fun m => { m with area := none }).team? u = some { m with area := none } :=
    (State.team?_updTeam_same _ _ _).trans (congrArg (Option.map _) (show (dropWait s k).team? u = some m from hm))
  refine ⟨_, (dropWait s k).updTeam u fun m => { m with area := none }, ?_, sameMemory_of rfl rfl,
    postTeamFault_faults hteam hl .save va.toNat⟩
  rw [exec_areaStallTimeout h, if_pos ⟨ht, hn⟩]
  exact congrArg _ (answerWait_area (s := dropWait s k) hw hu hm ha hl)

end

/-! ## The ring of events (R356) -/

theorem eventBytes_fields (seq : BitVec 48) (e : HvEvent) : let b := eventBytes seq e
    b.length = 32 ∧ sliceNat b 0 6 = seq.toNat ∧ sliceNat b 6 1 = e.type % 256 ∧ sliceNat b 7 1 = e.fn % 256 ∧
    sliceNat b 8 8 = e.addr.toNat ∧ sliceNat b 16 8 = e.time % 2 ^ 64 ∧ sliceNat b 24 4 = e.token % 2 ^ 32 ∧
    sliceNat b 28 1 = e.info % 256 := by
  intro b
  have hseq : seq.toNat < 2 ^ 48 := seq.isLt
  have haddr : e.addr.toNat < 2 ^ 64 := e.addr.isLt
  simp [-List.append_assoc, b, eventBytes, length_leBytes, sliceNat_append, sliceNat_last, sliceNat_first]
  exact ⟨hseq, haddr⟩

/-- Bytes that stand in memory are read as the fields of their list. -/
theorem leNat_readBytes {s : State} {a : Nat} {bs : List Byte} (h : ∀ j (hj : j < bs.length), readByte s (a + j) = bs[j]) {off n : Nat}
    (hn : off + n ≤ bs.length) : leNat (readBytes s (a + off) n) = sliceNat bs off n := by
  have hbytes : readBytes s (a + off) n = (bs.drop off).take n := by
    refine List.ext_getElem (by simp [readBytes]; omega) fun i hi _ => ?_
    have hi' : i < n := by simpa [readBytes] using hi
    rw [List.getElem_take, List.getElem_drop, ← h (off + i) (by omega)]
    simp [readBytes, Nat.add_assoc]
  rw [hbytes, sliceNat]

theorem exec_hvEventWrite_none {s : State} (h : s.pkg.hvEvents = [] ∨ s.pkg.hvrEn = false ∨
    (s.pkg.hvrTail - s.pkg.hvrHead).toNat = 2 ^ s.pkg.hvrLog) : exec .hvEventWrite s = .next s := by
  have hx : exec .hvEventWrite s = execHvEventWrite s := rfl
  rw [hx, execHvEventWrite]
  refine congrArg _ ?_
  cases he : s.pkg.hvEvents with
  | nil => rfl
  | cons e rest =>
    refine if_pos ?_
    rw [Bool.or_eq_true, Bool.not_eq_true', beq_iff_eq]
    exact h.resolve_left fun hn => by rw [he] at hn; cases hn

section
variable {s : State} {e : HvEvent} {rest : List HvEvent}

/-- Where the next event goes. -/
def eventSlot (s : State) : Nat := s.pkg.hvrBase.toNat / 4096 * 4096 + 32 * (s.pkg.hvrTail.toNat % 2 ^ s.pkg.hvrLog)

/-- The state after the oldest event has been written. -/
def eventWritten (s : State) (e : HvEvent) (rest : List HvEvent) : State :=
  let x := performWrite s 0 (eventSlot s) (eventBytes s.pkg.hvSeq e)
  { x with pkg := { x.pkg with hvEvents := rest, hvSeq := s.pkg.hvSeq + 1, hvrTail := s.pkg.hvrTail + 1 } }

theorem exec_hvEventWrite (he : s.pkg.hvEvents = e :: rest) (hen : s.pkg.hvrEn = true)
    (hroom : (s.pkg.hvrTail - s.pkg.hvrHead).toNat ≠ 2 ^ s.pkg.hvrLog)
    (hm : isHbm (eventSlot s) = true ∨ isHost (eventSlot s) = true) : exec .hvEventWrite s = .next (eventWritten s e rest) := by
  have hx : exec .hvEventWrite s = execHvEventWrite s := rfl
  have hw : writePhys s (eventSlot s) (eventBytes s.pkg.hvSeq e) = performWrite s 0 (eventSlot s) (eventBytes s.pkg.hvSeq e) :=
    if_pos (by rwa [Bool.or_eq_true])
  rw [hx, execHvEventWrite, he]
  dsimp only
  rw [if_neg (by simpa [hen] using hroom), eventWritten, ← hw]
  rfl

theorem eventWritten_bytes (hp : Plain s (eventSlot s) 32) : SameMemoryOutside s (eventWritten s e rest) (eventSlot s) 32 ∧
    ∀ off n, off + n ≤ 32 → leNat (readBytes (eventWritten s e rest) (eventSlot s + off) n) = sliceNat (eventBytes s.pkg.hvSeq e) off n := by
  have hlen : (eventBytes s.pkg.hvSeq e).length = 32 := (eventBytes_fields s.pkg.hvSeq e).1
  obtain ⟨hq, hb, hall⟩ := hp
  obtain ⟨hin, hout⟩ := performWrite_bytes (s := s) (fn := 0) (bs := eventBytes s.pkg.hvSeq e) hq hb (by rw [hlen]; exact hall)
  have hsame : SameMemory (performWrite s 0 (eventSlot s) (eventBytes s.pkg.hvSeq e)) (eventWritten s e rest) := sameMemory_of rfl rfl
  rw [hlen] at hout
  exact ⟨fun a ha => (hsame a).trans (hout a ha),
    fun off n hn => leNat_readBytes (fun j hj => (hsame _).trans (hin j hj)) (by rw [hlen]; exact hn)⟩

end

/-! ## The walker (R353) -/

/-- A walk that is complete fills the TLBs of its die and of its cluster. -/
def walkFilled (s : State) (d k f va : Nat) : WalkRes → State
  | .ok log d1 d2 ipa log2 =>
    (s.useTlb (.dieOnly d) (xlatOf f va log d1 d2 ipa log2)).useTlb (.mordant k) (xlatOf f va log d1 d2 ipa log2)
  | .bad1 | .miss2 _ _ => s

theorem exec_tlbWalk {s : State} {d k f va : Nat} {rest : List (Nat × Nat × Nat)} {r : WalkRes} {reads : List Nat}
    (h : (s.die d).walks = (k, f, va) :: rest) (hw : walk (s.setDie d { s.die d with walks := rest }) f va = (r, reads)) :
    exec (.tlbWalk d) s = .next (walkFilled (reads.foldl (fun s a => llcRead s f a 8) (s.setDie d { s.die d with walks := rest }))
      d k f va r) := by
  have hx : exec (.tlbWalk d) s = execTlbWalk d s := rfl
  rw [hx, execTlbWalk]
  obtain ⟨W, hW⟩ : ∃ W, W = walk := ⟨_, rfl⟩
  rw [← hW] at hw ⊢
  rw [h]
  dsimp only
  rw [hw]
  cases r with
  | ok => exact rfl
  | bad1 => exact rfl
  | miss2 => exact rfl

/-- Settles O52: an answer by what its token waits for, the time-out by the fault, the ring by the bytes of an event, the walker by
its walk. -/
theorem stallsAreReportedAndAnswered : Obligations.StallsAreReportedAndAnswered := by
  unfold Obligations.StallsAreReportedAndAnswered
  refine ⟨?answers, ?timeout, ?ring, ?idle, ?walk⟩
  case answers =>
    intro s x hb k s0
    refine ⟨fun h => exec_hvAnswer_nobody hb h, fun w h => ?_⟩
    have hx := exec_hvAnswer_waiter hb h
    refine ⟨fun u tix t m hw ht hp hm hs => ?_, fun u p hw hp hst => ?_, fun u l hw hl ht => ?_, fun u tix hw => ?_, fun f q hw hst => ?_⟩
    · have ha := hx.trans (congrArg _ (answerWait_thread (s := dropWait s0 k) (v := highWord x) hw ht hp hm hs))
      exact ⟨fun hv => ha.trans (congrArg _ (if_pos hv)), fun hv => ha.trans (congrArg _ (if_neg hv))⟩
    · exact hx.trans (congrArg _ (answerWait_program (p := p) hw hp hst))
    · exact hx.trans (congrArg _ (answerWait_lease (l := l) hw hl ht))
    · exact hx.trans (congrArg _ (answerWait_hcall hw))
    · exact hx.trans (congrArg _ (answerWait_queue hw hst))
  case timeout =>
    intro s k w h
    refine ⟨fun hn => (exec_areaStallTimeout h).trans (congrArg _ (if_neg hn)), ?_⟩
    intro ht hn u m l va bs lq sig hw hu hm ha hl
    exact exec_areaStallTimeout_fault h ht hn hw hu hm ha hl
  case ring =>
    intro s
    refine ⟨exec_hvEventWrite_none, fun e rest he hen hroom => ?_⟩
    intro a hm hp
    have ha : a = eventSlot s := rfl
    clear_value a
    subst ha
    obtain ⟨hout, hin⟩ := eventWritten_bytes (e := e) (rest := rest) hp
    obtain ⟨-, h0, h6, h7, h8, h16, h24, h28⟩ := eventBytes_fields s.pkg.hvSeq e
    have hseq := (hin 0 6 (by decide)).trans h0
    rw [Nat.add_zero] at hseq
    exact ⟨_, exec_hvEventWrite he hen hroom hm, rfl, rfl, rfl, hout, hseq, (hin 6 1 (by decide)).trans h6,
      (hin 7 1 (by decide)).trans h7, (hin 8 8 (by decide)).trans h8, (hin 16 8 (by decide)).trans h16,
      (hin 24 4 (by decide)).trans h24, (hin 28 1 (by decide)).trans h28⟩
  case idle =>
    intro s d h
    have hx : exec (.tlbWalk d) s = execTlbWalk d s := rfl
    rw [hx, execTlbWalk, h]
  case walk =>
    intro s d k f va rest r reads h s1 hw s2
    refine (exec_tlbWalk h hw).trans ?_
    cases r with
    | ok => exact rfl
    | bad1 => exact rfl
    | miss2 => exact rfl

end Sys2Proof.Machine
end

section
/-! SUPPORT. Pins, the channel hash, the page pool and system programs. -/

namespace Sys2Proof.Machine

/-! ## The pin map (R344) -/

theorem pinRefused_iff (s : State) (x : DWord) : pinRefused s x = true ↔ s.pkg.pinGo = true ∨ 73727 < (BitVec.ofNat 17 x.toNat).toNat ∨
    x.toNat / 2 ^ 17 % 2 ^ 15 ≠ 0 ∨ x.toNat / 2 ^ 33 % 2 ^ 29 ≠ 0 ∨ (BitVec.ofNat 17 x.toNat).toNat % 18432 = 18431 := by
  simp [pinRefused, or_assoc]

section
variable {s : State} {x : DWord} (hb : booted s = true)

include hb

theorem exec_pinSet_go (h63 : x.getLsbD 63 = true) (h62 : x.getLsbD 62 = false) : exec (.pinSet x) s =
    .next (if pinRefused s x then { s with pkg := { s.pkg with pinErr := true } } else { s with pkg := { s.pkg with
      pinGo := true, pinGroup := BitVec.ofNat 17 x.toNat, pinTarget := BitVec.ofNat 17 x.toNat, pinMode := x.getLsbD 32 } }) := by
  have hx : exec (.pinSet x) s = execPinSet x s := rfl
  have herr : (s.pkg.pinErr && !false) = s.pkg.pinErr := Bool.and_true _
  rw [hx, execPinSet]
  dsimp only
  rw [hb, h63, h62, herr]
  rfl

theorem exec_pinSet_group (h63 : x.getLsbD 63 = false) : exec (.pinSet x) s = .next { s with pkg := { s.pkg with
    pinGroup := BitVec.ofNat 17 x.toNat, pinErr := s.pkg.pinErr && !x.getLsbD 62 } } := by
  have hx : exec (.pinSet x) s = execPinSet x s := rfl
  rw [hx, execPinSet]
  dsimp only
  rw [hb, h63]
  rfl

end

theorem exec_pinSetDone (s : State) : exec .pinSetDone s = .next (if s.pkg.pinGo then finishPin s else s) := rfl

theorem finishPin_zeroes {s : State} {a : Nat} (h : groupBase s.pkg.pinTarget.toNat ≤ a)
    (h' : a < groupBase s.pkg.pinTarget.toNat + 6 * 2 ^ 20) : readByte (finishPin s) a = 0 := by
  have hz : FMap.get 0 (finishPin s).mem a = 0 := get_zeroRange_inside _ ⟨h, h'⟩
  rw [readByte, hz, ite_self]

/-- Outside the group no byte waited for its mode change. -/
theorem finishPin_outside (s : State) :
    SameMemoryOutside s (finishPin s) (groupBase s.pkg.pinTarget.toNat) (6 * 2 ^ 20) := by
  intro a ha
  have hget : FMap.get 0 (finishPin s).mem a = FMap.get 0 s.mem a := get_zeroRange_outside _ (by omega)
  have hq : pageQueued (finishPin s) a = pageQueued s a := by
    by_cases hb : isHbm a = true
    · have hne : (groupOf a == s.pkg.pinTarget.toNat) = false := beq_eq_false_iff_ne.mpr fun h => by
        have := (groupOf_iff (a := a) ⟨a, hb, h⟩).mpr ⟨hb, h⟩
        omega
      unfold pageQueued
      rw [show (finishPin s).pkg.pinTarget = s.pkg.pinTarget from rfl, hne, Bool.and_false, Bool.and_false]
      rfl
    · simp [pageQueued, Bool.eq_false_iff.mpr hb]
  rw [readByte, readByte, hq, hget]

/-! ## The channel hash (R347) -/

theorem exec_hashApplyDone (s : State) : exec .hashApplyDone s = .next (if s.pkg.apply then finishApply s else s) := rfl

theorem finishApply_zeroes (s : State) {a : Nat} (h : isHbm a = true) : readByte (finishApply s) a = 0 := by
  have hz : FMap.get 0 (finishApply s).mem a = 0 := (wipeAll_get s a).trans (if_pos h)
  rw [readByte, hz, ite_self]

theorem finishApply_outside (s : State) {a : Nat} (h : isHbm a = false) : readByte (finishApply s) a = readByte s a := by
  have hz : FMap.get 0 (finishApply s).mem a = FMap.get 0 s.mem a := (wipeAll_get s a).trans (if_neg (by simp [h]))
  rw [readByte, readByte, hz]
  simp [pageQueued, h]

/-! ## The page pool (R374, R375) -/

theorem pageClean_of_pool {s s' : State} (ht : s'.pkg.taken = s.pkg.taken) (hq : s'.pkg.queued = s.pkg.queued) (p : Nat) :
    pageClean s' p = pageClean s p := by rw [pageClean, pageClean, ht, hq]

theorem lowestClean_of_pool {s s' : State} (ht : s'.pkg.taken = s.pkg.taken) (hq : s'.pkg.queued = s.pkg.queued) (n : Nat) :
    ∀ p, lowestClean s' n p = lowestClean s n p := by
  induction n with
  | zero => exact fun _ => rfl
  | succ n ih => intro p; rw [lowestClean, lowestClean, pageClean_of_pool ht hq, ih, ih]

section
variable {s : State} {p : Nat}

theorem allocPage_taken (h : lowestClean s (searchSteps s) 0 = some p) : allocPage s = { s with pkg := { s.pkg with
    taken := FMap.set false s.pkg.taken p true, readback := leBytes 8 (p * 2 ^ 21) } } := by rw [allocPage, h]

theorem allocPage_none (h : lowestClean s (searchSteps s) 0 = none) : allocPage s =
    if s.pkg.queued = [] then { s with pkg := { s.pkg with readback := leBytes 8 0 } }
    else { s with pkg := { s.pkg with allocHeld := s.pkg.allocHeld + 1, readback := [] } } := by
  rw [allocPage, h]
  simp only [List.isEmpty_iff]

theorem serveHeld_none (n : Nat) (h : lowestClean s (searchSteps s) 0 = none) : serveHeld (n + 1) s = s := by rw [serveHeld, h]

theorem serveHeld_taken (n : Nat) (h : lowestClean s (searchSteps s) 0 = some p) : serveHeld (n + 1) s =
    serveHeld n { s with pkg := { s.pkg with
      taken := FMap.set false s.pkg.taken p true, readback := leBytes 8 (p * 2 ^ 21), allocHeld := s.pkg.allocHeld - 1 } } := by
  have h' : lowestClean { s with pkg := { s.pkg with allocHeld := s.pkg.allocHeld - 1 } }
      (searchSteps { s with pkg := { s.pkg with allocHeld := s.pkg.allocHeld - 1 } }) 0 = some p := by
    rw [← h]
    refine lowestClean_of_pool ?_ ?_ _ _ <;> rfl
  rw [serveHeld, h]
  dsimp only
  rw [allocPage_taken h']

end

theorem exec_pageAlloc {s : State} (hb : booted s = true) (h : s.pkg.allocHeld = 0) : exec .pageAlloc s = .next (allocPage s) := by
  have hx : exec .pageAlloc s = .next (if booted s then readAlloc s else s) := rfl
  rw [hx, if_pos hb, readAlloc, h, serveHeld]

/-- A page may not be freed: it lies outside the pool, is clean, or waits for its scrub. -/
theorem exec_pageFree {s : State} {x : DWord} (hb : booted s = true) (h0 : x.getLsbD 0 = false) : exec (.pageFree x) s = .next
    (if x.toNat / 2 % 2 ^ 20 ≠ 0 ∨ poolPage (x.toNat / 2 ^ 21) = false ∨ pageClean s (x.toNat / 2 ^ 21) = true ∨
        x.toNat / 2 ^ 21 ∈ s.pkg.queued then { s with pkg := { s.pkg with freeErr := true } }
      else { s with pkg := { s.pkg with
        taken := FMap.set false s.pkg.taken (x.toNat / 2 ^ 21) false, queued := s.pkg.queued ++ [x.toNat / 2 ^ 21] } }) := by
  have hx : exec (.pageFree x) s = execPageFree x s := rfl
  have hne : x ≠ 1 := by rintro rfl; cases h0
  have herr : (s.pkg.freeErr && !false) = s.pkg.freeErr := Bool.and_true _
  rw [hx, execPageFree]
  dsimp only
  rw [hb, h0, herr, if_neg (by decide), if_neg hne]
  simp only [Bool.not_eq_true', List.contains_iff_mem]

/-- Two sets of package registers that differ in what they count alone. -/
def SameButCounts (p p' : Pkg) : Prop := p' = { p with pccnt := p'.pccnt }

theorem countAccess_counts {p : Pkg} (s : State) (pa n : Nat) (h : SameButCounts p s.pkg) : SameButCounts p (countAccess s pa n).pkg := by
  unfold countAccess
  dsimp only
  split
  · unfold SameButCounts at *
    rw [h]
  · exact h

theorem wipe_counts (s : State) (lo hi : Nat) : SameButCounts s.pkg (wipe s lo hi).pkg := rfl

theorem unqueued_pkg {p : Pkg} {s : State} (k : Nat) (h : SameButCounts p s.pkg) :
    (unqueued s k).pkg = { p with queued := p.queued.filter (· != k), pccnt := (unqueued s k).pkg.pccnt } := by
  unfold SameButCounts at h
  unfold unqueued
  rw [h]

theorem scrubPage_pkg (s : State) (p : Nat) : (scrubPage s p).pkg = { s.pkg with
    queued := s.pkg.queued.filter (· != p), pccnt := (scrubPage s p).pkg.pccnt } := by
  have h (l : List Nat) : SameButCounts s.pkg (l.foldl (fun s i => countAccess s (p * 2 ^ 21 + 256 * i) 1)
      (wipe s (p * 2 ^ 21) (p * 2 ^ 21 + 2 ^ 21))).pkg :=
    foldl_keeps (fun s' : State => SameButCounts s.pkg s'.pkg) _ (fun s' i hs => countAccess_counts s' _ 1 hs) l
      (wipe s (p * 2 ^ 21) (p * 2 ^ 21 + 2 ^ 21)) (wipe_counts s _ _)
  have he : scrubPage s p = unqueued ((List.range 8192).foldl (fun s i => countAccess s (p * 2 ^ 21 + 256 * i) 1)
      (wipe s (p * 2 ^ 21) (p * 2 ^ 21 + 2 ^ 21))) p := by
    unfold scrubPage unqueued
    with_reducible rfl
  rw [he]
  exact unqueued_pkg p (h _)

theorem exec_pageScrubDone {s : State} {p : Nat} {rest : List Nat} (h : s.pkg.queued = p :: rest) :
    exec .pageScrubDone s = .next (serveHeld s.pkg.allocHeld (scrubPage s p)) := by
  have hx : exec .pageScrubDone s = execPageScrubDone s := rfl
  have hheld : (scrubPage s p).pkg.allocHeld = s.pkg.allocHeld := by rw [scrubPage_pkg]
  rw [hx, execPageScrubDone, h]
  dsimp only
  rw [hheld]

/-! ## System programs (R376, R377) -/

section
variable {s : State} {d : Nat} {x : DWord} (hb : booted s = true)

include hb

theorem exec_systemMordantStart_busy (h : systemBusy s d = true) : exec (.systemMordantStart d x) s =
    .next (s.setDie d { s.die d with smStat := (s.die d).smStat ||| 2 }) := by
  have hx : exec (.systemMordantStart d x) s = execSystemMordantStart d x s := rfl
  rw [hx, execSystemMordantStart]
  dsimp only
  rw [hb, h]
  rfl

theorem exec_systemMordantStart_idle (h : systemBusy s d = false) : ∃ s' p, exec (.systemMordantStart d x) s = .next s' ∧
    s'.program? s.uid = some p ∧ p.system = some d ∧ p.pc.toNat = x.toNat / 8 * 8 ∧ p.seq = (s.die d).mdSeq ∧
    p.mreg 1 = (s.die d).smArg ∧ (s'.die d).mdSeq = (s.die d).mdSeq + 1 ∧ SameMemory s s' := by
  have hx : exec (.systemMordantStart d x) s = execSystemMordantStart d x s := rfl
  have hlt : x.toNat / 8 * 8 < 2 ^ 64 := Nat.lt_of_le_of_lt (Nat.div_mul_le_self _ _) x.isLt
  rw [hx, execSystemMordantStart]
  dsimp only
  rw [hb, h]
  refine ⟨_, _, rfl, Tab.find_put_same _ _ _, rfl, ?_, rfl, ?_, ?_, sameMemory_of rfl rfl⟩
  · exact (BitVec.toNat_ofNat _ _).trans (Nat.mod_eq_of_lt hlt)
  · exact mreg_argument (args := [(s.die d).smArg]) (j := 0) rfl Nat.one_pos (Nat.lt_of_sub_eq_succ rfl)
  · exact congrArg Die.mdSeq (State.die_setDie_same s d _)

end

/-- Settles O53: each request by what refuses it, each end by the bytes that it zeroes. -/
theorem pinsHashPagesAndSystemPrograms : Obligations.PinsHashPagesAndSystemPrograms := by
  unfold Obligations.PinsHashPagesAndSystemPrograms
  refine ⟨?pin, ?group, ?pinDone, ?pinIdle, ?apply, ?applyDone, ?applyIdle, ?free, ?alloc, ?scrub, ?serve, ?system⟩
  case pin =>
    intro s x hb h63 h62 g refused
    exact ⟨fun h => (exec_pinSet_go hb h63 h62).trans (congrArg _ (if_pos ((pinRefused_iff s x).mpr h))),
      fun h => (exec_pinSet_go hb h63 h62).trans (congrArg _ (if_neg fun h' => h ((pinRefused_iff s x).mp h')))⟩
  case group => exact fun s x hb h63 => exec_pinSet_group hb h63
  case pinDone =>
    intro s h
    exact ⟨finishPin s, (exec_pinSetDone s).trans (congrArg _ (if_pos h)), rfl, rfl, fun a => finishPin_zeroes, finishPin_outside s⟩
  case pinIdle =>
    intro s h
    exact (exec_pinSetDone s).trans (congrArg _ (if_neg (Bool.eq_false_iff.mp h)))
  case apply =>
    intro s hb
    exact congrArg Host.Outcome.next (if_pos hb)
  case applyDone =>
    intro s h
    exact ⟨finishApply s, (exec_hashApplyDone s).trans (congrArg _ (if_pos h)), rfl, rfl, rfl, fun a => finishApply_zeroes s,
      fun a => finishApply_outside s⟩
  case applyIdle =>
    intro s h
    exact (exec_hashApplyDone s).trans (congrArg _ (if_neg (Bool.eq_false_iff.mp h)))
  case free =>
    intro s x hb h0 page
    refine ⟨fun h => (exec_pageFree hb h0).trans (congrArg _ (if_pos h)), fun h1 h2 h3 h4 => (exec_pageFree hb h0).trans ?_⟩
    refine congrArg _ (if_neg ?_)
    rw [not_or, not_or, not_or]
    exact ⟨not_not_intro h1, by rw [h2]; decide, by rw [h3]; decide, h4⟩
  case alloc =>
    intro s hb h
    refine ⟨fun p hp => (exec_pageAlloc hb h).trans (congrArg _ (allocPage_taken hp)), fun hn => ?_⟩
    rw [exec_pageAlloc hb h, allocPage_none hn, h]
  case scrub =>
    intro s p rest h
    refine ⟨scrubPage s p, exec_pageScrubDone h, ?_, scrubPage_mem s p⟩
    have hq : (p :: rest).filter (· != p) = rest.filter (· != p) := by simp
    rw [← hq, ← h]
    exact scrubPage_pkg s p
  case serve => exact fun s n => ⟨serveHeld_none n, fun p => serveHeld_taken n⟩
  case system => exact fun s d x hb => ⟨exec_systemMordantStart_busy hb, exec_systemMordantStart_idle hb⟩

end Sys2Proof.Machine
end

section
/-! SUPPORT. The end of a team and of a function's work, and what of the save area is left: memory's form, the programs, the
functions. -/

namespace Sys2Proof.Machine

section
variable {s0 s : State}

theorem Keeps.dropToken (h : Keeps s0 s) (k : Option Nat) : Keeps s0 (dropToken s k) := by
  cases k with
  | none => exact h
  | some k => exact h.dropWait k

theorem Keeps.dropStall (h : Keeps s0 s) (p : Program) : Keeps s0 (dropStall s p) := by
  unfold Machine.dropStall
  split
  · exact h.dropWait _
  · exact h

theorem Keeps.killProgram (h : Keeps s0 s) (u : Nat) : Keeps s0 (killProgram s u) := by
  unfold Machine.killProgram
  split
  · exact h
  · exact (h.dropStall _).endProgram _ _

theorem Keeps.killPrograms (h : Keeps s0 s) (u : Nat) : Keeps s0 (killPrograms s u) :=
  Keeps.foldl (fun _ u h => h.killProgram u) _ h

theorem Keeps.stopThreads (h : Keeps s0 s) (u : Nat) (m : Team) : Keeps s0 (stopThreads s u m) := by
  have hf : Keeps s0 ((s.teamThreads u).foldl (fun s t => s.setThread (stopThread t)) s) :=
    Keeps.foldl (fun _ t h => h.setThread (stopThread t)) _ h
  exact hf.frame rfl rfl

theorem Keeps.dropCalls (h : Keeps s0 s) (u : Nat) : Keeps s0 (dropCalls s u) := by
  refine Keeps.foldl (fun s t h => ?_) _ h
  split
  · exact h.dropWait _
  · exact h

theorem Keeps.leaveQueue (h : Keeps s0 s) (core u : Nat) : Keeps s0 (leaveQueue s core u) := h.setCore _ _

theorem Keeps.endFaulted (h : Keeps s0 s) (u : Nat) (m : Team) : Keeps s0 (endFaulted s u m) :=
  (((h.releaseTeam u .ended).leaveQueue m.core u).updLaunch m.launch _).checkLaunchEnd m.launch

theorem Keeps.endTeam (h : Keeps s0 s) (u : Nat) (m : Team) : Keeps s0 (endTeam s u m) := by
  unfold Machine.endTeam
  split
  · exact h
  · exact h
  · exact h.endFaulted _ _
  · exact h.endFaulted _ _
  · exact h.endFaulted _ _
  all_goals exact ((((h.dropCalls u).dropToken _).updTeam u _).stopThreads u m).killPrograms u

/-- A launch that a function's end refuses. -/
theorem Keeps.refuse (h : Keeps s0 s) (u status : Nat) : Keeps s0 (match s.launch? u with
    | some l => (Machine.dropToken s l.token).updLaunch u fun l => { l with refused := status, token := none }
    | none => s) := by
  split
  · exact (h.dropToken _).updLaunch _ _
  · exact h

theorem Keeps.endFunction (h : Keeps s0 s) (f : Nat) : Keeps s0 (endFunction s f) := by
  have h1 := Keeps.foldl (fun _ u h => h.refuse u 0x17) ((fnLaunches s f).map (·.1)) h
  exact Keeps.foldl (fun _ u h => h.checkLaunchEnd u) _ (Keeps.foldl (fun _ p h => h.endTeam p.1 p.2) _ (h1.frame rfl rfl))

theorem Keeps.freePage (h : Keeps s0 s) (fn ipa : Nat) : Keeps s0 (freePage fn s ipa) := by
  unfold Machine.freePage
  have ht := h.ipaAccess fn ipa .w
  generalize Machine.ipaAccess s fn ipa .w = x at ht
  obtain ⟨s', o⟩ := x
  cases o with
  | none => exact ht
  | some o =>
    dsimp only
    split
    · split
      · exact ht
      · exact ht.trans (.of_wf (Memory.wf_replaceRun _ _ _) rfl)
    · exact ht

theorem Keeps.freeSaveArea (h : Keeps s0 s) (f : Nat) : Keeps s0 (freeSaveArea s f) :=
  Keeps.foldl (fun _ ipa h => h.freePage f ipa) _ h

end

end Sys2Proof.Machine
end

section
/-! SUPPORT. What the end of launches leaves of the teams and of the other launches. -/

namespace Sys2Proof.Machine

/-! ## What the write of a record leaves of teams and launches -/

/-- A launch but for the mark that its gate is to be read again. -/
def Launch.unmarked (l : Launch) : Launch := { l with recheck := false }

/-- The teams are as they were, and the launches but for their marks. -/
structure Posts (s s' : State) : Prop where
  teams : s'.teams = s.teams
  launches : ∀ v, (s'.launch? v).map Launch.unmarked = (s.launch? v).map Launch.unmarked

section
variable {s0 s s' : State}

theorem Posts.refl (s : State) : Posts s s := ⟨rfl, fun _ => rfl⟩

theorem Posts.trans (h : Posts s0 s) (h' : Posts s s') : Posts s0 s' :=
  ⟨h'.teams.trans h.teams, fun v => (h'.launches v).trans (h.launches v)⟩

theorem Posts.of_eq (ht : s'.teams = s.teams) (hl : s'.launches = s.launches) : Posts s s' :=
  ⟨ht, fun v => by rw [State.launch?, State.launch?, hl]⟩

theorem Posts.frame (h : Posts s0 s) (ht : s'.teams = s.teams) (hl : s'.launches = s.launches) : Posts s0 s' :=
  h.trans (.of_eq ht hl)

theorem Posts.fst {α : Type} {x : State × α} {s1 : State} {a : α} (h : Posts s0 x.1) (e : x = (s1, a)) : Posts s0 s1 := by
  subst e; exact h

theorem releaseAcq_launches (s : State) (t : Thread) (sc : Scope) (n : Nat) : (releaseAcq s t sc n).launches = s.launches := by
  unfold releaseAcq
  split
  · rfl
  · cases sc <;> rfl

theorem Posts.afterWrite (h : Posts s0 s) (pa n : Nat) : Posts s0 (afterWrite s pa n) := by
  unfold Machine.afterWrite
  split
  · refine h.trans ⟨wakeSleepers_keeps State.teams releaseAcq_teams s pa n, fun v => ?_⟩
    have hl : (wakeSleepers s pa n).launches = s.launches := wakeSleepers_keeps State.launches releaseAcq_launches s pa n
    dsimp only
    rw [State.launch?, noteWrite, hl, Tab.find_map_keyed _ (fun p => by split <;> rfl), ← State.launch?, Option.map_map]
    refine Option.map_congr fun l _ => ?_
    rw [Function.comp_apply]
    split <;> rfl
  · exact h

theorem storeBytes_launches (s : State) (fn pa : Nat) (bs : List Byte) : (storeBytes s fn pa bs).launches = s.launches := by
  have h : (llcWrite (awaitRun s pa bs.length) fn pa bs.length).launches = s.launches :=
    (ignoresZeroing_launches.cache.llcWrite _ fn pa _).trans (ignoresZeroing_launches.awaitRun s pa _)
  unfold storeBytes
  split
  · rfl
  · split <;> exact h

theorem Posts.performWrite (h : Posts s0 s) (fn pa : Nat) (bs : List Byte) : Posts s0 (performWrite s fn pa bs) :=
  (h.frame (ignoresWrite_teams.storeBytes s fn pa bs) (storeBytes_launches s fn pa bs)).afterWrite pa bs.length

theorem Posts.writeRuns (fn : Nat) (rs : List (Nat × Nat)) : ∀ (bs : List Byte) {s : State}, Posts s0 s → Posts s0 (writeRuns fn rs bs s) := by
  induction rs with
  | nil => intro bs s h; exact h
  | cons r rs ih => intro bs s h; exact ih _ (h.performWrite fn r.1 _)

theorem Posts.writeRecord (h : Posts s0 s) (fn : Nat) (rs : List (Nat × Nat)) (bs : List Byte) : Posts s0 (writeRecord fn rs bs s) := by
  unfold Machine.writeRecord
  split
  · split
    · exact (h.performWrite _ _ _).performWrite _ _ _
    · exact h.performWrite _ _ _
  · exact Posts.writeRuns fn rs bs h

theorem Posts.areaRuns (h : Posts s0 s) (fn die : Nat) (k : Right) (ps acc : List (Nat × Nat)) : Posts s0 (areaRuns fn die k ps s acc).1 :=
  h.frame (areaRuns_keeps State.teams setTlb_teams ignoresCache_teams.llcRead fn die k ps s acc)
    (areaRuns_keeps State.launches setTlb_launches ignoresCache_launches.llcRead fn die k ps s acc)

theorem Posts.areaRecord (h : Posts s0 s) (fn die va : Nat) (bs : List Byte) : Posts s0 (areaRecord s fn die va bs).1 := by
  have hr := h.areaRuns fn die .w (pieces va bs.length) []
  unfold Machine.areaRecord
  split
  · next heq => exact (hr.fst heq).writeRecord fn _ bs
  · next heq => exact hr.fst heq

theorem Posts.areaIncrement (h : Posts s0 s) (fn die va : Nat) : Posts s0 (areaIncrement s fn die va).1 := by
  have hr := h.areaRuns fn die .w [(va, 4)] []
  unfold Machine.areaIncrement
  split
  · next heq =>
    split
    · exact hr.fst heq
    · refine Posts.writeRuns fn _ _ ((hr.fst heq).frame ?_ ?_)
      · exact ignoresZeroing_teams.readMem _ _ _ _
      · exact ignoresZeroing_launches.readMem _ _ _ _
  · next heq => exact hr.fst heq

theorem Posts.signalAfter (h : Posts s0 s) (u : Nat) (l : Launch) : Posts s0 (signalAfter s u l) := by
  have hr := h.areaIncrement l.fn (l.queue % 4) l.sigaddr
  unfold Machine.signalAfter signal
  split
  · exact h
  · dsimp only
    split
    · next heq => exact hr.fst heq
    · next heq => exact (hr.fst heq).frame rfl rfl
    · next heq => exact (hr.fst heq).frame rfl rfl

theorem Posts.postLaunchRecord (h : Posts s0 s) (u : Nat) (l : Launch) (bs : List Byte) : Posts s0 (postLaunchRecord s u l bs) := by
  have hr := h.areaRecord l.fn (l.queue % 4) l.lcaddr bs
  unfold Machine.postLaunchRecord
  dsimp only
  split
  · next heq => exact (hr.fst heq).signalAfter u l
  · next heq =>
    refine Posts.signalAfter ?_ u l
    exact (hr.fst heq).frame rfl rfl
  · next heq => exact (hr.fst heq).frame rfl rfl

end

/-! ## The end of a launch (R322) -/

/-- What an end of launches leaves: the teams, and of every launch its function and what refused it; one that has ended stays so. -/
structure Ends (s s' : State) : Prop where
  teams : s'.teams = s.teams
  none : ∀ v, s.launch? v = none → s'.launch? v = none
  some : ∀ v l, s.launch? v = some l → ∃ l', s'.launch? v = some l' ∧ l'.fn = l.fn ∧ l'.refused = l.refused ∧
    (l.stage = .ended → l'.stage = .ended)

section
variable {s0 s s' : State}

theorem Ends.refl (s : State) : Ends s s := ⟨rfl, fun _ h => h, fun _ l h => ⟨l, h, rfl, rfl, id⟩⟩

theorem Ends.trans (h : Ends s0 s) (h' : Ends s s') : Ends s0 s' where
  teams := h'.teams.trans h.teams
  none v hv := h'.none v (h.none v hv)
  some v l hv := by
    obtain ⟨l1, h1, hfn1, hr1, he1⟩ := h.some v l hv
    obtain ⟨l2, h2, hfn2, hr2, he2⟩ := h'.some v l1 h1
    exact ⟨l2, h2, hfn2.trans hfn1, hr2.trans hr1, he2 ∘ he1⟩

/-- A launch of which only the mark may differ. -/
theorem Posts.find (h : Posts s s') {v : Nat} {l : Launch} (hl : s.launch? v = some l) :
    ∃ l', s'.launch? v = some l' ∧ l'.unmarked = l.unmarked := by
  have hv := h.launches v
  rw [hl] at hv
  exact Option.map_eq_some_iff.mp hv

theorem Posts.ends (h : Posts s s') : Ends s s' where
  teams := h.teams
  none v hv := by
    have h' := h.launches v
    rw [hv] at h'
    exact Option.map_eq_none_iff.mp h'
  some v l hl := by
    obtain ⟨l', hl', hu⟩ := h.find hl
    have hfn : l'.fn = l.fn := (congrArg Launch.fn hu :)
    have hrefused : l'.refused = l.refused := (congrArg Launch.refused hu :)
    have hstage : l'.stage = l.stage := (congrArg Launch.stage hu :)
    exact ⟨l', hl', hfn, hrefused, fun he => hstage.trans he⟩

/-- What the deques of a launch hold. -/
def dequesLeft (s : State) (u : Nat) : Nat :=
  (s.cores.filter fun p => p.2.dqOwner == some u).foldl (fun n p => n + p.2.deque.length + 32 * p.2.spill.length) 0

/-- The launch ends with what its deques hold discarded; its record is still to be written. -/
def launchEnded (s : State) (u : Nat) : State :=
  ((s.cores.filter fun p => p.2.dqOwner == some u).foldl
      (fun s p => s.setCore p.1 { s.core p.1 with dqOwner := none, deque := [], spill := [] }) s).updLaunch u fun l =>
    { l with stage := .ended, dqleft := dequesLeft s u }

theorem dequesEmptied_keeps {γ : Type} (g : State → γ) (hg : ∀ (s : State) c x, g (s.setCore c x) = g s) (ps : FMap Core) (s : State) :
    g (ps.foldl (fun s p => s.setCore p.1 { s.core p.1 with dqOwner := none, deque := [], spill := [] }) s) = g s :=
  foldl_same g _ (fun _ _ => hg _ _ _) ps s

theorem launchEnded_keeps {γ : Type} (g : State → γ) (hg : ∀ (s : State) c x, g (s.setCore c x) = g s)
    (hl : ∀ (s : State) u (f : Launch → Launch), g (s.updLaunch u f) = g s) (s : State) (u : Nat) : g (launchEnded s u) = g s := by
  rw [launchEnded, hl]
  exact dequesEmptied_keeps g hg _ s

theorem endLaunch_eq {u status : Nat} {l : Launch} (hl : s.launch? u = some l) (hs : l.stage ≠ .ended) : endLaunch s u status =
    postLaunchRecord (launchEnded s u) u l (launchRecord (launchEnded s u) l status (dequesLeft s u)) := by
  rw [endLaunch, hl]
  exact if_neg hs

theorem State.launch?_updLaunch_other (s : State) {u v : Nat} (f : Launch → Launch) (h : v ≠ u) :
    (s.updLaunch u f).launch? v = s.launch? v := Tab.find_upd_other _ _ h

theorem launchEnded_launch (s : State) (u v : Nat) : (launchEnded s u).launch? v =
    if v = u then (s.launch? u).map fun l => { l with stage := .ended, dqleft := dequesLeft s u } else s.launch? v := by
  by_cases hv : v = u
  · subst hv
    rw [if_pos rfl]
    refine (State.launch?_updLaunch_same _ _ _).trans (congrArg (Option.map _) ?_)
    exact dequesEmptied_keeps (State.launch? · v) (fun _ _ _ => rfl) _ s
  · rw [if_neg hv]
    rw [launchEnded, State.launch?_updLaunch_other _ _ hv]
    exact dequesEmptied_keeps (State.launch? · v) (fun _ _ _ => rfl) _ s

theorem launchEnded_ends (s : State) (u : Nat) : Ends s (launchEnded s u) where
  teams := launchEnded_keeps State.teams (fun _ _ _ => rfl) (fun _ _ _ => rfl) s u
  none v hv := by
    have hn := launchEnded_launch s u v
    by_cases he : v = u
    · subst he; rw [hn, if_pos rfl, hv]; rfl
    · rw [hn, if_neg he, hv]
  some v l hl := by
    have hn := launchEnded_launch s u v
    by_cases he : v = u
    · subst he
      rw [if_pos rfl, hl] at hn
      exact ⟨_, hn, rfl, rfl, fun _ => rfl⟩
    · rw [if_neg he, hl] at hn
      exact ⟨l, hn, rfl, rfl, id⟩

theorem endLaunch_ends (s : State) (u status : Nat) : Ends s (endLaunch s u status) := by
  cases hl : s.launch? u with
  | none => rw [endLaunch, hl]; exact .refl s
  | some l =>
    by_cases hs : l.stage = .ended
    · have h : endLaunch s u status = s := by
        rw [endLaunch, hl]
        exact if_pos hs
      rw [h]
      exact .refl s
    · rw [endLaunch_eq hl hs]
      exact (launchEnded_ends s u).trans ((Posts.refl _).postLaunchRecord u l _).ends

/-- A launch that ends has ended. -/
theorem endLaunch_ended {u status : Nat} {l : Launch} (hl : s.launch? u = some l) :
    ∃ l', (endLaunch s u status).launch? u = some l' ∧ l'.stage = .ended := by
  by_cases hs : l.stage = .ended
  · have h : endLaunch s u status = s := by
      rw [endLaunch, hl]
      exact if_pos hs
    rw [h]
    exact ⟨l, hl, hs⟩
  · have hk := launchEnded_launch s u u
    rw [if_pos rfl, hl] at hk
    obtain ⟨l', hl', -, -, he⟩ := ((Posts.refl (launchEnded s u)).postLaunchRecord u l (launchRecord (launchEnded s u) l status
      (dequesLeft s u))).ends.some u _ hk
    rw [endLaunch_eq hl hs]
    exact ⟨l', hl', he rfl⟩

theorem checkLaunchEnd_ends (s : State) (u : Nat) : Ends s (checkLaunchEnd s u) := by
  unfold checkLaunchEnd
  split
  · exact .refl s
  · split
    · split
      · exact .refl s
      · exact endLaunch_ends s u _
    · split
      · exact endLaunch_ends s u _
      · exact .refl s

theorem checkLaunchEnd_refused {u : Nat} {l : Launch} (hl : s.launch? u = some l) (hr : l.refused ≠ 0)
    (h : hasLiveTeam s u = false) : checkLaunchEnd s u = endLaunch s u l.refused := by
  rw [checkLaunchEnd, hl]
  exact (if_pos hr).trans (if_neg (by rw [h]; decide))

theorem checkLaunchEnds_ends (us : List Nat) (s : State) : Ends s (us.foldl checkLaunchEnd s) :=
  foldl_keeps (Ends s) checkLaunchEnd (fun _ u h => h.trans (checkLaunchEnd_ends _ u)) us s (.refl s)

theorem Ends.hasLiveTeam (h : Ends s s') (u : Nat) : Machine.hasLiveTeam s' u = Machine.hasLiveTeam s u := by
  rw [Machine.hasLiveTeam, Machine.hasLiveTeam, h.teams]

/-- Launches that are refused and without a team end, each of them. -/
theorem checkLaunchEnds_ended {us : List Nat} {u : Nat} {l : Launch} (hu : u ∈ us) (hl : s.launch? u = some l) (hr : l.refused ≠ 0)
    (h : hasLiveTeam s u = false) : ∃ l', (us.foldl checkLaunchEnd s).launch? u = some l' ∧ l'.stage = .ended ∧
      l'.refused = l.refused := by
  obtain ⟨before, after, rfl⟩ := List.append_of_mem hu
  rw [List.foldl_append, List.foldl_cons]
  have hb := checkLaunchEnds_ends before s
  obtain ⟨l1, hl1, -, hr1, -⟩ := hb.some u l hl
  obtain ⟨l2, hl2, he2⟩ := endLaunch_ended (status := l1.refused) hl1
  obtain ⟨l3, hl3, -, hr3, -⟩ := (endLaunch_ends (before.foldl checkLaunchEnd s) u l1.refused).some u l1 hl1
  have h23 : l2 = l3 := Option.some.inj (hl2.symm.trans hl3)
  obtain ⟨l4, hl4, -, hr4, he4⟩ := (checkLaunchEnds_ends after (endLaunch (before.foldl checkLaunchEnd s) u l1.refused)).some u l2 hl2
  rw [checkLaunchEnd_refused hl1 (by rw [hr1]; exact hr) ((hb.hasLiveTeam u).trans h)]
  exact ⟨l4, hl4, he4 he2, by rw [hr4, h23, hr3, hr1]⟩

end

end Sys2Proof.Machine
end

section
/-! SUPPORT. Functions: their control, their reset, their stop, save and restore. -/

namespace Sys2Proof.Machine

/-! ## A function's entry -/

theorem FMap.set_set {α : Type} [DecidableEq α] (d : α) (m : FMap α) (n : Nat) (v w : α) :
    FMap.set d (FMap.set d m n v) n w = FMap.set d m n w := by
  have h : FMap.erase (FMap.set d m n v) n = FMap.erase m n := by
    unfold FMap.set
    split
    · exact List.filter_eq_self.mpr fun p hp => (List.mem_filter.mp hp).2
    · rw [FMap.erase_insert_same]
      exact List.filter_eq_self.mpr fun p hp => (List.mem_filter.mp hp).2
  have hs : FMap.set d (FMap.set d m n v) n w =
      if w = d then FMap.erase (FMap.set d m n v) n else FMap.insert n w (FMap.erase (FMap.set d m n v) n) := rfl
  rw [hs, h, FMap.set]

theorem State.setFn_setFn (s : State) (f : Nat) (x y : Fn) : (s.setFn f x).setFn f y = s.setFn f y := by
  rw [State.setFn, State.setFn, State.setFn, FMap.set_set]

theorem Keeps.fn {s s' : State} (h : Keeps s s') (f : Nat) : s'.fn f = s.fn f :=
  congrArg (fun x => FMap.get (Fn.default f) x f) (congrArg Prod.fst h.fixed)

/-! ## The teams of a function -/

theorem fnOfTeam_of_fns {s s' : State} (h : ∀ v, (s'.launch? v).map Launch.fn = (s.launch? v).map Launch.fn) (m : Team) :
    fnOfTeam s' m = fnOfTeam s m := by rw [fnOfTeam, fnOfTeam, h]

theorem fnTeams_of_fns {s s' : State} (ht : s'.teams = s.teams)
    (h : ∀ v, (s'.launch? v).map Launch.fn = (s.launch? v).map Launch.fn) (f : Nat) : fnTeams s' f = fnTeams s f := by
  simp only [fnTeams, ht, fnOfTeam_of_fns h]

theorem fnTeams_of_eq {s s' : State} (ht : s'.teams = s.teams) (hl : s'.launches = s.launches) (f : Nat) : fnTeams s' f = fnTeams s f :=
  fnTeams_of_fns ht (fun v => by rw [State.launch?, State.launch?, hl]) f

theorem Ends.fns {s s' : State} (h : Ends s s') (v : Nat) : (s'.launch? v).map Launch.fn = (s.launch? v).map Launch.fn := by
  cases hl : s.launch? v with
  | none => rw [h.none v hl]
  | some l =>
    obtain ⟨l', hl', hfn, -⟩ := h.some v l hl
    rw [hl', Option.map_some, Option.map_some, hfn]

/-- A function without a team has no launch with one. -/
theorem hasLiveTeam_of_no_teams {s : State} {f u : Nat} {l : Launch} (h : fnTeams s f = []) (hl : s.launch? u = some l) (hf : l.fn = f) :
    hasLiveTeam s u = false := by
  rw [hasLiveTeam, List.any_eq_false]
  rintro p hp hlive
  have hu : p.2.launch = u := by simpa using (Bool.and_eq_true_iff.mp hlive).1
  have hmem : p ∈ fnTeams s f := by
    refine List.mem_filter.mpr ⟨hp, ?_⟩
    rw [fnOfTeam, hu, hl]
    exact beq_iff_eq.mpr hf
  rw [h] at hmem
  cases hmem

/-! ## The end of a function's work (R367, R386) -/

/-- The launch is refused with STATUS 0x17. -/
def Launch.lost (l : Launch) : Launch := { l with refused := 0x17, token := none }

/-- A launch of a function whose work ends is refused, and waits no more. -/
def loseLaunch (s : State) (u : Nat) : State :=
  match s.launch? u with
  | some l => (dropToken s l.token).updLaunch u Launch.lost
  | none => s

/-- The names of a function's launches that have not ended. -/
def launchesOf (s : State) (f : Nat) : List Nat := (fnLaunches s f).map (·.1)

/-- The names of a function's teams that have not been admitted. -/
def waitingOf (s : State) (f : Nat) : List Nat := ((fnTeams s f).filter fun p => p.2.stage == .waiting).map (·.1)

/-- The launches are refused and the teams that wait are gone. -/
def workLost (s : State) (f : Nat) : State :=
  let s1 := (launchesOf s f).foldl loseLaunch s
  { s1 with
    teams := s1.teams.filter (fun p => !(waitingOf s f).contains p.1)
    cores := s1.cores.map fun p => (p.1, { p.2 with admission := p.2.admission.filter fun a => !(waitingOf s f).contains a.team }) }

theorem endFunction_eq (s : State) (f : Nat) : endFunction s f = (launchesOf s f).foldl checkLaunchEnd
    ((fnTeams (workLost s f) f).foldl (fun s p => endTeam s p.1 p.2) (workLost s f)) := rfl

section
variable {s : State}

theorem dropToken_launches (s : State) (k : Option Nat) : (dropToken s k).launches = s.launches := by cases k <;> rfl

theorem dropToken_teams (s : State) (k : Option Nat) : (dropToken s k).teams = s.teams := by cases k <;> rfl

theorem loseLaunch_teams (s : State) (u : Nat) : (loseLaunch s u).teams = s.teams := by
  unfold loseLaunch
  split
  · exact dropToken_teams s _
  · rfl

theorem loseLaunch_launch (s : State) (u v : Nat) :
    (loseLaunch s u).launch? v = if v = u then (s.launch? u).map Launch.lost else s.launch? v := by
  unfold loseLaunch
  split
  · next l hl =>
    have hd (k : Option Nat) (w : Nat) : (dropToken s k).launch? w = s.launch? w := congrArg (Tab.find · w) (dropToken_launches s k)
    by_cases hv : v = u
    · subst hv
      rw [if_pos rfl, State.launch?_updLaunch_same, hd, hl]
    · rw [if_neg hv, State.launch?_updLaunch_other _ _ hv, hd]
  · next hl =>
    by_cases hv : v = u
    · subst hv
      rw [if_pos rfl, hl]
      rfl
    · rw [if_neg hv]

theorem loseLaunches_launch (us : List Nat) (v : Nat) : ∀ s : State,
    (us.foldl loseLaunch s).launch? v = if v ∈ us then (s.launch? v).map Launch.lost else s.launch? v := by
  induction us with
  | nil => exact fun _ => rfl
  | cons u us ih =>
    intro s
    rw [List.foldl_cons, ih, loseLaunch_launch]
    by_cases hv : v = u
    · subst hv
      rw [if_pos rfl, if_pos List.mem_cons_self]
      split
      · rw [Option.map_map]
        rfl
      · rfl
    · rw [if_neg hv]
      simp only [List.mem_cons, hv, false_or]

theorem workLost_launch (s : State) (f v : Nat) : (workLost s f).launch? v =
    if v ∈ launchesOf s f then (s.launch? v).map Launch.lost else s.launch? v := loseLaunches_launch _ v s

theorem workLost_fns (s : State) (f v : Nat) :
    ((workLost s f).launch? v).map Launch.fn = (s.launch? v).map Launch.fn := by
  rw [workLost_launch]
  split
  · rw [Option.map_map]
    rfl
  · rfl

theorem workLost_teams (f : Nat) (h : ∀ p ∈ fnTeams s f, p.2.stage ≠ .waiting) : (workLost s f).teams = s.teams := by
  have hw : waitingOf s f = [] := by
    rw [waitingOf, List.filter_eq_nil_iff.mpr fun p hp => by rw [beq_iff_eq]; exact h p hp]
    rfl
  have ht : ((launchesOf s f).foldl loseLaunch s).teams = s.teams := foldl_same State.teams _ loseLaunch_teams _ s
  rw [workLost, hw]
  dsimp only
  rw [ht]
  exact List.filter_eq_self.mpr fun _ _ => rfl

theorem workLost_fnTeams (f : Nat) (h : ∀ p ∈ fnTeams s f, p.2.stage ≠ .waiting) : fnTeams (workLost s f) f = fnTeams s f :=
  fnTeams_of_fns (workLost_teams f h) (workLost_fns s f) f

theorem mem_launchesOf {f u : Nat} {l : Launch} (hl : s.launch? u = some l) (hf : l.fn = f) (hs : l.stage ≠ .ended) : u ∈ launchesOf s f := by
  refine List.mem_map.mpr ⟨(u, l), List.mem_filter.mpr ⟨Tab.mem_of_find hl, ?_⟩, rfl⟩
  rw [Bool.and_eq_true, beq_iff_eq, bne_iff_ne]
  exact ⟨hf, hs⟩

theorem workLost_memory (s : State) (f : Nat) : SameMemory s (workLost s f) := by
  have hd (s : State) (k : Option Nat) : (dropToken s k).mem = s.mem ∧ (dropToken s k).pkg.zeroings = s.pkg.zeroings := by
    cases k <;> exact ⟨rfl, rfl⟩
  have hr (s : State) (u : Nat) : (loseLaunch s u).mem = s.mem ∧ (loseLaunch s u).pkg.zeroings = s.pkg.zeroings := by
    unfold loseLaunch
    split
    · exact hd s _
    · exact ⟨rfl, rfl⟩
  exact sameMemory_of (foldl_same State.mem _ (fun s u => (hr s u).1) _ s)
    (foldl_same (fun s => s.pkg.zeroings) _ (fun s u => (hr s u).2) _ s)

/-- Where every team of the function has ended, only its launches are left to end. -/
theorem endFunction_ended {f : Nat} (h : ∀ p ∈ fnTeams s f, p.2.stage = .ended) :
    endFunction s f = (launchesOf s f).foldl checkLaunchEnd (workLost s f) := by
  have hstay : (fnTeams s f).foldl (fun s p => endTeam s p.1 p.2) (workLost s f) = workLost s f :=
    foldl_unchanged fun p hp s => by unfold endTeam; rw [h p hp]
  rw [endFunction_eq, workLost_fnTeams f fun p hp => by rw [h p hp]; decide, hstay]

theorem endFunction_no_teams {f : Nat} (h : fnTeams s f = []) :
    endFunction s f = (launchesOf s f).foldl checkLaunchEnd (workLost s f) := endFunction_ended (by rw [h]; exact fun _ hp => nomatch hp)

theorem endFunction_ended_fnTeams {f : Nat} (h : ∀ p ∈ fnTeams s f, p.2.stage = .ended) : fnTeams (endFunction s f) f = fnTeams s f := by
  have he := checkLaunchEnds_ends (launchesOf s f) (workLost s f)
  rw [endFunction_ended h, fnTeams_of_fns he.teams he.fns, workLost_fnTeams f fun p hp => by rw [h p hp]; decide]

/-- The launches of a function without teams end with STATUS 0x17. -/
theorem endFunction_launch {f u : Nat} {l : Launch} (h : fnTeams s f = []) (hl : s.launch? u = some l) (hf : l.fn = f)
    (hs : l.stage ≠ .ended) : ∃ l', (endFunction s f).launch? u = some l' ∧ l'.stage = .ended ∧ l'.refused = 0x17 := by
  have hu := mem_launchesOf hl hf hs
  have hw : (workLost s f).launch? u = some l.lost := by rw [workLost_launch, if_pos hu, hl]; rfl
  have hno : fnTeams (workLost s f) f = [] := (workLost_fnTeams f (by rw [h]; exact fun _ hp => nomatch hp)).trans h
  have hlost : l.lost.refused ≠ 0 := Nat.succ_ne_zero _
  rw [endFunction_no_teams h]
  exact checkLaunchEnds_ended hu hw hlost (hasLiveTeam_of_no_teams hno hw hf)

/-- The record of the one launch of a function without teams. -/
theorem endFunction_record {f u : Nat} {l : Launch} (h : fnTeams s f = []) (hl : s.launches = [(u, l)]) (hf : l.fn = f)
    (hs : l.stage ≠ .ended) : ∃ s1 n, endFunction s f = postLaunchRecord s1 u l.lost (launchRecord s1 l.lost 0x17 n) ∧ SameMemory s s1 := by
  have hfind : s.launch? u = some l := by rw [State.launch?, hl, Tab.find, if_pos rfl]
  have hls : launchesOf s f = [u] := by
    rw [launchesOf, fnLaunches, hl, List.filter_cons_of_pos (by simp [hf, hs])]
    rfl
  have hw : (workLost s f).launch? u = some l.lost := by
    rw [workLost_launch, if_pos (mem_launchesOf hfind hf hs), hfind]
    rfl
  have hno : fnTeams (workLost s f) f = [] := (workLost_fnTeams f (by rw [h]; exact fun _ hp => nomatch hp)).trans h
  have hlost : l.lost.refused ≠ 0 := Nat.succ_ne_zero _
  refine ⟨launchEnded (workLost s f) u, dequesLeft (workLost s f) u, ?_, (workLost_memory s f).trans
    (sameMemory_of (launchEnded_keeps State.mem (fun _ _ _ => rfl) (fun _ _ _ => rfl) _ u)
      (launchEnded_keeps (fun s => s.pkg.zeroings) (fun _ _ _ => rfl) (fun _ _ _ => rfl) _ u))⟩
  rw [endFunction_no_teams h, hls, List.foldl_cons, List.foldl_nil,
    checkLaunchEnd_refused hw hlost (hasLiveTeam_of_no_teams hno hw hf)]
  exact endLaunch_eq hw hs

end

/-! ## The loss of a function's context (R386) -/

/-- The function is context-lost; its work has not ended yet. -/
def contextLost (s : State) (f : Nat) : State :=
  (dropToken s (s.fn f).migToken).setFn f { (dropToken s (s.fn f).migToken).fn f with state := 3, mig := .none, migToken := none, ctl := 0 }

section
variable (s : State) (f : Nat)

theorem contextLost_fnTeams : fnTeams (contextLost s f) f = fnTeams s f := fnTeams_of_eq (dropToken_teams s _) (dropToken_launches s _) f

theorem loseContext_fn : ((loseContext s f).fn f).state = 3 ∧ ((loseContext s f).fn f).mig = .none ∧
    ((loseContext s f).fn f).migToken = none := by
  have h : (loseContext s f).fn f = (contextLost s f).fn f := ((Keeps.refl (contextLost s f)).endFunction f).fn f
  rw [h, contextLost, State.fn_setFn_same]
  exact ⟨rfl, rfl, rfl⟩

theorem contextLost_memory : SameMemory s (contextLost s f) := by
  unfold contextLost
  cases (s.fn f).migToken <;> exact sameMemory_of rfl rfl

end

/-! ## Resets (R367) -/

/-- The queues of a function that is reset. -/
def queuesReset (s : State) (f : Nat) : State :=
  (List.range 32).foldl (fun s q => (dropToken s (s.lq f q).stalled).setLq f q LQ.reset) s

theorem State.lq_setLq_other (s : State) {f q n : Nat} (x : LQ) (h : f * 32 + q ≠ f * 32 + n) : (s.setLq f n x).lq f q = s.lq f q :=
  FMap.get_set_other _ _ _ h

theorem dropToken_lq (s : State) (k : Option Nat) (f q : Nat) : (dropToken s k).lq f q = s.lq f q := by cases k <;> rfl

theorem queuesReset_lq (s : State) (f n q : Nat) (h : q < n) :
    ((List.range n).foldl (fun s q => (dropToken s (s.lq f q).stalled).setLq f q LQ.reset) s).lq f q = LQ.reset := by
  induction n with
  | zero => exact absurd h (Nat.not_lt_zero q)
  | succ n ih =>
    rw [List.range_succ, List.foldl_append, List.foldl_cons, List.foldl_nil]
    by_cases hq : q = n
    · subst hq
      exact State.lq_setLq_same _ _ _ _
    · rw [State.lq_setLq_other _ _ (by omega : f * 32 + q ≠ f * 32 + n), dropToken_lq]
      exact ih (by omega)

theorem queuesReset_reset (s : State) (f : Nat) {q : Nat} (h : q < 32) : (queuesReset s f).lq f q = LQ.reset := queuesReset_lq s f 32 q h

/-- The state in which the function's work ends: nothing waits for its save area any more. -/
def resetBegun (s : State) (f : Nat) : State := dropToken s (s.fn f).migToken

theorem resetFunction_eq (s : State) (f : Nat) : resetFunction s f =
    if workEnded (endFunction (resetBegun s f) f) f = true then
      (queuesReset (endFunction (resetBegun s f) f) f).setFn f { (queuesReset (endFunction (resetBegun s f) f) f).fn f with
        state := 0, rst := false, resetAsked := false, mig := .none, migToken := none, ctl := 0, moved := false }
    else (endFunction (resetBegun s f) f).setFn f { (endFunction (resetBegun s f) f).fn f with migToken := none } := by
  rw [resetFunction]
  dsimp only
  by_cases h : workEnded (endFunction (dropToken s (s.fn f).migToken) f) f = true
  · rw [h]
    exact (if_neg (by decide)).trans (if_pos h).symm
  · rw [Bool.eq_false_iff.mpr h]
    exact (if_pos rfl).trans (if_neg h).symm

section
variable {s : State} {f : Nat}

theorem exec_functionResetDone_waits (h : (s.fn f).resetAsked = false ∨ (s.fn f).stopInProgress = true) :
    exec (.functionResetDone f) s = .next s := by
  have hx : exec (.functionResetDone f) s = execFunctionResetDone f s := rfl
  rw [hx, execFunctionResetDone]
  refine congrArg _ (if_neg ?_)
  rcases h with h | h <;> simp [h]

theorem exec_functionResetDone (ha : (s.fn f).resetAsked = true) (hs : (s.fn f).stopInProgress = false) :
    exec (.functionResetDone f) s = .next (resetFunction s f) := by
  have hx : exec (.functionResetDone f) s = execFunctionResetDone f s := rfl
  rw [hx, execFunctionResetDone]
  exact congrArg _ (if_pos (by simp [ha, hs]))

theorem resetBegun_fnTeams : fnTeams (resetBegun s f) f = fnTeams s f := fnTeams_of_eq (dropToken_teams s _) (dropToken_launches s _) f

theorem State.setFn_lq (s : State) (f g q : Nat) (x : Fn) : (s.setFn f x).lq g q = s.lq g q := rfl

/-- A reset whose work has ended. -/
theorem resetFunction_ended (h : ∀ p ∈ fnTeams s f, p.2.stage = .ended) : ((resetFunction s f).fn f).state = 0 ∧
    ((resetFunction s f).fn f).rst = false ∧ ((resetFunction s f).fn f).resetAsked = false ∧
    ∀ q, q < 32 → (resetFunction s f).lq f q = LQ.reset := by
  have hb : ∀ p ∈ fnTeams (resetBegun s f) f, p.2.stage = .ended := by rw [resetBegun_fnTeams]; exact h
  have he : workEnded (endFunction (resetBegun s f) f) f = true := by
    rw [workEnded, endFunction_ended_fnTeams hb]
    exact List.all_eq_true.mpr fun p hp => beq_iff_eq.mpr (hb p hp)
  rw [resetFunction_eq, if_pos he, State.fn_setFn_same]
  refine ⟨rfl, rfl, rfl, fun q hq => ?_⟩
  rw [State.setFn_lq]
  exact queuesReset_reset (endFunction (resetBegun s f) f) f hq

/-- The teams of a state whose one team ends as by a fault. -/
theorem endTeam_running {s : State} {u : Nat} {m : Team} (hm : s.team? u = some m) (hs : m.stage = .resident ∨ m.stage = .spilled)
    (hp : programsOf s u = []) : ∃ m', (endTeam s u m).team? u = some m' ∧ m'.stage = .ending ∧ m'.launch = m.launch ∧
      (endTeam s u m).launches = s.launches := by
  have hd : (dropToken (dropCalls s u) m.area).teams = s.teams ∧ (dropToken (dropCalls s u) m.area).launches = s.launches ∧
      (dropToken (dropCalls s u) m.area).programs = s.programs := by
    have hc {γ : Type} (g : State → γ) (hg : ∀ (s : State) (k : Pkg), g { s with pkg := k } = g s) : g (dropCalls s u) = g s :=
      foldl_same g _ (fun s t => by split; exact hg _ _; rfl) _ s
    refine ⟨(dropToken_teams _ _).trans (hc _ fun _ _ => rfl), (dropToken_launches _ _).trans (hc _ fun _ _ => rfl), Eq.trans ?_ (hc _ fun _ _ => rfl)⟩
    cases m.area <;> rfl
  generalize hs1 : (dropToken (dropCalls s u) m.area).updTeam u (fun m => { m with stage := .ending, area := none }) = s1
  have hx : endTeam s u m = killPrograms (stopThreads s1 u m) u := by
    rw [endTeam, ← hs1]
    rcases hs with h | h <;> rw [h]
  have ht {γ : Type} (g : State → γ) (h1 : ∀ (s : State) t, g (s.setThread t) = g s) (h2 : ∀ (s : State) c x, g (s.setCore c x) = g s)
      (h3 : ∀ (s : State) (r : Tab Req), g { s with reqs := r } = g s) : g (stopThreads s1 u m) = g s1 :=
    (h3 _ _).trans ((h2 _ _ _).trans (foldl_same g _ (fun s t => h1 s _) _ s1))
  have hps : programsOf (stopThreads s1 u m) u = [] := by
    have h1 : (stopThreads s1 u m).programs = s.programs := by
      rw [ht State.programs (fun _ _ => rfl) (fun _ _ _ => rfl) (fun _ _ => rfl), ← hs1]
      exact hd.2.2
    rw [programsOf, h1]
    exact hp
  have hk : endTeam s u m = stopThreads s1 u m := by
    rw [hx, killPrograms, hps]
    rfl
  rw [hk]
  refine ⟨{ m with stage := .ending, area := none }, ?_, rfl, rfl, ?_⟩
  · rw [ht (State.team? · u) (fun _ _ => rfl) (fun _ _ _ => rfl) (fun _ _ => rfl), ← hs1, State.team?_updTeam_same,
      State.team?, hd.1, ← State.team?, hm]
    rfl
  · rw [ht State.launches (fun _ _ => rfl) (fun _ _ _ => rfl) (fun _ _ => rfl), ← hs1]
    exact hd.2.1

end

end Sys2Proof.Machine
end

section
/-! SUPPORT. Functions: stop, save, abort, commit and restore. -/

namespace Sys2Proof.Machine

/-! ## A reset of a function whose team still runs (R367) -/

section
variable {s : State} {f u : Nat} {m : Team}

/-- The function's one team ends, and the reset goes on. -/
theorem resetFunction_running (ha : (s.fn f).resetAsked = true) (ht : s.teams = [(u, m)]) (hf : fnOfTeam s m = f)
    (hs : m.stage = .resident ∨ m.stage = .spilled) (hp : programsOf s u = []) : ∃ m', ((resetFunction s f).fn f).resetAsked = true ∧
      (resetFunction s f).team? u = some m' ∧ m'.stage = .ending := by
  have hwait : m.stage ≠ .waiting := by rcases hs with h | h <;> rw [h] <;> decide
  have hteams : (resetBegun s f).teams = [(u, m)] := (dropToken_teams s _).trans ht
  have hmine : fnTeams (resetBegun s f) f = [(u, m)] := by
    rw [resetBegun_fnTeams]
    simp [fnTeams, ht, hf]
  have hnone : ∀ p ∈ fnTeams (resetBegun s f) f, p.2.stage ≠ .waiting := by
    rw [hmine]
    intro p hp
    rw [List.mem_singleton.mp hp]
    exact hwait
  have hlost : (workLost (resetBegun s f) f).teams = [(u, m)] := (workLost_teams f hnone).trans hteams
  have hfind : (workLost (resetBegun s f) f).team? u = some m := by rw [State.team?, hlost, Tab.find, if_pos rfl]
  have hprog : programsOf (workLost (resetBegun s f) f) u = [] := by
    have h1 : (workLost (resetBegun s f) f).programs = s.programs := by
      refine (foldl_same State.programs _ (fun s v => ?_) _ _).trans ?_
      · unfold loseLaunch
        split
        · next l _ => cases l.token <;> rfl
        · rfl
      · unfold resetBegun
        cases (s.fn f).migToken <;> rfl
    rw [programsOf, h1]
    exact hp
  obtain ⟨m', hm', hending, hlaunch, hls⟩ := endTeam_running hfind hs hprog
  have he := checkLaunchEnds_ends (launchesOf (resetBegun s f) f) (endTeam (workLost (resetBegun s f) f) u m)
  have hend : endFunction (resetBegun s f) f =
      (launchesOf (resetBegun s f) f).foldl checkLaunchEnd (endTeam (workLost (resetBegun s f) f) u m) := by
    rw [endFunction_eq, workLost_fnTeams f hnone, hmine]
    rfl
  have hfns (v : Nat) : ((endFunction (resetBegun s f) f).launch? v).map Launch.fn = (s.launch? v).map Launch.fn := by
    rw [hend, he.fns, State.launch?, hls, ← State.launch?, workLost_fns]
    exact congrArg (fun ls => (Tab.find ls v).map Launch.fn) (dropToken_launches s _)
  have hteam : (endFunction (resetBegun s f) f).team? u = some m' := by
    rw [hend, State.team?, he.teams]
    exact hm'
  have hof : fnOfTeam (endFunction (resetBegun s f) f) m' = f := by
    rw [fnOfTeam_of_fns hfns, fnOfTeam, hlaunch]
    exact hf
  have hwork : workEnded (endFunction (resetBegun s f) f) f ≠ true := by
    intro h
    have hmem : (u, m') ∈ fnTeams (endFunction (resetBegun s f) f) f :=
      List.mem_filter.mpr ⟨Tab.mem_of_find hteam, beq_iff_eq.mpr hof⟩
    have := beq_iff_eq.mp (List.all_eq_true.mp h _ hmem)
    rw [hending] at this
    cases this
  have hkeep : ((endFunction (resetBegun s f) f).fn f).resetAsked = true := by
    rw [((Keeps.refl (resetBegun s f)).endFunction f).fn f, ← ha]
    exact congrArg Fn.resetAsked (((Keeps.refl s).dropToken _).fn f)
  rw [resetFunction_eq, if_neg hwork]
  refine ⟨m', ?_, hteam, hending⟩
  rw [State.fn_setFn_same]
  exact hkeep

end

/-! ## PK_FNCTL (R370) -/

section
variable {s : State} {f : Nat} {x : DWord} (hb : booted s = true)

include hb

theorem exec_functionEnable_refused (hx : x.getLsbD 0 = true)
    (h : (s.fn f).state = 2 ∨ (s.fn f).state = 3 ∨ (s.fn f).stopInProgress = true) :
    exec (.functionEnable f x) s = .next (s.setFn f { s.fn f with err := true }) := by
  have he : exec (.functionEnable f x) s = execFunctionEnable f x s := rfl
  rw [he, execFunctionEnable, inFull, if_pos hb]
  refine congrArg _ (if_pos ?_)
  rw [hx]
  rcases h with h | h | h <;> simp [h]

/-- PK_FNCTL written, but for EN and STATE. -/
def Fn.controlled (f : Fn) (x : DWord) : Fn := { f with
  err := f.err && !x.getLsbD 4, wgt := BitVec.ofNat 8 (if x.toNat / 2 ^ 8 % 256 = 0 then 1 else x.toNat / 2 ^ 8 % 256)
  ways := BitVec.ofNat 16 (x.toNat / 2 ^ 16), rst := f.rst || x.getLsbD 1, resetAsked := f.resetAsked || x.getLsbD 1 }

theorem exec_functionEnable_off (hx : x.getLsbD 0 = false) :
    exec (.functionEnable f x) s = .next (s.setFn f { (s.fn f).controlled x with en := false }) := by
  have he : exec (.functionEnable f x) s = execFunctionEnable f x s := rfl
  rw [he, execFunctionEnable, inFull, if_pos hb]
  dsimp only
  rw [hx]
  rfl

theorem exec_functionEnable_on (hx : x.getLsbD 0 = true) (h2 : (s.fn f).state ≠ 2) (h3 : (s.fn f).state ≠ 3)
    (hs : (s.fn f).stopInProgress = false) (hv : f = 0 ∨ s.pkg.vfEnable = true) : exec (.functionEnable f x) s =
    .next (s.setFn f { (s.fn f).controlled x with
      en := true, state := if (s.fn f).state = 0 then 1 else (s.fn f).state, moved := false }) := by
  have he : exec (.functionEnable f x) s = execFunctionEnable f x s := rfl
  have hok : (true && ((s.fn f).state == 2 || (s.fn f).state == 3 || (s.fn f).stopInProgress)) = false := by
    rw [beq_false_of_ne h2, beq_false_of_ne h3, hs]
    rfl
  have hvf : ¬(true = true ∧ f ≠ 0 ∧ (!s.pkg.vfEnable) = true) := by
    rintro ⟨-, h0, hen⟩
    rw [hv.resolve_left h0] at hen
    cases hen
  rw [he, execFunctionEnable, inFull, if_pos hb]
  dsimp only
  rw [hx, hok]
  exact congrArg _ ((if_neg (by decide)).trans ((if_neg hvf).trans (if_pos rfl)))

end

theorem controlled_wgt (f : Fn) (x : DWord) :
    (f.controlled x).wgt.toNat = if x.toNat / 2 ^ 8 % 256 = 0 then 1 else x.toNat / 2 ^ 8 % 256 := by
  refine (BitVec.toNat_ofNat _ _).trans (Nat.mod_eq_of_lt ?_)
  split
  · decide
  · exact Nat.mod_lt _ (by decide)

/-! ## STOP (R380) -/

/-- The waiting cluster teams of the function are placed again later. -/
theorem withdrawWaiting_fns (s : State) (f v : Nat) :
    ((withdrawWaiting s f).launch? v).map Launch.fn = (s.launch? v).map Launch.fn := by
  refine foldl_same (fun s : State => (s.launch? v).map Launch.fn) (fun (s : State) (p : Nat × Team) =>
    s.updLaunch p.2.launch fun l => { l with nextTeam := Nat.min l.nextTeam p.2.num }) (fun s p => ?_) _ s
  by_cases hv : v = p.2.launch
  · subst hv
    rw [State.launch?_updLaunch_same, Option.map_map]
    rfl
  · rw [State.launch?_updLaunch_other _ _ hv]

/-- A team is pre-empted. -/
def preemptTeam (s : State) (u : Nat) : State := s.updTeam u fun m => { m with preempt := some s.now }

/-- Teams that are pre-empted one after another. -/
theorem preempted_team (us : List Nat) (v : Nat) (m : Team) : ∀ s : State,
    (us.foldl preemptTeam s).team? v = some m →
      m.preempt.isSome = true ∨ (v ∉ us ∧ s.team? v = some m) := by
  induction us with
  | nil => exact fun s h => .inr ⟨List.not_mem_nil, h⟩
  | cons u us ih =>
    intro s h
    rw [List.foldl_cons] at h
    rcases ih _ h with h | ⟨hv, h⟩
    · exact .inl h
    · by_cases hvu : v = u
      · subst hvu
        rw [preemptTeam, State.team?_updTeam_same] at h
        obtain ⟨m0, -, rfl⟩ := Option.map_eq_some_iff.mp h
        exact .inl rfl
      · rw [preemptTeam, State.team?_updTeam_other _ _ hvu] at h
        exact .inr ⟨by simp [hvu, hv], h⟩

theorem preemptAll_team {s : State} {f u : Nat} {m : Team} (hm : (preemptAll s f).team? u = some m) (hf : fnOfTeam (preemptAll s f) m = f)
    (hs : m.stage = .resident ∨ m.stage = .spilled) : m.preempt.isSome = true := by
  rcases preempted_team _ u m s hm with h | ⟨hu, hm⟩
  · exact h
  · refine Decidable.byContradiction fun hn => ?_
    have hl : (preemptAll s f).launches = s.launches := foldl_same State.launches preemptTeam (fun _ _ => rfl) _ s
    have hf' : fnOfTeam s m = f := by rw [← hf, fnOfTeam, fnOfTeam, State.launch?, State.launch?, hl]
    have hnone : m.preempt.isNone = true := by simpa using hn
    refine hu (List.mem_map.mpr ⟨(u, m), List.mem_filter.mpr ⟨List.mem_filter.mpr ⟨Tab.mem_of_find hm, beq_iff_eq.mpr hf'⟩, ?_⟩, rfl⟩)
    rcases hs with h | h <;> rw [h, hnone] <;> rfl

/-- What a stop begins by: the pre-emption of the teams. -/
def stopBegun (s : State) (f : Nat) (x : Fn) : State := preemptAll (withdrawWaiting (s.setFn f x) f) f

theorem stopBegun_keeps {γ : Type} (g : State → γ) (hl : ∀ (s : State) u (h : Launch → Launch), g (s.updLaunch u h) = g s)
    (ht : ∀ (s : State) u (h : Team → Team), g (s.updTeam u h) = g s)
    (hw : ∀ (s : State) (ts : Tab Team) (cs : FMap Core), g { s with teams := ts, cores := cs } = g s) (s : State) (f : Nat) (x : Fn) :
    g (stopBegun s f x) = g (s.setFn f x) :=
  (foldl_same g preemptTeam (fun s _ => ht s _ _) _ _).trans ((hw _ _ _).trans (foldl_same g _ (fun s _ => hl s _ _) _ _))

theorem exec_stop {s : State} {f : Nat} (hb : booted s = true) (h1 : (s.fn f).state = 1) (hm : (s.fn f).mig = .none) :
    exec (.stop f) s = .next (stopBegun s f { s.fn f with
      mig := .stopping, migSince := s.now, ctl := (s.fn f).ctl ||| 1, qdone := false, sdone := false }) := by
  have he : exec (.stop f) s = execStop f s := rfl
  rw [he, execStop, inFull, if_pos hb]
  exact congrArg _ (if_neg fun h => h.elim (fun h => h h1) fun h => h hm)

theorem exec_stop_refused {s : State} {f : Nat} (hb : booted s = true) (h : (s.fn f).state ≠ 1 ∨ (s.fn f).mig ≠ .none) :
    exec (.stop f) s = .next (s.setFn f { s.fn f with err := true }) := by
  have he : exec (.stop f) s = execStop f s := rfl
  rw [he, execStop, inFull, if_pos hb]
  exact congrArg _ (if_pos h)

/-! ## QDONE and SDONE (R380, R383) -/

section
variable {s : State} {f : Nat}

theorem exec_quiesceDone_empty (h : fnTeams s f = []) : exec (.quiesceDone f) s = .next (if (s.fn f).mig = .stopping then
    s.setFn f { s.fn f with
      mig := .saving, qdone := true, qcyc := BitVec.ofNat 32 (s.now - (s.fn f).migSince)
      qlate := (s.fn f).qlate || decide (299136 < s.now - (s.fn f).migSince) } else s) := by
  have hx : exec (.quiesceDone f) s = execQuiesceDone f s := rfl
  rw [hx, execQuiesceDone, h]
  dsimp only [List.foldl_nil]
  rw [h]
  simp only [List.all_nil, and_true, List.foldl_nil]

/-- Threads of the function's stopping teams stop at their instructions; nothing else of the state is another. -/
theorem exec_quiesceDone_runs {u : Nat} {m : Team} (hmem : (u, m) ∈ s.teams) (hf : fnOfTeam s m = f) (hs : m.stage = .resident) :
    ∃ s', exec (.quiesceDone f) s = .next s' ∧ s'.fns = s.fns := by
  have hx : exec (.quiesceDone f) s = execQuiesceDone f s := rfl
  generalize hs1 : (fnTeams s f).foldl (fun s p => if p.2.stage = .stopping then haltThreads s p.1 p.2 else s) s = s1
  have hk {γ : Type} (g : State → γ) (ht : ∀ (s : State) (t : Thread), g (s.setThread t) = g s)
      (hc : ∀ (s : State) (c : Nat) (x : Core), g (s.setCore c x) = g s) : g s1 = g s := by
    rw [← hs1]
    refine foldl_same g _ (fun s p => ?_) _ s
    split
    · exact haltThreads_keeps g ht hc s p.1 p.2
    · rfl
  have hteams : fnTeams s1 f = fnTeams s f :=
    fnTeams_of_eq (hk State.teams (fun _ _ => rfl) fun _ _ _ => rfl) (hk State.launches (fun _ _ => rfl) fun _ _ _ => rfl) f
  have hno : ¬((s1.fn f).mig = .stopping ∧ (fnTeams s1 f).all (stoppedTeam s1) = true) := by
    rintro ⟨-, h⟩
    rw [hteams] at h
    have hstop := List.all_eq_true.mp h (u, m) (List.mem_filter.mpr ⟨hmem, beq_iff_eq.mpr hf⟩)
    rw [stoppedTeam, hs] at hstop
    cases hstop
  refine ⟨s1, ?_, hk State.fns (fun _ _ => rfl) fun _ _ _ => rfl⟩
  rw [hx, execQuiesceDone, hs1]
  exact congrArg _ (if_neg hno)

theorem exec_saveDone_waits (h : (s.fn f).mig ≠ .saving ∨ (s.fn f).migToken ≠ none) : exec (.saveDone f) s = .next s := by
  have hx : exec (.saveDone f) s = execSaveDone f s := rfl
  rw [hx, execSaveDone]
  refine congrArg _ (if_neg ?_)
  rintro ⟨hm, hk⟩
  rcases h with h | h
  · exact h hm
  · exact h (Option.isNone_iff_eq_none.mp hk)

section
variable (hm : (s.fn f).mig = .saving) (hk : (s.fn f).migToken = none) (hs : ∀ p ∈ fnTeams s f, p.2.stage ≠ .stopping) {s1 : State}

include hm hk hs

theorem exec_saveDone : exec (.saveDone f) s = .next (match saveWrite s f 0 (areaBytes s f) with
    | (s, .done) => s.setFn f { s.fn f with mig := .stopped, migToken := none, sdone := true, state := 2, ctl := (s.fn f).ctl &&& 0xE }
    | (s, .failed) => abortStop (s.setFn f { s.fn f with sfault := true }) f
    | (s, .stalled ipa _) => (raiseSave s f ipa 1 (.save f) none).2.setFn f
        { (raiseSave s f ipa 1 (.save f) none).2.fn f with migToken := some (raiseSave s f ipa 1 (.save f) none).1 }) := by
  have hx : exec (.saveDone f) s = execSaveDone f s := rfl
  have hstay : (fnTeams s f).foldl (fun s p => if p.2.stage = .stopping then keepImage s p.1 else s) s = s :=
    foldl_unchanged fun p hp s => if_neg (hs p hp)
  rw [hx, execSaveDone]
  refine congrArg _ ((if_pos ⟨hm, by rw [hk]; rfl⟩).trans ?_)
  rw [writeSave, hstay] <;> rfl

end

/-! ## ABORT (R385, R386) -/

/-- The function's entry once it resumes at the source. -/
def Fn.resumed (x : Fn) : Fn := { x with mig := .none, migToken := none, ctl := x.ctl &&& 0xA, state := 1, aborted := true }

theorem resumed_of_no_token {x : Fn} (h : x.migToken = none) :
    x.resumed = { x with mig := .none, ctl := x.ctl &&& 0xA, state := 1, aborted := true } := by
  cases x
  cases h
  rfl

/-- The stop is given up; the save area and the teams are still as they were. -/
def stopAborted (s : State) (f : Nat) : State := (dropToken s (s.fn f).migToken).setFn f (s.fn f).resumed

/-- A team that had not stopped is pre-empted no more, one that had resumes. -/
def goOnAfterStop (s : State) (p : Nat × Team) : State :=
  if p.2.stage = .stopping then (if p.2.buffers then s else resumeStopped s p.1 p.2) else s.updTeam p.1 fun m => { m with preempt := none }

theorem abortStop_eq (s : State) (f : Nat) : abortStop s f = settle (releaseInbound
    ((fnTeams (freeSaveArea (stopAborted s f) f) f).foldl goOnAfterStop (freeSaveArea (stopAborted s f) f)) f) := rfl

theorem freeSaveArea_keeps {γ : Type} (g : State → γ) (hr : ∀ s fn pa n, g (llcRead s fn pa n) = g s)
    (hm : ∀ (s : State) (n : Nat) (m : FMap Byte), g { s with freeCtr := n, mem := m } = g s) (s : State) (f : Nat) :
    g (freeSaveArea s f) = g s := by
  refine foldl_same g (freePage f) (fun s a => ?_) _ s
  have ht := ipaAccess_keeps g hr s f a .w
  unfold freePage
  generalize ipaAccess s f a .w = x at ht
  obtain ⟨s', o⟩ := x
  cases o with
  | none => exact ht
  | some o =>
    dsimp only
    split
    · split
      · exact ht
      · exact (hm _ _ _).trans ht
    · exact ht

theorem freeSaveArea_fnTeams (s : State) (f g : Nat) : fnTeams (freeSaveArea s f) g = fnTeams s g :=
  fnTeams_of_eq (freeSaveArea_keeps State.teams ignoresCache_teams.llcRead (fun _ _ _ => rfl) s f)
    (freeSaveArea_keeps State.launches ignoresCache_launches.llcRead (fun _ _ _ => rfl) s f) g

theorem ignoresCache_fab : IgnoresCache State.fab := ⟨fun _ _ => rfl, fun _ _ => rfl, fun _ _ => rfl, fun _ _ _ => rfl⟩

theorem releaseInbound_none (h : ∀ x ∈ s.fab.inbound, x.2.pkt.dstFn ≠ f) : releaseInbound s f = s := by
  have hn : (s.fab.inbound.filter fun x => x.2.pkt.dstFn == f) = [] :=
    List.filter_eq_nil_iff.mpr fun x hx => by rw [beq_iff_eq]; exact h x hx
  rw [releaseInbound, hn]
  rfl

theorem stopAborted_keeps {γ : Type} (g : State → γ) (hp : ∀ (s : State) (k : Pkg), g { s with pkg := k } = g s)
    (hf : ∀ (s : State) (n : Nat) (x : Fn), g (s.setFn n x) = g s) (s : State) (f : Nat) : g (stopAborted s f) = g s := by
  refine (hf _ _ _).trans ?_
  cases (s.fn f).migToken with
  | none => rfl
  | some k => exact hp _ _

theorem stopAborted_fnTeams (s : State) (f : Nat) : fnTeams (stopAborted s f) f = fnTeams s f :=
  fnTeams_of_eq (stopAborted_keeps State.teams (fun _ _ => rfl) (fun _ _ _ => rfl) s f)
    (stopAborted_keeps State.launches (fun _ _ => rfl) (fun _ _ _ => rfl) s f) f

/-- What the end of a stop leaves in the function's entry, where no team of it had stopped. -/
theorem abortStop_fn (hs : ∀ p ∈ fnTeams s f, p.2.stage ≠ .stopping) (hi : ∀ x ∈ s.fab.inbound, x.2.pkt.dstFn ≠ f) :
    (abortStop s f).fn f = (s.fn f).resumed := by
  have hk : ∀ ps : Tab Team, (∀ p ∈ ps, p.2.stage ≠ .stopping) → ∀ s1 s2 : State, Keeps s1 s2 ∧ s2.fab = s1.fab →
      Keeps s1 (ps.foldl goOnAfterStop s2) ∧ (ps.foldl goOnAfterStop s2).fab = s1.fab := by
    intro ps
    induction ps with
    | nil => exact fun _ s1 s2 h => h
    | cons p ps ih =>
      intro hps s1 s2 h
      rw [List.foldl_cons, goOnAfterStop, if_neg (hps p List.mem_cons_self)]
      exact ih (fun q hq => hps q (List.mem_cons_of_mem _ hq)) s1 _ ⟨h.1.updTeam _ _, h.2⟩
  have hteams : fnTeams (freeSaveArea (stopAborted s f) f) f = fnTeams s f := (freeSaveArea_fnTeams _ f f).trans (stopAborted_fnTeams s f)
  obtain ⟨h1, hfab⟩ := hk (fnTeams s f) hs (freeSaveArea (stopAborted s f) f) _ ⟨.refl _, rfl⟩
  have hin : ∀ x ∈ ((fnTeams s f).foldl goOnAfterStop (freeSaveArea (stopAborted s f) f)).fab.inbound, x.2.pkt.dstFn ≠ f := by
    rw [hfab, freeSaveArea_keeps State.fab ignoresCache_fab.llcRead (fun _ _ _ => rfl),
      stopAborted_keeps State.fab (fun _ _ => rfl) (fun _ _ _ => rfl)]
    exact hi
  have hkeep : Keeps (stopAborted s f) (settle ((fnTeams s f).foldl goOnAfterStop (freeSaveArea (stopAborted s f) f))) :=
    (((Keeps.refl (stopAborted s f)).freeSaveArea f).trans h1).settle
  rw [abortStop_eq, hteams, releaseInbound_none hin, hkeep.fn f, stopAborted, State.fn_setFn_same]

/-- An abort of a function without teams and without packets that it holds. -/
theorem abortStop_empty (h : fnTeams s f = []) (hk : (s.fn f).migToken = none) (hi : ∀ x ∈ s.fab.inbound, x.2.pkt.dstFn ≠ f) :
    abortStop s f = settle (freeSaveArea (s.setFn f { s.fn f with
      mig := .none, ctl := (s.fn f).ctl &&& 0xA, state := 1, aborted := true }) f) := by
  have hteams : fnTeams (freeSaveArea (stopAborted s f) f) f = [] :=
    (freeSaveArea_fnTeams _ f f).trans ((stopAborted_fnTeams s f).trans h)
  have hin : ∀ x ∈ (freeSaveArea (stopAborted s f) f).fab.inbound, x.2.pkt.dstFn ≠ f := by
    rw [freeSaveArea_keeps State.fab ignoresCache_fab.llcRead (fun _ _ _ => rfl),
      stopAborted_keeps State.fab (fun _ _ => rfl) (fun _ _ _ => rfl)]
    exact hi
  rw [abortStop_eq, hteams, List.foldl_nil, releaseInbound_none hin, stopAborted, hk, ← resumed_of_no_token hk]
  rfl

theorem exec_abort (hb : booted s = true) : exec (.abort f) s =
    .next (if (s.fn f).stopInProgress then abortStop s f else s.setFn f { s.fn f with err := true }) := by
  have hx : exec (.abort f) s = execAbort f s := rfl
  rw [hx, execAbort, inFull, if_pos hb]
  rfl

end

/-! ## COMMIT (R382, R406) -/

section
variable {s : State} {f : Nat}

/-- What a COMMIT leaves, but for the packets that the function holds. -/
def committed (s : State) (f : Nat) : State :=
  let us := (fnTeams s f).map (·.1)
  let ls := (s.launches.filter fun p => p.2.fn == f).map (·.1)
  let s1 : State := { s with
    teams := s.teams.filter (fun p => !us.contains p.1)
    threads := s.threads.filter (fun p => !us.contains p.2.team)
    launches := s.launches.filter (fun p => p.2.fn != f)
    cores := s.cores.map fun p => (p.1, freeDeque ls { p.2 with admission := p.2.admission.filter fun a => !us.contains a.team }) }
  s1.setFn f { s.fn f with
    mig := .none, en := false, state := 0, moved := true, fwdOn := (s.fn f).fwd.getLsbD 63, fwdSince := s.now }

theorem exec_commit_refused (hb : booted s = true) (h : (s.fn f).mig ≠ .stopped ∨ (s.fn f).sdone = false ∨ (s.fn f).state ≠ 2) :
    exec (.commit f) s = .next (s.setFn f { s.fn f with err := true }) := by
  have hx : exec (.commit f) s = execCommit f s := rfl
  rw [hx, execCommit, inFull, if_pos hb]
  exact congrArg _ (if_pos (by simpa using h))

theorem exec_commit (hb : booted s = true) (hm : (s.fn f).mig = .stopped) (hd : (s.fn f).sdone = true) (h2 : (s.fn f).state = 2) :
    exec (.commit f) s = .next (releaseInbound (committed s f) f) := by
  have hx : exec (.commit f) s = execCommit f s := rfl
  rw [hx, execCommit, inFull, if_pos hb]
  exact congrArg _ (if_neg (by simp [hm, hd, h2]))

theorem committed_launches : ∀ p ∈ (committed s f).launches, p.2.fn ≠ f := fun _ hp => bne_iff_ne.mp (List.mem_filter.mp hp).2

end

/-! ## RESTORE (R384) -/

section
variable {s : State} {f : Nat}

theorem exec_restore (hb : booted s = true) : exec (.restore f) s = .next (s.setFn f
    (if (s.fn f).state ≠ 0 ∨ (s.fn f).mig ≠ .none then { s.fn f with err := true }
      else { s.fn f with mig := .restoring, migSince := s.now, ctl := (s.fn f).ctl ||| 8 })) := by
  have hx : exec (.restore f) s = execRestore f s := rfl
  rw [hx, execRestore, inFull, if_pos hb]
  refine congrArg _ ?_
  by_cases h : (s.fn f).state ≠ 0 ∨ (s.fn f).mig ≠ .none
  · rw [if_pos h, if_pos h]
    rfl
  · rw [if_neg h, if_neg h]

theorem exec_restoreDone (hm : (s.fn f).mig = .restoring) (hk : (s.fn f).migToken = none) :
    exec (.restoreDone f) s = .next (readSave s f) := by
  have hx : exec (.restoreDone f) s = execRestoreDone f s := rfl
  rw [hx, execRestoreDone]
  exact congrArg _ (if_pos ⟨hm, by rw [hk]; rfl⟩)

theorem loadQueues_keeps {γ : Type} (g : State → γ) (h : ∀ (s : State) f q (l : LQ), g (s.setLq f q l) = g s) (bs : List Byte) (s : State) :
    g ((List.range 32).foldl (loadQueue f bs) s) = g s := foldl_same g _ (fun _ _ => h _ _ _ _) _ s

theorem loadArea_version (bs : List Byte) (h : sliceNat bs 0 4 ≠ 1) : ((loadArea s f bs).fn f).state = 3 := by
  have hx : loadArea s f bs = loseContext ((cutLaunches (sliceNat bs 4 4) (bs.drop 0x1000)).foldl
      (fun s r => loadLaunch f s { r with records := [] }) ((List.range 32).foldl (loadQueue f bs) s)) f := by
    rw [loadArea]
    exact if_pos (.inl h)
  rw [hx]
  exact (loseContext_fn _ f).1

theorem placeRestored_empty (hl : fnLaunches s f = []) (ht : fnTeams s f = []) : placeRestored s f = finishRestore s f := by
  rw [placeRestored, hl]
  exact if_neg (by rw [List.map_nil, List.foldl_nil, placing, hl, ht, List.any_nil, List.any_nil]; decide)

/-- A save area without launches is loaded at once. -/
theorem loadArea_empty (bs : List Byte) (h1 : sliceNat bs 0 4 = 1) (h0 : sliceNat bs 4 4 = 0) (hl : fnLaunches s f = [])
    (ht : fnTeams s f = []) : ((loadArea s f bs).fn f).state = 1 ∧ ((loadArea s f bs).fn f).en = true ∧
      ((loadArea s f bs).fn f).mig = .none := by
  generalize hs1 : (List.range 32).foldl (loadQueue f bs) s = s1
  have hk {γ : Type} (g : State → γ) (h : ∀ (s : State) f q (l : LQ), g (s.setLq f q l) = g s) : g s1 = g s := by
    rw [← hs1]; exact loadQueues_keeps g h bs s
  have hx : loadArea s f bs = placeRestored (s1.setFn f { s1.fn f with mig := .placing, migToken := none }) f := by
    rw [loadArea, h0, hs1]
    exact if_neg (by simp [h1, cutLaunches])
  have hl' : fnLaunches (s1.setFn f { s1.fn f with mig := .placing, migToken := none }) f = [] := by
    rw [fnLaunches, State.setFn_launches, hk State.launches fun _ _ _ _ => rfl]
    exact hl
  have ht' : fnTeams (s1.setFn f { s1.fn f with mig := .placing, migToken := none }) f = [] :=
    (fnTeams_of_eq (hk State.teams fun _ _ _ _ => rfl) (hk State.launches fun _ _ _ _ => rfl) f).trans ht
  rw [hx, placeRestored_empty hl' ht', finishRestore, State.fn_setFn_same]
  exact ⟨rfl, rfl, rfl⟩

theorem readSave_failed {s1 : State} {bs : List Byte} (h : saveRead s f 0 0x1000 = (s1, .failed, bs)) : readSave s f = loseContext s1 f := by
  rw [readSave, h]

theorem readSave_done {s1 s2 : State} {h bs : List Byte} (h1 : saveRead s f 0 0x1000 = (s1, .done, h))
    (h2 : saveRead s1 f 0 (sliceNat h 8 8) = (s2, .done, bs)) : readSave s f = loadArea s2 f bs := by
  rw [readSave, h1]
  dsimp only
  rw [h2]

end

/-! ## Time-outs of the save area (R386) -/

/-- The function waits for its save area no more. -/
def tokenAnswered (s : State) (f : Nat) : State := s.setFn f { s.fn f with migToken := none }

/-- The save or the restore goes on, or fails. -/
def saveAnswered (s : State) (f since : Nat) (resolved : Bool) : State :=
  match (s.fn f).mig with
  | .saving => if resolved then writeSave s f (some since) else abortStop (s.setFn f { s.fn f with sfault := true }) f
  | .restoring => if resolved then readSave s f else loseContext s f
  | .none | .stopping | .stopped | .committing | .aborting | .placing => s

theorem answerSave_eq (s : State) (f since : Nat) (resolved : Bool) :
    answerSave s f since resolved = saveAnswered (tokenAnswered s f) f since resolved := rfl

theorem saveAnswered_saving {s : State} {f since : Nat} (h : (s.fn f).mig = .saving) :
    saveAnswered s f since false = abortStop (s.setFn f { s.fn f with sfault := true }) f := by
  rw [saveAnswered, h]
  rfl

theorem saveAnswered_restoring {s : State} {f since : Nat} (h : (s.fn f).mig = .restoring) :
    saveAnswered s f since false = loseContext s f := by
  rw [saveAnswered, h]
  rfl

section
variable {s : State} {k f : Nat} {w : Wait} (h : Tab.find s.pkg.waits k = some w) (hw : w.who = .save f)

include h hw

theorem exec_saveAreaStallTimeout (hm : (s.fn f).mig = .saving) : exec (.saveAreaStallTimeout k) s =
    .next (if w.since + 120000 ≤ s.now then
      abortStop ((dropWait s k).setFn f { s.fn f with migToken := none, sfault := true }) f else s) := by
  have hx : exec (.saveAreaStallTimeout k) s = execSaveAreaStallTimeout k s := rfl
  have hlate : waitedOut s w = decide (w.since + 120000 ≤ s.now) := rfl
  have ha : answerSave (dropWait s k) f w.since false =
      abortStop ((dropWait s k).setFn f { s.fn f with migToken := none, sfault := true }) f := by
    have hmig : ((tokenAnswered (dropWait s k) f).fn f).mig = .saving := (congrArg Fn.mig (State.fn_setFn_same _ _ _)).trans hm
    rw [answerSave_eq, saveAnswered_saving hmig, tokenAnswered, State.fn_setFn_same, State.setFn_setFn]
    rfl
  rw [hx, execSaveAreaStallTimeout, h]
  dsimp only
  rw [hw]
  dsimp only
  rw [hlate, ha]
  simp only [hm, true_and, decide_eq_true_eq]

theorem exec_restoreStallTimeout (hm : (s.fn f).mig = .restoring) : exec (.restoreStallTimeout k) s =
    .next (if w.since + 120000 ≤ s.now then
      loseContext ((dropWait s k).setFn f { s.fn f with migToken := none }) f else s) := by
  have hx : exec (.restoreStallTimeout k) s = execRestoreStallTimeout k s := rfl
  have hlate : waitedOut s w = decide (w.since + 120000 ≤ s.now) := rfl
  have ha : answerSave (dropWait s k) f w.since false = loseContext ((dropWait s k).setFn f { s.fn f with migToken := none }) f := by
    have hmig : ((tokenAnswered (dropWait s k) f).fn f).mig = .restoring := (congrArg Fn.mig (State.fn_setFn_same _ _ _)).trans hm
    rw [answerSave_eq, saveAnswered_restoring hmig]
    rfl
  rw [hx, execRestoreStallTimeout, h]
  dsimp only
  rw [hw]
  dsimp only
  rw [hlate, ha]
  simp only [hm, true_and, decide_eq_true_eq]

end

end Sys2Proof.Machine
end

section
/-! SUPPORT. The obligation on the control, the resets and the migration of functions. -/

namespace Sys2Proof.Machine

theorem launchRecord_fields (s : State) (l : Launch) (st n : Nat) :
    sliceNat (launchRecord s l st n) 0 6 = l.seq.toNat ∧ sliceNat (launchRecord s l st n) 6 1 = st % 256 := by
  have hseq : l.seq.toNat < 2 ^ 48 := l.seq.isLt
  simp [-List.append_assoc, launchRecord, length_leBytes, sliceNat_append, sliceNat_last, sliceNat_first]
  exact hseq

/-- Settles O54: the registers of a function by what each write leaves, its reset by the end of its work, and a stop, an abort, a
commit and a restore by what they leave of teams, launches and the function's entry. -/
theorem functionsAreControlledResetAndMigrated : Obligations.FunctionsAreControlledResetAndMigrated := by
  unfold Obligations.FunctionsAreControlledResetAndMigrated
  refine ⟨⟨?flr, ?reset, ?waits, ?ended, ?running, ?enable, ?masks⟩, ?stop, ?empty, ?quiesce, ?saveWaits, ?save, ?aborted, ?lost,
    ?lostRecord, ?record, ?abort, ?commit, ?restore, ?load, ?timeout⟩
  case flr =>
    intro s f
    refine congrArg Host.Outcome.next (ite_eq_of_iff ?_ rfl rfl)
    simp
  case reset =>
    intro s f hb
    exact congrArg Host.Outcome.next (if_pos hb)
  case waits => exact fun s f => exec_functionResetDone_waits
  case ended =>
    intro s f ha hs h
    exact ⟨_, exec_functionResetDone ha hs, resetFunction_ended h⟩
  case running =>
    intro s f u m ha hs ht hf hst hp
    obtain ⟨m', hreset, hm', hending⟩ := resetFunction_running ha ht hf hst hp
    exact ⟨_, m', exec_functionResetDone ha hs, hreset, hm', hending⟩
  case enable =>
    intro s f x hb r
    refine ⟨exec_functionEnable_refused hb, fun h => ?_⟩
    cases hx : x.getLsbD 0 with
    | false =>
      refine ⟨_, exec_functionEnable_off hb hx, rfl, (if_neg ?_).symm, rfl, controlled_wgt (s.fn f) x, rfl⟩
      exact fun h => nomatch h.1
    | true =>
      obtain ⟨h2, h3, hs, hv⟩ := h.resolve_left (by rw [hx]; decide)
      refine ⟨_, exec_functionEnable_on hb hx h2 h3 hs hv, rfl, ?_, rfl, controlled_wgt (s.fn f) x, rfl⟩
      simp only [true_and]
      rfl
  case masks =>
    intro s f hi x hb v
    have hx : exec (.clusterMaskWrite f hi x) s = execClusterMaskWrite f hi x s := rfl
    rw [hx, execClusterMaskWrite, inFull, if_pos hb]
    refine congrArg _ ?_
    by_cases h : residentMask s f hi &&& ~~~v ≠ 0
    · rw [if_pos h, if_pos h]
      rfl
    · rw [if_neg h, if_neg h]
  case stop =>
    intro s f hb r
    refine ⟨exec_stop_refused hb, fun h1 hm => ⟨_, exec_stop hb h1 hm, ?_, fun u m => preemptAll_team, ?_⟩⟩
    · refine Eq.trans ?_ (State.fn_setFn_same s f _)
      exact stopBegun_keeps (State.fn · f) (fun _ _ _ => rfl) (fun _ _ _ => rfl) (fun _ _ _ => rfl) s f _
    · exact sameMemory_of (stopBegun_keeps State.mem (fun _ _ _ => rfl) (fun _ _ _ => rfl) (fun _ _ _ => rfl) s f _)
        (stopBegun_keeps (fun s => s.pkg.zeroings) (fun _ _ _ => rfl) (fun _ _ _ => rfl) (fun _ _ _ => rfl) s f _)
  case empty =>
    intro s f h r
    exact ⟨fun hm => (exec_quiesceDone_empty h).trans (congrArg _ (if_pos hm)),
      fun hm => (exec_quiesceDone_empty h).trans (congrArg _ (if_neg hm))⟩
  case quiesce => exact fun s f u m _ hf hmem hs => exec_quiesceDone_runs hmem hf hs
  case saveWaits => exact fun s f => exec_saveDone_waits
  case save =>
    intro s f hm hk hs
    exact ⟨fun s1 h => by rw [exec_saveDone hm hk hs, h], fun s1 h => by rw [exec_saveDone hm hk hs, h]⟩
  case aborted =>
    intro s f hs hi r
    have hr : r = (s.fn f).resumed := abortStop_fn hs hi
    rw [hr]
    exact ⟨rfl, rfl, rfl, rfl, rfl⟩
  case lost =>
    intro s f h r
    obtain ⟨hstate, hmig, htoken⟩ := loseContext_fn s f
    refine ⟨hstate, hmig, htoken, fun u l hl hf hs => ?_⟩
    have hl' : (contextLost s f).launch? u = some l := (congrArg (Tab.find · u) (dropToken_launches s _)).trans hl
    exact endFunction_launch ((contextLost_fnTeams s f).trans h) hl' hf hs
  case lostRecord =>
    intro s f u l h hl hf hs
    obtain ⟨s1, n, he, hm⟩ := endFunction_record ((contextLost_fnTeams s f).trans h) ((dropToken_launches s _).trans hl) hf hs
    exact ⟨s1, n, he, (contextLost_memory s f).trans hm⟩
  case record => exact launchRecord_fields
  case abort =>
    intro s f hb r
    refine ⟨fun hs => (exec_abort hb).trans (congrArg _ (if_neg (Bool.eq_false_iff.mp hs))), fun hs h hk hi => ?_⟩
    exact (exec_abort hb).trans (congrArg _ ((if_pos hs).trans (abortStop_empty h hk hi)))
  case commit =>
    intro s f hb r
    refine ⟨exec_commit_refused hb, fun hm hd h2 hi => ⟨committed s f, ?_, ?_, ?_, ?_, ?_, committed_launches, sameMemory_of rfl rfl⟩⟩
    · exact (exec_commit hb hm hd h2).trans (congrArg _ (releaseInbound_none (s := committed s f) hi))
    · exact congrArg Fn.en (State.fn_setFn_same _ _ _)
    · exact congrArg Fn.state (State.fn_setFn_same _ _ _)
    · exact congrArg Fn.moved (State.fn_setFn_same _ _ _)
    · exact congrArg Fn.fwdOn (State.fn_setFn_same _ _ _)
  case restore => exact fun s f hb => exec_restore hb
  case load =>
    intro s f hm hk
    refine ⟨fun s1 bs h => (exec_restoreDone hm hk).trans (congrArg _ (readSave_failed h)), fun s1 h s2 bs h1 h2 => ?_⟩
    exact ⟨(exec_restoreDone hm hk).trans (congrArg _ (readSave_done h1 h2)), loadArea_empty bs, fun hv _ => loadArea_version bs hv⟩
  case timeout =>
    intro s k w f h hw late
    exact ⟨exec_saveAreaStallTimeout h hw, exec_restoreStallTimeout h hw⟩

end Sys2Proof.Machine
end

section
/-! SUPPORT. Ochre: the event log, start-up, updates, attestation, power and heat. -/

namespace Sys2Proof.Machine

/-! ## The event log (R390) -/

theorem Keeps.hostWrite {s0 s : State} (h : Keeps s0 s) (pa : Nat) (bs : List Byte) : Keeps s0 (hostWrite s pa bs) := by
  unfold Machine.hostWrite
  split
  · exact h.performWrite _ _ _
  · exact h

theorem Keeps.writeEntry {s0 s : State} (h : Keeps s0 s) (e : LogEntry) : Keeps s0 (writeEntry s e) := (h.hostWrite _ _).hostWrite _ _

theorem Keeps.och {s s' : State} (h : Keeps s s') : s'.och = s.och := congrArg (fun x => x.2.1) h.fixed

/-- Ochre with one more entry: without a ring it holds it. -/
def Ochre.logged (o : Ochre) (now cls src d : Nat) : Ochre :=
  if o.logBase = 0 then holdEntry { o with logSeq := o.logSeq + 1 } ⟨o.logSeq % 2 ^ 48, cls, src, now, d⟩
  else { o with logSeq := o.logSeq + 1 }

theorem logData_och (s : State) (cls src d : Nat) : (logData s cls src d).och = s.och.logged s.now cls src d := by
  unfold logData Ochre.logged
  dsimp only
  split
  · rfl
  · exact (Keeps.refl { s with och := { s.och with logSeq := s.och.logSeq + 1 } }).writeEntry _ |>.och

theorem postLog_och (s : State) (cls src : Nat) : ∃ d, (postLog s cls src).och = s.och.logged s.now cls src d :=
  ⟨_, logData_och _ cls src _⟩

/-- What an entry of the log leaves of Ochre: all but the count, what is held, and what was lost. -/
theorem logged_keeps {γ : Type} (g : Ochre → γ) (h : ∀ (o : Ochre) n l k, g { o with logSeq := n, held := l, lost := k } = g o)
    (o : Ochre) (now cls src d : Nat) : g (o.logged now cls src d) = g o := by
  unfold Ochre.logged holdEntry
  split
  · split
    · exact h o _ _ o.lost
    · exact h o _ _ _
  · exact h o _ o.held o.lost

theorem logged_logSeq (o : Ochre) (now cls src d : Nat) : (o.logged now cls src d).logSeq = o.logSeq + 1 := by
  unfold Ochre.logged holdEntry
  split
  · split <;> rfl
  · rfl

theorem logged_held {o : Ochre} (hb : o.logBase = 0) (hl : o.held.length < 256) (now cls src d : Nat) :
    (o.logged now cls src d).held = o.held ++ [⟨o.logSeq % 2 ^ 48, cls, src, now, d⟩] := by
  rw [Ochre.logged, if_pos hb, holdEntry]
  exact congrArg Ochre.held (if_pos hl)

/-- One entry, whatever else of Ochre has changed. -/
theorem logged_of {s s' : State} {o : Ochre} {cls src d : Nat} (h : s'.och = o.logged s.now cls src d) (hs : o.logSeq = s.och.logSeq)
    (hb : o.logBase = s.och.logBase) (hh : o.held = s.och.held) : Logged s s' cls src := by
  refine ⟨by rw [h, logged_logSeq, hs], fun h0 hl => ⟨d, ?_⟩⟩
  rw [h, logged_held (hb.trans h0) (by rw [hh]; exact hl), hs, hh]

/-! ## Power-good and the first stage (R387) -/

theorem isHost_of_isHbm {a : Nat} (h : isHbm a = true) : isHost a = false := by
  have ha := (isHbm_iff a).mp h
  rw [isHost, physOf, if_pos ha.1, if_pos ha.2]

theorem get_filter_none {α : Type} (d : α) (m : FMap α) {q : Nat → Bool} {a : Nat} (h : q a = false) :
    FMap.get d (m.filter fun p => q p.1) a = d := by
  induction m with
  | nil => rfl
  | cons p m ih =>
    obtain ⟨k, v⟩ := p
    rw [List.filter_cons]
    split
    · next hk =>
      have hne : k ≠ a := by rintro rfl; rw [h] at hk; cases hk
      rw [FMap.get, if_neg hne]
      exact ih
    · exact ih

/-- Without power HBM4 holds nothing. -/
theorem powerOff_zeroes (s : State) {a : Nat} (h : isHbm a = true) : readByte (powerOff s) a = 0 := by
  have hz : FMap.get 0 (powerOff s).mem a = 0 := get_filter_none 0 s.mem (isHost_of_isHbm h)
  rw [readByte, hz, ite_self]

theorem exec_stageAReached {s : State} (hon : s.och.on = true) (h0 : s.och.stage = 0) : exec .stageAReached s =
    .next (postLog { s with och := { s.och with stage := if s.och.intact then 1 else 3 } } 1 0xFF) := by
  have hx : exec .stageAReached s = execStageAReached s := rfl
  rw [hx, execStageAReached]
  exact congrArg _ (if_pos (by rw [hon, h0]; rfl))

theorem exec_stageAReached_none {s : State} (h : s.och.on = false ∨ s.och.stage ≠ 0) : exec .stageAReached s = .next s := by
  have hx : exec .stageAReached s = execStageAReached s := rfl
  rw [hx, execStageAReached]
  refine congrArg _ (if_neg ?_)
  rcases h with h | h <;> simp [h]

/-! ## The end of start-up (R387) -/

/-- What entries of the log leave, where Ochre holds them: memory, the functions, the ports, and what Ochre has settled. -/
structure OnlyLogs (s s' : State) : Prop where
  mem : s'.mem = s.mem
  fns : s'.fns = s.fns
  fab : s'.fab = s.fab
  base : s'.och.logBase = s.och.logBase
  failed : s'.och.failed = s.och.failed
  stage : s'.och.stage = s.och.stage

theorem OnlyLogs.refl (s : State) : OnlyLogs s s := ⟨rfl, rfl, rfl, rfl, rfl, rfl⟩

theorem OnlyLogs.trans {s s' s'' : State} (h : OnlyLogs s s') (h' : OnlyLogs s' s'') : OnlyLogs s s'' :=
  ⟨h'.mem.trans h.mem, h'.fns.trans h.fns, h'.fab.trans h.fab, h'.base.trans h.base, h'.failed.trans h.failed, h'.stage.trans h.stage⟩

theorem logData_onlyLogs {s : State} (hb : s.och.logBase = 0) (cls src d : Nat) : OnlyLogs s (logData s cls src d) := by
  have ho := logData_och s cls src d
  have hs : (logData s cls src d).mem = s.mem ∧ (logData s cls src d).fns = s.fns ∧ (logData s cls src d).fab = s.fab := by
    obtain ⟨o, hx⟩ : ∃ o, logData s cls src d = { s with och := o } := ⟨_, if_pos hb⟩
    rw [hx]
    exact ⟨rfl, rfl, rfl⟩
  refine ⟨hs.1, hs.2.1, hs.2.2, ?_, ?_, ?_⟩ <;> rw [ho]
  · exact logged_keeps Ochre.logBase (fun _ _ _ _ => rfl) _ _ _ _ _
  · exact logged_keeps Ochre.failed (fun _ _ _ _ => rfl) _ _ _ _ _
  · exact logged_keeps Ochre.stage (fun _ _ _ _ => rfl) _ _ _ _ _

theorem postLog_onlyLogs {s : State} (hb : s.och.logBase = 0) (cls src : Nat) : OnlyLogs s (postLog s cls src) := by
  obtain ⟨hmem, hfns, hfab, hbase, hfailed, hstage⟩ := logData_onlyLogs (s := { s with freeCtr := s.freeCtr + 2 }) hb cls src
    ((Config.freeWord s.freeCtr).toNat + (Config.freeWord (s.freeCtr + 1)).toNat * 2 ^ 64)
  exact ⟨hmem, hfns, hfab, hbase, hfailed, hstage⟩

theorem logDatas_onlyLogs {α : Type} {f : State → α → State} (hf : ∀ s a, s.och.logBase = 0 → OnlyLogs s (f s a)) (l : List α)
    {s : State} (hb : s.och.logBase = 0) : OnlyLogs s (l.foldl f s) :=
  foldl_keeps (OnlyLogs s) f (fun s' a h => h.trans (hf s' a (h.base.trans hb))) l s (.refl s)

theorem State.port_setPort_same (s : State) (p : Nat) (x : Port) : (s.setPort p x).port p = x := FMap.get_set_same _ _ _ _

theorem State.port_setPort_other (s : State) {p q : Nat} (x : Port) (h : q ≠ p) : (s.setPort p x).port q = s.port q :=
  FMap.get_set_other _ _ _ h

/-- A port that has not failed links up. -/
theorem linkUp_port {failed : BitVec 16} {p : Nat} (h : failed.getLsbD p = false) (n : Nat) (hp : p < n) (s : State) :
    (((List.range n).foldl (fun s p => if failed.getLsbD p then s else s.setPort p { s.port p with state := 2 }) s).port p).state = 2 := by
  induction n with
  | zero => exact absurd hp (Nat.not_lt_zero p)
  | succ n ih =>
    rw [List.range_succ, List.foldl_append, List.foldl_cons, List.foldl_nil]
    by_cases hn : p = n
    · subst hn
      rw [if_neg (by rw [h]; decide), State.port_setPort_same]
    · split
      · exact ih (by omega)
      · rw [State.port_setPort_other _ _ hn]
        exact ih (by omega)

theorem State.fn_setFn_other (s : State) {f g : Nat} (x : Fn) (h : f ≠ g) : (s.setFn g x).fn f = s.fn f := by
  unfold State.fn State.setFn FMap.set
  split
  · exact FMap.get_erase_other _ _ h
  · exact (FMap.get_insert_other _ _ _ h).trans (FMap.get_erase_other _ _ h)

/-- A function that the clusters of two masks leave. -/
def unmasked (bad0 bad1 : DWord) (s : State) (f : Nat) : State :=
  s.setFn f { s.fn f with clu0 := (s.fn f).clu0 &&& ~~~bad0, clu1 := (s.fn f).clu1 &&& ~~~bad1 }

theorem unmasked_fn {bad0 bad1 : DWord} {f j : Nat} (h : bad0.getLsbD j = true) (n : Nat) (hf : f < n) (s : State) :
    (((List.range n).foldl (unmasked bad0 bad1) s).fn f).clu0.getLsbD j = false := by
  induction n with
  | zero => exact absurd hf (Nat.not_lt_zero f)
  | succ n ih =>
    rw [List.range_succ, List.foldl_append, List.foldl_cons, List.foldl_nil, unmasked]
    by_cases hn : f = n
    · subst hn
      rw [State.fn_setFn_same]
      simp [h]
    · rw [State.fn_setFn_other _ _ hn]
      exact ih (by omega)

/-- The clusters that have failed leave the masks; nothing of that is logged yet. -/
def failuresMasked (s : State) (clusters : BitVec 128) : State :=
  (List.range 64).foldl (unmasked (clusters.setWidth 64) ((clusters >>> 64).setWidth 64)) { s with och := { s.och with failed := clusters } }

theorem failuresMasked_keeps {γ : Type} (g : State → γ) (h : ∀ (s : State) f x, g (State.setFn s f x) = g s) (s : State) (clusters : BitVec 128) :
    g (failuresMasked s clusters) = g { s with och := { s.och with failed := clusters } } := foldl_same g _ (fun _ _ => h _ _ _) _ _

theorem failuresMasked_fn (s : State) {clusters : BitVec 128} {f j : Nat} (hf : f < 64) (hj : j < 64) (h : clusters.getLsbD j = true) :
    ((failuresMasked s clusters).fn f).clu0.getLsbD j = false := by
  have hbad : (clusters.setWidth 64).getLsbD j = true := by simp [hj, h]
  exact unmasked_fn hbad 64 hf _

theorem noteFailures_onlyLogs {s : State} (hb : s.och.logBase = 0) (clusters : BitVec 128) (ports : BitVec 16) :
    OnlyLogs (failuresMasked s clusters) (noteFailures s clusters ports) := by
  have hb' : (failuresMasked s clusters).och.logBase = 0 := by
    rw [failuresMasked_keeps State.och fun _ _ _ => rfl]
    exact hb
  have h1 := logDatas_onlyLogs (f := fun s c => logFailure s (c / 32) c) (fun _ _ h => logData_onlyLogs h _ _ _)
    ((List.range 128).filter fun c => clusters.getLsbD c) hb'
  exact h1.trans (logDatas_onlyLogs (f := fun s p => logFailure s 0xFF (128 + p)) (fun _ _ h => logData_onlyLogs h _ _ _)
    ((List.range 16).filter fun p => ports.getLsbD p) (h1.base.trans hb'))

section
variable {s : State} {t : Bool} {fc : BitVec 128} {fp : BitVec 16}

theorem exec_stageBReached_none (h : s.och.stage ≠ 1 ∨ s.och.bfail = true) : exec (.stageBReached t fc fp) s = .next s := by
  have hx : exec (.stageBReached t fc fp) s = execStageBReached t fc fp s := rfl
  rw [hx, execStageBReached]
  exact congrArg _ (if_pos h)

variable (h1 : s.och.stage = 1) (hf : s.och.bfail = false)

include h1 hf

theorem exec_stageBReached_fails : exec (.stageBReached false fc fp) s =
    .next (logFailure { s with och := { s.och with bfail := true } } 0xFF 144) := by
  have hx : exec (.stageBReached false fc fp) s = execStageBReached false fc fp s := rfl
  rw [hx, execStageBReached]
  exact congrArg _ ((if_neg (by simp [h1, hf])).trans (if_pos rfl))

/-- Stage 2 is reached, and logged. -/
def stage2Reached (s : State) : State := postLog { s with och := { s.och with stage := 2 } } 1 0xFF

theorem exec_stageBReached : exec (.stageBReached true fc fp) s = .next (stage2Reached (noteFailures (linkUp (wipeAll s) fp) fc fp)) := by
  have hx : exec (.stageBReached true fc fp) s = execStageBReached true fc fp s := rfl
  rw [hx, execStageBReached]
  exact congrArg _ ((if_neg (by simp [h1, hf])).trans (if_neg (by decide)))

end

theorem linkUp_keeps {γ : Type} (g : State → γ) (h : ∀ (s : State) p x, g (State.setPort s p x) = g s) (s : State) (fp : BitVec 16) :
    g (linkUp s fp) = g s := by
  refine foldl_same g (fun s p => if fp.getLsbD p then s else s.setPort p { s.port p with state := 2 }) (fun s p => ?_) _ s
  split
  · rfl
  · exact h _ _ _

theorem wipe_och (s : State) (lo hi : Nat) : (wipe s lo hi).och = s.och := rfl

theorem wipeAll_och (s : State) : (wipeAll s).och = s.och := by
  unfold wipeAll
  dsimp only
  exact foldl_same State.och _ (fun s d => wipe_och s _ _) _ s

theorem stage2Reached_spec {s : State} (hb : s.och.logBase = 0) : (stage2Reached s).mem = s.mem ∧ (stage2Reached s).fns = s.fns ∧
    (stage2Reached s).fab = s.fab ∧ (stage2Reached s).och.failed = s.och.failed ∧ (stage2Reached s).och.stage = 2 := by
  obtain ⟨hmem, hfns, hfab, -, hfailed, hstage⟩ := postLog_onlyLogs (s := { s with och := { s.och with stage := 2 } }) hb 1 0xFF
  exact ⟨hmem, hfns, hfab, hfailed, hstage⟩

/-- What start-up leaves where the log has no ring. -/
theorem startedUp_spec {s s' : State} (hb : s.och.logBase = 0) {fc : BitVec 128} {fp : BitVec 16}
    (h : s' = stage2Reached (noteFailures (linkUp (wipeAll s) fp) fc fp)) : s'.och.stage = 2 ∧ s'.och.failed = fc ∧
    (∀ p, p < 16 → fp.getLsbD p = false → (s'.port p).state = 2) ∧
    (∀ f j, f < 64 → j < 64 → fc.getLsbD j = true → (s'.fn f).clu0.getLsbD j = false) ∧
    ∀ a, isHbm a = true → readByte s' a = 0 := by
  have hoch : (linkUp (wipeAll s) fp).och = s.och := (linkUp_keeps State.och (fun _ _ _ => rfl) (wipeAll s) fp).trans (wipeAll_och s)
  have hlinked : (linkUp (wipeAll s) fp).mem = (wipeAll s).mem := linkUp_keeps State.mem (fun _ _ _ => rfl) _ _
  have hport (p : Nat) (hp : p < 16) (hfp : fp.getLsbD p = false) : ((linkUp (wipeAll s) fp).port p).state = 2 := linkUp_port hfp 16 hp _
  generalize linkUp (wipeAll s) fp = s1 at h hoch hlinked hport
  have hn := noteFailures_onlyLogs (s := s1) (by rw [hoch]; exact hb) fc fp
  have hmasked {γ : Type} (g : State → γ) (h : ∀ (s : State) f x, g (State.setFn s f x) = g s) := failuresMasked_keeps g h s1 fc
  have hbase : (noteFailures s1 fc fp).och.logBase = 0 := by
    rw [hn.base, hmasked State.och fun _ _ _ => rfl]
    exact (congrArg Ochre.logBase hoch).trans hb
  obtain ⟨hmem, hfns, hfab, hfailed, hstage⟩ := stage2Reached_spec hbase
  rw [← h] at hmem hfns hfab hfailed hstage
  refine ⟨hstage, ?_, fun p hp hfp => ?_, fun f j hf hj hfc => ?_, fun a ha => ?_⟩
  · rw [hfailed, hn.failed, hmasked State.och fun _ _ _ => rfl]
  · rw [State.port, hfab, hn.fab, hmasked State.fab fun _ _ _ => rfl]
    exact hport p hp hfp
  · have hfn : s'.fn f = (failuresMasked s1 fc).fn f := by rw [State.fn, State.fn, hfns, hn.fns]
    rw [hfn]
    exact failuresMasked_fn s1 hf hj hfc
  · rw [readByte, hmem, hn.mem, hmasked State.mem fun _ _ _ => rfl]
    dsimp only
    rw [hlinked, wipeAll_get, if_pos ha, ite_self]

end Sys2Proof.Machine
end

section
/-! SUPPORT. Ochre: updates, attestation, the power cap, sensors, heat and the loss of power. -/

namespace Sys2Proof.Machine

/-! ## The ring and the cap (R389, R390, R392) -/

section
variable {s : State}

theorem ochreOpen_false (h : s.och.stage = 0) : ochreOpen s = false := by rw [ochreOpen, h]; rfl

theorem ochreOpen_true (h : s.och.stage ≠ 0) : ochreOpen s = true := bne_iff_ne.mpr h

theorem exec_logRingBaseWrite (x : DWord) (h : s.och.stage ≠ 0) : exec (.logRingBaseWrite x) s =
    .next (if x.toNat / 4096 * 4096 = 0 then
        { s with och := { s.och with logBase := x.toNat / 4096 * 4096, logLog := Nat.max 6 (x.toNat % 16) } }
      else s.och.held.foldl writeEntry
        { s with och := { s.och with logBase := x.toNat / 4096 * 4096, logLog := Nat.max 6 (x.toNat % 16), held := [] } }) := by
  have hx : exec (.logRingBaseWrite x) s = execLogRingBaseWrite x s := rfl
  rw [hx, execLogRingBaseWrite, ochreOpen_true h]
  exact congrArg _ (if_neg (by decide))

theorem exec_powerCapWrite (x : DWord) (h : s.och.stage ≠ 0) : exec (.powerCapWrite x) s =
    .next (postLog { s with och := { s.och with pcap := Nat.min 2700 (Nat.max 1000 (x.toNat % 4096)) } } 6 0xFF) := by
  have hx : exec (.powerCapWrite x) s = execPowerCapWrite x s := rfl
  rw [hx, execPowerCapWrite]
  exact congrArg _ (if_pos (ochreOpen_true h))

/-! ## Updates (R388) -/

theorem exec_updateResult_failed {rf : Bool} (hb : s.och.updBusy = true) (h : rf = true ∨ newImage s = none) :
    exec (.updateResult rf) s = .next (endUpdate s 4) := by
  have hx : exec (.updateResult rf) s = execUpdateResult rf s := rfl
  have hn : (if rf = true then none else newImage s) = none := by
    rcases h with h | h
    · rw [h]; rfl
    · rw [h, ite_self]
  rw [hx, execUpdateResult, hn, hb]
  exact congrArg _ (if_neg (by decide))

/-- Ochre with a verified image stored. -/
def imageStored (s : State) (bs : List Byte) : State := if imageResult bs = 1 then { s with och := storeImage s.och bs } else s

theorem exec_updateResult_read {bs : List Byte} (hb : s.och.updBusy = true) (h : newImage s = some bs) :
    exec (.updateResult false) s = .next (endUpdate (imageStored s bs) (imageResult bs)) := by
  have hx : exec (.updateResult false) s = execUpdateResult false s := rfl
  have hn : (if false = true then none else newImage s) = some bs := h
  rw [hx, execUpdateResult, hn, hb]
  exact congrArg _ (if_neg (by decide))

theorem imageStored_keeps {γ : Type} (g : Ochre → γ) (h : ∀ (o : Ochre) bs, g (storeImage o bs) = g o) (bs : List Byte) :
    g (imageStored s bs).och = g s.och := by
  unfold imageStored
  split
  · exact h _ _
  · rfl

theorem imageStored_now (bs : List Byte) : (imageStored s bs).now = s.now := by
  unfold imageStored
  split <;> rfl

/-- The end of an update, which leaves of Ochre all but its own fields and the log. -/
theorem endUpdate_spec (s : State) (r : Nat) : (endUpdate s r).och.updBusy = false ∧ (endUpdate s r).och.updResult = r ∧
    (endUpdate s r).och.nextImage = s.och.nextImage ∧
    ∃ d, (endUpdate s r).och = ({ s.och with updBusy := false, updResult := r } : Ochre).logged s.now 4 0xFF d := by
  obtain ⟨d, hd⟩ := postLog_och { s with och := { s.och with updBusy := false, updResult := r } } 4 0xFF
  have he : (endUpdate s r).och = ({ s.och with updBusy := false, updResult := r } : Ochre).logged s.now 4 0xFF d := hd
  refine ⟨?_, ?_, ?_, d, he⟩ <;> rw [he]
  · exact logged_keeps Ochre.updBusy (fun _ _ _ _ => rfl) _ _ _ _ _
  · exact logged_keeps Ochre.updResult (fun _ _ _ _ => rfl) _ _ _ _ _
  · exact logged_keeps Ochre.nextImage (fun _ _ _ _ => rfl) _ _ _ _ _

theorem endUpdate_logged (s : State) (r : Nat) : Logged s (endUpdate s r) 4 0xFF := by
  obtain ⟨-, -, -, d, hd⟩ := endUpdate_spec s r
  exact logged_of hd rfl rfl rfl

theorem endUpdate_stored_logged (s : State) (bs : List Byte) (r : Nat) : Logged s (endUpdate (imageStored s bs) r) 4 0xFF := by
  obtain ⟨-, -, -, d, hd⟩ := endUpdate_spec (imageStored s bs) r
  rw [imageStored_now] at hd
  exact logged_of hd (imageStored_keeps Ochre.logSeq (fun _ _ => rfl) bs) (imageStored_keeps Ochre.logBase (fun _ _ => rfl) bs)
    (imageStored_keeps Ochre.held (fun _ _ => rfl) bs)

theorem imageResult_invalid {bs : List Byte} (h : signatureValid bs = false) : imageResult bs = 2 := by
  rw [imageResult, h]
  exact if_pos rfl

theorem imageResult_old {bs : List Byte} (h : signatureValid bs = true) (hv : Config.imageVersion bs < Config.fusedMinimum) :
    imageResult bs = 3 := by
  rw [imageResult, h]
  exact (if_neg (by decide)).trans (if_pos hv)

theorem imageResult_good {bs : List Byte} (h : signatureValid bs = true) (hv : Config.fusedMinimum ≤ Config.imageVersion bs) :
    imageResult bs = 1 := by
  rw [imageResult, h]
  exact (if_neg (by decide)).trans (if_neg (Nat.not_lt.mpr hv))

/-! ## Attestation (R391) -/

/-- The report stands where it is asked for. -/
def reported (s : State) : State :=
  if isHost s.och.att.toNat then
    hostWrite { s with freeCtr := s.freeCtr + 4 } (s.och.att.toNat + 64) (report s (readBytes s s.och.att.toNat 32))
  else s

theorem reported_och (s : State) : (reported s).och = s.och := by
  unfold reported
  split
  · exact ((Keeps.refl { s with freeCtr := s.freeCtr + 4 }).hostWrite _ _).och
  · rfl

theorem exec_attestationDone (h : s.och.attBusy = true) : exec .attestationDone s =
    .next (postLog { reported s with och := { (reported s).och with attBusy := false } } 5 0xFF) := by
  have hx : exec .attestationDone s = execAttestationDone s := rfl
  rw [hx, execAttestationDone, h]
  exact congrArg _ (if_neg (by decide))

/-! ## Sensors and levels (R389, R392, R393) -/

theorem postLogs_sens {α : Type} (f : α → Nat) (ps : List α) (s : State) :
    (ps.foldl (fun s p => postLog s 3 (f p)) s).och.sens = s.och.sens :=
  foldl_same (fun s : State => s.och.sens) _ (fun s p => by
    obtain ⟨d, hd⟩ := postLog_och s 3 (f p)
    rw [hd]
    exact logged_keeps Ochre.sens (fun _ _ _ _ => rfl) _ _ _ _ _) ps s

/-- LEVEL of one cluster. -/
def levelSet (ls : List (BitVec 4)) (cap : PowerReading) (s : State) (k : Nat) : State :=
  s.setCluster k { s.cluster k with level := Nat.min 15 ((ls.getD k 0).toNat + capRaise s cap) }

theorem levelsSet_spec (ls : List (BitVec 4)) (cap : PowerReading) (s : State) (n : Nat) :
    ((List.range n).foldl (levelSet ls cap) s = { s with clusters := ((List.range n).foldl (levelSet ls cap) s).clusters }) ∧
    ∀ k, ((List.range n).foldl (levelSet ls cap) s).cluster k =
      if k < n then { s.cluster k with level := Nat.min 15 ((ls.getD k 0).toNat + capRaise s cap) } else s.cluster k := by
  induction n with
  | zero => exact ⟨rfl, fun k => (if_neg (Nat.not_lt_zero k)).symm⟩
  | succ n ih =>
    rw [List.range_succ, List.foldl_append, List.foldl_cons, List.foldl_nil]
    obtain ⟨hs, hk⟩ := ih
    generalize (List.range n).foldl (levelSet ls cap) s = s1 at hs hk
    have hcap : capRaise s1 cap = capRaise s cap := by rw [hs]; rfl
    refine ⟨?_, fun k => ?_⟩
    · rw [hs]
      rfl
    · by_cases hkn : k = n
      · subst hkn
        rw [levelSet, State.cluster_setCluster_same, hk, if_neg (Nat.lt_irrefl k), if_pos (Nat.lt_succ_self k), hcap]
      · have hother : (levelSet ls cap s1 n).cluster k = s1.cluster k := FMap.get_set_other _ _ _ hkn
        rw [hother, hk]
        refine ite_eq_of_iff ?_ rfl rfl
        omega

theorem exec_skipLevelUpdate (ls : List (BitVec 4)) (cap : PowerReading) (h : s.och.stage ≠ 0) :
    exec (.skipLevelUpdate ls cap) s = .next ((List.range 128).foldl (levelSet ls cap) s) := by
  have hx : exec (.skipLevelUpdate ls cap) s = execSkipLevelUpdate ls cap s := rfl
  rw [hx, execSkipLevelUpdate]
  exact congrArg _ (if_pos (ochreOpen_true h))

/-! ## The loss of power (R393) -/

/-- What a state without power holds, whatever is left of the image. -/
structure WithoutPower (s s' : State) : Prop where
  on : s'.och.on = false
  teams : s'.teams = []
  programs : s'.programs = []
  reqs : s'.reqs = []

theorem losePower_idle (h : s.och.updBusy = false) : losePower s = powerOff s := by
  rw [losePower, h]
  rfl

/-- A loss of power in an update. -/
theorem losePower_cases (s : State) : losePower s = powerOff s ∨ ∃ n o, losePower s = { powerOff s with freeCtr := n, och := o } ∧
    o.on = false ∧ (o.nextImage = s.och.nextImage ∨ ∃ bs, newImage s = some bs ∧ o.nextImage = some bs) := by
  unfold losePower
  split
  · exact .inl rfl
  · next bs hbs =>
    have hn : newImage s = some bs := by
      split at hbs
      · exact hbs
      · cases hbs
    dsimp only
    split
    · exact .inl rfl
    · split
      · exact .inr ⟨_, (powerOff s).och, rfl, rfl, .inl rfl⟩
      · exact .inr ⟨_, _, rfl, rfl, .inl rfl⟩
      · exact .inr ⟨_, _, rfl, rfl, .inr ⟨bs, hn, rfl⟩⟩

theorem losePower_withoutPower (s : State) : WithoutPower s (losePower s) := by
  rcases losePower_cases s with h | ⟨n, o, h, hon, -⟩
  · rw [h]
    exact ⟨rfl, rfl, rfl, rfl⟩
  · rw [h]
    exact ⟨hon, rfl, rfl, rfl⟩

theorem losePower_nextImage (s : State) : (losePower s).och.nextImage = s.och.nextImage ∨
    ∃ bs, newImage s = some bs ∧ (losePower s).och.nextImage = some bs := by
  rcases losePower_cases s with h | ⟨n, o, h, -, hnext⟩
  · rw [h]
    exact .inl rfl
  · rw [h]
    exact hnext

end

/-- Settles O55: start-up by its stages, updates and attestations by their ends, the cap, sensors and levels by what is set, heat and
the loss of power by what is left. -/
theorem ochreStartsUpdatesAndProtects : Obligations.OchreStartsUpdatesAndProtects := by
  unfold Obligations.OchreStartsUpdatesAndProtects
  refine ⟨?good, ?stageA, ?stageB, ?closed, ?opened, ?update, ?attest, ?sensor, ?level, ?cap, ?heat, ?loss⟩
  case good =>
    intro s
    refine ⟨_, rfl, rfl, rfl, rfl, rfl, rfl, ?_, rfl, fun a => powerOff_zeroes s⟩
    cases h : s.och.nextImage <;> simp [powerOff, h]
  case stageA =>
    intro s
    refine ⟨fun hon h0 => ?_, exec_stageAReached_none⟩
    obtain ⟨d, hd⟩ := postLog_och { s with och := { s.och with stage := if s.och.intact then 1 else 3 } } 1 0xFF
    refine ⟨_, exec_stageAReached hon h0, ?_, logged_of hd rfl rfl rfl⟩
    rw [hd]
    exact logged_keeps Ochre.stage (fun _ _ _ _ => rfl) _ _ _ _ _
  case stageB =>
    intro s t fc fp
    refine ⟨exec_stageBReached_none, fun h1 hf ht => ?_, fun h1 hf ht hb => ?_⟩
    · subst ht
      have hd := logData_och { s with och := { s.och with bfail := true } } 2 0xFF (Config.partName 144).toNat
      refine ⟨_, exec_stageBReached_fails h1 hf, ?_, ?_, logged_of hd rfl rfl rfl⟩
      · exact (congrArg Ochre.stage hd).trans ((logged_keeps Ochre.stage (fun _ _ _ _ => rfl) _ _ _ _ _).trans h1)
      · exact (congrArg Ochre.bfail hd).trans (logged_keeps Ochre.bfail (fun _ _ _ _ => rfl) _ _ _ _ _)
    · subst ht
      exact ⟨_, exec_stageBReached h1 hf, startedUp_spec hb rfl⟩
  case closed =>
    intro s h
    have hc (x y : State) : (if ochreOpen s then x else y) = y := if_neg (by rw [ochreOpen_false h]; decide)
    have hc' (x y : State) : (if !ochreOpen s then x else y) = x := if_pos (by rw [ochreOpen_false h]; rfl)
    exact ⟨congrArg Host.Outcome.next (hc _ _), congrArg Host.Outcome.next (hc _ _), fun x => congrArg Host.Outcome.next (hc _ _),
      fun x => congrArg Host.Outcome.next (hc' _ _)⟩
  case opened =>
    intro s h
    refine ⟨?_, ?_, fun x => ?_, fun x hx => ?_, fun x hx => ?_⟩
    · refine (congrArg Host.Outcome.next (if_pos (ochreOpen_true h))).trans (congrArg _ ?_)
      unfold startUpdate
      split <;> rfl
    · refine (congrArg Host.Outcome.next (if_pos (ochreOpen_true h))).trans (congrArg _ ?_)
      unfold startAttestation
      split <;> rfl
    · obtain ⟨d, hd⟩ := postLog_och { s with och := { s.och with pcap := Nat.min 2700 (Nat.max 1000 (x.toNat % 4096)) } } 6 0xFF
      refine ⟨_, exec_powerCapWrite x h, ?_, ?_, ?_, logged_of hd rfl rfl rfl⟩
      all_goals rw [hd, logged_keeps Ochre.pcap (fun _ _ _ _ => rfl)]
      · exact Nat.le_min.mpr ⟨by decide, Nat.le_max_left _ _⟩
      · exact Nat.min_le_left _ _
      · intro h1 h2
        exact (congrArg (Nat.min 2700) (Nat.max_eq_right h1)).trans (Nat.min_eq_right h2)
    · rw [exec_logRingBaseWrite x h, hx]
      exact congrArg _ (if_pos rfl)
    · have hne : x.toNat / 4096 * 4096 ≠ 0 := by omega
      have hk := Keeps.foldl (fun _ e h => h.writeEntry e) s.och.held (Keeps.refl { s with och := { s.och with
        logBase := x.toNat / 4096 * 4096, logLog := Nat.max 6 (x.toNat % 16), held := [] } })
      refine ⟨_, (exec_logRingBaseWrite x h).trans (congrArg _ (if_neg hne)), ?_, ?_⟩ <;> rw [hk.och]
  case update =>
    intro s rf
    refine ⟨fun hb => ?_, fun hb => ?_⟩
    · have hx : exec (.updateResult rf) s = execUpdateResult rf s := rfl
      rw [hx, execUpdateResult, hb]
      exact congrArg _ (if_pos rfl)
    · by_cases h : rf = true ∨ newImage s = none
      · obtain ⟨hbusy, hresult, hnext, -⟩ := endUpdate_spec s 4
        refine ⟨_, exec_updateResult_failed hb h, hbusy, endUpdate_logged s 4, fun _ => ⟨hresult, hnext⟩, fun bs hrf hbs => ?_⟩
        exact absurd h (by rw [hrf, hbs]; simp)
      · rw [not_or] at h
        obtain ⟨bs, hbs⟩ := Option.ne_none_iff_exists'.mp h.2
        have hrf : rf = false := Bool.eq_false_iff.mpr h.1
        subst hrf
        obtain ⟨hbusy, hresult, hnext, -⟩ := endUpdate_spec (imageStored s bs) (imageResult bs)
        refine ⟨_, exec_updateResult_read hb hbs, hbusy, endUpdate_stored_logged s bs _,
          fun h' => absurd h' (by rw [hbs]; simp), fun bs' _ hbs' => ?_⟩
        cases hbs.symm.trans hbs'
        refine ⟨fun hv => ?_, fun hv hold => ?_, fun hv hnew => ?_⟩
        · have hr := imageResult_invalid hv
          refine ⟨hresult.trans hr, hnext.trans ?_⟩
          rw [imageStored, if_neg (by rw [hr]; decide)]
        · exact hresult.trans (imageResult_old hv hold)
        · have hr := imageResult_good hv hnew
          refine ⟨hresult.trans hr, hnext.trans ?_⟩
          rw [imageStored, if_pos hr]
          rfl
  case attest =>
    intro s
    refine ⟨fun hb => ?_, fun hb => ?_⟩
    · have hx : exec .attestationDone s = execAttestationDone s := rfl
      rw [hx, execAttestationDone, hb]
      exact congrArg _ (if_pos rfl)
    · obtain ⟨d, hd⟩ := postLog_och { reported s with och := { (reported s).och with attBusy := false } } 5 0xFF
      refine ⟨_, exec_attestationDone hb, ?_, ?_⟩ <;> rw [hd]
      · exact logged_keeps Ochre.attBusy (fun _ _ _ _ => rfl) _ _ _ _ _
      · rw [logged_logSeq, reported_och]
  case sensor =>
    intro s die point r hon
    refine ⟨_, congrArg Host.Outcome.next (if_neg (by rw [hon]; decide)), ?_⟩
    rw [postLogs_sens]
    exact FMap.get_set_same _ _ _ _
  case level =>
    intro s ls cap h
    obtain ⟨hs, hk⟩ := levelsSet_spec ls cap s 128
    exact ⟨_, exec_skipLevelUpdate ls cap h, hs, hk⟩
  case cap =>
    intro s cap
    exact ⟨fun h => if_neg (Nat.not_lt.mpr h), fun h => Nat.le_trans (Nat.le_max_left 1 _) (Nat.le_of_eq (if_pos h).symm)⟩
  case heat =>
    intro s die point t
    have hx : exec (.thermalShutdown die point) s = execThermalShutdown die point s := rfl
    refine ⟨fun h => ?_, fun hon ht => ?_⟩
    · rw [hx, execThermalShutdown]
      refine congrArg _ (if_neg ?_)
      rw [Bool.and_eq_true, decide_eq_true_eq]
      rintro ⟨hon, ht⟩
      rcases h with h | h
      · rw [h] at hon; cases hon
      · exact absurd ht (Int.not_le.mpr h)
    · obtain ⟨h1, h2, h3, h4⟩ := losePower_withoutPower (postLog s 3 die)
      refine ⟨losePower (postLog s 3 die), ?_, h1, h2, h3, h4⟩
      rw [hx, execThermalShutdown]
      exact congrArg _ (if_pos (Bool.and_eq_true_iff.mpr ⟨hon, decide_eq_true ht⟩))
  case loss =>
    intro s
    obtain ⟨h1, h2, h3, h4⟩ := losePower_withoutPower s
    refine ⟨losePower s, rfl, h1, h2, h3, h4, fun hb => ?_, fun _ => losePower_nextImage s⟩
    rw [losePower_idle hb]
    exact ⟨rfl, rfl, rfl⟩

end Sys2Proof.Machine
end

section
/-! SUPPORT. Ports: their lanes, their states, and what they carry. -/

namespace Sys2Proof.Machine

/-! ## Lanes (R397) -/

theorem react_bad (x : Port) (now : Nat) : (x.react now).bad = x.bad := by
  unfold Port.react
  split
  · rfl
  · split
    · rfl
    · split <;> rfl

theorem react_isWeak (x : Port) (now k : Nat) : (x.react now).isWeak k = x.isWeak k := by rw [Port.isWeak, Port.isWeak, react_bad]

/-- Without a weak lane that carries flits the port stays in its state. -/
theorem react_of_sound {x : Port} (now : Nat) (h : ∀ k, k < 9 → x.isWeak k = false) : x.react now = x := by
  have hnone : x.lanes.find? x.isWeak = none := by
    refine List.find?_eq_none.mpr fun k hk => ?_
    have hlt : k < 9 := by
      unfold Port.lanes at hk
      split at hk
      · exact List.mem_range.mp (List.mem_filter.mp hk).1
      · exact Nat.lt_trans (List.mem_range.mp hk) (by decide)
    rw [h k hlt]
    decide
  rw [Port.react, hnone]

/-- A weak lane that carries flits takes UP to SWAP. -/
theorem react_up {x : Port} {now k : Nat} (h2 : x.state = 2) (hk : k ∈ x.lanes) (hw : x.isWeak k = true) :
    (x.react now).state = 3 ∧ (x.react now).timer = now := by
  obtain ⟨j, hj⟩ := Option.isSome_iff_exists.mp (List.find?_isSome.mpr ⟨k, hk, hw⟩)
  rw [Port.react, hj]
  dsimp only
  rw [if_pos h2]
  exact ⟨rfl, rfl⟩

/-- A weak lane that carries flits takes SPARED to DRAIN. -/
theorem react_spared {x : Port} {now k : Nat} (h4 : x.state = 4) (hk : k ∈ x.lanes) (hw : x.isWeak k = true) :
    (x.react now).state = 5 := by
  obtain ⟨j, hj⟩ := Option.isSome_iff_exists.mp (List.find?_isSome.mpr ⟨k, hk, hw⟩)
  rw [Port.react, hj]
  dsimp only
  rw [if_neg (by rw [h4]; decide), if_pos h4]

theorem mem_lanes {x : Port} {k : Nat} (hk : k < 8) (hs : k ≠ x.spared) : k ∈ x.lanes := by
  unfold Port.lanes
  split
  · exact List.mem_filter.mpr ⟨List.mem_range.mpr (by omega), bne_iff_ne.mpr hs⟩
  · exact List.mem_range.mpr hk

/-- The port once a lane has lost its signal; it has not reacted yet. -/
def signalLost (x : Port) (k : Nat) : Port := { x with bad := FMap.set 0 x.bad k (FMap.get 0 x.bad k % 4 + 4) }

theorem signalLost_isWeak (x : Port) (k : Nat) : (signalLost x k).isWeak k = true := by
  rw [Port.isWeak, signalLost]
  dsimp only
  rw [FMap.get_set_same, beq_iff_eq]
  omega

/-- The records of the first `n` lanes after a sample. -/
def sampledLanes (bad : FMap Nat) (lanes : List LaneSample) (n : Nat) : FMap Nat :=
  (List.range n).foldl (fun b k => match lanes[k]? with
    | some x => FMap.set 0 b k (laneRecord (FMap.get 0 bad k) (laneBits x))
    | none => b) bad

theorem sampledLanes_get (bad : FMap Nat) (lanes : List LaneSample) {k : Nat} {l : LaneSample} (hl : lanes[k]? = some l) (n : Nat)
    (hk : k < n) : FMap.get 0 (sampledLanes bad lanes n) k = laneRecord (FMap.get 0 bad k) (laneBits l) := by
  induction n with
  | zero => exact absurd hk (Nat.not_lt_zero k)
  | succ n ih =>
    rw [sampledLanes, List.range_succ, List.foldl_append, List.foldl_cons, List.foldl_nil]
    by_cases hn : k = n
    · subst hn
      rw [hl]
      exact FMap.get_set_same _ _ _ _
    · have hrest := ih (by omega)
      unfold sampledLanes at hrest
      split
      · rw [FMap.get_set_other _ _ _ hn, hrest]
      · exact hrest

/-- A lane is weak after a sample where it was before, or where a condition held in two samples together. -/
theorem laneRecord_weak (old : Nat) (l : LaneSample) : (laneRecord old (laneBits l) / 4 % 2 == 1) = true ↔
    (old / 4 % 2 == 1) = true ∨ (old % 2 = 1 ∧ l.ber = true) ∨ (old / 2 % 2 = 1 ∧ l.eye = true) := by
  have hlt : laneBits l < 4 := by unfold laneBits; split <;> split <;> omega
  have hber : laneBits l % 2 = 1 ↔ l.ber = true := by unfold laneBits; split <;> split <;> simp_all
  have heye : laneBits l / 2 % 2 = 1 ↔ l.eye = true := by unfold laneBits; split <;> split <;> simp_all
  rw [← hber, ← heye, beq_iff_eq, beq_iff_eq, laneRecord]
  by_cases h : old / 4 % 2 = 1 ∨ (old % 2 = 1 ∧ laneBits l % 2 = 1) ∨ (old / 2 % 2 = 1 ∧ laneBits l / 2 % 2 = 1)
  · rw [if_pos h]
    exact iff_of_true (by omega) h
  · rw [if_neg h]
    exact iff_of_false (by omega) h

/-- The port after a sample; it has not reacted yet. -/
def laneSampled (x : Port) (lanes : List LaneSample) : Port := { x with bad := sampledLanes x.bad lanes 9 }

theorem laneSampled_isWeak (x : Port) {lanes : List LaneSample} {k : Nat} {l : LaneSample} (hk : k < 9) (hl : lanes[k]? = some l) :
    (laneSampled x lanes).isWeak k = true ↔ x.isWeak k = true ∨
      (FMap.get 0 x.bad k % 2 = 1 ∧ l.ber = true) ∨ (FMap.get 0 x.bad k / 2 % 2 = 1 ∧ l.eye = true) := by
  rw [Port.isWeak, laneSampled, sampledLanes_get x.bad lanes hl 9 hk]
  exact laneRecord_weak _ l

/-! ## The states of a port (R396, R397) -/

section
variable {s : State} {p : Nat} (hp : p < 16)

include hp

theorem onPort_eq (f : Port → Port) : onPort s p f = s.setPort p (f (s.port p)) := if_pos hp

theorem exec_laneSignalLoss (k : Nat) : exec (.laneSignalLoss p k) s =
    .next (s.setPort p ((signalLost (s.port p) k).react s.now)) := congrArg Host.Outcome.next (onPort_eq hp _)

theorem exec_laneSample (lanes : List LaneSample) : exec (.laneSample p lanes) s =
    .next (s.setPort p ((laneSampled (s.port p) lanes).react s.now)) := congrArg Host.Outcome.next (onPort_eq hp _)

theorem exec_portTrainDone (failed : BitVec 9) : exec (.portTrainDone p failed) s = .next (departWaiting
    (s.setPort p (if (s.port p).state = 1 then (s.port p).trained failed else s.port p))) :=
  congrArg (fun x => Host.Outcome.next (departWaiting x)) (onPort_eq hp _)

end

/-! ## The port of a flow (R395) -/

section
variable {s : State} {f : Nat × Nat × Nat}

theorem mem_upPorts {k : Nat} (h : k ∈ upPorts s) : (s.port k).up = true := (List.mem_filter.mp h).2

/-- The port that the hash names. -/
def hashedPort (s : State) (f : Nat × Nat × Nat) : Option Nat := (upPorts s)[Config.portHash f.1 f.2.1 f.2.2 % (upPorts s).length]?

theorem choosePort_eq : choosePort s f = match FMap.get 0 s.fab.flows (flowKey f) with
    | k + 1 => if (s.port k).up then some k else hashedPort s f
    | 0 => hashedPort s f := rfl

theorem choosePort_keeps {k : Nat} (h : FMap.get 0 s.fab.flows (flowKey f) = k + 1) (hup : (s.port k).up = true) :
    choosePort s f = some k := by
  rw [choosePort_eq, h]
  exact if_pos hup

theorem hashedPort_up {k : Nat} (h : hashedPort s f = some k) : (s.port k).up = true := mem_upPorts (List.mem_of_getElem? h)

theorem hashedPort_some (h : anyPortUp s = true) : (hashedPort s f).isSome = true := by
  have hpos : 0 < (upPorts s).length := by
    refine List.length_pos_iff.mpr fun hn => ?_
    rw [anyPortUp, hn] at h
    cases h
  rw [hashedPort, List.getElem?_eq_getElem (Nat.mod_lt _ hpos)]
  rfl

theorem choosePort_up {k : Nat} (h : choosePort s f = some k) : (s.port k).up = true := by
  rw [choosePort_eq] at h
  split at h
  · split at h
    · next hup => cases h; exact hup
    · exact hashedPort_up h
  · exact hashedPort_up h

theorem choosePort_some (h : anyPortUp s = true) : (choosePort s f).isSome = true := by
  rw [choosePort_eq]
  split
  · split
    · rfl
    · exact hashedPort_some h
  · exact hashedPort_some h

end

section
variable {s : State} {ch : Channel} {x : Flight}

theorem depart_some {k : Nat} (h : choosePort s x.flow = some k) :
    ((depart s ch x).port k).queue = (s.port k).queue ++ [(ch, x)] ∧ FMap.get 0 (depart s ch x).fab.flows (flowKey x.flow) = k + 1 ∧
    (depart s ch x).fab.waiting = s.fab.waiting := by
  rw [depart, h]
  dsimp only
  exact ⟨congrArg Port.queue (State.port_setPort_same s k _), FMap.get_set_same _ _ _ _, rfl⟩

theorem depart_none (h : choosePort s x.flow = none) : (depart s ch x).fab.waiting = s.fab.waiting ++ [(ch, x)] ∧
    ∀ k, (depart s ch x).port k = s.port k := by
  rw [depart, h]
  exact ⟨rfl, fun _ => rfl⟩

/-! ## What a port carries (R396, R401) -/

theorem carry_none {p : Nat} (h : (s.port p).state < 2 ∨ takeFirst ch (s.port p).queue = none) : carry s p ch = s := by
  rw [carry]
  split
  · rfl
  · next hc =>
    rcases h with h | h
    · exact absurd (by simp [Port.carries, Nat.not_le.mpr h]) hc
    · rw [h]

theorem carry_some {p : Nat} {rest : List (Channel × Flight)} (h2 : 2 ≤ (s.port p).state)
    (h : takeFirst ch (s.port p).queue = some (x, rest)) : ((carry s p ch).port p).queue = rest ∧
    (∀ k, x = .packet k → (carry s p ch).fab.packetsOut = s.fab.packetsOut ++ [(p, k)]) ∧
    (∀ k c d, x = .answer k c d → (carry s p ch).fab.answersOut = s.fab.answersOut ++ [(p, k, c, d)]) := by
  have hc : ¬(!(s.port p).carries) = true := by simp [Port.carries, h2]
  have hq : ((s.setPort p { s.port p with queue := rest }).port p).queue = rest := congrArg Port.queue (State.port_setPort_same s p _)
  rw [carry, if_neg hc, h]
  dsimp only
  cases x with
  | packet k => exact ⟨hq, fun j hj => by cases hj; rfl, fun _ _ _ hj => nomatch hj⟩
  | answer k c d => exact ⟨hq, fun _ hj => (nomatch hj), fun _ _ _ hj => by cases hj; rfl⟩

theorem takeFirst_split {before after : List (Channel × Flight)} (h : ∀ y ∈ before, y.1 ≠ ch) :
    takeFirst ch (before ++ (ch, x) :: after) = some (x, before ++ after) := by
  induction before with
  | nil => exact if_pos rfl
  | cons y ys ih =>
    obtain ⟨c, z⟩ := y
    rw [List.cons_append, takeFirst, if_neg (h (c, z) List.mem_cons_self), ih fun y hy => h y (List.mem_cons_of_mem _ hy)]
    rfl

end

/-- Settles O56: a port's states by its lanes, the choice of a port by the flow that has left by it, and what is carried by the order
of the queue. -/
theorem portsTrainSwapAndDrain : Obligations.PortsTrainSwapAndDrain := by
  unfold Obligations.PortsTrainSwapAndDrain
  refine ⟨fun s p hp => ?_, fun s f => ⟨fun k => choosePort_keeps, fun k => choosePort_up, choosePort_some⟩,
    fun s ch x => ⟨fun k => depart_some, depart_none⟩, fun s p ch => ⟨carry_none, fun x rest => carry_some⟩,
    fun ch before x after => takeFirst_split⟩
  intro x goes frees
  have hgo {i : Instr} {f : Port → Port} (h : exec i s = .next (onPort s p f)) : goes i (f x) :=
    h.trans (congrArg _ (onPort_eq hp f))
  have hfree {i : Instr} {f : Port → Port} (h : exec i s = .next (departWaiting (onPort s p f))) : frees i (f x) :=
    h.trans (congrArg (fun y => Host.Outcome.next (departWaiting y)) (onPort_eq hp f))
  refine ⟨hgo rfl, fun failed h1 => ?_, fun failed h1 => ?_, hfree rfl, hfree rfl, hgo rfl, hgo rfl, fun k hk => ?_, fun lanes => ?_⟩
  · intro n
    have ht : frees (.portTrainDone p failed) (x.trained failed) := by
      have h := exec_portTrainDone (s := s) hp failed
      rw [if_pos h1] at h
      exact h
    refine ⟨fun hn => ?_, fun hn => ?_⟩
    · have hx : x.trained failed = { x with state := 0, spared := 0xF, bad := [] } := congrArg (fun st => { x with state := st, spared := 0xF, bad := [] }) (if_pos hn)
      exact hx ▸ ht
    · have hx : x.trained failed = { x with state := 2, spared := 0xF, bad := [] } := 
        congrArg (fun st => { x with state := st, spared := 0xF, bad := [] }) (if_neg (Nat.not_le.mpr hn))
      exact hx ▸ ht
  · have h := exec_portTrainDone (s := s) hp failed
    rw [if_neg h1] at h
    exact h
  · refine ⟨_, exec_laneSignalLoss hp k, (react_isWeak _ _ k).trans (signalLost_isWeak _ k), fun h2 hs => ?_, fun h4 hs => ?_⟩
    · exact react_up h2 (mem_lanes hk (by rw [show (signalLost x k).spared = 0xF from hs]; omega)) (signalLost_isWeak _ k)
    · exact react_spared h4 (mem_lanes hk hs) (signalLost_isWeak _ k)
  · refine ⟨_, exec_laneSample hp lanes, fun k l hk hl => ?_, fun h => ?_, ?_⟩
    · rw [react_isWeak]
      exact laneSampled_isWeak x hk hl
    · rw [react_of_sound s.now fun k hk => (react_isWeak _ _ k).symm.trans (h k hk)]
      rfl
    · rintro h2 hs ⟨k, hk, hw⟩
      have hspared : k ≠ (laneSampled x lanes).spared := by rw [show (laneSampled x lanes).spared = 0xF from hs]; omega
      exact (react_up (x := laneSampled x lanes) h2 (mem_lanes hk hspared) ((react_isWeak (laneSampled x lanes) s.now k).symm.trans hw)).1

end Sys2Proof.Machine
end

section
/-! SUPPORT. Peer accesses: the packets they send, the answers that end them, and their timers. -/

namespace Sys2Proof.Machine

/-! ## What a virtual device number names (R394) -/

theorem vdnKind_unicast {e pk f : Nat} (h : vdnKind e = .unicast pk f) : pk < 64 ∧ f < 64 := by
  unfold vdnKind at h
  split at h
  · cases h
    exact ⟨Nat.mod_lt _ (by decide), Nat.mod_lt _ (by decide)⟩
  · split at h
    · cases h
    · split at h <;> cases h

theorem lookupVdn_unicast {s s1 : State} {die fn v pk f : Nat} (h : lookupVdn s die fn v = (s1, .unicast pk f)) : pk < 64 ∧ f < 64 := by
  unfold lookupVdn at h
  split at h
  · cases h
  · split at h
    · exact vdnKind_unicast (congrArg Prod.snd h)
    · exact vdnKind_unicast (congrArg Prod.snd h)

theorem targetsOf_unicast (s : State) {pk f : Nat} (hpk : pk < 64) (hf : f < 64) : targetsOf s (pk, f) = [pk] := by
  have hdiv : (pk * 64 + f) / 64 = pk := by omega
  rw [targetsOf, answerers, if_pos hpk, List.map_cons, hdiv]
  rfl

/-! ## A request at its first sending (R394, R398, R401) -/

section
variable {s s1 : State} {k : Nat} {r : Req}

theorem InFlight.exec_packetSend (h : InFlight s k r) (hd : r.data = none) (hs : Tab.find s.fab.sent k = none) :
    exec (.packetSend k) s = .next (firstSend s k r) := by
  have hx : exec (.packetSend k) s = .next (sendPacket s k) := rfl
  have hc : ¬(r.complete || !ready s r || r.data.isSome) = true := by rw [h.pending, h.due, hd]; exact Bool.false_ne_true
  rw [hx, sendPacket, h.found, hs]
  dsimp only
  rw [if_neg hc, freshSend, h.refresh]

/-- What of the packet of a request to a package does not depend on its sending. -/
def packetOf (s : State) (r : Req) (off pk f : Nat) (c : PktClass) (op : PktOp) : Packet :=
  ⟨ownPackage, r.fn, pk, f, c, FMap.get 0 s.fab.seqs (seqKey r.fn pk c), pk, off, op, false, false⟩

/-- The packet of a request, not sent yet. -/
def unsentOf (s : State) (r : Req) (v off pk f : Nat) (c : PktClass) (op : PktOp) : Sent :=
  { pkt := packetOf s r off pk f c op, vdn := v, die := r.die, targets := [], sent := false, since := s.now, last := s.now, tries := 0,
    silent := [], worst := .ok, lapsed := false, movedAt := none }

/-- That packet once it has left. -/
def sentOf (s : State) (r : Req) (v off pk f : Nat) (c : PktClass) (op : PktOp) : Sent :=
  { unsentOf s r v off pk f c op with targets := [pk], sent := true, silent := [pk * 64 + f] }

/-- The next packet of a source to a target takes the next number. -/
def numbered (s : State) (r : Req) (pk : Nat) (c : PktClass) : State :=
  { s with fab := { s.fab with
    seqs := FMap.set 0 s.fab.seqs (seqKey r.fn pk c) ((FMap.get 0 s.fab.seqs (seqKey r.fn pk c) + 1) % 2 ^ 48) } }

section
variable {v off pk f : Nat} {c : PktClass} {op : PktOp} (hpk : pk < 64) (hf : f < 64)

include hpk hf

theorem nameAndSend_waits (h : slotsFree s k [pk] = false) : nameAndSend s k r v off (pk, f) c op =
    setSent s k { unsentOf s r v off pk f c op with targets := [pk] } := by
  rw [nameAndSend]
  dsimp only
  rw [targetsOf_unicast s hpk hf]
  exact if_neg (by rw [h]; simp)

theorem nameAndSend_goes (h : slotsFree s k [pk] = true) : nameAndSend s k r v off (pk, f) c op =
    emit (setSent (numbered s r pk c) k (sentOf s r v off pk f c op)) (packetOf s r off pk f c op) := by
  rw [nameAndSend]
  dsimp only
  rw [targetsOf_unicast s hpk hf, if_pos (.inr h), dispatch]
  dsimp only
  rw [targetsOf_unicast _ hpk hf]
  have hfree : slotsFree (numbered s r pk c) k [pk] = true := h
  refine (if_neg Bool.false_ne_true).trans ((if_pos hfree).trans ?_)
  rw [answerers, if_pos hpk]
  rfl

end

section
variable {v off : Nat} {c : PktClass} {op : PktOp} (hpeer : r.act.peer = some (v, off)) (hpkt : r.act.packet = some (c, op))

include hpeer hpkt

theorem firstSend_unreach {kind : VdnKind} (h : lookupVdn s r.die r.fn v = (s1, kind))
    (hn : kind.takes r.act = false ∨ anyPortUp s1 = false) : firstSend s k r = endAccess s1 k r.fn v .unreach [] := by
  have hno : (kind.takes r.act && anyPortUp s1) = false := by rcases hn with h | h <;> simp [h]
  rw [firstSend, hpkt]
  dsimp only
  rw [hpeer]
  dsimp only
  rw [h]
  dsimp only
  rw [hno]
  rfl

theorem firstSend_unicast {pk f : Nat} (h : lookupVdn s r.die r.fn v = (s1, .unicast pk f)) (hup : anyPortUp s1 = true) :
    firstSend s k r = nameAndSend (dropSent s1 k) k r v off (pk, f) c op := by
  rw [firstSend, hpkt]
  dsimp only
  rw [hpeer]
  dsimp only
  rw [h]
  dsimp only
  rw [hup]
  rfl

end

/-- A flight that finds a port leaves of the state all but that port's queue and the flow. -/
theorem depart_keeps {γ : Type} (g : State → γ) (h : ∀ (s : State) (x : Fabric), g { s with fab := x } = g s) (s : State) (ch : Channel)
    (x : Flight) : g (depart s ch x) = g s := by
  unfold depart
  split
  · exact (h _ _).trans (h _ _)
  · exact h _ _

theorem depart_fab_keeps {γ : Type} (g : Fabric → γ)
    (h : ∀ (x : Fabric) ps fs ws, g { x with ports := ps, flows := fs, waiting := ws } = g x) (s : State) (ch : Channel)
    (x : Flight) : g (depart s ch x).fab = g s.fab := by
  unfold depart
  split
  · exact h s.fab _ _ s.fab.waiting
  · exact h s.fab s.fab.ports s.fab.flows _

end

/-! ## Answers (R402, R404, R406, R407) -/

section
variable {s : State} {k : Nat} {x : Sent}

/-- Whom an answer to a packet of one target, or of a group, is from. -/
theorem from_unicast (m : Nat) (c : Answer) (h : x.pkt.dstPkg < 64) :
    x.from? m c = if x.movedAt.isSome = true ∧ c ≠ .moved then some m else x.silent.head? := by
  rw [Sent.from?, if_neg (Nat.not_le.mpr h)]
  refine ite_eq_of_iff ?_ rfl rfl
  rw [Bool.and_eq_true, bne_iff_ne]

theorem from_group (m : Nat) (c : Answer) (h : 64 ≤ x.pkt.dstPkg) : x.from? m c = if m ∈ x.silent then some m else none := by
  rw [Sent.from?, if_pos h]
  split
  · next hm =>
    obtain ⟨j, hj⟩ := Option.isSome_iff_exists.mp (List.find?_isSome (p := (· == m)).mpr ⟨m, hm, beq_self_eq_true m⟩)
    have hjm : (j == m) = true := List.find?_some (p := fun x => x == m) hj
    rw [hj, beq_iff_eq.mp hjm]
  · next hm =>
    refine List.find?_eq_none.mpr fun j hj => ?_
    rw [beq_iff_eq]
    rintro rfl
    exact hm hj

section
variable {a : MemberAnswer} {data : List Byte}

theorem exec_answerReceive (h : anyPortCarries s = true) :
    exec (.answerReceive k a data) s = .next (takeAnswer s k a.member a.code data) := congrArg Host.Outcome.next (if_pos h)

theorem exec_answerReceive_none (h : anyPortCarries s = false ∨ Tab.find s.fab.sent k = none) :
    exec (.answerReceive k a data) s = .next s := by
  refine congrArg Host.Outcome.next ?_
  rcases h with h | h
  · exact if_neg (by rw [h]; decide)
  · rw [takeAnswer, h, ite_self]

variable (hx : Tab.find s.fab.sent k = some x)

include hx

theorem takeAnswer_nobody {m : Nat} {c : Answer} (h : x.from? m c = none) : takeAnswer s k m c data = s := by
  rw [takeAnswer, hx]
  dsimp only
  rw [h]

variable {m who : Nat} {c : Answer} (hw : x.from? m c = some who)

include hw

theorem takeAnswer_more (h : x.silent.erase who ≠ []) : takeAnswer s k m c data =
    setSent s k { x with silent := x.silent.erase who, worst := worseAnswer x.worst c } := by
  rw [takeAnswer, hx]
  dsimp only
  rw [hw]
  dsimp only
  split
  · next he => exact absurd he h
  · rfl

theorem takeAnswer_last (h : x.silent.erase who = []) : takeAnswer s k m c data =
    if x.lapsed = true then dropSent s k else concludeAnswer s k x (worseAnswer x.worst c) data := by
  rw [takeAnswer, hx]
  dsimp only
  rw [hw]
  dsimp only
  rw [h]

end

theorem movedAnswer_none {s1 : State} (h : rereadVdn s x.die x.pkt.srcFn x.vdn = (s1, .none)) :
    movedAnswer s k x = endAccess s1 k x.pkt.srcFn x.vdn .unreach [] := by rw [movedAnswer, h]

theorem movedAnswer_same {s1 : State} (h : rereadVdn s x.die x.pkt.srcFn x.vdn = (s1, .unicast x.pkt.dstPkg x.pkt.dstFn)) :
    movedAnswer s k x = setSent s1 k { x with movedAt := some s1.now, targets := [], silent := [] } := by
  rw [movedAnswer, h]
  exact if_pos ⟨rfl, rfl⟩

theorem movedAnswer_other {s1 : State} {p f : Nat} (h : rereadVdn s x.die x.pkt.srcFn x.vdn = (s1, .unicast p f))
    (hne : x.pkt.dstPkg ≠ p ∨ x.pkt.dstFn ≠ f) : movedAnswer s k x = resend s1 k x (p, f) := by
  rw [movedAnswer, h]
  exact if_neg fun he => hne.elim (fun hn => hn he.1) fun hn => hn he.2

end

/-! ## The end of an access (R404) -/

section
variable {s : State} {k : Nat} {r : Req} {vdn : Nat} {data : List Byte}

theorem InFlight.endAccess_ok (h : InFlight s k r) (fn : Nat) :
    endAccess s k fn vdn .ok data = okAccess (dropSent s k) k r data := by
  have hf : Tab.find (dropSent s k).reqs k = some r := h.found
  rw [endAccess, endRequest, if_pos rfl]
  dsimp only
  rw [hf]

/-- The state once FB_FERR of a function holds why its access has ended. -/
def ferrSet (s : State) (k fn vdn : Nat) (code : Answer) : State := recordFerr (dropSent s k) fn vdn code

theorem InFlight.endAccess_faults (h : InFlight s k r) {code : Answer}
    (hc : code = .denied ∨ code = .unreach ∨ code = .expired ∨ code = .timeout) : endAccess s k r.fn vdn code data =
      failAccessReq (ferrSet s k r.fn vdn code) k r .fabric .fabric := by
  have hf : Tab.find (ferrSet s k r.fn vdn code).reqs k = some r := h.found
  have hne : code ≠ .ok := by rcases hc with h | h | h | h <;> rw [h] <;> decide
  rw [endAccess, endRequest, if_neg hne]
  rw [show recordFerr (dropSent s k) r.fn vdn code = ferrSet s k r.fn vdn code from rfl, hf]
  rcases hc with h | h | h | h <;> rw [h]

theorem InFlight.endAccess_poison (h : InFlight s k r) : endAccess s k r.fn vdn .poison data =
      failAccessReq (ferrSet s k r.fn vdn .poison) k r .ecc .ecc := by
  have hf : Tab.find (ferrSet s k r.fn vdn .poison).reqs k = some r := h.found
  rw [endAccess, endRequest, if_neg (by decide)]
  rw [show recordFerr (dropSent s k) r.fn vdn .poison = ferrSet s k r.fn vdn .poison from rfl, hf]

/-- A request of a thread that still raises faults, or that had written, faults its thread. -/
theorem failAccessReq_thread {s : State} {t : Thread} (ho : r.owner = .thread t.team t.tix) (ht : s.thread? t.team t.tix = some t)
    (hd : r.dead = false ∨ r.act.writes = true) (hr : raises (completeReq s k) t = true) (c : Code) (sub : MSub) :
    failAccessReq s k r c sub = settle (threadFault (completeReq s k) { t with pc := r.pc } c { addr := r.va.toNat }) := by
  have hown : s.ownerOf r = some t := by rw [State.ownerOf, ho]; exact ht
  have hc : ¬(r.dead && !r.act.writes) = true := by rcases hd with h | h <;> simp [h]
  rw [failAccessReq, ho]
  dsimp only
  rw [if_neg hc, failReq, hown]
  exact congrArg settle (if_pos hr)

theorem raises_of_live {s : State} {t : Thread} (h : t.live = true) : raises s t = true := by
  unfold raises
  unfold Thread.live at h
  split at h
  · cases h
  · cases h
  all_goals next hp => rw [hp]

theorem find_updReq_other {s : State} {j : Nat} (q : Req) (h : j ≠ k) :
    Tab.find (s.updReq k fun _ => q).reqs j = Tab.find s.reqs j := Tab.find_upd_other s.reqs (fun _ => q) h

/-- A request that has been updated is due as it was. -/
theorem ready_updReq {s : State} (h : ready s r = true) {q : Req} (hq : q.performed = true) (hf : Tab.find s.reqs k = some r)
    (hc : r.complete = false) : ready (s.updReq k fun _ => q) r = true := by
  rw [ready, Bool.and_eq_true, List.all_eq_true, List.all_eq_true] at *
  refine ⟨fun j hj => ?_, fun j hj => ?_⟩
  · by_cases hjk : j = k
    · subst hjk
      rw [find_updReq_same, hf, Option.map_some]
      dsimp only
      rw [hq]
      rfl
    · rw [find_updReq_other q hjk]
      exact h.1 j hj
  · have hjk : j ≠ k := by
      rintro rfl
      have hb := h.2 j hj
      rw [hf] at hb
      dsimp only at hb
      rw [hc] at hb
      cases hb
    rw [find_updReq_other q hjk]
    exact h.2 j hj

theorem filledWith_no_flags (t : Thread) (d : Nat) (ws : List Word) (pc : DWord) :
    t.filledWith d ws 0 pc = (t.writeList d ws).withFlags 0 := by
  have hplace : (t.writeList d ws).place = t.place := writeList_keeps Thread.place (fun _ _ _ => rfl) ws t d
  have hen : enabled t 0 = false := by simp [enabled]
  rw [Thread.filledWith, hen, ← hplace]
  simp only [Bool.false_eq_true, false_and, and_false, if_false]
  rfl

end


/-! ## The clauses of R394 to R407 -/

section
variable {s s1 : State} {k : Nat} {r : Req} {v off pk f : Nat} {c : PktClass} {op : PktOp}

/-- A packet that finds no receive slot waits for one, and takes no number. -/
theorem packet_waits_for_slot (hpk : pk < 64) (hf : f < 64) (h : slotsFree (dropSent s1 k) k [pk] = false) :
    ∃ s' x, nameAndSend (dropSent s1 k) k r v off (pk, f) c op = s' ∧ Tab.find s'.fab.sent k = some x ∧ x.sent = false ∧
      x.targets = [pk] ∧ s'.fab.seqs = s1.fab.seqs ∧ (∀ q, s'.port q = s1.port q) ∧ s'.reqs = s1.reqs ∧ SameMemory s1 s' :=
  ⟨_, _, nameAndSend_waits hpk hf h, Tab.find_put_same _ _ _, rfl, rfl, rfl, fun _ => rfl, rfl, sameMemory_of rfl rfl⟩

/-- What a packet that leaves by a port changes: the port's queue, the number of its source and target, and the sent ones. -/
theorem packet_leaves (hpk : pk < 64) (hf : f < 64) (hup : anyPortUp s1 = true) (h : slotsFree (dropSent s1 k) k [pk] = true) :
    ∃ s' q, nameAndSend (dropSent s1 k) k r v off (pk, f) c op = s' ∧ choosePort s1 (r.fn, pk, classNum c) = some q ∧
      (let n := FMap.get 0 s1.fab.seqs (seqKey r.fn pk c)
       (s'.port q).queue =
         (s1.port q).queue ++ [(.request, .packet ⟨ownPackage, r.fn, pk, f, c, n, pk, off, op, false, false⟩)] ∧
       FMap.get 0 s'.fab.seqs (seqKey r.fn pk c) = (n + 1) % 2 ^ 48) ∧
      (∃ x, Tab.find s'.fab.sent k = some x ∧ x.sent = true ∧ x.since = s1.now ∧ x.last = s1.now ∧ x.silent = [pk * 64 + f]) ∧
      s'.reqs = s1.reqs ∧ SameMemory s1 s' := by
  obtain ⟨q, hq⟩ := Option.isSome_iff_exists.mp (choosePort_some (f := (r.fn, pk, classNum c)) hup)
  rw [nameAndSend_goes hpk hf h]
  generalize hs2 : setSent (numbered (dropSent s1 k) r pk c) k (sentOf (dropSent s1 k) r v off pk f c op) = s2
  have hq2 : choosePort s2 (packetOf (dropSent s1 k) r off pk f c op |> Flight.packet).flow = some q := by rw [← hs2]; exact hq
  have hseq : s2.fab.seqs = (numbered s1 r pk c).fab.seqs := by rw [← hs2]; rfl
  refine ⟨_, q, rfl, hq, ⟨(depart_some hq2).1.trans ?_, ?_⟩, ⟨sentOf (dropSent s1 k) r v off pk f c op, ?_, rfl, rfl, rfl, rfl⟩, ?_, ?_⟩
  · rw [← hs2]; rfl
  · rw [emit, depart_fab_keeps Fabric.seqs (fun _ _ _ _ => rfl), hseq]
    exact FMap.get_set_same _ _ _ _
  · rw [emit, depart_fab_keeps Fabric.sent (fun _ _ _ _ => rfl), ← hs2]
    exact Tab.find_put_same _ _ _
  · rw [emit, depart_keeps State.reqs (fun _ _ => rfl), ← hs2]; rfl
  · refine sameMemory_of ?_ ?_
    · rw [emit, depart_keeps State.mem (fun _ _ => rfl), ← hs2]; rfl
    · rw [emit, depart_keeps State.pkg (fun _ _ => rfl), ← hs2]; rfl

end

section
variable {s : State} {k : Nat} {r : Req} {t : Thread} {vdn : Nat} {data : List Byte}

/-- FB_FERR of the function names why the access has ended, and the thread faults at the request's word. -/
theorem InFlight.endAccess_thread (h : InFlight s k r) (ho : r.owner = .thread t.team t.tix) (ht : s.thread? t.team t.tix = some t)
    (hd : r.dead = false ∨ r.act.writes = true) {code : Answer}
    (hr : raises (completeReq (ferrSet s k r.fn vdn code) k) t = true)
    (hc : code = .denied ∨ code = .unreach ∨ code = .expired ∨ code = .timeout) : endAccess s k r.fn vdn code data =
      settle (threadFault (completeReq (ferrSet s k r.fn vdn code) k) { t with pc := r.pc } .fabric { addr := r.va.toNat }) :=
  (h.endAccess_faults hc).trans (failAccessReq_thread (s := ferrSet s k r.fn vdn code) ho ht hd hr _ _)

theorem InFlightFor.endAccess_store (h : InFlightFor s k r t) {v o : Nat} {bs : List Byte} (ha : r.act = .store (.peer v o) bs) :
    endAccess s k r.fn vdn .ok data = settle (completeReq (dropSent s k) k) := by
  rw [h.toInFlight.endAccess_ok, okAccess, h.owner]
  dsimp only
  exact if_pos (by rw [ha]; rfl)

theorem okAccess_read {u i : Nat} (ho : r.owner = .thread u i) (hw : r.act.isWrite = false) : okAccess s k r data =
    fillReq (s.updReq k fun _ => { r with performed := true, data := some data }) k { r with performed := true, data := some data } := by
  rw [okAccess]
  generalize ({ r with performed := true, data := some data } : Req) = q
  rw [ho]
  exact if_neg (Bool.eq_false_iff.mp hw)

/-- A load's answer holds its bytes, and fills its registers. -/
theorem InFlightFor.endAccess_load (h : InFlightFor s k r t) {v o n d : Nat} {sx l1 : Bool}
    (ha : r.act = .load (.peer v o) n sx d l1) : endAccess s k r.fn vdn .ok data =
      filled ((dropSent s k).updReq k fun _ => { r with performed := true, data := some data }) k
        ((t.writeList d (loadWords (overlay data r.psb) sx)).withFlags 0) r.acq := by
  have hfound : Tab.find (dropSent s k).reqs k = some r := h.found
  generalize hq : ({ r with performed := true, data := some data } : Req) = q
  have hfor : InFlightFor ((dropSent s k).updReq k fun _ => q) k q t := by
    subst hq
    refine ⟨⟨(find_updReq_same _ _ _).trans (congrArg _ hfound), h.pending, ?_, h.translated⟩, h.owner, h.thread, h.live⟩
    exact ready_updReq (r := r) (s := dropSent s k) h.due rfl hfound h.pending
  have hqd : q.data = some data := by rw [← hq]
  have hqa : q.act = .load (.peer v o) n sx d l1 := by rw [← hq]; exact ha
  have hqp : q.psb = r.psb ∧ q.acq = r.acq := by rw [← hq]; exact ⟨rfl, rfl⟩
  rw [h.toInFlight.endAccess_ok, okAccess_read h.owner (by rw [ha]; rfl), hq, fillReq,
    if_neg (by rw [hfor.pending, hfor.due]; exact Bool.false_ne_true), hqa]
  dsimp only
  rw [fillLoad_data hqd, hfor.fillWords, filledWith_no_flags, hqp.1, hqp.2]

end

section
variable {s : State} {k : Nat} {x : Sent} (hx : Tab.find s.fab.sent k = some x)

include hx

theorem exec_packetRetransmit : exec (.packetRetransmit k) s =
    .next (if x.sent = true ∧ x.movedAt = none ∧ x.lapsed = false ∧ x.last + 24000 ≤ s.now then
      emit (setSent s k { x with last := s.now, tries := x.tries + 1 }) x.pkt else s) := by
  have he : exec (.packetRetransmit k) s = execPacketRetransmit k s := rfl
  rw [he, execPacketRetransmit, hx]
  refine congrArg _ (ite_eq_of_iff ?_ rfl rfl)
  simp only [Bool.and_eq_true, Option.isNone_iff_eq_none, Bool.not_eq_true', decide_eq_true_eq, and_assoc]

theorem exec_packetTimeout : exec (.packetTimeout k) s =
    .next (if (x.sent = true ∨ x.pkt.resent = true) ∧ x.lapsed = false ∧ x.since + 1200000 ≤ s.now then
      endRequest (if x.silent = [] then dropSent s k else setSent s k { x with lapsed := true }) k x.pkt.srcFn
        x.vdn (worseAnswer x.worst .timeout) [] else s) := by
  have he : exec (.packetTimeout k) s = execPacketTimeout k s := rfl
  rw [he, execPacketTimeout, hx]
  refine congrArg _ (ite_eq_of_iff ?_ rfl rfl)
  simp only [Bool.and_eq_true, Bool.or_eq_true, Bool.not_eq_true', decide_eq_true_eq, and_assoc]

theorem exec_movedResend {t : Nat} (h : x.movedAt = some t) : exec (.movedResend k) s =
    .next (if t + 12000 ≤ s.now then resend s k x (x.pkt.dstPkg, x.pkt.dstFn) else s) := by
  have he : exec (.movedResend k) s = execMovedResend k s := rfl
  rw [he, execMovedResend, hx]
  dsimp only
  rw [h]

end

/-- Entries of a function are dropped on one die. -/
def dropVdnsOn (f : Nat) (s : State) (d : Nat) : State :=
  s.setDie d { s.die d with vdns := (s.die d).vdns.filter fun x => x.fn != f }

theorem dropVdnsOn_same (f : Nat) (s : State) (d : Nat) :
    ((dropVdnsOn f s d).die d).vdns = (s.die d).vdns.filter fun x => x.fn != f := congrArg Die.vdns (State.die_setDie_same _ _ _)

theorem dropVdnsOn_other (f : Nat) (s : State) {d e : Nat} (h : e ≠ d) : (dropVdnsOn f s d).die e = s.die e :=
  FMap.get_set_other _ _ _ h

theorem dropVdnsOn_absent (f d : Nat) (ds : List Nat) : ∀ s : State, d ∉ ds → (ds.foldl (dropVdnsOn f) s).die d = s.die d := by
  induction ds with
  | nil => exact fun _ _ => rfl
  | cons e ds ih =>
    intro s hd
    obtain ⟨hde, hd⟩ := not_or.mp (mt List.mem_cons.mpr hd)
    exact (ih _ hd).trans (dropVdnsOn_other f s hde)

theorem dropVdnsOn_all (f d : Nat) (ds : List Nat) : ∀ s : State, ds.Nodup → d ∈ ds →
    ((ds.foldl (dropVdnsOn f) s).die d).vdns = (s.die d).vdns.filter fun x => x.fn != f := by
  induction ds with
  | nil => exact fun _ _ h => absurd h List.not_mem_nil
  | cons e ds ih =>
    intro s hn hd
    obtain ⟨hne, hn⟩ := List.nodup_cons.mp hn
    by_cases hde : d = e
    · subst hde
      exact (congrArg Die.vdns (dropVdnsOn_absent f d ds _ hne)).trans (dropVdnsOn_same f s d)
    · rw [← dropVdnsOn_other f s hde]
      exact ih _ hn ((List.mem_cons.mp hd).resolve_left hde)

/-- The state once the entries of a function are dropped on every die. -/
def vdnsDropped (f : Nat) (s : State) : State :=
  ([0, 1, 2, 3].foldl (dropVdnsOn f) s).setFn f { ([0, 1, 2, 3].foldl (dropVdnsOn f) s).fn f with vdninv := 0 }

theorem vdnsDropped_memory (f : Nat) (s : State) : SameMemory s (vdnsDropped f s) := by
  have hm := foldl_same State.mem (dropVdnsOn f) (fun _ _ => rfl) [0, 1, 2, 3] s
  have hp := foldl_same State.pkg (dropVdnsOn f) (fun _ _ => rfl) [0, 1, 2, 3] s
  rw [vdnsDropped]
  generalize [0, 1, 2, 3].foldl (dropVdnsOn f) s = x at hm hp
  exact sameMemory_of hm (congrArg (·.zeroings) hp)

theorem vdnsDropped_vdns (f : Nat) (s : State) {d : Nat} (h : d < 4) :
    ((vdnsDropped f s).die d).vdns = (s.die d).vdns.filter fun x => x.fn != f := by
  have hd := dropVdnsOn_all f d [0, 1, 2, 3] s (by decide) (by simp; omega)
  rw [vdnsDropped]
  generalize [0, 1, 2, 3].foldl (dropVdnsOn f) s = x at hd
  exact hd

theorem vdnsDropped_go (f : Nat) (s : State) : ((vdnsDropped f s).fn f).vdninv = 0 := by
  rw [vdnsDropped, State.fn_setFn_same]

theorem exec_vdnInvalidate {s : State} {f : Nat} (h : (s.fn f).vdninv.getLsbD 0 = true) :
    exec (.vdnInvalidate f) s = .next (vdnsDropped f s) := congrArg Host.Outcome.next (if_pos h)

/-- Settles O57: the first sending by what the entry names, the answers by whom they are from, and the timers. -/
theorem peerAccessesSendAndComplete : Obligations.PeerAccessesSendAndComplete := by
  unfold Obligations.PeerAccessesSendAndComplete
  refine ⟨?_, ?_, ?_, ?_, ?_, ?_, ?_⟩
  · intro s k r v off c op s1 h hd hs hpeer hpkt
    rw [h.exec_packetSend hd hs]
    refine ⟨fun kind hk hn => ?_, fun pk f hk hup hfree => ?_, fun pk f hk hup _ hfree => ?_⟩
    · rw [firstSend_unreach hpeer hpkt hk hn]
    · obtain ⟨hpk, hf⟩ := lookupVdn_unicast hk
      obtain ⟨s', x, he, hx⟩ := packet_waits_for_slot (r := r) (v := v) (off := off) (c := c) (op := op) hpk hf hfree
      exact ⟨s', x, congrArg Host.Outcome.next ((firstSend_unicast hpeer hpkt hk hup).trans he), hx⟩
    · obtain ⟨hpk, hf⟩ := lookupVdn_unicast hk
      obtain ⟨s', q, he, hq⟩ := packet_leaves (r := r) (v := v) (off := off) (c := c) (op := op) hpk hf hup hfree
      exact ⟨s', q, congrArg Host.Outcome.next ((firstSend_unicast hpeer hpkt hk hup).trans he), hq⟩
  · intro s k a data
    refine ⟨exec_answerReceive_none, fun x hx hc => ?_⟩
    rw [exec_answerReceive hc]
    refine ⟨fun hw => congrArg _ (takeAnswer_nobody hx hw), fun who hw => ?_⟩
    refine ⟨fun hm => congrArg _ (takeAnswer_more hx hw hm), fun hm hl => ?_, fun hm hl hc => ?_, fun s1 kind hm hl hc hk => ?_⟩
    · rw [takeAnswer_last hx hw hm, if_pos hl]
    · rw [takeAnswer_last hx hw hm, if_neg (Bool.eq_false_iff.mp hl), concludeAnswer, if_neg hc]
    · rw [takeAnswer_last hx hw hm, if_neg (Bool.eq_false_iff.mp hl), concludeAnswer, if_pos hc]
      refine ⟨fun h => ?_, fun h => ?_, fun p f h hne => ?_⟩ <;> subst h
      · rw [movedAnswer_none hk]
      · rw [movedAnswer_same hk]
      · rw [movedAnswer_other hk hne]
  · exact fun x m c => ⟨from_unicast m c, from_group m c⟩
  · intro s k r t vdn data h
    refine ⟨fun v o bs ha => h.endAccess_store ha, fun v o n sx d l1 ha => h.endAccess_load ha, fun code hl hc => ?_, fun hl => ?_⟩
    · exact h.toInFlight.endAccess_thread h.owner h.thread (.inl h.live) (raises_of_live hl) hc
    · exact h.toInFlight.endAccess_poison.trans
        (failAccessReq_thread (s := ferrSet s k r.fn vdn .poison) h.owner h.thread (.inl h.live) (raises_of_live hl) _ _)
  · intro s k r t m vdn data v o bs h ho ht hp hm hst ha code hc
    refine h.endAccess_thread ho ht (.inr (by rw [ha]; rfl)) ?_ hc
    have hm2 : (completeReq (ferrSet s k r.fn vdn code) k).team? t.team = some m := hm
    rw [raises, hp, hm2]
    exact bne_iff_ne.mpr hst
  · exact fun s k x hx => ⟨exec_packetRetransmit hx, exec_packetTimeout hx, fun t ht => exec_movedResend hx ht⟩
  · exact fun s f => ⟨fun h => congrArg _ (if_neg (Bool.eq_false_iff.mp h)), fun h =>
      ⟨_, exec_vdnInvalidate h, vdnsDropped_go f s, fun _ => vdnsDropped_vdns f s, vdnsDropped_memory f s⟩⟩

end Sys2Proof.Machine
end

section
/-! SUPPORT. Packets at their target: duplicates, what holds, forwards or refuses one, and what it performs. -/

namespace Sys2Proof.Machine

/-! ## What accesses to memory leave alone of the fabric -/

/-- The fabric and the time. -/
def State.fabNow (s : State) : Fabric × Nat := (s.fab, s.now)

theorem acquireCore_fabNow (s : State) (c : Nat) (sc : Scope) : (acquireCore s c sc).fabNow = s.fabNow := by cases sc <;> rfl

theorem releaseHeld_fabNow (s : State) (t : Thread) (n : Nat) : (releaseHeld s t n).fabNow = s.fabNow := rfl

theorem releaseAcq_fabNow (s : State) (t : Thread) (sc : Scope) (n : Nat) : (releaseAcq s t sc n).fabNow = s.fabNow := by
  unfold releaseAcq
  split
  · rfl
  · exact (releaseHeld_fabNow _ t n).trans (acquireCore_fabNow s t.core sc)

theorem ignoresWrite_fabNow : IgnoresWrite State.fabNow :=
  ⟨⟨fun _ _ => rfl, fun _ _ => rfl, fun _ _ => rfl, fun _ _ _ => rfl⟩, fun _ _ _ => rfl, fun _ _ => rfl, fun _ _ _ _ => rfl,
    releaseAcq_fabNow, fun _ _ => rfl, fun _ _ _ _ => rfl⟩

/-! ## Identities (R402, R403) -/

theorem isOf_iff (e : Performed) (p : Packet) : e.isOf p = true ↔ e.srcPkg = p.srcPkg ∧ e.srcFn = p.srcFn ∧ e.idPkg = p.idPkg ∧
    e.cls = p.cls ∧ e.seq = p.seq ∧ (p.idPkg < 64 ∨ e.dstFn = p.dstFn) := by
  simp only [Performed.isOf, Bool.and_eq_true, Bool.or_eq_true, beq_iff_eq, decide_eq_true_eq, and_assoc]

theorem sameIdentity_iff (p q : Packet) : sameIdentity p q = true ↔ p.srcPkg = q.srcPkg ∧ p.srcFn = q.srcFn ∧ p.idPkg = q.idPkg ∧
    p.cls = q.cls ∧ p.seq = q.seq ∧ (p.idPkg < 64 ∨ p.dstFn = q.dstFn) := by
  simp only [sameIdentity, Bool.and_eq_true, Bool.or_eq_true, beq_iff_eq, decide_eq_true_eq, and_assoc]

theorem expired_iff (e : Performed) (later : List Performed) (now : Nat) : expired e later now = true ↔
    e.cls = .atomic ∧ (e.since + 1200000 ≤ now ∨
      256 ≤ (later.filter fun x => x.cls == .atomic && x.srcPkg == e.srcPkg).length) := by
  simp only [expired, Bool.and_eq_true, Bool.or_eq_true, beq_iff_eq, decide_eq_true_eq]

/-- The first entry with the packet's identity answers it. -/
theorem duplicateAnswer_found {p : Packet} {now : Nat} {e : Performed} {later : List Performed} (h : e.isOf p = true) :
    ∀ before : List Performed, (∀ x ∈ before, x.isOf p = false) → duplicateAnswer p now (before ++ e :: later) =
      some (if expired e later now = true then (.expired, []) else (e.answer, e.result)) := by
  intro before
  induction before with
  | nil => exact fun _ => if_pos h
  | cons x xs ih =>
    intro hb
    refine (if_neg (Bool.eq_false_iff.mp (hb x List.mem_cons_self))).trans ?_
    exact ih fun y hy => hb y (List.mem_cons_of_mem _ hy)

theorem duplicateAnswer_new {p : Packet} {now : Nat} : ∀ l : List Performed, (∀ x ∈ l, x.isOf p = false) →
    duplicateAnswer p now l = none := by
  intro l
  induction l with
  | nil => exact fun _ => rfl
  | cons x xs ih =>
    intro hb
    refine (if_neg (Bool.eq_false_iff.mp (hb x List.mem_cons_self))).trans ?_
    exact ih fun y hy => hb y (List.mem_cons_of_mem _ hy)

/-! ## Arrival (R400) -/

section
variable {s : State} {p : Packet}

theorem exec_packetReceive_none (h : anyPortCarries s = false ∨ packetOk p = false) : exec (.packetReceive p) s = .next s := by
  refine congrArg Host.Outcome.next ?_
  rcases h with h | h
  · exact if_neg (Bool.eq_false_iff.mp h)
  · have hs : receivePacket s p = s := if_pos (by rw [h]; rfl)
    rw [hs, ite_self]

section
variable (hc : anyPortCarries s = true)

include hc

theorem exec_packetReceive_held {k : Nat} {y : Inbound} (hy : (k, y) ∈ s.fab.inbound) (h : sameIdentity y.pkt p = true) :
    exec (.packetReceive p) s = .next s := by
  have hs : receivePacket s p = s := if_pos (by
    rw [Bool.or_eq_true]
    exact .inr (List.any_eq_true.mpr ⟨(k, y), hy, h⟩))
  exact congrArg Host.Outcome.next ((if_pos hc).trans hs)

variable (hok : packetOk p = true) (hin : ∀ y ∈ s.fab.inbound, sameIdentity y.2.pkt p = false)

include hok hin

theorem receivePacket_looks : exec (.packetReceive p) s =
    .next (match duplicateAnswer p s.now s.fab.performed with | some (code, data) => reply s p code data | none => processPacket s p) := by
  refine congrArg Host.Outcome.next ((if_pos hc).trans (if_neg ?_))
  rw [hok, Bool.or_eq_true]
  rintro (h | h)
  · exact Bool.false_ne_true h
  · obtain ⟨y, hy, hi⟩ := List.any_eq_true.mp h
    exact Bool.eq_false_iff.mp (hin y hy) hi

theorem exec_packetReceive_again {before later : List Performed} {e : Performed} (h : s.fab.performed = before ++ e :: later)
    (hb : ∀ x ∈ before, x.isOf p = false) (he : e.isOf p = true) : exec (.packetReceive p) s =
      .next (if e.cls = .atomic ∧ (e.since + 1200000 ≤ s.now ∨
        256 ≤ (later.filter fun x => x.cls == .atomic && x.srcPkg == e.srcPkg).length) then reply s p .expired []
        else reply s p e.answer e.result) := by
  rw [receivePacket_looks hc hok hin, h, duplicateAnswer_found he before hb]
  by_cases hx : expired e later s.now = true
  · rw [if_pos hx, if_pos ((expired_iff e later s.now).mp hx)]
  · rw [if_neg hx, if_neg fun hn => hx ((expired_iff e later s.now).mpr hn)]

theorem exec_packetReceive_new (h : ∀ e ∈ s.fab.performed, e.isOf p = false) :
    exec (.packetReceive p) s = .next (processPacket s p) := by
  rw [receivePacket_looks hc hok hin, duplicateAnswer_new _ h]

end

/-! ## What becomes of a packet that is new (R400, R406) -/

theorem processPacket_held (h : (s.fn p.dstFn).stopInProgress = true) : processPacket s p = holdPacket s p := if_pos h

section
variable (hs : (s.fn p.dstFn).stopInProgress = false)

include hs

theorem processPacket_moved (h0 : (s.fn p.dstFn).state = 0) (hm : (s.fn p.dstFn).moved = true) : processPacket s p =
    if (s.fn p.dstFn).fwdOn = true then
      emit s { p with dstPkg := (s.fn p.dstFn).fwd.toNat % 64, dstFn := (s.fn p.dstFn).fwd.toNat / 64 % 64, forwarded := true }
    else reply s p .moved [] := (if_neg (Bool.eq_false_iff.mp hs)).trans (if_pos ⟨h0, hm⟩)

theorem processPacket_active (h1 : (s.fn p.dstFn).state = 1) (hr : (s.fn p.dstFn).fmroot.getLsbD 0 = true) : processPacket s p =
    if opReduces p.op = true then performPacket s p 0
    else if (!admitted s p) = true then reply s p .denied []
    else match fmTranslate s p with
      | (s, some pa) => performPacket s p pa
      | (s, none) => stallPacket s p := by
  refine (if_neg (Bool.eq_false_iff.mp hs)).trans ((if_neg fun h => ?_).trans ((if_neg ?_).trans rfl))
  · rw [h1] at h
    exact absurd h.1 (by decide)
  · rw [h1, hr]
    simp

theorem processPacket_inactive (h : ((s.fn p.dstFn).state ≠ 0 ∧ (s.fn p.dstFn).state ≠ 1) ∨
      ((s.fn p.dstFn).state = 0 ∧ (s.fn p.dstFn).moved = false) ∨
      ((s.fn p.dstFn).state = 1 ∧ ((opReduces p.op = false ∧ admitted s p = false) ∨ (s.fn p.dstFn).fmroot.getLsbD 0 = false))) :
    processPacket s p = reply s p .denied [] := by
  rcases h with ⟨h0, h1⟩ | ⟨h0, hm⟩ | ⟨h1, h⟩
  · exact (if_neg (Bool.eq_false_iff.mp hs)).trans ((if_neg fun h => h0 h.1).trans (if_pos (.inl h1)))
  · refine (if_neg (Bool.eq_false_iff.mp hs)).trans ((if_neg fun h => ?_).trans (if_pos (.inl ?_)))
    · exact Bool.eq_false_iff.mp hm h.2
    · rw [h0]
      decide
  · by_cases hr : (s.fn p.dstFn).fmroot.getLsbD 0 = true
    · obtain ⟨ho, ha⟩ := h.resolve_right (fun hf => Bool.eq_false_iff.mp hf hr)
      rw [processPacket_active hs h1 hr, if_neg (Bool.eq_false_iff.mp ho), if_pos (by rw [ha]; rfl)]
    · refine (if_neg (Bool.eq_false_iff.mp hs)).trans ((if_neg fun h => ?_).trans (if_pos (.inr ?_)))
      · rw [h1] at h
        exact absurd h.1 (by decide)
      · rw [Bool.eq_false_iff.mpr hr]
        rfl

variable (h1 : (s.fn p.dstFn).state = 1) (hr : (s.fn p.dstFn).fmroot.getLsbD 0 = true)

include h1 hr

theorem processPacket_reduces {g e n i : Nat} {op : FxOp} {ty : FxTy} {xs : List Nat} (h : p.op = .reduce g e op ty n i xs) :
    processPacket s p = conclude (takePiece s ⟨p.srcPkg, p.srcFn, p.dstFn, g, e, op, ty, n, i, xs, fxMembers s g e⟩) p .ok [] := by
  rw [processPacket_active hs h1 hr, if_pos (by rw [h]; rfl), performPacket, h]

variable (hn : opReduces p.op = false) (ha : admitted s p = true)

include hn ha

theorem processPacket_stalls {s1 : State} (h : fmTranslate s p = (s1, none)) : processPacket s p = stallPacket s1 p := by
  rw [processPacket_active hs h1 hr, if_neg (Bool.eq_false_iff.mp hn), if_neg (by rw [ha]; decide), h]

theorem processPacket_performs {s1 : State} {pa : Nat} (h : fmTranslate s p = (s1, some pa)) :
    processPacket s p = performPacket s1 p pa := by
  rw [processPacket_active hs h1 hr, if_neg (Bool.eq_false_iff.mp hn), if_neg (by rw [ha]; decide), h]

end

end

/-! ## What a packet performs -/

section
variable {s : State} {p : Packet} {pa : Nat}

/-- The entry of a packet that is performed at a time. -/
def performedAt (p : Packet) (now : Nat) (code : Answer) (result : List Byte) : Performed :=
  ⟨p.srcPkg, p.srcFn, p.idPkg, p.cls, p.seq, code, result, now, p.dstFn⟩

/-- A packet's end: its answer goes out, and its entry has been added to those of `s`. -/
def Concluded (s s' : State) (p : Packet) (code : Answer) (result : List Byte) (after : State) : Prop :=
  after = reply s' p code result ∧ s'.fab.performed = s.fab.performed ++ [performedAt p s.now code result]

theorem concluded_of {s1 : State} (h : s1.fabNow = s.fabNow) (code : Answer) (result : List Byte) :
    Concluded s (recordPerformed s1 p code result) p code result (conclude s1 p code result) := by
  have hf : s1.fab = s.fab := congrArg Prod.fst h
  have hn : s1.now = s.now := congrArg Prod.snd h
  refine ⟨rfl, ?_⟩
  rw [← hf, ← hn, recordPerformed, performedAt]

theorem performPacket_write {bs : List Byte} (h : p.op = .write bs) (hp : Plain s pa bs.length) :
    ∃ s', Concluded s s' p .ok [] (performPacket s p pa) ∧ SameMemoryOutside s s' pa bs.length ∧
      ∀ j (h : j < bs.length), readByte s' (pa + j) = bs[j] := by
  obtain ⟨hq, hb, hall⟩ := hp
  obtain ⟨hin, hout⟩ := performWrite_bytes (fn := p.dstFn) hq hb hall
  have hx : performPacket s p pa = conclude (performWrite s p.dstFn pa bs) p .ok [] := by rw [performPacket, h]
  rw [hx]
  exact ⟨_, concluded_of (ignoresWrite_fabNow.performWrite s p.dstFn pa bs) .ok [], hout, hin⟩

theorem performPacket_read {n : Nat} (h : p.op = .read n) : ∃ s', SameMemory s s' ∧
    if poisonedAt s pa n then Concluded s s' p .poison [] (performPacket s p pa)
    else Concluded s s' p .ok (readBytes s pa n) (performPacket s p pa) := by
  have hx : performPacket s p pa = if poisonedAt s pa n then conclude s p .poison []
      else conclude (readMem s p.dstFn pa n).1 p .ok (readMem s p.dstFn pa n).2 := by rw [performPacket, h]; rfl
  rw [hx]
  by_cases hp : poisonedAt s pa n = true
  · rw [if_pos hp]
    exact ⟨recordPerformed s p .poison [], .refl s, (if_pos hp).mpr (concluded_of rfl .poison [])⟩
  · rw [if_neg hp, readMem_value]
    exact ⟨recordPerformed (readMem s p.dstFn pa n).1 p .ok (readBytes s pa n), readMem_memory s p.dstFn pa n,
      (if_neg hp).mpr (concluded_of (ignoresWrite_fabNow.readMem s p.dstFn pa n) .ok _)⟩

/-- The bytes of an update, read and written, in a state where nothing waits for a zeroing there. -/
def packetUpdated (s : State) (p : Packet) (pa n : Nat) : State :=
  performWrite (readMem s p.dstFn pa n).1 p.dstFn pa (leBytes n (opUpdated p.op (leNat (readMem s p.dstFn pa n).2)))

theorem packetUpdated_bytes {n : Nat} (hp : Plain s pa n) : SameMemoryOutside s (packetUpdated s p pa n) pa n ∧
    ∀ j, j < n → readByte (packetUpdated s p pa n) (pa + j) = (leBytes n (opUpdated p.op (leNat (readBytes s pa n)))).getD j 0 := by
  obtain ⟨hq, hb, hall⟩ := hp
  have hquiet : awaitRun s pa n = s := awaitRun_quiet s pa n hq fun i hi => (hall i hi).1
  have hz : (readMem s p.dstFn pa n).1.pkg.zeroings = s.pkg.zeroings := by
    rw [show (readMem s p.dstFn pa n).1 = llcRead (awaitRun s pa n) p.dstFn pa n from rfl, hquiet, llcRead_zeroings]
  have hv : (readMem s p.dstFn pa n).2 = readBytes s pa n := readMem_value s p.dstFn pa n
  have hlen (x : Nat) : (leBytes n x).length = n := length_leBytes _ _
  obtain ⟨hin, hout⟩ := performWrite_bytes (s := (readMem s p.dstFn pa n).1) (fn := p.dstFn)
    (bs := leBytes n (opUpdated p.op (leNat (readMem s p.dstFn pa n).2))) ((pageQueued_congr hz pa).trans hq) hb
    fun j hj => by
      rw [hlen] at hj
      exact ⟨(pageQueued_congr hz _).trans (hall j hj).1, (hall j hj).2⟩
  rw [hlen] at hout
  refine ⟨fun a ha => (hout a ha).trans (readMem_memory s p.dstFn pa n a), fun j hj => (hin j (by rw [hlen]; exact hj)).trans ?_⟩
  rw [← hv, List.getD_eq_getElem?_getD, List.getElem?_eq_getElem (by rw [hlen]; exact hj), Option.getD_some]

theorem performPacket_updates {n : Nat} (hn : opBytes p.op = n) (ho : (∃ op ty x, p.op = .atomic op ty x) ∨ ∃ ty c x, p.op = .cas ty c x)
    (hp : Plain s pa n) (hpo : poisonedAt s pa n = false) :
    ∃ s', Concluded s s' p .ok (readBytes s pa n) (performPacket s p pa) ∧ SameMemoryOutside s s' pa n ∧
      ∀ j, j < n → readByte s' (pa + j) = (leBytes n (opUpdated p.op (leNat (readBytes s pa n)))).getD j 0 := by
  have hx : performPacket s p pa = conclude (packetUpdated s p pa n) p .ok (readMem s p.dstFn pa n).2 := by
    subst hn
    have hpo : ¬poisonedAt s pa (opBytes p.op) = true := Bool.eq_false_iff.mp hpo
    unfold packetUpdated
    rcases ho with ⟨op, ty, x, h⟩ | ⟨ty, c, x, h⟩
    all_goals
      rw [performPacket]
      rw [h] at hpo ⊢
      exact if_neg hpo
  rw [hx, readMem_value]
  have hf : (packetUpdated s p pa n).fabNow = s.fabNow :=
    (ignoresWrite_fabNow.performWrite _ _ _ _).trans (ignoresWrite_fabNow.readMem s p.dstFn pa n)
  exact ⟨_, concluded_of hf .ok _, packetUpdated_bytes hp⟩

end

/-! ## Stalls, windows and results (R402, R403, R406, R413) -/

theorem holdPacket_spec (s : State) (p : Packet) :
    (holdPacket s p).fab.inbound = s.fab.inbound ++ [(s.uid, ⟨p, none, s.now⟩)] ∧ SameMemory s (holdPacket s p) :=
  ⟨rfl, sameMemory_of rfl rfl⟩

theorem stallPacket_spec (s : State) (p : Packet) :
    (∃ k tok, (stallPacket s p).fab.inbound = s.fab.inbound ++ [(k, ⟨p, some tok, s.now⟩)]) ∧ SameMemory s (stallPacket s p) :=
  ⟨⟨_, _, rfl⟩, sameMemory_of rfl rfl⟩

theorem exec_fabricMmuStallTimeout {s : State} {tok k since ty : Nat} {va : DWord} {y : Inbound}
    (h : Tab.find s.pkg.waits tok = some ⟨.fabric k, since, va, ty⟩) (hy : Tab.find s.fab.inbound k = some y) :
    exec (.fabricMmuStallTimeout tok) s =
      .next (if since + 120000 ≤ s.now then reply (takeInbound s k) y.pkt .denied [] else s) := by
  have hx : exec (.fabricMmuStallTimeout tok) s = execFabricMmuStallTimeout tok s := rfl
  rw [hx, execFabricMmuStallTimeout, h]
  refine congrArg _ (ite_eq_of_iff Iff.rfl ?_ rfl)
  rw [answerInbound, hy]
  rfl

theorem exec_forwardingWindowEnd (s : State) (f : Nat) : exec (.forwardingWindowEnd f) s =
    .next (if (s.fn f).fwdOn = true ∧ (s.fn f).fwdSince + 600000 ≤ s.now then
      s.setFn f { s.fn f with fwdOn := false, fwd := BitVec.ofNat 64 ((s.fn f).fwd.toNat % 2 ^ 63) } else s) := by
  have hx : exec (.forwardingWindowEnd f) s = execForwardingWindowEnd f s := rfl
  rw [hx, execForwardingWindowEnd]
  exact congrArg _ (ite_eq_of_iff (by rw [Bool.and_eq_true, decide_eq_true_eq]) rfl rfl)

theorem forgetResults_cons (src now : Nat) (e : Performed) (later : List Performed) : forgetResults src now (e :: later) =
    (if e.srcPkg = src ∧ e.cls = .atomic ∧ (e.since + 1200000 ≤ now ∨
        256 ≤ (later.filter fun x => x.cls == .atomic && x.srcPkg == e.srcPkg).length) then { e with result := [] } else e) ::
      forgetResults src now later := by
  rw [forgetResults]
  exact congrArg (· :: _) (ite_eq_of_iff (and_congr_right fun _ => expired_iff e later now) rfl rfl)

/-- Settles O58: duplicates first, then the state of the target function, and what the packet does there. -/
theorem packetsArePerformedOnce : Obligations.PacketsArePerformedOnce := by
  unfold Obligations.PacketsArePerformedOnce
  refine ⟨fun s p => exec_packetReceive_none, fun s p hc hok => ⟨fun k y hy h => exec_packetReceive_held hc hy h, fun hin =>
    ⟨fun before e later h hb he => exec_packetReceive_again hc hok hin h hb he, fun hnew => ?_⟩⟩, isOf_iff, sameIdentity_iff,
    fun s tok k since va ty y h hy => exec_fabricMmuStallTimeout h hy, fun s f => exec_forwardingWindowEnd s f,
    fun s src => ⟨_, rfl, rfl, sameMemory_of rfl rfl⟩, forgetResults_cons⟩
  have hx := exec_packetReceive_new hc hok hin hnew
  rw [hx]
  refine ⟨fun hs => ?_, fun hs h0 hm => ?_, fun hs h => ?_, fun hs h1 hr g e op ty k i xs ho => ?_, fun hs h1 ha hr => ?_⟩
  · exact ⟨_, congrArg _ (processPacket_held hs), holdPacket_spec s p⟩
  · exact congrArg _ (processPacket_moved hs h0 hm)
  · exact congrArg _ (processPacket_inactive hs h)
  · exact congrArg _ (processPacket_reduces hs h1 hr ho)
  · refine ⟨fun s1 hn hf => ?_, fun s1 pa bs hf ho hp => ?_, fun s1 pa n hf ho => ?_, fun s1 pa op ty x hf ho hp hpo => ?_,
      fun s1 pa ty cmp swap hf ho hp hpo => ?_⟩
    · exact ⟨_, congrArg _ (processPacket_stalls hs h1 hr hn ha hf), stallPacket_spec s1 p⟩
    · rw [processPacket_performs hs h1 hr (by rw [ho]; rfl) ha hf]
      obtain ⟨s', ⟨he, hk⟩, hm⟩ := performPacket_write ho hp
      exact ⟨s', ⟨congrArg _ he, hk⟩, hm.1, hm.2⟩
    · rw [processPacket_performs hs h1 hr (by rw [ho]; rfl) ha hf]
      obtain ⟨s', hm, hk⟩ := performPacket_read (s := s1) (pa := pa) ho
      refine ⟨s', hm, ?_⟩
      split at hk
      · next hp => exact (if_pos hp).mpr ⟨congrArg _ hk.1, hk.2⟩
      · next hp => exact (if_neg hp).mpr ⟨congrArg _ hk.1, hk.2⟩
    · rw [processPacket_performs hs h1 hr (by rw [ho]; rfl) ha hf]
      obtain ⟨s', ⟨he, hk⟩, hout, hin⟩ := performPacket_updates (n := tyBits ty / 8) (by rw [ho]; rfl) (.inl ⟨op, ty, x, ho⟩) hp hpo
      rw [ho] at hin
      exact ⟨s', ⟨congrArg _ he, hk⟩, hout, hin⟩
    · rw [processPacket_performs hs h1 hr (by rw [ho]; rfl) ha hf]
      obtain ⟨s', ⟨he, hk⟩, hout, hin⟩ :=
        performPacket_updates (n := tyBits ty / 8) (by rw [ho]; rfl) (.inr ⟨ty, cmp, swap, ho⟩) hp hpo
      rw [ho] at hin
      exact ⟨s', ⟨congrArg _ he, hk⟩, hout, hin⟩

end Sys2Proof.Machine
end

section
/-! SUPPORT. Multicast groups, the combination of reductions, and Ethernet frames. -/

namespace Sys2Proof.Machine

/-! ## Rewrites of groups (R407) -/

theorem getLsbD_iff (x : DWord) (i : Nat) : x.getLsbD i = true ↔ x.toNat / 2 ^ i % 2 = 1 := by
  rw [BitVec.getLsbD, Nat.testBit_eq_decide_div_mod_eq, decide_eq_true_eq]

/-- The value of FB_MCW with its group, GO and ERR. -/
def mcwOf (g go e : Nat) : DWord := BitVec.ofNat 64 (g + go * 2 ^ 12 + e * 2 ^ 13)

theorem mcwOf_go {g e : Nat} (hg : g < 4096) (he : e < 2) : (mcwOf g 1 e).getLsbD 12 = true := by
  have h : g + 1 * 2 ^ 12 + e * 2 ^ 13 < 2 ^ 64 := by omega
  rw [getLsbD_iff, mcwOf, BitVec.toNat_ofNat, Nat.mod_eq_of_lt h]
  omega

theorem mcwOf_err {g : Nat} (hg : g < 4096) : (mcwOf g 1 1).getLsbD 13 = true := by
  have h : g + 1 * 2 ^ 12 + 1 * 2 ^ 13 < 2 ^ 64 := by omega
  rw [getLsbD_iff, mcwOf, BitVec.toNat_ofNat, Nat.mod_eq_of_lt h]
  omega

/-- One entry of a member list, read. -/
def readMember (pa : Nat) (acc : State × List Nat) (i : Nat) : State × List Nat :=
  if poisonedAt acc.1 (pa + 4 * i) 4 then
    ({ acc.1 with freeCtr := acc.1.freeCtr + 1 }, acc.2 ++ [(Config.freeWord acc.1.freeCtr).toNat % 2 ^ 32])
  else (acc.1, acc.2 ++ [leNat (readBytes acc.1 (pa + 4 * i) 4)])

theorem readMembers_eq (s : State) (pa : Nat) : readMembers s pa = (List.range 64).foldl (readMember pa) (s, []) := rfl

theorem foldl_readMember {s : State} {pa : Nat} : ∀ (is : List Nat) (l : List Nat), (∀ i ∈ is, poisonedAt s (pa + 4 * i) 4 = false) →
    is.foldl (readMember pa) (s, l) = (s, l ++ is.map fun i => leNat (readBytes s (pa + 4 * i) 4)) := by
  intro is
  induction is with
  | nil => exact fun l _ => by rw [List.map_nil, List.append_nil]; rfl
  | cons i is ih =>
    intro l h
    have hi : readMember pa (s, l) i = (s, l ++ [leNat (readBytes s (pa + 4 * i) 4)]) :=
      if_neg (Bool.eq_false_iff.mp (h i List.mem_cons_self))
    rw [List.foldl_cons, hi, ih _ fun j hj => h j (List.mem_cons_of_mem _ hj), List.append_assoc, List.map_cons]
    rfl

theorem readMembers_of {s : State} {pa : Nat} (h : ∀ i, i < 64 → poisonedAt s (pa + 4 * i) 4 = false) :
    readMembers s pa = (s, (List.range 64).map fun i => leNat (readBytes s (pa + 4 * i) 4)) :=
  (readMembers_eq s pa).trans ((foldl_readMember _ [] fun i hi => h i (List.mem_range.mp hi)).trans (by rw [List.nil_append]))

theorem exec_multicastRewrite {s : State} {x : DWord} (hb : booted s = true) (hgo : s.fab.mcw.getLsbD 12 = false)
    (hx : x.getLsbD 12 = true)
    (h : ∀ i, i < 64 → poisonedAt s (s.fab.mcList.toNat % 2 ^ 52 / 256 * 256 + 4 * i) 4 = false) :
    ∃ e, e < 2 ∧ exec (.multicastRewrite x) s = .next { s with fab := { s.fab with
      mcGroups := Tab.put s.fab.mcGroups (x.toNat % 4096)
        ((List.range 64).map fun i => leNat (readBytes s (s.fab.mcList.toNat % 2 ^ 52 / 256 * 256 + 4 * i) 4))
      mcw := mcwOf (x.toNat % 4096) 1 e } } := by
  have hw : ¬s.fab.mcw.toNat / 2 ^ 12 % 2 = 1 := fun hn => Bool.eq_false_iff.mp hgo ((getLsbD_iff _ _).mpr hn)
  refine ⟨if x.getLsbD 13 then 0 else s.fab.mcw.toNat / 2 ^ 13 % 2, ?_, ?_⟩
  · split
    · decide
    · exact Nat.mod_lt _ (by decide)
  · refine congrArg Host.Outcome.next ((if_pos hb).trans ((if_neg hw).trans ((if_pos hx).trans ?_)))
    rw [readMembers_of h]
    rfl

theorem exec_multicastRewrite_busy {s : State} {x : DWord} (hb : booted s = true) (hgo : s.fab.mcw.getLsbD 12 = true)
    (hx : x.getLsbD 12 = true) : exec (.multicastRewrite x) s =
      .next { s with fab := { s.fab with mcw := mcwOf (s.fab.mcw.toNat % 4096) 1 1 } } := by
  refine congrArg Host.Outcome.next ((if_pos hb).trans ((if_pos ((getLsbD_iff _ _).mp hgo)).trans ?_))
  rw [hx]
  rfl

/-! ## Members of a group, in ascending VDN (R407) -/

/-- A member put before those of higher VDN. -/
def insertMember (l : List (Nat × Nat × Nat)) (x : Nat × Nat × Nat) : List (Nat × Nat × Nat) :=
  (l.takeWhile fun y => decide (y.1 ≤ x.1)) ++ [x] ++ (l.dropWhile fun y => decide (y.1 ≤ x.1))

theorem insertMember_perm (l : List (Nat × Nat × Nat)) (x : Nat × Nat × Nat) : (insertMember l x).Perm (x :: l) := by
  rw [insertMember, List.append_assoc]
  exact List.perm_middle.trans (.of_eq (congrArg (x :: ·) List.takeWhile_append_dropWhile))

theorem insertMember_ascending {l : List (Nat × Nat × Nat)} (x : Nat × Nat × Nat) (h : l.Pairwise fun a b => a.1 ≤ b.1) :
    (insertMember l x).Pairwise fun a b => a.1 ≤ b.1 := by
  induction l with
  | nil => exact List.pairwise_singleton _ _
  | cons y l ih =>
    obtain ⟨hy, hl⟩ := List.pairwise_cons.mp h
    by_cases hx : y.1 ≤ x.1
    · have he : insertMember (y :: l) x = y :: insertMember l x := by
        simp only [insertMember, List.takeWhile_cons, List.dropWhile_cons, decide_eq_true hx, if_true, List.cons_append]
      rw [he]
      refine List.pairwise_cons.mpr ⟨fun z hz => ?_, ih hl⟩
      rcases List.mem_cons.mp ((insertMember_perm l x).mem_iff.mp hz) with rfl | hz
      · exact hx
      · exact hy z hz
    · have hn : ¬decide (y.1 ≤ x.1) = true := by rw [decide_eq_true_eq]; exact hx
      have he : insertMember (y :: l) x = x :: y :: l := by
        simp only [insertMember, List.takeWhile_cons, List.dropWhile_cons, decide_eq_false hx, Bool.false_eq_true, if_false,
          List.nil_append, List.cons_append]
      rw [he]
      refine List.pairwise_cons.mpr ⟨fun z hz => ?_, h⟩
      rcases List.mem_cons.mp hz with rfl | hz
      · omega
      · have := hy z hz
        omega

/-- The members that the entries of a group name. -/
def namedMembers (s : State) (g : Nat) : List (Nat × Nat × Nat) :=
  (((Tab.find s.fab.mcGroups g).getD []).filter fun e => e / 2 ^ 31 % 2 == 1).map fun e =>
    (e % 2 ^ 16, e / 2 ^ 16 % 64, e / 2 ^ 22 % 64)

theorem groupMembers_eq (s : State) (g : Nat) : groupMembers s g = (namedMembers s g).foldl insertMember [] := rfl

theorem foldl_insertMember_perm (ms : List (Nat × Nat × Nat)) : ∀ l, (ms.foldl insertMember l).Perm (ms ++ l) := by
  induction ms with
  | nil => exact fun l => .refl l
  | cons x ms ih => exact fun l => (ih _).trans (((insertMember_perm l x).append_left ms).trans List.perm_middle)

theorem groupMembers_perm (s : State) (g : Nat) : (groupMembers s g).Perm (namedMembers s g) :=
  (foldl_insertMember_perm _ []).trans (.of_eq (List.append_nil _))

theorem groupMembers_ascending (s : State) (g : Nat) : (groupMembers s g).Pairwise fun a b => a.1 ≤ b.1 :=
  foldl_keeps (fun l : List (Nat × Nat × Nat) => l.Pairwise fun a b => a.1 ≤ b.1) insertMember
    (fun _ x h => insertMember_ascending x h) _ [] List.Pairwise.nil

theorem mem_groupMembers (s : State) (g : Nat) (m : Nat × Nat × Nat) : m ∈ groupMembers s g ↔
    ∃ e ∈ (Tab.find s.fab.mcGroups g).getD [], e / 2 ^ 31 % 2 = 1 ∧ m = (e % 2 ^ 16, e / 2 ^ 16 % 64, e / 2 ^ 22 % 64) := by
  rw [(groupMembers_perm s g).mem_iff, namedMembers, List.mem_map]
  simp only [List.mem_filter, beq_iff_eq, and_assoc, eq_comm (b := m)]

theorem length_groupMembers (s : State) (g : Nat) : (groupMembers s g).length =
    (((Tab.find s.fab.mcGroups g).getD []).filter fun e => e / 2 ^ 31 % 2 == 1).length :=
  (groupMembers_perm s g).length_eq.trans (List.length_map _)

/-! ## Reductions (R408, R409) -/

theorem mapM_none {α β : Type} {f : α → Option β} {l : List α} (h : ∃ a ∈ l, f a = none) : l.mapM f = none := by
  induction l with
  | nil => obtain ⟨a, ha, _⟩ := h; exact absurd ha List.not_mem_nil
  | cons x l ih =>
    rw [List.mapM_cons]
    cases hx : f x with
    | none => rfl
    | some y =>
      obtain ⟨a, ha, hn⟩ := h
      have hne : a ≠ x := fun he => by rw [he, hx] at hn; cases hn
      rw [ih ⟨a, (List.mem_cons.mp ha).resolve_left hne, hn⟩]
      rfl

theorem mapM_some {α β : Type} {f : α → Option β} : ∀ {l : List α} {ps : List β}, l.map f = ps.map some → l.mapM f = some ps := by
  intro l
  induction l with
  | nil => intro ps h; rw [List.map_nil] at h; rw [List.map_eq_nil_iff.mp h.symm]; rfl
  | cons x l ih =>
    intro ps h
    cases ps with
    | nil => cases h
    | cons p ps =>
      obtain ⟨hx, hl⟩ := List.cons.inj h
      rw [List.mapM_cons, hx, ih hl]
      rfl

section
variable {s : State} {x : Fxr} {remote : List FxPart} (hr : x.result = none)

include hr

theorem fxResult_waits (h : ∃ m ∈ x.members, partOf s x remote m = none) : fxResult s x remote = .waits := by
  rw [fxResult, hr, mapM_none h]

theorem fxResult_of {ps : List (FxOp × FxTy × List Nat)} (h : x.members.map (partOf s x remote) = ps.map some) :
    fxResult s x remote = if (∀ y ∈ ps, y.1 = x.op ∧ y.2.1 = x.ty ∧ y.2.2.length = x.elems.length) then
      .is (reduceAll x.op x.ty (ps.map fun y => y.2.2)) else .differ := by
  rw [fxResult, hr, mapM_some h]
  refine ite_eq_of_iff ?_ rfl rfl
  simp only [List.all_eq_true, Bool.and_eq_true, beq_iff_eq, and_assoc]

end

/-- The next member's elements are the last term. -/
theorem reduceAll_append (op : FxOp) (ty : FxTy) {xss : List (List Nat)} (ys : List Nat) (h : xss ≠ []) :
    reduceAll op ty (xss ++ [ys]) = (List.range (reduceAll op ty xss).length).map fun i =>
      fxCombine op ty ((reduceAll op ty xss).getD i 0) (ys.getD i 0) := by
  cases xss with
  | nil => exact absurd rfl h
  | cons es rest =>
    rw [List.cons_append, reduceAll, List.foldl_append]
    rfl

theorem fxCombine_add_s32 (x y : Word) : fxCombine .add .s32 x.toNat y.toNat = (x + y).toNat := by
  have h : fxCombine .add .s32 x.toNat y.toNat = (BitVec.ofNat 32 x.toNat + BitVec.ofNat 32 y.toNat).toNat := rfl
  rw [h, BitVec.ofNat_toNat, BitVec.ofNat_toNat, BitVec.setWidth_eq, BitVec.setWidth_eq]

section
variable {s : State} {c : FxCompletion} {p : Program} {x : Fxr} (hp : s.program? c.prog = some p)
  (hx : (s.fab.fxrs.find? fun x => x.prog == c.prog && !x.done) = some x)

include hp hx

theorem exec_fxredComplete_stays (h : mayServe s p = false ∨ fxResult s x c.remote = .waits) : exec (.fxredComplete c) s = .next s := by
  have he : exec (.fxredComplete c) s = execFxredComplete c s := rfl
  rw [he, execFxredComplete, hp, hx]
  dsimp only
  refine congrArg _ ?_
  split
  · next hm => rw [h.resolve_left fun hf => Bool.eq_false_iff.mp hf hm]
  · rfl

variable (hm : mayServe s p = true)

include hm

theorem exec_fxredComplete_differ (h : fxResult s x c.remote = .differ) :
    exec (.fxredComplete c) s = .next (faultAll s x.group x.epoch) := by
  have he : exec (.fxredComplete c) s = execFxredComplete c s := rfl
  rw [he, execFxredComplete, hp, hx]
  dsimp only
  rw [if_pos hm, h]

theorem exec_fxredComplete_serves {rs : List Nat} {op : FxOp} {ty : FxTy} {d a : BitVec 3} {b : BitVec 5} {s1 : State} {t : Tensor}
    (h : fxResult s x c.remote = .is rs) (hw : fxWord s c.prog p = some (.fxred op ty d a b, s1)) (ht : readTensor (p.desc d) = some t)
    (hq : ∀ q, (writeResult c.prog (.fxred op ty d a b) t rs (t.n - p.prog.toNat) (keepResult s1 x rs)).program? c.prog = some q →
      q.pc ≠ p.pc ∨ q.stalled = none)
    (hsome : ((writeResult c.prog (.fxred op ty d a b) t rs (t.n - p.prog.toNat) (keepResult s1 x rs)).program? c.prog).isSome = true) :
    exec (.fxredComplete c) s =
      .next (serve (writeResult c.prog (.fxred op ty d a b) t rs (t.n - p.prog.toNat) (keepResult s1 x rs)) x) := by
  have he : exec (.fxredComplete c) s = execFxredComplete c s := rfl
  rw [he, execFxredComplete, hp, hx]
  dsimp only
  rw [if_pos hm, h]
  dsimp only
  rw [serveProgram, hw]
  dsimp only
  rw [ht]
  dsimp only
  generalize writeResult c.prog (.fxred op ty d a b) t rs (t.n - p.prog.toNat) (keepResult s1 x rs) = s3 at hq hsome
  obtain ⟨q, hs⟩ := Option.isSome_iff_exists.mp hsome
  rw [hs]
  refine congrArg _ (if_neg fun hn => ?_)
  rcases hq q hs with hpc | hst
  · exact hpc hn.1
  · rw [hst] at hn
    exact absurd hn.2 (by decide)

end

/-! ## Ethernet (R410, R411) -/

theorem State.eq_setEq_same (s : State) (p q : Nat) (x : Eq) : (s.setEq p q x).eq p q = x := FMap.get_set_same _ _ _ _

theorem writeRuns_fabNow (fn : Nat) (rs : List (Nat × Nat)) : ∀ (bs : List Byte) (s : State), (writeRuns fn rs bs s).fabNow = s.fabNow := by
  induction rs with
  | nil => exact fun _ _ => rfl
  | cons r rs ih => exact fun bs s => (ih _ _).trans (ignoresWrite_fabNow.performWrite s fn r.1 _)

theorem setTlb_fabNow (s : State) (sel : TlbSel) (l : List Xlat) : (s.setTlb sel l).fabNow = s.fabNow := by cases sel <;> rfl

theorem areaRuns_fabNow (fn die : Nat) (k : Right) (ps : List (Nat × Nat)) (s : State) :
    (areaRuns fn die k ps s []).1.fabNow = s.fabNow :=
  areaRuns_keeps State.fabNow setTlb_fabNow ignoresWrite_fabNow.cache.llcRead fn die k ps s []

theorem areaWrite_fabNow (s : State) (fn die va : Nat) (bs : List Byte) : (areaWrite s fn die va bs).1.fabNow = s.fabNow := by
  have h := areaRuns_fabNow fn die .w (pieces va bs.length) s
  unfold areaWrite
  split
  · next hr =>
    rw [hr] at h
    exact (writeRuns_fabNow fn _ bs _).trans h
  · next hr =>
    rw [hr] at h
    exact h

theorem ethStore_fab (s : State) (fn va : Nat) (bs : List Byte) : (ethStore s fn va bs).1.fab = s.fab := by
  have h : (areaWrite s fn 0 va bs).1.fab = s.fab := congrArg Prod.fst (areaWrite_fabNow s fn 0 va bs)
  unfold ethStore
  split
  · next hr => rw [hr] at h; exact h
  · next hr => rw [hr] at h; exact h
  · next hr => rw [hr] at h; exact h

theorem exec_txtailWrite (s : State) (p q f : Nat) (x : Word) : exec (.txtailWrite p q f x) s =
    .next (if q < 16 ∧ (s.eq p q).owner = f then s.setEq p q { s.eq p q with txtail := x } else s) := by
  have hx : exec (.txtailWrite p q f x) s = .next (ethWrite s f p (4096 * q) (BitVec.ofNat 64 x.toNat)) := rfl
  have hdiv : 4096 * q / 4096 = q := by omega
  have hmod : 4096 * q % 4096 = 0 := by omega
  have hlow : lowWord (BitVec.ofNat 64 x.toNat) = x := by
    apply BitVec.eq_of_toNat_eq
    rw [lowWord, BitVec.toNat_ofNat, BitVec.toNat_ofNat]
    omega
  rw [hx, ethWrite, hdiv, hmod]
  dsimp only
  rw [hlow]
  by_cases h : q < 16 ∧ (s.eq p q).owner = f
  · exact congrArg _ ((if_neg (not_or.mpr ⟨by omega, not_not_intro h.2⟩)).trans (if_pos h).symm)
  · refine congrArg _ ((if_pos ?_).trans (if_neg h).symm)
    by_cases hq : q < 16
    · exact .inr fun ho => h ⟨hq, ho⟩
    · exact .inl (by omega)

/-- A frame is sent, with its check sequence. -/
def frameSent (s : State) (port : Nat) (bs : List Byte) : State :=
  { s with fab := { s.fab with frames := Tab.put s.fab.frames port (((Tab.find s.fab.frames port).getD []) ++ [bs ++ frameCheck bs]) } }

theorem sendFrame_sends {s s2 : State} {fn port addr len : Nat} {bs : List Byte} (h60 : 60 ≤ len) (hmax : len ≤ 9212)
    (h : ethLoad s fn addr len = (s2, some bs)) : sendFrame s fn port addr len = (frameSent s2 port bs, 1) := by
  rw [sendFrame, if_neg (not_or.mpr ⟨by omega, by omega⟩), h]
  rfl

section
variable {s : State} {p q : Nat}

theorem exec_frameTransmit_none (h : ¬(p < 2 ∧ q < 16 ∧ (s.eq p q).en = true ∧ (s.eq p q).txhead ≠ (s.eq p q).txtail)) :
    exec (.frameTransmit p q) s = .next s := congrArg Host.Outcome.next (if_neg h)

/-- A queue's descriptor is done: its STATUS is written and TXHEAD goes on. -/
def descriptorDone (s : State) (p q owner a : Nat) (head : Word) : State :=
  (ethStore s owner (a + 10) [BitVec.ofNat 8 1]).1.setEq p q
    { (ethStore s owner (a + 10) [BitVec.ofNat 8 1]).1.eq p q with txhead := head + 1 }

theorem exec_frameTransmit (h : p < 2 ∧ q < 16 ∧ (s.eq p q).en = true ∧ (s.eq p q).txhead ≠ (s.eq p q).txtail) {s1 s2 : State}
    {d bs : List Byte} (hd : ethLoad s (s.eq p q).owner (ringAddr (s.eq p q).tx (s.eq p q).txlog (s.eq p q).txhead) 16 = (s1, some d))
    (h60 : 60 ≤ sliceNat d 8 2) (hmax : sliceNat d 8 2 ≤ 9212)
    (hb : ethLoad s1 (s.eq p q).owner (sliceNat d 0 8) (sliceNat d 8 2) = (s2, some bs)) :
    exec (.frameTransmit p q) s = .next (descriptorDone (frameSent s2 p bs) p q (s.eq p q).owner
      (ringAddr (s.eq p q).tx (s.eq p q).txlog (s.eq p q).txhead) (s.eq p q).txhead) := by
  have hx : exec (.frameTransmit p q) s = execFrameTransmit p q s := rfl
  rw [hx, execFrameTransmit]
  refine congrArg _ ((if_pos h).trans ?_)
  dsimp only
  rw [hd]
  dsimp only
  rw [sendFrame_sends h60 hmax hb]
  rfl

theorem descriptorDone_frames (s : State) (p q owner a : Nat) (head : Word) :
    (descriptorDone s p q owner a head).fab.frames = s.fab.frames := by
  have h := congrArg Fabric.frames (ethStore_fab s owner (a + 10) [BitVec.ofNat 8 1])
  rw [descriptorDone]
  exact h

theorem descriptorDone_txhead (s : State) (p q owner a : Nat) (head : Word) :
    ((descriptorDone s p q owner a head).eq p q).txhead = head + 1 := by rw [descriptorDone, State.eq_setEq_same]

variable {f : List Byte} {fcs : Word} (hp : p < 2)

include hp

theorem exec_frameReceive_drops (h : f.length < 60 ∨ 9212 < f.length ∨ leBytes 4 fcs.toNat ≠ frameCheck f ∨ steered s p f = none) :
    exec (.frameReceive p f fcs) s = .next (dropFrame s p) := by
  refine congrArg Host.Outcome.next ((if_neg (Nat.not_le.mpr hp)).trans ?_)
  split
  · rfl
  · next hn =>
    obtain ⟨h60, hmax, hck⟩ : ¬f.length < 60 ∧ ¬9212 < f.length ∧ ¬leBytes 4 fcs.toNat ≠ frameCheck f := by
      rw [not_or, not_or] at hn
      exact hn
    rw [((h.resolve_left h60).resolve_left hmax).resolve_left hck]

theorem exec_frameReceive {k : Nat} (h60 : 60 ≤ f.length) (hmax : f.length ≤ 9212) (hck : leBytes 4 fcs.toNat = frameCheck f)
    (hk : steered s p f = some k) : exec (.frameReceive p f fcs) s = .next (writeFrame s p k f) := by
  refine congrArg Host.Outcome.next ((if_neg (Nat.not_le.mpr hp)).trans ((if_neg ?_).trans ?_))
  · rw [not_or, not_or]
    exact ⟨by omega, by omega, not_not_intro hck⟩
  · rw [hk]

omit hp

theorem writeFrame_full {k : Nat} (h : (s.eq p k).rxhead = (s.eq p k).rxtail) : writeFrame s p k f = dropFrame s p := if_pos h

theorem writeFrame_stores {k : Nat} {s1 s2 s3 : State} {d : List Byte} (h : (s.eq p k).rxhead ≠ (s.eq p k).rxtail)
    (hd : ethLoad s (s.eq p k).owner (ringAddr (s.eq p k).rx (s.eq p k).rxlog (s.eq p k).rxhead) 8 = (s1, some d))
    (hf : ethStore s1 (s.eq p k).owner (leNat d) f = (s2, true))
    (hs : ethStore s2 (s.eq p k).owner (ringAddr (s.eq p k).rx (s.eq p k).rxlog (s.eq p k).rxhead + 8)
      (leBytes 2 f.length ++ leBytes 6 1) = (s3, true)) :
    writeFrame s p k f = s3.setEq p k { s3.eq p k with rxhead := (s.eq p k).rxhead + 1 } := by
  rw [writeFrame]
  refine (if_neg h).trans ?_
  dsimp only
  rw [hd]
  dsimp only
  rw [hf]
  dsimp only
  rw [hs]

end

theorem dropFrame_counts (s : State) (p : Nat) :
    ((dropFrame s p).eq p 0).drop.toNat = ((s.eq p 0).drop.toNat + 1) % 2 ^ 32 := by
  rw [dropFrame, State.eq_setEq_same]
  dsimp only
  rw [BitVec.toNat_ofNat]
  omega

/-- Settles O59: rewrites of groups, the order and terms of a reduction, and the frames of the queue pairs. -/
theorem groupsReductionsAndFrames : Obligations.GroupsReductionsAndFrames := by
  unfold Obligations.GroupsReductionsAndFrames
  refine ⟨fun s x hb hgo hx => ?_, fun s x hb hgo hx => ?_, fun s => rfl, fun s c p x hp hx => ⟨?_, ?_, ?_⟩,
    fun s x remote hr => ⟨fxResult_waits hr, fun ps => fxResult_of hr⟩,
    fun s g => ⟨groupMembers_ascending s g, mem_groupMembers s g⟩, length_groupMembers,
    fun op ty xss ys h => reduceAll_append op ty ys h, fun op xs => List.map_id' xs, fun op x h => ?_, fun x y => ⟨rfl, rfl, rfl, rfl, rfl, rfl⟩,
    fun op x h => ?_, fxCombine_add_s32, exec_txtailWrite, fun s p q => ⟨exec_frameTransmit_none, ?_⟩, fun s p f fcs hp h => ?_,
    fun s p k f fcs hp h60 hmax hck hk => ?_, dropFrame_counts⟩
  · intro a h
    obtain ⟨e, he, hs⟩ := exec_multicastRewrite hb hgo hx h
    exact ⟨_, hs, Tab.find_put_same _ _ _, mcwOf_go (Nat.mod_lt _ (by decide)) he, sameMemory_of rfl rfl⟩
  · exact ⟨_, exec_multicastRewrite_busy hb hgo hx, mcwOf_err (Nat.mod_lt _ (by decide)), rfl⟩
  · exact exec_fxredComplete_stays hp hx
  · exact exec_fxredComplete_differ hp hx
  · intro op ty d a b s1 rs t hm h hw ht s3 hq hsome
    exact exec_fxredComplete_serves hp hx hm h hw ht hq hsome
  · exact congrArg (fun y => [y]) (if_neg (Bool.eq_false_iff.mp h))
  · exact congrArg (fun y => [y]) (if_pos h)
  · intro hp hq hen hne a s1 d s2 bs hd h60 hmax hb
    refine ⟨_, exec_frameTransmit ⟨hp, hq, hen, hne⟩ hd h60 hmax hb, ?_, descriptorDone_txhead _ _ _ _ _ _⟩
    rw [descriptorDone_frames]
    exact Tab.find_put_same _ _ _
  · exact exec_frameReceive_drops hp h
  · have hx := exec_frameReceive hp h60 hmax hck hk
    refine ⟨fun he => hx.trans (congrArg _ (writeFrame_full he)), ?_⟩
    intro s1 d s2 s3 hne a hd hf hs
    exact hx.trans (congrArg _ (writeFrame_stores hne hd hf hs))

end Sys2Proof.Machine
end

section
/-! SUPPORT. What the host reads and writes. -/

namespace Sys2Proof.Machine

/-! ## Memory (R341) -/

section
variable {s : State} {f pa n : Nat}

theorem physOf_hbm (h : isHbm pa = true) : ∃ a, physOf pa = .hbm a := by
  unfold isHbm at h
  split at h
  · next a ha => exact ⟨a, ha⟩
  · cases h

theorem physOf_host (h : isHost pa = true) : physOf pa = .host := by
  unfold isHost at h
  split at h
  · next ha => exact ha
  · cases h

/-- The state after the host has read bytes of HBM4. -/
def hostHasRead (s : State) (f pa n : Nat) : State := answerHost (readMem s f pa n).1 (readBytes s pa n)

theorem exec_memRead (hb : booted s = true) (hn : 0 < n) (hk : oneKind pa n = true) (hp : isHbm pa = true)
    (hq : ∀ i, i < n → pageQueued s (pa + i) = false) (hpo : poisonedAt s pa n = false) :
    exec (.hostAccess (.memRead f pa n)) s = .next (hostHasRead s f pa n) := by
  obtain ⟨a, ha⟩ := physOf_hbm hp
  have hquiet : awaitRun s pa n = s := awaitRun_quiet s pa n (hq 0 hn) hq
  have hpoison : poisonedAt (readMem s f pa n).1 pa n = false := by
    have hs : (readMem s f pa n).1 = llcRead s f pa n := by rw [show (readMem s f pa n).1 = llcRead (awaitRun s pa n) f pa n from rfl, hquiet]
    have hc : IgnoresCache State.poison := ⟨fun _ _ => rfl, fun _ _ => rfl, fun _ _ => rfl, fun _ _ _ => rfl⟩
    rw [hs, poisonedAt, hc.llcRead, pageQueued_congr (llcRead_zeroings s f pa n)]
    exact hpo
  have hx : exec (.hostAccess (.memRead f pa n)) s = hostRead s f pa n := rfl
  rw [hx, hostRead, if_neg (by omega), if_neg (by rw [hk]; decide), ha]
  dsimp only
  rw [if_neg (by rw [hb]; decide), hostBytes, if_neg (Bool.eq_false_iff.mp hpoison), readBytes_congr (readMem_memory s f pa n)]
  rfl

theorem hostHasRead_memory (s : State) (f pa n : Nat) : SameMemory s (hostHasRead s f pa n) :=
  (readMem_memory s f pa n).trans (sameMemory_of rfl rfl)

variable {bs : List Byte}

theorem exec_memWrite (hb : booted s = true) (hbs : bs ≠ []) (hk : oneKind pa bs.length = true) (hp : isHbm pa = true ∨ isHost pa = true) :
    exec (.hostAccess (.memWrite f pa bs)) s = .next (performWrite s f pa bs) := by
  have hx : exec (.hostAccess (.memWrite f pa bs)) s = hostStore s f pa bs := rfl
  rw [hx, hostStore, if_neg hbs, if_neg (by rw [hk]; decide)]
  rcases hp with hp | hp
  · obtain ⟨a, ha⟩ := physOf_hbm hp
    rw [ha]
    exact congrArg _ (if_pos hb)
  · rw [physOf_host hp]

theorem exec_memRead_nowhere (hn : 0 < n) (hk : oneKind pa n = false) :
    exec (.hostAccess (.memRead f pa n)) s = .fault .noSuchAddress :=
  (if_neg (by omega)).trans (if_pos (by rw [hk]; rfl))

theorem exec_memWrite_nowhere (hbs : bs ≠ []) (hk : oneKind pa bs.length = false) :
    exec (.hostAccess (.memWrite f pa bs)) s = .fault .noSuchAddress :=
  (if_neg hbs).trans (if_pos (by rw [hk]; rfl))

end

/-! ## Configuration space, notify pages and package registers (R319, R365, R366) -/

section
variable {s : State} {f q : Nat}

theorem exec_configRead (h : s.och.stage ≠ 0) (c : CfgField) : exec (.hostAccess (.configRead 0 c)) s =
    .next (answerHost s (leBytes (configWidth c) (configField s 0 c))) := by
  refine congrArg (fun bs => Host.Outcome.next (answerHost s bs)) (if_pos ?_)
  have ho : ochreOpen s = true := bne_iff_ne.mpr h
  rw [ho]
  rfl

section
variable (hb : booted s = true) (hv : visible s f = true) (hq : q < 32)

include hb hv hq

theorem exec_bar0Read_tail : exec (.hostAccess (.bar0Read f (4096 * q + 0x10) 8)) s =
    .next (answerHost s (leBytes 8 (s.lq f q).tail.toNat)) := by
  have hdiv : (4096 * q + 0x10) / 4096 = q := by omega
  have hmod : (4096 * q + 0x10) % 4096 = 0x10 := by omega
  have hlt := (s.lq f q).tail.isLt
  have hx : notifyBytes s f q 0x10 8 = leBytes 8 (BitVec.ofNat 64 (s.lq f q).tail.toNat).toNat := if_pos (by rw [hb]; rfl)
  refine congrArg (fun bs => Host.Outcome.next (answerHost s bs)) ((if_pos ?_).trans ?_)
  · rw [hv, Bool.true_and, decide_eq_true_eq]
    omega
  · rw [hdiv, hmod, hx, BitVec.toNat_ofNat, Nat.mod_eq_of_lt (by omega)]

theorem exec_bar0Write_tail (x : DWord) : exec (.hostAccess (.bar0Write f (4096 * q + 0x10) 8 x)) s =
    .next (writeTail s f q (lowWord x) true) := by
  have hdiv : (4096 * q + 0x10) / 4096 = q := by omega
  have hmod : (4096 * q + 0x10) % 4096 = 0x10 := by omega
  have hx : notifyPut s f q 0x10 8 x true = writeTail s f q (lowWord x) true := if_pos (by rw [hb]; rfl)
  refine congrArg Host.Outcome.next ((if_pos ?_).trans ?_)
  · rw [hv, Bool.true_and, decide_eq_true_eq]
    omega
  · rw [hdiv, hmod, hx]

end

theorem exec_bar2Read {off : Nat} (h : ¬(booted s = true ∧ off = 0x4008)) :
    exec (.hostAccess (.bar2Read off 8)) s = .next (answerHost s (leBytes 8 (pageRead s off).toNat)) :=
  congrArg Host.Outcome.next (if_neg fun hn => h ⟨hn.1, hn.2.1⟩)

theorem exec_csrRead {n : Nat} (hb : booted s = true) (hn : hostCsr n = true) (h : n ≠ 0x110) :
    exec (.hostAccess (.csrRead n)) s = .next (answerHost s (leBytes 8 (packageRead s n).toNat)) := by
  have hx : exec (.hostAccess (.csrRead n)) s = .next (answerHost s (if booted s && hostCsr n then
    leBytes 8 (if n = 0x110 then (s.fn 0).s1root else packageRead s n).toNat else leBytes 8 0)) := rfl
  rw [hx, if_pos (by rw [hb, hn]; rfl), if_neg h]

/-! ## Register writes (R366, R387) -/

theorem exec_registerWrite {off : Nat} {x : DWord} (h8 : off % 8 = 0)
    (h : booted s = true ∨ (s.och.stage ≠ 0 ∧ 0x8000 ≤ off ∧ off < 0x9000)) :
    exec (.registerWrite (.page off) x) s = .next (writeRegister s off x) := by
  refine congrArg Host.Outcome.next ((if_neg (not_not_intro h8)).trans (if_pos ?_))
  rw [Bool.or_eq_true, Bool.and_eq_true, Bool.and_eq_true, decide_eq_true_eq, decide_eq_true_eq]
  exact h.imp_right fun ⟨ho, hl, hh⟩ => ⟨⟨bne_iff_ne.mpr ho, hl⟩, hh⟩

theorem exec_registerWrite_ignored {off : Nat} {x : DWord}
    (h : off % 8 ≠ 0 ∨ (s.och.stage = 0 ∨ (s.och.stage ≠ 2 ∧ off < 0x8000))) : exec (.registerWrite (.page off) x) s = .next s := by
  refine congrArg Host.Outcome.next ?_
  by_cases h8 : off % 8 ≠ 0
  · exact if_pos h8
  · refine (if_neg h8).trans (if_neg fun hn => ?_)
    rw [Bool.or_eq_true, Bool.and_eq_true, Bool.and_eq_true, decide_eq_true_eq, decide_eq_true_eq] at hn
    have hb : booted s = true ↔ s.och.stage = 2 := beq_iff_eq
    have ho : ochreOpen s = true ↔ s.och.stage ≠ 0 := bne_iff_ne
    rw [hb, ho] at hn
    have := h.resolve_left h8
    omega

theorem writeRegister_fn {o : Nat} (hf : f < 64) (ho : o < 0x100) (x : DWord) : writeRegister s (0x100 * f + o) x = fnWrite s f o x := by
  have hdiv : (0x100 * f + o) / 0x100 = f := by omega
  have hmod : (0x100 * f + o) % 0x100 = o := by omega
  rw [writeRegister, if_pos (by omega), hdiv, hmod]

theorem writeRegister_system {d o : Nat} (hd : d < 4) (ho : o < 0x40) (x : DWord) :
    writeRegister s (0x4100 + 0x40 * d + o) x = systemWrite s d o x := by
  have hdiv : (0x4100 + 0x40 * d + o - 0x4100) / 0x40 = d := by omega
  have hmod : (0x4100 + 0x40 * d + o) % 0x40 = o := by omega
  rw [writeRegister, if_neg (by omega), if_pos (by omega), hdiv, hmod]

theorem writeRegister_fabric (hf : f < 64) (x : DWord) : writeRegister s (0xC000 + 0x40 * f) x = fabricWrite s f 0 x := by
  have hdiv : (0xC000 + 0x40 * f - 0xC000) / 0x40 = f := by omega
  have hmod : (0xC000 + 0x40 * f) % 0x40 = 0 := by omega
  rw [writeRegister, if_neg (by omega), if_neg (by omega), if_neg (by omega), if_pos (by omega), hdiv, hmod]

theorem writeRegister_upd (x : DWord) : writeRegister s 0x8020 x = { s with och := { s.och with upd := x } } := by
  rw [writeRegister, if_neg (by decide), if_neg (by decide), if_pos (by decide), ochreWrite, if_neg (by decide)]

theorem vdnbase_fields (x : DWord) :
    (BitVec.ofNat 64 (field x 0 0 + field x 18 51)).toNat = x.toNat % 2 + x.toNat / 2 ^ 18 % 2 ^ 34 * 2 ^ 18 := by
  rw [BitVec.toNat_ofNat, field, field]
  omega

end

/-- Settles O60: the host's accesses by what they reach, and the registers by their blocks of the control page. -/
theorem hostAccessesAndRegisterWrites : Obligations.HostAccessesAndRegisterWrites := by
  unfold Obligations.HostAccessesAndRegisterWrites
  refine ⟨fun s f pa n hb hn hk hp hq hpo => ⟨_, exec_memRead hb hn hk hp hq hpo, rfl, hostHasRead_memory s f pa n⟩,
    fun s f pa bs hb hbs hk hp hpl => ?_, fun s f pa n bs hn hk hl => ?_, fun s h => ⟨_, exec_configRead h _, ?_⟩,
    fun s h => ⟨_, exec_configRead h _, ?_⟩, fun s f q hb hv hf hq => ⟨_, exec_bar0Read_tail hb hv hq, rfl⟩,
    fun s f q x hb hv hf hq => exec_bar0Write_tail hb hv hq x, fun s off h => ⟨_, exec_bar2Read h, rfl⟩,
    fun s n hb hn h => ⟨_, exec_csrRead hb hn h, rfl⟩, fun s v hb => congrArg _ (if_pos hb), fun s f x hb hf => ?_, fun s d x hb hd => ?_,
    fun s f x hb hf => ?_, fun s x h => ?_, fun s off x h => exec_registerWrite_ignored h,
    fun s x hb => congrArg _ (if_pos hb)⟩
  · obtain ⟨hq, h0, hall⟩ := hpl
    obtain ⟨hin, hout⟩ := performWrite_bytes (fn := f) hq h0 hall
    exact ⟨_, exec_memWrite hb hbs hk hp, hout, hin⟩
  · subst hl
    exact ⟨exec_memRead_nowhere hn hk, exec_memWrite_nowhere (List.length_pos_iff.mp hn) hk⟩
  · exact (by decide : leBytes 2 0x4704 = [0x04, 0x47])
  · exact (by decide : leBytes 4 1 = [1, 0, 0, 0])
  · exact (exec_registerWrite (by omega) (.inl hb)).trans (congrArg _ (writeRegister_fn hf (by decide) x))
  · exact (exec_registerWrite (by omega) (.inl hb)).trans (congrArg _ (writeRegister_system hd (by decide) x))
  · refine ⟨_, (exec_registerWrite (by omega) (.inl hb)).trans (congrArg _ (writeRegister_fabric hf x)), ?_⟩
    rw [fabricWrite, State.fn_setFn_same]
    exact vdnbase_fields x
  · exact (exec_registerWrite (by decide) (.inr ⟨h, by decide, by decide⟩)).trans (congrArg _ (writeRegister_upd x))

end Sys2Proof.Machine
end

section
/-! SUPPORT. Memory's canonical form (log 87): what keeps it, and the instructions that write registers alone. -/

namespace Sys2Proof.Machine

set_option Elab.async false

/-- The list of memory's bytes is in its one canonical form. -/
def Canonical (s : State) : Prop := Memory.wf s.mem = true

/-- The state after an outcome, where there is one, has its memory in canonical form. -/
def CanonicalNext (o : Host.Outcome State Fault Refusal) : Prop := ∀ s', o = .next s' → Canonical s'

section
variable {s s' s1 : State}

theorem Canonical.frame (h : Canonical s) (hm : s'.mem = s.mem) : Canonical s' := by
  rw [Canonical, hm]
  exact h

theorem Canonical.via (h : Canonical s) (k : Keeps s s → Keeps s s') : Canonical s' := (k (.refl s)).wf h

theorem Canonical.fst {α : Type} {x : State × α} {a : α} (h : Canonical x.1) (e : x = (s1, a)) : Canonical s1 := by
  rw [e] at h
  exact h

theorem Canonical.snd {α : Type} {x : α × State} {a : α} (h : Canonical x.2) (e : x = (a, s1)) : Canonical s1 := by
  rw [e] at h
  exact h

theorem Canonical.foldl {α : Type} {f : State → α → State} (hf : ∀ s a, Canonical s → Canonical (f s a)) (l : List α)
    (h : Canonical s) : Canonical (l.foldl f s) := foldl_keeps Canonical f hf l s h

theorem Canonical.foldl_frame {α : Type} {f : State → α → State} (h : Canonical s) (hm : ∀ s a, (f s a).mem = s.mem) (l : List α) :
    Canonical (l.foldl f s) := Canonical.foldl (fun s a h => h.frame (hm s a)) l h

/-- A choice between states that are both in form. -/
theorem Canonical.ite {c : Prop} [Decidable c] (ht : Canonical s) (he : Canonical s') : Canonical (if c then s else s') := by
  split
  · exact ht
  · exact he

theorem Canonical.next (h : Canonical s) : CanonicalNext (.next s) := by
  intro s' e
  cases e
  exact h

theorem canonicalNext_fault (f : Fault) : CanonicalNext (.fault f) := by
  intro s' e
  cases e

theorem canonicalNext_refused (r : Refusal) : CanonicalNext (.refused r) := by
  intro s' e
  cases e

/-! ## Thread instructions (R74) -/

theorem Canonical.issueWith (h : Canonical s) {i : Instr} {p : Bool} {fs : List RF} {k : Team → Thread → State}
    (hk : ∀ m t, Canonical (k m t)) : CanonicalNext (issueWith s i p fs k) := fun s' he => wf_issueWith s s' i p fs k h hk he

theorem Canonical.issue (h : Canonical s) {i : Instr} {fs : List RF} {k : Team → Thread → State} (hk : ∀ m t, Canonical (k m t)) :
    CanonicalNext (issue s i fs k) := h.issueWith hk

theorem Canonical.park (h : Canonical s) (t : Thread) (p : Park) : Canonical (park s t p) := h.frame rfl

theorem Canonical.hold (h : Canonical s) (t : Thread) (x : Hold) : Canonical (hold s t x) := h.frame rfl

theorem Canonical.setThread (h : Canonical s) (t : Thread) : Canonical (s.setThread t) := h.frame rfl

theorem Canonical.updTeam (h : Canonical s) (u : Nat) (f : Team → Team) : Canonical (s.updTeam u f) := h.frame rfl

theorem Canonical.setTeam (h : Canonical s) (u : Nat) (m : Team) : Canonical (s.setTeam u m) := h.frame rfl

theorem Canonical.updLaunch (h : Canonical s) (u : Nat) (f : Launch → Launch) : Canonical (s.updLaunch u f) := h.frame rfl

theorem Canonical.updProgram (h : Canonical s) (u : Nat) (f : Program → Program) : Canonical (s.updProgram u f) := h.frame rfl

theorem Canonical.updReq (h : Canonical s) (k : Nat) (f : Req → Req) : Canonical (s.updReq k f) := h.frame rfl

theorem Canonical.setCore (h : Canonical s) (c : Nat) (x : Core) : Canonical (s.setCore c x) := h.frame rfl

theorem Canonical.setCluster (h : Canonical s) (c : Nat) (x : Cluster) : Canonical (s.setCluster c x) := h.frame rfl

theorem Canonical.setDie (h : Canonical s) (d : Nat) (x : Die) : Canonical (s.setDie d x) := h.frame rfl

theorem Canonical.setFn (h : Canonical s) (f : Nat) (x : Fn) : Canonical (s.setFn f x) := h.frame rfl

theorem Canonical.setLq (h : Canonical s) (f q : Nat) (x : LQ) : Canonical (s.setLq f q x) := h.frame rfl

theorem Canonical.arrive (h : Canonical s) (t : Thread) (pc : DWord) : Canonical (arrive s t pc) := h.frame rfl

theorem Canonical.retire (h : Canonical s) (u : Nat) : Canonical (retire s u) := h.frame rfl

theorem Canonical.addReq (h : Canonical s) (r : Req) : Canonical (addReq s r).2 := h.frame rfl

theorem Canonical.completeReq (h : Canonical s) (k : Nat) : Canonical (completeReq s k) := h.frame rfl

theorem Canonical.raiseEvent (h : Canonical s) (ty fn : Nat) (a : DWord) (i : Nat) (w : Waiter) (va : DWord) :
    Canonical (raiseEvent s ty fn a i w va).2 := h.frame rfl

theorem Canonical.stallThread (h : Canonical s) (t : Thread) (fn ipa : Nat) (va : DWord) (info : Nat) (fetch : Bool) :
    Canonical (stallThread s t fn ipa va info fetch) := h.frame rfl

theorem Canonical.threadFault (h : Canonical s) (t : Thread) (c : Code) (i : FaultInfo) : Canonical (threadFault s t c i) :=
  wf_threadFault s t c i h

theorem Canonical.takeTrap (h : Canonical s) (t : Thread) (c : Code) (epc : DWord) (reg : Nat) :
    Canonical (takeTrap s t c epc reg) := wf_takeTrap s t c epc reg h

theorem Canonical.settle (h : Canonical s) : Canonical (settle s) := h.via fun k => k.settle

theorem Canonical.acquireCore (h : Canonical s) (c : Nat) (sc : Scope) : Canonical (acquireCore s c sc) := h.via fun k => k.acquireCore c sc

theorem Canonical.releaseHeld (h : Canonical s) (t : Thread) (n : Nat) : Canonical (releaseHeld s t n) := h.frame rfl

theorem Canonical.releaseAcq (h : Canonical s) (t : Thread) (sc : Scope) (n : Nat) : Canonical (releaseAcq s t sc n) :=
  h.via fun k => k.releaseAcq t sc n

theorem Canonical.readMem (h : Canonical s) (fn pa n : Nat) : Canonical (readMem s fn pa n).1 := wf_readMem s fn pa n h

theorem Canonical.finishAt (h : Canonical s) (t : Thread) (i : Instr) (fl : FFlags) (pc : DWord) : Canonical (finishAt s t i fl pc) :=
  wf_finishAt s t i fl pc h

theorem Canonical.finish (h : Canonical s) (t : Thread) (i : Instr) (fl : FFlags) : Canonical (finish s t i fl) := wf_finish s t i fl h

theorem Canonical.issueReq (h : Canonical s) (t : Thread) (i : Instr) (d k : Nat) (r : Req) : Canonical (issueReq s t i d k r) :=
  wf_issueReq s t i d k r h

theorem Canonical.write1 (h : Canonical s) {i : Instr} {d : Reg} {fs : List RF} {f : Thread → Word} :
    CanonicalNext (write1 s i d fs f) := h.issue fun _ _ => h.finish _ _ _

theorem Canonical.write2 (h : Canonical s) {i : Instr} {d : Reg} {fs : List RF} {f : Thread → DWord} :
    CanonicalNext (write2 s i d fs f) := h.issue fun _ _ => h.finish _ _ _

theorem Canonical.writeFl (h : Canonical s) {i : Instr} {d : Reg} {fs : List RF} {f : Thread → Word × FFlags} :
    CanonicalNext (writeFl s i d fs f) := h.issue fun _ _ => h.finish _ _ _

theorem Canonical.produce (h : Canonical s) (t : Thread) (i : Instr) (d k tag : Nat) (r : Req) : Canonical (produce s t i d k tag r) :=
  (h.addReq r).finish _ _ _

theorem Canonical.divide (h : Canonical s) {i : Instr} {t : Ty} {d : Reg} {a b : Src} {f : Int → Int → Int} :
    CanonicalNext (divide s i t d a b f) := h.issue fun _ _ => Canonical.ite (h.takeTrap _ _ _ _) (h.produce _ _ _ _ _ _)

theorem Canonical.produceFp (h : Canonical s) (t : Thread) (i : Instr) (d : Reg) (r : Nat × FFlags) : Canonical (produceFp s t i d r) := by
  have hf := (h.addReq (t.req s.now none (.value d.toNat [BitVec.ofNat 32 r.1] r.2 true))).finish
    (t.markEmpty d.toNat (producerTag 2 t.pc) 1) i 0
  exact Canonical.ite hf (hf.frame rfl)

theorem Canonical.function1 (h : Canonical s) {i : Instr} {fn : Fun1} {m : FMod} {d : Reg} {a : Src} :
    CanonicalNext (function1 s i fn m d a) := h.issue fun _ _ => h.produceFp _ _ _ _

theorem Canonical.execFdiv (h : Canonical s) (m : FMod) (d : Reg) (a b : Src) : CanonicalNext (execFdiv m d a b s) :=
  h.issue fun _ _ => h.produceFp _ _ _ _

theorem Canonical.convert (h : Canonical s) {i : Instr} {dt st : Ty} {md : RM} {ftz : Bool} {d : Reg} {a : Src} :
    CanonicalNext (convert s i dt st md ftz d a) := h.issue fun _ _ => h.finish _ _ _

theorem Canonical.execPairWord (h : Canonical s) (a b : Half) : CanonicalNext (execPairWord a b s) :=
  h.issue fun _ _ => h.finish _ _ _

end

end Sys2Proof.Machine
end

section
/-! SUPPORT. Memory's canonical form: the instructions that access memory. -/

namespace Sys2Proof.Machine

set_option Elab.async false

section
variable {s : State}

/-! ## Checks and waits (R125, R127, R137) -/

theorem Canonical.checkAccess (h : Canonical s) (u : Nat) (m : Team) (core : Nat) (ea : DWord) (n : Nat) (k : Acc) :
    Canonical (checkAccess s u m core ea n k).1 := by
  unfold Machine.checkAccess
  split
  · exact h
  · exact h.via fun k' => k'.checkGlobal u m core ea n k

theorem Canonical.failAccess (h : Canonical s) (t : Thread) (fn : Nat) (ea : DWord) (c : Chk) : Canonical (failAccess s t fn ea c) := by
  unfold Machine.failAccess
  split
  · exact h
  · exact h.threadFault _ _ _
  · exact h.stallThread _ _ _ _ _ _

theorem Canonical.permFault (h : Canonical s) (t : Thread) (ea : DWord) : Canonical (permFault s t ea) := h.threadFault _ _ _

theorem Canonical.withRoom (h : Canonical s) {k : State} (hk : Canonical k) (t : Thread) (c : Cls) : Canonical (withRoom s t c k) :=
  Canonical.ite (h.park _ _) hk

theorem Canonical.awaiting (h : Canonical s) {k : State} (hk : Canonical k) (t : Thread) (p : Park) : Canonical (awaiting s t p k) :=
  Canonical.ite hk (h.park _ _)

theorem Canonical.afterAcquire (h : Canonical s) {k : State} (hk : Canonical k) (t : Thread) : Canonical (afterAcquire s t k) :=
  Canonical.ite (h.park _ _) hk

theorem Canonical.withAccess (h : Canonical s) {k : State → Loc → Nat → Nat → State}
    (hk : ∀ s loc f ipa, Canonical s → Canonical (k s loc f ipa)) (m : Team) (t : Thread) (ea : DWord) (n : Nat) (acc : Acc) :
    Canonical (withAccess s m t ea n acc k) := by
  have hc := h.checkAccess t.team m t.core ea n acc
  unfold Machine.withAccess
  dsimp only
  split
  · next hr => exact hk _ _ _ _ (hc.fst hr)
  · next hr => exact (hc.fst hr).failAccess _ _ _ _

/-! ## Sending and issuing (R126 to R132, R172 to R174) -/

theorem Canonical.forbidFills (h : Canonical s) (core pa n : Nat) : Canonical (forbidFills s core pa n) := h.frame rfl

theorem Canonical.sendAtomic (h : Canonical s) (core pa n : Nat) : Canonical (sendAtomic s core pa n) :=
  (h.setCore _ _).forbidFills _ _ _

theorem Canonical.sendStore (h : Canonical s) (core : Nat) (own : Agent) (pa : Nat) (bs : List Byte) :
    Canonical (sendStore s core own pa bs) := h.via fun k => k.sendStore core own pa bs

theorem Canonical.credit (h : Canonical s) : Canonical (credit s) := h.frame rfl

theorem Canonical.issueLoad (h : Canonical s) (t : Thread) (i : Instr) (ea : DWord) (loc : Loc) (fn ipa n k d : Nat) (sx alloc : Bool)
    (acq : Option Scope) : Canonical (issueLoad s t i ea loc fn ipa n k d sx alloc acq) := h.issueReq _ _ _ _ _

theorem Canonical.issueStore (h : Canonical s) (t : Thread) (i : Instr) (ea : DWord) (loc : Loc) (fn ipa : Nat) (sc : Scope)
    (bs : List Byte) : Canonical (issueStore s t i ea loc fn ipa sc bs) := by
  refine Canonical.issueReq ?_ _ _ _ _ _
  split
  · exact Canonical.ite (h.sendStore _ _ _ _) h
  · exact h

theorem Canonical.issueDone (h : Canonical s) (t : Thread) (i : Instr) (c : Cls) : Canonical (issueDone s t i c) :=
  (h.addReq _).credit.finish _ _ _

theorem Canonical.demote (h : Canonical s) (u : Nat) (m : Team) : Canonical (demote s u m) := h.via fun k => k.demote u m

theorem Canonical.afterDemotion (h : Canonical s) {k : State → State} (hk : ∀ s, Canonical s → Canonical (k s)) (m : Team) (t : Thread) :
    Canonical (afterDemotion s m t k) := by
  have hd : Canonical (if m.buffers && !(m.frees && drainLeft s t.core t.team) then Machine.demote s t.team m else s) :=
    Canonical.ite (h.demote _ _) h
  exact hd.awaiting (hk _ hd) _ _

theorem Canonical.bufferStore (h : Canonical s) (m : Team) (t : Thread) (i : Instr) (ea : DWord) (loc : Loc) (pa fn ipa : Nat)
    (sc : Scope) (bs : List Byte) : Canonical (bufferStore s m t i ea loc pa fn ipa sc bs) := by
  unfold Machine.bufferStore
  split
  · split
    · exact h.withRoom ((h.setCore _ _).issueDone _ _ _) _ _
    · exact h.withRoom (h.afterDemotion (fun s h => h.issueStore _ _ _ _ _ _ _ _) _ _) _ _
  · exact h.withRoom (h.issueReq _ _ _ _ _) _ _

theorem Canonical.globalStore (h : Canonical s) (m : Team) (t : Thread) (i : Instr) (ea : DWord) (loc : Loc) (fn ipa : Nat)
    (sc : Scope) (bs : List Byte) : Canonical (globalStore s m t i ea loc fn ipa sc bs) := by
  unfold Machine.globalStore
  split
  · exact h.bufferStore _ _ _ _ _ _ _ _ _ _
  · exact h.withRoom (h.awaiting (h.issueStore _ _ _ _ _ _ _ _) _ _) _ _

theorem Canonical.issueLdc (h : Canonical s) (t : Thread) (i : Instr) (pa d : Nat) (w : Width) (r : Req) :
    Canonical (issueLdc s t i pa d w r) := by
  refine Canonical.issueReq ?_ _ _ _ _ _
  split
  · exact h.setCore _ _
  · exact h

theorem Canonical.issueAtomic (h : Canonical s) (t : Thread) (i : Instr) (ea : DWord) (loc : Loc) (fn ipa n d : Nat) (sc : Scope)
    (act : Act) : Canonical (issueAtomic s t i ea loc fn ipa n d sc act) := by
  refine Canonical.issueReq ?_ _ _ _ _ _
  split
  · exact Canonical.ite (h.sendAtomic _ _ _) h
  · exact h

/-! ## Loads and stores -/

theorem Canonical.execLd (h : Canonical s) (w : Width) (sc : Scope) (sx nt : Bool) (d : Reg) (base : Src) (imm : BitVec 24) :
    CanonicalNext (execLd w sc sx nt d base imm s) := by
  refine h.issue fun m t => h.afterAcquire (h.withAccess (fun s loc f ipa h => ?_) _ _ _ _ _) _
  split
  · exact h.permFault _ _
  · exact Canonical.ite (h.permFault _ _) (h.withRoom (h.issueLoad _ _ _ _ _ _ _ _ _ _ _ _) _ _)
  · exact Canonical.ite (h.permFault _ _) (h.withRoom (h.issueLoad _ _ _ _ _ _ _ _ _ _ _ _) _ _)
  · exact Canonical.ite (h.permFault _ _) (h.withRoom (h.issueLoad _ _ _ _ _ _ _ _ _ _ _ _) _ _)
  · exact h.withRoom (h.issueLoad _ _ _ _ _ _ _ _ _ _ _ _) _ _
  · exact h

theorem Canonical.execSt (h : Canonical s) (w : Width) (sc : Scope) (nt : Bool) (v base : Src) (imm : BitVec 24) :
    CanonicalNext (execSt w sc nt v base imm s) := by
  refine h.issue fun m t => h.afterAcquire (h.withAccess (fun s loc f ipa h => ?_) _ _ _ _ _) _
  split
  · exact Canonical.ite (h.permFault _ _) (h.withRoom (h.issueStore _ _ _ _ _ _ _ _) _ _)
  · exact Canonical.ite (h.permFault _ _) (h.globalStore _ _ _ _ _ _ _ _ _)
  · exact Canonical.ite (h.permFault _ _) (h.withRoom (h.issueStore _ _ _ _ _ _ _ _) _ _)
  · exact Canonical.ite (h.permFault _ _) (h.withRoom (h.issueStore _ _ _ _ _ _ _ _) _ _)
  · exact h.globalStore _ _ _ _ _ _ _ _ _
  · exact h

theorem Canonical.execLds (h : Canonical s) (w : Width) (sc : Scope) (sx : Bool) (d : Reg) (base : Src) (imm : BitVec 24) :
    CanonicalNext (execLds w sc sx d base imm s) := by
  refine h.issue fun m t => h.afterAcquire ?_ _
  split
  · exact h.threadFault _ _ _
  · exact h.withRoom (h.issueReq _ _ _ _ _) _ _

theorem Canonical.execSts (h : Canonical s) (w : Width) (sc : Scope) (v base : Src) (imm : BitVec 24) :
    CanonicalNext (execSts w sc v base imm s) := by
  refine h.issue fun m t => h.afterAcquire ?_ _
  split
  · exact h.threadFault _ _ _
  · exact h.withRoom (h.issueReq _ _ _ _ _) _ _

theorem Canonical.execLdc (h : Canonical s) (w : Width) (sx : Bool) (d : Reg) (base : Src) (imm : BitVec 24) :
    CanonicalNext (execLdc w sx d base imm s) := by
  refine h.issue fun m t => h.afterAcquire (h.withAccess (fun s loc f ipa h => ?_) _ _ _ _ _) _
  split
  · exact h.permFault _ _
  · exact Canonical.ite (h.permFault _ _) (h.withRoom (h.issueLoad _ _ _ _ _ _ _ _ _ _ _ _) _ _)
  · exact Canonical.ite (h.permFault _ _) (h.withRoom (h.issueLoad _ _ _ _ _ _ _ _ _ _ _ _) _ _)
  · exact Canonical.ite (h.permFault _ _) (h.withRoom (h.issueLoad _ _ _ _ _ _ _ _ _ _ _ _) _ _)
  · exact h.withRoom (h.issueLdc _ _ _ _ _ _) _ _
  · exact h

theorem Canonical.execPf (h : Canonical s) (nt : Bool) (base : Src) (imm : BitVec 24) : CanonicalNext (execPf nt base imm s) := by
  refine h.issue fun m t => ?_
  have hc := h.checkAccess t.team m t.core (effAddr (rp t base) imm) 1 .load
  split
  · next hr =>
    have h1 := hc.fst hr
    have hm := fun fn pa => h1.readMem fn (pa / 256 * 256) 256
    split
    · exact (Canonical.ite (hm _ _) ((hm _ _).setCore _ _)).finish _ _ _
    · exact h1.finish _ _ _
  · next hr => exact (hc.fst hr).finish _ _ _

/-! ## Atomics, fences, counts and marks -/

theorem Canonical.globalAtomic (h : Canonical s) {i : Instr} {ty : Ty} {sc : Scope} {d : Reg} {a : Src} {fs : List RF}
    {act : Thread → Loc → Act} : CanonicalNext (globalAtomic s i ty sc d a fs act) := by
  refine h.issue fun m t => h.afterAcquire (h.withAccess (fun s loc f ipa h => ?_) _ _ _ _ _) _
  split
  · exact h.permFault _ _
  · exact h.permFault _ _
  · exact h.permFault _ _
  · exact Canonical.ite (h.permFault _ _) (h.withRoom (h.issueAtomic _ _ _ _ _ _ _ _ _ _) _ _)
  · exact Canonical.ite (h.permFault _ _) (h.withRoom (h.issueAtomic _ _ _ _ _ _ _ _ _ _) _ _)
  · exact Canonical.ite (h.permFault _ _) (h.withRoom (h.issueAtomic _ _ _ _ _ _ _ _ _ _) _ _)

theorem Canonical.scratchAtomic (h : Canonical s) {i : Instr} {ty : Ty} {sc : Scope} {d : Reg} {a : Src} {fs : List RF}
    {act : Thread → Loc → Act} : CanonicalNext (scratchAtomic s i ty sc d a fs act) := by
  refine h.issue fun m t => h.afterAcquire ?_ _
  split
  · exact h.threadFault _ _ _
  · exact h.withRoom (h.issueAtomic _ _ _ _ _ _ _ _ _ _) _ _

theorem Canonical.execFence (h : Canonical s) (k : FenceKind) (sc : Scope) : CanonicalNext (execFence k sc s) := by
  refine h.issue fun m t => Canonical.ite (h.finish _ _ _) ?_
  have ha := (h.acquireCore t.core sc).finish t (.fence k sc) 0
  cases k with
  | rel => exact h.awaiting (h.finish _ _ _) _ _
  | acq => exact h.awaiting ha _ _
  | ar => exact h.awaiting (h.awaiting ha _ _) _ _

theorem Canonical.execIfence (h : Canonical s) : CanonicalNext (execIfence s) :=
  h.issue fun _ _ => h.awaiting ((h.setCore _ _).finish _ _ _) _ _

theorem Canonical.execWcnt (h : Canonical s) (c : Cls) (n : BitVec 6) : CanonicalNext (execWcnt c n s) :=
  h.issue fun _ _ => h.awaiting (h.finish _ _ _) _ _

theorem Canonical.execVmark (h : Canonical s) (win : Bool) (k : BitVec 6) (d : Reg) (a : Src) : CanonicalNext (execVmark win k d a s) :=
  h.issue fun _ _ => h.finish _ _ _

end

end Sys2Proof.Machine
end

section
/-! SUPPORT. Memory's canonical form: meetings, exits, barriers, the deque and waiting. -/

namespace Sys2Proof.Machine

set_option Elab.async false

section
variable {s : State}

/-! ## Meetings (R181 to R192, R207) -/

theorem Canonical.noteIdle (h : Canonical s) (u : Nat) : Canonical (noteIdle s u) := h.updTeam _ _

theorem Canonical.releaseIdle (h : Canonical s) (u : Nat) : Canonical (releaseIdle s u) := by
  unfold Machine.releaseIdle
  split
  · exact h
  · refine Canonical.ite (Canonical.foldl (fun s p h => ?_) _ h) h
    split
    · split
      · exact Canonical.ite ((h.releaseHeld _ _).noteIdle _) h
      · exact h
    · exact h

theorem Canonical.leaveMeeting (h : Canonical s) (t : Thread) (d : Nat) (ws : List Word) (fl : FFlags) :
    Canonical (leaveMeeting s t d ws fl) := Canonical.ite (h.takeTrap _ _ _ _) (h.arrive _ _)

theorem Canonical.completeGroup (h : Canonical s) (m : Team) (i : Instr) (ts : List Thread) : Canonical (completeGroup s m i ts) := by
  unfold Machine.completeGroup
  split
  · next d =>
    refine Canonical.releaseIdle ?_ _
    have hs := Canonical.foldl (f := fun s t => Machine.hold s t (.idle d)) (fun s t h => h.hold t _) ts h
    split
    · exact hs.noteIdle _
    · exact hs
  · exact Canonical.foldl (fun s t h => h.leaveMeeting _ _ _ _) ts h

theorem Canonical.completeTeam (h : Canonical s) (i : Instr) (ts : List Thread) : Canonical (completeTeam s i ts) := by
  unfold Machine.completeTeam
  split
  · exact Canonical.foldl (fun s t h => h.releaseAcq _ _ _) ts h
  · exact Canonical.foldl (fun s t h => h.hold _ _) ts h

theorem Canonical.testSet (h : Canonical s) (m : Team) (whole : Bool) (ts : List Thread) : Canonical (testSet s m whole ts) := by
  unfold Machine.testSet
  split
  · exact h
  · refine Canonical.ite (Canonical.ite ?_ (Canonical.threadFault (by exact h.frame rfl) _ _ _)) h
    split
    · exact Canonical.ite (Canonical.ite (h.completeTeam _ _) (h.completeGroup _ _ _)) h
    · exact h

/-- One group of a team that runs is tested. -/
def testGroup (u : Nat) (m : Team) (s : State) (g : Nat) : State :=
  match s.team? u with
  | some m' => if m'.runs then testSet s m' false ((liveOf s u).filter fun t => t.tix / m.w == g) else s
  | none => s

theorem Canonical.testGroup (h : Canonical s) (u : Nat) (m : Team) (g : Nat) : Canonical (testGroup u m s g) := by
  unfold Machine.testGroup
  split
  · exact Canonical.ite (h.testSet _ _ _) h
  · exact h

theorem Canonical.testMeetings (h : Canonical s) (u : Nat) : Canonical (testMeetings s u) := by
  unfold Machine.testMeetings
  split
  · exact h
  · next m _ =>
    have hg : Canonical ((List.range (m.nthr / m.w)).foldl (Machine.testGroup u m) s) := Canonical.foldl (fun s g h => h.testGroup u m g) _ h
    refine Canonical.ite h ?_
    dsimp only
    split
    · exact Canonical.ite (hg.testSet _ _ _) hg
    · exact hg

theorem Canonical.meet (h : Canonical s) (t : Thread) (i : Instr) (vs : List Word) : Canonical (meet s t i vs) :=
  Canonical.ite (h.threadFault _ _ _) (((h.retire _).hold _ _).testMeetings _)

/-! ## Chains and exits (R121, R270 to R273) -/

theorem Canonical.checkKinds (h : Canonical s) (u : Nat) : Canonical (checkKinds s u) := by
  unfold Machine.checkKinds
  split
  · exact h
  · refine Canonical.ite h ?_
    split
    · exact h
    · split
      · exact h.threadFault _ _ _
      · exact h

theorem Canonical.completeReqs (h : Canonical s) (ks : List Nat) : Canonical (ks.foldl Machine.completeReq s) :=
  Canonical.foldl (fun _ k h => h.completeReq k) ks h

theorem Canonical.creditWake (h : Canonical s) : Canonical (creditWake s) := h.via fun k => k.creditWake

theorem Canonical.closeChains (h : Canonical s) (u : Nat) : Canonical (closeChains s u) := by
  unfold Machine.closeChains
  split
  · exact h
  · exact Canonical.ite h (((h.setCluster _ _).updTeam _ _).completeReqs _).creditWake

theorem Canonical.dropWait (h : Canonical s) (k : Nat) : Canonical (dropWait s k) := h.frame rfl

theorem Canonical.checkTeamEnd (h : Canonical s) (u : Nat) : Canonical (checkTeamEnd s u) := h.via fun k => k.checkTeamEnd u

theorem Canonical.exitThread (h : Canonical s) (t : Thread) : Canonical (exitThread s t) := by
  refine Canonical.checkTeamEnd (Canonical.noteIdle (Canonical.testMeetings (Canonical.closeChains (Canonical.checkKinds
    (Canonical.updTeam ?_ _ _) _) _) _) _) _
  split
  · exact h.frame rfl
  · exact h.frame rfl

/-! ## Collectives, barriers (R184 to R192, R197 to R201) -/

theorem Canonical.execBqmax (h : Canonical s) (d : Reg) (a : Src) : CanonicalNext (execBqmax d a s) :=
  h.issue fun _ _ => Canonical.ite (h.threadFault _ _ _) (h.meet _ _ _)

theorem Canonical.execBar (h : Canonical s) (sc : Scope) : CanonicalNext (execBar sc s) :=
  h.issue fun _ _ => Canonical.ite (h.threadFault _ _ _) (Canonical.ite (h.meet _ _ _) (h.awaiting (h.meet _ _ _) _ _))

theorem Canonical.execPhase (h : Canonical s) : CanonicalNext (execPhase s) :=
  h.issue fun _ _ => Canonical.ite (h.threadFault _ _ _) (h.awaiting (h.meet _ _ _) _ _)

theorem Canonical.writeScratch (h : Canonical s) (u off : Nat) (bs : List Byte) : Canonical (writeScratch s u off bs) :=
  h.via fun k => k.writeScratch u off bs

theorem Canonical.withBarrier (h : Canonical s) {k : State} (hk : Canonical k) (m : Team) (t : Thread) (off : Nat) :
    Canonical (withBarrier s m t off k) := by
  refine h.afterAcquire ?_ _
  split
  · exact h.threadFault _ _ _
  · exact Canonical.ite hk (h.awaiting hk _ _)

theorem Canonical.execCbinit (h : Canonical s) (a b : Src) : CanonicalNext (execCbinit a b s) :=
  h.issue fun _ _ => h.withBarrier ((h.writeScratch _ _ _).finish _ _ _) _ _ _

theorem Canonical.execCbarr (h : Canonical s) (sc : Scope) (a b : Src) : CanonicalNext (execCbarr sc a b s) := by
  refine h.issue fun m t => h.afterAcquire ?_ _
  split
  · exact h.threadFault _ _ _
  · exact Canonical.ite (h.withRoom (h.issueReq _ _ _ _ _) _ _) (h.awaiting (h.withRoom (h.issueReq _ _ _ _ _) _ _) _ _)

theorem Canonical.finishAcq (h : Canonical s) (t : Thread) (i : Instr) (sc : Scope) : Canonical (finishAcq s t i sc) :=
  (h.retire _).releaseAcq _ _ _

theorem Canonical.execCbwait (h : Canonical s) (a b : Src) : CanonicalNext (execCbwait a b s) :=
  h.issue fun _ _ => h.withBarrier (Canonical.ite (h.finishAcq _ _ _) ((h.retire _).hold _ _)) _ _ _

theorem Canonical.execCbtest (h : Canonical s) (d : Reg) (a : Src) : CanonicalNext (execCbtest d a s) := by
  refine h.issue fun m t => h.afterAcquire ?_ _
  split
  · exact h.threadFault _ _ _
  · exact h.withRoom (h.issueReq _ _ _ _ _) _ _

/-! ## The deque (R202 to R207) -/

/-- The state of what a deque operation came to. -/
def DqRes.state : DqRes → State
  | .ok s | .full s | .stalled s _ _ _ | .failed s _ => s

theorem Canonical.areaWrite (h : Canonical s) (fn die va : Nat) (bs : List Byte) : Canonical (areaWrite s fn die va bs).1 :=
  wf_areaWrite s fn die va bs h

theorem Canonical.areaRead (h : Canonical s) (fn die va n : Nat) : Canonical (areaRead s fn die va n).1 := wf_areaRead s fn die va n h

theorem Canonical.spillFor (h : Canonical s) (u : Nat) (l : Launch) (num core : Nat) : Canonical (spillFor s u l num core).state := by
  unfold Machine.spillFor
  dsimp only
  split
  · exact h
  · split
    · exact h
    · split
      · exact h
      · next a _ _ =>
        have hw := h.areaWrite l.fn (dieOf core) a (((s.core core).deque.take 32).flatMap entryBytes)
        split
        · next hr => exact (hw.fst hr).setCore _ _
        · next hr => exact hw.fst hr
        · next hr => exact hw.fst hr

theorem Canonical.refill (h : Canonical s) (l : Launch) (core : Nat) : Canonical (refill s l core).state := by
  unfold Machine.refill
  dsimp only
  split
  · next a _ _ _ =>
    have hw := h.areaRead l.fn (dieOf core) a.toNat 1024
    split
    · next hr => exact (hw.fst hr).setCore _ _
    · next hr => exact hw.fst hr
    · next hr => exact hw.fst hr
  · exact h

theorem Canonical.stallArea (h : Canonical s) (t : Thread) (fn ipa va info : Nat) : Canonical (stallArea s t fn ipa va info) := h.frame rfl

theorem Canonical.withDeque (h : Canonical s) {k : State → Launch → State} (hk : ∀ s l, Canonical s → Canonical (k s l)) (m : Team)
    (t : Thread) : Canonical (withDeque s m t k) := by
  unfold Machine.withDeque
  split
  · exact h
  · exact Canonical.ite (h.threadFault _ _ _) (h.afterDemotion (fun s h => hk s _ h) _ _)

theorem Canonical.execDqpush (h : Canonical s) (d : Reg) (a b : Src) : CanonicalNext (execDqpush d a b s) := by
  refine h.issue fun m t => ?_
  split
  · exact h
  · refine Canonical.ite (h.threadFault _ _ _) (Canonical.ite (h.threadFault _ _ _) (h.awaiting (h.withDeque (fun s l h => ?_) _ _) _ _))
    refine Canonical.ite (h.finish _ _ _) ?_
    have hs := h.spillFor m.launch l m.num t.core
    split
    · next hr => rw [hr] at hs; exact hs.finish _ _ _
    · next hr => rw [hr] at hs; exact hs.threadFault _ _ _
    · next hr => rw [hr] at hs; exact hs.stallArea _ _ _ _ _
    · next hr => rw [hr] at hs; exact (((hs.setCore _ _).updLaunch _ _).finish _ _ _).releaseIdle _

theorem Canonical.produceEntry (h : Canonical s) (t : Thread) (i : Instr) (d : Reg) (u : Nat) (e : Option DqEntry) :
    Canonical (produceEntry s t i d u e) := Canonical.issueReq (Canonical.ite (h.updLaunch _ _) h) _ _ _ _ _

theorem Canonical.leaveDeque (h : Canonical s) (core : Nat) : Canonical (leaveDeque s core) := h.via fun k => k.leaveDeque core

theorem Canonical.execDqpop (h : Canonical s) (d : Reg) : CanonicalNext (execDqpop d s) := by
  refine h.issue fun m t => h.withDeque (fun s l h => h.withRoom ?_ _ _) _ _
  have hs := h.refill l t.core
  split
  · next hr => rw [hr] at hs; exact hs
  · next hr => rw [hr] at hs; exact hs.threadFault _ _ _
  · next hr => rw [hr] at hs; exact hs.stallArea _ _ _ _ _
  · next hr => rw [hr] at hs; exact (hs.setCore _ _).produceEntry _ _ _ _ _

theorem Canonical.execDqsteal (h : Canonical s) (d : Reg) : CanonicalNext (execDqsteal d s) := by
  refine h.issue fun m t => h.withDeque (fun s l h => h.withRoom ?_ _ _) _ _
  dsimp only
  split
  · exact h.produceEntry _ _ _ _ _
  · next v _ =>
    have hs := h.refill l v
    split
    · next hr => rw [hr] at hs; exact hs
    · next hr => rw [hr] at hs; exact hs.threadFault _ _ _
    · next hr => rw [hr] at hs; exact hs.stallArea _ _ _ _ _
    · next hr => rw [hr] at hs; exact ((hs.setCore _ _).leaveDeque _).produceEntry _ _ _ _ _

theorem Canonical.execDqidle (h : Canonical s) (d : Reg) : CanonicalNext (execDqidle d s) := by
  refine h.issue fun m t => ?_
  split
  · exact h
  · exact Canonical.ite (h.threadFault _ _ _) (h.meet _ _ _)

/-! ## Identity and waiting (R209 to R212) -/

theorem Canonical.execSid (h : Canonical s) (k : BitVec 4) (d : Reg) : CanonicalNext (execSid k d s) := h.issue fun _ _ => h.finish _ _ _

theorem Canonical.execYield (h : Canonical s) : CanonicalNext (execYield s) := h.issue fun _ _ => (h.retire _).hold _ _

theorem Canonical.execSleep (h : Canonical s) (d : Reg) (a b c : Src) : CanonicalNext (execSleep d a b c s) := by
  refine h.issue fun m t => h.afterAcquire (h.withAccess (fun s loc f ipa h => ?_) _ _ _ _ _) _
  split
  · refine Canonical.ite (h.permFault _ _) (Canonical.ite (h.threadFault _ _ _) (h.awaiting ?_ _ _))
    have hr := h.readMem f
    exact Canonical.ite ((hr _ _).finishAcq _ _ _) (((hr _ _).retire _).hold _ _)
  all_goals exact h.permFault _ _

end

end Sys2Proof.Machine
end

section
/-! SUPPORT. Memory's canonical form: the matrix unit, bound cells and multicast stores. -/

namespace Sys2Proof.Machine

set_option Elab.async false

section
variable {s : State}

/-! ## Chains and requests (R267 to R271) -/

theorem Canonical.wake (h : Canonical s) : Canonical (wake s) := h.via fun k => k.wake

theorem Canonical.execMxbeg (h : Canonical s) (lit : DWord) : CanonicalNext (execMxbeg lit s) := by
  refine h.issue fun m t => ?_
  split
  · exact h.threadFault _ _ _
  · refine Canonical.ite (h.finish _ _ _) (Canonical.ite (h.threadFault _ _ _) (Canonical.ite (h.threadFault _ _ _)
      (Canonical.ite (h.threadFault _ _ _) ?_)))
    split
    · exact h.park _ _
    · exact (Canonical.finish (by exact h.updTeam _ _) _ _ _).wake

theorem Canonical.matrixRequest (h : Canonical s) {i : Instr} {kind : Nat} {kb : Bool} {ch tile : Nat} :
    CanonicalNext (matrixRequest s i kind kb ch tile) := by
  refine h.issue fun m t => Canonical.ite (h.finish _ _ _) ?_
  split
  · exact h.park _ _
  · dsimp only
    split
    · exact h.threadFault _ _ _
    · exact Canonical.ite (h.park _ _) (Canonical.ite (h.park _ _)
        (h.withRoom (((((h.addReq _).setCluster _ _).updTeam _ _).finish _ _ _).checkKinds _) _ _))

theorem Canonical.execMxend (h : Canonical s) (ch : BitVec 2) : CanonicalNext (execMxend ch s) := by
  refine h.issue fun m t => ?_
  split
  · exact h.finish _ _ _
  · exact Canonical.ite (h.finish _ _ _) (h.withRoom ((((h.addReq _).updTeam _ _).finish _ _ _).closeChains _) _ _)

/-! ## Rows of tiles (R279 to R284) -/

theorem Canonical.rowAccess (h : Canonical s) (u k : Nat) (r : Req) : Canonical (rowAccess s u k r) := by
  unfold Machine.rowAccess
  dsimp only
  split
  · exact h
  · split
    · exact (h.updTeam _ _).completeReq _
    · exact (h.updTeam _ _).completeReq _
    · exact h.updReq _ _
    · exact h.updReq _ _
    · exact h

theorem Canonical.drainRows (h : Canonical s) (u : Nat) : Canonical (drainRows s u) := by
  unfold Machine.drainRows
  split
  · exact h
  · refine Canonical.foldl (fun s p h => ?_) _ h
    split
    · exact Canonical.ite (h.rowAccess _ _ _) h
    · exact h

theorem Canonical.issueRow (h : Canonical s) (t : Thread) (i : Instr) (d k : Nat) (act : Act) : Canonical (issueRow s t i d k act) :=
  h.withRoom (((h.addReq _).finish _ _ _).drainRows _).settle _ _

theorem Canonical.execMxzero (h : Canonical s) (tile : BitVec 5) : CanonicalNext (execMxzero tile s) :=
  h.issue fun _ _ => Canonical.ite (h.threadFault _ _ _) (h.issueRow _ _ _ _ _)

theorem Canonical.execMxst (h : Canonical s) (k : BitVec 2) (tile : BitVec 5) (a b : Src) : CanonicalNext (execMxst k tile a b s) :=
  h.issue fun _ _ => Canonical.ite (h.threadFault _ _ _) (Canonical.ite (h.threadFault _ _ _) (h.issueRow _ _ _ _ _))

theorem Canonical.execMxld (h : Canonical s) (fl : Bool) (k : BitVec 2) (tile : BitVec 5) (d : Reg) (b : Src) :
    CanonicalNext (execMxld fl k tile d b s) :=
  h.issue fun _ _ => Canonical.ite (h.threadFault _ _ _) (Canonical.ite (h.threadFault _ _ _) (h.issueRow _ _ _ _ _))

theorem Canonical.execMxtopk (h : Canonical s) (mx s32 : Bool) (tile : BitVec 5) (d : Reg) (b : Src) :
    CanonicalNext (execMxtopk mx s32 tile d b s) := by
  refine h.issue fun m t => Canonical.ite (h.threadFault _ _ _) (Canonical.ite (h.threadFault _ _ _)
    (Canonical.ite (h.threadFault _ _ _) ?_))
  split
  · exact h.park _ _
  · exact h.withRoom ((((h.addReq _).retire _).hold _ _).drainRows _) _ _

theorem Canonical.execMxtopkResult (h : Canonical s) (team tix : Nat) : CanonicalNext (execMxtopkResult team tix s) := by
  refine Canonical.next ?_
  split
  · exact h
  · split
    · split
      · split
        · exact Canonical.ite h ((h.releaseHeld _ _).completeReq _).settle
        · exact h
      · exact h
    · exact h

/-! ## Passes (R265 to R280) -/

theorem Canonical.execPassStart (h : Canonical s) (k : Nat) : CanonicalNext (execPassStart k s) := by
  refine Canonical.next ?_
  split
  · exact h
  · dsimp only
    split
    · exact h
    · split
      · exact h
      · exact h.setCluster _ _

theorem Canonical.execPassPerform (h : Canonical s) (k : Nat) : CanonicalNext (execPassPerform k s) := by
  refine Canonical.next ?_
  split
  · exact h
  · refine Canonical.ite h ?_
    have hc := h.setCluster k { s.cluster k with pass := none }
    dsimp only
    split
    · exact hc
    · exact (Canonical.closeChains (Canonical.checkKinds (Canonical.drainRows
        (Canonical.completeReqs ((hc.setTeam _ _).setCluster _ _) _) _) _) _).settle

theorem Canonical.execRequestPromotion (h : Canonical s) (k j : Nat) : CanonicalNext (execRequestPromotion k j s) := by
  refine Canonical.next ?_
  split
  · exact h
  · exact Canonical.ite (h.setCluster _ _) h

/-! ## Bound cells (R288 to R290) -/

theorem Canonical.lowerCopy (h : Canonical s) (l : Launch) (i : Nat) (v : DWord) (c : Nat) : Canonical (lowerCopy l i v s c) :=
  h.setCore _ _

theorem Canonical.lowerCell (h : Canonical s) (l : Launch) (k i : Nat) (v : DWord) : Canonical (lowerCell l k i v s) :=
  h.setCluster _ _

theorem Canonical.lowerCopies (h : Canonical s) (l : Launch) (i : Nat) (v : DWord) (cs : List Nat) :
    Canonical (cs.foldl (Machine.lowerCopy l i v) s) := Canonical.foldl (fun _ c h => h.lowerCopy l i v c) cs h

theorem Canonical.lowerAll (h : Canonical s) (l : Launch) (k i : Nat) (v : DWord) : Canonical (lowerAll l k i v s) :=
  (h.lowerCell l k i v).lowerCopies l i v _

theorem Canonical.syncCopies (h : Canonical s) (k : Nat) : Canonical (syncCopies s k) := by
  refine Canonical.foldl (fun s p h => ?_) _ h
  split
  · exact h.lowerCopies _ _ _ _
  · exact h

theorem Canonical.withCell (h : Canonical s) {k : Launch → State} (hk : ∀ l, Canonical (k l)) (m : Team) (t : Thread) (i : Nat) :
    Canonical (withCell s m t i k) := by
  unfold Machine.withCell
  split
  · exact h
  · exact Canonical.ite (hk _) (h.threadFault _ _ _)

theorem Canonical.execBndmin (h : Canonical s) (n : BitVec 3) (a : Src) : CanonicalNext (execBndmin n a s) :=
  h.issue fun _ _ => h.withCell (fun _ => ((h.lowerCell _ _ _ _).lowerCopy _ _ _ _).finish _ _ _) _ _ _

theorem Canonical.execBndrd (h : Canonical s) (n : BitVec 3) (d : Reg) : CanonicalNext (execBndrd n d s) :=
  h.issue fun _ _ => h.withCell (fun _ => h.finish _ _ _) _ _ _

theorem Canonical.execBoundPropagation (h : Canonical s) (u i : Nat) : CanonicalNext (execBoundPropagation u i s) := by
  refine Canonical.next ?_
  split
  · exact h
  · dsimp only
    split
    · exact h
    · exact Canonical.foldl (fun s k h => h.lowerAll _ _ _ _) _ h

/-! ## Multicast stores (R195, R291) -/

theorem Canonical.completeJoins (h : Canonical s) : Canonical (completeJoins s) := h.frame rfl

theorem Canonical.addGenWrites (r : Req) (off fn : Nat) (bs : List Byte) (l : List (Nat × BitVec 8)) : ∀ {s : State}, Canonical s →
    Canonical (addGenWrites r off fn bs l s).2 := by
  induction l with
  | nil => exact fun h => h
  | cons p l ih => exact fun h => ih (h.addReq _)

theorem Canonical.execStmc (h : Canonical s) (w : Width) (mask : BitVec 4) (a b : Src) : CanonicalNext (execStmc w mask a b s) := by
  refine h.issue fun m t => h.afterAcquire ?_ _
  dsimp only
  split
  · exact h.threadFault _ _ _
  · refine h.withRoom (Canonical.settle (Canonical.completeJoins (Canonical.finish (Canonical.addReq (Canonical.addGenWrites _ _ _ _ _ ?_) _)
      _ _ _))) _ _
    exact Canonical.foldl (fun s c h => h.setCore _ _) _ h

theorem Canonical.execGenerationCheckedWrite (h : Canonical s) (k : Nat) : CanonicalNext (execGenerationCheckedWrite k s) := by
  refine Canonical.next ?_
  split
  · exact h
  · split
    · exact Canonical.ite (Canonical.completeReq (h.via fun k => k.performGenWrite _ _ _ _ _) _).completeJoins.settle h
    · exact h

end

end Sys2Proof.Machine
end

section
/-! SUPPORT. Memory's canonical form: rows, fetches, and requests that take effect. -/

namespace Sys2Proof.Machine

set_option Elab.async false

section
variable {s : State}

/-! ## Selection and fetch (R125, R157 to R159, R351) -/

theorem Canonical.execRowSelection (h : Canonical s) (core : Nat) : CanonicalNext (execRowSelection core s) := by
  refine Canonical.next ?_
  unfold Machine.selectRow
  dsimp only
  split
  · exact h.setCore _ _
  · split
    · exact h.setCore _ _
    · refine Canonical.foldl (fun s slot h => ?_) _ (by exact h.frame rfl)
      split
      · exact h.setThread _
      · exact h

theorem Canonical.translate (h : Canonical s) (sel : TlbSel) (fn va : Nat) (k : Right) : Canonical (translate s sel fn va k).1 :=
  h.via fun k' => k'.translate sel fn va k

theorem Canonical.keepXlat (h : Canonical s) (core slot : Nat) (e : Xlat) : Canonical (keepXlat s core slot e) := h.setCore _ _

theorem Canonical.fetchXlat (h : Canonical s) (core slot fn va : Nat) : Canonical (fetchXlat s core slot fn va).1 := by
  have ht := h.translate (.fetch core) fn va .x
  unfold Machine.fetchXlat
  split
  · exact h
  · split
    · next hr => exact (ht.fst hr).keepXlat _ _ _
    · exact ht

theorem Canonical.fetchPhys (h : Canonical s) (core fn pa : Nat) : Canonical (fetchPhys s core fn pa).1 := by
  unfold Machine.fetchPhys
  split
  · exact h
  · split
    · exact h
    · exact (h.readMem _ _ _).setCore _ _

theorem Canonical.fetchWord (h : Canonical s) (m : Team) (core slot : Nat) (a : DWord) : Canonical (fetchWord s m core slot a).1 := by
  unfold Machine.fetchWord
  split
  · exact h
  · next l _ =>
    have hx := h.fetchXlat core slot l.fn a.toNat
    split
    · exact h
    · split
      · exact h
      · split
        · exact h
        · split
          · next hr => exact hx.fst hr
          · next hr => exact hx.fst hr
          · next hr =>
            split
            · exact (hx.fst hr).fetchPhys _ _ _
            · exact hx.fst hr

theorem Canonical.fetchStop (h : Canonical s) (t : Thread) (fn : Nat) (a : DWord) (f : Fetched) : Canonical (fetchStop s t fn a f) := by
  cases f with
  | word w => exact h
  | fault c => exact h.threadFault _ _ _
  | stall ipa info => exact h.stallThread _ _ _ _ _ _

/-- Both states of a fetch: the one that goes on and the one in which the thread stops. -/
def CanonicalFetch (p : State × Issue) : Prop := Canonical p.1 ∧ ∀ s', p.2 = .stop s' → Canonical s'

theorem Canonical.fetchStops (h : Canonical s) {s1 : State} (h1 : Canonical s1) : CanonicalFetch (s, .stop s1) :=
  ⟨h, fun _ e => Issue.stop.inj e ▸ h1⟩

theorem Canonical.fetchGoesOn (h : Canonical s) {x : Issue} (hx : ∀ s', x ≠ .stop s') : CanonicalFetch (s, x) :=
  ⟨h, fun s' e => absurd e (hx s')⟩

theorem Canonical.fetchInstr (h : Canonical s) (m : Team) (t : Thread) (issued : Nat) : CanonicalFetch (fetchInstr s m t issued) := by
  have hw := h.fetchWord m t.core t.slot t.pc
  unfold Machine.fetchInstr
  dsimp only
  split
  · next s1 w hr =>
    have h1 := hw.fst hr
    have hl := h1.fetchWord m t.core t.slot (t.pc + 8)
    split
    · split
      · exact h1.fetchGoesOn fun _ e => Issue.noConfusion e
      · split
        · next hr2 =>
          split
          · exact (hl.fst hr2).fetchGoesOn fun _ e => Issue.noConfusion e
          · exact (hl.fst hr2).fetchStops ((hl.fst hr2).threadFault _ _ _)
        · next hr2 => exact (hl.fst hr2).fetchStops ((hl.fst hr2).fetchStop _ _ _ _)
    · split
      · exact h1.fetchGoesOn fun _ e => Issue.noConfusion e
      · exact h1.fetchStops (h1.threadFault _ _ _)
  · next hr => exact (hw.fst hr).fetchStops ((hw.fst hr).fetchStop _ _ _ _)

/-! ## The row after a word (R76, R160) -/

theorem Canonical.setRow (h : Canonical s) (core stream : Nat) (r : Row) : Canonical (s.setRow core stream r) := h.frame rfl

theorem Canonical.endRow (h : Canonical s) (core stream : Nat) : Canonical (s.endRow core stream) := h.frame rfl

theorem Canonical.arriveSlots (h : Canonical s) (core : Nat) (l : List Nat) : Canonical (arriveSlots s core l) := by
  refine Canonical.foldl (fun s k h => ?_) _ h
  split
  · exact h.arrive _ _
  · exact h

theorem Canonical.finishRow (h : Canonical s) (core stream : Nat) : Canonical (finishRow s core stream) := by
  unfold Machine.finishRow
  split
  · exact h
  · exact (h.endRow _ _).arriveSlots _ _

theorem Canonical.advanceRow (h : Canonical s) (core stream : Nat) (r : Row) : Canonical (advanceRow s core stream r) := by
  unfold Machine.advanceRow
  split
  · exact h.endRow _ _
  · split
    · exact h.endRow _ _
    · exact Canonical.ite ((h.setRow _ _ _).finishRow _ _) ((h.setRow _ _ _).arriveSlots _ _)

theorem Canonical.settleRow (h : Canonical s) (core stream slot : Nat) : Canonical (settleRow s core stream slot) := by
  unfold Machine.settleRow
  split
  · exact h
  · exact Canonical.ite (h.advanceRow _ _ _) (h.setRow _ _ _)

/-! ## Fills (R35, R110, R127) -/

theorem Canonical.fillWords (h : Canonical s) (k : Nat) (r : Req) (d : Nat) (ws : List Word) (fl : FFlags) :
    Canonical (fillWords s k r d ws fl) := by
  unfold Machine.fillWords
  split
  · split
    · refine Canonical.ite (h.completeReq _).settle (Canonical.settle ?_)
      split
      · exact ((h.setThread _).completeReq _).acquireCore _ _
      · exact (h.setThread _).completeReq _
    · exact (h.completeReq _).settle
  · exact h.completeReq _
  · exact h.completeReq _
  · exact h.completeReq _

theorem Canonical.failReq (h : Canonical s) (k : Nat) (r : Req) (c : Code) : Canonical (failReq s k r c) := h.via fun k' => k'.failReq k r c

theorem Canonical.eccFault (h : Canonical s) (k : Nat) (r : Req) : Canonical (eccFault s k r) :=
  Canonical.ite (h.completeReq _).settle (h.failReq _ _ _)

theorem Canonical.sample (h : Canonical s) {fn : Nat} {loc : Loc} {n : Nat} {s1 : State} {bs : List Byte}
    (e : sample s fn loc n = .bytes s1 bs) : Canonical s1 := by
  unfold Machine.sample at e
  split at e
  · split at e
    · cases e
    · cases e
      exact h.readMem _ _ _
  all_goals cases e
  all_goals exact h

theorem Canonical.fillL1 (h : Canonical s) (r : Req) (pa : Nat) (bs : List Byte) (alloc : Bool) : Canonical (fillL1 s r pa bs alloc) := by
  unfold Machine.fillL1
  split
  · exact h.setCore _ _
  · exact h

theorem Canonical.fillConst (h : Canonical s) (r : Req) (pa : Nat) : Canonical (fillConst s r pa) := by
  unfold Machine.fillConst
  split
  · exact Canonical.ite h (h.setCore _ _)
  · exact h

theorem Canonical.readHalf (h : Canonical s) (k : Nat) (r : Req) (loc : Loc) : Canonical (readHalf s k r loc) := by
  have hf : Canonical (freeHalf s).2 := h.frame rfl
  unfold Machine.readHalf
  dsimp only
  split
  · exact hf
  · exact hf.eccFault _ _
  · next hr =>
    refine Canonical.updReq ?_ _ _
    split
    · exact (hf.sample hr).fillL1 _ _ _ _
    · exact hf.sample hr

theorem Canonical.readWhole (h : Canonical s) (k : Nat) (r : Req) (loc : Loc) (n d : Nat) (sx alloc : Bool) :
    Canonical (readWhole s k r loc n d sx alloc) := by
  unfold Machine.readWhole
  split
  · exact h
  · exact h.eccFault _ _
  · next hr =>
    refine Canonical.fillWords ?_ _ _ _ _ _
    split
    · exact (h.sample hr).fillL1 _ _ _ _
    · exact h.sample hr

theorem Canonical.fillLoad (h : Canonical s) (k : Nat) (r : Req) (loc : Loc) (n d : Nat) (sx alloc : Bool) :
    Canonical (fillLoad s k r loc n d sx alloc) := by
  unfold Machine.fillLoad
  split
  · exact h.fillWords _ _ _ _ _
  · exact Canonical.ite (h.readHalf _ _ _) (h.readWhole _ _ _ _ _ _ _)

theorem Canonical.shareRead (h : Canonical s) (lead : Nat) (unit : List Byte) : Canonical (shareRead s lead unit) := h.frame rfl

theorem Canonical.fillLdc (h : Canonical s) (k : Nat) (r : Req) (pa n d : Nat) (sx : Bool) : Canonical (fillLdc s k r pa n d sx) := by
  unfold Machine.fillLdc
  dsimp only
  refine Canonical.ite h ?_
  split
  · exact h.fillWords _ _ _ _ _
  · refine Canonical.ite h ?_
    split
    · exact h
    · exact h.eccFault _ _
    · next hr => exact ((((h.sample hr).fillL1 _ _ _ _).fillConst _ _).shareRead _ _).fillWords _ _ _ _ _

theorem Canonical.fillReq (h : Canonical s) (k : Nat) (r : Req) : Canonical (fillReq s k r) := by
  unfold Machine.fillReq
  refine Canonical.ite h ?_
  split
  case h_1 => exact h.fillWords _ _ _ _ _
  case h_2 => exact h.fillLoad _ _ _ _ _ _ _
  case h_3 => exact h.fillLdc _ _ _ _ _ _
  case h_7 => exact h.fillWords _ _ _ _ _
  case h_4 | h_5 | h_6 =>
    split
    · exact h.fillWords _ _ _ _ _
    · exact h
  all_goals exact h

theorem Canonical.execProducerFill (h : Canonical s) (k : Nat) : CanonicalNext (execProducerFill k s) := by
  refine Canonical.next ?_
  split
  · exact h.fillReq _ _
  · exact h

/-! ## Atomics, stores and time-outs (R128, R134, R135, R211, R212) -/

theorem Canonical.performWrite (h : Canonical s) (fn pa : Nat) (bs : List Byte) : Canonical (performWrite s fn pa bs) :=
  h.via fun k => k.performWrite fn pa bs

theorem Canonical.refresh (h : Canonical s) (k : Nat) (r : Req) : Canonical (refresh s k r).1 := h.via fun k' => k'.refresh k r

theorem Canonical.performUpdate (h : Canonical s) (k : Nat) (r : Req) (loc : Loc) (n : Nat) : Canonical (performUpdate s k r loc n) := by
  unfold Machine.performUpdate
  dsimp only
  split
  · refine Canonical.ite (h.eccFault _ _) (Canonical.updReq (Canonical.performWrite (Canonical.readMem ?_ _ _ _) _ _ _) _ _)
    split
    · exact Canonical.ite (h.sendAtomic _ _ _) h
    · exact h
  · exact (h.writeScratch _ _ _).updReq _ _
  all_goals exact h

theorem Canonical.performAtomic (h : Canonical s) (k : Nat) (r : Req) : Canonical (performAtomic s k r) := by
  have hr := h.refresh k r
  unfold Machine.performAtomic
  refine Canonical.ite h ?_
  split
  · next e => exact hr.fst e
  · next e =>
    split
    · exact (hr.fst e).performUpdate _ _ _ _
    · exact (hr.fst e).performUpdate _ _ _ _
    · exact hr.fst e

theorem Canonical.execAtomicPerform (h : Canonical s) (k : Nat) : CanonicalNext (execAtomicPerform k s) := by
  refine Canonical.next ?_
  split
  · exact h.performAtomic _ _
  · exact h

theorem Canonical.execStorePerform (h : Canonical s) (k : Nat) : CanonicalNext (execStorePerform k s) := by
  refine Canonical.next ?_
  split
  · exact h.via fun k' => k'.performStore _ _
  · exact h

theorem Canonical.execSleepTimeout (h : Canonical s) (u x : Nat) : CanonicalNext (execSleepTimeout u x s) := by
  refine Canonical.next ?_
  split
  · split
    · exact Canonical.ite (h.releaseAcq _ _ _) h
    · exact h
  · exact h

theorem Canonical.execYieldExpiry (h : Canonical s) (u x : Nat) : CanonicalNext (execYieldExpiry u x s) := by
  refine Canonical.next ?_
  split
  · split
    · exact Canonical.ite (h.releaseHeld _ _) h
    · exact h
  · exact h

end

end Sys2Proof.Machine
end

section
/-! SUPPORT. Memory's canonical form: launch queues, launches and `spawn`. -/

namespace Sys2Proof.Machine

set_option Elab.async false

section
variable {s : State}

/-! ## Accesses of launches and areas (R320, R417) -/

theorem Canonical.inFull (h : Canonical s) {s1 : State} (h1 : Canonical s1) : Canonical (inFull s s1) := Canonical.ite h1 h

theorem Canonical.ipaAccess (h : Canonical s) (fn ipa : Nat) (k : Right) : Canonical (ipaAccess s fn ipa k).1 :=
  h.via fun k' => k'.ipaAccess fn ipa k

theorem Canonical.postTeamFault (h : Canonical s) (u : Nat) (m : Team) (c : Code) (i : FaultInfo) :
    Canonical (postTeamFault s u m c i) := h.via fun k => k.postTeamFault u m c i

theorem Canonical.signalAfter (h : Canonical s) (u : Nat) (l : Launch) : Canonical (signalAfter s u l) := h.via fun k => k.signalAfter u l

theorem Canonical.postLaunchRecord (h : Canonical s) (u : Nat) (l : Launch) (bs : List Byte) :
    Canonical (postLaunchRecord s u l bs) := h.via fun k => k.postLaunchRecord u l bs

/-! ## Queues, refusals and checks (R319 to R322) -/

theorem Canonical.writeTail (h : Canonical s) (f q : Nat) (x : Word) (tr : Bool) : Canonical (writeTail s f q x tr) :=
  Canonical.ite (h.setLq _ _ _) (h.setLq _ _ _)

theorem Canonical.writeQueueCfg (h : Canonical s) (f q : Nat) (x : DWord) : Canonical (writeQueueCfg s f q x) :=
  Canonical.ite (h.setLq _ _ _) (Canonical.ite (h.setLq _ _ _) (h.setLq _ _ _))

theorem Canonical.execLaunchQueueNotify (h : Canonical s) (fn q : Nat) (x : DWord) : CanonicalNext (execLaunchQueueNotify fn q x s) :=
  Canonical.next (h.inFull (h.writeTail _ _ _ _))

theorem Canonical.execLaunchQueueConfig (h : Canonical s) (fn q : Nat) (x : DWord) : CanonicalNext (execLaunchQueueConfig fn q x s) :=
  Canonical.next (h.inFull (h.writeQueueCfg _ _ _))

theorem Canonical.refuseLaunch (h : Canonical s) (u st : Nat) : Canonical (refuseLaunch s u st) := by
  unfold Machine.refuseLaunch
  split
  · exact h
  · exact Canonical.ite ((h.updLaunch _ _).postLaunchRecord _ _ _) (Canonical.signalAfter (by exact h.frame rfl) _ _)

theorem Canonical.finishCheck (h : Canonical s) (u : Nat) (l : Launch) (x : DWord) (ps : Option (List (List Byte))) :
    Canonical (finishCheck s u l x ps) := by
  unfold Machine.finishCheck
  split
  · exact h.refuseLaunch _ _
  · exact h.updLaunch _ _

theorem Canonical.stallLaunch (h : Canonical s) (u : Nat) (l : Launch) (ipa info va : Nat) : Canonical (stallLaunch s u l ipa info va) :=
  h.frame rfl

theorem Canonical.checkPlaces (h : Canonical s) (u : Nat) (l : Launch) (x : DWord) : Canonical (checkPlaces s u l x) := by
  have ha := h.areaRead l.fn (l.queue % 4) l.placeaddr (32 * Nat.min l.nplace 8)
  unfold Machine.checkPlaces
  dsimp only
  refine Canonical.ite (h.finishCheck _ _ _ _) ?_
  split
  · next hr => exact (ha.fst hr).stallLaunch _ _ _ _ _
  · next hr => exact (ha.fst hr).finishCheck _ _ _ _
  · next hr => exact (ha.fst hr).finishCheck _ _ _ _

theorem Canonical.checkLaunch (h : Canonical s) (u : Nat) (l : Launch) : Canonical (checkLaunch s u l) := by
  have ha : Canonical (if l.hdraddr % 8 = 0 then Machine.areaRead s l.fn (l.queue % 4) l.hdraddr 8 else (s, .failed, [])).1 := by
    split
    · exact h.areaRead _ _ _ _
    · exact h
  unfold Machine.checkLaunch
  refine Canonical.ite (h.refuseLaunch _ _) ?_
  split
  · next hr => exact (ha.fst hr).stallLaunch _ _ _ _ _
  · next hr => exact (ha.fst hr).refuseLaunch _ _
  · next hr =>
    dsimp only
    split
    · exact (ha.fst hr).refuseLaunch _ _
    · exact (ha.fst hr).checkPlaces _ _ _

/-! ## The gate and the slots (R316, R320, R321) -/

theorem Canonical.readDep (h : Canonical s) (fn pa n : Nat) : Canonical (readDep s fn pa n).1 := by
  unfold Machine.readDep
  dsimp only
  split
  · exact (h.readMem fn pa 4).frame rfl
  · exact h.readMem _ _ _

theorem Canonical.depStep (h : Canonical s) (l : Launch) (i : Nat) : Canonical (depStep s l i).1 := by
  have ht := h.translate (.dieOnly (l.queue % 4)) l.fn (l.depAddr i) .r
  unfold Machine.depStep
  dsimp only
  split
  · exact h
  · split
    · next hr => exact ht.fst hr
    · next hr => exact ht.fst hr
    · next hr =>
      split
      · exact (ht.fst hr).readDep _ _ _
      · exact ht.fst hr
      · exact ht.fst hr
      · exact ht.fst hr

theorem Canonical.depAll (h : Canonical s) (l : Launch) (is : List Nat) (ok : Bool) : Canonical (depAll l is s ok).1 := by
  induction is generalizing s ok with
  | nil => exact h
  | cons i is ih =>
    have hd := h.depStep l i
    unfold Machine.depAll
    split
    · next hr => exact ih (hd.fst hr) _
    · next hr => exact ih (hd.fst hr) _
    · next hr => exact hd.fst hr

theorem Canonical.gateStep (h : Canonical s) (u : Nat) : Canonical (gateStep s u) := by
  unfold Machine.gateStep
  split
  · exact h
  · next l _ =>
    refine Canonical.ite h ?_
    have hd := (h.updLaunch u fun l => { l with recheck := false }).depAll l (List.range l.ndep) true
    dsimp only
    split
    · next hr => exact (hd.fst hr).checkLaunch _ _
    · next hr => exact hd.fst hr
    · next hr => exact (hd.fst hr).refuseLaunch _ _
    · next hr => exact (hd.fst hr).stallLaunch _ _ _ _ _

theorem Canonical.execDependenceRecheck (h : Canonical s) (u : Nat) : CanonicalNext (execDependenceRecheck u s) := by
  refine Canonical.next ?_
  split
  · exact h
  · exact Canonical.ite (h.gateStep _) h

theorem Canonical.takeRecord (h : Canonical s) (fn q : Nat) (bs : List Byte) : Canonical (takeRecord s fn q bs) :=
  Canonical.ite (Canonical.refuseLaunch (by exact h.frame rfl) _ _) (Canonical.gateStep (by exact h.frame rfl) _)

theorem Canonical.readSlot (h : Canonical s) (fn q : Nat) : Canonical (readSlot s fn q) := by
  have ha := h.ipaAccess fn ((s.lq fn q).slotAddr (s.lq fn q).head) .r
  unfold Machine.readSlot
  dsimp only
  refine Canonical.ite h ?_
  split
  · next hr => exact Canonical.ite ((ha.fst hr).setLq _ _ _) (((ha.fst hr).readMem _ _ _).takeRecord _ _ _)
  · next hr => exact Canonical.ite ((ha.fst hr).setLq _ _ _) (((ha.fst hr).readMem _ _ _).takeRecord _ _ _)
  all_goals
    next hr => exact ((ha.fst hr).raiseEvent _ _ _ _ _ _).setLq _ _ _

theorem Canonical.execLaunchRead (h : Canonical s) (fn q : Nat) : CanonicalNext (execLaunchRead fn q s) := (h.readSlot _ _).next

theorem Canonical.execLaunchPriorityAging (h : Canonical s) (u : Nat) : CanonicalNext (execLaunchPriorityAging u s) := by
  refine Canonical.next ?_
  split
  · exact h
  · exact Canonical.ite (h.updLaunch _ _) h

/-! ## `spawn` (R208) -/

theorem Canonical.enqueue (h : Canonical s) (fn q : Nat) (bs : List Byte) : Canonical (enqueue s fn q bs).1 := by
  have ha := h.ipaAccess fn ((s.lq fn q).slotAddr (s.lq fn q).tail) .w
  unfold Machine.enqueue
  dsimp only
  split
  · exact h
  · split
    · exact h
    · split
      · next hr => exact ((ha.fst hr).performWrite _ _ _).setLq _ _ _
      · next hr => exact ((ha.fst hr).performWrite _ _ _).setLq _ _ _
      all_goals
        next hr => exact ha.fst hr

theorem Canonical.spawnStatus (h : Canonical s) (t : Thread) (i : Instr) (d : Reg) (st : Word) : Canonical (spawnStatus s t i d st) :=
  h.issueReq _ _ _ _ _

theorem Canonical.spawnRecord (h : Canonical s) (m : Team) (t : Thread) (i : Instr) (d : Reg) (ea : DWord) (q : Nat) :
    Canonical (spawnRecord s m t i d ea q) := by
  refine h.withAccess (fun s loc f ipa h => ?_) _ _ _ _ _
  split
  · next pa =>
    refine h.afterDemotion (fun s h => h.awaiting (Canonical.ite (h.threadFault _ _ _) ?_) _ _) _ _
    have he (fn : Nat) := ((h.readMem fn pa 512).setCore t.core
      (l1Agree ((Machine.readMem s fn pa 512).1.core t.core) pa (Machine.readMem s fn pa 512).2)).enqueue fn q
      (Machine.readMem s fn pa 512).2
    dsimp only
    split
    · next hr => exact ((he _).fst hr).spawnStatus _ _ _ _
    · next hr => exact ((he _).fst hr).stallThread _ _ _ _ _ _
  all_goals exact h.permFault _ _

theorem Canonical.execSpawn (h : Canonical s) (d : Reg) (a b : Src) : CanonicalNext (execSpawn d a b s) := by
  refine h.issue fun m t => h.afterAcquire (h.awaiting (Canonical.ite (h.withRoom (h.afterDemotion (fun s h => ?_) _ _) _ _)
    (h.withRoom (h.spawnRecord _ _ _ _ _ _) _ _)) _ _) _
  exact h.spawnStatus _ _ _ _

end

end Sys2Proof.Machine
end

section
/-! SUPPORT. Memory's canonical form: placement, admission, slices, phase boundaries and control flow. -/

namespace Sys2Proof.Machine

set_option Elab.async false

section
variable {s : State}

/-! ## The choice of a die and a cluster, and the lease walk (R317, R324, R325, R354) -/

theorem Canonical.llcReads (h : Canonical s) (fn n : Nat) (reads : List Nat) :
    Canonical (reads.foldl (fun s a => llcRead s fn a n) s) := h.foldl_frame (fun s a => llcRead_mem s fn a n) reads

theorem Canonical.sampleDie (h : Canonical s) (fn va : Nat) : Canonical (sampleDie s fn va).1 := by
  unfold Machine.sampleDie
  split
  · exact h
  · obtain ⟨r, reads⟩ := walk s fn va
    have hr := h.llcReads fn 8 reads
    dsimp only
    split
    · split
      · exact hr
      · exact hr
      · exact hr
      · exact hr
    · exact hr
    · exact hr

/-- One sample of the placement entries. -/
def sampleStep (fn : Nat) (acc : State × List Nat) (va : Nat) : State × List Nat :=
  let r := sampleDie acc.1 fn va
  (r.1, match r.2 with | some d => acc.2 ++ [d] | none => acc.2)

theorem Canonical.sampleSteps (fn : Nat) (l : List Nat) (acc : State × List Nat) (h : Canonical acc.1) :
    Canonical (l.foldl (sampleStep fn) acc).1 := by
  induction l generalizing acc with
  | nil => exact h
  | cons a l ih => exact ih _ (h.sampleDie fn a)

theorem Canonical.sampleAll (h : Canonical s) (fn t : Nat) (es : List PlaceEntry) : Canonical (sampleAll s fn t es).1 :=
  Canonical.sampleSteps fn _ (s, []) h

theorem Canonical.chooseDie (h : Canonical s) (l : Launch) (n : Nat) (dies : List Nat) : Canonical (chooseDie s l n dies).1 := by
  have hs := h.sampleAll l.fn n (l.places.map (placeEntry l))
  unfold Machine.chooseDie
  dsimp only
  split
  · exact hs
  · exact hs

theorem Canonical.chooseCores (h : Canonical s) (u : Nat) (l : Launch) (n : Nat) : Canonical (chooseCores s u l n).1 := by
  have hd := h.chooseDie l n (diesOf s l.fn fun _ => true)
  unfold Machine.chooseCores
  split
  · next hr => exact hd.fst hr
  · next s1 d hr =>
    have h2 := (hd.fst hr).chooseDie l n (diesOf s1 l.fn fun k => !cellConflict s1 u l k)
    split
    · exact hd.fst hr
    · split
      · next hr2 => exact h2.fst hr2
      · next hr2 => exact h2.fst hr2

/-- What the walk at one address comes to, from what it finds. -/
def walkFound (die fn va : Nat) (rs : List Right) (s : State) (w : WalkRes × List Nat) : State × WalkEnd :=
  let s := w.2.foldl (fun s a => llcRead s fn a 8) s
  match w.1 with
  | .bad1 => (s, .short)
  | .miss2 ipa wk => (s, .missing ipa va (stallInfo (rs.headD .r) wk))
  | .ok log d1 d2 ipa log2 =>
    if rs.any fun a => d1 / a.bitOf % 2 == 0 then (s, .short)
    else
      match rs.find? fun a => d2 / a.bitOf % 2 == 0 with
      | some a => (s, .missing ipa va (stallInfo a false))
      | none => (s.useTlb (.dieOnly die) (xlatOf fn va log d1 d2 ipa log2), .done)

-- `walk` stands for a variable where the two sides are compared: the kernel would evaluate it otherwise.
theorem walkRights_fun : @walkRights = fun die fn va rs s => walkFound die fn va rs s (walk s fn va) := by
  delta walkRights
  obtain ⟨w, hw⟩ : ∃ w, w = @walk := ⟨_, rfl⟩
  rw [← hw]
  funext die fn va rs s
  unfold walkFound
  obtain ⟨r, reads⟩ := w s fn va
  rfl

theorem walkRights_eq (die fn va : Nat) (rs : List Right) (s : State) :
    walkRights die fn va rs s = walkFound die fn va rs s (walk s fn va) := by
  rw [walkRights_fun]

/-- The walk of a list of addresses, from the walk at one. -/
def walkEach (f : Nat → List Right → State → State × WalkEnd) : List (Nat × List Right) → State → State × WalkEnd
  | [], s => (s, .done)
  | (va, rs) :: rest, s =>
    match f va rs s with
    | (s, .done) => walkEach f rest s
    | r => r

theorem walkAll_fun : @walkAll = fun die fn => walkEach (walkRights die fn) := by
  delta walkAll walkAll._f
  obtain ⟨f, hf⟩ : ∃ f, f = @walkRights := ⟨_, rfl⟩
  rw [← hf]
  funext die fn l
  induction l with
  | nil => rfl
  | cons p l ih =>
    obtain ⟨va, rs⟩ := p
    funext s
    unfold walkEach
    dsimp only
    rcases f die fn va rs s with ⟨s1, _ | _ | ⟨ipa, v, info⟩⟩
    · exact congrFun ih s1
    · rfl
    · rfl

theorem walkAll_eq (die fn : Nat) (l : List (Nat × List Right)) (s : State) : walkAll die fn l s = walkEach (walkRights die fn) l s := by
  rw [walkAll_fun]

theorem Canonical.walkRights (h : Canonical s) (die fn va : Nat) (rs : List Right) : Canonical (walkRights die fn va rs s).1 := by
  rw [walkRights_eq]
  obtain ⟨w, hw⟩ : ∃ w, w = walk s fn va := ⟨_, rfl⟩
  rw [← hw]
  have hr := h.llcReads fn 8 w.2
  unfold walkFound
  dsimp only
  split
  · exact hr
  · exact hr
  · split
    · exact hr
    · split
      · exact hr
      · exact hr.frame (useTlb_keeps State.mem setTlb_mem _ _ _)

theorem Canonical.walkEach {f : Nat → List Right → State → State × WalkEnd}
    (hf : ∀ va rs s, Canonical s → Canonical (f va rs s).1) (l : List (Nat × List Right)) (h : Canonical s) :
    Canonical (walkEach f l s).1 := by
  induction l generalizing s with
  | nil => exact h
  | cons p l ih =>
    obtain ⟨va, rs⟩ := p
    have hw := hf va rs s h
    unfold Machine.walkEach
    split
    · next hr => exact ih (hw.fst hr)
    · exact hw

theorem Canonical.walkAll (h : Canonical s) (die fn : Nat) (l : List (Nat × List Right)) : Canonical (walkAll die fn l s).1 := by
  rw [walkAll_eq]
  exact Canonical.walkEach (fun va rs s h => h.walkRights die fn va rs) l h

/-! ## Placement (R324 to R326, R354) -/

theorem Canonical.requestAdmission (h : Canonical s) (core u : Nat) : Canonical (requestAdmission s core u) := h.frame rfl

theorem Canonical.placeMembers (h : Canonical s) (u : Nat) (l : Launch) (ps : List (Nat × Nat)) : Canonical (placeMembers u l ps s) := by
  induction ps generalizing s with
  | nil => exact h
  | cons p ps ih => exact ih (Canonical.requestAdmission (by exact h.frame rfl) _ _)

theorem Canonical.cancelLaunch (h : Canonical s) (u st : Nat) : Canonical (cancelLaunch s u st) := by
  refine Canonical.via ?_ fun k => k.checkLaunchEnd u
  exact h.frame rfl

theorem Canonical.tryPlace (h : Canonical s) (die u : Nat) (l : Launch) : Canonical (tryPlace s die u l).1 := by
  have hc := h.chooseCores u l l.nextTeam
  unfold Machine.tryPlace
  split
  · next hr => exact hc.fst hr
  · next d cores hr =>
    have hw := (hc.fst hr).walkAll d l.fn (leaseSteps l)
    split
    · next hr2 => exact (hw.fst hr2).cancelLaunch _ _
    · next hr2 => exact (hw.fst hr2).frame rfl
    · next hr2 => exact (((hw.fst hr2).setDie _ _).placeMembers _ _ _).updLaunch _ _

theorem Canonical.placeFirst (h : Canonical s) (die : Nat) (l : List (Nat × Launch)) : Canonical (placeFirst die l s) := by
  induction l generalizing s with
  | nil => exact h
  | cons p l ih =>
    obtain ⟨u, x⟩ := p
    have hp := h.tryPlace die u x
    unfold Machine.placeFirst
    split
    · next hr => exact hp.fst hr
    · next hr => exact ih (hp.fst hr)

/-! ## Admission (R166, R167, R325) -/

theorem Canonical.takeCells (h : Canonical s) (u : Nat) (l : Launch) (k : Nat) : Canonical (takeCells s u l k) := by
  refine Canonical.foldl (fun s i h => Canonical.ite ?_ h) _ h
  exact (h.setCluster _ _).foldl_frame (by intros; rfl) _

theorem Canonical.assignGen (h : Canonical s) (u : Nat) (m : Team) : Canonical (assignGen s u m) := by
  unfold Machine.assignGen
  split
  · exact (h.setCore _ _).updTeam _ _
  · exact h

theorem Canonical.startSlice (h : Canonical s) (core fn : Nat) : Canonical (startSlice s core fn) := Canonical.ite h (h.setCore _ _)

theorem Canonical.freshCaches (h : Canonical s) (core fn : Nat) : Canonical (freshCaches s core fn) := (h.acquireCore core .dev).setCore _ _

theorem Canonical.makeThreads (h : Canonical s) (u : Nat) (m : Team) (l : Launch) (gs : List (Nat × Nat)) :
    Canonical (makeThreads s u m l gs) := h.foldl_frame (by intros; rfl) _

/-- The deque of a core is given to a launch that uses deques. -/
theorem Canonical.ownDeque (h : Canonical s) (b : Bool) (core : Nat) (x : Core) : Canonical (if b then s.setCore core x else s) :=
  Canonical.ite (h.setCore _ _) h

theorem Canonical.admitMember (h : Canonical s) (u : Nat) (l : Launch) (gs : List (Nat × Nat)) : Canonical (admitMember s u l gs) := by
  unfold Machine.admitMember
  split
  · exact h
  · exact (((((h.updTeam _ _).assignGen _ _).freshCaches _ _).ownDeque _ _ _).startSlice _ _).makeThreads _ _ _ _

theorem Canonical.leaveQueue (h : Canonical s) (core u : Nat) : Canonical (leaveQueue s core u) := h.setCore _ _

theorem Canonical.shareGens (h : Canonical s) (us : List Nat) : Canonical (shareGens s us) := h.foldl_frame (by intros; rfl) _

theorem Canonical.stallRecord (h : Canonical s) (u : Nat) (m : Team) (l : Launch) (ipa info : Nat) :
    Canonical (stallRecord s u m l ipa info) := h.frame rfl

theorem Canonical.writeFirst (h : Canonical s) (l : Launch) (ms : List (Nat × Team)) : Canonical (writeFirst l ms s).1 := by
  induction ms generalizing s with
  | nil => exact h
  | cons p ms ih =>
    obtain ⟨u, m⟩ := p
    have ha := h.areaWrite l.fn (dieOf m.core) (l.phRecord m.num) (firstRecord m)
    unfold Machine.writeFirst
    split
    · exact ih h
    · split
      · next hr => exact ih (ha.fst hr)
      · next hr => exact (ha.fst hr).postTeamFault _ _ _ _
      · next hr => exact (ha.fst hr).stallRecord _ _ _ _ _

theorem Canonical.placeAgain (h : Canonical s) (m : Team) (l : Launch) (ms : List (Nat × Team)) : Canonical (placeAgain s m l ms) := by
  have hc := h.chooseCores m.launch l (m.num / l.perCluster * l.perCluster)
  unfold Machine.placeAgain
  split
  · next hr => exact hc.fst hr
  · next hr =>
    refine Canonical.foldl (fun s i h => ?_) _ (hc.fst hr)
    split
    · exact ((h.leaveQueue _ _).updTeam _ _).requestAdmission _ _
    · exact h

theorem Canonical.admitNew (h : Canonical s) (m : Team) : Canonical (admitNew s m) := by
  unfold Machine.admitNew
  split
  · exact h
  · next l _ =>
    have hw := h.writeFirst l (membersOf s m)
    dsimp only
    refine Canonical.ite h (Canonical.ite (h.placeAgain _ _ _) (Canonical.ite h ?_))
    split
    · next hr => exact hw.fst hr
    · next hr =>
      exact (Canonical.foldl (fun s p h => (h.leaveQueue _ _).admitMember _ _ _) _ ((hw.fst hr).takeCells _ _ _)).shareGens _

/-! ## Readmission (R168, R178) -/

theorem Canonical.giveGranules (h : Canonical s) (t : Thread) (g : Nat) : Canonical (giveGranules s t g) := h.setThread _

theorem Canonical.resumeThread (h : Canonical s) (m : Team) (carry : List Nat) (bs : List Byte) (t : Thread) :
    Canonical (resumeThread m carry bs s t) := Canonical.ite (h.setThread _) (h.arrive _ _)

theorem Canonical.resumeTeam (h : Canonical s) (u : Nat) (m : Team) (l : Launch) (bs : List Byte) : Canonical (resumeTeam s u m l bs) := by
  have hg (g : Nat) := Canonical.foldl (fun s t (h : Canonical s) => h.giveGranules t g) (s.teamThreads u) h
  exact Canonical.foldl (fun s t h => h.resumeThread _ _ _ t) _ (((hg _).updTeam _ _).startSlice _ _)

theorem Canonical.retake (h : Canonical s) (u : Nat) (m : Team) (l : Launch) : Canonical (retake s u m l) :=
  (((((h.takeCells _ _ _).freshCaches _ _).updTeam _ _).assignGen _ _).ownDeque _ _ _).shareGens _

theorem Canonical.readmit (h : Canonical s) (u : Nat) (m : Team) : Canonical (readmit s u m) := by
  unfold Machine.readmit
  split
  · exact h
  · next l _ =>
    have hr : Canonical (readRecord s m l).1 := h.areaRead _ _ _ _
    dsimp only
    refine Canonical.ite h ?_
    split
    · next e => exact (hr.fst e).stallRecord _ _ _ _ _
    · next e => exact (hr.fst e).postTeamFault _ _ _ _
    · next e =>
      exact (Canonical.ite (((hr.fst e).leaveQueue _ _).retake _ _ _) ((hr.fst e).leaveQueue _ _)).resumeTeam _ _ _ _

theorem Canonical.tryAdmit (h : Canonical s) (u : Nat) : Canonical (tryAdmit s u) := by
  unfold Machine.tryAdmit
  split
  · exact h
  · split
    case h_1 => exact h.admitNew _
    case h_2 | h_3 => exact h.readmit _ _
    all_goals exact h

theorem Canonical.execTeamAdmission (h : Canonical s) (core : Nat) : CanonicalNext (execTeamAdmission core s) :=
  (Canonical.foldl (fun _ u h => h.tryAdmit u) _ h).next

theorem Canonical.reserve (h : Canonical s) (us : List Nat) : Canonical (reserve s us) := h.frame rfl

theorem Canonical.execAdmissionReservation (h : Canonical s) (core : Nat) : CanonicalNext (execAdmissionReservation core s) := by
  refine Canonical.next ?_
  split
  · exact h
  · refine Canonical.ite ?_ h
    split
    · exact h
    · exact h.reserve _

/-! ## Slices and phase boundaries (R168, R327) -/

theorem Canonical.endSlice (h : Canonical s) (core : Nat) (x : Slice) : Canonical (endSlice s core x) := by
  unfold Machine.endSlice
  dsimp only
  split
  · exact h.setCore _ _
  · refine Canonical.ite ?_ (h.setCore _ _)
    exact h.frame rfl

theorem Canonical.execSliceEnd (h : Canonical s) (core : Nat) : CanonicalNext (execSliceEnd core s) :=
  (Canonical.foldl (fun _ x h => h.endSlice core x) _ h).next

theorem Canonical.releasePhase (h : Canonical s) (u : Nat) : Canonical (releasePhase s u) :=
  Canonical.foldl (fun _ t h => h.releaseAcq t .team 8) _ h

theorem Canonical.passBoundary (h : Canonical s) (u : Nat) (m : Team) (l : Launch) (carry : List Nat) (p : Bool) (g0 g1 : Nat)
    (a : DWord) : Canonical (passBoundary s u m l carry p g0 g1 a) := by
  have hk := (h.foldl_frame (fun s t => State.setThread_mem s (keepRegs carry t)) (s.teamThreads u)).updTeam u fun m => enterPhase l m a
  refine Canonical.ite (Canonical.releasePhase (Canonical.foldl (fun s t h => ?_) _ hk) _) ?_
  · exact Canonical.ite (h.setThread _) (Canonical.ite (h.giveGranules _ _) h)
  · exact ((hk.foldl_frame (fun s t => State.setThread_mem s _) _).updTeam _ _).requestAdmission _ _

theorem Canonical.crossBoundary (h : Canonical s) (u : Nat) (m : Team) (l : Launch) (a : DWord) : Canonical (crossBoundary s u m l a) := by
  unfold Machine.crossBoundary
  dsimp only
  refine Canonical.ite h (Canonical.ite (h.passBoundary _ _ _ _ _ _ _ _) ?_)
  split
  · next hr => exact Canonical.passBoundary ((h.areaWrite _ _ _ _).fst hr) _ _ _ _ _ _ _ _
  · next hr => exact Canonical.postTeamFault ((h.areaWrite _ _ _ _).fst hr) _ _ _ _
  · next hr => exact Canonical.stallRecord ((h.areaWrite _ _ _ _).fst hr) _ _ _ _ _

theorem Canonical.drain (h : Canonical s) (u : Nat) (m : Team) : Canonical (drain s u m) := h.via fun k => k.drain u m

theorem Canonical.phaseBoundary (h : Canonical s) (u : Nat) (m : Team) (l : Launch) (t : Thread) : Canonical (phaseBoundary s u m l t) :=
  Canonical.ite h (Canonical.ite (h.drain _ _) ((h.drain _ _).crossBoundary _ _ _ _))

theorem Canonical.execPhaseBoundary (h : Canonical s) (u : Nat) : CanonicalNext (execPhaseBoundary u s) := by
  refine Canonical.next ?_
  split
  · exact h
  · split
    · exact Canonical.ite (h.phaseBoundary _ _ _ _) h
    · exact h

/-! ## Control flow (R119 to R124) -/

theorem Canonical.jumpTo (h : Canonical s) (t : Thread) (i : Instr) (a : DWord) (t1 : Thread) : Canonical (jumpTo s t i a t1) :=
  Canonical.ite (h.threadFault _ _ _) (h.finishAt _ _ _ _)

theorem Canonical.execExit (h : Canonical s) : CanonicalNext (execExit s) := h.issue fun _ _ => (h.retire _).exitThread _

theorem Canonical.execTret (h : Canonical s) : CanonicalNext (execTret s) :=
  h.issue fun _ _ => Canonical.ite ((h.retire _).arrive _ _) (h.threadFault _ _ _)

end

end Sys2Proof.Machine
end

section
/-! SUPPORT. Memory's canonical form: programs, their accesses and the Mordant instructions but for the tensor movements. -/

namespace Sys2Proof.Machine

set_option Elab.async false

section
variable {s : State}

/-! ## Parts of an instruction (R229, R237, R238) -/

theorem Canonical.run {α : Type} {x : MR α} {f : State → α → State} (h : Canonical x.state)
    (hf : ∀ s a, Canonical s → Canonical (f s a)) : Canonical (x.run f) := by
  cases x with
  | ok s a => exact hf s a h
  | stop s => exact h

theorem Canonical.bind {α β : Type} {x : MR α} {f : State → α → MR β} (h : Canonical x.state)
    (hf : ∀ s a, Canonical s → Canonical (f s a).state) : Canonical (x.bind f).state := by
  cases x with
  | ok s a => exact hf s a h
  | stop s => exact h

theorem Canonical.ofOk {α : Type} {x : MR α} {a : α} {s1 : State} (h : Canonical x.state) (e : x = .ok s1 a) : Canonical s1 := by
  subst e
  exact h

theorem Canonical.ofStop {α : Type} {x : MR α} {s1 : State} (h : Canonical x.state) (e : x = .stop s1) : Canonical s1 := by
  subst e
  exact h

theorem Canonical.mordant {k : Nat → Program → State} (hk : ∀ u p, Canonical (k u p)) : CanonicalNext (mordant s k) := by
  unfold Machine.mordant
  split
  · split
    · exact (hk _ _).next
    · exact canonicalNext_fault _
  all_goals exact canonicalNext_fault _

theorem Canonical.mFault (h : Canonical s) (u : Nat) (sub : MSub) (a : Nat) : Canonical (mFault s u sub a) := h.via fun k => k.mFault u sub a

theorem Canonical.flushOwn (h : Canonical s) (u : Nat) (sel : Req → Bool) : Canonical (flushOwn s u sel) := h.via fun k => k.flushOwn u sel

theorem Canonical.endProgram (h : Canonical s) (u : Nat) (e : Ending) : Canonical (endProgram s u e) := h.via fun k => k.endProgram u e

theorem Canonical.mResolve (h : Canonical s) (u : Nat) (p : Program) (va n : Nat) (k : Right) (win : Bool) :
    Canonical (mResolve s u p va n k win).state := h.via fun k' => k'.mResolve u p va n k win

theorem Canonical.mLoad (h : Canonical s) (u : Nat) (p : Program) (va n ahead : Nat) : Canonical (mLoad s u p va n ahead).state :=
  h.via fun k => k.mLoad u p va n ahead

theorem Canonical.mScrLoad (h : Canonical s) (u : Nat) (p : Program) (core : Nat) (off : Int) (n : Nat) :
    Canonical (mScrLoad s u p core off n).state := h.via fun k => k.mScrLoad u p core off n

theorem Canonical.mPlan (h : Canonical s) (u : Nat) (p : Program) (va : Nat) (bs : List Byte) (win : Bool) :
    Canonical (mPlan s u p va bs win).state := (h.mResolve _ _ _ _ _ _).bind fun _ _ h => h

theorem Canonical.mScrPlan (h : Canonical s) (u : Nat) (p : Program) (core : Nat) (off : Int) (bs : List Byte) :
    Canonical (mScrPlan s u p core off bs).state := by
  unfold Machine.mScrPlan
  split
  · exact h
  · split
    · exact h
    · split
      · exact h.mFault _ _ _
      · exact h

theorem Canonical.countDrop (h : Canonical s) (core fn : Nat) : Canonical (countDrop s core fn) := h.setCore _ _

theorem Canonical.issueAt (h : Canonical s) (u : Nat) (p : Program) (va ipa : Nat) (loc : Loc) (bs : List Byte) :
    Canonical (issueAt u p s va ipa loc bs) := by
  unfold Machine.issueAt
  dsimp only
  split
  · split
    · exact h.updReq _ _
    · exact h.addReq _
  · exact h.addReq _

theorem Canonical.mIssue (h : Canonical s) (u : Nat) (p : Program) (w : MWrite) : Canonical (mIssue u p s w) := by
  cases w with
  | gen core g off bs => exact h.addReq _
  | drop core => exact h.countDrop _ _
  | _ => exact h.issueAt _ _ _ _ _ _

theorem Canonical.mCommit (h : Canonical s) (u : Nat) (p : Program) (ws : List MWrite) : Canonical (mCommit s u p ws) :=
  Canonical.foldl (fun _ w h => h.mIssue u p w) ws h

/-! ## Going on, and the end of a program (R219, R220, R260) -/

theorem Canonical.retireProgram (h : Canonical s) (p : Program) : Canonical (retireProgram s p) := Canonical.ite h (h.retire _)

theorem Canonical.keepProgram (h : Canonical s) (u : Nat) (p : Program) (next : List Nat) : Canonical (keepProgram s u p next) := h.frame rfl

theorem Canonical.mGoto (h : Canonical s) (u : Nat) (p : Program) (pc : DWord) : Canonical (mGoto s u p pc) :=
  (h.keepProgram _ _ _).retireProgram _

theorem Canonical.mNext (h : Canonical s) (u : Nat) (p : Program) (i : Instr) : Canonical (mNext s u p i) := h.mGoto _ _ _

theorem Canonical.resumeEnding (h : Canonical s) (u : Nat) : Canonical (resumeEnding s u) := by
  have hf : Canonical (flushAll s u) := h.flushOwn _ _
  unfold Machine.resumeEnding
  split
  · exact h
  · split
    · exact Canonical.ite (h.via fun k => k.closeRecorded _ _ _) (Canonical.ite hf (hf.via fun k => k.finishProgram _ _ _))
    · exact h

theorem Canonical.resumeProgram (h : Canonical s) (u : Nat) : Canonical (resumeProgram s u) := by
  unfold Machine.resumeProgram
  split
  · exact h
  · exact Canonical.ite (h.resumeEnding _) (Canonical.ite (h.mGoto _ _ _) h)

theorem Canonical.resumeRecord (h : Canonical s) (u : Nat) (va : DWord) (r : Bool) : Canonical (resumeRecord s u va r) := by
  unfold Machine.resumeRecord
  split
  · exact h
  · next p _ =>
    split
    · next e m _ _ =>
      split
      · exact h
      · next l _ =>
        have ha : Canonical (if r then areaRecord s l.fn (dieOf m.core) va.toNat (teamRecord s p m e) else (s, .failed)).1 := by
          split
          · exact h.via fun k => k.areaRecord _ _ _ _
          · exact h
        split
        · next hr => exact (ha.fst hr).frame rfl
        · next hr => exact (ha.fst hr).via fun k => k.closeProgram _ _ _
    · exact h

theorem Canonical.killProgram (h : Canonical s) (u : Nat) : Canonical (killProgram s u) := h.via fun k => k.killProgram u

/-! ## Fetch (R219, R234) -/

theorem Canonical.mCode (h : Canonical s) (u : Nat) (p : Program) (va pa : Nat) : Canonical (mCode s u p va pa).state := by
  unfold Machine.mCode
  dsimp only
  split
  · exact h
  · split
    · exact h.mFault _ _ _
    · exact Canonical.ite (h.readMem _ _ _) ((h.readMem _ _ _).setCluster _ _)

theorem Canonical.mFetch (h : Canonical s) (u : Nat) (p : Program) (a : DWord) : Canonical (mFetch s u p a).state := by
  refine (h.mResolve _ _ _ _ _ _).bind fun s ls h => ?_
  split
  · exact h.mCode _ _ _ _
  · exact h.mFault _ _ _

theorem Canonical.mInstr (h : Canonical s) (u : Nat) (p : Program) : Canonical (mInstr s u p).state := by
  refine (h.mFetch _ _ _).bind fun s w h => ?_
  dsimp only
  split
  · refine (h.mFetch _ _ _).bind fun s lit h => ?_
    split
    · exact h
    · exact h.mFault _ _ _
  · split
    · exact h
    · exact h.mFault _ _ _

/-- Both states of the preparation of a program's instruction. -/
def CanonicalPrepared (x : Except State (Instr × State)) : Prop :=
  (∀ s', x = .error s' → Canonical s') ∧ ∀ i s', x = .ok (i, s') → Canonical s'

theorem Canonical.notPrepared (h : Canonical s) : CanonicalPrepared (.error s) := by
  constructor
  · intro s' e
    cases e
    exact h
  · intro i s' e
    cases e

theorem Canonical.prepared (h : Canonical s) (i : Instr) : CanonicalPrepared (.ok (i, s)) := by
  constructor
  · intro s' e
    cases e
  · intro i s' e
    cases e
    exact h

theorem Canonical.prepareProgram (h : Canonical s) (u : Nat) : CanonicalPrepared (prepareProgram s u) := by
  unfold Machine.prepareProgram
  split
  · exact h.notPrepared
  · next p _ =>
    have hi := h.mInstr u p
    split
    · split
      · next hr => exact Canonical.prepared (by exact (hi.ofOk hr).frame rfl) _
      · next hr => exact (hi.ofStop hr).notPrepared
    · exact (h.resumeProgram _).notPrepared

/-! ## Mordant instructions (R235 to R242, R249 to R259) -/

theorem Canonical.mScalar (h : Canonical s) {i : Instr} {d : BitVec 5} {f : Program → DWord} : CanonicalNext (mScalar s i d f) :=
  Canonical.mordant fun _ _ => h.mNext _ _ _

theorem Canonical.execMBr (h : Canonical s) (off : BitVec 24) : CanonicalNext (execMBr off s) := Canonical.mordant fun _ _ => h.mGoto _ _ _

theorem Canonical.execMBrc (h : Canonical s) (z : Bool) (c : BitVec 5) (off : BitVec 24) : CanonicalNext (execMBrc z c off s) :=
  Canonical.mordant fun _ _ => Canonical.ite (h.mGoto _ _ _) (h.mNext _ _ _)

theorem Canonical.execLoop (h : Canonical s) (c : BitVec 5) (off : BitVec 24) : CanonicalNext (execLoop c off s) :=
  Canonical.mordant fun _ _ => Canonical.ite (h.mGoto _ _ _) (h.mNext _ _ _)

theorem Canonical.execLdx (h : Canonical s) (w : Width) (sx : Bool) (d base : BitVec 5) (imm : BitVec 24) :
    CanonicalNext (execLdx w sx d base imm s) :=
  Canonical.mordant fun _ _ => Canonical.ite (h.mFault _ _ _) ((h.mLoad _ _ _ _ _).run fun _ _ h => h.mNext _ _ _)

theorem Canonical.mCommitNow (h : Canonical s) (u : Nat) (p : Program) (ws : List MWrite) : Canonical (mCommitNow s u p ws) :=
  (h.mCommit _ _ _).flushOwn _ _

theorem Canonical.execStx (h : Canonical s) (w : Width) (v base : BitVec 5) (imm : BitVec 24) : CanonicalNext (execStx w v base imm s) :=
  Canonical.mordant fun _ _ => Canonical.ite (h.mFault _ _ _) ((h.mPlan _ _ _ _ _).run fun _ _ h =>
    Canonical.ite ((h.mCommitNow _ _ _).updProgram _ _) ((h.mCommitNow _ _ _).mNext _ _ _))

theorem Canonical.execTdld (h : Canonical s) (d : BitVec 3) (base : BitVec 5) (imm : BitVec 24) : CanonicalNext (execTdld d base imm s) :=
  Canonical.mordant fun _ _ => Canonical.ite (h.mFault _ _ _) ((h.mLoad _ _ _ _ _).run fun _ _ h => h.mNext _ _ _)

theorem Canonical.setField (h : Canonical s) (u : Nat) (p : Program) (i : Instr) (f : DescField) (k : Nat) (d : BitVec 3) (v : DWord) :
    Canonical (setField s u p i f k d v) := Canonical.ite (h.mNext _ _ _) (h.mFault _ _ _)

theorem Canonical.execTdset (h : Canonical s) (f : DescField) (k : BitVec 4) (d : BitVec 3) (a : BitVec 5) :
    CanonicalNext (execTdset f k d a s) := Canonical.mordant fun _ _ => h.setField _ _ _ _ _ _ _

theorem Canonical.execTdsetLit (h : Canonical s) (f : DescField) (k : BitVec 4) (d : BitVec 3) (v : DWord) :
    CanonicalNext (execTdsetLit f k d v s) := Canonical.mordant fun _ _ => h.setField _ _ _ _ _ _ _

theorem Canonical.afterWrites (h : Canonical s) (u : Nat) {k : State → State} (hk : ∀ s, Canonical s → Canonical (k s)) :
    Canonical (afterWrites s u k) := Canonical.ite (h.flushOwn _ _) (hk _ (h.flushOwn _ _))

theorem Canonical.mArrive (h : Canonical s) (p : Program) (core off n : Nat) : Canonical (mArrive s p core off n) := by
  unfold Machine.mArrive
  split
  · exact Canonical.ite (h.via fun k => k.arriveAt _ _ _) (h.countDrop _ _)
  · exact h.countDrop _ _

theorem Canonical.execMCbarr (h : Canonical s) (k : ArrKind) (c : CoreSel) (a b : BitVec 5) : CanonicalNext (execMCbarr k c a b s) :=
  Canonical.mordant fun _ _ => Canonical.ite (h.mFault _ _ _) (Canonical.ite (h.mFault _ _ _) (Canonical.ite (h.mFault _ _ _)
    (h.afterWrites _ fun _ h => (h.mArrive _ _ _ _).mNext _ _ _)))

theorem Canonical.execMCbwait (h : Canonical s) (c : CoreSel) (a b : BitVec 5) : CanonicalNext (execMCbwait c a b s) :=
  Canonical.mordant fun _ _ => Canonical.ite (h.mNext _ _ _) (Canonical.ite (h.mFault _ _ _) (Canonical.ite (h.mFault _ _ _)
    ((h.mScrLoad _ _ _ _ _).run fun _ _ h => Canonical.ite (h.mNext _ _ _) (h.updProgram _ _))))

theorem Canonical.offerFill (h : Canonical s) (u slot v : Nat) (x : Word) (k : TagKind) : Canonical (offerFill s u slot v x k) :=
  h.via fun k' => k'.offerFill u slot v x k

theorem Canonical.execRegfill (h : Canonical s) (a b c : BitVec 5) : CanonicalNext (execRegfill a b c s) :=
  Canonical.mordant fun _ _ => Canonical.ite (h.mFault _ _ _)
    (Canonical.ite ((h.offerFill _ _ _ _ _).updProgram _ _) ((h.offerFill _ _ _ _ _).mNext _ _ _))

theorem Canonical.execMfence (h : Canonical s) : CanonicalNext (execMfence s) :=
  Canonical.mordant fun _ _ => h.afterWrites _ fun _ h => h.mNext _ _ _

theorem Canonical.execMdone (h : Canonical s) (a : BitVec 5) : CanonicalNext (execMdone a s) :=
  Canonical.mordant fun _ _ => (h.retireProgram _).endProgram _ _

theorem Canonical.execMexit (h : Canonical s) : CanonicalNext (execMexit s) :=
  Canonical.mordant fun _ _ => (h.retireProgram _).endProgram _ _

theorem Canonical.execDharv (h : Canonical s) (d a : BitVec 5) : CanonicalNext (execDharv d a s) :=
  Canonical.mordant fun _ _ => Canonical.ite (h.mFault _ _ _) (Canonical.ite (h.mFault _ _ _) (Canonical.ite (h.mFault _ _ _)
    (Canonical.mNext (by exact h.frame rfl) _ _ _)))

/-! ## Starting, ending and reading programs (R218, R285 to R287) -/

theorem Canonical.startProgram (h : Canonical s) (m : Team) (t : Thread) (e : Option Nat) (entry : DWord) (args : List DWord) :
    Canonical (startProgram s m t e entry args).2 := by
  refine Canonical.ite ?_ ?_
  · exact h.frame rfl
  · exact h.frame rfl

theorem Canonical.dispatchOne (h : Canonical s) (k : Nat) : Canonical (dispatchOne s k) := by
  unfold Machine.dispatchOne
  split
  · exact (h.setCluster _ _).updProgram _ _
  · exact h

theorem Canonical.dispatchQueued (h : Canonical s) (k : Nat) : Canonical (dispatchQueued s k) :=
  Canonical.foldl (fun _ _ h => h.dispatchOne k) _ h

theorem Canonical.execMdgo (h : Canonical s) (d : Reg) (a b : Src) : CanonicalNext (execMdgo d a b s) := by
  refine h.issue fun m t => h.afterAcquire (Canonical.ite (h.threadFault _ _ _) ?_) _
  have hq := h.dispatchQueued (clusterOf t.core)
  dsimp only
  split
  · exact hq.withRoom ((hq.startProgram _ _ _ _ _).finish _ _ _) _ _
  · exact Canonical.ite (hq.finish _ _ _) (hq.withRoom ((hq.startProgram _ _ _ _ _).finish _ _ _) _ _)

theorem Canonical.execMdkill (h : Canonical s) (a : Src) : CanonicalNext (execMdkill a s) := by
  refine h.issue fun m t => ?_
  dsimp only
  split
  · exact (h.finish _ _ _).killProgram _
  · exact h.finish _ _ _

theorem Canonical.execMordantDispatch (h : Canonical s) (k : Nat) : CanonicalNext (execMordantDispatch k s) := (h.dispatchOne k).next

end

end Sys2Proof.Machine
end

section
/-! SUPPORT. Memory's canonical form: tensor movements and reductions. -/

namespace Sys2Proof.Machine

set_option Elab.async false

section
variable {s : State}

/-! ## Elements (R229, R244, R247) -/

theorem Canonical.prefetch (h : Canonical s) (p : Program) (st : Int) (a : Nat) : Canonical (prefetch s p st a) :=
  h.via fun k => k.prefetch p st a

theorem Canonical.readElem (h : Canonical s) (u : Nat) (p : Program) (t : Tensor) (e planes more : Nat) :
    Canonical (readElem s u p t e planes more).state := h.via fun k => k.readElem u p t e planes more

theorem Canonical.readElems (h : Canonical s) (u : Nat) (p : Program) (t : Tensor) (planes more n e : Nat) (acc : List (Nat × Nat)) :
    Canonical (readElems u p t planes more n e s acc).state := by
  induction n generalizing s e acc with
  | zero => exact h
  | succ n ih => exact (h.readElem _ _ _ _ _ _).bind fun _ _ h => ih h _ _

theorem Canonical.planAt (h : Canonical s) (u : Nat) (p : Program) (t : Tensor) (a : Int) (bs : List Byte) :
    Canonical (planAt s u p t a bs).state := by
  unfold Machine.planAt
  split
  · exact h.mScrPlan _ _ _ _ _
  · exact (h.mPlan _ _ _ _ _).bind fun _ _ h => h.prefetch _ _ _

theorem Canonical.planPlane (h : Canonical s) (u : Nat) (p : Program) (st a : Nat) (bs : List Byte) :
    Canonical (planPlane s u p st a bs).state := (h.mPlan _ _ _ _ _).bind fun _ _ h => h.prefetch _ _ _

theorem Canonical.sizeFault (h : Canonical s) (u : Nat) (a : Int) : Canonical (sizeFault s u a) := h.mFault _ _ _

/-! ## Runs of elements (R221, R228, R243) -/

theorem Canonical.mAdvance (h : Canonical s) (u : Nat) (p : Program) (n bytes items : Nat) (fl : FFlags) (next : List Nat) :
    Canonical (mAdvance s u p n bytes items fl next) := Canonical.ite (h.keepProgram _ _ _) ((h.keepProgram _ _ _).retireProgram _)

theorem Canonical.moveRun (h : Canonical s) (u : Nat) (p : Program) (a d : Tensor) (e f n more : Nat) :
    Canonical (moveRun s u p a d e f n more) := by
  refine (h.readElems _ _ _ _ _ _ _ _).run fun s xs h => Canonical.ite (Canonical.ite (h.sizeFault _ _) ?_) ?_
  · exact (h.planAt _ _ _ _ _).run fun _ _ h => (h.mCommit _ _ _).mAdvance _ _ _ _ _ _ _
  · exact (h.planPlane _ _ _ _ _).run fun _ _ h => (h.planPlane _ _ _ _ _).run fun _ _ h => (h.mCommit _ _ _).mAdvance _ _ _ _ _ _ _

theorem Canonical.moveEach (h : Canonical s) (u : Nat) (a d : Tensor) (k e f : Nat) : Canonical (moveEach u a d k e f s) := by
  induction k generalizing s e f with
  | zero => exact h
  | succ k ih =>
    unfold Machine.moveEach
    split
    · exact h
    · exact Canonical.ite (ih (h.moveRun _ _ _ _ _ _ _ _) _ _) (h.moveRun _ _ _ _ _ _ _ _)

theorem Canonical.moveBlock (h : Canonical s) (u : Nat) (p : Program) (a d : Tensor) (e f room : Nat) :
    Canonical (moveBlock s u p a d e f room) := Canonical.ite (h.moveEach _ _ _ _ _ _) (h.moveRun _ _ _ _ _ _ _ _)

theorem Canonical.endMove (h : Canonical s) (u : Nat) (p : Program) (i : Instr) (n : Nat) : Canonical (endMove s u p i n) := by
  unfold Machine.endMove
  split
  · exact Canonical.ite (h.mNext _ _ _) h
  · exact h

theorem Canonical.stepMove (h : Canonical s) {k : State} (hk : Canonical k) (u : Nat) (p : Program) (i : Instr) (n : Nat) :
    Canonical (stepMove s u p i n k) := Canonical.ite (h.mNext _ _ _) (hk.endMove _ _ _ _)

/-! ## Movement (R243 to R246) -/

theorem Canonical.execTcopy (h : Canonical s) (d a : BitVec 3) : CanonicalNext (execTcopy d a s) := by
  refine Canonical.mordant fun u p => ?_
  split
  · exact Canonical.ite (h.mFault _ _ _) (Canonical.ite (h.mFault _ _ _) (Canonical.ite (h.mFault _ _ _)
      (h.stepMove (h.moveBlock _ _ _ _ _ _ _) _ _ _ _)))
  · exact h.mFault _ _ _

theorem Canonical.readIndex (h : Canonical s) (u : Nat) (p : Program) (b : Tensor) (j lim : Nat) :
    Canonical (readIndex s u p b j lim).state := by
  refine (h.readElem _ _ _ _ _ _).bind fun s x h => ?_
  split
  · exact h
  · exact h.mFault _ _ _

theorem Canonical.indexOf (h : Canonical s) (u : Nat) (p : Program) (b : Tensor) (j lim : Nat) :
    Canonical (indexOf s u p b j lim).state := by
  unfold Machine.indexOf
  split
  · split
    · exact h
    · exact h.readIndex _ _ _ _ _
  · exact h.readIndex _ _ _ _ _

theorem Canonical.emptySlices (h : Canonical s) (u : Nat) (p : Program) (i : Instr) (b : Tensor) (lim : Nat) :
    Canonical (emptySlices s u p i b lim) :=
  Canonical.ite (h.mNext _ _ _) ((h.readIndex _ _ _ _ _).run fun _ _ h => h.keepProgram _ _ _)

theorem Canonical.stepSlices (h : Canonical s) (u : Nat) (p : Program) (i : Instr) (d a b : BitVec 3) (g : Bool) :
    Canonical (stepSlices s u p i d a b g) := by
  unfold Machine.stepSlices
  split
  · exact h.mFault _ _ _
  · exact Canonical.ite (h.emptySlices _ _ _ _ _) (h.stepMove
      ((h.indexOf _ _ _ _ _).run fun _ _ h => (h.updProgram _ _).moveBlock _ _ _ _ _ _ _) _ _ _ _)

theorem Canonical.execTgather (h : Canonical s) (d a b : BitVec 3) : CanonicalNext (execTgather d a b s) :=
  Canonical.mordant fun _ _ => h.stepSlices _ _ _ _ _ _ _

theorem Canonical.execTscatter (h : Canonical s) (d a b : BitVec 3) : CanonicalNext (execTscatter d a b s) :=
  Canonical.mordant fun _ _ => h.stepSlices _ _ _ _ _ _ _

theorem Canonical.mWait (h : Canonical s) (u : Nat) : Canonical (mWait s u) := h.updProgram _ _

theorem Canonical.putRun (h : Canonical s) (u : Nat) (p : Program) (t : Tensor) (k : Nat) (e : Bool) : Canonical (putRun s u p t k e) := by
  refine (h.readElems _ _ _ _ _ _ _ _).run fun s xs h => ?_
  dsimp only
  split
  · exact h.mWait _
  · exact (h.setTeam _ _).mAdvance _ _ _ _ _ _ _

theorem Canonical.execQput (h : Canonical s) (e : Bool) (k : BitVec 4) (a : BitVec 3) : CanonicalNext (execQput e k a s) := by
  refine Canonical.mordant fun u p => ?_
  split
  · exact h.mFault _ _ _
  · exact Canonical.ite (h.mFault _ _ _) (Canonical.ite (h.mFault _ _ _) (h.stepMove (h.putRun _ _ _ _ _) _ _ _ _))

/-! ## Fabric reductions (R258, R408, R409) -/

theorem Canonical.faultAll (h : Canonical s) (g e : Nat) : Canonical (faultAll s g e) :=
  Canonical.foldl (fun _ u h => h.mFault u .shape 0) _ h

theorem Canonical.sendParts (h : Canonical s) (u : Nat) (p : Program) (x : Fxr) : Canonical (sendParts s u p x) :=
  Canonical.ite h (Canonical.foldl (fun _ _ h => h.foldl_frame (by intros; rfl) _) _ h)

theorem Canonical.joinFxr (h : Canonical s) (x : Fxr) : Canonical (joinFxr s x) := h.frame rfl

theorem Canonical.contribute (h : Canonical s) (u : Nat) (p : Program) (g epoch : Nat) (op : FxOp) (ty : FxTy) (t : Tensor) :
    Canonical (contribute s u p g epoch op ty t) := by
  refine (h.readElems _ _ _ _ _ _ _ _).run fun s xs h => ?_
  have hj (x : Fxr) : Canonical (Machine.joinFxr { s with reqs := s.reqs.filter fun q => !usedRead u [] q.2 } x) := h.frame rfl
  exact Canonical.ite (((hj _).sendParts _ _ _).mWait _) (((hj _).sendParts _ _ _).faultAll _ _)

theorem Canonical.fxGroup (h : Canonical s) (p : Program) (x : DWord) : Canonical (fxGroup s p x).1 := by
  have hl : Canonical (lookupVdn s p.die (programFn s p) (x.toNat % 2 ^ 16)).1 := h.via fun k => k.lookupVdn _ _ _
  unfold Machine.fxGroup
  dsimp only
  split
  · exact h
  · split
    · next hr => exact hl.fst hr
    · next hr => exact hl.fst hr
    · next hr => exact hl.fst hr
    · next hr => exact hl.fst hr

theorem Canonical.execFxred (h : Canonical s) (op : FxOp) (ty : FxTy) (d a : BitVec 3) (b : BitVec 5) :
    CanonicalNext (execFxred op ty d a b s) := by
  refine Canonical.mordant fun u p => Canonical.ite (h.mFault _ _ _) ?_
  have hg := h.fxGroup p (p.mreg b)
  split
  · refine Canonical.ite (h.mFault _ _ _) (Canonical.ite (h.mFault _ _ _) ?_)
    split
    · next hr => exact (hg.fst hr).mFault _ _ _
    · next hr => exact Canonical.ite ((hg.fst hr).mWait _) ((hg.fst hr).contribute _ _ _ _ _ _ _)
  · exact h.mFault _ _ _

theorem Canonical.keepResult (h : Canonical s) (x : Fxr) (rs : List Nat) : Canonical (keepResult s x rs) := h.frame rfl

theorem Canonical.writeResult (h : Canonical s) (u : Nat) (i : Instr) (t : Tensor) (rs : List Nat) (n : Nat) :
    Canonical (writeResult u i t rs n s) := by
  induction n generalizing s with
  | zero =>
    unfold Machine.writeResult
    split
    · exact h.mNext _ _ _
    · exact h
  | succ n ih =>
    unfold Machine.writeResult
    split
    · exact h
    · next p _ =>
      have hp := h.planAt u p t (t.elemAddr p.prog.toNat) (leBytes t.size (rs.getD p.prog.toNat 0))
      refine Canonical.ite (h.sizeFault _ _) ?_
      split
      · next hr => exact hp.ofStop hr
      · next hr => exact ih (((hp.ofOk hr).mCommit _ _ _).mAdvance _ _ _ _ _ _ _)

theorem Canonical.serve (h : Canonical s) (x : Fxr) : Canonical (serve s x) := h.frame rfl

theorem Canonical.fxWord (h : Canonical s) {u : Nat} {p : Program} {i : Instr} {s1 : State} (e : fxWord s u p = some (i, s1)) :
    Canonical s1 := by
  have hi := h.mInstr u p
  unfold Machine.fxWord at e
  split at e
  · next hr =>
    cases e
    exact hi.ofOk hr
  · cases e

theorem Canonical.serveProgram (h : Canonical s) (u : Nat) (p : Program) (x : Fxr) (rs : List Nat) : Canonical (serveProgram s u p x rs) := by
  unfold Machine.serveProgram
  split
  · next hr =>
    have h1 := h.fxWord hr
    split
    · next t _ =>
      have hw (i : Instr) := (h1.keepResult x rs).writeResult u i t rs (t.n - p.prog.toNat)
      dsimp only
      split
      · exact Canonical.ite (hw _) ((hw _).serve _)
      · exact hw _
    · exact h1
  · exact h

theorem Canonical.execFxredComplete (h : Canonical s) (c : FxCompletion) : CanonicalNext (execFxredComplete c s) := by
  refine Canonical.next ?_
  split
  · refine Canonical.ite ?_ h
    split
    · exact h
    · exact h.faultAll _ _
    · exact h.serveProgram _ _ _ _
  · exact h

end

end Sys2Proof.Machine
end

section
/-! SUPPORT. Memory's canonical form: the fabric. -/

namespace Sys2Proof.Machine

set_option Elab.async false

section
variable {s : State}

/-! ## Ports (R395 to R397, R401) -/

theorem Canonical.setPort (h : Canonical s) (p : Nat) (x : Port) : Canonical (s.setPort p x) := h.frame rfl

theorem Canonical.onPort (h : Canonical s) (p : Nat) (f : Port → Port) : Canonical (onPort s p f) := Canonical.ite (h.setPort _ _) h

theorem Canonical.depart (h : Canonical s) (ch : Channel) (x : Flight) : Canonical (depart s ch x) := by
  unfold Machine.depart
  split
  · exact h.frame rfl
  · exact h.frame rfl

theorem Canonical.departWaiting (h : Canonical s) : Canonical (departWaiting s) :=
  Canonical.ite (Canonical.foldl (fun _ x h => h.depart x.1 x.2) _ (by exact h.frame rfl)) h

theorem Canonical.carry (h : Canonical s) (port : Nat) (ch : Channel) : Canonical (carry s port ch) := by
  unfold Machine.carry
  refine Canonical.ite h ?_
  split
  · exact h
  · dsimp only
    split
    · exact h.frame rfl
    · exact h.frame rfl

/-- An event on a port. -/
theorem Canonical.portEvent (h : Canonical s) {port : Nat} {f : Port → Port} : CanonicalNext (.next (Machine.onPort s port f)) := (h.onPort _ _).next

/-- An event on a port after which what waits may go on. -/
theorem Canonical.portUp (h : Canonical s) {port : Nat} {f : Port → Port} : CanonicalNext (.next (Machine.departWaiting (Machine.onPort s port f))) :=
  (h.onPort _ _).departWaiting.next

/-! ## Packets at the source (R398 to R404) -/

theorem Canonical.setSent (h : Canonical s) (id : Nat) (x : Sent) : Canonical (setSent s id x) := h.frame rfl

theorem Canonical.dropSent (h : Canonical s) (id : Nat) : Canonical (dropSent s id) := h.frame rfl

theorem Canonical.emit (h : Canonical s) (p : Packet) : Canonical (emit s p) := h.depart _ _

theorem Canonical.finishPosted (h : Canonical s) (u : Nat) : Canonical (finishPosted s u) := by
  unfold Machine.finishPosted
  split
  · exact h
  · exact Canonical.ite h (Canonical.ite (h.updProgram _ _) (h.mGoto _ _ _))

theorem Canonical.okAccess (h : Canonical s) (id : Nat) (r : Req) (data : List Byte) : Canonical (okAccess s id r data) := by
  unfold Machine.okAccess
  split
  · exact Canonical.ite (((h.completeReq _).settle.finishPosted _).resumeEnding _) (h.updReq _ _)
  all_goals exact Canonical.ite (h.completeReq _).settle ((h.updReq _ _).fillReq _ _)

theorem Canonical.failAccessReq (h : Canonical s) (id : Nat) (r : Req) (c : Code) (sub : MSub) : Canonical (failAccessReq s id r c sub) := by
  unfold Machine.failAccessReq
  split
  · exact Canonical.ite (h.completeReq _).settle (h.failReq _ _ _)
  · exact ((((h.completeReq _).updProgram _ _).mFault _ _ _).resumeEnding _)
  · exact (h.completeReq _).settle
  · exact (h.completeReq _).settle

theorem Canonical.endRequest (h : Canonical s) (id fn vdn : Nat) (code : Answer) (data : List Byte) :
    Canonical (endRequest s id fn vdn code data) := by
  have hf : Canonical (if code = .ok then s else recordFerr s fn vdn code) := Canonical.ite h (h.setFn _ _)
  unfold Machine.endRequest
  dsimp only
  split
  · exact hf
  · split
    · exact hf.okAccess _ _ _
    all_goals exact hf.failAccessReq _ _ _ _

theorem Canonical.endAccess (h : Canonical s) (id fn vdn : Nat) (code : Answer) (data : List Byte) :
    Canonical (endAccess s id fn vdn code data) := (h.dropSent _).endRequest _ _ _ _ _

theorem Canonical.dispatch (h : Canonical s) (id : Nat) (x : Sent) : Canonical (dispatch s id x) :=
  Canonical.ite (h.endAccess _ _ _ _ _) (Canonical.ite ((h.setSent _ _).emit _) (h.setSent _ _))

theorem Canonical.nameAndSend (h : Canonical s) (id : Nat) (r : Req) (v off : Nat) (dst : Nat × Nat) (c : PktClass) (op : PktOp) :
    Canonical (nameAndSend s id r v off dst c op) := Canonical.ite (Canonical.dispatch (by exact h.frame rfl) _ _) (h.setSent _ _)

theorem Canonical.lookupVdn (h : Canonical s) (die fn v : Nat) : Canonical (lookupVdn s die fn v).1 := h.via fun k => k.lookupVdn die fn v

theorem Canonical.firstSend (h : Canonical s) (id : Nat) (r : Req) : Canonical (firstSend s id r) := by
  unfold Machine.firstSend
  split
  · exact h
  · split
    · dsimp only
      split
      · exact ((h.lookupVdn _ _ _).dropSent _).nameAndSend _ _ _ _ _ _ _
      · exact (h.lookupVdn _ _ _).endAccess _ _ _ _ _
    · exact Canonical.ite ((h.dropSent _).nameAndSend _ _ _ _ _ _ _) (h.endAccess _ _ _ _ _)
    · exact h

theorem Canonical.freshSend (h : Canonical s) (id : Nat) (r : Req) : Canonical (freshSend s id r) := by
  have hr := h.refresh id r
  unfold Machine.freshSend
  split
  · next e => exact (hr.fst e).firstSend _ _
  · next e => exact hr.fst e

theorem Canonical.sendPacket (h : Canonical s) (id : Nat) : Canonical (sendPacket s id) := by
  unfold Machine.sendPacket
  split
  · exact Canonical.ite h (h.freshSend _ _)
  · exact Canonical.ite h (Canonical.ite (h.dispatch _ _) (Canonical.ite (h.dropSent _) (h.freshSend _ _)))
  · exact Canonical.ite h (h.dropSent _)
  · exact h

theorem Canonical.execPacketSend (h : Canonical s) (id : Nat) : CanonicalNext (execPacketSend id s) := (h.sendPacket id).next

/-! ## Answers at the source (R402, R404, R406, R414) -/

theorem Canonical.rereadVdn (h : Canonical s) (die fn v : Nat) : Canonical (rereadVdn s die fn v).1 := by
  unfold Machine.rereadVdn
  split
  · exact h
  · exact Canonical.setDie (h.readMem fn ((s.fn fn).vdnBase + 4 * v) 4) _ _

theorem Canonical.resend (h : Canonical s) (id : Nat) (x : Sent) (dst : Nat × Nat) : Canonical (resend s id x dst) :=
  (h.setSent _ _).dispatch _ _

theorem Canonical.movedAnswer (h : Canonical s) (id : Nat) (x : Sent) : Canonical (movedAnswer s id x) := by
  have hr := h.rereadVdn x.die x.pkt.srcFn x.vdn
  unfold Machine.movedAnswer
  dsimp only
  split
  · exact hr.endAccess _ _ _ _ _
  · exact hr.endAccess _ _ _ _ _
  · exact Canonical.ite (hr.endAccess _ _ _ _ _) (Canonical.ite (hr.setSent _ _) (hr.resend _ _ _))
  · exact Canonical.ite (hr.setSent _ _) (hr.resend _ _ _)

theorem Canonical.concludeAnswer (h : Canonical s) (id : Nat) (x : Sent) (code : Answer) (data : List Byte) :
    Canonical (concludeAnswer s id x code data) := Canonical.ite (h.movedAnswer _ _) (h.endAccess _ _ _ _ _)

theorem Canonical.takeAnswer (h : Canonical s) (id member : Nat) (code : Answer) (data : List Byte) :
    Canonical (takeAnswer s id member code data) := by
  unfold Machine.takeAnswer
  split
  · exact h
  · split
    · exact h
    · dsimp only
      split
      · exact Canonical.ite (h.dropSent _) (h.concludeAnswer _ _ _ _)
      · exact h.setSent _ _

theorem Canonical.execAnswerReceive (h : Canonical s) (id : Nat) (a : MemberAnswer) (data : List Byte) :
    CanonicalNext (execAnswerReceive id a data s) := (Canonical.ite (h.takeAnswer _ _ _ _) h).next

theorem Canonical.execPacketRetransmit (h : Canonical s) (id : Nat) : CanonicalNext (execPacketRetransmit id s) := by
  refine Canonical.next ?_
  split
  · exact h
  · exact Canonical.ite ((h.setSent _ _).emit _) h

theorem Canonical.timeOut (h : Canonical s) (id : Nat) (x : Sent) : Canonical (timeOut s id x) :=
  (Canonical.ite (h.dropSent _) (h.setSent _ _)).endRequest _ _ _ _ _

theorem Canonical.execPacketTimeout (h : Canonical s) (id : Nat) : CanonicalNext (execPacketTimeout id s) := by
  refine Canonical.next ?_
  split
  · exact h
  · exact Canonical.ite (h.timeOut _ _) h

theorem Canonical.execMovedResend (h : Canonical s) (id : Nat) : CanonicalNext (execMovedResend id s) := by
  refine Canonical.next ?_
  split
  · exact h
  · split
    · exact Canonical.ite (h.resend _ _ _) h
    · exact h

theorem Canonical.execVdnInvalidate (h : Canonical s) (fn : Nat) : CanonicalNext (execVdnInvalidate fn s) :=
  (Canonical.ite (Canonical.setFn (h.foldl_frame (by intros; rfl) _) _ _) h).next

/-! ## Packets at the target (R400, R402, R403, R406, R413) -/

theorem Canonical.reply (h : Canonical s) (p : Packet) (code : Answer) (data : List Byte) : Canonical (reply s p code data) := h.depart _ _

theorem Canonical.execAtomicResultExpiry (h : Canonical s) (src : Nat) : CanonicalNext (execAtomicResultExpiry src s) :=
  Canonical.next (by exact h.frame rfl)

theorem Canonical.ite_fst {α : Type} {c : Prop} [Decidable c] {x y : State × α} (hx : Canonical x.1) (hy : Canonical y.1) :
    Canonical (if c then x else y).1 := by
  split
  · exact hx
  · exact hy

theorem Canonical.fmTranslate (h : Canonical s) (p : Packet) : Canonical (fmTranslate s p).1 := by
  unfold Machine.fmTranslate
  dsimp only
  obtain ⟨r, reads⟩ := walk2 s p.offset [0, 1, 2, 3] ((s.fn p.dstFn).fmroot.toNat % 2 ^ 52 / 65536 * 65536) []
  have hr := h.llcReads p.dstFn 8 reads
  dsimp only
  split
  · exact Canonical.ite_fst hr hr
  · exact hr

theorem Canonical.conclude (h : Canonical s) (p : Packet) (code : Answer) (r : List Byte) : Canonical (conclude s p code r) :=
  Canonical.reply (by exact h.frame rfl) _ _ _

theorem Canonical.takePiece (h : Canonical s) (x : FxPiece) : Canonical (takePiece s x) := by
  have hp : Canonical { s with fab := { s.fab with pieces := s.fab.pieces ++ [x] } } := h.frame rfl
  exact Canonical.ite hp (hp.faultAll _ _)

theorem Canonical.performPacket (h : Canonical s) (p : Packet) (pa : Nat) : Canonical (performPacket s p pa) := by
  unfold Machine.performPacket
  dsimp only
  split
  · exact (h.performWrite _ _ _).conclude _ _ _
  · exact (h.takePiece _).conclude _ _ _
  all_goals
    exact Canonical.ite (h.conclude _ _ _)
      ((Canonical.ite (h.readMem _ _ _) ((h.readMem _ _ _).performWrite _ _ _)).conclude _ _ _)

theorem Canonical.holdPacket (h : Canonical s) (p : Packet) : Canonical (holdPacket s p) := h.frame rfl

theorem Canonical.stallPacket (h : Canonical s) (p : Packet) : Canonical (stallPacket s p) := h.frame rfl

theorem Canonical.forwardOrMoved (h : Canonical s) (p : Packet) : Canonical (forwardOrMoved s p) :=
  Canonical.ite (h.emit _) (h.reply _ _ _)

theorem Canonical.processPacket (h : Canonical s) (p : Packet) : Canonical (processPacket s p) := by
  have hf := h.fmTranslate p
  unfold Machine.processPacket
  refine Canonical.ite (h.holdPacket _) (Canonical.ite (h.forwardOrMoved _) (Canonical.ite (h.reply _ _ _)
    (Canonical.ite (h.performPacket _ _) (Canonical.ite (h.reply _ _ _) ?_))))
  split
  · next e => exact (hf.fst e).performPacket _ _
  · next e => exact (hf.fst e).stallPacket _

theorem Canonical.receivePacket (h : Canonical s) (p : Packet) : Canonical (receivePacket s p) := by
  unfold Machine.receivePacket
  refine Canonical.ite h ?_
  split
  · exact h.reply _ _ _
  · exact h.processPacket _

theorem Canonical.execPacketReceive (h : Canonical s) (p : Packet) : CanonicalNext (execPacketReceive p s) :=
  (Canonical.ite (h.receivePacket _) h).next

theorem Canonical.takeInbound (h : Canonical s) (k : Nat) : Canonical (takeInbound s k) := by
  unfold Machine.takeInbound
  split
  · exact h.frame rfl
  · exact h.frame rfl

theorem Canonical.answerInbound (h : Canonical s) (k : Nat) (r : Bool) : Canonical (answerInbound s k r) := by
  unfold Machine.answerInbound
  split
  · exact h
  · refine Canonical.ite (by exact h.frame rfl) (Canonical.ite ((h.takeInbound _).processPacket _) ((h.takeInbound _).reply _ _ _))

theorem Canonical.execFabricMmuStallTimeout (h : Canonical s) (tok : Nat) : CanonicalNext (execFabricMmuStallTimeout tok s) := by
  refine Canonical.next ?_
  split
  · exact Canonical.ite (h.answerInbound _ _) h
  · exact h

theorem Canonical.releaseInbound (h : Canonical s) (f : Nat) : Canonical (releaseInbound s f) :=
  Canonical.foldl (fun _ x h => (h.takeInbound x.1).processPacket x.2.pkt) _ h

theorem Canonical.execForwardingWindowEnd (h : Canonical s) (fn : Nat) : CanonicalNext (execForwardingWindowEnd fn s) :=
  (Canonical.ite (h.setFn _ _) h).next

/-! ## Multicast groups (R407) -/

/-- One entry of a member list is read. -/
def memberStep (pa : Nat) (acc : State × List Nat) (i : Nat) : State × List Nat :=
  let (s, l) := acc
  if poisonedAt s (pa + 4 * i) 4 then
    ({ s with freeCtr := s.freeCtr + 1 }, l ++ [(Config.freeWord s.freeCtr).toNat % 2 ^ 32])
  else (s, l ++ [leNat (readBytes s (pa + 4 * i) 4)])

theorem memberStep_mem (pa : Nat) (acc : State × List Nat) (i : Nat) : (memberStep pa acc i).1.mem = acc.1.mem := by
  unfold memberStep
  dsimp only
  split
  · rfl
  · rfl

theorem memberSteps_mem (pa : Nat) (is : List Nat) (acc : State × List Nat) : (is.foldl (memberStep pa) acc).1.mem = acc.1.mem := by
  induction is generalizing acc with
  | nil => rfl
  | cons i is ih => exact (ih _).trans (memberStep_mem pa acc i)

theorem Canonical.readMembers (h : Canonical s) (pa : Nat) : Canonical (readMembers s pa).1 :=
  h.frame (memberSteps_mem pa (List.range 64) (s, []))

theorem Canonical.execMulticastRewrite (h : Canonical s) (x : DWord) : CanonicalNext (execMulticastRewrite x s) := by
  refine Canonical.next (h.inFull (Canonical.ite (by exact h.frame rfl) (Canonical.ite ?_ (by exact h.frame rfl))))
  have hm := h.readMembers (s.fab.mcList.toNat % 2 ^ 52 / 256 * 256)
  dsimp only
  generalize Machine.readMembers s (s.fab.mcList.toNat % 2 ^ 52 / 256 * 256) = r at hm ⊢
  exact hm.frame rfl

theorem Canonical.execMulticastRewriteDone (h : Canonical s) : CanonicalNext (execMulticastRewriteDone s) :=
  Canonical.next (by exact h.frame rfl)

/-! ## Ethernet (R410, R411) -/

theorem Canonical.setEq (h : Canonical s) (port k : Nat) (x : Eq) : Canonical (s.setEq port k x) := h.frame rfl

theorem Canonical.execTxtailWrite (h : Canonical s) (port q fn : Nat) (x : Word) : CanonicalNext (execTxtailWrite port q fn x s) :=
  Canonical.next (h.via fun k => k.ethWrite _ _ _ _)

theorem Canonical.ethLoad (h : Canonical s) (fn va n : Nat) : Canonical (ethLoad s fn va n).1 := by
  have ha := h.areaRead fn 0 va n
  unfold Machine.ethLoad
  split
  · next e => exact ha.fst e
  · next e => exact ha.fst e
  · next e => exact ha.fst e

theorem Canonical.ethStore (h : Canonical s) (fn va : Nat) (bs : List Byte) : Canonical (ethStore s fn va bs).1 := by
  have ha := h.areaWrite fn 0 va bs
  unfold Machine.ethStore
  split
  · next e => exact ha.fst e
  · next e => exact ha.fst e
  · next e => exact ha.fst e

theorem Canonical.sendFrame (h : Canonical s) (fn port a n : Nat) : Canonical (sendFrame s fn port a n).1 := by
  have hl := h.ethLoad fn a n
  unfold Machine.sendFrame
  split
  · exact h
  · split
    · next e => exact hl.fst e
    · next e => exact (hl.fst e).frame rfl

theorem Canonical.execFrameTransmit (h : Canonical s) (port q : Nat) : CanonicalNext (execFrameTransmit port q s) := by
  have hl := h.ethLoad (s.eq port q).owner (ringAddr (s.eq port q).tx (s.eq port q).txlog (s.eq port q).txhead) 16
  refine Canonical.next (Canonical.ite (Canonical.setEq ?_ _ _ _) h)
  split
  · next e => exact hl.fst e
  · next e => exact ((hl.fst e).sendFrame _ _ _ _).ethStore _ _ _

theorem Canonical.dropFrame (h : Canonical s) (port : Nat) : Canonical (dropFrame s port) := h.setEq _ _ _

theorem Canonical.writeFrame (h : Canonical s) (port k : Nat) (f : List Byte) : Canonical (writeFrame s port k f) := by
  have hl := h.ethLoad (s.eq port k).owner (ringAddr (s.eq port k).rx (s.eq port k).rxlog (s.eq port k).rxhead) 8
  unfold Machine.writeFrame
  dsimp only
  refine Canonical.ite (h.dropFrame _) ?_
  split
  · next e => exact (hl.fst e).dropFrame _
  · next d e =>
    have h1 := (hl.fst e).ethStore (s.eq port k).owner (leNat d) f
    split
    · next e1 => exact (h1.fst e1).dropFrame _
    · next e1 =>
      have h2 := (h1.fst e1).ethStore (s.eq port k).owner
        (ringAddr (s.eq port k).rx (s.eq port k).rxlog (s.eq port k).rxhead + 8) (leBytes 2 f.length ++ leBytes 6 1)
      split
      · next e2 => exact (h2.fst e2).dropFrame _
      · next e2 => exact (h2.fst e2).setEq _ _ _

theorem Canonical.execFrameReceive (h : Canonical s) (port : Nat) (f : List Byte) (fcs : Word) :
    CanonicalNext (execFrameReceive port f fcs s) := by
  refine Canonical.next (Canonical.ite h (Canonical.ite (h.dropFrame _) ?_))
  split
  · exact h.dropFrame _
  · exact h.writeFrame _ _ _

end

end Sys2Proof.Machine
end

section
/-! SUPPORT. Memory's canonical form: teardown, watchdogs, discards, quiescence, and saves and restores of teams. -/

namespace Sys2Proof.Machine

set_option Elab.async false

section
variable {s : State}

/-! ## Teardown, watchdogs, discards (R148, R150, R177, R330) -/

theorem Canonical.stopThreads (h : Canonical s) (u : Nat) (m : Team) : Canonical (stopThreads s u m) := h.via fun k => k.stopThreads u m

theorem Canonical.dropCalls (h : Canonical s) (u : Nat) : Canonical (dropCalls s u) := h.via fun k => k.dropCalls u

theorem Canonical.killPrograms (h : Canonical s) (u : Nat) : Canonical (killPrograms s u) := h.via fun k => k.killPrograms u

theorem Canonical.endFaulted (h : Canonical s) (u : Nat) (m : Team) : Canonical (endFaulted s u m) := h.via fun k => k.endFaulted u m

theorem Canonical.releaseTeam (h : Canonical s) (u : Nat) (x : Stage) : Canonical (releaseTeam s u x) := h.via fun k => k.releaseTeam u x

theorem Canonical.poisonTeam (h : Canonical s) (u : Nat) : Canonical (poisonTeam s u) :=
  Canonical.ite h (h.via fun k => k.poisonRegs _ _)

theorem Canonical.execTeamTeardown (h : Canonical s) (u : Nat) : CanonicalNext (execTeamTeardown u s) := by
  refine Canonical.next ?_
  split
  · exact h
  · next m _ =>
    have hp := ((((h.dropCalls u).stopThreads u m).killPrograms u).poisonTeam u)
    exact Canonical.ite (Canonical.ite (hp.endFaulted _ _) hp) h

theorem Canonical.execWatchdogExpiry (h : Canonical s) (u : Nat) : CanonicalNext (execWatchdogExpiry u s) := by
  refine Canonical.next ?_
  split
  · exact h
  · exact Canonical.ite (h.postTeamFault _ _ _ _) h

theorem Canonical.execTrapModeWindowExpiry (h : Canonical s) (u : Nat) : CanonicalNext (execTrapModeWindowExpiry u s) := by
  refine Canonical.next ?_
  split
  · exact h
  · split
    · exact Canonical.ite (h.postTeamFault _ _ _ _) h
    · exact h

theorem Canonical.dropRun (h : Canonical s) (u : Nat) : Canonical (dropRun s u) := h.frame rfl

theorem Canonical.discardTeam (h : Canonical s) (u : Nat) (m : Team) : Canonical (discardTeam s u m) := by
  have hk (f : Team → Team) := ((h.updTeam u f).stopThreads u m).killPrograms u
  refine Canonical.ite (hk _) ?_
  have hr (f : Team → Team) := (((hk f).dropCalls u).dropRun u).releaseTeam u .discarded
  exact ((((hr _).foldl_frame State.setThread_mem _).updTeam _ _).leaveQueue _ _).requestAdmission _ _

theorem Canonical.execPhaseDiscard (h : Canonical s) (u : Nat) : CanonicalNext (execPhaseDiscard u s) := by
  refine Canonical.next ?_
  split
  · exact h
  · exact Canonical.ite (h.discardTeam _ _) h

/-! ## Quiescence (R333, R334) -/

theorem Canonical.checkLaunchEnd (h : Canonical s) (u : Nat) : Canonical (checkLaunchEnd s u) := h.via fun k => k.checkLaunchEnd u

theorem Canonical.endRound (h : Canonical s) (u : Nat) (l : Launch) (x : Sample) : Canonical (endRound s u l x) :=
  Canonical.ite (((h.updLaunch _ _).releaseIdle _).checkLaunchEnd _) (h.updLaunch _ _)

theorem Canonical.execQuiescenceRound (h : Canonical s) (u d : Nat) : CanonicalNext (execQuiescenceRound u d s) := by
  refine Canonical.next ?_
  split
  · exact h
  · exact Canonical.ite (Canonical.ite (h.endRound _ _ _) (h.updLaunch _ _)) h

/-! ## `hcall`s and the end of a function's work (R363, R367) -/

theorem Canonical.putFill (h : Canonical s) (u tix v : Nat) (x : RegVal) (k : TagKind) : Canonical (putFill s u tix v x k) :=
  h.via fun k' => k'.putFill u tix v x k

theorem Canonical.fillCall (h : Canonical s) (u tix : Nat) (v : Word) : Canonical (fillCall s u tix v) := by
  unfold Machine.fillCall
  split
  · split
    · exact (h.setThread _).putFill _ _ _ _ _
    · exact h
  · exact h

theorem Canonical.raiseCall (h : Canonical s) (fn ty : Nat) (t : Thread) (c : HCall) : Canonical (raiseCall s fn ty t c) :=
  Canonical.ite ((h.setThread _).fillCall _ _ _) ((h.raiseEvent _ _ _ _ _ _).setThread _)

theorem Canonical.dropToken (h : Canonical s) (k : Option Nat) : Canonical (dropToken s k) := h.via fun k' => k'.dropToken k

theorem Canonical.endFunction (h : Canonical s) (f : Nat) : Canonical (endFunction s f) := h.via fun k => k.endFunction f

theorem Canonical.loseContext (h : Canonical s) (f : Nat) : Canonical (loseContext s f) := ((h.dropToken _).setFn _ _).endFunction _

/-! ## The save area (R370, R383, R386) -/

theorem Canonical.ipaRuns (h : Canonical s) (fn : Nat) (k : Right) (ps acc : List (Nat × Nat)) : Canonical (ipaRuns fn k ps s acc).1 := by
  induction ps generalizing s acc with
  | nil => exact h
  | cons p ps ih =>
    obtain ⟨a, n⟩ := p
    have hi := h.ipaAccess fn a k
    unfold Machine.ipaRuns
    split
    · next e => exact ih (hi.fst e) _
    · next e => exact ih (hi.fst e) _
    all_goals
      next e => exact hi.fst e

theorem Canonical.writeRuns (h : Canonical s) (fn : Nat) (rs : List (Nat × Nat)) (bs : List Byte) : Canonical (writeRuns fn rs bs s) :=
  h.via fun k => Keeps.writeRuns fn rs bs k

theorem Canonical.saveWrite (h : Canonical s) (fn off : Nat) (bs : List Byte) : Canonical (saveWrite s fn off bs).1 := by
  have hi := h.ipaRuns fn .w (pieces ((s.fn fn).saveBase + off) bs.length) []
  unfold Machine.saveWrite
  dsimp only
  split
  · exact h
  · split
    · next e => exact (hi.fst e).writeRuns _ _ _
    · next e => exact hi.fst e

theorem Canonical.readRuns (h : Canonical s) (fn : Nat) (rs : List (Nat × Nat)) :
    Canonical (rs.foldl (fun s p => (Machine.readMem s fn p.1 p.2).1) s) := Canonical.foldl (fun _ p h => h.readMem fn p.1 p.2) rs h

theorem Canonical.saveRead (h : Canonical s) (fn off n : Nat) : Canonical (saveRead s fn off n).1 := by
  have hi := h.ipaRuns fn .r (pieces ((s.fn fn).saveBase + off) n) []
  unfold Machine.saveRead
  dsimp only
  split
  · exact h
  · split
    · next e => exact Canonical.ite_fst (hi.fst e) ((hi.fst e).readRuns _ _)
    · next e => exact hi.fst e

theorem Canonical.freeSaveArea (h : Canonical s) (f : Nat) : Canonical (freeSaveArea s f) := h.via fun k => k.freeSaveArea f

theorem Canonical.raiseSave (h : Canonical s) (f ipa info : Nat) (w : Waiter) (t : Option Nat) :
    Canonical (raiseSave s f ipa info w t).2 := by
  unfold Machine.raiseSave
  dsimp only
  split
  · exact h.frame rfl
  · exact h.raiseEvent _ _ _ _ _ _

/-! ## Stopping a team for a save (R327, R380) -/

theorem Canonical.haltThreads (h : Canonical s) (u : Nat) (m : Team) : Canonical (haltThreads s u m) :=
  (h.foldl_frame (fun s _ => State.setThread_mem s _) _).setCore _ _

/-- A thread of a spilled team takes its registers from the phase record. -/
def gatherThread (m : Team) (carry : List Nat) (bs : List Byte) (s : State) (t : Thread) : State :=
  if leNat ((bs.drop 64).take 128) / 2 ^ t.tix % 2 = 0 then s.setThread { t with place := .exited, regs := [] }
  else
    let regs := (List.range carry.length).foldl (fun (r : FMap RegVal) i =>
      FMap.set (.full 0) r (carry.getD i 0) (recordReg ((bs.drop (192 + (t.tix * carry.length + i) * 8)).take 8))) []
    s.setThread { t with regs := regs, pc := m.phaddr, place := .held (.save s.now) }

theorem Canonical.gatherThread (h : Canonical s) (m : Team) (carry : List Nat) (bs : List Byte) (t : Thread) :
    Canonical (gatherThread m carry bs s t) := Canonical.ite (h.setThread _) (h.setThread _)

theorem Canonical.gatherSpilled (h : Canonical s) (u : Nat) (m : Team) (l : Launch) : Canonical (gatherSpilled s u m l) := by
  have hr : Canonical (readRecord s m l).1 := h.areaRead _ _ _ _
  unfold Machine.gatherSpilled
  dsimp only
  split
  · next e => exact (hr.fst e).stallRecord _ _ _ _ _
  · next e => exact (hr.fst e).postTeamFault _ _ _ _
  · next bs e =>
    exact (Canonical.foldl (fun _ t h => h.gatherThread m _ bs t) _ ((hr.fst e).leaveQueue _ _)).updTeam _ _

theorem Canonical.removeProgram (h : Canonical s) (u : Nat) (p : Program) : Canonical (removeProgram s u p) :=
  h.via fun k => k.removeProgram u p

theorem Canonical.dropStall (h : Canonical s) (p : Program) : Canonical (dropStall s p) := h.via fun k => k.dropStall p

theorem Canonical.leaveReductions (h : Canonical s) (u : Nat) : Canonical (leaveReductions s u) := h.frame rfl

theorem Canonical.releaseSaved (h : Canonical s) (u : Nat) (m : Team) (bs : List Byte) : Canonical (releaseSaved s u m bs) := by
  refine Canonical.updTeam (Canonical.releaseTeam (Canonical.frame ?_ rfl) _ _) _ _
  refine Canonical.foldl (fun s p h => ?_) (programsOf s u) (Canonical.ite (h.setCore _ _) h)
  split
  · exact ((h.leaveReductions _).dropStall _).removeProgram _ _
  · exact h

theorem Canonical.dropStalls (h : Canonical s) (u : Nat) : Canonical (dropStalls s u) := by
  refine Canonical.foldl (fun s t h => ?_) _ h
  split
  · exact h.dropWait _
  · exact h

theorem Canonical.withdrawAll (h : Canonical s) (u : Nat) : Canonical (withdrawAll s u) := by
  refine Canonical.dropCalls (Canonical.frame ?_ rfl) _
  exact h.foldl_frame (by intros; rfl) _

theorem Canonical.imageOf (h : Canonical s) (u : Nat) : Canonical (imageOf s u).1 := by
  have hw := (Canonical.foldl (fun _ p h => h.flushOwn p fun _ => true) (programsOf s u) h).withdrawAll u
  unfold Machine.imageOf
  dsimp only
  split
  · exact hw
  · split
    · exact hw
    · exact hw

theorem Canonical.keepImage (h : Canonical s) (u : Nat) : Canonical (keepImage s u) := by
  have hi := h.imageOf u
  unfold Machine.keepImage
  dsimp only
  split
  · exact ((hi.dropToken _).dropStalls _).releaseSaved _ _ _
  · exact hi

theorem Canonical.failSave (h : Canonical s) (u : Nat) (m : Team) (f : Nat) : Canonical (failSave s u m f) :=
  ((h.updTeam _ _).postTeamFault _ _ _ _).loseContext _

theorem Canonical.saveTeam (h : Canonical s) (u : Nat) (m : Team) (t : Option Nat) : Canonical (saveTeam s u m t) := by
  have hw := (h.imageOf u).saveWrite (fnOfTeam s m) (saveOffset s (fnOfTeam s m)) (Machine.imageOf s u).2
  unfold Machine.saveTeam
  dsimp only
  split
  · next e => exact ((hw.fst e).dropStalls _).releaseSaved _ _ _
  · next e => exact (hw.fst e).failSave _ _ _
  · next e => exact ((hw.fst e).raiseSave _ _ _ _ _).updTeam _ _

theorem Canonical.continueSave (h : Canonical s) (u : Nat) (t : Option Nat) : Canonical (continueSave s u t) := by
  unfold Machine.continueSave
  split
  · exact h
  · have hh (m : Team) := h.haltThreads u m
    exact Canonical.ite h (Canonical.ite (hh _) (Canonical.ite (Canonical.ite (hh _) ((hh _).keepImage _))
      (Canonical.ite ((hh _).saveTeam _ _ _) (hh _))))

theorem Canonical.execTeamSave (h : Canonical s) (u : Nat) : CanonicalNext (execTeamSave u s) := by
  refine Canonical.next ?_
  split
  · exact h
  · refine Canonical.ite h ?_
    split
    · exact Canonical.ite h ((h.haltThreads _ _).updTeam _ _)
    · refine Canonical.ite h ?_
      split
      · exact h.gatherSpilled _ _ _
      · exact h
    · exact h.continueSave _ _
    all_goals exact h

end

end Sys2Proof.Machine
end

section
/-! SUPPORT. Memory's canonical form: restores, stops, resets and the control of functions. -/

namespace Sys2Proof.Machine

set_option Elab.async false

section
variable {s : State}

/-! ## Restoring teams (R328, R332, R336 to R338) -/

theorem Canonical.restorePrograms (h : Canonical s) (u : Nat) (l : Launch) (r : TeamRec) (k : Nat) :
    Canonical (restorePrograms s u l r k) := by
  refine Canonical.foldl (fun s i h => ?_) _ h
  dsimp only
  split
  · exact h.frame rfl
  · refine Canonical.ite (Canonical.setCluster ?_ _ _) ?_
    · exact h.frame rfl
    · exact h.frame rfl

/-- One reservation entry comes back. -/
def restoreEntry (u k : Nat) (chains : List Chain) (s : State) (x : Nat) : State :=
  match chains[resvChain x]? with
  | none => s
  | some c =>
    let oct := resvOct x
    match slotThread s u (8 * oct + 64 * c.sub) with
    | none => s
    | some t =>
      let (id, s) := addReq s (t.req s.now (some .mx) .mxPass)
      let bpri := x / 2 ^ 16 % 4
      let e : Resv :=
        { req := id, team := u, tix := t.tix, ctx := c.ctx, oct := oct, kind := x / 2 ^ 8 % 4, tile := x / 2 ^ 10 % 32,
          kb := x / 2 ^ 15 % 2 == 1, bpri := bpri, number := relNumber c.passes (resvNumber x) true, issued := s.now,
          promoted := 0, risen := x / 2 ^ 18 % 4 - bpri }
      let cl := s.cluster k
      s.setCluster k { cl with resv := cl.resv ++ [e] }

/-- A chain that is closing waits for its passes again. -/
def restoreClosing (u : Nat) (s : State) (c : Chain) : State :=
  match (if c.closing then slotThread s u (8 * (litOctets c.lit).headD 0 + 64 * c.sub) else none) with
  | none => s
  | some t => (addReq s (t.req s.now (some .mx) (.mxEnd c.sub c.ch))).2

theorem Canonical.restoreEntry (h : Canonical s) (u k : Nat) (chains : List Chain) (x : Nat) : Canonical (restoreEntry u k chains s x) := by
  unfold Machine.restoreEntry
  split
  · exact h
  · dsimp only
    split
    · exact h
    · exact (h.addReq _).setCluster _ _

theorem Canonical.restoreClosing (h : Canonical s) (u : Nat) (c : Chain) : Canonical (restoreClosing u s c) := by
  unfold Machine.restoreClosing
  split
  · exact h
  · exact h.addReq _

theorem Canonical.restoreChains (h : Canonical s) (u : Nat) (r : TeamRec) (k : Nat) : Canonical (restoreChains s u r k) :=
  Canonical.foldl (fun _ c h => h.restoreClosing u c) _ (Canonical.foldl (fun _ x h => h.restoreEntry u k _ x) _ (h.updTeam _ _))

/-- Requests of a class that have completed and still count. -/
def addSpent (t : Thread) (s : State) (c : Cls) (n : Nat) : State :=
  (List.range (n - countOf s t.team t.tix c)).foldl (fun s _ => (addReq s (t.spent s.now c)).2) s

theorem Canonical.addSpent (h : Canonical s) (t : Thread) (c : Cls) (n : Nat) : Canonical (addSpent t s c n) :=
  Canonical.foldl (fun _ _ h => h.addReq _) _ h

theorem Canonical.restoreCounts (h : Canonical s) (r : TeamRec) (t : Thread) : Canonical (restoreCounts s r t) :=
  (h.addSpent t .md _).addSpent t .mx _

theorem Canonical.restoreArrivals (h : Canonical s) (u fn : Nat) (r : TeamRec) : Canonical (restoreArrivals s u fn r) := by
  refine Canonical.foldl (fun s x h => ?_) _ h
  split
  · exact h
  · next t _ =>
    have hc : Canonical (match t.hcall with
        | some c => Machine.raiseCall s fn 9 t c
        | none => s) := by
      split
      · exact h.raiseCall _ _ _ _
      · exact h
    dsimp only
    split
    · exact hc.arrive _ _
    · exact hc

theorem Canonical.joinCells (h : Canonical s) (u : Nat) (l : Launch) (k : Nat) : Canonical (joinCells s u l k) :=
  Canonical.foldl (fun _ i h => Canonical.ite (h.lowerAll l k i _) h) _ h

theorem Canonical.restoreMember (h : Canonical s) (u : Nat) (r : TeamRec) (core : Nat) : Canonical (restoreMember s u r core) := by
  unfold Machine.restoreMember
  split
  · exact h
  · next m _ =>
    split
    · exact h
    · next l _ =>
      dsimp only
      refine Canonical.ite ?_ ?_
      · refine Canonical.requestAdmission ?_ _ _
        exact (h.setTeam _ _).foldl_frame (by intros; rfl) _
      · have hg (c : Core) := Canonical.foldl (fun s x (h : Canonical s) => h.giveGranules (threadFromRec l r u x core m.erets) (granulesFor r.nreg))
          (List.range r.nthr) (((((((h.setTeam u (teamFromRec s m l r core)).takeCells m.launch l (clusterOf core)).joinCells m.launch l
            (clusterOf core)).assignGen u (teamFromRec s m l r core)).freshCaches core l.fn).ownDeque l.dq core c).startSlice core l.fn)
        exact (Canonical.foldl (fun s t h => h.restoreCounts r t) _
          (((hg _).restorePrograms u l r (clusterOf core)).restoreChains u r (clusterOf core))).restoreArrivals _ _ _

theorem Canonical.reshareGens (h : Canonical s) (us : List Nat) : Canonical (reshareGens s us) := (h.shareGens us).frame rfl

theorem Canonical.takeSeats (h : Canonical s) (m : Team) (l : Launch) (seats : List (Nat × TeamRec × Nat)) :
    Canonical (takeSeats s m l seats) := by
  have hr := Canonical.foldl (fun s x (h : Canonical s) => h.restoreMember x.1 x.2.1 x.2.2) seats h
  exact (Canonical.foldl (fun _ u h => (h.closeChains u).checkTeamEnd u) _ (hr.reshareGens _)).settle.releaseIdle _

theorem Canonical.execClusterTeamPlacement (h : Canonical s) (d : Nat) : CanonicalNext (execClusterTeamPlacement d s) :=
  (h.placeFirst _ _).next

theorem Canonical.execTeamRestore (h : Canonical s) (u k : Nat) : CanonicalNext (execTeamRestore u k s) := by
  refine Canonical.next ?_
  split
  · exact h
  · split
    · refine Canonical.ite ?_ h
      split
      · exact h.takeSeats _ _ _
      · exact h
    · exact h

/-! ## STOP, QDONE, SDONE, ABORT, COMMIT (R380 to R385) -/

theorem Canonical.setErr (h : Canonical s) (f : Nat) : Canonical (setErr s f) := h.setFn _ _

theorem Canonical.withdrawWaiting (h : Canonical s) (f : Nat) : Canonical (withdrawWaiting s f) := by
  refine Canonical.frame ?_ rfl
  exact h.foldl_frame (by intros; rfl) _

theorem Canonical.preemptAll (h : Canonical s) (f : Nat) : Canonical (preemptAll s f) := h.foldl_frame (by intros; rfl) _

theorem Canonical.execStop (h : Canonical s) (f : Nat) : CanonicalNext (execStop f s) :=
  Canonical.next (h.inFull (Canonical.ite (h.setErr _) (((h.setFn _ _).withdrawWaiting _).preemptAll _)))

theorem Canonical.execQuiesceDone (h : Canonical s) (f : Nat) : CanonicalNext (execQuiesceDone f s) := by
  have hh := Canonical.foldl (fun s (p : Nat × Team) (h : Canonical s) =>
    Canonical.ite (c := p.2.stage = .stopping) (h.haltThreads p.1 p.2) h) (fnTeams s f) h
  exact Canonical.next (Canonical.ite (Canonical.setFn (Canonical.foldl (fun s p h => Canonical.ite (h.dropCalls _) h) _ hh) _ _) hh)

theorem Canonical.resumeHeld (h : Canonical s) (u fn x : Nat) : Canonical (resumeHeld u fn s x) := by
  unfold Machine.resumeHeld
  split
  · exact h
  · next t _ =>
    have hc : Canonical (match callWithdrawn s t with
        | some c => Machine.raiseCall s fn 9 t c
        | none => s) := by
      split
      · exact h.raiseCall _ _ _ _
      · exact h
    dsimp only
    split
    · exact hc
    · split
      · exact hc.arrive _ _
      · exact Canonical.ite hc (hc.arrive _ _)
      · exact hc

theorem Canonical.resumeInPlace (h : Canonical s) (u : Nat) (m : Team) : Canonical (resumeInPlace s u m) :=
  (((Canonical.foldl (fun _ x h => h.resumeHeld u _ x) _ (h.updTeam _ _)).startSlice _ _).noteIdle _).checkTeamEnd _

theorem Canonical.resumeStopped (h : Canonical s) (u : Nat) (m : Team) : Canonical (resumeStopped s u m) :=
  Canonical.ite (((h.dropToken _).updTeam _ _).resumeInPlace _ _) (((h.dropToken _).updTeam _ _).continueSave _ _)

theorem Canonical.abortStop (h : Canonical s) (f : Nat) : Canonical (abortStop s f) :=
  ((Canonical.foldl (fun _ p h => Canonical.ite (Canonical.ite h (h.resumeStopped p.1 p.2)) (h.updTeam _ _)) _
    (((h.dropToken _).setFn _ _).freeSaveArea f)).releaseInbound f).settle

theorem Canonical.writeSave (h : Canonical s) (f : Nat) (t : Option Nat) : Canonical (writeSave s f t) := by
  have hk := Canonical.foldl (fun s (p : Nat × Team) (h : Canonical s) =>
    Canonical.ite (c := p.2.stage = .stopping) (h.keepImage p.1) h) (fnTeams s f) h
  unfold Machine.writeSave
  dsimp only
  split
  · next e => exact ((hk.saveWrite _ _ _).fst e).setFn _ _
  · next e => exact (((hk.saveWrite _ _ _).fst e).setFn _ _).abortStop _
  · next e => exact (((hk.saveWrite _ _ _).fst e).raiseSave _ _ _ _ _).setFn _ _

theorem Canonical.execSaveDone (h : Canonical s) (f : Nat) : CanonicalNext (execSaveDone f s) :=
  Canonical.next (Canonical.ite (h.writeSave _ _) h)

theorem Canonical.execAbort (h : Canonical s) (f : Nat) : CanonicalNext (execAbort f s) :=
  Canonical.next (h.inFull (Canonical.ite (h.abortStop _) (h.setErr _)))

theorem Canonical.execCommit (h : Canonical s) (f : Nat) : CanonicalNext (execCommit f s) := by
  refine Canonical.next (h.inFull (Canonical.ite (h.setErr _) (Canonical.releaseInbound (Canonical.setFn ?_ _ _) _)))
  exact h.frame rfl

/-! ## RESTORE (R384, R386) -/

theorem Canonical.execRestore (h : Canonical s) (f : Nat) : CanonicalNext (execRestore f s) :=
  Canonical.next (h.inFull (Canonical.ite (h.setErr _) (h.setFn _ _)))

theorem Canonical.loadLaunch (h : Canonical s) (fn : Nat) (r : LaunchRec) : Canonical (loadLaunch fn s r) := by
  refine Canonical.foldl (fun s bs h => ?_) _ ?_
  · exact h.frame rfl
  · exact h.frame rfl

theorem Canonical.endRestored (h : Canonical s) (u st : Nat) : Canonical (endRestored s u st) :=
  Canonical.cancelLaunch (by exact h.frame rfl) _ _

theorem Canonical.reloadPlaces (h : Canonical s) (u : Nat) (l : Launch) (x : DWord) : Canonical (reloadPlaces s u l x) := by
  have ha := h.areaRead l.fn (l.queue % 4) l.placeaddr (32 * Nat.min l.nplace 8)
  unfold Machine.reloadPlaces
  dsimp only
  refine Canonical.ite (h.updLaunch _ _) ?_
  split
  · next e => exact (ha.fst e).stallLaunch _ _ _ _ _
  · next e => exact (ha.fst e).endRestored _ _
  · next e => exact (ha.fst e).updLaunch _ _

theorem Canonical.reloadHeader (h : Canonical s) (u : Nat) : Canonical (reloadHeader s u) := by
  unfold Machine.reloadHeader
  split
  · exact h
  · next l _ =>
    have ha := h.areaRead l.fn (l.queue % 4) l.hdraddr 8
    refine Canonical.ite h ?_
    split
    · next e => exact (ha.fst e).stallLaunch _ _ _ _ _
    · next e => exact (ha.fst e).endRestored _ _
    · next e => exact Canonical.ite ((ha.fst e).reloadPlaces _ _ _) ((ha.fst e).endRestored _ _)

theorem Canonical.finishRestore (h : Canonical s) (f : Nat) : Canonical (finishRestore s f) := h.setFn _ _

theorem Canonical.placeRestored (h : Canonical s) (f : Nat) : Canonical (placeRestored s f) := by
  have hr := Canonical.foldl (fun _ u h => h.reloadHeader u) ((fnLaunches s f).map (·.1)) h
  exact Canonical.ite hr (hr.finishRestore _)

theorem Canonical.loadArea (h : Canonical s) (f : Nat) (bs : List Byte) : Canonical (loadArea s f bs) := by
  have hq := Canonical.foldl (fun s q (h : Canonical s) => (h.setLq _ _ _ : Canonical (loadQueue f bs s q))) (List.range 32) h
  exact Canonical.ite ((Canonical.foldl (fun _ _ h => h.loadLaunch _ _) _ hq).loseContext _)
    (((Canonical.foldl (fun _ r h => h.loadLaunch _ r) _ hq).setFn _ _).placeRestored _)

theorem Canonical.stallRestore (h : Canonical s) (f ipa : Nat) : Canonical (stallRestore s f ipa) := by
  have hr := h.raiseSave f ipa 0 (.save f) none
  unfold Machine.stallRestore
  exact hr.setFn _ _

theorem Canonical.readSave (h : Canonical s) (f : Nat) : Canonical (readSave s f) := by
  have h1 := h.saveRead f 0 0x1000
  unfold Machine.readSave
  split
  · next e => exact (h1.fst e).stallRestore _ _
  · next e => exact (h1.fst e).loseContext _
  · next x e =>
    have h2 := (h1.fst e).saveRead f 0 (sliceNat x 8 8)
    split
    · next e2 => exact (h2.fst e2).stallRestore _ _
    · next e2 => exact (h2.fst e2).loseContext _
    · next e2 => exact (h2.fst e2).loadArea _ _

theorem Canonical.execRestoreDone (h : Canonical s) (f : Nat) : CanonicalNext (execRestoreDone f s) :=
  Canonical.next (Canonical.ite (h.readSave _) (Canonical.ite (h.placeRestored _) h))

/-! ## Answers to save-area stalls, and their time-outs -/

theorem Canonical.answerSave (h : Canonical s) (f t : Nat) (r : Bool) : Canonical (answerSave s f t r) := by
  have hf (x : Fn) := h.setFn f x
  unfold Machine.answerSave
  dsimp only
  split
  · exact Canonical.ite ((hf _).writeSave _ _) (((hf _).setFn _ _).abortStop _)
  · exact Canonical.ite ((hf _).readSave _) ((hf _).loseContext _)
  all_goals exact hf _

theorem Canonical.answerTeamSave (h : Canonical s) (u t : Nat) (r : Bool) : Canonical (answerTeamSave s u t r) := by
  unfold Machine.answerTeamSave
  split
  · exact h
  · exact Canonical.ite ((h.updTeam _ _).continueSave _ _) (Canonical.ite (((h.updTeam _ _).setFn _ _).abortStop _)
      ((h.updTeam _ _).failSave _ _ _))

theorem Canonical.execSaveAreaStallTimeout (h : Canonical s) (k : Nat) : CanonicalNext (execSaveAreaStallTimeout k s) := by
  refine Canonical.next ?_
  split
  · exact h
  · split
    · exact Canonical.ite ((h.dropWait _).answerSave _ _ _) h
    · exact Canonical.ite ((h.dropWait _).answerTeamSave _ _ _) h
    · exact h

theorem Canonical.execRestoreStallTimeout (h : Canonical s) (k : Nat) : CanonicalNext (execRestoreStallTimeout k s) := by
  refine Canonical.next ?_
  split
  · exact h
  · split
    · exact Canonical.ite ((h.dropWait _).answerSave _ _ _) h
    · exact h

/-! ## Resets and function control (R367, R370, R371) -/

theorem Canonical.execFunctionLevelReset (h : Canonical s) (f : Nat) : CanonicalNext (execFunctionLevelReset f s) :=
  Canonical.next (Canonical.ite (h.setFn _ _) h)

theorem Canonical.execFunctionReset (h : Canonical s) (f : Nat) : CanonicalNext (execFunctionReset f s) :=
  Canonical.next (h.inFull (h.setFn _ _))

theorem Canonical.resetFunction (h : Canonical s) (f : Nat) : Canonical (resetFunction s f) := by
  have he := (h.dropToken (s.fn f).migToken).endFunction f
  exact Canonical.ite (he.setFn _ _) (Canonical.setFn (Canonical.foldl (fun s q h => (h.dropToken _).setLq _ _ _) _ he) _ _)

theorem Canonical.execFunctionResetDone (h : Canonical s) (f : Nat) : CanonicalNext (execFunctionResetDone f s) :=
  Canonical.next (Canonical.ite (h.resetFunction _) h)

theorem Canonical.execFunctionEnable (h : Canonical s) (f : Nat) (x : DWord) : CanonicalNext (execFunctionEnable f x s) :=
  Canonical.next (h.inFull (Canonical.ite (h.setErr _) (Canonical.ite (h.setFn _ _) (Canonical.ite (h.setFn _ _) (h.setFn _ _)))))

theorem Canonical.execClusterMaskWrite (h : Canonical s) (f : Nat) (hi : Bool) (x : DWord) :
    CanonicalNext (execClusterMaskWrite f hi x s) := Canonical.next (h.inFull (Canonical.ite (h.setErr _) (h.setFn _ _)))

end

end Sys2Proof.Machine
end

section
/-! SUPPORT. Memory's canonical form: answers, the package, Ochre, and the host. -/

namespace Sys2Proof.Machine

set_option Elab.async false

section
variable {s : State}

/-! ## The event ring and its answers (R149, R320, R354, R356, R417) -/

theorem Canonical.execHvEventWrite (h : Canonical s) : CanonicalNext (execHvEventWrite s) := by
  refine Canonical.next ?_
  split
  · exact h
  · refine Canonical.ite h (Canonical.frame ?_ rfl)
    exact Canonical.ite (h.performWrite _ _ _) h

theorem Canonical.answerThread (h : Canonical s) (u x tok : Nat) (w : Wait) (r : Bool) : Canonical (answerThread s u x tok w r) := by
  unfold Machine.answerThread
  split
  · exact h
  · exact Canonical.ite h (Canonical.ite (h.threadFault _ _ _) (Canonical.ite (h.setThread _) (h.arrive _ _)))

theorem Canonical.answerProgram (h : Canonical s) (u tok : Nat) (w : Wait) (r : Bool) : Canonical (answerProgram s u tok w r) := by
  unfold Machine.answerProgram
  split
  · exact h
  · exact Canonical.ite h (Canonical.ite (h.updProgram _ _) ((h.updProgram _ _).mFault _ _ _))

theorem Canonical.answerGate (h : Canonical s) (u tok : Nat) (w : Wait) (r : Bool) : Canonical (answerGate s u tok w r) := by
  unfold Machine.answerGate
  split
  · exact h
  · have hu (f : Launch → Launch) := h.updLaunch u f
    exact Canonical.ite h (Canonical.ite (Canonical.ite (hu _) ((hu _).endRestored _ _))
      (Canonical.ite ((hu _).refuseLaunch _ _) (Canonical.ite ((hu _).gateStep _) (hu _))))

theorem Canonical.answerLease (h : Canonical s) (u tok : Nat) (r : Bool) : Canonical (answerLease s u tok r) := by
  unfold Machine.answerLease
  split
  · exact h
  · exact Canonical.ite h (Canonical.ite (h.updLaunch _ _) ((h.updLaunch _ _).cancelLaunch _ _))

theorem Canonical.answerQueue (h : Canonical s) (f q tok : Nat) (r : Bool) : Canonical (answerQueue s f q tok r) :=
  Canonical.ite h (Canonical.ite (h.setLq _ _ _) (h.setLq _ _ _))

theorem Canonical.answerTeamArea (h : Canonical s) (u tok : Nat) (va : DWord) (r : Bool) : Canonical (answerTeamArea s u tok va r) := by
  unfold Machine.answerTeamArea
  split
  · exact h
  · exact Canonical.ite h (Canonical.ite (h.updTeam _ _) ((h.updTeam _ _).postTeamFault _ _ _ _))

theorem Canonical.resumePrograms (h : Canonical s) (u : Nat) : Canonical (resumePrograms s u) :=
  Canonical.foldl (fun _ p h => h.resumeProgram p) _ h

theorem Canonical.answerFill (h : Canonical s) (tok : Nat) (w : Wait) (u tix v : Nat) (x : RegVal) (k : TagKind) (r : Bool) :
    Canonical (answerFill s tok w u tix v x k r) := by
  unfold Machine.answerFill
  dsimp only
  refine Canonical.ite ?_ ?_
  · have hw : Canonical { s with pkg := { s.pkg with waits := Tab.put s.pkg.waits tok w } } := h.frame rfl
    have hr := hw.via fun k => k.retryFills u tix v
    exact (Canonical.ite ((hr.dropWait _).putFill _ _ _ _ _) hr.settle).resumePrograms _
  · split
    · exact (h.postTeamFault _ _ _ _).resumePrograms _
    · exact h

theorem Canonical.answerDrain (h : Canonical s) (u : Nat) (w : Wait) (r : Bool) : Canonical (answerDrain s u w r) := by
  unfold Machine.answerDrain
  split
  · exact h
  · exact Canonical.ite h (Canonical.ite (h.drain _ _).settle
      (Canonical.via (Canonical.ite (h.setCore _ _) h) fun k => k.drainFault _ _ _))

theorem Canonical.answerReq (h : Canonical s) (k : Nat) (r : Bool) : Canonical (answerReq s k r) := by
  unfold Machine.answerReq
  split
  · exact h
  · exact Canonical.ite h (h.failReq _ _ _)

theorem Canonical.setRdf (h : Canonical s) (f q : Nat) : Canonical (setRdf s f q) := h.setLq _ _ _

theorem Canonical.answerArea (h : Canonical s) (l tok : Nat) (va : DWord) (bs : List Byte) (u : Nat) (lq sig r : Bool) :
    Canonical (answerArea s l tok va bs u lq sig r) := by
  unfold Machine.answerArea
  split
  · exact h
  · next x _ =>
    have hl : Canonical (if lq then Machine.setRdf s x.fn x.queue else s) := Canonical.ite (h.setRdf _ _) h
    exact Canonical.ite (h.answerTeamArea _ _ _ _) (Canonical.ite (Canonical.ite (hl.signalAfter _ _) hl)
      (Canonical.ite (h.via fun k => k.signal _ _) (Canonical.ite (h.postLaunchRecord _ _ _) (h.via fun k => k.areaPost _ _ _ _ _ _))))

theorem Canonical.answerWait (h : Canonical s) (tok : Nat) (w : Wait) (v : Word) : Canonical (answerWait s tok w v) := by
  unfold Machine.answerWait
  dsimp only
  split
  · exact h.answerThread _ _ _ _ _
  · exact h.answerProgram _ _ _ _
  · exact h.answerLease _ _ _
  · exact h.answerQueue _ _ _ _
  · exact h.answerGate _ _ _ _
  · exact h.fillCall _ _ _
  · exact h.answerSave _ _ _
  · exact h.answerTeamSave _ _ _
  · exact h.answerInbound _ _
  · exact h.answerArea _ _ _ _ _ _ _ _
  · exact h.answerFill _ _ _ _ _ _ _ _
  · exact h.resumeRecord _ _ _
  · exact h.answerDrain _ _ _
  · exact h.answerReq _ _

theorem Canonical.answerToken (h : Canonical s) (x : DWord) : Canonical (answerToken s x) := by
  have hv : Canonical { s with pkg := { s.pkg with hvValue := highWord x } } := h.frame rfl
  unfold Machine.answerToken
  dsimp only
  split
  · exact hv
  · exact (hv.dropWait _).answerWait _ _ _

theorem Canonical.execHvAnswer (h : Canonical s) (x : DWord) : CanonicalNext (execHvAnswer x s) := Canonical.next (h.inFull (h.answerToken _))

theorem Canonical.execAreaStallTimeout (h : Canonical s) (k : Nat) : CanonicalNext (execAreaStallTimeout k s) := by
  refine Canonical.next ?_
  split
  · exact h
  · exact Canonical.ite ((h.dropWait _).answerWait _ _ _) h

theorem Canonical.answerCalls (h : Canonical s) : Canonical (answerCalls s) := by
  refine Canonical.ite h (Canonical.foldl (fun s e h => ?_) _ h)
  split
  · exact (h.dropWait _).answerWait _ _ _
  · exact h

/-! ## The walker, pins, hash, page pool, system programs (R344 to R347, R353, R374 to R377) -/

theorem Canonical.useTlb (h : Canonical s) (sel : TlbSel) (e : Xlat) : Canonical (s.useTlb sel e) :=
  h.frame (useTlb_keeps State.mem setTlb_mem _ _ _)

theorem Canonical.execTlbWalk (h : Canonical s) (d : Nat) : CanonicalNext (execTlbWalk d s) := by
  have hx : exec (.tlbWalk d) s = Machine.execTlbWalk d s := rfl
  rw [← hx]
  cases hw : (s.die d).walks with
  | nil =>
    rw [hx, Machine.execTlbWalk, hw]
    exact Canonical.next h
  | cons e rest =>
    obtain ⟨k, fn, va⟩ := e
    obtain ⟨w, hk⟩ : ∃ w, w = walk (s.setDie d { s.die d with walks := rest }) fn va := ⟨_, rfl⟩
    obtain ⟨r, reads⟩ := w
    rw [exec_tlbWalk hw hk.symm]
    have hr := (h.setDie d { s.die d with walks := rest }).llcReads fn 8 reads
    refine Canonical.next ?_
    cases r with
    | ok log d1 d2 ipa log2 => exact (hr.useTlb _ _).useTlb _ _
    | bad1 => exact hr
    | miss2 => exact hr

theorem Canonical.execPinSet (h : Canonical s) (x : DWord) : CanonicalNext (execPinSet x s) := by
  refine Canonical.next (Canonical.ite h (Canonical.ite ?_ (Canonical.ite ?_ ?_)))
  all_goals exact h.frame rfl

theorem Canonical.execPinSetDone (h : Canonical s) : CanonicalNext (execPinSetDone s) := Canonical.next (Canonical.ite (wf_finishPin s h) h)

theorem Canonical.applyHash (h : Canonical s) : Canonical (applyHash s) := by
  refine Canonical.ite ?_ ?_
  all_goals exact h.frame rfl

theorem Canonical.execHashApply (h : Canonical s) : CanonicalNext (execHashApply s) := Canonical.next (h.inFull h.applyHash)

theorem Canonical.execHashApplyDone (h : Canonical s) : CanonicalNext (execHashApplyDone s) :=
  Canonical.next (Canonical.ite (wf_finishApply s h) h)

theorem Canonical.allocPage (h : Canonical s) : Canonical (allocPage s) := by
  unfold Machine.allocPage
  dsimp only
  split
  · exact h.frame rfl
  · refine Canonical.ite ?_ ?_
    all_goals exact h.frame rfl

theorem Canonical.serveHeld (h : Canonical s) (n : Nat) : Canonical (serveHeld n s) := by
  induction n generalizing s with
  | zero => exact h
  | succ n ih =>
    unfold Machine.serveHeld
    split
    · exact ih (Canonical.allocPage (by exact h.frame rfl))
    · exact h

theorem Canonical.readAlloc (h : Canonical s) : Canonical (readAlloc s) := (h.serveHeld _).allocPage

theorem Canonical.execPageAlloc (h : Canonical s) : CanonicalNext (execPageAlloc s) := Canonical.next (Canonical.ite h.readAlloc h)

theorem Canonical.execPageFree (h : Canonical s) (x : DWord) : CanonicalNext (execPageFree x s) := by
  refine Canonical.next (Canonical.ite h (Canonical.ite ?_ (Canonical.ite ?_ ?_)))
  all_goals exact h.frame rfl

theorem Canonical.execPageScrubDone (h : Canonical s) : CanonicalNext (execPageScrubDone s) := by
  refine Canonical.next (Canonical.serveHeld ?_ _)
  split
  · exact wf_scrubPage s _ h
  · exact h

theorem Canonical.execSystemMordantStart (h : Canonical s) (d : Nat) (x : DWord) : CanonicalNext (execSystemMordantStart d x s) := by
  refine Canonical.next (Canonical.ite h (Canonical.ite (h.setDie _ _) ?_))
  exact h.frame rfl

/-! ## Registers by number (R346, R356, R360) -/

theorem Canonical.errPut (h : Canonical s) (d clr : Nat) : Canonical (errPut s d clr) := h.setDie _ _

theorem Canonical.rootPut (h : Canonical s) (fn : Nat) (put : Nat → Nat) : Canonical (rootPut s fn put) := h.setFn _ _

theorem Canonical.putHashCtl (h : Canonical s) (x clr : Nat) : Canonical (putHashCtl s x clr) := by
  have hc : Canonical { s with pkg := { s.pkg with hashErr := s.pkg.hashErr && !(clr / 2 % 2 == 1) } } := h.frame rfl
  exact Canonical.ite hc.applyHash hc

theorem Canonical.packagePut (h : Canonical s) (n : Nat) (put : Nat → Nat) (clr : Nat) : Canonical (packagePut s n put clr) := by
  unfold Machine.packagePut
  dsimp only
  refine Canonical.ite (by exact h.frame rfl) (Canonical.ite (by exact h.frame rfl) ?_)
  split
  case h_2 => exact h.putHashCtl _ _
  case h_4 => exact h.setFn _ _
  case h_7 => exact Canonical.answerCalls (by exact h.frame rfl)
  case h_9 => exact h.answerToken _
  all_goals exact h.frame rfl

/-! ## Ochre (R387 to R393) -/

theorem Canonical.hostWrite (h : Canonical s) (pa : Nat) (bs : List Byte) : Canonical (hostWrite s pa bs) := h.via fun k => k.hostWrite pa bs

theorem Canonical.writeEntry (h : Canonical s) (e : LogEntry) : Canonical (writeEntry s e) := h.via fun k => k.writeEntry e

theorem Canonical.logData (h : Canonical s) (c src d : Nat) : Canonical (logData s c src d) := by
  refine Canonical.ite ?_ (Canonical.writeEntry ?_ _)
  all_goals exact h.frame rfl

theorem Canonical.postLog (h : Canonical s) (c src : Nat) : Canonical (postLog s c src) := Canonical.logData (by exact h.frame rfl) _ _ _

theorem Canonical.logFailure (h : Canonical s) (src p : Nat) : Canonical (logFailure s src p) := h.logData _ _ _

theorem Canonical.execLogRingBaseWrite (h : Canonical s) (x : DWord) : CanonicalNext (execLogRingBaseWrite x s) := by
  refine Canonical.next (Canonical.ite h (Canonical.ite ?_ (Canonical.foldl (fun _ e h => h.writeEntry e) _ ?_)))
  all_goals exact h.frame rfl

theorem Canonical.powerOff (h : Canonical s) : Canonical (powerOff s) := FMap.wf_filter 0 s.mem _ h

theorem Canonical.execPowerGood (h : Canonical s) : CanonicalNext (execPowerGood s) :=
  Canonical.next (by exact h.powerOff.frame rfl)

theorem Canonical.execStageAReached (h : Canonical s) : CanonicalNext (execStageAReached s) :=
  Canonical.next (Canonical.ite (Canonical.postLog (by exact h.frame rfl) _ _) h)

theorem Canonical.linkUp (h : Canonical s) (f : BitVec 16) : Canonical (linkUp s f) :=
  Canonical.foldl (fun _ p h => Canonical.ite h (by exact h.frame rfl)) _ h

theorem Canonical.noteFailures (h : Canonical s) (cs : BitVec 128) (ps : BitVec 16) : Canonical (noteFailures s cs ps) := by
  have hf : Canonical { s with och := { s.och with failed := cs } } := h.frame rfl
  exact Canonical.foldl (fun _ _ h => h.logFailure _ _) _ (Canonical.foldl (fun _ _ h => h.logFailure _ _) _
    (Canonical.foldl (fun _ _ h => h.setFn _ _) _ hf))

theorem Canonical.execStageBReached (h : Canonical s) (tr : Bool) (cs : BitVec 128) (ps : BitVec 16) :
    CanonicalNext (execStageBReached tr cs ps s) := by
  have hw : Canonical (wipeAll s) := wf_wipeAll s h
  refine Canonical.next (Canonical.ite h (Canonical.ite (Canonical.logFailure (by exact h.frame rfl) _ _) (Canonical.postLog ?_ _ _)))
  exact ((hw.linkUp ps).noteFailures cs ps).frame rfl

theorem Canonical.startUpdate (h : Canonical s) : Canonical (startUpdate s) := by
  refine Canonical.ite ?_ ?_
  all_goals exact h.frame rfl

theorem Canonical.execFirmwareUpdate (h : Canonical s) : CanonicalNext (execFirmwareUpdate s) :=
  Canonical.next (Canonical.ite h.startUpdate h)

theorem Canonical.endUpdate (h : Canonical s) (r : Nat) : Canonical (endUpdate s r) := Canonical.postLog (by exact h.frame rfl) _ _

theorem Canonical.execUpdateResult (h : Canonical s) (f : Bool) : CanonicalNext (execUpdateResult f s) := by
  refine Canonical.next (Canonical.ite h ?_)
  split
  · exact h.endUpdate _
  · exact (Canonical.ite (by exact h.frame rfl) h).endUpdate _

theorem Canonical.losePower (h : Canonical s) : Canonical (losePower s) := by
  unfold Machine.losePower
  dsimp only
  split
  · exact h.powerOff
  · refine Canonical.ite h.powerOff ?_
    split
    all_goals exact h.powerOff.frame rfl

theorem Canonical.execPowerLoss (h : Canonical s) : CanonicalNext (execPowerLoss s) := h.losePower.next

theorem Canonical.startAttestation (h : Canonical s) : Canonical (startAttestation s) := by
  refine Canonical.ite ?_ ?_
  all_goals exact h.frame rfl

theorem Canonical.execAttestation (h : Canonical s) : CanonicalNext (execAttestation s) :=
  Canonical.next (Canonical.ite h.startAttestation h)

theorem Canonical.execAttestationDone (h : Canonical s) : CanonicalNext (execAttestationDone s) := by
  have hf : Canonical { s with freeCtr := s.freeCtr + 4 } := h.frame rfl
  refine Canonical.next (Canonical.ite h (Canonical.postLog (Canonical.frame ?_ rfl) _ _))
  exact Canonical.ite (hf.hostWrite _ _) h

theorem Canonical.execPowerCapWrite (h : Canonical s) (x : DWord) : CanonicalNext (execPowerCapWrite x s) :=
  Canonical.next (Canonical.ite (Canonical.postLog (by exact h.frame rfl) _ _) h)

theorem Canonical.execSensorRefresh (h : Canonical s) (ts : List (Nat × BitVec 16)) (rs : List (Nat × DWord)) :
    CanonicalNext (execSensorRefresh ts rs s) :=
  Canonical.next (Canonical.ite h (Canonical.foldl (fun _ _ h => h.postLog _ _) _ (by exact h.frame rfl)))

theorem Canonical.execSkipLevelUpdate (h : Canonical s) (ls : List (BitVec 4)) (c : PowerReading) :
    CanonicalNext (execSkipLevelUpdate ls c s) :=
  Canonical.next (Canonical.ite (Canonical.foldl (fun _ _ h => h.setCluster _ _) _ h) h)

theorem Canonical.execThermalShutdown (h : Canonical s) (d p : Nat) : CanonicalNext (execThermalShutdown d p s) :=
  Canonical.next (Canonical.ite (h.postLog _ _).losePower h)

/-! ## The host (R341, R365, R366) -/

theorem Canonical.fnWrite (h : Canonical s) (f o : Nat) (x : DWord) : Canonical (fnWrite s f o x) := by
  unfold Machine.fnWrite
  dsimp only
  split
  all_goals exact h.frame rfl

theorem Canonical.systemWrite (h : Canonical s) (d o : Nat) (x : DWord) : Canonical (systemWrite s d o x) := by
  unfold Machine.systemWrite
  dsimp only
  split
  all_goals exact h.frame rfl

theorem Canonical.ochreWrite (h : Canonical s) (o : Nat) (x : DWord) : Canonical (ochreWrite s o x) := by
  have hu : Canonical { s with och := { s.och with updErr := s.och.updErr && !x.getLsbD 2 } } := h.frame rfl
  have ha : Canonical { s with och := { s.och with attErr := s.och.attErr && !x.getLsbD 2 } } := h.frame rfl
  unfold Machine.ochreWrite
  dsimp only
  refine Canonical.ite (by exact h.frame rfl) ?_
  split
  case h_4 => exact Canonical.ite hu.startUpdate hu
  case h_6 => exact Canonical.ite ha.startAttestation ha
  all_goals exact h.frame rfl

theorem Canonical.fabricWrite (h : Canonical s) (f o : Nat) (x : DWord) : Canonical (fabricWrite s f o x) := by
  unfold Machine.fabricWrite
  dsimp only
  split
  case h_6 => exact Canonical.ite (h.setFn _ _) h
  all_goals exact h.frame rfl

theorem Canonical.eqWrite (h : Canonical s) (p k o : Nat) (x : DWord) : Canonical (eqWrite s p k o x) := by
  unfold Machine.eqWrite
  dsimp only
  split
  all_goals exact h.frame rfl

theorem Canonical.portWrite (h : Canonical s) (p : Nat) (x : DWord) : Canonical (portWrite s p x) := h.frame rfl

theorem Canonical.writeRegister (h : Canonical s) (off : Nat) (x : DWord) : Canonical (writeRegister s off x) :=
  Canonical.ite (h.fnWrite _ _ _) (Canonical.ite (h.systemWrite _ _ _) (Canonical.ite (h.ochreWrite _ _)
    (Canonical.ite (h.fabricWrite _ _ _) (Canonical.ite (h.eqWrite _ _ _ _) (Canonical.ite (h.portWrite _ _)
      (Canonical.ite (by exact h.frame rfl) h))))))

theorem Canonical.execRegisterWrite (h : Canonical s) (r : HostReg) (x : DWord) : CanonicalNext (execRegisterWrite r x s) := by
  refine Canonical.next ?_
  cases r with
  | page off => exact Canonical.ite h (Canonical.ite (h.writeRegister _ _) h)
  | csr n => exact Canonical.ite (h.inFull (Canonical.ite (h.rootPut _ _) (h.packagePut _ _ _))) h

theorem Canonical.answerHost (h : Canonical s) (bs : List Byte) : Canonical (answerHost s bs) := h.frame rfl

theorem Canonical.hostBytes (h : Canonical s) (pa n : Nat) : Canonical (hostBytes s pa n).1 := by
  unfold Machine.hostBytes
  split
  · exact h.frame rfl
  · exact h

theorem Canonical.notifyPut (h : Canonical s) (fn q off n : Nat) (v : DWord) (tr : Bool) : Canonical (notifyPut s fn q off n v tr) :=
  Canonical.ite (h.via fun k => k.notifyWrite _ _ _ _ _) h

/-- A choice between outcomes that both leave memory in form. -/
theorem CanonicalNext.ite {c : Prop} [Decidable c] {x y : Host.Outcome State Fault Refusal} (hx : CanonicalNext x)
    (hy : CanonicalNext y) : CanonicalNext (if c then x else y) := by
  split
  · exact hx
  · exact hy

theorem Canonical.hostRead (h : Canonical s) (fn pa n : Nat) : CanonicalNext (hostRead s fn pa n) := by
  refine CanonicalNext.ite (h.answerHost _).next (CanonicalNext.ite (canonicalNext_fault _) ?_)
  split
  · exact CanonicalNext.ite (h.answerHost _).next (((h.readMem _ _ _).hostBytes _ _).answerHost _).next
  · exact (h.answerHost _).next
  · exact (h.answerHost _).next
  · exact canonicalNext_fault _

theorem Canonical.hostStore (h : Canonical s) (fn pa : Nat) (bs : List Byte) : CanonicalNext (hostStore s fn pa bs) := by
  refine CanonicalNext.ite h.next (CanonicalNext.ite (canonicalNext_fault _) ?_)
  split
  · exact (h.inFull (h.performWrite _ _ _)).next
  · exact (h.performWrite _ _ _).next
  · exact (h.notifyPut _ _ _ _ _ _).next
  · exact canonicalNext_fault _

theorem Canonical.execHostAccess (h : Canonical s) (op : HostOp) : CanonicalNext (execHostAccess op s) := by
  cases op with
  | configRead fn f => exact (h.answerHost _).next
  | memRead fn pa n => exact h.hostRead _ _ _
  | memWrite fn pa bs => exact h.hostStore _ _ _
  | bar0Read fn off n => exact (h.answerHost _).next
  | bar0Write fn off n v => exact Canonical.next (Canonical.ite (h.notifyPut _ _ _ _ _ _) h)
  | bar2Read off n => exact Canonical.next (Canonical.ite h.readAlloc (h.answerHost _))
  | csrRead n => exact (h.answerHost _).next
  | vfEnable on => exact Canonical.next (h.inFull (by exact h.frame rfl))

end

end Sys2Proof.Machine
end

section
/-! SUPPORT. Memory's canonical form: control registers and shootdown, what passes without an instruction, and the step. -/

namespace Sys2Proof.Machine

set_option Elab.async false

section
variable {s : State}

/-! ## Control registers, `eret`, `hcall` and shootdown (R357 to R363) -/

theorem Canonical.corePut (h : Canonical s) (fn : Nat) (t : Thread) (n clr : Nat) : Canonical (corePut s fn t n clr) := by
  unfold Machine.corePut
  dsimp only
  split
  all_goals exact h.frame rfl

theorem Canonical.csrPut (h : Canonical s) (fn : Nat) (t : Thread) (n : Nat) (put : Nat → Nat) (clr : Nat) :
    Canonical (csrPut s fn t n put clr) :=
  Canonical.ite (h.corePut _ _ _ _) (Canonical.ite (Canonical.ite (h.errPut _ _) h)
    (Canonical.ite (h.rootPut _ _) (Canonical.ite (h.packagePut _ _ _) h)))

theorem Canonical.holdForFp (h : Canonical s) (u tix : Nat) : Canonical (holdForFp s u tix) := by
  unfold Machine.holdForFp
  split
  · exact h
  · exact Canonical.ite (h.park _ _) h

theorem Canonical.afterEnables (h : Canonical s) (t : Thread) (n : Nat) : Canonical (afterEnables s t n) :=
  Canonical.ite (h.holdForFp _ _) h

theorem Canonical.execCsrr (h : Canonical s) (n : BitVec 9) (d : Reg) : CanonicalNext (execCsrr n d s) :=
  h.issue fun _ _ => Canonical.ite (h.awaiting (h.finish _ _ _) _ _) (h.finish _ _ _)

theorem Canonical.execCsrw (h : Canonical s) (n : BitVec 9) (a : Src) : CanonicalNext (execCsrw n a s) :=
  h.issue fun _ _ => ((h.finish _ _ _).csrPut _ _ _ _ _).afterEnables _ _

theorem Canonical.execCsrs (h : Canonical s) (n : BitVec 9) (d : Reg) (a : Src) : CanonicalNext (execCsrs n d a s) :=
  h.issue fun _ _ => ((h.finish _ _ _).csrPut _ _ _ _ _).afterEnables _ _

theorem Canonical.execEret (h : Canonical s) (a : Src) : CanonicalNext (execEret a s) :=
  h.issueWith fun _ _ => Canonical.ite (h.threadFault _ _ _) (h.jumpTo _ _ _ _)

theorem Canonical.execHcall (h : Canonical s) (n : Byte) (d : Reg) (a : Src) : CanonicalNext (execHcall n d a s) := by
  refine h.issue fun m t => Canonical.ite (h.threadFault _ _ _) ?_
  have hf := h.finish (t.markEmpty d.toNat (producerTag 1 t.pc) 1) (.hcall n d a) 0
  split
  · exact h.park _ _
  · dsimp only
    split
    · exact hf.raiseCall _ _ _ _
    · exact hf

theorem Canonical.dropXlats (h : Canonical s) (c : Scoped) : Canonical (dropXlats s c) := h.frame rfl

theorem Canonical.execTlbinv (h : Canonical s) (k : TlbKind) (a b c : Src) : CanonicalNext (execTlbinv k a b c s) :=
  h.issueWith fun _ _ => Canonical.ite (h.threadFault _ _ _) (h.awaiting (((h.dropXlats _).retire _).hold _ _) _ _)

theorem Canonical.execTlbinvRelease (h : Canonical s) (u tix : Nat) : CanonicalNext (execTlbinvRelease u tix s) := by
  refine Canonical.next ?_
  split
  · split
    · exact Canonical.ite (h.releaseAcq _ _ _) h
    · exact h
  · exact h

/-! ## What passes without an instruction (R289, R297, R299, R300, R323, R352, R373) -/

theorem Canonical.tickCluster (h : Canonical s) (n k : Nat) : Canonical (tickCluster n s k) :=
  Canonical.ite (Canonical.syncCopies (by exact h.frame rfl) _) (h.frame rfl)

theorem Canonical.tick (h : Canonical s) (n : Nat) : Canonical (tick s n) := by
  refine Canonical.frame (Canonical.foldl (fun s k h => h.tickCluster n k) _ (Canonical.foldl (fun s d h => ?_) _ h)) rfl
  split
  · exact h
  · exact h.setDie _ _

theorem Canonical.softError (h : Canonical s) (k : Nat) (u : Bool) : Canonical (softError s k u) := by
  unfold Machine.softError
  split
  · exact Canonical.ite (h.frame rfl) (h.setDie _ _)
  all_goals exact h

theorem Canonical.worldTurn (h : Canonical s) (t : Turn) : Canonical (worldTurn s t) := by
  cases t with
  | tick n => exact h.tick n
  | eccError k u => exact h.softError k u
  | dropLine l => exact h.frame (evictLine_mem s l)
  | dropL1 | dropConst | dropInstr => exact h.setCore _ _
  | dropMordant => exact h.setCluster _ _
  | dropTlb => exact h.setDie _ _
  | issue | program | event | carry => exact h

theorem Canonical.takeTurn (h : Canonical s) : Canonical (takeTurn s).2 := by
  unfold Machine.takeTurn
  split
  · exact h
  · exact h.frame rfl

/-! ## Every instruction and event (R74) -/

theorem Canonical.execAtoms (h : Canonical s) (op : AOp) (ty : Ty) (sc : Scope) (d : Reg) (a b : Src) :
    CanonicalNext (execAtoms op ty sc d a b s) := h.scratchAtomic

theorem Canonical.execCass (h : Canonical s) (ty : Ty) (sc : Scope) (d : Reg) (a b c : Src) :
    CanonicalNext (execCass ty sc d a b c s) := h.scratchAtomic

theorem Canonical.exec (h : Canonical s) (i : Instr) : CanonicalNext (exec i s) := by
  cases i with
  | add | sub | mul | mulh | mad | min | max | abs | neg | and | or | xor | not | andn | orn | shl | shr | sar | rot | clz | ctz |
    popc | brev | bfe | bfi | bperm | sel | cmp | cmp64 | mov | movi | idp4 | addImm | mulImm | andImm | orImm | xorImm | shlImm |
    shrImm | sarImm | minImm | maxImm | cmpImm | vtest => exact h.write1
  | addc | subb | add64 | sub64 | mul64 | shl64 | shr64 | lea | movp | rdclk => exact h.write2
  | fadd | fsub | fmul | ffma | fmin | fmax | fabs | fneg | fcmp | fclass | fldexp | fgetexp | frnd | hadd2 | hsub2 | hmul2 |
    hfma2 | hmin2 | hmax2 | hcmp2 | fdp2 | bqenc | bqdec => exact h.writeFl
  | div | rem => exact h.divide
  | frcp | frsq | fsqrt | fexp2 | flog2 => exact h.function1
  | cvt | cvtRz | cvtRu | cvtRd => exact h.convert
  | br | brc | call => exact h.issue fun _ _ => h.finishAt _ _ _ _
  | brx | calli | ret => exact h.issue fun _ _ => h.jumpTo _ _ _ _
  | atom | cas => exact h.globalAtomic
  | atoms => exact h.execAtoms _ _ _ _ _ _
  | cass => exact h.execCass _ _ _ _ _ _
  | shfl | vote | ballot | redux | gscan => exact h.issue fun _ _ => h.meet _ _ _
  | mma | mxscale | mxdist => exact h.matrixRequest
  | mAdd | mSub | mMul | mAnd | mOr | mXor | mShl | mShr | mCmp | mSel | mMov | mAddImm | mMulImm | mAndImm | mOrImm | mXorImm |
    mShlImm | mShrImm | mCmpImm | li | liLit => exact h.mScalar
  | laneSample | laneSignalLoss | portTrainStart | portDrainDone | flitReplay => exact h.portEvent
  | portTrainDone | laneSwap | swapAgreementTimeout => exact h.portUp
  | pairWord => exact h.execPairWord _ _
  | fdiv => exact h.execFdiv _ _ _ _
  | exit => exact h.execExit
  | trap => exact h.issue fun _ _ => h.takeTrap _ _ _ _
  | tret => exact h.execTret
  | nop => exact h.issue fun _ _ => h.finish _ _ _
  | ld => exact h.execLd _ _ _ _ _ _ _
  | st => exact h.execSt _ _ _ _ _ _
  | lds => exact h.execLds _ _ _ _ _ _
  | sts => exact h.execSts _ _ _ _ _
  | ldc => exact h.execLdc _ _ _ _ _
  | pf => exact h.execPf _ _ _
  | fence => exact h.execFence _ _
  | ifence => exact h.execIfence
  | wcnt => exact h.execWcnt _ _
  | vmark => exact h.execVmark _ _ _ _
  | bqmax => exact h.execBqmax _ _
  | bar => exact h.execBar _
  | phase => exact h.execPhase
  | cbinit => exact h.execCbinit _ _
  | cbarr => exact h.execCbarr _ _ _
  | cbwait => exact h.execCbwait _ _
  | cbtest => exact h.execCbtest _ _
  | dqpush => exact h.execDqpush _ _ _
  | dqpop => exact h.execDqpop _
  | dqsteal => exact h.execDqsteal _
  | dqidle => exact h.execDqidle _
  | spawn => exact h.execSpawn _ _ _
  | sid => exact h.execSid _ _
  | yield => exact h.execYield
  | sleep => exact h.execSleep _ _ _ _
  | mxbeg => exact h.execMxbeg _
  | mxend => exact h.execMxend _
  | mxzero => exact h.execMxzero _
  | mxst => exact h.execMxst _ _ _ _
  | mxld => exact h.execMxld _ _ _ _ _
  | mxtopk => exact h.execMxtopk _ _ _ _ _
  | mdgo => exact h.execMdgo _ _ _
  | mdkill => exact h.execMdkill _
  | mdstat => exact h.issue fun _ _ => h.finish _ _ _
  | bndmin => exact h.execBndmin _ _
  | bndrd => exact h.execBndrd _ _
  | stmc => exact h.execStmc _ _ _ _
  | csrr => exact h.execCsrr _ _
  | csrw => exact h.execCsrw _ _
  | csrs => exact h.execCsrs _ _ _
  | eret => exact h.execEret _
  | tlbinv => exact h.execTlbinv _ _ _ _
  | hcall => exact h.execHcall _ _ _
  | mBr => exact h.execMBr _
  | mBrc => exact h.execMBrc _ _ _
  | loop => exact h.execLoop _ _
  | ldx => exact h.execLdx _ _ _ _ _
  | stx => exact h.execStx _ _ _ _
  | tdld => exact h.execTdld _ _ _
  | tdset => exact h.execTdset _ _ _ _
  | tdsetLit => exact h.execTdsetLit _ _ _ _
  | tcopy => exact h.execTcopy _ _
  | tgather => exact h.execTgather _ _ _
  | tscatter => exact h.execTscatter _ _ _
  | qput => exact h.execQput _ _ _
  | mCbarr => exact h.execMCbarr _ _ _ _
  | mCbwait => exact h.execMCbwait _ _ _
  | regfill => exact h.execRegfill _ _ _
  | mfence => exact h.execMfence
  | mdone => exact h.execMdone _
  | mexit => exact h.execMexit
  | fxred => exact h.execFxred _ _ _ _ _
  | dharv => exact h.execDharv _ _
  | rowSelection => exact h.execRowSelection _
  | producerFill => exact h.execProducerFill _
  | teamTeardown => exact h.execTeamTeardown _
  | watchdogExpiry => exact h.execWatchdogExpiry _
  | trapModeWindowExpiry => exact h.execTrapModeWindowExpiry _
  | teamAdmission => exact h.execTeamAdmission _
  | admissionReservation => exact h.execAdmissionReservation _
  | phaseBoundary => exact h.execPhaseBoundary _
  | sliceEnd => exact h.execSliceEnd _
  | phaseDiscard => exact h.execPhaseDiscard _
  | teamSave => exact h.execTeamSave _
  | teamRestore => exact h.execTeamRestore _ _
  | storePerform => exact h.execStorePerform _
  | atomicPerform => exact h.execAtomicPerform _
  | sleepTimeout => exact h.execSleepTimeout _ _
  | yieldExpiry => exact h.execYieldExpiry _ _
  | generationCheckedWrite => exact h.execGenerationCheckedWrite _
  | quiescenceRound => exact h.execQuiescenceRound _ _
  | passStart => exact h.execPassStart _
  | passPerform => exact h.execPassPerform _
  | requestPromotion => exact h.execRequestPromotion _ _
  | mxtopkResult => exact h.execMxtopkResult _ _
  | boundPropagation => exact h.execBoundPropagation _ _
  | mordantDispatch => exact h.execMordantDispatch _
  | launchQueueNotify => exact h.execLaunchQueueNotify _ _ _
  | launchQueueConfig => exact h.execLaunchQueueConfig _ _ _
  | launchRead => exact h.execLaunchRead _ _
  | dependenceRecheck => exact h.execDependenceRecheck _
  | launchPriorityAging => exact h.execLaunchPriorityAging _
  | clusterTeamPlacement => exact h.execClusterTeamPlacement _
  | areaStallTimeout => exact h.execAreaStallTimeout _
  | hvAnswer => exact h.execHvAnswer _
  | hvEventWrite => exact h.execHvEventWrite
  | tlbWalk => exact h.execTlbWalk _
  | tlbinvRelease => exact h.execTlbinvRelease _ _
  | pinSet => exact h.execPinSet _
  | pinSetDone => exact h.execPinSetDone
  | hashApply => exact h.execHashApply
  | hashApplyDone => exact h.execHashApplyDone
  | functionLevelReset => exact h.execFunctionLevelReset _
  | functionReset => exact h.execFunctionReset _
  | functionResetDone => exact h.execFunctionResetDone _
  | functionEnable => exact h.execFunctionEnable _ _
  | clusterMaskWrite => exact h.execClusterMaskWrite _ _ _
  | stop => exact h.execStop _
  | quiesceDone => exact h.execQuiesceDone _
  | saveDone => exact h.execSaveDone _
  | commit => exact h.execCommit _
  | abort => exact h.execAbort _
  | restore => exact h.execRestore _
  | restoreDone => exact h.execRestoreDone _
  | restoreStallTimeout => exact h.execRestoreStallTimeout _
  | saveAreaStallTimeout => exact h.execSaveAreaStallTimeout _
  | pageFree => exact h.execPageFree _
  | pageAlloc => exact h.execPageAlloc
  | pageScrubDone => exact h.execPageScrubDone
  | systemMordantStart => exact h.execSystemMordantStart _ _
  | powerGood => exact h.execPowerGood
  | stageAReached => exact h.execStageAReached
  | stageBReached => exact h.execStageBReached _ _ _
  | firmwareUpdate => exact h.execFirmwareUpdate
  | updateResult => exact h.execUpdateResult _
  | attestation => exact h.execAttestation
  | attestationDone => exact h.execAttestationDone
  | powerCapWrite => exact h.execPowerCapWrite _
  | logRingBaseWrite => exact h.execLogRingBaseWrite _
  | sensorRefresh => exact h.execSensorRefresh _ _
  | skipLevelUpdate => exact h.execSkipLevelUpdate _ _
  | thermalShutdown => exact h.execThermalShutdown _ _
  | packetSend => exact h.execPacketSend _
  | packetReceive => exact h.execPacketReceive _
  | answerReceive => exact h.execAnswerReceive _ _ _
  | packetRetransmit => exact h.execPacketRetransmit _
  | packetTimeout => exact h.execPacketTimeout _
  | movedResend => exact h.execMovedResend _
  | atomicResultExpiry => exact h.execAtomicResultExpiry _
  | forwardingWindowEnd => exact h.execForwardingWindowEnd _
  | fabricMmuStallTimeout => exact h.execFabricMmuStallTimeout _
  | vdnInvalidate => exact h.execVdnInvalidate _
  | multicastRewrite => exact h.execMulticastRewrite _
  | multicastRewriteDone => exact h.execMulticastRewriteDone
  | fxredComplete => exact h.execFxredComplete _
  | txtailWrite => exact h.execTxtailWrite _ _ _ _
  | frameTransmit => exact h.execFrameTransmit _ _
  | frameReceive => exact h.execFrameReceive _ _ _
  | hostAccess => exact h.execHostAccess _
  | registerWrite => exact h.execRegisterWrite _ _
  | powerLoss => exact h.execPowerLoss

/-! ## The step -/

/-- Both states of the preparation of a thread's word. -/
def CanonicalIssue (x : Except State (Instr × State × Nat)) : Prop :=
  (∀ s', x = .error s' → Canonical s') ∧ ∀ i s' n, x = .ok (i, s', n) → Canonical s'

theorem Canonical.notIssued (h : Canonical s) : CanonicalIssue (.error s) := by
  constructor
  · intro s' e
    cases e
    exact h
  · intro i s' n e
    cases e

theorem Canonical.issued (h : Canonical s) (i : Instr) (n : Nat) : CanonicalIssue (.ok (i, s, n)) := by
  constructor
  · intro s' e
    cases e
  · intro i s' n e
    cases e
    exact h

theorem Canonical.prepareIssue (h : Canonical s) (core stream : Nat) : CanonicalIssue (prepareIssue s core stream) := by
  unfold Machine.prepareIssue
  split
  · exact h.notIssued
  · split
    · exact h.notIssued
    · next r _ =>
      split
      · exact (h.advanceRow _ _ _).notIssued
      · split
        · exact (h.settleRow _ _ _).notIssued
        · next t _ =>
          split
          · exact (h.settleRow _ _ _).notIssued
          · next m _ =>
            dsimp only
            have hr := h.setCore core { s.core core with rotate := stream }
            split
            · exact ((hr.setThread _).settleRow _ _ _).notIssued
            · obtain ⟨hgo, hstop⟩ := hr.fetchInstr m t r.issued
              split
              · next he => exact Canonical.issued (by exact (hgo.fst he).frame rfl) _ _
              · next he => exact ((hstop _ (by rw [he])).settleRow _ _ _).notIssued
              · next he => exact ((hgo.fst he).finishRow _ _).notIssued

theorem Canonical.stepIssue (h : Canonical s) (core stream : Nat) : CanonicalNext (stepIssue s core stream) := by
  obtain ⟨herr, hok⟩ := h.prepareIssue core stream
  unfold Machine.stepIssue
  split
  · next s1 he => exact Canonical.next ((herr s1 he).frame rfl)
  · next i s1 slot he =>
    have hx := (hok i s1 slot he).exec i
    split
    · next s2 hr => exact Canonical.next (((hx s2 hr).settleRow core stream slot).frame rfl)
    · exact canonicalNext_fault _
    · exact canonicalNext_refused _

theorem Canonical.prepareTurn (h : Canonical s) (u : Nat) :
    CanonicalPrepared (if programSkipped s u then .error s else Machine.prepareProgram s u) := by
  split
  · exact h.notPrepared
  · exact h.prepareProgram u

theorem Canonical.stepProgram (h : Canonical s) (u : Nat) : CanonicalNext (stepProgram s u) := by
  obtain ⟨herr, hok⟩ := h.prepareTurn u
  unfold Machine.stepProgram
  split
  · next s1 he => exact Canonical.next ((herr s1 he).frame rfl)
  · next i s1 he =>
    have hx := (hok i s1 he).exec i
    split
    · next s2 hr => exact Canonical.next ((hx s2 hr).frame rfl)
    · exact canonicalNext_fault _
    · exact canonicalNext_refused _

theorem Canonical.stepTurn (h : Canonical s) (t : Turn) : CanonicalNext (stepTurn s t) := by
  cases t with
  | issue core stream => exact h.stepIssue core stream
  | program u => exact h.stepProgram u
  | event i => exact Canonical.exec (by exact h.frame rfl) i
  | carry port ch => exact (h.carry port ch).next
  | tick | dropL1 | dropConst | dropInstr | dropMordant | dropLine | dropTlb | eccError => exact (h.worldTurn _).next

end

/-- Settles O11: every turn keeps the form, since every instruction, event and turn of the world does; memory is written through
the writers of bytes alone, and each of them keeps it. -/
theorem stepKeepsMemoryCanonical : Obligations.StepKeepsMemoryCanonical := by
  unfold Obligations.StepKeepsMemoryCanonical
  intro s s' h hs
  have h1 : Canonical (takeTurn s).2 := Canonical.takeTurn h
  exact h1.stepTurn (takeTurn s).1 s' hs

end Sys2Proof.Machine
end
